-- ==== Sys2Proof/Word.lean ====
section
/-! DEFINITION. The word types of the Mynath D7 and their plainest arithmetic (spec/00_scope.md R4, spec/01_machine_state.md R11). -/

namespace Sys2Proof

/-- One byte. -/
abbrev Byte := BitVec 8

/-- One scalar register, handle or 64-bit record field (R11, R23). -/
abbrev Word := BitVec 64

/-- Number of a scalar register s0 to s31. -/
abbrev SReg := Fin 32

/-- Number of a tile register t0 to t15. -/
abbrev TReg := Fin 16

/-- Number of a view register p0 to p7. -/
abbrev PReg := Fin 8

/-- How traffic of a peer arrives: its link, the device that it names as PEER, and the inbound window (R324). -/
structure PeerPort where
  link : Nat
  device : Nat
  window : Nat
deriving DecidableEq, Repr

/-- Where a memory request of the host goes: an offset in the function's BAR2, or a host physical address on CXL.mem (R321). -/
structure HostAddr where
  addr : Nat
  cxl : Bool
deriving DecidableEq, Repr

/-- What a PLDM request names, a sensor or an offset in the kit's slot, and how it comes: over I3C, or through a function (R308). -/
structure PldmPoint where
  via : Option Nat
  no : Nat
deriving DecidableEq, Repr

/-- The word whose unsigned value is `n` modulo 2^64. -/
def word (n : Nat) : Word := BitVec.ofNat 64 n

/-- The word whose signed value is `n` modulo 2^64. -/
def wordOfInt (n : Int) : Word := BitVec.ofInt 64 n

/-- Bits [hi:lo] of a number, as a number (the numbering of R4). -/
def bitsOf (n hi lo : Nat) : Nat := n / 2 ^ lo % 2 ^ (hi + 1 - lo)

/-- Bit `i` of a number. -/
def bitOf (n i : Nat) : Bool := n / 2 ^ i % 2 == 1

end Sys2Proof
end

