-- ==== Sys2Proof/Config.lean ====
section
/-! DEFINITION. What the spec leaves to the implementation or leaves open: opaque constants, so that no proof sees a value.
Each is a free value of notes/assumptions (7, 8, 9, 10, 11). -/

namespace Sys2Proof.Config

/-- A free natural number, one for each value of the counter State.fresh (log 7). -/
opaque freeNat : Nat → Nat

/-- A free word, one for each value of State.fresh (log 7): RNG (spec/10 R225), results of a service request (R213),
undefined results. -/
opaque freeWord : Nat → Word

/-- A free choice, one for each value of State.fresh (log 7): which permitted value a read-only read returns (spec/08 R189). -/
opaque freeBool : Nat → Bool

/-- How many cycles pass in a step (log 8): the spec gives no timing that a program can rely on. -/
opaque elapsed : Nat → Nat

/-- The device key (spec/01 R25, spec/10 R224): never readable (log 9). -/
opaque deviceKey : BitVec 256

/-- The device memory key, which Saffron derives from the device key by a rule the spec does not give (spec/14 R253) (log 9). -/
opaque deviceMemoryKey : BitVec 256

/-- The secret number of an ECDSA signature (spec/10 R225 gives the curve and no method for it) (log 9). -/
opaque ecdsaNonce : Nat → Nat

/-- Saffron's private key for SPDM and the bytes of the device certificate chain (spec/18 R334) (log 9). -/
opaque leafKey : Nat

/-- The device certificate chain (spec/18 R334) (log 9). -/
opaque certChain : Nat → Byte

/-- Its length in bytes (log 9). -/
opaque certChainLength : Nat

/-- The entry of the Alaxus vendor registry under which the curve is offered (spec/18 R334) (log 33). -/
opaque spdmAlgorithm : BitVec 32

/-- Bytes of SPDM answers that the spec does not give (log 33). -/
opaque spdmFree : Nat → Byte

/-- The digest of the signing key fused into the device (spec/18 R328) (log 9). -/
opaque fusedSigner : BitVec 384

/-- The fused rollback floor (spec/18 R328) (log 9). -/
opaque fusedFloor : Nat

/-- The row of its array that holds a scratchpad word of a tile core, bank 512 and row 1: spec/10 R221 gives no mapping (log
10). -/
opaque padRow : Equiv.Perm (Fin 8192)

/-- The row of its array that holds a word of a physical tile register, counted 512 to a register (log 10). -/
opaque tileRow : Equiv.Perm (Fin 8192)

/-- The order in which a context's tile registers take the physical registers of its core that are free, by State.fresh (log 10). -/
opaque physOrder : Nat → Equiv.Perm (Fin 16)

/-- CODE and DETAIL of a log entry for a memory error where the spec states none (spec/16 R307) (log 7). -/
opaque errorCode : Nat

/-- CODE of a KIND 4 entry that lists a correction beside the mismatch (spec/14 R256) (log 7). -/
opaque correctionCode : Nat

/-- DETAIL of such an entry, for a core (log 7). -/
opaque errorDetail : Nat → Word

/-- What a sensor of PLDM platform monitoring reads where the spec gives no value (spec/16 R308) (log 11). -/
opaque sensor : Nat → Nat → Word

/-- The dump key: Saffron derives it from the device key and TIME, by a rule the spec does not give (spec/16 R311) (log 9). -/
opaque dumpKey : Word → BitVec 256

/-- Which sensor a PLDM sensor number names: below 128 a cluster, below 256 a cluster's power share, 256 Sumac, 257 the input voltage,
others what the spec gives no value for (spec/16 R308) (log 11). -/
opaque sensorKind : Nat → Nat

/-- Where Saffron places the submission ring of a queue (spec/15 R269) (log 32). -/
opaque ringBase : Nat → Word

/-- The rows of a core that a march test finds failing, a fault of the part: array, bank, and row, its spares from 512 on (spec/16 R295, spec/17
R318) (log 24). -/
opaque failingRows : Nat → List (Nat × Nat × Nat)

/-- How many version pages the protected region has (spec/14 R252, R254) (log 32). -/
opaque versionPages : Nat

/-- The bytes that stand for the queue bindings in the digest of MR5 (spec/18 R332) (log 9). -/
opaque bindingBytes : List (Nat × Nat) → List Byte

/-- The command byte of a table operation, as MR6 measures it (spec/18 R331) (log 9). -/
opaque opCommand : Nat → Byte

/-- The payload words of the message that TREDX sends: spec/06 R155 gives its tile and its destination only (log 7). -/
opaque chainPayload : Nat → Word

/-- Which of the 32 data groups of a die's RDC holds a line homed on another die (spec/14 R248, R259 give no mapping) (log 10). -/
opaque rdcGroup : Nat → Nat

/-- The set of a line in its home slice, and in an RDC (spec/14 R249 gives no mapping) (log 10). -/
opaque l2Set : Nat → Nat
opaque rdcSet : Nat → Nat

/-- The bytes of PF0's package status, by the counter State.fresh and the offset (spec/18 R320 gives no layout) (log 11). -/
opaque packageStatus : Nat → Nat → Byte

end Sys2Proof.Config
end

