-- ==== Sys2Proof/Syntax.lean ====
section
/-! DEFINITION. The steps of the machine: one constructor for each row of spec/opcode_table.json.

The first 214 are the encoded instructions (spec/02_formats_encodings.md R47 to R60). Their operands are the fields
of the word, named as the table names them: d, a, b scalar registers; x, y, z tile registers (td, ta, tb); w and v the wait
bits of a and b; t a tile register or, in a product, the accumulator group (false for t0, true for t8). The other 123 are
the events that no word encodes (spec/95_what_each_step_holds.md); their operands say where the event happens: h is a context
(a task, a service core's firmware or Saffron), m a message in flight, cap a capsule. -/

namespace Sys2Proof

/-- One step of the Mynath D7: an instruction or an event of the opcode table. -/
inductive Instr where
  /-- ADD (R72): Writes d with the sum a + b modulo 2^64. -/
  | add (d : SReg) (a : SReg) (b : SReg) (w : Bool) (v : Bool)
  /-- SUB (R72): Writes d with the difference a - b modulo 2^64. -/
  | sub (d : SReg) (a : SReg) (b : SReg) (w : Bool) (v : Bool)
  /-- AND (R72): Writes d with the bitwise AND of a and b. -/
  | and (d : SReg) (a : SReg) (b : SReg) (w : Bool) (v : Bool)
  /-- OR (R72): Writes d with the bitwise OR of a and b. -/
  | or (d : SReg) (a : SReg) (b : SReg) (w : Bool) (v : Bool)
  /-- XOR (R72): Writes d with the bitwise XOR of a and b. -/
  | xor (d : SReg) (a : SReg) (b : SReg) (w : Bool) (v : Bool)
  /-- SHL (R72): Writes d with a shifted left by b[5:0]. -/
  | shl (d : SReg) (a : SReg) (b : SReg) (w : Bool) (v : Bool)
  /-- SHR (R72): Writes d with a shifted right by b[5:0], filling with zeros. -/
  | shr (d : SReg) (a : SReg) (b : SReg) (w : Bool) (v : Bool)
  /-- SRA (R72): Writes d with a shifted right by b[5:0], filling with copies of bit 63. -/
  | sra (d : SReg) (a : SReg) (b : SReg) (w : Bool) (v : Bool)
  /-- ROL (R72): Writes d with a rotated left by b[5:0]. -/
  | rol (d : SReg) (a : SReg) (b : SReg) (w : Bool) (v : Bool)
  /-- MIN (R72): Writes d with the signed minimum of a and b. -/
  | min (d : SReg) (a : SReg) (b : SReg) (w : Bool) (v : Bool)
  /-- MAX (R72): Writes d with the signed maximum of a and b. -/
  | max (d : SReg) (a : SReg) (b : SReg) (w : Bool) (v : Bool)
  /-- MINU (R72): Writes d with the unsigned minimum of a and b. -/
  | minu (d : SReg) (a : SReg) (b : SReg) (w : Bool) (v : Bool)
  /-- MAXU (R72): Writes d with the unsigned maximum of a and b. -/
  | maxu (d : SReg) (a : SReg) (b : SReg) (w : Bool) (v : Bool)
  /-- SLT (R72): Writes d with 1 when a < b signed, else 0. -/
  | slt (d : SReg) (a : SReg) (b : SReg) (w : Bool) (v : Bool)
  /-- SLTU (R72): Writes d with 1 when a < b unsigned, else 0. -/
  | sltu (d : SReg) (a : SReg) (b : SReg) (w : Bool) (v : Bool)
  /-- SEQ (R72): Writes d with 1 when a equals b, else 0. -/
  | seq (d : SReg) (a : SReg) (b : SReg) (w : Bool) (v : Bool)
  /-- SEL (R72): Writes d with a when the old d is nonzero, else b. -/
  | sel (d : SReg) (a : SReg) (b : SReg) (w : Bool) (v : Bool)
  /-- MUL (R73): Writes d with the low 64 bits of a times b. -/
  | mul (d : SReg) (a : SReg) (b : SReg) (w : Bool) (v : Bool)
  /-- MULH (R73): Writes d with the high 64 bits of the signed 128-bit product. -/
  | mulh (d : SReg) (a : SReg) (b : SReg) (w : Bool) (v : Bool)
  /-- MULHU (R73): Writes d with the high 64 bits of the unsigned 128-bit product. -/
  | mulhu (d : SReg) (a : SReg) (b : SReg) (w : Bool) (v : Bool)
  /-- DIV (R73): Writes d with the signed quotient truncated toward zero, without faulting. -/
  | div (d : SReg) (a : SReg) (b : SReg) (w : Bool) (v : Bool)
  /-- DIVU (R73): Writes d with the unsigned quotient, without faulting. -/
  | divu (d : SReg) (a : SReg) (b : SReg) (w : Bool) (v : Bool)
  /-- REM (R73): Writes d with the signed remainder carrying the sign of a. -/
  | rem (d : SReg) (a : SReg) (b : SReg) (w : Bool) (v : Bool)
  /-- REMU (R73): Writes d with the unsigned remainder. -/
  | remu (d : SReg) (a : SReg) (b : SReg) (w : Bool) (v : Bool)
  /-- MOV (R74): Copies a into d. -/
  | mov (d : SReg) (a : SReg) (w : Bool)
  /-- CLZ (R74): Writes d with the count of leading zero bits of a. -/
  | clz (d : SReg) (a : SReg) (w : Bool)
  /-- CTZ (R74): Writes d with the count of trailing zero bits of a. -/
  | ctz (d : SReg) (a : SReg) (w : Bool)
  /-- POPC (R74): Writes d with the count of one bits of a. -/
  | popc (d : SReg) (a : SReg) (w : Bool)
  /-- BSWAP (R74): Writes d with the eight bytes of a reversed. -/
  | bswap (d : SReg) (a : SReg) (w : Bool)
  /-- HMK (R76): Builds a handle from the extent index in a and the offset in b. -/
  | hmk (d : SReg) (a : SReg) (b : SReg) (w : Bool) (v : Bool)
  /-- HOFF (R76): Writes d with the offset bits of handle a. -/
  | hoff (d : SReg) (a : SReg) (w : Bool)
  /-- HLEN (R76): Writes d with the LENGTH of the extent that handle a names, or 0. -/
  | hlen (d : SReg) (a : SReg) (w : Bool)
  /-- HRGT (R76): Writes d with ATTR[11:0] of the extent that handle a names, or 0. -/
  | hrgt (d : SReg) (a : SReg) (w : Bool)
  /-- TIME (R77): Writes d with the PTP time in nanoseconds taken at issue. -/
  | time (d : SReg)
  /-- ADDI (R75): Writes d with a plus the signed immediate. -/
  | addi (d : SReg) (a : SReg) (w : Bool) (i : BitVec 15)
  /-- ANDI (R75): Writes d with a AND the signed immediate. -/
  | andi (d : SReg) (a : SReg) (w : Bool) (i : BitVec 15)
  /-- ORI (R75): Writes d with a OR the signed immediate. -/
  | ori (d : SReg) (a : SReg) (w : Bool) (i : BitVec 15)
  /-- XORI (R75): Writes d with a XOR the signed immediate. -/
  | xori (d : SReg) (a : SReg) (w : Bool) (i : BitVec 15)
  /-- SHLI (R75): Writes d with a shifted left by the immediate count. -/
  | shli (d : SReg) (a : SReg) (w : Bool) (c : BitVec 6)
  /-- SHRI (R75): Writes d with a shifted right with zeros by the immediate count. -/
  | shri (d : SReg) (a : SReg) (w : Bool) (c : BitVec 6)
  /-- SRAI (R75): Writes d with a shifted right arithmetically by the immediate count. -/
  | srai (d : SReg) (a : SReg) (w : Bool) (c : BitVec 6)
  /-- EXT (R75): Writes d with a bit field of a, zero-extended. -/
  | ext (d : SReg) (a : SReg) (w : Bool) (l : BitVec 6) (p : BitVec 6)
  /-- INS (R75): Inserts the low bits of a into a bit field of d, keeping the other bits of d. -/
  | ins (d : SReg) (a : SReg) (w : Bool) (l : BitVec 6) (p : BitVec 6)
  /-- MOVI (R75): Writes d with the sign-extended immediate. -/
  | movi (d : SReg) (i : BitVec 15)
  /-- BR_EQ (R78): Branches when a equals b. -/
  | brEq (a : SReg) (b : SReg) (j : BitVec 13)
  /-- BR_NE (R78): Branches when a differs from b. -/
  | brNe (a : SReg) (b : SReg) (j : BitVec 13)
  /-- BR_LT (R78): Branches when a < b signed. -/
  | brLt (a : SReg) (b : SReg) (j : BitVec 13)
  /-- BR_GE (R78): Branches when a >= b signed. -/
  | brGe (a : SReg) (b : SReg) (j : BitVec 13)
  /-- BR_LTU (R78): Branches when a < b unsigned. -/
  | brLtu (a : SReg) (b : SReg) (j : BitVec 13)
  /-- BR_GEU (R78): Branches when a >= b unsigned. -/
  | brGeu (a : SReg) (b : SReg) (j : BitVec 13)
  /-- J (R78): Transfers unconditionally to the target. -/
  | j (j : BitVec 26)
  /-- JL (R78): Transfers to the target and writes the link into s31. -/
  | jl (j : BitVec 26)
  /-- JR (R78): Transfers to the handle in a with bits [1:0] cleared. -/
  | jr (a : SReg) (w : Bool)
  /-- SEND (R85): Checks the destination word and buffers a handler or data message for release at commit. -/
  | send (a : SReg) (b : SReg) (w : Bool) (v : Bool)
  /-- SENDT (R85): Buffers a message carrying tile td with its shape word. -/
  | sendt (t : TReg) (a : SReg) (b : SReg) (w : Bool) (v : Bool)
  /-- SENDX (R85): Buffers a message to an endpoint extent for release at commit. -/
  | sendx (a : SReg) (b : SReg) (w : Bool) (v : Bool)
  /-- RECV (R87): Takes payload word 0 of the oldest unconsumed entry of a data port into d, blocking while none exists. -/
  | recv (d : SReg) (n : BitVec 2)
  /-- TRECV (R87): Takes the tile of the oldest unconsumed port entry into td, blocking while none exists. -/
  | trecv (t : TReg) (n : BitVec 2)
  /-- JNEW (R89): Checks and buffers the creation of a join at a cell, registered at commit. -/
  | jnew (d : SReg) (a : SReg) (b : SReg) (w : Bool) (v : Bool)
  /-- ARRIVE (R90): Buffers an arrival at a join cell, applied at its home at commit. -/
  | arrive (a : SReg) (w : Bool)
  /-- WQRY (R93): Marks a scratchpad word empty and sends a work distributor query for it. -/
  | wqry (a : SReg) (b : SReg) (w : Bool) (v : Bool)
  /-- WAIT (R98): Blocks until a time is reached or a selected data port holds an entry. -/
  | wait (a : SReg) (b : SReg) (w : Bool) (v : Bool)
  /-- MIGR (R99): Moves the running task with its chunk to the cluster's service core. -/
  | migr
  /-- MRET (R99): Queues a migrated task for a tile core of its cluster. -/
  | mret
  /-- SPAWN (R218): Checks a child capsule image and attenuation entries and buffers the spawn for commit. -/
  | spawn (d : SReg) (a : SReg) (b : SReg) (w : Bool) (v : Bool)
  /-- SAFE (R39): Resets the safe-point distance, or, with pre-emption pending, commits, writes a continuation record and ends the task. -/
  | safe (m : BitVec 16)
  /-- DONE (R95): Commits the chunk and ends the task. -/
  | done
  /-- CONT (R96): Commits the chunk, ends the task and sends a handler message to the same core. -/
  | cont (a : SReg) (b : SReg) (w : Bool) (v : Bool)
  /-- NOP (R62): Advances PC by 4 and changes nothing else. -/
  | nop
  /-- LIMM (R63): Supplies bits [40:15] of the next word's immediate, the pair issuing as one instruction. -/
  | limm (i : BitVec 26)
  /-- LD_B (R187): Loads one byte, sign-extended, into d. -/
  | ldB (d : SReg) (a : SReg) (w : Bool) (o : BitVec 13)
  /-- LD_H (R187): Loads two bytes, sign-extended, into d. -/
  | ldH (d : SReg) (a : SReg) (w : Bool) (o : BitVec 13)
  /-- LD_W (R187): Loads four bytes, sign-extended, into d. -/
  | ldW (d : SReg) (a : SReg) (w : Bool) (o : BitVec 13)
  /-- LD_D (R187): Loads eight bytes into d. -/
  | ldD (d : SReg) (a : SReg) (w : Bool) (o : BitVec 13)
  /-- ST_B (R187): Buffers a one-byte store of d. -/
  | stB (d : SReg) (a : SReg) (w : Bool) (o : BitVec 13)
  /-- ST_H (R187): Buffers a two-byte store of d. -/
  | stH (d : SReg) (a : SReg) (w : Bool) (o : BitVec 13)
  /-- ST_W (R187): Buffers a four-byte store of d. -/
  | stW (d : SReg) (a : SReg) (w : Bool) (o : BitVec 13)
  /-- ST_D (R187): Buffers an eight-byte store of d. -/
  | stD (d : SReg) (a : SReg) (w : Bool) (o : BitVec 13)
  /-- LDC (R189): Loads eight bytes through the cluster's read-only cache. -/
  | ldc (d : SReg) (a : SReg) (w : Bool) (i : BitVec 15)
  /-- LDS (R191): Reads a word of the task's own registers by window index. -/
  | lds (d : SReg) (a : SReg) (w : Bool)
  /-- STS (R191): Writes a word of the task's own registers by window index. -/
  | sts (a : SReg) (b : SReg) (w : Bool) (v : Bool)
  /-- AMOADD (R194): Returning atomic add, reading old at execution and buffering the new value. -/
  | amoadd (d : SReg) (a : SReg) (b : SReg) (w : Bool) (v : Bool) (x : Bool)
  /-- AMOAND (R194): Returning atomic AND. -/
  | amoand (d : SReg) (a : SReg) (b : SReg) (w : Bool) (v : Bool) (x : Bool)
  /-- AMOOR (R194): Returning atomic OR. -/
  | amoor (d : SReg) (a : SReg) (b : SReg) (w : Bool) (v : Bool) (x : Bool)
  /-- AMOXOR (R194): Returning atomic XOR. -/
  | amoxor (d : SReg) (a : SReg) (b : SReg) (w : Bool) (v : Bool) (x : Bool)
  /-- AMOMIN (R194): Returning atomic signed minimum. -/
  | amomin (d : SReg) (a : SReg) (b : SReg) (w : Bool) (v : Bool) (x : Bool)
  /-- AMOMAX (R194): Returning atomic signed maximum. -/
  | amomax (d : SReg) (a : SReg) (b : SReg) (w : Bool) (v : Bool) (x : Bool)
  /-- AMOMINU (R194): Returning atomic unsigned minimum. -/
  | amominu (d : SReg) (a : SReg) (b : SReg) (w : Bool) (v : Bool) (x : Bool)
  /-- AMOMAXU (R194): Returning atomic unsigned maximum. -/
  | amomaxu (d : SReg) (a : SReg) (b : SReg) (w : Bool) (v : Bool) (x : Bool)
  /-- AMOSWP (R194): Returning atomic swap. -/
  | amoswp (d : SReg) (a : SReg) (b : SReg) (w : Bool) (v : Bool) (x : Bool)
  /-- AMOCAS (R194): Returning atomic compare-and-swap with the compare value in d. -/
  | amocas (d : SReg) (a : SReg) (b : SReg) (w : Bool) (v : Bool) (x : Bool)
  /-- AMOFADD (R194): Returning FP32 atomic add. -/
  | amofadd (d : SReg) (a : SReg) (b : SReg) (w : Bool) (v : Bool)
  /-- AMOFMIN (R194): Returning FP32 atomic minimumNumber. -/
  | amofmin (d : SReg) (a : SReg) (b : SReg) (w : Bool) (v : Bool)
  /-- AMOFMAX (R194): Returning FP32 atomic maximumNumber. -/
  | amofmax (d : SReg) (a : SReg) (b : SReg) (w : Bool) (v : Bool)
  /-- AMOADD_NR (R194): No-return atomic add applied at the home slice at commit. -/
  | amoaddNr (a : SReg) (b : SReg) (w : Bool) (v : Bool) (x : Bool)
  /-- AMOAND_NR (R194): No-return atomic AND. -/
  | amoandNr (a : SReg) (b : SReg) (w : Bool) (v : Bool) (x : Bool)
  /-- AMOOR_NR (R194): No-return atomic OR. -/
  | amoorNr (a : SReg) (b : SReg) (w : Bool) (v : Bool) (x : Bool)
  /-- AMOXOR_NR (R194): No-return atomic XOR. -/
  | amoxorNr (a : SReg) (b : SReg) (w : Bool) (v : Bool) (x : Bool)
  /-- AMOMIN_NR (R194): No-return atomic signed minimum. -/
  | amominNr (a : SReg) (b : SReg) (w : Bool) (v : Bool) (x : Bool)
  /-- AMOMAX_NR (R194): No-return atomic signed maximum. -/
  | amomaxNr (a : SReg) (b : SReg) (w : Bool) (v : Bool) (x : Bool)
  /-- AMOMINU_NR (R194): No-return atomic unsigned minimum. -/
  | amominuNr (a : SReg) (b : SReg) (w : Bool) (v : Bool) (x : Bool)
  /-- AMOMAXU_NR (R194): No-return atomic unsigned maximum. -/
  | amomaxuNr (a : SReg) (b : SReg) (w : Bool) (v : Bool) (x : Bool)
  /-- AMOFADD_NR (R194): No-return FP32 atomic add. -/
  | amofaddNr (a : SReg) (b : SReg) (w : Bool) (v : Bool)
  /-- AMOFMIN_NR (R194): No-return FP32 atomic minimumNumber. -/
  | amofminNr (a : SReg) (b : SReg) (w : Bool) (v : Bool)
  /-- AMOFMAX_NR (R194): No-return FP32 atomic maximumNumber. -/
  | amofmaxNr (a : SReg) (b : SReg) (w : Bool) (v : Bool)
  /-- FENCE_X (R196): Buffers a fence that holds later endpoint releases behind earlier tier-1 writes. -/
  | fenceX
  /-- FENCE_H (R196): Buffers a fence that orders the task's tier-1 writes. -/
  | fenceH
  /-- GATE (R195): Blocks until a 64-bit memory word reaches a threshold. -/
  | gate (a : SReg) (b : SReg) (w : Bool) (v : Bool)
  /-- CINV (R190): Invalidates the cluster's read-only copies of a range at issue. -/
  | cinv (a : SReg) (b : SReg) (w : Bool) (v : Bool)
  /-- TLD (R127): Loads a tile from memory through a view. -/
  | tld (t : TReg) (p : PReg) (q : BitVec 2) (f : BitVec 3) (k : Bool)
  /-- TLDC (R127): Loads a tile through the cluster's read-only cache. -/
  | tldc (t : TReg) (p : PReg) (q : BitVec 2) (f : BitVec 3) (k : Bool)
  /-- TST (R127): Buffers row stores of a tile through a view. -/
  | tst (t : TReg) (p : PReg) (q : BitVec 2) (f : BitVec 3) (w : Bool)
  /-- TLDS (R130): Loads a tile from scratchpad through a decoding window. -/
  | tlds (t : TReg) (p : PReg) (q : BitVec 2) (n : BitVec 3) (k : Bool)
  /-- TSTS (R131): Buffers scratchpad stores of a tile through window W0. -/
  | tsts (t : TReg) (p : PReg) (q : BitVec 2) (n : BitVec 3) (w : Bool)
  /-- TSHAPE (R125): Sets a tile register's shape word. -/
  | tshape (t : TReg) (a : SReg) (w : Bool)
  /-- TSHAPEQ (R125): Reads a tile register's shape word into d. -/
  | tshapeq (d : SReg) (t : TReg)
  /-- TCLR (R125): Zeroes a tile's data, keeping its shape. -/
  | tclr (t : TReg)
  /-- TMOV (R125): Copies a tile with its shape word. -/
  | tmov (x : TReg) (y : TReg) (w : Bool)
  /-- TTR (R125): Transposes a tile. -/
  | ttr (x : TReg) (y : TReg) (w : Bool)
  /-- TBCR (R125): Broadcasts one row of a tile to every row. -/
  | tbcr (x : TReg) (y : TReg) (b : SReg) (w : Bool) (v : Bool)
  /-- TBCC (R125): Broadcasts one column of a tile to every column. -/
  | tbcc (x : TReg) (y : TReg) (b : SReg) (w : Bool) (v : Bool)
  /-- TEXTR (R125): Extracts one tile element into a scalar register. -/
  | textr (d : SReg) (t : TReg) (b : SReg) (w : Bool) (v : Bool)
  /-- TINS (R125): Inserts a scalar into one tile element. -/
  | tins (t : TReg) (a : SReg) (b : SReg) (w : Bool) (v : Bool)
  /-- VSET (R126): Sets a view register's handle and limits. -/
  | vset (p : PReg) (a : SReg) (b : SReg) (w : Bool) (v : Bool)
  /-- VADV (R126): Advances a view's handle and lowers its limits. -/
  | vadv (p : PReg) (a : SReg) (b : SReg) (w : Bool) (v : Bool)
  /-- VGET (R126): Reads one half of a view register into d. -/
  | vget (d : SReg) (p : PReg) (n : BitVec 1)
  /-- TADD (R145): Element-wise addition, with optional integer saturation. -/
  | tadd (x : TReg) (y : TReg) (z : TReg) (w : Bool) (v : Bool) (s : Bool) (f : BitVec 4)
  /-- TSUB (R145): Element-wise subtraction. -/
  | tsub (x : TReg) (y : TReg) (z : TReg) (w : Bool) (v : Bool) (s : Bool) (f : BitVec 4)
  /-- TMUL (R145): Element-wise multiplication. -/
  | tmul (x : TReg) (y : TReg) (z : TReg) (w : Bool) (v : Bool) (s : Bool) (f : BitVec 4)
  /-- TFMA (R146): Element-wise fused multiply-add into td. -/
  | tfma (x : TReg) (y : TReg) (z : TReg) (w : Bool) (v : Bool) (f : BitVec 4)
  /-- TMIN (R145): Element-wise minimum. -/
  | tmin (x : TReg) (y : TReg) (z : TReg) (w : Bool) (v : Bool) (f : BitVec 4)
  /-- TMAX (R145): Element-wise maximum. -/
  | tmax (x : TReg) (y : TReg) (z : TReg) (w : Bool) (v : Bool) (f : BitVec 4)
  /-- TABS (R145): Element-wise absolute value. -/
  | tabs (x : TReg) (y : TReg) (w : Bool) (s : Bool) (f : BitVec 4)
  /-- TNEG (R145): Element-wise negation. -/
  | tneg (x : TReg) (y : TReg) (w : Bool) (s : Bool) (f : BitVec 4)
  /-- TAND (R147): Element-wise bitwise AND. -/
  | tand (x : TReg) (y : TReg) (z : TReg) (w : Bool) (v : Bool) (f : BitVec 4)
  /-- TOR (R147): Element-wise bitwise OR. -/
  | tor (x : TReg) (y : TReg) (z : TReg) (w : Bool) (v : Bool) (f : BitVec 4)
  /-- TXOR (R147): Element-wise bitwise XOR. -/
  | txor (x : TReg) (y : TReg) (z : TReg) (w : Bool) (v : Bool) (f : BitVec 4)
  /-- TSHL (R147): Element-wise left shift, with optional saturation. -/
  | tshl (x : TReg) (y : TReg) (z : TReg) (w : Bool) (v : Bool) (s : Bool) (f : BitVec 4)
  /-- TSHR (R147): Element-wise logical right shift. -/
  | tshr (x : TReg) (y : TReg) (z : TReg) (w : Bool) (v : Bool) (f : BitVec 4)
  /-- TSRA (R147): Element-wise arithmetic right shift. -/
  | tsra (x : TReg) (y : TReg) (z : TReg) (w : Bool) (v : Bool) (f : BitVec 4)
  /-- TSCALE (R146): Scales each element by a power of two from tb. -/
  | tscale (x : TReg) (y : TReg) (z : TReg) (w : Bool) (v : Bool) (f : BitVec 4)
  /-- TSEL (R148): Selects elements of ta or tb by the old td. -/
  | tsel (x : TReg) (y : TReg) (z : TReg) (w : Bool) (v : Bool) (f : BitVec 4)
  /-- TCMP_EQ (R148): Element-wise equality comparison to all-ones or zero. -/
  | tcmpEq (x : TReg) (y : TReg) (z : TReg) (w : Bool) (v : Bool) (f : BitVec 4)
  /-- TCMP_NE (R148): Element-wise inequality comparison. -/
  | tcmpNe (x : TReg) (y : TReg) (z : TReg) (w : Bool) (v : Bool) (f : BitVec 4)
  /-- TCMP_LT (R148): Element-wise less-than comparison. -/
  | tcmpLt (x : TReg) (y : TReg) (z : TReg) (w : Bool) (v : Bool) (f : BitVec 4)
  /-- TCMP_LE (R148): Element-wise less-or-equal comparison. -/
  | tcmpLe (x : TReg) (y : TReg) (z : TReg) (w : Bool) (v : Bool) (f : BitVec 4)
  /-- TEXP (R149): Element-wise 2^a rounded once. -/
  | texp (x : TReg) (y : TReg) (w : Bool) (f : BitVec 4)
  /-- TLOG (R149): Element-wise log2 rounded once. -/
  | tlog (x : TReg) (y : TReg) (w : Bool) (f : BitVec 4)
  /-- TRCP (R149): Element-wise reciprocal rounded once. -/
  | trcp (x : TReg) (y : TReg) (w : Bool) (f : BitVec 4)
  /-- TRSQ (R149): Element-wise reciprocal square root rounded once. -/
  | trsq (x : TReg) (y : TReg) (w : Bool) (f : BitVec 4)
  /-- TREDR_ADD (R150): Sums each row in ascending column order. -/
  | tredrAdd (x : TReg) (y : TReg) (w : Bool) (f : BitVec 4)
  /-- TREDR_MAX (R150): Takes the maximum of each row. -/
  | tredrMax (x : TReg) (y : TReg) (w : Bool) (f : BitVec 4)
  /-- TREDR_MIN (R150): Takes the minimum of each row. -/
  | tredrMin (x : TReg) (y : TReg) (w : Bool) (f : BitVec 4)
  /-- TREDC_ADD (R150): Sums each column in ascending row order. -/
  | tredcAdd (x : TReg) (y : TReg) (w : Bool) (f : BitVec 4)
  /-- TREDC_MAX (R150): Takes the maximum of each column. -/
  | tredcMax (x : TReg) (y : TReg) (w : Bool) (f : BitVec 4)
  /-- TREDC_MIN (R150): Takes the minimum of each column. -/
  | tredcMin (x : TReg) (y : TReg) (w : Bool) (f : BitVec 4)
  /-- TDOTR (R150): Forms the dot product of each row pair by fused multiply-adds. -/
  | tdotr (x : TReg) (y : TReg) (z : TReg) (w : Bool) (v : Bool) (f : BitVec 4)
  /-- TCVT (R151): Converts every element to a destination format in a named rounding mode. -/
  | tcvt (x : TReg) (y : TReg) (w : Bool) (f : BitVec 4) (r : BitVec 3)
  /-- TQNT (R153): Quantises a tile into nested-precision plane form. -/
  | tqnt (x : TReg) (y : TReg) (z : TReg) (w : Bool) (v : Bool) (c : BitVec 3) (r : Bool)
  /-- TDQ (R154): Decodes a plane-form tile to BF16 with scales. -/
  | tdq (x : TReg) (y : TReg) (z : TReg) (w : Bool) (v : Bool) (c : BitVec 3) (r : Bool)
  /-- TREDX (R155): Adds the task's partial to the chain sum from port 3 and forwards it to the next rank. -/
  | tredx (x : TReg) (y : TReg) (w : Bool) (l : BitVec 3)
  /-- MMA (R174): Multiplies an A slot by the active weights and accumulates into a group. -/
  | mma (t : Bool) (a : BitVec 4) (b : BitVec 4) (k : BitVec 3)
  /-- MMAL (R175): Matrix product in table-lookup mode. -/
  | mmal (t : Bool) (a : BitVec 4) (b : BitVec 4) (k : BitVec 3)
  /-- MMAH_16 (R176): Matrix product with a 16-point Hadamard transform of A. -/
  | mmah16 (t : Bool) (a : BitVec 4) (b : BitVec 4) (k : BitVec 3)
  /-- MMAH_32 (R176): Matrix product with a 32-point Hadamard transform of A. -/
  | mmah32 (t : Bool) (a : BitVec 4) (b : BitVec 4) (k : BitVec 3)
  /-- MMAH_64 (R176): Matrix product with a 64-point Hadamard transform of A. -/
  | mmah64 (t : Bool) (a : BitVec 4) (b : BitVec 4) (k : BitVec 3)
  /-- MMAE (R179): Matrix product followed by the epilogue. -/
  | mmae (t : Bool) (a : BitVec 4) (b : BitVec 4) (k : BitVec 3)
  /-- MMAE_L (R179): Table-lookup product followed by the epilogue. -/
  | mmaeL (t : Bool) (a : BitVec 4) (b : BitVec 4) (k : BitVec 3)
  /-- MMAE_H_16 (R179): 16-point Hadamard product followed by the epilogue. -/
  | mmaeH16 (t : Bool) (a : BitVec 4) (b : BitVec 4) (k : BitVec 3)
  /-- MMAE_H_32 (R179): 32-point Hadamard product followed by the epilogue. -/
  | mmaeH32 (t : Bool) (a : BitVec 4) (b : BitVec 4) (k : BitVec 3)
  /-- MMAE_H_64 (R179): 64-point Hadamard product followed by the epilogue. -/
  | mmaeH64 (t : Bool) (a : BitVec 4) (b : BitVec 4) (k : BitVec 3)
  /-- MLDW (R171): Loads planes of the B slot at the ring head as pending weights. -/
  | mldw (b : BitVec 4) (k : BitVec 3)
  /-- MLEASE (R162): Binds a mask of rings to a new lease, waiting until all are free. -/
  | mlease (a : SReg) (w : Bool)
  /-- MREL (R163): Buffers the end of the lease for its commit. -/
  | mrel
  /-- MRDEF (R166): Defines or undefines a bound ring at issue. -/
  | mrdef (a : SReg) (b : SReg) (w : Bool) (v : Bool)
  /-- MRQ (R170): Reads a ring's state into d. -/
  | mrq (d : SReg) (a : SReg) (w : Bool)
  /-- MCHK (R182): Waits for all the task's products to be checked and reports counts. -/
  | mchk (d : SReg)
  /-- MDRAIN (R182): Waits until every matrix command of the task has completed and been checked. -/
  | mdrain
  /-- CPY_MS (R133): Starts a copy from memory to scratchpad at issue. -/
  | cpyMs (d : SReg) (a : SReg) (b : SReg) (w : Bool) (v : Bool)
  /-- CPY_SM (R133): Buffers a copy from scratchpad to memory released at commit. -/
  | cpySm (d : SReg) (a : SReg) (b : SReg) (w : Bool) (v : Bool)
  /-- CPY_MR (R133): Starts a copy from memory into an operand ring. -/
  | cpyMr (d : SReg) (a : SReg) (b : SReg) (w : Bool) (v : Bool)
  /-- CPY_UR (R133): Starts an unsealing copy from sealed weights into a B-sealed ring. -/
  | cpyUr (d : SReg) (a : SReg) (b : SReg) (w : Bool) (v : Bool)
  /-- CPY_ES (R133): Starts a copy from a peer endpoint to scratchpad. -/
  | cpyEs (d : SReg) (a : SReg) (b : SReg) (w : Bool) (v : Bool)
  /-- CPY_SE (R133): Buffers a copy from scratchpad to a peer endpoint released at commit. -/
  | cpySe (d : SReg) (a : SReg) (b : SReg) (w : Bool) (v : Bool)
  /-- CPYWP (R138): Reads a channel's write pointer. -/
  | cpywp (d : SReg) (a : SReg) (w : Bool)
  /-- CWAIT (R138): Blocks until a channel's write pointer reaches a value or the channel is idle. -/
  | cwait (a : SReg) (b : SReg) (w : Bool) (v : Bool)
  /-- OWN (R138): Reports whether the copy engine holds a scratchpad region. -/
  | own (d : SReg) (a : SReg) (w : Bool)
  /-- MEPI (R178): Runs the epilogue over an accumulator group into scratchpad. -/
  | mepi (t : Bool) (y : TReg) (c : BitVec 7) (r : BitVec 6)
  /-- TRAP (R213): Raises the TRAP fault, or hands a service request to service-core firmware. -/
  | trap (c : BitVec 16)
  /-- SYSRD (R215): Reads a system register into d. -/
  | sysrd (d : SReg) (n : BitVec 16)
  /-- SYSWR (R215): Writes a system register from a. -/
  | syswr (a : SReg) (n : BitVec 16)
  /-- SEALQ (R220): Reads an extent's seal state. -/
  | sealq (d : SReg) (a : SReg)
  /-- FREP (R220): Buffers the task's retained fault report as scratchpad stores. -/
  | frep (a : SReg)
  /-- DIAGRD (R221): Reads a word through the diagnostic window. -/
  | diagrd (d : SReg) (a : SReg)
  /-- DIAGWR (R221): Writes a word or sets the injection entry through the diagnostic window. -/
  | diagwr (d : SReg) (a : SReg)
  /-- REPAIR (R222): Writes an entry of the cluster's repair table. -/
  | repair (d : SReg) (a : SReg)
  /-- MSTAT (R220): Reads the state of the task's cluster. -/
  | mstat (d : SReg)
  /-- HALT (R224): Stops the service core's issue until a wake request or reset. -/
  | halt
  /-- WFE (R224): Stops the service core's issue until an inbox message, doorbell or firmware fault. -/
  | wfe
  /-- MMURD (R224): Reads a word of a service-core MMU entry. -/
  | mmurd (d : SReg) (a : SReg)
  /-- MMUWR (R224): Writes a word of a service-core MMU entry. -/
  | mmuwr (d : SReg) (a : SReg)
  /-- MMUINV (R224): Invalidates MMU entries matching a virtual page. -/
  | mmuinv (a : SReg)
  /-- KWRAP (R224): Wraps a Saffron key slot to memory. -/
  | kwrap (d : SReg) (a : SReg)
  /-- KUNWRAP (R224): Unwraps a key from memory into a Saffron key slot. -/
  | kunwrap (d : SReg) (a : SReg)
  /-- KSCRUB (R224): Zeroes a Saffron key slot. -/
  | kscrub (a : SReg)
  /-- HASHI (R225): Resets a SHA-384 context. -/
  | hashi (a : SReg)
  /-- HASHU (R225): Absorbs bytes into a SHA-384 context. -/
  | hashu (d : SReg) (a : SReg)
  /-- HASHF (R225): Writes a context's digest and resets it. -/
  | hashf (d : SReg) (a : SReg)
  /-- ECSIGN (R225): Signs a digest with a key slot over Brainpool P-384. -/
  | ecsign (d : SReg) (a : SReg)
  /-- ECVRFY (R225): Verifies a signature block. -/
  | ecvrfy (d : SReg) (a : SReg)
  /-- AESENC (R225): AES-256-GCM encryption under a key slot. -/
  | aesenc (d : SReg) (a : SReg)
  /-- AESDEC (R225): AES-256-GCM decryption and tag check under a key slot. -/
  | aesdec (d : SReg) (a : SReg)
  /-- RNG (R225): Writes 64 bits from the true random source. -/
  | rng (d : SReg)
  /-- REPF (R66): Captures following words and replays them with register strides. -/
  | repf (c : BitVec 4) (r : BitVec 8) (d : BitVec 4) (a : BitVec 4) (b : BitVec 4)
  /-- SUMMARY_WRITE (R223): A write of the SUMMARY register delivers the self-test summary to Saffron once and logs later writes. -/
  | evSummaryWrite (cluster : Nat) (value : Word)
  /-- SAFE_DISTANCE (R39): The 4,097th counted instruction since the last SAFE raises SAFE_DISTANCE. -/
  | evSafeDistance (h : Nat)
  /-- WAIT_SAFE_POINT (R39): A wait lasting 2,048 cycles with pre-emption pending is taken as a safe point. -/
  | evWaitSafePoint (h : Nat)
  /-- CHUNK_COMMIT (R201): The commit arbiter checks a chunk's read signature and accepts or squashes it. -/
  | evChunkCommit (h : Nat)
  /-- CORE_CLEAR_COMPLETE (R20): The core finishes clearing and can take another capsule. -/
  | evCoreClearComplete (core : Nat)
  /-- MESSAGE_DELIVERY (R21): A handler message reaches a core and is admitted or queued in its inbox. -/
  | evMessageDelivery (m core : Nat)
  /-- PLACEMENT_WALK (R284): A message by hint or ANY walks the mesh and is offered to eligible cores. -/
  | evPlacementWalk (m : Nat)
  /-- DATA_MESSAGE_ARRIVAL (R87): A data message enters a core's data port. -/
  | evDataMessageArrival (m : Nat)
  /-- CONTINUATION_RESUME (R42): A core takes a continuation message, restores the record and restarts any copy. -/
  | evContinuationResume (m core : Nat)
  /-- REGISTER_CLEAR_COMPLETE (R34): The register clear engine finishes and the task becomes ready. -/
  | evRegisterClearComplete (h : Nat)
  /-- MIGRATION_ARRIVAL (R44): A migrated task's state arrives on the service core. -/
  | evMigrationArrival (h : Nat)
  /-- CUMIN_QUERY (R94): The work distributor serves a query at the descriptor's home slice. -/
  | evCuminQuery (q : Nat)
  /-- WQRY_ANSWER (R93): A distributor answer lands in its scratchpad word and marks it full. -/
  | evWqryAnswer (q : Nat)
  /-- COPY_START (R133): A released copy-out starts once its channel is idle. -/
  | evCopyStart (cluster chan : Nat)
  /-- COPY_ELEMENT_DELIVERY (R135): The copy engine delivers an element and advances the write pointer. -/
  | evCopyElementDelivery (cluster chan : Nat)
  /-- WEIGHT_KEY_LOAD (R238): Saffron places a weight key in the lease's engine key slot. -/
  | evWeightKeyLoad (cluster chan : Nat)
  /-- SEAL_GROUP_VERIFY (R134): An unsealing copy verifies a group's tag before delivering its elements. -/
  | evSealGroupVerify (cluster chan : Nat)
  /-- GRANT_BATCH (R164): When the array falls free, the arbiter grants the waiting requests of a batch in order. -/
  | evGrantBatch (cluster : Nat)
  /-- GRANT_EXPIRY (R164): A grant ends when CMD or CYC reaches zero. -/
  | evGrantExpiry (cluster : Nat)
  /-- WEIGHT_LOAD_COMPLETE (R171): A weight load into the shadow buffer completes. -/
  | evWeightLoadComplete (h : Nat)
  /-- RESIDUE_CHECK_COMPLETE (R180): The residue checker finishes a product and marks its group full or reports a mismatch. -/
  | evResidueCheckComplete (cluster : Nat) (mismatch : Bool)
  /-- LEASE_SCRUB_COMPLETE (R239): A lease's B-sealed scrub finishes and its rings become free. -/
  | evLeaseScrubComplete (cluster : Nat)
  /-- CORE_PARITY_ERROR (R295): A parity error in a task's core state moves the task to another core. -/
  | evCoreParityError (h : Nat)
  /-- PARITY_REQUEUE_TIMEOUT (R295): A task moved for CORE_PARITY and untaken for 1 ms becomes a capsule fault. -/
  | evParityRequeueTimeout (h : Nat)
  /-- PAIR_COMMIT_TIMEOUT (R296): A paired copy's commit unmatched for 1 ms squashes both copies as a mismatch. -/
  | evPairCommitTimeout (h : Nat)
  /-- SPEC_WAY_TIMEOUT (R249): A store waiting 256 cycles for a speculative way squashes its chunk. -/
  | evSpecWayTimeout (h : Nat)
  /-- EXCLUSIVE_TOKEN_RELEASE (R203): An exclusive chunk waiting 2,048 cycles releases its arbiter token. -/
  | evExclusiveTokenRelease (h : Nat)
  /-- CAPSULE_COMPLETE (R45): Once all effects are visible, the device scrubs the capsule and writes its completion record. -/
  | evCapsuleComplete (cap : Nat)
  /-- JOIN_STALL (R91): A registered cell unchanged for STALL microseconds raises JOIN_STALL. -/
  | evJoinStall (cap : Nat)
  /-- DEADLINE (R303): Sumac reaching a capsule's DEADLINE raises DEADLINE. -/
  | evDeadline (cap : Nat)
  /-- LEASE_OVERRUN (R303): A lease wait lasting 1 ms raises LEASE_OVERRUN. -/
  | evLeaseOverrun (h : Nat)
  /-- ENGINE_STALL (R303): A busy channel delivering nothing for 1 ms raises ENGINE_STALL. -/
  | evEngineStall (cluster chan : Nat)
  /-- QUEUE_STALL (R304): A queue without a progress event for 10 ms is torn down. -/
  | evQueueStall (queue : Nat)
  /-- HEARTBEAT_ECHO (R305): The management controller sends an echo to each service core and Saffron every 100 ms. -/
  | evHeartbeatEcho (missed : List Nat) (saffronMissed : Bool)
  /-- HEARTBEAT_FAILURE (R305): Three missed echoes fence a cluster or raise a package fatal error. -/
  | evHeartbeatFailure (who : Option Nat)
  /-- QUEUE_SELECT (R283): With a free pipeline stage, admission selects a partition and queue. -/
  | evQueueSelect
  /-- ADMIT_HEAD (R274): Admission verifies the head record, binds its footprint and releases or arms its launch. -/
  | evAdmitHead (queue : Nat)
  /-- PENDING_SLOT_COPY (R271): A pending slot is copied into the submission ring once an entry frees. -/
  | evPendingSlotCopy (queue : Nat)
  /-- ARMING_WINDOW_ENTRY (R287): A head held for time becomes eligible as NOTBEFORE enters the arming window. -/
  | evArmingWindowEntry (queue : Nat)
  /-- LAUNCH_RELEASE (R287): Sumac reaching NOTBEFORE releases an armed launch message. -/
  | evLaunchRelease (cap : Nat)
  /-- GATE_POLL (R279): A queue without a free watch re-reads its gate every 10 microseconds. -/
  | evGatePoll (queue : Nat)
  /-- PREEMPTION_SEARCH (R289): A head held for its footprint for 20 microseconds triggers a search for victims. -/
  | evPreemptionSearch (queue : Nat)
  /-- CLAIM_EXPIRY (R289): A core claim ends after 1 ms. -/
  | evClaimExpiry (core : Nat)
  /-- POWER_DIVISION (R290): Nutmeg divides the power budget every 10 microseconds. -/
  | evPowerDivision
  /-- CLUSTER_POWER_GATE (R292): A cluster idle for 50 microseconds is power-gated. -/
  | evClusterPowerGate (cluster : Nat)
  /-- CLUSTER_WAKE (R292): A woken cluster's cores become able to take messages. -/
  | evClusterWake (cluster : Nat)
  /-- RETENTION_ENTRY (R259): An idle SRAM unit re-encodes its data and enters retention. -/
  | evRetentionEntry (unit : Nat)
  /-- RETENTION_EXIT (R259): A unit in retention completes its exit after an access. -/
  | evRetentionExit (unit : Nat)
  /-- TIER1_WRITEBACK (R196): A tier-1 line write-back reaches memory outside the package. -/
  | evTier1Writeback (line : Nat)
  /-- EPOCH_REENCRYPT (R258): A tier-1 granule whose version would overflow is re-encrypted under a new epoch. -/
  | evEpochReencrypt (granule : Nat)
  /-- ARRAY_DIAGNOSIS (R312): Firmware diagnoses a suspect array and returns it to service or leaves it fenced. -/
  | evArrayDiagnosis (cluster : Nat) (mismatch : Bool)
  /-- SUMMARY_TIMEOUT (R313): A cluster without a summary 500 ms after self test starts is fenced. -/
  | evSummaryTimeout (cluster : Nat)
  /-- PACKAGE_FATAL_ERROR (R310): A package fatal error stops all issue and writes a crash dump. -/
  | evPackageFatalError (trigger : Nat)
  /-- WARM_RESET_TIMEOUT (R301): A warm reset not complete in 2 s becomes a cold reset. -/
  | evWarmResetTimeout
  /-- POWER_UP (R327): After power-up Saffron verifies the kit, measures, loads images, self-tests and opens configuration. -/
  | evPowerUp
  /-- IMAGE_DELIVERY (R330): A service core receives its image, checks it and forwards it to its children. -/
  | evImageDelivery (cluster : Nat) (bytes : List Byte)
  /-- INPUT_OUT_OF_RANGE (R326): An input outside 40-60 V holds the main supplies off. -/
  | evInputOutOfRange (millivolts : Int)
  /-- INPUT_LOSS (R326): Loss of input with the main supplies on leads to a cold reset when power returns. -/
  | evInputLoss
  /-- PTP_FRAME (R286): A PTP frame on the timing port disciplines Sumac. -/
  | evPtpFrame (offset : Int)
  /-- PPS_INPUT (R286): A 1PPS input edge disciplines Sumac. -/
  | evPpsInput (offset : Int) (ref10 : Bool)
  /-- PPS_OUTPUT (R286): The 1PPS output rises at each whole second of Sumac time. -/
  | evPpsOutput
  /-- PEER_MEMORY_WRITE (R324): An inbound .se element is written through a memory window. -/
  | evPeerMemoryWrite (win : PeerPort) (off : Nat) (bytes : List Byte)
  /-- PEER_MEMORY_READ (R324): An inbound .es request reads through a memory window. -/
  | evPeerMemoryRead (win : PeerPort) (off len : Nat)
  /-- PEER_GATE (R324): An inbound SENDX applies an add at a gate window word. -/
  | evPeerGate (win : PeerPort) (value : Word)
  /-- PEER_DOORBELL (R324): An inbound SENDX writes a doorbell through a doorbell window. -/
  | evPeerDoorbell (win : PeerPort) (value : Word)
  /-- LINK_DOWN (R324): A Syndeulo link going down makes it refuse all traffic. -/
  | evLinkDown (link : Nat)
  /-- GO_WRITE (R271): A GO write copies the named slots into the submission ring. -/
  | evGoWrite (vf queue : Nat) (mask : BitVec 8)
  /-- QCFG_WRITE (R269): A write of QCFG enables or configures a queue. -/
  | evQcfgWrite (vf queue : Nat) (value : Word)
  /-- HOST_REGISTER_WRITE (R268): A host write to a BAR0 register without its own row. -/
  | evHostRegisterWrite (vf off : Nat) (bytes : List Byte)
  /-- DOORBELL_COUNT_READ (R278): A host read covering a doorbell's COUNT returns and clears it. -/
  | evDoorbellCountRead (vf n : Nat)
  /-- CTAIL_WRITE (R265): A host write of CTAIL makes the device consume staging completions. -/
  | evCtailWrite (vf : Nat) (value : BitVec 32)
  /-- HOST_READ (R206): A host BAR2 or CXL.mem read returns the latest committed value. -/
  | evHostRead (vf : Nat) (addr : HostAddr) (len : Nat)
  /-- HOST_WRITE (R206): A host BAR2 or CXL.mem write is a unit of the order. -/
  | evHostWrite (vf : Nat) (addr : HostAddr) (bytes : List Byte)
  /-- HOST_FETCHADD (R207): A host FetchAdd is performed at the home slice. -/
  | evHostFetchadd (vf : Nat) (addr : HostAddr) (wide : Bool) (operand : Word)
  /-- HOST_SWAP (R207): A host Swap is performed at the home slice. -/
  | evHostSwap (vf : Nat) (addr : HostAddr) (wide : Bool) (operand : Word)
  /-- HOST_CAS (R207): A host CAS is performed at the home slice, a 128-bit CAS is unsupported; the width is in bytes. -/
  | evHostCas (vf : Nat) (addr : HostAddr) (width : Nat) (compare swap : BitVec 128)
  /-- TIER1_MAP_WRITE (R322): A write of a tier-1 map entry takes effect only when its slot's granules are free. -/
  | evTier1MapWrite (slot : Nat) (value : Word)
  /-- FUNCTION_LEVEL_RESET (R300): An FLR of a virtual function resets its partition. -/
  | evFunctionLevelReset (vf : Nat)
  /-- ABORT_CAPSULE (R309): Aborts the running or armed capsule of a queue with ABORTED. -/
  | evAbortCapsule (via : Option Nat) (part : Nat) (queue : Nat) (ctag : Word)
  /-- TEARDOWN_QUEUE (R299): Tears down a queue through management. -/
  | evTeardownQueue (via : Option Nat) (part : Nat) (queue : Nat)
  /-- RESET_PARTITION (R300): Resets a partition, stopping all its work. -/
  | evResetPartition (via : Option Nat) (part : Nat)
  /-- WARM_RESET (R301): Resets every partition and reboots, keeping tier 0. -/
  | evWarmReset (via : Option Nat)
  /-- COLD_RESET (R301): Removes every supply but management for 500 ms and restarts. -/
  | evColdReset (via : Option Nat)
  /-- READ_EVLOG (R307): Returns 32 event log entries from a sequence number. -/
  | evReadEvlog (via : Option Nat) (part seq : Nat)
  /-- READ_DUMP (R311): Returns 1,024 bytes of the crash dump region. -/
  | evReadDump (via : Option Nat) (off : Nat)
  /-- DUMP_KEY (R311): Returns the dump key wrapped under the operator's key. -/
  | evDumpKey (via : Option Nat)
  /-- FENCE (R347): Fences a cluster by management and sets its mark. -/
  | evFence (via : Option Nat) (cluster : Nat)
  /-- UNFENCE (R347): Clears a management fence of a cluster. -/
  | evUnfence (via : Option Nat) (cluster : Nat)
  /-- SET_BUDGET (R290): Lowers or restores the package power budget. -/
  | evSetBudget (via : Option Nat) (units : Nat)
  /-- GET_STATUS (R309): Returns the status of partitions and package. -/
  | evGetStatus (via : Option Nat)
  /-- MANAGEMENT_WAKE (R224): A management wake request resumes a halted service core. -/
  | evManagementWake (cluster : Nat)
  /-- CONFIG_WRITE (R332): Writes a partition's configuration while configuration is open. -/
  | evConfigWrite (via : Option Nat) (part : Nat) (bytes : List Byte)
  /-- QUEUE_BIND (R332): Binds a queue to a function while configuration is open. -/
  | evQueueBind (via : Option Nat) (queue fn : Nat)
  /-- WINDOW_WRITE (R324): Writes an inbound peer window while configuration is open. -/
  | evWindowWrite (via : Option Nat) (win : Nat) (bytes : List Byte)
  /-- LOCK (R332): Checks the configuration and moves the interface to CONFIG_LOCKED. -/
  | evLock (via : Option Nat)
  /-- LOCK_COMPLETE (R332): Saffron extends MR5 with the configuration digest and moves to RUN. -/
  | evLockComplete
  /-- KEYSET (R254): Installs an owner's memory key. -/
  | evKeyset (owner : BitVec 16) (wrapped : List Byte)
  /-- KEYDROP (R254): Zeroes an owner's memory key. -/
  | evKeydrop (owner : BitVec 16)
  /-- GRANT (R254): Gives a free granule to an owner. -/
  | evGrant (granule : Nat) (owner : BitVec 16)
  /-- SHARE (R254): Adds a grantee to a granule's shared-read list. -/
  | evShare (caller : BitVec 16) (granule : Nat) (grantee : BitVec 16)
  /-- UNSHARE (R254): Removes a grantee from a granule's shared-read list. -/
  | evUnshare (caller : BitVec 16) (granule : Nat) (grantee : BitVec 16)
  /-- SEAL (R262): Installs a granule's seal record. -/
  | evSeal (granule : Nat) (record : List Byte)
  /-- RELEASE (R254): Starts releasing a granule once no capsule names it. -/
  | evRelease (granule : Nat)
  /-- RELEASE_COMPLETE (R254): Saffron finishes invalidating and zeroing a released granule and frees it. -/
  | evReleaseComplete (granule : Nat)
  /-- PLDM_MONITOR (R308): Serves a PLDM platform monitoring request. -/
  | evPldmMonitor (sensor : PldmPoint)
  /-- PLDM_FIRMWARE_UPDATE (R308): Serves a PLDM firmware update request writing the kit slot not booted. -/
  | evPldmFirmwareUpdate (off : PldmPoint) (bytes : List Byte)
  /-- GET_VERSION (R335): Answers VERSION and restarts the SPDM transcript. -/
  | evGetVersion (path : Nat) (request : List Byte)
  /-- GET_CAPABILITIES (R334): Answers the SPDM capabilities. -/
  | evGetCapabilities (path : Nat) (request : List Byte)
  /-- NEGOTIATE_ALGORITHMS (R334): Negotiates SHA-384 and Brainpool ECDSA. -/
  | evNegotiateAlgorithms (path : Nat) (request : List Byte)
  /-- GET_DIGESTS (R334): Returns certificate chain digests. -/
  | evGetDigests (path : Nat) (request : List Byte)
  /-- GET_CERTIFICATE (R334): Returns the device certificate chain. -/
  | evGetCertificate (path : Nat) (request : List Byte)
  /-- CHALLENGE (R334): Signs a challenge over the path's transcript. -/
  | evChallenge (path : Nat) (request : List Byte)
  /-- GET_MEASUREMENTS (R334): Returns measurement registers as measurement blocks. -/
  | evGetMeasurements (path : Nat) (request : List Byte)
  /-- SPDM_UNSUPPORTED_REQUEST (R335): An unsupported SPDM request code is answered with UnsupportedRequest. -/
  | evSpdmUnsupportedRequest (path : Nat) (request : List Byte)
  /-- ILLEGAL_INSTRUCTION (R50): A word with a reserved or unassigned encoding reaches issue and raises ILLEGAL without effect. -/
  | evIllegalInstruction (w : BitVec 32)
  /-- PRODUCER_COMPLETION (R16): A long-latency producer (TLD, TLDC, RECV, TRECV, a returning atomic) completes and marks its destination full. -/
  | evProducerCompletion (h : Nat)
  /-- WAIT_TIME_REACHED (R98): Time reaches the bound of a blocked WAIT, and the task becomes ready. -/
  | evWaitTimeReached (h : Nat)
  /-- POWER_SHARE_AVAILABLE (R291): A cluster's matrix credit B, growing every cycle, reaches zero, and a product waiting for its power share issues. -/
  | evPowerShareAvailable (cluster : Nat)
  /-- HOLDOVER (R286): Sumac loses its time reference and enters holdover. -/
  | evHoldover
  /-- LINK_UP (R324): A Syndeulo link comes up and accepts traffic again. -/
  | evLinkUp (link : Nat)
  /-- PEER_REFUSAL (R324): A peer's refusal of a release arrives back at the sending device, and the sending capsule takes MSG_TARGET. -/
  | evPeerRefusal (cap : Nat) (handle : Word)
  /-- MANAGEMENT_DOORBELL (R224): A management doorbell arrives at a service core and ends its WFE. -/
  | evManagementDoorbell (cluster : Nat)
  /-- COMPLETION_WRITE_ERROR (R299): The host link completes a completion record write with an error, and the queue is torn down. -/
  | evCompletionWriteError (queue : Nat)
deriving DecidableEq, Repr

end Sys2Proof
end

