-- ==== Sys2Proof/Machine/State.lean ====
section
/-! DEFINITION. The state of the package as plain data: every piece of state that the spec gives the machine
(INVENTORY.md, '## State'), and State.reset. -/

namespace Sys2Proof.Machine

/-- Sparse bytes by address: addresses strictly rising, no entry equal to what an unlisted address reads as (zero, log 1).
Device memory, host memory, tile registers, scratchpads, the operand buffer and record bytes have this form. -/
abbrev Memory := List Host.Cell

/-- An unlisted byte reads as zero (log 1). -/
def Memory.default : Byte := 0

/-- The canonical form: addresses strictly rising, no entry equal to the default. -/
def Memory.wf : Memory → Bool
  | [] => true
  | [(_, b)] => b != Memory.default
  | (a, b) :: (a', b') :: m => b != Memory.default && decide (a < a') && Memory.wf ((a', b') :: m)

/-- A tile register: 4 KiB of data, its shape word and its presence bit (R11, R14, R16). -/
structure Tile where
  data : Memory
  shape : BitVec 16
  full : Bool
deriving DecidableEq, Repr

/-- The loaded weights of a lease: ring, slot, plane count and restore bit (R171). -/
structure Weights where
  ring : Nat
  slot : Nat
  planes : Nat
  restore : Bool
deriving DecidableEq, Repr

/-- The registers of a context that a checkpoint records (R11, R37, R165). -/
structure Regs where
  s : Vector Word 32
  /-- Presence bits of s0 to s31. -/
  sfull : BitVec 32
  t : Vector Tile 16
  p : Vector (BitVec 128) 8
  pc : Word
  rst : BitVec 512
  flg : Word
  /-- The task's active and pending weights in the array (R165, R171). -/
  wact : Option Weights
  wpend : Option Weights
deriving DecidableEq, Repr

/-- The kinds of message (R84 MKIND, R83, R42, R44). -/
inductive MsgKind where
  | launch | send | sendt | cont | join | data | continuation
deriving DecidableEq, Repr

/-- A message in flight, in an inbox, a park queue or a port (R83). -/
structure Msg where
  kind : MsgKind
  cap : Nat
  entry : Word
  dest : Word
  payload : Vector Word 6
  tile : Option (Memory × BitVec 16)
  /-- The sender in R84's SRC layout, 13 bits. -/
  src : BitVec 13
  /-- The sender's ranks (R83), or a join's registered ranks (R89). -/
  ranks : Word
  /-- The number of the task whose outbox holds the message until it is accepted (R86); none for the admission unit. -/
  sender : Option Nat
  /-- The one core that can take it: CONT (R96), a bound continuation (R158). -/
  bound : Option Nat
  /-- The tile count of the handler header that the sending core read (R284). -/
  tiles : Nat
  /-- The hint of the walk (R28), for BYHINT, ANY and continuations. -/
  hint : BitVec 17
  /-- A continuation of a paired task (R296). -/
  paired : Bool
deriving DecidableEq, Repr

/-- An entry of a data port and the context whose uncommitted chunk has consumed it (R87). -/
structure PortEntry where
  msg : Msg
  taken : Option Nat
deriving DecidableEq, Repr

/-- The operations of the atomics (R55, R193). -/
inductive AmoOp where
  | add | and | or | xor | min | max | minu | maxu | swp | cas | fadd | fmin | fmax
deriving DecidableEq, Repr

/-- The modes of a copy (R59, R133). -/
inductive CopyMode where
  | ms | sm | mr | ur | es | se
deriving DecidableEq, Repr

/-- A copy on a channel, or a released copy-out that waits for one (R132 to R140). -/
structure Copy where
  mode : CopyMode
  chan : Nat
  /-- The control word (R132). -/
  control : Word
  /-- Source handle, or scratchpad byte address. -/
  src : Word
  /-- Destination handle, scratchpad byte address or ring number. -/
  dst : Word
  /-- Physical address of the memory side; the endpoint address for .es and .se. -/
  phys : Nat
  esize : Nat
  count : Nat
  done : Nat
  /-- Elements delivered before a restart (WP was preset to this, R140), and bytes of the present element that stand in a ring. -/
  base : Nat
  part : Nat
  hart : Nat
  cap : Nat
  core : Nat
  /-- The chunk that issued the copy, by the task's count of committed chunks: the copy is cancelled with it (R139). -/
  chunk : Nat
  /-- TAIL of the ring and filled slots at issue, restored when the copy is cancelled (R139). -/
  tail0 : Nat
  filled0 : Nat
  /-- Scratchpad words the copy marked empty at issue. -/
  words : List Nat
  /-- The weight key is in the lease's key slot (R238), and the 64 KiB groups whose tag has verified (R134). -/
  keyed : Bool
  verified : List Nat
  /-- Clock of the last delivered element (R303). -/
  stamp : Nat
  /-- FENCE.X that precede the copy in its task, and the task (R196). -/
  fx : Nat
  task : Nat
deriving DecidableEq, Repr

/-- An attenuated child that SPAWN buffers (R217 to R219). -/
structure Spawn where
  /-- The parent, and the queue that receives the child; none for the parent's own. -/
  cap : Nat
  queue : Option Nat
  image : Memory
  exts : List (Vector Word 4)
deriving DecidableEq, Repr

/-- One buffered effect of a chunk, in program order (R36, R297). -/
inductive Effect where
  | store (pa : Nat) (bytes : List Byte)
  /-- A returning atomic: its func, operand and compare value, which a commit hash covers (R297), and whether it has made the store that
  stands just before it. -/
  | atomic (pa func : Nat) (operand compare : Word) (stored : Bool)
  /-- A store to the scratchpad of the core that issued it (R36, R44). -/
  | padStore (core addr : Nat) (bytes : List Byte)
  /-- A no-return atomic, applied at commit (R194). -/
  | amo (pa : Nat) (op : AmoOp) (wide : Bool) (operand : Word)
  | message (m : Msg)
  /-- SENDX: the capsule and core that send, the endpoint handle, its BASE, s(b) and the body (R85). -/
  | sendx (cap core : Nat) (handle base value : Word) (body : Vector Word 6)
  | spawn (c : Spawn)
  | copyOut (c : Copy)
  | popRing (ring : Nat)
  /-- The pop of a port of the core that consumed its entry (R87). -/
  | popPort (core port : Nat)
  /-- ARRIVE at a cell: the core that issued it, whose scratchpad a 0xFF locator names (R88), the locator, and the physical address of a
  cell in memory (R90). -/
  | arrive (core : Nat) (loc : Word) (pa : Option Nat)
  | jnew (core : Nat) (loc : Word) (pa : Option Nat) (target : BitVec 32) (msg : Word)
  | fenceX
  | fenceH
  | mrel
  /-- The dirty bit of a block written through a KIND 2 extent: the word of the bitmap that holds it, and its bit there (R263). -/
  | dirty (word bit : Nat)
deriving DecidableEq, Repr

/-- An uncommitted chunk (R36, R200, R201, R203). -/
structure Chunk where
  effects : List Effect
  readSig : BitVec 1024
  writeSig : BitVec 1024
  /-- Scratchpad regions read and written, for each core on which the chunk did so (R44, R200). -/
  padRead : List (Nat × BitVec 256)
  padWrite : List (Nat × BitVec 256)
  /-- The write signatures and masks that other units committed since the chunk's first read. -/
  since : BitVec 1024
  padSince : List (Nat × BitVec 256)
  /-- Has it read anything? A chunk that has read nothing cannot be squashed. -/
  reads : Bool
  /-- Speculative 32-byte sectors: tier addresses div 32, and scratchpad sectors counted beside them. -/
  sectors : List Nat
  padSectors : List Nat
  /-- WQRY claims of the chunk (R93). -/
  claims : Nat
  /-- Home dies of the lines in the signatures (R202). -/
  dies : BitVec 4
  /-- Times squashed from this checkpoint (R201), and is it in exclusive mode (R203)? -/
  squashes : Nat
  exclusive : Bool
deriving DecidableEq, Repr

/-- What a context waits for. -/
inductive Wait where
  | sreg (r : SReg)
  | treg (r : TReg)
  /-- The accumulator group of a product (R172): no wait of R39 (R173). -/
  | group (r : TReg)
  /-- The flags of earlier instructions, for an access to FLG (R342). -/
  | flags
  | padWords
  | port (n : Nat)
  | wait (until_ : Word) (mask : Nat)
  | channel (n : Nat)
  | copyIn
  | gate (pa : Nat) (value : Word)
  | lease
  | grant
  | weights
  | slot
  /-- A product that waits for its power share, with its toggle estimate (R183, R290). -/
  | power (te : Nat)
  | products
  /-- A row of a tile access in its blocking form (R129). -/
  | row
  /-- An arbiter token (R203). -/
  | token
  /-- A service-core place (R13); the block of a staging fault. -/
  | place (block : Option Word)
  /-- A speculative way in the set of a line (R249). -/
  | way (line : Nat)
  /-- An SRAM unit that is in retention or leaves it (R259). -/
  | unit
  /-- Staging of the block with this handle, on the service core, when the wait for it becomes a safe point (R264). -/
  | stage (block : Word)
deriving DecidableEq, Repr

/-- Is a wait one for a speculative way? -/
def Wait.isWay : Wait → Bool
  | .way _ => true
  | _ => false

/-- How a commit ends (R37, R39). -/
inductive CommitKind where
  | done
  | cont (m : Msg)
  /-- A taken safe point: live tile mask, resume PC, and the wait in which pre-emption takes it (R39); none for SAFE. -/
  | safe (mask : BitVec 16) (pc : Word) (wait : Option Wait)
deriving DecidableEq, Repr

/-- The life of a context (R35, R224). -/
inductive RunState where
  | clearing
  | ready
  | blocked (w : Wait)
  | committing (k : CommitKind)
  /-- On its way to the service core (R44): for MIGR, or for a staging fault with the handle of the block (R264). -/
  | migrating (block : Option Word)
  /-- On the service core, waiting for staging of the block with this handle (R264). -/
  | staging (block : Word)
  /-- A migrated task whose service request the firmware has in hand (R213). -/
  | serving
  /-- A copy of a pair that raised this fault and waits for its partner (R230). -/
  | pairFault (code : Nat) (detail : Word)
  /-- Queued for a tile core of the cluster: by MRET or staging (R44), or, after CORE_PARITY, for another one than the core named (R295). -/
  | requeued (avoid : Option Nat)
  | halted
  | wfe
  | ended
deriving DecidableEq, Repr

/-- What issues the instructions of a context. -/
inductive HartKind where
  | task
  | firmware
  | saffron
deriving DecidableEq, Repr

/-- The destination of a long-latency producer (R16). -/
inductive Dest where
  | sreg (r : SReg) (value : Word)
  | treg (r : TReg) (data : Memory)
  /-- A later instruction has written the register: only the producer's flags are still to come (R342). -/
  | gone
deriving DecidableEq, Repr

/-- A producer in flight (R16), and the flags it will set (R193). -/
structure Producer where
  dest : Dest
  flags : Word
deriving DecidableEq, Repr

/-- A lease that a resumed task asks for again, and its ring definitions (R184). -/
structure Rebind where
  lease : BitVec 128
  defs : Vector Word 16
deriving DecidableEq, Repr

/-- One context: a task, the firmware of a service core, or Saffron. -/
structure Hart where
  id : Nat
  /-- The number of its task: a task that resumes in another context keeps it (R42, R196). -/
  task : Nat
  kind : HartKind
  /-- The core it runs on: die [11:10], x [9:7], y [6:5], core [4:0] (R84). -/
  core : Nat
  cap : Nat
  r : Regs
  ckpt : Regs
  /-- Declared tile count (R12). -/
  ntiles : Nat
  /-- The physical tile registers of the core that hold t(16 - n) to t15, in order (R12) (log 10). -/
  phys : List Nat
  /-- Ranks at levels 0 to 7 (R82). -/
  ranks : Word
  /-- The handle of the handler header that is still to be fetched and checked (R33). -/
  header : Option Word
  /-- The handle of the continuation record that is still to be read and checked (R42). -/
  record : Option Word
  /-- The lease that the task binds before it issues (R184). -/
  rebind : Option Rebind
  lease : BitVec 128
  /-- Clock at the current grant: CYC is derived from it (R161). -/
  grantAt : Nat
  /-- Toggle estimates of the products of the current grant (R183). -/
  toggles : List Nat
  sdist : Nat
  /-- The safe-point distance and the lease status of the checkpoint (R37). -/
  ckptSdist : Nat
  ckptLease : BitVec 128
  /-- FENCE.H and FENCE.X committed by this task (R196). -/
  fenceH : Nat
  fenceX : Nat
  chunk : Chunk
  /-- Chunks committed by this task; redeliveries of the current chunk (R38). -/
  commits : Nat
  rdl : Nat
  report : Memory
  run : RunState
  /-- Clock when the present wait began; the clock when pre-emption was raised (R39). -/
  waitFrom : Nat
  preemptAt : Nat
  inflight : List Producer
  /-- Words fetched for the instruction that is being issued, with their PCs: what a wait holds at issue, and the sequencer buffer
  of REPF (R50, R65). -/
  fetched : List (Word × Nat)
  /-- For each tile register, the number of the product that marked it empty last; 0 once it was written since (R16, R174). -/
  owed : Vector Nat 16
  /-- A weight load in progress (R171). -/
  wload : Bool
  /-- Products checked since the task started or resumed (R182), and products issued. -/
  checked : Nat
  issued : Nat
  /-- Migrated to the service core (R44)? -/
  migrated : Bool
  /-- CONT_SPACE: exempt from pre-emption (R40). -/
  exempt : Bool
  /-- The other copy of a paired task, the mismatches in a row, and the clock of its commit request (R296). -/
  partner : Option Nat
  mismatches : Nat
  request : Option Nat
  /-- The values that the copies of a pair share (R100): TIME reads of this chunk in order. -/
  times : List Word
deriving DecidableEq, Repr

/-- One tile core or the service core's place. -/
structure Core where
  id : Nat
  pad : Memory
  /-- Scratchpad words marked empty (R16). -/
  empty : List Nat
  ports : Vector (List PortEntry) 4
  inbox : List Msg
  /-- Regions held by the copy engine, one entry for each copy that holds the region (R137). -/
  held : List Nat
  /-- Tasks that ended at a safe point, with their tile counts, whose copy-outs still keep their slots (R140). -/
  lingering : List (Nat × Nat)
  cap : Option Nat
  clearing : Bool
  /-- The continuation records bound to this core: their handles and capsules (R158). -/
  boundRec : List (Word × Nat)
  /-- The head for which the core is claimed, by its queue and its place among the entries of that queue's ring, and the clock of the
  claim (R289). -/
  claim : Option (Nat × Nat)
  claimAt : Nat
  removed : Bool
  retest : Bool
  /-- Spare rows and tile-register rows of the diagnostic window, 64-bit words by row key (R221). -/
  rows : Memory
  /-- The reserved core's capsule (R288). -/
  reservedFor : Option Nat
  rr : Nat
deriving DecidableEq, Repr

/-- One ring of a cluster (R22, R166 to R169). -/
structure Ring where
  defn : Word
  owner : Option Nat
  /-- Slots filled and not popped by a commit; of these, consumed by the task's open chunk. -/
  filled : Nat
  taken : Nat
  /-- Waits for its B-sealed scrub, with the lease of this number (R239). -/
  scrub : Option Nat
deriving DecidableEq, Repr

/-- A channel of the copy engine (R135, R136). -/
structure Chan where
  copy : Option Copy
  wp : Word
  cap : Option Nat
deriving DecidableEq, Repr

/-- A weight key in a lease's key slot, with the wrapped key that it was unwrapped from (R238, R262). -/
structure KeySlot where
  hart : Nat
  wrapped : List Byte
  key : BitVec 256
deriving DecidableEq, Repr

/-- A product under the residue check (R180): its chunk may have been discarded since. -/
structure Product where
  hart : Nat
  cap : Nat
  /-- Its number among the products that its task issued. -/
  no : Nat
  group : Nat
  live : Bool
  /-- What the eight registers of the group will hold when the check passes. -/
  data : List Memory
deriving DecidableEq, Repr

/-- A read-only copy of a 256-byte line, filled for a capsule: no copy is older than its capsule's first task in the cluster (R189). -/
structure RoCopy where
  cap : Nat
  line : Nat
  data : List Byte
deriving DecidableEq, Repr

/-- One cluster. -/
structure Cluster where
  no : Nat
  rings : Vector Ring 16
  opbuf : Memory
  grant : Option Nat
  batch : List Nat
  requests : List Nat
  lastCore : Nat
  products : List Product
  /-- Clock of each mismatch in the 1 ms window; suspect marks with their clock (R181, R312). -/
  mism : List Nat
  suspects : List Nat
  leaseWait : List (Nat × BitVec 16 × Nat)
  chans : Vector Chan 16
  copyWait : List Copy
  keys : List KeySlot
  /-- Extent buffers: the capsules loaded (R22). -/
  extbufs : List Nat
  repair : Vector (BitVec 32) 16
  /-- Injection entry: row key, stuck-at value, mask (R221). -/
  inj : Option (Nat × Bool × Word)
  /-- Spares that failed a test: core, array, bank, spare (R313, R318). -/
  badSpares : List (Nat × Nat × Nat × Nat)
  fwvec : Word
  fwcode : Word
  fwpc : Word
  fwdetail : Word
  mmuctl : Word
  diagstat : Word
  summary : Word
  clstat : Word
  /-- SUMMARY was written (R223); a fence by FENCE, and by another cause (R347). -/
  summarised : Bool
  mark : Bool
  fencedOther : Bool
  /-- The two words of each MMU entry, 16 bytes an entry (R224). -/
  mmu : Memory
  park : List Msg
  ro : List RoCopy
  share : Nat
  credit : Int
  demand : Nat
  idleFrom : Nat
  rot : Nat
  doorbell : Bool
  misses : Nat
  /-- It failed its heartbeat and has answered none since (R305, R310). -/
  lost : Bool
  /-- Received its boot image (R330). -/
  image : Bool
  /-- Images that failed their check (R330); a diagnosis found a mismatch, or the array was suspect three times in a day (R312). -/
  badImages : Nat
  failed : Bool
deriving DecidableEq, Repr

/-- A registered join cell (R89, R91). -/
structure JoinReg where
  loc : Word
  core : Nat
  pa : Option Nat
  ranks : Word
  /-- The clock at which COUNT last changed, and the COUNT seen then (R91). -/
  stamp : Nat
  seen : Nat
deriving DecidableEq, Repr

/-- The life of a capsule (R287, R298, R45). -/
inductive CapState where
  | armed
  | running
  /-- Ending with this STATUS; its completion record is still to be written. -/
  | ending (status : Nat)
deriving DecidableEq, Repr

/-- One capsule the device carries (R25, R29, R81). -/
structure Capsule where
  id : Nat
  part : Nat
  queue : Nat
  pri : Nat
  record : Memory
  /-- Descriptors: BASE, LENGTH, ATTR, AUX (R29). -/
  exts : List (Vector Word 4)
  foot : List (Nat × Word)
  foot2 : List (Nat × Word)
  key : BitVec 256
  state : CapState
  /-- Contexts for which pre-emption is pending (R235). -/
  preempt : List Nat
  joins : List JoinReg
  commits : Nat
  tasks : Nat
  nflt : Nat
  tlaunch : Word
  report : Bool
  /-- The launch message of an armed capsule (R287). -/
  launch : Option Msg
deriving DecidableEq, Repr

/-- An entry of an event log (R307). -/
structure LogEntry where
  time : Word
  code : Nat
  kind : Nat
  rep : Nat
  core : Nat
  queue : Nat
  detail : Word
  ctag : Nat
  seq : Nat
deriving DecidableEq, Repr

/-- An event log: SEQ and the entries kept, newest first (R307). -/
structure Log where
  seq : Nat
  entries : List LogEntry
deriving DecidableEq, Repr

/-- A doorbell (R278). -/
structure Doorbell where
  n : Nat
  value : Word
  count : Nat
  ctl : BitVec 32
deriving DecidableEq, Repr

/-- A staging request (R264). -/
structure StageReq where
  paddr : Nat
  owner : Nat
  req : Nat
  block : Nat
  rword : Nat
  ctag : Word
  /-- The cluster whose service core posted it; is it outstanding? -/
  poster : Nat
  open_ : Bool
deriving DecidableEq, Repr

/-- One partition and its function's registers (R266, R268, R265, R283). -/
structure Part where
  no : Nat
  cfg : Memory
  cr : Int
  ptr : Vector Nat 8
  arrived : Vector Bool 8
  doorbells : List Doorbell
  stage : List StageReq
  stail : Nat
  shead : Nat
  ctail : Nat
  chead : Nat
  svec : Nat
  sie : Bool
  stagecpl : Memory
  log : Log
  /-- When the reset in progress ends (R300), and whether the host asked for it (R302). -/
  resetEnd : Nat
  resetHost : Bool
  /-- The host physical base of the function's HDM decoder, when the host has programmed it (R321) (log 124). -/
  hdm : Option Nat
deriving DecidableEq, Repr

/-- One queue and its window (R269, R271, R283). -/
structure Queue where
  no : Nat
  fn : Option Nat
  slots : Memory
  free : BitVec 8
  /-- Slots that a GO named while the ring was full, in order (R271). -/
  pending : List Nat
  qcfg : Word
  chead : Nat
  ctail : Nat
  phase : Bool
  crbase : Word
  srbase : Word
  /-- The entries that stand in the submission ring, and how many were ever placed in it (R269). The ring lies in memory at SRBASE (R270). -/
  waiting : Nat
  placed : Nat
  held : Bool
  why : Nat
  /-- Clock at which this head was first held for its footprint, and the searches for victims since, counted in 20 microseconds (R289). -/
  heldAt : Option Nat
  looked : Nat
  gatest : Word
  watched : Bool
  deficit : Nat
  /-- Clock of the last progress event (R304). -/
  progress : Nat
  /-- Being torn down; torn down, so that it stays empty until EN is written (R299). -/
  tearing : Bool
  torn : Bool
deriving DecidableEq, Repr

/-- A query to Cumin: its descriptor, its answer word, and the claim it makes (R92 to R94). -/
structure Query where
  hart : Nat
  core : Nat
  cap : Nat
  word : Nat
  desc : Nat
  /-- Its place among the queries that have reached the home slice (R241). -/
  arrived : Option Nat
  /-- The reserved item, once Cumin has served the query; its answer. -/
  item : Option Nat
  answer : Option Word
  /-- The claiming chunk: open, committed or discarded. -/
  fate : Nat
  landed : Bool
deriving DecidableEq, Repr

/-- A key of the memory-key table (R253). -/
structure MemKey where
  owner : Nat
  key : BitVec 256
  gen : BitVec 32
deriving DecidableEq, Repr

/-- The state of the configuration interface and of the boot (R327, R332). -/
inductive Phase where
  | off
  /-- Held in reset with the supplies on, after a double fault of Saffron (R233). -/
  | held
  | booting
  | configOpen
  | configLocked
  | running
  | fatal
deriving DecidableEq, Repr

/-- Sumac (R286). -/
structure Sumac where
  sec : BitVec 48
  ns : BitVec 32
  offset : BitVec 32
  holds : BitVec 16
  source : BitVec 3
  state : BitVec 3
  /-- Nanoseconds still to be removed by slewing; queues have been enabled since reset. -/
  slew : Nat
  armed : Bool
  /-- The part of a nanosecond that is still to be counted, in millionths; nanoseconds since holdover began. -/
  frac : Nat
  holdNs : Nat
  /-- The last second that the 1PPS output has signalled. -/
  pps : BitVec 48
deriving DecidableEq, Repr

/-- Saffron, the security core's own state (R224, R225, R331). -/
structure Saffron where
  keys : Vector (BitVec 256) 64
  sram : Memory
  hash : Vector (List Byte) 4
  nonce : Word
  mr : Vector (BitVec 384) 16
  windows : Memory
  flashA : Memory
  flashB : Memory
  bootedB : Bool
  /-- The slot that an update has written since the last boot of a warm reset: is it B? The next warm reset boots from it (R327). -/
  updated : Option Bool
  /-- A kit has passed its checks since the reset (R327); clock at the start of the self test (R313). -/
  loaded : Bool
  testAt : Option Nat
  kek : Option (BitVec 256)
  device : Nat
  reserve : Nat
  misses : Nat
  nfatal : Nat
  dumpTime : Word
  trigger : Nat
  /-- The clock until which a crash dump is being written (R310, R335); the memory map was taken from a kit since the last cold reset (R246). -/
  dumpEnd : Nat
  mapped : Bool
  /-- Saffron's own pending fault (R233). -/
  fwcode : Word
  fwpc : Word
  fwdetail : Word
deriving DecidableEq, Repr

/-- A write of a tier-1 line that has not reached its destination, with the number of its writer's task and the fences that task had committed
(R196). -/
structure Dirty where
  line : Nat
  /-- The line before the write, where a FENCE.H holds the write back. -/
  old : Memory
  hart : Nat
  cap : Nat
  fh : Nat
  fx : Nat
deriving DecidableEq, Repr

/-- What a memory controller finds in the code words of a line (R256). -/
inductive CodeRead where
  | clean | corrected | uncorrectable
deriving DecidableEq, Repr

/-- An error of the part in a stored line that no read has met yet (R256, R258): what the next read finds in its code words, whether its MAC or
tag matches, and the same of the second read after a mismatch. -/
structure LineFault where
  line : Nat
  code : CodeRead
  mac : Bool
  code2 : CodeRead
  mac2 : Bool
deriving DecidableEq, Repr

/-- A word of an SRAM (R259): in the L2 or an RDC, by its sector; in a core's scratchpad or a cluster's operand buffer, by its 64-bit word there;
or in a physical row of a core's scratchpad that no ordinary access reaches now, by its row number (R222, R315). -/
inductive SramPlace where
  | cache (sector : Nat)
  | pad (core word : Nat)
  | buffer (cluster word : Nat)
  | row (core key : Nat)
deriving DecidableEq, Repr

/-- Bits of a word of an SRAM that are in error, met by no access yet, and whether the word was in retention when they went (R259). -/
structure SramFault where
  place : SramPlace
  bits : Nat
  retained : Bool
deriving DecidableEq, Repr

/-- The keys of an owner in the memory controllers' key registers (R253). -/
structure ControllerKeys where
  owner : Nat
  kdata : BitVec 256
  ktweak : BitVec 256
  kmac : BitVec 256
deriving DecidableEq, Repr

/-- The entry of a tier-1 line in its granule's version page (R258): version and tag. -/
structure Version where
  line : Nat
  version : BitVec 32
  tag : BitVec 64
deriving DecidableEq, Repr

/-- The counts of a commit arbiter that the crash dump shows (R311): dies 0 to 3, then the package arbiter. -/
structure Arbiter where
  commits : Nat
  squashes : Nat
  last : List Nat
deriving DecidableEq, Repr

/-- SPDM on one path (R334, R335). -/
structure Spdm where
  path : Nat
  stage : Nat
  transcript : List Byte
deriving DecidableEq, Repr

/-- What the device hands to the outside world. -/
inductive Out where
  | msix (fn vec : Nat)
  | mgmt (status : Nat) (data : List Byte)
  /-- A completion of a host request: 0 success, 1 Unsupported Request, 2 Completer Abort; is the data poisoned? (R261, R310) -/
  | host (status : Nat) (poison : Bool) (data : List Byte)
  | spdm (path : Nat) (data : List Byte)
  | pps
  | supplies (on : Bool)
  /-- A release to a peer: link, device, window, the offset or value, and the bytes of a copy element, with their poison (R208, R261, R323). -/
  | peer (link dev win : Nat) (value : Word) (poison : Bool) (data : List Byte)
  /-- The answer to a peer's read through a window; a refusal of its traffic (R324). -/
  | peerData (win : Nat) (poison : Bool) (data : List Byte)
  | peerRefuse (win : Nat)
  | refusedTable
deriving DecidableEq, Repr

/-- The record of a task that ended at a safe point: the physical address of its continuation record, its capsule, its number and its counts of
committed fences, which the task keeps when it resumes (R42, R196) (log 104). -/
structure Suspended where
  record : Nat
  cap : Nat
  task : Nat
  fenceH : Nat
  fenceX : Nat
deriving DecidableEq, Repr

/-- A request of the host or of a peer that waits at its home (R203, R259, R325). -/
inductive Request where
  | read (vf : Nat) (addr : HostAddr) (len : Nat)
  | write (vf : Nat) (addr : HostAddr) (bytes : List Byte)
  | fetchadd (vf : Nat) (addr : HostAddr) (wide : Bool) (operand : Word)
  | swap (vf : Nat) (addr : HostAddr) (wide : Bool) (operand : Word)
  | cas (vf : Nat) (addr : HostAddr) (width : Nat) (compare swap : BitVec 128)
  | peerWrite (link dev win off : Nat) (bytes : List Byte)
  | peerRead (link dev win off len : Nat)
  | peerGate (link dev win : Nat) (value : Word)
  | peerDoorbell (link dev win : Nat) (value : Word)
deriving DecidableEq, Repr

/-- What moves next (log 6). -/
inductive Turn where
  /-- An event of the opcode table. -/
  | event (i : Instr)
  /-- The context with this id issues. -/
  | issue (h : Nat)
  /-- A package fatal error that an instruction or a watchdog has just raised follows at once (R310). -/
  | fatal (trigger : Nat)
deriving DecidableEq, Repr

/-- The whole machine. -/
structure State where
  /-- The context that issues next. -/
  hart : Hart
  /-- Every other context. -/
  parked : List Hart
  agenda : List Turn
  fresh : Nat
  clock : Nat
  nextId : Nat
  mem : Memory
  /-- Poisoned sectors: sector number and whether the cause is INTEGRITY (R260). -/
  poison : List (Nat × Bool)
  /-- Poisoned scratchpad sectors: core, sector (R259, R316). -/
  padPoison : List (Nat × Nat)
  /-- Poisoned sectors of operand buffers: cluster, sector (R259). -/
  bufPoison : List (Nat × Nat)
  /-- Errors of the part that no access has met yet: in stored lines and in SRAM words (R256, R258, R259) (log 127). -/
  faults : List LineFault
  sram : List SramFault
  host : Memory
  sumac : Sumac
  homemap : List Nat
  got : List (Nat × BitVec 128)
  srls : List (Nat × List (BitVec 16))
  seals : List (Nat × Memory)
  memkeys : List MemKey
  /-- The memory controllers' key registers (R253). -/
  mckeys : List ControllerKeys
  vpages : List Nat
  /-- Tier-1 lines: version, and lines written and not yet written back (R196, R258). -/
  versions : List Version
  dirty : List Dirty
  /-- Releases that a FENCE.X holds back: the task's number, its FENCE.X count, the effect (R196). -/
  heldx : List (Nat × Nat × Effect)
  tier1map : List (Nat × Word)
  parts : List Part
  /-- The granules whose RELEASE waits because a capsule names them (R254). -/
  releasing : List Nat
  /-- Tasks that ended at a safe point and may resume (R42). -/
  suspended : List Suspended
  queues : List Queue
  /-- Queues that a pipeline stage of admission examines (R274, R283). -/
  selected : List Nat
  caps : List Capsule
  clusters : List Cluster
  cores : List Core
  net : List Msg
  queries : List Query
  returns : List (Nat × Nat)
  codeCache : List (Nat × Nat × Nat × BitVec 384)
  /-- Contexts that hold the token of an arbiter (R203). -/
  tokens : List Nat
  arbiters : Vector Arbiter 5
  /-- The last 256 fault reports, newest first (R311). -/
  reports : List Memory
  pkglog : Log
  saffron : Saffron
  phase : Phase
  budget : Nat
  links : BitVec 12
  spdm : List Spdm
  resetting : Option Nat
  resetAt : Nat
  /-- SRAM units in retention (R259): 0 to 127 operand buffers, then 16 L2 slices a cluster, then 32 RDC groups a die. -/
  retained : List Nat
  /-- Units on their way out of retention, with the clock at which each has left it (R259). -/
  exiting : List (Nat × Nat)
  /-- The clock of the last access to each unit that has been accessed (R259). -/
  used : List (Nat × Nat)
  /-- Requests of the host and of peers that wait at their home, in order of arrival (R203, R259, R325). -/
  pending : List Request
  /-- The last input voltage reported outside its range, in millivolts (R326). -/
  input : Option Int
  out : List Out
deriving DecidableEq, Repr

/-- A reason to stop where the spec gives the machine no effect. -/
inductive Fault where
  /-- A firmware access to a physical address of a reserved range of the address map (spec/14 R246): nothing is there.
  Raised by the loads, stores, atomics and fetches of firmware. Safe: the machine stops. -/
  | reservedAddress (pa : Nat)
deriving DecidableEq, Repr

/-- A reason to refuse an instruction. -/
inductive Refusal where
  /-- The instruction has no meaning in the model yet. Raised by an arm of exec. Safe. -/
  | notModelled (mnemonic : String)
deriving DecidableEq, Repr

/-- A zero tile, full, with the initial shape word (R11, R14). -/
def Tile.reset : Tile := { data := [], shape := 0x0FFF, full := true }

/-- Cleared registers: zero and full (R11, R34). -/
def Regs.reset : Regs :=
  { s := Vector.replicate 32 0, sfull := BitVec.allOnes 32, t := Vector.replicate 16 Tile.reset,
    p := Vector.replicate 8 0, pc := 0, rst := 0, flg := 0, wact := none, wpend := none }

/-- An empty chunk (R11). -/
def Chunk.reset : Chunk :=
  { effects := [], readSig := 0, writeSig := 0, padRead := [], padWrite := [], since := 0, padSince := [], reads := false,
    sectors := [], padSectors := [], claims := 0, dies := 0, squashes := 0, exclusive := false }

/-- A context as it stands before anything runs in it. -/
def Hart.reset (id : Nat) (kind : HartKind) (core : Nat) : Hart :=
  { id := id, task := id, kind := kind, core := core, cap := 0, r := Regs.reset, ckpt := Regs.reset, ntiles := 16, phys := [], ranks := 0,
    header := none, record := none, rebind := none, lease := 0, grantAt := 0, toggles := [], sdist := 0, ckptSdist := 0, ckptLease := 0,
    fenceH := 0, fenceX := 0, chunk := Chunk.reset, commits := 0, rdl := 0, report := [],
    run := .halted, waitFrom := 0, preemptAt := 0, inflight := [], fetched := [], owed := Vector.replicate 16 0, wload := false, checked := 0, issued := 0, migrated := false,
    exempt := false, partner := none, mismatches := 0, request := none, times := [] }

/-- A core after reset (R11). -/
def Core.reset (id : Nat) : Core :=
  { id := id, pad := [], empty := [], ports := Vector.replicate 4 [], inbox := [], held := [], lingering := [], cap := none,
    clearing := false, boundRec := [], claim := none, claimAt := 0, removed := false, retest := false, rows := [],
    reservedFor := none, rr := 0 }

/-- A ring with no definition and no binding (R11). -/
def Ring.reset : Ring := { defn := 0, owner := none, filled := 0, taken := 0, scrub := none }

/-- An idle channel (R11). -/
def Chan.reset : Chan := { copy := none, wp := 0, cap := none }

/-- A cluster after reset (R11, R216, R222). -/
def Cluster.reset (no : Nat) : Cluster :=
  { no := no, rings := Vector.replicate 16 Ring.reset, opbuf := [], grant := none, batch := [], requests := [],
    lastCore := 0, products := [], mism := [], suspects := [], leaseWait := [], chans := Vector.replicate 16 Chan.reset,
    copyWait := [], keys := [], extbufs := [], repair := Vector.replicate 16 0, inj := none, badSpares := [], fwvec := 0, fwcode := 0,
    fwpc := 0, fwdetail := 0, mmuctl := 0, diagstat := 0, summary := 0, clstat := 0, summarised := false, mark := false,
    fencedOther := false, mmu := [], park := [], ro := [], share := 0, credit := 0, demand := 0, idleFrom := 0, rot := 0,
    doorbell := false, misses := 0, lost := false, image := false, badImages := 0, failed := false }

/-- An empty log (R307). -/
def Log.reset : Log := { seq := 0, entries := [] }

/-- A partition after reset (R266, R265): its configuration is zero but for PNUM. -/
def Part.reset (no : Nat) : Part :=
  { no := no, cfg := if no % 256 = 0 then [] else [(0x01A, BitVec.ofNat 8 no)], cr := 0, ptr := Vector.replicate 8 0,
    arrived := Vector.replicate 8 false, doorbells := [], stage := [], stail := 0, shead := 0, ctail := 0, chead := 0,
    svec := 0, sie := false, stagecpl := [], log := Log.reset, resetEnd := 0, resetHost := false, hdm := none }

/-- A queue after reset (R269): unbound, empty, every slot free. -/
def Queue.reset (no : Nat) : Queue :=
  { no := no, fn := none, slots := [], free := 0xFF, pending := [], qcfg := 0, chead := 0, ctail := 0, phase := true,
    crbase := 0, srbase := 0, waiting := 0, placed := 0, held := false, why := 0, heldAt := none, looked := 0, gatest := 0, watched := false,
    deficit := 0, progress := 0, tearing := false, torn := false }

/-- Sumac after reset (R286). -/
def Sumac.reset : Sumac :=
  { sec := 0, ns := 0, offset := 0, holds := 0, source := 0, state := 0, slew := 0, armed := false, frac := 0, holdNs := 0, pps := 0 }

/-- Saffron after reset (R331; log 3 for the registers the spec gives no reset value). -/
def Saffron.reset : Saffron :=
  { keys := Vector.replicate 64 0, sram := [], hash := Vector.replicate 4 [], nonce := 0, mr := Vector.replicate 16 0,
    windows := [], flashA := [], flashB := [], bootedB := false, updated := none, loaded := false, testAt := none, kek := none, device := 0, reserve := 0, misses := 0,
    nfatal := 0, dumpTime := 0, trigger := 0, dumpEnd := 0, mapped := false, fwcode := 0, fwpc := 0, fwdetail := 0 }

/-- The id of Saffron's context. -/
def saffronId : Nat := 0

/-- SRC of the security core in R84's layout. -/
def saffronCore : Nat := 0x1FFE

/-- The package right after a cold reset, before POWER_UP: nothing runs, no memory has been written, no granule is owned
(R301, R327). The context that would issue is Saffron's, halted until the boot (log 2). -/
def State.reset : State :=
  { hart := Hart.reset saffronId .saffron saffronCore, parked := [], agenda := [], fresh := 0, clock := 0, nextId := 1,
    mem := [], poison := [], padPoison := [], bufPoison := [], faults := [], sram := [], host := [], sumac := Sumac.reset,
    homemap := [0, 0, 0, 1, 1, 1, 2, 2, 2, 3, 3, 3, 4, 4, 4, 5, 5, 5, 6, 6, 6, 7, 7, 7],
    got := [], srls := [], seals := [], memkeys := [], mckeys := [], vpages := [], versions := [], dirty := [], heldx := [], tier1map := [],
    parts := [], releasing := [], suspended := [], queues := [], selected := [], caps := [], clusters := [], cores := [], net := [], queries := [], returns := [],
    codeCache := [], tokens := [],
    arbiters := Vector.replicate 5 { commits := 0, squashes := 0, last := [] }, reports := [], pkglog := Log.reset, saffron := Saffron.reset, phase := .off, budget := 1600,
    links := 0xFFF, spdm := [], resetting := none, resetAt := 0, retained := [], exiting := [], used := [], pending := [], input := none, out := [] }

end Sys2Proof.Machine
end

