-- ==== Sys2Proof/Machine/Mem.lean ====
section
/-! DEFINITION. Sparse memory in its canonical form, bytes and little-endian numbers (spec/00_scope.md R4). -/

namespace Sys2Proof.Machine

/-- The byte at an address. -/
def Memory.read : Memory → Nat → Byte
  | [], _ => Memory.default
  | (k, b) :: m, a => if k = a then b else Memory.read m a

/-- Store one byte, keeping the canonical form. -/
def Memory.write : Memory → Nat → Byte → Memory
  | [], a, b => if b = Memory.default then [] else [(a, b)]
  | (k, c) :: m, a, b =>
    if a < k then (if b = Memory.default then (k, c) :: m else (a, b) :: (k, c) :: m)
    else if a = k then (if b = Memory.default then m else (a, b) :: m)
    else (k, c) :: Memory.write m a b

/-- Store bytes from an address upward. -/
def Memory.writeBytes : Memory → Nat → List Byte → Memory
  | m, _, [] => m
  | m, a, b :: bs => Memory.writeBytes (m.write a b) (a + 1) bs

/-- The `n` bytes from an address upward. -/
def Memory.readBytes (m : Memory) (a n : Nat) : List Byte := (List.range n).map fun i => m.read (a + i)

/-- The number that bytes form, least significant first (R4). -/
def leNat : List Byte → Nat
  | [] => 0
  | b :: bs => b.toNat + 256 * leNat bs

/-- The low `n` bytes of a number, least significant first (R4). -/
def leBytes : Nat → Nat → List Byte
  | 0, _ => []
  | n + 1, v => BitVec.ofNat 8 v :: leBytes n (v / 256)

/-- The `n`-byte number at an address. -/
def Memory.readLE (m : Memory) (a n : Nat) : Nat := leNat (m.readBytes a n)

/-- Store the low `n` bytes of a number. -/
def Memory.writeLE (m : Memory) (a n v : Nat) : Memory := m.writeBytes a (leBytes n v)

/-- The bytes that a function gives below `n`, in canonical form. -/
def Memory.tabulate (n : Nat) (f : Nat → Byte) : Memory :=
  (List.range n).filterMap fun k => if f k = Memory.default then none else some (k, f k)

/-- A window of a memory: the bytes from `a`, `n` of them, moved to address 0. -/
def Memory.window (m : Memory) (a n : Nat) : Memory := Memory.tabulate n fun k => m.read (a + k)

/-- A memory with the bytes of `a` to `a + n - 1` set to zero. -/
def Memory.clear (m : Memory) (a n : Nat) : Memory := m.filter fun c => c.1 < a || a + n ≤ c.1

/-- A tile's data with its padding set to zero (R124): 64 bytes a row, of which the elements fill `rb`. -/
def trim (rows rb : Nat) (m : Memory) : Memory := m.filter fun c => decide (c.1 / 64 < rows) && decide (c.1 % 64 < rb)

/-- Bytes as a memory from address 0. -/
def Memory.ofBytes (l : List Byte) : Memory := Memory.tabulate l.length fun k => l.getD k Memory.default

end Sys2Proof.Machine
end

