-- ==== Sys2Proof/Machine/Crypto.lean ====
section
/-! DEFINITION. The published algorithms that the spec names: SHA-384, AES-256, GCM and GMAC, the RFC 3394 key wrap and ECDSA
over the 384-bit Brainpool curve of RFC 5639 (spec/01 R25, spec/10 R224, R225, spec/14 R253, R258, R262, spec/18 R328, R331).
Their constants are those of the published standards (log 13). -/

namespace Sys2Proof.Machine.Crypto

/-- The number that bytes form, most significant first, as these standards read them. -/
def beNat (l : List Byte) : Nat := l.foldl (fun n b => 256 * n + b.toNat) 0

/-- `n` bytes of a number, most significant first. -/
def beBytes (n v : Nat) : List Byte := (leBytes n v).reverse

/-- Exclusive or, byte by byte. -/
def xorBytes (a b : List Byte) : List Byte := List.zipWith (· ^^^ ·) a b

/-- The largest number whose k-th power is at most `n`, found bit by bit from bit 79 down. -/
def root (k n : Nat) : Nat :=
  (List.range 80).foldl (fun r i => let q := r + 2 ^ (79 - i); if q ^ k ≤ n then q else r) 0

/-- The first 80 primes. -/
def primes : List Nat := (List.range 410).filter fun n => decide (2 ≤ n) && (List.range n).all fun d => d < 2 || n % d != 0

/-- The first 64 bits of the fraction of the k-th root of a prime, from which SHA-384 takes its constants. -/
def rootFraction (k p : Nat) : Word := word (root k (p * 2 ^ (64 * k)))

/-- The exclusive or of rotations of a word. -/
def spins (l : List Nat) (x : Word) : Word := l.foldl (fun y n => y ^^^ x.rotateRight n) 0

/-- The next word of a message schedule that stands newest word first. -/
def nextWord (w : List Word) : Word :=
  let back := fun i => w.getD (i - 1) 0
  back 16 + (spins [8, 1] (back 15) ^^^ (back 15 >>> 7)) + back 7 + (spins [61, 19] (back 2) ^^^ (back 2 >>> 6))

/-- One round with the sum of its constant and its schedule word. The eight working variables are the last four values of two
sequences, each newest first. -/
def shaStep (st : List Word × List Word) (x : Word) : List Word × List Word :=
  let u := fun i => st.1.getD i 0
  let v := fun i => st.2.getD i 0
  let choose := v 2 ^^^ (v 0 &&& (v 1 ^^^ v 2))
  let most := (u 0 &&& u 1) ||| (u 2 &&& (u 0 ||| u 1))
  let sum := x + v 3 + choose + spins [41, 18, 14] (v 0)
  ((sum + most + spins [39, 34, 28] (u 0)) :: st.1.take 3, (u 3 + sum) :: st.2.take 3)

/-- The chaining value after a block of 128 bytes. -/
def shaBlock (h : List Word) (block : List Byte) : List Word :=
  let first := (List.range 16).map fun i => word (beNat ((block.drop (120 - 8 * i)).take 8))
  let schedule := ((List.range 64).foldl (fun w _ => nextWord w :: w) first).reverse
  let inputs := List.zipWith (fun p w => rootFraction 3 p + w) primes schedule
  let last := inputs.foldl shaStep (h.take 4, h.drop 4)
  List.zipWith (· + ·) h (last.1 ++ last.2)

/-- SHA-384 of bytes: 48 bytes. A message is padded to whole blocks by a one bit, zeros and its length in bits. -/
def sha384 (m : List Byte) : List Byte :=
  let blocks := (m.length + 144) / 128
  let whole := m ++ 0x80 :: List.replicate (128 * blocks - 17 - m.length) 0 ++ beBytes 16 (8 * m.length)
  let start := ((primes.drop 8).take 8).map (rootFraction 2)
  let h := (List.range blocks).foldl (fun h i => shaBlock h ((whole.drop (128 * i)).take 128)) start
  (h.take 6).flatMap fun w => beBytes 8 w.toNat

/-- Doubling in the field of AES. -/
def xtime (b : Byte) : Byte := (b <<< 1) ^^^ (if b.msb then 0x1B else 0)

/-- The product in the field of AES. -/
def gfMul (a b : Byte) : Byte :=
  ((List.range 8).foldl (fun (acc : Byte × Byte) i => ((if b.getLsbD i then acc.1 ^^^ acc.2 else acc.1), xtime acc.2)) (0, a)).1

/-- The substitution of AES: the inverse (the power 254), then the affine map. -/
def sbox (b : Byte) : Byte :=
  let b2 := gfMul b b
  let b4 := gfMul b2 b2
  let b8 := gfMul b4 b4
  let b16 := gfMul b8 b8
  let b32 := gfMul b16 b16
  let b64 := gfMul b32 b32
  let b128 := gfMul b64 b64
  let i := gfMul b2 (gfMul b4 (gfMul b8 (gfMul b16 (gfMul b32 (gfMul b64 b128)))))
  i ^^^ (i.rotateLeft 1) ^^^ (i.rotateLeft 2) ^^^ (i.rotateLeft 3) ^^^ (i.rotateLeft 4) ^^^ 0x63

/-- The inverse substitution: the affine map backward, then the inverse. -/
def invSbox (b : Byte) : Byte :=
  let a := (b.rotateLeft 1) ^^^ (b.rotateLeft 3) ^^^ (b.rotateLeft 6) ^^^ 0x05
  let a2 := gfMul a a
  let a4 := gfMul a2 a2
  let a8 := gfMul a4 a4
  let a16 := gfMul a8 a8
  let a32 := gfMul a16 a16
  let a64 := gfMul a32 a32
  let a128 := gfMul a64 a64
  gfMul a2 (gfMul a4 (gfMul a8 (gfMul a16 (gfMul a32 (gfMul a64 a128)))))

/-- The key schedule of AES-256: words of four bytes, newest first. -/
def keyWords : Nat → Nat → Byte → List (List Byte) → List (List Byte)
  | 0, _, _, w => w
  | n + 1, i, rcon, w =>
    let prev := w.getD 0 []
    let back := w.getD 7 []
    let t :=
      if i % 8 = 0 then
        match (prev.drop 1 ++ prev.take 1).map sbox with
        | b :: bs => (b ^^^ rcon) :: bs
        | [] => []
      else if i % 8 = 4 then prev.map sbox else prev
    keyWords n (i + 1) (if i % 8 = 0 then xtime rcon else rcon) (xorBytes t back :: w)

/-- The 15 round keys of a 32-byte key. -/
def roundKeys (key : List Byte) : List (List Byte) :=
  let w0 := (List.range 8).map fun i => (key.drop (4 * i)).take 4
  let ws := (keyWords 52 8 1 w0.reverse).reverse
  (List.range 15).map fun r => ((ws.drop (4 * r)).take 4).flatten

/-- ShiftRows: byte (row r, column c) of the state stands at 4c + r. -/
def shiftRows (b : List Byte) : List Byte :=
  (List.range 16).map fun i => b.getD (4 * ((i / 4 + i % 4) % 4) + i % 4) 0

/-- ShiftRows backward. -/
def invShiftRows (b : List Byte) : List Byte :=
  (List.range 16).map fun i => b.getD (4 * ((i / 4 + 4 - i % 4) % 4) + i % 4) 0

/-- One column times the circulant matrix of first row `m`. -/
def mixWith (m : List Byte) (b : List Byte) : List Byte :=
  (List.range 16).map fun i =>
    (List.range 4).foldl (fun acc k => acc ^^^ gfMul (m.getD ((k + 4 - i % 4) % 4) 0) (b.getD (4 * (i / 4) + k) 0)) 0

/-- AES-256 encryption of one 16-byte block. -/
def aesEnc (key block : List Byte) : List Byte :=
  match roundKeys key with
  | k0 :: ks =>
    let mid := (ks.take 13).foldl (fun b k => xorBytes (mixWith [2, 3, 1, 1] (shiftRows (b.map sbox))) k) (xorBytes block k0)
    xorBytes (shiftRows (mid.map sbox)) (ks.getD 13 [])
  | [] => block

/-- AES-256 decryption of one 16-byte block. -/
def aesDec (key block : List Byte) : List Byte :=
  match (roundKeys key).reverse with
  | k14 :: ks =>
    let mid := (ks.take 13).foldl (fun b k => mixWith [14, 11, 13, 9] (xorBytes ((invShiftRows b).map invSbox) k))
      (xorBytes block k14)
    xorBytes ((invShiftRows mid).map invSbox) (ks.getD 13 [])
  | [] => block

/-- The product of GHASH's field: bit 127 of a number is the coefficient of x^0. -/
def ghMul (x y : BitVec 128) : BitVec 128 :=
  ((List.range 128).foldl (fun (acc : BitVec 128 × BitVec 128) i =>
    ((if x.getMsbD i then acc.1 ^^^ acc.2 else acc.1),
     (acc.2 >>> 1) ^^^ (if acc.2.getLsbD 0 then (0xE1 : BitVec 128) <<< 120 else 0))) (0, y)).1

/-- GHASH over `n` blocks. -/
def ghash (h : BitVec 128) : Nat → BitVec 128 → List Byte → BitVec 128
  | 0, y, _ => y
  | n + 1, y, m => ghash h n (ghMul (y ^^^ BitVec.ofNat 128 (beNat (m.take 16))) h) (m.drop 16)

/-- Zero bytes up to a multiple of 16. -/
def pad16 (l : List Byte) : List Byte := l ++ List.replicate ((16 - l.length % 16) % 16) 0

/-- The counter mode of GCM from counter value `c`. -/
def gctr (key iv : List Byte) : Nat → Nat → List Byte → List Byte
  | 0, _, _ => []
  | n + 1, c, m => xorBytes (m.take 16) (aesEnc key (iv ++ beBytes 4 c)) ++ gctr key iv n (c + 1) (m.drop 16)

/-- Encryption and decryption of GCM under a 96-bit IV: the same stream. -/
def gcmCrypt (key iv m : List Byte) : List Byte := gctr key iv ((m.length + 15) / 16) 2 m

/-- The tag of GCM over additional data and ciphertext. -/
def gcmTag (key iv aad c : List Byte) : List Byte :=
  let h := BitVec.ofNat 128 (beNat (aesEnc key (List.replicate 16 0)))
  let m := pad16 aad ++ pad16 c ++ beBytes 8 (8 * aad.length) ++ beBytes 8 (8 * c.length)
  let y := ghash h (m.length / 16) 0 m
  xorBytes (beBytes 16 y.toNat) (aesEnc key (iv ++ beBytes 4 1))

/-- GMAC: the tag over additional data alone. -/
def gmac (key iv m : List Byte) : List Byte := gcmTag key iv m []

/-- The initial value of RFC 3394. -/
def kwIv : List Byte := List.replicate 8 0xA6

/-- One step of wrapping: t counts the steps. -/
def kwWrapStep (key : List Byte) (st : List Byte × List (List Byte)) (t : Nat) : List Byte × List (List Byte) :=
  match st.2 with
  | r :: rs =>
    let b := aesEnc key (st.1 ++ r)
    (xorBytes (b.take 8) (beBytes 8 (t + 1)), rs ++ [b.drop 8])
  | [] => st

/-- RFC 3394 wrap of a 32-byte key: 40 bytes. -/
def kwWrap (kek m : List Byte) : List Byte :=
  let r0 := (List.range 4).map fun i => (m.drop (8 * i)).take 8
  let st := (List.range 24).foldl (kwWrapStep kek) (kwIv, r0)
  st.1 ++ st.2.flatten

/-- One step of unwrapping. -/
def kwUnwrapStep (key : List Byte) (st : List Byte × List (List Byte)) (t : Nat) : List Byte × List (List Byte) :=
  match st.2.reverse with
  | r :: rs =>
    let b := aesDec key (xorBytes st.1 (beBytes 8 (24 - t)) ++ r)
    (b.take 8, b.drop 8 :: rs.reverse)
  | [] => st

/-- RFC 3394 unwrap of 40 bytes: the 32-byte key, or none when the integrity check fails. -/
def kwUnwrap (kek c : List Byte) : Option (List Byte) :=
  let r0 := (List.range 4).map fun i => (c.drop (8 * i + 8)).take 8
  let st := (List.range 24).foldl (kwUnwrapStep kek) (c.take 8, r0)
  if st.1 = kwIv then some st.2.flatten else none

/-- The prime of the 384-bit Brainpool curve. -/
def ecP : Nat := 0x8cb91e82a3386d280f5d6f7e50e641df152f7109ed5456b412b1da197fb71123acd3a729901d1a71874700133107ec53

/-- Its coefficient A. -/
def ecA : Nat := 0x7bc382c63d8c150c3c72080ace05afa0c2bea28e4fb22787139165efba91f90f8aa5814a503ad4eb04a8c7dd22ce2826

/-- Its coefficient B. -/
def ecB : Nat := 0x4a8c7dd22ce28268b39b55416f0447c2fb77de107dcd2a62e880ea53eeb62d57cb4390295dbc9943ab78696fa504c11

/-- Its order. -/
def ecN : Nat := 0x8cb91e82a3386d280f5d6f7e50e641df152f7109ed5456b31f166e6cac0425a7cf3ab6af6b7fc3103b883202e9046565

/-- Its base point. -/
def ecG : Nat × Nat :=
  (0x1d1c64f068cf45ffa2a63a81b7c13f6b8847a3e77ef14fe3db7fcafe0cbd10e8e826e03436d646aaef87b2e247d4af1e,
   0x8abe1d7520f9c2a45cb1eb8e95cfd55262b70b29feec5864e19c054ff99129280e4646217791811142820341263c5315)

/-- Powers modulo `m`, `n` bits of the exponent. -/
def powMod (m : Nat) : Nat → Nat → Nat → Nat
  | 0, _, _ => 1
  | n + 1, b, e => (if e % 2 = 1 then b else 1) * powMod m n (b * b % m) (e / 2) % m

/-- The inverse modulo a prime. -/
def invMod (m a : Nat) : Nat := powMod m 384 (a % m) (m - 2)

/-- The sum of two points; none is the point at infinity. -/
def ecAdd : Option (Nat × Nat) → Option (Nat × Nat) → Option (Nat × Nat)
  | none, q => q
  | p, none => p
  | some (x1, y1), some (x2, y2) =>
    if x1 = x2 ∧ (y1 + y2) % ecP = 0 then none
    else
      let l := if x1 = x2 then (3 * x1 * x1 + ecA) % ecP * invMod ecP (2 * y1) % ecP
        else (y2 + ecP - y1) % ecP * invMod ecP (x2 + ecP - x1) % ecP
      let x3 := (l * l + 2 * ecP - x1 - x2) % ecP
      some (x3, (l * ((x1 + ecP - x3) % ecP) + ecP - y1) % ecP)

/-- A multiple of a point, `n` bits of the factor. -/
def ecMul : Nat → Nat → Option (Nat × Nat) → Option (Nat × Nat)
  | 0, _, _ => none
  | n + 1, k, p => ecAdd (if k % 2 = 1 then p else none) (ecMul n (k / 2) (ecAdd p p))

/-- Two 48-byte numbers, each least significant byte first as R4 stores every value (x and y, r and s: R225, R328). -/
def pairBytes (p : Nat × Nat) : List Byte := leBytes 48 p.1 ++ leBytes 48 p.2

/-- The numbers of 96 bytes. -/
def pairOf (l : List Byte) : Nat × Nat := (leNat (l.take 48), leNat ((l.drop 48).take 48))

/-- The public key of a private key. -/
def ecPublic (d : Nat) : Nat × Nat := (ecMul 384 d (some ecG)).getD (0, 0)

/-- ECDSA over a 48-byte digest with secret number `k`: r and s. -/
def ecSign (d k : Nat) (digest : List Byte) : Nat × Nat :=
  let r := match ecMul 384 k (some ecG) with
    | some (x, _) => x % ecN
    | none => 0
  (r, invMod ecN k * (beNat digest + r * d) % ecN)

/-- Is the signature of a digest valid under a public key? -/
def ecVerify (digest : List Byte) (pub sig : Nat × Nat) : Bool :=
  let (x, y) := pub
  let (r, s) := sig
  let onCurve := x < ecP && y < ecP && y * y % ecP == (x * x % ecP * x + ecA * x + ecB) % ecP
  if onCurve && 0 < r && r < ecN && 0 < s && s < ecN then
    let w := invMod ecN s
    match ecAdd (ecMul 384 (beNat digest * w % ecN) (some ecG)) (ecMul 384 (r * w % ecN) (some (x, y))) with
    | some (vx, _) => vx % ecN == r
    | none => false
  else false

/-- A 256-bit key as bytes, least significant first (R4). -/
def keyBytes (k : BitVec 256) : List Byte := leBytes 32 k.toNat

/-- 32 bytes as a key. -/
def keyOf (l : List Byte) : BitVec 256 := BitVec.ofNat 256 (leNat l)

end Sys2Proof.Machine.Crypto
end

