-- ==== Sys2Proof/WellFormed.lean ====
section
/-! DEFINITION. Which instructions and events are well formed: the limits that spec/02_formats_encodings.md R53 to R60 and
spec/10_system_seal_instructions.md R215, R216 state for the fields of a word, and the ranges of an event's operands. -/

namespace Sys2Proof

/-- INT8 to INT64, BF16 or FP32 (R57). -/
def arithFmt (f : Nat) : Bool := f ≤ 5

/-- INT8 to INT64 (R57). -/
def intFmt (f : Nat) : Bool := f ≤ 3

/-- BF16 or FP32 (R57). -/
def floatFmt (f : Nat) : Bool := f == 4 || f == 5

/-- INT32, INT64, BF16 or FP32 (R57). -/
def redFmt (f : Nat) : Bool := 2 ≤ f && f ≤ 5

/-- Any format value 0x0 to 0x7 (R57, TSEL). -/
def anyFmt (f : Nat) : Bool := f ≤ 7

/-- The numbers of the system register map that SYSRD may name (R215, R216). -/
def readableSysreg (n : Nat) : Bool :=
  n ≤ 8 || (0x8000 ≤ n && n ≤ 0x8003) || n == 0x8010 || n == 0x8020 || n == 0x8021 || n == 0x8030

/-- The numbers that SYSWR may name: those marked RW (R215, R216). -/
def writableSysreg (n : Nat) : Bool :=
  n == 0 || n == 0x8000 || n == 0x8001 || n == 0x8010 || n == 0x8020 || n == 0x8021 || n == 0x8030

/-- The limits on the fields of a word, and on the operands of an event. -/
def Instr.wf : Instr → Bool
  | .add _ _ _ _ _ => true
  | .sub _ _ _ _ _ => true
  | .and _ _ _ _ _ => true
  | .or _ _ _ _ _ => true
  | .xor _ _ _ _ _ => true
  | .shl _ _ _ _ _ => true
  | .shr _ _ _ _ _ => true
  | .sra _ _ _ _ _ => true
  | .rol _ _ _ _ _ => true
  | .min _ _ _ _ _ => true
  | .max _ _ _ _ _ => true
  | .minu _ _ _ _ _ => true
  | .maxu _ _ _ _ _ => true
  | .slt _ _ _ _ _ => true
  | .sltu _ _ _ _ _ => true
  | .seq _ _ _ _ _ => true
  | .sel _ _ _ _ _ => true
  | .mul _ _ _ _ _ => true
  | .mulh _ _ _ _ _ => true
  | .mulhu _ _ _ _ _ => true
  | .div _ _ _ _ _ => true
  | .divu _ _ _ _ _ => true
  | .rem _ _ _ _ _ => true
  | .remu _ _ _ _ _ => true
  | .mov _ _ _ => true
  | .clz _ _ _ => true
  | .ctz _ _ _ => true
  | .popc _ _ _ => true
  | .bswap _ _ _ => true
  | .hmk _ _ _ _ _ => true
  | .hoff _ _ _ => true
  | .hlen _ _ _ => true
  | .hrgt _ _ _ => true
  | .time _ => true
  | .addi _ _ _ _ => true
  | .andi _ _ _ _ => true
  | .ori _ _ _ _ => true
  | .xori _ _ _ _ => true
  | .shli _ _ _ _ => true
  | .shri _ _ _ _ => true
  | .srai _ _ _ _ => true
  | .ext _ _ _ l p => p.toNat + l.toNat + 1 ≤ 64
  | .ins _ _ _ l p => p.toNat + l.toNat + 1 ≤ 64
  | .movi _ _ => true
  | .brEq _ _ _ => true
  | .brNe _ _ _ => true
  | .brLt _ _ _ => true
  | .brGe _ _ _ => true
  | .brLtu _ _ _ => true
  | .brGeu _ _ _ => true
  | .j _ => true
  | .jl _ => true
  | .jr _ _ => true
  | .send _ _ _ _ => true
  | .sendt _ _ _ _ _ => true
  | .sendx _ _ _ _ => true
  | .recv _ _ => true
  | .trecv _ _ => true
  | .jnew _ _ _ _ _ => true
  | .arrive _ _ => true
  | .wqry _ _ _ _ => true
  | .wait _ _ _ _ => true
  | .migr => true
  | .mret => true
  | .spawn _ _ _ _ _ => true
  | .safe _ => true
  | .done => true
  | .cont _ _ _ _ => true
  | .nop => true
  | .limm _ => true
  | .ldB _ _ _ _ => true
  | .ldH _ _ _ _ => true
  | .ldW _ _ _ _ => true
  | .ldD _ _ _ _ => true
  | .stB _ _ _ _ => true
  | .stH _ _ _ _ => true
  | .stW _ _ _ _ => true
  | .stD _ _ _ _ => true
  | .ldc _ _ _ _ => true
  | .lds _ _ _ => true
  | .sts _ _ _ _ => true
  | .amoadd _ _ _ _ _ _ => true
  | .amoand _ _ _ _ _ _ => true
  | .amoor _ _ _ _ _ _ => true
  | .amoxor _ _ _ _ _ _ => true
  | .amomin _ _ _ _ _ _ => true
  | .amomax _ _ _ _ _ _ => true
  | .amominu _ _ _ _ _ _ => true
  | .amomaxu _ _ _ _ _ _ => true
  | .amoswp _ _ _ _ _ _ => true
  | .amocas _ _ _ _ _ _ => true
  | .amofadd _ _ _ _ _ => true
  | .amofmin _ _ _ _ _ => true
  | .amofmax _ _ _ _ _ => true
  | .amoaddNr _ _ _ _ _ => true
  | .amoandNr _ _ _ _ _ => true
  | .amoorNr _ _ _ _ _ => true
  | .amoxorNr _ _ _ _ _ => true
  | .amominNr _ _ _ _ _ => true
  | .amomaxNr _ _ _ _ _ => true
  | .amominuNr _ _ _ _ _ => true
  | .amomaxuNr _ _ _ _ _ => true
  | .amofaddNr _ _ _ _ => true
  | .amofminNr _ _ _ _ => true
  | .amofmaxNr _ _ _ _ => true
  | .fenceX => true
  | .fenceH => true
  | .gate _ _ _ _ => true
  | .cinv _ _ _ _ => true
  | .tld _ _ _ _ _ => true
  | .tldc _ _ _ _ _ => true
  | .tst _ _ _ _ _ => true
  | .tlds _ _ _ _ _ => true
  | .tsts _ _ _ _ _ => true
  | .tshape _ _ _ => true
  | .tshapeq _ _ => true
  | .tclr _ => true
  | .tmov _ _ _ => true
  | .ttr _ _ _ => true
  | .tbcr _ _ _ _ _ => true
  | .tbcc _ _ _ _ _ => true
  | .textr _ _ _ _ _ => true
  | .tins _ _ _ _ _ => true
  | .vset _ _ _ _ _ => true
  | .vadv _ _ _ _ _ => true
  | .vget _ _ _ => true
  | .tadd _ _ _ _ _ _ f => f == 0xF || arithFmt f.toNat
  | .tsub _ _ _ _ _ _ f => f == 0xF || arithFmt f.toNat
  | .tmul _ _ _ _ _ _ f => f == 0xF || arithFmt f.toNat
  | .tfma _ _ _ _ _ f => f == 0xF || floatFmt f.toNat
  | .tmin _ _ _ _ _ f => f == 0xF || arithFmt f.toNat
  | .tmax _ _ _ _ _ f => f == 0xF || arithFmt f.toNat
  | .tabs _ _ _ _ f => f == 0xF || arithFmt f.toNat
  | .tneg _ _ _ _ f => f == 0xF || arithFmt f.toNat
  | .tand _ _ _ _ _ f => f == 0xF || intFmt f.toNat
  | .tor _ _ _ _ _ f => f == 0xF || intFmt f.toNat
  | .txor _ _ _ _ _ f => f == 0xF || intFmt f.toNat
  | .tshl _ _ _ _ _ _ f => f == 0xF || intFmt f.toNat
  | .tshr _ _ _ _ _ f => f == 0xF || intFmt f.toNat
  | .tsra _ _ _ _ _ f => f == 0xF || intFmt f.toNat
  | .tscale _ _ _ _ _ f => f == 0xF || floatFmt f.toNat
  | .tsel _ _ _ _ _ f => f == 0xF || anyFmt f.toNat
  | .tcmpEq _ _ _ _ _ f => f == 0xF || arithFmt f.toNat
  | .tcmpNe _ _ _ _ _ f => f == 0xF || arithFmt f.toNat
  | .tcmpLt _ _ _ _ _ f => f == 0xF || arithFmt f.toNat
  | .tcmpLe _ _ _ _ _ f => f == 0xF || arithFmt f.toNat
  | .texp _ _ _ f => f == 0xF || floatFmt f.toNat
  | .tlog _ _ _ f => f == 0xF || floatFmt f.toNat
  | .trcp _ _ _ f => f == 0xF || floatFmt f.toNat
  | .trsq _ _ _ f => f == 0xF || floatFmt f.toNat
  | .tredrAdd _ _ _ f => f == 0xF || redFmt f.toNat
  | .tredrMax _ _ _ f => f == 0xF || redFmt f.toNat
  | .tredrMin _ _ _ f => f == 0xF || redFmt f.toNat
  | .tredcAdd _ _ _ f => f == 0xF || redFmt f.toNat
  | .tredcMax _ _ _ f => f == 0xF || redFmt f.toNat
  | .tredcMin _ _ _ f => f == 0xF || redFmt f.toNat
  | .tdotr _ _ _ _ _ f => f == 0xF || floatFmt f.toNat
  | .tcvt _ _ _ f r => f.toNat ≤ 7 && r.toNat ≤ 4
  | .tqnt _ _ _ _ _ c _ => c.toNat ≠ 0
  | .tdq _ _ _ _ _ c _ => c.toNat ≠ 0
  | .tredx _ _ _ _ => true
  | .mma _ _ _ k => k.toNat ≠ 0
  | .mmal _ _ _ k => k.toNat ≠ 0
  | .mmah16 _ _ _ k => k.toNat ≠ 0
  | .mmah32 _ _ _ k => k.toNat ≠ 0
  | .mmah64 _ _ _ k => k.toNat ≠ 0
  | .mmae _ _ _ k => k.toNat ≠ 0
  | .mmaeL _ _ _ k => k.toNat ≠ 0
  | .mmaeH16 _ _ _ k => k.toNat ≠ 0
  | .mmaeH32 _ _ _ k => k.toNat ≠ 0
  | .mmaeH64 _ _ _ k => k.toNat ≠ 0
  | .mldw _ k => k.toNat ≠ 0
  | .mlease _ _ => true
  | .mrel => true
  | .mrdef _ _ _ _ => true
  | .mrq _ _ _ => true
  | .mchk _ => true
  | .mdrain => true
  | .cpyMs _ _ _ _ _ => true
  | .cpySm _ _ _ _ _ => true
  | .cpyMr _ _ _ _ _ => true
  | .cpyUr _ _ _ _ _ => true
  | .cpyEs _ _ _ _ _ => true
  | .cpySe _ _ _ _ _ => true
  | .cpywp _ _ _ => true
  | .cwait _ _ _ _ => true
  | .own _ _ _ => true
  | .mepi _ _ _ _ => true
  | .trap _ => true
  | .sysrd _ n => readableSysreg n.toNat
  | .syswr _ n => writableSysreg n.toNat
  | .sealq _ _ => true
  | .frep _ => true
  | .diagrd _ _ => true
  | .diagwr _ _ => true
  | .repair _ _ => true
  | .mstat _ => true
  | .halt => true
  | .wfe => true
  | .mmurd _ _ => true
  | .mmuwr _ _ => true
  | .mmuinv _ => true
  | .kwrap _ _ => true
  | .kunwrap _ _ => true
  | .kscrub _ => true
  | .hashi _ => true
  | .hashu _ _ => true
  | .hashf _ _ => true
  | .ecsign _ _ => true
  | .ecvrfy _ _ => true
  | .aesenc _ _ => true
  | .aesdec _ _ => true
  | .rng _ => true
  | .repf _ _ _ _ _ => true
  | .evSummaryWrite cluster _ => cluster < 128
  | .evSafeDistance _ => true
  | .evWaitSafePoint _ => true
  | .evChunkCommit _ => true
  | .evCoreClearComplete core => core < 4096
  | .evMessageDelivery _ core => core < 4096
  | .evPlacementWalk _ => true
  | .evDataMessageArrival _ => true
  | .evContinuationResume _ core => core < 4096
  | .evRegisterClearComplete _ => true
  | .evMigrationArrival _ => true
  | .evCuminQuery _ => true
  | .evWqryAnswer _ => true
  | .evCopyStart cluster chan => cluster < 128 && chan < 16
  | .evCopyElementDelivery cluster chan => cluster < 128 && chan < 16
  | .evWeightKeyLoad cluster chan => cluster < 128 && chan < 16
  | .evSealGroupVerify cluster chan => cluster < 128 && chan < 16
  | .evGrantBatch cluster => cluster < 128
  | .evGrantExpiry cluster => cluster < 128
  | .evWeightLoadComplete _ => true
  | .evResidueCheckComplete cluster _ => cluster < 128
  | .evLeaseScrubComplete cluster => cluster < 128
  | .evCoreParityError _ => true
  | .evParityRequeueTimeout _ => true
  | .evPairCommitTimeout _ => true
  | .evSpecWayTimeout _ => true
  | .evExclusiveTokenRelease _ => true
  | .evCapsuleComplete _ => true
  | .evJoinStall _ => true
  | .evDeadline _ => true
  | .evLeaseOverrun _ => true
  | .evEngineStall cluster chan => cluster < 128 && chan < 16
  | .evQueueStall queue => queue < 32768
  | .evHeartbeatEcho _ _ => true
  | .evHeartbeatFailure _ => true
  | .evQueueSelect => true
  | .evAdmitHead queue => queue < 32768
  | .evPendingSlotCopy queue => queue < 32768
  | .evArmingWindowEntry queue => queue < 32768
  | .evLaunchRelease _ => true
  | .evGatePoll queue => queue < 32768
  | .evPreemptionSearch queue => queue < 32768
  | .evClaimExpiry core => core < 4096
  | .evPowerDivision => true
  | .evClusterPowerGate cluster => cluster < 128
  | .evClusterWake cluster => cluster < 128
  | .evRetentionEntry _ => true
  | .evRetentionExit _ => true
  | .evTier1Writeback _ => true
  | .evEpochReencrypt granule => granule < 720896
  | .evArrayDiagnosis cluster _ => cluster < 128
  | .evSummaryTimeout cluster => cluster < 128
  | .evPackageFatalError _ => true
  | .evWarmResetTimeout => true
  | .evPowerUp => true
  | .evImageDelivery cluster _ => cluster < 128
  | .evInputOutOfRange _ => true
  | .evInputLoss => true
  | .evPtpFrame _ => true
  | .evPpsInput _ _ => true
  | .evPpsOutput => true
  | .evPeerMemoryWrite p _ _ => p.link < 12 && p.window < 64
  | .evPeerMemoryRead p _ _ => p.link < 12 && p.window < 64
  | .evPeerGate p _ => p.link < 12 && p.window < 64
  | .evPeerDoorbell p _ => p.link < 12 && p.window < 64
  | .evLinkDown link => link < 12
  | .evGoWrite vf queue _ => vf ≤ 16 && queue < 32768
  | .evQcfgWrite vf queue _ => vf ≤ 16 && queue < 32768
  | .evHostRegisterWrite vf _ _ => vf ≤ 16
  | .evDoorbellCountRead vf n => vf ≤ 16 && n < 512
  | .evCtailWrite vf _ => vf ≤ 16
  | .evHostRead vf _ _ => vf ≤ 16
  | .evHostWrite vf _ _ => vf ≤ 16
  | .evHostFetchadd vf _ _ _ => vf ≤ 16
  | .evHostSwap vf _ _ _ => vf ≤ 16
  | .evHostCas vf _ width _ _ => vf ≤ 16 && (width == 4 || width == 8 || width == 16)
  | .evTier1MapWrite slot _ => slot < 1024
  | .evFunctionLevelReset vf => vf ≤ 16
  | .evAbortCapsule _ _ _ _ => true
  | .evTeardownQueue _ _ _ => true
  | .evResetPartition _ _ => true
  | .evWarmReset _ => true
  | .evColdReset _ => true
  | .evReadEvlog _ _ _ => true
  | .evReadDump _ _ => true
  | .evDumpKey _ => true
  | .evFence _ _ => true
  | .evUnfence _ _ => true
  | .evSetBudget _ _ => true
  | .evGetStatus _ => true
  | .evManagementWake cluster => cluster < 128
  | .evConfigWrite _ _ _ => true
  | .evQueueBind _ _ _ => true
  | .evWindowWrite _ _ _ => true
  | .evLock _ => true
  | .evLockComplete => true
  | .evKeyset _ _ => true
  | .evKeydrop _ => true
  | .evGrant granule _ => granule < 720896
  | .evShare _ granule _ => granule < 720896
  | .evUnshare _ granule _ => granule < 720896
  | .evSeal granule _ => granule < 720896
  | .evRelease granule => granule < 720896
  | .evReleaseComplete granule => granule < 720896
  | .evPldmMonitor _ => true
  | .evPldmFirmwareUpdate _ _ => true
  | .evGetVersion _ _ => true
  | .evGetCapabilities _ _ => true
  | .evNegotiateAlgorithms _ _ => true
  | .evGetDigests _ _ => true
  | .evGetCertificate _ _ => true
  | .evChallenge _ _ => true
  | .evGetMeasurements _ _ => true
  | .evSpdmUnsupportedRequest _ _ => true
  | .evIllegalInstruction _ => true
  | .evProducerCompletion _ => true
  | .evWaitTimeReached _ => true
  | .evPowerShareAvailable cluster => cluster < 128
  | .evHoldover => true
  | .evLinkUp link => link < 12
  | .evPeerRefusal _ _ => true
  | .evManagementDoorbell cluster => cluster < 128
  | .evCompletionWriteError queue => queue < 32768

end Sys2Proof
end

