-- ==== Sys2Proof/Decode.lean ====
section
/-! DEFINITION. The decoder of instruction words and the encoder beside it
(spec/02_formats_encodings.md R47 to R60, R63, R65). A word is read as a number with bit 0 the least significant (R4). -/

namespace Sys2Proof

/-- Why a word is no instruction: each reason raises ILLEGAL at issue (R50). -/
inductive Reject where
  /-- Major 0x00, 0x3F or one that R52 marks reserved. -/
  | reservedMajor
  /-- A func, cond, sysfunc, mode or other selector value that is not assigned. -/
  | reservedSelector
  /-- A nonzero reserved field or bit (R7, R48, R49). -/
  | reservedField
  /-- A field value outside the limits that R53 to R60 state. -/
  | fieldLimit
deriving DecidableEq, Repr

/-- A 5-bit register field. -/
def fld32 (n : Nat) : Fin 32 := Fin.ofNat 32 n

/-- A 4-bit register field. -/
def fld16 (n : Nat) : Fin 16 := Fin.ofNat 16 n

/-- A 3-bit view field. -/
def fld8 (n : Nat) : Fin 8 := Fin.ofNat 8 n

/-- The last check of R50: every field within its limits. -/
def check (i : Instr) : Except Reject Instr :=
  if i.wf then .ok i else .error .fieldLimit

/-- Major 0x01 (spec/02_formats_encodings.md R52 to R60). -/
def decodeMajor01 (w : Nat) : Except Reject Instr :=
  match w % 512 with
  | 0x0 => check (.add (fld32 (w / 2097152)) (fld32 (w / 65536)) (fld32 (w / 2048)) (w / 1024 % 2 == 1) (w / 512 % 2 == 1))
  | 0x1 => check (.sub (fld32 (w / 2097152)) (fld32 (w / 65536)) (fld32 (w / 2048)) (w / 1024 % 2 == 1) (w / 512 % 2 == 1))
  | 0x2 => check (.and (fld32 (w / 2097152)) (fld32 (w / 65536)) (fld32 (w / 2048)) (w / 1024 % 2 == 1) (w / 512 % 2 == 1))
  | 0x3 => check (.or (fld32 (w / 2097152)) (fld32 (w / 65536)) (fld32 (w / 2048)) (w / 1024 % 2 == 1) (w / 512 % 2 == 1))
  | 0x4 => check (.xor (fld32 (w / 2097152)) (fld32 (w / 65536)) (fld32 (w / 2048)) (w / 1024 % 2 == 1) (w / 512 % 2 == 1))
  | 0x5 => check (.shl (fld32 (w / 2097152)) (fld32 (w / 65536)) (fld32 (w / 2048)) (w / 1024 % 2 == 1) (w / 512 % 2 == 1))
  | 0x6 => check (.shr (fld32 (w / 2097152)) (fld32 (w / 65536)) (fld32 (w / 2048)) (w / 1024 % 2 == 1) (w / 512 % 2 == 1))
  | 0x7 => check (.sra (fld32 (w / 2097152)) (fld32 (w / 65536)) (fld32 (w / 2048)) (w / 1024 % 2 == 1) (w / 512 % 2 == 1))
  | 0x8 => check (.rol (fld32 (w / 2097152)) (fld32 (w / 65536)) (fld32 (w / 2048)) (w / 1024 % 2 == 1) (w / 512 % 2 == 1))
  | 0x9 => check (.min (fld32 (w / 2097152)) (fld32 (w / 65536)) (fld32 (w / 2048)) (w / 1024 % 2 == 1) (w / 512 % 2 == 1))
  | 0xA => check (.max (fld32 (w / 2097152)) (fld32 (w / 65536)) (fld32 (w / 2048)) (w / 1024 % 2 == 1) (w / 512 % 2 == 1))
  | 0xB => check (.minu (fld32 (w / 2097152)) (fld32 (w / 65536)) (fld32 (w / 2048)) (w / 1024 % 2 == 1) (w / 512 % 2 == 1))
  | 0xC => check (.maxu (fld32 (w / 2097152)) (fld32 (w / 65536)) (fld32 (w / 2048)) (w / 1024 % 2 == 1) (w / 512 % 2 == 1))
  | 0xD => check (.slt (fld32 (w / 2097152)) (fld32 (w / 65536)) (fld32 (w / 2048)) (w / 1024 % 2 == 1) (w / 512 % 2 == 1))
  | 0xE => check (.sltu (fld32 (w / 2097152)) (fld32 (w / 65536)) (fld32 (w / 2048)) (w / 1024 % 2 == 1) (w / 512 % 2 == 1))
  | 0xF => check (.seq (fld32 (w / 2097152)) (fld32 (w / 65536)) (fld32 (w / 2048)) (w / 1024 % 2 == 1) (w / 512 % 2 == 1))
  | 0x10 => check (.sel (fld32 (w / 2097152)) (fld32 (w / 65536)) (fld32 (w / 2048)) (w / 1024 % 2 == 1) (w / 512 % 2 == 1))
  | _ => .error .reservedSelector

/-- Major 0x02 (spec/02_formats_encodings.md R52 to R60). -/
def decodeMajor02 (w : Nat) : Except Reject Instr :=
  match w % 512 with
  | 0x0 => check (.mul (fld32 (w / 2097152)) (fld32 (w / 65536)) (fld32 (w / 2048)) (w / 1024 % 2 == 1) (w / 512 % 2 == 1))
  | 0x1 => check (.mulh (fld32 (w / 2097152)) (fld32 (w / 65536)) (fld32 (w / 2048)) (w / 1024 % 2 == 1) (w / 512 % 2 == 1))
  | 0x2 => check (.mulhu (fld32 (w / 2097152)) (fld32 (w / 65536)) (fld32 (w / 2048)) (w / 1024 % 2 == 1) (w / 512 % 2 == 1))
  | 0x3 => check (.div (fld32 (w / 2097152)) (fld32 (w / 65536)) (fld32 (w / 2048)) (w / 1024 % 2 == 1) (w / 512 % 2 == 1))
  | 0x4 => check (.divu (fld32 (w / 2097152)) (fld32 (w / 65536)) (fld32 (w / 2048)) (w / 1024 % 2 == 1) (w / 512 % 2 == 1))
  | 0x5 => check (.rem (fld32 (w / 2097152)) (fld32 (w / 65536)) (fld32 (w / 2048)) (w / 1024 % 2 == 1) (w / 512 % 2 == 1))
  | 0x6 => check (.remu (fld32 (w / 2097152)) (fld32 (w / 65536)) (fld32 (w / 2048)) (w / 1024 % 2 == 1) (w / 512 % 2 == 1))
  | _ => .error .reservedSelector

/-- Major 0x03 (spec/02_formats_encodings.md R52 to R60). -/
def decodeMajor03 (w : Nat) : Except Reject Instr :=
  match w % 512 with
  | 0x0 => if w / 512 % 2 = 0 ∧ w / 2048 % 32 = 0 then check (.mov (fld32 (w / 2097152)) (fld32 (w / 65536)) (w / 1024 % 2 == 1)) else .error .reservedField
  | 0x1 => if w / 512 % 2 = 0 ∧ w / 2048 % 32 = 0 then check (.clz (fld32 (w / 2097152)) (fld32 (w / 65536)) (w / 1024 % 2 == 1)) else .error .reservedField
  | 0x2 => if w / 512 % 2 = 0 ∧ w / 2048 % 32 = 0 then check (.ctz (fld32 (w / 2097152)) (fld32 (w / 65536)) (w / 1024 % 2 == 1)) else .error .reservedField
  | 0x3 => if w / 512 % 2 = 0 ∧ w / 2048 % 32 = 0 then check (.popc (fld32 (w / 2097152)) (fld32 (w / 65536)) (w / 1024 % 2 == 1)) else .error .reservedField
  | 0x4 => if w / 512 % 2 = 0 ∧ w / 2048 % 32 = 0 then check (.bswap (fld32 (w / 2097152)) (fld32 (w / 65536)) (w / 1024 % 2 == 1)) else .error .reservedField
  | _ => .error .reservedSelector

/-- Major 0x04 (spec/02_formats_encodings.md R52 to R60). -/
def decodeMajor04 (w : Nat) : Except Reject Instr :=
  match w % 512 with
  | 0x0 => check (.hmk (fld32 (w / 2097152)) (fld32 (w / 65536)) (fld32 (w / 2048)) (w / 1024 % 2 == 1) (w / 512 % 2 == 1))
  | 0x1 => if w / 512 % 2 = 0 ∧ w / 2048 % 32 = 0 then check (.hoff (fld32 (w / 2097152)) (fld32 (w / 65536)) (w / 1024 % 2 == 1)) else .error .reservedField
  | 0x2 => if w / 512 % 2 = 0 ∧ w / 2048 % 32 = 0 then check (.hlen (fld32 (w / 2097152)) (fld32 (w / 65536)) (w / 1024 % 2 == 1)) else .error .reservedField
  | 0x3 => if w / 512 % 2 = 0 ∧ w / 2048 % 32 = 0 then check (.hrgt (fld32 (w / 2097152)) (fld32 (w / 65536)) (w / 1024 % 2 == 1)) else .error .reservedField
  | 0x4 => if w / 512 % 4096 = 0 then check (.time (fld32 (w / 2097152))) else .error .reservedField
  | _ => .error .reservedSelector

/-- Major 0x05 (spec/02_formats_encodings.md R52 to R60). -/
def decodeMajor05 (w : Nat) : Except Reject Instr :=
  check (.addi (fld32 (w / 2097152)) (fld32 (w / 65536)) (w / 32768 % 2 == 1) (BitVec.ofNat 15 (w % 32768)))

/-- Major 0x06 (spec/02_formats_encodings.md R52 to R60). -/
def decodeMajor06 (w : Nat) : Except Reject Instr :=
  check (.andi (fld32 (w / 2097152)) (fld32 (w / 65536)) (w / 32768 % 2 == 1) (BitVec.ofNat 15 (w % 32768)))

/-- Major 0x07 (spec/02_formats_encodings.md R52 to R60). -/
def decodeMajor07 (w : Nat) : Except Reject Instr :=
  check (.ori (fld32 (w / 2097152)) (fld32 (w / 65536)) (w / 32768 % 2 == 1) (BitVec.ofNat 15 (w % 32768)))

/-- Major 0x08 (spec/02_formats_encodings.md R52 to R60). -/
def decodeMajor08 (w : Nat) : Except Reject Instr :=
  check (.xori (fld32 (w / 2097152)) (fld32 (w / 65536)) (w / 32768 % 2 == 1) (BitVec.ofNat 15 (w % 32768)))

/-- Major 0x09 (spec/02_formats_encodings.md R52 to R60). -/
def decodeMajor09 (w : Nat) : Except Reject Instr :=
  if w / 64 % 512 = 0 then check (.shli (fld32 (w / 2097152)) (fld32 (w / 65536)) (w / 32768 % 2 == 1) (BitVec.ofNat 6 (w % 64))) else .error .reservedField

/-- Major 0x0A (spec/02_formats_encodings.md R52 to R60). -/
def decodeMajor0A (w : Nat) : Except Reject Instr :=
  if w / 64 % 512 = 0 then check (.shri (fld32 (w / 2097152)) (fld32 (w / 65536)) (w / 32768 % 2 == 1) (BitVec.ofNat 6 (w % 64))) else .error .reservedField

/-- Major 0x0B (spec/02_formats_encodings.md R52 to R60). -/
def decodeMajor0B (w : Nat) : Except Reject Instr :=
  if w / 64 % 512 = 0 then check (.srai (fld32 (w / 2097152)) (fld32 (w / 65536)) (w / 32768 % 2 == 1) (BitVec.ofNat 6 (w % 64))) else .error .reservedField

/-- Major 0x0C (spec/02_formats_encodings.md R52 to R60). -/
def decodeMajor0C (w : Nat) : Except Reject Instr :=
  if w / 4096 % 8 = 0 then check (.ext (fld32 (w / 2097152)) (fld32 (w / 65536)) (w / 32768 % 2 == 1) (BitVec.ofNat 6 (w / 64 % 64)) (BitVec.ofNat 6 (w % 64))) else .error .reservedField

/-- Major 0x0D (spec/02_formats_encodings.md R52 to R60). -/
def decodeMajor0D (w : Nat) : Except Reject Instr :=
  if w / 4096 % 8 = 0 then check (.ins (fld32 (w / 2097152)) (fld32 (w / 65536)) (w / 32768 % 2 == 1) (BitVec.ofNat 6 (w / 64 % 64)) (BitVec.ofNat 6 (w % 64))) else .error .reservedField

/-- Major 0x0E (spec/02_formats_encodings.md R52 to R60). -/
def decodeMajor0E (w : Nat) : Except Reject Instr :=
  if w / 32768 % 64 = 0 then check (.movi (fld32 (w / 2097152)) (BitVec.ofNat 15 (w % 32768))) else .error .reservedField

/-- Major 0x10 (spec/02_formats_encodings.md R52 to R60). -/
def decodeMajor10 (w : Nat) : Except Reject Instr :=
  match w / 8192 % 8 with
  | 0x0 => check (.brEq (fld32 (w / 2097152)) (fld32 (w / 65536)) (BitVec.ofNat 13 (w % 8192)))
  | 0x1 => check (.brNe (fld32 (w / 2097152)) (fld32 (w / 65536)) (BitVec.ofNat 13 (w % 8192)))
  | 0x2 => check (.brLt (fld32 (w / 2097152)) (fld32 (w / 65536)) (BitVec.ofNat 13 (w % 8192)))
  | 0x3 => check (.brGe (fld32 (w / 2097152)) (fld32 (w / 65536)) (BitVec.ofNat 13 (w % 8192)))
  | 0x4 => check (.brLtu (fld32 (w / 2097152)) (fld32 (w / 65536)) (BitVec.ofNat 13 (w % 8192)))
  | 0x5 => check (.brGeu (fld32 (w / 2097152)) (fld32 (w / 65536)) (BitVec.ofNat 13 (w % 8192)))
  | _ => .error .reservedSelector

/-- Major 0x11 (spec/02_formats_encodings.md R52 to R60). -/
def decodeMajor11 (w : Nat) : Except Reject Instr :=
  check (.j (BitVec.ofNat 26 (w % 67108864)))

/-- Major 0x12 (spec/02_formats_encodings.md R52 to R60). -/
def decodeMajor12 (w : Nat) : Except Reject Instr :=
  check (.jl (BitVec.ofNat 26 (w % 67108864)))

/-- Major 0x13 (spec/02_formats_encodings.md R52 to R60). -/
def decodeMajor13 (w : Nat) : Except Reject Instr :=
  match w % 512 with
  | 0x0 => if w / 512 % 2 = 0 ∧ w / 2048 % 32 = 0 ∧ w / 2097152 % 32 = 0 then check (.jr (fld32 (w / 65536)) (w / 1024 % 2 == 1)) else .error .reservedField
  | _ => .error .reservedSelector

/-- Major 0x14 (spec/02_formats_encodings.md R52 to R60). -/
def decodeMajor14 (w : Nat) : Except Reject Instr :=
  match w % 512 with
  | 0x0 => if w / 2097152 % 32 = 0 then check (.send (fld32 (w / 65536)) (fld32 (w / 2048)) (w / 1024 % 2 == 1) (w / 512 % 2 == 1)) else .error .reservedField
  | 0x1 => if w / 33554432 % 2 = 0 then check (.sendt (fld16 (w / 2097152)) (fld32 (w / 65536)) (fld32 (w / 2048)) (w / 1024 % 2 == 1) (w / 512 % 2 == 1)) else .error .reservedField
  | 0x2 => if w / 2097152 % 32 = 0 then check (.sendx (fld32 (w / 65536)) (fld32 (w / 2048)) (w / 1024 % 2 == 1) (w / 512 % 2 == 1)) else .error .reservedField
  | 0x3 => if w / 512 % 4 = 0 ∧ w / 8192 % 256 = 0 then check (.recv (fld32 (w / 2097152)) (BitVec.ofNat 2 (w / 2048 % 4))) else .error .reservedField
  | 0x4 => if w / 512 % 4 = 0 ∧ w / 8192 % 256 = 0 ∧ w / 33554432 % 2 = 0 then check (.trecv (fld16 (w / 2097152)) (BitVec.ofNat 2 (w / 2048 % 4))) else .error .reservedField
  | 0x5 => check (.jnew (fld32 (w / 2097152)) (fld32 (w / 65536)) (fld32 (w / 2048)) (w / 1024 % 2 == 1) (w / 512 % 2 == 1))
  | 0x6 => if w / 512 % 2 = 0 ∧ w / 2048 % 32 = 0 ∧ w / 2097152 % 32 = 0 then check (.arrive (fld32 (w / 65536)) (w / 1024 % 2 == 1)) else .error .reservedField
  | 0x7 => if w / 2097152 % 32 = 0 then check (.wqry (fld32 (w / 65536)) (fld32 (w / 2048)) (w / 1024 % 2 == 1) (w / 512 % 2 == 1)) else .error .reservedField
  | 0x8 => if w / 2097152 % 32 = 0 then check (.wait (fld32 (w / 65536)) (fld32 (w / 2048)) (w / 1024 % 2 == 1) (w / 512 % 2 == 1)) else .error .reservedField
  | 0x9 => if w / 512 % 131072 = 0 then check (.migr) else .error .reservedField
  | 0xA => if w / 512 % 131072 = 0 then check (.mret) else .error .reservedField
  | 0xB => check (.spawn (fld32 (w / 2097152)) (fld32 (w / 65536)) (fld32 (w / 2048)) (w / 1024 % 2 == 1) (w / 512 % 2 == 1))
  | _ => .error .reservedSelector

/-- Major 0x15 (spec/02_formats_encodings.md R52 to R60). -/
def decodeMajor15 (w : Nat) : Except Reject Instr :=
  if w / 65536 % 1024 = 0 then check (.safe (BitVec.ofNat 16 (w % 65536))) else .error .reservedField

/-- Major 0x16 (spec/02_formats_encodings.md R52 to R60). -/
def decodeMajor16 (w : Nat) : Except Reject Instr :=
  match w % 512 with
  | 0x0 => if w / 512 % 131072 = 0 then check (.done) else .error .reservedField
  | 0x1 => if w / 2097152 % 32 = 0 then check (.cont (fld32 (w / 65536)) (fld32 (w / 2048)) (w / 1024 % 2 == 1) (w / 512 % 2 == 1)) else .error .reservedField
  | 0x2 => if w / 512 % 131072 = 0 then check (.nop) else .error .reservedField
  | _ => .error .reservedSelector

/-- Major 0x17 (spec/02_formats_encodings.md R52 to R60). -/
def decodeMajor17 (w : Nat) : Except Reject Instr :=
  check (.limm (BitVec.ofNat 26 (w % 67108864)))

/-- Major 0x18 (spec/02_formats_encodings.md R52 to R60). -/
def decodeMajor18 (w : Nat) : Except Reject Instr :=
  match w / 8192 % 4 with
  | 0x0 => check (.ldB (fld32 (w / 2097152)) (fld32 (w / 65536)) (w / 32768 % 2 == 1) (BitVec.ofNat 13 (w % 8192)))
  | 0x1 => check (.ldH (fld32 (w / 2097152)) (fld32 (w / 65536)) (w / 32768 % 2 == 1) (BitVec.ofNat 13 (w % 8192)))
  | 0x2 => check (.ldW (fld32 (w / 2097152)) (fld32 (w / 65536)) (w / 32768 % 2 == 1) (BitVec.ofNat 13 (w % 8192)))
  | 0x3 => check (.ldD (fld32 (w / 2097152)) (fld32 (w / 65536)) (w / 32768 % 2 == 1) (BitVec.ofNat 13 (w % 8192)))
  | _ => .error .reservedSelector

/-- Major 0x19 (spec/02_formats_encodings.md R52 to R60). -/
def decodeMajor19 (w : Nat) : Except Reject Instr :=
  match w / 8192 % 4 with
  | 0x0 => check (.stB (fld32 (w / 2097152)) (fld32 (w / 65536)) (w / 32768 % 2 == 1) (BitVec.ofNat 13 (w % 8192)))
  | 0x1 => check (.stH (fld32 (w / 2097152)) (fld32 (w / 65536)) (w / 32768 % 2 == 1) (BitVec.ofNat 13 (w % 8192)))
  | 0x2 => check (.stW (fld32 (w / 2097152)) (fld32 (w / 65536)) (w / 32768 % 2 == 1) (BitVec.ofNat 13 (w % 8192)))
  | 0x3 => check (.stD (fld32 (w / 2097152)) (fld32 (w / 65536)) (w / 32768 % 2 == 1) (BitVec.ofNat 13 (w % 8192)))
  | _ => .error .reservedSelector

/-- Major 0x1A (spec/02_formats_encodings.md R52 to R60). -/
def decodeMajor1A (w : Nat) : Except Reject Instr :=
  check (.ldc (fld32 (w / 2097152)) (fld32 (w / 65536)) (w / 32768 % 2 == 1) (BitVec.ofNat 15 (w % 32768)))

/-- Major 0x1B (spec/02_formats_encodings.md R52 to R60). -/
def decodeMajor1B (w : Nat) : Except Reject Instr :=
  match w % 512 with
  | 0x0 => if w / 512 % 2 = 0 ∧ w / 2048 % 32 = 0 then check (.lds (fld32 (w / 2097152)) (fld32 (w / 65536)) (w / 1024 % 2 == 1)) else .error .reservedField
  | 0x1 => if w / 2097152 % 32 = 0 then check (.sts (fld32 (w / 65536)) (fld32 (w / 2048)) (w / 1024 % 2 == 1) (w / 512 % 2 == 1)) else .error .reservedField
  | _ => .error .reservedSelector

/-- Major 0x1C (spec/02_formats_encodings.md R52 to R60). -/
def decodeMajor1C (w : Nat) : Except Reject Instr :=
  match w % 16 + w / 32 % 16 * 16 with
  | 0x0 => check (.amoadd (fld32 (w / 2097152)) (fld32 (w / 65536)) (fld32 (w / 2048)) (w / 1024 % 2 == 1) (w / 512 % 2 == 1) (w / 16 % 2 == 1))
  | 0x1 => check (.amoand (fld32 (w / 2097152)) (fld32 (w / 65536)) (fld32 (w / 2048)) (w / 1024 % 2 == 1) (w / 512 % 2 == 1) (w / 16 % 2 == 1))
  | 0x2 => check (.amoor (fld32 (w / 2097152)) (fld32 (w / 65536)) (fld32 (w / 2048)) (w / 1024 % 2 == 1) (w / 512 % 2 == 1) (w / 16 % 2 == 1))
  | 0x3 => check (.amoxor (fld32 (w / 2097152)) (fld32 (w / 65536)) (fld32 (w / 2048)) (w / 1024 % 2 == 1) (w / 512 % 2 == 1) (w / 16 % 2 == 1))
  | 0x4 => check (.amomin (fld32 (w / 2097152)) (fld32 (w / 65536)) (fld32 (w / 2048)) (w / 1024 % 2 == 1) (w / 512 % 2 == 1) (w / 16 % 2 == 1))
  | 0x5 => check (.amomax (fld32 (w / 2097152)) (fld32 (w / 65536)) (fld32 (w / 2048)) (w / 1024 % 2 == 1) (w / 512 % 2 == 1) (w / 16 % 2 == 1))
  | 0x6 => check (.amominu (fld32 (w / 2097152)) (fld32 (w / 65536)) (fld32 (w / 2048)) (w / 1024 % 2 == 1) (w / 512 % 2 == 1) (w / 16 % 2 == 1))
  | 0x7 => check (.amomaxu (fld32 (w / 2097152)) (fld32 (w / 65536)) (fld32 (w / 2048)) (w / 1024 % 2 == 1) (w / 512 % 2 == 1) (w / 16 % 2 == 1))
  | 0x8 => check (.amoswp (fld32 (w / 2097152)) (fld32 (w / 65536)) (fld32 (w / 2048)) (w / 1024 % 2 == 1) (w / 512 % 2 == 1) (w / 16 % 2 == 1))
  | 0x9 => check (.amocas (fld32 (w / 2097152)) (fld32 (w / 65536)) (fld32 (w / 2048)) (w / 1024 % 2 == 1) (w / 512 % 2 == 1) (w / 16 % 2 == 1))
  | 0xA => if w / 16 % 2 = 0 then check (.amofadd (fld32 (w / 2097152)) (fld32 (w / 65536)) (fld32 (w / 2048)) (w / 1024 % 2 == 1) (w / 512 % 2 == 1)) else .error .reservedField
  | 0xB => if w / 16 % 2 = 0 then check (.amofmin (fld32 (w / 2097152)) (fld32 (w / 65536)) (fld32 (w / 2048)) (w / 1024 % 2 == 1) (w / 512 % 2 == 1)) else .error .reservedField
  | 0xC => if w / 16 % 2 = 0 then check (.amofmax (fld32 (w / 2097152)) (fld32 (w / 65536)) (fld32 (w / 2048)) (w / 1024 % 2 == 1) (w / 512 % 2 == 1)) else .error .reservedField
  | 0x10 => if w / 2097152 % 32 = 0 then check (.amoaddNr (fld32 (w / 65536)) (fld32 (w / 2048)) (w / 1024 % 2 == 1) (w / 512 % 2 == 1) (w / 16 % 2 == 1)) else .error .reservedField
  | 0x11 => if w / 2097152 % 32 = 0 then check (.amoandNr (fld32 (w / 65536)) (fld32 (w / 2048)) (w / 1024 % 2 == 1) (w / 512 % 2 == 1) (w / 16 % 2 == 1)) else .error .reservedField
  | 0x12 => if w / 2097152 % 32 = 0 then check (.amoorNr (fld32 (w / 65536)) (fld32 (w / 2048)) (w / 1024 % 2 == 1) (w / 512 % 2 == 1) (w / 16 % 2 == 1)) else .error .reservedField
  | 0x13 => if w / 2097152 % 32 = 0 then check (.amoxorNr (fld32 (w / 65536)) (fld32 (w / 2048)) (w / 1024 % 2 == 1) (w / 512 % 2 == 1) (w / 16 % 2 == 1)) else .error .reservedField
  | 0x14 => if w / 2097152 % 32 = 0 then check (.amominNr (fld32 (w / 65536)) (fld32 (w / 2048)) (w / 1024 % 2 == 1) (w / 512 % 2 == 1) (w / 16 % 2 == 1)) else .error .reservedField
  | 0x15 => if w / 2097152 % 32 = 0 then check (.amomaxNr (fld32 (w / 65536)) (fld32 (w / 2048)) (w / 1024 % 2 == 1) (w / 512 % 2 == 1) (w / 16 % 2 == 1)) else .error .reservedField
  | 0x16 => if w / 2097152 % 32 = 0 then check (.amominuNr (fld32 (w / 65536)) (fld32 (w / 2048)) (w / 1024 % 2 == 1) (w / 512 % 2 == 1) (w / 16 % 2 == 1)) else .error .reservedField
  | 0x17 => if w / 2097152 % 32 = 0 then check (.amomaxuNr (fld32 (w / 65536)) (fld32 (w / 2048)) (w / 1024 % 2 == 1) (w / 512 % 2 == 1) (w / 16 % 2 == 1)) else .error .reservedField
  | 0x1A => if w / 16 % 2 = 0 ∧ w / 2097152 % 32 = 0 then check (.amofaddNr (fld32 (w / 65536)) (fld32 (w / 2048)) (w / 1024 % 2 == 1) (w / 512 % 2 == 1)) else .error .reservedField
  | 0x1B => if w / 16 % 2 = 0 ∧ w / 2097152 % 32 = 0 then check (.amofminNr (fld32 (w / 65536)) (fld32 (w / 2048)) (w / 1024 % 2 == 1) (w / 512 % 2 == 1)) else .error .reservedField
  | 0x1C => if w / 16 % 2 = 0 ∧ w / 2097152 % 32 = 0 then check (.amofmaxNr (fld32 (w / 65536)) (fld32 (w / 2048)) (w / 1024 % 2 == 1) (w / 512 % 2 == 1)) else .error .reservedField
  | _ => .error .reservedSelector

/-- Major 0x1D (spec/02_formats_encodings.md R52 to R60). -/
def decodeMajor1D (w : Nat) : Except Reject Instr :=
  match w % 512 with
  | 0x0 => if w / 512 % 131072 = 0 then check (.fenceX) else .error .reservedField
  | 0x1 => if w / 512 % 131072 = 0 then check (.fenceH) else .error .reservedField
  | 0x2 => if w / 2097152 % 32 = 0 then check (.gate (fld32 (w / 65536)) (fld32 (w / 2048)) (w / 1024 % 2 == 1) (w / 512 % 2 == 1)) else .error .reservedField
  | 0x3 => if w / 2097152 % 32 = 0 then check (.cinv (fld32 (w / 65536)) (fld32 (w / 2048)) (w / 1024 % 2 == 1) (w / 512 % 2 == 1)) else .error .reservedField
  | _ => .error .reservedSelector

/-- Major 0x20 (spec/02_formats_encodings.md R52 to R60). -/
def decodeMajor20 (w : Nat) : Except Reject Instr :=
  match w % 4 with
  | 0x0 => if w / 4 % 1024 = 0 ∧ w / 8192 % 2 = 0 then check (.tld (fld16 (w / 4194304)) (fld8 (w / 524288)) (BitVec.ofNat 2 (w / 131072 % 4)) (BitVec.ofNat 3 (w / 16384 % 8)) (w / 4096 % 2 == 1)) else .error .reservedField
  | 0x1 => if w / 4 % 1024 = 0 ∧ w / 8192 % 2 = 0 then check (.tldc (fld16 (w / 4194304)) (fld8 (w / 524288)) (BitVec.ofNat 2 (w / 131072 % 4)) (BitVec.ofNat 3 (w / 16384 % 8)) (w / 4096 % 2 == 1)) else .error .reservedField
  | 0x2 => if w / 4 % 2048 = 0 then check (.tst (fld16 (w / 4194304)) (fld8 (w / 524288)) (BitVec.ofNat 2 (w / 131072 % 4)) (BitVec.ofNat 3 (w / 16384 % 8)) (w / 8192 % 2 == 1)) else .error .reservedField
  | _ => .error .reservedSelector

/-- Major 0x21 (spec/02_formats_encodings.md R52 to R60). -/
def decodeMajor21 (w : Nat) : Except Reject Instr :=
  match w % 4 with
  | 0x0 => if w / 4 % 1024 = 0 ∧ w / 8192 % 2 = 0 then check (.tlds (fld16 (w / 4194304)) (fld8 (w / 524288)) (BitVec.ofNat 2 (w / 131072 % 4)) (BitVec.ofNat 3 (w / 16384 % 8)) (w / 4096 % 2 == 1)) else .error .reservedField
  | 0x1 => if w / 4 % 2048 = 0 then check (.tsts (fld16 (w / 4194304)) (fld8 (w / 524288)) (BitVec.ofNat 2 (w / 131072 % 4)) (BitVec.ofNat 3 (w / 16384 % 8)) (w / 8192 % 2 == 1)) else .error .reservedField
  | _ => .error .reservedSelector

/-- Major 0x22 (spec/02_formats_encodings.md R52 to R60). -/
def decodeMajor22 (w : Nat) : Except Reject Instr :=
  match w % 512 with
  | 0x0 => if w / 512 % 2 = 0 ∧ w / 2048 % 32 = 0 ∧ w / 33554432 % 2 = 0 then check (.tshape (fld16 (w / 2097152)) (fld32 (w / 65536)) (w / 1024 % 2 == 1)) else .error .reservedField
  | 0x1 => if w / 512 % 128 = 0 ∧ w / 1048576 % 2 = 0 then check (.tshapeq (fld32 (w / 2097152)) (fld16 (w / 65536))) else .error .reservedField
  | 0x2 => if w / 512 % 4096 = 0 ∧ w / 33554432 % 2 = 0 then check (.tclr (fld16 (w / 2097152))) else .error .reservedField
  | 0x3 => if w / 512 % 2 = 0 ∧ w / 2048 % 32 = 0 ∧ w / 1048576 % 2 = 0 ∧ w / 33554432 % 2 = 0 then check (.tmov (fld16 (w / 2097152)) (fld16 (w / 65536)) (w / 1024 % 2 == 1)) else .error .reservedField
  | 0x4 => if w / 512 % 2 = 0 ∧ w / 2048 % 32 = 0 ∧ w / 1048576 % 2 = 0 ∧ w / 33554432 % 2 = 0 then check (.ttr (fld16 (w / 2097152)) (fld16 (w / 65536)) (w / 1024 % 2 == 1)) else .error .reservedField
  | 0x5 => if w / 1048576 % 2 = 0 ∧ w / 33554432 % 2 = 0 then check (.tbcr (fld16 (w / 2097152)) (fld16 (w / 65536)) (fld32 (w / 2048)) (w / 1024 % 2 == 1) (w / 512 % 2 == 1)) else .error .reservedField
  | 0x6 => if w / 1048576 % 2 = 0 ∧ w / 33554432 % 2 = 0 then check (.tbcc (fld16 (w / 2097152)) (fld16 (w / 65536)) (fld32 (w / 2048)) (w / 1024 % 2 == 1) (w / 512 % 2 == 1)) else .error .reservedField
  | 0x7 => if w / 1048576 % 2 = 0 then check (.textr (fld32 (w / 2097152)) (fld16 (w / 65536)) (fld32 (w / 2048)) (w / 1024 % 2 == 1) (w / 512 % 2 == 1)) else .error .reservedField
  | 0x8 => if w / 33554432 % 2 = 0 then check (.tins (fld16 (w / 2097152)) (fld32 (w / 65536)) (fld32 (w / 2048)) (w / 1024 % 2 == 1) (w / 512 % 2 == 1)) else .error .reservedField
  | 0x9 => if w / 16777216 % 4 = 0 then check (.vset (fld8 (w / 2097152)) (fld32 (w / 65536)) (fld32 (w / 2048)) (w / 1024 % 2 == 1) (w / 512 % 2 == 1)) else .error .reservedField
  | 0xA => if w / 16777216 % 4 = 0 then check (.vadv (fld8 (w / 2097152)) (fld32 (w / 65536)) (fld32 (w / 2048)) (w / 1024 % 2 == 1) (w / 512 % 2 == 1)) else .error .reservedField
  | 0xB => if w / 512 % 4 = 0 ∧ w / 4096 % 16 = 0 ∧ w / 524288 % 4 = 0 then check (.vget (fld32 (w / 2097152)) (fld8 (w / 65536)) (BitVec.ofNat 1 (w / 2048 % 2))) else .error .reservedField
  | _ => .error .reservedSelector

/-- Major 0x24 (spec/02_formats_encodings.md R52 to R60). -/
def decodeMajor24 (w : Nat) : Except Reject Instr :=
  match w % 128 with
  | 0x0 => check (.tadd (fld16 (w / 4194304)) (fld16 (w / 262144)) (fld16 (w / 16384)) (w / 8192 % 2 == 1) (w / 4096 % 2 == 1) (w / 2048 % 2 == 1) (BitVec.ofNat 4 (w / 128 % 16)))
  | 0x1 => check (.tsub (fld16 (w / 4194304)) (fld16 (w / 262144)) (fld16 (w / 16384)) (w / 8192 % 2 == 1) (w / 4096 % 2 == 1) (w / 2048 % 2 == 1) (BitVec.ofNat 4 (w / 128 % 16)))
  | 0x2 => check (.tmul (fld16 (w / 4194304)) (fld16 (w / 262144)) (fld16 (w / 16384)) (w / 8192 % 2 == 1) (w / 4096 % 2 == 1) (w / 2048 % 2 == 1) (BitVec.ofNat 4 (w / 128 % 16)))
  | 0x3 => if w / 2048 % 2 = 0 then check (.tfma (fld16 (w / 4194304)) (fld16 (w / 262144)) (fld16 (w / 16384)) (w / 8192 % 2 == 1) (w / 4096 % 2 == 1) (BitVec.ofNat 4 (w / 128 % 16))) else .error .reservedField
  | 0x4 => if w / 2048 % 2 = 0 then check (.tmin (fld16 (w / 4194304)) (fld16 (w / 262144)) (fld16 (w / 16384)) (w / 8192 % 2 == 1) (w / 4096 % 2 == 1) (BitVec.ofNat 4 (w / 128 % 16))) else .error .reservedField
  | 0x5 => if w / 2048 % 2 = 0 then check (.tmax (fld16 (w / 4194304)) (fld16 (w / 262144)) (fld16 (w / 16384)) (w / 8192 % 2 == 1) (w / 4096 % 2 == 1) (BitVec.ofNat 4 (w / 128 % 16))) else .error .reservedField
  | 0x6 => if w / 4096 % 2 = 0 ∧ w / 16384 % 16 = 0 then check (.tabs (fld16 (w / 4194304)) (fld16 (w / 262144)) (w / 8192 % 2 == 1) (w / 2048 % 2 == 1) (BitVec.ofNat 4 (w / 128 % 16))) else .error .reservedField
  | 0x7 => if w / 4096 % 2 = 0 ∧ w / 16384 % 16 = 0 then check (.tneg (fld16 (w / 4194304)) (fld16 (w / 262144)) (w / 8192 % 2 == 1) (w / 2048 % 2 == 1) (BitVec.ofNat 4 (w / 128 % 16))) else .error .reservedField
  | 0x8 => if w / 2048 % 2 = 0 then check (.tand (fld16 (w / 4194304)) (fld16 (w / 262144)) (fld16 (w / 16384)) (w / 8192 % 2 == 1) (w / 4096 % 2 == 1) (BitVec.ofNat 4 (w / 128 % 16))) else .error .reservedField
  | 0x9 => if w / 2048 % 2 = 0 then check (.tor (fld16 (w / 4194304)) (fld16 (w / 262144)) (fld16 (w / 16384)) (w / 8192 % 2 == 1) (w / 4096 % 2 == 1) (BitVec.ofNat 4 (w / 128 % 16))) else .error .reservedField
  | 0xA => if w / 2048 % 2 = 0 then check (.txor (fld16 (w / 4194304)) (fld16 (w / 262144)) (fld16 (w / 16384)) (w / 8192 % 2 == 1) (w / 4096 % 2 == 1) (BitVec.ofNat 4 (w / 128 % 16))) else .error .reservedField
  | 0xB => check (.tshl (fld16 (w / 4194304)) (fld16 (w / 262144)) (fld16 (w / 16384)) (w / 8192 % 2 == 1) (w / 4096 % 2 == 1) (w / 2048 % 2 == 1) (BitVec.ofNat 4 (w / 128 % 16)))
  | 0xC => if w / 2048 % 2 = 0 then check (.tshr (fld16 (w / 4194304)) (fld16 (w / 262144)) (fld16 (w / 16384)) (w / 8192 % 2 == 1) (w / 4096 % 2 == 1) (BitVec.ofNat 4 (w / 128 % 16))) else .error .reservedField
  | 0xD => if w / 2048 % 2 = 0 then check (.tsra (fld16 (w / 4194304)) (fld16 (w / 262144)) (fld16 (w / 16384)) (w / 8192 % 2 == 1) (w / 4096 % 2 == 1) (BitVec.ofNat 4 (w / 128 % 16))) else .error .reservedField
  | 0xE => if w / 2048 % 2 = 0 then check (.tscale (fld16 (w / 4194304)) (fld16 (w / 262144)) (fld16 (w / 16384)) (w / 8192 % 2 == 1) (w / 4096 % 2 == 1) (BitVec.ofNat 4 (w / 128 % 16))) else .error .reservedField
  | 0xF => if w / 2048 % 2 = 0 then check (.tsel (fld16 (w / 4194304)) (fld16 (w / 262144)) (fld16 (w / 16384)) (w / 8192 % 2 == 1) (w / 4096 % 2 == 1) (BitVec.ofNat 4 (w / 128 % 16))) else .error .reservedField
  | 0x10 => if w / 2048 % 2 = 0 then check (.tcmpEq (fld16 (w / 4194304)) (fld16 (w / 262144)) (fld16 (w / 16384)) (w / 8192 % 2 == 1) (w / 4096 % 2 == 1) (BitVec.ofNat 4 (w / 128 % 16))) else .error .reservedField
  | 0x11 => if w / 2048 % 2 = 0 then check (.tcmpNe (fld16 (w / 4194304)) (fld16 (w / 262144)) (fld16 (w / 16384)) (w / 8192 % 2 == 1) (w / 4096 % 2 == 1) (BitVec.ofNat 4 (w / 128 % 16))) else .error .reservedField
  | 0x12 => if w / 2048 % 2 = 0 then check (.tcmpLt (fld16 (w / 4194304)) (fld16 (w / 262144)) (fld16 (w / 16384)) (w / 8192 % 2 == 1) (w / 4096 % 2 == 1) (BitVec.ofNat 4 (w / 128 % 16))) else .error .reservedField
  | 0x13 => if w / 2048 % 2 = 0 then check (.tcmpLe (fld16 (w / 4194304)) (fld16 (w / 262144)) (fld16 (w / 16384)) (w / 8192 % 2 == 1) (w / 4096 % 2 == 1) (BitVec.ofNat 4 (w / 128 % 16))) else .error .reservedField
  | 0x18 => if w / 2048 % 4 = 0 ∧ w / 16384 % 16 = 0 then check (.texp (fld16 (w / 4194304)) (fld16 (w / 262144)) (w / 8192 % 2 == 1) (BitVec.ofNat 4 (w / 128 % 16))) else .error .reservedField
  | 0x19 => if w / 2048 % 4 = 0 ∧ w / 16384 % 16 = 0 then check (.tlog (fld16 (w / 4194304)) (fld16 (w / 262144)) (w / 8192 % 2 == 1) (BitVec.ofNat 4 (w / 128 % 16))) else .error .reservedField
  | 0x1A => if w / 2048 % 4 = 0 ∧ w / 16384 % 16 = 0 then check (.trcp (fld16 (w / 4194304)) (fld16 (w / 262144)) (w / 8192 % 2 == 1) (BitVec.ofNat 4 (w / 128 % 16))) else .error .reservedField
  | 0x1B => if w / 2048 % 4 = 0 ∧ w / 16384 % 16 = 0 then check (.trsq (fld16 (w / 4194304)) (fld16 (w / 262144)) (w / 8192 % 2 == 1) (BitVec.ofNat 4 (w / 128 % 16))) else .error .reservedField
  | 0x20 => if w / 2048 % 4 = 0 ∧ w / 16384 % 16 = 0 then check (.tredrAdd (fld16 (w / 4194304)) (fld16 (w / 262144)) (w / 8192 % 2 == 1) (BitVec.ofNat 4 (w / 128 % 16))) else .error .reservedField
  | 0x21 => if w / 2048 % 4 = 0 ∧ w / 16384 % 16 = 0 then check (.tredrMax (fld16 (w / 4194304)) (fld16 (w / 262144)) (w / 8192 % 2 == 1) (BitVec.ofNat 4 (w / 128 % 16))) else .error .reservedField
  | 0x22 => if w / 2048 % 4 = 0 ∧ w / 16384 % 16 = 0 then check (.tredrMin (fld16 (w / 4194304)) (fld16 (w / 262144)) (w / 8192 % 2 == 1) (BitVec.ofNat 4 (w / 128 % 16))) else .error .reservedField
  | 0x24 => if w / 2048 % 4 = 0 ∧ w / 16384 % 16 = 0 then check (.tredcAdd (fld16 (w / 4194304)) (fld16 (w / 262144)) (w / 8192 % 2 == 1) (BitVec.ofNat 4 (w / 128 % 16))) else .error .reservedField
  | 0x25 => if w / 2048 % 4 = 0 ∧ w / 16384 % 16 = 0 then check (.tredcMax (fld16 (w / 4194304)) (fld16 (w / 262144)) (w / 8192 % 2 == 1) (BitVec.ofNat 4 (w / 128 % 16))) else .error .reservedField
  | 0x26 => if w / 2048 % 4 = 0 ∧ w / 16384 % 16 = 0 then check (.tredcMin (fld16 (w / 4194304)) (fld16 (w / 262144)) (w / 8192 % 2 == 1) (BitVec.ofNat 4 (w / 128 % 16))) else .error .reservedField
  | 0x28 => if w / 2048 % 2 = 0 then check (.tdotr (fld16 (w / 4194304)) (fld16 (w / 262144)) (fld16 (w / 16384)) (w / 8192 % 2 == 1) (w / 4096 % 2 == 1) (BitVec.ofNat 4 (w / 128 % 16))) else .error .reservedField
  | _ => .error .reservedSelector

/-- Major 0x25 (spec/02_formats_encodings.md R52 to R60). -/
def decodeMajor25 (w : Nat) : Except Reject Instr :=
  if w % 16 = 0 ∧ w / 2048 % 4 = 0 ∧ w / 16384 % 16 = 0 then check (.tcvt (fld16 (w / 4194304)) (fld16 (w / 262144)) (w / 8192 % 2 == 1) (BitVec.ofNat 4 (w / 128 % 16)) (BitVec.ofNat 3 (w / 16 % 8))) else .error .reservedField

/-- Major 0x26 (spec/02_formats_encodings.md R52 to R60). -/
def decodeMajor26 (w : Nat) : Except Reject Instr :=
  match w % 128 with
  | 0x0 => if w / 2048 % 2 = 0 then check (.tqnt (fld16 (w / 4194304)) (fld16 (w / 262144)) (fld16 (w / 16384)) (w / 8192 % 2 == 1) (w / 4096 % 2 == 1) (BitVec.ofNat 3 (w / 256 % 8)) (w / 128 % 2 == 1)) else .error .reservedField
  | 0x1 => if w / 2048 % 2 = 0 then check (.tdq (fld16 (w / 4194304)) (fld16 (w / 262144)) (fld16 (w / 16384)) (w / 8192 % 2 == 1) (w / 4096 % 2 == 1) (BitVec.ofNat 3 (w / 256 % 8)) (w / 128 % 2 == 1)) else .error .reservedField
  | _ => .error .reservedSelector

/-- Major 0x27 (spec/02_formats_encodings.md R52 to R60). -/
def decodeMajor27 (w : Nat) : Except Reject Instr :=
  match w % 256 with
  | 0x0 => if w / 2048 % 4 = 0 ∧ w / 16384 % 16 = 0 then check (.tredx (fld16 (w / 4194304)) (fld16 (w / 262144)) (w / 8192 % 2 == 1) (BitVec.ofNat 3 (w / 256 % 8))) else .error .reservedField
  | _ => .error .reservedSelector

/-- Major 0x30 (spec/02_formats_encodings.md R52 to R60). -/
def decodeMajor30 (w : Nat) : Except Reject Instr :=
  match w % 2048 with
  | 0x0 => if w / 4194304 % 8 = 0 then check (.mma (w / 33554432 % 2 == 1) (BitVec.ofNat 4 (w / 262144 % 16)) (BitVec.ofNat 4 (w / 16384 % 16)) (BitVec.ofNat 3 (w / 2048 % 8))) else .error .reservedField
  | 0x200 => if w / 4194304 % 8 = 0 then check (.mmal (w / 33554432 % 2 == 1) (BitVec.ofNat 4 (w / 262144 % 16)) (BitVec.ofNat 4 (w / 16384 % 16)) (BitVec.ofNat 3 (w / 2048 % 8))) else .error .reservedField
  | 0x400 => if w / 4194304 % 8 = 0 then check (.mmah16 (w / 33554432 % 2 == 1) (BitVec.ofNat 4 (w / 262144 % 16)) (BitVec.ofNat 4 (w / 16384 % 16)) (BitVec.ofNat 3 (w / 2048 % 8))) else .error .reservedField
  | 0x401 => if w / 4194304 % 8 = 0 then check (.mmah32 (w / 33554432 % 2 == 1) (BitVec.ofNat 4 (w / 262144 % 16)) (BitVec.ofNat 4 (w / 16384 % 16)) (BitVec.ofNat 3 (w / 2048 % 8))) else .error .reservedField
  | 0x402 => if w / 4194304 % 8 = 0 then check (.mmah64 (w / 33554432 % 2 == 1) (BitVec.ofNat 4 (w / 262144 % 16)) (BitVec.ofNat 4 (w / 16384 % 16)) (BitVec.ofNat 3 (w / 2048 % 8))) else .error .reservedField
  | 0x100 => if w / 4194304 % 8 = 0 then check (.mmae (w / 33554432 % 2 == 1) (BitVec.ofNat 4 (w / 262144 % 16)) (BitVec.ofNat 4 (w / 16384 % 16)) (BitVec.ofNat 3 (w / 2048 % 8))) else .error .reservedField
  | 0x300 => if w / 4194304 % 8 = 0 then check (.mmaeL (w / 33554432 % 2 == 1) (BitVec.ofNat 4 (w / 262144 % 16)) (BitVec.ofNat 4 (w / 16384 % 16)) (BitVec.ofNat 3 (w / 2048 % 8))) else .error .reservedField
  | 0x500 => if w / 4194304 % 8 = 0 then check (.mmaeH16 (w / 33554432 % 2 == 1) (BitVec.ofNat 4 (w / 262144 % 16)) (BitVec.ofNat 4 (w / 16384 % 16)) (BitVec.ofNat 3 (w / 2048 % 8))) else .error .reservedField
  | 0x501 => if w / 4194304 % 8 = 0 then check (.mmaeH32 (w / 33554432 % 2 == 1) (BitVec.ofNat 4 (w / 262144 % 16)) (BitVec.ofNat 4 (w / 16384 % 16)) (BitVec.ofNat 3 (w / 2048 % 8))) else .error .reservedField
  | 0x502 => if w / 4194304 % 8 = 0 then check (.mmaeH64 (w / 33554432 % 2 == 1) (BitVec.ofNat 4 (w / 262144 % 16)) (BitVec.ofNat 4 (w / 16384 % 16)) (BitVec.ofNat 3 (w / 2048 % 8))) else .error .reservedField
  | 0x10 => if w / 262144 % 256 = 0 then check (.mldw (BitVec.ofNat 4 (w / 16384 % 16)) (BitVec.ofNat 3 (w / 2048 % 8))) else .error .reservedField
  | _ => .error .reservedSelector

/-- Major 0x31 (spec/02_formats_encodings.md R52 to R60). -/
def decodeMajor31 (w : Nat) : Except Reject Instr :=
  match w % 512 with
  | 0x0 => if w / 512 % 2 = 0 ∧ w / 2048 % 32 = 0 ∧ w / 2097152 % 32 = 0 then check (.mlease (fld32 (w / 65536)) (w / 1024 % 2 == 1)) else .error .reservedField
  | 0x1 => if w / 512 % 131072 = 0 then check (.mrel) else .error .reservedField
  | 0x2 => if w / 2097152 % 32 = 0 then check (.mrdef (fld32 (w / 65536)) (fld32 (w / 2048)) (w / 1024 % 2 == 1) (w / 512 % 2 == 1)) else .error .reservedField
  | 0x3 => if w / 512 % 2 = 0 ∧ w / 2048 % 32 = 0 then check (.mrq (fld32 (w / 2097152)) (fld32 (w / 65536)) (w / 1024 % 2 == 1)) else .error .reservedField
  | 0x4 => if w / 512 % 4096 = 0 then check (.mchk (fld32 (w / 2097152))) else .error .reservedField
  | 0x5 => if w / 512 % 131072 = 0 then check (.mdrain) else .error .reservedField
  | _ => .error .reservedSelector

/-- Major 0x32 (spec/02_formats_encodings.md R52 to R60). -/
def decodeMajor32 (w : Nat) : Except Reject Instr :=
  match w % 512 with
  | 0x0 => check (.cpyMs (fld32 (w / 2097152)) (fld32 (w / 65536)) (fld32 (w / 2048)) (w / 1024 % 2 == 1) (w / 512 % 2 == 1))
  | 0x1 => check (.cpySm (fld32 (w / 2097152)) (fld32 (w / 65536)) (fld32 (w / 2048)) (w / 1024 % 2 == 1) (w / 512 % 2 == 1))
  | 0x2 => check (.cpyMr (fld32 (w / 2097152)) (fld32 (w / 65536)) (fld32 (w / 2048)) (w / 1024 % 2 == 1) (w / 512 % 2 == 1))
  | 0x3 => check (.cpyUr (fld32 (w / 2097152)) (fld32 (w / 65536)) (fld32 (w / 2048)) (w / 1024 % 2 == 1) (w / 512 % 2 == 1))
  | 0x4 => check (.cpyEs (fld32 (w / 2097152)) (fld32 (w / 65536)) (fld32 (w / 2048)) (w / 1024 % 2 == 1) (w / 512 % 2 == 1))
  | 0x5 => check (.cpySe (fld32 (w / 2097152)) (fld32 (w / 65536)) (fld32 (w / 2048)) (w / 1024 % 2 == 1) (w / 512 % 2 == 1))
  | 0x10 => if w / 512 % 2 = 0 ∧ w / 2048 % 32 = 0 then check (.cpywp (fld32 (w / 2097152)) (fld32 (w / 65536)) (w / 1024 % 2 == 1)) else .error .reservedField
  | 0x20 => if w / 2097152 % 32 = 0 then check (.cwait (fld32 (w / 65536)) (fld32 (w / 2048)) (w / 1024 % 2 == 1) (w / 512 % 2 == 1)) else .error .reservedField
  | 0x30 => if w / 512 % 2 = 0 ∧ w / 2048 % 32 = 0 then check (.own (fld32 (w / 2097152)) (fld32 (w / 65536)) (w / 1024 % 2 == 1)) else .error .reservedField
  | _ => .error .reservedSelector

/-- Major 0x33 (spec/02_formats_encodings.md R52 to R60). -/
def decodeMajor33 (w : Nat) : Except Reject Instr :=
  if w % 8 = 0 ∧ w / 1048576 % 16 = 0 ∧ w / 33554432 % 2 = 0 then check (.mepi (w / 16777216 % 2 == 1) (fld16 (w / 65536)) (BitVec.ofNat 7 (w / 512 % 128)) (BitVec.ofNat 6 (w / 8 % 64))) else .error .reservedField

/-- Major 0x38 (spec/02_formats_encodings.md R52 to R60). -/
def decodeMajor38 (w : Nat) : Except Reject Instr :=
  if w / 65536 % 1024 = 0 then check (.trap (BitVec.ofNat 16 (w % 65536))) else .error .reservedField

/-- Major 0x39 (spec/02_formats_encodings.md R52 to R60). -/
def decodeMajor39 (w : Nat) : Except Reject Instr :=
  if w / 65536 % 32 = 0 then check (.sysrd (fld32 (w / 2097152)) (BitVec.ofNat 16 (w % 65536))) else .error .reservedField

/-- Major 0x3A (spec/02_formats_encodings.md R52 to R60). -/
def decodeMajor3A (w : Nat) : Except Reject Instr :=
  if w / 2097152 % 32 = 0 then check (.syswr (fld32 (w / 65536)) (BitVec.ofNat 16 (w % 65536))) else .error .reservedField

/-- Major 0x3B (spec/02_formats_encodings.md R52 to R60). -/
def decodeMajor3B (w : Nat) : Except Reject Instr :=
  match w % 65536 with
  | 0x0 => check (.sealq (fld32 (w / 2097152)) (fld32 (w / 65536)))
  | 0x1 => if w / 2097152 % 32 = 0 then check (.frep (fld32 (w / 65536))) else .error .reservedField
  | 0x2 => check (.diagrd (fld32 (w / 2097152)) (fld32 (w / 65536)))
  | 0x3 => check (.diagwr (fld32 (w / 2097152)) (fld32 (w / 65536)))
  | 0x4 => check (.repair (fld32 (w / 2097152)) (fld32 (w / 65536)))
  | 0x5 => if w / 65536 % 32 = 0 then check (.mstat (fld32 (w / 2097152))) else .error .reservedField
  | 0x6 => if w / 65536 % 1024 = 0 then check (.halt) else .error .reservedField
  | 0x7 => if w / 65536 % 1024 = 0 then check (.wfe) else .error .reservedField
  | _ => .error .reservedSelector

/-- Major 0x3C (spec/02_formats_encodings.md R52 to R60). -/
def decodeMajor3C (w : Nat) : Except Reject Instr :=
  match w % 65536 with
  | 0x0 => check (.mmurd (fld32 (w / 2097152)) (fld32 (w / 65536)))
  | 0x1 => check (.mmuwr (fld32 (w / 2097152)) (fld32 (w / 65536)))
  | 0x2 => if w / 2097152 % 32 = 0 then check (.mmuinv (fld32 (w / 65536))) else .error .reservedField
  | 0x10 => check (.kwrap (fld32 (w / 2097152)) (fld32 (w / 65536)))
  | 0x11 => check (.kunwrap (fld32 (w / 2097152)) (fld32 (w / 65536)))
  | 0x12 => if w / 2097152 % 32 = 0 then check (.kscrub (fld32 (w / 65536))) else .error .reservedField
  | _ => .error .reservedSelector

/-- Major 0x3D (spec/02_formats_encodings.md R52 to R60). -/
def decodeMajor3D (w : Nat) : Except Reject Instr :=
  match w % 65536 with
  | 0x0 => if w / 2097152 % 32 = 0 then check (.hashi (fld32 (w / 65536))) else .error .reservedField
  | 0x1 => check (.hashu (fld32 (w / 2097152)) (fld32 (w / 65536)))
  | 0x2 => check (.hashf (fld32 (w / 2097152)) (fld32 (w / 65536)))
  | 0x10 => check (.ecsign (fld32 (w / 2097152)) (fld32 (w / 65536)))
  | 0x11 => check (.ecvrfy (fld32 (w / 2097152)) (fld32 (w / 65536)))
  | 0x20 => check (.aesenc (fld32 (w / 2097152)) (fld32 (w / 65536)))
  | 0x21 => check (.aesdec (fld32 (w / 2097152)) (fld32 (w / 65536)))
  | 0x30 => if w / 65536 % 32 = 0 then check (.rng (fld32 (w / 2097152))) else .error .reservedField
  | _ => .error .reservedSelector

/-- Major 0x3E (spec/02_formats_encodings.md R52 to R60). -/
def decodeMajor3E (w : Nat) : Except Reject Instr :=
  if w % 4 = 0 then check (.repf (BitVec.ofNat 4 (w / 4194304 % 16)) (BitVec.ofNat 8 (w / 16384 % 256)) (BitVec.ofNat 4 (w / 1024 % 16)) (BitVec.ofNat 4 (w / 64 % 16)) (BitVec.ofNat 4 (w / 4 % 16))) else .error .reservedField

/-- The instruction of a 32-bit word, or why it is none (R50, R52). -/
def decodeWord (w : Nat) : Except Reject Instr :=
  match w / 67108864 % 64 with
  | 0x01 => decodeMajor01 w
  | 0x02 => decodeMajor02 w
  | 0x03 => decodeMajor03 w
  | 0x04 => decodeMajor04 w
  | 0x05 => decodeMajor05 w
  | 0x06 => decodeMajor06 w
  | 0x07 => decodeMajor07 w
  | 0x08 => decodeMajor08 w
  | 0x09 => decodeMajor09 w
  | 0x0A => decodeMajor0A w
  | 0x0B => decodeMajor0B w
  | 0x0C => decodeMajor0C w
  | 0x0D => decodeMajor0D w
  | 0x0E => decodeMajor0E w
  | 0x10 => decodeMajor10 w
  | 0x11 => decodeMajor11 w
  | 0x12 => decodeMajor12 w
  | 0x13 => decodeMajor13 w
  | 0x14 => decodeMajor14 w
  | 0x15 => decodeMajor15 w
  | 0x16 => decodeMajor16 w
  | 0x17 => decodeMajor17 w
  | 0x18 => decodeMajor18 w
  | 0x19 => decodeMajor19 w
  | 0x1A => decodeMajor1A w
  | 0x1B => decodeMajor1B w
  | 0x1C => decodeMajor1C w
  | 0x1D => decodeMajor1D w
  | 0x20 => decodeMajor20 w
  | 0x21 => decodeMajor21 w
  | 0x22 => decodeMajor22 w
  | 0x24 => decodeMajor24 w
  | 0x25 => decodeMajor25 w
  | 0x26 => decodeMajor26 w
  | 0x27 => decodeMajor27 w
  | 0x30 => decodeMajor30 w
  | 0x31 => decodeMajor31 w
  | 0x32 => decodeMajor32 w
  | 0x33 => decodeMajor33 w
  | 0x38 => decodeMajor38 w
  | 0x39 => decodeMajor39 w
  | 0x3A => decodeMajor3A w
  | 0x3B => decodeMajor3B w
  | 0x3C => decodeMajor3C w
  | 0x3D => decodeMajor3D w
  | 0x3E => decodeMajor3E w
  | _ => .error .reservedMajor

/-- The word that the first four of a list of bytes form, least significant byte first (R4). -/
def wordOfBytes : List Byte → Option Nat
  | b0 :: b1 :: b2 :: b3 :: _ => some (b0.toNat + 256 * b1.toNat + 65536 * b2.toNat + 16777216 * b3.toNat)
  | _ => none

/-- The four bytes of an instruction word in memory (R4). -/
def bytesOfWord (w : Nat) : List Byte :=
  [BitVec.ofNat 8 w, BitVec.ofNat 8 (w / 256), BitVec.ofNat 8 (w / 65536), BitVec.ofNat 8 (w / 16777216)]

/-- Decoding any bytes: the instruction and the bytes after its word, or why there is none. -/
def decode (bytes : List Byte) : Except Reject (Instr × List Byte) :=
  match wordOfBytes bytes with
  | none => .error .reservedMajor
  | some w => match decodeWord w with
    | .ok i => .ok (i, bytes.drop 4)
    | .error r => .error r

/-- The word of a well-formed instruction (R47 to R60); an event has none. -/
def encode : Instr → Option Nat
  | .add d a b w v => some (67108864 + d.val * 2097152 + a.val * 65536 + b.val * 2048 + w.toNat * 1024 + v.toNat * 512)
  | .sub d a b w v => some (67108865 + d.val * 2097152 + a.val * 65536 + b.val * 2048 + w.toNat * 1024 + v.toNat * 512)
  | .and d a b w v => some (67108866 + d.val * 2097152 + a.val * 65536 + b.val * 2048 + w.toNat * 1024 + v.toNat * 512)
  | .or d a b w v => some (67108867 + d.val * 2097152 + a.val * 65536 + b.val * 2048 + w.toNat * 1024 + v.toNat * 512)
  | .xor d a b w v => some (67108868 + d.val * 2097152 + a.val * 65536 + b.val * 2048 + w.toNat * 1024 + v.toNat * 512)
  | .shl d a b w v => some (67108869 + d.val * 2097152 + a.val * 65536 + b.val * 2048 + w.toNat * 1024 + v.toNat * 512)
  | .shr d a b w v => some (67108870 + d.val * 2097152 + a.val * 65536 + b.val * 2048 + w.toNat * 1024 + v.toNat * 512)
  | .sra d a b w v => some (67108871 + d.val * 2097152 + a.val * 65536 + b.val * 2048 + w.toNat * 1024 + v.toNat * 512)
  | .rol d a b w v => some (67108872 + d.val * 2097152 + a.val * 65536 + b.val * 2048 + w.toNat * 1024 + v.toNat * 512)
  | .min d a b w v => some (67108873 + d.val * 2097152 + a.val * 65536 + b.val * 2048 + w.toNat * 1024 + v.toNat * 512)
  | .max d a b w v => some (67108874 + d.val * 2097152 + a.val * 65536 + b.val * 2048 + w.toNat * 1024 + v.toNat * 512)
  | .minu d a b w v => some (67108875 + d.val * 2097152 + a.val * 65536 + b.val * 2048 + w.toNat * 1024 + v.toNat * 512)
  | .maxu d a b w v => some (67108876 + d.val * 2097152 + a.val * 65536 + b.val * 2048 + w.toNat * 1024 + v.toNat * 512)
  | .slt d a b w v => some (67108877 + d.val * 2097152 + a.val * 65536 + b.val * 2048 + w.toNat * 1024 + v.toNat * 512)
  | .sltu d a b w v => some (67108878 + d.val * 2097152 + a.val * 65536 + b.val * 2048 + w.toNat * 1024 + v.toNat * 512)
  | .seq d a b w v => some (67108879 + d.val * 2097152 + a.val * 65536 + b.val * 2048 + w.toNat * 1024 + v.toNat * 512)
  | .sel d a b w v => some (67108880 + d.val * 2097152 + a.val * 65536 + b.val * 2048 + w.toNat * 1024 + v.toNat * 512)
  | .mul d a b w v => some (134217728 + d.val * 2097152 + a.val * 65536 + b.val * 2048 + w.toNat * 1024 + v.toNat * 512)
  | .mulh d a b w v => some (134217729 + d.val * 2097152 + a.val * 65536 + b.val * 2048 + w.toNat * 1024 + v.toNat * 512)
  | .mulhu d a b w v => some (134217730 + d.val * 2097152 + a.val * 65536 + b.val * 2048 + w.toNat * 1024 + v.toNat * 512)
  | .div d a b w v => some (134217731 + d.val * 2097152 + a.val * 65536 + b.val * 2048 + w.toNat * 1024 + v.toNat * 512)
  | .divu d a b w v => some (134217732 + d.val * 2097152 + a.val * 65536 + b.val * 2048 + w.toNat * 1024 + v.toNat * 512)
  | .rem d a b w v => some (134217733 + d.val * 2097152 + a.val * 65536 + b.val * 2048 + w.toNat * 1024 + v.toNat * 512)
  | .remu d a b w v => some (134217734 + d.val * 2097152 + a.val * 65536 + b.val * 2048 + w.toNat * 1024 + v.toNat * 512)
  | .mov d a w => some (201326592 + d.val * 2097152 + a.val * 65536 + w.toNat * 1024)
  | .clz d a w => some (201326593 + d.val * 2097152 + a.val * 65536 + w.toNat * 1024)
  | .ctz d a w => some (201326594 + d.val * 2097152 + a.val * 65536 + w.toNat * 1024)
  | .popc d a w => some (201326595 + d.val * 2097152 + a.val * 65536 + w.toNat * 1024)
  | .bswap d a w => some (201326596 + d.val * 2097152 + a.val * 65536 + w.toNat * 1024)
  | .hmk d a b w v => some (268435456 + d.val * 2097152 + a.val * 65536 + b.val * 2048 + w.toNat * 1024 + v.toNat * 512)
  | .hoff d a w => some (268435457 + d.val * 2097152 + a.val * 65536 + w.toNat * 1024)
  | .hlen d a w => some (268435458 + d.val * 2097152 + a.val * 65536 + w.toNat * 1024)
  | .hrgt d a w => some (268435459 + d.val * 2097152 + a.val * 65536 + w.toNat * 1024)
  | .time d => some (268435460 + d.val * 2097152)
  | .addi d a w i => some (335544320 + d.val * 2097152 + a.val * 65536 + w.toNat * 32768 + i.toNat)
  | .andi d a w i => some (402653184 + d.val * 2097152 + a.val * 65536 + w.toNat * 32768 + i.toNat)
  | .ori d a w i => some (469762048 + d.val * 2097152 + a.val * 65536 + w.toNat * 32768 + i.toNat)
  | .xori d a w i => some (536870912 + d.val * 2097152 + a.val * 65536 + w.toNat * 32768 + i.toNat)
  | .shli d a w c => some (603979776 + d.val * 2097152 + a.val * 65536 + w.toNat * 32768 + c.toNat)
  | .shri d a w c => some (671088640 + d.val * 2097152 + a.val * 65536 + w.toNat * 32768 + c.toNat)
  | .srai d a w c => some (738197504 + d.val * 2097152 + a.val * 65536 + w.toNat * 32768 + c.toNat)
  | .ext d a w l p => some (805306368 + d.val * 2097152 + a.val * 65536 + w.toNat * 32768 + l.toNat * 64 + p.toNat)
  | .ins d a w l p => some (872415232 + d.val * 2097152 + a.val * 65536 + w.toNat * 32768 + l.toNat * 64 + p.toNat)
  | .movi d i => some (939524096 + d.val * 2097152 + i.toNat)
  | .brEq a b j => some (1073741824 + a.val * 2097152 + b.val * 65536 + j.toNat)
  | .brNe a b j => some (1073750016 + a.val * 2097152 + b.val * 65536 + j.toNat)
  | .brLt a b j => some (1073758208 + a.val * 2097152 + b.val * 65536 + j.toNat)
  | .brGe a b j => some (1073766400 + a.val * 2097152 + b.val * 65536 + j.toNat)
  | .brLtu a b j => some (1073774592 + a.val * 2097152 + b.val * 65536 + j.toNat)
  | .brGeu a b j => some (1073782784 + a.val * 2097152 + b.val * 65536 + j.toNat)
  | .j j => some (1140850688 + j.toNat)
  | .jl j => some (1207959552 + j.toNat)
  | .jr a w => some (1275068416 + a.val * 65536 + w.toNat * 1024)
  | .send a b w v => some (1342177280 + a.val * 65536 + b.val * 2048 + w.toNat * 1024 + v.toNat * 512)
  | .sendt t a b w v => some (1342177281 + t.val * 2097152 + a.val * 65536 + b.val * 2048 + w.toNat * 1024 + v.toNat * 512)
  | .sendx a b w v => some (1342177282 + a.val * 65536 + b.val * 2048 + w.toNat * 1024 + v.toNat * 512)
  | .recv d n => some (1342177283 + d.val * 2097152 + n.toNat * 2048)
  | .trecv t n => some (1342177284 + t.val * 2097152 + n.toNat * 2048)
  | .jnew d a b w v => some (1342177285 + d.val * 2097152 + a.val * 65536 + b.val * 2048 + w.toNat * 1024 + v.toNat * 512)
  | .arrive a w => some (1342177286 + a.val * 65536 + w.toNat * 1024)
  | .wqry a b w v => some (1342177287 + a.val * 65536 + b.val * 2048 + w.toNat * 1024 + v.toNat * 512)
  | .wait a b w v => some (1342177288 + a.val * 65536 + b.val * 2048 + w.toNat * 1024 + v.toNat * 512)
  | .migr => some (1342177289)
  | .mret => some (1342177290)
  | .spawn d a b w v => some (1342177291 + d.val * 2097152 + a.val * 65536 + b.val * 2048 + w.toNat * 1024 + v.toNat * 512)
  | .safe m => some (1409286144 + m.toNat)
  | .done => some (1476395008)
  | .cont a b w v => some (1476395009 + a.val * 65536 + b.val * 2048 + w.toNat * 1024 + v.toNat * 512)
  | .nop => some (1476395010)
  | .limm i => some (1543503872 + i.toNat)
  | .ldB d a w o => some (1610612736 + d.val * 2097152 + a.val * 65536 + w.toNat * 32768 + o.toNat)
  | .ldH d a w o => some (1610620928 + d.val * 2097152 + a.val * 65536 + w.toNat * 32768 + o.toNat)
  | .ldW d a w o => some (1610629120 + d.val * 2097152 + a.val * 65536 + w.toNat * 32768 + o.toNat)
  | .ldD d a w o => some (1610637312 + d.val * 2097152 + a.val * 65536 + w.toNat * 32768 + o.toNat)
  | .stB d a w o => some (1677721600 + d.val * 2097152 + a.val * 65536 + w.toNat * 32768 + o.toNat)
  | .stH d a w o => some (1677729792 + d.val * 2097152 + a.val * 65536 + w.toNat * 32768 + o.toNat)
  | .stW d a w o => some (1677737984 + d.val * 2097152 + a.val * 65536 + w.toNat * 32768 + o.toNat)
  | .stD d a w o => some (1677746176 + d.val * 2097152 + a.val * 65536 + w.toNat * 32768 + o.toNat)
  | .ldc d a w i => some (1744830464 + d.val * 2097152 + a.val * 65536 + w.toNat * 32768 + i.toNat)
  | .lds d a w => some (1811939328 + d.val * 2097152 + a.val * 65536 + w.toNat * 1024)
  | .sts a b w v => some (1811939329 + a.val * 65536 + b.val * 2048 + w.toNat * 1024 + v.toNat * 512)
  | .amoadd d a b w v x => some (1879048192 + d.val * 2097152 + a.val * 65536 + b.val * 2048 + w.toNat * 1024 + v.toNat * 512 + x.toNat * 16)
  | .amoand d a b w v x => some (1879048193 + d.val * 2097152 + a.val * 65536 + b.val * 2048 + w.toNat * 1024 + v.toNat * 512 + x.toNat * 16)
  | .amoor d a b w v x => some (1879048194 + d.val * 2097152 + a.val * 65536 + b.val * 2048 + w.toNat * 1024 + v.toNat * 512 + x.toNat * 16)
  | .amoxor d a b w v x => some (1879048195 + d.val * 2097152 + a.val * 65536 + b.val * 2048 + w.toNat * 1024 + v.toNat * 512 + x.toNat * 16)
  | .amomin d a b w v x => some (1879048196 + d.val * 2097152 + a.val * 65536 + b.val * 2048 + w.toNat * 1024 + v.toNat * 512 + x.toNat * 16)
  | .amomax d a b w v x => some (1879048197 + d.val * 2097152 + a.val * 65536 + b.val * 2048 + w.toNat * 1024 + v.toNat * 512 + x.toNat * 16)
  | .amominu d a b w v x => some (1879048198 + d.val * 2097152 + a.val * 65536 + b.val * 2048 + w.toNat * 1024 + v.toNat * 512 + x.toNat * 16)
  | .amomaxu d a b w v x => some (1879048199 + d.val * 2097152 + a.val * 65536 + b.val * 2048 + w.toNat * 1024 + v.toNat * 512 + x.toNat * 16)
  | .amoswp d a b w v x => some (1879048200 + d.val * 2097152 + a.val * 65536 + b.val * 2048 + w.toNat * 1024 + v.toNat * 512 + x.toNat * 16)
  | .amocas d a b w v x => some (1879048201 + d.val * 2097152 + a.val * 65536 + b.val * 2048 + w.toNat * 1024 + v.toNat * 512 + x.toNat * 16)
  | .amofadd d a b w v => some (1879048202 + d.val * 2097152 + a.val * 65536 + b.val * 2048 + w.toNat * 1024 + v.toNat * 512)
  | .amofmin d a b w v => some (1879048203 + d.val * 2097152 + a.val * 65536 + b.val * 2048 + w.toNat * 1024 + v.toNat * 512)
  | .amofmax d a b w v => some (1879048204 + d.val * 2097152 + a.val * 65536 + b.val * 2048 + w.toNat * 1024 + v.toNat * 512)
  | .amoaddNr a b w v x => some (1879048224 + a.val * 65536 + b.val * 2048 + w.toNat * 1024 + v.toNat * 512 + x.toNat * 16)
  | .amoandNr a b w v x => some (1879048225 + a.val * 65536 + b.val * 2048 + w.toNat * 1024 + v.toNat * 512 + x.toNat * 16)
  | .amoorNr a b w v x => some (1879048226 + a.val * 65536 + b.val * 2048 + w.toNat * 1024 + v.toNat * 512 + x.toNat * 16)
  | .amoxorNr a b w v x => some (1879048227 + a.val * 65536 + b.val * 2048 + w.toNat * 1024 + v.toNat * 512 + x.toNat * 16)
  | .amominNr a b w v x => some (1879048228 + a.val * 65536 + b.val * 2048 + w.toNat * 1024 + v.toNat * 512 + x.toNat * 16)
  | .amomaxNr a b w v x => some (1879048229 + a.val * 65536 + b.val * 2048 + w.toNat * 1024 + v.toNat * 512 + x.toNat * 16)
  | .amominuNr a b w v x => some (1879048230 + a.val * 65536 + b.val * 2048 + w.toNat * 1024 + v.toNat * 512 + x.toNat * 16)
  | .amomaxuNr a b w v x => some (1879048231 + a.val * 65536 + b.val * 2048 + w.toNat * 1024 + v.toNat * 512 + x.toNat * 16)
  | .amofaddNr a b w v => some (1879048234 + a.val * 65536 + b.val * 2048 + w.toNat * 1024 + v.toNat * 512)
  | .amofminNr a b w v => some (1879048235 + a.val * 65536 + b.val * 2048 + w.toNat * 1024 + v.toNat * 512)
  | .amofmaxNr a b w v => some (1879048236 + a.val * 65536 + b.val * 2048 + w.toNat * 1024 + v.toNat * 512)
  | .fenceX => some (1946157056)
  | .fenceH => some (1946157057)
  | .gate a b w v => some (1946157058 + a.val * 65536 + b.val * 2048 + w.toNat * 1024 + v.toNat * 512)
  | .cinv a b w v => some (1946157059 + a.val * 65536 + b.val * 2048 + w.toNat * 1024 + v.toNat * 512)
  | .tld t p q f k => some (2147483648 + t.val * 4194304 + p.val * 524288 + q.toNat * 131072 + f.toNat * 16384 + k.toNat * 4096)
  | .tldc t p q f k => some (2147483649 + t.val * 4194304 + p.val * 524288 + q.toNat * 131072 + f.toNat * 16384 + k.toNat * 4096)
  | .tst t p q f w => some (2147483650 + t.val * 4194304 + p.val * 524288 + q.toNat * 131072 + f.toNat * 16384 + w.toNat * 8192)
  | .tlds t p q n k => some (2214592512 + t.val * 4194304 + p.val * 524288 + q.toNat * 131072 + n.toNat * 16384 + k.toNat * 4096)
  | .tsts t p q n w => some (2214592513 + t.val * 4194304 + p.val * 524288 + q.toNat * 131072 + n.toNat * 16384 + w.toNat * 8192)
  | .tshape t a w => some (2281701376 + t.val * 2097152 + a.val * 65536 + w.toNat * 1024)
  | .tshapeq d t => some (2281701377 + d.val * 2097152 + t.val * 65536)
  | .tclr t => some (2281701378 + t.val * 2097152)
  | .tmov x y w => some (2281701379 + x.val * 2097152 + y.val * 65536 + w.toNat * 1024)
  | .ttr x y w => some (2281701380 + x.val * 2097152 + y.val * 65536 + w.toNat * 1024)
  | .tbcr x y b w v => some (2281701381 + x.val * 2097152 + y.val * 65536 + b.val * 2048 + w.toNat * 1024 + v.toNat * 512)
  | .tbcc x y b w v => some (2281701382 + x.val * 2097152 + y.val * 65536 + b.val * 2048 + w.toNat * 1024 + v.toNat * 512)
  | .textr d t b w v => some (2281701383 + d.val * 2097152 + t.val * 65536 + b.val * 2048 + w.toNat * 1024 + v.toNat * 512)
  | .tins t a b w v => some (2281701384 + t.val * 2097152 + a.val * 65536 + b.val * 2048 + w.toNat * 1024 + v.toNat * 512)
  | .vset p a b w v => some (2281701385 + p.val * 2097152 + a.val * 65536 + b.val * 2048 + w.toNat * 1024 + v.toNat * 512)
  | .vadv p a b w v => some (2281701386 + p.val * 2097152 + a.val * 65536 + b.val * 2048 + w.toNat * 1024 + v.toNat * 512)
  | .vget d p n => some (2281701387 + d.val * 2097152 + p.val * 65536 + n.toNat * 2048)
  | .tadd x y z w v s f => some (2415919104 + x.val * 4194304 + y.val * 262144 + z.val * 16384 + w.toNat * 8192 + v.toNat * 4096 + s.toNat * 2048 + f.toNat * 128)
  | .tsub x y z w v s f => some (2415919105 + x.val * 4194304 + y.val * 262144 + z.val * 16384 + w.toNat * 8192 + v.toNat * 4096 + s.toNat * 2048 + f.toNat * 128)
  | .tmul x y z w v s f => some (2415919106 + x.val * 4194304 + y.val * 262144 + z.val * 16384 + w.toNat * 8192 + v.toNat * 4096 + s.toNat * 2048 + f.toNat * 128)
  | .tfma x y z w v f => some (2415919107 + x.val * 4194304 + y.val * 262144 + z.val * 16384 + w.toNat * 8192 + v.toNat * 4096 + f.toNat * 128)
  | .tmin x y z w v f => some (2415919108 + x.val * 4194304 + y.val * 262144 + z.val * 16384 + w.toNat * 8192 + v.toNat * 4096 + f.toNat * 128)
  | .tmax x y z w v f => some (2415919109 + x.val * 4194304 + y.val * 262144 + z.val * 16384 + w.toNat * 8192 + v.toNat * 4096 + f.toNat * 128)
  | .tabs x y w s f => some (2415919110 + x.val * 4194304 + y.val * 262144 + w.toNat * 8192 + s.toNat * 2048 + f.toNat * 128)
  | .tneg x y w s f => some (2415919111 + x.val * 4194304 + y.val * 262144 + w.toNat * 8192 + s.toNat * 2048 + f.toNat * 128)
  | .tand x y z w v f => some (2415919112 + x.val * 4194304 + y.val * 262144 + z.val * 16384 + w.toNat * 8192 + v.toNat * 4096 + f.toNat * 128)
  | .tor x y z w v f => some (2415919113 + x.val * 4194304 + y.val * 262144 + z.val * 16384 + w.toNat * 8192 + v.toNat * 4096 + f.toNat * 128)
  | .txor x y z w v f => some (2415919114 + x.val * 4194304 + y.val * 262144 + z.val * 16384 + w.toNat * 8192 + v.toNat * 4096 + f.toNat * 128)
  | .tshl x y z w v s f => some (2415919115 + x.val * 4194304 + y.val * 262144 + z.val * 16384 + w.toNat * 8192 + v.toNat * 4096 + s.toNat * 2048 + f.toNat * 128)
  | .tshr x y z w v f => some (2415919116 + x.val * 4194304 + y.val * 262144 + z.val * 16384 + w.toNat * 8192 + v.toNat * 4096 + f.toNat * 128)
  | .tsra x y z w v f => some (2415919117 + x.val * 4194304 + y.val * 262144 + z.val * 16384 + w.toNat * 8192 + v.toNat * 4096 + f.toNat * 128)
  | .tscale x y z w v f => some (2415919118 + x.val * 4194304 + y.val * 262144 + z.val * 16384 + w.toNat * 8192 + v.toNat * 4096 + f.toNat * 128)
  | .tsel x y z w v f => some (2415919119 + x.val * 4194304 + y.val * 262144 + z.val * 16384 + w.toNat * 8192 + v.toNat * 4096 + f.toNat * 128)
  | .tcmpEq x y z w v f => some (2415919120 + x.val * 4194304 + y.val * 262144 + z.val * 16384 + w.toNat * 8192 + v.toNat * 4096 + f.toNat * 128)
  | .tcmpNe x y z w v f => some (2415919121 + x.val * 4194304 + y.val * 262144 + z.val * 16384 + w.toNat * 8192 + v.toNat * 4096 + f.toNat * 128)
  | .tcmpLt x y z w v f => some (2415919122 + x.val * 4194304 + y.val * 262144 + z.val * 16384 + w.toNat * 8192 + v.toNat * 4096 + f.toNat * 128)
  | .tcmpLe x y z w v f => some (2415919123 + x.val * 4194304 + y.val * 262144 + z.val * 16384 + w.toNat * 8192 + v.toNat * 4096 + f.toNat * 128)
  | .texp x y w f => some (2415919128 + x.val * 4194304 + y.val * 262144 + w.toNat * 8192 + f.toNat * 128)
  | .tlog x y w f => some (2415919129 + x.val * 4194304 + y.val * 262144 + w.toNat * 8192 + f.toNat * 128)
  | .trcp x y w f => some (2415919130 + x.val * 4194304 + y.val * 262144 + w.toNat * 8192 + f.toNat * 128)
  | .trsq x y w f => some (2415919131 + x.val * 4194304 + y.val * 262144 + w.toNat * 8192 + f.toNat * 128)
  | .tredrAdd x y w f => some (2415919136 + x.val * 4194304 + y.val * 262144 + w.toNat * 8192 + f.toNat * 128)
  | .tredrMax x y w f => some (2415919137 + x.val * 4194304 + y.val * 262144 + w.toNat * 8192 + f.toNat * 128)
  | .tredrMin x y w f => some (2415919138 + x.val * 4194304 + y.val * 262144 + w.toNat * 8192 + f.toNat * 128)
  | .tredcAdd x y w f => some (2415919140 + x.val * 4194304 + y.val * 262144 + w.toNat * 8192 + f.toNat * 128)
  | .tredcMax x y w f => some (2415919141 + x.val * 4194304 + y.val * 262144 + w.toNat * 8192 + f.toNat * 128)
  | .tredcMin x y w f => some (2415919142 + x.val * 4194304 + y.val * 262144 + w.toNat * 8192 + f.toNat * 128)
  | .tdotr x y z w v f => some (2415919144 + x.val * 4194304 + y.val * 262144 + z.val * 16384 + w.toNat * 8192 + v.toNat * 4096 + f.toNat * 128)
  | .tcvt x y w f r => some (2483027968 + x.val * 4194304 + y.val * 262144 + w.toNat * 8192 + f.toNat * 128 + r.toNat * 16)
  | .tqnt x y z w v c r => some (2550136832 + x.val * 4194304 + y.val * 262144 + z.val * 16384 + w.toNat * 8192 + v.toNat * 4096 + c.toNat * 256 + r.toNat * 128)
  | .tdq x y z w v c r => some (2550136833 + x.val * 4194304 + y.val * 262144 + z.val * 16384 + w.toNat * 8192 + v.toNat * 4096 + c.toNat * 256 + r.toNat * 128)
  | .tredx x y w l => some (2617245696 + x.val * 4194304 + y.val * 262144 + w.toNat * 8192 + l.toNat * 256)
  | .mma t a b k => some (3221225472 + t.toNat * 33554432 + a.toNat * 262144 + b.toNat * 16384 + k.toNat * 2048)
  | .mmal t a b k => some (3221225984 + t.toNat * 33554432 + a.toNat * 262144 + b.toNat * 16384 + k.toNat * 2048)
  | .mmah16 t a b k => some (3221226496 + t.toNat * 33554432 + a.toNat * 262144 + b.toNat * 16384 + k.toNat * 2048)
  | .mmah32 t a b k => some (3221226497 + t.toNat * 33554432 + a.toNat * 262144 + b.toNat * 16384 + k.toNat * 2048)
  | .mmah64 t a b k => some (3221226498 + t.toNat * 33554432 + a.toNat * 262144 + b.toNat * 16384 + k.toNat * 2048)
  | .mmae t a b k => some (3221225728 + t.toNat * 33554432 + a.toNat * 262144 + b.toNat * 16384 + k.toNat * 2048)
  | .mmaeL t a b k => some (3221226240 + t.toNat * 33554432 + a.toNat * 262144 + b.toNat * 16384 + k.toNat * 2048)
  | .mmaeH16 t a b k => some (3221226752 + t.toNat * 33554432 + a.toNat * 262144 + b.toNat * 16384 + k.toNat * 2048)
  | .mmaeH32 t a b k => some (3221226753 + t.toNat * 33554432 + a.toNat * 262144 + b.toNat * 16384 + k.toNat * 2048)
  | .mmaeH64 t a b k => some (3221226754 + t.toNat * 33554432 + a.toNat * 262144 + b.toNat * 16384 + k.toNat * 2048)
  | .mldw b k => some (3221225488 + b.toNat * 16384 + k.toNat * 2048)
  | .mlease a w => some (3288334336 + a.val * 65536 + w.toNat * 1024)
  | .mrel => some (3288334337)
  | .mrdef a b w v => some (3288334338 + a.val * 65536 + b.val * 2048 + w.toNat * 1024 + v.toNat * 512)
  | .mrq d a w => some (3288334339 + d.val * 2097152 + a.val * 65536 + w.toNat * 1024)
  | .mchk d => some (3288334340 + d.val * 2097152)
  | .mdrain => some (3288334341)
  | .cpyMs d a b w v => some (3355443200 + d.val * 2097152 + a.val * 65536 + b.val * 2048 + w.toNat * 1024 + v.toNat * 512)
  | .cpySm d a b w v => some (3355443201 + d.val * 2097152 + a.val * 65536 + b.val * 2048 + w.toNat * 1024 + v.toNat * 512)
  | .cpyMr d a b w v => some (3355443202 + d.val * 2097152 + a.val * 65536 + b.val * 2048 + w.toNat * 1024 + v.toNat * 512)
  | .cpyUr d a b w v => some (3355443203 + d.val * 2097152 + a.val * 65536 + b.val * 2048 + w.toNat * 1024 + v.toNat * 512)
  | .cpyEs d a b w v => some (3355443204 + d.val * 2097152 + a.val * 65536 + b.val * 2048 + w.toNat * 1024 + v.toNat * 512)
  | .cpySe d a b w v => some (3355443205 + d.val * 2097152 + a.val * 65536 + b.val * 2048 + w.toNat * 1024 + v.toNat * 512)
  | .cpywp d a w => some (3355443216 + d.val * 2097152 + a.val * 65536 + w.toNat * 1024)
  | .cwait a b w v => some (3355443232 + a.val * 65536 + b.val * 2048 + w.toNat * 1024 + v.toNat * 512)
  | .own d a w => some (3355443248 + d.val * 2097152 + a.val * 65536 + w.toNat * 1024)
  | .mepi t y c r => some (3422552064 + t.toNat * 16777216 + y.val * 65536 + c.toNat * 512 + r.toNat * 8)
  | .trap c => some (3758096384 + c.toNat)
  | .sysrd d n => some (3825205248 + d.val * 2097152 + n.toNat)
  | .syswr a n => some (3892314112 + a.val * 65536 + n.toNat)
  | .sealq d a => some (3959422976 + d.val * 2097152 + a.val * 65536)
  | .frep a => some (3959422977 + a.val * 65536)
  | .diagrd d a => some (3959422978 + d.val * 2097152 + a.val * 65536)
  | .diagwr d a => some (3959422979 + d.val * 2097152 + a.val * 65536)
  | .repair d a => some (3959422980 + d.val * 2097152 + a.val * 65536)
  | .mstat d => some (3959422981 + d.val * 2097152)
  | .halt => some (3959422982)
  | .wfe => some (3959422983)
  | .mmurd d a => some (4026531840 + d.val * 2097152 + a.val * 65536)
  | .mmuwr d a => some (4026531841 + d.val * 2097152 + a.val * 65536)
  | .mmuinv a => some (4026531842 + a.val * 65536)
  | .kwrap d a => some (4026531856 + d.val * 2097152 + a.val * 65536)
  | .kunwrap d a => some (4026531857 + d.val * 2097152 + a.val * 65536)
  | .kscrub a => some (4026531858 + a.val * 65536)
  | .hashi a => some (4093640704 + a.val * 65536)
  | .hashu d a => some (4093640705 + d.val * 2097152 + a.val * 65536)
  | .hashf d a => some (4093640706 + d.val * 2097152 + a.val * 65536)
  | .ecsign d a => some (4093640720 + d.val * 2097152 + a.val * 65536)
  | .ecvrfy d a => some (4093640721 + d.val * 2097152 + a.val * 65536)
  | .aesenc d a => some (4093640736 + d.val * 2097152 + a.val * 65536)
  | .aesdec d a => some (4093640737 + d.val * 2097152 + a.val * 65536)
  | .rng d => some (4093640752 + d.val * 2097152)
  | .repf c r d a b => some (4160749568 + c.toNat * 4194304 + r.toNat * 16384 + d.toNat * 1024 + a.toNat * 64 + b.toNat * 4)
  | .evSummaryWrite _ _ => none
  | .evSafeDistance _ => none
  | .evWaitSafePoint _ => none
  | .evChunkCommit _ => none
  | .evCoreClearComplete _ => none
  | .evMessageDelivery _ _ => none
  | .evPlacementWalk _ => none
  | .evDataMessageArrival _ => none
  | .evContinuationResume _ _ => none
  | .evRegisterClearComplete _ => none
  | .evMigrationArrival _ => none
  | .evCuminQuery _ => none
  | .evWqryAnswer _ => none
  | .evCopyStart _ _ => none
  | .evCopyElementDelivery _ _ => none
  | .evWeightKeyLoad _ _ => none
  | .evSealGroupVerify _ _ => none
  | .evGrantBatch _ => none
  | .evGrantExpiry _ => none
  | .evWeightLoadComplete _ => none
  | .evResidueCheckComplete _ _ => none
  | .evLeaseScrubComplete _ => none
  | .evCoreParityError _ => none
  | .evParityRequeueTimeout _ => none
  | .evPairCommitTimeout _ => none
  | .evSpecWayTimeout _ => none
  | .evExclusiveTokenRelease _ => none
  | .evCapsuleComplete _ => none
  | .evJoinStall _ => none
  | .evDeadline _ => none
  | .evLeaseOverrun _ => none
  | .evEngineStall _ _ => none
  | .evQueueStall _ => none
  | .evHeartbeatEcho _ _ => none
  | .evHeartbeatFailure _ => none
  | .evQueueSelect => none
  | .evAdmitHead _ => none
  | .evPendingSlotCopy _ => none
  | .evArmingWindowEntry _ => none
  | .evLaunchRelease _ => none
  | .evGatePoll _ => none
  | .evPreemptionSearch _ => none
  | .evClaimExpiry _ => none
  | .evPowerDivision => none
  | .evClusterPowerGate _ => none
  | .evClusterWake _ => none
  | .evRetentionEntry _ => none
  | .evRetentionExit _ => none
  | .evTier1Writeback _ => none
  | .evEpochReencrypt _ => none
  | .evArrayDiagnosis _ _ => none
  | .evSummaryTimeout _ => none
  | .evPackageFatalError _ => none
  | .evWarmResetTimeout => none
  | .evPowerUp => none
  | .evImageDelivery _ _ => none
  | .evInputOutOfRange _ => none
  | .evInputLoss => none
  | .evPtpFrame _ => none
  | .evPpsInput _ _ => none
  | .evPpsOutput => none
  | .evPeerMemoryWrite _ _ _ => none
  | .evPeerMemoryRead _ _ _ => none
  | .evPeerGate _ _ => none
  | .evPeerDoorbell _ _ => none
  | .evLinkDown _ => none
  | .evGoWrite _ _ _ => none
  | .evQcfgWrite _ _ _ => none
  | .evHostRegisterWrite _ _ _ => none
  | .evDoorbellCountRead _ _ => none
  | .evCtailWrite _ _ => none
  | .evHostRead _ _ _ => none
  | .evHostWrite _ _ _ => none
  | .evHostFetchadd _ _ _ _ => none
  | .evHostSwap _ _ _ _ => none
  | .evHostCas _ _ _ _ _ => none
  | .evTier1MapWrite _ _ => none
  | .evFunctionLevelReset _ => none
  | .evAbortCapsule _ _ _ _ => none
  | .evTeardownQueue _ _ _ => none
  | .evResetPartition _ _ => none
  | .evWarmReset _ => none
  | .evColdReset _ => none
  | .evReadEvlog _ _ _ => none
  | .evReadDump _ _ => none
  | .evDumpKey _ => none
  | .evFence _ _ => none
  | .evUnfence _ _ => none
  | .evSetBudget _ _ => none
  | .evGetStatus _ => none
  | .evManagementWake _ => none
  | .evConfigWrite _ _ _ => none
  | .evQueueBind _ _ _ => none
  | .evWindowWrite _ _ _ => none
  | .evLock _ => none
  | .evLockComplete => none
  | .evKeyset _ _ => none
  | .evKeydrop _ => none
  | .evGrant _ _ => none
  | .evShare _ _ _ => none
  | .evUnshare _ _ _ => none
  | .evSeal _ _ => none
  | .evRelease _ => none
  | .evReleaseComplete _ => none
  | .evPldmMonitor _ => none
  | .evPldmFirmwareUpdate _ _ => none
  | .evGetVersion _ _ => none
  | .evGetCapabilities _ _ => none
  | .evNegotiateAlgorithms _ _ => none
  | .evGetDigests _ _ => none
  | .evGetCertificate _ _ => none
  | .evChallenge _ _ => none
  | .evGetMeasurements _ _ => none
  | .evSpdmUnsupportedRequest _ _ => none
  | .evIllegalInstruction _ => none
  | .evProducerCompletion _ => none
  | .evWaitTimeReached _ => none
  | .evPowerShareAvailable _ => none
  | .evHoldover => none
  | .evLinkUp _ => none
  | .evPeerRefusal _ _ => none
  | .evManagementDoorbell _ => none
  | .evCompletionWriteError _ => none

/-- The instruction this decoder reads from the table's numbering of the bits: every instruction is one 32-bit word whose
bytes stand least significant first. An event of the table has no word. -/
def decodeTableWord (nbits w : Nat) : Option Instr :=
  match decode (bytesOfWord (w % 2 ^ nbits)) with
  | .ok (i, _) => some i
  | .error _ => none

end Sys2Proof
end

