-- ==== Sys2Proof/Machine/Codes.lean ====
section
/-! DEFINITION. The fault codes with their numbers and classes (spec/10_system_seal_instructions.md R227, R232). -/

namespace Sys2Proof.Machine

/-- The codes of R232 that an instruction or an event raises. -/
inductive Code where
  | illegal | privileged | noRotation | tileUnallocated | emptyRead | tileFormat | tileIndex | handlerFormat | contFormat
  | migrState | trap | contLost | extentIndex | extentBounds | extentRights | alignment | windowIndex | windowStore
  | ownerBusy | ownerMismatch | staging | stagingFail | sealedRead | sealedCopy | sealedWrite | sealTag | spawnRights
  | chunkFull | safeDistance | msgTarget | portKind | joinTarget | joinOver | joinStall | deadline | copyFormat | ringState
  | matrixState | epilogueFormat | matrixCheck | leaseOverrun | engineStall | poison | integrity | coreParity | residue
  | pairMismatch | mmuMiss | mmuRights | keyUnwrap | diagBusy | secAddr | flushed | queueStall | aborted
  | sealFail | recordFormat | extentOwner | codeMismatch | noFootprint | deadlinePassed
  | lockedWrite | sealedDebug | contSpace | distError | summaryRepeat | recordDropped
deriving DecidableEq, Repr

/-- The number of a code (R232). -/
def Code.num : Code → Nat
  | .illegal => 0x0001 | .privileged => 0x0002 | .noRotation => 0x0003 | .tileUnallocated => 0x0004 | .emptyRead => 0x0005
  | .tileFormat => 0x0006 | .tileIndex => 0x0007 | .handlerFormat => 0x0008 | .contFormat => 0x0009 | .migrState => 0x000A
  | .trap => 0x000B | .contLost => 0x000C | .extentIndex => 0x0010 | .extentBounds => 0x0011 | .extentRights => 0x0012
  | .alignment => 0x0013 | .windowIndex => 0x0014 | .windowStore => 0x0015 | .ownerBusy => 0x0016 | .ownerMismatch => 0x0017
  | .staging => 0x0018 | .stagingFail => 0x0019 | .sealedRead => 0x0020 | .sealedCopy => 0x0021 | .sealedWrite => 0x0022
  | .sealTag => 0x0023 | .spawnRights => 0x0024 | .chunkFull => 0x0030 | .safeDistance => 0x0031 | .msgTarget => 0x0032
  | .portKind => 0x0033 | .joinTarget => 0x0034 | .joinOver => 0x0035 | .joinStall => 0x0036 | .deadline => 0x0037
  | .copyFormat => 0x0040 | .ringState => 0x0041 | .matrixState => 0x0042 | .epilogueFormat => 0x0043
  | .matrixCheck => 0x0044 | .leaseOverrun => 0x0045 | .engineStall => 0x0046 | .poison => 0x0050 | .integrity => 0x0051
  | .coreParity => 0x0052 | .residue => 0x0053 | .pairMismatch => 0x0054 | .mmuMiss => 0x0060 | .mmuRights => 0x0061
  | .keyUnwrap => 0x0062 | .diagBusy => 0x0063 | .secAddr => 0x0064 | .flushed => 0x0100 | .queueStall => 0x0101
  | .aborted => 0x0102 | .sealFail => 0x0110 | .recordFormat => 0x0111 | .extentOwner => 0x0112 | .codeMismatch => 0x0113
  | .noFootprint => 0x0114 | .deadlinePassed => 0x0115 | .lockedWrite => 0x0200 | .sealedDebug => 0x0201
  | .contSpace => 0x0202 | .distError => 0x0203 | .summaryRepeat => 0x0204 | .recordDropped => 0x0205

/-- The class of a code (R227, R232). -/
inductive FaultClass where
  | capsule | rollback | resolved | queue | admission | event | firmware
deriving DecidableEq, Repr

/-- The class of each code (R232). -/
def Code.cls : Code → FaultClass
  | .staging => .resolved
  | .poison | .integrity | .coreParity | .residue => .rollback
  | .mmuMiss | .mmuRights | .keyUnwrap | .diagBusy | .secAddr => .firmware
  | .flushed | .queueStall => .queue
  | .sealFail | .recordFormat | .extentOwner | .codeMismatch | .noFootprint | .deadlinePassed => .admission
  | .lockedWrite | .sealedDebug | .contSpace | .distError | .summaryRepeat | .recordDropped => .event
  | _ => .capsule

/-- The code that the third failure of a chunk raises (R227, R181). -/
def Code.third : Code → Code
  | .residue => .matrixCheck
  | c => c

end Sys2Proof.Machine
end

