-- ==== Sys2Proof/Machine/Flags.lean ====
section
/-! DEFINITION. The flag computations: the sticky flags of FLG (spec/01_machine_state.md R17, R342). -/

namespace Sys2Proof.Machine

/-- The flags that one operation sets (R17). -/
structure Flags where
  sat : Bool := false
  inx : Bool := false
  inv : Bool := false
  emt : Bool := false
deriving DecidableEq, Repr

/-- The flags of two operations together. -/
def Flags.join (f g : Flags) : Flags :=
  { sat := f.sat || g.sat, inx := f.inx || g.inx, inv := f.inv || g.inv, emt := f.emt || g.emt }

/-- Flags as bits of FLG: SAT [0], INX [1], INV [2], EMT [3] (R17). -/
def Flags.bits (f : Flags) : Word :=
  (if f.sat then 1 else 0) ||| (if f.inx then 2 else 0) ||| (if f.inv then 4 else 0) ||| (if f.emt then 8 else 0)

/-- FLG after flags are set: they are sticky (R17). -/
def orFlags (flg : Word) (f : Flags) : Word := flg ||| f.bits

/-- What a write of FLG stores: reserved bits are ignored (R17, R215, R191). -/
def writeFlg (v : Word) : Word := v &&& 0xF

/-- A number clamped to the signed range of `n` bits, and was it clamped (R46 SatN)? -/
def satN (n : Nat) (x : Int) : Int × Bool :=
  if x < -(2 ^ (n - 1)) then (-(2 ^ (n - 1)), true)
  else if x > 2 ^ (n - 1) - 1 then (2 ^ (n - 1) - 1, true)
  else (x, false)

/-- A number clamped to the signed 32-bit range (R46 Sat32). -/
def sat32 (x : Int) : Int × Bool := satN 32 x

end Sys2Proof.Machine
end

