-- ==== Sys2Proof/Machine/Lookup.lean ====
section
/-! DEFINITION. Access to the parts of the state: keyed lists, contexts, cores, clusters, capsules, record fields, time and
the event logs. -/

namespace Sys2Proof.Machine

/-- The entry with key `k`, or what an absent entry stands for. -/
def lookup {α : Type} (key : α → Nat) (dflt : Nat → α) (l : List α) (k : Nat) : α :=
  match l with
  | [] => dflt k
  | x :: l => if key x = k then x else lookup key dflt l k

/-- The list with the entry of the same key replaced, or added at the end. -/
def update {α : Type} (key : α → Nat) (l : List α) (a : α) : List α :=
  match l with
  | [] => [a]
  | x :: l => if key x = key a then a :: l else x :: update key l a

/-- The value of a pair list, with what an absent key gives. -/
def assoc {α : Type} (dflt : α) (l : List (Nat × α)) (k : Nat) : α := (lookup Prod.fst (fun n => (n, dflt)) l k).2

/-- A core by its number in R84's SRC layout. -/
def State.core (s : State) (c : Nat) : Core := lookup Core.id Core.reset s.cores c

/-- Change one core. -/
def State.modCore (c : Nat) (f : Core → Core) (s : State) : State := { s with cores := update Core.id s.cores (f (s.core c)) }

/-- A cluster by its number 0 to 127. -/
def State.cluster (s : State) (n : Nat) : Cluster := lookup Cluster.no Cluster.reset s.clusters n

/-- Change one cluster. -/
def State.modCluster (n : Nat) (f : Cluster → Cluster) (s : State) : State :=
  { s with clusters := update Cluster.no s.clusters (f (s.cluster n)) }

/-- A partition by its number. -/
def State.part (s : State) (n : Nat) : Part := lookup Part.no Part.reset s.parts n

/-- Is the package down: without supplies, or held in reset (R233, R326)? -/
def State.down (s : State) : Bool := s.phase == .off || s.phase == .held

/-- Is a reset of the partition in progress (R300)? -/
def State.inReset (s : State) (p : Nat) : Bool := decide (s.clock < (s.part p).resetEnd)

/-- Change one partition. -/
def State.modPart (n : Nat) (f : Part → Part) (s : State) : State := { s with parts := update Part.no s.parts (f (s.part n)) }

/-- A queue by its number. -/
def State.queue (s : State) (n : Nat) : Queue := lookup Queue.no Queue.reset s.queues n

/-- Change one queue. -/
def State.modQueue (n : Nat) (f : Queue → Queue) (s : State) : State :=
  { s with queues := update Queue.no s.queues (f (s.queue n)) }

/-- A capsule that the device carries. -/
def State.cap? (s : State) (id : Nat) : Option Capsule := s.caps.find? fun c => c.id == id

/-- Change one capsule. -/
def State.modCap (id : Nat) (f : Capsule → Capsule) (s : State) : State :=
  { s with caps := s.caps.map fun c => if c.id = id then f c else c }

/-- Every context. -/
def State.harts (s : State) : List Hart := s.hart :: s.parked

/-- A context by its id. -/
def State.hart? (s : State) (id : Nat) : Option Hart := s.harts.find? fun h => h.id == id

/-- Change one context. -/
def State.modHart (id : Nat) (f : Hart → Hart) (s : State) : State :=
  { s with hart := if s.hart.id = id then f s.hart else s.hart,
           parked := s.parked.map fun h => if h.id = id then f h else h }

/-- Change the context that issues. -/
def State.mod (f : Hart → Hart) (s : State) : State := { s with hart := f s.hart }

/-- Make a context the one that issues; contexts that have ended are dropped on the way. -/
def focus (id : Nat) (s : State) : State :=
  if s.hart.id = id then s
  else match s.parked.find? fun h => h.id == id with
    | none => s
    | some h =>
      let rest := s.parked.filter fun x => x.id != id
      { s with hart := h, parked := if s.hart.run = .ended then rest else s.hart :: rest }

/-- Act on one context, and go back to the one that issued. -/
def onHart (id : Nat) (f : State → State) (s : State) : State :=
  let t := focus id s
  if t.hart.id = id then focus s.hart.id (f t) else s

/-- Act on each of several contexts. -/
def onHarts (ids : List Nat) (f : State → State) (s : State) : State := ids.foldl (fun t id => onHart id f t) s

/-- The number of the cluster of a core: die, then y, then x, as R81 orders them. -/
def clusterNo (core : Nat) : Nat := 32 * bitsOf core 11 10 + 8 * bitsOf core 6 5 + bitsOf core 9 7

/-- A core of a cluster in R84's SRC layout; 31 names the service core. -/
def coreIn (cluster k : Nat) : Nat := 1024 * (cluster / 32) + 128 * (cluster % 8) + 32 * (cluster / 8 % 4) + k

/-- Its service core. -/
def serviceCore (cluster : Nat) : Nat := coreIn cluster 31

/-- The die of a core. -/
def dieOf (core : Nat) : Nat := bitsOf core 11 10

/-- The cluster of the context that issues. -/
def State.here (s : State) : Nat := clusterNo s.hart.core

/-- Is the cluster a rotation cluster, one whose x is 0 or 4 (R176)? -/
def rotation (cluster : Nat) : Bool := cluster % 4 == 0

/-- PTP time in nanoseconds modulo 2^64 (R25, R77). -/
def State.now (s : State) : Word := word (s.sumac.sec.toNat * 1000000000 + s.sumac.ns.toNat)

/-- A free value, and the state that will give another one next time (log 7). -/
def State.free (s : State) : Word × State := (Config.freeWord s.fresh, { s with fresh := s.fresh + 1 })

/-! Fields of a capsule record (R25, R26). -/

/-- The 64-bit word of a record at a byte offset. -/
def Capsule.field (c : Capsule) (off : Nat) : Word := word (c.record.readLE off 8)

/-- The control word CTL. -/
def Capsule.ctl (c : Capsule) : Nat := c.record.readLE 0x38 8

/-- CTL.OWNER. -/
def Capsule.owner (c : Capsule) : Nat := bitsOf c.ctl 63 48

/-- CTL.STALL in microseconds. -/
def Capsule.stall (c : Capsule) : Nat := bitsOf c.ctl 47 32

/-- CTL.LVLS: hierarchy levels less one. -/
def Capsule.lvls (c : Capsule) : Nat := bitsOf c.ctl 17 15

/-- CTL.PAIRED. -/
def Capsule.paired (c : Capsule) : Bool := bitOf c.ctl 14

/-- NONCE, the capsule tag. -/
def Capsule.nonce (c : Capsule) : Word := c.field 0xC0

/-- DOMAIN of a hierarchy level (R27). -/
def Capsule.domain (c : Capsule) (l : Nat) : Nat := bitsOf (c.record.readLE (0x80 + 2 * l) 2) 15 13

/-- Members of a hierarchy level (R27). -/
def Capsule.members (c : Capsule) (l : Nat) : Nat := bitsOf (c.record.readLE (0x80 + 2 * l) 2) 7 0 + 1

/-- Rank at a level from a RANKS word (R41). -/
def rankAt (ranks : Word) (l : Nat) : Nat := bitsOf ranks.toNat (8 * l + 7) (8 * l)

/-- The core of the other footprint of a paired capsule that has the same ranks as a core (R280). -/
def Capsule.twin (c : Capsule) (core : Nat) : Option Nat :=
  match c.foot.find? (fun p => p.1 == core), c.foot2.find? (fun p => p.1 == core) with
  | some p, _ => (c.foot2.find? fun q => q.2 == p.2).map Prod.fst
  | none, some p => (c.foot.find? fun q => q.2 == p.2).map Prod.fst
  | none, none => none

/-- The core that mirrors a core for a capsule: none where the capsule is not paired. -/
def State.twin (s : State) (cap core : Nat) : Option Nat := (s.cap? cap).bind fun c => c.twin core

/-- The capsule of the context that issues. -/
def State.capsule (s : State) : Option Capsule := if s.hart.kind = .task then s.cap? s.hart.cap else none

/-! Extent descriptors (R29, R30). -/

/-- A descriptor. -/
abbrev Extent := Vector Word 4

def Extent.base (e : Extent) : Nat := e[0].toNat
def Extent.length (e : Extent) : Nat := e[1].toNat
def Extent.attr (e : Extent) : Nat := e[2].toNat
def Extent.aux (e : Extent) : Word := e[3]
def Extent.kind (e : Extent) : Nat := bitsOf e.attr 11 8
def Extent.ksel (e : Extent) : Nat := bitsOf e.attr 47 32
def Extent.co (e : Extent) : Bool := bitOf e.attr 3
def Extent.x (e : Extent) : Bool := bitOf e.attr 2
def Extent.w (e : Extent) : Bool := bitOf e.attr 1
def Extent.r (e : Extent) : Bool := bitOf e.attr 0

/-- The extent index of a handle (R23). -/
def handleIdx (h : Word) : Nat := bitsOf h.toNat 63 56

/-- The offset of a handle (R23). -/
def handleOff (h : Word) : Nat := bitsOf h.toNat 55 0

/-- A handle from its parts (R76 HMK). -/
def mkHandle (idx off : Nat) : Word := word (idx % 256 * 2 ^ 56 + off % 2 ^ 56)

/-- A handle with an amount added on its offset bits (R54, R187). -/
def addOff (h : Word) (i : Int) : Word := mkHandle (handleIdx h) ((Int.ofNat (handleOff h) + i) % 2 ^ 56).toNat

/-- The extents of a capsule that stand in its extent buffer. -/
def State.extents (s : State) : List Extent :=
  match s.capsule with
  | some c => c.exts
  | none => []

/-- Ext(x), when x is below ECNT and its KIND is not 0 (R24, R76). -/
def State.extent? (s : State) (x : Nat) : Option Extent :=
  match s.extents[x]? with
  | some e => if e.kind = 0 then none else some e
  | none => none

/-! Partitions and held queues (R266, R279, R280, R320). -/

/-- The partition that a queue is bound to: function VF n serves partition n − 1 (R320). -/
def Queue.partition (q : Queue) : Option Nat := q.fn.map fun f => f - 1

/-- Is a cluster in a partition (R266 CLUSTERS)? -/
def Part.hasCluster (p : Part) (cl : Nat) : Bool := bitOf (p.cfg.readLE 0x000 16) cl

/-- The partition of a cluster. -/
def State.clusterPart (s : State) (cl : Nat) : Option Nat := (List.range 16).find? fun p => (s.part p).hasCluster cl

/-- A queue whose head is held becomes eligible again: its head is verified anew (R279, R280). -/
def Queue.release (q : Queue) : Queue := { q with held := false, why := 0, gatest := 0, watched := false }

/-- The head leaves the ring: what follows it has not been held (R279, R289). -/
def Queue.pop (q : Queue) : Queue := { q.release with waiting := q.waiting - 1, heldAt := none, looked := 0 }

/-- An event of R280 in a cluster: the heads of its partition held for their footprint are tried again. -/
def wakeFootprint (cl : Nat) (s : State) : State :=
  match s.clusterPart cl with
  | none => s
  | some p => { s with queues := s.queues.map fun q => if q.partition = some p ∧ q.held = true ∧ q.why = 3 then q.release else q }

/-- A write of a line makes the queues that watch it eligible again (R279). -/
def triggerWatch (pa n : Nat) (q : Queue) : Queue :=
  let g := bitsOf q.gatest.toNat 47 0 / 256
  if q.held = true ∧ q.why = 1 ∧ q.watched = true ∧ pa / 256 ≤ g ∧ g ≤ (pa + n - 1) / 256 then q.release else q

/-! The event logs (R307). -/

/-- What an event log entry says, beside TIME, REPEAT and SEQ. -/
structure Event where
  code : Nat
  kind : Nat
  core : Nat := 0x1FFF
  queue : Nat := 0xFFFF
  detail : Word := 0
  ctag : Nat := 0
deriving DecidableEq, Repr

/-- Write an entry, or coalesce it with the previous one (R307). -/
def Log.add (l : Log) (now : Word) (e : Event) : Log :=
  let fresh : LogEntry := { time := now, code := e.code, kind := e.kind, rep := 0, core := e.core, queue := e.queue,
                            detail := e.detail, ctag := e.ctag, seq := l.seq }
  match l.entries with
  | p :: rest =>
    if p.code = e.code ∧ p.kind = e.kind ∧ p.core = e.core ∧ p.detail = e.detail ∧ (now - p.time).toNat < 1000000 then
      { l with entries := { p with rep := min 255 (p.rep + 1) } :: rest }
    else { seq := l.seq + 1, entries := (fresh :: l.entries).take 2047 }
  | [] => { seq := l.seq + 1, entries := [fresh] }

/-- An entry of a partition's log. -/
def State.logPart (part : Nat) (e : Event) (s : State) : State := s.modPart part fun p => { p with log := p.log.add s.now e }

/-- An entry of the package log. -/
def State.logPkg (e : Event) (s : State) : State := { s with pkglog := s.pkglog.add s.now e }

/-- A core or a cluster is fenced or returns to service (R307 KIND 9); the spec states no CODE for it, so it is free (log 7). -/
def logFence (core : Nat) (s : State) : State := s.logPkg { code := Config.errorCode, kind := 9, core := core }

/-- Fence a cluster for a cause other than FENCE (R347): CLSTAT.FENCED, and a KIND 9 entry. -/
def fenceOther (cl : Nat) (s : State) : State :=
  logFence (serviceCore cl) (s.modCluster cl fun c => { c with clstat := c.clstat ||| 1, fencedOther := true })

/-- Hand something to the outside world (log 6). -/
def State.emit (o : Out) (s : State) : State := { s with out := s.out ++ [o] }

end Sys2Proof.Machine
end

