-- ==== Sys2Proof/Machine/Chunk.lean ====
section
/-! DEFINITION. Registers, handles and addresses (spec/01 R16, R23, R24, spec/14 R246, R250), and the chunk: what a task reads
and buffers (spec/01 R36, spec/08 R188, R200, spec/14 R260). -/

namespace Sys2Proof.Machine

/-- Why an instruction does not complete. It carries the state with what stands all the same: RST and FLG. A fault's detail
is none where the spec states none: the value is then free (log 7). -/
inductive Halt where
  | fault (c : Code) (detail : Option Word) (s : State)
  | wait (w : Wait) (s : State)
  | stop (f : Fault)

/-- What an operation gives, or why it does not complete. -/
abbrev Run (α : Type) := Except Halt α

/-! Registers. -/

/-- A bit vector with bit `i` set or cleared. -/
def setBit {n : Nat} (v : BitVec n) (i : Nat) (b : Bool) : BitVec n :=
  if b then v ||| (1#n <<< i) else v &&& ~~~(1#n <<< i)

/-- Change the registers of the context that issues. -/
def State.modRegs (f : Regs → Regs) (s : State) : State := s.mod fun h => { h with r := f h.r }

/-- A scalar register. -/
def State.sreg (s : State) (r : SReg) : Word := s.hart.r.s.get r

/-- Is it full? -/
def State.sfull (s : State) (r : SReg) : Bool := s.hart.r.sfull.getLsbD r.val

/-- Does a producer in flight write this scalar register? -/
def Dest.isS (d : Dest) (r : SReg) : Bool :=
  match d with
  | .sreg x _ => x == r
  | .treg _ _ | .gone => false

/-- Does it write this tile register? -/
def Dest.isT (d : Dest) (t : TReg) : Bool :=
  match d with
  | .sreg _ _ | .gone => false
  | .treg x _ => x == t

/-- The producers in flight after their register is written by a later instruction: the late result of one that the test picks does
not land (log 14), and its flags still reach FLG (R342). -/
def supersede (hit : Dest → Bool) (l : List Producer) : List Producer :=
  l.map fun p => if hit p.dest then { p with dest := .gone } else p

/-- Write a scalar register and mark it full (R16, R71). A late result of an earlier producer does not land on it (log 14). -/
def writeS (r : SReg) (v : Word) (s : State) : State :=
  s.mod fun h => { h with r := { h.r with s := h.r.s.set r.val v r.isLt, sfull := setBit h.r.sfull r.val true },
                          inflight := supersede (·.isS r) h.inflight }

/-- A tile register. -/
def State.tile (s : State) (t : TReg) : Tile := s.hart.r.t.get t

/-- Write a tile register's data and shape and mark it full (R16). -/
def writeT (t : TReg) (data : Memory) (shape : BitVec 16) (s : State) : State :=
  s.mod fun h => { h with r := { h.r with t := h.r.t.set t.val { data := data, shape := shape, full := true } t.isLt },
                          inflight := supersede (·.isT t) h.inflight, owed := h.owed.set t.val 0 t.isLt }

/-- OR flags into FLG (R17). -/
def setFlags (f : Flags) (s : State) : State := s.modRegs fun r => { r with flg := orFlags r.flg f }

/-- Start a producer for a scalar register (R16): the value it will deliver is taken now (log 14). -/
def produceS (r : SReg) (v : Word) (flags : Flags) (s : State) : State :=
  s.mod fun h => { h with r := { h.r with sfull := setBit h.r.sfull r.val false },
                          inflight := supersede (·.isS r) h.inflight ++ [⟨.sreg r v, flags.bits⟩] }

/-- Start a producer for a tile register (R16); the shape word stands at once. -/
def produceT (t : TReg) (data : Memory) (shape : BitVec 16) (s : State) : State :=
  s.mod fun h => { h with r := { h.r with t := h.r.t.set t.val { h.r.t.get t with shape := shape, full := false } t.isLt },
                          inflight := supersede (·.isT t) h.inflight ++ [⟨.treg t data, 0⟩], owed := h.owed.set t.val 0 t.isLt }

/-- Deliver one producer's result: the register is full, and its flags are set (R16, R193). -/
def deliver (p : Producer) (s : State) : State :=
  let t := match p.dest with
    | .sreg r v => writeS r v s
    | .treg t d => writeT t d (s.tile t).shape s
    | .gone => s
  t.modRegs fun r => { r with flg := r.flg ||| p.flags }

/-- Deliver every producer in flight, oldest first: what a commit and a report wait for (R342). -/
def drain (s : State) : State := s.hart.inflight.foldl (fun t p => deliver p t) (s.mod fun h => { h with inflight := [] })

/-- Is there a producer whose flags have not arrived (R342)? -/
def flagsPending (s : State) : Bool := s.hart.inflight.any fun p => p.flags != 0

/-! The restart register (R18). -/

/-- A number of `n` bytes of RST at byte `off`. -/
def rstGet (r : BitVec 512) (off n : Nat) : Nat := bitsOf r.toNat (8 * (off + n) - 1) (8 * off)

/-- RST with the `n` bytes at `off` replaced. -/
def rstPut (r : BitVec 512) (off n v : Nat) : BitVec 512 :=
  BitVec.ofNat 512 (r.toNat - rstGet r off n * 2 ^ (8 * off) + v % 2 ^ (8 * n) * 2 ^ (8 * off))

/-- IDX when FLAGS[0] says it is valid, else zero (R18, R66). -/
def State.rstIdx (s : State) : Nat := if bitOf (rstGet s.hart.r.rst 4 1) 0 then rstGet s.hart.r.rst 0 4 else 0

/-- Record the restart index. -/
def setIdx (n : Nat) (s : State) : State :=
  s.modRegs fun r => { r with rst := rstPut (rstPut r.rst 0 4 n) 4 1 (rstGet r.rst 4 1 / 2 * 2 + 1) }

/-- RST := 0. -/
def clearRst (s : State) : State := s.modRegs fun r => { r with rst := 0 }

/-! Handles and addresses. -/

/-- The uses of an access (R24); a copy is a source or a destination. -/
inductive Use where
  | read | write | exec | copySrc | copyDst | unseal | atomic
deriving DecidableEq, Repr

/-- Permits of R24. -/
def permits (e : Extent) : Use → Bool
  | .read => e.r
  | .write => e.w
  | .exec => e.x
  | .copySrc => e.r
  | .copyDst => e.w
  | .unseal => e.kind == 3
  | .atomic => e.r && e.w

/-- The fault of a compute-only extent, where R24 names one. -/
def coFault : Use → Option Code
  | .read => some .sealedRead
  | .write | .atomic => some .sealedWrite
  | .exec => some .extentRights
  | .copySrc | .copyDst => some .sealedCopy
  | .unseal => none

/-- CheckAccess on a list of extents (R24): the physical address, or the fault, whose detail is the handle. -/
def checkExtents (exts : List Extent) (h : Word) (size : Nat) (use : Use) : Except Code Nat :=
  match exts[handleIdx h]? with
  | none => .error .extentIndex
  | some e =>
    if e.kind = 0 then .error .extentIndex
    else if e.length < handleOff h + size then .error .extentBounds
    else match (if e.co then coFault use else none) with
      | some c => .error c
      | none => if permits e use then .ok (e.base + handleOff h) else .error .extentRights

/-- CheckAccess for the context that issues (R24). -/
def checkAccess (s : State) (h : Word) (size : Nat) (use : Use) : Run Nat :=
  match checkExtents s.extents h size use with
  | .ok pa => .ok pa
  | .error c => .error (.fault c (some h) s)

/-- The first physical addresses of the dump and protected regions (R253, R311). -/
def dumpBase : Nat := 0x5FB0000000
def protectedBase : Nat := 0x5FC0000000

/-- The end of tier 0 and the bounds of tier 1 (R246). -/
def tier0End : Nat := 0x6000000000
def tier1Base : Nat := 0x10000000000
def tier1End : Nat := 0x20000000000

/-- The granule of a physical address (R252). -/
def granuleOf (pa : Nat) : Nat := if pa < tier1Base then pa / 2097152 else 196608 + (pa - tier1Base) / 2097152

/-- The physical base of a granule. -/
def granuleBase (g : Nat) : Nat := if g < 196608 then g * 2097152 else tier1Base + (g - 196608) * 2097152

/-- The entry of a granule (R252): zero where nothing was granted, STATE 3 in the dump and protected regions. -/
def State.granule (s : State) (g : Nat) : BitVec 128 :=
  match s.got.find? fun e => e.1 == g with
  | some e => e.2
  | none => if granuleOf dumpBase ≤ g ∧ g < 196608 then 0xC else 0

/-- Fields of an entry. -/
def gotState (e : BitVec 128) : Nat := bitsOf e.toNat 3 2
def gotSeal (e : BitVec 128) : Nat := bitsOf e.toNat 23 8
def gotSrl (e : BitVec 128) : Nat := bitsOf e.toNat 47 24
def gotOwner (e : BitVec 128) : Nat := bitsOf e.toNat 63 48
def gotVpage (e : BitVec 128) : Nat := bitsOf e.toNat 95 64
def gotEpoch (e : BitVec 128) : Nat := bitsOf e.toNat 127 96

/-- The units of size `u` that a range touches, in ascending order. -/
def unitsOf (u pa n : Nat) : List Nat := if n = 0 then [] else List.range' (pa / u) ((pa + n - 1) / u + 1 - pa / u)

/-- The granules of a range. -/
def granulesOf (pa n : Nat) : List Nat := if n = 0 then [] else List.range' (granuleOf pa) (granuleOf (pa + n - 1) + 1 - granuleOf pa)

/-- Do all granules of a range have this owner (R250)? -/
def ownedBy (s : State) (owner pa n : Nat) : Bool := (granulesOf pa n).all fun g => gotOwner (s.granule g) == owner

/-- The home die of a line (R246). -/
def homeDie (s : State) (pa : Nat) : Nat := if pa < tier1Base then s.homemap.getD (pa / 17179869184) 0 / 2 else bitsOf pa 9 8

/-- A firmware address as a physical address (R224), with its rights. While a firmware fault is pending, instructions are fetched at physical
addresses, as FWVEC is one (R216) (DEDUCED, log 46). -/
def firmwareAddress (s : State) (a : Nat) (use : Use) : Run Nat :=
  let c := s.cluster s.here
  let word0 := fun i => c.mmu.readLE (16 * i) 8
  let word1 := fun i => c.mmu.readLE (16 * i + 8) 8
  if bitOf c.mmuctl.toNat 0 && !(use == .exec && c.fwcode != 0) then
    match (List.range 256).find? fun i => bitOf (word0 i) 63 && bitsOf (word0 i) 47 21 == bitsOf a 47 21 with
    | none => .error (.fault .mmuMiss none s)
    | some i =>
      let rights := word1 i
      let ok := match use with
        | .exec => bitOf rights 2
        | .write | .copyDst => bitOf rights 1
        | .read | .copySrc | .unseal => bitOf rights 0
        | .atomic => bitOf rights 0 && bitOf rights 1
      if ok then .ok (bitsOf (word1 i) 47 21 * 2097152 + a % 2097152) else .error (.fault .mmuRights none s)
  else .ok a

/-- An access of firmware to a physical address (R246, R250, R253): owner 0x0000, nothing in the protected regions, and nothing
at a reserved address. -/
def physicalAccess (s : State) (pa n : Nat) : Run Nat :=
  if dumpBase < pa + n ∧ pa < tier0End then .error (.fault .mmuRights none s)
  else if pa + n ≤ tier0End ∨ (tier1Base ≤ pa ∧ pa + n ≤ tier1End) then
    if ownedBy s 0 pa n then .ok pa else .error (.fault .ownerMismatch none s)
  else .error (.stop (.reservedAddress pa))

/-- A firmware access through its MMU (R224). -/
def firmwareAccess (s : State) (a n : Nat) (use : Use) : Run Nat := do
  let pa ← firmwareAddress s a use
  physicalAccess s pa n

/-! Signatures (R200). -/

/-- A 9-bit rotation left. -/
def rotL9 (v k : Nat) : Nat := v % 512 * 2 ^ k % 512 + v % 512 / 2 ^ (9 - k)

/-- f(n) of R200 for a line address. -/
def sigF (line n : Nat) : Nat := if n < 5 then bitsOf line (10 * n + 9) (10 * n) else bitsOf line 55 50

/-- The two filter bits of a line (R200). -/
def sigBits (line : Nat) : Nat × Nat :=
  ((List.range 6).foldl (fun acc n => acc ^^^ sigF line n) 0,
   512 + (List.range 6).foldl (fun acc n => acc ^^^ rotL9 (sigF line n) (n + 1)) 0)

/-- The signature of one line. -/
def sigOf (line : Nat) : BitVec 1024 :=
  let b := sigBits line
  (1#1024 <<< b.1) ||| (1#1024 <<< b.2)

/-- The signature of the lines of a range. -/
def sigRange (pa n : Nat) : BitVec 1024 := (unitsOf 256 pa n).foldl (fun acc l => acc ||| sigOf l) 0

/-- The home dies of the lines of a range (R202). -/
def diesRange (s : State) (pa n : Nat) : BitVec 4 :=
  (unitsOf 256 pa n).foldl (fun acc l => acc ||| (1#4 <<< homeDie s (256 * l))) 0

/-- The regions of a scratchpad range as a mask (R200). -/
def padMask (a n : Nat) : BitVec 256 := (unitsOf 256 a n).foldl (fun acc r => acc ||| (1#256 <<< r)) 0

/-- Masks by core with one core's mask widened. -/
def addMask (core : Nat) (m : BitVec 256) (l : List (Nat × BitVec 256)) : List (Nat × BitVec 256) :=
  update Prod.fst l (core, assoc 0 l core ||| m)

/-- Do the masks of two lists share a set bit for some core (R200)? -/
def masksMeet (a b : List (Nat × BitVec 256)) : Bool := a.any fun p => p.2 &&& assoc 0 b p.1 != 0

/-- Enter a memory read into the chunk (R200). Firmware has no chunk. -/
def noteRead (pa n : Nat) (s : State) : State :=
  if s.hart.kind = .task then
    s.mod fun h => { h with chunk := { h.chunk with readSig := h.chunk.readSig ||| sigRange pa n, reads := true,
                                                    dies := h.chunk.dies ||| diesRange s pa n } }
  else s

/-- Enter a memory write into the chunk (R200). -/
def noteWrite (pa n : Nat) (s : State) : State :=
  s.mod fun h => { h with chunk := { h.chunk with writeSig := h.chunk.writeSig ||| sigRange pa n,
                                                  dies := h.chunk.dies ||| diesRange s pa n } }

/-- Enter a scratchpad read (R200). -/
def notePadRead (a n : Nat) (s : State) : State :=
  s.mod fun h => { h with chunk := { h.chunk with padRead := addMask h.core (padMask a n) h.chunk.padRead, reads := true } }

/-! Reads inside a chunk (R188). -/

/-- The byte that the chunk's own latest store gives an address. -/
def chunkByte (es : List Effect) (pa : Nat) : Option Byte :=
  es.foldl (fun acc e => match e with
    | .store a bs => if a ≤ pa ∧ pa < a + bs.length then bs[pa - a]? else acc
    | _ => acc) none

/-- The same for a scratchpad address of a core. -/
def chunkPadByte (core : Nat) (es : List Effect) (a : Nat) : Option Byte :=
  es.foldl (fun acc e => match e with
    | .padStore k b bs => if k = core ∧ b ≤ a ∧ a < b + bs.length then bs[a - b]? else acc
    | _ => acc) none

/-- A byte as the context that issues reads it: Saffron reads its private SRAM (R225), all others device memory. -/
def viewByte (s : State) (pa : Nat) : Byte :=
  match s.hart.kind with
  | .saffron => s.saffron.sram.read pa
  | _ => (chunkByte s.hart.chunk.effects pa).getD (s.mem.read pa)

/-- The cause of a poisoned byte that a read would consume (R260): a byte of the chunk's own stores is not one. -/
def poisonAt (s : State) (pa : Nat) : Option Bool :=
  if (chunkByte s.hart.chunk.effects pa).isSome then none else (s.poison.find? fun p => p.1 == pa / 32).map Prod.snd

/-- The fault of the first poisoned byte of a range, if there is one (R260). -/
def consume (pa n : Nat) (s : State) : Run Unit :=
  if s.hart.kind = .saffron then .ok () else
  match (List.range n).findSome? fun i => poisonAt s (pa + i) with
  | some true => .error (.fault .integrity none s)
  | some false => .error (.fault .poison none s)
  | none => .ok ()

/-! What a read of stored lines and SRAM words finds (R256, R258, R259). -/

/-- An entry of the log for a memory error of a line: its detail is the line's physical address (R307). -/
def logLine (part kind line : Nat) (s : State) : State :=
  s.logPart part { code := Config.errorCode, kind := kind, detail := word (256 * line) }

/-- All eight sectors of a line are poisoned (R256). -/
def poisonLine (line : Nat) (integrity : Bool) (s : State) : State :=
  { s with poison := (List.range 8).map (fun i => (8 * line + i, integrity)) ++ s.poison.filter fun p => p.1 / 8 != line }

/-- A correction beside a mismatch (R256): the KIND 4 entry lists it in its CODE, for which the spec gives no value (log 7). -/
def logCorrected (part line : Nat) (s : State) : State :=
  s.logPart part { code := Config.correctionCode, kind := 4, detail := word (256 * line) }

/-- A mismatch of a line read with or without a correction. -/
def logMismatch (code : CodeRead) (part line : Nat) (s : State) : State :=
  if code = .corrected then logCorrected part line s else logLine part 4 line s

/-- A read of a line in error (R256, R258): a corrected line is written back, a mismatch is read once more, and a line that cannot be
delivered is poisoned. -/
def readFault (part : Nat) (f : LineFault) (s : State) : State :=
  let s := { s with faults := s.faults.erase f }
  let lost := fun (s : State) => logLine part 3 f.line (poisonLine f.line false s)
  match f.code, f.mac with
  | .uncorrectable, _ => lost s
  | .clean, true => s
  | .corrected, true => logLine part 2 f.line s
  | c, false =>
    let s := logMismatch c part f.line s
    match f.code2, f.mac2 with
    | .uncorrectable, _ => lost s
    | .clean, true => s
    | .corrected, true => logLine part 2 f.line s
    | c, false => logMismatch c part f.line (poisonLine f.line true s)

/-- Does an error in an SRAM word go past correction: two bits of 64, or three of 128 in retention (R259)? -/
def SramFault.lost (f : SramFault) : Bool := if f.retained then decide (3 ≤ f.bits) else decide (2 ≤ f.bits)

/-- An access to a word of the L2 or an RDC in error (R259): it is corrected and logged, or its sector is poisoned with cause POISON. -/
def readSram (part : Nat) (f : SramFault) (s : State) : State :=
  let s := { s with sram := s.sram.erase f }
  match f.place with
  | .cache x =>
    if f.lost then logLine part 3 (x / 8) { s with poison := (x, false) :: s.poison.filter fun p => p.1 != x } else logLine part 2 (x / 8) s
  | .pad core x =>
    if f.lost then
      { s.logPart part { code := Config.errorCode, kind := 3, core := core, detail := Config.errorDetail core } with
        padPoison := (core, x / 4) :: s.padPoison.filter fun p => p != (core, x / 4) }
    else s.logPart part { code := Config.errorCode, kind := 2, core := core, detail := Config.errorDetail core }
  | .buffer cl x =>
    if f.lost then
      { s.logPart part { code := Config.errorCode, kind := 3, core := serviceCore cl, detail := Config.errorDetail (serviceCore cl) } with
        bufPoison := (cl, x / 4) :: s.bufPoison.filter fun p => p != (cl, x / 4) }
    else s.logPart part { code := Config.errorCode, kind := 2, core := serviceCore cl, detail := Config.errorDetail (serviceCore cl) }
  | .row _ _ => s

/-- Does a place in an SRAM hold a word of a sector, in the L2 or an RDC, that passes a test? -/
def SramPlace.onCache (p : Nat → Bool) : SramPlace → Bool
  | .cache x => p x
  | _ => false

/-- Does a place in an SRAM hold a word of a core's scratchpad that passes a test? -/
def SramPlace.onPad (core : Nat) (p : Nat → Bool) : SramPlace → Bool
  | .pad k w => k == core && p w
  | _ => false

/-- The same for a physical row of a core that no ordinary access reaches. -/
def SramPlace.onRow (core : Nat) (p : Nat → Bool) : SramPlace → Bool
  | .row k x => k == core && p x
  | _ => false

/-- The same for a word of a cluster's operand buffer. -/
def SramPlace.onBuffer (cl : Nat) (p : Nat → Bool) : SramPlace → Bool
  | .buffer k x => k == cl && p x
  | _ => false

/-- An access to SRAM words (R259). -/
def meetSram (part : Nat) (at_ : SramPlace → Bool) (s : State) : State :=
  (s.sram.filter fun f => at_ f.place).foldl (fun t f => readSram part f t) s

/-- The lines of a range are read at their home (R256, R258, R259). -/
def readLines (part pa n : Nat) (s : State) : State :=
  let s := (s.faults.filter fun f => (unitsOf 256 pa n).contains f.line).foldl (fun t f => readFault part f t) s
  meetSram part (SramPlace.onCache (unitsOf 32 pa n).contains) s

/-- The home slice of a line on its die (R247). -/
def homeSlice (line : Nat) : Nat := bitsOf line 8 0 ^^^ bitsOf line 17 9 ^^^ bitsOf line 26 18 ^^^ bitsOf line 35 27

/-- The SRAM unit through which a core reaches a line: its home slice, or on another die the data group of that die's RDC (R247, R248, R259). -/
def unitOf (s : State) (core line : Nat) : Nat :=
  let die := dieOf core
  if homeDie s (256 * line) = die then 128 + 512 * die + homeSlice line else 2176 + 32 * die + Config.rdcGroup line % 32

/-- The units of a range. -/
def unitsAt (s : State) (core pa n : Nat) : List Nat := (unitsOf 256 pa n).map (unitOf s core)

/-- Does an access meet a unit that is in retention (R259)? -/
def asleep (s : State) (us : List Nat) : Bool := us.any s.retained.contains

/-- An access to units in retention starts their exit at once, which takes 4,200 cycles (R259). -/
def startExit (us : List Nat) (s : State) : State :=
  { s with exiting := s.exiting ++ ((us.filter fun u => s.retained.contains u && !s.exiting.any fun x => x.1 == u).eraseDups.map fun u => (u, s.clock + 4200)) }

/-- An access to units that are out of retention: they have been accessed now (R259). -/
def noteUse (us : List Nat) (s : State) : State :=
  { s with used := us.foldl (fun l u => update Prod.fst l (u, s.clock)) s.used }

/-- An access of the context that issues to units: it waits for those in retention (R259). -/
def accessUnits (us : List Nat) (s : State) : Run State :=
  if asleep s us then .error (.wait .unit (startExit us s)) else .ok (noteUse us s)

/-- An access of the context that issues to the lines of a range (R259). Saffron's SRAM is no such unit. -/
def awaitUnits (pa n : Nat) (s : State) : Run State :=
  if s.hart.kind = .saffron then .ok s else accessUnits (unitsAt s s.hart.core pa n) s

/-- The home slices of a range (R259). -/
def homeUnits (s : State) (pa n : Nat) : List Nat := (unitsOf 256 pa n).map fun l => 128 + 512 * homeDie s (256 * l) + homeSlice l

/-- A read of lines by the context that issues. -/
def meetLines (part pa n : Nat) (s : State) : Run State := do
  let s ← awaitUnits pa n s
  .ok (if s.hart.kind = .saffron then s else readLines part pa n s)

/-- The partition of the context that issues. -/
def State.partition (s : State) : Nat :=
  match s.capsule with
  | some c => c.part
  | none => 0

/-- Read bytes at a physical address: poison is consumed, and the read enters the read signature (R188, R200, R260). -/
def loadAt (pa n : Nat) (s : State) : Run (List Byte × State) := do
  let s ← meetLines s.partition pa n s
  consume pa n s
  .ok ((List.range n).map fun i => viewByte s (pa + i), noteRead pa n s)

/-- A scratchpad byte as the task sees it. -/
def viewPad (s : State) (a : Nat) : Byte := (chunkPadByte s.hart.core s.hart.chunk.effects a).getD ((s.core s.hart.core).pad.read a)

/-! Injected faults (R221, R222, R316). -/

/-- The number of a physical row: array (0 scratchpad, 1 tile registers), core, bank, spare bit and row. -/
def rowKey (arr core bank spare row : Nat) : Nat := (((arr * 32 + core) * 16 + bank) * 2 + spare) * 512 + row

/-- The fields of a repair entry: V, CORE, ARR, BANK, SPR, ROW (R222). -/
structure Repair where
  v : Bool
  core : Nat
  arr : Nat
  bank : Nat
  spr : Nat
  row : Nat
deriving DecidableEq, Repr

/-- A repair entry from its word. -/
def Repair.of (e : BitVec 32) : Repair :=
  let n := e.toNat
  { v := bitOf n 31, core := bitsOf n 30 26, arr := bitsOf n 25 25, bank := bitsOf n 24 21, spr := bitsOf n 20 19, row := bitsOf n 18 10 }

/-- The physical row that ordinary accesses to a row reach (R222, R315). -/
def remapped (table : Vector (BitVec 32) 16) (arr core bank row : Nat) : Nat :=
  match (table.toList.map Repair.of).find? fun r => r.v && r.arr == arr && r.core == core && r.bank == bank && r.row == row with
  | some r => rowKey arr core bank 1 r.spr
  | none => rowKey arr core bank 0 row

/-- What the injection entry does to ordinary reads of a word: none, a correctable error, or poison (R316). -/
inductive Strike where
  | none | correctable | poison
deriving DecidableEq, Repr

/-- The strike of the cluster's injection entry on one row of an array, named as ordinary accesses name it. -/
def strikeRow (c : Cluster) (arr core bank row : Nat) : Strike :=
  match c.inj with
  | some (key, _, mask) =>
    if key = remapped c.repair arr core bank row then
      (match (List.range 64).countP fun i => mask.getLsbD i with
      | 0 => .none
      | 1 => .correctable
      | _ => .poison)
    else .none
  | none => .none

/-- The strike on a scratchpad word of a core, the service core having no such array. -/
def strikePad (s : State) (core w : Nat) : Strike :=
  if core % 32 = 31 then .none
  else
    let r := (Config.padRow (Fin.ofNat 8192 w)).val
    strikeRow (s.cluster (clusterNo core)) 0 (core % 32) (r / 512) (r % 512)

/-- An entry of the log for a memory error of a core. -/
def logMemory (part core kind : Nat) (s : State) : State :=
  s.logPart part { code := Config.errorCode, kind := kind, core := core, detail := Config.errorDetail core }

/-- An ordinary read of scratchpad words (R259), under the injection entry too (R316): one bit is corrected and logged; more poison the
sector. -/
def meetPad (part core a n : Nat) (s : State) : State :=
  let s := meetSram part (·.onPad core (unitsOf 8 a n).contains) s
  if (s.cluster (clusterNo core)).inj.isNone then s
  else (unitsOf 8 a n).foldl (fun t w => match strikePad t core w with
    | .none => t
    | .correctable => logMemory part core 2 t
    | .poison => { logMemory part core 3 t with padPoison := (core, w / 4) :: t.padPoison.filter fun p => p != (core, w / 4) }) s

/-- Read scratchpad bytes (R200, R259, R316). -/
def loadPad (a n : Nat) (s : State) : Run (List Byte × State) :=
  let s := meetPad s.partition s.hart.core a n s
  if (List.range n).any fun i => (chunkPadByte s.hart.core s.hart.chunk.effects (a + i)).isNone && s.padPoison.contains (s.hart.core, (a + i) / 32)
  then .error (.fault .poison none s)
  else .ok ((List.range n).map fun i => viewPad s (a + i), notePadRead a n s)

/-- The physical tile register of its core that holds a register of a context (R12) (log 10). -/
def physOf (h : Hart) (t : TReg) : Nat := h.phys.getD (t.val + h.ntiles - 16) t.val

/-- The row, counted 512 to a bank, of the array of tile registers that holds a word of a physical register (R221) (log 10). -/
def tileRowOf (p w : Nat) : Nat := (Config.tileRow (Fin.ofNat 8192 (512 * p + w))).val

/-- The strikes on words of a tile register of the context that issues. -/
def strikesTile (s : State) (t : TReg) (ws : List Nat) : List Strike :=
  let c := s.cluster s.here
  match c.inj with
  | none => []
  | some _ => ws.filterMap fun w =>
      let r := tileRowOf (physOf s.hart t) w
      match strikeRow c 1 (s.hart.core % 32) (r / 512) (r % 512) with
      | .none => none
      | x => some x

/-- An ordinary read of words of a tile register under the injection entry (R316). -/
def meetTileWords (t : TReg) (ws : List Nat) (s : State) : Run State :=
  if s.hart.core % 32 = 31 then .ok s
  else
    let l := strikesTile s t ws
    if l.contains .poison then .error (.fault .poison none (logMemory s.partition s.hart.core 3 s))
    else if l.contains .correctable then .ok (logMemory s.partition s.hart.core 2 s)
    else .ok s

/-- An ordinary read of a whole tile register (R316). -/
def meetWhole (t : TReg) (s : State) : Run State := meetTileWords t (List.range 512) s

/-- The words of a register in which the elements of its shape stand: rows of 64 bytes, of which RB are used (R14). -/
def shapeWords (shape : BitVec 16) : List Nat :=
  (List.range 512).filter fun w => decide (w / 8 ≤ bitsOf shape.toNat 5 0) && decide (8 * (w % 8) ≤ bitsOf shape.toNat 11 6)

/-- An ordinary read of the elements of a tile register (R316). -/
def meetTile (t : TReg) (s : State) : Run State := meetTileWords t (shapeWords (s.tile t).shape) s

/-! File-backed blocks (R263). -/

/-- The residence word of block `n` of a KIND 2 extent: its physical address. -/
def residenceWord (exts : List Extent) (e : Extent) (n : Nat) : Nat :=
  match exts[handleIdx e.aux]? with
  | some b => b.base + handleOff e.aux + 8 * (n / 64)
  | none => 0

/-- The dirty bitmap follows the residence bitmap (R29, R263). -/
def dirtyWord (exts : List Extent) (e : Extent) (n : Nat) : Nat :=
  residenceWord exts e n + 8 * ((e.length / 65536 + 63) / 64)

/-! The exclusive token (R203). -/

/-- The arbiters whose token a context in exclusive mode holds: its die's; once the chunk touches a line of another die, the
package arbiter's (bit 4) and those of the dies it touches. -/
def tokenMask (h : Hart) : BitVec 5 :=
  let own := 1#5 <<< dieOf h.core
  let touched := h.chunk.dies.zeroExtend 5
  if touched &&& ~~~own = 0 then own else own ||| touched ||| 0x10

/-- The number under which a context's token is held: the two copies of a pair hold one token (R296). -/
def tokenOf (h : Hart) : Nat :=
  match h.partner with
  | some p => Nat.min h.id p
  | none => h.id

/-- The tokens that other contexts hold. -/
def tokensHeld (s : State) (me : Nat) : BitVec 5 :=
  s.harts.foldl (fun acc h => if tokenOf h ≠ me ∧ s.tokens.contains (tokenOf h) then acc ||| tokenMask h else acc) 0

/-- May a chunk in exclusive mode touch a range now? It needs the package arbiter's token and that of every die it touches, when another chunk
holds one: how the token of a die and the package's exclude each other is left open (DESIGN CHOICE, log 128). -/
def tokenFree (pa n : Nat) (s : State) : Bool :=
  if s.hart.chunk.exclusive && s.tokens.contains (tokenOf s.hart) then
    let h := { s.hart with chunk := { s.hart.chunk with dies := s.hart.chunk.dies ||| diesRange s pa n } }
    tokenMask h &&& tokensHeld s (tokenOf s.hart) == 0
  else true

/-- Read the residence bits of the blocks of a range (R263), lines that a chunk in exclusive mode touches as it touches others (R203): the first
that is not resident raises STAGING, whose detail here is the block's handle. -/
def checkBlocks (x : Nat) (e : Extent) : List Nat → State → Run State
  | [], s => .ok s
  | n :: ns, s => do
    let pa := residenceWord s.extents e n
    if tokenFree pa 8 s then do
      let (bs, s) ← loadAt pa 8 s
      if bitOf (leNat bs) (n % 64) then checkBlocks x e ns s else .error (.fault .staging (some (mkHandle x (65536 * n))) s)
    else .error (.wait .token s)

/-! One access. -/

/-- Does a range touch a granule that has a seal record (R262)? -/
def sealedRange (s : State) (pa n : Nat) : Bool := (granulesOf pa n).any fun g => gotSeal (s.granule g) != 0

/-- The fault of a write to such a granule, through whatever extent: every one fails as R24 has it for a compute-only extent (R262) (DEDUCED,
log 125). -/
def sealFault (s : State) (pa n : Nat) (use : Use) : Option Code :=
  if (use == .write || use == .atomic || use == .copyDst) && sealedRange s pa n then coFault use else none

/-- Find the physical address of an access. A task's access passes CheckAccess, the owner check of R250 and, in a file-backed
extent, the residence check of R263; firmware goes through its MMU (R224); Saffron addresses its private SRAM (R225). -/
def reach (h : Word) (size : Nat) (use : Use) (s : State) : Run (Nat × State) :=
  match s.hart.kind with
  | .saffron => if h.toNat + size ≤ 0x100000 then .ok (h.toNat, s) else .error (.fault .secAddr none s)
  | .firmware => do
    let pa ← firmwareAccess s h.toNat size use
    .ok (pa, s)
  | .task => do
    let pa ← checkAccess s h size use
    match s.extent? (handleIdx h) with
    | none => .error (.fault .extentIndex (some h) s)
    | some e =>
      if let some c := sealFault s pa size use then .error (.fault c (some h) s)
      else if ownedBy s e.ksel pa size then
        if tokenFree pa size s then do
          let t ← if e.kind = 2 then checkBlocks (handleIdx h) e (unitsOf 65536 (handleOff h) size) s else .ok s
          .ok (pa, t)
        else .error (.wait .token s)
      else .error (.fault .ownerMismatch none s)

/-- The parts of an access: a firmware access through the MMU is translated page by page (R224). -/
def pagesOf (s : State) (h : Word) (n : Nat) : List (Word × Nat) :=
  let left := 2097152 - h.toNat % 2097152
  if s.hart.kind = .firmware ∧ left < n then [(h, left), (addOff h left, n - left)] else [(h, n)]

/-- Read parts in order. -/
def loadParts (use : Use) : List (Word × Nat) → State → Run (List Byte × State)
  | [], s => .ok ([], s)
  | (h, n) :: ps, s => do
    let (pa, s) ← reach h n use s
    let (bs, s) ← loadAt pa n s
    let (rest, s) ← loadParts use ps s
    .ok (bs ++ rest, s)

/-- Read through a handle. -/
def load (h : Word) (n : Nat) (use : Use) (s : State) : Run (List Byte × State) := loadParts use (pagesOf s h n) s

/-! Buffering (R36). -/

/-- Outgoing messages of a chunk: SPAWN and copy-outs count (R36, R133, R218). -/
def outgoing (es : List Effect) : Nat :=
  es.countP fun e => match e with
    | .message _ | .sendx .. | .spawn _ | .copyOut _ => true
    | _ => false

/-- Add an effect to the chunk. -/
def pushEffect (e : Effect) (s : State) : State :=
  s.mod fun h => { h with chunk := { h.chunk with effects := h.chunk.effects ++ [e] } }

/-- The dirty bits of the blocks that a write through a handle touches, each by its word and its place there: none but in a KIND 2 extent (R263). -/
def dirtyBits (exts : List Extent) (h : Word) (n : Nat) : List (Nat × Nat) :=
  match exts[handleIdx h]? with
  | some e => if e.kind = 2 then (unitsOf 65536 (handleOff h) n).map fun b => (dirtyWord exts e b, b % 64) else []
  | none => []

/-- The chunk writes through a handle: the commit sets the dirty bits of the blocks that it wrote, each once (R263). -/
def markWritten (h : Word) (n : Nat) (s : State) : State :=
  (dirtyBits s.extents h n).foldl (fun t d =>
    if t.hart.chunk.effects.contains (.dirty d.1 d.2) then t else pushEffect (.dirty d.1 d.2) t) s

/-- Buffer an outgoing effect: at most 32 in a chunk (R36). -/
def bufferOut (e : Effect) (s : State) : Run State :=
  if 32 ≤ outgoing s.hart.chunk.effects then .error (.fault .chunkFull none s) else .ok (pushEffect e s)

/-- The sectors of a range that the chunk does not hold yet. -/
def newSectors (held : List Nat) (pa n : Nat) : List Nat := (unitsOf 32 pa n).filter fun x => !held.contains x

/-- The set of a line in which a context's speculative sectors stand: of the home slice, or of its die's RDC (R247 to R249). -/
def waySet (s : State) (h : Hart) (line : Nat) : Nat × Nat :=
  (unitOf s h.core line, if homeDie s (256 * line) = dieOf h.core then Config.l2Set line else Config.rdcSet line)

/-- The lines of which a chunk holds speculative sectors. -/
def Chunk.lines (c : Chunk) : List Nat := (c.sectors.map (· / 8)).eraseDups

/-- Does a context hold a speculative way in a set (R249)? -/
def waysIn (s : State) (h : Hart) (set : Nat × Nat) : Nat := h.chunk.lines.countP fun l => waySet s h l == set

/-- The ways of a set that hold speculative sectors (R249). -/
def waysHeld (s : State) (set : Nat × Nat) : Nat :=
  ((s.harts.filter fun h => h.chunk.sectors != []).map fun h => waysIn s h set).foldl (· + ·) 0

/-- The first line of a store for which the chunk needs a way that is not free: 12 of its set hold speculative sectors, or take those of the
store's lines before it (R249). -/
def wayWanted (pa n : Nat) (s : State) : Option Nat :=
  let new := (unitsOf 256 pa n).filter fun l => !s.hart.chunk.lines.contains l
  new.find? fun l =>
    let set := waySet s s.hart l
    decide (12 ≤ waysHeld s set + (new.takeWhile (· != l)).countP fun k => waySet s s.hart k == set)

/-- Buffer a store to memory, which takes speculative sectors: at most 4,096 in a chunk (R36, R187), and at most 12 ways of a set (R249). -/
def bufferStore (pa : Nat) (bs : List Byte) (s : State) : Run State := do
  let s ← awaitUnits pa bs.length s
  let new := newSectors s.hart.chunk.sectors pa bs.length
  if 4096 < s.hart.chunk.sectors.length + s.hart.chunk.padSectors.length + new.length then .error (.fault .chunkFull none s)
  else match wayWanted pa bs.length s with
  | some l => .error (.wait (.way l) s)
  | none => .ok (noteWrite pa bs.length (pushEffect (.store pa bs) (s.mod fun h =>
    { h with chunk := { h.chunk with sectors := h.chunk.sectors ++ new } })))

/-- Buffer a store to scratchpad: its sectors count beside those of memory (R36, R178, R200). -/
def bufferPad (a : Nat) (bs : List Byte) (s : State) : Run State :=
  let new := newSectors s.hart.chunk.padSectors a bs.length
  if 4096 < s.hart.chunk.sectors.length + s.hart.chunk.padSectors.length + new.length then .error (.fault .chunkFull none s)
  else .ok (pushEffect (.padStore s.hart.core a bs) (s.mod fun h =>
    { h with chunk := { h.chunk with padSectors := h.chunk.padSectors ++ new, padWrite := addMask h.core (padMask a bs.length) h.chunk.padWrite } }))

/-! Units that commit (R198, R201, R261). -/

/-- Tell every other context what a unit committed: lines, and regions of scratchpads (R201). -/
def publish (me : Nat) (sig : BitVec 1024) (masks : List (Nat × BitVec 256)) (s : State) : State :=
  let see := fun (h : Hart) =>
    if h.id ≠ me ∧ h.chunk.reads then
      { h with chunk := { h.chunk with since := h.chunk.since ||| sig,
                                       padSince := masks.foldl (fun l p => addMask p.1 p.2 l) h.chunk.padSince } }
    else h
  { s with hart := see s.hart, parked := s.parked.map see }

/-- Is every byte of a sector written by one of these writes? -/
def sectorCovered (ws : List (Nat × Nat)) (sector : Nat) : Bool :=
  (List.range 32).all fun i => ws.any fun w => decide (w.1 ≤ 32 * sector + i ∧ 32 * sector + i < w.1 + w.2)

/-- Poison after writes: a sector written whole loses it, a part is merged and logged with KIND 5 (R261, R307). -/
def settlePoison (part : Nat) (ws : List (Nat × Nat)) (s : State) : State :=
  let touched := s.poison.filter fun p => ws.any fun w => (unitsOf 32 w.1 w.2).contains p.1
  let merged := touched.filter fun p => !sectorCovered ws p.1
  merged.foldl (fun t p => t.logPart part { code := if p.2 then Code.integrity.num else Code.poison.num, kind := 5,
                                            detail := word (p.1 / 8 * 256) })
    { s with poison := s.poison.filter fun p => !(touched.contains p && sectorCovered ws p.1) }

/-- Is every byte of a 64-bit word written by one of these writes? -/
def wordCovered (ws : List (Nat × Nat)) (w : Nat) : Bool :=
  (List.range 8).all fun i => ws.any fun x => decide (x.1 ≤ 8 * w + i ∧ 8 * w + i < x.1 + x.2)

/-- Words of an SRAM as writes leave them (R259): a word written in part is read for the merge, and one written whole has fresh check bits. -/
def settleWords (part : Nat) (at_ : (Nat → Bool) → SramPlace → Bool) (ws : List (Nat × Nat)) (s : State) : State :=
  let s := meetSram part (at_ fun w => !wordCovered ws w && ws.any fun x => (unitsOf 8 x.1 x.2).contains w) s
  { s with sram := s.sram.filter fun f => !at_ (wordCovered ws) f.place }

/-- Poison of a core's scratchpad after writes: a sector written whole loses it, and a part is merged and logged (R261, R307). -/
def settlePad (part core : Nat) (ws : List (Nat × Nat)) (s : State) : State :=
  let s := settleWords part (SramPlace.onPad core) ws s
  let touched := s.padPoison.filter fun p => p.1 == core && ws.any fun w => (unitsOf 32 w.1 w.2).contains p.2
  let merged := touched.filter fun p => !sectorCovered ws p.2
  merged.foldl (fun t _ => t.logPart part { code := Code.poison.num, kind := 5, core := core, detail := Config.errorDetail core })
    { s with padPoison := s.padPoison.filter fun p => !(touched.contains p && sectorCovered ws p.2) }

/-- What of a cluster's operand buffer writes cover whole holds no poison and no error (R259, R261). -/
def cleanBuffer (cl : Nat) (ws : List (Nat × Nat)) (s : State) : State :=
  { s with bufPoison := s.bufPoison.filter fun p => !(p.1 == cl && sectorCovered ws p.2),
           sram := s.sram.filter fun f => !f.place.onBuffer cl (wordCovered ws) }

/-- Poison of a cluster's operand buffer after writes: a sector written whole loses it, and a part is merged and logged (R261, R307). -/
def settleBuffer (part cl : Nat) (ws : List (Nat × Nat)) (s : State) : State :=
  let s := settleWords part (SramPlace.onBuffer cl) ws s
  let touched := s.bufPoison.filter fun p => p.1 == cl && ws.any fun w => (unitsOf 32 w.1 w.2).contains p.2
  let merged := touched.filter fun p => !sectorCovered ws p.2
  merged.foldl (fun t _ => t.logPart part { code := Code.poison.num, kind := 5, core := serviceCore cl, detail := Config.errorDetail (serviceCore cl) })
    (cleanBuffer cl ws s)

/-- Note tier-1 lines as written and not yet written back (R196), with their contents before where a FENCE.H holds the write back. -/
def markDirty (h : Hart) (pa n : Nat) (s : State) : State :=
  if pa < tier1Base then s
  else
    let held := s.dirty.any fun d => d.hart == h.task && decide (d.fh < h.fenceH)
    (unitsOf 256 pa n).foldl (fun t l =>
      { t with dirty := t.dirty ++ [{ line := l, old := if held then s.mem.window (256 * l) 256 else [], hart := h.task, cap := h.cap,
                                      fh := h.fenceH, fx := h.fenceX }] }) s

/-- Does an entry of the code-identity cache stand for a range without any line of a write (R276)? -/
def cacheApart (pa n : Nat) (e : Nat × Nat × Nat × BitVec 384) : Bool :=
  decide ((pa + n - 1) / 256 < e.1 / 256) || decide ((e.1 + e.2.1 - 1) / 256 < pa / 256)

/-- Committed bytes: they stand in memory, trigger the gate watches of their lines (R279), and drop the digests of code that they
touch (R276). No write changes a sealed granule (R262). -/
def putMem (h : Hart) (pa : Nat) (bs : List Byte) (s : State) : State :=
  if sealedRange s pa bs.length then s
  else
  { markDirty h pa bs.length s with mem := s.mem.writeBytes pa bs,
                                    queues := s.queues.map (triggerWatch pa bs.length),
                                    codeCache := s.codeCache.filter (cacheApart pa bs.length) }

/-- One write that is a unit of its own: an engine element, a host write, a firmware store (R198). -/
def writeUnit (h : Hart) (part pa : Nat) (bs : List Byte) (s : State) : State :=
  if sealedRange s pa bs.length then s
  else publish h.id (sigRange pa bs.length) [] (settlePoison part [(pa, bs.length)] (putMem h pa bs (readLines part pa bs.length s)))

/-- Does a unit's write wait, because a chunk in exclusive mode has read a line of it (R203)? -/
def heldByToken (s : State) (me pa n : Nat) : Bool :=
  s.harts.any fun h => h.id ≠ me && s.tokens.contains (tokenOf h) && h.chunk.exclusive && (h.chunk.readSig &&& sigRange pa n != 0)

/-- Store bytes at a physical address: a task buffers them, a firmware store is a unit, Saffron writes its SRAM. -/
def storeAt (pa : Nat) (bs : List Byte) (s : State) : Run State :=
  match s.hart.kind with
  | .task => bufferStore pa bs s
  | .firmware =>
    if heldByToken s s.hart.id pa bs.length then .error (.wait .token s)
    else do
      let s ← awaitUnits pa bs.length s
      .ok (writeUnit s.hart s.partition pa bs s)
  | .saffron => .ok { s with saffron := { s.saffron with sram := s.saffron.sram.writeBytes pa bs } }

/-- Store bytes in scratchpad: a task buffers them, firmware writes its core's at once. -/
def storePad (a : Nat) (bs : List Byte) (s : State) : Run State :=
  if s.hart.kind = .task then bufferPad a bs s
  else .ok ((settlePad s.partition s.hart.core [(a, bs.length)] s).modCore s.hart.core fun k => { k with pad := k.pad.writeBytes a bs })

/-- Is one of the regions of a scratchpad range held by the copy engine (R137)? -/
def regionHeld (a n : Nat) (s : State) : Bool := (unitsOf 256 a n).any fun r => (s.core s.hart.core).held.contains r

/-- A use of the capsule's own extents. Outside a task there are none, so CheckAccess fails (R24) (log 17). -/
def reachTask (h : Word) (size : Nat) (use : Use) (s : State) : Run (Nat × State) := do
  let _ ← checkAccess s h size use
  reach h size use s

/-- Store parts in order. -/
def storeParts (use : Use) : List (Word × Nat) → List Byte → State → Run State
  | [], _, s => .ok s
  | (h, n) :: ps, bs, s => do
    let (pa, s) ← reach h n use s
    let s ← storeAt pa (bs.take n) s
    storeParts use ps (bs.drop n) (markWritten h n s)

/-- Store through a handle. -/
def store (h : Word) (bs : List Byte) (use : Use) (s : State) : Run State := storeParts use (pagesOf s h bs.length) bs s

end Sys2Proof.Machine
end

