-- ==== Sys2Proof/Machine/Engine.lean ====
section
/-! DEFINITION. What a squash, a discard, a safe point and an abort undo: copies (spec/05 R137, R139, R140), leases and rings
(spec/07 R163, R165, spec/12 R239, spec/13 R243), and the chunk itself (spec/01 R38). -/

namespace Sys2Proof.Machine

/-! Rings (R22). -/

def ringV (d : Word) : Bool := bitOf d.toNat 63
def ringKind (d : Word) : Nat := bitsOf d.toNat 62 61
def ringTail (d : Word) : Nat := bitsOf d.toNat 47 42
def ringHead (d : Word) : Nat := bitsOf d.toNat 41 36
def ringCount (d : Word) : Nat := bitsOf d.toNat 35 30 + 1
def ringSlot (d : Word) : Nat := 256 * (bitsOf d.toNat 29 22 + 1)
def ringBase (d : Word) : Nat := 256 * bitsOf d.toNat 12 0

/-- A definition with another TAIL. -/
def withTail (d : Word) (t : Nat) : Word := word (d.toNat - ringTail d * 2 ^ 42 + t % 64 * 2 ^ 42)

/-- A definition with another HEAD. -/
def withHead (d : Word) (h : Nat) : Word := word (d.toNat - ringHead d * 2 ^ 36 + h % 64 * 2 ^ 36)

/-- Byte address of slot `k` of a ring in the operand buffer. -/
def slotAddr (d : Word) (k : Nat) : Nat := ringBase d + k % ringCount d * ringSlot d

/-- The slot that the task consumes next, counting its uncommitted consumption (R168, R170). -/
def Ring.next (r : Ring) : Nat := (ringHead r.defn + r.taken) % ringCount r.defn

/-- Slots filled and not consumed by the task (R170). -/
def Ring.ready (r : Ring) : Nat := r.filled - r.taken

/-- Change one ring of a cluster. -/
def modRing (cl n : Nat) (f : Ring → Ring) (s : State) : State :=
  s.modCluster cl fun c => { c with rings := Vector.ofFn fun i => if i.val = n then f (c.rings.get i) else c.rings.get i }

/-- A ring of a cluster. -/
def Cluster.ring (c : Cluster) (n : Nat) : Ring := c.rings.get (Fin.ofNat 16 n)

/-- A channel of a cluster. -/
def Cluster.chan (c : Cluster) (n : Nat) : Chan := c.chans.get (Fin.ofNat 16 n)

/-- Change one channel. -/
def modChan (cl n : Nat) (f : Chan → Chan) (s : State) : State :=
  s.modCluster cl fun c => { c with chans := Vector.ofFn fun i => if i.val = n then f (c.chans.get i) else c.chans.get i }

/-! Lease status (R161). -/

def leaseHeld (l : BitVec 128) : Bool := l.getLsbD 0
def leaseGrant (l : BitVec 128) : Bool := l.getLsbD 1
def leaseCmd (l : BitVec 128) : Nat := bitsOf l.toNat 24 18
def leaseToggle (l : BitVec 128) : Nat := bitsOf l.toNat 95 64
def leaseRstr (l : BitVec 128) : Nat := bitsOf l.toNat 111 96
def leaseMask (l : BitVec 128) : Nat := bitsOf l.toNat 127 112

/-- A lease status with bits [hi:lo] replaced. -/
def leaseSet (l : BitVec 128) (hi lo v : Nat) : BitVec 128 :=
  BitVec.ofNat 128 (l.toNat - bitsOf l.toNat hi lo * 2 ^ lo + v % 2 ^ (hi + 1 - lo) * 2 ^ lo)

/-- The lease status as read now: CYC has counted down since the grant (R161, R164). -/
def leaseNow (clock : Nat) (h : Hart) : BitVec 128 :=
  if leaseGrant h.lease then leaseSet h.lease 39 25 (16384 - Nat.min 16384 (clock - h.grantAt)) else h.lease

/-! Copies. -/

/-- Is the copy a copy-in (R136)? -/
def CopyMode.isIn : CopyMode → Bool
  | .ms | .mr | .ur | .es => true
  | .sm | .se => false

/-- The number of a mode (R59). -/
def CopyMode.num : CopyMode → Nat
  | .ms => 0 | .sm => 1 | .mr => 2 | .ur => 3 | .es => 4 | .se => 5

/-- Is the destination a ring? -/
def CopyMode.toRing : CopyMode → Bool
  | .mr | .ur => true
  | _ => false

/-- The scratchpad range of a copy: byte address and length; none for a ring copy. -/
def Copy.padRange (c : Copy) : Option (Nat × Nat) :=
  match c.mode with
  | .ms | .es => some (c.dst.toNat, c.count * c.esize)
  | .sm | .se => some (c.src.toNat, c.count * c.esize)
  | .mr | .ur => none

/-- The 256-byte regions that a copy holds (R137). -/
def Copy.regions (c : Copy) : List Nat :=
  match c.padRange with
  | some (a, n) => unitsOf 256 a n
  | none => []

/-- Give back the regions of a copy, and mark full the words it had marked empty (R137). -/
def releaseRegions (c : Copy) (s : State) : State :=
  s.modCore c.core fun k =>
    { k with held := c.regions.foldl (fun l r => l.erase r) k.held, empty := k.empty.filter fun w => !c.words.contains w }

/-- The channel of a copy becomes idle; the channel keeps its write pointer. -/
def freeChan (cl : Nat) (c : Copy) (s : State) : State := modChan cl c.chan (fun ch => { ch with copy := none }) s

/-- The slot that a ring copy is filling: its address and size. -/
def fillingSlot (r : Ring) : Nat × Nat := (slotAddr r.defn (ringTail r.defn), ringSlot r.defn)

/-- Zero a range of the operand buffer (R163, R239): its sectors are written whole, so their poison goes (R261). -/
def scrubBuffer (cl a n : Nat) (s : State) : State :=
  cleanBuffer cl [(a, n)] (s.modCluster cl fun c => { c with opbuf := c.opbuf.clear a n })

/-- Cancel a copy-in (R137, R139, R239): regions return; a ring's TAIL goes back to its value at issue; a .ur copy scrubs the
slot it was filling, if it was filling one. -/
def cancelCopy (cl : Nat) (c : Copy) (s : State) : State :=
  let n := c.dst.toNat % 16
  let r := (s.cluster cl).ring n
  let s := if c.mode = .ur ∧ (c.done * c.esize + c.part) % ringSlot r.defn ≠ 0 then
      let f := fillingSlot r
      scrubBuffer cl f.1 f.2 s
    else s
  let s := if c.mode.toRing then modRing cl n (fun r => { r with defn := withTail r.defn c.tail0, filled := c.filled0 }) s else s
  freeChan cl c (releaseRegions c s)

/-- The copies in flight on the channels of a cluster. -/
def Cluster.copies (c : Cluster) : List Copy := (c.chans.toList.filterMap fun ch => ch.copy)

/-- Cancel the copy-ins in flight that a test picks (R139, R140, R298). -/
def cancelCopyIns (p : Copy → Bool) (s : State) : State :=
  (s.clusters.map Cluster.no).foldl (fun t cl =>
    ((t.cluster cl).copies.filter fun c => c.mode.isIn && p c).foldl (fun u c => cancelCopy cl c u) t) s

/-- The copy-in of a context, when one is in flight (R136). -/
def State.copyIn (s : State) : Option Copy := (s.cluster s.here).copies.find? fun c => c.hart == s.hart.id && c.mode.isIn

/-- How many elements of a ring copy lie whole in slots that committed pops have released (R140). The slots that the copy has filled come
behind those that were filled before it. -/
def poppedElements (s : State) (c : Copy) : Nat :=
  let r := (s.cluster s.here).ring (c.dst.toNat % 16)
  let slots := (c.done * c.esize + c.part) / ringSlot r.defn
  (slots - Nat.min slots r.filled) * ringSlot r.defn / c.esize

/-- RST with the snapshot of a copy-in in flight (R18, R140). -/
def snapshotRst (s : State) : BitVec 512 :=
  match s.copyIn with
  | none => s.hart.r.rst
  | some c =>
    let done := if c.mode.toRing then poppedElements s c else c.done
    let loc := if c.mode.toRing then c.dst.toNat % 16 else c.dst.toNat + done * c.esize
    let r := rstPut s.hart.r.rst 4 1 (rstGet s.hart.r.rst 4 1 % 2 + 2 + 4 * c.mode.num)
    let r := rstPut (rstPut r 5 1 c.chan) 6 2 c.esize
    let r := rstPut (rstPut r 8 8 (addOff c.src (done * c.esize)).toNat) 16 8 0
    rstPut (rstPut (rstPut r 0x18 4 (c.count - done)) 0x1C 4 (c.base + done)) 0x20 4 loc

/-- RST of a continuation record: with the snapshot of a copy-in in flight, but for a copy of which no element has landed (R140, R237) (DEDUCED,
log 107). -/
def recordRst (s : State) : BitVec 512 :=
  if s.copyIn.any fun c => c.base + c.done != 0 then snapshotRst s else s.hart.r.rst

/-! Leases. -/

/-- Bind the rings of a mask to a context (R162): their definitions start invalid. -/
def bindRings (cl id mask : Nat) (s : State) : State :=
  let s := s.modCluster cl fun c => { c with
    rings := Vector.ofFn fun i => if bitOf mask i.val then { Ring.reset with owner := some id } else c.rings.get i }
  s.modHart id fun h => { h with lease := BitVec.ofNat 128 (mask * 2 ^ 112 + 1) }

/-- Are all rings of a mask free (R162, R239)? -/
def ringsFree (c : Cluster) (mask : Nat) : Bool :=
  (List.range 16).all fun i => !bitOf mask i || ((c.ring i).owner.isNone && (c.ring i).scrub.isNone)

/-- The units of 256 bytes of a ring's range: first and past the last. -/
def ringSpan (d : Word) : Nat × Nat := (ringBase d / 256, ringBase d / 256 + ringCount d * (ringSlot d / 256))

/-- Does a range meet another valid ring of the cluster, or one that awaits its scrub (R166, R239)? -/
def ringOverlaps (c : Cluster) (n : Nat) (d : Word) : Bool :=
  (List.range 16).any fun i =>
    let e := (c.ring i).defn
    i != n && ringV e && decide ((ringSpan d).1 < (ringSpan e).2) && decide ((ringSpan e).1 < (ringSpan d).2)

/-- Do the ranges of saved ring definitions meet no valid ring of the cluster (R184)? -/
def rangesFree (c : Cluster) (b : Rebind) : Bool :=
  (List.range 16).all fun i =>
    let d := b.defs.get (Fin.ofNat 16 i)
    !(bitOf (leaseMask b.lease) i && ringV d) || !ringOverlaps c i d

/-- May a context bind a mask now: its ring numbers are free (R162) and, for a resumed task, the ranges of its saved rings (R184)? -/
def mayBind (s : State) (cl id mask : Nat) : Bool :=
  ringsFree (s.cluster cl) mask && match (s.hart? id).bind Hart.rebind with
    | some b => rangesFree (s.cluster cl) b
    | none => true

/-- Bind the rings of a mask (R162); those of a resumed task stand with their saved definitions, empty, and with their restore bits
(R184). TOGGLE is 0 at the new binding (DESIGN CHOICE, log 146). -/
def bindLease (cl id mask : Nat) (s : State) : State :=
  match (s.hart? id).bind Hart.rebind with
  | none => bindRings cl id mask s
  | some b =>
    let s := bindRings cl id mask s
    let write := fun (r : Ring) (d : Word) => { r with defn := withTail d (ringHead d), filled := 0, taken := 0 }
    let s := s.modCluster cl fun c =>
      { c with rings := Vector.ofFn fun i => if bitOf mask i.val then write (c.rings.get i) (b.defs.get i) else c.rings.get i }
    s.modHart id fun h => { h with rebind := none, lease := leaseSet h.lease 111 96 (leaseRstr b.lease) }

/-- Waiters in MLEASE bind in the order in which their waits began; one whose mask is not free keeps its place (R243). -/
def bindWaiters (cl : Nat) (s : State) : State :=
  (s.cluster cl).leaseWait.foldl (fun t w =>
    if mayBind t cl w.1 w.2.1.toNat then
      let t := bindLease cl w.1 w.2.1.toNat t
      t.modCluster cl fun c => { c with leaseWait := c.leaseWait.filter fun x => x.1 != w.1 }
    else t) s

/-- End the lease of the context that issues (R163, R239): rings lose definition and contents, copies into them are cancelled,
key slot and weights go, B-sealed rings stay taken until their scrub completes, and waiters may bind. -/
def endLease (s : State) : State :=
  if leaseHeld s.hart.lease then
    let cl := s.here
    let id := s.hart.id
    let mask := leaseMask s.hart.lease
    let into := (s.cluster cl).copies.filter fun c => c.mode.toRing && bitOf mask (c.dst.toNat % 16)
    let s := into.foldl (fun t c => cancelCopy cl c t) s
    let sealed := fun (r : Ring) => ringV r.defn && ringKind r.defn == 2
    let s := (List.range 16).foldl (fun t i =>
      let r := (t.cluster cl).ring i
      if bitOf mask i && ringV r.defn && !sealed r then scrubBuffer cl (ringBase r.defn) (ringCount r.defn * ringSlot r.defn) t
      else t) s
    -- One B-sealed ring keeps every ring number and range of the lease taken until its scrub completes (R239).
    let scrub := (List.range 16).any fun i => bitOf mask i && sealed ((s.cluster cl).ring i)
    let s := s.modCluster cl fun c => { c with
      rings := Vector.ofFn fun i =>
        let r := c.rings.get i
        if bitOf mask i.val then (if scrub then { r with owner := none, filled := 0, taken := 0, scrub := some id } else Ring.reset) else r
      keys := c.keys.filter fun k => k.hart != id
      grant := if c.grant = some id then none else c.grant
      requests := c.requests.filter (· != id)
      batch := c.batch.filter (· != id) }
    let s := s.mod fun h => { h with lease := 0, toggles := [], wload := false, r := { h.r with wact := none, wpend := none } }
    bindWaiters cl s
  else s

/-! A core that a capsule leaves (R20, R158, R242). -/

/-- The tasks that have a slot of a core (R13). -/
def residents (s : State) (core : Nat) : List Hart := s.harts.filter fun h => h.kind == .task && h.core == core && h.run != .ended

/-- Does a core hold a capsule's tasks, or is it being cleared (R221)? A task that ended holds its slot while its copy-outs run (R140); a core that
has no task and stays bound for a continuation alone is open to a test, which R158 lets remove it (DEDUCED, log 153). -/
def coreBusy (s : State) (core : Nat) : Bool :=
  let k := s.core core
  k.clearing || !(residents s core).isEmpty || !k.held.isEmpty || (k.cap.isSome && k.boundRec.isEmpty)

/-- The running contexts of a capsule on a core. -/
def tasksOn (s : State) (cap core : Nat) : List Hart :=
  s.harts.filter fun h => h.kind == .task && h.cap == cap && h.core == core && h.run != .ended

/-- What keeps a core with its capsule when it has no task of it: a bound continuation, a waiting handler message, a CONT on its
way, or an unanswered query (R158, R242). -/
def coreKept (s : State) (cap core : Nat) : Bool :=
  let k := s.core core
  !k.boundRec.isEmpty || (k.inbox.any fun m => m.cap == cap) ||
  (s.queries.any fun q => q.core == core && q.cap == cap && !q.landed) ||
  (s.net.any fun m => m.cap == cap && m.kind == .cont && m.bound == some core) ||
  (s.harts.any fun h => h.core == core && h.cap == cap && match h.run with
    | .committing (.cont _) => true
    | _ => false)

/-- The same for the core and for the one that mirrors it (R280). -/
def coreStays (s : State) (cap core : Nat) : Bool :=
  coreKept s cap core || match s.twin cap core with
    | some k => coreKept s cap k
    | none => false

/-- One core that may have lost its last task: the clear engine starts when the core does not stay (R20); heads held for their
footprint may be tried again (R280). -/
def releaseOne (core : Nat) (s : State) : State :=
  match (s.core core).cap with
  | none => s
  | some cap =>
    if (tasksOn s cap core).isEmpty && !coreStays s cap core then
      wakeFootprint (clusterNo core) (s.modCore core fun k => { k with clearing := true })
    else s

/-- The same for a core and the one that mirrors it. -/
def releaseCore (core : Nat) (s : State) : State :=
  match (s.core core).cap.bind fun cap => s.twin cap core with
  | some k => releaseOne k (releaseOne core s)
  | none => releaseOne core s

/-! Discarding a chunk. -/

/-- The claims of a context's open chunk are settled (R94): final (1) when it commits; discarded (2), and then an item whose answer
has arrived goes back to its return list. A query that has landed and is settled is over. -/
def settleQueries (id fate : Nat) (s : State) : State :=
  let open_ := fun (q : Query) => q.hart == id && q.fate == 0
  let back := if fate = 2 then (s.queries.filter fun q => open_ q && q.landed).filterMap fun q => q.item.map fun i => (q.desc, i) else []
  let queries := s.queries.map fun (q : Query) => if open_ q then { q with fate := fate } else q
  { s with returns := back ++ s.returns, queries := queries.filter fun q => !(q.landed && q.fate != 0) }

/-- Discard every buffered effect of the open chunk (R38, R94, R139, R165): its copy-in is cancelled, what it consumed of rings
and ports returns, its claims will return, its producers and products no longer count. -/
def discardChunk (s : State) : State :=
  let id := s.hart.id
  let cl := s.here
  let mine := (s.cluster cl).copies.filter fun c => c.hart == id && c.mode.isIn && c.chunk == s.hart.commits
  let s := mine.foldl (fun t c => cancelCopy cl c t) s
  let s := s.modCluster cl fun c => { c with
    rings := Vector.ofFn fun i => let r := c.rings.get i; if r.owner = some id then { r with taken := 0 } else r
    products := c.products.map fun p => if p.hart = id then { p with live := false } else p
    requests := c.requests.filter (· != id)
    leaseWait := c.leaseWait.filter fun w => w.1 != id }
  let s := { s with cores := s.cores.map fun (k : Core) => { k with
    ports := k.ports.map fun q => q.map fun e => if e.taken = some id then { e with taken := none } else e } }
  let s := settleQueries id 2 s
  s.mod fun h => { h with inflight := [], owed := Vector.replicate 16 0, wload := false, request := none, times := [],
                          chunk := { Chunk.reset with squashes := h.chunk.squashes, exclusive := h.chunk.exclusive } }

/-- Restore the checkpoint, and make the task ready at it (R37, R38). The lease status stays (R165). A task whose header or record is
still to be read reads it anew. -/
def restoreCheckpoint (s : State) : State :=
  s.mod fun h => { h with r := h.ckpt, sdist := h.ckptSdist, run := if h.header.isSome || h.record.isSome then .clearing else .ready }

/-- The arbiter that a chunk commits through (R202): its die's, or the package arbiter (4) when its signatures hold a line of another
die. -/
def arbiterOf (h : Hart) : Fin 5 := if (tokenMask h).getLsbD 4 then 4 else Fin.ofNat 5 (dieOf h.core)

/-- A squash (R38, R201): the task re-executes from its checkpoint; squashed three times, it runs in exclusive mode (R203). -/
def squash (s : State) : State :=
  let a := arbiterOf s.hart
  let s := restoreCheckpoint (discardChunk s)
  let n := s.hart.chunk.squashes + 1
  let s := s.mod fun h => { h with chunk := { h.chunk with squashes := n, exclusive := decide (3 ≤ n) } }
  { s with arbiters := s.arbiters.set a.val { s.arbiters.get a with squashes := (s.arbiters.get a).squashes + 1 } a.isLt }

/-- Are the reads of the open chunk overtaken by units that committed since (R201, R204)? -/
def overtaken (h : Hart) : Bool :=
  h.chunk.reads && ((h.chunk.readSig &&& h.chunk.since != 0) || masksMeet h.chunk.padRead h.chunk.padSince)

end Sys2Proof.Machine
end

