-- ==== Sys2Proof/Machine/Ops.lean ====
section
/-! DEFINITION. The shared operations: the fault report, taking an exception (raise) and restarting from a checkpoint, the abort
of a capsule, and the issue of one instruction (spec/01 R38, R39, spec/02 R51, spec/10 R226 to R233, spec/16 R294, R298). -/

namespace Sys2Proof.Machine

/-- What a step answers. -/
abbrev Answer := Host.Outcome State Fault Refusal

/-- Where an instruction stands for a fault report (R226): its word, the second word, and its place in a REPF. -/
structure Site where
  word : Nat := 0
  word2 : Nat := 0
  inRepf : Bool := false
  repi : Nat := 0
  repp : Nat := 0
  /-- The PC of the source word of a replay (R67), which firmware's FWPC names. -/
  pc : Option Word := none
deriving DecidableEq, Repr

/-- The fields of a fault report that come from a task (R226, R345). -/
def taskFields (site : Site) (s : State) (rst : BitVec 512) (m : Memory) : Memory :=
  let h := s.hart
  let flags := (if rst = 0 then 0 else 1) + (if h.partner.isSome then 2 else 0) + (if site.inRepf then 4 else 0) +
    (if h.chunk.exclusive then 8 else 0) + (if h.migrated then 16 else 0)
  let m := ((m.writeLE 0x002 2 flags).writeLE 0x004 4 site.word).writeLE 0x008 4 site.word2
  let m := ((m.writeLE 0x00C 2 h.core).writeLE 0x00E 1 h.rdl).writeLE 0x00F 1 site.repi
  let m := ((m.writeLE 0x010 8 h.r.pc.toNat).writeLE 0x028 8 h.r.flg.toNat).writeLE 0x030 8 h.ranks.toNat
  let m := ((m.writeLE 0x040 64 rst.toNat).writeLE 0x080 16 (leaseNow s.clock h).toNat).writeLE 0x090 2 site.repp
  (List.range 32).foldl (fun m i => m.writeLE (0x100 + 8 * i) 8 (h.r.s.get (Fin.ofNat 32 i)).toNat) m

/-- The fields that every report of a capsule has (R226, R345). -/
def commonFields (s : State) (cap code : Nat) (detail : Word) : Memory :=
  let commits := match s.cap? cap with
    | some c => c.commits
    | none => 0
  ((((Memory.writeLE [] 0x000 2 code).writeLE 0x018 8 detail.toNat).writeLE 0x020 8 s.now.toNat).writeLE 0x038 8 commits)

/-- The 512-byte fault report of a fault raised by an instruction (R226). -/
def faultReport (site : Site) (code : Nat) (detail : Word) (s : State) : Memory :=
  taskFields site s (snapshotRst s) (commonFields s s.hart.cap code detail)

/-- A report that names no task (R345). -/
def bareReport (s : State) (cap code : Nat) (detail : Word) : Memory :=
  (commonFields s cap code detail).writeLE 0x00C 2 0x1FFF

/-- The extent that takes a fault report: KIND 6, of 512 bytes or more (R226). -/
def reportExtent (c : Capsule) : Option (Nat × Extent) :=
  ((List.range c.exts.length).zip c.exts).find? fun p => p.2.kind == 6 && decide (512 ≤ p.2.length)

/-- A write of the device for a capsule, 0 for none: one unit, of no task (R206, R270). It starts the exit of a slice in retention; the bytes
stand at once, since whoever would read them waits for that slice (R259) (DEDUCED, log 155). -/
def deviceStore (cap part pa : Nat) (bs : List Byte) (s : State) : State :=
  let units := homeUnits s pa bs.length
  let s := startExit units (noteUse units s)
  writeUnit { Hart.reset s.nextId .task 0x1FFF with cap := cap, task := saffronId } part pa bs s

/-- Write bytes that the device itself writes for a capsule: a unit of their own. -/
def deviceWrite (cap pa : Nat) (bs : List Byte) (s : State) : State :=
  deviceStore cap (match s.cap? cap with | some c => c.part | none => 0) pa bs s

/-- The physical row of a core that holds a word of a physical tile register (R221, R222). -/
def tileKey (table : Vector (BitVec 32) 16) (core p w : Nat) : Nat :=
  remapped table 1 (core % 32) (tileRowOf p w / 512) (tileRowOf p w % 512)

/-- The rows of a core with the data of a physical tile register in them. -/
def putTile (table : Vector (BitVec 32) 16) (core p : Nat) (data rows : Memory) : Memory :=
  data.foldl (fun m c => m.write (8 * tileKey table core p (c.1 / 8) + c.1 % 8) c.2)
    (rows.filter fun c => !(List.range 512).any fun w => tileKey table core p w == c.1 / 8)

/-- A context leaves its tile core: the physical rows of its tile registers keep what it stored in them last (R314, R315). -/
def leaveRows (s : State) : State :=
  let h := s.hart
  if h.core % 32 = 31 then s
  else
    let table := (s.cluster (clusterNo h.core)).repair
    s.modCore h.core fun k =>
      { k with rows := (List.range h.ntiles).foldl (fun m i =>
          let t : TReg := Fin.ofNat 16 (16 - h.ntiles + i)
          putTile table h.core (physOf h t) (h.r.t.get t).data m) k.rows }

/-- End a context: its chunk is discarded, its lease ends with the copies into its rings, its token is free, pre-emption is no
longer pending for it, and its core may be cleared (R20, R38, R163, R235). A copy-in to scratchpad of an earlier chunk runs on
(DEDUCED, log 35). -/
def endContext (s : State) : State :=
  let s := leaveRows (endLease (discardChunk s))
  let s := { s with hart := { s.hart with run := .ended }, tokens := s.tokens.filter (· != tokenOf s.hart) }
  let s := s.modCap s.hart.cap fun c => { c with preempt := c.preempt.filter (· != s.hart.id) }
  releaseCore s.hart.core s

/-- End a context whose copy-in stops with it (R140). -/
def stopContext (s : State) : State := endContext (cancelCopyIns (fun c => c.hart == s.hart.id) s)

/-- The contexts of a capsule. -/
def State.hartsOf (s : State) (cap : Nat) : List Nat :=
  (s.harts.filter fun h => h.kind == .task && h.cap == cap && h.run != .ended).map Hart.id

/-- Every message and query of a capsule that no task has taken goes with it (R94, R298). -/
def dropMessages (cap : Nat) (s : State) : State :=
  let keep := fun (m : Msg) => m.cap != cap
  { s with net := s.net.filter keep, suspended := s.suspended.filter fun x => x.cap != cap, queries := s.queries.filter fun q => q.cap != cap,
           clusters := s.clusters.map fun (k : Cluster) => { k with park := k.park.filter keep },
           cores := s.cores.map fun (k : Core) =>
             if k.cap = some cap then { k with inbox := k.inbox.filter keep, boundRec := k.boundRec.filter fun x => x.2 != cap } else k }

/-- Abort a capsule (R227, R229, R298): its tasks stop and their chunks are discarded, leases end, armed launches and joins go,
and the first fault's report is written. A later fault only counts in NFLT. The completion record follows as an event. -/
def abortCapsule (cap code : Nat) (rep : Memory) (s : State) : State :=
  match s.cap? cap with
  | none => s
  | some c =>
    match c.state with
    | .ending _ => s.modCap cap fun c => { c with nflt := min 65535 (c.nflt + 1) }
    | _ =>
      let s := cancelCopyIns (fun c => c.cap == cap) (dropMessages cap s)
      let s := onHarts (s.hartsOf cap) endContext s
      let s := s.modCap cap fun c => { c with state := .ending code, joins := [], preempt := [], launch := none,
                                              report := (reportExtent c).isSome }
      match reportExtent c with
      | some (_, e) => deviceWrite cap e.base (rep.readBytes 0 512) { s with reports := (rep :: s.reports).take 256 }
      | none => s

/-- A capsule fault of the context that issues (R227 class C). -/
def capsuleFault (site : Site) (code : Code) (detail : Word) (s : State) : State :=
  abortCapsule s.hart.cap code.num (faultReport site code.num detail s) s

/-- The queue of the context's capsule, for the log. -/
def State.queueNo (s : State) : Nat :=
  match s.capsule with
  | some c => c.queue
  | none => 0xFFFF

/-- The low half of the capsule's tag, for the log (R307). -/
def State.ctag (s : State) : Nat :=
  match s.capsule with
  | some c => c.nonce.toNat % 2 ^ 32
  | none => 0

/-- s0 with RDL written into [58:57] (R84, R294). -/
def withRdl (r : Regs) (n : Nat) : Regs :=
  { r with s := r.s.set 0 (word ((r.s.get 0).toNat - bitsOf (r.s.get 0).toNat 58 57 * 2 ^ 57 + n % 4 * 2 ^ 57)) }

/-- A rollback-class error (R38, R227, R294): the report is retained and the error logged; the chunk is discarded and the task
restarts from its checkpoint with RDL in s0; the third failure of one chunk is a capsule fault. It restarts as an ordinary chunk, with its count
of squashes kept (R203) (DESIGN CHOICE, log 149). -/
def rollback (site : Site) (code : Code) (detail : Word) (s : State) : State :=
  let rep := faultReport site code.num detail s
  let s := s.logPart s.partition { code := code.num, kind := 0, core := s.hart.core, queue := s.queueNo, detail := detail, ctag := s.ctag }
  if 2 ≤ s.hart.rdl then capsuleFault site code.third detail s
  else
    let s := discardChunk s
    let s := { s with tokens := s.tokens.filter (· != tokenOf s.hart) }
    restoreCheckpoint (s.mod fun h => { h with rdl := h.rdl + 1, report := rep, ckpt := withRdl h.ckpt (h.rdl + 1),
                                               chunk := { h.chunk with exclusive := false } })

/-- Act on a context and on the other copy of its pair (R296). -/
def onPair (f : State → State) (s : State) : State :=
  match s.hart.partner with
  | some p => onHart p f (f s)
  | none => f s

/-- The other copy of the pair of the context that issues. -/
def State.otherCopy (s : State) : Option Hart := s.hart.partner.bind s.hart?

/-- Does a fault of the context that issues give way to a squash, because the reads of its open chunk, or of the other copy's, were overtaken
(R204, R296)? A chunk in exclusive mode takes its faults without the check. -/
def givesWay (s : State) : Bool :=
  !s.hart.chunk.exclusive && (overtaken s.hart || s.otherCopy.any overtaken)

/-- A pair mismatch (R230, R296): both copies go back to their checkpoints; the third in a row is PAIR_MISMATCH, unless the reads of a copy were
overtaken (R204). -/
def pairMismatch (site : Site) (s : State) : State :=
  if 2 ≤ s.hart.mismatches then
    if givesWay s then onPair squash s
    else
      let (d, s) := s.free
      capsuleFault site .pairMismatch d s
  else onPair (fun t => restoreCheckpoint ((discardChunk t).mod fun h => { h with mismatches := h.mismatches + 1 })) s

/-- An error of rollback class in a task (R38, R296): it restarts both copies of a pair; the third failure is one capsule fault. -/
def rollbackAll (site : Site) (code : Code) (detail : Word) (s : State) : State :=
  if 2 ≤ s.hart.rdl then rollback site code detail s else onPair (rollback site code detail) s

/-- The consequence of a fault's class for a task (R227). -/
def takeFault (site : Site) (code : Code) (detail : Word) (s : State) : State :=
  match code.cls with
  | .resolved => s.mod fun h => { h with run := .migrating (some detail) }
  | .rollback => rollbackAll site code detail s
  | _ => capsuleFault site code detail s

/-- A fault in one copy of a pair (R230): it waits for the other copy; the same code at the same PC is taken at once, anything
else is a mismatch. -/
def pairedFault (site : Site) (code : Code) (detail : Word) (taken : State → State) (p : Hart) (s : State) : State :=
  match p.run with
  | .pairFault c _ => if c = code.num ∧ p.r.pc = s.hart.r.pc then taken s else pairMismatch site s
  | .committing _ => if p.request.isSome then pairMismatch site s
      else s.mod fun h => { h with run := .pairFault code.num detail, request := some s.clock }
  | _ => s.mod fun h => { h with run := .pairFault code.num detail, request := some s.clock }

/-- Does a copy wait with a fault of its own for the other copy's (R230)? -/
def awaitsFault (h : Hart) : Bool :=
  match h.run with
  | .pairFault _ _ => true
  | _ => false

/-- Does a fault that the open chunk of the context that issues raises give way to a squash (R204)? Its own reads count, and those of a copy that
waits with a fault of its own, since then both are taken together (R230, R296). -/
def faultGivesWay (s : State) : Bool :=
  !s.hart.chunk.exclusive && (overtaken s.hart || s.otherCopy.any fun p => awaitsFault p && overtaken p)

/-- A fault of class C or B that the open chunk of the context that issues raises (R204, R228, R230): a chunk whose reads were overtaken
is squashed instead; flags that come before the fault have reached FLG (R342); in a pair it needs both copies. -/
def chunkFault (site : Site) (code : Code) (detail : Word) (taken : State → State) (s : State) : State :=
  if faultGivesWay s then onPair squash s
  else
    let s := drain s
    match s.hart.partner.bind s.hart? with
    | some p => pairedFault site code detail taken p s
    | none => taken s

/-- A fault of a task (R227): STAGING is resolved, and every other code passes the checks of a chunk's fault. -/
def taskFault (site : Site) (code : Code) (detail : Word) (s : State) : State :=
  if code.cls = .resolved then takeFault site code detail s else chunkFault site code detail (takeFault site code detail) s

/-- A firmware fault (R233): FWCODE, FWPC and FWDETAIL are written and firmware resumes at FWVEC; with a fault pending, it is a
double fault: the service core halts, and a package fatal error follows (R310). Firmware resumes at the physical address FWVEC: its
instructions are fetched untranslated until it clears FWCODE (R216) (DEDUCED, log 46). A fault inside REPF gives the PC of the source word
(R67); FWCODE, FWPC and FWDETAIL have no place for the pass (DEDUCED, log 60). The instruction that was interrupted is over, so RST is zero
(R18). -/
def firmwareFault (site : Site) (code : Code) (detail : Word) (s : State) : State :=
  let c := s.cluster s.here
  if c.fwcode ≠ 0 then { s.mod (fun h => { h with run := .halted }) with agenda := .fatal 1 :: s.agenda }
  else
    let t := s.modCluster s.here fun c => { c with fwcode := word code.num, fwpc := site.pc.getD s.hart.r.pc, fwdetail := detail }
    t.mod fun h => { h with run := .ready, r := { h.r with pc := c.fwvec, rst := 0 } }

/-- Saffron's own fault (R233), handled in ROM at an address the spec does not give (log 7); a double fault holds the package in
reset, until a warm or cold reset that management asks for (DEDUCED, log 123). -/
def saffronFault (site : Site) (code : Code) (detail : Word) (s : State) : State :=
  if s.saffron.fwcode ≠ 0 then { s.mod (fun h => { h with run := .halted }) with phase := .held }
  else
    let (pc, t) := s.free
    let t := { t with saffron := { t.saffron with fwcode := word code.num, fwpc := site.pc.getD s.hart.r.pc, fwdetail := detail } }
    t.mod fun h => { h with run := .ready, r := { h.r with pc := pc, rst := 0 } }

/-- TAKING AN EXCEPTION: the one operation that every fault of an instruction or an event goes through (R227, R233). A detail
that the spec does not state is a free value (log 7). -/
def raise (site : Site) (code : Code) (detail : Option Word) (s : State) : State :=
  let (d, s) := match detail with
    | some d => (d, s)
    | none => s.free
  match s.hart.kind with
  | .task => taskFault site code d s
  | .firmware => firmwareFault site code d s
  | .saffron => saffronFault site code d s

/-- The results that firmware leaves in s1 to s6 for a service request (R213): the spec gives no values, so they are free (log 7). -/
def serviceResults (s : State) : State :=
  (List.range 6).foldl (fun t i =>
    let (v, t) := t.free
    writeS (Fin.ofNat 32 (i + 1)) v t) s

/-! Issue. -/

/-- Who may issue an instruction (R61). -/
inductive Privilege where
  | open_ | service | security
deriving DecidableEq, Repr

/-- A source operand and its wait bit; `none` in a scalar's wait bit or a tile's stands for "blocks" (R49). -/
inductive Src where
  | s (r : SReg) (wait : Bool)
  /-- A tile register, of which the elements of its shape are read. -/
  | t (r : TReg) (wait : Bool)
  /-- A tile register that is read whole. -/
  | whole (r : TReg) (wait : Bool)
  /-- A tile register of which the instruction's own effect reads some words. -/
  | part (r : TReg) (wait : Bool)
  /-- A register of the accumulator group of a matrix command, which always blocks (R172, R173). -/
  | group (r : TReg)
deriving DecidableEq, Repr

/-- An instruction as the core issues it: what R51 checks before its own effect, and that effect. -/
structure Op where
  priv : Privilege := .open_
  /-- Exists in rotation clusters only (R176). -/
  rotation : Bool := false
  /-- Counts toward the safe-point distance: all but SAFE (R39). -/
  counted : Bool := true
  tiles : List TReg := []
  srcs : List Src := []
  /-- It sets PC itself. -/
  flow : Bool := false
  body : State → Run State

/-- Does the unit that issues permit the instruction (R61, R214)? Saffron is no service core, so the P instructions are not its (DEDUCED, log
116). -/
def permitted (h : Hart) : Privilege → Bool
  | .open_ => true
  | .service => h.kind == .firmware
  | .security => h.kind == .saffron

/-- Is a tile register allocated (R12)? -/
def allocated (h : Hart) (t : TReg) : Bool := decide (16 - h.ntiles ≤ t.val)

/-- Presence of one source (R16, R49): a clear wait bit blocks; a set one raises EMPTY_READ, with FLG.EMT set. -/
def present (x : Src) (s : State) : Run State :=
  let empty := fun (wait : Bool) (w : Wait) =>
    if wait then Except.error (.fault .emptyRead none (setFlags { emt := true } s)) else .error (.wait w s)
  match x with
  | .s r wait => if s.sfull r then .ok s else empty wait (.sreg r)
  | .t t wait => if (s.tile t).full then meetTile t s else empty wait (.treg t)
  | .whole t wait => if (s.tile t).full then meetWhole t s else empty wait (.treg t)
  | .part t wait => if (s.tile t).full then .ok s else empty wait (.treg t)
  | .group t => if (s.tile t).full then meetWhole t s else .error (.wait (.group t) s)

/-- Presence of all sources, in operand order. -/
def presentAll : List Src → State → Run State
  | [], s => .ok s
  | x :: xs, s => do
    let s ← present x s
    presentAll xs s

/-- A state from before an instruction of firmware, with what the memory has found and logged meanwhile (R256, R259) and the units it has
accessed. -/
def withFinds (s t : State) : State :=
  { s with fresh := t.fresh, parts := t.parts, poison := t.poison, padPoison := t.padPoison, bufPoison := t.bufPoison, faults := t.faults,
           sram := t.sram, exiting := t.exiting, used := t.used }

/-- A fault of firmware or of Saffron stops the instruction before any effect (R233), also where it had to wait: what stands is the flag that a
faulting read sets (R17), what the memory found, and the key slot that a failed KUNWRAP leaves zero (R224). A fault or a wait of a task
keeps the restart index and the rows of its tile (R128, R129). -/
def stopWhole (s : State) : Run State → Run State
  | .error (.fault c d t) =>
    if s.hart.kind = .task then .error (.fault c d t)
    else .error (.fault c d { (withFinds s t).modRegs (fun r => { r with flg := t.hart.r.flg }) with
      saffron := { s.saffron with keys := t.saffron.keys } })
  | .error (.wait w t) => .error (.wait w (if s.hart.kind = .task then t else withFinds s t))
  | r => r

/-- The checks of R51 before the instruction's own, in their order, and then its own effect. -/
def perform (o : Op) (s : State) : Run State :=
  stopWhole s <| if s.hart.kind = .task ∧ o.counted ∧ 4096 ≤ s.hart.sdist then .error (.fault .safeDistance none s)
  else if !permitted s.hart o.priv then .error (.fault .privileged none s)
  else if o.rotation && !rotation s.here then .error (.fault .noRotation none s)
  else if !(o.tiles.all fun t => allocated s.hart t) then .error (.fault .tileUnallocated none s)
  else do
    let s ← presentAll o.srcs s
    o.body s

/-- Advance PC (R62). -/
def advance (n : Nat) (s : State) : State := s.modRegs fun r => { r with pc := addOff r.pc n }

/-- Count an issued instruction toward the safe-point distance (R39). -/
def countIssue (s : State) : State :=
  if s.hart.kind = .task then s.mod fun h => { h with sdist := h.sdist + 1 } else s

/-- Block the context on a wait; a wait that goes on keeps the clock of its beginning (R39), also where the same instruction comes to wait
for another operand (DESIGN CHOICE, log 113). A wait for a speculative way has a clock of its own (R249). -/
def block (w : Wait) (s : State) : State :=
  s.mod fun h => { h with run := .blocked w, waitFrom := match h.run with
    | .blocked v => if w.isWay == v.isWay then h.waitFrom else s.clock
    | _ => s.clock }

/-- What an attempt comes to: the next state, the exception taken, the wait begun, or the stop. -/
def settle (site : Site) : Run State → Answer
  | .ok s => .next s
  | .error (.fault c d s) => .next (raise site c d s)
  | .error (.wait w s) => .next (block w s)
  | .error (.stop f) => .fault f

/-- The context issues again: it is not blocked any more. -/
def wake (s : State) : State :=
  match s.hart.run with
  | .blocked _ => s.mod fun h => { h with run := .ready }
  | _ => s

/-- An attempt to issue one instruction: its checks, its effect, the count and the advance of PC. A wait leaves the state of
the wait as it was, so that its clock stands. -/
def attempt (o : Op) (s : State) : Run State := do
  let t ← perform o s
  let t := wake t
  let t := if o.counted then countIssue t else t
  .ok (if o.flow then t else advance 4 t)

/-- The word of an instruction. -/
def wordOf (i : Instr) : Nat := (encode i).getD 0

/-- Issue one instruction (R50, R51). -/
def issue (i : Instr) (o : Op) (s : State) : Answer := settle { word := wordOf i } (attempt o s)

/-- An event acts on a context and gives the next state. -/
def event (f : State → State) (s : State) : Answer := .next (f s)

end Sys2Proof.Machine
end

