-- ==== Sys2Proof/Machine/Operands.lean ====
section
/-! DEFINITION. The operand forms: scalar and tile sources with their wait bits, immediates, branch targets and handles with an
offset (spec/02_formats_encodings.md R47, R49, R53, R54, R55). -/

namespace Sys2Proof.Machine

/-- Two scalar sources of the S3 layout (R49). -/
def srcAB (a b : SReg) (w v : Bool) : List Src := [.s a w, .s b v]

/-- The scalar sources a and b after a d field read as a source, which has no wait bit (R49). -/
def srcDAB (d a b : SReg) (w v : Bool) : List Src := [.s d false, .s a w, .s b v]

/-- The payload registers s24 to s29 of a message, which have no wait bits (R85). -/
def srcPayload : List Src := [.s 24 false, .s 25 false, .s 26 false, .s 27 false, .s 28 false, .s 29 false]

/-- The sign-extended 15-bit immediate of the SI layout (R53). -/
def imm15 (i : BitVec 15) : Word := i.signExtend 64

/-- The sign-extended 41-bit immediate of a LIMM pair (R63). -/
def imm41 (hi : BitVec 26) (lo : BitVec 15) : Word := (hi ++ lo).signExtend 64

/-- The signed value of an immediate field. -/
def signed {n : Nat} (i : BitVec n) : Int := i.toInt

/-- A branch or jump target: the handle of the branch word plus 4 times the displacement, on the offset bits (R54). -/
def target (pc : Word) (disp : Int) : Word := addOff pc (4 * disp)

/-- Set PC. -/
def setPc (pc : Word) (s : State) : State := s.modRegs fun r => { r with pc := pc }

/-- The handle of a scalar access: s(a) plus the signed byte offset, on the offset bits (R187). -/
def State.addr (s : State) (a : SReg) (off : Int) : Word := addOff (s.sreg a) off

/-- Is the offset of a handle a multiple of n (R187)? -/
def aligned (h : Word) (n : Nat) : Bool := handleOff h % n == 0

/-- An instruction that writes one scalar from the state, and never faults at execution (R71). -/
def opScalar (d : SReg) (srcs : List Src) (f : State → Word) : Op := { srcs := srcs, body := fun s => .ok (writeS d (f s) s) }

/-- A fault with the detail that the spec states. -/
def faultAt {α : Type} (c : Code) (d : Word) (s : State) : Run α := .error (.fault c (some d) s)

/-- A fault whose detail the spec does not state (log 7). -/
def faultOf {α : Type} (c : Code) (s : State) : Run α := .error (.fault c none s)

/-- Go on when a check holds; else raise the fault. -/
def ensure (p : Bool) (c : Code) (s : State) : Run Unit := if p then .ok () else .error (.fault c none s)

/-- Go on when a check holds; else raise the fault with this detail. -/
def ensureAt (p : Bool) (c : Code) (d : Word) (s : State) : Run Unit := if p then .ok () else .error (.fault c (some d) s)

/-- A list as a vector of eight-byte words: the `n` words of bytes. -/
def wordsOf (n : Nat) (bs : List Byte) : Vector Word n := Vector.ofFn fun i => word (leNat ((bs.drop (8 * i.val)).take 8))

end Sys2Proof.Machine
end

