-- ==== Sys2Proof/Machine/Fetch.lean ====
section
/-! DEFINITION. The read-only path (spec/08 R189, R190) and the fetch of instruction words (spec/01 R24, R33, spec/02 R50, R63,
R65). -/

namespace Sys2Proof.Machine

/-- The committed bytes of a 256-byte line. -/
def lineBytes (s : State) (line : Nat) : List Byte := s.mem.readBytes (256 * line) 256

/-- Is a read-only copy one of a line for the capsule of the context that issues? -/
def ownCopy (s : State) (line : Nat) (c : RoCopy) : Bool := c.line == line && c.cap == s.hart.cap

/-- Make sure that the cluster holds a read-only copy of a line for the capsule (R189). A copy that is there is used as it is or filled again,
whichever the free choice says: both values are permitted (log 15). -/
def fillLine (line : Nat) (s : State) : State :=
  let cl := s.here
  let copy : RoCopy := { cap := s.hart.cap, line := line, data := lineBytes s line }
  match (s.cluster cl).ro.find? (ownCopy s line) with
  | none => s.modCluster cl fun c => { c with ro := copy :: c.ro }
  | some _ =>
    let t := { s with fresh := s.fresh + 1 }
    if Config.freeBool s.fresh then t
    else t.modCluster cl fun c => { c with ro := copy :: c.ro.filter fun x => !ownCopy s line x }

/-- A byte of the cluster's read-only copies. -/
def roByte (s : State) (pa : Nat) : Byte :=
  match (s.cluster s.here).ro.find? (ownCopy s (pa / 256)) with
  | some c => c.data.getD (pa % 256) 0
  | none => s.mem.read pa

/-- Read through the cluster's read-only cache (R189, R260): nothing enters the read signature. -/
def readOnly (pa n : Nat) (s : State) : Run (List Byte × State) := do
  let s ← meetLines s.partition pa n s
  match (List.range n).findSome? fun i => (s.poison.find? fun p => p.1 == (pa + i) / 32).map Prod.snd with
  | some true => .error (.fault .integrity none s)
  | some false => .error (.fault .poison none s)
  | none =>
    let s := (unitsOf 256 pa n).foldl (fun t l => fillLine l t) s
    .ok ((List.range n).map fun i => roByte s (pa + i), s)

/-- Read through a handle on the read-only path. -/
def loadRo (h : Word) (n : Nat) (use : Use) (s : State) : Run (List Byte × State) :=
  match s.hart.kind with
  | .task => do
    let (pa, s) ← reach h n use s
    readOnly pa n s
  | _ => load h n use s

/-- Refill the read-only copies that a cluster holds for a capsule: none is older than the capsule's first task in the cluster (R189). -/
def refreshCopies (cl cap : Nat) (s : State) : State :=
  s.modCluster cl fun c => { c with ro := c.ro.map fun x => if x.cap = cap then { x with data := lineBytes s x.line } else x }

/-- Is a context inside a REPF whose replays wait (R66)? Its sequencer holds the captured words. -/
def inReplay (h : Hart) : Bool :=
  bitOf (rstGet h.r.rst 4 1) 0 && (match h.run with
    | .blocked (.sreg _) | .blocked (.treg _) => true
    | _ => false) &&
  h.fetched.any fun p => p.1 == h.r.pc && match (decodeWord p.2).toOption with
    | some (.repf ..) => true
    | _ => false

/-- Words that a context of a cluster holds fetched ahead are fetched again (R190); the words that a REPF has captured are in its sequencer buffer
(R65). -/
def dropFetched (cl : Nat) (h : Hart) : Hart :=
  if clusterNo h.core = cl ∧ h.kind ≠ .saffron ∧ ¬ inReplay h then { h with fetched := [] } else h

/-- Drop the cluster's copies of the lines of a range, and the words that its other contexts hold fetched ahead (R190). -/
def dropLines (pa n : Nat) (s : State) : State :=
  { s.modCluster s.here (fun c => { c with ro := c.ro.filter fun x => decide (x.line < pa / 256) || decide ((pa + n - 1) / 256 < x.line) }) with
    parked := s.parked.map (dropFetched s.here) }

/-- Fetch one instruction word (R24, R189). Saffron's program stands in its private SRAM, at PC bits [19:0] (log 16). A PC that is
no multiple of 4 is fetched as it stands: the four bytes from it upward (DESIGN CHOICE, log 103). -/
def fetchWord (pc : Word) (s : State) : Run (Nat × State) := do
  let h := if s.hart.kind = .saffron then word (bitsOf pc.toNat 19 0) else pc
  let (bs, s) ← loadRo h 4 .exec s
  .ok (leNat bs, s)

/-- The word at a PC for the instruction that is being issued: one that was fetched for it stays, however long it waits (R50, R65). -/
def issueWord (pc : Word) (s : State) : Run (Nat × State) :=
  match s.hart.fetched.find? fun p => p.1 == pc with
  | some p => .ok (p.2, s)
  | none => do
    let (w, s) ← fetchWord pc s
    .ok (w, s.mod fun h => { h with fetched := (pc, w) :: h.fetched })

/-- Begin to issue: only a context that waits at issue keeps what was fetched. -/
def startIssue (s : State) : State :=
  match s.hart.run with
  | .blocked _ => s
  | _ => s.mod fun h => { h with fetched := [] }

/-- Fetch at PC and decode (R50). A word that does not decode is none. -/
def fetch (s : State) : Run (Nat × Option Instr × State) := do
  let (w, s) ← issueWord s.hart.r.pc s
  .ok (w, (decodeWord w).toOption, s)

/-- The tile count of a handler header word, or none when a reserved bit is set
(R33). -/
def headerTiles (w : Nat) : Option Nat := if w / 16 % 2 ^ 28 = 0 then some (w % 16 + 1) else none

end Sys2Proof.Machine
end

