-- ==== Sys2Proof/Machine/SafePoint.lean ====
section
/-! DEFINITION. Safe points and continuation records (spec/01 R39 to R43, R343, spec/05 R140, spec/06 R157, R158, spec/07 R184,
spec/11 R235, R236). -/

namespace Sys2Proof.Machine

/-- Is pre-emption pending for the capsule of the context that issues (R235)? It is until every task that ran when it was raised
has ended, and tasks that start meanwhile are subject to it. -/
def preemptPending (s : State) : Bool :=
  match s.capsule with
  | some c => !c.preempt.isEmpty
  | none => false

/-- The continuation extent of a capsule: index and descriptor (R31). -/
def contExtent (c : Capsule) : Option (Nat × Extent) :=
  ((List.range c.exts.length).zip c.exts).find? fun p => p.2.kind == 4

/-- The instruction that stands at a handle in committed memory, for a look ahead that reads nothing of the chunk. -/
def peek (s : State) (pc : Word) : Option Instr :=
  match checkExtents s.extents pc 4 .exec with
  | .ok pa => (decodeWord (s.mem.readLE pa 4)).toOption
  | .error _ => none

/-- Is the instruction at a resume PC one whose messages come to this core only (R158)? -/
def portInstr (r : Regs) : Option Instr → Bool
  | some (.recv _ _) | some (.trecv _ _) | some (.tredx _ _ _ _) => true
  | some (.wait _ b _ _) => (r.s.get b).toNat % 16 != 0
  | _ => false

/-- The entries of a core's ports that stay queued when the open chunk commits: port number and message. -/
def queuedEntries (s : State) : List (Nat × Msg) :=
  ((List.range 4).map fun n => (((s.core s.hart.core).ports.get (Fin.ofNat 4 n)).filter fun e => e.taken != some s.hart.id).map
    fun e => (n, e.msg)).flatten

/-- Do the entries travel in the record: is the task its capsule's last on the core, and does the core not stay (R343)? -/
def takesPorts (s : State) (r : Regs) (pc : Word) : Bool :=
  (tasksOn s s.hart.cap s.hart.core).length ≤ 1 && !portInstr r (peek s pc) && !coreStays s s.hart.cap s.hart.core

/-- Tile registers of a mask that are allocated (R39, R97). -/
def liveMask (h : Hart) (mask : BitVec 16) : Nat :=
  (List.range 16).foldl (fun acc i => if mask.getLsbD i && decide (16 - h.ntiles ≤ i) then acc + 2 ^ i else acc) 0

/-- The bits of a 16-bit mask, in ascending order. -/
def maskBits (m : Nat) : List Nat := (List.range 16).filter fun i => bitOf m i

/-- The length of a record (R40, R41). -/
def recordLength (live ports : Nat) : Nat := 0x400 + 4096 * live + 4160 * ports

/-- Bytes of a sparse memory put at an address. -/
def Memory.paste (m : Memory) (a : Nat) (d : Memory) : Memory := d.foldl (fun m c => m.write (a + c.1) c.2) m

/-- A queued data message as a record stores it: 64 bytes, whose first eight hold the tile state, then 4 KiB (R343). -/
def portImage (m : Msg) : Memory :=
  let st := match m.tile with
    | some (_, shape) => 0x10000 + shape.toNat
    | none => 0
  let h := ((Memory.writeLE [] 0 8 st).writeLE 8 8 m.dest.toNat)
  let h := (List.range 6).foldl (fun h i => h.writeLE (16 + 8 * i) 8 (m.payload.get (Fin.ofNat 6 i)).toNat) h
  match m.tile with
  | some (d, _) => h.paste 64 d
  | none => h

/-- The fixed part of a continuation record (R41, R184, R236), from registers and a lease status: those that stand, or the checkpoint's. -/
def recordHead (s : State) (r : Regs) (status : BitVec 128) (rst : BitVec 512) (live len : Nat) (pc : Word) (ports : List (Nat × Msg)) : Memory :=
  let h := s.hart
  let lease := match h.rebind with
    | some b => b.lease
    | none => status
  let defn := fun i => match h.rebind with
    | some b => b.defs.get (Fin.ofNat 16 i)
    | none => ((s.cluster s.here).ring i).defn
  let kfl := (if leaseHeld lease then 1 else 0) + (if h.partner.isSome then 2 else 0) + (if rst = 0 then 0 else 4)
  let ctag := match s.capsule with
    | some c => c.nonce
    | none => 0
  let m := (((Memory.writeLE [] 0 4 len).writeLE 4 2 live).writeLE 6 1 h.ntiles).writeLE 7 1 kfl
  let m := (((m.writeLE 8 8 pc.toNat).writeLE 0x10 8 r.flg.toNat).writeLE 0x18 8 h.ranks.toNat).writeLE 0x20 8 ctag.toNat
  let m := (m.writeLE 0x40 64 rst.toNat).writeLE 0x80 16 lease.toNat
  let m := (List.range 16).foldl (fun m i =>
    let d := defn i
    if leaseHeld lease && bitOf (leaseMask lease) i then m.writeLE (0x100 + 8 * i) 8 (withTail d (ringHead d)).toNat else m) m
  let m := (List.range 32).foldl (fun m i => m.writeLE (0x180 + 8 * i) 8 (r.s.get (Fin.ofNat 32 i)).toNat) m
  let m := (List.range 8).foldl (fun m i => m.writeLE (0x280 + 16 * i) 16 (r.p.get (Fin.ofNat 8 i)).toNat) m
  let own := fun i => decide (16 - h.ntiles ≤ i)
  let m := (List.range 16).foldl (fun m i =>
    if own i then m.writeLE (0x300 + 2 * i) 2 (r.t.get (Fin.ofNat 16 i)).shape.toNat else m) m
  let tpres := (List.range 16).foldl (fun acc i => if own i && (r.t.get (Fin.ofNat 16 i)).full then acc + 2 ^ i else acc) 0
  let m := (m.writeLE 0x320 4 r.sfull.toNat).writeLE 0x324 2 tpres
  (List.range 4).foldl (fun m n => m.writeLE (0x328 + n) 1 (ports.countP fun p => p.1 == n)) m

/-- A whole continuation record. -/
def recordImage (s : State) (r : Regs) (status : BitVec 128) (rst : BitVec 512) (live : Nat) (pc : Word) (ports : List (Nat × Msg)) : Memory :=
  let tiles := maskBits live
  let len := recordLength tiles.length ports.length
  let m := recordHead s r status rst live len pc ports
  let m := (List.range tiles.length).foldl (fun m i =>
    m.paste (0x400 + 4096 * i) (r.t.get (Fin.ofNat 16 (tiles.getD i 0))).data) m
  (List.range ports.length).foldl (fun m i => match ports[i]? with
    | some p => m.paste (0x400 + 4096 * tiles.length + 4160 * i) (portImage p.2)
    | none => m) m

/-- Where the next record goes: the allocation offset, rounded up, when a record of this length fits (R40). A header with a nonzero reserved byte
is refused whole (R7): it takes no record (DESIGN CHOICE, log 112). -/
def recordPlace (s : State) (e : Extent) (len : Nat) : Option Nat :=
  let off := (s.mem.readLE e.base 8 + 255) / 256 * 256
  if off + len ≤ e.length ∧ (s.mem.readBytes (e.base + 0x10) 0xF0).all (· == 0) = true then some off else none

/-- Log CONT_SPACE, and let the task run to its end exempt from pre-emption (R40). -/
def noRoom (s : State) : State :=
  let s := s.logPart s.partition { code := Code.contSpace.num, kind := 1, core := s.hart.core, queue := s.queueNo, ctag := s.ctag }
  s.mod fun h => { h with exempt := true }

/-- Does the record of a safe point at this state fit? None where the capsule cannot be pre-empted. -/
def roomFor (s : State) (r : Regs) (live : Nat) (pc : Word) : Option Bool :=
  match s.capsule.bind contExtent with
  | none => none
  | some (_, e) =>
    let ports := if takesPorts s r pc then (queuedEntries s).length else 0
    some (recordPlace s e (recordLength (maskBits live).length ports)).isSome

/-- Does a safe point find room for its record (R39, R40)? None where it is not to be taken: without pre-emption pending, by an exempt task, or
without a KIND 4 extent. -/
def safeRoom (mask : BitVec 16) (pc : Word) (s : State) : Option Bool :=
  if !preemptPending s || s.hart.exempt then none else roomFor s s.hart.r (liveMask s.hart mask) pc

/-- A safe point that may be taken (R39, R40), by SAFE or in a wait: with room for the record the task begins its commit; without room it goes
on, exempt. -/
def trySafe (mask : BitVec 16) (pc : Word) (wait : Option Wait) (s : State) : State :=
  match safeRoom mask pc s with
  | none => s
  | some false => noRoom s
  | some true => s.mod fun h => { h with run := .committing (.safe mask pc wait), waitFrom := if wait.isSome then h.waitFrom else s.clock }

/-- How a task goes on whose safe point is not taken: it waits where it waited, or issues (R40). -/
def afterSafe : Option Wait → RunState
  | some (.stage b) => .staging b
  | some w => .blocked w
  | none => .ready

/-- Its PC then: a task that waits for a place of its service core has moved past MIGR. -/
def afterPc (wait : Option Wait) (pc : Word) : Word :=
  match wait with
  | some (.place none) => addOff pc 4
  | _ => pc

/-- The hint of a continuation: the cluster, no core, radius 15, WAKE (R42). -/
def contHint (cluster : Nat) : BitVec 17 :=
  BitVec.ofNat 17 (cluster / 32 + 4 * (cluster % 8) + 32 * (cluster / 8 % 4) + 128 * 31 + 4096 * 15 + 65536)

/-- Write the record at the place found, count it in the header, and send the continuation message (R39, R40, R42, R158). Its hint names the
cluster in which the safe point is taken, for a task that was itself resumed elsewhere too (DESIGN CHOICE, log 129). The record of a
migrated task that stands at a port instruction is bound to its service core, as that of any task to its core, and no service core takes a
continuation (DESIGN CHOICE, log 130). The device keeps the task's number and its counts of fences with the record (DEDUCED, log 104). -/
def writeRecord (x : Nat) (e : Extent) (off : Nat) (image : Memory) (len : Nat) (bound paired : Bool) (s : State) : State :=
  let cap := s.hart.cap
  let count := s.mem.readLE (e.base + 8) 8
  let s := deviceWrite cap (e.base + off) (image.readBytes 0 len) s
  let s := deviceWrite cap e.base (leBytes 8 (off + len) ++ leBytes 8 (count + 1)) s
  let m : Msg := { kind := .continuation, cap := cap, entry := mkHandle x off, dest := 0, payload := Vector.replicate 6 0, tile := none,
                   src := 0, ranks := s.hart.ranks, sender := none, bound := if bound then some s.hart.core else none,
                   tiles := s.hart.ntiles, hint := contHint s.here, paired := paired }
  let h := s.hart
  let s := { s with net := s.net ++ [m],
                    suspended := s.suspended ++ [{ record := e.base + off, cap := cap, task := h.task, fenceH := h.fenceH, fenceX := h.fenceX }] }
  if bound then s.modCore s.hart.core fun k => { k with boundRec := k.boundRec ++ [(m.entry, cap)] } else s

/-- Has a context a released copy-out that has not run to its end (R140)? -/
def copyOuts (s : State) (id : Nat) : Bool :=
  (s.clusters.any fun k => (k.copies ++ k.copyWait).any fun c => c.hart == id && !c.mode.isIn) ||
  s.heldx.any fun x => match x.2.2 with
    | .copyOut c => c.hart == id
    | _ => false

/-- The end of a taken safe point: the record is written from `r`, with the copy in flight snapshotted; then the task ends
(R39, R43, R140, R184, R343). Copy-outs run on, and keep the slot until they have ended (R140). -/
def finishSafe (r : Regs) (status : BitVec 128) (rst : BitVec 512) (live : Nat) (pc : Word) (wait : Option Wait) (s : State) : State :=
  match s.capsule.bind contExtent with
  | none => s
  | some (x, e) =>
    let moved := takesPorts s r pc
    let ports := if moved then queuedEntries s else []
    let len := recordLength (maskBits live).length ports.length
    match recordPlace s e len with
    | none => noRoom (s.mod fun h => { h with run := afterSafe wait, r := { h.r with pc := afterPc wait pc } })
    | some off =>
      let image := recordImage s r status rst live pc ports
      let s := writeRecord x e off image len (portInstr r (peek s pc)) s.hart.partner.isSome s
      let s := if moved then s.modCore s.hart.core fun k => { k with ports := Vector.replicate 4 [] } else s
      let s := if copyOuts s s.hart.id then
          s.modCore s.hart.core fun k => { k with lingering := k.lingering ++ [(s.hart.id, s.hart.ntiles)] }
        else s
      stopContext s

end Sys2Proof.Machine
end

