-- ==== Sys2Proof/Machine/Control.lean ====
section
/-! DEFINITION. Branches, jumps, NOP, the end of a task, safe points, WAIT and migration
(spec/01 R39, R44, spec/02 R62, spec/03 R78, R95 to R99). -/

namespace Sys2Proof.Machine

/-- A branch: to its target when the condition holds, else to the next word. Both operands block until full (R49, R54, R78). -/
def opBranch (a b : SReg) (j : BitVec 13) (cond : Word → Word → Bool) : Op :=
  { srcs := [.s a false, .s b false], flow := true,
    body := fun s => .ok (setPc (if cond (s.sreg a) (s.sreg b) then target s.hart.r.pc j.toInt else addOff s.hart.r.pc 4) s) }

/-- BR.EQ (R78): branches when a = b. -/
def execBrEq (a b : SReg) (j : BitVec 13) (s : State) : Answer := issue (.brEq a b j) (opBranch a b j fun x y => x == y) s

/-- BR.NE (R78): branches when a and b differ. -/
def execBrNe (a b : SReg) (j : BitVec 13) (s : State) : Answer := issue (.brNe a b j) (opBranch a b j fun x y => x != y) s

/-- BR.LT (R78): branches when a < b, signed. -/
def execBrLt (a b : SReg) (j : BitVec 13) (s : State) : Answer := issue (.brLt a b j) (opBranch a b j fun x y => x.slt y) s

/-- BR.GE (R78): branches when a ≥ b, signed. -/
def execBrGe (a b : SReg) (j : BitVec 13) (s : State) : Answer := issue (.brGe a b j) (opBranch a b j fun x y => !x.slt y) s

/-- BR.LTU (R78): branches when a < b, unsigned. -/
def execBrLtu (a b : SReg) (j : BitVec 13) (s : State) : Answer := issue (.brLtu a b j) (opBranch a b j fun x y => x.ult y) s

/-- BR.GEU (R78): branches when a ≥ b, unsigned. -/
def execBrGeu (a b : SReg) (j : BitVec 13) (s : State) : Answer := issue (.brGeu a b j) (opBranch a b j fun x y => !x.ult y) s

/-- J (R78). -/
def opJ (j : BitVec 26) : Op := { flow := true, body := fun s => .ok (setPc (target s.hart.r.pc j.toInt) s) }

/-- J (R78): to the target. -/
def execJ (j : BitVec 26) (s : State) : Answer := issue (.j j) (opJ j) s

/-- JL (R54, R78). -/
def opJl (j : BitVec 26) : Op :=
  { flow := true, body := fun s => .ok (setPc (target s.hart.r.pc j.toInt) (writeS 31 (addOff s.hart.r.pc 4) s)) }

/-- JL (R54, R78): to the target, with the handle of the next word in s31. -/
def execJl (j : BitVec 26) (s : State) : Answer := issue (.jl j) (opJl j) s

/-- JR (R78). -/
def opJr (a : SReg) (w : Bool) : Op := { srcs := [.s a w], flow := true, body := fun s => .ok (setPc (s.sreg a &&& ~~~3) s) }

/-- JR (R78): to s(a) with bits [1:0] cleared. -/
def execJr (a : SReg) (w : Bool) (s : State) : Answer := issue (.jr a w) (opJr a w) s

/-- NOP (R62). -/
def opNop : Op := { body := fun s => .ok s }

/-- NOP (R62): only PC advances. -/
def execNop (s : State) : Answer := issue .nop opNop s

/-- Is the context a task? Firmware outside tasks has no chunk and no capsule (log 17). -/
def State.isTask (s : State) : Bool := s.hart.kind == .task

/-- DONE (R95): the task asks for its commit; PC stays at the committing instruction (R345). -/
def opDone : Op :=
  { flow := true, body := fun s => .ok (if s.isTask then s.mod fun h => { h with run := .committing .done, waitFrom := s.clock } else advance 4 s) }

/-- DONE (R95). -/
def execDone (s : State) : Answer := issue .done opDone s

/-- The message that CONT sends to its own core (R96): TAG from s(b)[15:0], payload from s24 to s29. A migrated task's is bound to the
service core, where R13 lets no handler start (DEDUCED, log 117). -/
def contMessage (a b : SReg) (tiles : Nat) (s : State) : Msg :=
  { kind := .cont, cap := s.hart.cap, entry := s.sreg a, dest := word ((s.sreg b).toNat % 65536 * 2 ^ 48),
    payload := Vector.ofFn fun i => s.hart.r.s.get (Fin.ofNat 32 (24 + i.val)), tile := none, src := BitVec.ofNat 13 s.hart.core,
    ranks := s.hart.ranks, sender := some s.hart.task, bound := some s.hart.core, tiles := tiles, hint := 0,
    paired := s.hart.partner.isSome }

/-- CONT (R96): the handler header is checked as for SEND; then the task asks for its commit. Its message is none of the 32 that R36 lets a
chunk hold (DESIGN CHOICE, log 114). -/
def opCont (a b : SReg) (w v : Bool) : Op :=
  { srcs := srcAB a b w v ++ srcPayload, flow := true,
    body := fun s => do
      let pa ← checkAccess s (s.sreg a) 4 .exec
      let tiles := s.mem.readLE pa 1 % 16 + 1
      .ok (if s.isTask then s.mod fun h => { h with run := .committing (.cont (contMessage a b tiles s)), waitFrom := s.clock } else advance 4 s) }

/-- CONT (R96). -/
def execCont (a b : SReg) (w v : Bool) (s : State) : Answer := issue (.cont a b w v) (opCont a b w v) s

/-- SAFE (R39, R97): the safe-point distance is zero; with pre-emption pending and room for the record, the safe point is taken
and resumes at the next word. -/
def opSafe (m : BitVec 16) : Op :=
  { counted := false, flow := true,
    body := fun s =>
      let next := addOff s.hart.r.pc 4
      let z := s.mod fun h => { h with sdist := 0 }
      .ok (if safeRoom m next z = some true then trySafe m next none z else setPc next (trySafe m next none z)) }

/-- SAFE (R39, R97). -/
def execSafe (m : BitVec 16) (s : State) : Answer := issue (.safe m) (opSafe m) s

/-- Does a data port hold an entry that no uncommitted chunk on the core has consumed (R87)? -/
def portReady (s : State) (n : Nat) : Bool := ((s.core s.hart.core).ports.get (Fin.ofNat 4 n)).any fun e => e.taken.isNone

/-- The condition that WAIT waits for (R98). -/
def waitDone (s : State) (until_ : Word) (mask : Nat) : Bool :=
  until_.ule s.now || (List.range 4).any fun n => bitOf mask n && portReady s n

/-- WAIT (R98). -/
def opWait (a b : SReg) (w v : Bool) : Op :=
  { srcs := srcAB a b w v,
    body := fun s =>
      let mask := (s.sreg b).toNat % 16
      if waitDone s (s.sreg a) mask then .ok s else .error (.wait (.wait (s.sreg a) mask) s) }

/-- WAIT (R98): until TIME reaches s(a) or a selected port holds an entry. -/
def execWait (a b : SReg) (w v : Bool) (s : State) : Answer := issue (.wait a b w v) (opWait a b w v) s

/-- MIGR (R44, R99): the task leaves for its service core with the next word as PC; on a service core it raises MIGR_STATE. -/
def opMigr : Op :=
  { body := fun s =>
      if s.isTask && !s.hart.migrated then .ok (s.mod fun h => { h with run := .migrating none }) else faultOf .migrState s }

/-- MIGR (R44, R99). -/
def execMigr (s : State) : Answer := issue .migr opMigr s

/-- MRET (R44, R99): the migrated task queues for a tile core; on a tile core it raises MIGR_STATE. Firmware outside tasks has
nothing to return (log 17). -/
def opMret : Op :=
  { body := fun s => if s.isTask && s.hart.migrated then .ok (s.mod fun h => { h with run := .requeued none }) else faultOf .migrState s }

/-- MRET (R44, R99). -/
def execMret (s : State) : Answer := issue .mret opMret s

end Sys2Proof.Machine
end

