-- ==== Sys2Proof/Machine/Numeric.lean ====
section
/-! DEFINITION. Number formats and arithmetic rules (spec/04_number_formats.md R101 to R117): exact values, one rounding, the
flags of each operation. -/

namespace Sys2Proof.Machine.Num

/-- The element size of a format code in bytes (R101). -/
def size (f : Nat) : Nat :=
  match f with
  | 1 | 4 => 2
  | 2 | 5 => 4
  | 3 => 8
  | _ => 1

/-- Is the code one of an integer format? -/
def isInt (f : Nat) : Bool := decide (f ≤ 3)

/-- The bits of an element of a format. -/
def width (f : Nat) : Nat := 8 * size f

/-- An exact value: a NaN, an infinity, or (−1)^neg · m · 2^e. -/
inductive Val where
  | nan (signalling : Bool)
  | inf (neg : Bool)
  | fin (neg : Bool) (m : Nat) (e : Int)
deriving DecidableEq, Repr

/-- A signed reading of n bits (R4). -/
def toSigned (n v : Nat) : Int := if v % 2 ^ n < 2 ^ (n - 1) then Int.ofNat (v % 2 ^ n) else Int.ofNat (v % 2 ^ n) - 2 ^ n

/-- The n bits of a number modulo 2^n. -/
def ofSigned (n : Nat) (x : Int) : Nat := (x % 2 ^ n).toNat

/-- The value of an integer. -/
def ofInt (x : Int) : Val := .fin (decide (x < 0)) x.natAbs 0

/-- The value of a binary32 pattern (R103). -/
def ofF32 (v : Nat) : Val :=
  let neg := bitOf v 31
  let e := bitsOf v 30 23
  let f := bitsOf v 22 0
  if e = 255 then (if f = 0 then .inf neg else .nan (!bitOf v 22))
  else if e = 0 then .fin neg f (-149) else .fin neg (f + 2 ^ 23) (Int.ofNat e - 150)

/-- The value of an E4M3 byte (R108). Its NaNs are quiet. -/
def ofE4 (v : Nat) : Val :=
  let neg := bitOf v 7
  let e := bitsOf v 6 3
  let f := bitsOf v 2 0
  if e = 15 ∧ f = 7 then .nan false
  else if e = 0 then .fin neg f (-9) else .fin neg (f + 8) (Int.ofNat e - 10)

/-- The value of an E8M0 byte (R110). -/
def ofE8 (v : Nat) : Val := if v % 256 = 255 then .nan false else .fin false 1 (Int.ofNat (v % 256) - 127)

/-- The value of an element of a format. -/
def value (f v : Nat) : Val :=
  match f with
  | 4 => ofF32 (v % 65536 * 65536)
  | 5 => ofF32 v
  | 6 => ofE4 v
  | 7 => ofE8 v
  | _ => ofInt (toSigned (width f) v)

/-- The rounding modes (R113); stochastic rounding carries its draw. -/
inductive Mode where
  | rne | rz | rup | rdn
  | rs (draw : Nat)
deriving DecidableEq, Repr

/-- Does a magnitude of q + r / 2^sh, with r not zero, round up to q + 1 (R113)? -/
def roundsUp (mode : Mode) (neg : Bool) (q r sh : Nat) : Bool :=
  match mode with
  | .rne => decide (2 ^ sh < 2 * r) || (2 * r == 2 ^ sh && q % 2 == 1)
  | .rz => false
  | .rup => !neg
  | .rdn => neg
  | .rs u => decide (u * 2 ^ sh < r * 2 ^ 32)

/-- A magnitude m · 2^e as a multiple of 2^lsb, and was it inexact? -/
def quantise (mode : Mode) (neg : Bool) (m : Nat) (e lsb : Int) : Nat × Bool :=
  if lsb ≤ e then (m * 2 ^ (e - lsb).toNat, false)
  else
    let sh := (lsb - e).toNat
    let q := m / 2 ^ sh
    let r := m % 2 ^ sh
    (if r ≠ 0 ∧ roundsUp mode neg q r sh = true then q + 1 else q, decide (r ≠ 0))

/-- A floating format: precision p, weight of the least subnormal bit, and the pattern of infinity (R103, R108). -/
structure Fp where
  p : Nat
  qmin : Int
  inf : Nat
  sign : Nat
  nan : Nat

/-- BF16 and FP32. -/
def fpOf (f : Nat) : Fp :=
  if f = 4 then { p := 8, qmin := -133, inf := 0x7F80, sign := 0x8000, nan := 0x7FC0 }
  else { p := 24, qmin := -149, inf := 0x7F800000, sign := 0x80000000, nan := 0x7FC00000 }

/-- The pattern of a rounded magnitude, its exponent range unbounded above. -/
def magnitude (fp : Fp) (mode : Mode) (neg : Bool) (m : Nat) (e : Int) : Nat × Bool :=
  if m = 0 then (0, false)
  else
    let top := Int.ofNat (Nat.log2 m) + 1 + e - Int.ofNat fp.p
    let lsb := if top < fp.qmin then fp.qmin else top
    let (n, inx) := quantise mode neg m e lsb
    ((lsb - fp.qmin).toNat * 2 ^ (fp.p - 1) + n, inx)

/-- What an overflow gives (R104). -/
def overflow (fp : Fp) (mode : Mode) (neg : Bool) : Nat :=
  match mode with
  | .rz => fp.inf - 1
  | .rup => if neg then fp.inf - 1 else fp.inf
  | .rdn => if neg then fp.inf else fp.inf - 1
  | _ => fp.inf

/-- Round an exact value to BF16 or FP32 (R104, R105). -/
def roundFp (f : Nat) (mode : Mode) : Val → Nat × Flags
  | .nan s => ((fpOf f).nan, { inv := s })
  | .inf neg => ((fpOf f).inf + (if neg then (fpOf f).sign else 0), {})
  | .fin neg m e =>
    let fp := fpOf f
    let s := if neg then fp.sign else 0
    let (n, inx) := magnitude fp mode neg m e
    if fp.inf ≤ n then (overflow fp mode neg + s, { inx := true }) else (n + s, { inx := inx })

/-- Round an exact value to E4M3, which saturates (R109). -/
def roundE4 (mode : Mode) : Val → Nat × Flags
  | .nan s => (0x7F, { inv := s })
  | .inf neg => (if neg then 0xFE else 0x7E, { sat := true, inx := true })
  | .fin neg m e =>
    let s := if neg then 0x80 else 0
    let (n, inx) := magnitude { p := 4, qmin := -9, inf := 0x7F, sign := 0x80, nan := 0x7F } mode neg m e
    if 0x7E < n then (0x7E + s, { sat := true, inx := true }) else (n + s, { inx := inx })

/-- Round an exact value to E8M0 (R111). -/
def roundE8 (mode : Mode) : Val → Nat × Flags
  | .nan _ => (0xFF, { inv := true })
  | .inf neg => if neg then (0xFF, { inv := true }) else (0xFE, { sat := true, inx := true })
  | .fin neg m e =>
    if neg ∨ m = 0 then (0xFF, { inv := true })
    else
      let k := Nat.log2 m
      let r := m - 2 ^ k
      let up : Bool := match mode with
        | .rne => decide (2 ^ k ≤ 2 * r)
        | .rz | .rdn => false
        | .rup => true
        | .rs u => decide (u * 2 ^ k < r * 2 ^ 32)
      let x : Int := Int.ofNat k + e + (if r ≠ 0 ∧ up = true then 1 else 0) + 127
      if x < 0 then (0, { sat := true, inx := true })
      else if 254 < x then (0xFE, { sat := true, inx := true })
      else (x.toNat, { inx := decide (r ≠ 0) })

/-- Round an exact value to an integer of n bits (R112). -/
def roundInt (n : Nat) (mode : Mode) : Val → Nat × Flags
  | .nan _ => (0, { inv := true })
  | .inf neg => (ofSigned n (if neg then -(2 ^ (n - 1)) else 2 ^ (n - 1) - 1), { sat := true })
  | .fin neg m e =>
    let (q, inx) := quantise mode neg m e 0
    let (x, sat) := satN n (if neg then -(Int.ofNat q) else Int.ofNat q)
    (ofSigned n x, { sat := sat, inx := inx })

/-- Convert a value to a format (R151). -/
def convert (f : Nat) (mode : Mode) (v : Val) : Nat × Flags :=
  match f with
  | 4 | 5 => roundFp f mode v
  | 6 => roundE4 mode v
  | 7 => roundE8 mode v
  | _ => roundInt (width f) mode v

/-! Exact operations. -/

/-- A signed mantissa at exponent 2^e. -/
def signedAt (neg : Bool) (m : Nat) (e at_ : Int) : Int :=
  let x := Int.ofNat (m * 2 ^ (e - at_).toNat)
  if neg then -x else x

/-- Is a value a signalling NaN? -/
def Val.snan : Val → Bool
  | .nan s => s
  | _ => false

/-- A signalling NaN operand makes an invalid operation (R105). -/
def nanOf (vs : List Val) : Val := .nan (vs.any Val.snan)

/-- Is the value a NaN? -/
def Val.isNan : Val → Bool
  | .nan _ => true
  | _ => false

/-- The same value with the other sign. -/
def Val.neg : Val → Val
  | .nan s => .nan s
  | .inf n => .inf (!n)
  | .fin n m e => .fin (!n) m e

/-- The exact sum (R104, R106). An invalid operation is a signalling NaN here, so that the rounding sets INV. -/
def add (a b : Val) : Val :=
  match a, b with
  | .nan _, _ | _, .nan _ => nanOf [a, b]
  | .inf x, .inf y => if x = y then .inf x else .nan true
  | .inf x, _ => .inf x
  | _, .inf y => .inf y
  | .fin nx mx ex, .fin ny my ey =>
    let e := if ex ≤ ey then ex else ey
    let x := signedAt nx mx ex e + signedAt ny my ey e
    if x = 0 then .fin (nx && ny) 0 e else .fin (decide (x < 0)) x.natAbs e

/-- The exact product (R104, R106). -/
def mul (a b : Val) : Val :=
  match a, b with
  | .nan _, _ | _, .nan _ => nanOf [a, b]
  | .inf x, .inf y => .inf (x != y)
  | .inf x, .fin y m _ => if m = 0 then .nan true else .inf (x != y)
  | .fin x m _, .inf y => if m = 0 then .nan true else .inf (x != y)
  | .fin x m e, .fin y n f => .fin (x != y) (m * n) (e + f)

/-- The exact a · b + c; a product of 0 and infinity is invalid whatever c is (R104). -/
def fma (a b c : Val) : Val :=
  let p := mul a b
  match p, c with
  | .nan s, _ => .nan (s || c.snan)
  | _, .nan s => .nan s
  | _, _ => add p c

/-- The order of two numbers: does a lie below b? Zeros compare equal (R106). -/
def lt (a b : Val) : Bool :=
  match a, b with
  | .nan _, _ | _, .nan _ => false
  | .inf x, .inf y => x && !y
  | .inf x, _ => x
  | _, .inf y => !y
  | .fin nx mx ex, .fin ny my ey =>
    let e := if ex ≤ ey then ex else ey
    decide (signedAt nx mx ex e < signedAt ny my ey e)

/-- Are two values equal numbers (R106)? -/
def eq (a b : Val) : Bool := !a.isNan && !b.isNan && !lt a b && !lt b a

/-- The sign of a value. -/
def Val.negative : Val → Bool
  | .nan _ => false
  | .inf n => n
  | .fin n _ _ => n

/-- minimumNumber and maximumNumber on patterns (R107): the operand that is the smaller (larger), −0 below +0. -/
def minMax (f : Nat) (max : Bool) (x y : Nat) : Nat × Flags :=
  let a := value f x
  let b := value f y
  let fl : Flags := { inv := a.snan || b.snan }
  match a.isNan, b.isNan with
  | true, true => ((fpOf f).nan, fl)
  | true, false => (y, fl)
  | false, true => (x, fl)
  | false, false =>
    let below := lt a b || (eq a b && a.negative && !b.negative)
    (if below != max then x else y, fl)

/-! Special functions (R149): the exact value, or a value just beside it with a sticky last bit, which rounds as the exact one
does (log 18). -/

/-- Fraction bits of the fixed-point series. -/
def W : Nat := 320

/-- The largest n with n · n at most x, by `k` bits from the top. -/
def isqrt : Nat → Nat → Nat → Nat
  | 0, _, r => r
  | k + 1, x, r => let t := r + 2 ^ k; isqrt k x (if t * t ≤ x then t else r)

/-- ln 2 as a fixed-point number: the sum of 1 / (i · 2^i). -/
def ln2 : Nat := (List.range 340).foldl (fun acc i => acc + 2 ^ W / ((i + 1) * 2 ^ (i + 1))) 0

/-- exp of a fixed-point y below 1: `n` more terms of its series, from term `i` on. -/
def expSeries (y : Nat) : Nat → Nat → Nat → Nat → Nat
  | 0, _, _, acc => acc
  | n + 1, i, t, acc => let t' := t * y / 2 ^ W / i; expSeries y n (i + 1) t' (acc + t')

/-- 2 · atanh of a fixed-point z at most 1/3: `n` more terms. -/
def atanhSeries (z2 : Nat) : Nat → Nat → Nat → Nat → Nat
  | 0, _, _, acc => 2 * acc
  | n + 1, i, t, acc => atanhSeries z2 n (i + 1) (t * z2 / 2 ^ W) (acc + t / (2 * i + 1))

/-- A positive value beside n · 2^e, above it by less than one. -/
def sticky (neg : Bool) (n : Nat) (e : Int) : Val := .fin neg (2 * n + 1) (e - 1)

/-- 2^a for a finite a. -/
def exp2 (neg : Bool) (m : Nat) (e : Int) : Val :=
  let big := decide (9 ≤ Int.ofNat (Nat.log2 m) + e)
  if m = 0 then .fin false 1 0
  else if big then (if neg then sticky false 1 (-600) else .fin false 1 600)
  else
    let x := signedAt neg m (e + Int.ofNat W) 0
    let k := x / 2 ^ W
    let f := (x % 2 ^ W).toNat
    if f = 0 then .fin false 1 k
    else sticky false (expSeries (f * ln2 / 2 ^ W) 90 1 (2 ^ W) (2 ^ W)) (k - Int.ofNat W)

/-- log2 of a positive m · 2^e. -/
def log2 (m : Nat) (e : Int) : Val :=
  let b := Nat.log2 m
  let k := Int.ofNat b + e
  if m = 2 ^ b then .fin (decide (k < 0)) k.natAbs 0
  else
    let z := (m - 2 ^ b) * 2 ^ W / (m + 2 ^ b)
    let l := atanhSeries (z * z / 2 ^ W) 120 0 z 0 * 2 ^ W / ln2
    let v := k * 2 ^ W + Int.ofNat l
    if 0 ≤ v then sticky false v.toNat (-(Int.ofNat W)) else sticky true (v.natAbs - 1) (-(Int.ofNat W))

/-- 1 / (m · 2^e) for a positive m. -/
def recip (neg : Bool) (m : Nat) (e : Int) : Val :=
  let k := Nat.log2 m + 64
  let n := 2 ^ k / m
  if n * m = 2 ^ k then .fin neg n (-(Int.ofNat k) - e) else sticky neg n (-(Int.ofNat k) - e)

/-- 1 / √(m · 2^e) for a positive m. -/
def recipSqrt (m : Nat) (e : Int) : Val :=
  let m' := if e % 2 = 0 then m else 2 * m
  let e' := if e % 2 = 0 then e else e - 1
  let k := Nat.log2 m' + 64
  let n := isqrt (k + 1) (2 ^ (2 * k) / m') 0
  if n * n * m' = 2 ^ (2 * k) then .fin false n (-(Int.ofNat k) - e' / 2) else sticky false n (-(Int.ofNat k) - e' / 2)

/-- TEXP, TLOG, TRCP and TRSQ (R149). -/
inductive Special where
  | exp | log | rcp | rsq
deriving DecidableEq, Repr

/-- A special function of a value, with the table of special operands of R149. -/
def special (f : Special) (v : Val) : Val :=
  match f, v with
  | _, .nan s => .nan s
  | .exp, .inf neg => if neg then .fin false 0 0 else .inf false
  | .exp, .fin neg m e => exp2 neg m e
  | .log, .inf neg => if neg then .nan true else .inf false
  | .log, .fin neg m e => if m = 0 then .inf true else if neg then .nan true else log2 m e
  | .rcp, .inf neg => .fin neg 0 0
  | .rcp, .fin neg m e => if m = 0 then .inf neg else recip neg m e
  | .rsq, .inf neg => if neg then .nan true else .fin false 0 0
  | .rsq, .fin neg m e => if m = 0 then .inf neg else if neg then .nan true else recipSqrt m e

/-- atan(1 / d) as a fixed-point number: `n` more terms of its series with alternating signs. -/
def atanInv (d : Nat) : Nat → Nat → Nat → Int
  | 0, _, _ => 0
  | n + 1, i, t => Int.ofNat (t / (2 * i + 1)) - atanInv d n (i + 1) (t / (d * d))

/-- π as a fixed-point number, by 16 · atan(1/5) − 4 · atan(1/239). -/
def pi : Nat := (16 * atanInv 5 80 0 (2 ^ W / 5) - 4 * atanInv 239 30 0 (2 ^ W / 239)).toNat

/-- √(2/π) as a fixed-point number. -/
def rootTwoPi : Nat := isqrt (W + 2) (2 * 2 ^ (3 * W) / pi) 0

/-- 1 / (1 + exp(−2u)) for u = √(2/π) · (z + 0.044715 · z³), or exp(−2u) / (1 + exp(−2u)) for a negative z: a mantissa and an
exponent, for z = m · 2^e below 64. -/
def sigmoid (neg : Bool) (m : Nat) (e : Int) : Nat × Int :=
  let z := m * 2 ^ (e + Int.ofNat W).toNat
  let q := z + z * z / 2 ^ W * z / 2 ^ W * 44715 / 1000000
  let a := 2 * (rootTwoPi * q / 2 ^ W) * 2 ^ W / ln2
  let k := (-(Int.ofNat a)) / 2 ^ W
  let f := ((-(Int.ofNat a)) % 2 ^ W).toNat
  let t := expSeries (f * ln2 / 2 ^ W) 90 1 (2 ^ W) (2 ^ W)
  let below := t / 2 ^ k.natAbs
  if neg then (t * 2 ^ W / (2 ^ W + below), k - Int.ofNat W) else (2 ^ (2 * W) / (2 ^ W + below), -(Int.ofNat W))

/-- GeluTanh (R178): the exact value, or one beside it with a sticky last bit (log 18). -/
def gelu (v : Val) : Val :=
  match v with
  | .nan s => .nan s
  | .inf neg => if neg then .fin true 0 0 else .inf false
  | .fin neg m e =>
    if m = 0 then v
    else if 6 ≤ Int.ofNat (Nat.log2 m) + e then
      (if neg then sticky true 1 (-600) else sticky false (m * 2 ^ 64 - 1) (e - 64))
    else
      let (n, k) := sigmoid neg m e
      sticky neg (m * n) (e + k)

/-- ReLU (R178). -/
def relu (v : Val) : Val :=
  match v with
  | .nan s => .nan s
  | .inf neg => if neg then .fin false 0 0 else v
  | .fin neg _ _ => if neg then .fin false 0 0 else v

/-! The draw of stochastic rounding (R114). -/

/-- Draw(i, j, fmt, xbits) from the capsule's seed and the task's ranks. -/
def draw (seed ranks : Word) (i j fmt : Nat) (x : Word) : Nat :=
  let z := (seed ^^^ ranks) + word 0x9E3779B97F4A7C15 * word (1 + 64 * i + j + 4096 * fmt)
  let z := z ^^^ x
  let z := (z ^^^ (z >>> 30)) * word 0xBF58476D1CE4E5B9
  let z := (z ^^^ (z >>> 27)) * word 0x94D049BB133111EB
  let z := z ^^^ (z >>> 31)
  z.toNat / 2 ^ 32

/-- The mode that TCVT names, with the draw of this element (R113). -/
def modeOf (r : Nat) (u : Nat) : Mode :=
  match r with
  | 0 => .rne
  | 1 => .rz
  | 2 => .rup
  | 3 => .rdn
  | _ => .rs u

/-! Nested-precision weights (R116). -/

/-- NPValue of a stored weight byte at c planes. -/
def npValue (v c : Nat) (restore : Bool) : Int :=
  let x := toSigned 8 (v % 256 / 2 ^ (8 - c) * 2 ^ (8 - c))
  if restore ∧ c < 8 then x + 2 ^ (7 - c) else x

end Sys2Proof.Machine.Num
end

