-- ==== Sys2Proof/Machine/MemAccess.lean ====
section
/-! DEFINITION. Scalar loads and stores, the read-only path, the local register window, atomics, gates and fences
(spec/08_memory_model_atomics.md R187 to R196, spec/01 R19). -/

namespace Sys2Proof.Machine

/-! Loads and stores (R187). -/

/-- Sign-extend the number of n bytes to a word (R187). -/
def signExtendBytes (n v : Nat) : Word := wordOfInt (Num.toSigned (8 * n) v)

/-- A load of n bytes (R187): alignment, then the access; the value is sign-extended into d. -/
def opLoad (n : Nat) (d a : SReg) (w : Bool) (o : BitVec 13) : Op :=
  { srcs := [.s a w],
    body := fun s => do
      let h := s.addr a o.toInt
      ensure (aligned h n) .alignment s
      let (bs, s) ← load h n .read s
      .ok (writeS d (signExtendBytes n (leNat bs)) s) }

/-- LD.B (R187). -/
def execLdB (d a : SReg) (w : Bool) (o : BitVec 13) (s : State) : Answer := issue (.ldB d a w o) (opLoad 1 d a w o) s

/-- LD.H (R187). -/
def execLdH (d a : SReg) (w : Bool) (o : BitVec 13) (s : State) : Answer := issue (.ldH d a w o) (opLoad 2 d a w o) s

/-- LD.W (R187). -/
def execLdW (d a : SReg) (w : Bool) (o : BitVec 13) (s : State) : Answer := issue (.ldW d a w o) (opLoad 4 d a w o) s

/-- LD.D (R187). -/
def execLdD (d a : SReg) (w : Bool) (o : BitVec 13) (s : State) : Answer := issue (.ldD d a w o) (opLoad 8 d a w o) s

/-- A store of the low n bytes of s(d) (R187). -/
def opStore (n : Nat) (d a : SReg) (w : Bool) (o : BitVec 13) : Op :=
  { srcs := [.s d false, .s a w],
    body := fun s => do
      let h := s.addr a o.toInt
      ensure (aligned h n) .alignment s
      store h (leBytes n (s.sreg d).toNat) .write s }

/-- ST.B (R187). -/
def execStB (d a : SReg) (w : Bool) (o : BitVec 13) (s : State) : Answer := issue (.stB d a w o) (opStore 1 d a w o) s

/-- ST.H (R187). -/
def execStH (d a : SReg) (w : Bool) (o : BitVec 13) (s : State) : Answer := issue (.stH d a w o) (opStore 2 d a w o) s

/-- ST.W (R187). -/
def execStW (d a : SReg) (w : Bool) (o : BitVec 13) (s : State) : Answer := issue (.stW d a w o) (opStore 4 d a w o) s

/-- ST.D (R187). -/
def execStD (d a : SReg) (w : Bool) (o : BitVec 13) (s : State) : Answer := issue (.stD d a w o) (opStore 8 d a w o) s

/-! The read-only path (R189, R190). -/

/-- LDC (R189): 8 bytes through the cluster's read-only cache; the offset has 15 bits, or 41 in a LIMM pair. -/
def opLdc (d a : SReg) (w : Bool) (i : Int) : Op :=
  { srcs := [.s a w],
    body := fun s => do
      let h := s.addr a i
      ensure (aligned h 8) .alignment s
      let (bs, s) ← loadRo h 8 .read s
      .ok (writeS d (word (leNat bs)) s) }

/-- LDC (R189). -/
def execLdc (d a : SReg) (w : Bool) (i : BitVec 15) (s : State) : Answer := issue (.ldc d a w i) (opLdc d a w i.toInt) s

/-- The parts of a range as an access of firmware is translated: page by page while its MMU is on (R224). -/
def pageParts (s : State) (a n : Nat) : List (Nat × Nat) :=
  if bitOf (s.cluster s.here).mmuctl.toNat 0 then
    (unitsOf 2097152 a n).map fun p => (Nat.max a (2097152 * p), Nat.min (a + n) (2097152 * p + 2097152) - Nat.max a (2097152 * p))
  else [(a, n)]

/-- The physical ranges of the parts of a firmware range, each checked in its order. -/
def physicalParts (s : State) : List (Nat × Nat) → Run (List (Nat × Nat))
  | [] => .ok []
  | (a, n) :: ps => do
    let pa ← firmwareAccess s a n .read
    let rest ← physicalParts s ps
    .ok ((pa, n) :: rest)

/-- The physical ranges that CINV names: a check, and no access. -/
def cinvRange (h : Word) (n : Nat) (s : State) : Run (List (Nat × Nat)) :=
  match s.hart.kind with
  | .task => do
    let pa ← checkAccess s h n .read
    .ok [(pa, n)]
  | .firmware => physicalParts s (pageParts s h.toNat n)
  | .saffron => .ok [(h.toNat, n)]

/-- CINV (R190): with s(b) = 0 nothing at all; else the range is checked and the cluster's copies of its lines go. -/
def opCinv (a b : SReg) (w v : Bool) : Op :=
  { srcs := srcAB a b w v,
    body := fun s =>
      if s.sreg b = 0 then .ok s
      else do
        let parts ← cinvRange (s.sreg a) (s.sreg b).toNat s
        .ok (parts.foldl (fun t x => dropLines x.1 x.2 t) s) }

/-- CINV (R190). -/
def execCinv (a b : SReg) (w v : Bool) (s : State) : Answer := issue (.cinv a b w v) (opCinv a b w v) s

/-! The local register window (R19, R191). -/

/-- Is a shape word one that may be written (R14)? -/
def shapeOk (v : Nat) : Bool := decide (bitsOf v 15 12 ≤ 8) && (bitsOf v 11 6 + 1) % Num.size (bitsOf v 15 12) == 0

/-- A window access waits for a producer that is still writing a scalar (R191). -/
def settledS (r : SReg) (s : State) : Run Unit := if s.sfull r then .ok () else .error (.wait (.sreg r) s)

/-- The same for a tile register. -/
def settledT (t : TReg) (s : State) : Run Unit := if (s.tile t).full then .ok () else .error (.wait (.treg t) s)

/-- An access to FLG waits for the earlier instructions that set flags: atomics in flight and products that are not checked
(R342). -/
def settledFlg (s : State) : Run Unit :=
  if flagsPending s || (s.cluster s.here).products.any fun p => p.hart == s.hart.id then .error (.wait .flags s) else .ok ()

/-- A tile word's index as the register and the byte offset in its data (R19). -/
def tileWord (i : Nat) : TReg × Nat := (Fin.ofNat 16 ((i - 0x2000) / 512), (i - 0x2000) % 512 * 8)

/-- The word at a window index (R19). PC is that of the LDS (DEDUCED, log 40). The shape word of a tile register that is not allocated
is read like any other (DESIGN CHOICE, log 115). -/
def windowRead (i : Nat) (s : State) : Run Word :=
  if i < 0x20 then do
    settledS (Fin.ofNat 32 i) s
    .ok (s.sreg (Fin.ofNat 32 i))
  else if i < 0x30 then
    let p := s.hart.r.p.get (Fin.ofNat 8 ((i - 0x20) / 2))
    .ok (if i % 2 = 0 then word p.toNat else word (p.toNat / 2 ^ 64))
  else if i < 0x40 then do
    settledT (Fin.ofNat 16 i) s
    .ok (word (s.tile (Fin.ofNat 16 i)).shape.toNat)
  else if i = 0x40 then do
    settledFlg s
    .ok s.hart.r.flg
  else if i = 0x41 then .ok s.hart.r.pc
  else if 0x2000 ≤ i ∧ allocated s.hart (tileWord i).1 = true then do
    settledT (tileWord i).1 s
    let s ← meetTileWords (tileWord i).1 [(tileWord i).2 / 8] s
    .ok (word ((s.tile (tileWord i).1).data.readLE (tileWord i).2 8))
  else faultOf .windowIndex s

/-- Write the word at a window index (R19, R191): presence bits stay. The shape word of a tile register that is not allocated is written like
any other (DESIGN CHOICE, log 115). -/
def windowWrite (i : Nat) (v : Word) (s : State) : Run State :=
  if i < 0x20 then do
    let r := Fin.ofNat 32 i
    settledS r s
    .ok (s.modRegs fun g => { g with s := g.s.set r.val v r.isLt })
  else if i < 0x30 then
    let n := Fin.ofNat 8 ((i - 0x20) / 2)
    let p := (s.hart.r.p.get n).toNat
    let q := if i % 2 = 0 then p / 2 ^ 64 * 2 ^ 64 + v.toNat else v.toNat * 2 ^ 64 + p % 2 ^ 64
    .ok (s.modRegs fun g => { g with p := g.p.set n.val (BitVec.ofNat 128 q) n.isLt })
  else if i < 0x40 then do
    let t := Fin.ofNat 16 i
    settledT t s
    ensure (shapeOk (v.toNat % 65536)) .illegal s
    .ok (s.modRegs fun g => { g with t := g.t.set t.val { g.t.get t with shape := BitVec.ofNat 16 v.toNat } t.isLt })
  else if i = 0x40 then do
    settledFlg s
    .ok (s.modRegs fun g => { g with flg := writeFlg v })
  else if i = 0x41 then .ok s
  else if 0x2000 ≤ i ∧ allocated s.hart (tileWord i).1 = true then do
    let t := (tileWord i).1
    settledT t s
    .ok (s.modRegs fun g =>
      { g with t := g.t.set t.val { g.t.get t with data := (g.t.get t).data.writeLE (tileWord i).2 8 v.toNat } t.isLt })
  else faultOf .windowIndex s

/-- LDS (R191): the window index is s(a)[13:0]. -/
def opLds (d a : SReg) (w : Bool) : Op :=
  { srcs := [.s a w],
    body := fun s => do
      let v ← windowRead ((s.sreg a).toNat % 16384) s
      .ok (writeS d v s) }

/-- LDS (R191). -/
def execLds (d a : SReg) (w : Bool) (s : State) : Answer := issue (.lds d a w) (opLds d a w) s

/-- STS (R191). -/
def opSts (a b : SReg) (w v : Bool) : Op :=
  { srcs := srcAB a b w v, body := fun s => windowWrite ((s.sreg a).toNat % 16384) (s.sreg b) s }

/-- STS (R191). -/
def execSts (a b : SReg) (w v : Bool) (s : State) : Answer := issue (.sts a b w v) (opSts a b w v) s

/-! Atomics (R192 to R194). -/

/-- What an atomic writes at n bytes, or none for a compare that fails, and its flags (R193). -/
def amoNew (op : AmoOp) (n old opnd cmp : Nat) : Option Nat × Flags :=
  let m := 2 ^ (8 * n)
  let a := old % m
  let b := opnd % m
  let sa := Num.toSigned (8 * n) a
  let sb := Num.toSigned (8 * n) b
  match op with
  | .add => (some ((a + b) % m), {})
  | .and => (some (a &&& b), {})
  | .or => (some (a ||| b), {})
  | .xor => (some (a ^^^ b), {})
  | .min => (some (if sa ≤ sb then a else b), {})
  | .max => (some (if sa ≤ sb then b else a), {})
  | .minu => (some (if a ≤ b then a else b), {})
  | .maxu => (some (if a ≤ b then b else a), {})
  | .swp => (some b, {})
  | .cas => (if a = cmp % m then some b else none, {})
  | .fadd =>
    let (x, f) := Num.roundFp 5 .rne (Num.add (Num.ofF32 a) (Num.ofF32 b))
    (some x, f)
  | .fmin => let (x, f) := Num.minMax 5 false a b; (some x, f)
  | .fmax => let (x, f) := Num.minMax 5 true a b; (some x, f)

/-- The func field of a returning atomic: OP and the width bit (R55). -/
def AmoOp.func (op : AmoOp) (wide : Bool) : Nat :=
  (match op with
  | .add => 0 | .and => 1 | .or => 2 | .xor => 3 | .min => 4 | .max => 5 | .minu => 6 | .maxu => 7 | .swp => 8 | .cas => 9
  | .fadd => 10 | .fmin => 11 | .fmax => 12) + if wide then 16 else 0

/-- The bytes of an atomic's width. -/
def amoWidth (wide : Bool) : Nat := if wide then 8 else 4

/-- A returning atomic (R192, R194): old is read at execution and enters the read signature; new is a store of the chunk; d is
empty until old arrives, with the flags of a floating operation. -/
def opAmo (op : AmoOp) (d a b : SReg) (w v wide : Bool) : Op :=
  { srcs := if op = .cas then srcDAB d a b w v else srcAB a b w v,
    body := fun s => do
      let n := amoWidth wide
      let h := s.sreg a
      let cmp := (s.sreg d).toNat
      let opnd := (s.sreg b).toNat
      ensure (aligned h n) .alignment s
      let (pa, s) ← reach h n .atomic s
      let (bs, s) ← loadAt pa n s
      let (new, flags) := amoNew op n (leNat bs) opnd cmp
      let s ← match new with
        | some x => storeAt pa (leBytes n x) s
        | none => .ok s
      let s := if s.isTask then pushEffect (.atomic pa (op.func wide) (word opnd) (if op = .cas then word cmp else 0) new.isSome) s else s
      let s := if new.isSome then markWritten h n s else s
      .ok (produceS d (word (leNat bs)) flags s) }

/-- Apply an atomic to committed memory: the home slice does (R194, R207). A poisoned sector stays so (R261). -/
def applyAmo (h : Hart) (part pa : Nat) (op : AmoOp) (wide : Bool) (opnd : Word) (s : State) : State :=
  let n := amoWidth wide
  let s := readLines part pa n s
  match (amoNew op n (s.mem.readLE pa n) opnd.toNat 0).1 with
  | some x => settlePoison part [(pa, n)] (putMem h pa (leBytes n x) s)
  | none => s

/-- A no-return atomic (R194): buffered as an operation, in the write signature alone. Firmware's is a unit at once. -/
def opAmoNr (op : AmoOp) (a b : SReg) (w v wide : Bool) : Op :=
  { srcs := srcAB a b w v,
    body := fun s => do
      let n := amoWidth wide
      ensure (aligned (s.sreg a) n) .alignment s
      let (pa, s) ← reach (s.sreg a) n .atomic s
      match s.hart.kind with
      | .task => .ok (markWritten (s.sreg a) n (noteWrite pa n (pushEffect (.amo pa op wide (s.sreg b)) s)))
      | .firmware =>
        if heldByToken s s.hart.id pa n then .error (.wait .token s)
        else do
          let s ← awaitUnits pa n s
          .ok (publish s.hart.id (sigRange pa n) [] (applyAmo s.hart 0 pa op wide (s.sreg b) s))
      | .saffron =>
        let (new, _) := amoNew op n (s.saffron.sram.readLE pa n) (s.sreg b).toNat 0
        storeAt pa (leBytes n (new.getD 0)) s }

/-- AMOADD (R193, R194), returning. -/
def execAmoadd (d a b : SReg) (w v x : Bool) (s : State) : Answer := issue (.amoadd d a b w v x) (opAmo .add d a b w v x) s

/-- AMOAND (R193, R194), returning. -/
def execAmoand (d a b : SReg) (w v x : Bool) (s : State) : Answer := issue (.amoand d a b w v x) (opAmo .and d a b w v x) s

/-- AMOOR (R193, R194), returning. -/
def execAmoor (d a b : SReg) (w v x : Bool) (s : State) : Answer := issue (.amoor d a b w v x) (opAmo .or d a b w v x) s

/-- AMOXOR (R193, R194), returning. -/
def execAmoxor (d a b : SReg) (w v x : Bool) (s : State) : Answer := issue (.amoxor d a b w v x) (opAmo .xor d a b w v x) s

/-- AMOMIN (R193, R194), returning. -/
def execAmomin (d a b : SReg) (w v x : Bool) (s : State) : Answer := issue (.amomin d a b w v x) (opAmo .min d a b w v x) s

/-- AMOMAX (R193, R194), returning. -/
def execAmomax (d a b : SReg) (w v x : Bool) (s : State) : Answer := issue (.amomax d a b w v x) (opAmo .max d a b w v x) s

/-- AMOMINU (R193, R194), returning. -/
def execAmominu (d a b : SReg) (w v x : Bool) (s : State) : Answer := issue (.amominu d a b w v x) (opAmo .minu d a b w v x) s

/-- AMOMAXU (R193, R194), returning. -/
def execAmomaxu (d a b : SReg) (w v x : Bool) (s : State) : Answer := issue (.amomaxu d a b w v x) (opAmo .maxu d a b w v x) s

/-- AMOSWP (R193, R194), returning. -/
def execAmoswp (d a b : SReg) (w v x : Bool) (s : State) : Answer := issue (.amoswp d a b w v x) (opAmo .swp d a b w v x) s

/-- AMOCAS (R193, R194), returning. -/
def execAmocas (d a b : SReg) (w v x : Bool) (s : State) : Answer := issue (.amocas d a b w v x) (opAmo .cas d a b w v x) s

/-- AMOFADD (R193, R194), returning, FP32. -/
def execAmofadd (d a b : SReg) (w v : Bool) (s : State) : Answer := issue (.amofadd d a b w v) (opAmo .fadd d a b w v false) s

/-- AMOFMIN (R193, R194), returning, FP32. -/
def execAmofmin (d a b : SReg) (w v : Bool) (s : State) : Answer := issue (.amofmin d a b w v) (opAmo .fmin d a b w v false) s

/-- AMOFMAX (R193, R194), returning, FP32. -/
def execAmofmax (d a b : SReg) (w v : Bool) (s : State) : Answer := issue (.amofmax d a b w v) (opAmo .fmax d a b w v false) s

/-- AMOADD.NR (R193, R194), no return. -/
def execAmoaddNr (a b : SReg) (w v x : Bool) (s : State) : Answer := issue (.amoaddNr a b w v x) (opAmoNr .add a b w v x) s

/-- AMOAND.NR (R193, R194), no return. -/
def execAmoandNr (a b : SReg) (w v x : Bool) (s : State) : Answer := issue (.amoandNr a b w v x) (opAmoNr .and a b w v x) s

/-- AMOOR.NR (R193, R194), no return. -/
def execAmoorNr (a b : SReg) (w v x : Bool) (s : State) : Answer := issue (.amoorNr a b w v x) (opAmoNr .or a b w v x) s

/-- AMOXOR.NR (R193, R194), no return. -/
def execAmoxorNr (a b : SReg) (w v x : Bool) (s : State) : Answer := issue (.amoxorNr a b w v x) (opAmoNr .xor a b w v x) s

/-- AMOMIN.NR (R193, R194), no return. -/
def execAmominNr (a b : SReg) (w v x : Bool) (s : State) : Answer := issue (.amominNr a b w v x) (opAmoNr .min a b w v x) s

/-- AMOMAX.NR (R193, R194), no return. -/
def execAmomaxNr (a b : SReg) (w v x : Bool) (s : State) : Answer := issue (.amomaxNr a b w v x) (opAmoNr .max a b w v x) s

/-- AMOMINU.NR (R193, R194), no return. -/
def execAmominuNr (a b : SReg) (w v x : Bool) (s : State) : Answer := issue (.amominuNr a b w v x) (opAmoNr .minu a b w v x) s

/-- AMOMAXU.NR (R193, R194), no return. -/
def execAmomaxuNr (a b : SReg) (w v x : Bool) (s : State) : Answer := issue (.amomaxuNr a b w v x) (opAmoNr .maxu a b w v x) s

/-- AMOFADD.NR (R193, R194), no return, FP32. -/
def execAmofaddNr (a b : SReg) (w v : Bool) (s : State) : Answer := issue (.amofaddNr a b w v) (opAmoNr .fadd a b w v false) s

/-- AMOFMIN.NR (R193, R194), no return, FP32. -/
def execAmofminNr (a b : SReg) (w v : Bool) (s : State) : Answer := issue (.amofminNr a b w v) (opAmoNr .fmin a b w v false) s

/-- AMOFMAX.NR (R193, R194), no return, FP32. -/
def execAmofmaxNr (a b : SReg) (w v : Bool) (s : State) : Answer := issue (.amofmaxNr a b w v) (opAmoNr .fmax a b w v false) s

/-! Gates and fences (R195, R196). -/

/-- A fence of a task is buffered; firmware's acts at once (R196) (DEDUCED, log 53). -/
def opFence (e : Effect) (f : Hart → Hart) : Op := { body := fun s => .ok (if s.isTask then pushEffect e s else s.mod f) }

/-- FENCE.X (R196). -/
def execFenceX (s : State) : Answer := issue .fenceX (opFence .fenceX fun h => { h with fenceX := h.fenceX + 1 }) s

/-- FENCE.H (R196). -/
def execFenceH (s : State) : Answer := issue .fenceH (opFence .fenceH fun h => { h with fenceH := h.fenceH + 1 }) s

/-- GATE (R195): goes on when the 64-bit word is at or above s(b), unsigned; the satisfying read enters the read signature. -/
def opGate (a b : SReg) (w v : Bool) : Op :=
  { srcs := srcAB a b w v,
    body := fun s => do
      ensure (aligned (s.sreg a) 8) .alignment s
      let (pa, s) ← reach (s.sreg a) 8 .read s
      let (bs, t) ← loadAt pa 8 s
      if (s.sreg b).toNat ≤ leNat bs then .ok t else .error (.wait (.gate pa (s.sreg b)) s) }

/-- GATE (R195). -/
def execGate (a b : SReg) (w v : Bool) (s : State) : Answer := issue (.gate a b w v) (opGate a b w v) s

end Sys2Proof.Machine
end

