-- ==== Sys2Proof/Machine/Message.lean ====
section
/-! DEFINITION. Messages, data ports, join cells and work distributor queries as a task issues them
(spec/03_scalar_control_messages.md R83 to R94). -/

namespace Sys2Proof.Machine

/-! Fields of a destination word (R83). -/

def destTag (d : Word) : Nat := bitsOf d.toNat 63 48
def destLvl (d : Word) : Nat := bitsOf d.toNat 47 45
def destByHint (d : Word) : Bool := bitOf d.toNat 44
def destAny (d : Word) : Bool := bitOf d.toNat 43
def destRank (d : Word) : Nat := bitsOf d.toNat 42 35
def destPort (d : Word) : Nat := bitsOf d.toNat 34 32
def destHint (d : Word) : Nat := bitsOf d.toNat 16 0

/-- The checks of R85 on a destination word, for a capsule: does it pass? -/
def destOk (c : Option Capsule) (d : Word) : Bool :=
  let port := destPort d
  bitsOf d.toNat 31 17 == 0 && !(port == 1 || port == 2 || port == 3) &&
  (if destByHint d then port == 0 && destLvl d == 0 && bitsOf d.toNat 43 35 == 0
   else match c with
    | none => false
    | some c => decide (destLvl d ≤ c.lvls) && decide (destRank d < c.members (destLvl d)) && c.domain (destLvl d) != 7 &&
        (port == 0 || !destAny d))

/-- The payload words s24 to s29 (R85). -/
def payload (s : State) : Vector Word 6 := Vector.ofFn fun i => s.hart.r.s.get (Fin.ofNat 32 (24 + i.val))

/-- The kind a message has on its way: by its port a data message, else a handler message. -/
def sendKind (dest : Word) (k : MsgKind) : MsgKind := if destPort dest = 0 then k else .data

/-- The message that SEND or SENDT builds (R83, R85); SRC is the core at the SEND (DESIGN CHOICE, log 143). -/
def buildMessage (k : MsgKind) (entry dest : Word) (tile : Option (Memory × BitVec 16)) (tiles : Nat) (s : State) : Msg :=
  { kind := sendKind dest k, cap := s.hart.cap, entry := entry, dest := dest, payload := payload s, tile := tile,
    src := BitVec.ofNat 13 s.hart.core, ranks := s.hart.ranks, sender := some s.hart.task, bound := none, tiles := tiles,
    hint := BitVec.ofNat 17 (destHint dest), paired := s.hart.partner.isSome }

/-- The shared body of SEND and SENDT (R85): the destination word, then the header's handle, then the buffer. -/
def sendBody (k : MsgKind) (entry dest : Word) (tile : Option (Memory × BitVec 16)) (s : State) : Run State := do
  ensureAt (destOk s.capsule dest) .msgTarget dest s
  let tiles ← if destPort dest = 0 then do
      let pa ← checkAccess s entry 4 .exec
      .ok (s.mem.readLE pa 1 % 16 + 1)
    else .ok 0
  bufferOut (.message (buildMessage k entry dest tile tiles s)) s

/-- SEND (R85). -/
def opSend (a b : SReg) (w v : Bool) : Op :=
  { srcs := srcAB a b w v ++ srcPayload, body := fun s => sendBody .send (s.sreg a) (s.sreg b) none s }

/-- SEND (R85): buffers a handler or data message. -/
def execSend (a b : SReg) (w v : Bool) (s : State) : Answer := issue (.send a b w v) (opSend a b w v) s

/-- SENDT (R85). -/
def opSendt (t : TReg) (a b : SReg) (w v : Bool) : Op :=
  { tiles := [t], srcs := .whole t false :: (srcAB a b w v ++ srcPayload),
    body := fun s => sendBody .sendt (s.sreg a) (s.sreg b) (some ((s.tile t).data, (s.tile t).shape)) s }

/-- SENDT (R85): the same, with tile td and its shape word. -/
def execSendt (t : TReg) (a b : SReg) (w v : Bool) (s : State) : Answer := issue (.sendt t a b w v) (opSendt t a b w v) s

/-- SENDX (R85). -/
def opSendx (a b : SReg) (w v : Bool) : Op :=
  { srcs := srcAB a b w v ++ srcPayload,
    body := fun s =>
      match s.extent? (handleIdx (s.sreg a)) with
      | none => faultAt .msgTarget (s.sreg a) s
      | some e =>
        if e.kind = 5 then bufferOut (.sendx s.hart.cap s.hart.core (s.sreg a) e[0] (s.sreg b) (payload s)) s
        else faultAt .msgTarget (s.sreg a) s }

/-- SENDX (R85): buffers a message to an endpoint. -/
def execSendx (a b : SReg) (w v : Bool) (s : State) : Answer := issue (.sendx a b w v) (opSendx a b w v) s

/-! Ports (R87). -/

/-- The oldest entry of a port that no uncommitted chunk has consumed. -/
def portHead (s : State) (n : Nat) : Option PortEntry :=
  ((s.core s.hart.core).ports.get (Fin.ofNat 4 n)).find? fun e => e.taken.isNone

/-- Mark the first free entry of a list as consumed. -/
def takeFirst (id : Nat) : List PortEntry → List PortEntry
  | [] => []
  | e :: es => if e.taken.isNone then { e with taken := some id } :: es else e :: takeFirst id es

/-- Consume the oldest entry: the pop is buffered (R36, R87). -/
def takeEntry (n : Nat) (s : State) : State :=
  let i := Fin.ofNat 4 n
  pushEffect (.popPort s.hart.core n) (s.modCore s.hart.core fun k =>
    { k with ports := k.ports.set i.val (takeFirst s.hart.id (k.ports.get i)) i.isLt })

/-- What an instruction that needs an entry does while none exists: it blocks, or raises CHUNK_FULL when its own chunk has
consumed all 4 entries of a full port (R87). -/
def noEntry {α : Type} (n : Nat) (s : State) : Run α :=
  let q := (s.core s.hart.core).ports.get (Fin.ofNat 4 n)
  if 4 ≤ q.length ∧ q.all fun e => e.taken == some s.hart.id then faultOf .chunkFull s else .error (.wait (.port n) s)

/-- RECV (R87). -/
def opRecv (d : SReg) (n : BitVec 2) : Op :=
  { body := fun s =>
      match portHead s n.toNat with
      | none => noEntry n.toNat s
      | some e => .ok (produceS d (e.msg.payload.get 0) {} (takeEntry n.toNat s)) }

/-- RECV (R87): payload word 0 of the oldest entry. -/
def execRecv (d : SReg) (n : BitVec 2) (s : State) : Answer := issue (.recv d n) (opRecv d n) s

/-- TRECV (R87). -/
def opTrecv (t : TReg) (n : BitVec 2) : Op :=
  { tiles := [t],
    body := fun s =>
      match portHead s n.toNat with
      | none => noEntry n.toNat s
      | some e =>
        match e.msg.tile with
        | none => faultOf .portKind s
        | some (data, shape) => .ok (produceT t (trim (bitsOf shape.toNat 5 0 + 1) (bitsOf shape.toNat 11 6 + 1) data) shape (takeEntry n.toNat s)) }

/-- TRECV (R87, R124): the tile and shape word of the oldest entry, its padding zero. -/
def execTrecv (t : TReg) (n : BitVec 2) (s : State) : Answer := issue (.trecv t n) (opTrecv t n) s

/-! Join cells (R88 to R90). -/

/-- Where a cell lies: a scratchpad address of the core, or a physical address. -/
inductive Cell where
  | pad (a : Nat)
  | memory (pa : Nat)
deriving DecidableEq, Repr

/-- Find a cell: the locator and alignment checks raise JOIN_TARGET, a failed CheckAccess its own fault, and a scratchpad cell
in a region that the copy engine holds OWNER_BUSY (R88, R89, R137). -/
def findCell (loc : Word) (use : Use) (s : State) : Run (Cell × State) :=
  if handleIdx loc = 0xFF then do
    ensure (bitsOf loc.toNat 55 16 == 0 && handleOff loc % 16 == 0) .joinTarget s
    ensure (!regionHeld (handleOff loc) 16 s) .ownerBusy s
    .ok (.pad (handleOff loc), s)
  else do
    let (pa, s) ← reachTask loc 16 use s
    ensure (aligned loc 16) .joinTarget s
    .ok (.memory pa, s)

/-- The physical address of a memory cell. -/
def Cell.pa : Cell → Option Nat
  | .pad _ => none
  | .memory pa => some pa

/-- JNEW (R89). -/
def opJnew (d a b : SReg) (w v : Bool) : Op :=
  { srcs := srcDAB d a b w v,
    body := fun s => do
      let loc := s.sreg a
      let count := BitVec.ofNat 32 (s.sreg d).toNat
      let (cell, s) ← findCell loc .write s
      ensure (count != 0) .joinTarget s
      let (_, s) ← reachTask (s.sreg b) 64 .read s
      let bytes := leBytes 4 0 ++ leBytes 4 count.toNat ++ leBytes 8 (s.sreg b).toNat
      let s ← match cell with
        | .pad x => bufferPad x bytes s
        | .memory pa => do
          let s ← bufferStore pa bytes s
          .ok (markWritten loc 16 s)
      .ok (pushEffect (.jnew s.hart.core loc cell.pa count (s.sreg b)) s) }

/-- JNEW (R89): buffers the cell's initial contents and its registration. -/
def execJnew (d a b : SReg) (w v : Bool) (s : State) : Answer := issue (.jnew d a b w v) (opJnew d a b w v) s

/-- ARRIVE (R90). -/
def opArrive (a : SReg) (w : Bool) : Op :=
  { srcs := [.s a w],
    body := fun s => do
      let loc := s.sreg a
      let (cell, s) ← findCell loc .atomic s
      ensure s.isTask .joinTarget s
      let s := match cell with
        | .pad x => s.mod fun h => { h with chunk := { h.chunk with padWrite := addMask h.core (padMask x 16) h.chunk.padWrite } }
        | .memory pa => markWritten loc 16 (noteWrite pa 16 s)
      .ok (pushEffect (.arrive s.hart.core loc cell.pa) s) }

/-- ARRIVE (R90): buffers the arrival, which enters the write signature alone. -/
def execArrive (a : SReg) (w : Bool) (s : State) : Answer := issue (.arrive a w) (opArrive a w) s

/-! The work distributor (R93). -/

/-- Mark a scratchpad word of a core empty. -/
def emptyWord (core w : Nat) (s : State) : State :=
  s.modCore core fun k => { k with empty := if k.empty.contains w then k.empty else w :: k.empty }

/-- WQRY (R93, R137). -/
def opWqry (a b : SReg) (w v : Bool) : Op :=
  { srcs := srcAB a b w v,
    body := fun s => do
      let x := (s.sreg a).toNat
      ensure (decide (x < 65536) && x % 8 == 0) .windowIndex s
      let (pa, s) ← reachTask (s.sreg b) 32 .atomic s
      ensure (aligned (s.sreg b) 32) .extentBounds s
      ensure (!regionHeld x 8 s) .ownerBusy s
      ensure (decide (s.hart.chunk.claims < 4)) .chunkFull s
      let q : Query := { hart := s.hart.id, core := s.hart.core, cap := s.hart.cap, word := x / 8, desc := pa,
                         arrived := none, item := none, answer := none, fate := 0,
                         landed := false }
      let s := emptyWord s.hart.core (x / 8) { s with queries := s.queries ++ [q] }
      .ok (s.mod fun h => { h with chunk := { h.chunk with claims := h.chunk.claims + 1 } }) }

/-- WQRY (R93): the answer word is empty until Cumin's answer lands. -/
def execWqry (a b : SReg) (w v : Bool) (s : State) : Answer := issue (.wqry a b w v) (opWqry a b w v) s

end Sys2Proof.Machine
end

