-- ==== Sys2Proof/Machine/Records.lean ====
section
/-! DEFINITION. Capsule records and extent lists as the device checks and builds them
(spec/01 R25 to R31, spec/10 R217 to R219). -/

namespace Sys2Proof.Machine

/-! Records (R25 to R28). -/

/-- CTL of a record image. -/
def recCtl (r : Memory) : Nat := r.readLE 0x38 8

/-- HIER entry of a level. -/
def recHier (r : Memory) (l : Nat) : Nat := r.readLE (0x80 + 2 * l) 2

/-- Are the reserved fields of R25 to R28 zero? A level above LVLS is reserved whole. -/
def reservedOk (r : Memory) : Bool :=
  let ctl := recCtl r
  bitsOf ctl 31 24 == 0 && bitsOf ctl 12 0 == 0 && bitsOf (r.readLE 0x90 8) 63 17 == 0 &&
  (List.range 8).all fun l => if l ≤ bitsOf ctl 17 15 then bitsOf (recHier r l) 9 8 == 0 else recHier r l == 0

/-- Does a level name a SCOPE that R27 reserves? -/
def scopeOk (r : Memory) : Bool := (List.range (bitsOf (recCtl r) 17 15 + 1)).all fun l => decide (bitsOf (recHier r l) 12 10 < 5)

/-- A descriptor at a byte offset of a list. -/
def extentAt (m : Memory) (off : Nat) : Extent := Vector.ofFn fun i => word (m.readLE (off + 8 * i.val) 8)

/-- The bytes of a descriptor. -/
def extentBytes (e : Extent) : List Byte := (e.toList.map fun w => leBytes 8 w.toNat).flatten

/-- Are the reserved fields of a descriptor zero (R29, R30)? -/
def extentReservedOk (e : Extent) : Bool :=
  bitsOf e.attr 63 48 == 0 && bitsOf e.attr 31 12 == 0 && bitsOf e.attr 7 4 == 0 && decide (e.kind < 7) &&
  (e.kind == 2 || e.aux == 0)

/-- The rules of R31 on one descriptor. -/
def extentRules (e : Extent) : Bool :=
  extentReservedOk e &&
  (if e.kind = 3 then e.co && e.r && !e.w && !e.x else !e.co) &&
  (if e.kind = 5 then !e.r && !e.w && !e.x && e.length == 0
   else if e.kind = 0 then true
   else e.base % 256 == 0 && e.length % 256 == 0 && decide (256 ≤ e.length)) &&
  (if e.kind = 4 ∨ e.kind = 6 then e.w else true)

/-- The rules of R31 on a list: at most one KIND 4 and one KIND 6. -/
def listRules (es : List Extent) : Bool :=
  es.all extentRules && decide ((es.countP fun e => e.kind == 4) ≤ 1) && decide ((es.countP fun e => e.kind == 6) ≤ 1)

/-- The bytes that a record's seal covers: bytes 0x00 to 0xEF, then the descriptors (R25). -/
def sealedBytes (r : Memory) (es : List Extent) : List Byte := r.readBytes 0 0xF0 ++ (es.map extentBytes).flatten

/-- The initialisation vector of a record's seal: 32 zero bits, then NONCE (R25). -/
def sealIv (r : Memory) : List Byte := List.replicate 4 0 ++ r.readBytes 0xC0 8

/-! Attenuation (R217 to R219). -/

/-- An attenuation entry. -/
structure Attenuation where
  srch : Word
  len : Nat
  rgt : Nat
  nkind : Nat
  rest : Nat
deriving DecidableEq, Repr

/-- An entry from its 16 bytes. -/
def attenuationAt (m : Memory) (i : Nat) : Attenuation :=
  { srch := word (m.readLE (16 * i) 8), len := m.readLE (16 * i + 8) 4, rgt := m.readLE (16 * i + 12) 1,
    nkind := m.readLE (16 * i + 13) 1, rest := m.readLE (16 * i + 14) 2 }

/-- The child's descriptor (R219). -/
def attenuate (p : Extent) (a : Attenuation) : Extent :=
  let kind := if a.nkind = 0 then p.kind else a.nkind
  #v[word (p.base + handleOff a.srch), word (256 * a.len), word (p.ksel * 2 ^ 32 + kind * 256 + a.rgt % 16), p.aux]

/-- The checks of R218 on an entry, against the parent's extent that it names. -/
def attenuationOk (p : Extent) (a : Attenuation) : Bool :=
  let o := handleOff a.srch
  let l := 256 * a.len
  p.kind != 0 && p.kind != 4 && p.kind != 6 && a.rgt / 16 == 0 && a.rest == 0 && (a.nkind == 0 || a.nkind == 4 || a.nkind == 6) &&
  (if p.kind = 5 then o == 0 && a.len == 0 && a.rgt == 0 && a.nkind == 0
   else o % 256 == 0 && decide (1 ≤ a.len) && decide (o + l ≤ p.length)) &&
  (p.kind != 2 || (o == 0 && l == p.length)) &&
  (p.kind != 3 || (o % 65536 == 0 && l % 65536 == 0 && a.rgt == 9)) &&
  (!bitOf a.rgt 2 || p.x) && (!bitOf a.rgt 1 || p.w) && (!bitOf a.rgt 0 || p.r) && (bitOf a.rgt 3 == p.co) &&
  (a.nkind == 0 || (p.kind == 1 && a.rgt == 3))

/-- The index of the first entry that fails, or the child's descriptors (R218). -/
def attenuateAll (exts : List Extent) (seen4 seen6 : Bool) : Nat → List Attenuation → Except Nat (List Extent)
  | _, [] => .ok []
  | i, a :: as =>
    match exts[handleIdx a.srch]? with
    | none => .error i
    | some p =>
      if attenuationOk p a && !(a.nkind == 4 && seen4) && !(a.nkind == 6 && seen6) then
        match attenuateAll exts (seen4 || a.nkind == 4) (seen6 || a.nkind == 6) (i + 1) as with
        | .ok es => .ok (attenuate p a :: es)
        | .error j => .error j
      else .error i

/-! The submission ring and spawned children (R219, R269 to R271). -/

/-- SRLOG gives the entries of a submission ring (R269). -/
def Queue.ringSize (q : Queue) : Nat := 2 ^ (bitsOf q.qcfg.toNat 7 4 + 4)

/-- Is the ring full? -/
def Queue.full (q : Queue) : Bool := decide (q.ringSize ≤ q.waiting)

/-- The place of the head among all entries that the ring has had. -/
def Queue.headNo (q : Queue) : Nat := q.placed - q.waiting

/-- The address of an entry, by its place among all entries that the ring has had: 4 KiB each, from SRBASE (R269, R270). -/
def Queue.entryAt (q : Queue) (i : Nat) : Nat := q.srbase.toNat + 4096 * (i % q.ringSize)

/-- What admission reads of an entry at first: its record (R270). -/
structure RingEntry where
  record : Memory
deriving DecidableEq, Repr

/-- The entry at an address of memory. -/
def ringEntry (s : State) (a : Nat) : RingEntry := { record := s.mem.window a 0x100 }

/-- The entries that stand in a queue's ring, head first. -/
def Queue.entries (s : State) (q : Queue) : List RingEntry :=
  (List.range q.waiting).map fun i => ringEntry s (q.entryAt (q.headNo + i))

/-- The head of a ring. -/
def Queue.head? (s : State) (q : Queue) : Option RingEntry :=
  if q.waiting = 0 then none else some (ringEntry s (q.entryAt q.headNo))

/-- Write an entry at the tail of a queue's ring: its record, and the extent list of a spawned child (R219, R270, R271). -/
def enqueue (n : Nat) (record elist : List Byte) (s : State) : State :=
  let q := s.queue n
  (deviceStore 0 (q.partition.getD 0) (q.entryAt q.placed) (record ++ elist) s).modQueue n fun q =>
    { q with waiting := q.waiting + 1, placed := q.placed + 1 }

/-- The queue that a child joins. -/
def Spawn.target (c : Spawn) (s : State) : Nat :=
  match c.queue with
  | some q => q
  | none => match s.cap? c.cap with
    | some p => p.queue
    | none => 0

/-- A fresh 256-bit key from Saffron's random source: free words (log 7). -/
def freshKey (s : State) : BitVec 256 × State :=
  (BitVec.ofNat 256 ((List.range 4).foldl (fun acc i => acc * 2 ^ 64 + (Config.freeWord (s.fresh + i)).toNat) 0), { s with fresh := s.fresh + 4 })

/-- The record of a child with its extent list at a physical address (R219): OWNER, ECNT, NONCE, WKEY, XLIST and TAG are the
device's. -/
def childRecord (owner : Nat) (key : BitVec 256) (nonce : Word) (xlist : Nat) (c : Spawn) : Memory :=
  let ctl := recCtl c.image
  let ctl := ctl % 2 ^ 48 - bitsOf ctl 23 18 * 2 ^ 18 + (c.exts.length - 1) % 64 * 2 ^ 18 + owner * 2 ^ 48
  let m := ((c.image.writeLE 0x38 8 ctl).writeLE 0xC0 8 nonce.toNat).writeLE 0x98 8 xlist
  let m := m.writeBytes 0xC8 (Crypto.kwWrap (Crypto.keyBytes Config.deviceKey) (Crypto.keyBytes key))
  m.writeBytes 0xF0 (Crypto.gmac (Crypto.keyBytes key) (sealIv m) (sealedBytes m c.exts))

/-- The admission unit builds a child and places it in its queue's ring (R219, R270). A parent that is gone has nothing to
place. -/
def placeChild (c : Spawn) (s : State) : State :=
  match s.cap? c.cap with
  | none => s
  | some p =>
    let n := c.target s
    let q := s.queue n
    let (key, s) := freshKey s
    let nonce := s.saffron.nonce
    let s := { s with saffron := { s.saffron with nonce := nonce + 1 } }
    let xlist := q.entryAt q.placed + 0x100
    enqueue n ((childRecord p.owner key nonce xlist c).readBytes 0 256) (c.exts.map extentBytes).flatten s

end Sys2Proof.Machine
end

