-- ==== Sys2Proof/Machine/Copy.lean ====
section
/-! DEFINITION. The copy engine: the CPY instructions and the channel queries, the start of a copy, the delivery of an element,
the seal layer of a .ur copy, and the restart of a copy from a snapshot (spec/05 R132 to R140, spec/08 R205, spec/12 R238, R239,
spec/14 R261 to R263, spec/18 R323, R324). -/

namespace Sys2Proof.Machine

open Crypto

/-! The control word (R132). -/

def ctlCount (c : Word) : Nat := bitsOf c.toNat 43 12
def ctlEsize (c : Word) : Nat := bitsOf c.toNat 11 8
def ctlChan (c : Word) : Nat := bitsOf c.toNat 3 0

/-- Is a control word well formed? -/
def ctlOk (c : Word) : Bool :=
  bitsOf c.toNat 63 44 == 0 && bitsOf c.toNat 7 4 == 0 && ctlCount c != 0 && decide (ctlEsize c ≤ 13)

/-- A scratchpad operand: a byte address that is a multiple of min(e, 8), with the whole range within 64 KiB (R133). -/
def padOperand (v : Word) (e n : Nat) : Bool := v.toNat % Nat.min e 8 == 0 && decide (v.toNat + n ≤ 65536)

/-- A memory operand: its offset is a multiple of min(e, 256) (R133). -/
def memOperand (v : Word) (e : Nat) : Bool := handleOff v % Nat.min e 256 == 0

/-- Does the task hold a lease? After MREL in program order it does not (R163). -/
def holdsLease (s : State) : Bool := leaseHeld s.hart.lease && !s.hart.chunk.effects.contains .mrel

/-- Is a ring in the task's lease and valid? -/
def ringBound (s : State) (n : Nat) : Bool :=
  holdsLease s && bitOf (leaseMask s.hart.lease) n && ringV ((s.cluster s.here).ring n).defn

/-- The mode's checks on a ring destination, in order (R133). -/
def ringCheck (sealed : Bool) (n bytes : Nat) (s : State) : Run Unit := do
  let d := ((s.cluster s.here).ring n).defn
  if sealed then
    ensure (ringBound s n) .ringState s
    ensure (ringKind d == 2) .sealedCopy s
    ensure (bytes % ringSlot d == 0) .ringState s
  else
    ensure (ringBound s n && decide (ringKind d ≤ 1) && bytes % ringSlot d == 0) .ringState s

/-! Starting a copy. -/

/-- The 8-byte scratchpad words of a copy's destination. -/
def Copy.padWords (c : Copy) : List Nat :=
  match c.mode with
  | .ms | .es => unitsOf 8 c.dst.toNat (c.count * c.esize)
  | _ => []

/-- Give the engine the regions of a copy (R137). -/
def holdRegions (c : Copy) (s : State) : State := s.modCore c.core fun k => { k with held := k.held ++ c.regions }

/-- A copy starts on its channel with WP at its base (R135, R140); a copy-in holds its regions and marks its words empty (R137). -/
def startCopy (cl : Nat) (c : Copy) (s : State) : State :=
  let s := modChan cl c.chan (fun _ => { copy := some c, wp := word c.base, cap := some c.cap }) s
  if c.mode.isIn then c.padWords.foldl (fun t w => emptyWord c.core w t) (holdRegions c s) else s

/-- The record of the seal of a physical address, with the group that holds it (R252, R262). -/
def sealOf (s : State) (pa : Nat) : Memory × Nat :=
  (assoc [] s.seals (gotSeal (s.granule (granuleOf pa))), pa % 2097152 / 65536)

/-- The wrapped weight key of the extent at a physical address: WWKEY of its seal record (R262). -/
def wrappedKey (s : State) (pa : Nat) : List Byte := (sealOf s pa).1.readBytes 0 40

/-- Does a lease's key slot hold the weight key of the extent at a physical address (R238)? -/
def keyInSlot (cl id pa : Nat) (s : State) : Bool := (s.cluster cl).keys.any fun k => k.hart == id && k.wrapped == wrappedKey s pa

/-- A copy of the context that issues. -/
def newCopy (mode : CopyMode) (ctl src dst : Word) (phys : Nat) (s : State) : Copy :=
  let r := (s.cluster s.here).ring (dst.toNat % 16)
  let c : Copy :=
    { mode := mode, chan := ctlChan ctl, control := ctl, src := src, dst := dst, phys := phys, esize := 2 ^ ctlEsize ctl,
      count := ctlCount ctl, done := 0, base := 0, part := 0, hart := s.hart.id, cap := s.hart.cap, core := s.hart.core,
      chunk := s.hart.commits, tail0 := ringTail r.defn, filled0 := r.filled, words := [],
      keyed := keyInSlot s.here s.hart.id phys s, verified := [], stamp := s.clock,
      fx := s.hart.fenceX + s.hart.chunk.effects.countP (· == .fenceX), task := s.hart.task }
  { c with words := c.padWords }

/-- Does a copy-in's range include a word that still awaits a WQRY answer (R137)? -/
def awaitsAnswer (s : State) (c : Copy) : Bool :=
  s.queries.any fun q => q.core == c.core && !q.landed && c.padWords.contains q.word

/-- The waits of R136: the channel is idle and, for a copy-in, the task has no other in flight. -/
def copyWaits (s : State) (c : Copy) : Run Unit :=
  let cl := s.cluster s.here
  if (cl.chan c.chan).copy.isSome || cl.copyWait.any fun x => x.chan == c.chan then .error (.wait (.channel c.chan) s)
  else if c.mode.isIn && s.copyIn.isSome then .error (.wait .copyIn s)
  else .ok ()

/-- Start a copy-in at issue (R133, R136, R137): OWNER_BUSY comes before the waits (DESIGN CHOICE, log 144). -/
def issueIn (c : Copy) (s : State) : Run State := do
  ensure (!awaitsAnswer s c) .ownerBusy s
  copyWaits s c
  .ok (startCopy s.here c s)

/-- Buffer a copy-out: one outgoing message; it is released at the commit (R133). -/
def issueOut (c : Copy) (s : State) : Run State := do
  copyWaits s c
  bufferOut (.copyOut c) s

/-- The endpoint extent of a handle, or MSG_TARGET (R133). A gate or a doorbell (R278) is no place for a copy (DEDUCED, log 99). -/
def endpoint (h : Word) (s : State) : Run Nat :=
  match s.extent? (handleIdx h) with
  | some e => if e.kind = 5 ∧ bitsOf e.base 63 60 = 3 then .ok e.base else .error (.fault .msgTarget (some h) s)
  | none => .error (.fault .msgTarget (some h) s)

/-- The body of a CPY (R132, R133): the control word, the forms of source and destination, the mode's checks, then the waits (DESIGN CHOICE, log
144). -/
def copyBody (mode : CopyMode) (ctl src dst : Word) (s : State) : Run State := do
  let e := 2 ^ ctlEsize ctl
  let n := ctlCount ctl * e
  ensure (ctlOk ctl) .copyFormat s
  match mode with
  | .ms =>
    ensure (memOperand src e) .copyFormat s
    ensure (padOperand dst e n) .windowIndex s
    let (pa, s) ← reachTask src n .copySrc s
    issueIn (newCopy mode ctl src dst pa s) s
  | .sm =>
    ensure (padOperand src e n) .windowIndex s
    ensure (memOperand dst e) .copyFormat s
    let (pa, s) ← reachTask dst n .copyDst s
    issueOut (newCopy mode ctl src dst pa s) s
  | .mr =>
    ensure (memOperand src e) .copyFormat s
    ensure (decide (dst.toNat < 16)) .copyFormat s
    ringCheck false dst.toNat n s
    let (pa, s) ← reachTask src n .copySrc s
    issueIn (newCopy mode ctl src dst pa s) s
  | .ur =>
    ensure (memOperand src e) .copyFormat s
    ensure (decide (dst.toNat < 16)) .copyFormat s
    ringCheck true dst.toNat n s
    let (pa, s) ← reachTask src n .unseal s
    issueIn (newCopy mode ctl src dst pa s) s
  | .es =>
    ensure (padOperand dst e n) .windowIndex s
    let base ← endpoint src s
    issueIn (newCopy mode ctl src dst base s) s
  | .se =>
    ensure (padOperand src e n) .windowIndex s
    let base ← endpoint dst s
    issueOut (newCopy mode ctl src dst base s) s

/-- CPY (R132). -/
def opCpy (mode : CopyMode) (d a b : SReg) (w v : Bool) : Op :=
  { srcs := srcDAB d a b w v, body := fun s => copyBody mode (s.sreg d) (s.sreg a) (s.sreg b) s }

/-- CPY.MS (R133): memory to scratchpad. -/
def execCpyMs (d a b : SReg) (w v : Bool) (s : State) : Answer := issue (.cpyMs d a b w v) (opCpy .ms d a b w v) s

/-- CPY.SM (R133): scratchpad to memory. -/
def execCpySm (d a b : SReg) (w v : Bool) (s : State) : Answer := issue (.cpySm d a b w v) (opCpy .sm d a b w v) s

/-- CPY.MR (R133): memory to ring. -/
def execCpyMr (d a b : SReg) (w v : Bool) (s : State) : Answer := issue (.cpyMr d a b w v) (opCpy .mr d a b w v) s

/-- CPY.UR (R133): unseal to ring. -/
def execCpyUr (d a b : SReg) (w v : Bool) (s : State) : Answer := issue (.cpyUr d a b w v) (opCpy .ur d a b w v) s

/-- CPY.ES (R133): peer endpoint to scratchpad. -/
def execCpyEs (d a b : SReg) (w v : Bool) (s : State) : Answer := issue (.cpyEs d a b w v) (opCpy .es d a b w v) s

/-- CPY.SE (R133): scratchpad to peer endpoint. -/
def execCpySe (d a b : SReg) (w v : Bool) (s : State) : Answer := issue (.cpySe d a b w v) (opCpy .se d a b w v) s

/-! The channel queries (R138). -/

/-- A channel as the task may see it: its WP, and is it idle? Another capsule's channel reads as WP 0 and idle. -/
def channelView (s : State) (n : Nat) : Word × Bool :=
  let ch := (s.cluster s.here).chan n
  if s.isTask && ch.cap == some s.hart.cap then (ch.wp, ch.copy.isNone) else (0, true)

/-- CPYWP (R138). -/
def opCpywp (d a : SReg) (w : Bool) : Op :=
  opScalar d [.s a w] fun s => (channelView s ((s.sreg a).toNat % 16)).1

/-- CPYWP (R138). -/
def execCpywp (d a : SReg) (w : Bool) (s : State) : Answer := issue (.cpywp d a w) (opCpywp d a w) s

/-- CWAIT (R138): until WP reaches s(b) or the channel is idle. -/
def opCwait (a b : SReg) (w v : Bool) : Op :=
  { srcs := srcAB a b w v,
    body := fun s =>
      let n := (s.sreg a).toNat % 16
      let c := channelView s n
      if c.2 || (s.sreg b).ule c.1 then .ok s else .error (.wait (.channel n) s) }

/-- CWAIT (R138). -/
def execCwait (a b : SReg) (w v : Bool) (s : State) : Answer := issue (.cwait a b w v) (opCwait a b w v) s

/-- OWN (R138). -/
def opOwn (d a : SReg) (w : Bool) : Op :=
  { srcs := [.s a w],
    body := fun s => do
      let x := (s.sreg a).toNat
      ensure (decide (x < 65536)) .windowIndex s
      .ok (writeS d (if regionHeld x 1 s then 1 else 0) s) }

/-- OWN (R138). -/
def execOwn (d a : SReg) (w : Bool) (s : State) : Answer := issue (.own d a w) (opOwn d a w) s

/-! Rings as the engine fills them (R134, R168, R169). -/

/-- Weights that a context holds: its own and its checkpoint's. -/
def Hart.weights (h : Hart) : List Weights :=
  h.r.wact.toList ++ h.r.wpend.toList ++ h.ckpt.wact.toList ++ h.ckpt.wpend.toList

/-- Is a B slot in use (R169)? -/
def slotInUse (s : State) (r : Ring) (n slot : Nat) : Bool :=
  match r.owner.bind s.hart? with
  | none => false
  | some h => h.weights.any fun w => w.ring == n && w.slot == slot

/-- May the engine fill the slot at TAIL: a committed pop has released it, and it is not in use? -/
def canFill (s : State) (cl n : Nat) : Bool :=
  let r := (s.cluster cl).ring n
  decide (r.filled < ringCount r.defn) && !slotInUse s r n (ringTail r.defn)

/-- The partition of a capsule. -/
def partOf (s : State) (cap : Nat) : Nat :=
  match s.cap? cap with
  | some c => c.part
  | none => 0

/-- Put bytes of an element into a ring from its TAIL, as far as slots are free; a full slot advances TAIL. -/
def placeRing (cl : Nat) : Nat → Copy → List Byte → State → Copy × State
  | 0, c, _, s => (c, s)
  | k + 1, c, bs, s =>
    let n := c.dst.toNat % 16
    let d := ((s.cluster cl).ring n).defn
    let size := ringSlot d
    let off := (c.done * c.esize + c.part) % size
    if c.esize ≤ c.part ∨ (off = 0 ∧ canFill s cl n = false) then (c, s)
    else
      let len := Nat.min (c.esize - c.part) (size - off)
      let s := s.modCluster cl fun q => { q with opbuf := q.opbuf.writeBytes (slotAddr d (ringTail d) + off) ((bs.drop c.part).take len) }
      let s := settleBuffer (partOf s c.cap) cl [(slotAddr d (ringTail d) + off, len)] s
      let s := if off + len = size then
          modRing cl n (fun r => { r with defn := withTail r.defn ((ringTail r.defn + 1) % ringCount r.defn), filled := r.filled + 1 }) s
        else s
      placeRing cl k { c with part := c.part + len } bs s

/-! Failures and the end of a copy. -/

/-- A capsule fault outside an instruction, with a task concerned (R345). -/
def taskReport (id code : Nat) (detail : Word) (cap : Nat) (s : State) : Memory :=
  match s.hart? id with
  | none => bareReport s cap code detail
  | some h => taskFields {} { s with hart := h } 0 (commonFields s cap code detail)

/-- A capsule fault that belongs to no open chunk, a release that is refused or a copy whose chunk has committed: it is taken at once, and no
squash sets it aside (R204, R324, R345). Where R345 does not list the code, the report names the task as it does for those that it lists
(DESIGN CHOICE, log 148). -/
def ownerFault (cap id : Nat) (code : Code) (detail : Word) (s : State) : State :=
  abortCapsule cap code.num (taskReport id code.num detail cap s) s

/-- A capsule fault that a unit raises on behalf of a task for its open chunk (R204, R227, R228, R230, R345). -/
def unitFault (cap id : Nat) (code : Code) (detail : Word) (s : State) : State :=
  match s.hart? id with
  | some h =>
    if h.kind = .task ∧ h.run ≠ .ended then
      onHart id (fun t => chunkFault {} code detail (ownerFault cap id code detail) t) s
    else ownerFault cap id code detail s
  | none => ownerFault cap id code detail s

/-- Is the chunk that issued a copy-in still open? A copy-out has left its chunk, and a copy that restarts from a snapshot stands in none: no
squash cancels it (R139, R140) (DEDUCED, log 147). -/
def inOpenChunk (s : State) (c : Copy) : Bool :=
  c.mode.isIn && (s.hart? c.hart).any fun h => h.commits == c.chunk && h.run != .ended

/-- A capsule fault that the engine raises for a copy. -/
def engineFault (c : Copy) (code : Code) (detail : Word) (s : State) : State :=
  if inOpenChunk s c then unitFault c.cap c.hart code detail s else ownerFault c.cap c.hart code detail s

/-- A capsule fault for a copy whose chunk has committed: R345 names no task for it, and its DETAIL is not stated (log 7). -/
def copyFault (cap : Nat) (code : Code) (s : State) : State :=
  let (d, t) := s.free
  abortCapsule cap code.num (bareReport t cap code.num d) t

/-- A copy that fails stops (R261): while its chunk is open its task takes the cause as a rollback-class error, else the capsule
takes it as a capsule fault. -/
def failCopy (cl : Nat) (c : Copy) (code : Code) (s : State) : State :=
  let stopped := cancelCopy cl c s
  if inOpenChunk s c then onHart c.hart (raise {} code none) stopped else copyFault c.cap code stopped

/-- A progress event of a capsule's queue (R304). -/
def noteProgress (cap : Nat) (s : State) : State :=
  match s.cap? cap with
  | some c => s.modQueue c.queue fun q => { q with progress := s.clock }
  | none => s

/-- The end of a copy: its regions go back and the channel is idle (R136, R137). A core it kept may now be cleared. -/
def endCopy (cl : Nat) (c : Copy) (s : State) : State := releaseCore c.core (freeChan cl c (releaseRegions c s))

/-- One element has been delivered: WP counts it, and the last one ends the copy (R135, R136). -/
def countElement (cl : Nat) (c : Copy) (s : State) : State :=
  let c := { c with done := c.done + 1, part := 0, stamp := s.clock }
  let s := modChan cl c.chan (fun ch => { ch with copy := some c, wp := ch.wp + 1 }) (noteProgress c.cap s)
  if c.done = c.count then endCopy cl c s else s

/-- The bytes that a scratchpad copy has delivered so far make words full (R135, R137). -/
def fillWords (c : Copy) (s : State) : State :=
  let upto := c.dst.toNat + (c.done + 1) * c.esize
  let last := c.dst.toNat + c.count * c.esize
  let full := c.words.filter fun w => decide (Nat.min (8 * w + 8) last ≤ upto)
  s.modCore c.core fun k => { k with empty := k.empty.filter fun w => !full.contains w }

/-- The cause of poison in a range of memory. -/
def poisonCause (s : State) (pa n : Nat) : Option Code :=
  match (unitsOf 32 pa n).findSome? fun x => (s.poison.find? fun p => p.1 == x).map Prod.snd with
  | some true => some .integrity
  | some false => some .poison
  | none => none

/-- Is a byte of a range poisoned? -/
def poisoned (s : State) (addr n : Nat) : Bool := (poisonCause s addr n).isSome

/-- The bytes of a range as the host, a peer or the admission unit reads them: those of a poisoned sector are undefined, and free (R256; log 7). -/
def outBytes (pa n : Nat) (s : State) : List Byte × State :=
  if poisoned s pa n then
    ((List.range n).map fun i => if poisoned s (pa + i) 1 then BitVec.ofNat 8 (Config.freeNat (s.fresh + i)) else s.mem.read (pa + i),
     { s with fresh := s.fresh + n })
  else (s.mem.readBytes pa n, s)

/-- A unit of the device reads a range: what the read of its lines finds happens (R256); while a home slice is in retention it gets nothing and
waits (R259). -/
def deviceRead (part pa n : Nat) (s : State) : Option (List Byte) × State :=
  let units := homeUnits s pa n
  if asleep s units then (none, startExit units s)
  else
    let (bs, t) := outBytes pa n (readLines part pa n (noteUse units s))
    (some bs, t)

/-- The unit that the engine is: no context of this id exists, so its writes are checked against every chunk (R201). -/
def engineUnit (s : State) (cap core : Nat) : Hart := { Hart.reset s.nextId .task core with cap := cap, task := saffronId }

/-- Write an element into scratchpad (R135); a sector written whole loses its poison, and a part of one is merged (R261). -/
def padElement (c : Copy) (bs : List Byte) (s : State) : State :=
  let a := c.dst.toNat + c.done * c.esize
  settlePad (partOf s c.cap) c.core [(a, c.esize)] (fillWords c (s.modCore c.core fun k => { k with pad := k.pad.writeBytes a bs }))

/-- Set a dirty bit (R263): a no-return OR, which the chunks that have read its line see (R194). -/
def setDirtyBit (h : Hart) (part : Nat) (d : Nat × Nat) (s : State) : State :=
  publish h.id (sigRange d.1 8) [] (applyAmo h part d.1 .or true (word (2 ^ d.2)) s)

/-- The dirty bits that a copy's next element sets, through its destination extent (R263). -/
def copyDirty (c : Copy) (s : State) : List (Nat × Nat) :=
  match s.cap? c.cap with
  | some k => dirtyBits k.exts (addOff c.dst (c.done * c.esize)) c.esize
  | none => []

/-- Poison that a copy-out carries from the scratchpad to the memory it writes (R261) (DEDUCED, log 56): the sectors that take a byte of a poisoned
sector. -/
def carryPoison (core src pa n : Nat) (s : State) : State :=
  let hit := (List.range n).filter fun i => s.padPoison.contains (core, (src + i) / 32)
  let xs := (hit.map fun i => (pa + i) / 32).eraseDups
  { s with poison := (xs.filter fun x => !s.poison.any fun p => p.1 == x).map (fun x => (x, false)) ++ s.poison }

/-- Does a range of a core's scratchpad touch a poisoned sector? -/
def padTainted (s : State) (core a n : Nat) : Bool := s.padPoison.any fun p => p.1 == core && (unitsOf 32 a n).contains p.2

/-- The initial value of a group: NONCE, the group index and zeros, most significant first (R262) (DEDUCED, log 20). -/
def groupIv (rec : Memory) (g : Nat) : List Byte := beBytes 12 (rec.readLE 0x30 8 * 2 ^ 32 + g * 2 ^ 16)

/-- The weight key of a seal record, unwrapped under the device key (R238, R262). -/
def weightKey (rec : Memory) : Option (List Byte) := kwUnwrap (keyBytes Config.deviceKey) (rec.readBytes 0 40)

/-- Plaintext bytes of a sealed group range, which lies within one group (R262). -/
def unsealed (s : State) (key : List Byte) (pa n : Nat) : List Byte :=
  let (rec, g) := sealOf s pa
  let off := pa % 65536
  let first := off / 16
  let cipher := s.mem.readBytes (pa - off % 16) (n + off % 16)
  ((gctr key (groupIv rec g) ((cipher.length + 15) / 16) (2 + first) cipher).drop (off % 16)).take n

/-- Plaintext of an element, which may lie in several groups. -/
def unsealedRange (s : State) (key : List Byte) (pa n : Nat) : List Byte :=
  ((unitsOf 65536 pa n).map fun g =>
    let lo := Nat.max pa (65536 * g)
    unsealed s key lo (Nat.min (pa + n) (65536 * g + 65536) - lo)).flatten

/-- The key of a lease's slot. -/
def slotKey (s : State) (cl id : Nat) : List Byte :=
  match (s.cluster cl).keys.find? fun k => k.hart == id with
  | some k => keyBytes k.key
  | none => []

/-- Deliver into a ring as much of an element as slots are free for (R134). -/
def ringElement (cl : Nat) (c : Copy) (bs : List Byte) (s : State) : State :=
  let (c, s) := placeRing cl 64 c bs s
  if c.part = c.esize then countElement cl c s else modChan cl c.chan (fun ch => { ch with copy := some c }) s

/-- The fields of an endpoint BASE (R323). -/
def endLink (b : Nat) : Nat := bitsOf b 59 56
def endPeer (b : Nat) : Nat := bitsOf b 55 48
def endWin (b : Nat) : Nat := bitsOf b 45 40

/-- A free byte string: what a peer's memory holds is not known here (log 21). -/
def peerBytes (n : Nat) (s : State) : List Byte × State :=
  ((List.range n).map fun i => BitVec.ofNat 8 (Config.freeNat (s.fresh + i)), { s with fresh := s.fresh + n })

/-- Do tier-1 writes stand between a release and the FENCE.X before it (R196)? -/
def fencedOff (s : State) (task fx : Nat) : Bool := s.dirty.any fun d => d.hart == task && decide (d.fx < fx)

/-- The address that an effect writes in memory. -/
def Effect.writes : Effect → Option Nat
  | .store pa _ | .amo pa .. | .arrive _ _ (some pa) | .jnew _ _ (some pa) .. => some pa
  | _ => none

/-- Does a chunk hold a tier-1 write with a FENCE.X after it? -/
def fencedWrite : List Effect → Bool
  | [] => false
  | e :: es => (e.writes.any (fun pa => decide (tier1Base ≤ pa)) && es.contains .fenceX) || fencedWrite es

/-- Does a FENCE.X hold a .es copy back (R196): writes before it are outstanding, or stand in its chunk, which has not committed? -/
def fencedCopy (s : State) (c : Copy) : Bool :=
  fencedOff s c.task c.fx || (s.hart? c.hart).any fun h => decide (h.fenceX < c.fx) && fencedWrite h.chunk.effects

/-- Does a copy have a side in this package's memory; does it read there? -/
def CopyMode.onMemory (m : CopyMode) : Bool := m != .es && m != .se
def CopyMode.reads (m : CopyMode) : Bool := m == .ms || m == .mr || m == .ur

/-- Deliver the next element of a copy; one whose lines, dirty bits or ring stand in a unit in retention waits (R259) (R134, R135, R205, R261, R323). A
copy-out from a poisoned sector carries the poison, and fails nothing (R231, R261) (DEDUCED, log 56). -/
def deliverElement (cl : Nat) (c : Copy) (s : State) : State :=
  let pa := c.phys + c.done * c.esize
  let off := c.done * c.esize
  let units := (if c.mode.onMemory then unitsAt s c.core pa c.esize else []) ++ (if c.mode.toRing then [cl] else []) ++
    (if c.mode = .sm then ((copyDirty c s).map fun d => homeUnits s d.1 8).flatten else [])
  if asleep s units then startExit units s
  else
  let s := noteUse units s
  let s := if c.mode.reads then readLines (partOf s c.cap) pa c.esize s else s
  match c.mode with
  | .ms =>
    match poisonCause s pa c.esize with
    | some code => failCopy cl c code s
    | none => countElement cl c (padElement c (s.mem.readBytes pa c.esize) s)
  | .mr =>
    match poisonCause s pa c.esize with
    | some code => failCopy cl c code s
    | none => ringElement cl c (s.mem.readBytes pa c.esize) s
  | .ur =>
    if c.keyed && (unitsOf 65536 pa c.esize).all fun g => c.verified.contains g then
      match poisonCause s pa c.esize with
      | some code => failCopy cl c code s
      | none => ringElement cl c (unsealedRange s (slotKey s cl c.hart) pa c.esize) s
    else s
  | .sm =>
    let s := meetPad (partOf s c.cap) c.core (c.src.toNat + off) c.esize s
    let bits := copyDirty c s
    if heldByToken s s.nextId pa c.esize || bits.any fun d => heldByToken s s.nextId d.1 8 then s
    else if sealedRange s pa c.esize then failCopy cl c .sealedCopy s
    else
      let h := engineUnit s c.cap c.core
      let part := partOf s c.cap
      let src := c.src.toNat + off
      let bs := (s.core c.core).pad.readBytes src c.esize
      let s := carryPoison c.core src pa c.esize (writeUnit h part pa bs s)
      countElement cl c (bits.foldl (fun t d => setDirtyBit h part d t) s)
  | .es =>
    if fencedCopy s c then s
    else if s.links.getLsbD (endLink c.phys) then
      let (bs, s) := peerBytes c.esize s
      countElement cl c (padElement c bs s)
    else engineFault c .msgTarget c.src (cancelCopy cl c s)
  | .se =>
    let s := meetPad (partOf s c.cap) c.core (c.src.toNat + off) c.esize s
    if s.links.getLsbD (endLink c.phys) then
      let src := c.src.toNat + off
      let bs := (s.core c.core).pad.readBytes src c.esize
      countElement cl c (s.emit (.peer (endLink c.phys) (endPeer c.phys) (endWin c.phys) (word (handleOff c.dst + off)) (padTainted s c.core src c.esize) bs))
    else engineFault c .msgTarget c.dst (endCopy cl c s)

/-- Start the first copy-out that waits for an idle channel (R133). -/
def startWaiting (cl chan : Nat) (s : State) : State :=
  let k := s.cluster cl
  if (k.chan chan).copy.isSome then s
  else match k.copyWait.find? fun c => c.chan == chan with
    | none => s
    | some c =>
      startCopy cl { c with stamp := s.clock } (s.modCluster cl fun k => { k with copyWait := k.copyWait.eraseP fun c => c.chan == chan })

/-- COPY_START (R133). -/
def execCopyStart (cluster chan : Nat) (s : State) : Answer := event (startWaiting cluster chan) s

/-- A copy-out that a commit has released, and whose regions the engine has (R133, R137), starts when its channel is idle. -/
def releaseCopy (c : Copy) (s : State) : State :=
  let cl := clusterNo c.core
  startWaiting cl c.chan (s.modCluster cl fun k => { k with copyWait := k.copyWait ++ [c] })

/-! Releases to endpoints (R196, R208, R278, R323 to R325). -/

/-- A SENDX release writes a doorbell (R278): VALUE and COUNT, and its vector when it is enabled. -/
def ringDoorbell (part n : Nat) (v : Word) (s : State) : State :=
  let d := lookup Doorbell.n (fun k => { n := k, value := 0, count := 0, ctl := 0 }) (s.part part).doorbells n
  let d := { d with value := v, count := min (2 ^ 32 - 1) (d.count + 1) }
  let s := s.modPart part fun p => { p with doorbells := update Doorbell.n p.doorbells d }
  if d.ctl.getLsbD 16 then s.emit (.msix (part + 1) (bitsOf d.ctl.toNat 10 0)) else s

/-- A gate release: AMOADD.NR of 64 bits at the word, as a unit (R278). -/
def ringGate (h : Hart) (part pa : Nat) (v : Word) (s : State) : State :=
  publish h.id (sigRange pa 8) [] (applyAmo h part pa .add true v s)

/-- The peer link of an effect that leaves the package over a link. -/
def Effect.link : Effect → Option Nat
  | .sendx _ _ _ base _ _ => if bitsOf base.toNat 63 60 = 3 then some (endLink base.toNat) else none
  | .copyOut c => if c.mode = .se then some (endLink c.phys) else none
  | _ => none

/-- Release a SENDX to its endpoint (R278, R323). A gate in a granule sealed since is not written (R262; DEDUCED, log 125). A link that is down
refuses, and the capsule takes MSG_TARGET (R324). -/
def releaseSendx (id cap core : Nat) (handle base v : Word) (body : Vector Word 6) (s : State) : State :=
  let b := base.toNat
  match bitsOf b 63 60 with
  | 1 =>
    if sealedRange s (bitsOf b 47 0) 8 then ownerFault cap id .sealedWrite handle s
    else ringGate (engineUnit s cap core) (partOf s cap) (bitsOf b 47 0) v s
  | 2 => ringDoorbell (bitsOf b 19 16) (bitsOf b 8 0) v s
  | _ =>
    if s.links.getLsbD (endLink b) then
      s.emit (.peer (endLink b) (endPeer b) (endWin b) v false ((body.toList.map fun w => leBytes 8 w.toNat).flatten))
    else ownerFault cap id .msgTarget handle s

/-- Is a .se copy on its way over a link (R325)? -/
def linkBusy (s : State) (l : Nat) : Bool :=
  s.clusters.any fun k => (k.copies ++ k.copyWait).any fun c => (Effect.copyOut c).link == some l

/-- The context in which a task runs now; a number that no context has, where it runs in none. -/
def contextOf (s : State) (task : Nat) : Nat :=
  match s.harts.find? fun h => h.kind == .task && h.task == task && h.run != .ended with
  | some h => h.id
  | none => s.nextId

/-- Release one effect of a commit of a task. -/
def releaseNow (task : Nat) (e : Effect) (s : State) : State :=
  match e with
  | .sendx cap core h base v body => releaseSendx (contextOf s task) cap core h base v body s
  | .copyOut c => releaseCopy c s
  | .spawn c => placeChild c s
  | _ => s

/-- May a held release go: nothing is fenced off before it, its link is free of copies, and no earlier release over its link is
still held (R196, R208, R325)? A child needs room in its queue's ring (R219). -/
def mayRelease (s : State) (earlier : List (Nat × Nat × Effect)) (x : Nat × Nat × Effect) : Bool :=
  match x.2.2 with
  | .spawn c => !(s.queue (c.target s)).full
  | _ =>
    !fencedOff s x.1 x.2.1 &&
    match x.2.2.link with
    | some l => !linkBusy s l && !earlier.any fun y => y.2.2.link == some l
    | none => true

/-- The home slice of the gate that a release writes (R259, R278). -/
def Effect.gateUnits (s : State) : Effect → List Nat
  | .sendx _ _ _ base _ _ => if bitsOf base.toNat 63 60 = 1 then homeUnits s (bitsOf base.toNat 47 0) 8 else []
  | _ => []

/-- Release what may go, in order (R196, R208, R325); a gate whose slice is in retention waits for it (R259). -/
def releaseHeld (s : State) : State :=
  s.heldx.foldl (fun t x =>
    let earlier := t.heldx.takeWhile fun y => y != x
    if mayRelease t earlier x then
      let units := x.2.2.gateUnits t
      if asleep t units then startExit units t else releaseNow x.1 x.2.2 (noteUse units { t with heldx := t.heldx.erase x })
    else t) s

/-- Take a release of a commit into order. -/
def holdRelease (task fx : Nat) (e : Effect) (s : State) : State := releaseHeld { s with heldx := s.heldx ++ [(task, fx, e)] }

/-- WEIGHT_KEY_LOAD (R238): Saffron unwraps the weight key of the source extent into the lease's slot; a key that is there is
replaced. A key that does not unwrap gives a tag that fails, as SEAL_TAG (DEDUCED, log 20). -/
def loadWeightKey (cl : Nat) (c : Copy) (s : State) : State :=
  let key := (weightKey (sealOf s c.phys).1).getD []
  let s := s.modCluster cl fun k =>
    { k with keys := { hart := c.hart, wrapped := wrappedKey s c.phys, key := keyOf key } :: k.keys.filter fun x => x.hart != c.hart }
  modChan cl c.chan (fun ch => { ch with copy := some { c with keyed := true } }) s

/-- WEIGHT_KEY_LOAD (R238). -/
def execWeightKeyLoad (cluster chan : Nat) (s : State) : Answer :=
  event (fun s => match ((s.cluster cluster).chan chan).copy with
    | some c => if c.mode = .ur ∧ c.keyed = false then loadWeightKey cluster c s else s
    | none => s) s

/-- Does the tag of a group verify (R262)? A clear GMASK bit does not. -/
def groupOk (s : State) (key : List Byte) (g : Nat) : Bool :=
  let (rec, i) := sealOf s (65536 * g)
  bitOf (rec.readLE 0x38 4) i && gcmTag key (groupIv rec i) [] (s.mem.readBytes (65536 * g) 65536) == rec.readBytes (0x40 + 16 * i) 16

/-- The source handle of a group of a copy (R345). -/
def groupHandle (c : Copy) (g : Nat) : Word := addOff c.src (Int.ofNat (65536 * g) - Int.ofNat c.phys)

/-- Verify the next group that the present element needs; a line of it that stands in a unit in retention makes it wait (R259) (R134, R262). -/
def verifyGroup (cl : Nat) (c : Copy) (s : State) : State :=
  match (unitsOf 65536 (c.phys + c.done * c.esize) c.esize).find? fun g => !c.verified.contains g with
  | none => s
  | some g =>
    let units := unitsAt s c.core (65536 * g) 65536
    if asleep s units then startExit units s
    else
    let s := noteUse units s
    let s := readLines (partOf s c.cap) (65536 * g) 65536 s
    match poisonCause s (65536 * g) 65536 with
    | some code => failCopy cl c code s
    | none =>
      if groupOk s (slotKey s cl c.hart) g then modChan cl c.chan (fun ch => { ch with copy := some { c with verified := g :: c.verified } }) s
      else engineFault c .sealTag (groupHandle c g) (cancelCopy cl c s)

/-- SEAL_GROUP_VERIFY (R134, R262). -/
def execSealGroupVerify (cluster chan : Nat) (s : State) : Answer :=
  event (fun s => match ((s.cluster cluster).chan chan).copy with
    | some c => if c.mode = .ur ∧ c.keyed = true then verifyGroup cluster c s else s
    | none => s) s

/-! Restart (R140). -/

/-- A copy mode from its number (R18, R59). -/
def modeOfNum (n : Nat) : CopyMode :=
  match n with
  | 0 => .ms | 1 => .sm | 2 => .mr | 3 => .ur | 4 => .es | _ => .se

/-- RST without its channel snapshot. -/
def dropSnapshot (r : BitVec 512) : BitVec 512 := rstPut (rstPut (rstPut 0 0 4 (rstGet r 0 4)) 4 1 (rstGet r 4 1 % 2)) 5 1 0

/-- Restart the copy of a snapshot before the first instruction (R140): it waits for its channel. Its checks are those of an issue (R133)
but for the length, which was checked at the issue: what remains of a ring copy need not fill whole slots. -/
def restartCopy (s : State) : Run State := do
  let r := s.hart.r.rst
  let mode := modeOfNum (rstGet r 4 1 / 4 % 8)
  let esize := rstGet r 6 2
  let src := word (rstGet r 8 8)
  let count := rstGet r 0x18 4
  let loc := word (rstGet r 0x20 4)
  let n := count * esize
  let clear := fun (t : State) => t.mod fun h => { h with r := { h.r with rst := dropSnapshot r }, ckpt := { h.ckpt with rst := dropSnapshot r } }
  if count = 0 then .ok (clear s)
  else do
    if mode.toRing then ringCheck (mode == .ur) (loc.toNat % 16) 0 s
    let (phys, s) ← if mode = .es then do
        let b ← endpoint src s
        .ok (b, s)
      else reachTask src n (if mode = .ur then .unseal else .copySrc) s
    let ctl := word (count * 4096 + Nat.log2 esize * 256 + rstGet r 5 1 % 16)
    let c := { newCopy mode ctl src loc phys s with base := rstGet r 0x1C 4, chunk := s.hart.commits + 2 ^ 64 }
    copyWaits s c
    .ok (clear (startCopy s.here c s))

end Sys2Proof.Machine
end

