-- ==== Sys2Proof/Machine/TileData.lean ====
section
/-! DEFINITION. Tiles, views, tile loads and stores, scratchpad windows and the register-file instructions
(spec/05_tile_data.md R123 to R131, spec/01 R14, R15, R18). -/

namespace Sys2Proof.Machine

/-! Shapes and elements (R14, R124). -/

def shapeFmt (v : BitVec 16) : Nat := bitsOf v.toNat 15 12
def shapeRb (v : BitVec 16) : Nat := bitsOf v.toNat 11 6 + 1
def shapeRows (v : BitVec 16) : Nat := bitsOf v.toNat 5 0 + 1

/-- Element size: NP plane bytes count as 1 (R124). -/
def shapeSize (v : BitVec 16) : Nat := Num.size (shapeFmt v)

/-- Columns (R124). -/
def shapeCols (v : BitVec 16) : Nat := shapeRb v / shapeSize v

/-- A shape word from its parts. -/
def mkShape (fmt rb rows : Nat) : BitVec 16 := BitVec.ofNat 16 (fmt * 4096 + (rb - 1) * 64 + (rows - 1))

/-- Element (i, j) at size e (R14). -/
def elem (m : Memory) (e i j : Nat) : Nat := m.readLE (64 * i + e * j) e

/-- A tile's data from its elements, with zero padding (R124). -/
def buildTile (e rows cols : Nat) (f : Nat → Nat → Nat) : Memory :=
  Memory.tabulate (64 * rows) fun k =>
    if k % 64 / e < cols then BitVec.ofNat 8 (f (k / 64) (k % 64 / e) / 256 ^ (k % 64 % e)) else Memory.default

/-! Views (R15). -/

def State.view (s : State) (p : PReg) : Nat := (s.hart.r.p.get p).toNat

def viewClim (v : Nat) : Nat := bitsOf v 127 112
def viewRlim (v : Nat) : Nat := bitsOf v 111 96
def viewPitch (v : Nat) : Nat := bitsOf v 95 64
def viewHandle (v : Nat) : Nat := bitsOf v 63 0

/-- A view from its fields. -/
def mkView (handle pitch rlim clim : Nat) : BitVec 128 :=
  BitVec.ofNat 128 (handle % 2 ^ 64 + pitch * 2 ^ 64 + rlim * 2 ^ 96 + clim * 2 ^ 112)

/-- Write a view register. -/
def setView (p : PReg) (v : BitVec 128) (s : State) : State := s.modRegs fun r => { r with p := r.p.set p.val v p.isLt }

/-- The unmasked columns of row i: they are the first ones (R15). -/
def unmasked (v cols i : Nat) : Nat := if i < viewRlim v then Nat.min cols (viewClim v) else 0

/-- Post-increment by rows, columns or both (R15, R127): one row or column is `u` bytes or window locations an element. -/
def postView (v q u rows cols : Nat) : BitVec 128 :=
  let h := viewHandle v + (if bitOf q 0 then u * rows * viewPitch v else 0) + (if bitOf q 1 then u * cols else 0)
  mkView h (viewPitch v) (viewRlim v - (if bitOf q 0 then rows else 0)) (viewClim v - (if bitOf q 1 then cols else 0))

/-- The handle of the first element of row i: the address is the 64-bit sum of R15 (DEDUCED, log 51). -/
def rowHandle (v e i : Nat) : Word := word (viewHandle v + e * (i * viewPitch v))

/-- A row that does not complete leaves RST.IDX at its number (R128). -/
def atRow {α : Type} (i : Nat) : Run α → Run α
  | .error (.fault c d s) => .error (.fault c d (setIdx i s))
  | r => r

/-- A row that waits for a unit, a way or a token leaves RST.IDX at its number: the rows before it have landed or are buffered, and the
instruction goes on with this one (R127, R128). -/
def holdRow {α : Type} (i : Nat) : Run α → Run α
  | .error (.wait w s) => .error (.wait w (setIdx i s))
  | r => r

/-- Do rows in order, from the restart index; after the last, RST is zero (R46, R127). -/
def rowsFrom (f : Nat → State → Run State) : List Nat → State → Run State
  | [], s => .ok (clearRst s)
  | i :: is, s => do
    let s ← atRow i (f i s)
    rowsFrom f is s

/-- The rows that a restartable access still has to do. -/
def restRows (s : State) (rows : Nat) : List Nat := (List.range rows).filter fun i => decide (s.rstIdx ≤ i)

/-- What a load leaves in a tile before its rows land: the old elements, padding zero; without `.k` each row is cleared as it
is done (R124, R127). -/
def openTile (t : TReg) (shape : BitVec 16) (s : State) : State :=
  writeT t (trim (shapeRows shape) (shapeRb shape) (s.tile t).data) shape s

/-- Land a row: its masked elements are zero, or keep their value with `.k` (R127). -/
def landRow (t : TReg) (shape : BitVec 16) (k : Bool) (i : Nat) (bs : List Byte) (s : State) : State :=
  let old := (s.tile t).data
  writeT t ((if k then old else old.clear (64 * i) 64).writeBytes (64 * i) bs) shape s

/-! Tile loads and stores (R127 to R129). -/

/-- Does a tile access take its blocking form: a file-backed extent, or a first unmasked element in tier 1 (R129)? -/
def blockingForm (s : State) (v : Nat) : Bool :=
  match s.extent? (handleIdx (rowHandle v 0 0)) with
  | none => false
  | some e => e.kind == 2 || (decide (0 < viewRlim v) && decide (0 < viewClim v) && decide (tier1Base ≤ e.base + handleOff (rowHandle v 0 0)))

/-- A row of the blocking form may wait before it is accessed (R129), as a free choice says (log 122): the rows before it have landed or are
buffered, RST.IDX is its number, and the wait can become a safe point (R39). -/
def awaitRow (blocks : Bool) (i : Nat) (s : State) : Run State :=
  let waited := s.hart.run == .blocked .row && s.rstIdx == i
  if blocks && !waited then
    let t := { s with fresh := s.fresh + 1 }
    if Config.freeBool s.fresh then .error (.wait .row (setIdx i t)) else .ok t
  else .ok s

/-- A load of one row. -/
def loadRow (ro : Bool) (t : TReg) (shape : BitVec 16) (k : Bool) (v e cols i : Nat) (s : State) : Run State := do
  let n := unmasked v cols i
  if n = 0 then .ok (landRow t shape k i [] s)
  else
    let (bs, s) ← if ro then loadRo (rowHandle v e i) (e * n) .read s else load (rowHandle v e i) (e * n) .read s
    .ok (landRow t shape k i bs s)

/-- TLD and TLDC (R127): rows in order; td is empty from issue until the last row lands, or the task issues nothing until then. -/
def opTileLoad (ro : Bool) (t : TReg) (p : PReg) (q f : Nat) (k : Bool) : Op :=
  { tiles := [t], srcs := if k then [.t t false] else [],
    body := fun s => do
      let old := (s.tile t).shape
      let e := Num.size f
      let rows := shapeRows old
      let cols := shapeRb old / e
      ensure (shapeRb old % e == 0) .illegal s
      let shape := mkShape f (shapeRb old) rows
      let v := s.view p
      let blocks := blockingForm s v
      let s ← rowsFrom (fun i s => holdRow i (awaitRow blocks i s >>= loadRow ro t shape k v e cols i)) (restRows s rows) (openTile t shape s)
      let s := setView p (postView v q e rows cols) s
      .ok (if blocks then s else produceT t (s.tile t).data shape s) }

/-- TLD (R127). -/
def execTld (t : TReg) (p : PReg) (q : BitVec 2) (f : BitVec 3) (k : Bool) (s : State) : Answer :=
  issue (.tld t p q f k) (opTileLoad false t p q.toNat f.toNat k) s

/-- TLDC (R127, R189): through the cluster's read-only cache. -/
def execTldc (t : TReg) (p : PReg) (q : BitVec 2) (f : BitVec 3) (k : Bool) (s : State) : Answer :=
  issue (.tldc t p q f k) (opTileLoad true t p q.toNat f.toNat k) s

/-- A store of one row: one store (R127). -/
def storeRow (t : TReg) (v e cols i : Nat) (s : State) : Run State :=
  let n := unmasked v cols i
  if n = 0 then .ok s else store (rowHandle v e i) ((s.tile t).data.readBytes (64 * i) (e * n)) .write s

/-- TST (R127). -/
def opTst (t : TReg) (p : PReg) (q f : Nat) (w : Bool) : Op :=
  { tiles := [t], srcs := [.t t w],
    body := fun s => do
      let shape := (s.tile t).shape
      let e := Num.size f
      ensureAt (shapeSize shape == e) .tileFormat (word t.val) s
      let v := s.view p
      let rows := shapeRows shape
      let cols := shapeCols shape
      let blocks := blockingForm s v
      let s ← rowsFrom (fun i s => holdRow i (awaitRow blocks i s >>= storeRow t v e cols i)) (restRows s rows) s
      .ok (setView p (postView v q e rows cols) s) }

/-- TST (R127). -/
def execTst (t : TReg) (p : PReg) (q : BitVec 2) (f : BitVec 3) (w : Bool) (s : State) : Answer :=
  issue (.tst t p q f w) (opTst t p q.toNat f.toNat w) s

/-! Scratchpad windows (R130, R131). -/

/-- FMT that TLDS writes through a window, or the tile's own (R130). -/
def windowFmt (n fmt : Nat) : Nat :=
  match n with
  | 0 => fmt
  | 5 | 6 => 5
  | 7 => 2
  | _ => 0

/-- Planes that a nested-precision window reads, and its restore bit (R130). -/
def windowPlanes (n : Nat) : Nat × Bool :=
  match n with
  | 1 => (8, false)
  | 2 => (4, false)
  | 3 => (2, false)
  | _ => (4, true)

/-- The scratchpad bytes of window location m, or of the byte address m of a W0 element of size e (R130). -/
def windowBytes (n e m : Nat) : List Nat :=
  match n with
  | 0 => List.range' m e
  | 5 | 7 => [m]
  | 6 => [2 * m, 2 * m + 1]
  | _ => (List.range (windowPlanes n).1).map fun q => 8192 * q + m / 8

/-- The element that those bytes decode to (R130). -/
def windowValue (n m : Nat) (bs : List Byte) : Nat :=
  match n with
  | 0 => leNat bs
  | 5 => (Num.roundFp 5 .rne (Num.ofE4 (leNat bs))).1
  | 6 => (Num.roundFp 5 .rne (Num.value 4 (leNat bs))).1
  | 7 => Num.ofSigned 32 (Num.toSigned 8 (leNat bs))
  | _ =>
    let bits := (List.range bs.length).foldl (fun acc q => acc + (if bitOf (bs.getD q 0).toNat (m % 8) then 2 ^ (7 - q) else 0)) 0
    Num.ofSigned 8 (Num.npValue bits (windowPlanes n).1 (windowPlanes n).2)

/-- The location of element (i, j): W0 counts bytes from HANDLE[15:0] (R130). -/
def windowLoc (n v e i j : Nat) : Nat := viewHandle v % 65536 + (if n = 0 then e else 1) * (i * viewPitch v + j)

/-- The bytes of the unmasked elements of a row. -/
def windowRow (n v e cols i : Nat) : List Nat :=
  ((List.range (unmasked v cols i)).map fun j => windowBytes n e (windowLoc n v e i j)).flatten

/-- A load of scratchpad bytes at listed addresses. -/
def loadPads : List Nat → State → Run (List Byte × State)
  | [], s => .ok ([], s)
  | a :: as, s => do
    let (b, s) ← loadPad a 1 s
    let (bs, s) ← loadPads as s
    .ok (b ++ bs, s)

/-- A row of TLDS: an address above 65,535 raises WINDOW_INDEX; a word that is empty makes the instruction wait (R130, R131), from its first row:
a row that is done later is checked later (DESIGN CHOICE, log 145). -/
def windowLoadRow (t : TReg) (shape : BitVec 16) (k : Bool) (n v e cols : Nat) (s0 : State) (i : Nat) (s : State) : Run State := do
  let addrs := windowRow n v e cols i
  ensure (addrs.all fun a => decide (a < 65536)) .windowIndex s
  if addrs.any fun a => (s.core s.hart.core).empty.contains (a / 8) then .error (.wait .padWords s0)
  else
    let (bs, s) ← loadPads addrs s
    let per := (windowBytes n e 0).length
    let out := ((List.range (unmasked v cols i)).map fun j =>
      leBytes e (windowValue n (windowLoc n v e i j) ((bs.drop (per * j)).take per))).flatten
    .ok (landRow t shape k i out s)

/-- TLDS (R130, R131). ILLEGAL for RB comes before WINDOW_INDEX for the handle (DEDUCED, log 120). -/
def opTlds (t : TReg) (p : PReg) (q n : Nat) (k : Bool) : Op :=
  { tiles := [t], srcs := if k then [.t t false] else [],
    body := fun s => do
      let old := (s.tile t).shape
      let fmt := windowFmt n (shapeFmt old)
      let e := Num.size fmt
      let rows := shapeRows old
      let cols := shapeRb old / e
      ensure (shapeRb old % e == 0) .illegal s
      let v := s.view p
      ensure (viewHandle v / 65536 == 0) .windowIndex s
      let shape := mkShape fmt (shapeRb old) rows
      let s ← rowsFrom (fun i => windowLoadRow t shape k n v e cols s i) (restRows s rows) (openTile t shape s)
      .ok (setView p (postView v q (if n = 0 then e else 1) rows cols) s) }

/-- TLDS (R130, R131). -/
def execTlds (t : TReg) (p : PReg) (q : BitVec 2) (n : BitVec 3) (k : Bool) (s : State) : Answer :=
  issue (.tlds t p q n k) (opTlds t p q.toNat n.toNat k) s

/-- A row of TSTS. -/
def windowStoreRow (t : TReg) (v e cols i : Nat) (s : State) : Run State :=
  let n := unmasked v cols i
  let a := windowLoc 0 v e i 0
  if n = 0 then .ok s
  else do
    ensure (decide (a + e * n ≤ 65536)) .windowIndex s
    storePad a ((s.tile t).data.readBytes (64 * i) (e * n)) s

/-- TSTS (R130, R131, R137): W1 to W7 raise WINDOW_STORE; a write into a held region raises OWNER_BUSY; neither has an effect. WINDOW_STORE
comes first (DEDUCED, log 54), and OWNER_BUSY, over all rows, before WINDOW_INDEX at a row (DESIGN CHOICE, log 134). -/
def opTsts (t : TReg) (p : PReg) (q n : Nat) (w : Bool) : Op :=
  { tiles := [t], srcs := [.t t w],
    body := fun s => do
      ensure (n == 0) .windowStore s
      let shape := (s.tile t).shape
      let e := shapeSize shape
      let rows := shapeRows shape
      let cols := shapeCols shape
      let v := s.view p
      ensure (viewHandle v / 65536 == 0) .windowIndex s
      let busy := (restRows s rows).any fun i =>
        regionHeld (windowLoc 0 v e i 0) (e * unmasked v cols i) s
      ensure (!busy) .ownerBusy s
      let s ← rowsFrom (fun i => windowStoreRow t v e cols i) (restRows s rows) s
      .ok (setView p (postView v q e rows cols) s) }

/-- TSTS (R130, R131). -/
def execTsts (t : TReg) (p : PReg) (q : BitVec 2) (n : BitVec 3) (w : Bool) (s : State) : Answer :=
  issue (.tsts t p q n w) (opTsts t p q.toNat n.toNat w) s

/-! Register-file instructions (R125). -/

/-- TSHAPE (R125): data and presence stay. -/
def opTshape (t : TReg) (a : SReg) (w : Bool) : Op :=
  { tiles := [t], srcs := [.s a w],
    body := fun s => do
      let v := (s.sreg a).toNat % 65536
      ensure (shapeOk v) .illegal s
      .ok (s.modRegs fun g => { g with t := g.t.set t.val { g.t.get t with shape := BitVec.ofNat 16 v } t.isLt }) }

/-- TSHAPE (R125). -/
def execTshape (t : TReg) (a : SReg) (w : Bool) (s : State) : Answer := issue (.tshape t a w) (opTshape t a w) s

/-- TSHAPEQ (R125): it does not wait for the tile. -/
def opTshapeq (d : SReg) (t : TReg) : Op :=
  { tiles := [t], body := fun s => .ok (writeS d (word (s.tile t).shape.toNat) s) }

/-- TSHAPEQ (R125). -/
def execTshapeq (d : SReg) (t : TReg) (s : State) : Answer := issue (.tshapeq d t) (opTshapeq d t) s

/-- TCLR (R125). -/
def opTclr (t : TReg) : Op := { tiles := [t], body := fun s => .ok (writeT t [] (s.tile t).shape s) }

/-- TCLR (R125). -/
def execTclr (t : TReg) (s : State) : Answer := issue (.tclr t) (opTclr t) s

/-- TMOV (R124, R125). -/
def opTmov (x y : TReg) (w : Bool) : Op :=
  { tiles := [x, y], srcs := [.t y w],
    body := fun s =>
      let a := s.tile y
      .ok (writeT x (trim (shapeRows a.shape) (shapeRb a.shape) a.data) a.shape s) }

/-- TMOV (R125). -/
def execTmov (x y : TReg) (w : Bool) (s : State) : Answer := issue (.tmov x y w) (opTmov x y w) s

/-- TTR (R125): the transpose. -/
def opTtr (x y : TReg) (w : Bool) : Op :=
  { tiles := [x, y], srcs := [.t y w],
    body := fun s => do
      let a := s.tile y
      let e := shapeSize a.shape
      let rows := shapeRows a.shape
      let cols := shapeCols a.shape
      ensure (decide (cols ≤ 64) && decide (e * rows ≤ 64)) .tileFormat s
      .ok (writeT x (buildTile e cols rows fun i j => elem a.data e j i) (mkShape (shapeFmt a.shape) (e * rows) cols) s) }

/-- TTR (R125). -/
def execTtr (x y : TReg) (w : Bool) (s : State) : Answer := issue (.ttr x y w) (opTtr x y w) s

/-- TBCR and TBCC (R125): one row or one column of ta everywhere. -/
def opTbc (byRow : Bool) (x y : TReg) (b : SReg) (w v : Bool) : Op :=
  { tiles := [x, y], srcs := [.t y w, .s b v],
    body := fun s => do
      let a := s.tile y
      let e := shapeSize a.shape
      let rows := shapeRows a.shape
      let cols := shapeCols a.shape
      let n := (s.sreg b).toNat
      ensure (decide (n < if byRow then rows else cols)) .tileIndex s
      .ok (writeT x (buildTile e rows cols fun i j => if byRow then elem a.data e n j else elem a.data e i n) a.shape s) }

/-- TBCR (R125). -/
def execTbcr (x y : TReg) (b : SReg) (w v : Bool) (s : State) : Answer := issue (.tbcr x y b w v) (opTbc true x y b w v) s

/-- TBCC (R125). -/
def execTbcc (x y : TReg) (b : SReg) (w v : Bool) (s : State) : Answer := issue (.tbcc x y b w v) (opTbc false x y b w v) s

/-- Row and column of an index operand (R125). -/
def indexOf (b : Word) : Nat × Nat := (bitsOf b.toNat 13 8, bitsOf b.toNat 5 0)

/-- Does an index name an element of a shape? -/
def indexOk (sh : BitVec 16) (ix : Nat × Nat) : Bool := decide (ix.1 < shapeRows sh) && decide (ix.2 < shapeCols sh)

/-- The 64-bit word of a register in which an element stands. -/
def elemWord (e : Nat) (ix : Nat × Nat) : Nat := (64 * ix.1 + e * ix.2) / 8

/-- TEXTR (R125): integers are sign-extended, all else zero-extended. -/
def opTextr (d : SReg) (t : TReg) (b : SReg) (w v : Bool) : Op :=
  { tiles := [t], srcs := [.part t w, .s b v],
    body := fun s => do
      let a := s.tile t
      let e := shapeSize a.shape
      let ix := indexOf (s.sreg b)
      ensure (indexOk a.shape ix) .tileIndex s
      let s ← meetTileWords t [elemWord e ix] s
      let x := elem a.data e ix.1 ix.2
      .ok (writeS d (if Num.isInt (shapeFmt a.shape) then signExtendBytes e x else word x) s) }

/-- TEXTR (R125). -/
def execTextr (d : SReg) (t : TReg) (b : SReg) (w v : Bool) (s : State) : Answer := issue (.textr d t b w v) (opTextr d t b w v) s

/-- TINS (R125): one element; the rest of the register stays. -/
def opTins (t : TReg) (a b : SReg) (w v : Bool) : Op :=
  { tiles := [t], srcs := [.part t false, .s a w, .s b v],
    body := fun s => do
      let o := s.tile t
      let e := shapeSize o.shape
      let ix := indexOf (s.sreg b)
      ensure (indexOk o.shape ix) .tileIndex s
      let s ← meetTileWords t [elemWord e ix] s
      .ok (writeT t (o.data.writeLE (64 * ix.1 + e * ix.2) e (s.sreg a).toNat) o.shape s) }

/-- TINS (R125). -/
def execTins (t : TReg) (a b : SReg) (w v : Bool) (s : State) : Answer := issue (.tins t a b w v) (opTins t a b w v) s

/-! Views (R126). -/

/-- VSET (R126). -/
def opVset (p : PReg) (a b : SReg) (w v : Bool) : Op :=
  { srcs := srcAB a b w v, body := fun s => .ok (setView p (s.sreg b ++ s.sreg a) s) }

/-- VSET (R126). -/
def execVset (p : PReg) (a b : SReg) (w v : Bool) (s : State) : Answer := issue (.vset p a b w v) (opVset p a b w v) s

/-- VADV (R126). -/
def opVadv (p : PReg) (a b : SReg) (w v : Bool) : Op :=
  { srcs := srcAB a b w v,
    body := fun s =>
      let x := s.view p
      let b := (s.sreg b).toNat
      .ok (setView p (mkView (viewHandle x + (s.sreg a).toNat) (viewPitch x) (viewRlim x - bitsOf b 31 16)
        (viewClim x - bitsOf b 15 0)) s) }

/-- VADV (R126). -/
def execVadv (p : PReg) (a b : SReg) (w v : Bool) (s : State) : Answer := issue (.vadv p a b w v) (opVadv p a b w v) s

/-- VGET (R126). -/
def opVget (d : SReg) (p : PReg) (n : BitVec 1) : Op := opScalar d [] fun s => word (s.view p / 2 ^ (64 * n.toNat))

/-- VGET (R126). -/
def execVget (d : SReg) (p : PReg) (n : BitVec 1) (s : State) : Answer := issue (.vget d p n) (opVget d p n) s

end Sys2Proof.Machine
end

