-- ==== Sys2Proof/Machine/Matrix.lean ====
section
/-! DEFINITION. The matrix array: leases, rings, grants, weights, products, the epilogue and the residue check
(spec/07_matrix.md R160 to R184, spec/12 R239, spec/13 R243, spec/15 R291). -/

namespace Sys2Proof.Machine

/-! Leases (R162, R163). -/

/-- Is the matrix array of the cluster suspect (R181, R216)? -/
def suspect (s : State) : Bool := bitOf (s.cluster s.here).clstat.toNat 1

/-- Join the waiters of the cluster, behind those that wait already (R162, R243). -/
def awaitLease (mask : BitVec 16) (s : State) : State :=
  if (s.cluster s.here).leaseWait.any fun w => w.1 == s.hart.id then s
  else s.modCluster s.here fun c => { c with leaseWait := c.leaseWait ++ [(s.hart.id, mask, s.clock)] }

/-- MLEASE (R162): the binding is made at issue; the whole mask, or a wait. -/
def opMlease (a : SReg) (w : Bool) : Op :=
  { srcs := [.s a w],
    body := fun s => do
      let m := BitVec.ofNat 16 (s.sreg a).toNat
      ensure (m != 0) .matrixState s
      if leaseHeld s.hart.lease then
        if holdsLease s && leaseMask s.hart.lease == m.toNat then .ok s else faultOf .matrixState s
      else if ringsFree (s.cluster s.here) m.toNat then .ok (bindRings s.here s.hart.id m.toNat s)
      else .error (.wait .lease (awaitLease m s)) }

/-- MLEASE (R162). -/
def execMlease (a : SReg) (w : Bool) (s : State) : Answer := issue (.mlease a w) (opMlease a w) s

/-- MREL (R163): buffered; without a lease it has no effect. Firmware has no chunk: its lease ends at once (log 17). -/
def opMrel : Op :=
  { body := fun s => .ok (if holdsLease s then (if s.isTask then pushEffect .mrel s else endLease s) else s) }

/-- MREL (R163). -/
def execMrel (s : State) : Answer := issue .mrel opMrel s

/-! Ring definitions (R166, R170). -/

/-- Does a definition meet the rules of R166 on its own fields? -/
def ringWordOk (d : Word) (restore : Bool) : Bool :=
  let units := ringSlot d / 256
  bitsOf d.toNat 47 36 == 0 && bitsOf d.toNat 60 48 == 0 && bitsOf d.toNat 21 13 == 0 && ringKind d != 3 &&
  (if ringKind d = 0 then units % 2 == 0 && decide (units ≤ 128) && !restore
   else decide (64 ≤ units) && units % 32 == 0) &&
  decide ((ringSpan d).2 ≤ 8192)

/-- Is a valid ring busy: a filled slot, an in-use slot or a copy in flight (R166)? -/
def ringBusy (s : State) (n : Nat) : Bool :=
  let c := s.cluster s.here
  let r := c.ring n
  ringV r.defn && (r.filled != 0 || ((List.range (ringCount r.defn)).any fun k => slotInUse s r n k) ||
    c.copies.any fun x => x.mode.toRing && x.dst.toNat == n)

/-- Set or clear the restore bit of a ring in the lease status. -/
def setRstr (n : Nat) (b : Bool) (s : State) : State :=
  s.mod fun h => { h with lease := setBit h.lease (96 + n) b }

/-- MRDEF (R166): takes effect at issue. -/
def opMrdef (a b : SReg) (w v : Bool) : Op :=
  { srcs := srcAB a b w v,
    body := fun s => do
      let d := s.sreg a
      let x := (s.sreg b).toNat
      let n := x % 16
      let restore := bitOf x 4
      ensure (holdsLease s) .matrixState s
      ensure (bitOf (leaseMask s.hart.lease) n && x / 32 == 0) .ringState s
      if ringV d then
        ensure (ringWordOk d restore && !ringOverlaps (s.cluster s.here) n d && !ringBusy s n) .ringState s
        .ok (setRstr n restore (modRing s.here n (fun r => { r with defn := d, filled := 0, taken := 0 }) s))
      else
        ensure (!ringBusy s n) .ringState s
        .ok (setRstr n false (modRing s.here n (fun r => { r with defn := 0, filled := 0, taken := 0 }) s)) }

/-- MRDEF (R166). -/
def execMrdef (a b : SReg) (w v : Bool) (s : State) : Answer := issue (.mrdef a b w v) (opMrdef a b w v) s

/-- Is a copy of the task filling a ring? -/
def filling (s : State) (n : Nat) : Bool :=
  (s.cluster s.here).copies.any fun x => x.hart == s.hart.id && x.mode.toRing && x.dst.toNat == n

/-- What MRQ writes (R170). -/
def ringReport (s : State) (n : Nat) : Word :=
  if leaseHeld s.hart.lease && bitOf (leaseMask s.hart.lease) n then
    let r := (s.cluster s.here).ring n
    let d := r.defn
    if ringV d then
      word (2 ^ 63 + ringKind d * 2 ^ 61 + (if bitOf (leaseRstr s.hart.lease) n then 2 ^ 60 else 0) + (if filling s n then 2 ^ 59 else 0) +
        r.ready * 2 ^ 48 + ringTail d * 2 ^ 42 + r.next * 2 ^ 36 + bitsOf d.toNat 35 22 * 2 ^ 22 + bitsOf d.toNat 12 0)
    else 0
  else 0

/-- MRQ (R170). -/
def opMrq (d a : SReg) (w : Bool) : Op := opScalar d [.s a w] fun s => ringReport s ((s.sreg a).toNat % 16)

/-- MRQ (R170). -/
def execMrq (d a : SReg) (w : Bool) (s : State) : Answer := issue (.mrq d a w) (opMrq d a w) s

/-! Grants (R161, R164). -/

/-- Has the grant of a context run out? -/
def grantSpent (clock : Nat) (h : Hart) : Bool := leaseCmd h.lease == 0 || decide (16384 ≤ clock - h.grantAt)

/-- TOGGLE after a grant: the mean of its products' estimates (R164, R183), rounded down (DESIGN CHOICE, log 136). -/
def closeGrant (h : Hart) : Hart :=
  if h.toggles = [] then h
  else { h with toggles := [], lease := leaseSet h.lease 95 64 (Nat.min 0xFFFFFFFF (h.toggles.foldl (· + ·) 0 / h.toggles.length)) }

/-- Begin a grant (R164). -/
def beginGrant (clock : Nat) (h : Hart) : Hart :=
  { h with grantAt := clock, lease := leaseSet (leaseSet h.lease 24 18 64) 1 1 1 }

/-- The key by which a batch is served: ascending TOGGLE, then round-robin by core number after the last (R164): after core 0 before any grant,
and equal requests of one core in their order (DESIGN CHOICE, log 137). -/
def batchKey (s : State) (last id : Nat) : Nat × Nat :=
  match s.hart? id with
  | some h => (leaseToggle h.lease, (bitsOf h.core 4 0 + 31 - last) % 32)
  | none => (0, 0)

/-- Is a request of a batch served before another? -/
def servedBefore (s : State) (last x y : Nat) : Bool :=
  let a := batchKey s last x
  let b := batchKey s last y
  decide (a.1 < b.1) || (a.1 == b.1 && decide (a.2 < b.2))

/-- The request of a batch that is served next: of two that are served alike, the earlier one. -/
def nextOfBatch (s : State) (last : Nat) : List Nat → Option Nat
  | [] => none
  | x :: xs => match nextOfBatch s last xs with
    | some y => some (if servedBefore s last y x then y else x)
    | none => some x

/-- The arbiter acts when the array is free: it takes every waiting request as a batch when it has none, and grants that of the batch which
comes next after the core that last took a grant (R164). -/
def arbitrate (cl : Nat) (s : State) : State :=
  let c := s.cluster cl
  if c.grant.isSome then s
  else
    let batch := if c.batch.isEmpty then c.requests else c.batch
    let requests := if c.batch.isEmpty then [] else c.requests
    match nextOfBatch s c.lastCore batch with
    | none => s
    | some id =>
      let core := match s.hart? id with
        | some h => bitsOf h.core 4 0
        | none => c.lastCore
      let s := s.modCluster cl fun c => { c with grant := some id, batch := batch.erase id, requests := requests, lastCore := core }
      s.modHart id (beginGrant s.clock)

/-- The end of a grant that has run out (R164): it renews when nothing waits, else the array falls free. -/
def expireGrant (cl : Nat) (s : State) : State :=
  match (s.cluster cl).grant with
  | none => s
  | some id =>
    match s.hart? id with
    | none => arbitrate cl (s.modCluster cl fun c => { c with grant := none })
    | some h =>
      if grantSpent s.clock h then
        let s := s.modHart id closeGrant
        if (s.cluster cl).requests.isEmpty && (s.cluster cl).batch.isEmpty then s.modHart id (beginGrant s.clock)
        else
          let s := s.modHart id fun h => { h with lease := leaseSet (leaseSet h.lease 24 18 0) 1 1 0 }
          arbitrate cl (s.modCluster cl fun c => { c with grant := none })
      else s

/-- GRANT_BATCH (R164). -/
def execGrantBatch (cluster : Nat) (s : State) : Answer := event (arbitrate cluster) s

/-- GRANT_EXPIRY (R164). -/
def execGrantExpiry (cluster : Nat) (s : State) : Answer := event (expireGrant cluster) s

/-- A matrix command needs the grant: it asks for one, and waits while it is not current (R164, R173). -/
def needGrant (s : State) : Run State :=
  let cl := s.here
  let id := s.hart.id
  let s := if (s.cluster cl).grant = some id then expireGrant cl s else s
  if (s.cluster cl).grant = some id then .ok s
  else
    let c := s.cluster cl
    let s := if c.requests.contains id || c.batch.contains id then s
      else s.modCluster cl fun c => { c with requests := c.requests ++ [id] }
    let s := arbitrate cl s
    if (s.cluster cl).grant = some id then .ok s else .error (.wait .grant s)

/-- Count a command at issue (R164). -/
def countCommand (s : State) : State := s.mod fun h => { h with lease := leaseSet h.lease 24 18 (leaseCmd h.lease - 1) }

/-- The checks that every matrix command makes first (R163, R181). -/
def matrixCommand (s : State) : Run Unit := do
  ensure (!suspect s) .matrixCheck s
  ensure (holdsLease s) .matrixState s

/-! Weights (R169, R171). -/

/-- Consume the slot at the head of a ring: the pop is buffered (R168). -/
def consumeSlot (n : Nat) (s : State) : State :=
  pushEffect (.popRing n) (modRing s.here n (fun r => { r with taken := r.taken + 1 }) s)

/-- Is ring n bound, valid, and of a kind that p accepts? -/
def ringIs (s : State) (n : Nat) (p : Nat → Bool) : Bool := ringBound s n && p (ringKind ((s.cluster s.here).ring n).defn)

/-- MLDW (R171): the slot's first k planes become the pending weights. -/
def opMldw (n k : Nat) : Op :=
  { body := fun s => do
      matrixCommand s
      let r := (s.cluster s.here).ring n
      ensure (ringIs s n (· != 0)) .ringState s
      ensure (decide (k ≤ ringSlot r.defn / 8192)) .ringState s
      ensure (r.ready != 0 || filling s n) .ringState s
      let s ← needGrant s
      if r.ready = 0 then .error (.wait .slot s)
      else do
        let s ← accessUnits [s.here] s
        let w : Weights := { ring := n, slot := r.next, planes := k, restore := bitOf (leaseRstr s.hart.lease) n }
        let s := consumeSlot n (countCommand s)
        .ok (s.mod fun h => { h with wload := true, r := { h.r with wpend := some w } }) }

/-- MLDW (R171). -/
def execMldw (b : BitVec 4) (k : BitVec 3) (s : State) : Answer := issue (.mldw b k) (opMldw b.toNat (k.toNat + 1)) s

/-- WEIGHT_LOAD_COMPLETE (R171). -/
def execWeightLoadComplete (h : Nat) (s : State) : Answer := event (fun s => s.modHart h fun x => { x with wload := false }) s

/-! Products (R172 to R176, R183). -/

/-- The forms of a product: plain, table lookup, and the block Hadamard transform of size n. -/
inductive Form where
  | plain | table
  | hadamard (n : Nat)
deriving DecidableEq, Repr

/-- One bits of a number below 2^n. -/
def popCount (n v : Nat) : Nat := (List.range n).countP fun i => bitOf v i

/-- Activation kk of row i of the A slot at an operand buffer address (R167). -/
def activation (m : Memory) (a i kk : Nat) : Int := Num.toSigned 8 (m.read (a + 512 * i + kk)).toNat

/-- A row as the array takes it: transformed for MMAH (R176). -/
def formRow (f : Form) (row : List Int) : List Int :=
  match f with
  | .hadamard n =>
    (List.range 512).map fun x =>
      (List.range n).foldl (fun acc q =>
        let v := row.getD (x / n * n + q) 0
        if popCount 6 (x % n &&& q) % 2 = 0 then acc + v else acc - v) 0
  | _ => row

/-- The weight (kk, j) of the B slot at an address, through k planes (R115, R116). -/
def weightAt (m : Memory) (b k : Nat) (restore : Bool) (kk j : Nat) : Int :=
  let bits := (List.range k).foldl (fun acc p =>
    acc + (if bitOf (m.read (b + 8192 * p + 16 * kk + j / 8)).toNat (j % 8) then 2 ^ (7 - p) else 0)) 0
  Num.npValue bits k restore

/-- The exact product element of a row and column j (R174). -/
def dotWeights (m : Memory) (b k : Nat) (restore : Bool) (row : List Int) (j : Nat) : Int :=
  ((List.range 512).zip row).foldl (fun acc p => acc + p.2 * weightAt m b k restore p.1 j) 0

/-- One INT32 element of an accumulator group: element (i, j) lies in register j div 16 (R174). -/
def groupElem (data : List Memory) (i j : Nat) : Nat := elem (data.getD (j / 16) []) 4 i (j % 16)

/-- A register's data with element values replaced in rows below M. -/
def groupWrite (old : Memory) (rows : Nat) (f : Nat → Nat → Nat) : Memory :=
  (List.range rows).foldl (fun m i => (List.range 16).foldl (fun m c => m.writeLE (64 * i + 4 * c) 4 (f i c)) m) old

/-- The toggle estimate of a product (R183). -/
def toggleEstimate (m : Memory) (a b rows k : Nat) (f : Form) : Nat :=
  let wpop := (m.filter fun c => decide (b ≤ c.1) && decide (c.1 < b + 8192 * k)).foldl (fun acc c => acc + popCount 8 c.2.toNat) 0
  let row := fun i => formRow f ((List.range 512).map fun kk => activation m a i kk)
  let bits := match f with
    | .hadamard _ => 16
    | _ => 8
  let flips := (List.range (rows - 1)).foldl (fun acc i =>
    acc + ((row (i + 1)).zip (row i)).foldl (fun acc p => acc + popCount bits (Num.ofSigned bits p.1 ^^^ Num.ofSigned bits p.2)) 0) 0
  wpop * ((rows + 1) / 2) + flips * k

/-- The registers of a group. -/
def groupRegs (t : Bool) : List TReg := (List.range 8).map fun i => Fin.ofNat 16 ((if t then 8 else 0) + i)

/-- What a product needs once it is under way: its slots, its weights and the rows of the A slot. -/
structure ProductPlan where
  a : Nat
  b : Nat
  rows : Nat
  k : Nat
  restore : Bool
  form : Form

/-- The data of the group after the product, and did any element clamp (R120, R174)? -/
def productData (m : Memory) (p : ProductPlan) (old : List Memory) : List Memory × Bool :=
  let sums := (List.range p.rows).map fun i =>
    let row := formRow p.form ((List.range 512).map fun kk => activation m p.a i kk)
    (List.range 128).map fun j => sat32 (Num.toSigned 32 (groupElem old i j) + dotWeights m p.b p.k p.restore row j)
  let at_ := fun i j => (sums.getD i []).getD j (0, false)
  ((List.range 8).map fun g => groupWrite (old.getD g []) p.rows fun i c => Num.ofSigned 32 (at_ i (16 * g + c)).1,
   sums.any fun r => r.any Prod.snd)

/-! The epilogue (R177 to R179). -/

/-- The fields of EPC (R177). -/
def epcOut (e : Nat) : Nat := bitsOf e 63 48
def epcRun (e : Nat) : Nat := bitsOf e 47 32
def epcFinal (e : Nat) : Bool := bitOf e 15
def epcClr (e : Nat) : Bool := bitOf e 14
def epcFresh (e : Nat) : Bool := bitOf e 13
def epcBen (e : Nat) : Bool := bitOf e 12
def epcAct (e : Nat) : Nat := bitsOf e 11 10
def epcOfmt (e : Nat) : Nat := bitsOf e 9 8

/-- The format of the output: FP32, BF16 or E4M3. -/
def outFormat (e : Nat) : Nat :=
  match epcOfmt e with
  | 0 => 5
  | 1 => 4
  | _ => 6

/-- The scratchpad byte ranges of the rows of the running tile and of the output. -/
def runRows (e rows cols : Nat) : List (Nat × Nat) := (List.range rows).map fun i => (epcRun e + 512 * i, 4 * cols)
def outRows (e rows cols : Nat) : List (Nat × Nat) :=
  if epcFinal e then
    let s := Num.size (outFormat e)
    (List.range rows).map fun i => (epcOut e + 128 * s * i, s * cols)
  else []

/-- The checks of R178 on a parameter tile, after the lease and the tile number. The running tile and the output meet where the bytes of their
rows do (DESIGN CHOICE, log 138). -/
def epilogueCheck (p : Memory) (rows cols : Nat) (s : State) : Run Unit := do
  let e := p.readLE 0x380 8
  let runs := runRows e rows cols
  let outs := outRows e rows cols
  ensure (bitsOf e 31 16 == 0 && bitsOf e 7 0 == 0 && p.readLE 0x388 8 == 0 && epcAct e != 3 && epcOfmt e != 3 &&
    epcRun e % 8 == 0 && epcOut e % 8 == 0) .epilogueFormat s
  ensure ((runs ++ outs).all fun r => decide (r.1 + r.2 ≤ 65536)) .windowIndex s
  ensure (!(runs.any fun r => outs.any fun o => decide (r.1 < o.1 + o.2) && decide (o.1 < r.1 + r.2))) .epilogueFormat s
  ensure (!((runs ++ outs).any fun r => regionHeld r.1 r.2 s)) .ownerBusy s

/-- Running words that are still empty make the epilogue wait, when it reads the running tile (R16, R178). -/
def runningFull (p : Memory) (rows cols : Nat) (s : State) : Run Unit :=
  let e := p.readLE 0x380 8
  let words := ((runRows e rows cols).map fun r => unitsOf 8 r.1 r.2).flatten
  if !epcFresh e && words.any fun w => (s.core s.hart.core).empty.contains w then .error (.wait .padWords s) else .ok ()

/-- The value chain of one element (R178): the running value, the output value, and the flags. -/
def epilogueElem (p : Memory) (e i j : Nat) (acc : Int) (run : Option Nat) : Nat × Nat × Flags :=
  let f32 := fun v => Num.roundFp 5 .rne v
  let (y, f1) := f32 (Num.mul (Num.ofInt acc) (Num.ofF32 (p.readLE (4 * i) 4)))
  let sb := (p.read (0x100 + j)).toNat
  let (y, f2) := if sb = 255 then (0x7FC00000, ({} : Flags)) else f32 (Num.mul (Num.ofF32 y) (Num.ofE8 sb))
  let (y, f3) := match run with
    | some r => f32 (Num.add (Num.ofF32 y) (Num.ofF32 r))
    | none => (y, ({} : Flags))
  let f := (f1.join f2).join f3
  if epcFinal e then
    let (z, g1) := if epcBen e then f32 (Num.add (Num.ofF32 y) (Num.ofF32 (p.readLE (0x180 + 4 * j) 4))) else (y, ({} : Flags))
    let (z, g2) := match epcAct e with
      | 1 => f32 (Num.relu (Num.ofF32 z))
      | 2 => f32 (Num.gelu (Num.ofF32 z))
      | _ => (z, ({} : Flags))
    let (o, g3) := if epcOfmt e = 0 then (z, ({} : Flags)) else Num.convert (outFormat e) .rne (Num.ofF32 z)
    (y, o, ((f.join g1).join g2).join g3)
  else (y, 0, f)

/-- One element of the epilogue: its reads, its stores and its flags. -/
def epilogueStep (p : Memory) (data : List Memory) (ij : Nat × Nat) (s : State) : Run State := do
  let e := p.readLE 0x380 8
  let ra := epcRun e + 512 * ij.1 + 4 * ij.2
  let (run, s) ← if epcFresh e then .ok (none, s) else do
    let (bs, s) ← loadPad ra 4 s
    .ok (some (leNat bs), s)
  let (y, o, f) := epilogueElem p e ij.1 ij.2 (Num.toSigned 32 (groupElem data ij.1 ij.2)) run
  let s ← storePad ra (leBytes 4 y) s
  let size := Num.size (outFormat e)
  let s ← if epcFinal e then storePad (epcOut e + 128 * size * ij.1 + size * ij.2) (leBytes size o) s else .ok s
  .ok (setFlags f s)

/-- All elements in order. -/
def epilogueSteps (p : Memory) (data : List Memory) : List (Nat × Nat) → State → Run State
  | [], s => .ok s
  | x :: xs, s => do
    let s ← epilogueStep p data x s
    epilogueSteps p data xs s

/-- The epilogue over rows and columns (R178). -/
def runEpilogue (p : Memory) (data : List Memory) (rows cols : Nat) (s : State) : Run State :=
  epilogueSteps p data (((List.range rows).map fun i => (List.range cols).map fun j => (i, j)).flatten) s

/-- An epilogue that stops on a fault has set no flag and counted nothing in the context (R178). -/
def wholeEpilogue (before : State) : Run State → Run State
  | .error (.fault c d t) => .error (.fault c d { t with hart := before.hart })
  | r => r

/-- MEPI (R178). -/
def opMepi (t : Bool) (y : TReg) (cols rows : Nat) : Op :=
  { tiles := y :: groupRegs t, srcs := Src.whole y false :: (groupRegs t).map Src.group,
    body := fun s => do
      matrixCommand s
      ensure (!(groupRegs t).contains y) .epilogueFormat s
      let p := (s.tile y).data
      epilogueCheck p rows cols s
      let s ← needGrant s
      runningFull p rows cols s
      let data := (groupRegs t).map fun r => (s.tile r).data
      let s ← wholeEpilogue s (runEpilogue p data rows cols (countCommand s))
      .ok (if epcClr (p.readLE 0x380 8) then (groupRegs t).foldl (fun s r => writeT r [] (s.tile r).shape s) s else s) }

/-- MEPI (R178). -/
def execMepi (t : Bool) (y : TReg) (c : BitVec 7) (r : BitVec 6) (s : State) : Answer :=
  issue (.mepi t y c r) (opMepi t y (c.toNat + 1) (r.toNat + 1)) s

/-- Mark a group empty with its new shape word, for the product with this number (R16, R174). -/
def emptyGroup (t : Bool) (no : Nat) (s : State) : State :=
  (groupRegs t).foldl (fun s r => s.mod fun h =>
    { h with r := { h.r with t := h.r.t.set r.val { h.r.t.get r with shape := 0x2FFF, full := false } r.isLt },
             owed := h.owed.set r.val no r.isLt }) s

/-- The waits of a product, in their order (R172): the group, the grant, the weight load, the A slot, the power share. -/
def productWaits (t : Bool) (a te : Nat) (s : State) : Run State := do
  let s ← match (groupRegs t).find? fun r => !(s.tile r).full with
    | some r => .error (.wait (.group r) s)
    | none => .ok s
  let s ← needGrant s
  if s.hart.wload && s.hart.r.wpend.isSome then .error (.wait .weights s)
  else if ((s.cluster s.here).ring a).ready = 0 then .error (.wait .slot s)
  else if (s.cluster s.here).credit < 0 then .error (.wait (.power te) s)
  else .ok s

/-- The product reads its accumulator group as other reads of tile registers do (R316). -/
def meetGroup : List TReg → State → Run State
  | [], s => .ok s
  | r :: rs, s => do
    let s ← meetWhole r s
    meetGroup rs s

/-- A read of a slot of the operand buffer (R259): it waits for a buffer in retention; an error is corrected and logged, and a poisoned sector is
consumed with cause POISON. -/
def meetSlot (a n : Nat) (s : State) : Run State := do
  let cl := s.here
  let s ← accessUnits [cl] s
  let s := meetSram s.partition (·.onBuffer cl (unitsOf 8 a n).contains) s
  if s.bufPoison.any fun p => p.1 == cl && (unitsOf 32 a n).contains p.2 then .error (.fault .poison none s) else .ok s

/-- A product and, with a parameter tile, its epilogue (R172 to R176, R179). -/
def opProduct (form : Form) (t : Bool) (a b k : Nat) (epi : Option TReg) : Op :=
  { rotation := match form with
      | .hadamard _ => true
      | _ => false
    tiles := groupRegs t ++ epi.toList
    srcs := epi.toList.map fun r => Src.whole r false
    body := fun s => do
      matrixCommand s
      ensure (ringIs s a (· == 0) && ringIs s b fun x => x == 1 || x == 2) .ringState s
      let c := s.cluster s.here
      let rows := ringSlot (c.ring a).defn / 512
      ensure (form != .table || decide (rows ≤ 16)) .ringState s
      let w ← match (if s.hart.r.wpend.isSome then s.hart.r.wpend else s.hart.r.wact) with
        | some w => if w.ring = b ∧ k ≤ w.planes then .ok w else faultOf .matrixState s
        | none => faultOf .matrixState s
      match epi with
      | some y => epilogueCheck (s.tile y).data rows 128 s
      | none => .ok ()
      ensure ((c.ring a).ready != 0 || filling s a) .ringState s
      let plan : ProductPlan :=
        { a := slotAddr (c.ring a).defn (c.ring a).next, b := slotAddr (c.ring b).defn w.slot, rows := rows, k := k,
          restore := w.restore, form := form }
      let te := toggleEstimate c.opbuf plan.a plan.b rows k form
      let s ← productWaits t a te s
      match epi with
      | some y => runningFull (s.tile y).data rows 128 s
      | none => .ok ()
      let s ← meetGroup (groupRegs t) s
      let s ← meetSlot plan.a (ringSlot (c.ring a).defn) s
      let s ← meetSlot plan.b (ringSlot (c.ring b).defn) s
      let ready := s
      let old := (groupRegs t).map fun r => (s.tile r).data
      let (data, clamped) := productData c.opbuf plan old
      let s := emptyGroup t (s.hart.issued + 1) (setFlags { sat := clamped } (consumeSlot a (countCommand s)))
      let s := s.mod fun h => { h with issued := h.issued + 1, toggles := te :: h.toggles, wload := false,
                                       r := { h.r with wact := some w, wpend := none } }
      let s ← match epi with
        | some y => wholeEpilogue ready (runEpilogue (s.tile y).data data rows 128 s)
        | none => .ok s
      let clr := match epi with
        | some y => epcClr ((s.tile y).data.readLE 0x380 8)
        | none => false
      let p : Product := { hart := s.hart.id, cap := s.hart.cap, no := s.hart.issued, group := if t then 8 else 0, live := true,
                           data := if clr then List.replicate 8 [] else data }
      .ok (s.modCluster s.here fun c => { c with products := c.products ++ [p], credit := c.credit - Int.ofNat te, demand := c.demand + te }) }

/-- The parameter tile of an MMAE (R179). -/
def paramTile (t : Bool) : TReg := if t then 7 else 8

/-- MMA (R174). -/
def execMma (t : Bool) (a b : BitVec 4) (k : BitVec 3) (s : State) : Answer :=
  issue (.mma t a b k) (opProduct .plain t a.toNat b.toNat (k.toNat + 1) none) s

/-- MMAL (R175). -/
def execMmal (t : Bool) (a b : BitVec 4) (k : BitVec 3) (s : State) : Answer :=
  issue (.mmal t a b k) (opProduct .table t a.toNat b.toNat (k.toNat + 1) none) s

/-- MMAH.16 (R176). -/
def execMmah16 (t : Bool) (a b : BitVec 4) (k : BitVec 3) (s : State) : Answer :=
  issue (.mmah16 t a b k) (opProduct (.hadamard 16) t a.toNat b.toNat (k.toNat + 1) none) s

/-- MMAH.32 (R176). -/
def execMmah32 (t : Bool) (a b : BitVec 4) (k : BitVec 3) (s : State) : Answer :=
  issue (.mmah32 t a b k) (opProduct (.hadamard 32) t a.toNat b.toNat (k.toNat + 1) none) s

/-- MMAH.64 (R176). -/
def execMmah64 (t : Bool) (a b : BitVec 4) (k : BitVec 3) (s : State) : Answer :=
  issue (.mmah64 t a b k) (opProduct (.hadamard 64) t a.toNat b.toNat (k.toNat + 1) none) s

/-- MMAE (R179). -/
def execMmae (t : Bool) (a b : BitVec 4) (k : BitVec 3) (s : State) : Answer :=
  issue (.mmae t a b k) (opProduct .plain t a.toNat b.toNat (k.toNat + 1) (some (paramTile t))) s

/-- MMAE.L (R179). -/
def execMmaeL (t : Bool) (a b : BitVec 4) (k : BitVec 3) (s : State) : Answer :=
  issue (.mmaeL t a b k) (opProduct .table t a.toNat b.toNat (k.toNat + 1) (some (paramTile t))) s

/-- MMAE.H.16 (R179). -/
def execMmaeH16 (t : Bool) (a b : BitVec 4) (k : BitVec 3) (s : State) : Answer :=
  issue (.mmaeH16 t a b k) (opProduct (.hadamard 16) t a.toNat b.toNat (k.toNat + 1) (some (paramTile t))) s

/-- MMAE.H.32 (R179). -/
def execMmaeH32 (t : Bool) (a b : BitVec 4) (k : BitVec 3) (s : State) : Answer :=
  issue (.mmaeH32 t a b k) (opProduct (.hadamard 32) t a.toNat b.toNat (k.toNat + 1) (some (paramTile t))) s

/-- MMAE.H.64 (R179). -/
def execMmaeH64 (t : Bool) (a b : BitVec 4) (k : BitVec 3) (s : State) : Answer :=
  issue (.mmaeH64 t a b k) (opProduct (.hadamard 64) t a.toNat b.toNat (k.toNat + 1) (some (paramTile t))) s

/-! The residue check (R180 to R182). -/

/-- Mismatches of a cluster within the last 1 ms (R181). -/
def mismatchWindow (s : State) (cl : Nat) : List Nat := (s.cluster cl).mism.filter fun t => decide (s.clock - t < 1000000)

/-- Does the context have a product whose check is outstanding? -/
def uncheckedProducts (s : State) : Bool := (s.cluster s.here).products.any fun p => p.hart == s.hart.id

/-- Land a checked product (R16, R174): each register of its group that this product left empty, and that nothing has written since,
takes its data and is full. -/
def landProduct (p : Product) (s : State) : State :=
  ((List.range 8).zip p.data).foldl (fun s x =>
    let r : TReg := Fin.ofNat 16 (p.group + x.1)
    if s.hart.owed.get r = p.no then writeT r x.2 (s.tile r).shape s else s) s

/-- The array becomes suspect, unless it is (R181): the cluster is fenced. The third time within 24 hours it counts as failed (R312). -/
def markSuspect (cl : Nat) (s : State) : State :=
  if bitOf (s.cluster cl).clstat.toNat 1 then s
  else fenceOther cl (s.modCluster cl fun c =>
    let recent := (c.suspects.filter fun t => decide (s.clock - t < 86400000000000)) ++ [s.clock]
    { c with clstat := c.clstat ||| 2, suspects := recent, failed := c.failed || decide (3 ≤ recent.length) })

/-- Is a capsule still running: carried, and not ending (R181)? -/
def capsuleRuns (cap : Nat) (s : State) : Bool :=
  match s.cap? cap with
  | some c => match c.state with
    | .ending _ => false
    | _ => true
  | none => false

/-- A mismatch (R181): the third within 1 ms makes the array suspect, and the capsule takes MATRIX_CHECK if it still runs. -/
def residueMismatch (cl : Nat) (p : Product) (s : State) : State :=
  let win := mismatchWindow s cl ++ [s.clock]
  let s := s.modCluster cl fun c => { c with mism := win }
  if 3 ≤ win.length then
    if capsuleRuns p.cap s then unitFault p.cap p.hart .matrixCheck (word win.length) (markSuspect cl s) else markSuspect cl s
  else if p.live then onHart p.hart (raise {} .residue none) s
  else s

/-- RESIDUE_CHECK_COMPLETE (R180, R181): the oldest product of the cluster. -/
def checkProduct (cl : Nat) (mismatch : Bool) (s : State) : State :=
  match (s.cluster cl).products with
  | [] => s
  | p :: rest =>
    let s := s.modCluster cl fun c => { c with products := rest }
    let s := s.modHart p.hart fun h => { h with checked := h.checked + 1 }
    if mismatch then residueMismatch cl p s else if p.live then onHart p.hart (landProduct p) s else s

/-- RESIDUE_CHECK_COMPLETE (R180). -/
def execResidueCheckComplete (cluster : Nat) (mismatch : Bool) (s : State) : Answer := event (checkProduct cluster mismatch) s

/-- MCHK (R182). -/
def opMchk (d : SReg) : Op :=
  { body := fun s =>
      if uncheckedProducts s then .error (.wait .products s)
      else .ok (writeS d (word (s.hart.checked % 2 ^ 32 + Nat.min 0xFFFF (mismatchWindow s s.here).length * 2 ^ 32)) s) }

/-- MCHK (R182). -/
def execMchk (d : SReg) (s : State) : Answer := issue (.mchk d) (opMchk d) s

/-- MDRAIN (R182). -/
def opMdrain : Op :=
  { body := fun s => if uncheckedProducts s || s.hart.wload then .error (.wait .products s) else .ok s }

/-- MDRAIN (R182). -/
def execMdrain (s : State) : Answer := issue .mdrain opMdrain s

/-- The lease of a cluster whose scrub completes next: scrubs of several leases complete one at a time, and which one does is free
(log 7). -/
def nextScrub (cl : Nat) (s : State) : Option Nat :=
  let l := ((s.cluster cl).rings.toList.filterMap Ring.scrub).eraseDups
  l[Config.freeNat s.fresh % l.length]?

/-- LEASE_SCRUB_COMPLETE (R239, R243): the rings of one lease that awaited its scrub are free, their slots zero, and waiters may bind. -/
def scrubComplete (cl : Nat) (s : State) : State :=
  match nextScrub cl s with
  | none => s
  | some id =>
    let s := { s with fresh := s.fresh + 1 }
    let s := (List.range 16).foldl (fun t i =>
      let r := (t.cluster cl).ring i
      if r.scrub = some id ∧ ringV r.defn = true then scrubBuffer cl (ringBase r.defn) (ringCount r.defn * ringSlot r.defn) t else t) s
    bindWaiters cl (s.modCluster cl fun c => { c with rings := c.rings.map fun r => if r.scrub = some id then Ring.reset else r })

/-- LEASE_SCRUB_COMPLETE (R239). -/
def execLeaseScrubComplete (cluster : Nat) (s : State) : Answer := event (scrubComplete cluster) s

end Sys2Proof.Machine
end

