-- ==== Sys2Proof/Machine/Scalar.lean ====
section
/-! DEFINITION. Scalar arithmetic, handles, TIME and the SI-format majors 0x01 to 0x0E
(spec/03_scalar_control_messages.md R71 to R77). -/

namespace Sys2Proof.Machine

/-- The count b[5:0] of a shift (R72). -/
def shiftCount (b : Word) : Nat := b.toNat % 64

/-- 1 when the condition holds, else 0. -/
def flagWord (p : Bool) : Word := if p then 1 else 0

/-- Leading zero bits, 64 for zero (R74). -/
def countLeading (x : Word) : Nat := if x = 0 then 64 else 63 - Nat.log2 x.toNat

/-- Trailing zero bits, 64 for zero (R74). -/
def countTrailing (x : Word) : Nat := ((List.range 64).find? fun i => x.getLsbD i).getD 64

/-- One bits (R74). -/
def countOnes (x : Word) : Nat := (List.range 64).countP fun i => x.getLsbD i

/-- The eight bytes reversed (R74). -/
def byteSwap (x : Word) : Word := word (leNat (leBytes 8 x.toNat).reverse)

/-- The high 64 bits of the signed product (R73). -/
def mulHigh (a b : Word) : Word := wordOfInt (a.toInt * b.toInt / 2 ^ 64)

/-- The high 64 bits of the unsigned product (R73). -/
def mulHighU (a b : Word) : Word := word (a.toNat * b.toNat / 2 ^ 64)

/-- The signed quotient truncated toward zero, all ones for a zero divisor (R73). -/
def divS (a b : Word) : Word := if b = 0 then BitVec.allOnes 64 else wordOfInt (a.toInt.tdiv b.toInt)

/-- The unsigned quotient, all ones for a zero divisor (R73). -/
def divU (a b : Word) : Word := if b = 0 then BitVec.allOnes 64 else word (a.toNat / b.toNat)

/-- The signed remainder with the sign of a; a for a zero divisor (R73). -/
def remS (a b : Word) : Word := if b = 0 then a else wordOfInt (a.toInt.tmod b.toInt)

/-- The unsigned remainder; a for a zero divisor (R73). -/
def remU (a b : Word) : Word := if b = 0 then a else word (a.toNat % b.toNat)

/-- The field of `len` bits of a from `pos`, zero-extended (R75 EXT). -/
def extract (a : Word) (pos len : Nat) : Word := word (a.toNat / 2 ^ pos % 2 ^ len)

/-- d with the field of `len` bits from `pos` replaced by the low bits of a (R75 INS). -/
def insert (d a : Word) (pos len : Nat) : Word :=
  word (d.toNat - d.toNat / 2 ^ pos % 2 ^ len * 2 ^ pos + a.toNat % 2 ^ len * 2 ^ pos)

/-- LENGTH of the extent that a handle names, or 0 (R76 HLEN). -/
def extentLength (s : State) (h : Word) : Word :=
  match s.extent? (handleIdx h) with
  | some e => e[1]
  | none => 0

/-- ATTR[11:0] of the extent that a handle names, or 0 (R76 HRGT). -/
def extentRights (s : State) (h : Word) : Word :=
  match s.extent? (handleIdx h) with
  | some e => e[2] &&& 0xFFF
  | none => 0

/-- Read TIME (R77). The copies of a pair share the value of the nth read: the copy that reaches it first takes it (R100). -/
def readTime (s : State) : Word × State :=
  match s.hart.partner.bind s.hart? with
  | none => (s.now, s)
  | some p =>
    let v := (p.times[s.hart.times.length]?).getD s.now
    (v, s.mod fun h => { h with times := h.times ++ [v] })

/-- ADD (R72): d := a + b. -/
def opAdd (d a b : SReg) (w v : Bool) : Op := opScalar d (srcAB a b w v) fun s => s.sreg a + s.sreg b

/-- ADD (R72). -/
def execAdd (d a b : SReg) (w v : Bool) (s : State) : Answer := issue (.add d a b w v) (opAdd d a b w v) s

/-- SUB (R72): d := a − b. -/
def opSub (d a b : SReg) (w v : Bool) : Op := opScalar d (srcAB a b w v) fun s => s.sreg a - s.sreg b

/-- SUB (R72). -/
def execSub (d a b : SReg) (w v : Bool) (s : State) : Answer := issue (.sub d a b w v) (opSub d a b w v) s

/-- AND (R72): bitwise AND. -/
def opAnd (d a b : SReg) (w v : Bool) : Op := opScalar d (srcAB a b w v) fun s => s.sreg a &&& s.sreg b

/-- AND (R72). -/
def execAnd (d a b : SReg) (w v : Bool) (s : State) : Answer := issue (.and d a b w v) (opAnd d a b w v) s

/-- OR (R72): bitwise OR. -/
def opOr (d a b : SReg) (w v : Bool) : Op := opScalar d (srcAB a b w v) fun s => s.sreg a ||| s.sreg b

/-- OR (R72). -/
def execOr (d a b : SReg) (w v : Bool) (s : State) : Answer := issue (.or d a b w v) (opOr d a b w v) s

/-- XOR (R72): bitwise exclusive OR. -/
def opXor (d a b : SReg) (w v : Bool) : Op := opScalar d (srcAB a b w v) fun s => s.sreg a ^^^ s.sreg b

/-- XOR (R72). -/
def execXor (d a b : SReg) (w v : Bool) (s : State) : Answer := issue (.xor d a b w v) (opXor d a b w v) s

/-- SHL (R72): a shifted left. -/
def opShl (d a b : SReg) (w v : Bool) : Op := opScalar d (srcAB a b w v) fun s => s.sreg a <<< shiftCount (s.sreg b)

/-- SHL (R72). -/
def execShl (d a b : SReg) (w v : Bool) (s : State) : Answer := issue (.shl d a b w v) (opShl d a b w v) s

/-- SHR (R72): a shifted right with zeros. -/
def opShr (d a b : SReg) (w v : Bool) : Op := opScalar d (srcAB a b w v) fun s => s.sreg a >>> shiftCount (s.sreg b)

/-- SHR (R72). -/
def execShr (d a b : SReg) (w v : Bool) (s : State) : Answer := issue (.shr d a b w v) (opShr d a b w v) s

/-- SRA (R72): a shifted right with copies of bit 63. -/
def opSra (d a b : SReg) (w v : Bool) : Op := opScalar d (srcAB a b w v) fun s => (s.sreg a).sshiftRight (shiftCount (s.sreg b))

/-- SRA (R72). -/
def execSra (d a b : SReg) (w v : Bool) (s : State) : Answer := issue (.sra d a b w v) (opSra d a b w v) s

/-- ROL (R72): a rotated left. -/
def opRol (d a b : SReg) (w v : Bool) : Op := opScalar d (srcAB a b w v) fun s => (s.sreg a).rotateLeft (shiftCount (s.sreg b))

/-- ROL (R72). -/
def execRol (d a b : SReg) (w v : Bool) (s : State) : Answer := issue (.rol d a b w v) (opRol d a b w v) s

/-- MIN (R72): signed minimum. -/
def opMin (d a b : SReg) (w v : Bool) : Op := opScalar d (srcAB a b w v) fun s => if (s.sreg a).sle (s.sreg b) then s.sreg a else s.sreg b

/-- MIN (R72). -/
def execMin (d a b : SReg) (w v : Bool) (s : State) : Answer := issue (.min d a b w v) (opMin d a b w v) s

/-- MAX (R72): signed maximum. -/
def opMax (d a b : SReg) (w v : Bool) : Op := opScalar d (srcAB a b w v) fun s => if (s.sreg a).sle (s.sreg b) then s.sreg b else s.sreg a

/-- MAX (R72). -/
def execMax (d a b : SReg) (w v : Bool) (s : State) : Answer := issue (.max d a b w v) (opMax d a b w v) s

/-- MINU (R72): unsigned minimum. -/
def opMinu (d a b : SReg) (w v : Bool) : Op := opScalar d (srcAB a b w v) fun s => if (s.sreg a).ule (s.sreg b) then s.sreg a else s.sreg b

/-- MINU (R72). -/
def execMinu (d a b : SReg) (w v : Bool) (s : State) : Answer := issue (.minu d a b w v) (opMinu d a b w v) s

/-- MAXU (R72): unsigned maximum. -/
def opMaxu (d a b : SReg) (w v : Bool) : Op := opScalar d (srcAB a b w v) fun s => if (s.sreg a).ule (s.sreg b) then s.sreg b else s.sreg a

/-- MAXU (R72). -/
def execMaxu (d a b : SReg) (w v : Bool) (s : State) : Answer := issue (.maxu d a b w v) (opMaxu d a b w v) s

/-- SLT (R72): d := 1 if a < b signed, else 0. -/
def opSlt (d a b : SReg) (w v : Bool) : Op := opScalar d (srcAB a b w v) fun s => flagWord ((s.sreg a).slt (s.sreg b))

/-- SLT (R72). -/
def execSlt (d a b : SReg) (w v : Bool) (s : State) : Answer := issue (.slt d a b w v) (opSlt d a b w v) s

/-- SLTU (R72): d := 1 if a < b unsigned, else 0. -/
def opSltu (d a b : SReg) (w v : Bool) : Op := opScalar d (srcAB a b w v) fun s => flagWord ((s.sreg a).ult (s.sreg b))

/-- SLTU (R72). -/
def execSltu (d a b : SReg) (w v : Bool) (s : State) : Answer := issue (.sltu d a b w v) (opSltu d a b w v) s

/-- SEQ (R72): d := 1 if a = b, else 0. -/
def opSeq (d a b : SReg) (w v : Bool) : Op := opScalar d (srcAB a b w v) fun s => flagWord (s.sreg a == s.sreg b)

/-- SEQ (R72). -/
def execSeq (d a b : SReg) (w v : Bool) (s : State) : Answer := issue (.seq d a b w v) (opSeq d a b w v) s

/-- SEL (R72): d := a if the old value of d is nonzero, else b. -/
def opSel (d a b : SReg) (w v : Bool) : Op := opScalar d (srcDAB d a b w v) fun s => if s.sreg d = 0 then s.sreg b else s.sreg a

/-- SEL (R72). -/
def execSel (d a b : SReg) (w v : Bool) (s : State) : Answer := issue (.sel d a b w v) (opSel d a b w v) s

/-- MUL (R73): low 64 bits of the product. -/
def opMul (d a b : SReg) (w v : Bool) : Op := opScalar d (srcAB a b w v) fun s => s.sreg a * s.sreg b

/-- MUL (R73). -/
def execMul (d a b : SReg) (w v : Bool) (s : State) : Answer := issue (.mul d a b w v) (opMul d a b w v) s

/-- MULH (R73): high 64 bits of the signed product. -/
def opMulh (d a b : SReg) (w v : Bool) : Op := opScalar d (srcAB a b w v) fun s => mulHigh (s.sreg a) (s.sreg b)

/-- MULH (R73). -/
def execMulh (d a b : SReg) (w v : Bool) (s : State) : Answer := issue (.mulh d a b w v) (opMulh d a b w v) s

/-- MULHU (R73): high 64 bits of the unsigned product. -/
def opMulhu (d a b : SReg) (w v : Bool) : Op := opScalar d (srcAB a b w v) fun s => mulHighU (s.sreg a) (s.sreg b)

/-- MULHU (R73). -/
def execMulhu (d a b : SReg) (w v : Bool) (s : State) : Answer := issue (.mulhu d a b w v) (opMulhu d a b w v) s

/-- DIV (R73): signed quotient. -/
def opDiv (d a b : SReg) (w v : Bool) : Op := opScalar d (srcAB a b w v) fun s => divS (s.sreg a) (s.sreg b)

/-- DIV (R73). -/
def execDiv (d a b : SReg) (w v : Bool) (s : State) : Answer := issue (.div d a b w v) (opDiv d a b w v) s

/-- DIVU (R73): unsigned quotient. -/
def opDivu (d a b : SReg) (w v : Bool) : Op := opScalar d (srcAB a b w v) fun s => divU (s.sreg a) (s.sreg b)

/-- DIVU (R73). -/
def execDivu (d a b : SReg) (w v : Bool) (s : State) : Answer := issue (.divu d a b w v) (opDivu d a b w v) s

/-- REM (R73): signed remainder. -/
def opRem (d a b : SReg) (w v : Bool) : Op := opScalar d (srcAB a b w v) fun s => remS (s.sreg a) (s.sreg b)

/-- REM (R73). -/
def execRem (d a b : SReg) (w v : Bool) (s : State) : Answer := issue (.rem d a b w v) (opRem d a b w v) s

/-- REMU (R73): unsigned remainder. -/
def opRemu (d a b : SReg) (w v : Bool) : Op := opScalar d (srcAB a b w v) fun s => remU (s.sreg a) (s.sreg b)

/-- REMU (R73). -/
def execRemu (d a b : SReg) (w v : Bool) (s : State) : Answer := issue (.remu d a b w v) (opRemu d a b w v) s

/-- MOV (R74): d := a. -/
def opMov (d a : SReg) (w : Bool) : Op := opScalar d [.s a w] fun s => s.sreg a

/-- MOV (R74). -/
def execMov (d a : SReg) (w : Bool) (s : State) : Answer := issue (.mov d a w) (opMov d a w) s

/-- CLZ (R74): leading zero bits. -/
def opClz (d a : SReg) (w : Bool) : Op := opScalar d [.s a w] fun s => word (countLeading (s.sreg a))

/-- CLZ (R74). -/
def execClz (d a : SReg) (w : Bool) (s : State) : Answer := issue (.clz d a w) (opClz d a w) s

/-- CTZ (R74): trailing zero bits. -/
def opCtz (d a : SReg) (w : Bool) : Op := opScalar d [.s a w] fun s => word (countTrailing (s.sreg a))

/-- CTZ (R74). -/
def execCtz (d a : SReg) (w : Bool) (s : State) : Answer := issue (.ctz d a w) (opCtz d a w) s

/-- POPC (R74): one bits. -/
def opPopc (d a : SReg) (w : Bool) : Op := opScalar d [.s a w] fun s => word (countOnes (s.sreg a))

/-- POPC (R74). -/
def execPopc (d a : SReg) (w : Bool) (s : State) : Answer := issue (.popc d a w) (opPopc d a w) s

/-- BSWAP (R74): the bytes reversed. -/
def opBswap (d a : SReg) (w : Bool) : Op := opScalar d [.s a w] fun s => byteSwap (s.sreg a)

/-- BSWAP (R74). -/
def execBswap (d a : SReg) (w : Bool) (s : State) : Answer := issue (.bswap d a w) (opBswap d a w) s

/-- HMK (R76): d := a[7:0] ‖ b[55:0]. -/
def opHmk (d a b : SReg) (w v : Bool) : Op := opScalar d (srcAB a b w v) fun s => mkHandle (s.sreg a).toNat (handleOff (s.sreg b))

/-- HMK (R76). -/
def execHmk (d a b : SReg) (w v : Bool) (s : State) : Answer := issue (.hmk d a b w v) (opHmk d a b w v) s

/-- HOFF (R76): d := a[55:0]. -/
def opHoff (d a : SReg) (w : Bool) : Op := opScalar d [.s a w] fun s => word (handleOff (s.sreg a))

/-- HOFF (R76). -/
def execHoff (d a : SReg) (w : Bool) (s : State) : Answer := issue (.hoff d a w) (opHoff d a w) s

/-- HLEN (R76): the LENGTH of the extent. -/
def opHlen (d a : SReg) (w : Bool) : Op := opScalar d [.s a w] fun s => extentLength s (s.sreg a)

/-- HLEN (R76). -/
def execHlen (d a : SReg) (w : Bool) (s : State) : Answer := issue (.hlen d a w) (opHlen d a w) s

/-- HRGT (R76): ATTR[11:0] of the extent. -/
def opHrgt (d a : SReg) (w : Bool) : Op := opScalar d [.s a w] fun s => extentRights s (s.sreg a)

/-- HRGT (R76). -/
def execHrgt (d a : SReg) (w : Bool) (s : State) : Answer := issue (.hrgt d a w) (opHrgt d a w) s

/-- TIME (R77): the PTP time when the instruction issues. -/
def opTime (d : SReg) : Op :=
  { body := fun s =>
      let (v, s) := readTime s
      .ok (writeS d v s) }

/-- TIME (R77). -/
def execTime (d : SReg) (s : State) : Answer := issue (.time d) (opTime d) s

/-- ADDI (R75): d := a + imm; the immediate has 15 bits, or 41 in a LIMM pair (R63). -/
def opAddi (d a : SReg) (w : Bool) (i : Word) : Op := opScalar d [.s a w] fun s => s.sreg a + i

/-- ADDI (R75). -/
def execAddi (d a : SReg) (w : Bool) (i : BitVec 15) (s : State) : Answer := issue (.addi d a w i) (opAddi d a w (imm15 i)) s

/-- ANDI (R75): d := a AND imm; the immediate has 15 bits, or 41 in a LIMM pair (R63). -/
def opAndi (d a : SReg) (w : Bool) (i : Word) : Op := opScalar d [.s a w] fun s => s.sreg a &&& i

/-- ANDI (R75). -/
def execAndi (d a : SReg) (w : Bool) (i : BitVec 15) (s : State) : Answer := issue (.andi d a w i) (opAndi d a w (imm15 i)) s

/-- ORI (R75): d := a OR imm; the immediate has 15 bits, or 41 in a LIMM pair (R63). -/
def opOri (d a : SReg) (w : Bool) (i : Word) : Op := opScalar d [.s a w] fun s => s.sreg a ||| i

/-- ORI (R75). -/
def execOri (d a : SReg) (w : Bool) (i : BitVec 15) (s : State) : Answer := issue (.ori d a w i) (opOri d a w (imm15 i)) s

/-- XORI (R75): d := a XOR imm; the immediate has 15 bits, or 41 in a LIMM pair (R63). -/
def opXori (d a : SReg) (w : Bool) (i : Word) : Op := opScalar d [.s a w] fun s => s.sreg a ^^^ i

/-- XORI (R75). -/
def execXori (d a : SReg) (w : Bool) (i : BitVec 15) (s : State) : Answer := issue (.xori d a w i) (opXori d a w (imm15 i)) s

/-- SHLI (R75): a shifted left by the immediate count. -/
def opShli (d a : SReg) (w : Bool) (c : BitVec 6) : Op := opScalar d [.s a w] fun s => s.sreg a <<< c.toNat

/-- SHLI (R75). -/
def execShli (d a : SReg) (w : Bool) (c : BitVec 6) (s : State) : Answer := issue (.shli d a w c) (opShli d a w c) s

/-- SHRI (R75): a shifted right with zeros by the immediate count. -/
def opShri (d a : SReg) (w : Bool) (c : BitVec 6) : Op := opScalar d [.s a w] fun s => s.sreg a >>> c.toNat

/-- SHRI (R75). -/
def execShri (d a : SReg) (w : Bool) (c : BitVec 6) (s : State) : Answer := issue (.shri d a w c) (opShri d a w c) s

/-- SRAI (R75): a shifted right with copies of bit 63 by the immediate count. -/
def opSrai (d a : SReg) (w : Bool) (c : BitVec 6) : Op := opScalar d [.s a w] fun s => (s.sreg a).sshiftRight c.toNat

/-- SRAI (R75). -/
def execSrai (d a : SReg) (w : Bool) (c : BitVec 6) (s : State) : Answer := issue (.srai d a w c) (opSrai d a w c) s

/-- EXT (R75): the field of l + 1 bits of a from position p, zero-extended. -/
def opExt (d a : SReg) (w : Bool) (l p : BitVec 6) : Op :=
  opScalar d [.s a w] fun s => extract (s.sreg a) p.toNat (l.toNat + 1)

/-- EXT (R75). -/
def execExt (d a : SReg) (w : Bool) (l p : BitVec 6) (s : State) : Answer := issue (.ext d a w l p) (opExt d a w l p) s

/-- INS (R75): the low l + 1 bits of a replace the field of d from position p. -/
def opIns (d a : SReg) (w : Bool) (l p : BitVec 6) : Op :=
  opScalar d [.s d false, .s a w] fun s => insert (s.sreg d) (s.sreg a) p.toNat (l.toNat + 1)

/-- INS (R75). -/
def execIns (d a : SReg) (w : Bool) (l p : BitVec 6) (s : State) : Answer := issue (.ins d a w l p) (opIns d a w l p) s

/-- MOVI (R75): d := imm; the immediate has 15 bits, or 41 in a LIMM pair (R63). -/
def opMovi (d : SReg) (i : Word) : Op := opScalar d [] fun _ => i

/-- MOVI (R75). -/
def execMovi (d : SReg) (i : BitVec 15) (s : State) : Answer := issue (.movi d i) (opMovi d (imm15 i)) s

end Sys2Proof.Machine
end

