-- ==== Sys2Proof/Machine/TileAlu.lean ====
section
/-! DEFINITION. Tile arithmetic: element-wise operations, comparison and selection, special functions, reductions, conversion,
nested-precision planes and the chain reduction (spec/06_tile_arithmetic.md R142 to R156). -/

namespace Sys2Proof.Machine

/-- The result of a tile operation: its shape word, its size, and each element with its flags. -/
structure Grid where
  shape : BitVec 16
  rows : Nat
  cols : Nat
  value : Nat → Nat → Nat × Flags

/-- Write a result: td is full at once, its padding zero, and the flags are ORed into FLG (R143, R144). -/
def writeGrid (x : TReg) (g : Grid) (s : State) : State :=
  let table := (List.range g.rows).map fun i => (List.range g.cols).map fun j => g.value i j
  let fl := (table.flatten.map Prod.snd).foldl Flags.join {}
  let data := buildTile (shapeSize g.shape) g.rows g.cols fun i j => ((table.getD i []).getD j (0, {})).1
  setFlags fl (writeT x data g.shape s)

/-- The operation format (R143): explicit, or ta's. -/
def opFormat (f : BitVec 4) (a : Tile) : Nat := if f = 15 then shapeFmt a.shape else f.toNat

/-- Is an operand matched with ta (R143)? -/
def matched (e : Nat) (a b : BitVec 16) : Bool :=
  shapeRows b == shapeRows a && shapeRb b == shapeRb a && shapeSize b == e

/-- The operands of an operation of major 0x24, as its element rule sees them. -/
structure Operands where
  f : Nat
  e : Nat
  rows : Nat
  cols : Nat
  a : Tile
  b : Tile
  d : Tile

/-- An operation of major 0x24: the checks of R143, then its result. `other` is tb where the operation has one, `old` says
that it reads td, and `free` that tb is not matched but has a check of its own. -/
def opAlu (x y : TReg) (w : Bool) (other : Option (TReg × Bool)) (old : Bool) (f : BitVec 4) (allowed : Nat → Bool)
    (free : Option (Operands → Bool)) (g : Operands → Grid) : Op :=
  { tiles := [x, y] ++ (match other with
      | some (z, _) => [z]
      | none => [])
    srcs := (if old then [Src.t x false] else []) ++ [.t y w] ++ (match other with
      | some (z, v) => [.t z v]
      | none => [])
    body := fun s => do
      let a := s.tile y
      let b := match other with
        | some (z, _) => s.tile z
        | none => a
      let fmt := opFormat f a
      let e := Num.size fmt
      let o : Operands := { f := fmt, e := e, rows := shapeRows a.shape, cols := shapeRb a.shape / e, a := a, b := b, d := s.tile x }
      ensure (allowed fmt) .tileFormat s
      ensure (shapeSize a.shape == e) .tileFormat s
      ensure (match free with
        | some check => check o
        | none => matched e a.shape b.shape) .tileFormat s
      ensure (!old || matched e a.shape (s.tile x).shape) .tileFormat s
      .ok (writeGrid x (g o) s) }

/-- The shape word of a result with ta's ROWS and RB (R143). -/
def likeA (o : Operands) (fmt : Nat) : BitVec 16 := mkShape fmt (shapeRb o.a.shape) o.rows

/-- An element-wise result: a function of the elements of ta, tb and the old td. -/
def each (f : Operands → Nat → Nat → Nat → Nat × Flags) (o : Operands) : Grid :=
  { shape := likeA o o.f, rows := o.rows, cols := o.cols,
    value := fun i j => f o (elem o.a.data o.e i j) (elem o.b.data o.e i j) (elem o.d.data o.e i j) }

/-- Formats that a row of R57 allows. -/
def arith (f : Nat) : Bool := decide (f ≤ 5)
def ints (f : Nat) : Bool := decide (f ≤ 3)
def floats (f : Nat) : Bool := f == 4 || f == 5
def reds (f : Nat) : Bool := decide (2 ≤ f) && decide (f ≤ 5)
def anyFormat (f : Nat) : Bool := decide (f ≤ 7)

/-! Element rules (R145 to R149). -/

/-- An exact integer written at n bits, with or without saturation (R102). -/
def intResult (n : Nat) (sat : Bool) (x : Int) : Nat × Flags :=
  if sat then
    let (y, c) := satN n x
    (Num.ofSigned n y, { sat := c })
  else (Num.ofSigned n x, {})

/-- TADD, TSUB and TMUL (R145). -/
def arithRule (int : Int → Int → Int) (fp : Num.Val → Num.Val → Num.Val) (sat : Bool) (o : Operands) (a b _ : Nat) : Nat × Flags :=
  let n := 8 * o.e
  if Num.isInt o.f then intResult n sat (int (Num.toSigned n a) (Num.toSigned n b))
  else Num.roundFp o.f .rne (fp (Num.value o.f a) (Num.value o.f b))

/-- TMIN and TMAX (R145). -/
def extremeRule (max : Bool) (o : Operands) (a b _ : Nat) : Nat × Flags :=
  let n := 8 * o.e
  if Num.isInt o.f then (if decide (Num.toSigned n a ≤ Num.toSigned n b) != max then a else b, {}) else Num.minMax o.f max a b

/-- TABS and TNEG (R145): a floating element changes its sign bit only. -/
def signRule (neg : Bool) (sat : Bool) (o : Operands) (a _ _ : Nat) : Nat × Flags :=
  let n := 8 * o.e
  let x := Num.toSigned n a
  if Num.isInt o.f then intResult n sat (if neg then -x else Int.ofNat x.natAbs)
  else match Num.value o.f a with
    | .nan sn => ((Num.fpOf o.f).nan, { inv := sn })
    | _ => (if neg then a ^^^ 2 ^ (n - 1) else a % 2 ^ (n - 1), {})

/-- TFMA (R146). -/
def fmaRule (o : Operands) (a b d : Nat) : Nat × Flags :=
  Num.roundFp o.f .rne (Num.fma (Num.value o.f a) (Num.value o.f b) (Num.value o.f d))

/-- TAND, TOR and TXOR (R147). -/
def bitRule (f : Nat → Nat → Nat) (_ : Operands) (a b _ : Nat) : Nat × Flags := (f a b, {})

/-- TSHL (R147): the count is all n bits of tb; with saturation the product is exact before clamping. -/
def shlRule (sat : Bool) (o : Operands) (a c _ : Nat) : Nat × Flags :=
  let n := 8 * o.e
  let x := Num.toSigned n a
  if sat then
    if c < n then intResult n true (x * 2 ^ c)
    else if x = 0 then (0, {})
    else (Num.ofSigned n (if x < 0 then -(2 ^ (n - 1)) else 2 ^ (n - 1) - 1), { sat := true })
  else (if c < n then a * 2 ^ c % 2 ^ n else 0, {})

/-- TSHR (R147). -/
def shrRule (o : Operands) (a c _ : Nat) : Nat × Flags := (if c < 8 * o.e then a / 2 ^ c else 0, {})

/-- TSRA (R147). -/
def sraRule (o : Operands) (a c _ : Nat) : Nat × Flags :=
  let n := 8 * o.e
  let x := Num.toSigned n a
  (Num.ofSigned n (if c < n then x / 2 ^ c else if x < 0 then -1 else 0), {})

/-- TSEL (R148): bit patterns. -/
def selRule (_ : Operands) (a b d : Nat) : Nat × Flags := (if d ≠ 0 then a else b, {})

/-- The comparisons of TCMP (R148). -/
inductive Cmp where
  | eq | ne | lt | le
deriving DecidableEq, Repr

/-- Does a comparison of two elements hold (R106, R148)? -/
def cmpHolds (c : Cmp) (o : Operands) (a b : Nat) : Bool :=
  let n := 8 * o.e
  if Num.isInt o.f then
    let x := Num.toSigned n a
    let y := Num.toSigned n b
    match c with
    | .eq => decide (x = y)
    | .ne => decide (x ≠ y)
    | .lt => decide (x < y)
    | .le => decide (x ≤ y)
  else
    let x := Num.value o.f a
    let y := Num.value o.f b
    match c with
    | .eq => Num.eq x y
    | .ne => !Num.eq x y
    | .lt => Num.lt x y
    | .le => Num.lt x y || Num.eq x y

/-- TCMP (R148): all ones or zero; a signalling NaN sets INV. -/
def cmpRule (c : Cmp) (o : Operands) (a b _ : Nat) : Nat × Flags :=
  (if cmpHolds c o a b then 2 ^ (8 * o.e) - 1 else 0,
   if Num.isInt o.f then {} else { inv := (Num.value o.f a).snan || (Num.value o.f b).snan })

/-- The integer format of the size of F (R148). -/
def maskFormat (f : Nat) : Nat :=
  match f with
  | 4 => 1
  | 5 => 2
  | _ => f

/-- TEXP, TLOG, TRCP and TRSQ (R149). -/
def specialRule (sp : Num.Special) (o : Operands) (a _ _ : Nat) : Nat × Flags :=
  Num.roundFp o.f .rne (Num.special sp (Num.value o.f a))

/-! The instructions of major 0x24. -/

/-- A two-source element-wise operation. -/
def opTwo (x y z : TReg) (w v : Bool) (f : BitVec 4) (allowed : Nat → Bool) (g : Operands → Grid) : Op :=
  opAlu x y w (some (z, v)) false f allowed none g

/-- A one-source element-wise operation. -/
def opOne (x y : TReg) (w : Bool) (f : BitVec 4) (allowed : Nat → Bool) (g : Operands → Grid) : Op :=
  opAlu x y w none false f allowed none g

def opTadd (x y z : TReg) (w v s : Bool) (f : BitVec 4) : Op := opTwo x y z w v f arith (each (arithRule (· + ·) Num.add s))
def opTsub (x y z : TReg) (w v s : Bool) (f : BitVec 4) : Op :=
  opTwo x y z w v f arith (each (arithRule (· - ·) (fun a b => Num.add a b.neg) s))
def opTmul (x y z : TReg) (w v s : Bool) (f : BitVec 4) : Op := opTwo x y z w v f arith (each (arithRule (· * ·) Num.mul s))
def opTfma (x y z : TReg) (w v : Bool) (f : BitVec 4) : Op := opAlu x y w (some (z, v)) true f floats none (each fmaRule)
def opTmin (x y z : TReg) (w v : Bool) (f : BitVec 4) : Op := opTwo x y z w v f arith (each (extremeRule false))
def opTmax (x y z : TReg) (w v : Bool) (f : BitVec 4) : Op := opTwo x y z w v f arith (each (extremeRule true))
def opTabs (x y : TReg) (w s : Bool) (f : BitVec 4) : Op := opOne x y w f arith (each (signRule false s))
def opTneg (x y : TReg) (w s : Bool) (f : BitVec 4) : Op := opOne x y w f arith (each (signRule true s))
def opTand (x y z : TReg) (w v : Bool) (f : BitVec 4) : Op := opTwo x y z w v f ints (each (bitRule (· &&& ·)))
def opTor (x y z : TReg) (w v : Bool) (f : BitVec 4) : Op := opTwo x y z w v f ints (each (bitRule (· ||| ·)))
def opTxor (x y z : TReg) (w v : Bool) (f : BitVec 4) : Op := opTwo x y z w v f ints (each (bitRule (· ^^^ ·)))
def opTshl (x y z : TReg) (w v s : Bool) (f : BitVec 4) : Op := opTwo x y z w v f ints (each (shlRule s))
def opTshr (x y z : TReg) (w v : Bool) (f : BitVec 4) : Op := opTwo x y z w v f ints (each shrRule)
def opTsra (x y z : TReg) (w v : Bool) (f : BitVec 4) : Op := opTwo x y z w v f ints (each sraRule)
def opTsel (x y z : TReg) (w v : Bool) (f : BitVec 4) : Op := opAlu x y w (some (z, v)) true f anyFormat none (each selRule)

/-- TCMP (R148). -/
def opTcmp (c : Cmp) (x y z : TReg) (w v : Bool) (f : BitVec 4) : Op :=
  opTwo x y z w v f arith fun o => { each (cmpRule c) o with shape := likeA o (maskFormat o.f) }

/-- A special function. -/
def opSpecial (sp : Num.Special) (x y : TReg) (w : Bool) (f : BitVec 4) : Op := opOne x y w f floats (each (specialRule sp))

/-- The check of TSCALE on tb: one byte for each element, INT8 or E8M0 (R146). -/
def scaleOk (o : Operands) : Bool :=
  shapeRows o.b.shape == o.rows && shapeRb o.b.shape == o.cols && (shapeFmt o.b.shape == 0 || shapeFmt o.b.shape == 7)

/-- TSCALE (R146): by a power of two. A scale of 0xFF gives the canonical NaN and sets no flag of its own; a signalling NaN sets INV there too
(R104, R105) (DEDUCED, log 119). -/
def scaleGrid (o : Operands) : Grid :=
  { shape := likeA o o.f, rows := o.rows, cols := o.cols,
    value := fun i j =>
      let a := Num.value o.f (elem o.a.data o.e i j)
      let c := elem o.b.data 1 i j
      if shapeFmt o.b.shape = 0 then Num.roundFp o.f .rne (Num.mul a (.fin false 1 (Num.toSigned 8 c)))
      else if c = 255 then ((Num.fpOf o.f).nan, { inv := a.snan })
      else Num.roundFp o.f .rne (Num.mul a (Num.ofE8 c)) }

def opTscale (x y z : TReg) (w v : Bool) (f : BitVec 4) : Op := opAlu x y w (some (z, v)) false f floats (some scaleOk) scaleGrid

/-- TADD (R145). -/
def execTadd (x y z : TReg) (w v s : Bool) (f : BitVec 4) (st : State) : Answer := issue (.tadd x y z w v s f) (opTadd x y z w v s f) st

/-- TSUB (R145). -/
def execTsub (x y z : TReg) (w v s : Bool) (f : BitVec 4) (st : State) : Answer := issue (.tsub x y z w v s f) (opTsub x y z w v s f) st

/-- TMUL (R145). -/
def execTmul (x y z : TReg) (w v s : Bool) (f : BitVec 4) (st : State) : Answer := issue (.tmul x y z w v s f) (opTmul x y z w v s f) st

/-- TFMA (R146). -/
def execTfma (x y z : TReg) (w v : Bool) (f : BitVec 4) (st : State) : Answer := issue (.tfma x y z w v f) (opTfma x y z w v f) st

/-- TMIN (R145). -/
def execTmin (x y z : TReg) (w v : Bool) (f : BitVec 4) (st : State) : Answer := issue (.tmin x y z w v f) (opTmin x y z w v f) st

/-- TMAX (R145). -/
def execTmax (x y z : TReg) (w v : Bool) (f : BitVec 4) (st : State) : Answer := issue (.tmax x y z w v f) (opTmax x y z w v f) st

/-- TABS (R145). -/
def execTabs (x y : TReg) (w s : Bool) (f : BitVec 4) (st : State) : Answer := issue (.tabs x y w s f) (opTabs x y w s f) st

/-- TNEG (R145). -/
def execTneg (x y : TReg) (w s : Bool) (f : BitVec 4) (st : State) : Answer := issue (.tneg x y w s f) (opTneg x y w s f) st

/-- TAND (R147). -/
def execTand (x y z : TReg) (w v : Bool) (f : BitVec 4) (st : State) : Answer := issue (.tand x y z w v f) (opTand x y z w v f) st

/-- TOR (R147). -/
def execTor (x y z : TReg) (w v : Bool) (f : BitVec 4) (st : State) : Answer := issue (.tor x y z w v f) (opTor x y z w v f) st

/-- TXOR (R147). -/
def execTxor (x y z : TReg) (w v : Bool) (f : BitVec 4) (st : State) : Answer := issue (.txor x y z w v f) (opTxor x y z w v f) st

/-- TSHL (R147). -/
def execTshl (x y z : TReg) (w v s : Bool) (f : BitVec 4) (st : State) : Answer := issue (.tshl x y z w v s f) (opTshl x y z w v s f) st

/-- TSHR (R147). -/
def execTshr (x y z : TReg) (w v : Bool) (f : BitVec 4) (st : State) : Answer := issue (.tshr x y z w v f) (opTshr x y z w v f) st

/-- TSRA (R147). -/
def execTsra (x y z : TReg) (w v : Bool) (f : BitVec 4) (st : State) : Answer := issue (.tsra x y z w v f) (opTsra x y z w v f) st

/-- TSCALE (R146). -/
def execTscale (x y z : TReg) (w v : Bool) (f : BitVec 4) (st : State) : Answer := issue (.tscale x y z w v f) (opTscale x y z w v f) st

/-- TSEL (R148). -/
def execTsel (x y z : TReg) (w v : Bool) (f : BitVec 4) (st : State) : Answer := issue (.tsel x y z w v f) (opTsel x y z w v f) st

/-- TCMP.EQ (R148). -/
def execTcmpEq (x y z : TReg) (w v : Bool) (f : BitVec 4) (st : State) : Answer := issue (.tcmpEq x y z w v f) (opTcmp .eq x y z w v f) st

/-- TCMP.NE (R148). -/
def execTcmpNe (x y z : TReg) (w v : Bool) (f : BitVec 4) (st : State) : Answer := issue (.tcmpNe x y z w v f) (opTcmp .ne x y z w v f) st

/-- TCMP.LT (R148). -/
def execTcmpLt (x y z : TReg) (w v : Bool) (f : BitVec 4) (st : State) : Answer := issue (.tcmpLt x y z w v f) (opTcmp .lt x y z w v f) st

/-- TCMP.LE (R148). -/
def execTcmpLe (x y z : TReg) (w v : Bool) (f : BitVec 4) (st : State) : Answer := issue (.tcmpLe x y z w v f) (opTcmp .le x y z w v f) st

/-- TEXP (R149). -/
def execTexp (x y : TReg) (w : Bool) (f : BitVec 4) (st : State) : Answer := issue (.texp x y w f) (opSpecial .exp x y w f) st

/-- TLOG (R149). -/
def execTlog (x y : TReg) (w : Bool) (f : BitVec 4) (st : State) : Answer := issue (.tlog x y w f) (opSpecial .log x y w f) st

/-- TRCP (R149). -/
def execTrcp (x y : TReg) (w : Bool) (f : BitVec 4) (st : State) : Answer := issue (.trcp x y w f) (opSpecial .rcp x y w f) st

/-- TRSQ (R149). -/
def execTrsq (x y : TReg) (w : Bool) (f : BitVec 4) (st : State) : Answer := issue (.trsq x y w f) (opSpecial .rsq x y w f) st

/-! Reductions (R119, R150). -/

/-- The operators of a reduction. -/
inductive Red where
  | add | max | min
deriving DecidableEq, Repr

/-- Reduce a row or a column of elements in ascending order (R119). -/
def reduce (r : Red) (f e : Nat) (xs : List Nat) : Nat × Flags :=
  let n := 8 * e
  let x0 := xs.headD 0
  let rest := xs.drop 1
  match r with
  | .add =>
    if Num.isInt f then
      let (y, c) := satN n (xs.foldl (fun acc x => acc + Num.toSigned n x) 0)
      (Num.ofSigned n y, { sat := c })
    else
      rest.foldl (fun acc x =>
        let (y, fl) := Num.roundFp f .rne (Num.add (Num.value f acc.1) (Num.value f x))
        (y, acc.2.join fl)) (Num.roundFp f .rne (Num.value f x0))
  | _ =>
    let max := r == .max
    if Num.isInt f then
      (rest.foldl (fun acc x => if decide (Num.toSigned n acc ≤ Num.toSigned n x) != max then acc else x) x0, {})
    else
      rest.foldl (fun acc x =>
        let (y, fl) := Num.minMax f max acc.1 x
        (y, acc.2.join fl)) (Num.minMax f max x0 x0)

/-- TREDR (R150): one column. -/
def rowGrid (r : Red) (o : Operands) : Grid :=
  { shape := mkShape o.f o.e o.rows, rows := o.rows, cols := 1,
    value := fun i _ => reduce r o.f o.e ((List.range o.cols).map fun j => elem o.a.data o.e i j) }

/-- TREDC (R150): one row. -/
def colGrid (r : Red) (o : Operands) : Grid :=
  { shape := mkShape o.f (shapeRb o.a.shape) 1, rows := 1, cols := o.cols,
    value := fun _ j => reduce r o.f o.e ((List.range o.rows).map fun i => elem o.a.data o.e i j) }

/-- TDOTR (R119, R150): fused multiply-adds in ascending order. -/
def dotGrid (o : Operands) : Grid :=
  let val := fun (m : Memory) i j => Num.value o.f (elem m o.e i j)
  { shape := mkShape o.f o.e o.rows, rows := o.rows, cols := 1,
    value := fun i _ =>
      (List.range' 1 (o.cols - 1)).foldl (fun acc j =>
        let (y, fl) := Num.roundFp o.f .rne (Num.fma (val o.a.data i j) (val o.b.data i j) (Num.value o.f acc.1))
        (y, acc.2.join fl)) (Num.roundFp o.f .rne (Num.mul (val o.a.data i 0) (val o.b.data i 0))) }

def opTredr (r : Red) (x y : TReg) (w : Bool) (f : BitVec 4) : Op := opOne x y w f reds (rowGrid r)
def opTredc (r : Red) (x y : TReg) (w : Bool) (f : BitVec 4) : Op := opOne x y w f reds (colGrid r)
def opTdotr (x y z : TReg) (w v : Bool) (f : BitVec 4) : Op := opTwo x y z w v f floats dotGrid

/-- TREDR.ADD (R150). -/
def execTredrAdd (x y : TReg) (w : Bool) (f : BitVec 4) (st : State) : Answer := issue (.tredrAdd x y w f) (opTredr .add x y w f) st

/-- TREDR.MAX (R150). -/
def execTredrMax (x y : TReg) (w : Bool) (f : BitVec 4) (st : State) : Answer := issue (.tredrMax x y w f) (opTredr .max x y w f) st

/-- TREDR.MIN (R150). -/
def execTredrMin (x y : TReg) (w : Bool) (f : BitVec 4) (st : State) : Answer := issue (.tredrMin x y w f) (opTredr .min x y w f) st

/-- TREDC.ADD (R150). -/
def execTredcAdd (x y : TReg) (w : Bool) (f : BitVec 4) (st : State) : Answer := issue (.tredcAdd x y w f) (opTredc .add x y w f) st

/-- TREDC.MAX (R150). -/
def execTredcMax (x y : TReg) (w : Bool) (f : BitVec 4) (st : State) : Answer := issue (.tredcMax x y w f) (opTredc .max x y w f) st

/-- TREDC.MIN (R150). -/
def execTredcMin (x y : TReg) (w : Bool) (f : BitVec 4) (st : State) : Answer := issue (.tredcMin x y w f) (opTredc .min x y w f) st

/-- TDOTR (R150). -/
def execTdotr (x y z : TReg) (w v : Bool) (f : BitVec 4) (st : State) : Answer := issue (.tdotr x y z w v f) (opTdotr x y z w v f) st

/-! Conversion (R151). -/

/-- The seed of stochastic rounding: argument word 7 of the capsule record (R25, R114). Firmware outside tasks has no record: its seed is 0 (DESIGN
CHOICE, log 118). -/
def State.seed (s : State) : Word :=
  match s.capsule with
  | some c => c.field 0x78
  | none => 0

/-- Convert an element (R151): integers never round; the draw is of the source element. -/
def convertElem (seed ranks : Word) (src dst r i j x : Nat) : Nat × Flags :=
  let u := Num.draw seed ranks i j dst (word x)
  Num.convert dst (Num.modeOf r u) (Num.value src x)

/-- TCVT (R151). -/
def opTcvt (x y : TReg) (w : Bool) (f r : Nat) : Op :=
  { tiles := [x, y], srcs := [.t y w],
    body := fun s => do
      let a := s.tile y
      let src := shapeFmt a.shape
      let cols := shapeCols a.shape
      ensure (src != 8 && decide (cols * Num.size f ≤ 64)) .tileFormat s
      let seed := s.seed
      let ranks := s.hart.ranks
      let e := Num.size src
      .ok (writeGrid x { shape := mkShape f (cols * Num.size f) (shapeRows a.shape), rows := shapeRows a.shape, cols := cols,
                         value := fun i j => convertElem seed ranks src f r i j (elem a.data e i j) } s) }

/-- TCVT (R151). -/
def execTcvt (x y : TReg) (w : Bool) (f : BitVec 4) (r : BitVec 3) (st : State) : Answer :=
  issue (.tcvt x y w f r) (opTcvt x y w f.toNat r.toNat) st

/-! Nested-precision planes (R152 to R154). -/

/-- Is tb a row of E8M0 scales? -/
def scaleRow (b : Tile) : Bool := shapeFmt b.shape == 7 && shapeRows b.shape == 1

/-- The chosen m of R153, with its flags, for y = n / 2^sh: the nearest member of the grid, ties to even m. At c = 8 the restore
bit changes no value, as in R116 (DEDUCED, log 19). -/
def quantise (c : Nat) (rho : Bool) (n : Int) (sh : Nat) : Int × Flags :=
  let step : Int := 2 ^ (8 - c) * 2 ^ sh
  let off : Int := if rho && decide (c < 8) then 2 ^ (8 - c) * 2 ^ sh / 2 else 0
  let q := (n - off) / step
  let r := (n - off) % step
  let m := if 2 * r < step then q else if step < 2 * r then q + 1 else if q % 2 = 0 then q else q + 1
  let lo : Int := -(2 ^ (c - 1))
  let hi : Int := 2 ^ (c - 1) - 1
  let beyond : Bool := decide (n < lo * step + off) || decide (hi * step + off < n)
  let m := if m < lo then lo else if hi < m then hi else m
  (m, { sat := beyond, inx := decide (m * step + off ≠ n) })

/-- The chosen m of an element for the scale byte s (R153). -/
def quantElem (c : Nat) (rho : Bool) (v : Num.Val) (sc : Nat) : Int × Flags :=
  if sc = 255 then (0, { inv := true })
  else match v with
    | .nan _ => (0, { inv := true })
    | .inf neg => (if neg then -(2 ^ (c - 1)) else 2 ^ (c - 1) - 1, { sat := true, inx := true })
    | .fin neg m e =>
      let k : Int := e + 127 - Int.ofNat sc
      let x : Int := if neg then -(Int.ofNat m) else Int.ofNat m
      -- One more fraction bit keeps the half step of the restore offset whole.
      if 0 ≤ k then quantise c rho (x * 2 ^ (k.toNat + 1)) 1 else quantise c rho (2 * x) (k.natAbs + 1)

/-- A byte of the plane form: bit t of byte 4q + b is bit b(7 − q) of column 8b + t (R152). -/
def planeByte (vals : List Nat) (p : Nat) : Nat :=
  (List.range 8).foldl (fun acc t => acc + (if bitOf (vals.getD (8 * (p % 4) + t) 0) (7 - p / 4) then 2 ^ t else 0)) 0

/-- TQNT (R153). -/
def opTqnt (x y z : TReg) (w v : Bool) (c : Nat) (r : Bool) : Op :=
  { tiles := [x, y, z], srcs := [.t y w, .t z v],
    body := fun s => do
      let a := s.tile y
      let b := s.tile z
      let f := shapeFmt a.shape
      let cols := shapeCols a.shape
      ensure ((decide (f ≤ 2) || f == 4 || f == 5) && decide (cols ≤ 32) && scaleRow b && decide (cols ≤ shapeCols b.shape))
        .tileFormat s
      let rows := shapeRows a.shape
      let e := Num.size f
      let table := (List.range rows).map fun i => (List.range cols).map fun j =>
        quantElem c r (Num.value f (elem a.data e i j)) (elem b.data 1 0 j)
      let fl := (table.flatten.map Prod.snd).foldl Flags.join {}
      let bytes := fun i => (table.getD i []).map fun p => Num.ofSigned 8 (p.1 * 2 ^ (8 - c))
      .ok (setFlags fl (writeT x (buildTile 1 rows (4 * c) fun i p => planeByte (bytes i) p) (mkShape 8 (4 * c) rows) s)) }

/-- TQNT (R153). -/
def execTqnt (x y z : TReg) (w v : Bool) (c : BitVec 3) (r : Bool) (st : State) : Answer :=
  issue (.tqnt x y z w v c r) (opTqnt x y z w v (c.toNat + 1) r) st

/-- The stored byte of a column in a row of the plane form (R152). -/
def planeValue (m : Memory) (c row n : Nat) : Nat :=
  (List.range c).foldl (fun acc q => acc + (if bitOf (elem m 1 row (4 * q + n / 8)) (n % 8) then 2 ^ (7 - q) else 0)) 0

/-- TDQ (R154). -/
def opTdq (x y z : TReg) (w v : Bool) (c : Nat) (r : Bool) : Op :=
  { tiles := [x, y, z], srcs := [.t y w, .t z v],
    body := fun s => do
      let a := s.tile y
      let b := s.tile z
      ensure (shapeFmt a.shape == 8 && shapeRb a.shape == 4 * c && scaleRow b && decide (shapeCols b.shape ≤ 32)) .tileFormat s
      let rows := shapeRows a.shape
      let cols := shapeCols b.shape
      .ok (writeGrid x { shape := mkShape 4 (2 * cols) rows, rows := rows, cols := cols,
                         value := fun i n =>
                           let sc := elem b.data 1 0 n
                           if sc = 255 then (0x7FC0, {})
                           else Num.roundFp 4 .rne (Num.mul (Num.ofInt (Num.npValue (planeValue a.data c i n) c r)) (Num.ofE8 sc)) } s) }

/-- TDQ (R154). -/
def execTdq (x y z : TReg) (w v : Bool) (c : BitVec 3) (r : Bool) (st : State) : Answer :=
  issue (.tdq x y z w v c r) (opTdq x y z w v (c.toNat + 1) r) st

/-! The chain reduction (R121, R155, R156). -/

/-- The message that carries a partial to the next rank (R155); its payload is open (log 7). -/
def chainMessage (l r : Nat) (data : Memory) (shape : BitVec 16) (s : State) : Msg :=
  let dest := word ((0xFF00 + l) * 2 ^ 48 + l * 2 ^ 45 + (r + 1) % 256 * 2 ^ 35 + 7 * 2 ^ 32)
  { kind := .data, cap := s.hart.cap, entry := 0, dest := dest, payload := Vector.ofFn fun i => Config.chainPayload i.val,
    tile := some (data, shape), src := BitVec.ofNat 13 s.hart.core, ranks := s.hart.ranks, sender := some s.hart.task, bound := none,
    tiles := 0, hint := 0, paired := s.hart.partner.isSome }

/-- Does the entry fit the chain: its TAG, a tile, and ta's shape (R155)? -/
def chainFits (l : Nat) (shape : BitVec 16) (m : Msg) : Option Memory :=
  match m.tile with
  | none => none
  | some (d, sh) => if destTag m.dest = 0xFF00 + l ∧ sh = shape then some d else none

/-- Send the sum on, when there is a next rank, and write td (R155); with no room for the message nothing is done (R36). -/
def chainEnd (x : TReg) (l r members : Nat) (g : Grid) (s : State) : Run State := do
  let t := writeGrid x g s
  if r + 1 < members then do
    let m := Effect.message (chainMessage l r (t.tile x).data g.shape t)
    let _ ← bufferOut m s
    .ok (pushEffect m t)
  else .ok t

/-- The ranks of the core that issues (R81, R155): those of a footprint core, also where a resumed task carries others. A service core has none,
and a task there has its own (DEDUCED, log 121). -/
def issuingRanks (s : State) : Word :=
  let own := s.capsule.bind fun c => (c.foot ++ c.foot2).find? fun x => x.1 == s.hart.core
  (own.map Prod.snd).getD s.hart.ranks

/-- TREDX (R155, R156). Firmware outside tasks has no capsule and so no chain: MSG_TARGET (DESIGN CHOICE, log 135). -/
def opTredx (x y : TReg) (w : Bool) (l : Nat) : Op :=
  { tiles := [x, y], srcs := [.t y w],
    body := fun s =>
      match s.capsule with
      | none => faultOf .msgTarget s
      | some c => do
        ensure (decide (l ≤ c.lvls) && c.domain l != 7) .msgTarget s
        ensure ((List.range l).all fun k => rankAt (issuingRanks s) k == 0) .msgTarget s
        let a := s.tile y
        ensure (shapeFmt a.shape == 5) .tileFormat s
        let r := rankAt (issuingRanks s) l
        let rows := shapeRows a.shape
        let cols := shapeCols a.shape
        if r = 0 then
          chainEnd x l r (c.members l) { shape := a.shape, rows := rows, cols := cols, value := fun i j => (elem a.data 4 i j, {}) } s
        else match portHead s 3 with
          | none => noEntry 3 s
          | some e =>
            match chainFits l a.shape e.msg with
            | none => faultOf .portKind s
            | some d =>
              chainEnd x l r (c.members l) { shape := a.shape, rows := rows, cols := cols,
                                             value := fun i j => Num.roundFp 5 .rne (Num.add (Num.ofF32 (elem d 4 i j)) (Num.ofF32 (elem a.data 4 i j))) }
                (takeEntry 3 s) }

/-- TREDX (R155). -/
def execTredx (x y : TReg) (w : Bool) (l : BitVec 3) (st : State) : Answer := issue (.tredx x y w l) (opTredx x y w l.toNat) st

end Sys2Proof.Machine
end

