-- ==== Sys2Proof/Machine/Sequencer.lean ====
section
/-! DEFINITION. The words that act on the words after them: LIMM and REPF, and a word that decodes to nothing
(spec/02_formats_encodings.md R50, R63 to R67). -/

namespace Sys2Proof.Machine

/-- A run that knows where its fault stands. -/
abbrev SitedRun (α : Type) := Except (Site × Halt) α

/-- What a sited attempt comes to. -/
def settleAt : SitedRun State → Answer
  | .ok s => .next s
  | .error (site, h) => settle site (.error h)

/-- Put a site on the halt of a run. -/
def atSite {α : Type} (site : Site) : Run α → SitedRun α
  | .ok a => .ok a
  | .error h => .error (site, h)

/-- A word that is no instruction (R50): ILLEGAL at issue, before every other reason, SAFE_DISTANCE among them (R39, R51). -/
def execIllegalInstruction (w : BitVec 32) (s : State) : Answer := settle { word := w.toNat } (faultOf .illegal s)

/-! LIMM (R63). -/

/-- The instruction of a LIMM pair, for each of the six words that may follow a LIMM. -/
def limmOp (hi : BitVec 26) : Instr → Option Op
  | .addi d a w i => some (opAddi d a w (imm41 hi i))
  | .andi d a w i => some (opAndi d a w (imm41 hi i))
  | .ori d a w i => some (opOri d a w (imm41 hi i))
  | .xori d a w i => some (opXori d a w (imm41 hi i))
  | .movi d i => some (opMovi d (imm41 hi i))
  | .ldc d a w i => some (opLdc d a w (imm41 hi i).toInt)
  | _ => none

/-- The faults of CheckAccess: a successor that cannot be fetched for one of them makes the LIMM illegal (R63). -/
def Code.isAccess : Code → Bool
  | .extentIndex | .extentBounds | .extentRights | .sealedRead | .sealedWrite | .sealedCopy => true
  | _ => false

/-- Fetch the word after a LIMM: a fetch that fails CheckAccess raises ILLEGAL (R63). -/
def fetchSuccessor (s : State) : Run (Nat × State) :=
  match issueWord (addOff s.hart.r.pc 4) s with
  | .error (.fault c d t) => if c.isAccess then faultOf .illegal s else .error (.fault c d t)
  | r => r

/-- SAFE_DISTANCE is decided before every other reason but ILLEGAL (R50, R51): the instruction that would be the 4,097th counted raises it where the
words after it cannot be read. -/
def limitFirst {α : Type} (s : State) : Run α → Run α
  | .error (.fault c d t) =>
    if s.hart.kind = .task ∧ 4096 ≤ s.hart.sdist ∧ c ≠ .illegal then .error (.fault .safeDistance none t) else .error (.fault c d t)
  | r => r

/-- A LIMM and the word after it (R63): one issue, one count, and PC moves past both. The pairing is a check of R50, before
SAFE_DISTANCE (R39). -/
def limmPair (i : BitVec 26) (s : State) : SitedRun State := do
  let word1 := wordOf (.limm i)
  let (w, s) ← atSite { word := word1 } (limitFirst s (fetchSuccessor s))
  let site : Site := { word := word1, word2 := w }
  match (decodeWord w).toOption.bind (limmOp i) with
  | none => .error (site, .fault .illegal none s)
  | some o => do
    let t ← atSite site (perform o s)
    .ok (advance 8 (countIssue (wake t)))

/-- LIMM (R63). -/
def execLimm (i : BitVec 26) (s : State) : Answer := settleAt (limmPair i s)

/-! REPF (R65 to R67). -/

/-- What pass p adds to the register fields: p times each stride (R66). -/
structure Advance where
  d : Nat
  a : Nat
  b : Nat
deriving DecidableEq, Repr

/-- A scalar field advanced, modulo 32 (R66). -/
def s32 (r : SReg) (n : Nat) : SReg := Fin.ofNat 32 (r.val + n)

/-- A tile field advanced, modulo 16 (R66). -/
def t16 (t : TReg) (n : Nat) : TReg := Fin.ofNat 16 (t.val + n)

/-- A captured instruction with its register fields advanced, and its operation; none for a word that is not eligible (R65). A
field that the instruction does not use holds no register number (R48) and is not advanced (log 22). -/
def replay (u : Advance) : Instr → Option (Instr × Op)
  | .add d a b w v => some (.add (s32 d u.d) (s32 a u.a) (s32 b u.b) w v, opAdd (s32 d u.d) (s32 a u.a) (s32 b u.b) w v)
  | .sub d a b w v => some (.sub (s32 d u.d) (s32 a u.a) (s32 b u.b) w v, opSub (s32 d u.d) (s32 a u.a) (s32 b u.b) w v)
  | .and d a b w v => some (.and (s32 d u.d) (s32 a u.a) (s32 b u.b) w v, opAnd (s32 d u.d) (s32 a u.a) (s32 b u.b) w v)
  | .or d a b w v => some (.or (s32 d u.d) (s32 a u.a) (s32 b u.b) w v, opOr (s32 d u.d) (s32 a u.a) (s32 b u.b) w v)
  | .xor d a b w v => some (.xor (s32 d u.d) (s32 a u.a) (s32 b u.b) w v, opXor (s32 d u.d) (s32 a u.a) (s32 b u.b) w v)
  | .shl d a b w v => some (.shl (s32 d u.d) (s32 a u.a) (s32 b u.b) w v, opShl (s32 d u.d) (s32 a u.a) (s32 b u.b) w v)
  | .shr d a b w v => some (.shr (s32 d u.d) (s32 a u.a) (s32 b u.b) w v, opShr (s32 d u.d) (s32 a u.a) (s32 b u.b) w v)
  | .sra d a b w v => some (.sra (s32 d u.d) (s32 a u.a) (s32 b u.b) w v, opSra (s32 d u.d) (s32 a u.a) (s32 b u.b) w v)
  | .rol d a b w v => some (.rol (s32 d u.d) (s32 a u.a) (s32 b u.b) w v, opRol (s32 d u.d) (s32 a u.a) (s32 b u.b) w v)
  | .min d a b w v => some (.min (s32 d u.d) (s32 a u.a) (s32 b u.b) w v, opMin (s32 d u.d) (s32 a u.a) (s32 b u.b) w v)
  | .max d a b w v => some (.max (s32 d u.d) (s32 a u.a) (s32 b u.b) w v, opMax (s32 d u.d) (s32 a u.a) (s32 b u.b) w v)
  | .minu d a b w v => some (.minu (s32 d u.d) (s32 a u.a) (s32 b u.b) w v, opMinu (s32 d u.d) (s32 a u.a) (s32 b u.b) w v)
  | .maxu d a b w v => some (.maxu (s32 d u.d) (s32 a u.a) (s32 b u.b) w v, opMaxu (s32 d u.d) (s32 a u.a) (s32 b u.b) w v)
  | .slt d a b w v => some (.slt (s32 d u.d) (s32 a u.a) (s32 b u.b) w v, opSlt (s32 d u.d) (s32 a u.a) (s32 b u.b) w v)
  | .sltu d a b w v => some (.sltu (s32 d u.d) (s32 a u.a) (s32 b u.b) w v, opSltu (s32 d u.d) (s32 a u.a) (s32 b u.b) w v)
  | .seq d a b w v => some (.seq (s32 d u.d) (s32 a u.a) (s32 b u.b) w v, opSeq (s32 d u.d) (s32 a u.a) (s32 b u.b) w v)
  | .sel d a b w v => some (.sel (s32 d u.d) (s32 a u.a) (s32 b u.b) w v, opSel (s32 d u.d) (s32 a u.a) (s32 b u.b) w v)
  | .mul d a b w v => some (.mul (s32 d u.d) (s32 a u.a) (s32 b u.b) w v, opMul (s32 d u.d) (s32 a u.a) (s32 b u.b) w v)
  | .mulh d a b w v => some (.mulh (s32 d u.d) (s32 a u.a) (s32 b u.b) w v, opMulh (s32 d u.d) (s32 a u.a) (s32 b u.b) w v)
  | .mulhu d a b w v => some (.mulhu (s32 d u.d) (s32 a u.a) (s32 b u.b) w v, opMulhu (s32 d u.d) (s32 a u.a) (s32 b u.b) w v)
  | .div d a b w v => some (.div (s32 d u.d) (s32 a u.a) (s32 b u.b) w v, opDiv (s32 d u.d) (s32 a u.a) (s32 b u.b) w v)
  | .divu d a b w v => some (.divu (s32 d u.d) (s32 a u.a) (s32 b u.b) w v, opDivu (s32 d u.d) (s32 a u.a) (s32 b u.b) w v)
  | .rem d a b w v => some (.rem (s32 d u.d) (s32 a u.a) (s32 b u.b) w v, opRem (s32 d u.d) (s32 a u.a) (s32 b u.b) w v)
  | .remu d a b w v => some (.remu (s32 d u.d) (s32 a u.a) (s32 b u.b) w v, opRemu (s32 d u.d) (s32 a u.a) (s32 b u.b) w v)
  | .mov d a w => some (.mov (s32 d u.d) (s32 a u.a) w, opMov (s32 d u.d) (s32 a u.a) w)
  | .clz d a w => some (.clz (s32 d u.d) (s32 a u.a) w, opClz (s32 d u.d) (s32 a u.a) w)
  | .ctz d a w => some (.ctz (s32 d u.d) (s32 a u.a) w, opCtz (s32 d u.d) (s32 a u.a) w)
  | .popc d a w => some (.popc (s32 d u.d) (s32 a u.a) w, opPopc (s32 d u.d) (s32 a u.a) w)
  | .bswap d a w => some (.bswap (s32 d u.d) (s32 a u.a) w, opBswap (s32 d u.d) (s32 a u.a) w)
  | .hmk d a b w v => some (.hmk (s32 d u.d) (s32 a u.a) (s32 b u.b) w v, opHmk (s32 d u.d) (s32 a u.a) (s32 b u.b) w v)
  | .hoff d a w => some (.hoff (s32 d u.d) (s32 a u.a) w, opHoff (s32 d u.d) (s32 a u.a) w)
  | .hlen d a w => some (.hlen (s32 d u.d) (s32 a u.a) w, opHlen (s32 d u.d) (s32 a u.a) w)
  | .hrgt d a w => some (.hrgt (s32 d u.d) (s32 a u.a) w, opHrgt (s32 d u.d) (s32 a u.a) w)
  | .addi d a w i => some (.addi (s32 d u.d) (s32 a u.a) w i, opAddi (s32 d u.d) (s32 a u.a) w (imm15 i))
  | .andi d a w i => some (.andi (s32 d u.d) (s32 a u.a) w i, opAndi (s32 d u.d) (s32 a u.a) w (imm15 i))
  | .ori d a w i => some (.ori (s32 d u.d) (s32 a u.a) w i, opOri (s32 d u.d) (s32 a u.a) w (imm15 i))
  | .xori d a w i => some (.xori (s32 d u.d) (s32 a u.a) w i, opXori (s32 d u.d) (s32 a u.a) w (imm15 i))
  | .shli d a w c => some (.shli (s32 d u.d) (s32 a u.a) w c, opShli (s32 d u.d) (s32 a u.a) w c)
  | .shri d a w c => some (.shri (s32 d u.d) (s32 a u.a) w c, opShri (s32 d u.d) (s32 a u.a) w c)
  | .srai d a w c => some (.srai (s32 d u.d) (s32 a u.a) w c, opSrai (s32 d u.d) (s32 a u.a) w c)
  | .ext d a w l p => some (.ext (s32 d u.d) (s32 a u.a) w l p, opExt (s32 d u.d) (s32 a u.a) w l p)
  | .ins d a w l p => some (.ins (s32 d u.d) (s32 a u.a) w l p, opIns (s32 d u.d) (s32 a u.a) w l p)
  | .movi d i => some (.movi (s32 d u.d) i, opMovi (s32 d u.d) (imm15 i))
  | .tadd x y z w v s f => some (.tadd (t16 x u.d) (t16 y u.a) (t16 z u.b) w v s f, opTadd (t16 x u.d) (t16 y u.a) (t16 z u.b) w v s f)
  | .tsub x y z w v s f => some (.tsub (t16 x u.d) (t16 y u.a) (t16 z u.b) w v s f, opTsub (t16 x u.d) (t16 y u.a) (t16 z u.b) w v s f)
  | .tmul x y z w v s f => some (.tmul (t16 x u.d) (t16 y u.a) (t16 z u.b) w v s f, opTmul (t16 x u.d) (t16 y u.a) (t16 z u.b) w v s f)
  | .tfma x y z w v f => some (.tfma (t16 x u.d) (t16 y u.a) (t16 z u.b) w v f, opTfma (t16 x u.d) (t16 y u.a) (t16 z u.b) w v f)
  | .tmin x y z w v f => some (.tmin (t16 x u.d) (t16 y u.a) (t16 z u.b) w v f, opTmin (t16 x u.d) (t16 y u.a) (t16 z u.b) w v f)
  | .tmax x y z w v f => some (.tmax (t16 x u.d) (t16 y u.a) (t16 z u.b) w v f, opTmax (t16 x u.d) (t16 y u.a) (t16 z u.b) w v f)
  | .tabs x y w s f => some (.tabs (t16 x u.d) (t16 y u.a) w s f, opTabs (t16 x u.d) (t16 y u.a) w s f)
  | .tneg x y w s f => some (.tneg (t16 x u.d) (t16 y u.a) w s f, opTneg (t16 x u.d) (t16 y u.a) w s f)
  | .tand x y z w v f => some (.tand (t16 x u.d) (t16 y u.a) (t16 z u.b) w v f, opTand (t16 x u.d) (t16 y u.a) (t16 z u.b) w v f)
  | .tor x y z w v f => some (.tor (t16 x u.d) (t16 y u.a) (t16 z u.b) w v f, opTor (t16 x u.d) (t16 y u.a) (t16 z u.b) w v f)
  | .txor x y z w v f => some (.txor (t16 x u.d) (t16 y u.a) (t16 z u.b) w v f, opTxor (t16 x u.d) (t16 y u.a) (t16 z u.b) w v f)
  | .tshl x y z w v s f => some (.tshl (t16 x u.d) (t16 y u.a) (t16 z u.b) w v s f, opTshl (t16 x u.d) (t16 y u.a) (t16 z u.b) w v s f)
  | .tshr x y z w v f => some (.tshr (t16 x u.d) (t16 y u.a) (t16 z u.b) w v f, opTshr (t16 x u.d) (t16 y u.a) (t16 z u.b) w v f)
  | .tsra x y z w v f => some (.tsra (t16 x u.d) (t16 y u.a) (t16 z u.b) w v f, opTsra (t16 x u.d) (t16 y u.a) (t16 z u.b) w v f)
  | .tscale x y z w v f => some (.tscale (t16 x u.d) (t16 y u.a) (t16 z u.b) w v f, opTscale (t16 x u.d) (t16 y u.a) (t16 z u.b) w v f)
  | .tsel x y z w v f => some (.tsel (t16 x u.d) (t16 y u.a) (t16 z u.b) w v f, opTsel (t16 x u.d) (t16 y u.a) (t16 z u.b) w v f)
  | .tcmpEq x y z w v f => some (.tcmpEq (t16 x u.d) (t16 y u.a) (t16 z u.b) w v f, opTcmp .eq (t16 x u.d) (t16 y u.a) (t16 z u.b) w v f)
  | .tcmpNe x y z w v f => some (.tcmpNe (t16 x u.d) (t16 y u.a) (t16 z u.b) w v f, opTcmp .ne (t16 x u.d) (t16 y u.a) (t16 z u.b) w v f)
  | .tcmpLt x y z w v f => some (.tcmpLt (t16 x u.d) (t16 y u.a) (t16 z u.b) w v f, opTcmp .lt (t16 x u.d) (t16 y u.a) (t16 z u.b) w v f)
  | .tcmpLe x y z w v f => some (.tcmpLe (t16 x u.d) (t16 y u.a) (t16 z u.b) w v f, opTcmp .le (t16 x u.d) (t16 y u.a) (t16 z u.b) w v f)
  | .texp x y w f => some (.texp (t16 x u.d) (t16 y u.a) w f, opSpecial .exp (t16 x u.d) (t16 y u.a) w f)
  | .tlog x y w f => some (.tlog (t16 x u.d) (t16 y u.a) w f, opSpecial .log (t16 x u.d) (t16 y u.a) w f)
  | .trcp x y w f => some (.trcp (t16 x u.d) (t16 y u.a) w f, opSpecial .rcp (t16 x u.d) (t16 y u.a) w f)
  | .trsq x y w f => some (.trsq (t16 x u.d) (t16 y u.a) w f, opSpecial .rsq (t16 x u.d) (t16 y u.a) w f)
  | .tredrAdd x y w f => some (.tredrAdd (t16 x u.d) (t16 y u.a) w f, opTredr .add (t16 x u.d) (t16 y u.a) w f)
  | .tredrMax x y w f => some (.tredrMax (t16 x u.d) (t16 y u.a) w f, opTredr .max (t16 x u.d) (t16 y u.a) w f)
  | .tredrMin x y w f => some (.tredrMin (t16 x u.d) (t16 y u.a) w f, opTredr .min (t16 x u.d) (t16 y u.a) w f)
  | .tredcAdd x y w f => some (.tredcAdd (t16 x u.d) (t16 y u.a) w f, opTredc .add (t16 x u.d) (t16 y u.a) w f)
  | .tredcMax x y w f => some (.tredcMax (t16 x u.d) (t16 y u.a) w f, opTredc .max (t16 x u.d) (t16 y u.a) w f)
  | .tredcMin x y w f => some (.tredcMin (t16 x u.d) (t16 y u.a) w f, opTredc .min (t16 x u.d) (t16 y u.a) w f)
  | .tdotr x y z w v f => some (.tdotr (t16 x u.d) (t16 y u.a) (t16 z u.b) w v f, opTdotr (t16 x u.d) (t16 y u.a) (t16 z u.b) w v f)
  | .tcvt x y w f r => some (.tcvt (t16 x u.d) (t16 y u.a) w f r, opTcvt (t16 x u.d) (t16 y u.a) w f.toNat r.toNat)
  | .tqnt x y z w v c r => some (.tqnt (t16 x u.d) (t16 y u.a) (t16 z u.b) w v c r, opTqnt (t16 x u.d) (t16 y u.a) (t16 z u.b) w v (c.toNat + 1) r)
  | .tdq x y z w v c r => some (.tdq (t16 x u.d) (t16 y u.a) (t16 z u.b) w v c r, opTdq (t16 x u.d) (t16 y u.a) (t16 z u.b) w v (c.toNat + 1) r)
  | _ => none

/-- The second word of the report of a captured word that is not eligible: that after a LIMM (R63), where it can be fetched. -/
def secondWord (pc : Word) (s : State) : Option Instr → Run (Nat × State)
  | some (.limm _) =>
    match issueWord (addOff pc 4) s with
    | .error (.fault _ _ t) => .ok (0, t)
    | r => r
  | _ => .ok (0, s)

/-- A captured word that is not eligible (R65): the report gives that word, with the word after a LIMM (R63), and its PC. -/
def notEligible {α : Type} (site : Site) (w : Nat) (i : Option Instr) (pc : Word) (s : State) : SitedRun α := do
  let (w2, s) ← atSite site (secondWord pc s i)
  .error ({ word := w, word2 := w2 }, .fault .illegal none (setPc pc s))

/-- Capture one word (R65): it must be eligible. -/
def captureWord (site : Site) (pc : Word) (s : State) : SitedRun (Instr × State) := do
  let (w, s) ← atSite site (limitFirst s (issueWord pc s))
  match (decodeWord w).toOption with
  | some i => if (replay ⟨0, 0, 0⟩ i).isSome then .ok (i, s) else notEligible site w (some i) pc s
  | none => notEligible site w none pc s

/-- Capture `n` words from a PC (R65). -/
def capture (site : Site) : Nat → Word → State → SitedRun (List Instr × State)
  | 0, _, s => .ok ([], s)
  | n + 1, pc, s => do
    let (i, s) ← captureWord site pc s
    let (is, s) ← capture site n (addOff pc 4) s
    .ok (i :: is, s)

/-- The passes and word indexes that are still to be replayed (R66). -/
def replays (count repeats p0 i0 : Nat) : List (Nat × Nat) :=
  ((List.range' p0 (repeats - p0)).map fun p =>
    (List.range' (if p = p0 then i0 else 0) (count - if p = p0 then i0 else 0)).map fun i => (p, i)).flatten

/-- Replay word i in pass p (R66): it issues as an ordinary instruction; a wait leaves 16p + i in RST (R67). -/
def replayOne (site : Site) (words : List Instr) (stride : Advance) (pi : Nat × Nat) (s : State) : SitedRun State :=
  match (words[pi.2]?).bind (replay ⟨pi.1 * stride.d, pi.1 * stride.a, pi.1 * stride.b⟩) with
  | none => .ok s
  | some (i, o) =>
    match perform o s with
    | .ok t => .ok (countIssue (wake t))
    | .error (.wait w t) => .error (site, .wait w (setIdx (16 * pi.1 + pi.2) t))
    | .error h => .error ({ site with word2 := wordOf i, inRepf := true, repi := pi.2, repp := pi.1,
                                       pc := some (addOff s.hart.r.pc (4 + 4 * pi.2)) }, h)

/-- Replay in order. -/
def replayAll (site : Site) (words : List Instr) (stride : Advance) : List (Nat × Nat) → State → SitedRun State
  | [], s => .ok s
  | x :: xs, s => do
    let s ← replayOne site words stride x s
    replayAll site words stride xs s

/-- Is REPF issuing again after a wait of one of its replays? It was counted then (R66). -/
def midReplay (s : State) : Bool :=
  bitOf (rstGet s.hart.r.rst 4 1) 0 && match s.hart.run with
    | .blocked (.sreg _) | .blocked (.treg _) => true
    | _ => false

/-- REPF (R65 to R67): the capture is a check of R50, before SAFE_DISTANCE (R39). -/
def runRepf (c : BitVec 4) (r : BitVec 8) (d a b : BitVec 4) (s : State) : SitedRun State := do
  let site : Site := { word := wordOf (.repf c r d a b) }
  let count := c.toNat + 1
  let (words, s) ← capture site count (addOff s.hart.r.pc 4) s
  let s ← if midReplay s then .ok s else atSite site (perform { body := fun s => .ok s } s)
  let s := if midReplay s then s else countIssue s
  let s ← replayAll site words ⟨d.toNat, a.toNat, b.toNat⟩ (replays count (r.toNat + 1) (s.rstIdx / 16) (s.rstIdx % 16)) s
  .ok (advance (4 + 4 * count) (clearRst (wake s)))

/-- REPF (R65 to R67). -/
def execRepf (c : BitVec 4) (r : BitVec 8) (d a b : BitVec 4) (s : State) : Answer := settleAt (runRepf c r d a b s)

end Sys2Proof.Machine
end

