-- ==== Sys2Proof/Machine/Placement.lean ====
section
/-! DEFINITION. The delivery of messages, the start of tasks, the placement walk, the resumption of continuations and
migration (spec/01 R12, R13, R20, R21, R33, R34, R40 to R44, R343, spec/03 R83, R84, R86, R344, spec/06 R158, spec/07 R184,
spec/15 R284, R285, R288, R289, R346, spec/16 R295). -/

namespace Sys2Proof.Machine

/-! Who may take a message. -/

/-- The ranks of a core in the footprint that messages address. -/
def Capsule.ranksOf (c : Capsule) (core : Nat) : Option Word := (c.foot.find? fun p => p.1 == core).map Prod.snd

/-- Do the ranks of a core meet DEST (R83): RANK at LVL, the sender's ranks above it and, without ANY, rank 0 below it? -/
def rankMatch (r : Word) (m : Msg) : Bool :=
  let l := destLvl m.dest
  rankAt r l == destRank m.dest && (List.range 8).all fun k =>
    if l < k then rankAt r k == rankAt m.ranks k else if k < l then destAny m.dest || rankAt r k == 0 else true

/-- Does a message walk the mesh (R284)? -/
def Msg.walks (m : Msg) : Bool := m.kind == .continuation || (m.bound.isNone && (destByHint m.dest || destAny m.dest))

/-- The core that a message which does not walk goes to (R83, R96). -/
def Msg.target (s : State) (m : Msg) : Option Nat :=
  match m.bound with
  | some k => some k
  | none => if m.walks then none else (s.cap? m.cap).bind fun c => (c.foot.find? fun p => rankMatch p.2 m).map Prod.fst

/-- May a core take a walking message at all: the bound core, a footprint core, or one that meets the ranks of ANY (R81, R83,
R158, R284)? -/
def offered (s : State) (m : Msg) (core : Nat) : Bool :=
  match m.bound with
  | some k => k == core
  | none => match (s.cap? m.cap).bind fun c => c.ranksOf core with
    | none => false
    | some r => m.kind == .continuation || destByHint m.dest || rankMatch r m

/-- May messages of the message's capsule enter a core (R20, R284, R288, R289, R344)? The claim of a core ends when the head launches;
until then the core takes no message that walks, and by rank only what belongs to the capsule that still holds it. -/
def serves (s : State) (m : Msg) (core : Nat) : Bool :=
  let k := s.core core
  (k.cap.isNone || k.cap == some m.cap) && !k.clearing && (k.reservedFor.isNone || k.reservedFor == some m.cap) &&
  (k.claim.isNone || (k.cap == some m.cap && !m.walks))

/-- Is a cluster power-gated (R216, R292)? Is it fenced (R181, R216)? -/
def gated (s : State) (cl : Nat) : Bool := bitOf (s.cluster cl).clstat.toNat 2
def fenced (s : State) (cl : Nat) : Bool := bitOf (s.cluster cl).clstat.toNat 0

/-- The tile counts of the slots of a core that are taken: by tasks, and by tasks that ended at a safe point while their copy-outs run
(R140). -/
def slotsTaken (s : State) (core : Nat) : List Nat :=
  (residents s core).map Hart.ntiles ++ ((s.core core).lingering.filter fun x => copyOuts s x.1).map Prod.snd

/-- Are a slot and `n` tile registers free (R12, R13, R21)? -/
def hasRoom (s : State) (core n : Nat) : Bool :=
  let l := slotsTaken s core
  decide (l.length < 4) && decide (l.foldl (· + ·) 0 + n ≤ 16)

/-- May a core start a task of a capsule with `n` tile registers now? -/
def canStartOn (s : State) (cap core n : Nat) : Bool :=
  let k := s.core core
  core % 32 != 31 && !k.removed && !k.retest && !k.clearing && (k.cap.isNone || k.cap == some cap) && !gated s (clusterNo core) && hasRoom s core n

/-- May a core, and for a paired capsule the one that mirrors it, start the task of a message now? -/
def canStart (s : State) (m : Msg) (core : Nat) : Bool :=
  serves s m core && canStartOn s m.cap core m.tiles && match s.twin m.cap core with
    | some k => serves s m k && canStartOn s m.cap k m.tiles
    | none => true

/-! The start of a task (R33, R34, R84). -/

/-- MKIND of R84. -/
def mkind : MsgKind → Nat
  | .launch | .data | .continuation => 0
  | .send => 1
  | .sendt => 2
  | .cont => 3
  | .join => 4

/-- Was the message sent by rank, so that s0 names its level (R84)? -/
def byRank (m : Msg) : Bool :=
  match m.kind with
  | .send | .sendt | .join => !destByHint m.dest
  | _ => false

/-- The message information word (R84). -/
def infoWord (m : Msg) (ranks : Word) : Word :=
  let lvl := if byRank m then destLvl m.dest else 0xFF
  let rank := if byRank m then rankAt ranks lvl else 0
  let tag := if m.kind = .launch then 0 else destTag m.dest
  word (mkind m.kind * 2 ^ 60 + (if m.tile.isSome then 2 ^ 59 else 0) + m.src.toNat * 2 ^ 32 + lvl * 2 ^ 24 + rank * 2 ^ 16 + tag)

/-- The registers of a starting task (R33). -/
def startRegs (m : Msg) (ranks : Word) : Regs :=
  let r := Regs.reset
  let t := match m.tile with
    | some (d, shape) => r.t.set 15 { data := d, shape := shape, full := true }
    | none => r.t
  { r with s := Vector.ofFn fun i => if i.val = 0 then infoWord m ranks else if h : 1 ≤ i.val ∧ i.val ≤ 6 then m.payload.get ⟨i.val - 1, by omega⟩ else 0,
           t := t, pc := addOff m.entry 4 }

/-- The task that a message starts on a core: its registers clear first (R34). -/
def startHart (id core : Nat) (ranks : Word) (partner : Option Nat) (m : Msg) : Hart :=
  let r := startRegs m ranks
  { Hart.reset id .task core with
    cap := m.cap, r := r, ckpt := r, ntiles := m.tiles, ranks := ranks, header := some m.entry, run := .clearing, partner := partner }

/-- Physical tile registers of a core for `n` tile registers of a context: which of those that no other context has is free (R12) (log 10). -/
def freeTiles (s : State) (core me n : Nat) : List Nat :=
  let taken := ((residents s core).filter fun h => h.id != me).flatMap Hart.phys
  let order := (List.range 16).map fun i => (Config.physOrder s.fresh (Fin.ofNat 16 i)).val
  (order.filter fun p => !taken.contains p).take n

/-- Put a new task on its core, which then holds its capsule (R20). -/
def addHart (h : Hart) (s : State) : State :=
  let h := { h with phys := freeTiles s h.core h.id h.ntiles }
  let s := { s with parked := s.parked ++ [h], nextId := Nat.max s.nextId (h.id + 1), fresh := s.fresh + 1 }
  s.modCore h.core fun k => { k with cap := some h.cap }

/-- A launch starts the first task of its capsule: the read-only copies that its clusters hold for the capsule are of now (R189). -/
def freshCopies (cap : Nat) (k : MsgKind) (cores : List Nat) (s : State) : State :=
  if k = .launch then cores.foldl (fun t core => refreshCopies (clusterNo core) cap t) s else s

/-- Start a task, and its copy on the mirroring core when the capsule is paired (R280, R296). -/
def startTask (core : Nat) (m : Msg) (s : State) : State :=
  match s.cap? m.cap with
  | none => s
  | some c =>
    let s := freshCopies m.cap m.kind (core :: (c.twin core).toList) s
    let ranks := (c.ranksOf core).getD 0
    let id := s.nextId
    match c.twin core with
    | none => addHart (startHart id core ranks none m) s
    | some k => addHart (startHart (id + 1) k ranks (some id) m) (addHart (startHart id core ranks (some (id + 1)) m) s)

/-! Resumption (R40, R42, R140, R184, R343). -/

/-- Are the reserved fields of the registers and rings that a record holds zero, and their formats ones that R14 and R22 assign
(R14, R17, R18, R22, R161) (DEDUCED, log 23)? -/
def heldReservedOk (m : Memory) : Bool :=
  m.readLE 0x10 8 / 16 == 0 && m.readLE 0x44 1 / 32 == 0 && (m.readBytes 0x64 28).all (· == 0) &&
  bitsOf (m.readLE 0x80 8) 63 40 == 0 && bitsOf (m.readLE 0x80 8) 17 2 == 0 &&
  ((List.range 16).all fun i => decide (m.readLE (0x300 + 2 * i) 2 / 4096 < 9)) &&
  (!bitOf (m.readLE 7 1) 0 || (List.range 16).all fun i =>
    let d := m.readLE (0x100 + 8 * i) 8
    bitsOf d 60 48 == 0 && bitsOf d 21 13 == 0 && decide (bitsOf d 62 61 < 3))

/-- Does a record pass the checks of R42: CTAG and the reserved fields? A tile count outside 1 to 16 is no count (log 23). -/
def recordOk (c : Capsule) (m : Memory) : Bool :=
  m.readLE 0x20 8 == c.nonce.toNat && m.readLE 7 1 / 8 == 0 && (m.readBytes 0x28 24).all (· == 0) && (m.readBytes 0x90 112).all (· == 0) &&
  m.readLE 0x326 2 == 0 && (m.readBytes 0x32C 212).all (· == 0) && decide (1 ≤ m.readLE 6 1) && decide (m.readLE 6 1 ≤ 16) && heldReservedOk m

/-- The registers that a record restores (R41, R42): a tile that is not named live is zero and full. -/
def recordRegs (m : Memory) : Regs :=
  let live := m.readLE 4 2
  let n := m.readLE 6 1
  let pres := m.readLE 0x320 8
  let rst := if bitOf (m.readLE 7 1) 2 then BitVec.ofNat 512 (m.readLE 0x40 64) else 0
  { Regs.reset with
    s := Vector.ofFn fun i => word (m.readLE (0x180 + 8 * i.val) 8)
    sfull := BitVec.ofNat 32 pres
    p := Vector.ofFn fun i => BitVec.ofNat 128 (m.readLE (0x280 + 16 * i.val) 16)
    pc := word (m.readLE 8 8)
    flg := writeFlg (word (m.readLE 0x10 8))
    rst := rst
    t := Vector.ofFn fun i =>
      if 16 - n ≤ i.val then
        let shape := BitVec.ofNat 16 (m.readLE (0x300 + 2 * i.val) 2)
        if bitOf live i.val then
          { data := m.window (0x400 + 4096 * (maskBits (live % 2 ^ i.val)).length) 4096, shape := shape, full := bitOf pres (32 + i.val) }
        else { data := [], shape := shape, full := true }
      else Tile.reset }

/-- The data messages of a record with their ports (R343). -/
def recordPorts (cap : Nat) (m : Memory) : List (Nat × PortEntry) :=
  let base := 0x400 + 4096 * (maskBits (m.readLE 4 2)).length
  let ports := ((List.range 4).map fun n => List.replicate (m.readLE (0x328 + n) 1) n).flatten
  (List.range ports.length).map fun i =>
    let a := base + 4160 * i
    let st := m.readLE a 8
    let tile := if bitOf st 16 then some (m.window (a + 64) 4096, BitVec.ofNat 16 st) else none
    (ports.getD i 0,
     { msg := { kind := .data, cap := cap, entry := 0, dest := word (m.readLE (a + 8) 8),
                payload := Vector.ofFn fun j => word (m.readLE (a + 16 + 8 * j.val) 8), tile := tile, src := 0, ranks := 0,
                sender := none, bound := none, tiles := 0, hint := 0, paired := false },
       taken := none })

/-- Place a record's entries ahead of what its core's ports hold (R343). -/
def restorePorts (core : Nat) (es : List (Nat × PortEntry)) (s : State) : State :=
  s.modCore core fun k =>
    { k with ports := Vector.ofFn fun i => (es.filter fun p => p.1 == i.val).map Prod.snd ++ k.ports.get i }

/-- The task of a continuation message, with the record that it will read (R42): the task that ended at the safe point, with its number and
its counts of fences, in another context (DEDUCED, log 104). -/
def resumeHart (id core : Nat) (partner : Option Nat) (was : Suspended) (m : Msg) : Hart :=
  { Hart.reset id .task core with
    task := was.task, fenceH := was.fenceH, fenceX := was.fenceX, cap := m.cap, ntiles := m.tiles, ranks := m.ranks, record := some m.entry, run := .clearing, partner := partner }

/-- What a task takes from its record (R41, R42): the registers, the tile count, the ranks and the lease status; in a redelivery s0 holds RDL (R84,
R294). It asks again for its lease, and its copy restarts, before it issues. -/
def loadRecord (m : Memory) (h : Hart) : Hart :=
  let r := if h.rdl = 0 then recordRegs m else withRdl (recordRegs m) h.rdl
  let held := bitOf (m.readLE 7 1) 0
  let lease := BitVec.ofNat 128 (m.readLE 0x80 16)
  { h with
    r := r, ckpt := r, ntiles := m.readLE 6 1, ranks := word (m.readLE 0x18 8), record := none, ckptLease := if held then lease else 0
    rebind := if held then some { lease := lease, defs := Vector.ofFn fun i => word (m.readLE (0x100 + 8 * i.val) 8) } else none }

/-- Resuming a record decrements the count of the continuation extent; at zero, the allocation offset starts again (R40). -/
def countResumed (cap : Nat) (e : Extent) (s : State) : State :=
  let n := s.mem.readLE (e.base + 8) 8 - 1
  let s := deviceWrite cap (e.base + 8) (leBytes 8 n) s
  if n = 0 then deviceWrite cap e.base (leBytes 8 0x100) s else s

/-- How many bytes of a record are read: as its LEN says, within its extent. -/
def recordSize (s : State) (e : Extent) (entry : Word) : Nat :=
  Nat.max 0x400 (Nat.min (s.mem.readLE (e.base + handleOff entry) 4) (e.length - handleOff entry))

/-- The record of a continuation message. -/
def recordBytes (s : State) (e : Extent) (entry : Word) : Memory :=
  s.mem.window (e.base + handleOff entry) (recordSize s e entry)

/-- What the device keeps of the task whose record a continuation message names. -/
def suspendedAt (s : State) (c : Capsule) (entry : Word) : Suspended :=
  let pa := match c.exts[handleIdx entry]? with
    | some e => Extent.base e + handleOff entry
    | none => 0
  (s.suspended.find? fun x => x.record == pa && x.cap == c.id).getD
    { record := pa, cap := c.id, task := s.nextId, fenceH := 0, fenceX := 0 }

/-- A core takes a continuation message (R42), and its mirroring core does when the task is paired (R296): the record is no longer
bound, and the task reads it once its registers have cleared. -/
def resumeTask (core : Nat) (m : Msg) (s : State) : State :=
  match s.cap? m.cap with
  | none => s
  | some c =>
    let free := fun (s : State) (n : Nat) => s.modCore n fun k => { k with boundRec := k.boundRec.erase (m.entry, m.cap) }
    let s := (core :: (c.twin core).toList).foldl free s
    let id := s.nextId
    let was := suspendedAt s c m.entry
    let s := { s with suspended := s.suspended.erase was }
    match (if m.paired then c.twin core else none) with
    | none => addHart (resumeHart id core none was m) s
    | some k => addHart (resumeHart (id + 1) k (some id) was m) (addHart (resumeHart id core (some (id + 1)) was m) s)

/-- Has the core of a context room for its record's tile count beside what its other tasks have (R12, R13)? -/
def recordFits (s : State) (h : Hart) (n : Nat) : Bool :=
  let others := ((residents s h.core).filter fun x => x.id != h.id).map Hart.ntiles ++
    ((s.core h.core).lingering.filter fun x => copyOuts s x.1).map Prod.snd
  decide (others.foldl (· + ·) 0 + n ≤ 16)

/-- Take the registers of a record, with physical tile registers for its count (R12). -/
def takeRecord (cap : Nat) (m : Memory) (s : State) : State :=
  let tiles := freeTiles s s.hart.core s.hart.id (m.readLE 6 1)
  restorePorts s.hart.core (recordPorts cap m) { s.mod (fun h => { loadRecord m h with phys := tiles }) with fresh := s.fresh + 1 }

/-- The task reads its record (R42), as other reads of lines go (R256, R259): one that holds poison gives the cause of it, as a rollback-class error (R260, R38), and one that
does not pass its checks CONT_FORMAT. Both copies of a pair load at once, and the record counts as resumed once (R40). A record that a store
has given more tiles than the core has free waits until they are free (R12) (log 23). -/
def readRecord (entry : Word) (s : State) : Run State :=
  match s.capsule with
  | none => .ok s
  | some c =>
    match c.exts[handleIdx entry]? with
    | none => .ok s
    | some e =>
      let m := recordBytes s e entry
      let at_ := Extent.base e + handleOff entry
      match meetLines c.part at_ (recordSize s e entry) s with
      | .error w => .error w
      | .ok s =>
      match poisonCause s at_ (recordSize s e entry) with
      | some code => .error (.fault code none s)
      | none =>
        if recordOk c m then
          if recordFits s s.hart (m.readLE 6 1) && s.otherCopy.all fun p => recordFits s p (m.readLE 6 1) then
            .ok (onPair (takeRecord c.id m) (countResumed c.id e s))
          else .error (.wait (.place none) s)
        else faultOf .contFormat s

/-- Admit a message to a core that can start it. -/
def admitTo (core : Nat) (m : Msg) (s : State) : State := if m.kind = .continuation then resumeTask core m s else startTask core m s

/-- Bind the lease of a resumed task again before it issues (R184): it waits as MLEASE does until its ring numbers and its ranges
are free, and then binds them all at once. -/
def rebindLease (s : State) : Run State :=
  match s.hart.rebind with
  | none => .ok s
  | some b =>
    let m := BitVec.ofNat 16 (leaseMask b.lease)
    if mayBind s s.here s.hart.id m.toNat then .ok (bindLease s.here s.hart.id m.toNat s) else .error (.wait .lease (awaitLease m s))

/-! Delivery (R21, R86, R344). -/

/-- The networks of R86. -/
def MsgKind.net : MsgKind → Nat
  | .launch | .send | .sendt | .data => 0
  | .join => 1
  | .cont | .continuation => 2

/-- Does an earlier message of the same sender, to the same place and on the same network, come first (R86)? The messages of a task that walk come
in order, and its messages by rank to one core do; a message by rank and one that walks do not wait for each other, though one core may take
both (DESIGN CHOICE, log 132). -/
def mustWait (s : State) (i : Nat) (m : Msg) : Bool :=
  (s.net.take i).any fun x => x.sender.isSome && x.sender == m.sender && x.kind.net == m.kind.net && x.walks == m.walks &&
    x.target s == m.target s

/-- Take a message off the network. -/
def takeNet (i : Nat) (s : State) : State := { s with net := s.net.eraseIdx i }

/-- Is there an inbox entry for a message: two of the 32 take continuation and system messages only (R21)? -/
def inboxRoom (k : Core) (m : Msg) : Bool :=
  let system := fun (x : Msg) => x.kind.net == 2
  decide (k.inbox.length < 32) && (system m || decide ((k.inbox.countP fun x => !system x) < 30))

/-- A handler message at its core: it starts its task, waits in the inbox, which holds the core (R242), or is refused and stays
where it is. -/
def deliverTo (i core : Nat) (m : Msg) (s : State) : State :=
  if !serves s m core then s
  else if canStart s m core then admitTo core m (takeNet i s)
  else if inboxRoom (s.core core) m then
    (takeNet i s).modCore core fun k => { k with inbox := k.inbox ++ [m], cap := some m.cap }
  else s

/-- A message of a capsule that is gone or ending goes nowhere (R298). -/
def dead (s : State) (m : Msg) : Bool :=
  match s.cap? m.cap with
  | none => true
  | some c => match c.state with
    | .ending _ => true
    | _ => false

/-- MESSAGE_DELIVERY (R21): message `i` of the network reaches a core, when it is a handler message for that core. -/
def deliverMessage (i core : Nat) (s : State) : State :=
  match s.net[i]? with
  | none => s
  | some m =>
    if dead s m then takeNet i s
    else if m.kind = .data ∨ m.target s ≠ some core ∨ mustWait s i m = true then s
    else deliverTo i core m s

/-- MESSAGE_DELIVERY (R21, R33, R86, R344). -/
def execMessageDelivery (m core : Nat) (s : State) : Answer := event (deliverMessage m core) s

/-- May a data message enter a core's port now (R11, R344)? -/
def portRoom (s : State) (m : Msg) (core : Nat) : Bool :=
  let k := s.core core
  serves s m core && decide ((k.ports.get (Fin.ofNat 4 (destPort m.dest - 4))).length < 4)

/-- Put a data message into a core's port; the core is then the capsule's. -/
def enterPort (m : Msg) (core : Nat) (s : State) : State :=
  let i := Fin.ofNat 4 (destPort m.dest - 4)
  s.modCore core fun k => { k with ports := k.ports.set i.val (k.ports.get i ++ [{ msg := m, taken := none }]) i.isLt, cap := some m.cap }

/-- DATA_MESSAGE_ARRIVAL (R87): a data message enters the port of its core, and of the core that mirrors it. -/
def arriveData (i : Nat) (s : State) : State :=
  match s.net[i]? with
  | none => s
  | some m =>
    if dead s m then takeNet i s
    else if m.kind ≠ .data ∨ mustWait s i m = true then s
    else match m.target s with
      | none => s
      | some core =>
        match s.twin m.cap core with
        | none => if portRoom s m core then enterPort m core (takeNet i s) else s
        | some k => if portRoom s m core && portRoom s m k then enterPort m k (enterPort m core (takeNet i s)) else s

/-- DATA_MESSAGE_ARRIVAL (R86, R87, R344). -/
def execDataMessageArrival (m : Nat) (s : State) : Answer := event (arriveData m) s

/-! The mesh (R284, R346). -/

/-- Coordinates of a cluster number. -/
def clX (c : Nat) : Nat := c % 8
def clY (c : Nat) : Nat := c / 8 % 4
def clDie (c : Nat) : Nat := c / 32

/-- The distance between two numbers. -/
def gap (a b : Nat) : Nat := Nat.max a b - Nat.min a b

/-- Hops between two clusters of one die. -/
def hops (a b : Nat) : Nat := gap (clX a) (clX b) + gap (clY a) (clY b)

/-- The positions of the link ends to the die that lies `x` away (R346). -/
def linkEnds (x : Nat) : Nat × Nat :=
  match x with
  | 1 => (8 * 1 + 7, 8 * 2 + 7)
  | 2 => (8 * 3 + 3, 8 * 3 + 4)
  | _ => (0, 7)

/-- The end on the die of cluster `b` of the link that a message from the die of `a` takes (R346). -/
def linkEnd (a b : Nat) : Nat :=
  let e := linkEnds (clDie a ^^^ clDie b)
  let p := 32 * clDie b + e.1
  let q := 32 * clDie b + e.2
  if hops q b < hops p b then q else p

/-- The numbers from `a` to `b`, in that order. -/
def stretch (a b : Nat) : List Nat := if a ≤ b then List.range' a (b + 1 - a) else (List.range' b (a + 1 - b)).reverse

/-- The clusters from one to another of the same die, x first, then y. -/
def pathOn (a b : Nat) : List Nat :=
  let row := fun x => 32 * clDie a + 8 * clY a + x
  let col := fun y => 32 * clDie a + 8 * y + clX b
  (stretch (clX a) (clX b)).map row ++ ((stretch (clY a) (clY b)).drop 1).map col

/-- Hops from a cluster to another, over a link when they lie on two dies. -/
def meshHops (a b : Nat) : Nat :=
  if clDie a = clDie b then hops a b
  else
    let e := linkEnd a b
    hops (32 * clDie a + e % 32) a + 1 + hops e b

/-- The cluster of a hint (R28). -/
def hintCluster (h : Nat) : Nat := 32 * bitsOf h 1 0 + 8 * bitsOf h 6 5 + bitsOf h 4 2
def hintCore (h : Nat) : Nat := bitsOf h 11 7
def hintRadius (h : Nat) : Nat := bitsOf h 15 12
def hintWake (h : Nat) : Bool := bitOf h 16

/-- The clusters of a die by their distance from one of them. -/
def byDistance (b : Nat) : List Nat :=
  ((List.range 11).map fun n => (List.range' (32 * clDie b) 32).filter fun cl => hops cl b == n).flatten

/-- The clusters of the hint's die that a message passes, in order: the sender's first when it lies there (R284, R346). A message
that no core sent starts at the hint cluster. A continuation, which starts at its hint cluster, goes on to the other clusters of the die
in the order of their distance (R42, R237) (DEDUCED, log 107). -/
def walkPath (m : Msg) : List Nat :=
  let b := hintCluster m.hint.toNat
  if m.kind = .continuation ∧ m.bound.isNone = true then byDistance b
  else if m.sender.isNone then [b]
  else
    let a := clusterNo m.src.toNat
    if clDie a = clDie b then pathOn a b else pathOn (linkEnd a b) b

/-- The cores of a cluster in the order of R280: the hint core first, then from the rotation pointer. -/
def coreOrder (s : State) (hint cl : Nat) : List Nat :=
  let k := hintCore hint
  let first := if hintCluster hint = cl ∧ k < 31 then [k] else []
  let rest := ((List.range 31).map fun i => ((s.cluster cl).rot + i) % 31).filter fun x => !first.contains x
  (first ++ rest).map fun x => coreIn cl x

/-- Does a cluster hold a core of the footprint of the message's capsule (R285), or the core that it is bound to (R158)? -/
def holdsFootprint (s : State) (m : Msg) (cl : Nat) : Bool :=
  match m.bound with
  | some k => clusterNo k == cl
  | none => match s.cap? m.cap with
    | some c => c.foot.any fun p => clusterNo p.1 == cl
    | none => false

/-- The first core of a cluster that can take a walking message (R284). Placement passes a fenced cluster over, but for the core
that a continuation is bound to (R158, R181). -/
def takerIn (s : State) (m : Msg) (cl : Nat) : Option Nat :=
  if gated s cl || (fenced s cl && m.bound.isNone) then none
  else (coreOrder s m.hint.toNat cl).find? fun core => offered s m core && canStart s m core

/-- The core that takes a walking message (R284). -/
def taker (s : State) (m : Msg) : Option Nat :=
  let h := m.hint.toNat
  ((walkPath m).filter fun cl => decide (hops cl (hintCluster h) ≤ hintRadius h)).findSome? (takerIn s m)

/-- The nearest of some clusters to the hint cluster; the lowest number wins a tie. -/
def nearest (hint : Nat) (l : List Nat) : Option Nat :=
  l.foldl (fun best c => match best with
    | none => some c
    | some b => if meshHops (hintCluster hint) c < meshHops (hintCluster hint) b then some c else some b) none

/-- Where an untaken message waits (R285): a gated cluster that it wakes, else the hint cluster, or the nearest cluster with a core
for it. -/
def parkPlace (s : State) (m : Msg) : Option Nat :=
  let h := m.hint.toNat
  let hc := hintCluster h
  let foot := (List.range 128).filter (holdsFootprint s m)
  let asleep := foot.filter fun cl => gated s cl && clDie cl == clDie hc && decide (hops cl hc ≤ hintRadius h)
  match (if hintWake h then nearest h asleep else none) with
  | some cl => some cl
  | none => if foot.contains hc then some hc else nearest h foot

/-- Park a message: a park queue holds 32 (R285). -/
def parkMessage (i : Nat) (m : Msg) (s : State) : State :=
  match parkPlace s m with
  | none => s
  | some cl =>
    if (s.cluster cl).park.length < 32 then (takeNet i s).modCluster cl fun c => { c with park := c.park ++ [m] } else s

/-- PLACEMENT_WALK (R284): the first core that can take the message takes it; else it parks (R285). -/
def walk (i : Nat) (s : State) : State :=
  match s.net[i]? with
  | none => s
  | some m =>
    if dead s m then takeNet i s
    else if !m.walks || mustWait s i m then s
    else match taker s m with
      | some core => admitTo core m (takeNet i s)
      | none => parkMessage i m s

/-- PLACEMENT_WALK (R81, R158, R284, R285). -/
def execPlacementWalk (m : Nat) (s : State) : Answer := event (walk m) s

/-- CONTINUATION_RESUME (R42): the core that the walk finds takes the continuation message. -/
def resumeAt (i core : Nat) (s : State) : State :=
  match s.net[i]? with
  | none => s
  | some m =>
    if dead s m then takeNet i s
    else if m.kind = .continuation ∧ taker s m = some core then resumeTask core m (takeNet i s) else s

/-- CONTINUATION_RESUME (R40, R42, R158, R343). -/
def execContinuationResume (m core : Nat) (s : State) : Answer := event (resumeAt m core) s

/-! A core with room again (R21, R285). -/

/-- Offer waiting messages in order: a message that does not fit does not block a later one. -/
def offerAll (core : Nat) (drop : Msg → State → State) (may : State → Msg → Bool) : List Msg → State → State
  | [], s => s
  | m :: ms, s => offerAll core drop may ms (if may s m && canStart s m core then admitTo core m (drop m s) else s)

/-- The core admits what waits in its inbox, and then what its cluster's park queue offers it. -/
def admitWaiting (core : Nat) (s : State) : State :=
  let cl := clusterNo core
  let s := offerAll core (fun m t => t.modCore core fun k => { k with inbox := k.inbox.erase m }) (fun _ _ => true) (s.core core).inbox s
  offerAll core (fun m t => t.modCluster cl fun c => { c with park := c.park.erase m })
    (fun t m => offered t m core && !(fenced t cl && m.bound.isNone)) (s.cluster cl).park s

/-- The channel has moved on: a copy-out whose end freed the slot of a task makes room on its core (R140). -/
def slotFreed (core : Nat) (s : State) : State :=
  if (s.core core).lingering.all fun x => copyOuts s x.1 then s
  else admitWaiting core (s.modCore core fun k => { k with lingering := k.lingering.filter fun x => copyOuts s x.1 })

/-- COPY_ELEMENT_DELIVERY (R135): nothing happens on an idle channel. The end of a .se copy lets later releases go (R325). -/
def execCopyElementDelivery (cluster chan : Nat) (s : State) : Answer :=
  event (fun s => match ((s.cluster cluster).chan chan).copy with
    | some c => slotFreed c.core (releaseHeld (deliverElement cluster c s))
    | none => s) s

/-! The end of a clear (R20, R33, R34). -/

/-- Is a physical row one that the tile registers of its core use (R222)? -/
def rowInUse (table : Vector (BitVec 32) 16) (key : Nat) : Bool :=
  let core := key / 2 ^ 14 % 32
  let bank := key / 1024 % 16
  let row := key % 512
  key / 2 ^ 19 == 1 &&
  (if key / 512 % 2 = 0 then remapped table 1 core bank row == key
   else (table.toList.map Repair.of).any fun r => r.v && r.arr == 1 && r.core == core && r.bank == bank && r.spr == row)

/-- The rows of a core after its clear: those that its tile registers use are zero. -/
def clearRows (table : Vector (BitVec 32) 16) (rows : Memory) : Memory := rows.filter fun c => !rowInUse table (c.1 / 8)

/-- A row that a march test of a core finds failing: array, bank, and a row number, spares from 512 on. -/
abbrev BadRow := Nat × Nat × Nat

/-- The word of a repair entry (R222). -/
def repairWord (core arr bank spr row : Nat) : BitVec 32 :=
  BitVec.ofNat 32 (2 ^ 31 + core * 2 ^ 26 + arr * 2 ^ 25 + bank * 2 ^ 21 + spr * 2 ^ 19 + row * 2 ^ 10)

/-- Does a valid entry use a spare of a core? -/
def spareUsed (table : Vector (BitVec 32) 16) (core arr bank spr : Nat) : Bool :=
  (table.toList.map Repair.of).any fun r => r.v && r.core == core && r.arr == arr && r.bank == bank && r.spr == spr

/-- A march test of a core under way: the repair table, the banks tested, the spares tested and those found failing (array, bank, spare), and
whether it still goes on. -/
structure March where
  table : Vector (BitVec 32) 16
  banks : List (Nat × Nat)
  tested : List (Nat × Nat × Nat)
  failed : List (Nat × Nat × Nat)
  passes : Bool
deriving DecidableEq, Repr

/-- Repair one failing row under R313: the lowest spare of its bank that is not in use and has not been found failing is tested, and so on until
one passes; its entry is the first that is not valid. The test stops when there is no such spare or entry. -/
def repairRow (core : Nat) (bad : List BadRow) (known : List (Nat × Nat × Nat)) (x : BadRow) (w : March) : March :=
  let fails := fun n => bad.contains (x.1, x.2.1, 512 + n)
  let free := (List.range 4).filter fun n => !spareUsed w.table core x.1 x.2.1 n && !(known ++ w.failed).contains (x.1, x.2.1, n)
  let tried := free.takeWhile fails
  let found := free.find? fun n => !fails n
  let w := { w with tested := w.tested ++ (tried ++ found.toList).map (x.1, x.2.1, ·), failed := w.failed ++ tried.map (x.1, x.2.1, ·) }
  match found, (List.range 16).find? fun i => !(w.table.get (Fin.ofNat 16 i)).getLsbD 31 with
  | some n, some i => { w with table := w.table.set (i % 16) (repairWord core x.1 x.2.1 n x.2.2) (Nat.mod_lt i (by decide)) }
  | _, _ => { w with passes := false }

/-- Test one bank of a core: its 512 rows, the spares in use, and then the repair of what fails, in the order of the list (R313, R318). An entry
whose spare fails is given up, and its row needs another. -/
def testBank (core : Nat) (bad : List BadRow) (known : List (Nat × Nat × Nat)) (w : March) (ab : Nat × Nat) : March :=
  if !w.passes then w
  else
    let mine := (w.table.toList.map Repair.of).filter fun r => r.v && r.core == core && r.arr == ab.1 && r.bank == ab.2
    let lost := mine.filter fun r => bad.contains (r.arr, r.bank, 512 + r.spr)
    let table := w.table.map fun e => if lost.contains (Repair.of e) then 0 else e
    let w := { w with table := table, banks := w.banks ++ [ab], tested := w.tested ++ mine.map fun r => (r.arr, r.bank, r.spr),
                      failed := w.failed ++ lost.map fun r => (r.arr, r.bank, r.spr) }
    let rows := (lost.map (fun r => (r.arr, r.bank, r.row)) ++ bad.filter fun x => x.1 == ab.1 && x.2.1 == ab.2 && decide (x.2.2 < 512)).eraseDups
    rows.foldl (fun w x =>
      if w.passes && remapped w.table x.1 core x.2.1 x.2.2 == rowKey x.1 core x.2.1 0 x.2.2 then repairRow core bad known x w else w) w

/-- The march test of a core over its 32 banks, one after another (R318) (DESIGN CHOICE, log 24). -/
def marchCore (core : Nat) (bad : List BadRow) (known : List (Nat × Nat × Nat)) (table : Vector (BitVec 32) 16) : March :=
  ((List.range 2).flatMap fun arr => (List.range 16).map fun bank => (arr, bank)).foldl (testBank core bad known)
    { table := table, banks := [], tested := [], failed := [], passes := true }

/-- The row under the injection entry of a cluster fails a test of its core: some read of it returns what the test does not expect (R221, R318). -/
def injectedRow (c : Cluster) (core : Nat) : List BadRow :=
  match c.inj with
  | some (key, _, _) =>
    if key / 2 ^ 14 % 32 = core then [(key / 2 ^ 19, key / 1024 % 16, key % 512 + if key / 512 % 2 = 1 then 512 else 0)] else []
  | none => []

/-- What a march test leaves in a core (R318): every tested row and every tested spare holds zero with fresh check bits. -/
def zeroTested (core : Nat) (w : March) (s : State) : State :=
  let inBank := fun (x : Nat) => w.banks.contains (0, (Config.padRow (Fin.ofNat 8192 x)).val / 512)
  let hit := fun (key : Nat) =>
    let ab := (key / 2 ^ 19, key / 1024 % 16)
    w.banks.contains ab && (key / 512 % 2 == 0 || w.tested.contains (ab.1, ab.2, key % 512))
  { s with padPoison := s.padPoison.filter fun p => !(p.1 == core && (List.range 4).all fun i => inBank (4 * p.2 + i)),
           sram := s.sram.filter fun f => !f.place.onPad core inBank && !f.place.onRow core hit }.modCore core fun k =>
    { k with pad := k.pad.filter fun c => !inBank (c.1 / 8), rows := k.rows.filter fun c => !hit (c.1 / 8) }

/-- A spare that fails is logged, and its cluster never uses it again (R313) (log 24). -/
def loseSpare (core : Nat) (x : Nat × Nat × Nat) (s : State) : State :=
  (s.logPkg { code := Config.errorCode, kind := 9, core := core, detail := Config.errorDetail core }).modCluster (clusterNo core) fun c =>
    { c with badSpares := (core % 32, x) :: c.badSpares }

/-- The end of a core's retest (R295, R318): which rows fail is a fault of the part, so free, beside a row under an injection (log 24). The repairs
that were written stand. A core that passes may take tasks again; one that cannot be repaired is removed from placement and logged, and a
capsule whose continuation is bound to it is aborted (R158). The test goes through the diagnostic window, so it waits while that answers DIAG_BUSY
(R221). -/
def finishRetest (core : Nat) (s : State) : State :=
  let k := s.core core
  if k.retest = false ∨ coreBusy s core = true then s
  else
    let c := s.cluster (clusterNo core)
    let known := (c.badSpares.filter fun x => x.1 == core % 32).map Prod.snd
    let w := marchCore (core % 32) (injectedRow c (core % 32) ++ Config.failingRows s.fresh) known c.repair
    let t := zeroTested core w { s with fresh := s.fresh + 1 }
    let t := w.failed.foldl (fun t x => loseSpare core x t) (t.modCluster (clusterNo core) fun c => { c with repair := w.table })
    let t := t.modCore core fun k => { k with retest := false, removed := k.removed || !w.passes }
    if w.passes then t
    else k.boundRec.foldl (fun t x => abortCapsule x.2 Code.contLost.num (bareReport t x.2 Code.contLost.num x.1) t) (logFence core t)

/-- CORE_CLEAR_COMPLETE (R20): once the copy engine holds none of its regions, the core's scratchpad, ports and tile registers
are zero and it can take another capsule (R280, R344). -/
def finishClear (core : Nat) (s : State) : State :=
  let k := s.core core
  let s := if k.clearing = true ∧ k.held.isEmpty = true then
      wakeFootprint (clusterNo core) ({ s with padPoison := s.padPoison.filter fun p => p.1 != core, sram := s.sram.filter fun f => !f.place.onPad core fun _ => true }.modCore core fun k =>
        { k with pad := [], empty := [], ports := Vector.replicate 4 [], rows := clearRows (s.cluster (clusterNo core)).repair k.rows, cap := none, clearing := false })
    else s
  admitWaiting core (finishRetest core s)

/-- CORE_CLEAR_COMPLETE (R20, R280, R344). -/
def execCoreClearComplete (core : Nat) (s : State) : Answer := event (finishClear core) s

/-- The header fetch of a starting task (R33): a reserved bit raises HANDLER_FORMAT. -/
def checkHeader (entry : Word) (s : State) : Run State := do
  let (w, s) ← fetchWord entry s
  ensure (headerTiles w).isSome .handlerFormat s
  .ok (s.mod fun h => { h with header := none })

/-- What a task reads before it is ready: the header of its handler, or its continuation record. -/
def readStart (s : State) : Run State :=
  match s.hart.header, s.hart.record with
  | some e, _ => checkHeader e s
  | none, some e => readRecord e s
  | none, none => .ok s

/-- A task whose registers have cleared is ready (R34), once its header has passed (R33) or its record is loaded (R42). -/
def finishRegisters (s : State) : State :=
  match s.hart.run with
  | .clearing =>
    match readStart s with
    | .ok t => t.mod fun h => { h with run := .ready }
    | .error (.fault c d t) => raise {} c d t
    | .error (.wait _ t) => t
    | .error _ => s
  | _ => s

/-- REGISTER_CLEAR_COMPLETE (R33, R34). -/
def execRegisterClearComplete (h : Nat) (s : State) : Answer := event (onHart h finishRegisters) s

/-! Migration (R13, R44, R264, R295). -/

/-- Is the staging ring of a partition full (R265)? -/
def Part.stageFull (p : Part) : Bool := (p.stail + 2 ^ 32 - p.shead % 2 ^ 32) % 2 ^ 32 == 256

/-- The staging request of a block, when none is outstanding for it and the ring has an entry free (R264). -/
def postStage (block : Word) (s : State) : State :=
  match s.capsule, s.extent? (handleIdx block) with
  | some c, some e =>
    let p := s.part c.part
    let n := handleOff block / 65536
    let pa := e.base + 65536 * n
    if (p.stage.any fun r => r.open_ && r.paddr == pa) || p.stageFull then s
    else
      let r : StageReq := { paddr := pa, owner := e.ksel, req := p.stail % 65536, block := n, rword := residenceWord c.exts e n,
                            ctag := c.nonce, poster := s.here, open_ := true }
      let s := s.modPart c.part fun p => { p with stage := p.stage ++ [r], stail := p.stail + 1 }
      if p.sie then s.emit (.msix (c.part + 1) p.svec) else s
  | _, _ => s

/-- A migrating task reaches its service core, when one of the 4 places is free (R13, R44); with a staging fault, the request for
its block is posted (R264). Its tile registers are read as others are (R316), and its tile core has room again. A task that is queued for a
tile core still counts among the 4 places (DESIGN CHOICE, log 131). -/
def arriveService (block : Option Word) (s : State) : State :=
  let core := s.hart.core
  let service := serviceCore s.here
  if 4 ≤ (residents s service).length then
    match s.hart.run with
    | .blocked _ => s
    | _ => s.mod fun h => { h with run := .blocked (.place block), waitFrom := s.clock }
  else match meetGroup ((maskBits (liveMask s.hart (BitVec.allOnes 16))).map (Fin.ofNat 16)) s with
  | .error (.fault c d t) => raise {} c d t
  | .error _ => s
  | .ok s =>
    let s := leaveRows s
    let s := s.mod fun h => { h with core := service, phys := [], migrated := true, waitFrom := s.clock, run := match block with
      | some b => .staging b
      | none => .ready }
    let s := match block with
      | some b => postStage b s
      | none => s
    admitWaiting core (releaseCore core s)

/-- A task that is queued for a tile core takes the first of its cluster with room (R44, R81): after CORE_PARITY another one than the core
that failed (R295). -/
def arriveTile (s : State) : State :=
  let cl := s.here
  match s.capsule with
  | none => s
  | some c =>
    let mine := if s.hart.partner.isSome ∧ (c.foot2.any fun p => clusterNo p.1 == cl) = true then c.foot2 else c.foot
    match ((List.range 31).map (coreIn cl)).find? fun core =>
      (mine.any fun p => p.1 == core) && s.hart.run != .requeued (some core) && ((s.core core).claim.isNone || (s.core core).cap == some c.id) &&
      ((s.core core).reservedFor.isNone || (s.core core).reservedFor == some c.id) && canStartOn s c.id core s.hart.ntiles with
    | none => s
    | some core =>
      let tiles := freeTiles s core s.hart.id s.hart.ntiles
      { s.mod (fun h => { h with core := core, phys := tiles, migrated := false, run := .clearing }) with fresh := s.fresh + 1 }.modCore core fun k =>
        { k with cap := some c.id }

/-- MIGRATION_ARRIVAL (R44): the state of a migrating task reaches the service core, or that of a queued one a tile core. -/
def migrationArrival (s : State) : State :=
  match s.hart.run with
  | .migrating b | .blocked (.place b) => arriveService b s
  | .requeued _ => arriveTile s
  | _ => s

/-- MIGRATION_ARRIVAL (R13, R44, R264). -/
def execMigrationArrival (h : Nat) (s : State) : Answer := event (onHart h migrationArrival) s

/-! A parity error of a core (R295). -/

/-- The task leaves its core for the queue of its cluster, and the core waits for its retest (R295). -/
def leaveCore (s : State) : State :=
  let core := s.hart.core
  let s := (leaveRows s).mod fun h => { h with core := serviceCore s.here, phys := [], migrated := false, run := .requeued (some core), waitFrom := s.clock }
  if core % 32 = 31 then s
  else releaseCore core (s.modCore core fun k => { k with retest := true })

/-- CORE_PARITY (R204, R230, R294, R295): a rollback-class error whose restart moves the task. A chunk whose reads were overtaken is
squashed instead. In one copy of a pair it is a mismatch. -/
def coreParity (s : State) : State :=
  if s.hart.kind ≠ .task ∨ s.hart.run = .ended then s
  else if overtaken s.hart ∧ ¬ s.hart.chunk.exclusive then onPair squash s
  else
    let (d, t) := s.free
    let t := if t.hart.partner.isSome then pairMismatch {} (drain t) else rollback {} .coreParity d (drain t)
    if t.hart.run = .ended then t else leaveCore t

/-- CORE_PARITY_ERROR (R38, R158, R294, R295). -/
def execCoreParityError (h : Nat) (s : State) : Answer := event (onHart h coreParity) s

/-- Is a task queued after CORE_PARITY? -/
def parityQueued : RunState → Bool
  | .requeued (some _) => true
  | _ => false

/-- A task moved for CORE_PARITY that no core has taken for 1 ms: CORE_PARITY is a capsule fault (R295). A task that waits after
MRET has no such limit. -/
def parityTimeout (s : State) : State :=
  if parityQueued s.hart.run ∧ 1000000 ≤ s.clock - s.hart.waitFrom then
    let (d, t) := s.free
    capsuleFault {} .coreParity d t
  else s

/-- PARITY_REQUEUE_TIMEOUT (R295). -/
def execParityRequeueTimeout (h : Nat) (s : State) : Answer := event (onHart h parityTimeout) s

/-! Long waits as safe points (R13, R39, R182, R195, R264). -/

/-- Does a wait become a safe point after 2,048 cycles with pre-emption pending (R39)? A wait on an empty word of scratchpad does, as one on an
empty register does (DESIGN CHOICE, log 141). -/
def Wait.safe : Wait → Bool
  | .sreg _ | .treg _ | .padWords | .port _ | .wait _ _ | .channel _ | .copyIn | .gate _ _ | .lease | .products | .row | .place _ => true
  | .group _ | .flags | .grant | .weights | .slot | .power _ | .token | .way _ | .unit | .stage _ => false

/-- Where a task resumes whose wait is taken: at the instruction that waits; for MIGR, which has moved PC on, at MIGR. -/
def waitPc (s : State) : Option Word :=
  match s.hart.run with
  | .blocked (.place none) => some (addOff s.hart.r.pc (-4))
  | .blocked w => if w.safe then some s.hart.r.pc else none
  | .staging _ => some s.hart.r.pc
  | _ => none

/-- The wait in which a task stands that waits for a safe point. -/
def waitOf : RunState → Option Wait
  | .blocked w => some w
  | .staging b => some (.stage b)
  | _ => none

/-- WAIT_SAFE_POINT (R39): a wait of 2,048 cycles with pre-emption pending, counted from the raise where that came later, is a safe point that
names every allocated tile. -/
def waitSafePoint (s : State) : State :=
  match waitPc s with
  | none => s
  | some pc =>
    if 2048 ≤ s.clock - Nat.max s.hart.waitFrom s.hart.preemptAt then trySafe (BitVec.allOnes 16) pc (waitOf s.hart.run) s else s

/-- WAIT_SAFE_POINT (R13, R39, R40, R264). -/
def execWaitSafePoint (h : Nat) (s : State) : Answer := event (onHart h waitSafePoint) s

/-- Does a wait release the token of an exclusive chunk after 2,048 cycles (R203)? A WAIT does when it names a port (DEDUCED, log 36), and so does
a wait for another token, which would else never end (DESIGN CHOICE, log 128). -/
def Wait.yields : Wait → Bool
  | .wait _ mask => mask % 16 != 0
  | .port _ | .sreg _ | .treg _ | .padWords | .channel _ | .gate _ _ | .lease | .token => true
  | _ => false

/-- Has every message and release of the task's previous commit been accepted (R86, R196)? -/
def outboxEmpty (s : State) (task : Nat) : Bool := !(s.net.any fun m => m.sender == some task) && !(s.heldx.any fun x => x.1 == task)

/-- Is the context in a wait that releases its token (R203)? A commit waits for a full outbox. -/
def yielding (s : State) : Bool :=
  match s.hart.run with
  | .blocked w => w.yields
  | .committing _ => !outboxEmpty s s.hart.task
  | _ => false

/-- EXCLUSIVE_TOKEN_RELEASE (R203): the chunk runs on as an ordinary one, its squash count at three. -/
def releaseToken (s : State) : State :=
  if yielding s = true ∧ s.tokens.contains (tokenOf s.hart) = true ∧ 2048 < s.clock - s.hart.waitFrom then
    let t := onPair (fun t => t.mod fun h => { h with chunk := { h.chunk with exclusive := false, squashes := 3 } }) s
    { t with tokens := t.tokens.filter (· != tokenOf s.hart) }
  else s

/-- EXCLUSIVE_TOKEN_RELEASE (R203). -/
def execExclusiveTokenRelease (h : Nat) (s : State) : Answer := event (onHart h releaseToken) s

/-- Is the instruction at PC counted, and past the checks of R50 that depend on other words (R39)? SAFE is not counted; the pairing
of a LIMM and the capture of a REPF come first. -/
def exceeds (i : Instr) (s : State) : Bool :=
  match i with
  | .safe _ => false
  | .limm hi => match limmPair hi s with
    | .error (_, .fault .safeDistance _ _) => true
    | _ => false
  | .repf c r d a b => match runRepf c r d a b s with
    | .error (_, .fault .safeDistance _ _) => true
    | _ => false
  | _ => true

/-- SAFE_DISTANCE (R39): the instruction that would be the 4,097th counted; it has no effect. -/
def safeDistance (s : State) : State :=
  if s.hart.kind = .task ∧ 4096 ≤ s.hart.sdist ∧ (s.hart.run = .ready) then
    match fetch (startIssue s) with
    | .ok (w, some i, t) => if exceeds i t then raise { word := w } .safeDistance none t else s
    | _ => s
  else s

/-- SAFE_DISTANCE (R39). -/
def execSafeDistance (h : Nat) (s : State) : Answer := event (onHart h safeDistance) s

/-- Squash the chunks of other tasks that hold speculative ways in a set (R249). -/
def squashOthers (me : Nat) (set : Nat × Nat) (s : State) : State :=
  (s.harts.filter fun h => h.id != me && h.kind == .task && h.run != .ended && waysIn s h set != 0).foldl
    (fun t h => onHart h.id (onPair squash) t) s

/-- SPEC_WAY_TIMEOUT (R249): a store that has waited 256 cycles for a speculative way has its chunk squashed; for a chunk in exclusive mode,
the others that hold ways of the set are. -/
def specWayTimeout (s : State) : State :=
  match s.hart.run with
  | .blocked (.way l) =>
    if s.clock - s.hart.waitFrom < 256 then s
    else if s.hart.chunk.exclusive then squashOthers s.hart.id (waySet s s.hart l) s else onPair squash s
  | _ => s

/-- SPEC_WAY_TIMEOUT (R249). -/
def execSpecWayTimeout (h : Nat) (s : State) : Answer := event (onHart h specWayTimeout) s

end Sys2Proof.Machine
end

