-- ==== Sys2Proof/Machine/Commit.lean ====
section
/-! DEFINITION. The commit of a chunk: what the arbiter checks, what each buffered effect does, and how the task goes on
(spec/01 R36, R37, R39, R43, spec/03 R86, R89, R90, R94, spec/08 R194, R196, R198, R201 to R204, spec/14 R260, R261, spec/16 R296,
R297). -/

namespace Sys2Proof.Machine

/-- What an effect does to committed state; or why the whole chunk is discarded: a code with its detail, if the spec states one. -/
abbrev Apply := Except (Code × Option Word) State

/-! Join cells (R88 to R91). -/

/-- Does a registration name the cell at a locator: the same physical address, or the same scratchpad address of the same core? -/
def sameCell (core : Nat) (loc : Word) (pa : Option Nat) (r : JoinReg) : Bool :=
  match pa, r.pa with
  | some a, some b => a == b
  | none, none => r.core == core && handleOff r.loc == handleOff loc
  | _, _ => false

/-- The 16 bytes of a cell as committed. -/
def cellBytes (s : State) (core : Nat) (loc : Word) (pa : Option Nat) : Memory :=
  match pa with
  | some a => s.mem.window a 16
  | none => (s.core core).pad.window (handleOff loc) 16

/-- The cause of poison in a cell: of its sector, or of an injected fault in a word of it in the scratchpad, which every ordinary read meets
(R316). -/
def cellPoison (s : State) (core : Nat) (loc : Word) (pa : Option Nat) : Option Code :=
  match pa with
  | some a => poisonCause s a 16
  | none =>
    let w := handleOff loc / 8
    if s.padPoison.contains (core, handleOff loc / 32) || strikePad s core w == .poison || strikePad s core (w + 1) == .poison then some .poison
    else none

/-- Store the COUNT of a cell. -/
def putCount (core : Nat) (loc : Word) (pa : Option Nat) (n : Nat) (s : State) : State :=
  match pa with
  | some a => putMem s.hart a (leBytes 4 n) s
  | none => s.modCore core fun k => { k with pad := k.pad.writeLE (handleOff loc) 4 n }

/-- The message that a cell's fire sends, from its image (R83, R90): a failed check of R85 is MSG_TARGET for the cell, and since the
fire is part of the commit, the chunk goes with it (DEDUCED, log 34). So is a MSG handle that fails CheckAccess at the fire (DESIGN CHOICE, log
133). A DEST that names a data port sends a data message (DEDUCED, log
105). -/
def fireMessage (c : Capsule) (loc msg ranks : Word) (s : State) : Except (Code × Option Word) Msg :=
  match checkExtents c.exts msg 64 .read with
  | .error _ => .error (.msgTarget, some loc)
  | .ok pa =>
    match poisonCause s pa 64 with
    | some code => .error (code, none)
    | none =>
      let m := s.mem.window pa 64
      let entry := word (m.readLE 0 8)
      let dest := word (m.readLE 8 8)
      let build := fun (tiles : Nat) =>
        ({ kind := sendKind dest .join, cap := c.id, entry := entry, dest := dest,
           payload := Vector.ofFn fun i => word (m.readLE (16 + 8 * i.val) 8), tile := none, src := 0x1FFF, ranks := ranks,
           sender := none, bound := none, tiles := tiles, hint := BitVec.ofNat 17 (destHint dest), paired := c.paired } : Msg)
      if destOk (some c) dest then
        if destPort dest = 0 then
          match checkExtents c.exts entry 4 .exec with
          | .ok h => .ok (build (s.mem.readLE h 1 % 16 + 1))
          | .error _ => .error (.msgTarget, some loc)
        else .ok (build 0)
      else .error (.msgTarget, some loc)

/-- The cell's home applies an arrival (R90). A cell that has fired is not registered any more, so that a further arrival is
JOIN_TARGET (DEDUCED, log 106); and one that another capsule registered is JOIN_TARGET as well (DESIGN CHOICE, log 142). -/
def applyArrive (core : Nat) (loc : Word) (pa : Option Nat) (s : State) : Apply :=
  match s.capsule with
  | none => .error (.joinTarget, some loc)
  | some c =>
    match cellPoison s core loc pa, c.joins.find? (sameCell core loc pa) with
    | some code, _ => .error (code, none)
    | none, none => .error (.joinTarget, some loc)
    | none, some r =>
      let m := cellBytes s core loc pa
      let count := m.readLE 0 4
      let target := m.readLE 4 4
      if target = 0 then .error (.joinTarget, some loc)
      else if count = target then .error (.joinOver, some loc)
      else
        let count := (count + 1) % 2 ^ 32
        let s := putCount core loc pa count s
        if count = target then do
          let msg ← fireMessage c loc (word (m.readLE 8 8)) r.ranks s
          let s := s.modCap c.id fun c => { c with joins := c.joins.filter fun x => !sameCell core loc pa x }
          .ok { s with net := s.net ++ [msg] }
        else .ok s

/-- The cell's home registers a join (R89): at most 4,096 for a capsule, and none twice. -/
def applyJnew (core : Nat) (loc : Word) (pa : Option Nat) (s : State) : Apply :=
  match s.capsule with
  | none => .error (.joinTarget, some loc)
  | some c =>
    if (c.joins.any (sameCell core loc pa)) ∨ 4096 ≤ c.joins.length then .error (.joinTarget, some loc)
    else
      let r : JoinReg := { loc := loc, core := core, pa := pa, ranks := s.hart.ranks, stamp := s.clock, seen := 0 }
      .ok (s.modCap c.id fun c => { c with joins := c.joins ++ [r] })

/-! Pops (R87, R168, R169). -/

/-- The pop of a ring releases the slot at its head to the engine. -/
def popRing (n : Nat) (s : State) : State :=
  modRing s.here n (fun r => { r with defn := withHead r.defn ((ringHead r.defn + 1) % ringCount r.defn), filled := r.filled - 1, taken := r.taken - 1 }) s

/-- Drop the oldest entry that a context consumed. -/
def dropTaken (id : Nat) (l : List PortEntry) : List PortEntry := l.eraseP fun e => e.taken == some id

/-- The pop of a port removes the entry that the chunk consumed. -/
def popPort (core n : Nat) (s : State) : State :=
  let i := Fin.ofNat 4 n
  s.modCore core fun k => { k with ports := k.ports.set i.val (dropTaken s.hart.id (k.ports.get i)) i.isLt }

/-- Is the engine filling the slot at a ring's TAIL? -/
def fillingNow (s : State) (cl n : Nat) : Bool :=
  (s.cluster cl).copies.any fun c => c.mode.toRing && c.dst.toNat % 16 == n && (c.done * c.esize + c.part) % ringSlot ((s.cluster cl).ring n).defn != 0

/-- Scrub the slots of a B-sealed ring that committed pops have released and that are not in use (R169). -/
def scrubRing (cl n : Nat) (s : State) : State :=
  let r := (s.cluster cl).ring n
  let d := r.defn
  if ringV d ∧ ringKind d = 2 then
    (List.range (ringCount d - r.filled)).foldl (fun t i =>
      let k := (ringTail d + i) % ringCount d
      if slotInUse s r n k || (i == 0 && fillingNow s cl n) then t else scrubBuffer cl (slotAddr d k) (ringSlot d) t) s
  else s

/-- The same for every ring of the lease of the context that issues. -/
def scrubIdle (s : State) : State :=
  if leaseHeld s.hart.lease then (maskBits (leaseMask s.hart.lease)).foldl (fun t n => scrubRing s.here n t) s else s

/-! The effects in program order (R36). -/

/-- One effect that stays in the package; what leaves with the chunk's messages does nothing here (R86). -/
def applyEffect (e : Effect) (s : State) : Apply :=
  match e with
  | .store pa bs => .ok (putMem s.hart pa bs s)
  | .padStore core a bs => .ok (s.modCore core fun k => { k with pad := k.pad.writeBytes a bs })
  | .amo pa op wide v => .ok (applyAmo s.hart s.partition pa op wide v s)
  | .dirty word bit => .ok (setDirtyBit s.hart s.partition (word, bit) s)
  | .popRing n => .ok (popRing n s)
  | .popPort core n => .ok (popPort core n s)
  | .arrive core loc pa => applyArrive core loc pa s
  | .jnew core loc pa _ _ => applyJnew core loc pa s
  | .fenceX => .ok (s.mod fun h => { h with fenceX := h.fenceX + 1 })
  | .fenceH => .ok (s.mod fun h => { h with fenceH := h.fenceH + 1 })
  | .mrel => .ok (endLease s)
  | .atomic .. | .message _ | .sendx .. | .spawn _ | .copyOut _ => .ok s

/-- All effects, in order. -/
def applyAll : List Effect → State → Apply
  | [], s => .ok s
  | e :: es, s => do
    let s ← applyEffect e s
    applyAll es s

/-- The byte ranges of the stores of a chunk: of memory, or of a core's scratchpad. -/
def storeRanges (es : List Effect) : List (Nat × Nat) := es.filterMap fun e => match e with
  | .store pa bs => some (pa, bs.length)
  | _ => none
def padRanges (core : Nat) (es : List Effect) : List (Nat × Nat) := es.filterMap fun e => match e with
  | .padStore k a bs => if k = core then some (a, bs.length) else none
  | _ => none

/-- Poison of scratchpads after the chunk's stores to them, taken together (R261). -/
def settlePads (es : List Effect) (s : State) : State :=
  (s.hart.chunk.padWrite.map Prod.fst).foldl (fun t core => settlePad t.partition core (padRanges core es) t) s

/-- Poison after the chunk's stores to memory and scratchpad, taken together (R261). -/
def settleStores (es : List Effect) (s : State) : State :=
  let s := (storeRanges es).foldl (fun t x => readLines t.partition x.1 x.2 t) s
  settlePads es (settlePoison s.partition (storeRanges es) s)

/-- Does a chunk write a granule that has been sealed since the write was checked (R262; DEDUCED, log 125)? -/
def writesSealed (s : State) (es : List Effect) : Bool := es.any fun e => match e with
  | .store pa bs => sealedRange s pa bs.length
  | .amo pa _ wide _ => sealedRange s pa (amoWidth wide)
  | .arrive _ _ (some pa) => sealedRange s pa 16
  | _ => false

/-- Where the message image lies of the join that is registered at a cell (R90). -/
def imageOf (core : Nat) (loc : Word) (pa : Option Nat) (s : State) : Option Nat :=
  match s.capsule with
  | none => none
  | some c =>
    if c.joins.any (sameCell core loc pa) then (checkExtents c.exts (word ((cellBytes s core loc pa).readLE 8 8)) 64 .read).toOption
    else none

/-- That image is read (R256). -/
def meetImage (core : Nat) (loc : Word) (pa : Option Nat) (s : State) : State :=
  match imageOf core loc pa s with
  | some a => readLines s.partition a 64 s
  | none => s

/-- The home slices that a commit accesses: those of the lines it writes, of the cells at which it arrives and of their images (R198, R259). -/
def commitUnits (s : State) (es : List Effect) : List Nat :=
  (es.map fun e => match e with
    | .store pa bs => homeUnits s pa bs.length
    | .amo pa _ wide _ => homeUnits s pa (amoWidth wide)
    | .dirty w _ => homeUnits s w 8
    | .arrive core loc pa => (pa.toList.map fun a => homeUnits s a 16).flatten ++ ((imageOf core loc pa s).toList.map fun a => homeUnits s a 64).flatten
    | _ => []).flatten

/-- The home's reads for a chunk's arrivals, of cells and of message images, find what other reads find (R256, R259, R316). -/
def meetCells (es : List Effect) (s : State) : State :=
  es.foldl (fun t e => match e with
    | .arrive core loc none => meetImage core loc none (meetPad t.partition core (handleOff loc) 16 t)
    | .arrive core loc (some a) => meetImage core loc (some a) (readLines t.partition a 16 t)
    | _ => t) s

/-- What the chunk sends leaves in program order, after every other effect (R86), and the engine has the regions of a copy-out at once
(R137); a FENCE.X before it holds a release back from its endpoint (R196). -/
def sendAll (task : Nat) : Nat → List Effect → State → State
  | _, [], s => s
  | fx, e :: es, s =>
    match e with
    | .fenceX => sendAll task (fx + 1) es s
    | .message m => sendAll task fx es { s with net := s.net ++ [m] }
    | .copyOut c =>
      let s := holdRegions c s
      sendAll task fx es (if c.mode = .se then holdRelease task fx e s else releaseCopy c s)
    | .sendx .. | .spawn _ => sendAll task fx es (holdRelease task fx e s)
    | _ => sendAll task fx es s

/-! The arbiter (R201 to R203, R296). -/

/-- Does a FENCE.H hold back tier-1 writes of the task, because writes before it are outstanding (R196)? -/
def writesHeld (s : State) (task : Nat) : Bool :=
  s.dirty.any fun d => d.hart == task && s.dirty.any fun e => e.hart == task && decide (e.fh < d.fh)

/-- May the commit of the context that issues be checked now: its outbox is empty, its matrix commands have completed and been
checked (R37, R163), and no other chunk holds the token of its arbiters (R203)? -/
def mayCommit (s : State) : Bool :=
  outboxEmpty s s.hart.task && !writesHeld s s.hart.task && !((s.cluster s.here).products.any fun p => p.hart == s.hart.id && p.live) && !s.hart.wload &&
  tokenMask s.hart &&& tokensHeld s (tokenOf s.hart) == 0

/-- The arbiter's counts of an accepted chunk (R311). -/
def countCommit (s : State) : State :=
  let a := arbiterOf s.hart
  let x := s.arbiters.get a
  { s with arbiters := s.arbiters.set a.val { x with commits := x.commits + 1, last := (s.ctag :: x.last).take 8 } a.isLt }

/-- After a commit: the claims are final (R94), the counts start again, and the checkpoint is the state after the committing
instruction (R37). -/
def closeChunk (s : State) : State :=
  let id := s.hart.id
  let s := { settleQueries id 1 s with tokens := s.tokens.filter (· != tokenOf s.hart) }
  scrubIdle (s.mod fun h =>
    { h with chunk := Chunk.reset, commits := h.commits + 1, rdl := 0, mismatches := 0, request := none, times := [],
             ckpt := h.r, ckptSdist := h.sdist, ckptLease := leaseNow s.clock h })

/-- Commit the chunk of the context that issues (R36, R198): all its effects appear at once. A sector that its stores write whole has
lost its poison when an arrival reads it (R261). -/
def commitChunk (s : State) : Apply := do
  let h := s.hart
  let es := h.chunk.effects
  if writesSealed s es then .error (.sealedWrite, none) else
  let s ← applyAll es (settleStores es s)
  let s := publish h.id h.chunk.writeSig h.chunk.padWrite s
  let s := noteProgress h.cap (countCommit s)
  let s := s.modCap h.cap fun c => { c with commits := c.commits + 1 }
  .ok (sendAll h.task h.fenceX es (closeChunk s))

/-! The other copy of a pair (R100, R296, R297). -/

/-- An effect of the copy whose chunk does not leave: what belongs to its own core and cluster (log 26). -/
def applyLocal (e : Effect) (s : State) : State :=
  match e with
  | .padStore core a bs => s.modCore core fun k => { k with pad := k.pad.writeBytes a bs }
  | .popRing n => popRing n s
  | .popPort core n => popPort core n s
  | .arrive core loc none =>
    let n := (cellBytes s core loc none).readLE 0 4
    putCount core loc none ((n + 1) % 2 ^ 32) s
  | .fenceX => s.mod fun h => { h with fenceX := h.fenceX + 1 }
  | .fenceH => s.mod fun h => { h with fenceH := h.fenceH + 1 }
  | .mrel => endLease s
  | _ => s

/-- The chunk of the other copy. -/
def commitLocal (s : State) : State :=
  let h := s.hart
  let es := h.chunk.effects
  closeChunk (publish h.id 0 h.chunk.padWrite (es.foldl (fun t e => applyLocal e t) (settlePads es s)))

/-- A tile as the commit stream gives it. -/
def streamTile (t : Option (Memory × BitVec 16)) : List Byte :=
  match t with
  | some (d, shape) => d.readBytes 0 4096 ++ leBytes 2 shape.toNat
  | none => []

/-- The entry of one effect in the commit stream (R297): none for the dirty bits, which the home sets. The pop of port n gives 16 + n for its ring; SPAWN gives the child's ENTRY, its
queue and the six words that its launch message will carry (DEDUCED, log 26). -/
def streamOf (slot : Nat) (e : Effect) : List Byte :=
  match e with
  | .store pa bs => 0x01 :: (leBytes 8 pa ++ leBytes 1 bs.length ++ bs)
  | .padStore _ a bs => 0x02 :: (leBytes 2 a ++ leBytes 1 bs.length ++ bs)
  | .atomic pa f x c _ => 0x03 :: (leBytes 8 pa ++ leBytes 2 f ++ leBytes 8 x.toNat ++ leBytes 8 c.toNat)
  | .amo pa op wide v => 0x03 :: (leBytes 8 pa ++ leBytes 2 (op.func wide) ++ leBytes 8 v.toNat ++ leBytes 8 0)
  | .message m => 0x04 :: (leBytes 8 m.entry.toNat ++ leBytes 8 m.dest.toNat ++ (m.payload.toList.map fun w => leBytes 8 w.toNat).flatten ++ streamTile m.tile)
  | .sendx _ _ h _ v body => 0x04 :: (leBytes 8 h.toNat ++ leBytes 8 v.toNat ++ (body.toList.map fun w => leBytes 8 w.toNat).flatten)
  | .spawn c => 0x04 :: (c.image.readBytes 0x30 8 ++ leBytes 8 (c.queue.getD 0) ++ c.image.readBytes 0x40 48)
  | .copyOut c => 0x05 :: (leBytes 8 c.control.toNat ++ leBytes 8 c.src.toNat ++ leBytes 8 c.dst.toNat)
  | .popRing n => 0x06 :: (leBytes 1 n ++ leBytes 1 slot)
  | .popPort _ n => 0x06 :: (leBytes 1 (16 + n) ++ leBytes 1 0)
  | .arrive _ loc _ => 0x07 :: (leBytes 8 loc.toNat ++ leBytes 4 0 ++ leBytes 8 0)
  | .jnew _ loc _ target msg => 0x07 :: (leBytes 8 loc.toNat ++ leBytes 4 target.toNat ++ leBytes 8 msg.toNat)
  | .fenceX => 0x08 :: leBytes 4 (wordOf .fenceX)
  | .fenceH => 0x08 :: leBytes 4 (wordOf .fenceH)
  | .mrel => 0x08 :: leBytes 4 (wordOf .mrel)
  | .dirty .. => []

/-- The commit stream of a copy: a pop names the slot that it releases, and a returning atomic is one entry with the store that it
makes. -/
def stream (c : Cluster) : List Nat → List Effect → List Byte
  | _, [] => []
  | popped, .store _ _ :: .atomic pa f x y true :: es => streamOf 0 (.atomic pa f x y true) ++ stream c popped es
  | popped, e :: es =>
    match e with
    | .popRing n =>
      let d := (c.ring n).defn
      streamOf ((ringHead d + popped.countP (· == n)) % ringCount d) e ++ stream c (n :: popped) es
    | _ => streamOf 0 e ++ stream c popped es

/-- The effects that a commit makes: CONT sends its message after those of the chunk (R96). -/
def commitEffects (k : CommitKind) (h : Hart) : List Effect :=
  match k with
  | .cont m => h.chunk.effects ++ [.message m]
  | _ => h.chunk.effects

/-- The commit hash of a copy (R297). -/
def commitHash (s : State) (k : CommitKind) (h : Hart) : List Byte :=
  (Crypto.sha384 (stream (s.cluster (clusterNo h.core)) [] (commitEffects k h))).take 8

/-- Do two copies end their chunks in the same way? What is not so is no commit as one unit (R296). -/
def sameEnd (a b : CommitKind) : Bool :=
  match a, b with
  | .done, .done | .cont _, .cont _ => true
  | .safe m p _, .safe n q _ => m == n && p == q
  | _, _ => false

/-! How a commit ends (R37, R39, R43). -/

/-- The word at PC, for the report of a fault at a commit (R345). -/
def committingWord (s : State) : Nat :=
  match checkExtents s.extents s.hart.r.pc 4 .exec with
  | .ok pa => s.mem.readLE pa 4
  | .error _ => 0

/-- What discards a committing chunk: a capsule fault with the report of R345, or an error of rollback class. -/
def commitFault (code : Code) (detail : Option Word) (s : State) : State :=
  let (d, s) := match detail with
    | some d => (d, s)
    | none => s.free
  let site : Site := { word := committingWord s }
  match code.cls with
  | .rollback => rollbackAll site code d s
  | _ => abortCapsule s.hart.cap code.num (taskFields site s 0 (commonFields s s.hart.cap code.num d)) s

/-- End the context, and the other copy of its pair; waiting messages may take the room on their cores (R21, R35). -/
def endTask (s : State) : State :=
  let core := s.hart.core
  let other := (s.hart.partner.bind s.hart?).map Hart.core
  let s := onPair endContext s
  let s := admitWaiting core s
  match other with
  | some k => admitWaiting k s
  | none => s

/-- Write the record of a safe point and end the task (R39, R343). A pair writes one record, and both copies end (R296);
a core that a copy leaves at a port stays bound (R158). -/
def endSafe (r : Regs) (status : BitVec 128) (rst : BitVec 512) (live : Nat) (pc : Word) (wait : Option Wait) (s : State) : State :=
  let core := s.hart.core
  let moved := takesPorts s r pc
  let t := finishSafe r status rst live pc wait s
  if t.hart.run = .ended then
    let t := match s.hart.partner with
      | none => t
      | some p => onHart p (fun u =>
          stopContext (u.modCore u.hart.core fun k =>
            { k with ports := if moved then Vector.replicate 4 [] else k.ports
                     boundRec := if portInstr r (peek s pc) then k.boundRec ++ ((t.core core).boundRec.drop (s.core core).boundRec.length)
                       else k.boundRec })) t
    let t := admitWaiting core t
    match (s.hart.partner.bind s.hart?).map Hart.core with
    | some k => admitWaiting k t
    | none => t
  else t

/-- The tile registers that a checkpoint holds more of than zero and full, to which a resumption sets every other (R41) (DEDUCED, log 38). -/
def ckptTiles (h : Hart) : Nat :=
  liveMask h (BitVec.ofNat 16 ((List.range 16).foldl (fun acc i =>
    let t := h.ckpt.t.get (Fin.ofNat 16 i)
    if t.data ≠ [] ∨ t.full = false then acc + 2 ^ i else acc) 0))

/-- A commit whose reads were overtaken (R38, R43, R201): the task re-executes; one that takes a safe point writes its record
from the checkpoint instead. -/
def refuseCommit (k : CommitKind) (s : State) : State :=
  match k with
  | .safe .. =>
    let t := onPair squash s
    let h := t.hart
    if roomFor t h.ckpt (ckptTiles h) h.ckpt.pc = some true then endSafe h.ckpt h.ckptLease (recordRst t) (ckptTiles h) h.ckpt.pc none t
    else noRoom t
  | _ => onPair squash s

/-- The end that follows an accepted commit. -/
def finishCommit (k : CommitKind) (s : State) : State :=
  match k with
  | .done => endTask (s.modCap s.hart.cap fun c => { c with tasks := c.tasks + 1 })
  | .cont m => endTask { s with net := s.net ++ [m] }
  | .safe mask pc wait =>
    let s := onPair (fun t => t.mod fun h => { h with r := { h.r with pc := pc }, ckpt := { h.r with pc := pc }, run := afterSafe wait }) s
    endSafe s.hart.r (leaseNow s.clock s.hart) (recordRst s) (liveMask s.hart mask) pc wait s

/-- A safe point finds room for its record before it stops or commits anything (R40): without room, the task runs on from its
resume PC, and waits on where the safe point was taken in a wait. -/
def roomGone (k : CommitKind) (s : State) : Option State :=
  match k with
  | .safe mask pc wait =>
    if roomFor s s.hart.r (liveMask s.hart mask) pc = some true then none
    else some (onPair (fun t => noRoom (t.mod fun h => { h with run := afterSafe wait, r := { h.r with pc := afterPc wait pc }, request := none })) s)
  | _ => none

/-- The record of a safe point reads the live tiles as other reads do (R316). -/
def meetLive (k : CommitKind) (s : State) : Run State :=
  match k with
  | .safe mask _ _ => meetGroup ((maskBits (liveMask s.hart mask)).map (Fin.ofNat 16)) s
  | _ => .ok s

/-- The commit of a task that has no other copy: it waits for home slices in retention (R259); a chunk whose reads were overtaken takes no fault
(R204). -/
def commitAlone (k : CommitKind) (s : State) : State :=
  let units := commitUnits s s.hart.chunk.effects
  if !mayCommit s then s
  else if asleep s units then startExit units s
  else
    let s := meetCells s.hart.chunk.effects (drain (noteUse units s))
    match roomGone k s with
    | some t => t
    | none =>
      if overtaken s.hart ∧ ¬ s.hart.chunk.exclusive then refuseCommit k s
      else match meetLive k s with
      | .error (.fault c d t) => commitFault c d t
      | .error _ => s
      | .ok s =>
        match commitChunk s with
        | .ok t => finishCommit k t
        | .error (code, d) => commitFault code d s

/-- Were the reads of either copy overtaken by units that committed since the first read of either (R296)? -/
def pairOvertaken (a b : Hart) : Bool :=
  let reads := a.chunk.readSig ||| b.chunk.readSig
  let since := a.chunk.since ||| b.chunk.since
  (a.chunk.reads || b.chunk.reads) && (reads &&& since != 0 || overtaken a || overtaken b)

/-- What a copy finds on its own core as it commits (R230): a fault in the tiles of its record, or in a scratchpad cell at which it arrives; and
the state with what those reads have logged. -/
def ownFault (k : CommitKind) (s : State) : Option Code × State :=
  match meetLive k s with
  | .error (.fault c _ t) => (some c, t)
  | .error _ => (none, s)
  | .ok t =>
    let es := t.hart.chunk.effects
    (es.findSome? fun e => match e with
      | .arrive core loc none => cellPoison (settlePads es t) core loc none
      | _ => none, t)

/-- Both copies have asked for their commit: the arbiter acts (R296). The copy with the lower number is the one whose effects
leave. A fault that one copy alone finds is a mismatch (R230). -/
def commitPair (ka kb : CommitKind) (b : Hart) (s : State) : State :=
  let a := s.hart
  let units := commitUnits s a.chunk.effects
  if !mayCommit s || !mayCommit (focus b.id s) then s
  else if asleep s units then startExit units s
  else
    let s := onPair (fun t => meetCells t.hart.chunk.effects (drain t)) (noteUse units s)
    match roomGone ka s with
    | some t => t
    | none =>
      if pairOvertaken a b ∧ ¬ a.chunk.exclusive then refuseCommit ka s
      else
        let (fa, s) := ownFault ka s
        let (fb, t) := ownFault kb (focus b.id s)
        let s := focus a.id t
        if commitHash s ka a ≠ commitHash s kb b ∨ sameEnd ka kb = false ∨ fa ≠ fb then pairMismatch { word := committingWord s } s
        else match fa with
        | some code => commitFault code none s
        | none =>
          match commitChunk s with
          | .ok t => finishCommit ka (onHart b.id commitLocal t)
          | .error (code, d) => commitFault code d s

/-- The commit request of a copy of a pair waits for that of the other copy (R296); a fault of the other copy is a mismatch
(R230). -/
def requestCommit (p : Nat) (s : State) : State :=
  let s := if s.hart.request.isSome then s else s.mod fun h => { h with request := some s.clock }
  let s := if s.hart.id < p then s else focus p s
  match s.hart.partner.bind s.hart? with
  | none => s
  | some b =>
    match s.hart.run, b.run with
    | .committing ka, .committing kb => if s.hart.request.isSome ∧ b.request.isSome then commitPair ka kb b s else s
    | .pairFault .., _ | _, .pairFault .. => pairMismatch { word := committingWord s } s
    | _, _ => s

/-- CHUNK_COMMIT (R201). -/
def arbiter (s : State) : State :=
  match s.hart.run, s.hart.partner with
  | .committing k, none => commitAlone k s
  | .committing _, some p => requestCommit p s
  | _, _ => s

/-- CHUNK_COMMIT (R36 to R43, R86, R90, R94, R196, R201 to R203, R260, R261, R296, R297). -/
def execChunkCommit (h : Nat) (s : State) : Answer :=
  event (fun s => if (s.hart? h).isSome then focus s.hart.id (arbiter (focus h s)) else s) s

/-- PAIR_COMMIT_TIMEOUT (R296): the other copy has not asked within 1 ms. -/
def pairTimeout (s : State) : State :=
  match s.hart.request, s.hart.partner.bind s.hart? with
  | some t, some b => if 1000000 ≤ s.clock - t ∧ b.request.isNone = true then pairMismatch {} s else s
  | _, _ => s

/-- PAIR_COMMIT_TIMEOUT (R296). -/
def execPairCommitTimeout (h : Nat) (s : State) : Answer := event (onHart h pairTimeout) s

end Sys2Proof.Machine
end

