-- ==== Sys2Proof/Machine/Admission.lean ====
section
/-! DEFINITION. Admission: the selection of a queue, the checks of a record, the binding of a footprint, launches, the end of a
capsule and the teardown of a queue (spec/01 R25 to R32, R45, spec/03 R80, R81, spec/14 R246, R250, R262, R263, spec/15 R269 to
R289, spec/16 R298, R299, R303, R304). -/

namespace Sys2Proof.Machine

/-! Queues (R269). -/

def Queue.en (q : Queue) : Bool := bitOf q.qcfg.toNat 0
def Queue.pri (q : Queue) : Nat := bitsOf q.qcfg.toNat 3 1
def Queue.crSize (q : Queue) : Nat := 2 ^ (bitsOf q.qcfg.toNat 11 8 + 4)
def Queue.vec (q : Queue) : Nat := bitsOf q.qcfg.toNat 22 12
def Queue.cie (q : Queue) : Bool := bitOf q.qcfg.toNat 23
def Queue.serial (q : Queue) : Bool := bitOf q.qcfg.toNat 24

/-- The capsules of a queue that have not ended, in the order of admission. -/
def State.inFlight (s : State) (n : Nat) : List Capsule := s.caps.filter fun c => c.queue == n

/-- Completion entries that the device may write before it reaches the entry at CHEAD − 1 (R273). -/
def Queue.space (q : Queue) : Nat := q.crSize - 1 - (q.ctail + q.crSize - q.chead % q.crSize) % q.crSize

/-- Fields of a partition's configuration (R266). -/
def Part.klass (p : Part) : Nat := p.cfg.readLE 0x010 1
def Part.wadm (p : Part) : Nat := p.cfg.readLE 0x011 1
def Part.window (p : Part) : Nat :=
  match p.cfg.readLE 0x013 1 with
  | 0 => 0
  | n => 2 ^ (n - 1) * 1000
def Part.reserved (p : Part) : List Nat :=
  ((List.range 8).map fun i => p.cfg.readLE (0x020 + 2 * i) 2).filterMap fun v => if bitOf v 15 then some (v % 4096) else none
def Part.owners (p : Part) : List Nat := ((List.range 16).map fun i => p.cfg.readLE (0x030 + 2 * i) 2).filter (· != 0)
def Part.endpoints (p : Part) : List Nat := ((List.range 64).map fun i => p.cfg.readLE (0x100 + 8 * i) 8).filter (· != 0)

/-! Selection (R282, R283). -/

/-- Is a queue eligible (R282)? One that a pipeline stage examines is not selected again (R274). -/
def eligible (s : State) (q : Queue) : Bool :=
  match q.partition with
  | none => false
  | some p =>
    q.en && q.waiting != 0 && !q.held && !q.tearing && !(q.serial && !(s.inFlight q.no).isEmpty) &&
    decide ((s.inFlight q.no).length < q.space) && !s.inReset p && !s.selected.contains q.no

/-- The queues of a partition at a priority that are enabled, in ascending number. -/
def levelQueues (s : State) (p v : Nat) : List Nat :=
  let l := (s.queues.filter fun q => q.partition == some p && q.en && q.pri == v).map Queue.no
  l.foldl (fun acc n => acc.filter (· < n) ++ n :: acc.filter (n < ·)) []

/-- The pointer of a priority level moves on. -/
def moveOn (p v n : Nat) (s : State) : State :=
  s.modPart p fun x =>
    { x with ptr := Vector.ofFn fun i => if i.val = v then (x.ptr.get i + 1) % n else x.ptr.get i,
             arrived := Vector.ofFn fun i => if i.val = v then false else x.arrived.get i }

/-- The pointer has arrived at a queue. -/
def arriveAt (p v : Nat) (s : State) : State :=
  s.modPart p fun x => { x with arrived := Vector.ofFn fun i => if i.val = v then true else x.arrived.get i }

/-- The loop of R283 over the queues of one level: at most `k` turns. The pointer is taken modulo the count as it is now, and DEF - 1 stays at 0
(DESIGN CHOICE, log 152). -/
def selectQueue (p v : Nat) (qs : List Nat) : Nat → State → Option Nat × State
  | 0, s => (none, s)
  | k + 1, s =>
    let i := Fin.ofNat 8 v
    let x := s.part p
    match qs[x.ptr.get i % qs.length]? with
    | none => (none, s)
    | some q =>
      let s := if x.arrived.get i then s
        else arriveAt p v (s.modQueue q fun y => { y with deficit := Nat.min 4 (y.deficit + 1) })
      let y := s.queue q
      if eligible s y then
        let s := s.modQueue q fun y => { y with deficit := y.deficit - 1 }
        (some q, if y.deficit - 1 = 0 then moveOn p v qs.length s else s)
      else
        let s := if y.waiting = 0 then s.modQueue q fun y => { y with deficit := 0 } else s
        selectQueue p v qs k (moveOn p v qs.length s)

/-- The partitions with an eligible queue, in ascending number. -/
def eligibleParts (s : State) : List Nat :=
  (List.range 16).filter fun p => s.queues.any fun q => q.partition == some p && eligible s q

/-- The partition with the largest credit; the lowest number wins a tie. -/
def largestCredit (s : State) (ps : List Nat) : Option Nat :=
  ps.foldl (fun best p => match best with
    | none => some p
    | some b => if (s.part b).cr < (s.part p).cr then some p else some b) none

/-- One selection (R283). -/
def select (s : State) : State :=
  let ps := eligibleParts s
  let sum := (ps.map fun p => (s.part p).wadm).foldl (· + ·) 0
  let s := ps.foldl (fun t p => t.modPart p fun x => { x with cr := x.cr + Int.ofNat x.wadm }) s
  match largestCredit s ps with
  | none => s
  | some p =>
    let s := s.modPart p fun x => { x with cr := x.cr - Int.ofNat sum }
    let v := (s.queues.filter fun q => q.partition == some p && eligible s q).foldl (fun m q => Nat.max m q.pri) 0
    let qs := levelQueues s p v
    match selectQueue p v qs (2 * qs.length) s with
    | (some q, t) => { t with selected := t.selected ++ [q] }
    | (none, t) => t

/-- QUEUE_SELECT (R282, R283): with one of the four pipeline stages free (R274). Queues are enabled only after the boot (R332). -/
def execQueueSelect (s : State) : Answer := event (fun s => if s.selected.length < 4 ∧ s.phase = .running then select s else s) s

/-! Completion records (R32, R273). -/

/-- A completion record. -/
structure Completion where
  status : Nat
  ctag : Word
  commits : Nat := 0
  tasks : Nat := 0
  tlaunch : Word := 0
  freport : Word := 0
  written : Bool := false
  records : Bool := false
deriving DecidableEq, Repr

/-- Its 64 bytes (R32). -/
def Completion.bytes (c : Completion) (phase : Bool) (queue : Nat) (now : Word) : List Byte :=
  let flags := (if phase then 1 else 0) + (if c.written then 2 else 0) + (if c.records then 4 else 0)
  leBytes 2 c.status ++ leBytes 2 flags ++ leBytes 2 queue ++ leBytes 2 0 ++ leBytes 8 c.ctag.toNat ++ leBytes 8 c.commits ++
  leBytes 8 c.tlaunch.toNat ++ leBytes 8 now.toNat ++ leBytes 8 c.freport.toNat ++ leBytes 8 c.tasks ++ leBytes 8 0

/-- The log entry of a completion record that has no place in the ring (R299). -/
def dropRecord (n : Nat) (c : Completion) (s : State) : State :=
  match (s.queue n).partition with
  | none => s
  | some p =>
    s.logPart p { code := Code.recordDropped.num, kind := 1, queue := n, detail := word c.status, ctag := c.ctag.toNat % 2 ^ 32 }

/-- Write a completion record at CTAIL, and raise the queue's vector (R273). The entry at CHEAD − 1 is never written: a record without
room is dropped and logged, as R299 has it for a teardown, also where the host has moved CHEAD back since (DESIGN CHOICE, log 110). -/
def writeCompletion (n : Nat) (c : Completion) (s : State) : State :=
  let q := s.queue n
  if q.space = 0 then dropRecord n c s
  else
  let s := { s with host := s.host.writeBytes (q.crbase.toNat + 64 * q.ctail) (c.bytes q.phase n s.now) }
  let s := s.modQueue n fun q =>
    { q with ctail := (q.ctail + 1) % q.crSize, phase := if q.ctail + 1 = q.crSize then !q.phase else q.phase }
  match q.fn with
  | some f => if q.cie then s.emit (.msix f q.vec) else s
  | none => s

/-- A record that does not run completes with FLUSHED (R299). -/
def flushRecord (n : Nat) (record : Memory) (s : State) : State :=
  writeCompletion n { status := Code.flushed.num, ctag := word (record.readLE 0xC0 8) } s

/-- The end of a teardown, once no capsule of the queue is left (R299): what is in the ring, and then the pending slots, is flushed,
and EN is cleared. -/
def finishTeardown (n : Nat) (s : State) : State :=
  let q := s.queue n
  if q.tearing = true ∧ (s.inFlight n).isEmpty = true then
    let s := (q.entries s).foldl (fun t e => flushRecord n e.record t) s
    let s := q.pending.foldl (fun t k => flushRecord n (q.slots.window (256 * k) 256) t) s
    { s with selected := s.selected.filter (· != n) }.modQueue n fun q =>
      { q.pop with qcfg := q.qcfg &&& ~~~1, waiting := 0, pending := [], free := 0xFF, deficit := 0, tearing := false, torn := true }
  else s

/-- Tear a queue down (R299): its oldest capsule in flight ends with the code named, if there is one, and the others with
FLUSHED. A watchdog's teardown is logged with its code (R307) (DEDUCED, log 76). -/
def tearDown (n : Nat) (named : Option Code) (s : State) : State :=
  match (s.queue n).partition with
  | none => s
  | some p =>
    let s := match named with
      | some code => s.logPart p { code := code.num, kind := 6, queue := n }
      | none => s
    let s := s.modQueue n fun q => { q with tearing := true }
    let abort := fun (code : Code) (t : State) (c : Capsule) => abortCapsule c.id code.num (bareReport t c.id code.num 0) t
    match s.inFlight n with
    | [] => finishTeardown n s
    | c :: cs => finishTeardown n (cs.foldl (abort .flushed) (abort (named.getD .flushed) s c))

/-! The end of a capsule (R45, R91, R206, R298). -/

/-- Are all effects of a capsule visible (R206, R298): no copy, no release and no tier-1 write-back of it is outstanding? -/
def effectsVisible (s : State) (cap : Nat) : Bool :=
  !(s.clusters.any fun k => (k.copies ++ k.copyWait).any fun c => c.cap == cap) &&
  !(s.dirty.any fun d => d.cap == cap) &&
  !(s.heldx.any fun x => match x.2.2 with
    | .sendx c .. => c == cap
    | .copyOut c => c.cap == cap
    | .spawn c => c.cap == cap
    | _ => false)

/-- Has a capsule no task, no message on its way or waiting, and no query unanswered? -/
def capsuleIdle (s : State) (cap : Nat) : Bool :=
  (s.hartsOf cap).isEmpty && !(s.net.any fun m => m.cap == cap) && !(s.queries.any fun q => q.cap == cap && !q.landed) &&
  !(s.clusters.any fun k => k.park.any fun m => m.cap == cap) && !(s.cores.any fun k => k.inbox.any fun m => m.cap == cap)

/-- Is a count of live records left in the continuation extent (R32, R40)? -/
def recordsLeft (s : State) (c : Capsule) : Bool :=
  match contExtent c with
  | some (_, e) => s.mem.readLE (e.base + 8) 8 != 0
  | none => false

/-- Scrub what a capsule used (R45): extent buffers, channels, its copies in read-only caches (R189), and every core
it held. -/
def scrubCapsule (cap : Nat) (s : State) : State :=
  let idle := fun (ch : Chan) => if ch.cap = some cap then Chan.reset else ch
  let s := { s with clusters := s.clusters.map fun (k : Cluster) =>
    { k with extbufs := k.extbufs.filter (· != cap), chans := k.chans.map idle,
             ro := k.ro.filter fun x => x.cap != cap } }
  let held := (s.cores.filter fun k => k.cap == some cap).map Core.id
  let s := { s with cores := s.cores.map fun (k : Core) =>
    { k with reservedFor := if k.reservedFor = some cap then none else k.reservedFor,
             boundRec := k.boundRec.filter fun b => b.2 != cap,
             clearing := k.clearing || k.cap == some cap } }
  held.foldl (fun t k => finishClear k t) s

/-- Write a capsule's completion record and forget it (R32, R45, R273). NFLT is complete now (R226). -/
def endCapsule (c : Capsule) (status : Nat) (s : State) : State :=
  let report := if c.report then reportExtent c else none
  let s := match report with
    | some (_, e) => deviceWrite c.id (e.base + 0x92) (leBytes 2 c.nflt) s
    | none => s
  let done : Completion :=
    { status := status, ctag := c.nonce, commits := c.commits, tasks := c.tasks, tlaunch := c.tlaunch,
      freport := match report with
        | some (x, _) => mkHandle x 0
        | none => 0,
      written := report.isSome, records := recordsLeft s c }
  let s := writeCompletion c.queue done (scrubCapsule c.id s)
  let clusters := (c.foot ++ c.foot2).map fun p => clusterNo p.1
  let s := noteProgress c.id s
  let s := { s with caps := s.caps.filter fun x => x.id != c.id }
  finishTeardown c.queue (clusters.eraseDups.foldl (fun t cl => wakeFootprint cl t) s)

/-- The report of a stalled join (R91, R345): the cell, its COUNT and its TARGET. -/
def joinReport (s : State) (c : Capsule) (r : JoinReg) : Memory :=
  let m := cellBytes s r.core r.loc r.pa
  ((bareReport s c.id Code.joinStall.num r.loc).writeLE 0x094 4 (m.readLE 0 4)).writeLE 0x098 4 (m.readLE 4 4)

/-- Has a registered cell stalled (R91)? -/
def stalled (s : State) (c : Capsule) (r : JoinReg) : Bool := c.stall != 0 && decide (1000 * c.stall ≤ s.clock - r.stamp)

/-- CAPSULE_COMPLETE (R45, R91, R206): an aborted capsule whose effects are visible, or one that has nothing left to run. With
an unfired cell and a STALL, the capsule ends when the STALL time has passed (R211) (DEDUCED, log 109). -/
def completeCapsule (id : Nat) (s : State) : State :=
  match s.cap? id with
  | none => s
  | some c =>
    if !effectsVisible s id then s
    else match c.state with
      | .ending status => endCapsule c status s
      | .armed => s
      | .running =>
        if !capsuleIdle s id then s
        else match (if c.stall = 0 then none else c.joins.head?) with
          | some r => if c.joins.any (stalled s c) then abortCapsule id Code.joinStall.num (joinReport s c r) s else s
          | none => endCapsule c 0 s

/-- CAPSULE_COMPLETE (R45). -/
def execCapsuleComplete (cap : Nat) (s : State) : Answer := event (completeCapsule cap) s

/-! The checks of a record (R274 to R276). -/

/-- Clusters in one unit of a domain, and units of a domain of cores in one cluster (R80). -/
def clustersIn (d : Nat) : Nat := if d = 4 then 1 else if d = 5 then 32 else 128
def unitsInCluster (d : Nat) : Nat :=
  match d with
  | 0 => 31 | 1 => 16 | 2 => 8 | 3 => 4 | _ => 1

/-- How many units of domain d fit in one unit of domain D (R80). -/
def unitsIn (d D : Nat) : Nat :=
  if D ≤ 3 then 2 ^ (D - d)
  else if d ≤ 4 then unitsInCluster d * clustersIn D
  else clustersIn D / clustersIn d

/-- The rules of R80 on a hierarchy. -/
def hierarchyOk (c : Capsule) : Bool :=
  c.domain 0 == 0 && (List.range (c.lvls + 1)).all fun l =>
    if l < c.lvls then decide (c.domain l < c.domain (l + 1)) && decide (c.members l ≤ unitsIn (c.domain l) (c.domain (l + 1)))
    else if c.domain l = 7 then true else decide (c.members l ≤ unitsIn (c.domain l) 6)

/-- Does a range lie in one tier (R246)? -/
def inTier (a n : Nat) : Bool := decide (a + n ≤ tier0End) || (decide (tier1Base ≤ a) && decide (a + n ≤ tier1End))

/-- The rules of R278 and R323 on an endpoint address. A gate lies below the crash dump and the protected region, which no extent reaches
(R253, R311). -/
def endpointOk (b : Nat) : Bool :=
  match bitsOf b 63 60 with
  | 1 => b % 8 == 0 && bitsOf b 59 48 == 0 && decide (bitsOf b 47 0 < dumpBase)
  | 2 => bitsOf b 59 20 == 0 && bitsOf b 15 9 == 0
  | 3 => decide (endLink b ≤ 11) && bitsOf b 47 46 == 0 && bitsOf b 39 0 == 0
  | _ => false

/-- The rules of R246, R262, R263 and R278 on one extent, beside R31's. -/
def extentPlaceOk (exts : List Extent) (e : Extent) : Bool :=
  match e.kind with
  | 0 => true
  | 5 => endpointOk e.base
  | k =>
    inTier e.base e.length &&
    (k != 3 || (e.base % 65536 == 0 && e.length % 65536 == 0)) &&
    (k != 2 || (e.base % 65536 == 0 && e.length % 65536 == 0 && handleOff e.aux % 8 == 0 &&
      match exts[handleIdx e.aux]? with
      | none => false
      | some b => Extent.kind b == 1 && Extent.r b && Extent.w b &&
          decide (handleOff e.aux + 16 * ((e.length / 65536 + 63) / 64) ≤ Extent.length b)))

/-- The code extent that ENTRY names. -/
def codeExtent (c : Capsule) : Option Extent := c.exts[handleIdx (c.field 0x30)]?

/-- Step 4 of R274. -/
def stepFour (c : Capsule) : Bool :=
  listRules c.exts && hierarchyOk c && (c.exts.all (extentPlaceOk c.exts)) &&
  (match codeExtent c with
   | some e => Extent.kind e == 1 && Extent.x e
   | none => false) &&
  (!bitOf c.ctl 13 || (handleOff (c.field 0xB0) % 8 == 0 && (checkExtents c.exts (c.field 0xB0) 8 .read).toBool))

/-- The owners on a granule's shared-read list (R252). -/
def sharedWith (s : State) (g : Nat) : List (BitVec 16) :=
  match gotSrl (s.granule g) with
  | 0 => []
  | n => assoc [] s.srls n

/-- Step 5 of R274 on one extent (R250, R254, R262, R278). -/
def extentOwnerOk (s : State) (p : Part) (owner : Nat) (e : Extent) : Bool :=
  match e.kind with
  | 0 => true
  | 5 =>
    let g := s.granule (granuleOf (bitsOf e.base 47 0))
    (bitsOf e.base 63 60 != 1 || gotSeal g == 0) &&
    (p.endpoints.contains e.base ||
    (match bitsOf e.base 63 60 with
     | 1 => gotState g == 1 && gotOwner g == owner
     | 2 => bitsOf e.base 19 16 == p.no
     | _ => false))
  | k =>
    let gs := granulesOf e.base e.length
    let seals := gs.map fun g => gotSeal (s.granule g)
    let keyId := fun (n : Nat) => Memory.readLE (assoc ([] : Memory) s.seals n) 0x28 4
    (gs.all fun g => gotState (s.granule g) == 1 && gotOwner (s.granule g) == e.ksel) &&
    (e.ksel == owner || (!e.w && gs.all fun g => (sharedWith s g).contains (BitVec.ofNat 16 owner))) &&
    (if k = 3 then (seals.all (· != 0)) && seals.all fun n => keyId n == keyId (seals.headD 0)
     else seals.all (· == 0))

/-- What keeps admission from going on with a head: a status, or a home slice in retention, whose exit it waits for (R259, R274). -/
inductive AdmitHalt where
  | refused (code : Code)
  | waits
deriving DecidableEq, Repr

/-- Step 6 of R274: the digest of the code extent, from the code-identity cache or from memory (R276); none while it waits for memory. -/
def codeDigest (part : Nat) (e : Extent) (s : State) : Option (List Byte) × State :=
  let have_ := s.codeCache.find? fun x => x.1 == e.base && x.2.1 == e.length && x.2.2.1 == e.ksel
  match have_ with
  | some x => (some (leBytes 48 x.2.2.2.toNat), s)
  | none =>
    match deviceRead part e.base e.length s with
    | (none, s) => (none, s)
    | (some bs, s) =>
      let d := Crypto.sha384 bs
      (some d, { s with codeCache := ((e.base, e.length, e.ksel, BitVec.ofNat 384 (leNat d)) :: s.codeCache).take 64 })

/-- Where the head entry of a submission ring lies (R270). -/
def Queue.headEntry (q : Queue) : Nat := q.entryAt q.headNo

/-- Does the list of a record lie in the 4 KiB entry at the head of the queue's own ring (R270, R275)? -/
def listInEntry (q : Queue) (xlist len : Nat) : Bool := decide (q.headEntry ≤ xlist) && decide (xlist + len ≤ q.headEntry + 0x1000)

/-- The descriptors of an extent list from its bytes. -/
def listOf (n : Nat) (bs : List Byte) : List Extent :=
  (List.range n).map fun i => Vector.ofFn fun k => word (leNat ((bs.drop (32 * i + 8 * k.val)).take 8))

/-- Read the extent list of a record (R275): one that lies in the entry has been read with it. -/
def readList (q : Queue) (part owner n xlist : Nat) (s : State) : Except AdmitHalt (List Extent) × State :=
  let len := 32 * n
  let g := s.granule (granuleOf xlist)
  if xlist % 256 ≠ 0 ∨ dumpBase < xlist + len ∨ granuleOf xlist ≠ granuleOf (xlist + len - 1) then (.error (.refused .recordFormat), s)
  else if listInEntry q xlist len then (.ok (listOf n (s.mem.readBytes xlist len)), s)
  else if gotState g = 1 ∧ gotOwner g = owner then
    match deviceRead part xlist len s with
    | (some bs, t) => (.ok (listOf n bs), t)
    | (none, t) => (.error .waits, t)
  else (.error (.refused .extentOwner), s)

/-- A capsule as admission builds it from a record. -/
def newCapsule (s : State) (q : Queue) (part : Nat) (record : Memory) (exts : List Extent) (key : List Byte) : Capsule :=
  { id := s.nextId, part := part, queue := q.no, pri := q.pri, record := record, exts := exts, foot := [], foot2 := [], key := keyOfBytes key,
    state := .armed, preempt := [], joins := [], commits := 0, tasks := 0, nflt := 0, tlaunch := 0, report := false, launch := none }
where keyOfBytes (l : List Byte) : BitVec 256 := Crypto.keyOf l

/-- Is a capsule with a NOTBEFORE armed, rather than launched at once (R287)? With an ARMWIN of 0 it is an ordinary one. -/
def arms (p : Part) (c : Capsule) : Bool := c.field 0xA0 != 0 && p.window != 0

/-- The release time with which step 7 compares DEADLINE: NOTBEFORE of a capsule that is armed, else the present time (R274). -/
def releaseTime (s : State) (p : Part) (c : Capsule) : Word := if arms p c then c.field 0xA0 else s.now

/-- Steps 1 to 7 of R274, in their order. -/
def verify (q : Queue) (p : Part) (e : RingEntry) (s : State) : Except AdmitHalt Capsule × State :=
  let r := e.record
  let owner := bitsOf (recCtl r) 63 48
  if !(reservedOk r && scopeOk r) then (.error (.refused .recordFormat), s)
  else match Crypto.kwUnwrap (Crypto.keyBytes Config.deviceKey) (r.readBytes 0xC8 40) with
    | none => (.error (.refused .sealFail), s)
    | some key =>
      match readList q p.no owner (bitsOf (recCtl r) 23 18 + 1) (r.readLE 0x98 8) s with
      | (.error halt, s) => (.error halt, s)
      | (.ok exts, s) =>
        let c := newCapsule s q p.no r exts key
        if Crypto.gmac key (sealIv r) (sealedBytes r exts) ≠ r.readBytes 0xF0 16 then (.error (.refused .sealFail), s)
        else if !stepFour c then (.error (.refused .recordFormat), s)
        else if !(p.owners.contains owner && exts.all (extentOwnerOk s p owner)) then (.error (.refused .extentOwner), s)
        else match codeExtent c with
          | none => (.error (.refused .recordFormat), s)
          | some x =>
            match codeDigest p.no x s with
            | (none, s) => (.error .waits, s)
            | (some d, s) =>
              if d ≠ r.readBytes 0 48 then (.error (.refused .codeMismatch), s)
              else if c.field 0xA8 ≠ 0 ∧ (c.field 0xA8).ule (releaseTime s p c) then (.error (.refused .deadlinePassed), s)
              else (.ok c, s)

/-! The footprint (R80, R81, R280, R288). -/

/-- The unit of a domain that a core lies in, as a number that orders units as R81 does. -/
def unitKey (d core : Nat) : Nat :=
  if d ≤ 3 then clusterNo core * 32 + core % 32 / 2 ^ d else if d = 4 then clusterNo core else if d = 5 then dieOf core else 0

/-- The members that this package binds of a level: at DOMAIN fabric it is one unit itself, the one with rank 0 (log 27). -/
def boundMembers (c : Capsule) (l : Nat) : Nat := if c.domain l = 7 then 1 else c.members l

/-- Choose the units of a level: the first that qualify, in walk order; their ranks follow the order of R81. -/
def pickUnits (c : Capsule) (first : Option Nat) (l : Nat) (sub : Nat → Option (List (Nat × Word))) (cores : List Nat) :
    Option (List (Nat × Word)) :=
  let keys := (cores.map (unitKey (c.domain l))).eraseDups.filter fun k => match first with
    | some f => decide (unitKey (c.domain l) f ≤ k)
    | none => true
  let got := (keys.filterMap fun k => (sub k).map fun x => (k, x)).take (boundMembers c l)
  if got.length < boundMembers c l then none
  else some ((got.map fun u =>
    let rank := got.countP fun v => decide (v.1 < u.1)
    u.2.map fun x => (x.1, x.2 ||| word (rank * 2 ^ (8 * l)))).flatten)

/-- Choose units from a level down, among cores in walk order. -/
def chooseUnits (c : Capsule) (first : Option Nat) : Nat → List Nat → Option (List (Nat × Word))
  | 0, cores => pickUnits c first 0 (fun k => (cores.find? fun x => unitKey (c.domain 0) x == k).map fun x => [(x, 0)]) cores
  | l + 1, cores =>
    pickUnits c first (l + 1) (fun k => chooseUnits c first l (cores.filter fun x => unitKey (c.domain (l + 1)) x == k)) cores

/-- The unfenced clusters of a partition in the walk order of R280. -/
def walkClusters (s : State) (p : Part) (hint : Nat) : List Nat :=
  let h := hintCluster hint
  ((List.range 4).map fun d =>
    let die := (clDie h + d) % 4
    ((List.range 11).map fun n =>
      ((List.range 32).map fun i => 32 * die + i).filter fun cl =>
        hops (32 * die + h % 32) cl == n && p.hasCluster cl && !fenced s cl).flatten).flatten

/-- The tile cores in walk order. -/
def walkCores (s : State) (p : Part) (hint : Nat) : List Nat := ((walkClusters s p hint).map (coreOrder s hint)).flatten

/-- Is a core eligible (R280)? A reserved core is one only where R288 makes it the rank-0 core; the cores of victims count as
free (R289). -/
def eligibleCore (s : State) (p : Part) (queue : Nat) (first : Option Nat) (victims : List Nat) (core : Nat) : Bool :=
  let k := s.core core
  let freed := match k.cap with
    | none => !k.clearing
    | some c => victims.contains c && k.boundRec.isEmpty
  freed && decide ((s.cluster (clusterNo core)).extbufs.length < 8) && !k.removed && !k.retest &&
  (k.claim.isNone || k.claim == some (queue, (s.queue queue).headNo)) && k.reservedFor.isNone && (!p.reserved.contains core || first == some core)

/-- Bind a footprint, and for a paired capsule the second one, among the cores that a test admits. -/
def bindAmong (s : State) (p : Part) (c : Capsule) (hint : Nat) (first : Option Nat) (ok : Nat → Bool) :
    Option (List (Nat × Word) × List (Nat × Word)) :=
  let cores := (walkCores s p hint).filter ok
  match chooseUnits c first c.lvls cores with
  | none => none
  | some f =>
    if c.paired then
      let used := f.map fun x => clusterNo x.1
      (chooseUnits c none c.lvls (cores.filter fun k => !used.contains (clusterNo k))).map fun g => (f, g)
    else some (f, [])

/-- The hint of a record. -/
def Capsule.hint (c : Capsule) : Nat := (c.field 0x90).toNat

/-- A hint that names a core. -/
def hintOf (core : Nat) : Nat := dieOf core + 4 * bitsOf core 9 7 + 32 * bitsOf core 6 5 + 128 * (core % 32)

/-- A binding with a reserved core as its rank-0 core, if there is one (R288). -/
def bindReserved (s : State) (p : Part) (c : Capsule) : Option (Nat × List (Nat × Word) × List (Nat × Word)) :=
  p.reserved.findSome? fun core =>
    match bindAmong s p c (hintOf core) (some core) (eligibleCore s p c.queue (some core) []) with
    | some f => if f.1.contains (core, 0) then some (core, f) else none
    | none => none

/-- The rotation pointer of each cluster moves past the last core bound in it (R280). -/
def moveRotation (s : State) (hint : Nat) (foot : List (Nat × Word)) : State :=
  let clusters := (foot.map fun x => clusterNo x.1).eraseDups
  clusters.foldl (fun t cl =>
    match ((coreOrder s hint cl).filter fun k => foot.any fun x => x.1 == k).getLast? with
    | none => t
    | some k => t.modCluster cl fun c => { c with rot := (k % 32 + 1) % 31 }) s

/-! Launches (R281, R287, R288). -/

/-- The physical address of the handler header that ENTRY names. -/
def headerAt (c : Capsule) : Option Nat := (checkExtents c.exts (c.field 0x30) 4 .exec).toOption

/-- The tile count in the header, as admission reads it at the launch, and the state with what the read of its line found (R256). -/
def headerCount (c : Capsule) (s : State) : Nat × State :=
  match headerAt c with
  | some pa =>
    let (bs, t) := outBytes pa 1 (readLines c.part pa 4 s)
    (leNat bs % 16 + 1, t)
  | none => (1, s)

/-- The launch message (R281): to the core with rank 0 at every level. -/
def launchMessage (c : Capsule) (tiles : Nat) : Msg :=
  let entry := c.field 0x30
  { kind := .launch, cap := c.id, entry := entry, dest := word (c.lvls * 2 ^ 45),
    payload := Vector.ofFn fun i => c.field (0x40 + 8 * i.val), tile := none, src := 0x1FFF, ranks := 0, sender := none, bound := none,
    tiles := tiles, hint := 0, paired := c.paired }

/-- Release the launch message (R281, R287). -/
def releaseLaunch (id : Nat) (s : State) : State :=
  match s.cap? id with
  | none => s
  | some c =>
    match c.launch with
    | none => s
    | some m =>
      { s with net := s.net ++ [m] }.modCap id fun c => { c with launch := none, tlaunch := s.now, state := .running }

/-- Arming at a reserved core fetches the header and the first 256 bytes of code into its cluster's read-only cache (R288); the launch message
refreshes those copies when the capsule's first task starts, before which no copy is filled (R189; DEDUCED, log 111). -/
def warmCode (c : Capsule) (core : Nat) (s : State) : State :=
  match checkExtents c.exts (c.field 0x30) 4 .exec with
  | .error _ => s
  | .ok pa =>
    (unitsOf 256 pa 260).foldl (fun t l => t.modCluster (clusterNo core) fun k =>
      if k.ro.any fun x => x.line == l && x.cap == c.id then k else { k with ro := { cap := c.id, line := l, data := lineBytes t l } :: k.ro }) s

/-- The claims of a head end when it launches (R289), and other messages may take those cores; those of an earlier head that was refused
stand for their 1 ms. -/
def endClaims (queue head : Nat) (s : State) : State :=
  let mine := (s.cores.filter fun k => k.claim == some (queue, head)).map Core.id
  let s := { s with cores := s.cores.map fun (k : Core) => if k.claim = some (queue, head) then { k with claim := none } else k }
  mine.foldl (fun t k => admitWaiting k (wakeFootprint (clusterNo k) t)) s

/-- Step 10 of R274: the extents are loaded in every footprint cluster, and the launch is released or armed. -/
def launch (c : Capsule) (foot : List (Nat × Word) × List (Nat × Word)) (reserved : Option Nat) (hint : Nat) (armed : Bool) (s : State) :
    State :=
  let head := (s.queue c.queue).headNo
  let c := { c with foot := foot.1, foot2 := foot.2 }
  let (tiles, s) := headerCount c s
  let c := { c with launch := some (launchMessage c tiles) }
  let s := moveRotation s hint (foot.1 ++ foot.2)
  let clusters := ((foot.1 ++ foot.2).map fun x => clusterNo x.1).eraseDups
  let s := clusters.foldl (fun t cl => t.modCluster cl fun k => { k with extbufs := k.extbufs ++ [c.id] }) s
  let s := { s with caps := s.caps ++ [c], nextId := s.nextId + 1 }
  let s := match reserved with
    | none => s
    | some core => warmCode c core (s.modCore core fun k => { k with reservedFor := some c.id })
  let s := s.modQueue c.queue fun q => { q.pop with progress := s.clock }
  let s := if armed then s else releaseLaunch c.id s
  endClaims c.queue head s

/-! ADMIT_HEAD (R274). -/

/-- Hold the head of a queue (R274, R279, R280, R287). The time of R289 counts from the first hold of this head for its footprint,
across the releases in which its binding is tried anew (log 37). -/
def holdHead (n why : Nat) (s : State) : State :=
  s.modQueue n fun q => { q with held := true, why := why, heldAt := if why = 3 ∧ q.heldAt = none then some s.clock else q.heldAt }

/-- Refuse the head of a queue: a completion record with the status (R273, R274). -/
def refuseHead (n : Nat) (code : Code) (e : RingEntry) (s : State) : State :=
  let s := writeCompletion n { status := code.num, ctag := word (e.record.readLE 0xC0 8) } s
  s.modQueue n fun q => q.pop

/-- Watches in use on a die (R279). -/
def watchesOn (s : State) (die : Nat) : Nat :=
  s.queues.countP fun q => q.held && q.why == 1 && q.watched && homeDie s (bitsOf q.gatest.toNat 47 0) == die

/-- What admission finds of a head's gate (R279): it is open, its word is below the threshold, or its home slice is in retention (R259). -/
inductive GateView where
  | passed
  | below (pa : Nat)
  | waits
deriving DecidableEq, Repr

/-- Step 8 of R274: the gate word is read, and compared with the threshold (R256, R279). -/
def gateHolds (c : Capsule) (s : State) : GateView × State :=
  if bitOf c.ctl 13 then
    match checkExtents c.exts (c.field 0xB0) 8 .read with
    | .error _ => (.passed, s)
    | .ok pa =>
      match deviceRead c.part pa 8 s with
      | (none, t) => (.waits, t)
      | (some bs, t) => (if leNat bs < (c.field 0xB8).toNat then .below pa else .passed, t)
  else (.passed, s)

/-- The head stays selected, and is examined anew. -/
def keepSelected (n : Nat) (s : State) : State := { s with selected := n :: s.selected }

/-- Steps 8 to 10 of R274; while the slice of the gate or of the header is in retention, admission waits (R259). -/
def placeHead (n : Nat) (p : Part) (c : Capsule) (e : RingEntry) (s : State) : State :=
  match gateHolds c s with
  | (.waits, s) => keepSelected n s
  | (.below pa, s) =>
    let free := decide (watchesOn s (homeDie s pa) < 4096)
    (holdHead n 1 s).modQueue n fun q => { q with gatest := word (2 ^ 63 + pa), watched := free }
  | (.passed, s) =>
    let units := ((headerAt c).toList.map fun pa => homeUnits s pa 4).flatten
    if asleep s units then keepSelected n (startExit units s)
    else
    let s := noteUse units s
    let armed := arms p c
    match (if armed && p.klass == 1 then bindReserved s p c else none) with
    | some (core, f) => launch c f (some core) (hintOf core) true s
    | none =>
      match bindAmong s p c c.hint none (eligibleCore s p n none []) with
      | some f => launch c f none c.hint armed s
      | none =>
        match bindAmong s p c c.hint none (fun _ => true) with
        | some _ => holdHead n 3 s
        | none => refuseHead n .noFootprint e s

/-- Must the head wait for its time (R274, R287)? -/
def timeHolds (s : State) (p : Part) (record : Memory) : Bool :=
  let t := record.readLE 0xA0 8
  let armed := s.caps.countP fun c => c.part == p.no && c.state == .armed
  decide (s.now.toNat + p.window < t) || (t != 0 && p.window != 0 && decide (64 ≤ armed))

/-- What admission reads of the head entry: the record, and an extent list that the entry holds (R275, R299). -/
def entryReads (q : Queue) (e : RingEntry) : List (Nat × Nat) :=
  let len := 32 * (bitsOf (recCtl e.record) 23 18 + 1)
  (q.headEntry, 0x100) :: if listInEntry q (e.record.readLE 0x98 8) len then [(e.record.readLE 0x98 8, len)] else []

/-- Is a sector of the head entry that admission reads poisoned (R299)? -/
def entryPoisoned (q : Queue) (e : RingEntry) (s : State) : Bool :=
  (entryReads q e).any fun x => (unitsOf 32 x.1 x.2).any fun n => s.poison.any fun p => p.1 == n

/-- Admission reads the head entry: memory errors there are met now (R256, R299). -/
def meetEntry (q : Queue) (pn : Nat) (e : RingEntry) (s : State) : State :=
  (entryReads q e).foldl (fun t x => readLines pn x.1 x.2 t) s

/-- The home slices of what admission reads of the head entry (R259). -/
def entryUnits (q : Queue) (e : RingEntry) (s : State) : List Nat := ((entryReads q e).map fun x => homeUnits s x.1 x.2).flatten

/-- Admission examines the head of a selected queue; while a slice that it reads is in retention, it waits (R259). Poison in the entry, or an error that its read meets there, tears the queue down (R299). -/
def admitHead (n : Nat) (s : State) : State :=
  if !s.selected.contains n then s
  else
    let s := { s with selected := s.selected.filter (· != n) }
    let q := s.queue n
    match q.head? s, q.partition with
    | some e, some pn =>
      if !q.en || q.held || s.inReset pn || q.tearing then s
      else if asleep s (entryUnits q e s) then keepSelected n (startExit (entryUnits q e s) s)
      else
        let s := meetEntry q pn e (noteUse (entryUnits q e s) s)
        let p := s.part pn
        if entryPoisoned q e s then tearDown n none s
        else if timeHolds s p e.record then holdHead n 2 s
        else match verify q p e s with
          | (.error .waits, t) => keepSelected n t
          | (.error (.refused code), t) => refuseHead n code e t
          | (.ok c, t) => placeHead n p c e t
    | _, _ => s

/-- ADMIT_HEAD (R274 to R281, R287, R288). -/
def execAdmitHead (queue : Nat) (s : State) : Answer := event (admitHead queue) s

/-- ARMING_WINDOW_ENTRY (R287): a head held for its time whose NOTBEFORE has come within the window is eligible again. -/
def enterWindow (n : Nat) (s : State) : State :=
  let q := s.queue n
  match q.head? s, q.partition with
  | some e, some p => if q.held = true ∧ q.why = 2 ∧ timeHolds s (s.part p) e.record = false then s.modQueue n Queue.release else s
  | _, _ => s

/-- ARMING_WINDOW_ENTRY (R287). -/
def execArmingWindowEntry (queue : Nat) (s : State) : Answer := event (enterWindow queue) s

/-- LAUNCH_RELEASE (R287): Sumac has reached NOTBEFORE. -/
def launchDue (id : Nat) (s : State) : State :=
  match s.cap? id with
  | none => s
  | some c => if c.state = .armed ∧ (c.field 0xA0).ule s.now = true then releaseLaunch id s else s

/-- LAUNCH_RELEASE (R281, R287, R288). -/
def execLaunchRelease (cap : Nat) (s : State) : Answer := event (launchDue cap) s

/-- GATE_POLL (R279): a queue without a watch reads its gate again every 10 microseconds. -/
def pollGate (n : Nat) (s : State) : State :=
  let q := s.queue n
  match q.head? s with
  | some e =>
    if q.held = true ∧ q.why = 1 ∧ q.watched = false then
      match deviceRead (q.partition.getD 0) (bitsOf q.gatest.toNat 47 0) 8 s with
      | (some bs, t) => if e.record.readLE 0xB8 8 ≤ leNat bs then t.modQueue n Queue.release else t
      | (none, t) => t
    else s
  | none => s

/-- GATE_POLL (R279). -/
def execGatePoll (queue : Nat) (s : State) : Answer := event (pollGate queue) s

/-- Copy a slot into the ring's tail, as it stands, and set its FREE bit (R271). -/
def copySlot (n k : Nat) (s : State) : State :=
  let q := s.queue n
  let s := enqueue n (q.slots.readBytes (256 * k) 256) [] s
  s.modQueue n fun q => { q with free := setBit q.free k true }

/-- PENDING_SLOT_COPY (R271, R219): an entry is free for the pending slot that came first, or for a child that waits. -/
def copyPending (n : Nat) (s : State) : State :=
  let q := s.queue n
  match q.pending with
  | k :: rest => if q.full then s else copySlot n k (s.modQueue n fun q => { q with pending := rest })
  | [] => releaseHeld s

/-- PENDING_SLOT_COPY (R219, R271). -/
def execPendingSlotCopy (queue : Nat) (s : State) : Answer := event (copyPending queue) s

/-! Pre-emption (R235, R289). -/

/-- Raise pre-emption for a capsule (R235): it is pending until every task that runs now has ended; a wait counts its cycles from
the moment at which pre-emption became pending for its task (R39). -/
def raisePreemption (id : Nat) (s : State) : State :=
  let ids := s.hartsOf id
  let old := match s.cap? id with
    | some c => c.preempt
    | none => []
  let s := s.modCap id fun c => { c with preempt := (c.preempt ++ ids).eraseDups }
  (ids.filter fun h => !old.contains h).foldl (fun t h => t.modHart h fun x => { x with preemptAt := s.clock }) s

/-- Victims for a head, in the order in which they are taken: ascending priority, then the latest launch first (R289). -/
def victimOrder (s : State) (p v : Nat) : List Capsule :=
  let l := s.caps.filter fun c => c.part == p && c.pri < v && c.state == .running
  let before := fun (a b : Capsule) => decide (a.pri < b.pri) || (a.pri == b.pri && b.tlaunch.ult a.tlaunch)
  l.foldl (fun acc c => acc.filter (fun x => !before c x) ++ c :: acc.filter (before c)) []

/-- The shortest prefix of the victims whose cores, with the free ones, allow the head's binding. -/
def chooseVictims (bindable : List Nat → Bool) : List Nat → List Nat → Option (List Nat)
  | taken, [] => if bindable taken then some taken else none
  | taken, c :: cs => if bindable taken then some taken else chooseVictims bindable (taken ++ [c]) cs

/-- Claim the footprint cores of a victim for a head, but for those that R158 keeps bound to the victim and those that a claim holds already. -/
def claimCores (queue id : Nat) (s : State) : State :=
  match s.cap? id with
  | none => s
  | some c =>
    (((c.foot ++ c.foot2).map Prod.fst).filter fun k => (s.core k).boundRec.isEmpty && (s.core k).claim.isNone).foldl
      (fun t k => t.modCore k fun x => { x with claim := some (queue, (s.queue queue).headNo), claimAt := s.clock }) s

/-- Is a search for victims due (R289)? The head of an inference partition has been held for its footprint for a further 20
microseconds, and no core is claimed for this head. -/
def searchDue (s : State) (q : Queue) (p : Part) : Bool :=
  q.held && q.why == 3 && p.klass == 0 && (s.cores.all fun k => k.claim != some (q.no, q.headNo)) &&
  match q.heldAt with
  | some t => decide (20000 * (q.looked + 1) ≤ s.clock - t)
  | none => false

/-- PREEMPTION_SEARCH (R289): a head of an inference partition that has been held for its footprint for 20 microseconds, and again
after each further 20. -/
def searchVictims (n : Nat) (s : State) : State :=
  let q := s.queue n
  match q.head? s, q.partition with
  | some e, some pn =>
    let p := s.part pn
    if searchDue s q p then
      let s := s.modQueue n fun q => { q with looked := (s.clock - q.heldAt.getD 0) / 20000 }
      let c := newCapsule s q pn e.record [] []
      let bindable := fun (vs : List Nat) => (bindAmong s p c c.hint none (eligibleCore s p n none vs)).isSome
      match chooseVictims bindable [] ((victimOrder s pn q.pri).map Capsule.id) with
      | none => s
      | some vs => vs.foldl (fun t id => claimCores n id (raisePreemption id t)) s
    else s
  | _, _ => s

/-- PREEMPTION_SEARCH (R235, R289). -/
def execPreemptionSearch (queue : Nat) (s : State) : Answer := event (searchVictims queue) s

/-- CLAIM_EXPIRY (R289): a claim of 1 ms ends, and continuations that waited for the core may take it. -/
def expireClaim (core : Nat) (s : State) : State :=
  let k := s.core core
  if k.claim.isSome = true ∧ 1000000 ≤ s.clock - k.claimAt then
    admitWaiting core (wakeFootprint (clusterNo core) (s.modCore core fun k => { k with claim := none }))
  else s

/-- CLAIM_EXPIRY (R280, R289). -/
def execClaimExpiry (core : Nat) (s : State) : Answer := event (expireClaim core) s

/-! Watchdogs (R91, R303, R304). -/

/-- The running tasks of a capsule whose open chunks were overtaken (R204): of a pair that is squashed as one, one copy (R296). -/
def overtakenTasks (s : State) (id : Nat) : List Nat :=
  let late := (s.harts.filter fun h => h.kind == .task && h.cap == id && h.run != .ended && overtaken h && !h.chunk.exclusive)
  (late.filter fun h => late.all fun x => h.partner != some x.id || decide (h.id < x.id)).map Hart.id

/-- JOIN_STALL (R91): the report names the earliest registered cell; the others count in NFLT. The check of R204 comes first: a chunk of
the capsule that was overtaken is squashed, and the fault is not taken (DEDUCED, log 108). -/
def joinStall (id : Nat) (s : State) : State :=
  match s.cap? id with
  | none => s
  | some c =>
    match c.state, c.joins.filter (stalled s c) with
    | .running, r :: rest =>
      let late := overtakenTasks s id
      if late ≠ [] then onHarts late (onPair squash) s
      else (abortCapsule id Code.joinStall.num (joinReport s c r) s).modCap id fun c => { c with nflt := Nat.min 65535 (c.nflt + rest.length) }
    | _, _ => s

/-- JOIN_STALL (R91, R303, R345). -/
def execJoinStall (cap : Nat) (s : State) : Answer := event (joinStall cap) s

/-- DEADLINE (R303): Sumac has reached the capsule's DEADLINE. -/
def deadline (id : Nat) (s : State) : State :=
  match s.cap? id with
  | none => s
  | some c =>
    let d := c.field 0xA8
    match c.state with
    | .ending _ => s
    | _ => if d ≠ 0 ∧ d.ule s.now = true then abortCapsule id Code.deadline.num (bareReport s id Code.deadline.num d) s else s

/-- DEADLINE (R303, R345). -/
def execDeadline (cap : Nat) (s : State) : Answer := event (deadline cap) s

/-- The mask of a lease wait and the clock of its beginning: MLEASE's or a resumption's place in the queue (R162, R184). A task that was bound
since waits no more (R243). -/
def leaseWaitOf (s : State) (h : Hart) : Option (Nat × Nat) :=
  ((s.cluster (clusterNo h.core)).leaseWait.find? fun w => w.1 == h.id).map fun w => (w.2.1.toNat, w.2.2)

/-- LEASE_OVERRUN (R303): 1 ms of waiting in MLEASE or in a resumption bind. -/
def leaseOverrun (id : Nat) (s : State) : State :=
  match s.hart? id with
  | none => s
  | some h =>
    match h.run, leaseWaitOf s h with
    | .blocked .lease, some w => if 1000000 ≤ s.clock - w.2 then unitFault h.cap id .leaseOverrun (word w.1) s else s
    | _, _ => s

/-- LEASE_OVERRUN (R303, R345). -/
def execLeaseOverrun (h : Nat) (s : State) : Answer := event (leaseOverrun h) s

/-- Does a copy wait for a ring slot to be popped (R303)? -/
def slotWait (s : State) (cl : Nat) (c : Copy) : Bool :=
  c.mode.toRing && (c.done * c.esize + c.part) % ringSlot ((s.cluster cl).ring (c.dst.toNat % 16)).defn == 0 && !canFill s cl (c.dst.toNat % 16)

/-- ENGINE_STALL (R303): a busy channel that has delivered nothing for 1 ms. -/
def engineStall (cl n : Nat) (s : State) : State :=
  match ((s.cluster cl).chan n).copy with
  | none => s
  | some c =>
    if 1000000 ≤ s.clock - c.stamp ∧ slotWait s cl c = false then engineFault c .engineStall (word n) s else s

/-- ENGINE_STALL (R303, R345). -/
def execEngineStall (cluster chan : Nat) (s : State) : Answer := event (engineStall cluster chan) s

/-- QUEUE_STALL (R303, R304): 10 ms without a progress event. -/
def queueStall (n : Nat) (s : State) : State :=
  let q := s.queue n
  if (s.inFlight n).isEmpty = false ∧ q.tearing = false ∧ 10000000 ≤ s.clock - q.progress then tearDown n (some .queueStall) s else s

/-- QUEUE_STALL (R299, R303, R304). -/
def execQueueStall (queue : Nat) (s : State) : Answer := event (queueStall queue) s

/-- COMPLETION_WRITE_ERROR (R299): the host link completes a completion record write with an error. -/
def execCompletionWriteError (queue : Nat) (s : State) : Answer := event (tearDown queue none) s

end Sys2Proof.Machine
end

