-- ==== Sys2Proof/Machine/System.lean ====
section
/-! DEFINITION. Traps, system registers, SPAWN, the seal and fault queries, the diagnostic window, the MMU, the keys and the
crypto instructions (spec/10_system_seal_instructions.md R212 to R225, spec/17 R314 to R317). -/

namespace Sys2Proof.Machine

/-- A scalar source of the SYS layout: no wait bit, it blocks until full (R212). -/
def sysSrc (r : SReg) : Src := .s r false

/-! TRAP (R213). -/

/-- TRAP (R213). -/
def opTrap (c : BitVec 16) : Op :=
  { body := fun s =>
      if c.toNat < 0x8000 then faultAt .trap (word c.toNat) s
      else if s.isTask && !s.hart.migrated then faultOf .privileged s
      else if s.isTask then .ok (s.mod fun h => { h with run := .serving })
      else .ok (serviceResults s) }

/-- TRAP (R213): the fault TRAP, or a service request of a migrated task, which waits for the firmware. Firmware that issues one is its own
server (log 17). -/
def execTrap (c : BitVec 16) (s : State) : Answer := issue (.trap c) (opTrap c) s

/-! System registers (R215, R216). -/

/-- Who may name a system register (R214, R216): a number that the access does not know is ILLEGAL whoever names it (R50, R215). -/
def sysPrivilege (known : Nat → Bool) (n : Nat) : Privilege := if 0x8000 ≤ n ∧ known n = true then .service else .open_

/-- WHERE: the core and the partition (R215). -/
def whereWord (s : State) : Word := word (s.hart.core % 4096 + s.partition % 16 * 65536)

/-- The value of a system register, and the state after TIME was read. FLG waits for its writers (R342). -/
def sysRead (n : Nat) (s : State) : Run (Word × State) :=
  let c := s.cluster s.here
  match n with
  | 0x0000 => do
    settledFlg s
    .ok (s.hart.r.flg, s)
  | 0x0001 => .ok (s.hart.ranks, s)
  | 0x0002 => .ok (word (leaseNow s.clock s.hart).toNat, s)
  | 0x0003 => .ok (word ((leaseNow s.clock s.hart).toNat / 2 ^ 64), s)
  | 0x0004 => .ok (readTime s)
  | 0x0005 => .ok (whereWord s, s)
  | 0x0006 => .ok (match s.capsule with
      | some k => k.nonce
      | none => 0, s)
  | 0x0007 => .ok (word s.hart.sdist, s)
  | 0x0008 => .ok (flagWord (preemptPending s), s)
  | 0x8000 => .ok (c.fwvec, s)
  | 0x8001 => .ok (c.fwcode, s)
  | 0x8002 => .ok (c.fwpc, s)
  | 0x8003 => .ok (c.fwdetail, s)
  | 0x8010 => .ok (c.mmuctl, s)
  | 0x8020 => .ok (c.diagstat, s)
  | 0x8021 => .ok (c.summary, s)
  | 0x8030 => .ok (c.clstat, s)
  | _ => faultOf .illegal s

/-- SYSRD (R215, R216). -/
def opSysrd (d : SReg) (n : BitVec 16) : Op :=
  { priv := sysPrivilege readableSysreg n.toNat,
    body := fun s => do
      let (v, s) ← sysRead n.toNat s
      .ok (writeS d v s) }

/-- SYSRD (R215, R216). -/
def execSysrd (d : SReg) (n : BitVec 16) (s : State) : Answer := issue (.sysrd d n) (opSysrd d n) s

/-! The end of the self test (R313, R327, R332). -/

/-- Has a cluster a summary, or is it fenced? -/
def tested (s : State) (cl : Nat) : Bool := (s.cluster cl).summarised || bitOf (s.cluster cl).clstat.toNat 0

/-- The boot is over once every cluster has a summary or is fenced (R313): the crash dump region is zeroed (R301), the reset is
complete, and configuration opens (R327). -/
def bootProgress (s : State) : State :=
  if s.phase = .booting ∧ s.saffron.testAt.isSome = true ∧ (List.range 128).all (tested s) = true then
    { s with phase := .configOpen
             resetting := none
             mem := s.mem.clear dumpBase 0x10000000 }
  else s

/-- A write of SUMMARY reaches Saffron (R223, R317): the first is recorded, with STATE 0x03 in its place while an injection is
active; a later one is logged as SUMMARY_REPEAT. STATE 0x03 fences the cluster. -/
def deliverSummary (cl : Nat) (v : Word) (s : State) : State :=
  let c := s.cluster cl
  if c.summarised then s.logPkg { code := Code.summaryRepeat.num, kind := 1, core := serviceCore cl, detail := v }
  else
    let v := word (bitsOf v.toNat 31 8 * 256)
    let inj := bitOf c.diagstat.toNat 1
    let v := if inj then word (0x03000000 + v.toNat % 2 ^ 24) else v
    let s := s.modCluster cl fun c => { c with summary := v, summarised := true }
    bootProgress (if inj ∨ bitsOf v.toNat 31 24 = 3 then fenceOther cl s else s)

/-- SUMMARY_WRITE (R223). -/
def execSummaryWrite (cluster : Nat) (value : Word) (s : State) : Answer := event (deliverSummary cluster value) s

/-- CLSTAT as a write leaves it (R216, R347): bit 2 is ignored; FENCED stays while the mark of FENCE is set; a write that clears
SUSPECT empties the mismatch window. -/
def writeClstat (v : Word) (c : Cluster) : Cluster :=
  let f := bitOf v.toNat 0
  let keep := if f || c.mark then 1 else 0
  { c with clstat := word (c.clstat.toNat / 4 % 2 * 4 + bitsOf v.toNat 1 1 * 2 + keep),
           fencedOther := f && (c.fencedOther || !bitOf c.clstat.toNat 0),
           mism := if bitOf c.clstat.toNat 1 && !bitOf v.toNat 1 then [] else c.mism }

/-- Write a system register (R215, R216). -/
def sysWrite (n : Nat) (v : Word) (s : State) : Run State :=
  let cl := s.here
  match n with
  | 0x0000 => do
    settledFlg s
    .ok (s.modRegs fun r => { r with flg := writeFlg v })
  | 0x8000 => .ok (s.modCluster cl fun c => { c with fwvec := v })
  | 0x8001 => .ok (s.modCluster cl fun c => { c with fwcode := v &&& 0xFFFF })
  | 0x8010 => .ok (s.modCluster cl fun c => { c with mmuctl := v &&& 1 })
  | 0x8020 => .ok (s.modCluster cl fun c => { c with diagstat := v })
  | 0x8021 => .ok (deliverSummary cl v s)
  | 0x8030 => .ok (wakeFootprint cl (s.modCluster cl (writeClstat v)))
  | _ => faultOf .illegal s

/-- SYSWR (R215, R216). -/
def opSyswr (a : SReg) (n : BitVec 16) : Op :=
  { priv := sysPrivilege writableSysreg n.toNat, srcs := [sysSrc a], body := fun s => sysWrite n.toNat (s.sreg a) s }

/-- SYSWR (R215, R216). -/
def execSyswr (a : SReg) (n : BitVec 16) (s : State) : Answer := issue (.syswr a n) (opSyswr a n) s

/-! SPAWN (R217 to R219). -/

/-- The control word of SPAWN passes (R217, R218). -/
def spawnControlOk (s : State) (ctl : Nat) : Bool :=
  bitsOf ctl 63 23 == 0 && !bitOf ctl 7 && (bitOf ctl 6 || (s.queue (bitsOf ctl 22 8)).partition == some s.partition)

/-- SPAWN (R217, R218): the image and the entries are read, then checked, and one outgoing message is buffered. -/
def opSpawn (d a b : SReg) (w v : Bool) : Op :=
  { srcs := srcDAB d a b w v,
    body := fun s => do
      let ctl := (s.sreg d).toNat
      let n := ctl % 64 + 1
      let ha := s.sreg a
      let hb := s.sreg b
      let (pa, s) ← reachTask ha 256 .read s
      let (image, s) ← loadAt pa 256 s
      let (pb, s) ← reachTask hb (16 * n) .read s
      let (entries, s) ← loadAt pb (16 * n) s
      let image := Memory.ofBytes image
      ensureAt (spawnControlOk s ctl && reservedOk image) .spawnRights 0xFF s
      match attenuateAll s.extents false false 0 ((List.range n).map fun i => attenuationAt (Memory.ofBytes entries) i) with
      | .error i => faultAt .spawnRights (word i) s
      | .ok exts =>
        bufferOut (.spawn { cap := s.hart.cap, queue := if bitOf ctl 6 then none else some (bitsOf ctl 22 8), image := image, exts := exts }) s }

/-- SPAWN (R217 to R219). -/
def execSpawn (d a b : SReg) (w v : Bool) (s : State) : Answer := issue (.spawn d a b w v) (opSpawn d a b w v) s

/-! Seal and fault queries (R220). -/

/-- Does the task hold a lease with a valid B-sealed ring (R220)? -/
def sealedRingHeld (s : State) : Bool :=
  holdsLease s && (List.range 16).any fun i =>
    let d := ((s.cluster s.here).ring i).defn
    bitOf (leaseMask s.hart.lease) i && ringV d && ringKind d == 2

/-- The seal state of an extent (R220). -/
def sealState (x : Nat) (s : State) : Word :=
  match s.extents[x]? with
  | none => 0
  | some e =>
    let seald := e.kind == 3
    let keyed := seald && keyInSlot s.here s.hart.id e.base s
    word ((if seald then e.length / 65536 * 65536 else 0) + (if keyed then 4 else 0) + (if sealedRingHeld s then 2 else 0) +
      (if seald then 1 else 0))

/-- SEALQ (R220). -/
def opSealq (d a : SReg) : Op := opScalar d [sysSrc a] fun s => sealState (handleIdx (s.sreg a)) s

/-- SEALQ (R220). -/
def execSealq (d a : SReg) (s : State) : Answer := issue (.sealq d a) (opSealq d a) s

/-- The 512 bytes that FREP writes: zero when RDL in s0 is zero (R84, R220). -/
def retainedReport (s : State) : List Byte :=
  if bitsOf (s.sreg 0).toNat 58 57 = 0 then List.replicate 512 0 else s.hart.report.readBytes 0 512

/-- FREP (R220). It reads s0, which blocks until full. -/
def opFrep (a : SReg) : Op :=
  { srcs := [sysSrc a, sysSrc 0],
    body := fun s => do
      let x := (s.sreg a).toNat
      ensure (x % 64 == 0 && decide (x + 512 ≤ 65536)) .windowIndex s
      ensure (!regionHeld x 512 s) .ownerBusy s
      storePad x (retainedReport s) s }

/-- FREP (R220). -/
def execFrep (a : SReg) (s : State) : Answer := issue (.frep a) (opFrep a) s

/-- The state of a cluster as MSTAT gives it (R220). -/
def clusterState (cl : Nat) (s : State) : Word :=
  let c := s.cluster cl
  word ((if rotation cl then 1 else 0) + bitsOf c.clstat.toNat 0 0 * 2 + bitsOf c.clstat.toNat 1 1 * 4 + c.share % 65536 * 65536 +
    Nat.min 0xFFFF (mismatchWindow s cl).length * 2 ^ 32)

/-- MSTAT (R220). -/
def opMstat (d : SReg) : Op := opScalar d [] fun s => clusterState s.here s

/-- MSTAT (R220). -/
def execMstat (d : SReg) (s : State) : Answer := issue (.mstat d) (opMstat d) s

/-! The diagnostic window (R221, R314 to R316). -/

/-- A diagnostic address. -/
structure DiagAddr where
  space : Nat
  iarr : Nat
  core : Nat
  bank : Nat
  spare : Nat
  row : Nat
deriving DecidableEq, Repr

/-- The fields of a diagnostic address (R221), or none when a reserved field, a core or a row makes it raise SEC_ADDR. -/
def diagAddr (a : Word) : Option DiagAddr :=
  let n := a.toNat
  let d : DiagAddr := { space := bitsOf n 63 60, iarr := bitsOf n 52 52, core := bitsOf n 51 47, bank := bitsOf n 46 43,
                        spare := bitsOf n 16 16, row := bitsOf n 15 0 }
  let rows := decide (d.core < 31) && (if d.spare = 1 then decide (d.row < 4) else decide (d.row < 512))
  let ok := bitsOf n 59 53 == 0 && bitsOf n 42 17 == 0 && match d.space with
    | 0 | 1 => d.iarr == 0 && rows
    | 2 => d.iarr == 0 && d.spare == 0 && decide (d.row < 512)
    | 4 | 5 => rows
    | 6 => d.iarr == 0 && d.core == 0 && d.spare == 0 && decide (d.row < 8192)
    | _ => false
  if ok then some d else none

/-- The physical row that an address of SPACE 0, 1, 4 or 5 names. -/
def DiagAddr.key (d : DiagAddr) : Nat := rowKey (if d.space < 2 then d.space else d.iarr) d.core d.bank d.spare d.row

/-- The scratchpad word that a physical row of array 0 holds for ordinary accesses, if it holds one (R222, R315). -/
def padWordOf (table : Vector (BitVec 32) 16) (core bank spare row : Nat) : Option Nat :=
  let word := fun (r : Nat) => (Config.padRow.symm (Fin.ofNat 8192 (512 * bank + r))).val
  if spare = 0 then (if remapped table 0 core bank row = rowKey 0 core bank 0 row then some (word row) else none)
  else match (table.toList.map Repair.of).find? fun r => r.v && r.arr == 0 && r.core == core && r.bank == bank && r.spr == row with
    | some r => some (word r.row)
    | none => none

/-- The data that a physical row stores. -/
def storedRow (cl : Nat) (d : DiagAddr) (s : State) : Word :=
  let k := s.core (coreIn cl d.core)
  match (if d.space = 0 then padWordOf (s.cluster cl).repair d.core d.bank d.spare d.row else none) with
  | some w => word (k.pad.readLE (8 * w) 8)
  | none => word (k.rows.readLE (8 * d.key) 8)

/-- A diagnostic read of a word returns its 64 data bits as stored (R221): a word in error that no access has met is not corrected, and which of
its bits are wrong is free (log 7). -/
def uncorrected (at_ : SramPlace → Bool) (v : Word) (s : State) : Word × State := if s.sram.any fun f => at_ f.place then s.free else (v, s)

/-- What a read of a physical row returns under the injection entry (R221, R314). -/
def readRow (cl : Nat) (d : DiagAddr) (s : State) : Word × State :=
  let (v, s) := match (if d.space = 0 then padWordOf (s.cluster cl).repair d.core d.bank d.spare d.row else none) with
    | some w => uncorrected (·.onPad (coreIn cl d.core) (· == w)) (storedRow cl d s) s
    | none => uncorrected (·.onRow (coreIn cl d.core) (· == d.key)) (storedRow cl d s) s
  (match (s.cluster cl).inj with
    | some (key, one, mask) => if key = d.key then (if one then v ||| mask else v &&& ~~~mask) else v
    | none => v, s)

/-- Store a physical row with fresh check bits (R221); a poisoned scratchpad sector takes it as it takes other writes of a part (R261). -/
def writeRow (cl : Nat) (d : DiagAddr) (v : Word) (s : State) : State :=
  let core := coreIn cl d.core
  match (if d.space = 0 then padWordOf (s.cluster cl).repair d.core d.bank d.spare d.row else none) with
  | some w => (settlePad s.partition core [(8 * w, 8)] s).modCore core fun k => { k with pad := k.pad.writeLE (8 * w) 8 v.toNat }
  | none => { s with sram := s.sram.filter fun f => !f.place.onRow core (· == d.key) }.modCore core fun k => { k with rows := k.rows.writeLE (8 * d.key) 8 v.toNat }

/-- Is a lease of the cluster held, or a scrub incomplete (R221)? -/
def bufferBusy (s : State) (cl : Nat) : Bool :=
  (s.harts.any fun h => clusterNo h.core == cl && leaseHeld h.lease) || (s.cluster cl).rings.toList.any fun r => r.scrub.isSome

/-- The word index of SPACE 2 (R221). -/
def DiagAddr.bufferIndex (d : DiagAddr) : Nat := d.row * 512 + d.core * 16 + d.bank

/-- Does a byte of the operand buffer lie in a B-sealed ring, or in one that waits for its scrub (R221)? -/
def inSealedRing (c : Cluster) (a : Nat) : Bool :=
  c.rings.toList.any fun r => ringV r.defn && ringKind r.defn == 2 && decide (ringBase r.defn ≤ a) &&
    decide (a < ringBase r.defn + ringCount r.defn * ringSlot r.defn)

/-- SEALED_DEBUG: DIAGSTAT[0] and an entry of the log of the cluster's partition (R221, R227), or of the package log for a cluster of none (log
61). -/
def sealedDebug (cl : Nat) (s : State) : State :=
  let e : Event := { code := Code.sealedDebug.num, kind := 1, core := serviceCore cl }
  let t := s.modCluster cl fun c => { c with diagstat := c.diagstat ||| 1 }
  match s.clusterPart cl with
  | some p => t.logPart p e
  | none => t.logPkg e

/-- What a diagnostic read gives (R221). -/
def diagRead (d : DiagAddr) (s : State) : Run (Word × State) :=
  let cl := s.here
  match d.space with
  | 0 | 1 => if coreBusy s (coreIn cl d.core) then faultOf .diagBusy s else .ok (readRow cl d s)
  | 2 =>
    let a := 8 * d.bufferIndex
    if bufferBusy s cl then
      if inSealedRing (s.cluster cl) a then .ok (0, sealedDebug cl s) else faultOf .diagBusy s
    else do
      let s ← accessUnits [cl] s
      .ok (uncorrected (·.onBuffer cl (· == d.bufferIndex)) (word ((s.cluster cl).opbuf.readLE a 8)) s)
  | 6 => .ok (0, sealedDebug cl s)
  | _ => .ok (match (s.cluster cl).inj with
      | some (key, _, mask) => if key = d.key then mask else 0
      | none => 0, s)

/-- What a diagnostic write does (R221). -/
def diagWrite (d : DiagAddr) (v : Word) (s : State) : Run State :=
  let cl := s.here
  match d.space with
  | 0 | 1 => if coreBusy s (coreIn cl d.core) then faultOf .diagBusy s else .ok (writeRow cl d v s)
  | 2 =>
    if bufferBusy s cl then faultOf .diagBusy s
    else do
      let s ← accessUnits [cl] s
      .ok ((settleBuffer s.partition cl [(8 * d.bufferIndex, 8)] s).modCluster cl fun c => { c with opbuf := c.opbuf.writeLE (8 * d.bufferIndex) 8 v.toNat })
  | 6 => .ok (sealedDebug cl s)
  | n => .ok (s.modCluster cl fun c =>
      { c with inj := if v = 0 then none else some (d.key, n == 5, v),
               diagstat := if v = 0 then c.diagstat &&& ~~~2 else c.diagstat ||| 2 })

/-- The diagnostic address in a register, or SEC_ADDR (R221). -/
def diagOf (a : Word) (s : State) : Run DiagAddr :=
  match diagAddr a with
  | some d => .ok d
  | none => faultOf .secAddr s

/-- DIAGRD (R221). -/
def opDiagrd (d a : SReg) : Op :=
  { priv := .service, srcs := [sysSrc a],
    body := fun s => do
      let x ← diagOf (s.sreg a) s
      let (v, s) ← diagRead x s
      .ok (writeS d v s) }

/-- DIAGRD (R221). -/
def execDiagrd (d a : SReg) (s : State) : Answer := issue (.diagrd d a) (opDiagrd d a) s

/-- DIAGWR (R221). -/
def opDiagwr (d a : SReg) : Op :=
  { priv := .service, srcs := [sysSrc d, sysSrc a],
    body := fun s => do
      let x ← diagOf (s.sreg a) s
      diagWrite x (s.sreg d) s }

/-- DIAGWR (R221). -/
def execDiagwr (d a : SReg) (s : State) : Answer := issue (.diagwr d a) (opDiagwr d a) s

/-! REPAIR (R222, R315). -/

/-- The repair table with one entry replaced. -/
def setRepair (table : Vector (BitVec 32) 16) (i : Nat) (e : BitVec 32) : Vector (BitVec 32) 16 :=
  Vector.ofFn fun k => if k.val = i then e else table.get k

/-- An error of a stored word stays with the physical row that holds it (R259, R315). -/
def switchFault (core w old new : Nat) (f : SramFault) : SramFault :=
  if f.place = .pad core w then { f with place := .row core old }
  else if f.place = .row core new then { f with place := .pad core w } else f

/-- A word of scratchpad stands in another physical row from now on: it is what that row stores, with the errors in it, and the row left behind
keeps what it stored (R315). A sector that is poisoned stays so until it is written whole, as R261 has it (DEDUCED, log 154). -/
def switchPad (core w old new : Nat) (s : State) : State :=
  { s with sram := s.sram.map (switchFault core w old new) }.modCore core fun k =>
    { k with pad := k.pad.writeLE (8 * w) 8 (k.rows.readLE (8 * new) 8), rows := (k.rows.clear (8 * new) 8).writeLE (8 * old) 8 (k.pad.readLE (8 * w) 8) }

/-- The same for a word of a tile register that a context of the core has: its register and the word in it. -/
def switchTile (core : Nat) (t : TReg) (w old new : Nat) (s : State) : State :=
  let rows := (s.core core).rows
  let before := (s.tile t).data.readLE (8 * w) 8
  (s.modRegs fun r =>
    let x := r.t.get t
    { r with t := r.t.set t.val { x with data := x.data.writeLE (8 * w) 8 (rows.readLE (8 * new) 8) } t.isLt }).modCore core fun k =>
    { k with rows := (k.rows.clear (8 * new) 8).writeLE (8 * old) 8 before }

/-- The context on a core that has a physical tile register, and the register that it holds. -/
def tileOwner (s : State) (core p : Nat) : Option (Nat × TReg) :=
  (s.harts.filter fun h => h.kind == .task && h.core == core && h.run != .ended).findSome? fun h =>
    ((List.range h.ntiles).find? fun i => h.phys[i]? == some p).map fun i => (h.id, Fin.ofNat 16 (16 - h.ntiles + i))

/-- Change the table. REPAIR copies no data: what ordinary accesses reach through a row that `e` names is from now on what the new
physical row stores, in a scratchpad, and in the tile register of the task that has it (R315). A row that no task has keeps what it stored. -/
def switchRow (cl : Nat) (e : Repair) (table : Vector (BitVec 32) 16) (s : State) : State :=
  let old := remapped (s.cluster cl).repair e.arr e.core e.bank e.row
  let new := remapped table e.arr e.core e.bank e.row
  let core := coreIn cl e.core
  let at_ := Fin.ofNat 8192 (512 * e.bank + e.row)
  let s := if ¬ e.v ∨ old = new then s
    else if e.arr = 0 then switchPad core (Config.padRow.symm at_).val old new s
    else
      let w := (Config.tileRow.symm at_).val
      match tileOwner s core (w / 512) with
      | some (id, t) => onHart id (switchTile core t (w % 512) old new) s
      | none => s
  s.modCluster cl fun c => { c with repair := table }

/-- Write one entry: the remap of the row that it named ends, and the new one begins. -/
def writeRepair (cl i : Nat) (e : BitVec 32) (s : State) : State :=
  let old := (s.cluster cl).repair.get (Fin.ofNat 16 i)
  let s := switchRow cl (Repair.of old) (setRepair (s.cluster cl).repair i 0) s
  switchRow cl (Repair.of e) (setRepair (s.cluster cl).repair i e) s

/-- Do two valid entries name the same row, or the same spare (R222)? -/
def Repair.clash (a b : Repair) : Bool :=
  a.v && b.v && a.core == b.core && a.arr == b.arr && a.bank == b.bank && (a.row == b.row || a.spr == b.spr)

/-- REPAIR (R222). -/
def opRepair (d a : SReg) : Op :=
  { priv := .service, srcs := [sysSrc d, sysSrc a],
    body := fun s => do
      let i := (s.sreg a).toNat
      let e := BitVec.ofNat 32 (s.sreg d).toNat
      let r := Repair.of e
      ensure (decide (i < 16) && r.core != 31 && bitsOf e.toNat 9 0 == 0) .secAddr s
      ensure (!((List.range 16).any fun k => k != i && r.clash (Repair.of ((s.cluster s.here).repair.get (Fin.ofNat 16 k))))) .diagBusy s
      .ok (writeRepair s.here i e s) }

/-- REPAIR (R222). -/
def execRepair (d a : SReg) (s : State) : Answer := issue (.repair d a) (opRepair d a) s

/-! Service-core control and the MMU (R224). -/

/-- HALT (R224): issue of the service core stops until a management wake request or a reset, that of the tasks it has taken included. -/
def opHalt : Op := { priv := .service, body := fun s => .ok (s.mod fun h => { h with run := .halted }) }

/-- HALT (R224). -/
def execHalt (s : State) : Answer := issue .halt opHalt s

/-- Is one of the events that end WFE present (R224)? -/
def wakeEvent (s : State) (cl : Nat) : Bool :=
  let c := s.cluster cl
  !(s.core (serviceCore cl)).inbox.isEmpty || c.doorbell || c.fwcode != 0

/-- WFE (R224): returns at once when an event is present; a doorbell is taken with it (DESIGN CHOICE, log 139). -/
def opWfe : Op :=
  { priv := .service,
    body := fun s =>
      if wakeEvent s s.here then .ok (s.modCluster s.here fun c => { c with doorbell := false })
      else .ok (s.mod fun h => { h with run := .wfe }) }

/-- WFE (R224). -/
def execWfe (s : State) : Answer := issue .wfe opWfe s

/-- The byte offset of the word of an MMU entry that s(a)[8:0] addresses (R224). -/
def mmuWord (a : Word) : Nat := 16 * bitsOf a.toNat 7 0 + 8 * bitsOf a.toNat 8 8

/-- The assigned bits of such a word (R224, R7). -/
def mmuMask (a : Word) : Word := if bitOf a.toNat 8 then 0x0000FFFFFFE00007 else 0x8000FFFFFFE00000

/-- MMURD (R224). -/
def opMmurd (d a : SReg) : Op :=
  { priv := .service, srcs := [sysSrc a], body := fun s => .ok (writeS d (word ((s.cluster s.here).mmu.readLE (mmuWord (s.sreg a)) 8)) s) }

/-- MMURD (R224). -/
def execMmurd (d a : SReg) (s : State) : Answer := issue (.mmurd d a) (opMmurd d a) s

/-- MMUWR (R224). -/
def opMmuwr (d a : SReg) : Op :=
  { priv := .service, srcs := [sysSrc d, sysSrc a],
    body := fun s => .ok (s.modCluster s.here fun c =>
      { c with mmu := c.mmu.writeLE (mmuWord (s.sreg a)) 8 (s.sreg d &&& mmuMask (s.sreg a)).toNat }) }

/-- MMUWR (R224). -/
def execMmuwr (d a : SReg) (s : State) : Answer := issue (.mmuwr d a) (opMmuwr d a) s

/-- MMUINV (R224): V goes in every entry of the virtual page. -/
def opMmuinv (a : SReg) : Op :=
  { priv := .service, srcs := [sysSrc a],
    body := fun s =>
      let page := bitsOf (s.sreg a).toNat 47 21
      .ok (s.modCluster s.here fun c => { c with mmu := (List.range 256).foldl (fun m i =>
        let w := m.readLE (16 * i) 8
        if bitsOf w 47 21 = page then m.writeLE (16 * i) 8 (w % 2 ^ 63) else m) c.mmu }) }

/-- MMUINV (R224). -/
def execMmuinv (a : SReg) (s : State) : Answer := issue (.mmuinv a) (opMmuinv a) s

/-! Keys (R224). -/

/-- Set a Saffron key slot. -/
def setKey (n : Nat) (k : BitVec 256) (s : State) : State :=
  { s with saffron := { s.saffron with keys := Vector.ofFn fun i => if i.val = n % 64 then k else s.saffron.keys.get i } }

/-- A Saffron key slot. -/
def State.key (s : State) (n : Nat) : BitVec 256 := s.saffron.keys.get (Fin.ofNat 64 n)

/-- KWRAP (R224): 40 bytes at a physical address. -/
def opKwrap (d a : SReg) : Op :=
  { priv := .service, srcs := [sysSrc d, sysSrc a],
    body := fun s => do
      let pa ← physicalAccess s (s.sreg a).toNat 40
      storeAt pa (Crypto.kwWrap (Crypto.keyBytes Config.deviceKey) (Crypto.keyBytes (s.key (bitsOf (s.sreg d).toNat 5 0)))) s }

/-- KWRAP (R224). -/
def execKwrap (d a : SReg) (s : State) : Answer := issue (.kwrap d a) (opKwrap d a) s

/-- KUNWRAP (R224): a failed check raises KEY_UNWRAP and leaves the slot zero. -/
def opKunwrap (d a : SReg) : Op :=
  { priv := .service, srcs := [sysSrc d, sysSrc a],
    body := fun s => do
      let n := bitsOf (s.sreg d).toNat 5 0
      let pa ← physicalAccess s (s.sreg a).toNat 40
      let (bs, s) ← loadAt pa 40 s
      match Crypto.kwUnwrap (Crypto.keyBytes Config.deviceKey) bs with
      | some k => .ok (setKey n (Crypto.keyOf k) s)
      | none => faultOf .keyUnwrap (setKey n 0 s) }

/-- KUNWRAP (R224). -/
def execKunwrap (d a : SReg) (s : State) : Answer := issue (.kunwrap d a) (opKunwrap d a) s

/-- KSCRUB (R224). -/
def opKscrub (a : SReg) : Op :=
  { priv := .service, srcs := [sysSrc a], body := fun s => .ok (setKey (bitsOf (s.sreg a).toNat 5 0) 0 s) }

/-- KSCRUB (R224). -/
def execKscrub (a : SReg) (s : State) : Answer := issue (.kscrub a) (opKscrub a) s

/-! Crypto instructions of Saffron (R225). -/

/-- Saffron's SRAM from an offset; a range outside it raises SEC_ADDR. -/
def sramRead (off n : Nat) (s : State) : Run (List Byte) :=
  if off + n ≤ 0x100000 then .ok (s.saffron.sram.readBytes off n) else faultOf .secAddr s

/-- Store in Saffron's SRAM. -/
def sramWrite (off : Nat) (bs : List Byte) (s : State) : State :=
  { s with saffron := { s.saffron with sram := s.saffron.sram.writeBytes off bs } }

/-- Change a hash context. -/
def setHash (n : Nat) (m : List Byte) (s : State) : State :=
  { s with saffron := { s.saffron with hash := Vector.ofFn fun i => if i.val = n % 4 then m else s.saffron.hash.get i } }

/-- What a hash context has absorbed. -/
def State.hashed (s : State) (n : Nat) : List Byte := s.saffron.hash.get (Fin.ofNat 4 n)

/-- HASHI (R225). -/
def opHashi (a : SReg) : Op :=
  { priv := .security, srcs := [sysSrc a], body := fun s => .ok (setHash (s.sreg a).toNat [] s) }

/-- HASHI (R225). -/
def execHashi (a : SReg) (s : State) : Answer := issue (.hashi a) (opHashi a) s

/-- HASHU (R225). -/
def opHashu (d a : SReg) : Op :=
  { priv := .security, srcs := [sysSrc d, sysSrc a],
    body := fun s => do
      let n := bitsOf (s.sreg d).toNat 21 20
      let bs ← sramRead (s.sreg a).toNat (bitsOf (s.sreg d).toNat 19 0) s
      .ok (setHash n (s.hashed n ++ bs) s) }

/-- HASHU (R225). -/
def execHashu (d a : SReg) (s : State) : Answer := issue (.hashu d a) (opHashu d a) s

/-- HASHF (R225). -/
def opHashf (d a : SReg) : Op :=
  { priv := .security, srcs := [sysSrc d, sysSrc a],
    body := fun s => do
      let n := (s.sreg d).toNat % 4
      let _ ← sramRead (s.sreg a).toNat 48 s
      .ok (setHash n [] (sramWrite (s.sreg a).toNat (Crypto.sha384 (s.hashed n)) s)) }

/-- HASHF (R225). -/
def execHashf (d a : SReg) (s : State) : Answer := issue (.hashf d a) (opHashf d a) s

/-- ECSIGN (R225); the secret number of the signature is free (log 9). -/
def opEcsign (d a : SReg) : Op :=
  { priv := .security, srcs := [sysSrc d, sysSrc a],
    body := fun s => do
      let off := (s.sreg a).toNat
      let bs ← sramRead off 144 s
      let sig := Crypto.ecSign (s.key (s.sreg d).toNat).toNat (Config.ecdsaNonce s.fresh) (bs.take 48)
      .ok (sramWrite (off + 48) (Crypto.pairBytes sig) { s with fresh := s.fresh + 1 }) }

/-- ECSIGN (R225). -/
def execEcsign (d a : SReg) (s : State) : Answer := issue (.ecsign d a) (opEcsign d a) s

/-- ECVRFY (R225). -/
def opEcvrfy (d a : SReg) : Op :=
  { priv := .security, srcs := [sysSrc a],
    body := fun s => do
      let bs ← sramRead (s.sreg a).toNat 240 s
      .ok (writeS d (flagWord (Crypto.ecVerify (bs.take 48) (Crypto.pairOf (bs.drop 48)) (Crypto.pairOf (bs.drop 144)))) s) }

/-- ECVRFY (R225). -/
def execEcvrfy (d a : SReg) (s : State) : Answer := issue (.ecvrfy d a) (opEcvrfy d a) s

/-- The block of an AES instruction (R225): IV, source bytes, destination offset and tag. -/
def aesBlock (off : Nat) (s : State) : Run (List Byte × List Byte × Nat × List Byte) := do
  let b ← sramRead off 40 s
  let len := leNat ((b.drop 12).take 4)
  let src ← sramRead (leNat ((b.drop 16).take 4)) len s
  let dst := leNat ((b.drop 20).take 4)
  let _ ← sramRead dst len s
  .ok (b.take 12, src, dst, b.drop 24)

/-- AESENC (R225). -/
def opAesenc (d a : SReg) : Op :=
  { priv := .security, srcs := [sysSrc d, sysSrc a],
    body := fun s => do
      let off := (s.sreg a).toNat
      let (iv, src, dst, _) ← aesBlock off s
      let key := Crypto.keyBytes (s.key (s.sreg d).toNat)
      let c := Crypto.gcmCrypt key iv src
      .ok (sramWrite (off + 24) (Crypto.gcmTag key iv [] c) (sramWrite dst c s)) }

/-- AESENC (R225). -/
def execAesenc (d a : SReg) (s : State) : Answer := issue (.aesenc d a) (opAesenc d a) s

/-- AESDEC (R225): the plaintext is written only when the tag matches. -/
def opAesdec (d a : SReg) : Op :=
  { priv := .security, srcs := [sysSrc d, sysSrc a],
    body := fun s => do
      let (iv, src, dst, tag) ← aesBlock (s.sreg a).toNat s
      let key := Crypto.keyBytes (s.key (s.sreg d).toNat)
      if Crypto.gcmTag key iv [] src = tag then .ok (writeS d 1 (sramWrite dst (Crypto.gcmCrypt key iv src) s)) else .ok (writeS d 0 s) }

/-- AESDEC (R225). -/
def execAesdec (d a : SReg) (s : State) : Answer := issue (.aesdec d a) (opAesdec d a) s

/-- RNG (R225): a free value (log 7); it finds entropy at once (DESIGN CHOICE, log 45). -/
def opRng (d : SReg) : Op :=
  { priv := .security,
    body := fun s =>
      let (v, t) := s.free
      .ok (writeS d v t) }

/-- RNG (R225). -/
def execRng (d : SReg) (s : State) : Answer := issue (.rng d) (opRng d) s

end Sys2Proof.Machine
end

