-- ==== Sys2Proof/Machine/Power.lean ====
section
/-! DEFINITION. Nutmeg, the power arbiter: the division of the budget, the matrix credit, power gating and retention
(spec/07 R183, spec/14 R259, spec/15 R290 to R292), and what ends the waits of a context (spec/01 R16, spec/03 R98). -/

namespace Sys2Proof.Machine

/-! The division of the budget (R290). -/

/-- Fields of a partition's configuration (R266). -/
def Part.pfloor (p : Part) : Nat := p.cfg.readLE 0x016 2
def Part.pcap (p : Part) : Nat := p.cfg.readLE 0x018 2

/-- Units for clusters. -/
abbrev Shares := List (Nat × Nat)

def unitsFor (l : Shares) (cl : Nat) : Nat := assoc 0 l cl

/-- Divide `n` units in proportion to weights. The spec gives no rounding: which clusters receive the units that are left over,
one each, is free (log 28). -/
def spread (n start : Nat) (w : Shares) : Shares :=
  let total := (w.map Prod.snd).foldl (· + ·) 0
  if total = 0 then w.map fun x => (x.1, 0)
  else
    let whole := w.map fun x => (x.1, n * x.2 / total)
    let left := n - (whole.map Prod.snd).foldl (· + ·) 0
    (List.range whole.length).zip whole |>.map fun x =>
      (x.2.1, x.2.2 + if (x.1 + whole.length - start % whole.length) % whole.length < left then 1 else 0)

/-- Add units to units. -/
def addShares (a b : Shares) : Shares := a.map fun x => (x.1, x.2 + unitsFor b x.1)

/-- Matrix demand over the last 10 microseconds: the toggle estimates charged, and those of the products that wait (R290). -/
def demandOf (s : State) (cl : Nat) : Nat :=
  (s.cluster cl).demand + ((s.harts.filter fun h => clusterNo h.core == cl).map fun h => match h.run with
    | .blocked (.power te) => te
    | _ => 0).foldl (· + ·) 0

/-- The clusters that are awake. -/
def awake (s : State) : List Nat := (List.range 128).filter fun cl => !gated s cl

/-- What a partition has received. -/
def received (s : State) (l : Shares) (p : Nat) : Nat :=
  ((l.filter fun x => s.clusterPart x.1 == some p).map Prod.snd).foldl (· + ·) 0

/-- The floors: what a partition still lacks of its PFLOOR goes to its awake clusters that had demand, in equal parts. -/
def giveFloors (s : State) (demand : Shares) (l : Shares) : Shares :=
  (List.range 16).foldl (fun acc p =>
    let mine := (demand.filter fun x => s.clusterPart x.1 == some p && x.2 != 0).map fun x => (x.1, 1)
    addShares acc (spread ((s.part p).pfloor - received s acc p) (Config.freeNat s.fresh) mine)) l

/-- Take back what passes a partition's PCAP: its clusters then share what the cap leaves by their demand. -/
def capShares (s : State) (demand have_ give : Shares) : Shares :=
  (List.range 16).foldl (fun acc p =>
    let room := (s.part p).pcap - received s have_ p
    if room < received s acc p then
      let mine := demand.filter fun x => s.clusterPart x.1 == some p
      let less := spread room (Config.freeNat s.fresh) mine
      acc.map fun x => if s.clusterPart x.1 = some p then (x.1, unitsFor less x.1) else x
    else acc) give

/-- The remainder goes out in proportion to demand; what the caps turn away goes out again among the others. -/
def giveRest (s : State) (demand : Shares) : Nat → Nat → Shares → Shares
  | 0, _, l => l
  | k + 1, n, l =>
    let live := demand.filter fun x => x.2 != 0 && match s.clusterPart x.1 with
      | some p => decide (received s l p < (s.part p).pcap)
      | none => true
    if n = 0 ∨ live = [] then l
    else
      let give := capShares s live l (spread n (Config.freeNat s.fresh) live)
      giveRest s demand k (n - (give.map Prod.snd).foldl (· + ·) 0) (addShares l give)

/-- The shares of one division (R290): the fixed reserve first, 3 units for the cores of each awake cluster, the floors, and the
remainder; units that no cluster can use stay unspent. -/
def divide (s : State) : Shares :=
  let up := awake s
  let demand := up.map fun cl => (cl, demandOf s cl)
  let base := up.map fun cl => (cl, 3)
  let l := giveFloors s demand base
  let spent := (l.map Prod.snd).foldl (· + ·) 0
  giveRest s demand 17 (s.budget - s.saffron.reserve - spent) l

/-- POWER_DIVISION (R290): a gated cluster receives none; demand is counted anew. -/
def dividePower (s : State) : State :=
  let l := divide s
  (List.range 128).foldl (fun t cl => t.modCluster cl fun c => { c with share := unitsFor l cl, demand := 0 }) { s with fresh := s.fresh + 1 }

/-- POWER_DIVISION (R290). -/
def execPowerDivision (s : State) : Answer := event dividePower s

/-- POWER_SHARE_AVAILABLE (R291): the credit has reached zero, and the products that wait for it may issue. -/
def shareAvailable (cl : Nat) (s : State) : State :=
  let go := fun (h : Hart) =>
    if clusterNo h.core = cl then
      match h.run with
      | .blocked (.power _) => { h with run := .ready }
      | _ => h
    else h
  if 0 ≤ (s.cluster cl).credit then { s with hart := go s.hart, parked := s.parked.map go } else s

/-- POWER_SHARE_AVAILABLE (R183, R291). -/
def execPowerShareAvailable (cluster : Nat) (s : State) : Answer := event (shareAvailable cluster) s

/-! Power gating (R292) and retention (R259). -/

/-- Does an armed launch or a reserved core keep a cluster awake? -/
def reservedIn (s : State) (cl : Nat) : Bool :=
  (s.caps.any fun c => c.launch.isSome && (c.foot ++ c.foot2).any fun p => clusterNo p.1 == cl) ||
  (s.cores.any fun k => clusterNo k.id == cl && k.reservedFor.isSome) ||
  ((List.range 16).any fun p => (s.part p).reserved.any fun k => clusterNo k == cl)

/-- Is a cluster idle (R292)? -/
def idleCluster (s : State) (cl : Nat) : Bool :=
  let c := s.cluster cl
  !(s.cores.any fun k => clusterNo k.id == cl && (k.cap.isSome || !k.inbox.isEmpty)) && c.park.isEmpty && c.copies.isEmpty &&
  c.copyWait.isEmpty &&
  !(s.harts.any fun h => clusterNo h.core == cl && (leaseHeld h.lease || (h.kind == .task && h.run != .ended))) && !reservedIn s cl

/-- CLUSTER_POWER_GATE (R259, R292): a cluster that has been idle for 50 microseconds. Its operand buffer enters retention at once, an L2 slice
above it when the slice itself has had no access for 50 microseconds (RETENTION_ENTRY). -/
def gateCluster (cl : Nat) (s : State) : State :=
  if cl < 128 ∧ gated s cl = false ∧ idleCluster s cl = true ∧ 50000 ≤ s.clock - (s.cluster cl).idleFrom then
    { s with retained := (s.retained ++ [cl]).eraseDups }.modCluster cl fun c => { c with clstat := c.clstat ||| 4 }
  else s

/-- CLUSTER_POWER_GATE (R259, R292). -/
def execClusterPowerGate (cluster : Nat) (s : State) : Answer := event (gateCluster cluster) s

/-- The tile cores of a cluster admit what waits for them, and heads held for their footprint are tried again. -/
def admitCluster (cl : Nat) (s : State) : State :=
  ((List.range 31).map (coreIn cl)).foldl (fun t k => admitWaiting k t) (wakeFootprint cl s)

/-- CLUSTER_WAKE (R285, R292): a gated cluster with something to do. Its units stay in retention until an access starts their exit (R259). -/
def wakeCluster (cl : Nat) (s : State) : State :=
  if gated s cl = true ∧ idleCluster s cl = false then
    admitCluster cl (s.modCluster cl fun c => { c with clstat := c.clstat &&& ~~~4, idleFrom := s.clock })
  else s

/-- CLUSTER_WAKE (R285, R292). -/
def execClusterWake (cluster : Nat) (s : State) : Answer := event (wakeCluster cluster) s

/-- Has a unit had no access for 50 microseconds (R259)? -/
def unused (s : State) (u : Nat) : Bool := decide (50000 ≤ s.clock - assoc 0 s.used u)

/-- May a unit enter retention (R259): the operand buffer of a gated cluster, an L2 slice whose cluster is gated or an RDC data group, these two
after 50 microseconds without an access? -/
def mayRetain (s : State) (u : Nat) : Bool :=
  if u < 128 then gated s u else if u < 2176 then gated s ((u - 128) / 16) && unused s u else decide (u < 2304) && unused s u

/-- RETENTION_ENTRY (R259): the unit re-encodes its data; no byte changes. -/
def execRetentionEntry (unit : Nat) (s : State) : Answer :=
  event (fun s => if mayRetain s unit ∧ s.retained.contains unit = false then { s with retained := s.retained ++ [unit] } else s) s

/-- The end of an exit (R259): the unit has encoded its data back, 4,200 cycles after the access that started it; a release that waited for it may go. -/
def leaveRetention (u : Nat) (s : State) : State :=
  if s.exiting.any fun x => x.1 == u && decide (x.2 ≤ s.clock) then
    releaseHeld { s with retained := s.retained.filter (· != u), exiting := s.exiting.filter fun x => x.1 != u }
  else s

/-- RETENTION_EXIT (R259). -/
def execRetentionExit (unit : Nat) (s : State) : Answer := event (leaveRetention unit) s

/-! The ends of waits (R16, R98). -/

/-- PRODUCER_COMPLETION (R16): the oldest producer of a context delivers, and its destination is full. -/
def completeProducer (s : State) : State :=
  match s.hart.inflight with
  | [] => s
  | p :: rest => deliver p (s.mod fun h => { h with inflight := rest })

/-- PRODUCER_COMPLETION (R16). -/
def execProducerCompletion (h : Nat) (s : State) : Answer := event (onHart h completeProducer) s

/-- WAIT_TIME_REACHED (R98): the time bound of a WAIT has come. -/
def reachTime (s : State) : State :=
  match s.hart.run with
  | .blocked (.wait t _) => if t.ule s.now then s.mod fun h => { h with run := .ready } else s
  | _ => s

/-- WAIT_TIME_REACHED (R98). -/
def execWaitTimeReached (h : Nat) (s : State) : Answer := event (onHart h reachTime) s

/-! Firmware that waits (R224). -/

/-- Does the firmware of a service core wait in WFE? -/
def inWfe (cl : Nat) (h : Hart) : Bool := h.kind == .firmware && h.core == serviceCore cl && h.run == .wfe

/-- A service core whose firmware waits in WFE goes on when an event is present; a doorbell is taken with it (DESIGN CHOICE, log 139). -/
def endWfe (cl : Nat) (s : State) : State :=
  let go := fun (h : Hart) => if inWfe cl h then { h with run := .ready } else h
  if (s.harts.any (inWfe cl)) = true ∧ wakeEvent s cl = true then
    { s with hart := go s.hart, parked := s.parked.map go }.modCluster cl fun c => { c with doorbell := false }
  else s

/-- MANAGEMENT_DOORBELL (R224). -/
def execManagementDoorbell (cluster : Nat) (s : State) : Answer :=
  event (fun s => endWfe cluster (s.modCluster cluster fun c => { c with doorbell := true })) s

/-- MANAGEMENT_WAKE (R224): firmware that HALT stopped resumes. -/
def wakeHalted (cl : Nat) (s : State) : State :=
  let go := fun (h : Hart) => if h.kind = .firmware ∧ h.core = serviceCore cl ∧ h.run = .halted then { h with run := .ready } else h
  { s with hart := go s.hart, parked := s.parked.map go }

/-- MANAGEMENT_WAKE (R224). -/
def execManagementWake (cluster : Nat) (s : State) : Answer := event (wakeHalted cluster) s

end Sys2Proof.Machine
end

