-- ==== Sys2Proof/Machine/Sumac.lean ====
section
/-! DEFINITION. Sumac, the time unit: discipline by PTP and 1PPS, stepping and slewing, holdover, the 1PPS output and TIMEST
(spec/15 R286). -/

namespace Sys2Proof.Machine

/-- TIMEST (R286). -/
def Sumac.timest (m : Sumac) : Word :=
  word (m.offset.toNat * 2 ^ 32 + m.holds.toNat * 2 ^ 16 + m.source.toNat * 8 + m.state.toNat)

/-- A signed 32-bit number, saturating. -/
def sat32Int (x : Int) : BitVec 32 := BitVec.ofInt 32 (max (-2147483648) (min 2147483647 x))

/-- Put Sumac at a count of nanoseconds. -/
def Sumac.setTo (m : Sumac) (ns : Nat) : Sumac :=
  { m with sec := BitVec.ofNat 48 (ns / 1000000000), ns := BitVec.ofNat 32 (ns % 1000000000) }

/-- Sumac's count in nanoseconds. -/
def Sumac.count (m : Sumac) : Nat := m.sec.toNat * 1000000000 + m.ns.toNat

/-- Remove an offset (R286). Before queues are first enabled Sumac may be stepped either way; then forward only, and a negative
offset is slewed away. Where Sumac may be stepped, whether it is, or its rate removes the offset, is free (log 29). -/
def Sumac.correct (m : Sumac) (offset : Int) (step_ : Bool) : Sumac :=
  if offset < 0 ∧ m.armed = true then { m with slew := offset.natAbs }
  else if step_ then { m.setTo (Int.ofNat m.count + offset).toNat with slew := 0 }
  else { m with slew := 0 }

/-- STATE after a measurement: acquiring, then locked when the discipline has settled, which is free (log 29). -/
def Sumac.track (m : Sumac) (settled : Bool) : BitVec 3 :=
  match m.state.toNat with
  | 0 | 3 => 1
  | 1 => if settled then 2 else 1
  | _ => m.state

/-- A step that passes a NOTBEFORE releases that launch at once, and one that passes a DEADLINE raises it (R286). -/
def passTimes (s : State) : State :=
  let ids := s.caps.map Capsule.id
  ids.foldl (fun t id => deadline id t) (ids.foldl (fun t id => launchDue id t) s)

/-- A measurement of the offset from the reference: what Sumac would have to gain (R286). -/
def measure (source : BitVec 3) (offset : Int) (s : State) : State :=
  let m := s.sumac
  let t := { s with fresh := s.fresh + 2 }
  passTimes { t with sumac := { m.correct offset (Config.freeBool s.fresh) with
                                offset := sat32Int offset, holds := 0, source := source, state := m.track (Config.freeBool (s.fresh + 1)) } }

/-- PTP_FRAME (R286). -/
def execPtpFrame (offset : Int) (s : State) : Answer := event (measure 1 offset) s

/-- PPS_INPUT (R286), with the 10 MHz reference or without. -/
def execPpsInput (offset : Int) (ref10 : Bool) (s : State) : Answer := event (measure (if ref10 then 3 else 2) offset) s

/-- PPS_OUTPUT (R286): the output rises when Sumac has come to a whole second. -/
def ppsOut (s : State) : State :=
  if s.sumac.pps ≠ s.sumac.sec then { s with sumac := { s.sumac with pps := s.sumac.sec } }.emit .pps else s

/-- PPS_OUTPUT (R286). -/
def execPpsOutput (s : State) : Answer := event ppsOut s

/-- HOLDOVER (R286): the reference is lost; SOURCE is none, and HOLDS counts from zero. -/
def holdover (s : State) : State :=
  if s.sumac.source = 0 then s else { s with sumac := { s.sumac with state := 3, source := 0, holds := 0, holdNs := 0 } }

/-- HOLDOVER (R286). -/
def execHoldover (s : State) : Answer := event holdover s

end Sys2Proof.Machine
end

