-- ==== Sys2Proof/Machine/Tier1.lean ====
section
/-! DEFINITION. Tier 1: how its lines are stored outside the package, their write-back, and the epochs of a granule (spec/08 R196,
spec/14 R252, R258, spec/18 R322). -/

namespace Sys2Proof.Machine

open Crypto

/-- The memory key of an owner (R253); owner 0 uses the device memory key. -/
def ownerKey (s : State) (owner : Nat) : BitVec 256 :=
  if owner = 0 then Config.deviceMemoryKey else (lookup MemKey.owner (fun n => { owner := n, key := 0, gen := 0 }) s.memkeys owner).key

/-- The keys that Saffron forms from K by AES-256 encryption of the blocks 1 to 6 (R253); a block is written most significant byte first, as in
log 20. -/
def formKeys (owner : Nat) (k : BitVec 256) : ControllerKeys :=
  let pair := fun (n : Nat) => keyOf (aesEnc (keyBytes k) (beBytes 16 n) ++ aesEnc (keyBytes k) (beBytes 16 (n + 1)))
  { owner := owner, kdata := pair 1, ktweak := pair 3, kmac := pair 5 }

/-- Load them into the memory controllers' key registers (R253). -/
def loadKeys (owner : Nat) (k : BitVec 256) (s : State) : State :=
  { s with mckeys := update ControllerKeys.owner s.mckeys (formKeys owner k) }

/-- At the boot, Saffron loads the device's keys and those of every owner that has one (R253). -/
def loadAllKeys (s : State) : State :=
  (s.memkeys.filter fun e => e.key != 0).foldl (fun t e => loadKeys e.owner e.key t) (loadKeys 0 Config.deviceMemoryKey s)

/-- A 128-bit block whose value joins a constant, EPOCH and the granule's number, most significant first (R258; log 20). -/
def epochBlock (const epoch g : Nat) : List Byte := beBytes 4 const ++ beBytes 4 epoch ++ beBytes 8 g

/-- The key of a granule's lines: two blocks encrypted under its owner's K (R258). -/
def tier1Key (s : State) (g : Nat) : List Byte :=
  let k := keyBytes (ownerKey s (gotOwner (s.granule g)))
  let e := gotEpoch (s.granule g)
  aesEnc k (epochBlock 7 e g) ++ aesEnc k (epochBlock 8 e g)

/-- The initialisation vector: L, then the line's version (R258). -/
def tier1Iv (line : Nat) (version : BitVec 32) : List Byte := beBytes 8 line ++ beBytes 4 version.toNat

/-- May a write reach its destination: no write before a FENCE.H of the same task is still outstanding (R196)? -/
def mayWriteBack (s : State) (d : Dirty) : Bool := !s.dirty.any fun e => e.hart == d.hart && decide (e.fh < d.fh)

/-- The bytes with which a line leaves: those before the first write that is held back. -/
def outerBytes (s : State) (line : Nat) : List Byte :=
  match s.dirty.find? fun d => d.line == line && !mayWriteBack s d with
  | some d => d.old.readBytes 0 256
  | none => s.mem.readBytes (256 * line) 256

/-- May a line leave: does a write on it stand before the first that is held back? -/
def lineReady (s : State) (line : Nat) : Bool := (s.dirty.find? fun d => d.line == line).any (mayWriteBack s)

/-- A line as it is stored outside, and the first 64 bits of its tag (R258). -/
def tier1Line (s : State) (line : Nat) (version : BitVec 32) : List Byte × BitVec 64 :=
  let key := tier1Key s (granuleOf (256 * line))
  let iv := tier1Iv line version
  let c := gcmCrypt key iv (outerBytes s line)
  (c, BitVec.ofNat 64 (beNat ((gcmTag key iv [] c).take 8)))

/-- The tier-1 map entry of a line (R322). -/
def mapEntry (s : State) (line : Nat) : Word := assoc 0 s.tier1map ((256 * line - tier1Base) / 2 ^ 30)

/-- The host physical address of a line of host memory, when its slot maps host memory (R322). -/
def hostAddress (s : State) (line : Nat) : Option Nat :=
  let e := (mapEntry s line).toNat
  if bitOf e 63 && !bitOf e 62 then some (bitsOf e 51 30 * 2 ^ 30 + (256 * line - tier1Base) % 2 ^ 30) else none

/-- The version entry of a line. -/
def State.version (s : State) (line : Nat) : Version := lookup Version.line (fun n => { line := n, version := 0, tag := 0 }) s.versions line

/-- Store a line outside under a version. -/
def storeLine (line : Nat) (version : BitVec 32) (s : State) : State :=
  let (c, tag) := tier1Line s line version
  let s := { s with versions := update Version.line s.versions { line := line, version := version, tag := tag } }
  match hostAddress s line with
  | some a => { s with host := s.host.writeBytes a c }
  | none => s

/-- Writes that have not reached their destination after the lines named were stored: each line went with its writes up to the first that
is held back. -/
def leftOf (s : State) (lines : List Nat) : List Dirty → List Dirty
  | [] => []
  | d :: ds =>
    if lines.contains d.line then
      if mayWriteBack s d then leftOf s lines ds else d :: leftOf s (lines.filter (· != d.line)) ds
    else d :: leftOf s lines ds

/-- Writes of a line that have reached their destination are outstanding no more; what waited for them may go (R196). -/
def settleLines (lines : List Nat) (s : State) : State := releaseHeld { s with dirty := leftOf s lines s.dirty }

/-- TIER1_WRITEBACK (R196, R258): the version counts each write-back; one that would pass the largest waits for EPOCH_REENCRYPT. -/
def writeBack (line : Nat) (s : State) : State :=
  let v := (s.version line).version
  if lineReady s line = true ∧ v ≠ BitVec.allOnes 32 then
    settleLines [line] (storeLine line (v + 1) s)
  else s

/-- TIER1_WRITEBACK (R196, R258). -/
def execTier1Writeback (line : Nat) (s : State) : Answer := event (writeBack line) s

/-- The lines of a granule. -/
def linesOf (g : Nat) : List Nat := (List.range 8192).map fun i => granuleBase g / 256 + i

/-- Change the entry of a granule. -/
def setGranule (g : Nat) (e : BitVec 128) (s : State) : State := { s with got := (g, e) :: s.got.filter fun x => x.1 != g }

/-- An entry with bits [hi:lo] replaced. -/
def gotSet (e : BitVec 128) (hi lo v : Nat) : BitVec 128 :=
  BitVec.ofNat 128 (e.toNat - bitsOf e.toNat hi lo * 2 ^ lo + v % 2 ^ (hi + 1 - lo) * 2 ^ lo)

/-- Has a line of a granule that may go the largest version? -/
def versionFull (s : State) (g : Nat) : Bool :=
  s.dirty.any fun d => granuleOf (256 * d.line) == g && (s.version d.line).version == BitVec.allOnes 32 && lineReady s d.line

/-- EPOCH_REENCRYPT (R258): EPOCH counts, and the whole granule is stored again with every version zero. -/
def reencrypt (g : Nat) (s : State) : State :=
  if versionFull s g then
    let s := setGranule g (gotSet (s.granule g) 127 96 (gotEpoch (s.granule g) + 1)) s
    settleLines (linesOf g) ((linesOf g).foldl (fun t l => storeLine l 0 t) s)
  else s

/-- EPOCH_REENCRYPT (R258). -/
def execEpochReencrypt (granule : Nat) (s : State) : Answer := event (reencrypt granule) s

end Sys2Proof.Machine
end

