-- ==== Sys2Proof/Machine/Host.lean ====
section
/-! DEFINITION. The host link: BAR0 as the host reads and writes it, the submission window, the staging ring, memory requests and
their atomics, and the tier-1 map (spec/08 R206, R207, spec/14 R251, R262, R264, R265, spec/15 R268 to R271, R278, spec/16 R307,
spec/18 R320 to R322). -/

namespace Sys2Proof.Machine

/-! Who may ask (R300, R310, R320). -/

/-- The status with which every request of a virtual function completes now, when it is not served: Completer Abort after a fatal
error; Unsupported Request for a function without a defined partition, during a reset, and while the package is down. -/
def hostRefuses (s : State) (vf : Nat) : Option Nat :=
  if s.phase = .fatal then some 2
  else if vf = 0 ∨ 16 < vf ∨ (s.part (vf - 1)).wadm = 0 ∨ s.inReset (vf - 1) = true ∨ s.down = true then some 1
  else none

/-- Serve a request, or complete it with a status (0 and its effect, or the refusal). -/
def serveVf (vf : Nat) (f : State → State) (s : State) : State :=
  match hostRefuses s vf with
  | some st => s.emit (.host st false [])
  | none => f s

/-! BAR0 as the host reads it (R268). -/

/-- The 32 bytes of a log entry (R307). -/
def LogEntry.bytes (e : LogEntry) : List Byte :=
  leBytes 8 e.time.toNat ++ leBytes 2 e.code ++ leBytes 1 e.kind ++ leBytes 1 e.rep ++ leBytes 2 e.core ++ leBytes 2 e.queue ++
  leBytes 8 e.detail.toNat ++ leBytes 4 e.ctag ++ leBytes 4 e.seq

/-- Slot `k` of a log's ring: the latest entry whose sequence number falls there. -/
def Log.slot (l : Log) (k : Nat) : List Byte :=
  match l.entries.find? fun e => e.seq % 2047 == k with
  | some e => e.bytes
  | none => List.replicate 32 0

/-- A byte of a log's 64 KiB window (R307). -/
def Log.byte (l : Log) (off : Nat) : Byte :=
  if off < 32 then (leBytes 4 l.seq).getD off 0 else (l.slot (off / 32 - 1)).getD (off % 32) 0

/-- The 32 bytes of a staging request (R264). -/
def StageReq.bytes (r : StageReq) : List Byte :=
  leBytes 8 r.paddr ++ leBytes 2 r.owner ++ leBytes 2 r.req ++ leBytes 4 r.block ++ leBytes 8 r.rword ++ leBytes 8 r.ctag.toNat

/-- STAGECTL (R265). -/
def Part.stagectl (p : Part) : List Byte :=
  leBytes 4 p.stail ++ leBytes 4 p.shead ++ leBytes 4 p.ctail ++ leBytes 4 p.chead ++ leBytes 2 p.svec ++ leBytes 1 (if p.sie then 1 else 0)

/-- A doorbell of a partition (R278). -/
def Part.doorbell (p : Part) (n : Nat) : Doorbell := lookup Doorbell.n (fun k => { n := k, value := 0, count := 0, ctl := 0 }) p.doorbells n

/-- Its 16 bytes. -/
def Doorbell.bytes (d : Doorbell) : List Byte := leBytes 8 d.value.toNat ++ leBytes 4 d.count ++ leBytes 4 d.ctl.toNat

/-- QSTAT (R269). -/
def Queue.qstat (q : Queue) : Word :=
  word (q.free.toNat + q.waiting % 8192 * 2 ^ 8 + (if q.held then 2 ^ 21 + q.why % 4 * 2 ^ 22 else 0) + q.ctail % 65536 * 2 ^ 24)

/-- GATEST (R269): zero unless the head waits on its gate. -/
def Queue.gateStatus (q : Queue) : Word := if q.held && q.why == 1 then q.gatest else 0

/-- A byte of a queue window (R269). -/
def Queue.byte (q : Queue) (off : Nat) : Byte :=
  if off < 0x800 then q.slots.read off
  else
    let w := match off / 8 with
      | 0x101 => q.qstat
      | 0x102 => word q.chead
      | 0x103 => q.qcfg
      | 0x104 => q.srbase
      | 0x105 => q.crbase
      | 0x106 => q.gateStatus
      | _ => 0
    (leBytes 8 w.toNat).getD (off % 8) 0

/-- The byte at an offset of a virtual function's BAR0 (R265 to R269, R278, R307). Reading changes nothing, but for a doorbell's
COUNT (DOORBELL_COUNT_READ). -/
def bar0 (s : State) (vf off : Nat) : Byte :=
  let p := s.part (vf - 1)
  if off < 0x1000 then p.cfg.read off
  else if off < 0x2000 then (if off < 0x1018 then BitVec.ofNat 8 (s.homemap.getD (off - 0x1000) 0) else 0)
  else if off < 0x10000 then (if off < 0x2008 then (leBytes 8 s.sumac.timest.toNat).getD (off - 0x2000) 0 else 0)
  else if off < 0x12000 then
    match (p.stage.reverse.find? fun r => r.req % 256 == (off - 0x10000) / 32) with
    | some r => r.bytes.getD (off % 32) 0
    | none => 0
  else if off < 0x13000 then p.stagecpl.read (off - 0x12000)
  else if off < 0x20000 then p.stagectl.getD (off - 0x13000) 0
  else if off < 0x30000 then p.log.byte (off - 0x20000)
  else if off < 0x32000 then (p.doorbell ((off - 0x30000) / 16)).bytes.getD (off % 16) 0
  else if 0x1000000 ≤ off ∧ off < 0x9000000 then
    let q := s.queue ((off - 0x1000000) / 4096)
    if q.fn = some vf then q.byte (off % 4096) else 0
  else 0

/-- The byte at an offset of the physical function's BAR0 (R320, R322): the tier-1 map, and package status, whose layout is not stated (log
11). -/
def pfBar0 (s : State) (off : Nat) : Byte :=
  if 0x8000 ≤ off ∧ off < 0xA000 then (leBytes 8 (assoc (0 : Word) s.tier1map ((off - 0x8000) / 8)).toNat).getD (off % 8) 0
  else Config.packageStatus s.fresh off

/-- How a host read of BAR0 completes (R310, R320): its status, and its bytes when it is served. -/
def barRead (s : State) (vf off n : Nat) : Nat × List Byte :=
  let bytes := fun (f : Nat → Byte) => (0, (List.range n).map fun i => f (off + i))
  if vf = 0 then
    if s.phase = .fatal then (2, []) else if s.down then (1, []) else bytes (pfBar0 s)
  else match hostRefuses s vf with
    | some st => (st, [])
    | none => bytes (bar0 s vf)

/-! Writes of BAR0. -/

/-- Does a write touch the `n` bytes of a field? -/
def touches (at_ n off : Nat) (bs : List Byte) : Bool := decide (off < at_ + n) && decide (at_ < off + bs.length)

/-- A field of `n` bytes after a write that may cover it in part. -/
def overlay (old n at_ off : Nat) (bs : List Byte) : Nat :=
  leNat ((List.range n).map fun i =>
    if off ≤ at_ + i ∧ at_ + i < off + bs.length then bs.getD (at_ + i - off) 0 else BitVec.ofNat 8 (old / 256 ^ i))

/-- Write the bytes that fall into a window of a memory. -/
def poke (m : Memory) (lo n off : Nat) (bs : List Byte) : Memory :=
  ((List.range bs.length).zip bs).foldl (fun m x =>
    if lo ≤ off + x.1 ∧ off + x.1 < lo + n then m.write (off + x.1 - lo) x.2 else m) m

/-- Contexts of a partition that wait for staging, with the handle of the block. -/
def stagingIn (s : State) (p : Nat) : List (Nat × Word) :=
  s.harts.filterMap fun h => match h.run with
    | .staging b => if partOf s h.cap = p then some (h.id, b) else none
    | _ => none

/-- Post the requests that waited for the ring (R264). -/
def repost (p : Nat) (s : State) : State :=
  (stagingIn s p).foldl (fun t x => onHart x.1 (postStage x.2) t) s

/-- The physical address of the block that a handle names for a context. -/
def blockAddress (s : State) (id : Nat) (b : Word) : Option Nat :=
  match (s.hart? id).bind fun h => s.cap? h.cap with
  | none => none
  | some c => (c.exts[handleIdx b]?).map fun e => Extent.base e + handleOff b / 65536 * 65536

/-- The contexts that wait for a request. -/
def waitersOf (s : State) (p : Nat) (r : StageReq) : List (Nat × Word) :=
  (stagingIn s p).filter fun x => blockAddress s x.1 x.2 == some r.paddr

/-- A request is answered (R264): with STATUS 0 the tasks are queued for a tile core when the residence bit is set, and the request
is posted again when it is clear; with another STATUS their capsules take STAGING_FAIL, whose report names the task with WORD and RST zero
(R345) (DESIGN CHOICE, log 148). -/
def answerStage (p status : Nat) (r : StageReq) (s : State) : State :=
  let ws := waitersOf s p r
  let s := s.modPart p fun x => { x with stage := x.stage.map fun y => if y = r then { y with open_ := false } else y }
  if status = 0 then
    let there := bitOf (s.mem.readLE r.rword 8) (r.block % 64)
    ws.foldl (fun t x => onHart x.1 (fun u =>
      if there then u.mod fun h => { h with run := .requeued none, waitFrom := u.clock } else postStage x.2 u) t) s
  else
    ws.foldl (fun t x => match t.hart? x.1 with
      | some h => if h.run = .ended then t else unitFault h.cap x.1 .stagingFail (word status) t
      | none => t) s

/-- Consume up to `n` completions (R265): one that names no outstanding request is logged with KIND 8, and its CODE and DETAIL are
not stated (log 7). -/
def consumeStage (p : Nat) : Nat → State → State
  | 0, s => s
  | n + 1, s =>
    let x := s.part p
    let m := x.stagecpl.window (16 * (x.chead % 256)) 4
    let s := s.modPart p fun x => { x with chead := (x.chead + 1) % 2 ^ 32 }
    let s := match x.stage.find? fun r => r.open_ && r.req == m.readLE 0 2 with
      | some r => answerStage p (m.readLE 2 2) r s
      | none => s.logPart p { code := Config.errorCode, kind := 8, detail := Config.errorDetail (m.readLE 0 2) }
    consumeStage p n s

/-- A write of CTAIL (R265). -/
def setCtail (p v : Nat) (s : State) : State :=
  let s := s.modPart p fun x => { x with ctail := v % 2 ^ 32 }
  let x := s.part p
  consumeStage p ((x.ctail + 2 ^ 32 - x.chead) % 2 ^ 32) s

/-- CTAIL_WRITE (R264, R265). -/
def execCtailWrite (vf : Nat) (value : BitVec 32) (s : State) : Answer := event (serveVf vf (setCtail (vf - 1) value.toNat)) s

/-- Take a GO (R271): the named slots in ascending number; one that the ring cannot take stays pending. A queue that was torn down
stays empty until EN is written (R299). -/
def takeGo (n : Nat) (mask : BitVec 8) (s : State) : State :=
  if (s.queue n).torn then s
  else (List.range 8).foldl (fun t k =>
    let q := t.queue n
    if mask.getLsbD k = false ∨ q.pending.contains k = true then t
    else if q.full = true ∨ q.pending ≠ [] then t.modQueue n fun q => { q with pending := q.pending ++ [k], free := setBit q.free k false }
    else copySlot n k t) s

/-- Is a queue's window the function's (R268)? -/
def ownWindow (s : State) (vf n : Nat) : Bool := decide (n < 32768) && (s.queue n).fn == some vf

/-- GO_WRITE (R271). -/
def execGoWrite (vf queue : Nat) (mask : BitVec 8) (s : State) : Answer :=
  event (serveVf vf fun s => if ownWindow s vf queue then takeGo queue mask s else s) s

/-- QCFG as a write leaves it (R269): while EN = 1 only EN, PRI and CIE change; an SRLOG above 8 or a CRLOG above 12 leaves the queue
disabled, and so does a write before configuration is locked and the package runs (R313, R332). -/
def nextQcfg (running : Bool) (q : Queue) (v : Word) : Word :=
  if q.en then (q.qcfg &&& ~~~0x80000F) ||| (v &&& 0x80000F)
  else
    let v := v &&& 0x1FFFFFF
    if 8 < bitsOf v.toNat 7 4 ∨ 12 < bitsOf v.toNat 11 8 ∨ running = false then v &&& ~~~1 else v

/-- Write QCFG (R269): EN ends the state after a teardown (R299) and Sumac's free stepping (R286). -/
def setQcfg (n : Nat) (v : Word) (s : State) : State :=
  let c := nextQcfg (s.phase == .running) (s.queue n) v
  let on := bitOf c.toNat 0
  let s := s.modQueue n fun q => { q with qcfg := c, torn := q.torn && !on }
  if on then { s with sumac := { s.sumac with armed := true } } else s

/-- QCFG_WRITE (R269). -/
def execQcfgWrite (vf queue : Nat) (value : Word) (s : State) : Answer :=
  event (serveVf vf fun s => if ownWindow s vf queue then setQcfg queue value s else s) s

/-- A write that touches a queue window (R269). -/
def writeWindow (n off : Nat) (bs : List Byte) (s : State) : State :=
  let s := s.modQueue n fun q =>
    { q with
      slots := poke q.slots 0 0x800 off bs
      chead := if touches 0x810 2 off bs then overlay q.chead 2 0x810 off bs else q.chead
      crbase := if touches 0x828 8 off bs && !q.en then word (overlay q.crbase.toNat 8 0x828 off bs / 4096 * 4096) else q.crbase }
  let s := if touches 0x800 1 off bs then takeGo n (BitVec.ofNat 8 (overlay 0 1 0x800 off bs)) s else s
  if touches 0x818 8 off bs then setQcfg n (word (overlay (s.queue n).qcfg.toNat 8 0x818 off bs)) s else s

/-- A write that touches a doorbell: its vector and its enable bit (R278). -/
def writeDoorbell (p n off : Nat) (bs : List Byte) (s : State) : State :=
  let d := (s.part p).doorbell n
  let c := BitVec.ofNat 32 (overlay d.ctl.toNat 4 (0x3000C + 16 * n) off bs) &&& 0x000107FF
  s.modPart p fun x => { x with doorbells := update Doorbell.n x.doorbells { d with ctl := c } }

/-- A write that touches STAGECTL (R265). -/
def writeStagectl (p off : Nat) (bs : List Byte) (s : State) : State :=
  let s := s.modPart p fun x =>
    { x with
      shead := overlay x.shead 4 0x13004 off bs
      svec := overlay x.svec 2 0x13010 off bs % 2048
      sie := bitOf (overlay (if x.sie then 1 else 0) 1 0x13012 off bs) 0 }
  let s := repost p s
  if touches 0x13008 4 off bs then setCtail p (overlay (s.part p).ctail 4 0x13008 off bs) s else s

/-- A tier-1 map entry as it reads (R322). -/
def mapMask : Word := 0xC00FFFFFC0000000

/-- Write a tier-1 map entry (R322): it takes effect only while every granule of its slot is free; another write is logged with
KIND 8, and its CODE and DETAIL are not stated (log 7). -/
def writeMap (slot : Nat) (v : Word) (s : State) : State :=
  if 1024 ≤ slot then s
  else if (List.range 512).all fun i => gotState (s.granule (196608 + 512 * slot + i)) == 0 then
    { s with tier1map := (slot, v &&& mapMask) :: s.tier1map.filter fun x => x.1 != slot }
  else s.logPkg { code := Config.errorCode, kind := 8, detail := Config.errorDetail slot }

/-- A request of the physical function is served, but for a fatal error (R310) and without power. -/
def servePf (f : State → State) (s : State) : State :=
  if s.phase = .fatal then s.emit (.host 2 false []) else if s.down then s.emit (.host 1 false []) else f s

/-- TIER1_MAP_WRITE (R322). -/
def execTier1MapWrite (slot : Nat) (value : Word) (s : State) : Answer := event (servePf (writeMap slot value)) s

/-- A write of the physical function's BAR0 (R320, R322): only the tier-1 map is writable. -/
def writePf (off : Nat) (bs : List Byte) (s : State) : State :=
  (unitsOf 8 off bs.length).foldl (fun t k =>
    if 0x1000 ≤ k ∧ k < 0x1400 then
      let slot := k - 0x1000
      writeMap slot (word (overlay (assoc (0 : Word) t.tier1map slot).toNat 8 (8 * k) off bs)) t
    else t) s

/-- A write of a virtual function's BAR0 (R268): what is not named ignores it. The host programs the function's HDM decoder (R321) by a write of
the 8 bytes that follow BAR0's 256 MiB (DESIGN CHOICE, log 124). -/
def writeVf (vf off : Nat) (bs : List Byte) (s : State) : State :=
  let p := vf - 1
  let s := s.modPart p fun x =>
    { x with stagecpl := poke x.stagecpl 0x12000 0x1000 off bs,
             hdm := if touches 0x10000000 8 off bs then some (overlay (x.hdm.getD 0) 8 0x10000000 off bs) else x.hdm }
  let s := if touches 0x13004 0x10 off bs then writeStagectl p off bs s else s
  let s := (unitsOf 16 off bs.length).foldl (fun t k =>
    if 0x3000 ≤ k ∧ k < 0x3200 then writeDoorbell p (k - 0x3000) off bs t else t) s
  (unitsOf 4096 off bs.length).foldl (fun t k =>
    let n := k - 0x1000
    if 0x1000 ≤ k ∧ ownWindow t vf n = true then
      let lo := Nat.max off (4096 * k)
      writeWindow n (lo - 4096 * k) ((bs.drop (lo - off)).take (4096 * (k + 1) - lo)) t
    else t) s

/-- HOST_REGISTER_WRITE (R265, R268, R269, R278). -/
def execHostRegisterWrite (vf off : Nat) (bytes : List Byte) (s : State) : Answer :=
  event (fun s => if vf = 0 then servePf (writePf off bytes) s else serveVf vf (writeVf vf off bytes) s) s

/-- A read that covers a doorbell's COUNT returns it and clears it (R278). -/
def readDoorbell (p n : Nat) (s : State) : State :=
  if 512 ≤ n then s
  else
    let d := (s.part p).doorbell n
    (s.emit (.host 0 false d.bytes)).modPart p fun x => { x with doorbells := update Doorbell.n x.doorbells { d with count := 0 } }

/-- DOORBELL_COUNT_READ (R278). -/
def execDoorbellCountRead (vf n : Nat) (s : State) : Answer := event (serveVf vf (readDoorbell (vf - 1) n)) s

/-! Memory requests (R206, R207, R251, R262, R321). -/

/-- The owner and seal checks of R251 and R262: every granule is held by an owner of the set, and a write meets no seal. -/
def hostMay (s : State) (owners : List Nat) (addr n : Nat) (write : Bool) : Bool :=
  (granulesOf addr n).all fun g =>
    gotOwner (s.granule g) != 0 && owners.contains (gotOwner (s.granule g)) && !(write && gotSeal (s.granule g) != 0)

/-- The tier-0 address of a request, if it reaches one (R321): a BAR2 offset is one; a host physical address of CXL.mem is placed by the function's
HDM decoder. -/
def hostPlace (s : State) (vf : Nat) (a : HostAddr) (n : Nat) : Option Nat :=
  match (if a.cxl then (s.part (vf - 1)).hdm else some 0) with
  | some b => if b ≤ a.addr ∧ a.addr + n ≤ b + tier0End then some (a.addr - b) else none
  | none => none

/-- May a request reach its place (R251, R321)? Its address there, if so. -/
def hostGate (s : State) (vf : Nat) (a : HostAddr) (n : Nat) (write : Bool) : Option Nat :=
  (hostPlace s vf a n).filter fun pa => hostMay s (s.part (vf - 1)).owners pa n write

/-- A memory request. One outside tier 0, or one that fails the checks, as in the protected and the dump region it always does, is unsupported
(R321), and is logged with KIND 8 (R251), its CODE and DETAIL not stated (log 7). -/
def hostAccess (vf : Nat) (a : HostAddr) (n : Nat) (write : Bool) (f : Nat → State → State) (s : State) : State :=
  serveVf vf (fun s =>
    match hostGate s vf a n write with
    | some pa => f pa s
    | none => (s.emit (.host 1 false [])).logPart (vf - 1) { code := Config.errorCode, kind := 8, detail := Config.errorDetail a.addr }) s

/-- Where a request comes from, whose requests keep their order: a link of a peer, or a function of the host (R206, R325). -/
def requester : Request → Nat
  | .peerWrite link .. | .peerRead link .. | .peerGate link .. | .peerDoorbell link .. => link
  | .read vf .. | .write vf .. | .fetchadd vf .. | .swap vf .. | .cas vf .. => 12 + vf

/-- Serve a request at its home: it waits behind earlier ones of its requester, for a slice in retention (R259), and, where it writes, for a chunk
in exclusive mode that has read its line (R203). -/
def atHome (i : Request) (pa n : Nat) (write : Bool) (f : State → State) (s : State) : State :=
  let us := homeUnits s pa n
  if (s.pending.any fun j => requester j == requester i) ∨ asleep s us = true ∨ (write && heldByToken s s.nextId pa n) = true then
    { startExit us s with pending := s.pending ++ [i] }
  else f (noteUse us s)

/-- A host read (R206, R261): the latest committed value; a poisoned sector marks the data. -/
def hostRead (vf : Nat) (addr : HostAddr) (len : Nat) (s : State) : State :=
  hostAccess vf addr len false (fun pa => atHome (.read vf addr len) pa len false fun s =>
    let s := readLines (vf - 1) pa len s
    let (bs, t) := outBytes pa len s
    t.emit (.host 0 (poisoned s pa len) bs)) s

/-- HOST_READ (R206, R261). -/
def execHostRead (vf : Nat) (addr : HostAddr) (len : Nat) (s : State) : Answer := event (hostRead vf addr len) s

/-- A write of the host is a unit (R201, R206). -/
def hostStore (vf pa : Nat) (bs : List Byte) (s : State) : State := writeUnit (engineUnit s 0 0x1FFF) (vf - 1) pa bs s

/-- A host write (R206). -/
def hostWrite (vf : Nat) (addr : HostAddr) (bytes : List Byte) (s : State) : State :=
  hostAccess vf addr bytes.length true (fun pa => atHome (.write vf addr bytes) pa bytes.length true (hostStore vf pa bytes)) s

/-- HOST_WRITE (R206). -/
def execHostWrite (vf : Nat) (addr : HostAddr) (bytes : List Byte) (s : State) : Answer := event (hostWrite vf addr bytes) s

/-- An atomic of the host (R207): performed at the home slice as one unit, and answered with the old value; a CAS that fails
writes nothing. One that is not naturally aligned is unsupported (PRESUMED, log 30), after the owner check (R251). -/
def hostAtomic (i : Request) (vf : Nat) (addr : HostAddr) (n : Nat) (new : Nat → Option Nat) (s : State) : State :=
  hostAccess vf addr n true (fun pa s =>
    if pa % n ≠ 0 then s.emit (.host 1 false [])
    else atHome i pa n true (fun s =>
      let s := readLines (vf - 1) pa n s
      let (old, u) := outBytes pa n s
      let t := match new (leNat old) with
        | some v => hostStore vf pa (leBytes n v) u
        | none => u
      t.emit (.host 0 (poisoned s pa n) old)) s) s

/-- A host FetchAdd (R207). -/
def hostFetchadd (vf : Nat) (addr : HostAddr) (wide : Bool) (operand : Word) (s : State) : State :=
  hostAtomic (.fetchadd vf addr wide operand) vf addr (amoWidth wide) (fun old => some (old + operand.toNat)) s

/-- HOST_FETCHADD (R207). -/
def execHostFetchadd (vf : Nat) (addr : HostAddr) (wide : Bool) (operand : Word) (s : State) : Answer := event (hostFetchadd vf addr wide operand) s

/-- A host Swap (R207). -/
def hostSwap (vf : Nat) (addr : HostAddr) (wide : Bool) (operand : Word) (s : State) : State :=
  hostAtomic (.swap vf addr wide operand) vf addr (amoWidth wide) (fun _ => some operand.toNat) s

/-- HOST_SWAP (R207). -/
def execHostSwap (vf : Nat) (addr : HostAddr) (wide : Bool) (operand : Word) (s : State) : Answer := event (hostSwap vf addr wide operand) s

/-- A host CAS (R207): of 4 or 8 bytes; one of 16 bytes is unsupported and changes nothing, after the owner check (R251). -/
def hostCas (vf : Nat) (addr : HostAddr) (width : Nat) (compare swap : BitVec 128) (s : State) : State :=
  if width = 4 ∨ width = 8 then
    hostAtomic (.cas vf addr width compare swap) vf addr width
      (fun old => if old = compare.toNat % 256 ^ width then some swap.toNat else none) s
  else hostAccess vf addr width true (fun _ => State.emit (.host 1 false [])) s

/-- HOST_CAS (R207). -/
def execHostCas (vf : Nat) (addr : HostAddr) (width : Nat) (compare swap : BitVec 128) (s : State) : Answer := event (hostCas vf addr width compare swap) s

end Sys2Proof.Machine
end

