-- ==== Sys2Proof/Machine/Reset.lean ====
section
/-! DEFINITION. Resets: of a partition, warm and cold (spec/16 R300 to R302, spec/18 R326, R327), and the package fatal error with its
crash dump (spec/16 R310, R311). -/

namespace Sys2Proof.Machine

open Crypto

/-! Partition reset (R300). -/

/-- The cores of a partition. -/
def coresOf (s : State) (p : Nat) : List Nat :=
  (s.cores.filter fun k => (s.part p).hasCluster (clusterNo k.id)).map Core.id

/-- A core after a partition reset: inbox, ports, claims and bindings go; its memories clear once the copy-outs that still read them
have ended. -/
def resetCore (core : Nat) (s : State) : State :=
  let s := s.modCore core fun k =>
    { k with inbox := [], ports := Vector.replicate 4 [], lingering := [], boundRec := [], claim := none, reservedFor := none, clearing := true }
  finishClear core s

/-- A queue after a partition reset (R269, R300): EN = 0, an empty ring and zero slots. -/
def Queue.cleared (q : Queue) : Queue :=
  { q.release with qcfg := q.qcfg &&& ~~~1, waiting := 0, pending := [], slots := [], free := 0xFF, deficit := 0, heldAt := none, looked := 0,
                   tearing := false }

/-- The partition's own part of a reset (R265, R300): staging ring and counters, doorbells. -/
def Part.cleared (x : Part) : Part :=
  { x with doorbells := [], stage := [], stail := 0, shead := 0, ctail := 0, chead := 0 }

/-- A child that waits in the outbox of a capsule of the list for room in its queue's ring (R219). -/
def heldChild (caps : List Nat) : Effect → Bool
  | .spawn c => caps.contains c.cap
  | _ => false

/-- A partition reset (R300): its tasks stop without reports or completion records, leases end, everything of it is cleared, its outboxes among
it, and a KIND 7 entry with CODE 1 is written. Memory, ownership, keys and configuration stay. -/
def resetPartition (p : Nat) (s : State) : State :=
  let caps := (s.caps.filter fun c => c.part == p).map Capsule.id
  let s := caps.foldl (fun t id => onHarts (t.hartsOf id) endContext (cancelCopyIns (fun c => c.cap == id) (dropMessages id t))) s
  let s := { s with caps := s.caps.filter fun c => !(c.part == p)
                    heldx := s.heldx.filter fun x => !heldChild caps x.2.2
                    selected := s.selected.filter fun n => (s.queue n).partition != some p
                    queues := s.queues.map fun q => if q.partition = some p then q.cleared else q
                    clusters := s.clusters.map fun k => if (s.part p).hasCluster k.no then { k with park := [], extbufs := [], ro := [] } else k }
  let s := (coresOf s p).foldl (fun t k => resetCore k t) s
  (s.modPart p Part.cleared).logPart p { code := 1, kind := 7 }

/-- A partition reset begins: its effects are of one step, and it stays in progress for a free time of at most 10 ms (R300; DESIGN
CHOICE, log 95). -/
def beginReset (p : Nat) (host : Bool) (s : State) : State :=
  let (w, s) := s.free
  (resetPartition p s).modPart p fun x => { x with resetEnd := s.clock + w.toNat % 10000001, resetHost := host }

/-- Is a reset in progress whose scope is as wide, or wider (R302)? -/
def inProgress (s : State) (scope : Nat) : Bool :=
  match s.resetting with
  | some r => decide (scope ≤ r)
  | none => false

/-- FUNCTION_LEVEL_RESET (R300, R302): within a reset of the partition it is that reset. -/
def execFunctionLevelReset (vf : Nat) (s : State) : Answer :=
  event (fun s => if vf = 0 ∨ 16 < vf ∨ inProgress s 1 = true ∨ s.inReset (vf - 1) = true then s
    else beginReset (vf - 1) true s) s

/-! Warm and cold reset (R301). -/

/-- A cluster after a warm reset: its registers are as after reset; copies that accepted commits released run on, and what a scrub
has still to clear stays taken. -/
def Cluster.warm (c : Cluster) : Cluster :=
  { Cluster.reset c.no with chans := c.chans, copyWait := c.copyWait, rings := c.rings, opbuf := c.opbuf }

/-- A core after a warm reset: the regions that copies hold stay held. -/
def Core.warm (k : Core) : Core := { Core.reset k.id with pad := k.pad, held := k.held, clearing := !k.held.isEmpty }

/-- Saffron after a warm reset (R293, R301, R331): its firmware state goes, keys, private SRAM and hash contexts among it; flash, what the
kit left in the memory map, and NONCE's count stand (DEDUCED, log 89). -/
def Saffron.warm (x : Saffron) : Saffron :=
  { x with keys := Saffron.reset.keys, sram := [], hash := Saffron.reset.hash, mr := Vector.replicate 16 0, windows := [], kek := none,
           device := 0, reserve := 0, misses := 0, loaded := false, testAt := none, dumpEnd := 0, fwcode := 0, fwpc := 0, fwdetail := 0 }

/-- A warm reset begins (R301): R300 for every partition; configurations, bindings and the budget take their reset values; event logs
restart (R307); tier 0, ownership and keys stand; the boot runs again. -/
def warmReset (s : State) : State :=
  let s := (List.range 16).foldl (fun t p => resetPartition p t) s
  let s := { s with
    hart := Hart.reset saffronId .saffron saffronCore
    parked := []
    parts := []
    queues := []
    selected := []
    caps := []
    clusters := s.clusters.map Cluster.warm
    cores := s.cores.map Core.warm
    net := []
    queries := []
    returns := []
    codeCache := []
    tokens := []
    arbiters := State.reset.arbiters
    reports := []
    saffron := s.saffron.warm
    phase := .booting
    budget := 1600
    spdm := []
    retained := []
    exiting := []
    pending := []
    releasing := []
    suspended := []
    mckeys := []
    resetting := some 2
    resetAt := s.clock }
  s.logPkg { code := 2, kind := 7 }

/-- A cold reset: every supply but that of the management domain goes, so everything but the domain, Sumac among it, flash and what
lies outside the package starts anew (R293, R301). -/
def coldReset (s : State) : State :=
  let n := State.reset
  let s := { n with agenda := s.agenda
                    fresh := s.fresh
                    clock := s.clock
                    nextId := s.nextId
                    host := s.host
                    sumac := { s.sumac with armed := false }
                    saffron := { n.saffron with flashA := s.saffron.flashA, flashB := s.saffron.flashB, updated := s.saffron.updated }
                    out := s.out
                    resetting := some 3
                    resetAt := s.clock
                    input := s.input }
  s.logPkg { code := 3, kind := 7 }

/-- WARM_RESET_TIMEOUT (R293, R301): a warm reset that is not complete in 2 s becomes a cold reset. -/
def execWarmResetTimeout (s : State) : Answer :=
  event (fun s => if s.resetting = some 2 ∧ 2000000000 ≤ s.clock - s.resetAt then coldReset s else s) s

/-- INPUT_OUT_OF_RANGE (R326): at a magnitude outside 40 to 60 V the main supplies are held off, and PLDM reports the voltage. -/
def inputOut (mv : Int) (s : State) : State :=
  if 40000 ≤ mv.natAbs ∧ mv.natAbs ≤ 60000 then s
  else
    let s := { s with input := some mv }
    if s.phase = .off then s.emit (.supplies false) else (coldReset s).emit (.supplies false)

/-- INPUT_OUT_OF_RANGE (R326). -/
def execInputOutOfRange (millivolts : Int) (s : State) : Answer := event (inputOut millivolts) s

/-- INPUT_LOSS (R326): with the main supplies on, it is a cold reset once power returns. -/
def execInputLoss (s : State) : Answer := event (fun s => if s.phase = .off then s else coldReset s) s

/-! The package fatal error and its crash dump (R310, R311). -/

/-- Does a service core answer Saffron (R310): its image is there, its firmware is not halted, and it has missed no echo since the last
it answered? -/
def answers (s : State) (cl : Nat) : Bool :=
  let c := s.cluster cl
  c.image && c.misses == 0 && !c.lost && s.harts.any fun h => h.kind == .firmware && h.core == serviceCore cl && h.run != .halted

/-- The writer of the dump: the lowest service core of CD0 that answers, any other that answers (which one is free), or Saffron. -/
def dumpWriter (s : State) : Nat :=
  match (List.range 32).find? (answers s) with
  | some cl => serviceCore cl
  | none =>
    let l := (List.range' 32 96).filter (answers s)
    match l[Config.freeNat s.fresh % l.length]? with
    | some cl => serviceCore cl
    | none => saffronCore

/-- Section 0: the event logs, 64 KiB each. -/
def dumpLogs (s : State) : List Byte :=
  let image := fun (l : Log) => (List.range 0x10000).map l.byte
  (((List.range 16).map fun p => image (s.part p).log).flatten) ++ image s.pkglog

/-- Section 1: the partition configurations. -/
def configBytes (s : State) : List Byte := ((List.range 16).map fun p => (s.part p).cfg.readBytes 0 0x300).flatten

/-- The queues in ascending number. -/
def sortedQueues (s : State) : List Queue :=
  s.queues.foldl (fun acc q => acc.filter (fun x => x.no < q.no) ++ q :: acc.filter fun x => q.no < x.no) []

/-- Section 2: one entry for each enabled queue. -/
def dumpQueues (s : State) : List Byte :=
  (((sortedQueues s).filter Queue.en).map fun q =>
    leBytes 2 q.no ++ leBytes 1 (q.partition.getD 0) ++ List.replicate 5 0 ++ leBytes 8 q.qcfg.toNat ++ leBytes 8 q.qstat.toNat ++
    leBytes 8 q.srbase.toNat ++ leBytes 8 q.crbase.toNat ++ leBytes 8 q.gateStatus.toNat ++ List.replicate 16 0).flatten

/-- Section 3: the last 256 fault reports, SREG zeroed. -/
def dumpReports (s : State) : List Byte := (s.reports.map fun m => (m.clear 0x100 0x100).readBytes 0 512).flatten

/-- Section 4: the clusters. -/
def dumpClusters (s : State) : List Byte :=
  ((List.range 128).map fun cl =>
    let c := s.cluster cl
    leBytes 8 c.clstat.toNat ++ leBytes 8 c.summary.toNat ++ leBytes 8 (clusterState cl s).toNat ++
    (c.repair.toList.map fun e => leBytes 4 e.toNat).flatten ++ List.replicate 40 0).flatten

/-- The core whose chunk holds the token of an arbiter. -/
def tokenHolder (s : State) (a : Nat) : Nat :=
  match s.harts.find? fun h => s.tokens.contains (tokenOf h) && (tokenMask h).getLsbD a with
  | some h => h.core
  | none => 0xFFFF

/-- Section 5: the arbiters. -/
def dumpArbiters (s : State) : List Byte :=
  ((List.range 5).map fun a =>
    let x := s.arbiters.get (Fin.ofNat 5 a)
    let waiting := s.harts.countP fun h => (arbiterOf h).val == a && match h.run with
      | .committing _ => true
      | _ => false
    leBytes 2 (tokenHolder s a) ++ leBytes 2 waiting ++ leBytes 8 x.commits ++ leBytes 8 x.squashes ++
    ((List.range 8).map fun i => leBytes 4 (x.last.getD i 0)).flatten ++ List.replicate 12 0).flatten

/-- Section 6: the firmware fault registers. -/
def dumpFaults (s : State) : List Byte :=
  let entry := fun (c p d : Word) => leBytes 8 c.toNat ++ leBytes 8 p.toNat ++ leBytes 8 d.toNat ++ List.replicate 8 0
  ((List.range 128).map fun cl => let c := s.cluster cl; entry c.fwcode c.fwpc c.fwdetail).flatten ++
  entry s.saffron.fwcode s.saffron.fwpc s.saffron.fwdetail

/-- The sections in their order. -/
def dumpSections (s : State) : List (List Byte) :=
  [dumpLogs s, configBytes s, dumpQueues s, dumpReports s, dumpClusters s, dumpArbiters s, dumpFaults s]

/-- The table of sections: offset and length of each, one after the other from the end of the header; the eighth entry is unused. -/
def sectionTable : Nat → List (List Byte) → List Byte
  | _, [] => []
  | off, x :: xs => leBytes 4 off ++ leBytes 4 x.length ++ sectionTable (off + x.length) xs

/-- How long Saffron is busy with a dump: R310 says about 50 ms (DESIGN CHOICE, log 126). -/
def dumpNs : Nat := 50000000

/-- Write the crash dump (R311). Its IV is free (log 7). -/
def writeDump (trigger : Nat) (s : State) : State :=
  let time := s.now
  let key := keyBytes (Config.dumpKey time)
  let iv := leBytes 12 (Config.freeNat (s.fresh + 1))
  let head := leBytes 4 0x504D5544 ++ leBytes 2 1 ++ leBytes 2 trigger ++ leBytes 8 time.toNat ++ leBytes 2 (dumpWriter s) ++ leBytes 2 0 ++ iv
  let plain := (dumpSections s).flatten
  let c := gcmCrypt key iv plain
  let table := sectionTable 0x1000 (dumpSections s) ++ List.replicate 8 0
  let bytes := head ++ gcmTag key iv head c ++ table ++ List.replicate 0xF90 0 ++ c
  { s with mem := (s.mem.clear dumpBase 0x10000000).writeBytes dumpBase bytes
           fresh := s.fresh + 2
           saffron := { s.saffron with dumpTime := time, trigger := trigger, nfatal := 0, dumpEnd := s.clock + dumpNs } }

/-- A package fatal error (R310): all issue stops and the dump is written, and a boot under way is over, so that management can reset the package; a
further error before the reset counts in NFATAL. -/
def packageFatal (trigger : Nat) (s : State) : State :=
  if s.down then s
  else if s.phase = .fatal then
    let n := Nat.min 65535 (s.saffron.nfatal + 1)
    { s with saffron := { s.saffron with nfatal := n }, mem := s.mem.writeLE (dumpBase + 0x12) 2 n }
  else { writeDump trigger s with phase := .fatal, resetting := none }

/-- PACKAGE_FATAL_ERROR (R310, R311). -/
def execPackageFatalError (trigger : Nat) (s : State) : Answer := event (packageFatal trigger) s

/-! Heartbeats (R305). -/

/-- HEARTBEAT_ECHO (R305): which service cores, and whether Saffron, missed this one. -/
def echo (missed : List Nat) (saffronMissed : Bool) (s : State) : State :=
  let s := { s with clusters := s.clusters.map fun (c : Cluster) => if missed.contains c.no then c else { c with misses := 0, lost := false },
                    saffron := { s.saffron with misses := if saffronMissed then s.saffron.misses + 1 else 0 } }
  missed.eraseDups.foldl (fun t cl => t.modCluster cl fun c => { c with misses := c.misses + 1 }) s

/-- HEARTBEAT_ECHO (R305). -/
def execHeartbeatEcho (missed : List Nat) (saffronMissed : Bool) (s : State) : Answer := event (echo missed saffronMissed) s

/-- Abort the capsules with a task migrated to a service core (R305): ABORTED, DETAIL 1. -/
def abortMigrated (cl : Nat) (s : State) : State :=
  let caps := ((s.harts.filter fun h => h.migrated && h.core == serviceCore cl && h.run != .ended).map Hart.cap).eraseDups
  caps.foldl (fun t id => abortCapsule id Code.aborted.num (bareReport t id Code.aborted.num 1) t) s

/-- The staging requests that a service core posted are answered as failed (R305): STAGING_FAIL, whose DETAIL is then not stated. -/
def failStaging (cl : Nat) (s : State) : State :=
  (List.range 16).foldl (fun t p =>
    ((t.part p).stage.filter fun r => r.open_ && r.poster == cl).foldl (fun u r =>
      let (d, u) := u.free
      answerStage p (Nat.max 1 (d.toNat % 65536)) r u) t) s

/-- HEARTBEAT_FAILURE (R305): three echoes missed in a row. -/
def heartbeatFailure (who : Option Nat) (s : State) : State :=
  match who with
  | some cl =>
    if 3 ≤ (s.cluster cl).misses then
      failStaging cl (abortMigrated cl (fenceOther cl (s.modCluster cl fun c => { c with misses := 0, lost := true })))
    else s
  | none => if 3 ≤ s.saffron.misses then packageFatal 2 { s with saffron := { s.saffron with misses := 0 } } else s

/-- HEARTBEAT_FAILURE (R305, R310). -/
def execHeartbeatFailure (who : Option Nat) (s : State) : Answer := event (heartbeatFailure who) s

/-! Diagnosis of a suspect array (R312). -/

/-- ARRAY_DIAGNOSIS (R216, R312): once no lease of the cluster holds a grant. Without a mismatch SUSPECT and FENCED go; a mismatch leaves
the cluster fenced until the next warm reset. A cluster that became suspect a third time within 24 hours is not diagnosed. -/
def diagnose (cl : Nat) (mismatch : Bool) (s : State) : State :=
  let c := s.cluster cl
  if bitOf c.clstat.toNat 1 = false ∨ c.grant.isSome = true ∨ c.failed = true then s
  else if mismatch then s.modCluster cl fun c => { c with failed := true }
  else logFence (serviceCore cl) (admitCluster cl (s.modCluster cl (writeClstat 0)))

/-- ARRAY_DIAGNOSIS (R312). -/
def execArrayDiagnosis (cluster : Nat) (mismatch : Bool) (s : State) : Answer := event (diagnose cluster mismatch) s

end Sys2Proof.Machine
end

