-- ==== Sys2Proof/Machine/Boot.lean ====
section
/-! DEFINITION. The boot: the firmware kit and its checks, measurement, the delivery of images and the limit of the self test
(spec/14 R246, spec/16 R313, spec/18 R327 to R331). -/

namespace Sys2Proof.Machine

open Crypto

/-! The kit (R328, R329). -/

/-- A section table entry (R328). -/
structure Section where
  type : Nat
  role : Nat
  reserved : Nat
  off : Nat
  len : Nat
  digest : List Byte
deriving DecidableEq, Repr

def kitNsec (m : Memory) : Nat := m.readLE 0x006 2
def kitLen (m : Memory) : Nat := m.readLE 0x008 4

/-- The sections of a kit, in order. -/
def kitSections (m : Memory) : List Section :=
  (List.range (kitNsec m)).map fun i =>
    let a := 0x100 + 64 * i
    { type := m.readLE a 2, role := m.readLE (a + 2) 2, reserved := m.readLE (a + 4) 4, off := m.readLE (a + 8) 4,
      len := m.readLE (a + 12) 4, digest := m.readBytes (a + 16) 48 }

/-- The first section of a type. -/
def kitSection (m : Memory) (type : Nat) : Option Section := (kitSections m).find? fun x => x.type == type

/-- A byte of a section. -/
def Section.byte (x : Section) (m : Memory) (i : Nat) : Nat := (m.read (x.off + i)).toNat

/-- The placement table names every cluster exactly once, each with a role-2 image (R329). -/
def placementOk (m : Memory) (x : Section) : Bool :=
  let rows := (List.range (x.len / 4)).map fun i => (x.byte m (4 * i), x.byte m (4 * i + 1), x.byte m (4 * i + 2), x.byte m (4 * i + 3))
  x.len % 4 == 0 &&
  (rows.all fun r => r.2.2.2 == 0 && decide (r.1 ≤ r.2.1) && match (kitSections m)[r.2.2.1]? with
    | some y => y.type == 1 && y.role == 2
    | none => false) &&
  (List.range 128).all (fun c => (rows.countP fun r => decide (r.1 ≤ c) && decide (c ≤ r.2.1)) == 1) &&
  rows.all fun r => decide (r.2.1 < 128)

/-- From a cluster upward in the boot tree: does Saffron stand at the top, within `k` parents? -/
def reachesRoot (m : Memory) (x : Section) : Nat → Nat → Bool
  | 0, _ => false
  | k + 1, c =>
    let p := x.byte m c
    p == 0xFF || (decide (p < 128) && reachesRoot m x k p)

/-- The rules of R329 on one section. -/
def sectionOk (m : Memory) (x : Section) : Bool :=
  x.reserved == 0 && decide (x.off + x.len ≤ kitLen m - 96) && x.digest == sha384 (m.readBytes x.off x.len) &&
  match x.type with
  | 1 => decide (1 ≤ x.role) && decide (x.role ≤ 3)
  | 2 => x.role == 0 && placementOk m x
  | 3 => x.role == 0 && x.len == 128 && (List.range 128).all (reachesRoot m x 128)
  | 4 => x.role == 0 && x.len == 24 && (List.range 8).all fun t => ((List.range 24).countP fun i => x.byte m i == t) == 3
  | 5 => x.role == 0 && x.len == 48 && x.byte m 1 == 0 && (m.readBytes (x.off + 4) 12).all (· == 0)
  | _ => false

/-- The digest of a kit under its signature: bytes 0 to KLEN − 97 (R328). -/
def kitDigest (m : Memory) : List Byte := sha384 (m.readBytes 0 (kitLen m - 96))

/-- Does a kit pass the checks of the ROM (R328)? Of the tables a kit has one each, of the images for roles 1 and 3 one each (R329). -/
def kitOk (m : Memory) : Bool :=
  let xs := kitSections m
  m.readLE 0 4 == 0x4B5A4C47 && m.readLE 4 2 == 1 && decide (1 ≤ kitNsec m) && decide (kitNsec m ≤ 64) && decide (96 ≤ kitLen m) &&
  sha384 (m.readBytes 0x010 96) == leBytes 48 Config.fusedSigner.toNat && decide (Config.fusedFloor ≤ m.readLE 0x00C 4) &&
  ecVerify (kitDigest m) (pairOf (m.readBytes 0x010 96)) (pairOf (m.readBytes (kitLen m - 96) 96)) && (m.readBytes 0x070 0x90).all (· == 0) &&
  xs.all (sectionOk m) && (xs.countP fun x => x.type == 1 && x.role == 1) == 1 && (xs.countP fun x => x.type == 1 && x.role == 3) == 1 &&
  [2, 3, 4, 5].all fun t => (xs.countP fun x => x.type == t) == 1

/-! Measurement (R331). -/

/-- Extend a measurement register with a digest, whole (R331). -/
def extend (n : Nat) (x : List Byte) (s : State) : State :=
  let old := s.saffron.mr.get (Fin.ofNat 16 n)
  let new := BitVec.ofNat 384 (leNat (sha384 (leBytes 48 old.toNat ++ x)))
  { s with saffron := { s.saffron with mr := Vector.ofFn fun i => if i.val = n then new else s.saffron.mr.get i } }

/-- What the ROM measures of a kit, in order (R331). -/
def measurements (m : Memory) : List (Nat × List Byte) :=
  let xs := kitSections m
  let of := fun (n : Nat) (p : Section → Bool) => (xs.filter p).map fun x => (n, x.digest)
  [(0, sha384 (m.readBytes 0 0x100))] ++ of 1 (fun x => x.type == 1 && x.role == 1) ++ of 2 (fun x => x.type == 1 && x.role == 2) ++
  of 3 (fun x => x.type == 2) ++ of 3 (fun x => x.type == 3) ++ of 4 (fun x => x.type == 4) ++ of 4 (fun x => x.type == 5) ++
  of 7 (fun x => x.type == 1 && x.role == 3)

/-- Saffron takes a kit (R246, R327, R329): it measures it, and reads the memory map, which then stays until a cold reset, and the
management section; the memory controllers have their keys (R253). The boot of a warm reset has taken an update into account, a cold one has not
(R327). -/
def takeKit (b : Bool) (m : Memory) (s : State) : State :=
  let s := loadAllKeys ((measurements m).foldl (fun t x => extend x.1 x.2 t) s)
  let home := match kitSection m 4 with
    | some x => if s.saffron.mapped then s.homemap else (List.range 24).map (x.byte m)
    | none => s.homemap
  match kitSection m 5 with
  | none => { s with homemap := home }
  | some x =>
    let kek := BitVec.ofNat 256 (m.readLE (x.off + 16) 32)
    { s with homemap := home
             saffron := { s.saffron with bootedB := b, updated := if s.resetting = some 2 then none else s.saffron.updated, loaded := true, mapped := true, device := x.byte m 0, reserve := m.readLE (x.off + 2) 2,
                                         kek := if kek = 0 then none else some kek } }

/-- Does the ROM try slot B first: a warm reset after an update of it (R327; DEDUCED, log 102)? -/
def triesB (s : State) : Bool := s.resetting == some 2 && s.saffron.updated == some true

/-- POWER_UP (R301, R327): Saffron verifies slot A, then slot B, and boots from the first that passes; a slot that was updated comes first
in the next warm reset; with none the compute dies stay in reset. After a cold reset the supplies return after 500 ms. -/
def powerUp (s : State) : State :=
  let ready := match s.resetting with
    | some 3 => decide (500000000 ≤ s.clock - s.resetAt)
    | _ => true
  if (s.phase = .off ∨ s.phase = .booting) ∧ s.saffron.loaded = false ∧ ready = true then
    let s := if s.phase = .off then { s with input := none }.emit (.supplies true) else s
    let s := { s with phase := .booting }
    if triesB s && kitOk s.saffron.flashB then takeKit true s.saffron.flashB s
    else if kitOk s.saffron.flashA then takeKit false s.saffron.flashA s
    else if kitOk s.saffron.flashB then takeKit true s.saffron.flashB s
    else s
  else s

/-- POWER_UP (R327 to R329, R331). -/
def execPowerUp (s : State) : Answer := event powerUp s

/-! Images (R330). -/

/-- The kit that was booted from. -/
def State.kit (s : State) : Memory := if s.saffron.bootedB then s.saffron.flashB else s.saffron.flashA

/-- May a service core receive its image now: its parent has its own, or Saffron feeds it, directly or in place of a parent whose
image failed (R330)? -/
def fed (s : State) (cl : Nat) : Bool :=
  match kitSection s.kit 3 with
  | none => false
  | some x =>
    let p := x.byte s.kit cl
    p == 0xFF || (s.cluster p).image || decide (2 ≤ (s.cluster p).badImages)

/-- The self test begins when every service core has its image or its cluster is fenced (R313, R327). -/
def beginTest (s : State) : State :=
  if s.saffron.testAt = none ∧ ((List.range 128).all fun cl => (s.cluster cl).image || bitOf (s.cluster cl).clstat.toNat 0) = true then
    { s with saffron := { s.saffron with testAt := some s.clock } }
  else s

/-- The firmware of a service core as it starts: its PC is not stated, so it is free (log 2). -/
def startFirmware (cl : Nat) (s : State) : State :=
  let (pc, s) := s.free
  let h := Hart.reset s.nextId .firmware (serviceCore cl)
  { s with nextId := s.nextId + 1, parked := s.parked ++ [{ h with run := .ready, r := { h.r with pc := pc } }] }

/-- The digest of the image that the placement table names for a cluster (R328, R329). -/
def imageDigest (m : Memory) (cl : Nat) : Option (List Byte) :=
  match kitSection m 2 with
  | none => none
  | some x =>
    ((List.range (x.len / 4)).find? fun i => decide (x.byte m (4 * i) ≤ cl) && decide (cl ≤ x.byte m (4 * i + 1))).bind fun i =>
      ((kitSections m)[x.byte m (4 * i + 2)]?).map Section.digest

/-- IMAGE_DELIVERY (R330): an image that passes its check against its section's digest starts its core; the second that fails fences the
cluster. -/
def deliverImage (cl : Nat) (bytes : List Byte) (s : State) : State :=
  let c := s.cluster cl
  let good := imageDigest s.kit cl == some (sha384 bytes)
  if s.phase ≠ .booting ∨ s.saffron.loaded = false ∨ 128 ≤ cl ∨ c.image = true ∨ 2 ≤ c.badImages ∨ fed s cl = false then s
  else if good then beginTest (startFirmware cl (s.modCluster cl fun c => { c with image := true }))
  else
    let s := s.modCluster cl fun c => { c with badImages := c.badImages + 1 }
    if c.badImages = 0 then s else bootProgress (beginTest (fenceOther cl s))

/-- IMAGE_DELIVERY (R330). -/
def execImageDelivery (cluster : Nat) (bytes : List Byte) (s : State) : Answer := event (deliverImage cluster bytes) s

/-- SUMMARY_TIMEOUT (R313, R317): 500 ms after the self test began, a cluster without a summary is fenced, and STATE 0x03 is recorded;
a later write counts as a repeat. The limit passes also where the boot is over meanwhile, since the cluster was fenced for another cause. -/
def summaryTimeout (cl : Nat) (s : State) : State :=
  match s.saffron.testAt with
  | none => s
  | some t =>
    if s.phase ≠ .fatal ∧ cl < 128 ∧ (s.cluster cl).summarised = false ∧ 500000000 ≤ s.clock - t then
      let u := s.modCluster cl fun c => { c with summary := 0x03000000, summarised := true }
      bootProgress (if (s.cluster cl).fencedOther then u else fenceOther cl u)
    else s

/-- SUMMARY_TIMEOUT (R313). -/
def execSummaryTimeout (cluster : Nat) (s : State) : Answer := event (summaryTimeout cluster) s

end Sys2Proof.Machine
end

