-- ==== Sys2Proof/Machine/Cumin.lean ====
section
/-! DEFINITION. Cumin, the work distributor: what it answers, and the landing of its answers (spec/03 R92 to R94, R100, spec/13
R241, R242, spec/14 R260). -/

namespace Sys2Proof.Machine

/-- The answer that says that nothing remains, and the answer to a bad descriptor (R92). -/
def endToken : Word := 0xFFFFFFFFFFFFFFFF
def errorAnswer : Word := 0xFFFFFFFFFFFFFFFE

/-- Fields of a descriptor (R92). -/
def gridNext (d : Memory) : Nat := d.readLE 0 4
def gridLimit (d : Memory) : Nat := d.readLE 4 4
def gridX (d : Memory) : Nat := d.readLE 8 2
def gridY (d : Memory) : Nat := d.readLE 10 2
def gridOrder (d : Memory) : Nat := d.readLE 12 1

/-- Is a descriptor well formed (R92)? -/
def gridOk (d : Memory) : Bool :=
  decide (gridOrder d < 3) && (d.readBytes 13 19).all (· == 0) && gridX d != 0 && gridY d != 0 && decide (gridLimit d ≤ gridX d * gridY d)

/-- ANS of item i: i, y and x, by the formula of R92 (DEDUCED, log 140). -/
def gridAnswer (d : Memory) (i : Nat) : Word :=
  let u := if gridOrder d = 2 then gridLimit d - 1 - i else i
  let p := if gridOrder d = 1 then (u / gridY d, u % gridY d) else (u % gridX d, u / gridX d)
  word (i % 2 ^ 32 * 2 ^ 32 + p.2 % 65536 * 65536 + p.1 % 65536)

/-- The lowest-numbered item on a descriptor's return list (R94). -/
def lowestReturn (s : State) (desc : Nat) : Option Nat :=
  (s.returns.filter fun r => r.1 == desc).foldl (fun acc r => match acc with
    | none => some r.2
    | some i => some (Nat.min i r.2)) none

/-- Is a reservation of a descriptor outstanding: its chunk is open, or its item has not come back yet (R94)? -/
def outstanding (s : State) (desc : Nat) : Bool := s.queries.any fun q => q.desc == desc && q.item.isSome && q.fate != 1

/-- The open queries of a context, in issue order. -/
def openQueries (s : State) (hart : Nat) : List Query := s.queries.filter fun q => q.hart == hart && q.fate == 0

/-- The answer that the other copy of a pair has had to the same query of its chunk (R94, R100). -/
def sharedAnswer (s : State) (i : Nat) (q : Query) : Option Word :=
  let n := ((s.queries.take i).filter fun x => x.hart == q.hart && x.fate == 0).length
  match (s.hart? q.hart).bind Hart.partner with
  | none => none
  | some p => ((openQueries s p)[n]?).bind Query.answer

/-- What Cumin does with a query now: its answer with the item it reserves, and the state; none while it waits (R92, R94, R260). -/
def serve (i : Nat) (q : Query) (s : State) : Option (Word × Option Nat × State) :=
  let s := readLines (partOf s q.cap) q.desc 32 s
  let d := s.mem.window q.desc 32
  match sharedAnswer s i q with
  | some a => some (a, none, s)
  | none =>
    if (poisonCause s q.desc 32).isSome then some (errorAnswer, none, s)
    else if !gridOk d then
      some (errorAnswer, none, s.logPart (partOf s q.cap) { code := Code.distError.num, kind := 1, core := q.core, detail := word q.desc })
    else match lowestReturn s q.desc with
      | some n => some (gridAnswer d n, some n, { s with returns := s.returns.erase (q.desc, n) })
      | none =>
        if gridNext d < gridLimit d then
          let n := gridNext d
          some (gridAnswer d n, some n, putMem (engineUnit s q.cap q.core) q.desc (leBytes 4 (n + 1)) s)
        else if outstanding s q.desc then none
        else some (endToken, none, s)

/-- The waiting query of a descriptor that arrived first: its index (R241). -/
def firstWaiting (s : State) (desc : Nat) : Option (Nat × Query) :=
  ((List.range s.queries.length).zip s.queries).foldl (fun acc x =>
    if x.2.desc = desc ∧ x.2.answer = none ∧ x.2.arrived.isSome = true then
      match acc with
      | none => some x
      | some y => if x.2.arrived.getD 0 < y.2.arrived.getD 0 then some x else acc
    else acc) none

/-- Answer the waiting queries of a descriptor in the order they arrived, as far as they can be answered (R241). -/
def answerWaiting (desc : Nat) : Nat → State → State
  | 0, s => s
  | n + 1, s =>
    match firstWaiting s desc with
    | none => s
    | some (i, q) =>
      match serve i q s with
      | none => s
      | some (a, item, t) =>
        answerWaiting desc n { t with queries := t.queries.set i { q with answer := some a, item := item } }

/-- The same for every waiting query: Cumin waits for a descriptor's slice in retention (R259). -/
def answerDesc (desc : Nat) (s : State) : State :=
  let units := homeUnits s desc 32
  if (firstWaiting s desc).isNone then s
  else if asleep s units then startExit units s
  else answerWaiting desc s.queries.length (noteUse units s)

/-- A query reaches the home slice, behind those of its core that were issued before it, and Cumin serves what it can (R94, R241). -/
def cuminQuery (i : Nat) (s : State) : State :=
  match s.queries[i]? with
  | none => s
  | some q =>
    if q.answer.isSome then s
    else if q.arrived.isSome then answerDesc q.desc s
    else if (s.queries.take i).any fun x => x.core == q.core && x.desc == q.desc && x.arrived.isNone then s
    else
      let n := s.queries.foldl (fun m x => Nat.max m (x.arrived.getD 0)) 0 + 1
      answerDesc q.desc { s with queries := s.queries.set i { q with arrived := some n } }

/-- CUMIN_QUERY (R92, R94, R241). -/
def execCuminQuery (q : Nat) (s : State) : Answer := event (cuminQuery q) s

/-- Has a later query named the same word (R94)? -/
def renamed (s : State) (i : Nat) (q : Query) : Bool :=
  (s.queries.drop (i + 1)).any fun x => x.core == q.core && x.word == q.word && !x.landed

/-- An answer arrives at its core (R93, R94, R242): it fills its word; that of a discarded chunk is never written, its word is full
again with the value it held, unless a later query has named it since, and its item returns. The write of the word meets poison as every
write does (R261). -/
def landAnswer (i : Nat) (s : State) : State :=
  match s.queries[i]? with
  | none => s
  | some q =>
    match q.answer with
    | none => s
    | some a =>
      if q.landed then s
      else
        let keep := q.fate = 2 ∧ renamed s i q = true
        let full := fun (k : Core) => if keep then k.empty else k.empty.filter (· != q.word)
        let s := s.modCore q.core fun k =>
          { k with empty := full k, pad := if q.fate = 2 then k.pad else k.pad.writeLE (8 * q.word) 8 a.toNat }
        let s := if q.fate = 2 then s else settlePad (partOf s q.cap) q.core [(8 * q.word, 8)] s
        let back := q.fate = 2 ∧ q.item.isSome = true
        let s := if back then { s with returns := (q.desc, q.item.getD 0) :: s.returns } else s
        let s := { s with queries := if q.fate = 0 then s.queries.set i { q with landed := true } else s.queries.eraseIdx i }
        releaseCore q.core (if back then answerDesc q.desc s else s)

/-- WQRY_ANSWER (R93, R94, R242). -/
def execWqryAnswer (q : Nat) (s : State) : Answer := event (landAnswer q) s

end Sys2Proof.Machine
end

