-- ==== Sys2Proof/Machine/Mgmt.lean ====
section
/-! DEFINITION. The management interface: commands, configuration and its lock, the table operations of Saffron, PLDM (spec/14 R252 to
R254, R262, spec/15 R266, R290, spec/16 R299 to R302, R307 to R309, R311, R347, spec/18 R324, R331 to R333). -/

namespace Sys2Proof.Machine

open Crypto

/-! Answers and paths (R308, R309). -/

/-- The completion codes (R309). -/
def success : Nat := 0
def inProgressCode : Nat := 1
def notFound : Nat := 2
def notPermitted : Nat := 3
def invalid : Nat := 4

/-- An answer without data. -/
def reply (code : Nat) (s : State) : State := s.emit (.mgmt code [])

/-- May a request that came over I3C (none) or through a function's VDM act on a partition (R308)? -/
def actsOn (via : Option Nat) (part : Option Nat) : Bool :=
  match via with
  | none => true
  | some f => part.isSome && part == (if f = 0 then none else some (f - 1))

/-- A command of package scope: through a function it is answered NOT_PERMITTED (R308). -/
def wide (via : Option Nat) (f : State → State) (s : State) : State := if via.isNone then f s else reply notPermitted s

/-- A command on one partition. -/
def onPart (via : Option Nat) (part : Option Nat) (f : State → State) (s : State) : State :=
  if actsOn via part then f s else reply notPermitted s

/-- A request of a narrower scope than a reset of its partition or of the package, while that is in progress (R302). -/
def narrower (part : Nat) (f : State → State) (s : State) : State :=
  if inProgress s 1 = true ∨ s.inReset part = true then reply inProgressCode s else f s

/-- A command on a queue of a partition: a partition that cannot be is invalid, one that meets a reset is answered so (R302), and a queue that is
not the partition's is not found (DEDUCED, log 31). -/
def onQueue (via : Option Nat) (part n : Nat) (f : State → State) (s : State) : State :=
  onPart via (some part) (fun s =>
    if 16 ≤ part then reply invalid s
    else narrower part (fun s => if (s.queue n).partition = some part then f s else reply notFound s) s) s

/-! Work (R298 to R302, R309). -/

/-- ABORT_CAPSULE (R309): the running or armed capsule of the queue whose NONCE is CTAG; an armed one completes at once. -/
def abortCommand (n : Nat) (ctag : Word) (s : State) : State :=
  let live := fun (c : Capsule) => match c.state with
    | .ending _ => false
    | _ => true
  match (s.inFlight n).find? fun c => c.nonce == ctag && live c with
  | none => reply notFound s
  | some c =>
    let t := abortCapsule c.id Code.aborted.num (bareReport s c.id Code.aborted.num 0) s
    reply success (if c.state = .armed then completeCapsule c.id t else t)

/-- ABORT_CAPSULE (R298, R309). -/
def execAbortCapsule (via : Option Nat) (part queue : Nat) (ctag : Word) (s : State) : Answer :=
  event (onQueue via part queue (abortCommand queue ctag)) s

/-- TEARDOWN_QUEUE (R299, R309). -/
def execTeardownQueue (via : Option Nat) (part queue : Nat) (s : State) : Answer :=
  event (onQueue via part queue fun s => reply success (tearDown queue none s)) s

/-- RESET_PARTITION (R300, R302, R309): during a reset that the host asked for it is that reset; during one of its own kind it is answered
IN_PROGRESS (DEDUCED, log 95). -/
def execResetPartition (via : Option Nat) (part : Nat) (s : State) : Answer :=
  event (onPart via (some part) fun s =>
    if 16 ≤ part then reply invalid s
    else if inProgress s 1 then reply inProgressCode s
    else if s.inReset part then reply (if (s.part part).resetHost then success else inProgressCode) s
    else reply success (beginReset part false s)) s

/-- WARM_RESET (R301, R302, R309). -/
def execWarmReset (via : Option Nat) (s : State) : Answer :=
  event (wide via fun s => if inProgress s 2 then reply inProgressCode s else reply success (warmReset s)) s

/-- COLD_RESET (R301, R302, R309). -/
def execColdReset (via : Option Nat) (s : State) : Answer :=
  event (wide via fun s => if inProgress s 3 then reply inProgressCode s else reply success (coldReset s)) s

/-! Logs, the dump and status (R307, R309, R311). -/

/-- 32 entries of a log from a sequence number, as the ring holds them. -/
def Log.from_ (l : Log) (seq : Nat) : List Byte := ((List.range 32).map fun i => l.slot ((seq + i) % 2047)).flatten

/-- READ_EVLOG (R307, R309): partition 0xFF is the package log, which only I3C reads. -/
def execReadEvlog (via : Option Nat) (part seq : Nat) (s : State) : Answer :=
  event (fun s =>
    if part = 0xFF then wide via (fun s => s.emit (.mgmt success (s.pkglog.from_ seq))) s
    else onPart via (some part) (fun s =>
      if 16 ≤ part then reply invalid s else s.emit (.mgmt success ((s.part part).log.from_ seq))) s) s

/-- READ_DUMP (R309, R311): 1,024 bytes of the crash dump region. -/
def execReadDump (via : Option Nat) (off : Nat) (s : State) : Answer :=
  event (wide via fun s =>
    if off % 1024 ≠ 0 ∨ 0x10000000 < off + 1024 then reply invalid s
    else s.emit (.mgmt success (s.mem.readBytes (dumpBase + off) 1024))) s

/-- Is a dump in its region (R311 MAGIC)? -/
def dumpValid (s : State) : Bool := s.mem.readLE dumpBase 4 == 0x504D5544

/-- DUMP_KEY (R309, R311): the dump key, wrapped under the operator's key; a kit without that key gives NOT_PERMITTED. Without a dump
there is no key to return (DEDUCED, log 31). -/
def execDumpKey (via : Option Nat) (s : State) : Answer :=
  event (wide via fun s =>
    match s.saffron.kek with
    | none => reply notPermitted s
    | some kek =>
      if dumpValid s then s.emit (.mgmt success (kwWrap (keyBytes kek) (keyBytes (Config.dumpKey s.saffron.dumpTime))))
      else reply notFound s) s

/-- A partition's status bits: defined, in reset, queues enabled (R309); where they stand in the answer is the model's (log 31). -/
def partStatus (s : State) (p : Nat) : Byte :=
  BitVec.ofNat 8 ((if (s.part p).wadm = 0 then 0 else 1) + (if s.inReset p then 2 else 0) +
    (if s.queues.any fun q => q.partition == some p && q.en then 4 else 0))

/-- The package's status bits: booting, running, fatal held, dump valid (R309). A package held in reset is booting (R327). -/
def packageStatus (s : State) : Byte :=
  let b := match s.phase with
    | .off | .held | .booting => 1
    | .configOpen | .configLocked | .running => 2
    | .fatal => 4
  BitVec.ofNat 8 (b + if dumpValid s then 8 else 0)

/-- GET_STATUS (R308, R309): through a function, that of its partition alone. -/
def execGetStatus (via : Option Nat) (s : State) : Answer :=
  event (fun s =>
    match via with
    | none => s.emit (.mgmt success ((List.range 16).map (partStatus s) ++ [packageStatus s]))
    | some f => if f = 0 ∨ 16 < f then reply notPermitted s else s.emit (.mgmt success [partStatus s (f - 1), packageStatus s])) s

/-! Fences and power (R290, R347). -/

/-- A command on a cluster: through a function, on one of its partition alone. -/
def onCluster (via : Option Nat) (cl : Nat) (f : State → State) (s : State) : State :=
  if 128 ≤ cl then reply invalid s else if via.isNone then f s else onPart via (s.clusterPart cl) f s

/-- FENCE (R347). -/
def execFence (via : Option Nat) (cluster : Nat) (s : State) : Answer :=
  event (onCluster via cluster fun s =>
    reply success (logFence (serviceCore cluster) (s.modCluster cluster fun c => { c with clstat := c.clstat ||| 1, mark := true }))) s

/-- UNFENCE (R347). -/
def unfence (cl : Nat) (s : State) : State :=
  let c := s.cluster cl
  if c.mark then
    let s := s.modCluster cl fun c => { c with mark := false, clstat := if c.fencedOther then c.clstat else c.clstat &&& ~~~1 }
    reply success (if c.fencedOther then s else admitCluster cl (logFence (serviceCore cl) s))
  else if fenced s cl then reply notPermitted s
  else reply success s

/-- UNFENCE (R347). -/
def execUnfence (via : Option Nat) (cluster : Nat) (s : State) : Answer := event (onCluster via cluster (unfence cluster)) s

/-- SET_BUDGET (R290, R309): at most 1,600 units. -/
def execSetBudget (via : Option Nat) (units : Nat) (s : State) : Answer :=
  event (wide via fun s => if 1600 < units then reply invalid s else reply success { s with budget := units }) s

/-! Configuration (R266, R332, R333). -/

/-- The clusters of a configuration's bytes. -/
def cfgClusters (m : Memory) : BitVec 128 := BitVec.ofNat 128 (m.readLE 0 16)

/-- What R266 asks of one configuration: its reserved fields and values, PCAP and PFLOOR, and its reserved cores. -/
def configOk (part : Nat) (m : Memory) : Bool :=
  let p : Part := { Part.reset part with cfg := m }
  decide (p.klass ≤ 1) && decide (m.readLE 0x012 1 ≤ 12) && decide (m.readLE 0x013 1 ≤ 15) && m.readLE 0x01A 1 == part &&
  (m.readBytes 0x01B 5).all (· == 0) && (m.readBytes 0x050 0xB0).all (· == 0) && decide (p.pfloor ≤ p.pcap) &&
  (p.reserved.isEmpty || (p.klass == 1 && p.reserved.all fun k => p.hasCluster (clusterNo k) && decide (k % 32 < 31)))

/-- What R266 asks of the configurations together: no cluster in two partitions, BWSHARE at most 1,024, and PFLOOR within the shared
budget. -/
def configsOk (s : State) : Bool :=
  let cfgs := (List.range 16).map fun p => (s.part p).cfg
  (List.range 128).all (fun cl => decide ((cfgs.countP fun m => (cfgClusters m).getLsbD cl) ≤ 1)) &&
  decide ((cfgs.map fun m => m.readLE 0x014 2).foldl (· + ·) 0 ≤ 1024) &&
  decide ((cfgs.map fun m => m.readLE 0x016 2).foldl (· + ·) 0 ≤ s.budget - s.saffron.reserve)

/-- A write of configuration (R332, R333): whole in CONFIG_OPEN; discarded and logged once locked; not accepted before. -/
def configure (f : State → State) (s : State) : State :=
  match s.phase with
  | .configOpen => f s
  | .configLocked | .running => reply notPermitted (s.logPkg { code := Code.lockedWrite.num, kind := 1 })
  | _ => reply notPermitted s

/-- CONFIG_WRITE (R266, R332): a configuration that is refused changes nothing. -/
def writeConfig (part : Nat) (bs : List Byte) (s : State) : State :=
  let m := Memory.ofBytes bs
  let t := s.modPart part fun p => { p with cfg := m }
  if 16 ≤ part ∨ bs.length ≠ 0x300 ∨ configOk part m = false ∨ configsOk t = false then reply invalid s else reply success t

/-- CONFIG_WRITE (R266, R332, R333). -/
def execConfigWrite (via : Option Nat) (part : Nat) (bytes : List Byte) (s : State) : Answer :=
  event (configure (onPart via (some part) (writeConfig part bytes))) s

/-- The granules of a submission ring of the largest size are device-reserved (R252, R269). -/
def reserveRing (base : Nat) (s : State) : State :=
  (granulesOf base (4096 * 4096)).foldl (fun t g => setGranule g 0xC t) s

/-- QUEUE_BIND (R269, R332): the window starts as after reset; Saffron places the ring at an address the spec leaves to it (log 32).
A bind to function 0 unbinds (DESIGN CHOICE, log 156). -/
def bindQueue (n fn : Nat) (s : State) : State :=
  if 32768 ≤ n then reply invalid s
  else reply success ((if fn = 0 then s else reserveRing (Config.ringBase n).toNat s).modQueue n fun _ =>
    { Queue.reset n with fn := if fn = 0 then none else some fn, srbase := if fn = 0 then 0 else Config.ringBase n })

/-- QUEUE_BIND (R332, R333). -/
def execQueueBind (via : Option Nat) (queue fn : Nat) (s : State) : Answer :=
  event (configure (onPart via (if fn = 0 then none else some (fn - 1)) (bindQueue queue fn))) s

/-- WINDOW_WRITE (R324, R332): reserved fields read as zero. -/
def writeInbound (win : Nat) (bs : List Byte) (s : State) : State :=
  if 64 ≤ win ∨ bs.length ≠ 32 then reply invalid s
  else
    let bs := bs.take 4 ++ List.replicate 4 0 ++ (bs.drop 8).take 16 ++ List.replicate 8 0
    reply success { s with saffron := { s.saffron with windows := s.saffron.windows.writeBytes (32 * win) bs } }

/-- WINDOW_WRITE (R324, R332, R333). -/
def execWindowWrite (via : Option Nat) (win : Nat) (bytes : List Byte) (s : State) : Answer :=
  event (configure (onPart via ((bytes[1]?).map BitVec.toNat) (writeInbound win bytes))) s

/-- LOCK (R332): every configuration passes R266, and the function of every bound queue exists. -/
def lockConfig (s : State) : State :=
  if s.phase ≠ .configOpen then reply notPermitted s
  else
    let known := s.queues.all fun q => match q.fn with
      | some f => decide (1 ≤ f) && decide (f ≤ 16)
      | none => true
    let good := (List.range 16).all fun p => (s.part p).wadm == 0 || configOk p (s.part p).cfg
    if known && good && configsOk s then reply success { s with phase := .configLocked } else reply invalid s

/-- LOCK (R332). -/
def execLock (via : Option Nat) (s : State) : Answer := event (wide via lockConfig) s

/-- The queue bindings in order of queue; how they are written as bytes for MR5 is not stated (log 9). -/
def bindings (s : State) : List (Nat × Nat) := (sortedQueues s).filterMap fun q => q.fn.map fun f => (q.no, f)

/-- LOCK_COMPLETE (R331, R332): Saffron extends MR5 with the digest of configurations, bindings and windows, and the package runs. -/
def completeLock (s : State) : State :=
  if s.phase = .configLocked then
    { extend 5 (sha384 (configBytes s ++ Config.bindingBytes (bindings s) ++ s.saffron.windows.readBytes 0 2048)) s with phase := .running }
  else s

/-- LOCK_COMPLETE (R332). -/
def execLockComplete (s : State) : Answer := event completeLock s

/-! The table operations (R252 to R254, R262, R331). -/

/-- An operation of R254: performed whole and measured in MR6, or refused (R331); accepted only in RUN (R332). Its command byte is not
stated (log 9). -/
def tableOp (op : Nat) (args : List Byte) (f : State → Option State) (s : State) : State :=
  if s.phase ≠ .running then reply notPermitted s
  else match f s with
    | some t => reply success (extend 6 (sha384 (Config.opCommand op :: args)) t)
    | none => s.emit .refusedTable

/-- Does an owner hold a granule? -/
def holdsGranule (s : State) (owner : Nat) : Bool := s.got.any fun e => gotOwner e.2 == owner && gotState e.2 != 0 && gotState e.2 != 3

/-- The entry of an owner in the memory-key table (R253). -/
def memKey (s : State) (owner : Nat) : MemKey := lookup MemKey.owner (fun n => { owner := n, key := 0, gen := 0 }) s.memkeys owner

/-- Is a number one of an owner with a key of its own (R253)? -/
def ownerOk (owner : Nat) : Bool := decide (1 ≤ owner) && decide (owner ≤ 0xFFFE)

/-- KEYSET (R254): the wrapped key is unwrapped under the device key; one that does not unwrap is refused. -/
def setMemKey (owner : Nat) (wrapped : List Byte) (s : State) : Option State :=
  if holdsGranule s owner ∨ ownerOk owner = false then none
  else match kwUnwrap (keyBytes Config.deviceKey) wrapped with
    | none => none
    | some k =>
      let e := memKey s owner
      some (loadKeys owner (keyOf k) { s with memkeys := update MemKey.owner s.memkeys { e with key := keyOf k, gen := e.gen + 1 } })

/-- KEYSET (R254, R331). -/
def execKeyset (owner : BitVec 16) (wrapped : List Byte) (s : State) : Answer :=
  event (tableOp 0 (leBytes 2 owner.toNat ++ List.replicate 40 0) (setMemKey owner.toNat wrapped)) s

/-- KEYDROP (R254): the keys of the device itself, owner 0x0000, are no such key (R253). -/
def dropMemKey (owner : Nat) (s : State) : Option State :=
  if holdsGranule s owner ∨ ownerOk owner = false then none
  else some { s with memkeys := update MemKey.owner s.memkeys { memKey s owner with key := 0 },
                     mckeys := s.mckeys.filter fun k => k.owner != owner }

/-- KEYDROP (R254, R331). -/
def execKeydrop (owner : BitVec 16) (s : State) : Answer := event (tableOp 1 (leBytes 2 owner.toNat) (dropMemKey owner.toNat)) s

/-- Granules of the table (R252). -/
def granuleCount : Nat := 720896

/-- A free version page (R252): how many there are, and which one is taken, is the implementation's (log 32). -/
def freePage (s : State) : Option Nat :=
  let n := Config.versionPages
  ((List.range n).map fun i => (Config.freeNat s.fresh + i) % n).find? fun p => !s.vpages.contains p

/-- GRANT (R254, R322): a free granule, an owner with a key, and for tier 1 a valid map entry and a free version page. -/
def grant (g owner : Nat) (s : State) : Option State :=
  if granuleCount ≤ g ∨ gotState (s.granule g) ≠ 0 ∨ ownerOk owner = false ∨ (memKey s owner).key = 0 then none
  else
    let e := gotSet (gotSet (s.granule g) 3 2 1) 63 48 owner
    if g < 196608 then some (setGranule g e s)
    else
      match (if bitOf (mapEntry s (granuleBase g / 256)).toNat 63 then freePage s else none) with
      | none => none
      | some p => some (setGranule g (gotSet e 95 64 p) { s with vpages := p :: s.vpages, fresh := s.fresh + 1 })

/-- GRANT (R254, R322, R331). -/
def execGrant (granule : Nat) (owner : BitVec 16) (s : State) : Answer :=
  event (tableOp 2 (leBytes 8 granule ++ leBytes 2 owner.toNat) (grant granule owner.toNat)) s

/-- Store the shared-read list of a granule: list g + 1 is that of granule g. -/
def setSharers (g : Nat) (l : List (BitVec 16)) (s : State) : State :=
  setGranule g (gotSet (s.granule g) 47 24 (g + 1)) { s with srls := (g + 1, l) :: s.srls.filter fun x => x.1 != g + 1 }

/-- SHARE and UNSHARE are the owner's (R254). -/
def isOwner (s : State) (caller g : Nat) : Bool := gotState (s.granule g) == 1 && gotOwner (s.granule g) == caller

/-- SHARE (R254): a list holds 30 members. -/
def share (caller g : Nat) (grantee : BitVec 16) (s : State) : Option State :=
  let l := sharedWith s g
  if isOwner s caller g = false then none
  else if l.contains grantee then some s
  else if 30 ≤ l.length then none
  else some (setSharers g (l ++ [grantee]) s)

/-- SHARE (R254, R331). -/
def execShare (caller : BitVec 16) (granule : Nat) (grantee : BitVec 16) (s : State) : Answer :=
  event (tableOp 3 (leBytes 8 granule ++ leBytes 2 grantee.toNat) (share caller.toNat granule grantee)) s

/-- UNSHARE (R254). -/
def unshare (caller g : Nat) (grantee : BitVec 16) (s : State) : Option State :=
  if isOwner s caller g then some (if (sharedWith s g).isEmpty then s else setSharers g ((sharedWith s g).filter (· != grantee)) s) else none

/-- UNSHARE (R254, R331). -/
def execUnshare (caller : BitVec 16) (granule : Nat) (grantee : BitVec 16) (s : State) : Answer :=
  event (tableOp 4 (leBytes 8 granule ++ leBytes 2 grantee.toNat) (unshare caller.toNat granule grantee)) s

/-- A seal index that no granule uses. -/
def freeSeal (s : State) : Option Nat := (List.range' 1 (s.seals.length + 1)).find? fun i => !(s.seals.any fun x => x.1 == i) && decide (i < 65536)

/-- Are the reserved bytes of a seal record zero (R7, R262)? -/
def sealReservedOk (m : Memory) : Bool := (m.readBytes 0x2C 4 ++ m.readBytes 0x3C 4 ++ m.readBytes 0x240 0x40).all (· == 0)

/-- SEAL (R254, R262): the granule is owned and has no seal, the record has 0x280 bytes with its reserved ones zero, and its key unwraps. -/
def installSeal (g : Nat) (record : List Byte) (s : State) : Option State :=
  let m := Memory.ofBytes record
  if gotState (s.granule g) ≠ 1 ∨ gotSeal (s.granule g) ≠ 0 ∨ record.length ≠ 0x280 ∨ sealReservedOk m = false ∨ (weightKey m).isNone = true then none
  else match freeSeal s with
    | none => none
    | some i => some (setGranule g (gotSet (s.granule g) 23 8 i) { s with seals := (i, m) :: s.seals })

/-- SEAL (R254, R262, R331): for MR6 the wrapped key is replaced by its KEYID. -/
def execSeal (granule : Nat) (record : List Byte) (s : State) : Answer :=
  event (tableOp 5 (leBytes 8 granule ++ (record.drop 0x28).take 4 ++ record.drop 0x28) (installSeal granule record)) s

/-- Does a running or armed capsule have an extent over a granule (R254)? A gate is none (DESIGN CHOICE, log 151). -/
def namedByCapsule (s : State) (g : Nat) : Bool :=
  s.caps.any fun c => c.exts.any fun e =>
    let e : Extent := e
    e.kind != 0 && e.kind != 5 && (granulesOf e.base e.length).contains g

/-- RELEASE (R254): the granule is scrubbing once no capsule names it; until then the request waits. A granule whose STATE is not 1 is refused
(DESIGN CHOICE, log 150). -/
def release (g : Nat) (s : State) : State :=
  if gotState (s.granule g) = 1 ∧ namedByCapsule s g = true ∧ s.phase = .running then { s with releasing := s.releasing ++ [g] }
  else tableOp 6 (leBytes 8 g) (fun s =>
    if gotState (s.granule g) = 1 then some (setGranule g (gotSet (s.granule g) 3 2 2) s) else none) s

/-- RELEASE (R254, R331). -/
def execRelease (granule : Nat) (s : State) : Answer := event (release granule) s

/-- Write zero over a granule (R254): its poison and the errors in its lines, in the caches too, go, gates that watch it are triggered, digests of code in it are dropped, and what
was to be written back of it is not. -/
def zeroGranule (g : Nat) (s : State) : State :=
  let a := granuleBase g
  let inside := fun (x : Nat) => decide (a ≤ x) && decide (x < a + 2097152)
  { s with mem := s.mem.clear a 2097152
           poison := s.poison.filter fun p => !inside (32 * p.1)
           faults := s.faults.filter fun f => !inside (256 * f.line)
           sram := s.sram.filter fun f => !f.place.onCache fun x => inside (32 * x)
           queues := s.queues.map (triggerWatch a 2097152)
           codeCache := s.codeCache.filter (cacheApart a 2097152)
           dirty := s.dirty.filter fun d => !inside (256 * d.line)
           returns := s.returns.filter fun r => !inside r.1
           versions := s.versions.filter fun v => !inside (256 * v.line) }

/-- RELEASE_COMPLETE (R254): the granule is zero and free, its list, seal record and version page with it; EPOCH stands. -/
def completeRelease (g : Nat) (s : State) : State :=
  let e := s.granule g
  if gotState e ≠ 2 then s
  else
    let s := zeroGranule g s
    let s := { s with srls := s.srls.filter fun x => x.1 != gotSrl e
                      seals := s.seals.filter fun x => x.1 != gotSeal e
                      vpages := if g < 196608 then s.vpages else s.vpages.filter (· != gotVpage e) }
    releaseHeld (setGranule g (BitVec.ofNat 128 (gotEpoch e * 2 ^ 96)) s)

/-- RELEASE_COMPLETE (R254). -/
def execReleaseComplete (granule : Nat) (s : State) : Answer := event (completeRelease granule) s

/-! PLDM (R308). -/

/-- What a sensor of platform monitoring reads (R308, R312, R313, R326). Which number names which sensor is not stated, and neither is
what a temperature, a current or a voltage within its range reads (log 11). -/
def sensorData (n : Nat) (s : State) : List Byte :=
  let k := Config.sensorKind n
  if k < 128 then
    let c := s.cluster k
    leBytes 8 c.clstat.toNat ++ leBytes 8 c.summary.toNat ++ leBytes 1 (if c.failed then 1 else 0)
  else if k < 256 then leBytes 8 (s.cluster (k - 128)).share
  else if k = 256 then leBytes 8 s.sumac.timest.toNat
  else if k = 257 then
    match s.input with
    | some mv => leBytes 8 (BitVec.ofInt 64 mv).toNat
    | none => leBytes 8 (Config.sensor n s.fresh).toNat
  else leBytes 8 (Config.sensor n s.fresh).toNat

/-- May a sensor be read (R308): over I3C every one, through a function those of the clusters of its partition? -/
def sensorOpen (via : Option Nat) (n : Nat) (s : State) : Bool :=
  via.isNone || (decide (Config.sensorKind n < 256) && actsOn via (s.clusterPart (Config.sensorKind n % 128)))

/-- PLDM_MONITOR (R308). -/
def execPldmMonitor (sensor : PldmPoint) (s : State) : Answer :=
  event (fun s =>
    if sensorOpen sensor.via sensor.no s then ({ s with fresh := s.fresh + 1 }).emit (.mgmt success (sensorData sensor.no s))
    else reply notPermitted s) s

/-- PLDM_FIRMWARE_UPDATE (R308, R327): bytes of a kit go to the slot not booted from, which the next warm reset boots from. -/
def execPldmFirmwareUpdate (off : PldmPoint) (bytes : List Byte) (s : State) : Answer :=
  event (wide off.via fun s =>
    reply success { s with saffron :=
      if s.saffron.bootedB then { s.saffron with flashA := s.saffron.flashA.writeBytes off.no bytes, updated := some false }
      else { s.saffron with flashB := s.saffron.flashB.writeBytes off.no bytes, updated := some true } }) s

end Sys2Proof.Machine
end

