-- ==== Sys2Proof/Machine/Peer.lean ====
section
/-! DEFINITION. Traffic from peers through inbound windows, links, and refusals (spec/14 R251, spec/15 R278, spec/18 R323 to R325). -/

namespace Sys2Proof.Machine

/-- An inbound window (R324). -/
structure Window where
  kind : Nat
  part : Nat
  owner : Nat
  base : Nat
  len : Nat
deriving DecidableEq, Repr

/-- A window of the device. -/
def State.inbound (s : State) (win : Nat) : Window :=
  let m := s.saffron.windows
  let a := 32 * win
  { kind := m.readLE a 1, part := m.readLE (a + 1) 1, owner := m.readLE (a + 2) 2, base := m.readLE (a + 8) 8, len := m.readLE (a + 16) 8 }

/-- Traffic over a link through a window of a kind, or its refusal (R324): the link is down, its far end is not the device that is addressed, the
window is absent or of another kind, or the device does not run. -/
def throughWindow (link dev win kind : Nat) (f : Window → State → State) (s : State) : State :=
  let w := s.inbound win
  if s.links.getLsbD link = true ∧ dev = s.saffron.device ∧ win < 64 ∧ w.kind = kind ∧ w.part < 16 ∧ s.phase = .running then f w s
  else s.emit (.peerRefuse win)

/-- Does a range of tier 0 pass the owner check of R251 under a window's owner? -/
def windowMay (s : State) (w : Window) (pa n : Nat) (write : Bool) : Bool :=
  decide (pa + n ≤ dumpBase) && hostMay s [w.owner] pa n write

/-- An element of a .se copy (R324, R325): a unit of the package's order (R198). -/
def peerWrite (link dev win off : Nat) (bytes : List Byte) (s : State) : State :=
  throughWindow link dev win 1 (fun w s =>
    let pa := w.base + off
    if off + bytes.length ≤ w.len ∧ windowMay s w pa bytes.length true = true then
      atHome (.peerWrite link dev win off bytes) pa bytes.length true (fun s => writeUnit (engineUnit s 0 0x1FFF) w.part pa bytes s) s
    else s.emit (.peerRefuse win)) s

/-- PEER_MEMORY_WRITE (R324, R325). -/
def execPeerMemoryWrite (win : PeerPort) (off : Nat) (bytes : List Byte) (s : State) : Answer :=
  event (peerWrite win.link win.device win.window off bytes) s

/-- An element of a .es copy (R261, R324). -/
def peerRead (link dev win off len : Nat) (s : State) : State :=
  throughWindow link dev win 1 (fun w s =>
    let pa := w.base + off
    if off + len ≤ w.len ∧ windowMay s w pa len false = true then
      atHome (.peerRead link dev win off len) pa len false (fun s =>
        let s := readLines w.part pa len s
        let (bs, t) := outBytes pa len s
        t.emit (.peerData win (poisoned s pa len) bs)) s
    else s.emit (.peerRefuse win)) s

/-- PEER_MEMORY_READ (R261, R324). -/
def execPeerMemoryRead (win : PeerPort) (off len : Nat) (s : State) : Answer :=
  event (peerRead win.link win.device win.window off len) s

/-- A SENDX to a gate window (R278, R324): an AMOADD.NR of 64 bits at PBASE. It does not pass an element before it (R325). -/
def peerGate (link dev win : Nat) (value : Word) (s : State) : State :=
  throughWindow link dev win 2 (fun w s =>
    if w.base % 8 = 0 ∧ windowMay s w w.base 8 true = true then
      atHome (.peerGate link dev win value) w.base 8 true (fun s => ringGate (engineUnit s 0 0x1FFF) w.part w.base value s) s
    else s.emit (.peerRefuse win)) s

/-- PEER_GATE (R278, R324, R325). -/
def execPeerGate (win : PeerPort) (value : Word) (s : State) : Answer := event (peerGate win.link win.device win.window value) s

/-- A SENDX to a doorbell window (R278, R324). -/
def peerDoorbell (link dev win : Nat) (value : Word) (s : State) : State :=
  throughWindow link dev win 3 (fun w s =>
    atHome (.peerDoorbell link dev win value) 0 0 false (fun s => ringDoorbell w.part (w.base % 512) value s) s) s

/-- PEER_DOORBELL (R278, R324, R325). -/
def execPeerDoorbell (win : PeerPort) (value : Word) (s : State) : Answer := event (peerDoorbell win.link win.device win.window value) s

/-- LINK_DOWN (R324): the link refuses all traffic. -/
def execLinkDown (link : Nat) (s : State) : Answer :=
  event (fun s => if link < 12 then { s with links := setBit s.links link false } else s) s

/-- LINK_UP (R324). -/
def execLinkUp (link : Nat) (s : State) : Answer :=
  event (fun s => if link < 12 then { s with links := setBit s.links link true } else s) s

/-- PEER_REFUSAL (R324): the sending capsule takes MSG_TARGET with the endpoint handle as its detail; the report names no task (R345) (DESIGN
CHOICE, log 148). -/
def execPeerRefusal (cap : Nat) (handle : Word) (s : State) : Answer :=
  event (fun s => abortCapsule cap Code.msgTarget.num (bareReport s cap Code.msgTarget.num handle) s) s

end Sys2Proof.Machine
end

