-- ==== Sys2Proof/Machine/Spdm.lean ====
section
/-! DEFINITION. Saffron as an SPDM 1.3 responder: the order of requests, the errors, the transcripts and the answers
(spec/18 R334, R335). The layout of a message is that of SPDM 1.3 (PRESUMED, log 33). -/

namespace Sys2Proof.Machine

open Crypto

/-- The state of a path: 0 before GET_VERSION, 1 after it, 2 after GET_CAPABILITIES, 3 after NEGOTIATE_ALGORITHMS. -/
def State.spdmAt (s : State) (path : Nat) : Spdm := lookup Spdm.path (fun n => { path := n, stage := 0, transcript := [] }) s.spdm path

/-- Change the state of a path. -/
def setSpdm (x : Spdm) (s : State) : State := { s with spdm := update Spdm.path s.spdm x }

/-- An ERROR answer. -/
def spdmError (path code data : Nat) (s : State) : State := s.emit (.spdm path [0x13, 0x7F, BitVec.ofNat 8 code, BitVec.ofNat 8 data])

/-- Is Saffron busy with a table operation, a release that it has begun, or with a crash dump (R254, R310, R335)? -/
def saffronBusy (s : State) : Bool := (s.got.any fun e => gotState e.2 == 2) || decide (s.clock < s.saffron.dumpEnd)

/-- Answer, and let the transcript run over the exchange. -/
def answerSpdm (path stage : Nat) (req resp : List Byte) (s : State) : State :=
  let x := s.spdmAt path
  (setSpdm { x with stage := stage, transcript := x.transcript ++ req ++ resp } s).emit (.spdm path resp)

/-- A request that needs a stage (R335): out of order, it resets the transcript; while Saffron is busy, and when it is malformed, it
leaves the transcript as it was. -/
def spdmRequest (path need next : Nat) (req : List Byte) (make : State → Option (List Byte)) (s : State) : State :=
  if saffronBusy s then spdmError path 3 0 s
  else if (s.spdmAt path).stage ≠ need then spdmError path 4 0 (setSpdm { path := path, stage := 0, transcript := [] } s)
  else match (if req.headD 0 = 0x13 then make s else none) with
    | none => spdmError path 1 0 s
    | some resp => answerSpdm path next req resp s

/-- GET_VERSION (R334, R335): at any time; the transcript begins with this exchange. -/
def execGetVersion (path : Nat) (request : List Byte) (s : State) : Answer :=
  event (fun s =>
    answerSpdm path 1 request ([0x10, 0x04, 0, 0, 0, 1] ++ leBytes 2 0x1300) (setSpdm { path := path, stage := 0, transcript := [] } s)) s

/-- GET_CAPABILITIES (R334): CERT_CAP, CHAL_CAP and MEAS_CAP with signatures; the timing exponent and the sizes are not stated. -/
def execGetCapabilities (path : Nat) (request : List Byte) (s : State) : Answer :=
  event (spdmRequest path 1 2 request fun _ =>
    if request.length = 20 then
      some ([0x13, 0x61, 0, 0, 0, Config.spdmFree 0, 0, 0] ++ leBytes 4 0x16 ++ ((List.range 8).map fun i => Config.spdmFree (1 + i)))
    else none) s

/-- NEGOTIATE_ALGORITHMS (R334): SHA-384, and the one extended asymmetric algorithm. -/
def negotiate (req : List Byte) : Option (List Byte) :=
  let hash := leNat ((req.drop 12).take 4)
  let n := (req.getD 28 0).toNat
  let ext := (List.range n).map fun i => leNat ((req.drop (32 + 4 * i)).take 4)
  if req.length < 32 + 4 * n ∨ leNat ((req.drop 4).take 2) ≠ req.length then none
  else if bitOf hash 1 && ext.contains Config.spdmAlgorithm.toNat then
    some ([0x13, 0x63, 0, 0] ++ leBytes 2 40 ++ [1, 0] ++ leBytes 4 4 ++ leBytes 4 0 ++ leBytes 4 2 ++ List.replicate 12 0 ++ [1, 0, 0, 0] ++
      leBytes 4 Config.spdmAlgorithm.toNat)
  else none

/-- NEGOTIATE_ALGORITHMS (R334). -/
def execNegotiateAlgorithms (path : Nat) (request : List Byte) (s : State) : Answer :=
  event (spdmRequest path 2 3 request fun _ => negotiate request) s

/-- The device certificate chain in slot 0 (R334). -/
def certChain : List Byte := (List.range Config.certChainLength).map Config.certChain

/-- GET_DIGESTS (R334). -/
def execGetDigests (path : Nat) (request : List Byte) (s : State) : Answer :=
  event (spdmRequest path 3 3 request fun _ => if request.length = 4 then some ([0x13, 0x01, 1, 1] ++ sha384 certChain) else none) s

/-- A part of the chain from an offset (R334): slot 0 alone. -/
def certificate (req : List Byte) : Option (List Byte) :=
  let off := leNat ((req.drop 4).take 2)
  let len := leNat ((req.drop 6).take 2)
  if req.length = 8 ∧ req.getD 2 0 = 0 ∧ off < certChain.length then
    let part := (certChain.drop off).take len
    some ([0x13, 0x02, 0, 0] ++ leBytes 2 part.length ++ leBytes 2 (certChain.length - off - part.length) ++ part)
  else none

/-- GET_CERTIFICATE (R334). -/
def execGetCertificate (path : Nat) (request : List Byte) (s : State) : Answer :=
  event (spdmRequest path 3 3 request fun _ => certificate request) s

/-- 32 free bytes, for a nonce of Saffron's (log 7). -/
def freshNonce (s : State) : List Byte := leBytes 32 (Config.freeNat s.fresh)

/-- The characters of a string as bytes. -/
def asciiBytes (x : String) : List Byte := x.toList.map fun c => BitVec.ofNat 8 c.toNat

/-- The 100 bytes that SPDM 1.3 signs before a hash: its name four times, and the use of the signature at the end (PRESUMED, log 33). -/
def signingPrefix (use : String) : List Byte :=
  let name := asciiBytes "dmtf-spdm-v1.3.*"
  let u := asciiBytes use
  name ++ name ++ name ++ name ++ List.replicate (36 - u.length) 0 ++ u

/-- An answer with its signature (R334, R335): over the transcript of its own path with this exchange. SPDM carries r and s most significant
byte first (PRESUMED, log 33). -/
def withSignature (s : State) (path : Nat) (use : String) (req body : List Byte) : List Byte :=
  let hash := sha384 ((s.spdmAt path).transcript ++ req ++ body)
  let sig := ecSign Config.leafKey (Config.ecdsaNonce s.fresh) (sha384 (signingPrefix use ++ hash))
  body ++ beBytes 48 sig.1 ++ beBytes 48 sig.2

/-- A measurement register as a DMTF measurement block: index n + 1 is MRn (R334). -/
def measurementBlock (s : State) (n : Nat) : List Byte :=
  [BitVec.ofNat 8 (n + 1), 1] ++ leBytes 2 51 ++ [Config.spdmFree (16 + n)] ++ leBytes 2 48 ++ leBytes 48 (s.saffron.mr.get (Fin.ofNat 16 n)).toNat

/-- The summary hash that a CHALLENGE asks for: none, or all measurements, of which none is set apart (PRESUMED, log 33). -/
def summaryHash (s : State) (kind : Byte) : Option (List Byte) :=
  if kind = 0 then some []
  else if kind = 1 ∨ kind = 0xFF then some (sha384 ((List.range 16).flatMap (measurementBlock s)))
  else none

/-- CHALLENGE (R334): slot 0, with a nonce of 32 bytes. -/
def challenge (path : Nat) (req : List Byte) (s : State) : Option (List Byte) :=
  if req.length = 44 ∧ req.getD 2 0 = 0 then
    (summaryHash s (req.getD 3 0)).map fun summary =>
      withSignature s path "responder-challenge_auth signing" req
        ([0x13, 0x03, 0, 1] ++ sha384 certChain ++ freshNonce s ++ summary ++ leBytes 2 0 ++ req.drop 36)
  else none

/-- CHALLENGE (R334). -/
def execChallenge (path : Nat) (request : List Byte) (s : State) : Answer :=
  event (fun s => { spdmRequest path 3 3 request (challenge path request) s with fresh := s.fresh + 1 }) s

/-- The measurement blocks of an index: 0 asks for their number, 0xFF for all; 17 to 254 are malformed (R334, R335). -/
def measurementBlocks (s : State) (i : Nat) : Option (List (List Byte)) :=
  if i = 0 then some []
  else if i ≤ 16 then some [measurementBlock s (i - 1)]
  else if i = 255 then some ((List.range 16).map (measurementBlock s))
  else none

/-- GET_MEASUREMENTS (R334): signed when the request asks for it, under the key of slot 0 alone. -/
def getMeasurements (path : Nat) (req : List Byte) (s : State) : Option (List Byte) :=
  let sign := (req.getD 2 0).getLsbD 0
  let i := (req.getD 3 0).toNat
  if req.length ≠ (if sign then 45 else 12) ∨ (sign = true ∧ req.getD 36 0 ≠ 0) then none
  else match measurementBlocks s i with
    | none => none
    | some bs =>
      let context := req.drop (req.length - 8)
      let count : Byte := if i = 0 then 16 else 0
      let body := [0x13, 0x60, count, 0] ++ leBytes 1 bs.length ++ leBytes 3 bs.flatten.length ++ bs.flatten ++ freshNonce s ++ leBytes 2 0 ++ context
      some (if sign then withSignature s path "responder-measurements signing" req body else body)

/-- GET_MEASUREMENTS (R334). -/
def execGetMeasurements (path : Nat) (request : List Byte) (s : State) : Answer :=
  event (fun s => { spdmRequest path 3 3 request (getMeasurements path request) s with fresh := s.fresh + 1 }) s

/-- SPDM_UNSUPPORTED_REQUEST (R335): the transcript stands. -/
def execSpdmUnsupportedRequest (path : Nat) (request : List Byte) (s : State) : Answer :=
  event (spdmError path 7 (request.getD 1 0).toNat) s

end Sys2Proof.Machine
end

