-- ==== Sys2Proof/Machine/Dispatch.lean ====
section
/-! DEFINITION. The meaning of every instruction and event: one arm for each constructor. -/

namespace Sys2Proof.Machine

def exec (i : Instr) (s : State) : Host.Outcome State Fault Refusal :=
  match i with
  | .add d a b w v => Sys2Proof.Machine.execAdd d a b w v s
  | .sub d a b w v => Sys2Proof.Machine.execSub d a b w v s
  | .and d a b w v => Sys2Proof.Machine.execAnd d a b w v s
  | .or d a b w v => Sys2Proof.Machine.execOr d a b w v s
  | .xor d a b w v => Sys2Proof.Machine.execXor d a b w v s
  | .shl d a b w v => Sys2Proof.Machine.execShl d a b w v s
  | .shr d a b w v => Sys2Proof.Machine.execShr d a b w v s
  | .sra d a b w v => Sys2Proof.Machine.execSra d a b w v s
  | .rol d a b w v => Sys2Proof.Machine.execRol d a b w v s
  | .min d a b w v => Sys2Proof.Machine.execMin d a b w v s
  | .max d a b w v => Sys2Proof.Machine.execMax d a b w v s
  | .minu d a b w v => Sys2Proof.Machine.execMinu d a b w v s
  | .maxu d a b w v => Sys2Proof.Machine.execMaxu d a b w v s
  | .slt d a b w v => Sys2Proof.Machine.execSlt d a b w v s
  | .sltu d a b w v => Sys2Proof.Machine.execSltu d a b w v s
  | .seq d a b w v => Sys2Proof.Machine.execSeq d a b w v s
  | .sel d a b w v => Sys2Proof.Machine.execSel d a b w v s
  | .mul d a b w v => Sys2Proof.Machine.execMul d a b w v s
  | .mulh d a b w v => Sys2Proof.Machine.execMulh d a b w v s
  | .mulhu d a b w v => Sys2Proof.Machine.execMulhu d a b w v s
  | .div d a b w v => Sys2Proof.Machine.execDiv d a b w v s
  | .divu d a b w v => Sys2Proof.Machine.execDivu d a b w v s
  | .rem d a b w v => Sys2Proof.Machine.execRem d a b w v s
  | .remu d a b w v => Sys2Proof.Machine.execRemu d a b w v s
  | .mov d a w => Sys2Proof.Machine.execMov d a w s
  | .clz d a w => Sys2Proof.Machine.execClz d a w s
  | .ctz d a w => Sys2Proof.Machine.execCtz d a w s
  | .popc d a w => Sys2Proof.Machine.execPopc d a w s
  | .bswap d a w => Sys2Proof.Machine.execBswap d a w s
  | .hmk d a b w v => Sys2Proof.Machine.execHmk d a b w v s
  | .hoff d a w => Sys2Proof.Machine.execHoff d a w s
  | .hlen d a w => Sys2Proof.Machine.execHlen d a w s
  | .hrgt d a w => Sys2Proof.Machine.execHrgt d a w s
  | .time d => Sys2Proof.Machine.execTime d s
  | .addi d a w imm => Sys2Proof.Machine.execAddi d a w imm s
  | .andi d a w imm => Sys2Proof.Machine.execAndi d a w imm s
  | .ori d a w imm => Sys2Proof.Machine.execOri d a w imm s
  | .xori d a w imm => Sys2Proof.Machine.execXori d a w imm s
  | .shli d a w c => Sys2Proof.Machine.execShli d a w c s
  | .shri d a w c => Sys2Proof.Machine.execShri d a w c s
  | .srai d a w c => Sys2Proof.Machine.execSrai d a w c s
  | .ext d a w l p => Sys2Proof.Machine.execExt d a w l p s
  | .ins d a w l p => Sys2Proof.Machine.execIns d a w l p s
  | .movi d imm => Sys2Proof.Machine.execMovi d imm s
  | .brEq a b j => Sys2Proof.Machine.execBrEq a b j s
  | .brNe a b j => Sys2Proof.Machine.execBrNe a b j s
  | .brLt a b j => Sys2Proof.Machine.execBrLt a b j s
  | .brGe a b j => Sys2Proof.Machine.execBrGe a b j s
  | .brLtu a b j => Sys2Proof.Machine.execBrLtu a b j s
  | .brGeu a b j => Sys2Proof.Machine.execBrGeu a b j s
  | .j j => Sys2Proof.Machine.execJ j s
  | .jl j => Sys2Proof.Machine.execJl j s
  | .jr a w => Sys2Proof.Machine.execJr a w s
  | .send a b w v => Sys2Proof.Machine.execSend a b w v s
  | .sendt t a b w v => Sys2Proof.Machine.execSendt t a b w v s
  | .sendx a b w v => Sys2Proof.Machine.execSendx a b w v s
  | .recv d n => Sys2Proof.Machine.execRecv d n s
  | .trecv t n => Sys2Proof.Machine.execTrecv t n s
  | .jnew d a b w v => Sys2Proof.Machine.execJnew d a b w v s
  | .arrive a w => Sys2Proof.Machine.execArrive a w s
  | .wqry a b w v => Sys2Proof.Machine.execWqry a b w v s
  | .wait a b w v => Sys2Proof.Machine.execWait a b w v s
  | .migr => Sys2Proof.Machine.execMigr s
  | .mret => Sys2Proof.Machine.execMret s
  | .spawn d a b w v => Sys2Proof.Machine.execSpawn d a b w v s
  | .safe m => Sys2Proof.Machine.execSafe m s
  | .done => Sys2Proof.Machine.execDone s
  | .cont a b w v => Sys2Proof.Machine.execCont a b w v s
  | .nop => Sys2Proof.Machine.execNop s
  | .limm imm => Sys2Proof.Machine.execLimm imm s
  | .ldB d a w o => Sys2Proof.Machine.execLdB d a w o s
  | .ldH d a w o => Sys2Proof.Machine.execLdH d a w o s
  | .ldW d a w o => Sys2Proof.Machine.execLdW d a w o s
  | .ldD d a w o => Sys2Proof.Machine.execLdD d a w o s
  | .stB d a w o => Sys2Proof.Machine.execStB d a w o s
  | .stH d a w o => Sys2Proof.Machine.execStH d a w o s
  | .stW d a w o => Sys2Proof.Machine.execStW d a w o s
  | .stD d a w o => Sys2Proof.Machine.execStD d a w o s
  | .ldc d a w imm => Sys2Proof.Machine.execLdc d a w imm s
  | .lds d a w => Sys2Proof.Machine.execLds d a w s
  | .sts a b w v => Sys2Proof.Machine.execSts a b w v s
  | .amoadd d a b w v x => Sys2Proof.Machine.execAmoadd d a b w v x s
  | .amoand d a b w v x => Sys2Proof.Machine.execAmoand d a b w v x s
  | .amoor d a b w v x => Sys2Proof.Machine.execAmoor d a b w v x s
  | .amoxor d a b w v x => Sys2Proof.Machine.execAmoxor d a b w v x s
  | .amomin d a b w v x => Sys2Proof.Machine.execAmomin d a b w v x s
  | .amomax d a b w v x => Sys2Proof.Machine.execAmomax d a b w v x s
  | .amominu d a b w v x => Sys2Proof.Machine.execAmominu d a b w v x s
  | .amomaxu d a b w v x => Sys2Proof.Machine.execAmomaxu d a b w v x s
  | .amoswp d a b w v x => Sys2Proof.Machine.execAmoswp d a b w v x s
  | .amocas d a b w v x => Sys2Proof.Machine.execAmocas d a b w v x s
  | .amofadd d a b w v => Sys2Proof.Machine.execAmofadd d a b w v s
  | .amofmin d a b w v => Sys2Proof.Machine.execAmofmin d a b w v s
  | .amofmax d a b w v => Sys2Proof.Machine.execAmofmax d a b w v s
  | .amoaddNr a b w v x => Sys2Proof.Machine.execAmoaddNr a b w v x s
  | .amoandNr a b w v x => Sys2Proof.Machine.execAmoandNr a b w v x s
  | .amoorNr a b w v x => Sys2Proof.Machine.execAmoorNr a b w v x s
  | .amoxorNr a b w v x => Sys2Proof.Machine.execAmoxorNr a b w v x s
  | .amominNr a b w v x => Sys2Proof.Machine.execAmominNr a b w v x s
  | .amomaxNr a b w v x => Sys2Proof.Machine.execAmomaxNr a b w v x s
  | .amominuNr a b w v x => Sys2Proof.Machine.execAmominuNr a b w v x s
  | .amomaxuNr a b w v x => Sys2Proof.Machine.execAmomaxuNr a b w v x s
  | .amofaddNr a b w v => Sys2Proof.Machine.execAmofaddNr a b w v s
  | .amofminNr a b w v => Sys2Proof.Machine.execAmofminNr a b w v s
  | .amofmaxNr a b w v => Sys2Proof.Machine.execAmofmaxNr a b w v s
  | .fenceX => Sys2Proof.Machine.execFenceX s
  | .fenceH => Sys2Proof.Machine.execFenceH s
  | .gate a b w v => Sys2Proof.Machine.execGate a b w v s
  | .cinv a b w v => Sys2Proof.Machine.execCinv a b w v s
  | .tld t p q f k => Sys2Proof.Machine.execTld t p q f k s
  | .tldc t p q f k => Sys2Proof.Machine.execTldc t p q f k s
  | .tst t p q f w => Sys2Proof.Machine.execTst t p q f w s
  | .tlds t p q n k => Sys2Proof.Machine.execTlds t p q n k s
  | .tsts t p q n w => Sys2Proof.Machine.execTsts t p q n w s
  | .tshape t a w => Sys2Proof.Machine.execTshape t a w s
  | .tshapeq d t => Sys2Proof.Machine.execTshapeq d t s
  | .tclr t => Sys2Proof.Machine.execTclr t s
  | .tmov x y w => Sys2Proof.Machine.execTmov x y w s
  | .ttr x y w => Sys2Proof.Machine.execTtr x y w s
  | .tbcr x y b w v => Sys2Proof.Machine.execTbcr x y b w v s
  | .tbcc x y b w v => Sys2Proof.Machine.execTbcc x y b w v s
  | .textr d t b w v => Sys2Proof.Machine.execTextr d t b w v s
  | .tins t a b w v => Sys2Proof.Machine.execTins t a b w v s
  | .vset p a b w v => Sys2Proof.Machine.execVset p a b w v s
  | .vadv p a b w v => Sys2Proof.Machine.execVadv p a b w v s
  | .vget d p n => Sys2Proof.Machine.execVget d p n s
  | .tadd x y z w v u f => Sys2Proof.Machine.execTadd x y z w v u f s
  | .tsub x y z w v u f => Sys2Proof.Machine.execTsub x y z w v u f s
  | .tmul x y z w v u f => Sys2Proof.Machine.execTmul x y z w v u f s
  | .tfma x y z w v f => Sys2Proof.Machine.execTfma x y z w v f s
  | .tmin x y z w v f => Sys2Proof.Machine.execTmin x y z w v f s
  | .tmax x y z w v f => Sys2Proof.Machine.execTmax x y z w v f s
  | .tabs x y w u f => Sys2Proof.Machine.execTabs x y w u f s
  | .tneg x y w u f => Sys2Proof.Machine.execTneg x y w u f s
  | .tand x y z w v f => Sys2Proof.Machine.execTand x y z w v f s
  | .tor x y z w v f => Sys2Proof.Machine.execTor x y z w v f s
  | .txor x y z w v f => Sys2Proof.Machine.execTxor x y z w v f s
  | .tshl x y z w v u f => Sys2Proof.Machine.execTshl x y z w v u f s
  | .tshr x y z w v f => Sys2Proof.Machine.execTshr x y z w v f s
  | .tsra x y z w v f => Sys2Proof.Machine.execTsra x y z w v f s
  | .tscale x y z w v f => Sys2Proof.Machine.execTscale x y z w v f s
  | .tsel x y z w v f => Sys2Proof.Machine.execTsel x y z w v f s
  | .tcmpEq x y z w v f => Sys2Proof.Machine.execTcmpEq x y z w v f s
  | .tcmpNe x y z w v f => Sys2Proof.Machine.execTcmpNe x y z w v f s
  | .tcmpLt x y z w v f => Sys2Proof.Machine.execTcmpLt x y z w v f s
  | .tcmpLe x y z w v f => Sys2Proof.Machine.execTcmpLe x y z w v f s
  | .texp x y w f => Sys2Proof.Machine.execTexp x y w f s
  | .tlog x y w f => Sys2Proof.Machine.execTlog x y w f s
  | .trcp x y w f => Sys2Proof.Machine.execTrcp x y w f s
  | .trsq x y w f => Sys2Proof.Machine.execTrsq x y w f s
  | .tredrAdd x y w f => Sys2Proof.Machine.execTredrAdd x y w f s
  | .tredrMax x y w f => Sys2Proof.Machine.execTredrMax x y w f s
  | .tredrMin x y w f => Sys2Proof.Machine.execTredrMin x y w f s
  | .tredcAdd x y w f => Sys2Proof.Machine.execTredcAdd x y w f s
  | .tredcMax x y w f => Sys2Proof.Machine.execTredcMax x y w f s
  | .tredcMin x y w f => Sys2Proof.Machine.execTredcMin x y w f s
  | .tdotr x y z w v f => Sys2Proof.Machine.execTdotr x y z w v f s
  | .tcvt x y w f r => Sys2Proof.Machine.execTcvt x y w f r s
  | .tqnt x y z w v c r => Sys2Proof.Machine.execTqnt x y z w v c r s
  | .tdq x y z w v c r => Sys2Proof.Machine.execTdq x y z w v c r s
  | .tredx x y w l => Sys2Proof.Machine.execTredx x y w l s
  | .mma t a b k => Sys2Proof.Machine.execMma t a b k s
  | .mmal t a b k => Sys2Proof.Machine.execMmal t a b k s
  | .mmah16 t a b k => Sys2Proof.Machine.execMmah16 t a b k s
  | .mmah32 t a b k => Sys2Proof.Machine.execMmah32 t a b k s
  | .mmah64 t a b k => Sys2Proof.Machine.execMmah64 t a b k s
  | .mmae t a b k => Sys2Proof.Machine.execMmae t a b k s
  | .mmaeL t a b k => Sys2Proof.Machine.execMmaeL t a b k s
  | .mmaeH16 t a b k => Sys2Proof.Machine.execMmaeH16 t a b k s
  | .mmaeH32 t a b k => Sys2Proof.Machine.execMmaeH32 t a b k s
  | .mmaeH64 t a b k => Sys2Proof.Machine.execMmaeH64 t a b k s
  | .mldw b k => Sys2Proof.Machine.execMldw b k s
  | .mlease a w => Sys2Proof.Machine.execMlease a w s
  | .mrel => Sys2Proof.Machine.execMrel s
  | .mrdef a b w v => Sys2Proof.Machine.execMrdef a b w v s
  | .mrq d a w => Sys2Proof.Machine.execMrq d a w s
  | .mchk d => Sys2Proof.Machine.execMchk d s
  | .mdrain => Sys2Proof.Machine.execMdrain s
  | .cpyMs d a b w v => Sys2Proof.Machine.execCpyMs d a b w v s
  | .cpySm d a b w v => Sys2Proof.Machine.execCpySm d a b w v s
  | .cpyMr d a b w v => Sys2Proof.Machine.execCpyMr d a b w v s
  | .cpyUr d a b w v => Sys2Proof.Machine.execCpyUr d a b w v s
  | .cpyEs d a b w v => Sys2Proof.Machine.execCpyEs d a b w v s
  | .cpySe d a b w v => Sys2Proof.Machine.execCpySe d a b w v s
  | .cpywp d a w => Sys2Proof.Machine.execCpywp d a w s
  | .cwait a b w v => Sys2Proof.Machine.execCwait a b w v s
  | .own d a w => Sys2Proof.Machine.execOwn d a w s
  | .mepi t y c r => Sys2Proof.Machine.execMepi t y c r s
  | .trap c => Sys2Proof.Machine.execTrap c s
  | .sysrd d n => Sys2Proof.Machine.execSysrd d n s
  | .syswr a n => Sys2Proof.Machine.execSyswr a n s
  | .sealq d a => Sys2Proof.Machine.execSealq d a s
  | .frep a => Sys2Proof.Machine.execFrep a s
  | .diagrd d a => Sys2Proof.Machine.execDiagrd d a s
  | .diagwr d a => Sys2Proof.Machine.execDiagwr d a s
  | .repair d a => Sys2Proof.Machine.execRepair d a s
  | .mstat d => Sys2Proof.Machine.execMstat d s
  | .halt => Sys2Proof.Machine.execHalt s
  | .wfe => Sys2Proof.Machine.execWfe s
  | .mmurd d a => Sys2Proof.Machine.execMmurd d a s
  | .mmuwr d a => Sys2Proof.Machine.execMmuwr d a s
  | .mmuinv a => Sys2Proof.Machine.execMmuinv a s
  | .kwrap d a => Sys2Proof.Machine.execKwrap d a s
  | .kunwrap d a => Sys2Proof.Machine.execKunwrap d a s
  | .kscrub a => Sys2Proof.Machine.execKscrub a s
  | .hashi a => Sys2Proof.Machine.execHashi a s
  | .hashu d a => Sys2Proof.Machine.execHashu d a s
  | .hashf d a => Sys2Proof.Machine.execHashf d a s
  | .ecsign d a => Sys2Proof.Machine.execEcsign d a s
  | .ecvrfy d a => Sys2Proof.Machine.execEcvrfy d a s
  | .aesenc d a => Sys2Proof.Machine.execAesenc d a s
  | .aesdec d a => Sys2Proof.Machine.execAesdec d a s
  | .rng d => Sys2Proof.Machine.execRng d s
  | .repf c r d a b => Sys2Proof.Machine.execRepf c r d a b s
  | .evSummaryWrite cluster value => Sys2Proof.Machine.execSummaryWrite cluster value s
  | .evSafeDistance h => Sys2Proof.Machine.execSafeDistance h s
  | .evWaitSafePoint h => Sys2Proof.Machine.execWaitSafePoint h s
  | .evChunkCommit h => Sys2Proof.Machine.execChunkCommit h s
  | .evCoreClearComplete core => Sys2Proof.Machine.execCoreClearComplete core s
  | .evMessageDelivery m core => Sys2Proof.Machine.execMessageDelivery m core s
  | .evPlacementWalk m => Sys2Proof.Machine.execPlacementWalk m s
  | .evDataMessageArrival m => Sys2Proof.Machine.execDataMessageArrival m s
  | .evContinuationResume m core => Sys2Proof.Machine.execContinuationResume m core s
  | .evRegisterClearComplete h => Sys2Proof.Machine.execRegisterClearComplete h s
  | .evMigrationArrival h => Sys2Proof.Machine.execMigrationArrival h s
  | .evCuminQuery q => Sys2Proof.Machine.execCuminQuery q s
  | .evWqryAnswer q => Sys2Proof.Machine.execWqryAnswer q s
  | .evCopyStart cluster chan => Sys2Proof.Machine.execCopyStart cluster chan s
  | .evCopyElementDelivery cluster chan => Sys2Proof.Machine.execCopyElementDelivery cluster chan s
  | .evWeightKeyLoad cluster chan => Sys2Proof.Machine.execWeightKeyLoad cluster chan s
  | .evSealGroupVerify cluster chan => Sys2Proof.Machine.execSealGroupVerify cluster chan s
  | .evGrantBatch cluster => Sys2Proof.Machine.execGrantBatch cluster s
  | .evGrantExpiry cluster => Sys2Proof.Machine.execGrantExpiry cluster s
  | .evWeightLoadComplete h => Sys2Proof.Machine.execWeightLoadComplete h s
  | .evResidueCheckComplete cluster mismatch => Sys2Proof.Machine.execResidueCheckComplete cluster mismatch s
  | .evLeaseScrubComplete cluster => Sys2Proof.Machine.execLeaseScrubComplete cluster s
  | .evCoreParityError h => Sys2Proof.Machine.execCoreParityError h s
  | .evParityRequeueTimeout h => Sys2Proof.Machine.execParityRequeueTimeout h s
  | .evPairCommitTimeout h => Sys2Proof.Machine.execPairCommitTimeout h s
  | .evSpecWayTimeout h => Sys2Proof.Machine.execSpecWayTimeout h s
  | .evExclusiveTokenRelease h => Sys2Proof.Machine.execExclusiveTokenRelease h s
  | .evCapsuleComplete cap => Sys2Proof.Machine.execCapsuleComplete cap s
  | .evJoinStall cap => Sys2Proof.Machine.execJoinStall cap s
  | .evDeadline cap => Sys2Proof.Machine.execDeadline cap s
  | .evLeaseOverrun h => Sys2Proof.Machine.execLeaseOverrun h s
  | .evEngineStall cluster chan => Sys2Proof.Machine.execEngineStall cluster chan s
  | .evQueueStall queue => Sys2Proof.Machine.execQueueStall queue s
  | .evHeartbeatEcho missed saffronMissed => Sys2Proof.Machine.execHeartbeatEcho missed saffronMissed s
  | .evHeartbeatFailure who => Sys2Proof.Machine.execHeartbeatFailure who s
  | .evQueueSelect => Sys2Proof.Machine.execQueueSelect s
  | .evAdmitHead queue => Sys2Proof.Machine.execAdmitHead queue s
  | .evPendingSlotCopy queue => Sys2Proof.Machine.execPendingSlotCopy queue s
  | .evArmingWindowEntry queue => Sys2Proof.Machine.execArmingWindowEntry queue s
  | .evLaunchRelease cap => Sys2Proof.Machine.execLaunchRelease cap s
  | .evGatePoll queue => Sys2Proof.Machine.execGatePoll queue s
  | .evPreemptionSearch queue => Sys2Proof.Machine.execPreemptionSearch queue s
  | .evClaimExpiry core => Sys2Proof.Machine.execClaimExpiry core s
  | .evPowerDivision => Sys2Proof.Machine.execPowerDivision s
  | .evClusterPowerGate cluster => Sys2Proof.Machine.execClusterPowerGate cluster s
  | .evClusterWake cluster => Sys2Proof.Machine.execClusterWake cluster s
  | .evRetentionEntry unit => Sys2Proof.Machine.execRetentionEntry unit s
  | .evRetentionExit unit => Sys2Proof.Machine.execRetentionExit unit s
  | .evTier1Writeback line => Sys2Proof.Machine.execTier1Writeback line s
  | .evEpochReencrypt granule => Sys2Proof.Machine.execEpochReencrypt granule s
  | .evArrayDiagnosis cluster mismatch => Sys2Proof.Machine.execArrayDiagnosis cluster mismatch s
  | .evSummaryTimeout cluster => Sys2Proof.Machine.execSummaryTimeout cluster s
  | .evPackageFatalError trigger => Sys2Proof.Machine.execPackageFatalError trigger s
  | .evWarmResetTimeout => Sys2Proof.Machine.execWarmResetTimeout s
  | .evPowerUp => Sys2Proof.Machine.execPowerUp s
  | .evImageDelivery cluster bytes => Sys2Proof.Machine.execImageDelivery cluster bytes s
  | .evInputOutOfRange millivolts => Sys2Proof.Machine.execInputOutOfRange millivolts s
  | .evInputLoss => Sys2Proof.Machine.execInputLoss s
  | .evPtpFrame offset => Sys2Proof.Machine.execPtpFrame offset s
  | .evPpsInput offset ref10 => Sys2Proof.Machine.execPpsInput offset ref10 s
  | .evPpsOutput => Sys2Proof.Machine.execPpsOutput s
  | .evPeerMemoryWrite win off bytes => Sys2Proof.Machine.execPeerMemoryWrite win off bytes s
  | .evPeerMemoryRead win off len => Sys2Proof.Machine.execPeerMemoryRead win off len s
  | .evPeerGate win value => Sys2Proof.Machine.execPeerGate win value s
  | .evPeerDoorbell win value => Sys2Proof.Machine.execPeerDoorbell win value s
  | .evLinkDown link => Sys2Proof.Machine.execLinkDown link s
  | .evGoWrite vf queue mask => Sys2Proof.Machine.execGoWrite vf queue mask s
  | .evQcfgWrite vf queue value => Sys2Proof.Machine.execQcfgWrite vf queue value s
  | .evHostRegisterWrite vf off bytes => Sys2Proof.Machine.execHostRegisterWrite vf off bytes s
  | .evDoorbellCountRead vf n => Sys2Proof.Machine.execDoorbellCountRead vf n s
  | .evCtailWrite vf value => Sys2Proof.Machine.execCtailWrite vf value s
  | .evHostRead vf addr len => Sys2Proof.Machine.execHostRead vf addr len s
  | .evHostWrite vf addr bytes => Sys2Proof.Machine.execHostWrite vf addr bytes s
  | .evHostFetchadd vf addr wide operand => Sys2Proof.Machine.execHostFetchadd vf addr wide operand s
  | .evHostSwap vf addr wide operand => Sys2Proof.Machine.execHostSwap vf addr wide operand s
  | .evHostCas vf addr width compare swap => Sys2Proof.Machine.execHostCas vf addr width compare swap s
  | .evTier1MapWrite slot value => Sys2Proof.Machine.execTier1MapWrite slot value s
  | .evFunctionLevelReset vf => Sys2Proof.Machine.execFunctionLevelReset vf s
  | .evAbortCapsule via part queue ctag => Sys2Proof.Machine.execAbortCapsule via part queue ctag s
  | .evTeardownQueue via part queue => Sys2Proof.Machine.execTeardownQueue via part queue s
  | .evResetPartition via part => Sys2Proof.Machine.execResetPartition via part s
  | .evWarmReset via => Sys2Proof.Machine.execWarmReset via s
  | .evColdReset via => Sys2Proof.Machine.execColdReset via s
  | .evReadEvlog via part seq => Sys2Proof.Machine.execReadEvlog via part seq s
  | .evReadDump via off => Sys2Proof.Machine.execReadDump via off s
  | .evDumpKey via => Sys2Proof.Machine.execDumpKey via s
  | .evFence via cluster => Sys2Proof.Machine.execFence via cluster s
  | .evUnfence via cluster => Sys2Proof.Machine.execUnfence via cluster s
  | .evSetBudget via units => Sys2Proof.Machine.execSetBudget via units s
  | .evGetStatus via => Sys2Proof.Machine.execGetStatus via s
  | .evManagementWake cluster => Sys2Proof.Machine.execManagementWake cluster s
  | .evConfigWrite via part bytes => Sys2Proof.Machine.execConfigWrite via part bytes s
  | .evQueueBind via queue fn => Sys2Proof.Machine.execQueueBind via queue fn s
  | .evWindowWrite via win bytes => Sys2Proof.Machine.execWindowWrite via win bytes s
  | .evLock via => Sys2Proof.Machine.execLock via s
  | .evLockComplete => Sys2Proof.Machine.execLockComplete s
  | .evKeyset owner wrapped => Sys2Proof.Machine.execKeyset owner wrapped s
  | .evKeydrop owner => Sys2Proof.Machine.execKeydrop owner s
  | .evGrant granule owner => Sys2Proof.Machine.execGrant granule owner s
  | .evShare caller granule grantee => Sys2Proof.Machine.execShare caller granule grantee s
  | .evUnshare caller granule grantee => Sys2Proof.Machine.execUnshare caller granule grantee s
  | .evSeal granule record => Sys2Proof.Machine.execSeal granule record s
  | .evRelease granule => Sys2Proof.Machine.execRelease granule s
  | .evReleaseComplete granule => Sys2Proof.Machine.execReleaseComplete granule s
  | .evPldmMonitor sensor => Sys2Proof.Machine.execPldmMonitor sensor s
  | .evPldmFirmwareUpdate off bytes => Sys2Proof.Machine.execPldmFirmwareUpdate off bytes s
  | .evGetVersion path request => Sys2Proof.Machine.execGetVersion path request s
  | .evGetCapabilities path request => Sys2Proof.Machine.execGetCapabilities path request s
  | .evNegotiateAlgorithms path request => Sys2Proof.Machine.execNegotiateAlgorithms path request s
  | .evGetDigests path request => Sys2Proof.Machine.execGetDigests path request s
  | .evGetCertificate path request => Sys2Proof.Machine.execGetCertificate path request s
  | .evChallenge path request => Sys2Proof.Machine.execChallenge path request s
  | .evGetMeasurements path request => Sys2Proof.Machine.execGetMeasurements path request s
  | .evSpdmUnsupportedRequest path request => Sys2Proof.Machine.execSpdmUnsupportedRequest path request s
  | .evIllegalInstruction w => Sys2Proof.Machine.execIllegalInstruction w s
  | .evProducerCompletion h => Sys2Proof.Machine.execProducerCompletion h s
  | .evWaitTimeReached h => Sys2Proof.Machine.execWaitTimeReached h s
  | .evPowerShareAvailable cluster => Sys2Proof.Machine.execPowerShareAvailable cluster s
  | .evHoldover => Sys2Proof.Machine.execHoldover s
  | .evLinkUp link => Sys2Proof.Machine.execLinkUp link s
  | .evPeerRefusal cap handle => Sys2Proof.Machine.execPeerRefusal cap handle s
  | .evManagementDoorbell cluster => Sys2Proof.Machine.execManagementDoorbell cluster s
  | .evCompletionWriteError queue => Sys2Proof.Machine.execCompletionWriteError queue s

end Sys2Proof.Machine
end

