-- ==== Sys2Proof/Machine/Time.lean ====
section
/-! DEFINITION. The passing of time between steps (spec/00 R2, spec/15 R286, R291, R292, spec/16 R304). -/

namespace Sys2Proof.Machine

/-- Sumac with nanoseconds added; HOLDS counts the whole seconds since holdover began, saturating (R286). -/
def Sumac.add (m : Sumac) (ns : Nat) : Sumac :=
  let n := m.ns.toNat + ns
  { m with sec := m.sec + BitVec.ofNat 48 (n / 1000000000), ns := BitVec.ofNat 32 (n % 1000000000),
           holdNs := if m.state = 3 then m.holdNs + ns else m.holdNs,
           holds := if m.state = 3 then BitVec.ofNat 16 (Nat.min 65535 ((m.holdNs + ns) / 1000000000)) else m.holds }

/-- What Sumac counts in `n` cycles, in millionths of a nanosecond: within 200 ppm of them, and slow during a slew (R286) (log 8). -/
def sumacTime (m : Sumac) (free n : Nat) : Nat := m.frac + n * (999800 + free % (if m.slew = 0 then 401 else 201))

/-- Sumac after `n` cycles: what a slew has removed is gone, and the part of a nanosecond is kept. -/
def Sumac.pass (m : Sumac) (free n : Nat) : Sumac :=
  let x := sumacTime m free n
  { m.add (x / 1000000) with frac := x % 1000000, slew := m.slew - (n - x / 1000000) }

/-- A cluster after `n` cycles, at clock `now`: its matrix credit grows with its matrix share, up to 2^27 (R291), and a cluster that is
not idle begins its idle time anew (R292). -/
def Cluster.pass (idle : Bool) (n now : Nat) (c : Cluster) : Cluster :=
  { c with credit := min 134217728 (c.credit + Int.ofNat (9216 * (c.share - 3) * n)), idleFrom := if idle then c.idleFrom else now }

/-- A task for which the queue watchdog stops: in WAIT with its time still ahead, waiting for staging, or inside a service request (R304). -/
def restful (s : State) (h : Hart) : Bool :=
  match h.run with
  | .blocked (.wait t _) => s.now.ult t
  | .staging _ | .serving => true
  | _ => false

/-- Does the watchdog of a queue stand still: is every task of its capsules at rest, every other capsule armed (R304)? -/
def stands (s : State) (n : Nat) : Bool :=
  (s.inFlight n).all fun c =>
    c.state == .armed || (!(s.hartsOf c.id).isEmpty && (s.harts.filter fun h => h.kind == .task && h.cap == c.id && h.run != .ended).all (restful s))

/-- Join cells whose COUNT has changed since it was seen last start their time anew (R91). -/
def watchJoins (s : State) : State :=
  { s with caps := s.caps.map fun c => { c with joins := c.joins.map fun r =>
      let n := (cellBytes s r.core r.loc r.pa).readLE 0 4
      if n = r.seen then r else { r with seen := n, stamp := s.clock } } }

/-- A channel after `n` cycles: the time in which its copy waits for a ring slot does not count toward ENGINE_STALL (R303). -/
def Chan.pass (waits : Copy → Bool) (n : Nat) (c : Chan) : Chan :=
  { c with copy := c.copy.map fun x => if waits x then { x with stamp := x.stamp + n } else x }

/-- A step takes a free number of cycles of 1 ns (log 8). -/
def tick (s : State) : State :=
  let s := watchJoins s
  let n := Config.elapsed s.fresh
  { s with
    fresh := s.fresh + 1
    clock := s.clock + n
    sumac := s.sumac.pass (Config.freeNat s.fresh) n
    clusters := s.clusters.map fun c =>
      { c.pass (idleCluster s c.no) n (s.clock + n) with chans := c.chans.map (Chan.pass (slotWait s c.no) n) }
    queues := s.queues.map fun q => if stands s q.no then { q with progress := q.progress + n } else q }

end Sys2Proof.Machine
end

