-- ==== Sys2Proof/Machine/Turn.lean ====
section
/-! DEFINITION. Whose turn it is: the issue of one instruction by a context, what a context does that is not ready, and how the
first instruction of a program is laid out (spec/01 R34, R35, R37, R42, R44, spec/02 R50, spec/08 R203, spec/10 R224, spec/16 R310). -/

namespace Sys2Proof.Machine

/-- Fetch, decode and execute one instruction (R50). An instruction that has waited at issue is the one that was fetched. -/
def runNext (s : State) : Answer :=
  match fetch (startIssue s) with
  | .ok (_, some i, t) => exec i t
  | .ok (w, none, t) => execIllegalInstruction (BitVec.ofNat 32 w) t
  | .error h => settle {} (.error h)

/-- What a resumed task does before it issues (R42, R140, R184): it binds its lease again, and its copy restarts. -/
def prepare (s : State) : Run State :=
  if s.hart.kind = .task then do
    let s ← rebindLease s
    if bitOf (rstGet s.hart.r.rst 4 1) 1 then restartCopy s else .ok s
  else .ok s

/-- A chunk in exclusive mode issues only with the token of its arbiters (R203): it takes the token when no other chunk holds it. -/
def takeToken (s : State) : Run State :=
  if s.hart.chunk.exclusive && !s.tokens.contains (tokenOf s.hart) then
    if tokenMask s.hart &&& tokensHeld s (tokenOf s.hart) = 0 then .ok { s with tokens := tokenOf s.hart :: s.tokens }
    else .error (.wait .token s)
  else .ok s

/-- A context that may issue. -/
def issueNext (s : State) : Answer :=
  match takeToken s with
  | .error h => settle {} (.error h)
  | .ok s =>
    match prepare s with
    | .error h => settle {} (.error h)
    | .ok s => runNext s

/-- Does the context wait for a producer of its own (R16)? -/
def awaitsProducer (h : Hart) : Bool :=
  match h.run with
  | .blocked (.sreg _) | .blocked (.treg _) | .blocked (.group _) | .blocked .flags => !h.inflight.isEmpty
  | _ => false

/-- Has HALT or WFE stopped the issue of the service core on which a migrated task stands (R224)? -/
def coreStopped (s : State) : Bool :=
  s.hart.kind == .task && s.hart.core == serviceCore s.here &&
    s.harts.any fun h => h.kind == .firmware && h.core == s.hart.core && (h.run == .halted || h.run == .wfe)

/-- The firmware works on the service request of a migrated task (R213): when it is done, which is free (log 78), the task goes on at its next
instruction with the results. -/
def endService (s : State) : State :=
  let t := { s with fresh := s.fresh + 1 }
  if Config.freeBool s.fresh then (serviceResults t).mod fun h => { h with run := .ready } else t

/-- The turn of the context that issues: a ready one issues, a waiting one tries again, and what stands in its way moves on. -/
def turn (s : State) : Answer :=
  if s.down = true ∨ s.phase = .fatal then .next s
  else if awaitsProducer s.hart then .next (completeProducer s)
  else match s.hart.run with
    | .ready => if coreStopped s then .next s else issueNext s
    | .blocked (.place _) | .migrating _ | .requeued _ => .next (migrationArrival s)
    | .blocked _ => if coreStopped s then .next s else issueNext s
    | .clearing => .next (finishRegisters s)
    | .committing _ => execChunkCommit s.hart.id s
    | .wfe => .next (endWfe s.here s)
    | .serving => .next (endService s)
    | .staging _ | .pairFault _ _ | .halted | .ended => .next s

/-- The turn of an event. What has an encoding is no event: it comes from a fetch. -/
def turnEvent (i : Instr) (s : State) : Answer := if (encode i).isSome then .next s else exec i s

/-- A request of the host or of a peer that has waited is tried again (R203, R259, R325). -/
def retry (i : Request) (s : State) : State :=
  match i with
  | .read vf addr len => hostRead vf addr len s
  | .write vf addr bytes => hostWrite vf addr bytes s
  | .fetchadd vf addr wide v => hostFetchadd vf addr wide v s
  | .swap vf addr wide v => hostSwap vf addr wide v s
  | .cas vf addr width x y => hostCas vf addr width x y s
  | .peerWrite link dev win off bytes => peerWrite link dev win off bytes s
  | .peerRead link dev win off len => peerRead link dev win off len s
  | .peerGate link dev win v => peerGate link dev win v s
  | .peerDoorbell link dev win v => peerDoorbell link dev win v s

/-- What waits at its home is tried in the order of arrival: what waits on keeps its place. -/
def retryAll (s : State) : State := s.pending.foldl (fun t i => retry i t) { s with pending := [] }

/-- The RELEASEs that wait are tried (R254): one whose granule no capsule names any more begins. -/
def retryReleases (s : State) : State := s.releasing.foldl (fun t g => release g t) { s with releasing := [] }

/-- The time of a step passes, and what waited is tried. -/
def pass (s : State) : State := retryReleases (retryAll (tick s))

/-- What the agenda says, after the time of the step has passed. -/
def take (s : State) : Answer :=
  match s.agenda with
  | .event i :: rest => turnEvent i (pass { s with agenda := rest })
  | .issue h :: rest => turn (focus h (pass { s with agenda := rest }))
  | .fatal t :: rest => execPackageFatalError t (pass { s with agenda := rest })
  | [] => turn (pass s)

/-! A program from outside (log 2). -/

/-- Where the first instruction of a placed program stands. -/
def programBase : Nat := 0x1000

/-- The descriptor of its code: KIND 1 with R and X, of the device's owner. -/
def programExtent : Extent := #v[word programBase, 0x1000, 0x105, 0]

/-- The capsule that runs it. -/
def programCapsule (id : Nat) : Capsule :=
  { id := id, part := 0, queue := 0, pri := 0, record := [], exts := [programExtent], foot := [(0, 0)], foot2 := [], key := 0, state := .running,
    preempt := [], joins := [], commits := 0, tasks := 0, nflt := 0, tlaunch := 0, report := false, launch := none }

/-- A ready task on core 0 whose PC names the first word of its code. -/
def programHart (id cap : Nat) : Hart := { Hart.reset id .task 0 with cap := cap, run := .ready }

/-- The state with one instruction placed where the next step fetches: a task of a running capsule on core 0, the instruction in its
code, and no stale copy of its line. -/
def placeProgram (s : State) (w : Nat) : State :=
  let s := s.modCluster 0 fun c => { c with ro := c.ro.filter fun x => x.cap != s.nextId + 1 }
  { s with
    hart := programHart s.nextId (s.nextId + 1)
    parked := s.hart :: s.parked
    agenda := []
    nextId := s.nextId + 2
    mem := s.mem.writeLE programBase 64 w
    poison := s.poison.filter fun p => decide (p.1 < programBase / 32) || decide (programBase / 32 + 2 ≤ p.1)
    caps := programCapsule (s.nextId + 1) :: s.caps
    phase := .running }

end Sys2Proof.Machine
end

