-- ==== Sys2Proof/Machine/Step.lean ====
section
/-! DEFINITION. One step of the machine, and the state in which the next step runs a given instruction. -/

namespace Sys2Proof.Machine

/-- One step: an event of the agenda, or the turn of the context that issues. -/
def step : State → Host.Outcome State Fault Refusal := take

/-- The state with an instruction of `nbits` bits placed where step fetches next (log 2). -/
def State.withFetchWord (s : State) (nbits w : Nat) : State := placeProgram s (w % 2 ^ nbits)

end Sys2Proof.Machine
end

