-- ==== Sys2Proof/Safety.lean ====
section
/-! DEFINITION. What counts as a safe run: a machine that never stops. The spec gives nearly every error a consequence that the
device carries out, so a run stops only where nothing is there to act on (Fault.reservedAddress). -/

namespace Sys2Proof

/-- The next `k` steps of a machine all give a next state. -/
def Safe (k : Nat) (s : Machine.State) : Prop :=
  match k with
  | 0 => True
  | k + 1 => ∃ t, Machine.step s = .next t ∧ Safe k t

end Sys2Proof
end

