-- ==== Sys2Proof/Certificates/Slice0/Obligations.lean ====
section
/-! DEFINITION. The statements for the provers, and the words they share. -/

namespace Sys2Proof.Claims

open Sys2Proof.Machine

/-! Words that the statements share. -/

/-- A task has safe-point distance left for one more counted instruction (R39). -/
def Room (s : State) : Prop := s.hart.kind = .task → s.hart.sdist < 4096

/-- These scalar registers are full (R16). -/
def Full (s : State) (l : List SReg) : Prop := ∀ r ∈ l, s.sfull r = true

/-- These tile registers are allocated to the task: they are named t(16 − n) to t15 (R12). -/
def Tiles (s : State) (l : List TReg) : Prop := ∀ t ∈ l, 16 - s.hart.ntiles ≤ t.val

/-- These tile registers are full (R16). -/
def FullTiles (s : State) (l : List TReg) : Prop := ∀ t ∈ l, (s.tile t).full = true

/-- No fault is injected into the arrays of the cluster (R221, R316). -/
def Quiet (s : State) : Prop := (s.cluster s.here).inj = none

/-- What every completed instruction does beside its own effect: it is not waiting any more, it is counted toward the safe-point
distance (R39), and PC moves past it (R62). -/
def retire (s : State) : State := advance 4 (countIssue (wake s))

/-- The same for an instruction that sets PC itself. -/
def retireFlow (s : State) : State := countIssue (wake s)

/-- Everything outside the context that issues is as it was. -/
def Outside (s t : State) : Prop := { t with hart := s.hart } = s

/-- 1 when the condition holds, else 0. -/
def oneIf (p : Prop) [Decidable p] : Word := if p then 1 else 0

end Sys2Proof.Claims

open Sys2Proof Sys2Proof.Machine Sys2Proof.Claims

/-- R72: what each instruction of major 0x01 writes to d, with its sources full; nothing else changes but what `retire` says. -/
def Obligations.IntegerResults : Prop :=
  ∀ (d a b : SReg) (w v : Bool) (s : State), Room s → Full s [a, b] →
    let x := s.sreg a
    let y := s.sreg b
    let n := y.toNat % 64
    let gives := fun (r : Word) => (Host.Outcome.next (retire (writeS d r s)) : Answer)
    exec (.add d a b w v) s = gives (word (x.toNat + y.toNat)) ∧
    exec (.sub d a b w v) s = gives (word (x.toNat + 2 ^ 64 - y.toNat)) ∧
    exec (.and d a b w v) s = gives (x &&& y) ∧
    exec (.or d a b w v) s = gives (x ||| y) ∧
    exec (.xor d a b w v) s = gives (x ^^^ y) ∧
    exec (.shl d a b w v) s = gives (word (x.toNat * 2 ^ n)) ∧
    exec (.shr d a b w v) s = gives (word (x.toNat / 2 ^ n)) ∧
    exec (.sra d a b w v) s = gives (wordOfInt (x.toInt / 2 ^ n)) ∧
    exec (.rol d a b w v) s = gives (word (x.toNat * 2 ^ n + x.toNat / 2 ^ (64 - n))) ∧
    exec (.min d a b w v) s = gives (if x.toInt ≤ y.toInt then x else y) ∧
    exec (.max d a b w v) s = gives (if x.toInt ≤ y.toInt then y else x) ∧
    exec (.minu d a b w v) s = gives (if x.toNat ≤ y.toNat then x else y) ∧
    exec (.maxu d a b w v) s = gives (if x.toNat ≤ y.toNat then y else x) ∧
    exec (.slt d a b w v) s = gives (oneIf (x.toInt < y.toInt)) ∧
    exec (.sltu d a b w v) s = gives (oneIf (x.toNat < y.toNat)) ∧
    exec (.seq d a b w v) s = gives (oneIf (x = y)) ∧
    (s.sfull d = true → exec (.sel d a b w v) s = gives (if s.sreg d ≠ 0 then x else y))

/-- R73: multiplication and division, with the results that the table gives for a zero divisor and for −2^63 by −1. -/
def Obligations.MultiplyDivideResults : Prop :=
  ∀ (d a b : SReg) (w v : Bool) (s : State), Room s → Full s [a, b] →
    let x := s.sreg a
    let y := s.sreg b
    let gives := fun (r : Word) => (Host.Outcome.next (retire (writeS d r s)) : Answer)
    exec (.mul d a b w v) s = gives (word (x.toNat * y.toNat)) ∧
    exec (.mulh d a b w v) s = gives (wordOfInt (x.toInt * y.toInt / 2 ^ 64)) ∧
    exec (.mulhu d a b w v) s = gives (word (x.toNat * y.toNat / 2 ^ 64)) ∧
    exec (.div d a b w v) s = gives (if y = 0 then 0xFFFFFFFFFFFFFFFF
      else if x = 0x8000000000000000 ∧ y = 0xFFFFFFFFFFFFFFFF then 0x8000000000000000 else wordOfInt (x.toInt.tdiv y.toInt)) ∧
    exec (.divu d a b w v) s = gives (if y = 0 then 0xFFFFFFFFFFFFFFFF else word (x.toNat / y.toNat)) ∧
    exec (.rem d a b w v) s = gives (if y = 0 then x
      else if x = 0x8000000000000000 ∧ y = 0xFFFFFFFFFFFFFFFF then 0 else wordOfInt (x.toInt.tmod y.toInt)) ∧
    exec (.remu d a b w v) s = gives (if y = 0 then x else word (x.toNat % y.toNat))

/-- R74: CLZ gives the k with 2^(63 − k) ≤ a < 2^(64 − k), CTZ the k whose power of two is the largest that divides a, both 64 for
zero; POPC counts the one bits, BSWAP reverses the eight bytes, MOV copies. The b field and wait-b are reserved: a word of the major with
one of them nonzero decodes to nothing. -/
def Obligations.OneSourceResults : Prop :=
  ∀ (d a : SReg) (w : Bool) (s : State), Room s → Full s [a] →
    let x := s.sreg a
    let gives := fun (r : Word) => (Host.Outcome.next (retire (writeS d r s)) : Answer)
    exec (.mov d a w) s = gives x ∧
    (∃ k, exec (.clz d a w) s = gives (word k) ∧
      (x = 0 ∧ k = 64 ∨ k < 64 ∧ 2 ^ (63 - k) ≤ x.toNat ∧ x.toNat < 2 ^ (64 - k))) ∧
    (∃ k, exec (.ctz d a w) s = gives (word k) ∧
      (x = 0 ∧ k = 64 ∨ k < 64 ∧ x.toNat % 2 ^ k = 0 ∧ x.toNat % 2 ^ (k + 1) ≠ 0)) ∧
    exec (.popc d a w) s = gives (word ((List.range 64).filter fun i => x.getLsbD i).length) ∧
    (∃ r : Word, exec (.bswap d a w) s = gives r ∧
      ∀ i < 8, bitsOf r.toNat (8 * i + 7) (8 * i) = bitsOf x.toNat (63 - 8 * i) (56 - 8 * i)) ∧
    ∀ n, n < 2 ^ 32 → n / 2 ^ 26 = 3 → bitsOf n 15 11 ≠ 0 ∨ bitsOf n 9 9 ≠ 0 → ∃ e, decodeWord n = .error e

/-- R75 with the immediates of R53: sign-extended 15 bits, counts of 6 bits, and EXT and INS on the field of l + 1 bits from bit p, where
the field lies in the word (R53). -/
def Obligations.ImmediateResults : Prop :=
  ∀ (d a : SReg) (w : Bool) (i : BitVec 15) (c l p : BitVec 6) (s : State), Room s → Full s [a] →
    let x := s.sreg a
    let m := wordOfInt i.toInt
    let gives := fun (r : Word) => (Host.Outcome.next (retire (writeS d r s)) : Answer)
    exec (.addi d a w i) s = gives (x + m) ∧
    exec (.andi d a w i) s = gives (x &&& m) ∧
    exec (.ori d a w i) s = gives (x ||| m) ∧
    exec (.xori d a w i) s = gives (x ^^^ m) ∧
    exec (.movi d i) s = gives m ∧
    exec (.shli d a w c) s = gives (word (x.toNat * 2 ^ c.toNat)) ∧
    exec (.shri d a w c) s = gives (word (x.toNat / 2 ^ c.toNat)) ∧
    exec (.srai d a w c) s = gives (wordOfInt (x.toInt / 2 ^ c.toNat)) ∧
    (p.toNat + l.toNat + 1 ≤ 64 →
      exec (.ext d a w l p) s = gives (word (bitsOf x.toNat (p.toNat + l.toNat) p.toNat)) ∧
      (s.sfull d = true → ∃ r : Word, exec (.ins d a w l p) s = gives r ∧ ∀ k < 64,
        r.getLsbD k = if p.toNat ≤ k ∧ k ≤ p.toNat + l.toNat then x.getLsbD (k - p.toNat) else (s.sreg d).getLsbD k))

/-- R76, R77: HMK, HOFF, HLEN, HRGT on the extents of the capsule, and TIME in a context that has no other copy; the copy of a pair that
reads later takes the value of the first (R100). -/
def Obligations.HandleAndTimeResults : Prop :=
  ∀ (d a b : SReg) (w v : Bool) (s : State), Room s → Full s [a, b] →
    let x := s.sreg a
    let y := s.sreg b
    let gives := fun (r : Word) (t : State) => (Host.Outcome.next (retire (writeS d r t)) : Answer)
    exec (.hmk d a b w v) s = gives (word (x.toNat % 256 * 2 ^ 56 + y.toNat % 2 ^ 56)) s ∧
    exec (.hoff d a w) s = gives (word (x.toNat % 2 ^ 56)) s ∧
    (∀ e : Extent, s.extents[x.toNat / 2 ^ 56]? = some e → e.kind ≠ 0 →
      exec (.hlen d a w) s = gives e[1] s ∧ exec (.hrgt d a w) s = gives (e[2] &&& 0xFFF) s) ∧
    ((∀ e : Extent, s.extents[x.toNat / 2 ^ 56]? = some e → e.kind = 0) →
      exec (.hlen d a w) s = gives 0 s ∧ exec (.hrgt d a w) s = gives 0 s) ∧
    (s.hart.partner.bind s.hart? = none → exec (.time d) s = gives (word (s.sumac.sec.toNat * 1000000000 + s.sumac.ns.toNat)) s) ∧
    (∀ p, s.hart.partner.bind s.hart? = some p →
      exec (.time d) s = gives ((p.times[s.hart.times.length]?).getD s.now)
        (s.mod fun h => { h with times := h.times ++ [(p.times[s.hart.times.length]?).getD s.now] }))

/-- What a scalar result leaves alone (the frame of ADD to TIME above): the destination is written and full, and every other scalar
register, the tile and view registers, FLG, RST, the lease, the chunk and the checkpoint stay, with everything outside the context,
every byte of memory among it. -/
def Obligations.ScalarFrame : Prop :=
  ∀ (d : SReg) (r : Word) (s : State), let t := retire (writeS d r s)
    Outside s t ∧ t.sreg d = r ∧ t.sfull d = true ∧
    (∀ q, q ≠ d → t.sreg q = s.sreg q ∧ t.sfull q = s.sfull q) ∧
    t.hart.r.t = s.hart.r.t ∧ t.hart.r.p = s.hart.r.p ∧ t.hart.r.flg = s.hart.r.flg ∧ t.hart.r.rst = s.hart.r.rst ∧
    t.hart.r.wact = s.hart.r.wact ∧ t.hart.r.wpend = s.hart.r.wpend ∧ t.hart.lease = s.hart.lease ∧ t.hart.chunk = s.hart.chunk ∧
    t.hart.ckpt = s.hart.ckpt ∧ t.hart.ranks = s.hart.ranks ∧ (∀ a, t.mem.read a = s.mem.read a) ∧
    t.hart.r.pc = addOff s.hart.r.pc 4 ∧ t.hart.sdist = s.hart.sdist + (if s.hart.kind = .task then 1 else 0)

/-- R78, R54, R62: where a branch, a jump and NOP go; JL alone writes a register. The target is the PC's handle with four times the
displacement added on its offset bits, modulo 2^56. -/
def Obligations.ControlTransfers : Prop :=
  ∀ (a b : SReg) (w : Bool) (j : BitVec 13) (g : BitVec 26) (s : State), Room s → Full s [a, b] →
    let x := s.sreg a
    let y := s.sreg b
    let pc := s.hart.r.pc
    let plus := fun (k : Int) => word (pc.toNat / 2 ^ 56 * 2 ^ 56 + ((Int.ofNat (pc.toNat % 2 ^ 56) + k) % 2 ^ 56).toNat)
    let gives := fun (p : Word) => (Host.Outcome.next (retireFlow (setPc p s)) : Answer)
    let br := fun (c : Prop) [Decidable c] => gives (if c then plus (4 * j.toInt) else plus 4)
    exec (.brEq a b j) s = br (x = y) ∧
    exec (.brNe a b j) s = br (x ≠ y) ∧
    exec (.brLt a b j) s = br (x.toInt < y.toInt) ∧
    exec (.brGe a b j) s = br (y.toInt ≤ x.toInt) ∧
    exec (.brLtu a b j) s = br (x.toNat < y.toNat) ∧
    exec (.brGeu a b j) s = br (y.toNat ≤ x.toNat) ∧
    exec (.j g) s = gives (plus (4 * g.toInt)) ∧
    exec (.jl g) s = .next (retireFlow (setPc (plus (4 * g.toInt)) (writeS 31 (plus 4) s))) ∧
    exec (.jr a w) s = gives (word (x.toNat / 4 * 4)) ∧
    exec .nop s = .next (retire s)

/-- R95, R96, R62: DONE and CONT make a task ask for its commit, with PC at the committing instruction; CONT first checks the handler
header, as SEND does, and carries s24 to s29. These are the model's: that the message carries the tile count which the sending core read in the
header (log 66), that it is none of the 32 of R36, so that CONT needs no room (log 114), that a migrated task's is bound to its service core
(log 117), and that outside a task DONE only advances PC (log 17). -/
def Obligations.EndOfTask : Prop :=
  ∀ (a b : SReg) (w v : Bool) (s : State), Room s →
    (s.hart.kind = .task → exec .done s = .next (countIssue (s.mod fun h => { h with run := .committing .done, waitFrom := s.clock }))) ∧
    (s.hart.kind ≠ .task → exec .done s = .next (retire s)) ∧
    (∀ pa, s.hart.kind = .task → Full s [a, b, 24, 25, 26, 27, 28, 29] → checkAccess s (s.sreg a) 4 .exec = .ok pa →
      ∃ m : Msg, exec (.cont a b w v) s = .next (countIssue (s.mod fun h => { h with run := .committing (.cont m), waitFrom := s.clock })) ∧
        m.kind = .cont ∧ m.cap = s.hart.cap ∧ m.entry = s.sreg a ∧ bitsOf m.dest.toNat 63 48 = (s.sreg b).toNat % 65536 ∧
        bitsOf m.dest.toNat 47 0 = 0 ∧ m.bound = some s.hart.core ∧ m.tiles = (s.mem.read pa).toNat % 16 + 1 ∧ m.tile = none ∧
        m.ranks = s.hart.ranks ∧ ∀ i : Fin 6, m.payload.get i = s.sreg (Fin.ofNat 32 (24 + i.val)))

/-- R39, R97: SAFE is not counted and sets the safe-point distance to zero. While pre-emption is not pending it does nothing else;
while it is pending, and the continuation extent has room for the record, the task asks for the commit that ends at the next word. Without room
(R40) CONT_SPACE is logged and the task goes on, exempt from pre-emption; SAFE of an exempt task, and of a capsule without a KIND 4 extent, does
nothing else either. -/
def Obligations.SafePoints : Prop :=
  ∀ (m : BitVec 16) (s : State),
    let z := s.mod fun h => { h with sdist := 0 }
    let next := addOff s.hart.r.pc 4
    let onward := fun (t : State) => (Host.Outcome.next (wake (setPc next t)) : Answer)
    (preemptPending s = false ∨ s.hart.exempt = true ∨ (∀ c : Capsule, s.capsule = some c → ∀ e : Extent, e ∈ c.exts → e.kind ≠ 4) →
      exec (.safe m) s = onward z) ∧
    (preemptPending z = true → s.hart.exempt = false → roomFor z s.hart.r (liveMask s.hart m) next = some false → ∃ t : State,
      exec (.safe m) s = onward t ∧ t.hart = { z.hart with exempt := true } ∧ t.mem = s.mem ∧ t.net = s.net ∧
      (t.part s.partition).log = (s.part s.partition).log.add s.now
        { code := Code.contSpace.num, kind := 1, core := s.hart.core, queue := s.queueNo, ctag := s.ctag }) ∧
    (preemptPending z = true → s.hart.exempt = false → roomFor z s.hart.r (liveMask s.hart m) next = some true →
      exec (.safe m) s = .next (z.mod fun h => { h with run := .committing (.safe m next none), waitFrom := s.clock }))

/-- R98: WAIT goes on once TIME has reached s(a), or a port that s(b)[3:0] selects holds an entry that no open chunk has consumed; until
then the context waits, and PC stays. -/
def Obligations.WaitRule : Prop :=
  ∀ (a b : SReg) (w v : Bool) (s : State), Room s → Full s [a, b] →
    let ready := (s.sreg a).toNat ≤ s.now.toNat ∨
      ∃ n < 4, (s.sreg b).getLsbD n = true ∧ ∃ e ∈ (s.core s.hart.core).ports.get (Fin.ofNat 4 n), e.taken = none
    (ready → exec (.wait a b w v) s = .next (retire s)) ∧
    (¬ready → exec (.wait a b w v) s = .next (block (.wait (s.sreg a) ((s.sreg b).toNat % 16)) s))

/-- R44, R99: MIGR takes a task off its tile core and MRET off its service core; each is MIGR_STATE on the other, a fault with no
effect of the instruction. -/
def Obligations.Migration : Prop :=
  ∀ s : State, Room s → s.hart.kind = .task →
    (s.hart.migrated = false → exec .migr s = .next (retire (s.mod fun h => { h with run := .migrating none })) ∧
      exec .mret s = .next (raise { word := wordOf .mret } .migrState none s)) ∧
    (s.hart.migrated = true → exec .mret s = .next (retire (s.mod fun h => { h with run := .requeued none })) ∧
      exec .migr s = .next (raise { word := wordOf .migr } .migrState none s))

/-- R63: a LIMM and the ADDI, ANDI, ORI, XORI, MOVI or LDC after it issue as one instruction with a 41-bit immediate, count once, and move
PC by 8. -/
def Obligations.LongImmediates : Prop :=
  ∀ (hi : BitVec 26) (d a : SReg) (w : Bool) (i : BitVec 15) (n : Nat) (s t : State), Room s → Full t [a] → Room t →
    issueWord (addOff s.hart.r.pc 4) s = .ok (n, t) →
    let m := wordOfInt (hi.toInt * 2 ^ 15 + i.toNat)
    let x := t.sreg a
    let gives := fun (u : State) => (Host.Outcome.next (advance 8 (countIssue (wake u))) : Answer)
    (decodeWord n = .ok (.addi d a w i) → exec (.limm hi) s = gives (writeS d (x + m) t)) ∧
    (decodeWord n = .ok (.andi d a w i) → exec (.limm hi) s = gives (writeS d (x &&& m) t)) ∧
    (decodeWord n = .ok (.ori d a w i) → exec (.limm hi) s = gives (writeS d (x ||| m) t)) ∧
    (decodeWord n = .ok (.xori d a w i) → exec (.limm hi) s = gives (writeS d (x ^^^ m) t)) ∧
    (decodeWord n = .ok (.movi d i) → exec (.limm hi) s = gives (writeS d m t)) ∧
    (∀ bs u, decodeWord n = .ok (.ldc d a w i) → handleOff (addOff x m.toInt) % 8 = 0 → loadRo (addOff x m.toInt) 8 .read t = .ok (bs, u) →
      exec (.limm hi) s = gives (writeS d (word (leNat bs)) u))

/-- R65, R66: REPF captures the words after it and replays them in order, passes outermost, from the pass and word in RST; it is counted
once, RST is zero after it, and PC is past the captured words. -/
def Obligations.RepeatReplays : Prop :=
  ∀ (c : BitVec 4) (r : BitVec 8) (d a b : BitVec 4) (words : List Instr) (s t u : State), Room s → Room t →
    let site : Site := { word := wordOf (.repf c r d a b) }
    let start := if midReplay t then t else countIssue t
    capture site (c.toNat + 1) (addOff s.hart.r.pc 4) s = .ok (words, t) →
    replayAll site words ⟨d.toNat, a.toNat, b.toNat⟩
      (((List.range (r.toNat + 1)).map fun p => (List.range (c.toNat + 1)).map fun i => (p, i)).flatten.filter fun x =>
        decide (start.rstIdx / 16 < x.1) || decide (x.1 = start.rstIdx / 16) && decide (start.rstIdx % 16 ≤ x.2)) start = .ok u →
    exec (.repf c r d a b) s = .next (advance (4 + 4 * (c.toNat + 1)) (clearRst (wake u)))

/-- R66: one replay. Pass p adds p times each stride to the register fields, scalars modulo 32 and tiles modulo 16; it issues as an ordinary
instruction and is counted, and PC stays at the REPF. Shown for a word of each register format. -/
def Obligations.ReplayStrides : Prop :=
  ∀ (site : Site) (words : List Instr) (u : Advance) (p i : Nat) (s : State), Room s →
    (∀ d a b w v, words[i]? = some (.add d a b w v) →
      let d' : SReg := Fin.ofNat 32 (d.val + p * u.d)
      let a' : SReg := Fin.ofNat 32 (a.val + p * u.a)
      let b' : SReg := Fin.ofNat 32 (b.val + p * u.b)
      Full s [a', b'] → replayOne site words u (p, i) s = .ok (countIssue (wake (writeS d' (s.sreg a' + s.sreg b') s)))) ∧
    (∀ d a w c, words[i]? = some (.shli d a w c) →
      let d' : SReg := Fin.ofNat 32 (d.val + p * u.d)
      let a' : SReg := Fin.ofNat 32 (a.val + p * u.a)
      Full s [a'] → replayOne site words u (p, i) s = .ok (countIssue (wake (writeS d' (s.sreg a' <<< c.toNat) s)))) ∧
    (∀ x y w v z f, words[i]? = some (.tor x y z w v f) →
      let x' : TReg := Fin.ofNat 16 (x.val + p * u.d)
      let y' : TReg := Fin.ofNat 16 (y.val + p * u.a)
      let z' : TReg := Fin.ofNat 16 (z.val + p * u.b)
      ∀ t, perform (opTor x' y' z' w v f) s = .ok t → replayOne site words u (p, i) s = .ok (countIssue (wake t)))

namespace Sys2Proof.Claims

/-- The destination words that SEND and SENDT accept for a capsule, as R85 lists its checks. -/
def SendTarget (c : Capsule) (d : Word) : Prop :=
  bitsOf d.toNat 31 17 = 0 ∧ bitsOf d.toNat 34 32 ∉ [1, 2, 3] ∧
  (d.getLsbD 44 = true → bitsOf d.toNat 34 32 = 0 ∧ bitsOf d.toNat 47 45 = 0 ∧ bitsOf d.toNat 43 35 = 0) ∧
  (d.getLsbD 44 = false →
    bitsOf d.toNat 47 45 ≤ c.lvls ∧ bitsOf d.toNat 42 35 < c.members (bitsOf d.toNat 47 45) ∧ c.domain (bitsOf d.toNat 47 45) ≠ 7 ∧
    (bitsOf d.toNat 34 32 ≠ 0 → d.getLsbD 43 = false))

/-- A chunk has room for one more outgoing message (R36). -/
def OutRoom (s : State) : Prop := outgoing s.hart.chunk.effects < 32

end Sys2Proof.Claims

/-- R85, R36: SEND and SENDT buffer the message they build, for an accepted destination and, when the message names a handler, a header
that the task may execute; the message carries s24 to s29, the sender's core and ranks, and for SENDT the tile with its shape word. The 33rd
message of a chunk is CHUNK_FULL and is not buffered. -/
def Obligations.SendBuffers : Prop :=
  ∀ (a b : SReg) (y : TReg) (w v : Bool) (c : Capsule) (s : State), Room s → Full s [a, b, 24, 25, 26, 27, 28, 29] →
    s.capsule = some c → SendTarget c (s.sreg b) →
    (bitsOf (s.sreg b).toNat 34 32 = 0 → ∃ pa, checkAccess s (s.sreg a) 4 .exec = .ok pa) →
    ∀ (i : Instr) (tile : Option (Memory × BitVec 16)),
      (i = .send a b w v ∧ tile = none ∨
       i = .sendt y a b w v ∧ tile = some ((s.tile y).data, (s.tile y).shape) ∧ Tiles s [y] ∧ FullTiles s [y] ∧ Quiet s) →
      (OutRoom s → ∃ m : Msg, exec i s = .next (retire (pushEffect (.message m) s)) ∧ m.entry = s.sreg a ∧ m.dest = s.sreg b ∧ m.tile = tile ∧
        m.cap = s.hart.cap ∧ m.src.toNat = s.hart.core % 8192 ∧ m.ranks = s.hart.ranks ∧
        (m.kind = .data ↔ bitsOf (s.sreg b).toNat 34 32 ≠ 0) ∧ ∀ k : Fin 6, m.payload.get k = s.sreg (Fin.ofNat 32 (24 + k.val))) ∧
      (¬OutRoom s → exec i s = .next (raise { word := wordOf i } .chunkFull none s))

/-- R85, R36: SENDX buffers a message to the endpoint of a KIND 5 extent, is CHUNK_FULL where it would be the chunk's 33rd, and is MSG_TARGET with its
handle on any other extent. A SEND whose destination
fails a check is MSG_TARGET with the destination word as its detail, and nothing is buffered. -/
def Obligations.EndpointSends : Prop :=
  ∀ (a b : SReg) (w v : Bool) (s : State), Room s → Full s [a, b, 24, 25, 26, 27, 28, 29] →
    (∀ c : Capsule, s.capsule = some c → ¬SendTarget c (s.sreg b) →
      exec (.send a b w v) s = .next (raise { word := wordOf (.send a b w v) } .msgTarget (some (s.sreg b)) s)) ∧
    (∀ e : Extent, s.extents[(s.sreg a).toNat / 2 ^ 56]? = some e → e.kind = 5 → OutRoom s →
      ∃ body : Vector Word 6, exec (.sendx a b w v) s =
          .next (retire (pushEffect (.sendx s.hart.cap s.hart.core (s.sreg a) e[0] (s.sreg b) body) s)) ∧
        ∀ k : Fin 6, body.get k = s.sreg (Fin.ofNat 32 (24 + k.val))) ∧
    (∀ e : Extent, s.extents[(s.sreg a).toNat / 2 ^ 56]? = some e → e.kind = 5 → ¬OutRoom s →
      exec (.sendx a b w v) s = .next (raise { word := wordOf (.sendx a b w v) } .chunkFull none s)) ∧
    ((∀ e : Extent, s.extents[(s.sreg a).toNat / 2 ^ 56]? = some e → e.kind ≠ 5) →
      exec (.sendx a b w v) s = .next (raise { word := wordOf (.sendx a b w v) } .msgTarget (some (s.sreg a)) s))

/-- R87, R124: RECV takes payload word 0, and TRECV the tile, its padding zero, of the oldest entry of the port that no open chunk has consumed; the entry is
marked as consumed and popped at the commit, and the destination is empty until it is in place. Without such an entry the
instruction waits, or is CHUNK_FULL where the task's own chunk has consumed all four entries of a full port; TRECV of an entry without a tile is
PORT_KIND, and the entry stays. -/
def Obligations.PortReceives : Prop :=
  ∀ (d : SReg) (y : TReg) (n : BitVec 2) (s : State), Room s →
    let port := (s.core s.hart.core).ports.get (Fin.ofNat 4 n.toNat)
    (∀ es e fs, port = es ++ e :: fs → (∀ x ∈ es, x.taken.isSome = true) → e.taken = none →
      let t := pushEffect (.popPort s.hart.core n.toNat) (s.modCore s.hart.core fun k =>
        let e' : PortEntry := { e with taken := some s.hart.id }
        { k with ports := k.ports.set (Fin.ofNat 4 n.toNat).val (es ++ [e'] ++ fs) (Fin.ofNat 4 n.toNat).isLt })
      exec (.recv d n) s = .next (retire (produceS d (e.msg.payload.get 0) {} t)) ∧
      (Tiles s [y] →
        (∀ data shape, e.msg.tile = some (data, shape) →
          exec (.trecv y n) s = .next (retire (produceT y (trim (bitsOf shape.toNat 5 0 + 1) (bitsOf shape.toNat 11 6 + 1) data) shape t))) ∧
        (e.msg.tile = none → exec (.trecv y n) s = .next (raise { word := wordOf (.trecv y n) } .portKind none s)))) ∧
    ((∀ x ∈ port, x.taken.isSome = true) →
      ∀ i : Instr, (i = .recv d n ∨ i = .trecv y n ∧ Tiles s [y]) →
        (port.length < 4 ∨ (∃ x ∈ port, x.taken ≠ some s.hart.id) → exec i s = .next (block (.port n.toNat) s)) ∧
        (4 ≤ port.length → (∀ x ∈ port, x.taken = some s.hart.id) → exec i s = .next (raise { word := wordOf i } .chunkFull none s)))

/-- R89, R90: JNEW and ARRIVE where they find their cell. JNEW stores COUNT 0, TARGET and MSG as a store of the chunk and registers the
cell at the commit; ARRIVE enters the write signature alone. A locator that is not aligned on 16 bytes, or of a scratchpad address beyond
64 KiB, and a TARGET of 0 are JOIN_TARGET. At the commit the cell's home adds 1 to COUNT of a registered cell; the arrival that makes it equal to
TARGET also sends the message of the cell's image with the registration's ranks, and the cell is registered no more; a cell that is not
registered, or has TARGET 0, is JOIN_TARGET, and one whose COUNT is TARGET is JOIN_OVER. That a fire whose image fails a check of R85 takes
MSG_TARGET, and so does one whose MSG fails CheckAccess, is the model's (logs 34 and 133). -/
def Obligations.JoinCells : Prop :=
  ∀ (d a b : SReg) (w v : Bool) (s : State), Room s → Full s [d, a, b] →
    let target := BitVec.ofNat 32 (s.sreg d).toNat
    let bytes := leBytes 4 0 ++ leBytes 4 ((s.sreg d).toNat % 2 ^ 32) ++ leBytes 8 (s.sreg b).toNat
    (∀ pa s1 p s2 s3, handleIdx (s.sreg a) ≠ 0xFF → reachTask (s.sreg a) 16 .write s = .ok (pa, s1) → handleOff (s.sreg a) % 16 = 0 →
      target ≠ 0 → reachTask (s.sreg b) 64 .read s1 = .ok (p, s2) → bufferStore pa bytes s2 = .ok s3 →
      exec (.jnew d a b w v) s =
        .next (retire (pushEffect (.jnew s.hart.core (s.sreg a) (some pa) target (s.sreg b)) (markWritten (s.sreg a) 16 s3)))) ∧
    (∀ p s2 s3, handleIdx (s.sreg a) = 0xFF → bitsOf (s.sreg a).toNat 55 16 = 0 → handleOff (s.sreg a) % 16 = 0 →
      regionHeld (handleOff (s.sreg a)) 16 s = false → target ≠ 0 → reachTask (s.sreg b) 64 .read s = .ok (p, s2) →
      bufferPad (handleOff (s.sreg a)) bytes s2 = .ok s3 →
      exec (.jnew d a b w v) s = .next (retire (pushEffect (.jnew s.hart.core (s.sreg a) none target (s.sreg b)) s3))) ∧
    (∀ pa s1, s.hart.kind = .task → s1.hart.kind = .task → handleIdx (s.sreg a) ≠ 0xFF →
      reachTask (s.sreg a) 16 .atomic s = .ok (pa, s1) → handleOff (s.sreg a) % 16 = 0 →
      exec (.arrive a w) s =
        .next (retire (pushEffect (.arrive s.hart.core (s.sreg a) (some pa)) (markWritten (s.sreg a) 16 (noteWrite pa 16 s1))))) ∧
    (s.hart.kind = .task → handleIdx (s.sreg a) = 0xFF → bitsOf (s.sreg a).toNat 55 16 = 0 → handleOff (s.sreg a) % 16 = 0 →
      regionHeld (handleOff (s.sreg a)) 16 s = false →
      exec (.arrive a w) s = .next (retire (pushEffect (.arrive s.hart.core (s.sreg a) none)
        (s.mod fun h => { h with chunk := { h.chunk with padWrite := addMask h.core (padMask (handleOff (s.sreg a)) 16) h.chunk.padWrite } })))) ∧
    (s.hart.kind = .task →
      (handleIdx (s.sreg a) = 0xFF → bitsOf (s.sreg a).toNat 55 16 ≠ 0 ∨ handleOff (s.sreg a) % 16 ≠ 0 →
        exec (.jnew d a b w v) s = .next (raise { word := wordOf (.jnew d a b w v) } .joinTarget none s) ∧
        exec (.arrive a w) s = .next (raise { word := wordOf (.arrive a w) } .joinTarget none s)) ∧
      (∀ pa s1, handleIdx (s.sreg a) ≠ 0xFF → handleOff (s.sreg a) % 16 ≠ 0 →
        (reachTask (s.sreg a) 16 .write s = .ok (pa, s1) →
          exec (.jnew d a b w v) s = .next (raise { word := wordOf (.jnew d a b w v) } .joinTarget none s1)) ∧
        (reachTask (s.sreg a) 16 .atomic s = .ok (pa, s1) →
          exec (.arrive a w) s = .next (raise { word := wordOf (.arrive a w) } .joinTarget none s1))) ∧
      (∀ pa s1, handleIdx (s.sreg a) ≠ 0xFF → handleOff (s.sreg a) % 16 = 0 → reachTask (s.sreg a) 16 .write s = .ok (pa, s1) → target = 0 →
        exec (.jnew d a b w v) s = .next (raise { word := wordOf (.jnew d a b w v) } .joinTarget none s1)) ∧
      (handleIdx (s.sreg a) = 0xFF → bitsOf (s.sreg a).toNat 55 16 = 0 → handleOff (s.sreg a) % 16 = 0 →
        regionHeld (handleOff (s.sreg a)) 16 s = false → target = 0 →
        exec (.jnew d a b w v) s = .next (raise { word := wordOf (.jnew d a b w v) } .joinTarget none s))) ∧
    (∀ (c : Capsule) (core cell : Nat) (loc : Word), s.capsule = some c → poisonCause s cell 16 = none →
      let count := s.mem.readLE cell 4
      let goal := s.mem.readLE (cell + 4) 4
      let gives := applyArrive core loc (some cell) s
      let mem := s.mem.writeBytes cell (leBytes 4 ((count + 1) % 2 ^ 32))
      ((∀ r ∈ c.joins, r.pa ≠ some cell) → gives = .error (.joinTarget, some loc)) ∧
      (∀ r, c.joins.find? (sameCell core loc (some cell)) = some r →
        (goal = 0 → gives = .error (.joinTarget, some loc)) ∧
        (goal ≠ 0 → count = goal → gives = .error (.joinOver, some loc)) ∧
        (goal ≠ 0 → count ≠ goal → (count + 1) % 2 ^ 32 ≠ goal → ∃ t, gives = .ok t ∧ t.mem = mem ∧ t.net = s.net ∧ t.caps = s.caps) ∧
        (∀ image h, goal ≠ 0 → count ≠ goal → (count + 1) % 2 ^ 32 = goal →
          checkExtents c.exts (word (s.mem.readLE (cell + 8) 8)) 64 .read = .ok image → poisonCause s image 64 = none →
          let entry := word (mem.readLE image 8)
          let dest := word (mem.readLE (image + 8) 8)
          (SendTarget c dest → bitsOf dest.toNat 34 32 = 0 → checkExtents c.exts entry 4 .exec = .ok h →
            ∃ (t : State) (m : Msg), gives = .ok t ∧ t.mem = mem ∧ t.net = s.net ++ [m] ∧ m.kind = .join ∧ m.cap = c.id ∧ m.entry = entry ∧
              m.dest = dest ∧ m.ranks = r.ranks ∧ m.tile = none ∧ (∀ k : Fin 6, m.payload.get k = word (mem.readLE (image + 16 + 8 * k.val) 8)) ∧
              ∀ x, t.cap? c.id = some x → ∀ q ∈ x.joins, q.pa ≠ some cell) ∧
          (¬SendTarget c dest → gives = .error (.msgTarget, some loc))) ∧
        (∀ f, goal ≠ 0 → count ≠ goal → (count + 1) % 2 ^ 32 = goal →
          checkExtents c.exts (word (s.mem.readLE (cell + 8) 8)) 64 .read = .error f → gives = .error (.msgTarget, some loc))))

namespace Sys2Proof.Claims

/-- Fields of the attenuation entry that starts at byte 16k (R217). -/
def attSrc (m : Memory) (k : Nat) : Nat := m.readLE (16 * k) 8
def attLen (m : Memory) (k : Nat) : Nat := m.readLE (16 * k + 8) 4
def attRgt (m : Memory) (k : Nat) : Nat := m.readLE (16 * k + 12) 1
def attKind (m : Memory) (k : Nat) : Nat := m.readLE (16 * k + 13) 1

/-- What R218 asks of entry k, against the parent's extent that it names. -/
def MayAttenuate (p : Extent) (m : Memory) (k : Nat) : Prop :=
  let o := attSrc m k % 2 ^ 56
  let l := 256 * attLen m k
  let rgt := attRgt m k
  p.kind ∉ [0, 4, 6] ∧ rgt < 16 ∧ m.readLE (16 * k + 14) 2 = 0 ∧ attKind m k ∈ [0, 4, 6] ∧
  (p.kind = 5 → o = 0 ∧ attLen m k = 0 ∧ rgt = 0 ∧ attKind m k = 0) ∧
  (p.kind ≠ 5 → o % 256 = 0 ∧ 1 ≤ attLen m k ∧ o + l ≤ p.length) ∧
  (p.kind = 2 → o = 0 ∧ l = p.length) ∧
  (p.kind = 3 → o % 65536 = 0 ∧ l % 65536 = 0 ∧ rgt = 9) ∧
  (bitOf rgt 2 = true → p.x = true) ∧ (bitOf rgt 1 = true → p.w = true) ∧ (bitOf rgt 0 = true → p.r = true) ∧ bitOf rgt 3 = p.co ∧
  (attKind m k ≠ 0 → p.kind = 1 ∧ rgt = 3)

/-- Does entry k pass, with those before it (R218)? -/
def EntryPasses (exts : List Extent) (m : Memory) (k : Nat) : Prop :=
  (∃ p, exts[attSrc m k / 2 ^ 56]? = some p ∧ MayAttenuate p m k) ∧ (attKind m k ≠ 0 → ∀ j < k, attKind m j ≠ attKind m k)

/-- The checks of R218 on the control word and the image. -/
def SpawnControl (s : State) (ctl : Nat) (image : Memory) : Prop :=
  bitsOf ctl 63 23 = 0 ∧ bitOf ctl 7 = false ∧ (bitOf ctl 6 = false → (s.queue (bitsOf ctl 22 8)).partition = some s.partition) ∧
  reservedOk image = true

end Sys2Proof.Claims

/-- R36, R93: WQRY marks the answer word empty, hands a query of the descriptor to Cumin, and counts one claim of the chunk; the fifth claim is
CHUNK_FULL, and so is a SPAWN where the chunk has its 32 messages. SPAWN (R217 to R219) reads the image and the entries and checks the control word, the image and each entry in order: the first failure
is SPAWN_RIGHTS, with the entry's index or 0xFF as its detail; otherwise it buffers a child whose extents are the attenuated ones, as one
outgoing message. That a reserved bit of RGT, a reserved NKIND or a reserved byte of an entry is SPAWN_RIGHTS with its index is the model's (log 65). -/
def Obligations.QueryAndSpawn : Prop :=
  ∀ (d a b : SReg) (w v : Bool) (s : State), Room s → Full s [d, a, b] →
    (∀ pa s1, (s.sreg a).toNat < 65536 → (s.sreg a).toNat % 8 = 0 → reachTask (s.sreg b) 32 .atomic s = .ok (pa, s1) →
      handleOff (s.sreg b) % 32 = 0 → regionHeld (s.sreg a).toNat 8 s1 = false → s1.hart.chunk.claims < 4 →
      ∃ (q : Query) (t : State), exec (.wqry a b w v) s = .next (retire t) ∧ q.desc = pa ∧ q.word = (s.sreg a).toNat / 8 ∧
        q.hart = s1.hart.id ∧ q.answer = none ∧ t.queries = s1.queries ++ [q] ∧ t.hart.chunk.claims = s1.hart.chunk.claims + 1 ∧
        (t.core s1.hart.core).empty.contains ((s.sreg a).toNat / 8) = true) ∧
    (∀ pa s1, s.hart.kind = .task → (s.sreg a).toNat < 65536 → (s.sreg a).toNat % 8 = 0 → reachTask (s.sreg b) 32 .atomic s = .ok (pa, s1) →
      handleOff (s.sreg b) % 32 = 0 → regionHeld (s.sreg a).toNat 8 s1 = false → 4 ≤ s1.hart.chunk.claims →
      exec (.wqry a b w v) s = .next (raise { word := wordOf (.wqry a b w v) } .chunkFull none s1)) ∧
    (∀ pa s1 image s2 pb s3 entries s4 exts,
      let ctl := (s.sreg d).toNat
      let n := ctl % 64 + 1
      reachTask (s.sreg a) 256 .read s = .ok (pa, s1) → loadAt pa 256 s1 = .ok (image, s2) →
      reachTask (s.sreg b) (16 * n) .read s2 = .ok (pb, s3) → loadAt pb (16 * n) s3 = .ok (entries, s4) →
      spawnControlOk s4 ctl = true → reservedOk (Memory.ofBytes image) = true →
      attenuateAll s4.extents false false 0 ((List.range n).map fun i => attenuationAt (Memory.ofBytes entries) i) = .ok exts →
      OutRoom s4 →
      let child : Effect := .spawn
        { cap := s4.hart.cap
          image := Memory.ofBytes image
          exts := exts
          queue := if bitOf ctl 6 then none else some (bitsOf ctl 22 8) }
      exec (.spawn d a b w v) s = .next (retire (pushEffect child s4))) ∧
    (∀ pa s1 image s2 pb s3 entries s4,
      let ctl := (s.sreg d).toNat
      let n := ctl % 64 + 1
      let m := Memory.ofBytes entries
      let rights := fun (x : Word) => exec (.spawn d a b w v) s = .next (raise { word := wordOf (.spawn d a b w v) } .spawnRights (some x) s4)
      s.hart.kind = .task →
      reachTask (s.sreg a) 256 .read s = .ok (pa, s1) → loadAt pa 256 s1 = .ok (image, s2) →
      reachTask (s.sreg b) (16 * n) .read s2 = .ok (pb, s3) → loadAt pb (16 * n) s3 = .ok (entries, s4) →
      (¬SpawnControl s4 ctl (Memory.ofBytes image) → rights 0xFF) ∧
      (SpawnControl s4 ctl (Memory.ofBytes image) →
        (∀ k < n, (∀ j < k, EntryPasses s4.extents m j) → ¬EntryPasses s4.extents m k → rights (word k)) ∧
        ((∀ k < n, EntryPasses s4.extents m k) → ¬OutRoom s4 →
          exec (.spawn d a b w v) s = .next (raise { word := wordOf (.spawn d a b w v) } .chunkFull none s4)) ∧
        ((∀ k < n, EntryPasses s4.extents m k) → OutRoom s4 → ∃ c : Spawn,
          exec (.spawn d a b w v) s = .next (retire (pushEffect (.spawn c) s4)) ∧ c.cap = s4.hart.cap ∧ c.image = Memory.ofBytes image ∧
          c.queue = (if bitOf ctl 6 then none else some (bitsOf ctl 22 8)) ∧ c.exts.length = n ∧
          ∀ k < n, ∀ p : Extent, s4.extents[attSrc m k / 2 ^ 56]? = some p →
            let kind := if attKind m k = 0 then p.kind else attKind m k
            c.exts[k]? = some #v[word (p.base + attSrc m k % 2 ^ 56), word (256 * attLen m k),
              word (p.ksel * 2 ^ 32 + kind * 256 + attRgt m k), p.aux])))

namespace Sys2Proof.Claims

/-- Permits of R24: the rights R, W and X of a descriptor and its kind. -/
def Grants (e : Extent) (use : Use) : Prop :=
  let right := fun (k : Nat) => bitOf e[2].toNat k = true
  match use with
  | .read | .copySrc => right 0
  | .write | .copyDst => right 1
  | .exec => right 2
  | .atomic => right 0 ∧ right 1
  | .unseal => bitsOf e[2].toNat 11 8 = 3

/-- The uses that change bytes. -/
def Changes (use : Use) : Prop := use = .write ∨ use = .atomic ∨ use = .copyDst

/-- A task may reach these bytes of an extent of its own that is not file-backed: R24's checks, R250's owner check, no seal record of a
granule in the way of a write (R262), and no token in the way (R203). -/
def MayReach (e : Extent) (off n : Nat) (use : Use) (s : State) : Prop :=
  e.kind ≠ 0 ∧ e.kind ≠ 2 ∧ off + n ≤ e.length ∧ (e.co = true → use = .unseal) ∧ Grants e use ∧
  (Changes use → sealedRange s (e.base + off) n = false) ∧
  ownedBy s e.ksel (e.base + off) n = true ∧ tokenFree (e.base + off) n s = true

/-- The bytes that the context reads from a physical address, least significant first (R4, R188). -/
def seen (s : State) (pa n : Nat) : Nat := leNat ((List.range n).map fun i => viewByte s (pa + i))

/-- No poisoned sector lies in a range of memory, but for bytes of the chunk's own stores (R260). -/
def Clean (s : State) (pa n : Nat) : Prop := consume pa n s = .ok ()

/-- The lines of a range are read at their home, and this is the state after it: units in retention were awake (R259), and errors that the
part held in the lines are dealt with (R256, R258). -/
def Met (s : State) (pa n : Nat) (t : State) : Prop := meetLines s.partition pa n s = .ok t

/-- Two states are alike but for what reading lines changes outside the context: poison, the logs, the errors of the part, and when units were
accessed last (R259). -/
def AlikeOutside (s t : State) : Prop :=
  { t with hart := s.hart, parts := s.parts, poison := s.poison, faults := s.faults, sram := s.sram, used := s.used } = s

/-- Everything outside the context that issues is as it was, but for when units were accessed last (R259). -/
def QuietOutside (s t : State) : Prop := { t with hart := s.hart, used := s.used } = s

/-- The instruction raises ALIGNMENT, whose detail the spec does not state (log 7). -/
def Misaligned (i : Instr) (s : State) : Prop := ∃ x : Option Word, exec i s = .next (raise { word := wordOf i } .alignment x s)

/-- All eight sectors of a line are poisoned, with this cause (R256, R260): INTEGRITY when it is true, else POISON. -/
def LinePoisoned (t : State) (line : Nat) (cause : Bool) : Prop :=
  ∀ k < 8, (t.poison.find? fun p => p.1 == 8 * line + k).map Prod.snd = some cause

/-- The log of a partition with an entry for a memory error of a line (R307); the spec gives it no CODE, so that is a free value (log 7). -/
def lineEntry (kind line : Nat) (now : Word) (l : Log) : Log :=
  l.add now { code := Config.errorCode, kind := kind, detail := word (256 * line) }

/-- The same for a mismatch: the KIND 4 entry lists a correction beside it in its CODE, which is then another free value (R256; log 7). -/
def mismatchEntry (read : CodeRead) (line : Nat) (now : Word) (l : Log) : Log :=
  if read = .corrected then l.add now { code := Config.correctionCode, kind := 4, detail := word (256 * line) } else lineEntry 4 line now l

end Sys2Proof.Claims

/-- R24, R23: CheckAccess. The checks apply in the order shown, and the first that fails decides the fault, with the handle as its
detail; `Grants` is the table of the rights that each use needs. -/
def Obligations.AccessChecks : Prop :=
  ∀ (h : Word) (n : Nat) (use : Use) (s : State),
    let x := h.toNat / 2 ^ 56
    let off := h.toNat % 2 ^ 56
    let fails := fun (c : Code) => ∃ d, checkAccess s h n use = .error (.fault c d s) ∧ d = some h
    (s.extents.length ≤ x → fails .extentIndex) ∧
    ∀ e : Extent, s.extents[x]? = some e →
      (e.kind = 0 → fails .extentIndex) ∧
      (e.kind ≠ 0 → e.length < off + n → fails .extentBounds) ∧
      (e.kind ≠ 0 → off + n ≤ e.length →
        (e.co = true → use = .read → fails .sealedRead) ∧
        (e.co = true → use = .copySrc ∨ use = .copyDst → fails .sealedCopy) ∧
        (e.co = true → use = .write ∨ use = .atomic → fails .sealedWrite) ∧
        (e.co = true → use = .exec → fails .extentRights) ∧
        (e.co = false ∨ use = .unseal →
          (¬Grants e use → fails .extentRights) ∧
          (Grants e use → checkAccess s h n use = .ok (e.base + off))))

/-- R24, R203, R224, R225, R246, R250: where an access goes. A task reaches BASE plus the offset, and a write of a granule with a seal
record fails (R262); which code it takes is the model's (log 125: SEALED_WRITE, as R24 has it for compute-only extents). Firmware goes
through the first valid entry of its MMU that names the page, while the MMU is on: that it is the first is the model's (log 48), and so is that
instructions are fetched untranslated while a firmware fault is pending (log 46). An access that touches the dump or the protected region is
MMU_RIGHTS. Saffron addresses its private SRAM. -/
def Obligations.AccessPaths : Prop :=
  ∀ (h : Word) (n : Nat) (use : Use) (s : State),
    let a := h.toNat
    (∀ e : Extent, s.hart.kind = .task → s.extents[a / 2 ^ 56]? = some e → MayReach e (a % 2 ^ 56) n use s →
      reach h n use s = .ok (e.base + a % 2 ^ 56, s)) ∧
    (∀ pa, s.hart.kind = .task → use = .write ∨ use = .atomic → checkAccess s h n use = .ok pa → sealedRange s pa n = true →
      reach h n use s = .error (.fault .sealedWrite (some h) s)) ∧
    (s.hart.kind = .firmware →
      (s.cluster s.here).mmuctl.getLsbD 0 = false ∨ (use = .exec ∧ (s.cluster s.here).fwcode ≠ 0) →
      (a + n ≤ 0x5FB0000000 → ownedBy s 0 a n = true → reach h n use s = .ok (a, s)) ∧
      (0x5FB0000000 < a + n → a < 0x6000000000 → ∃ d, reach h n use s = .error (.fault .mmuRights d s))) ∧
    (∀ i < 256, s.hart.kind = .firmware → (s.cluster s.here).mmuctl.getLsbD 0 = true →
      let w0 := fun k => (s.cluster s.here).mmu.readLE (16 * k) 8
      let w1 := fun k => (s.cluster s.here).mmu.readLE (16 * k + 8) 8
      let names := fun k => bitOf (w0 k) 63 = true ∧ bitsOf (w0 k) 47 21 = bitsOf a 47 21
      let pa := bitsOf (w1 i) 47 21 * 2097152 + a % 2097152
      names i → (∀ k < i, ¬names k) → (use = .read → bitOf (w1 i) 0 = true) → (use = .write → bitOf (w1 i) 1 = true) →
      (use = .atomic → bitOf (w1 i) 0 = true ∧ bitOf (w1 i) 1 = true) → use = .read ∨ use = .write ∨ use = .atomic →
      a % 2097152 + n ≤ 2097152 →
      (pa + n ≤ 0x5FB0000000 → ownedBy s 0 pa n = true → reach h n use s = .ok (pa, s)) ∧
      (0x5FB0000000 < pa + n → pa < 0x6000000000 → ∃ d, reach h n use s = .error (.fault .mmuRights d s))) ∧
    (s.hart.kind = .saffron → a + n ≤ 0x100000 → reach h n use s = .ok (a, s)) ∧
    (s.hart.kind = .saffron → 0x100000 < a + n → ∃ d, reach h n use s = .error (.fault .secAddr d s))

/-- R36, R187, R188, R198: what a store does. A task's is buffered, so that memory is as it was, when the units of its lines are awake
(R259), the chunk has room for its sectors (R36) and no set lacks a way (R249); else it waits, or is CHUNK_FULL. Firmware's waits for such units
and for a chunk in exclusive mode that has read its lines (R203), and is committed at once, but for a granule with a seal record (R262); Saffron's goes to its private SRAM. In each the context reads its own bytes back,
and every other byte as before; no register changes. -/
def Obligations.StoredBytes : Prop :=
  ∀ (pa : Nat) (bs : List Byte) (s : State), s.mem.wf = true → s.saffron.sram.wf = true →
    let units := unitsAt s s.hart.core pa bs.length
    let sectors := s.hart.chunk.sectors.length + s.hart.chunk.padSectors.length + (newSectors s.hart.chunk.sectors pa bs.length).length
    (s.hart.kind = .firmware → heldByToken s s.hart.id pa bs.length = true → storeAt pa bs s = .error (.wait .token s)) ∧
    (s.hart.kind ≠ .saffron → (s.hart.kind = .firmware → heldByToken s s.hart.id pa bs.length = false) → (∃ u ∈ units, u ∈ s.retained) →
      storeAt pa bs s = .error (.wait .unit (startExit units s))) ∧
    (s.hart.kind = .task → (∀ u ∈ units, u ∉ s.retained) →
      (4096 < sectors → ∃ d, storeAt pa bs s = .error (.fault .chunkFull d (noteUse units s))) ∧
      (sectors ≤ 4096 →
        (∀ l, wayWanted pa bs.length s = some l → storeAt pa bs s = .error (.wait (.way l) (noteUse units s))) ∧
        (wayWanted pa bs.length s = none → ∃ t, storeAt pa bs s = .ok t ∧ QuietOutside s t))) ∧
    (s.hart.kind = .firmware → heldByToken s s.hart.id pa bs.length = false → (∀ u ∈ units, u ∉ s.retained) → ∃ t, storeAt pa bs s = .ok t ∧
      ∀ x, t.mem.read x =
        if sealedRange s pa bs.length = false ∧ pa ≤ x ∧ x < pa + bs.length then bs.getD (x - pa) 0 else s.mem.read x) ∧
    (s.hart.kind = .saffron → ∃ t, storeAt pa bs s = .ok t ∧ t.mem = s.mem) ∧
    ∀ t, storeAt pa bs s = .ok t →
      (s.hart.kind = .firmware → s.hart.chunk.effects = [] ∧ sealedRange s pa bs.length = false) →
      t.hart.r = s.hart.r ∧ t.hart.lease = s.hart.lease ∧ t.hart.ckpt = s.hart.ckpt ∧
      ∀ x, viewByte t x = if pa ≤ x ∧ x < pa + bs.length then bs.getD (x - pa) 0 else viewByte s x

/-- R187, R188, R189, R53: loads. LD sign-extends what it reads, byte by byte as the context sees it, and writes d; LDC reads eight bytes
through the read-only cache, and enters no signature: where the cluster has no copy of the line for the capsule, one is filled with what
memory holds. An offset that is no multiple of the width is ALIGNMENT. -/
def Obligations.LoadResults : Prop :=
  ∀ (d a : SReg) (w : Bool) (o : BitVec 13) (i : BitVec 15) (s : State), Room s → Full s [a] →
    let h := addOff (s.sreg a) o.toInt
    let g := addOff (s.sreg a) i.toInt
    let off := h.toNat % 2 ^ 56
    let loads := fun (x : Instr) (n : Nat) =>
      (∀ pa s1 s2, off % n = 0 → reach h n .read s = .ok (pa, s1) → Met s1 pa n s2 → Clean s2 pa n →
        exec x s = .next (retire (writeS d ((BitVec.ofNat (8 * n) (seen s2 pa n)).signExtend 64) (noteRead pa n s2)))) ∧
      (off % n ≠ 0 → Misaligned x s)
    loads (.ldB d a w o) 1 ∧ loads (.ldH d a w o) 2 ∧ loads (.ldW d a w o) 4 ∧ loads (.ldD d a w o) 8 ∧
    (∀ bs t, g.toNat % 8 = 0 → loadRo g 8 .read s = .ok (bs, t) → exec (.ldc d a w i) s = .next (retire (writeS d (word (leNat bs)) t))) ∧
    (∀ pa s1 s2, s.hart.kind = .task → g.toNat % 8 = 0 → pa % 8 = 0 → reach g 8 .read s = .ok (pa, s1) → Met s1 pa 8 s2 →
      (∀ p ∈ s2.poison, p.1 ≠ pa / 32) → (∀ c ∈ (s2.cluster s2.here).ro, c.cap = s2.hart.cap → c.line ≠ pa / 256) →
      exec (.ldc d a w i) s = .next (retire (writeS d (word (s2.mem.readLE pa 8)) (fillLine (pa / 256) s2)))) ∧
    (g.toNat % 8 ≠ 0 → Misaligned (.ldc d a w i) s)

/-- R187, R263: stores of the low bytes of s(d), at the address of the loads, with their ALIGNMENT; in a file-backed extent the chunk's commit sets
the dirty bits of the blocks. -/
def Obligations.StoreResults : Prop :=
  ∀ (d a : SReg) (w : Bool) (o : BitVec 13) (s : State), Room s → Full s [d, a] →
    let h := addOff (s.sreg a) o.toInt
    let off := h.toNat % 2 ^ 56
    let stores := fun (x : Instr) (n : Nat) =>
      (∀ pa s1 t, off % n = 0 → reach h n .write s = .ok (pa, s1) →
        storeAt pa (leBytes n (s.sreg d).toNat) s1 = .ok t → exec x s = .next (retire (markWritten h n t))) ∧
      (off % n ≠ 0 → Misaligned x s)
    stores (.stB d a w o) 1 ∧ stores (.stH d a w o) 2 ∧ stores (.stW d a w o) 4 ∧ stores (.stD d a w o) 8

/-- What finding an address, and a load, leave alone: the registers, the chunk's effects, every byte of memory, and everything outside the
context but for poison, the logs, the errors of the part that a line holds, and when units were accessed last; where it holds no error, the first
three too. R256, R258, R249: what a
line in error comes to. A corrected line is delivered and logged with KIND 2; a line with an uncorrectable code word is poisoned in all
eight sectors with cause POISON, KIND 3; a mismatch of the MAC, or of the tag of a tier-1 line, is logged with KIND 4, a correction listed
beside it, and read once more, and the second mismatch poisons with cause INTEGRITY. That an error stands in the state before it is met is the model's (log 127). -/
def Obligations.AccessFrame : Prop :=
  ∀ (h : Word) (n : Nat) (use : Use) (s : State),
    let Same := fun (t : State) => AlikeOutside s t ∧ (s.faults = [] → s.sram = [] → QuietOutside s t) ∧ t.hart.r = s.hart.r ∧
      t.hart.chunk.effects = s.hart.chunk.effects ∧
      t.hart.inflight = s.hart.inflight ∧ t.hart.lease = s.hart.lease ∧ t.hart.ckpt = s.hart.ckpt ∧ t.hart.sdist = s.hart.sdist ∧
      ∀ x, viewByte t x = viewByte s x ∧ t.mem.read x = s.mem.read x
    (∀ pa t, reach h n use s = .ok (pa, t) → Same t) ∧ (∀ pa bs t, loadAt pa n s = .ok (bs, t) → Same t) ∧
    (∀ part pa t, meetLines part pa n s = .ok t → Same t) ∧
    (∀ part pa, s.faults = [] → s.sram = [] → (∀ u ∈ unitsAt s s.hart.core pa n, u ∉ s.retained) →
      meetLines part pa n s = .ok (if s.hart.kind = .saffron then s else noteUse (unitsAt s s.hart.core pa n) s)) ∧
    ∀ (part : Nat) (f : LineFault),
      let t := readFault part f s
      let was := (s.part part).log
      let log := fun (k : Nat) (l : Log) => lineEntry k f.line s.now l
      let once := mismatchEntry f.code f.line s.now was
      let lost := fun (l : Log) => LinePoisoned t f.line false ∧ (t.part part).log = log 3 l
      let given := fun (l : Log) => t.poison = s.poison ∧ (t.part part).log = l
      t.faults = s.faults.erase f ∧
      (f.code = .uncorrectable → lost was) ∧
      (f.code = .clean → f.mac = true → given was) ∧
      (f.code = .corrected → f.mac = true → given (log 2 was)) ∧
      (f.code ≠ .uncorrectable → f.mac = false →
        (f.code2 = .uncorrectable → lost once) ∧
        (f.code2 = .clean → f.mac2 = true → given once) ∧
        (f.code2 = .corrected → f.mac2 = true → given (log 2 once)) ∧
        (f.code2 ≠ .uncorrectable → f.mac2 = false →
          LinePoisoned t f.line true ∧ (t.part part).log = mismatchEntry f.code2 f.line s.now once))

/-- R19, R191: what LDS reads at each window index, and where it is WINDOW_INDEX. Two clauses are the model's: that index 0x41 gives the PC
of the LDS itself (log 40), and that the shape word of a tile register that is not allocated is read like any other (log 115). -/
def Obligations.WindowReads : Prop :=
  ∀ (d a : SReg) (w : Bool) (s : State), Room s → Full s [a] →
    let i := (s.sreg a).toNat % 16384
    let gives := fun (v : Word) => exec (.lds d a w) s = .next (retire (writeS d v s))
    let t : TReg := Fin.ofNat 16 ((i - 0x2000) / 512)
    (∀ h : i < 0x20, s.sfull ⟨i, h⟩ = true → gives (s.sreg ⟨i, h⟩)) ∧
    (0x20 ≤ i → i < 0x30 → gives (word ((s.hart.r.p.get (Fin.ofNat 8 ((i - 0x20) / 2))).toNat / 2 ^ (64 * (i % 2))))) ∧
    (0x30 ≤ i → i < 0x40 → (s.tile (Fin.ofNat 16 (i - 0x30))).full = true → gives (word (s.tile (Fin.ofNat 16 (i - 0x30))).shape.toNat)) ∧
    (i = 0x40 → settledFlg s = .ok () → gives s.hart.r.flg) ∧
    (i = 0x41 → gives s.hart.r.pc) ∧
    (0x2000 ≤ i → Tiles s [t] → FullTiles s [t] → Quiet s → gives (word ((s.tile t).data.readLE ((i - 0x2000) % 512 * 8) 8))) ∧
    (0x41 < i → (i < 0x2000 ∨ ¬Tiles s [t]) →
      ∃ x : Option Word, exec (.lds d a w) s = .next (raise { word := wordOf (.lds d a w) } .windowIndex x s))

/-- R19, R191: what STS writes at each window index. It changes no presence bit, and a write of PC is ignored. That the shape word of a tile
register that is not allocated is written like any other is the model's (log 115). -/
def Obligations.WindowWrites : Prop :=
  ∀ (a b : SReg) (w v : Bool) (s : State), Room s → Full s [a, b] →
    let i := (s.sreg a).toNat % 16384
    let x := s.sreg b
    let gives := fun (f : Regs → Regs) => exec (.sts a b w v) s = .next (retire (s.modRegs f))
    let k : PReg := Fin.ofNat 8 ((i - 0x20) / 2)
    let u : TReg := Fin.ofNat 16 (i - 0x30)
    let t : TReg := Fin.ofNat 16 ((i - 0x2000) / 512)
    (∀ h : i < 0x20, s.sfull ⟨i, h⟩ = true → gives fun r => { r with s := r.s.set i x h }) ∧
    (0x20 ≤ i → i < 0x30 → gives fun r => { r with p := r.p.set k.val (BitVec.ofNat 128
      (if i % 2 = 0 then (r.p.get k).toNat / 2 ^ 64 * 2 ^ 64 + x.toNat else x.toNat * 2 ^ 64 + (r.p.get k).toNat % 2 ^ 64)) k.isLt }) ∧
    (0x30 ≤ i → i < 0x40 → (s.tile u).full = true →
      (shapeOk (x.toNat % 65536) = true → gives fun r =>
        { r with t := r.t.set u.val { r.t.get u with shape := BitVec.ofNat 16 x.toNat } u.isLt }) ∧
      (shapeOk (x.toNat % 65536) = false →
        ∃ d : Option Word, exec (.sts a b w v) s = .next (raise { word := wordOf (.sts a b w v) } .illegal d s))) ∧
    (i = 0x40 → settledFlg s = .ok () → gives fun r => { r with flg := writeFlg x }) ∧
    (i = 0x41 → exec (.sts a b w v) s = .next (retire s)) ∧
    (0x2000 ≤ i → Tiles s [t] → FullTiles s [t] → gives fun r =>
      { r with t := r.t.set t.val { r.t.get t with data := (r.t.get t).data.writeLE ((i - 0x2000) % 512 * 8) 8 x.toNat } t.isLt }) ∧
    (0x41 < i → (i < 0x2000 ∨ ¬Tiles s [t]) →
      ∃ d : Option Word, exec (.sts a b w v) s = .next (raise { word := wordOf (.sts a b w v) } .windowIndex d s))

/-- R192, R193, R194: a returning atomic reads old at execution, stores new as a store of the chunk, and starts the producer that brings
old to d, zero-extended, with the flags of a floating operation; the record of the atomic goes with a task's chunk. A CAS that does
not compare equal stores nothing. An offset that is no multiple of the width is ALIGNMENT. -/
def Obligations.ReturningAtomics : Prop :=
  ∀ (d a b : SReg) (w v x : Bool) (pa : Nat) (s s1 s2 : State), Room s → Full s [a, b] →
    let n := if x then 8 else 4
    let h := s.sreg a
    let y := (s.sreg b).toNat % 2 ^ (8 * n)
    let c := (s.sreg d).toNat % 2 ^ (8 * n)
    let old := seen s2 pa n
    let int := fun k => (BitVec.ofNat (8 * n) k).toInt
    let note := fun (o : AmoOp) (stored : Bool) (t : State) => if s.hart.kind = .task then
      pushEffect (.atomic pa (o.func x) (s.sreg b) (if o = .cas then s.sreg d else 0) stored) t else t
    let gives := fun (i : Instr) (o : AmoOp) (new : Nat) (f : Flags) =>
      ∀ t, storeAt pa (leBytes n new) (noteRead pa n s2) = .ok t → exec i s = .next (retire (produceS d (word old) f (markWritten h n (note o true t))))
    (h.toNat % n ≠ 0 →
      (∀ i ∈ [Instr.amoadd d a b w v x, .amoand d a b w v x, .amoor d a b w v x, .amoxor d a b w v x, .amomin d a b w v x,
        .amomax d a b w v x, .amominu d a b w v x, .amomaxu d a b w v x, .amoswp d a b w v x], Misaligned i s) ∧
      (s.sfull d = true → Misaligned (.amocas d a b w v x) s) ∧
      (x = false → ∀ i ∈ [Instr.amofadd d a b w v, .amofmin d a b w v, .amofmax d a b w v], Misaligned i s)) ∧
    (h.toNat % n = 0 → s1.hart.kind = s.hart.kind → reach h n .atomic s = .ok (pa, s1) → Met s1 pa n s2 → Clean s2 pa n →
      gives (.amoadd d a b w v x) .add ((old + y) % 2 ^ (8 * n)) {} ∧
      gives (.amoand d a b w v x) .and (old &&& y) {} ∧
      gives (.amoor d a b w v x) .or (old ||| y) {} ∧
      gives (.amoxor d a b w v x) .xor (old ^^^ y) {} ∧
      gives (.amomin d a b w v x) .min (if int old ≤ int y then old else y) {} ∧
      gives (.amomax d a b w v x) .max (if int old ≤ int y then y else old) {} ∧
      gives (.amominu d a b w v x) .minu (Nat.min old y) {} ∧
      gives (.amomaxu d a b w v x) .maxu (Nat.max old y) {} ∧
      gives (.amoswp d a b w v x) .swp y {} ∧
      (s.sfull d = true → old = c → gives (.amocas d a b w v x) .cas y {}) ∧
      (s.sfull d = true → old ≠ c → exec (.amocas d a b w v x) s = .next (retire (produceS d (word old) {} (note .cas false (noteRead pa n s2))))) ∧
      (x = false →
        (let r := Machine.Num.roundFp 5 .rne (Machine.Num.add (Machine.Num.ofF32 old) (Machine.Num.ofF32 y)); gives (.amofadd d a b w v) .fadd r.1 r.2) ∧
        (let r := Machine.Num.minMax 5 false old y; gives (.amofmin d a b w v) .fmin r.1 r.2) ∧
        (let r := Machine.Num.minMax 5 true old y; gives (.amofmax d a b w v) .fmax r.1 r.2)))

/-- R194: a no-return atomic of a task is buffered as an operation, and enters the write signature alone; firmware's is applied to
memory at once, as a unit of its own; Saffron's acts on its private SRAM. An offset that is no multiple of the width is ALIGNMENT. -/
def Obligations.NoReturnAtomics : Prop :=
  ∀ (a b : SReg) (w v x : Bool) (pa : Nat) (s s1 : State), Room s → Full s [a, b] →
    let h := s.sreg a
    let y := s.sreg b
    let keeps := fun (i : Instr) (o : AmoOp) (wide : Bool) => let n := if wide then 8 else 4
      (h.toNat % n ≠ 0 → Misaligned i s) ∧
      (h.toNat % n = 0 → s1.hart.kind = s.hart.kind → reach h n .atomic s = .ok (pa, s1) →
        (s.hart.kind = .task → exec i s = .next (retire (markWritten h n (noteWrite pa n (pushEffect (.amo pa o wide y) s1))))) ∧
        (s.hart.kind = .firmware → heldByToken s1 s1.hart.id pa n = false →
          let units := unitsAt s1 s1.hart.core pa n
          (∀ u ∈ units, u ∉ s1.retained) →
          exec i s = .next (retire (publish s1.hart.id (sigRange pa n) [] (applyAmo s1.hart 0 pa o wide y (noteUse units s1))))) ∧
        (s.hart.kind = .saffron → ∃ t, exec i s = .next (retire t) ∧ t.mem = s1.mem ∧ t.hart = s1.hart))
    keeps (.amoaddNr a b w v x) .add x ∧ keeps (.amoandNr a b w v x) .and x ∧ keeps (.amoorNr a b w v x) .or x ∧
    keeps (.amoxorNr a b w v x) .xor x ∧ keeps (.amominNr a b w v x) .min x ∧ keeps (.amomaxNr a b w v x) .max x ∧
    keeps (.amominuNr a b w v x) .minu x ∧ keeps (.amomaxuNr a b w v x) .maxu x ∧ keeps (.amofaddNr a b w v) .fadd false ∧
    keeps (.amofminNr a b w v) .fmin false ∧ keeps (.amofmaxNr a b w v) .fmax false

/-- R190, R195, R196: GATE, the fences, and CINV. GATE goes on when the word is at or above s(b) and then enters the read signature; below
it, the context waits; an offset that is no multiple of 8 is ALIGNMENT. CINV drops the cluster's copies of the lines of its range, which firmware's MMU
translates page by page (R224); with s(b) = 0 it does nothing. That a fence outside a task acts
at once is the model's (log 53). -/
def Obligations.GatesFencesInvalidates : Prop :=
  ∀ (a b : SReg) (w v : Bool) (s : State), Room s → Full s [a, b] →
    let h := s.sreg a
    let n := (s.sreg b).toNat
    (h.toNat % 8 ≠ 0 → Misaligned (.gate a b w v) s) ∧
    (∀ pa s1 s2, h.toNat % 8 = 0 → reach h 8 .read s = .ok (pa, s1) → Met s1 pa 8 s2 → Clean s2 pa 8 →
      (n ≤ seen s2 pa 8 → exec (.gate a b w v) s = .next (retire (noteRead pa 8 s2))) ∧
      (seen s2 pa 8 < n → exec (.gate a b w v) s = .next (block (.gate pa (s.sreg b)) s1))) ∧
    (s.hart.kind = .task → exec .fenceX s = .next (retire (pushEffect .fenceX s)) ∧ exec .fenceH s = .next (retire (pushEffect .fenceH s))) ∧
    (s.hart.kind ≠ .task → exec .fenceX s = .next (retire (s.mod fun k => { k with fenceX := k.fenceX + 1 })) ∧
      exec .fenceH s = .next (retire (s.mod fun k => { k with fenceH := k.fenceH + 1 }))) ∧
    (n = 0 → exec (.cinv a b w v) s = .next (retire s)) ∧
    (s.hart.kind = .task → ∀ pa, n ≠ 0 → checkAccess s h n .read = .ok pa → exec (.cinv a b w v) s = .next (retire (dropLines pa n s))) ∧
    (s.hart.kind = .firmware → ∀ parts, n ≠ 0 → physicalParts s (pageParts s h.toNat n) = .ok parts →
      exec (.cinv a b w v) s = .next (retire (parts.foldl (fun t x => dropLines x.1 x.2 t) s)))

namespace Sys2Proof.Claims

/-- The n-bit result of an exact integer: modulo 2^n, or clamped to the signed range with SAT where it leaves it (R102, R143). -/
def intBits (n : Nat) (sat : Bool) (x : Int) : Nat × Flags :=
  let lo : Int := -(2 ^ (n - 1))
  let hi : Int := 2 ^ (n - 1) - 1
  if sat then (((if x < lo then lo else if hi < x then hi else x) % 2 ^ n).toNat, { sat := decide (x < lo ∨ hi < x) })
  else ((x % 2 ^ n).toNat, {})

/-- A tile that goes with the shape of another at element size e (R143). -/
def Matches (e : Nat) (a b : Tile) : Prop :=
  shapeRows b.shape = shapeRows a.shape ∧ shapeRb b.shape = shapeRb a.shape ∧ shapeSize b.shape = e

/-- The tile registers that an instruction names are allocated, its sources full, and no fault is injected (R12, R16, R316). -/
def TilesReady (s : State) (named sources : List TReg) : Prop := Tiles s named ∧ FullTiles s sources ∧ Quiet s

/-- The instruction raises TILE_FORMAT and has no effect; the spec states no detail (log 7). -/
def BadTile (k : Instr) (s : State) : Prop := ∃ r : Option Word, exec k s = .next (raise { word := wordOf k } .tileFormat r s)

/-- The tile result of an instruction, in a shape of its own. -/
def gridOf (shape : BitVec 16) (rows cols : Nat) (v : Nat → Nat → Nat × Flags) : Grid :=
  { shape := shape
    rows := rows
    cols := cols
    value := v }

end Sys2Proof.Claims

/-- R14, R124, R143, R144: what writing a tile result does. The register is full with the result's shape; each element is at its place, the
padding is zero, and FLG gains the flags of every element. Other tiles, the scalars, the views and everything outside the context
stay. -/
def Obligations.TileWrites : Prop :=
  ∀ (x : TReg) (g : Grid) (s : State), g.rows ≤ 64 → shapeSize g.shape * g.cols ≤ 64 →
    let e := shapeSize g.shape
    let t := writeGrid x g s
    Outside s t ∧ (t.tile x).full = true ∧ (t.tile x).shape = g.shape ∧ (t.tile x).data.wf = true ∧
    (∀ i j, i < g.rows → j < g.cols → (g.value i j).1 < 2 ^ (8 * e) → elem (t.tile x).data e i j = (g.value i j).1) ∧
    (∀ i k, k < 64 → g.rows ≤ i ∨ e * g.cols ≤ k → (t.tile x).data.read (64 * i + k) = 0) ∧
    (∀ n : Nat, t.hart.r.flg.getLsbD n = true ↔
      s.hart.r.flg.getLsbD n = true ∨ ∃ i j, i < g.rows ∧ j < g.cols ∧ (orFlags 0 (g.value i j).2).getLsbD n = true) ∧
    (∀ y, y ≠ x → t.tile y = s.tile y) ∧ (∀ r, t.sreg r = s.sreg r ∧ t.sfull r = s.sfull r) ∧ t.hart.r.p = s.hart.r.p ∧
    t.hart.r.pc = s.hart.r.pc ∧ t.hart.r.rst = s.hart.r.rst ∧ t.hart.lease = s.hart.lease ∧ t.hart.chunk = s.hart.chunk

/-- R14, R125: the register-file instructions. -/
def Obligations.TileRegisterResults : Prop :=
  ∀ (d a b : SReg) (x y : TReg) (w v : Bool) (s : State), Room s → Full s [a, b] → Tiles s [x, y] → FullTiles s [y] → Quiet s →
    let o := s.tile y
    let e := shapeSize o.shape
    let rows := shapeRows o.shape
    let cols := shapeCols o.shape
    let n := (s.sreg b).toNat
    let i := bitsOf n 13 8
    let j := bitsOf n 5 0
    let gives := fun (m : Memory) (sh : BitVec 16) => (Host.Outcome.next (retire (writeT x m sh s)) : Answer)
    let faults := fun (k : Instr) (c : Code) => ∃ r : Option Word, exec k s = .next (raise { word := wordOf k } c r s)
    (shapeOk ((s.sreg a).toNat % 65536) = true → exec (.tshape x a w) s = .next (retire (s.modRegs fun r =>
      { r with t := r.t.set x.val { r.t.get x with shape := BitVec.ofNat 16 ((s.sreg a).toNat % 65536) } x.isLt }))) ∧
    (shapeOk ((s.sreg a).toNat % 65536) = false → faults (.tshape x a w) .illegal) ∧
    exec (.tshapeq d x) s = .next (retire (writeS d (word (s.tile x).shape.toNat) s)) ∧
    exec (.tclr x) s = gives [] (s.tile x).shape ∧
    (∃ m, exec (.tmov x y w) s = gives m o.shape ∧
      ∀ r k, k < 64 → m.read (64 * r + k) = if r < rows ∧ k < shapeRb o.shape then o.data.read (64 * r + k) else 0) ∧
    (cols ≤ 64 ∧ e * rows ≤ 64 → exec (.ttr x y w) s =
      gives (buildTile e cols rows fun p q => elem o.data e q p) (mkShape (shapeFmt o.shape) (e * rows) cols)) ∧
    (¬(cols ≤ 64 ∧ e * rows ≤ 64) → faults (.ttr x y w) .tileFormat) ∧
    (n < rows → exec (.tbcr x y b w v) s = gives (buildTile e rows cols fun _ q => elem o.data e n q) o.shape) ∧
    (rows ≤ n → faults (.tbcr x y b w v) .tileIndex) ∧
    (n < cols → exec (.tbcc x y b w v) s = gives (buildTile e rows cols fun p _ => elem o.data e p n) o.shape) ∧
    (cols ≤ n → faults (.tbcc x y b w v) .tileIndex) ∧
    (i < rows ∧ j < cols → exec (.textr d y b w v) s = .next (retire (writeS d
      (if shapeFmt o.shape ≤ 3 then wordOfInt (Machine.Num.toSigned (8 * e) (elem o.data e i j)) else word (elem o.data e i j)) s))) ∧
    (¬(i < rows ∧ j < cols) → faults (.textr d y b w v) .tileIndex) ∧
    (i < rows ∧ j < cols → exec (.tins y a b w v) s =
      .next (retire (writeT y (o.data.writeLE (64 * i + e * j) e (s.sreg a).toNat) o.shape s))) ∧
    (¬(i < rows ∧ j < cols) → faults (.tins y a b w v) .tileIndex)

/-- R15, R126: VSET, VADV and VGET. The limits of VADV are unsigned and stop at zero; the handle is a 64-bit sum. -/
def Obligations.ViewResults : Prop :=
  ∀ (p : PReg) (d a b : SReg) (w v : Bool) (n : BitVec 1) (s : State), Room s → Full s [a, b] →
    let x := s.hart.r.p.get p
    let y := (s.sreg b).toNat
    exec (.vset p a b w v) s = .next (retire (setView p (s.sreg b ++ s.sreg a) s)) ∧
    exec (.vadv p a b w v) s = .next (retire (setView p
      (BitVec.ofNat 16 (bitsOf x.toNat 127 112 - y % 65536) ++ BitVec.ofNat 16 (bitsOf x.toNat 111 96 - bitsOf y 31 16) ++
        BitVec.ofNat 32 (bitsOf x.toNat 95 64) ++ (BitVec.ofNat 64 x.toNat + s.sreg a)) s)) ∧
    exec (.vget d p n) s = .next (retire (writeS d (word (x.toNat / 2 ^ (64 * n.toNat))) s))

namespace Sys2Proof.Claims

/-- The bytes that the stores of a chunk bring to memory, in order, each with its address. -/
def storesOf (s : State) : List (Nat × List Byte) := s.hart.chunk.effects.filterMap fun e => match e with | .store pa bs => some (pa, bs) | _ => none

/-- The same for the stores to scratchpads, with the core of each. -/
def padStoresOf (s : State) : List (Nat × Nat × List Byte) :=
  s.hart.chunk.effects.filterMap fun e => match e with | .padStore core a bs => some (core, a, bs) | _ => none

/-- The element that a window gives for location m, from the scratchpad as the task sees it (R116, R117, R130). -/
def windowElement (s : State) (n e m : Nat) : Nat :=
  let byte := fun (a : Nat) => (viewPad s a).toNat
  let bit := fun (q : Nat) => if (viewPad s (8192 * q + m / 8)).getLsbD (m % 8) then (1 : Int) else 0
  let np := fun (c : Nat) (restore : Bool) => ((-128 * bit 0 + ((List.range' 1 (c - 1)).map fun q => 2 ^ (7 - q) * bit q).sum +
    (if restore = true ∧ c < 8 then 2 ^ (7 - c) else 0)) % 256).toNat
  match n with
  | 0 => leNat ((List.range e).map fun i => viewPad s (m + i))
  | 1 => np 8 false
  | 2 => np 4 false
  | 3 => np 2 false
  | 4 => np 4 true
  | 5 => (Machine.Num.roundFp 5 .rne (Machine.Num.ofE4 (byte m))).1
  | 6 => (Machine.Num.roundFp 5 .rne (Machine.Num.value 4 (byte (2 * m) + 256 * byte (2 * m + 1)))).1
  | _ => if byte m < 128 then byte m else byte m + (2 ^ 32 - 256)

/-- R14, R116, R117, R127, R130, R131: which bytes TST stores and which TLDS and TSTS move, in a task. A TST buffers one store per row that has
an unmasked element: those elements of the tile, at the row's place in the extent. A TSTS buffers the same to scratchpad. A TLDS leaves
the unmasked elements as the window gives them from the scratchpad, which holds no poison and no error of the part here, and the masked
ones zero or, with `.k`, as they were. Where rows complete is stated with `rowsFrom`, as in TileTransfers. -/
def RowBytes (t : TReg) (p : PReg) (q : BitVec 2) (f n : BitVec 3) (k w : Bool) (s s1 : State) : Prop :=
  let old := s.tile t
  let rows := shapeRows old.shape
  let v := s.view p
  let post := fun (u c : Nat) (x : State) => setView p (postView v q.toNat u rows c) x
  let live := fun (c i : Nat) => if i < bitsOf v 111 96 then Nat.min c (bitsOf v 127 112) else 0
  let ready := old.full = true ∧ Quiet s
  (let z := Machine.Num.size f.toNat
   let c := shapeRb old.shape / z
   let h := fun (i : Nat) => (bitsOf v 63 0 + z * (i * bitsOf v 95 64)) % 2 ^ 64
   ready → shapeSize old.shape = z → ∀ e : Nat → Extent, (∀ i < rows, live c i ≠ 0 →
     s.extents[h i / 2 ^ 56]? = some (e i) ∧ MayReach (e i) (h i % 2 ^ 56) (z * live c i) .write s) →
   rowsFrom (fun i u => holdRow i (awaitRow (blockingForm s v) i u >>= storeRow t v z c i)) (restRows s rows) s = .ok s1 →
   exec (.tst t p q f w) s = .next (retire (post z c s1)) ∧
   storesOf s1 = storesOf s ++ (List.range rows).filterMap fun i =>
     if live c i = 0 then none else some ((e i).base + h i % 2 ^ 56, old.data.readBytes (64 * i) (z * live c i))) ∧
  (let z := shapeSize old.shape
   let c := shapeRb old.shape / z
   let at_ := fun (i : Nat) => bitsOf v 15 0 + z * (i * bitsOf v 95 64)
   ready → n = 0 → bitsOf v 63 16 = 0 → (∀ i < rows, regionHeld (at_ i) (z * live c i) s = false) →
   rowsFrom (fun i => windowStoreRow t v z c i) (restRows s rows) s = .ok s1 →
   exec (.tsts t p q n w) s = .next (retire (post z c s1)) ∧ (∀ i < rows, live c i ≠ 0 → at_ i + z * live c i ≤ 65536) ∧
   padStoresOf s1 = padStoresOf s ++ (List.range rows).filterMap fun i =>
     if live c i = 0 then none else some (s.hart.core, at_ i, old.data.readBytes (64 * i) (z * live c i))) ∧
  (let fmt := if n = 0 then shapeFmt old.shape else if n = 5 ∨ n = 6 then 5 else if n = 7 then 2 else 0
   let z := Machine.Num.size fmt
   let c := shapeRb old.shape / z
   let u := if n = 0 then z else 1
   let shape := mkShape fmt (shapeRb old.shape) rows
   (k = true → ready) → Quiet s → shapeRb old.shape % z = 0 → bitsOf v 63 16 = 0 → old.data.wf = true → s.padPoison = [] → s.sram = [] →
   rowsFrom (fun i => windowLoadRow t shape k n.toNat v z c s i) (restRows s rows) (openTile t shape s) = .ok s1 →
   exec (.tlds t p q n k) s = .next (retire (post u c s1)) ∧ (s1.tile t).shape = shape ∧ (s1.tile t).full = true ∧
   ∀ i j, i < rows → j < c → elem (s1.tile t).data z i j =
     if j < live c i then windowElement s n.toNat z (bitsOf v 15 0 + u * (i * bitsOf v 95 64 + j))
     else if k then elem old.data z i j else 0)

end Sys2Proof.Claims

/-- R127 to R131, R46: tile loads and stores. Rows go in order from the row in RST; a row that does not complete leaves its number there;
after the last row RST is zero and the view is post-incremented. A non-blocking TLD or TLDC leaves td empty until its rows have
landed (R16); `RowBytes` says which bytes TST stores, and which TLDS and TSTS move. Three things are the model's: when a row of the blocking form
waits (log 122), that WINDOW_STORE comes before any other check of the access (log 54), and that TSTS checks OWNER_BUSY over all rows first (log 134). -/
def Obligations.TileTransfers : Prop :=
  ∀ (t : TReg) (p : PReg) (q : BitVec 2) (f n : BitVec 3) (k w : Bool) (s s1 : State), Room s → Tiles s [t] →
    let ready := (s.tile t).full = true ∧ Quiet s
    let old := (s.tile t).shape
    let rb := shapeRb old
    let rows := shapeRows old
    let v := s.view p
    let rest := restRows s rows
    let e := Machine.Num.size f.toNat
    let shape := mkShape f.toNat rb rows
    let post := fun (u c : Nat) (x : State) => setView p (postView v q.toNat u rows c) x
    let lands := fun (x : State) => if blockingForm s v then post e (rb / e) x
      else produceT t ((post e (rb / e) x).tile t).data shape (post e (rb / e) x)
    let ef := Machine.Num.size (windowFmt n.toNat (shapeFmt old))
    ((k = true → ready) → rb % e = 0 → rowsFrom (fun i u => holdRow i (awaitRow (blockingForm s v) i u >>= loadRow false t shape k v e (rb / e) i)) rest (openTile t shape s) = .ok s1 →
      exec (.tld t p q f k) s = .next (retire (lands s1))) ∧
    ((k = true → ready) → rb % e = 0 → rowsFrom (fun i u => holdRow i (awaitRow (blockingForm s v) i u >>= loadRow true t shape k v e (rb / e) i)) rest (openTile t shape s) = .ok s1 →
      exec (.tldc t p q f k) s = .next (retire (lands s1))) ∧
    (ready → shapeSize old = e → rowsFrom (fun i u => holdRow i (awaitRow (blockingForm s v) i u >>= storeRow t v e (shapeCols old) i)) rest s = .ok s1 →
      exec (.tst t p q f w) s = .next (retire (post e (shapeCols old) s1))) ∧
    (ready → shapeSize old ≠ e → exec (.tst t p q f w) s = .next (raise { word := wordOf (.tst t p q f w) } .tileFormat (some (word t.val)) s)) ∧
    (let shape := mkShape (windowFmt n.toNat (shapeFmt old)) rb rows
     (k = true → ready) → rb % ef = 0 → viewHandle v < 65536 →
      rowsFrom (fun i => windowLoadRow t shape k n.toNat v ef (rb / ef) s i) rest (openTile t shape s) = .ok s1 →
      exec (.tlds t p q n k) s = .next (retire (post (if n = 0 then ef else 1) (rb / ef) s1))) ∧
    (let es := shapeSize old
     ready → n = 0 → viewHandle v < 65536 → (∀ i ∈ rest, regionHeld (windowLoc 0 v es i 0) (es * unmasked v (shapeCols old) i) s = false) →
      rowsFrom (fun i => windowStoreRow t v es (shapeCols old) i) rest s = .ok s1 →
      exec (.tsts t p q n w) s = .next (retire (post es (shapeCols old) s1))) ∧
    (ready → n ≠ 0 → ∃ r : Option Word, exec (.tsts t p q n w) s = .next (raise { word := wordOf (.tsts t p q n w) } .windowStore r s)) ∧
    (s.hart.kind = .task → s.rstIdx = 0 → RowBytes t p q f n k w s s1)

/-- R15, R127: the elements that a TLD brings, in a task, from an extent that is not file-backed and wholly within its reach, where RST is
zero, no unit is in retention, the part has no error and no row waits (log 122): the unmasked ones as memory has them, the masked ones zero,
or as they were with `.k`. -/
def Obligations.TileLoadElements : Prop :=
  ∀ (t : TReg) (p : PReg) (q : BitVec 2) (f : BitVec 3) (k : Bool) (e : Extent) (s : State), Room s → Tiles s [t] →
    (k = true → (s.tile t).full = true ∧ Quiet s) → (s.tile t).data.wf = true → s.hart.kind = .task → s.rstIdx = 0 → s.hart.chunk.exclusive = false →
    s.faults = [] → s.sram = [] →
    let z := Machine.Num.size f.toNat
    let v := s.view p
    let rb := shapeRb (s.tile t).shape
    let rows := shapeRows (s.tile t).shape
    let len := fun i => z * unmasked v (rb / z) i
    let h := fun i => (rowHandle v z i).toNat
    rb % z = 0 → (blockingForm s v = true → ∀ i ≤ rows, Config.freeBool (s.fresh + i) = false) →
    (∀ i < rows, len i ≠ 0 → s.extents[h i / 2 ^ 56]? = some e ∧ MayReach e (h i % 2 ^ 56) (len i) .read s ∧
      Clean s (e.base + h i % 2 ^ 56) (len i) ∧ ∀ u ∈ unitsAt s s.hart.core (e.base + h i % 2 ^ 56) (len i), u ∉ s.retained) →
    ∃ u, exec (.tld t p q f k) s = .next u ∧ u.view p = (postView v q.toNat z rows (rb / z)).toNat ∧ u.hart.r.rst = 0 ∧
      ∃ data, (u.tile t = ⟨data, mkShape f.toNat rb rows, true⟩ ∨
          (u.tile t).full = false ∧ (u.tile t).shape = mkShape f.toNat rb rows ∧ ⟨.treg t data, 0⟩ ∈ u.hart.inflight) ∧
        ∀ i j, i < rows → j < rb / z → elem data z i j = if j < unmasked v (rb / z) i then seen s (e.base + h i % 2 ^ 56 + z * j) z
          else if k then elem (s.tile t).data z i j else 0

namespace Sys2Proof.Claims

/-- The number n · 2^j is the exact reciprocal (square = false) or reciprocal square root (square = true) of m · 2^e, or an odd number of
more than 64 bits beside it, with the exact value strictly between n − 1 and n + 1 (log 18). -/
def Beside (square : Bool) (m : Nat) (e : Int) (n : Nat) (j : Int) : Prop :=
  let f := fun (k : Nat) => if square then k * k * m else k * m
  ∃ t : Nat, Int.ofNat t = -(if square then 2 * j else j) - e ∧
    (f n = 2 ^ t ∨ n % 2 = 1 ∧ 2 ^ 64 ≤ n ∧ f (n - 1) < 2 ^ t ∧ 2 ^ t < f (n + 1))

/-- R149: the special functions in BF16 (4) and FP32 (5). The table of the special operands; TEXP of every integer from −126 to 127, exactly,
and its overflow from 128 on; TLOG of a power of two, exactly; TRCP and TRSQ from the exact value or from a number beside it that
rounds as it does (log 18). -/
def SpecialTable (f : Nat) : Prop :=
  let p := if f = 4 then 8 else 24
  let inf := if f = 4 then 0x7F80 else 0x7F800000
  let sign := if f = 4 then 0x8000 else 0x80000000
  let invalid := fun (inv : Bool) => ((if f = 4 then 0x7FC0 else 0x7FC00000, { inv := inv }) : Nat × Flags)
  let r := fun (g : Num.Special) (x : Num.Val) => Machine.Num.roundFp f .rne (Machine.Num.special g x)
  let plain := fun (v : Nat) => ((v, {}) : Nat × Flags)
  (∀ (neg : Bool) (e : Int), let x : Num.Val := .fin neg 0 e
    r .exp x = plain (127 * 2 ^ (p - 1)) ∧ r .log x = plain (inf + sign) ∧
    r .rcp x = plain (if neg then inf + sign else inf) ∧ r .rsq x = plain (if neg then inf + sign else inf)) ∧
  (r .exp (.inf false) = plain inf ∧ r .log (.inf false) = plain inf ∧ r .rcp (.inf false) = plain 0 ∧ r .rsq (.inf false) = plain 0) ∧
  (r .exp (.inf true) = plain 0 ∧ r .log (.inf true) = invalid true ∧ r .rcp (.inf true) = plain sign ∧ r .rsq (.inf true) = invalid true) ∧
  (∀ (m : Nat) (e : Int), m ≠ 0 → r .log (.fin true m e) = invalid true ∧ r .rsq (.fin true m e) = invalid true) ∧
  (∀ (g : Num.Special) (sn : Bool), r g (.nan sn) = invalid sn) ∧
  (∀ (neg : Bool) (m d : Nat) (k : Int), d ≤ 149 → k = (if neg then -(Int.ofNat m) else Int.ofNat m) → -126 ≤ k → k ≤ 127 →
    r .exp (.fin neg (m * 2 ^ d) (-(Int.ofNat d))) = plain ((k + 127).toNat * 2 ^ (p - 1))) ∧
  (∀ (m : Nat) (e : Int), -149 ≤ e → 128 * 2 ^ 149 ≤ m * 2 ^ (e + 149).toNat → r .exp (.fin false m e) = (inf, { inx := true })) ∧
  (∀ (k : Nat) (e : Int), -256 ≤ Int.ofNat k + e → Int.ofNat k + e ≤ 256 →
    r .log (.fin false (2 ^ k) e) = plain (Machine.Num.roundFp f .rne (Machine.Num.ofInt (Int.ofNat k + e))).1) ∧
  (∀ (neg : Bool) (m : Nat) (e : Int), m ≠ 0 →
    (∃ n j, Machine.Num.special .rcp (.fin neg m e) = .fin neg n j ∧ Beside false m e n j) ∧
    ∃ n j, Machine.Num.special .rsq (.fin false m e) = .fin false n j ∧ Beside true m e n j)

end Sys2Proof.Claims

/-- R143 to R149: the element-wise instructions, where the operands have the format and the shapes they must have, and TILE_FORMAT where
they have not, under format 0xF where ta's own format is one that the row of R57 does not allow. TEXP, TLOG, TRCP and TRSQ round once
what the special functions give: the exact value, or one beside it by a fixed-point series or division (log 18), with R149's table. That
TSCALE by 0xFF sets INV for a signalling NaN, and no other flag, is the model's reading of R104 and R105 (log 119). -/
def Obligations.ElementResults : Prop :=
  ∀ (x y z : TReg) (w v sat : Bool) (f : BitVec 4) (s : State), Room s → TilesReady s [x, y, z] [y, z] →
    let a := s.tile y
    let b := s.tile z
    let fmt := if f = 15 then shapeFmt a.shape else f.toNat
    let e := Machine.Num.size fmt
    let n := 8 * e
    let A := fun i j => elem a.data e i j
    let B := fun i j => elem b.data e i j
    let D := fun i j => elem (s.tile x).data e i j
    let sA := fun i j => Machine.Num.toSigned n (A i j)
    let sB := fun i j => Machine.Num.toSigned n (B i j)
    let vA := fun i j => Machine.Num.value fmt (A i j)
    let vB := fun i j => Machine.Num.value fmt (B i j)
    let is := fun (k : Instr) (r : Nat → Nat → Nat × Flags) => exec k s = .next (retire (writeGrid x
      (gridOf (mkShape fmt (shapeRb a.shape) (shapeRows a.shape)) (shapeRows a.shape) (shapeRb a.shape / e) r) s))
    let two := fun (int : Int → Int → Int) (fp : Num.Val → Num.Val → Num.Val) => fun i j =>
      if fmt ≤ 3 then intBits n sat (int (sA i j) (sB i j)) else Machine.Num.roundFp fmt .rne (fp (vA i j) (vB i j))
    let oldFits := Matches e a (s.tile x)
    let scaleFits := shapeRows b.shape = shapeRows a.shape ∧ shapeRb b.shape = shapeRb a.shape / e ∧ (shapeFmt b.shape = 0 ∨ shapeFmt b.shape = 7)
    (f = 15 ∨ fmt ≤ 5 → ¬(fmt ≤ 5 ∧ shapeSize a.shape = e) → BadTile (.tabs x y w sat f) s ∧ BadTile (.tneg x y w sat f) s) ∧
    (f = 15 ∨ fmt ≤ 5 → ¬(fmt ≤ 5 ∧ shapeSize a.shape = e ∧ Matches e a b) →
      ∀ k ∈ [Instr.tadd x y z w v sat f, .tsub x y z w v sat f, .tmul x y z w v sat f, .tmin x y z w v f, .tmax x y z w v f], BadTile k s) ∧
    (f = 15 ∨ fmt ≤ 3 → ¬(fmt ≤ 3 ∧ shapeSize a.shape = e ∧ Matches e a b) →
      ∀ k ∈ [Instr.tand x y z w v f, .tor x y z w v f, .txor x y z w v f, .tshl x y z w v sat f, .tshr x y z w v f, .tsra x y z w v f], BadTile k s) ∧
    (f = 15 ∨ fmt = 4 ∨ fmt = 5 → ¬((fmt = 4 ∨ fmt = 5) ∧ shapeSize a.shape = e) →
      ∀ k ∈ [Instr.texp x y w f, .tlog x y w f, .trcp x y w f, .trsq x y w f], BadTile k s) ∧
    (f = 15 ∨ fmt = 4 ∨ fmt = 5 → ¬((fmt = 4 ∨ fmt = 5) ∧ shapeSize a.shape = e ∧ scaleFits) → BadTile (.tscale x y z w v f) s) ∧
    (f = 15 ∨ fmt = 4 ∨ fmt = 5 → (s.tile x).full = true → ¬((fmt = 4 ∨ fmt = 5) ∧ shapeSize a.shape = e ∧ Matches e a b ∧ oldFits) →
      BadTile (.tfma x y z w v f) s) ∧
    (f = 15 ∨ fmt ≤ 7 → (s.tile x).full = true → ¬(fmt ≤ 7 ∧ shapeSize a.shape = e ∧ Matches e a b ∧ oldFits) → BadTile (.tsel x y z w v f) s) ∧
    (shapeSize a.shape = e →
      (fmt ≤ 5 → Matches e a b →
        is (.tadd x y z w v sat f) (two (· + ·) Machine.Num.add) ∧
        is (.tsub x y z w v sat f) (two (· - ·) fun p q => Machine.Num.add p q.neg) ∧
        is (.tmul x y z w v sat f) (two (· * ·) Machine.Num.mul) ∧
        is (.tmin x y z w v f) (fun i j => if fmt ≤ 3 then (if sA i j ≤ sB i j then A i j else B i j, {}) else Machine.Num.minMax fmt false (A i j) (B i j)) ∧
        is (.tmax x y z w v f) (fun i j => if fmt ≤ 3 then (if sA i j ≤ sB i j then B i j else A i j, {}) else Machine.Num.minMax fmt true (A i j) (B i j))) ∧
      (fmt ≤ 5 →
        is (.tabs x y w sat f) (fun i j => if fmt ≤ 3 then intBits n sat (Int.ofNat (sA i j).natAbs) else match vA i j with
          | .nan sn => ((Machine.Num.fpOf fmt).nan, { inv := sn })
          | _ => (A i j % 2 ^ (n - 1), {})) ∧
        is (.tneg x y w sat f) (fun i j => if fmt ≤ 3 then intBits n sat (-(sA i j)) else match vA i j with
          | .nan sn => ((Machine.Num.fpOf fmt).nan, { inv := sn })
          | _ => (A i j ^^^ 2 ^ (n - 1), {}))) ∧
      (fmt ≤ 3 → Matches e a b →
        is (.tand x y z w v f) (fun i j => (A i j &&& B i j, {})) ∧
        is (.tor x y z w v f) (fun i j => (A i j ||| B i j, {})) ∧
        is (.txor x y z w v f) (fun i j => (A i j ^^^ B i j, {})) ∧
        is (.tshl x y z w v sat f) (fun i j => if sat then intBits n true (sA i j * 2 ^ B i j) else (A i j * 2 ^ B i j % 2 ^ n, {})) ∧
        is (.tshr x y z w v f) (fun i j => (A i j / 2 ^ B i j, {})) ∧
        is (.tsra x y z w v f) (fun i j => ((sA i j / 2 ^ B i j % 2 ^ n).toNat, {}))) ∧
      (fmt = 4 ∨ fmt = 5 →
        (Matches e a b → Matches e a (s.tile x) → (s.tile x).full = true →
          is (.tfma x y z w v f) (fun i j => Machine.Num.roundFp fmt .rne (Machine.Num.fma (vA i j) (vB i j) (Machine.Num.value fmt (D i j))))) ∧
        is (.texp x y w f) (fun i j => Machine.Num.roundFp fmt .rne (Machine.Num.special .exp (vA i j))) ∧
        is (.tlog x y w f) (fun i j => Machine.Num.roundFp fmt .rne (Machine.Num.special .log (vA i j))) ∧
        is (.trcp x y w f) (fun i j => Machine.Num.roundFp fmt .rne (Machine.Num.special .rcp (vA i j))) ∧
        is (.trsq x y w f) (fun i j => Machine.Num.roundFp fmt .rne (Machine.Num.special .rsq (vA i j))) ∧
        SpecialTable fmt ∧
        (shapeRows b.shape = shapeRows a.shape → shapeRb b.shape = shapeRb a.shape / e → shapeFmt b.shape = 0 ∨ shapeFmt b.shape = 7 →
          is (.tscale x y z w v f) (fun i j => let c := elem b.data 1 i j
            if shapeFmt b.shape = 0 then Machine.Num.roundFp fmt .rne (Machine.Num.mul (vA i j) (.fin false 1 (Machine.Num.toSigned 8 c)))
            else if c = 255 then ((Machine.Num.fpOf fmt).nan, { inv := (vA i j).snan })
            else Machine.Num.roundFp fmt .rne (Machine.Num.mul (vA i j) (.fin false 1 (Int.ofNat c - 127)))))) ∧
      (fmt ≤ 7 → Matches e a b → Matches e a (s.tile x) → (s.tile x).full = true →
        is (.tsel x y z w v f) (fun i j => (if D i j ≠ 0 then A i j else B i j, {}))))

/-- R148, R106: the comparisons give all ones or zero, in the integer format of the size of F; a signalling NaN sets INV. A format that the
row of R57 does not allow, another element size of ta, or a tb that does not match is TILE_FORMAT. -/
def Obligations.ComparisonResults : Prop :=
  ∀ (x y z : TReg) (w v : Bool) (f : BitVec 4) (s : State), Room s → TilesReady s [x, y, z] [y, z] →
    let a := s.tile y
    let b := s.tile z
    let fmt := if f = 15 then shapeFmt a.shape else f.toNat
    let e := Machine.Num.size fmt
    let int := if fmt = 4 then 1 else if fmt = 5 then 2 else fmt
    let num := fun (m : Memory) i j => Machine.Num.value fmt (elem m e i j)
    let sig := fun (m : Memory) i j => Machine.Num.toSigned (8 * e) (elem m e i j)
    let is := fun (k : Instr) (c : Nat → Nat → Prop) => ∃ r : Nat → Nat → Nat × Flags,
      exec k s = .next (retire (writeGrid x
        (gridOf (mkShape int (shapeRb a.shape) (shapeRows a.shape)) (shapeRows a.shape) (shapeRb a.shape / e) r) s)) ∧
      ∀ i j, (c i j → (r i j).1 = 2 ^ (8 * e) - 1) ∧ (¬c i j → (r i j).1 = 0) ∧
        (r i j).2 = { inv := decide (4 ≤ fmt) && ((num a.data i j).snan || (num b.data i j).snan) }
    (f = 15 ∨ fmt ≤ 5 → ¬(fmt ≤ 5 ∧ shapeSize a.shape = e ∧ Matches e a b) →
      ∀ k ∈ [Instr.tcmpEq x y z w v f, .tcmpNe x y z w v f, .tcmpLt x y z w v f, .tcmpLe x y z w v f], BadTile k s) ∧
    (fmt ≤ 5 → shapeSize a.shape = e →
      (Matches e a b →
        (fmt ≤ 3 →
          is (.tcmpEq x y z w v f) (fun i j => sig a.data i j = sig b.data i j) ∧
          is (.tcmpNe x y z w v f) (fun i j => sig a.data i j ≠ sig b.data i j) ∧
          is (.tcmpLt x y z w v f) (fun i j => sig a.data i j < sig b.data i j) ∧
          is (.tcmpLe x y z w v f) (fun i j => sig a.data i j ≤ sig b.data i j)) ∧
        (4 ≤ fmt →
          is (.tcmpEq x y z w v f) (fun i j => Machine.Num.eq (num a.data i j) (num b.data i j) = true) ∧
          is (.tcmpNe x y z w v f) (fun i j => Machine.Num.eq (num a.data i j) (num b.data i j) = false) ∧
          is (.tcmpLt x y z w v f) (fun i j => Machine.Num.lt (num a.data i j) (num b.data i j) = true) ∧
          is (.tcmpLe x y z w v f) (fun i j => Machine.Num.lt (num a.data i j) (num b.data i j) = true ∨ Machine.Num.eq (num a.data i j) (num b.data i j) = true))) ∧
      (¬Matches e a b → ∃ r : Option Word, exec (.tcmpEq x y z w v f) s =
        .next (raise { word := wordOf (.tcmpEq x y z w v f) } .tileFormat r s)))

/-- R119, R150: the reductions of rows and columns, in ascending order, and TDOTR. An integer sum is exact and then clamped; a floating sum
rounds at each step. That it starts from the first element rounded, so that a single NaN becomes the canonical one, is the model's (log 59).
A format that the row of R57 does not allow, another element size of ta, or a tb that does not match is TILE_FORMAT. -/
def Obligations.ReductionResults : Prop :=
  ∀ (x y z : TReg) (w v : Bool) (f : BitVec 4) (s : State), Room s → TilesReady s [x, y, z] [y, z] →
    let a := s.tile y
    let b := s.tile z
    let fmt := if f = 15 then shapeFmt a.shape else f.toNat
    let e := Machine.Num.size fmt
    let n := 8 * e
    let rows := shapeRows a.shape
    let cols := shapeRb a.shape / e
    let row := fun i => (List.range cols).map fun j => elem a.data e i j
    let col := fun j => (List.range rows).map fun i => elem a.data e i j
    let step := fun (g : Nat → Nat → Nat × Flags) (acc : Nat × Flags) (u : Nat) => ((g acc.1 u).1, acc.2.join (g acc.1 u).2)
    let sum := fun (l : List Nat) => if fmt ≤ 3 then intBits n true (l.foldl (fun acc u => acc + Machine.Num.toSigned n u) 0)
      else (l.drop 1).foldl (step fun p q => Machine.Num.roundFp fmt .rne (Machine.Num.add (Machine.Num.value fmt p) (Machine.Num.value fmt q)))
        (Machine.Num.roundFp fmt .rne (Machine.Num.value fmt (l.headD 0)))
    let best := fun (max : Bool) (l : List Nat) => if fmt ≤ 3 then
        ((l.drop 1).foldl (fun acc u => if (decide (Machine.Num.toSigned n acc ≤ Machine.Num.toSigned n u) != max) = true then acc else u) (l.headD 0), ({} : Flags))
      else (l.drop 1).foldl (step fun p q => Machine.Num.minMax fmt max p q) (Machine.Num.minMax fmt max (l.headD 0) (l.headD 0))
    let rowIs := fun (k : Instr) (r : List Nat → Nat × Flags) =>
      exec k s = .next (retire (writeGrid x (gridOf (mkShape fmt e rows) rows 1 fun i _ => r (row i)) s))
    let colIs := fun (k : Instr) (r : List Nat → Nat × Flags) =>
      exec k s = .next (retire (writeGrid x (gridOf (mkShape fmt (shapeRb a.shape) 1) 1 cols fun _ j => r (col j)) s))
    let reduces := 2 ≤ fmt ∧ fmt ≤ 5
    (f = 15 ∨ reduces → ¬(reduces ∧ shapeSize a.shape = e) →
      ∀ k ∈ [Instr.tredrAdd x y w f, .tredrMax x y w f, .tredrMin x y w f, .tredcAdd x y w f, .tredcMax x y w f, .tredcMin x y w f], BadTile k s) ∧
    (f = 15 ∨ fmt = 4 ∨ fmt = 5 → ¬((fmt = 4 ∨ fmt = 5) ∧ shapeSize a.shape = e ∧ Matches e a b) → BadTile (.tdotr x y z w v f) s) ∧
    (shapeSize a.shape = e →
      (2 ≤ fmt ∧ fmt ≤ 5 →
        rowIs (.tredrAdd x y w f) sum ∧ rowIs (.tredrMax x y w f) (best true) ∧ rowIs (.tredrMin x y w f) (best false) ∧
        colIs (.tredcAdd x y w f) sum ∧ colIs (.tredcMax x y w f) (best true) ∧ colIs (.tredcMin x y w f) (best false)) ∧
      (fmt = 4 ∨ fmt = 5 → Matches e a b →
        let val := fun (m : Memory) i j => Machine.Num.value fmt (elem m e i j)
        exec (.tdotr x y z w v f) s = .next (retire (writeGrid x (gridOf (mkShape fmt e rows) rows 1 fun i _ =>
          (List.range' 1 (cols - 1)).foldl (fun acc j =>
              let r := Machine.Num.roundFp fmt .rne (Machine.Num.fma (val a.data i j) (val b.data i j) (Machine.Num.value fmt acc.1))
              (r.1, acc.2.join r.2)) (Machine.Num.roundFp fmt .rne (Machine.Num.mul (val a.data i 0) (val b.data i 0)))) s))))

namespace Sys2Proof.Claims

/-- R114: the draw of an element, as the rule computes it modulo 2^64. -/
def drawOf (seed ranks i j fmt x : Nat) : Nat :=
  let mod := fun (z : Nat) => z % 2 ^ 64
  let z := mod ((seed ^^^ ranks) + 0x9E3779B97F4A7C15 * (1 + 64 * i + j + 4096 * fmt))
  let z := z ^^^ x
  let z := mod ((z ^^^ z / 2 ^ 30) * 0xBF58476D1CE4E5B9)
  let z := mod ((z ^^^ z / 2 ^ 27) * 0x94D049BB133111EB)
  let z := z ^^^ z / 2 ^ 31
  z / 2 ^ 32

end Sys2Proof.Claims

/-- R113, R114, R151 to R155: conversion, the plane form, and the chain reduction: at rank 0, at a middle and at the last rank whose partial
has come, its wait, and its faults in their order. An operand of another format or shape is TILE_FORMAT. The draw of stochastic rounding is
R114's, of the seed at byte 0x78 of the capsule and of the task's ranks. Three things are the model's: that firmware's draws use a seed
of 0 (log 118), the ranks of a task on its service core (log 121), and what a chain message carries in the bits that no rule gives (log 7). -/
def Obligations.ConversionResults : Prop :=
  ∀ (x y z : TReg) (w v : Bool) (f : BitVec 4) (r c : BitVec 3) (h : Bool) (l : BitVec 3) (s : State), Room s → TilesReady s [x, y, z] [y, z] →
    let a := s.tile y
    let b := s.tile z
    let fmt := shapeFmt a.shape
    let e := Machine.Num.size fmt
    let rows := shapeRows a.shape
    let cols := shapeCols a.shape
    let n := c.toNat + 1
    let scales := shapeFmt b.shape = 7 ∧ shapeRows b.shape = 1
    let quants := (fmt ≤ 2 ∨ fmt = 4 ∨ fmt = 5) ∧ cols ≤ 32 ∧ scales ∧ cols ≤ shapeCols b.shape
    let planes := fmt = 8 ∧ shapeRb a.shape = 4 * n ∧ scales ∧ shapeCols b.shape ≤ 32
    (¬(fmt ≠ 8 ∧ cols * Machine.Num.size f.toNat ≤ 64) → BadTile (.tcvt x y w f r) s) ∧
    (¬quants → BadTile (.tqnt x y z w v c h) s) ∧ (¬planes → BadTile (.tdq x y z w v c h) s) ∧
    (fmt ≠ 8 → cols * Machine.Num.size f.toNat ≤ 64 → exec (.tcvt x y w f r) s = .next (retire (writeGrid x
      (gridOf (mkShape f.toNat (cols * Machine.Num.size f.toNat) rows) rows cols fun i j =>
        Machine.Num.convert f.toNat (match r.toNat with
            | 0 => .rne
            | 1 => .rz
            | 2 => .rup
            | 3 => .rdn
            | _ => .rs (drawOf (match s.capsule with
                | some k => (k.field 0x78).toNat
                | none => 0) s.hart.ranks.toNat i j f.toNat (elem a.data e i j)))
          (Machine.Num.value fmt (elem a.data e i j))) s))) ∧
    (fmt ≤ 2 ∨ fmt = 4 ∨ fmt = 5 → cols ≤ 32 → scales → cols ≤ shapeCols b.shape →
      let m := fun i j => quantElem n h (Machine.Num.value fmt (elem a.data e i j)) (elem b.data 1 0 j)
      let flags := (((List.range rows).map fun i => (List.range cols).map fun j => (m i j).2).flatten).foldl Flags.join {}
      exec (.tqnt x y z w v c h) s = .next (retire (setFlags flags (writeT x (buildTile 1 rows (4 * n) fun i p =>
        planeByte ((List.range cols).map fun j => ((m i j).1 * 2 ^ (8 - n) % 256).toNat) p) (mkShape 8 (4 * n) rows) s)))) ∧
    (fmt = 8 → shapeRb a.shape = 4 * n → scales → shapeCols b.shape ≤ 32 →
      exec (.tdq x y z w v c h) s = .next (retire (writeGrid x
        (gridOf (mkShape 4 (2 * shapeCols b.shape) rows) rows (shapeCols b.shape) fun i j =>
          let sc := elem b.data 1 0 j
          if sc = 255 then (0x7FC0, {})
          else Machine.Num.roundFp 4 .rne (Machine.Num.mul (Machine.Num.ofInt (Machine.Num.npValue (planeValue a.data n i j) n h)) (Machine.Num.ofE8 sc))) s))) ∧
    (∀ k : Capsule, s.capsule = some k →
      let own := (k.foot ++ k.foot2).find? fun p => p.1 == s.hart.core
      let ranks := (own.map Prod.snd).getD s.hart.ranks
      let chain := l.toNat ≤ k.lvls ∧ k.domain l.toNat ≠ 7 ∧ ∀ i < l.toNat, rankAt ranks i = 0
      let fails := fun (code : Code) => ∃ o : Option Word, exec (.tredx x y w l) s = .next (raise { word := wordOf (.tredx x y w l) } code o s)
      (¬chain → fails .msgTarget) ∧ (chain → fmt ≠ 5 → fails .tileFormat) ∧ (chain → fmt = 5 → rankAt ranks l.toNat ≠ 0 →
        (∀ en, portHead s 3 = some en → chainFits l.toNat a.shape en.msg = none → fails .portKind) ∧
        (portHead s 3 = none → ((s.core s.hart.core).ports.get 3).length < 4 → exec (.tredx x y w l) s = .next (block (.port 3) s)))) ∧
    (∀ k : Capsule, s.capsule = some k → l.toNat ≤ k.lvls → k.domain l.toNat ≠ 7 →
      let own := (k.foot ++ k.foot2).find? fun p => p.1 == s.hart.core
      let ranks := (own.map Prod.snd).getD s.hart.ranks
      (∀ i < l.toNat, rankAt ranks i = 0) → fmt = 5 →
      let rank := rankAt ranks l.toNat
      let last := k.members l.toNat ≤ rank + 1
      let copy := gridOf a.shape rows cols fun i j => (elem a.data 4 i j, {})
      (rank = 0 → last → exec (.tredx x y w l) s = .next (retire (writeGrid x copy s))) ∧
      (rank = 0 → ¬last → OutRoom s → exec (.tredx x y w l) s = .next (retire (pushEffect
        (.message (chainMessage l.toNat 0 ((writeGrid x copy s).tile x).data a.shape (writeGrid x copy s))) (writeGrid x copy s)))) ∧
      (∀ en d, rank ≠ 0 → portHead s 3 = some en → chainFits l.toNat a.shape en.msg = some d →
        let u := writeGrid x (gridOf a.shape rows cols fun i j =>
          Machine.Num.roundFp 5 .rne (Machine.Num.add (Machine.Num.ofF32 (elem d 4 i j)) (Machine.Num.ofF32 (elem a.data 4 i j)))) (takeEntry 3 s)
        (last → exec (.tredx x y w l) s = .next (retire u)) ∧
        (¬last → OutRoom s → exec (.tredx x y w l) s =
          .next (retire (pushEffect (.message (chainMessage l.toNat rank (u.tile x).data a.shape u)) u)))))

namespace Sys2Proof.Claims

/-- The v-th magnitude of a format whose significands have p bits, in units of its least subnormal bit, as if its exponents had no upper
bound (R103, R108). -/
def magnitudeOf (p v : Nat) : Nat := if v < 2 ^ (p - 1) then v else (v % 2 ^ (p - 1) + 2 ^ (p - 1)) * 2 ^ (v / 2 ^ (p - 1) - 1)

/-- R113: for a number of magnitude x strictly between the neighbours lo and hi, which are the v-th and the next, the one that the mode
chooses. -/
def chosen (mode : Num.Mode) (neg : Bool) (v lo x hi : Nat) : Nat :=
  match mode with
  | .rne => if 2 * x < lo + hi then v else if lo + hi < 2 * x then v + 1 else v + v % 2
  | .rz => v
  | .rup => if neg then v else v + 1
  | .rdn => if neg then v + 1 else v
  | .rs u => if u * (hi - lo) < (x - lo) * 2 ^ 32 then v + 1 else v

/-- The v-th magnitude and the number m · 2^e, both in units of 2^k for the lesser k of e and q. -/
def unitsAtMost (q e : Int) (m : Nat) : Nat := m * 2 ^ (e - min e q).toNat

/-- A rounding (R104, R109, R112, R113): what is the same as the v-th magnitude gives `exact v`, and what lies between two neighbours gives
`inexact` of the one that the mode chooses. The magnitudes are `step v` units of 2^q. -/
def Rounds (q : Int) (step : Nat → Nat) (mode : Num.Mode) (neg : Bool) (m : Nat) (e : Int) (r : Nat × Flags) (exact inexact : Nat → Nat × Flags) :
    Prop :=
  let x := unitsAtMost q e m
  let at_ := fun v => unitsAtMost e q (step v)
  ∀ v, (x = at_ v → r = exact v) ∧ (at_ v < x → x < at_ (v + 1) → r = inexact (chosen mode neg v (at_ v) x (at_ (v + 1))))

/-- What an overflow gives (R104). -/
def overflowOf (mode : Num.Mode) (neg : Bool) (inf : Nat) : Nat :=
  match mode, neg with
  | .rz, _ | .rup, true | .rdn, false => inf - 1
  | _, _ => inf

end Sys2Proof.Claims

namespace Sys2Proof.Claims

/-- The rational number that a finite value is. -/
def rat (neg : Bool) (m : Nat) (e : Int) : ℚ := (if neg then -1 else 1) * (m : ℚ) * 2 ^ e

/-- R104 to R106: exact sums, products and fused products before the one rounding. A NaN result that is to set INV is a signalling one here;
`roundFp` gives the canonical NaN for each. -/
def ExactRules : Prop :=
  (∀ (x y z : Bool) (m n k : Nat) (e f g : Int),
    let a := Num.Val.fin x m e
    let b := Num.Val.fin y n f
    let c := Num.Val.fin z k g
    let A := rat x m e
    let B := rat y n f
    let C := rat z k g
    let is := fun (r : Num.Val) (q : ℚ) (sign : Bool) => ∃ neg i j, r = .fin neg i j ∧ rat neg i j = q ∧ (q = 0 → neg = sign)
    is (Machine.Num.add a b) (A + B) (x && y) ∧ is (Machine.Num.mul a b) (A * B) (x != y) ∧
    is (Machine.Num.fma a b c) (A * B + C) ((x != y) && z) ∧
    Machine.Num.lt a b = decide (A < B) ∧ Machine.Num.eq a b = decide (A = B) ∧
    Machine.Num.fma a b (.inf z) = .inf z ∧ Machine.Num.add (.inf x) b = .inf x ∧ Machine.Num.add a (.inf y) = .inf y ∧
    Machine.Num.add (.inf x) (.inf y) = (if x = y then .inf x else .nan true) ∧
    Machine.Num.mul (.inf x) b = (if n = 0 then .nan true else .inf (x != y)) ∧
    Machine.Num.mul a (.inf y) = (if m = 0 then .nan true else .inf (x != y)) ∧
    Machine.Num.mul (.inf x) (.inf y) = .inf (x != y) ∧
    Machine.Num.lt (.inf x) b = x ∧ Machine.Num.lt a (.inf y) = !y ∧ Machine.Num.lt (.inf x) (.inf y) = (x && !y) ∧
    Machine.Num.eq (.inf x) b = false ∧ Machine.Num.eq a (.inf y) = false ∧ Machine.Num.eq (.inf x) (.inf y) = (x == y)) ∧
  (∀ a b c : Num.Val,
    (a.isNan = true ∨ b.isNan = true → Machine.Num.add a b = .nan (a.snan || b.snan) ∧ Machine.Num.mul a b = .nan (a.snan || b.snan) ∧
      Machine.Num.fma a b c = .nan (a.snan || b.snan || c.snan) ∧ Machine.Num.lt a b = false ∧ Machine.Num.eq a b = false) ∧
    (a.isNan = false → b.isNan = false →
      (Machine.Num.mul a b = .nan true → Machine.Num.fma a b c = .nan true) ∧
      (Machine.Num.mul a b ≠ .nan true → c.isNan = true → Machine.Num.fma a b c = .nan c.snan) ∧
      (∀ x, Machine.Num.mul a b = .inf x → c.isNan = false → Machine.Num.fma a b c = if c = .inf (!x) then .nan true else .inf x))) ∧
  ∀ (f : Nat) (mode : Num.Mode) (sn neg : Bool), f = 4 ∨ f = 5 →
    Machine.Num.roundFp f mode (.nan sn) = (if f = 4 then 0x7FC0 else 0x7FC00000, { inv := sn }) ∧
    Machine.Num.roundFp f mode (.inf neg) = ((if f = 4 then 0x7F80 else 0x7F800000) + if neg then (if f = 4 then 0x8000 else 0x80000000) else 0, {})

/-- R107: minimum and maximum of two patterns in BF16 (4) and FP32 (5). -/
def LeastAndGreatest : Prop :=
  ∀ (f x y : Nat), f = 4 ∨ f = 5 →
    let a := Machine.Num.value f x
    let b := Machine.Num.value f y
    let give := fun (lo hi : Nat) =>
      Machine.Num.minMax f false x y = (lo, { inv := a.snan || b.snan }) ∧ Machine.Num.minMax f true x y = (hi, { inv := a.snan || b.snan })
    let nan := if f = 4 then 0x7FC0 else 0x7FC00000
    (a.isNan = true → b.isNan = true → give nan nan) ∧
    (a.isNan = true → b.isNan = false → give y y) ∧
    (a.isNan = false → b.isNan = true → give x x) ∧
    (Machine.Num.lt a b = true → give x y) ∧ (Machine.Num.lt b a = true → give y x) ∧
    (∀ e e', a = .fin true 0 e → b = .fin false 0 e' → give x y) ∧
    (∀ e e', a = .fin false 0 e → b = .fin true 0 e' → give y x)

end Sys2Proof.Claims

/-- R103 to R113, R153: exact arithmetic (zeros, infinities, invalid operations, NaN, order, minimum and maximum) and rounding. Rounding gives back every number that its format holds, without a flag, in every mode; a NaN
becomes the canonical one, and INV says that it was signalling. A number between two neighbours of FP32, BF16, E4M3 or an integer format
gives the one that the mode chooses, with INX, and the overflow of the format where that is past its end: per mode in FP32 and BF16, ±448
with SAT in E4M3, the nearer end with SAT in an integer. E8M0 rounds to a power of two, a tie upward. TQNT's element is the nearest of the
grid of R153, a tie to even m. Two things are the model's: that the restore bit changes no value at eight planes (log 19), and that stochastic
rounding between the largest finite value and the next power of two draws as if that power were a value (log 101). -/
def Obligations.RoundingKeepsNumbers : Prop :=
  ExactRules ∧ LeastAndGreatest ∧
  (∀ (mode : Num.Mode) (neg : Bool) (m : Nat) (e : Int),
    let x : Num.Val := .fin neg m e
    let fp := fun (f p : Nat) (q : Int) (inf sign : Nat) =>
      let s := if neg then sign else 0
      Rounds q (magnitudeOf p) mode neg m e (Machine.Num.convert f mode x)
        (fun v => if v < inf then (v + s, {}) else (overflowOf mode neg inf + s, { inx := true }))
        (fun v => if v < inf then (v + s, { inx := true }) else (overflowOf mode neg inf + s, { inx := true }))
    let e4 := let s := if neg then 0x80 else 0
      Rounds (-9) (magnitudeOf 4) mode neg m e (Machine.Num.convert 6 mode x)
        (fun v => if v ≤ 0x7E then (v + s, {}) else (0x7E + s, { sat := true, inx := true }))
        (fun v => if v ≤ 0x7E then (v + s, { inx := true }) else (0x7E + s, { sat := true, inx := true }))
    let int := fun (f n : Nat) =>
      let whole := fun (v : Nat) => intBits n true (if neg then -(Int.ofNat v) else Int.ofNat v)
      Rounds 0 id mode neg m e (Machine.Num.convert f mode x) whole (fun v => ((whole v).1, (whole v).2.join { inx := true }))
    let e8 := ∀ k : Nat, 2 ^ k ≤ m → m < 2 ^ (k + 1) →
      let up := match mode with
        | .rne => 3 * 2 ^ k ≤ 2 * m
        | .rz | .rdn => False
        | .rup => m ≠ 2 ^ k
        | .rs u => u * 2 ^ k < (m - 2 ^ k) * 2 ^ 32
      let r := Machine.Num.convert 7 mode x
      (neg = true → r = (0xFF, { inv := true })) ∧
      (neg = false → ∀ b : Int, (up → b = Int.ofNat k + e + 128) → (¬up → b = Int.ofNat k + e + 127) →
        r = if b < 0 then (0, { sat := true, inx := true }) else if 254 < b then (0xFE, { sat := true, inx := true })
          else (b.toNat, { inx := decide (m ≠ 2 ^ k) }))
    fp 5 24 (-149) 0x7F800000 0x80000000 ∧ fp 4 8 (-133) 0x7F80 0x8000 ∧ e4 ∧ int 0 8 ∧ int 1 16 ∧ int 2 32 ∧ int 3 64 ∧ e8 ∧
    Machine.Num.convert 7 mode (.fin neg 0 e) = (0xFF, { inv := true })) ∧
  (∀ (mode : Num.Mode) (sn neg : Bool) (f : Nat), f ≤ 3 → let n := 8 * Machine.Num.size f
    Machine.Num.convert 6 mode (.nan sn) = (0x7F, { inv := sn }) ∧
    Machine.Num.convert 7 mode (.nan sn) = (0xFF, { inv := true }) ∧
    Machine.Num.convert f mode (.nan sn) = (0, { inv := true }) ∧
    Machine.Num.convert 4 mode (.inf neg) = (if neg then 0xFF80 else 0x7F80, {}) ∧
    Machine.Num.convert 5 mode (.inf neg) = (if neg then 0xFF800000 else 0x7F800000, {}) ∧
    Machine.Num.convert 6 mode (.inf neg) = (if neg then 0xFE else 0x7E, { sat := true, inx := true }) ∧
    Machine.Num.convert 7 mode (.inf neg) = (if neg then (0xFF, { inv := true }) else (0xFE, { sat := true, inx := true })) ∧
    Machine.Num.convert f mode (.inf neg) = (if neg then 2 ^ (n - 1) else 2 ^ (n - 1) - 1, { sat := true })) ∧
  (∀ (c : Nat) (rho sn neg : Bool) (m : Nat) (e : Int) (sc : Nat), 1 ≤ c → c ≤ 8 → sc < 256 →
    let y := e + 127 - Int.ofNat sc
    let k := min y (-1)
    let n : Int := (if neg then -1 else 1) * Int.ofNat (m * 2 ^ (y - k).toNat)
    let g := fun (i : Int) => (i * 2 ^ (9 - c) + (if rho = true ∧ c < 8 then 2 ^ (8 - c) else 0)) * 2 ^ (-1 - k).toNat
    let lo : Int := -(2 ^ (c - 1))
    let hi : Int := 2 ^ (c - 1) - 1
    let r := quantElem c rho (.fin neg m e) sc
    (sc < 255 → lo ≤ r.1 ∧ r.1 ≤ hi ∧
      (∀ i, lo ≤ i → i ≤ hi → (g r.1 - n).natAbs ≤ (g i - n).natAbs ∧ ((g i - n).natAbs = (g r.1 - n).natAbs → i ≠ r.1 → r.1 % 2 = 0)) ∧
      r.2 = { sat := decide (n < g lo ∨ g hi < n), inx := decide (g r.1 ≠ n) }) ∧
    quantElem c rho (.fin neg m e) 255 = (0, { inv := true }) ∧ quantElem c rho (.nan sn) sc = (0, { inv := true }) ∧
    (sc < 255 → quantElem c rho (.inf neg) sc = (if neg then lo else hi, { sat := true, inx := true }))) ∧
  ∀ (mode : Num.Mode) (v : Nat),
    (v < 2 ^ 32 → (Machine.Num.ofF32 v).isNan = false → Machine.Num.roundFp 5 mode (Machine.Num.value 5 v) = (v, {})) ∧
    (v < 2 ^ 16 → (Machine.Num.value 4 v).isNan = false → Machine.Num.roundFp 4 mode (Machine.Num.value 4 v) = (v, {})) ∧
    (v < 2 ^ 8 → (Machine.Num.ofE4 v).isNan = false → Machine.Num.roundE4 mode (Machine.Num.value 6 v) = (v, {})) ∧
    (v < 255 → Machine.Num.roundE8 mode (Machine.Num.value 7 v) = (v, {})) ∧
    (Machine.Num.ofF32 v).isNan = (bitsOf v 30 23 == 255 && bitsOf v 22 0 != 0) ∧
    ((Machine.Num.ofF32 v).isNan = true → Machine.Num.roundFp 5 mode (Machine.Num.value 5 v) = (0x7FC00000, { inv := !bitOf v 22 })) ∧
    ((Machine.Num.value 4 v).isNan = true → (Machine.Num.roundFp 4 mode (Machine.Num.value 4 v)).1 = 0x7FC0)

namespace Sys2Proof.Claims

/-- A matrix command may go ahead at once: the array is not suspect, the task holds a lease, and its grant is current (R163, R164, R181). -/
def MatrixReady (s : State) : Prop :=
  suspect s = false ∧ holdsLease s = true ∧ (s.cluster s.here).grant = some s.hart.id ∧ grantSpent s.clock s.hart = false

/-- What R166 asks of the fields of a ring definition and of its restore bit. -/
def RingFields (d : Word) (rs : Bool) : Prop :=
  let f := fun (hi lo : Nat) => bitsOf d.toNat hi lo
  let units := f 29 22 + 1
  f 47 36 = 0 ∧ f 60 48 = 0 ∧ f 21 13 = 0 ∧ f 62 61 ≠ 3 ∧ (f 62 61 = 0 → units % 2 = 0 ∧ units ≤ 128 ∧ rs = false) ∧
  (f 62 61 ≠ 0 → 64 ≤ units ∧ units % 32 = 0) ∧ f 12 0 + (f 35 30 + 1) * units ≤ 8192

/-- The range of a definition meets that of another valid ring of the cluster (R166). -/
def RangeTaken (c : Cluster) (i : Nat) (d : Word) : Prop :=
  let base := fun (w : Word) => bitsOf w.toNat 12 0
  let past := fun (w : Word) => base w + (bitsOf w.toNat 35 30 + 1) * (bitsOf w.toNat 29 22 + 1)
  ∃ k < 16, k ≠ i ∧ (c.ring k).defn.getLsbD 63 = true ∧ base d < past (c.ring k).defn ∧ base (c.ring k).defn < past d

/-- A copy of the task is filling ring n (R171, R172). -/
def RingFilling (s : State) (n : Nat) : Prop :=
  ∃ x ∈ (s.cluster s.here).copies, x.hart = s.hart.id ∧ (x.mode = .mr ∨ x.mode = .ur) ∧ x.dst.toNat = n

/-- The cluster's operand buffer is awake, and no poison and no error of the part stands in these bytes of it (R259). -/
def SlotClean (s : State) (a n : Nat) : Prop := s.here ∉ s.retained ∧ s.sram = [] ∧ ∀ x ∈ unitsOf 32 a n, (s.here, x) ∉ s.bufPoison

/-- The state after a product has read its two slots: the operand buffer has been accessed (R259). -/
def slotsRead (s : State) : State := noteUse [s.here] (noteUse [s.here] s)

/-- The task holds a lease of an array that is not suspect, but another context has the grant (R164). -/
def GrantElsewhere (s : State) : Prop :=
  suspect s = false ∧ holdsLease s = true ∧ ∃ o, (s.cluster s.here).grant = some o ∧ o ≠ s.hart.id

/-- The state in which the task has asked for a grant: its request stands behind those that wait already (R164). -/
def asksGrant (s : State) : State :=
  if s.hart.id ∈ (s.cluster s.here).requests ∨ s.hart.id ∈ (s.cluster s.here).batch then s
  else s.modCluster s.here fun c => { c with requests := c.requests ++ [s.hart.id] }

/-- The eight registers of an accumulator group are allocated, full and met by no injected fault (R172). -/
def GroupReady (s : State) (t : Bool) : Prop := Tiles s (groupRegs t) ∧ FullTiles s (groupRegs t) ∧ Quiet s

/-- The weights that a product uses: the pending ones, else the active ones (R171, R172). -/
def productWeights (s : State) : Option Weights := if s.hart.r.wpend.isSome then s.hart.r.wpend else s.hart.r.wact

/-- What a product reads: the A slot that is next and the weights' B slot, through k planes. -/
def planOf (s : State) (form : Form) (a b k : Nat) (w : Weights) : ProductPlan :=
  let c := s.cluster s.here
  { a := slotAddr (c.ring a).defn (c.ring a).next
    b := slotAddr (c.ring b).defn w.slot
    rows := ringSlot (c.ring a).defn / 512
    k := k
    restore := w.restore
    form := form }

/-- Where a product of this form may go ahead (R172, R175, R176). -/
def ProductReady (s : State) (form : Form) (t : Bool) (a b k : Nat) (w : Weights) : Prop :=
  let c := s.cluster s.here
  MatrixReady s ∧ GroupReady s t ∧ productWeights s = some w ∧ w.ring = b ∧ k ≤ w.planes ∧ ringBound s a = true ∧
  ringKind (c.ring a).defn = 0 ∧ ringBound s b = true ∧ (ringKind (c.ring b).defn = 1 ∨ ringKind (c.ring b).defn = 2) ∧
  (form = .table → ringSlot (c.ring a).defn / 512 ≤ 16) ∧ (∀ n, form = .hadamard n → rotation s.here = true) ∧
  (c.ring a).ready ≠ 0 ∧ (s.hart.wload = true → s.hart.r.wpend = none) ∧ 0 ≤ c.credit ∧
  SlotClean s (planOf s form a b k w).a (ringSlot (c.ring a).defn) ∧ SlotClean s (planOf s form a b k w).b (ringSlot (c.ring b).defn)

/-- The rings that a product names are bound and of their kinds (R172). -/
def ProductRings (s : State) (a b : Nat) : Prop :=
  let c := s.cluster s.here
  ringBound s a = true ∧ ringKind (c.ring a).defn = 0 ∧ ringBound s b = true ∧ (ringKind (c.ring b).defn = 1 ∨ ringKind (c.ring b).defn = 2)

/-- What a product does before its epilogue: the command is counted, the slot consumed, the sums clamped with SAT, the group empty with its new
shape, and the weights active. -/
def productStarts (form : Form) (t : Bool) (a b k : Nat) (w : Weights) (s : State) : State :=
  let m := (s.cluster s.here).opbuf
  let plan := planOf s form a b k w
  let out := productData m plan ((groupRegs t).map fun r => (s.tile r).data)
  let te := toggleEstimate m plan.a plan.b plan.rows k form
  (emptyGroup t (s.hart.issued + 1) (setFlags { sat := out.2 } (consumeSlot a (countCommand s)))).mod fun h =>
    { h with issued := h.issued + 1, toggles := te :: h.toggles, wload := false, r := { h.r with wact := some w, wpend := none } }

/-- The product goes to the residue check with what its group will hold, and its toggle estimate is charged (R180, R183). -/
def productHands (form : Form) (t : Bool) (a b k : Nat) (w : Weights) (s : State) (cleared : Bool) (u : State) : State :=
  let m := (s.cluster s.here).opbuf
  let plan := planOf s form a b k w
  let te := toggleEstimate m plan.a plan.b plan.rows k form
  let p : Product :=
    { hart := u.hart.id
      cap := u.hart.cap
      no := u.hart.issued
      group := if t then 8 else 0
      live := true
      data := if cleared then List.replicate 8 [] else (productData m plan ((groupRegs t).map fun r => (s.tile r).data)).1 }
  u.modCluster u.here fun c => { c with products := c.products ++ [p], credit := c.credit - Int.ofNat te, demand := c.demand + te }

end Sys2Proof.Claims

/-- R162 to R171, R177, R178, R182: the matrix commands beside the products, with the RING_STATE of MRDEF and MLDW, and the requests for and
waits on a grant. What an epilogue does to each element is in `ProductElements`. MEPI waits for a group that is not full, in a wait that
is no safe point (R173). That MREL outside a task ends the lease at once is the model's (log 17); that the areas of the epilogue meet where the
bytes of their rows do is another choice (log 138). -/
def Obligations.MatrixCommands : Prop :=
  ∀ (d a b : SReg) (y : TReg) (w v t : Bool) (n : BitVec 4) (k : BitVec 3) (c : BitVec 7) (q : BitVec 6) (s : State), Room s → Full s [a, b] →
    let mask := (s.sreg a).toNat % 65536
    let faults := fun (i : Instr) (x : Code) => ∃ r : Option Word, exec i s = .next (raise { word := wordOf i } x r s)
    let cl := s.cluster s.here
    let held := leaseHeld s.hart.lease = true
    let i := (s.sreg b).toNat % 16
    let rs := (s.sreg b).getLsbD 4
    let def_ := s.sreg a
    let ring := cl.ring n.toNat
    let planes := k.toNat + 1
    (mask = 0 → faults (.mlease a w) .matrixState) ∧
    (mask ≠ 0 → held → holdsLease s = true ∧ leaseMask s.hart.lease = mask → exec (.mlease a w) s = .next (retire s)) ∧
    (mask ≠ 0 → held → ¬(holdsLease s = true ∧ leaseMask s.hart.lease = mask) → faults (.mlease a w) .matrixState) ∧
    (mask ≠ 0 → ¬held → ringsFree cl mask = true → exec (.mlease a w) s = .next (retire (bindRings s.here s.hart.id mask s)) ∧
      (bindRings s.here s.hart.id mask s).hart.lease = BitVec.ofNat 128 (mask * 2 ^ 112 + 1)) ∧
    (mask ≠ 0 → ¬held → ringsFree cl mask = false → exec (.mlease a w) s =
      .next (block .lease (awaitLease (BitVec.ofNat 16 (s.sreg a).toNat) s))) ∧
    (holdsLease s = true → s.hart.kind = .task → exec .mrel s = .next (retire (pushEffect .mrel s))) ∧
    (holdsLease s = true → s.hart.kind ≠ .task → exec .mrel s = .next (retire (endLease s))) ∧
    (holdsLease s = false → exec .mrel s = .next (retire s)) ∧
    (holdsLease s = false → faults (.mrdef a b w v) .matrixState) ∧
    (holdsLease s = true →
      (bitOf (leaseMask s.hart.lease) i = false ∨ 32 ≤ (s.sreg b).toNat ∨ ringBusy s i = true → faults (.mrdef a b w v) .ringState) ∧
      (def_.getLsbD 63 = true → ¬RingFields def_ rs ∨ RangeTaken cl i def_ → faults (.mrdef a b w v) .ringState)) ∧
    (holdsLease s = true → bitOf (leaseMask s.hart.lease) i = true → (s.sreg b).toNat < 32 → ringBusy s i = false →
      (def_.getLsbD 63 = false → exec (.mrdef a b w v) s =
        .next (retire (setRstr i false (modRing s.here i (fun r => { r with defn := 0, filled := 0, taken := 0 }) s)))) ∧
      (def_.getLsbD 63 = true → RingFields def_ rs → ¬RangeTaken cl i def_ → exec (.mrdef a b w v) s =
        .next (retire (setRstr i rs (modRing s.here i (fun r => { r with defn := def_, filled := 0, taken := 0 }) s))))) ∧
    (let k := mask % 16
     let r := cl.ring k
     let known := leaseHeld s.hart.lease = true ∧ bitOf (leaseMask s.hart.lease) k = true ∧ r.defn.getLsbD 63 = true
     ∃ q : Word, exec (.mrq d a w) s = .next (retire (writeS d q s)) ∧ (¬known → q = 0) ∧ (known → r.ready ≤ 64 → r.next < 64 →
       let f := fun (hi lo : Nat) => bitsOf q.toNat hi lo
       let g := fun (hi lo : Nat) => bitsOf r.defn.toNat hi lo
       q.getLsbD 63 = true ∧ f 62 61 = g 62 61 ∧ q.getLsbD 60 = bitOf (leaseRstr s.hart.lease) k ∧ (q.getLsbD 59 = true ↔ RingFilling s k) ∧
       f 58 56 = 0 ∧ f 55 48 = r.ready ∧ f 47 42 = g 47 42 ∧ f 41 36 = r.next ∧ f 35 30 = g 35 30 ∧ f 29 22 = g 29 22 ∧ f 21 13 = 0 ∧
       f 12 0 = g 12 0)) ∧
    (let x : Weights :=
        { ring := n.toNat
          slot := ring.next
          planes := planes
          restore := bitOf (leaseRstr s.hart.lease) n.toNat }
     let loads := fun (g : State) => exec (.mldw n k) s = .next (retire ((consumeSlot n.toNat (countCommand g)).mod fun h =>
        { h with wload := true, r := { h.r with wpend := some x } }))
     let may := ringBound s n.toNat = true ∧ ringKind ring.defn ≠ 0 ∧ planes ≤ ringSlot ring.defn / 8192
     (MatrixReady s → may → ring.ready ≠ 0 → loads s) ∧
     (MatrixReady s → may → ring.ready = 0 → RingFilling s n.toNat → exec (.mldw n k) s = .next (block .slot s)) ∧
     (suspect s = false → holdsLease s = true → ¬(may ∧ (ring.ready ≠ 0 ∨ RingFilling s n.toNat)) → faults (.mldw n k) .ringState) ∧
     (suspect s = false → holdsLease s = false → faults (.mldw n k) .matrixState) ∧
     (GrantElsewhere s → may → ring.ready ≠ 0 → exec (.mldw n k) s = .next (block .grant (asksGrant s))) ∧
     (suspect s = false → holdsLease s = true → cl.grant = none → cl.batch = [] → cl.requests = [] → (∀ h ∈ s.parked, h.id ≠ s.hart.id) →
        may → ring.ready ≠ 0 → ∃ g : State, loads g ∧ (g.cluster g.here).grant = some s.hart.id ∧ leaseGrant g.hart.lease = true ∧
          leaseCmd g.hart.lease = 64 ∧ g.hart.grantAt = s.clock ∧ g.hart.r = s.hart.r ∧ g.hart.chunk = s.hart.chunk ∧ g.mem = s.mem)) ∧
    (suspect s = true → faults (.mldw n k) .matrixCheck ∧ (Tiles s (y :: groupRegs t) → FullTiles s (y :: groupRegs t) → Quiet s →
      faults (.mepi t y c q) .matrixCheck)) ∧
    (MatrixReady s → GroupReady s t → TilesReady s [y] [y] → y ∉ groupRegs t →
      let p := (s.tile y).data
      epilogueCheck p (q.toNat + 1) (c.toNat + 1) s = .ok () → runningFull p (q.toNat + 1) (c.toNat + 1) s = .ok () →
      ∀ u, runEpilogue p ((groupRegs t).map fun r => (s.tile r).data) (q.toNat + 1) (c.toNat + 1) (countCommand s) = .ok u →
        exec (.mepi t y c q) s = .next (retire (if epcClr (p.readLE 0x380 8) then
          (groupRegs t).foldl (fun x r => writeT r [] (x.tile r).shape x) u else u))) ∧
    (Tiles s (y :: groupRegs t) → TilesReady s [y] [y] → ∀ us r vs, groupRegs t = us ++ r :: vs → FullTiles s us → (s.tile r).full = false →
      exec (.mepi t y c q) s = .next (block (.group r) s) ∧ (Wait.group r).safe = false) ∧
    (GrantElsewhere s → GroupReady s t → TilesReady s [y] [y] → y ∉ groupRegs t → epilogueCheck (s.tile y).data (q.toNat + 1) (c.toNat + 1) s = .ok () →
      exec (.mepi t y c q) s = .next (block .grant (asksGrant s))) ∧
    (uncheckedProducts s = false → exec (.mchk d) s = .next (retire (writeS d
      (word (s.hart.checked % 2 ^ 32 + Nat.min 0xFFFF (mismatchWindow s s.here).length * 2 ^ 32)) s))) ∧
    (uncheckedProducts s = true → exec (.mchk d) s = .next (block .products s) ∧ exec .mdrain s = .next (block .products s)) ∧
    (uncheckedProducts s = false → s.hart.wload = false → exec .mdrain s = .next (retire s))

/-- R172 to R176, R179, R183: the ten products. The group is empty with shape 0x2FFF until the residue check has passed; with an epilogue,
the sums go through it at once. Their faults in the order of R172, the wait for a group that is not full, and the request for a grant. -/
def Obligations.MatrixProducts : Prop :=
  ∀ (t : Bool) (a b : BitVec 4) (k : BitVec 3) (w : Weights) (s : State), Room s →
    let y := paramTile t
    let p := (s.tile y).data
    let g := slotsRead s
    let plain := fun (i : Instr) (f : Form) => ProductReady s f t a.toNat b.toNat (k.toNat + 1) w →
      exec i s = .next (retire (productHands f t a.toNat b.toNat (k.toNat + 1) w g false (productStarts f t a.toNat b.toNat (k.toNat + 1) w g)))
    let fused := fun (i : Instr) (f : Form) => ProductReady s f t a.toNat b.toNat (k.toNat + 1) w → TilesReady s [y] [y] →
      let plan := planOf s f a.toNat b.toNat (k.toNat + 1) w
      epilogueCheck p plan.rows 128 s = .ok () → runningFull p plan.rows 128 s = .ok () →
      ∀ u, runEpilogue p (productData (s.cluster s.here).opbuf plan ((groupRegs t).map fun r => (s.tile r).data)).1 plan.rows 128
          (productStarts f t a.toNat b.toNat (k.toNat + 1) w g) = .ok u →
        exec i s = .next (retire (productHands f t a.toNat b.toNat (k.toNat + 1) w g (epcClr (p.readLE 0x380 8)) u))
    let fails := fun (i : Instr) (x : Code) => ∃ r : Option Word, exec i s = .next (raise { word := wordOf i } x r s)
    let ring := (s.cluster s.here).ring a.toNat
    let rows := ringSlot ring.defn / 512
    let weighted := ∃ x, productWeights s = some x ∧ x.ring = b.toNat ∧ k.toNat + 1 ≤ x.planes
    let stops := fun (i : Instr) (f : Form) (named : List TReg) (epilogue : Prop) =>
      let sized := f = .table → rows ≤ 16
      ((∃ n, f = .hadamard n) → rotation s.here = false → fails i .noRotation) ∧
      ((∀ n, f = .hadamard n → rotation s.here = true) → Tiles s (groupRegs t) → TilesReady s named named →
        (suspect s = true → fails i .matrixCheck) ∧ (suspect s = false → holdsLease s = false → fails i .matrixState) ∧
        (suspect s = false → holdsLease s = true →
          (¬(ProductRings s a.toNat b.toNat ∧ sized) → fails i .ringState) ∧
          (ProductRings s a.toNat b.toNat → sized → ¬weighted → fails i .matrixState) ∧
          (ProductRings s a.toNat b.toNat → sized → weighted → epilogue →
            (ring.ready = 0 → ¬RingFilling s a.toNat → fails i .ringState) ∧
            (ring.ready ≠ 0 → ∀ us r vs, groupRegs t = us ++ r :: vs → FullTiles s us → (s.tile r).full = false →
              exec i s = .next (block (.group r) s)) ∧
            (ring.ready ≠ 0 → FullTiles s (groupRegs t) → GrantElsewhere s → exec i s = .next (block .grant (asksGrant s))))))
    let checked := epilogueCheck p rows 128 s = .ok ()
    stops (.mma t a b k) .plain [] True ∧ stops (.mmal t a b k) .table [] True ∧ stops (.mmah16 t a b k) (.hadamard 16) [] True ∧
    stops (.mmah32 t a b k) (.hadamard 32) [] True ∧ stops (.mmah64 t a b k) (.hadamard 64) [] True ∧ stops (.mmae t a b k) .plain [y] checked ∧
    stops (.mmaeL t a b k) .table [y] checked ∧ stops (.mmaeH16 t a b k) (.hadamard 16) [y] checked ∧
    stops (.mmaeH32 t a b k) (.hadamard 32) [y] checked ∧ stops (.mmaeH64 t a b k) (.hadamard 64) [y] checked ∧
    plain (.mma t a b k) .plain ∧ plain (.mmal t a b k) .table ∧ plain (.mmah16 t a b k) (.hadamard 16) ∧
    plain (.mmah32 t a b k) (.hadamard 32) ∧ plain (.mmah64 t a b k) (.hadamard 64) ∧ fused (.mmae t a b k) .plain ∧
    fused (.mmaeL t a b k) .table ∧ fused (.mmaeH16 t a b k) (.hadamard 16) ∧ fused (.mmaeH32 t a b k) (.hadamard 32) ∧
    fused (.mmaeH64 t a b k) (.hadamard 64)

namespace Sys2Proof.Claims

/-- R178: the roundings of one element in their order: its running value, its output value, and the flags of both. -/
def epilogueChain (p : Memory) (i j : Nat) (acc : Int) (run : Nat) : (Nat × Nat) × Flags :=
  let e := p.readLE 0x380 8
  let v := Machine.Num.ofF32
  let r := Machine.Num.roundFp 5 .rne
  let a := r (Machine.Num.mul (Machine.Num.ofInt acc) (v (p.readLE (4 * i) 4)))
  let sb := (p.read (0x100 + j)).toNat
  let b := if sb = 255 then (0x7FC00000, ({} : Flags)) else r (Machine.Num.mul (v a.1) (.fin false 1 (Int.ofNat sb - 127)))
  let y := if bitOf e 13 then (b.1, ({} : Flags)) else r (Machine.Num.add (v b.1) (v run))
  let c := if bitOf e 12 then r (Machine.Num.add (v y.1) (v (p.readLE (0x180 + 4 * j) 4))) else (y.1, ({} : Flags))
  let d := match bitsOf e 11 10 with
    | 1 => r (Machine.Num.relu (v c.1))
    | 2 => r (Machine.Num.gelu (v c.1))
    | _ => (c.1, ({} : Flags))
  let z := match bitsOf e 9 8 with
    | 0 => (d.1, ({} : Flags))
    | 1 => Machine.Num.roundFp 4 .rne (v d.1)
    | _ => Machine.Num.roundE4 .rne (v d.1)
  let first := (a.2.join b.2).join y.2
  ((y.1, z.1), if bitOf e 15 then ((first.join c.2).join d.2).join z.2 else first)

/-- R177, R178: the elements of an epilogue of a task. Where the chunk has room for its sectors it runs to its end; every running word and,
with FINAL, every output element holds its value of the chain, as the task reads its scratchpad; the rest of the scratchpad is as
before, and FLG gains the flags of every element. -/
def EpilogueElements : Prop :=
  ∀ (p : Memory) (data : List Memory) (rows cols : Nat) (s : State), s.hart.kind = .task → cols ≤ 128 → rows ≤ 64 → Quiet s → s.sram = [] →
    (∀ x, (s.hart.core, x) ∉ s.padPoison) → epilogueCheck p rows cols s = .ok () →
    let e := p.readLE 0x380 8
    let size := match bitsOf e 9 8 with
      | 0 => 4
      | 1 => 2
      | _ => 1
    let run := fun i j => bitsOf e 47 32 + 512 * i + 4 * j
    let out := fun i j => bitsOf e 63 48 + 128 * size * i + size * j
    let pad := fun (x : State) (a n : Nat) => leNat ((List.range n).map fun k => viewPad x (a + k))
    let value := fun i j => epilogueChain p i j (Machine.Num.toSigned 32 (groupElem data i j)) (pad s (run i j) 4)
    let sectors := ((List.range rows).map fun i => unitsOf 32 (run i 0) (4 * cols) ++
      if bitOf e 15 = true then unitsOf 32 (out i 0) (size * cols) else []).flatten
    s.hart.chunk.sectors.length + s.hart.chunk.padSectors.length + sectors.length ≤ 4096 →
    ∃ u, runEpilogue p data rows cols s = .ok u ∧
      (∀ i j, i < rows → j < cols → pad u (run i j) 4 = (value i j).1.1 ∧ (bitOf e 15 = true → pad u (out i j) size = (value i j).1.2)) ∧
      (∀ a, (∀ i < rows, ¬(run i 0 ≤ a ∧ a < run i 0 + 4 * cols)) → (bitOf e 15 = true → ∀ i < rows, ¬(out i 0 ≤ a ∧ a < out i 0 + size * cols)) →
        viewPad u a = viewPad s a) ∧
      (∀ n : Nat, u.hart.r.flg.getLsbD n = true ↔
        s.hart.r.flg.getLsbD n = true ∨ ∃ i j, i < rows ∧ j < cols ∧ (orFlags 0 (value i j).2).getLsbD n = true) ∧
      (∀ r, u.tile r = s.tile r) ∧ (∀ r, u.sreg r = s.sreg r) ∧ u.mem = s.mem ∧ u.cores = s.cores ∧ u.hart.lease = s.hart.lease

/-- R178: ReLU on every number, and what GELU-tanh gives beside finite values other than zero; there its value is the exact one, or one
beside it that is meant to round as it does (log 18). -/
def Activations : Prop :=
  (∀ v < 2 ^ 32, Machine.Num.roundFp 5 .rne (Machine.Num.relu (Machine.Num.ofF32 v)) =
    if (Machine.Num.ofF32 v).isNan then (0x7FC00000, { inv := !bitOf v 22 }) else if bitOf v 31 then (0, {}) else (v, {})) ∧
  Machine.Num.gelu (.inf false) = .inf false ∧ Machine.Num.gelu (.inf true) = .fin true 0 0 ∧ (∀ sn, Machine.Num.gelu (.nan sn) = .nan sn) ∧
  ∀ neg e, Machine.Num.gelu (.fin neg 0 e) = .fin neg 0 e

end Sys2Proof.Claims

/-- R174, R120: the elements of a product's group. Below the row count each is the old INT32 value plus the exact sum over the 512
activations and weights, clamped to 32 bits; rows past it keep their value; SAT says that a clamp happened. R177, R178: the elements of an
epilogue, and its activations; GELU-tanh is taken from a fixed-point series (log 18). -/
def Obligations.ProductElements : Prop :=
  EpilogueElements ∧ Activations ∧
  ∀ (m : Memory) (p : ProductPlan) (old : List Memory), p.rows ≤ 64 → old.length = 8 → (∀ x ∈ old, x.wf = true) →
    let row := fun i => formRow p.form ((List.range 512).map fun kk => activation m p.a i kk)
    let sum := fun i j => Machine.Num.toSigned 32 (groupElem old i j) +
      ((List.range 512).map fun kk => (row i).getD kk 0 * weightAt m p.b p.k p.restore kk j).sum
    let clamp := fun (x : Int) => if x < -(2 ^ 31) then -(2 ^ 31) else if 2 ^ 31 ≤ x then 2 ^ 31 - 1 else x
    let out := productData m p old
    out.1.length = 8 ∧
    (∀ i j, i < p.rows → j < 128 → groupElem out.1 i j = (clamp (sum i j) % 2 ^ 32).toNat) ∧
    (∀ i j, p.rows ≤ i → i < 64 → j < 128 → groupElem out.1 i j = groupElem old i j) ∧
    (out.2 = true ↔ ∃ i j, i < p.rows ∧ j < 128 ∧ clamp (sum i j) ≠ sum i j)

/-- R132, R133, R136 to R138: the copy instructions. The control word, the operands and the mode are checked, then the copy waits for its
channel, and a copy-in for the task's other one; a copy-in starts at issue, with its regions held and its words empty, and a copy-out is buffered
as one outgoing message. The channel queries: another capsule's channel reads as WP 0 and idle. That the checks come before the waits is the
model's (log 144). -/
def Obligations.CopyResults : Prop :=
  ∀ (d a b : SReg) (w v : Bool) (s : State), Room s → Full s [d, a, b] →
    let ctl := s.sreg d
    let src := s.sreg a
    let dst := s.sreg b
    let e := 2 ^ bitsOf ctl.toNat 11 8
    let n := bitsOf ctl.toNat 43 12 * e
    let formed := bitsOf ctl.toNat 63 44 = 0 ∧ bitsOf ctl.toNat 7 4 = 0 ∧ bitsOf ctl.toNat 43 12 ≠ 0 ∧ bitsOf ctl.toNat 11 8 ≤ 13
    let pad := fun (x : Word) => x.toNat % Nat.min e 8 = 0 ∧ x.toNat + n ≤ 65536
    let mem := fun (x : Word) => x.toNat % 2 ^ 56 % Nat.min e 256 = 0
    let ring := (s.cluster s.here).ring dst.toNat
    let whole := dst.toNat < 16 ∧ ringBound s dst.toNat = true ∧ n % ringSlot ring.defn = 0
    let busy := fun (t : State) => ((t.cluster t.here).chan (ctl.toNat % 16)).copy.isSome = true ∨ ∃ x ∈ (t.cluster t.here).copyWait, x.chan = ctl.toNat % 16
    let starts := fun (i : Instr) (m : CopyMode) (pa : Nat) (t : State) =>
      let c := newCopy m ctl src dst pa t
      awaitsAnswer t c = false → (copyWaits t c = .ok () → exec i s = .next (retire (startCopy t.here c t))) ∧
        (busy t → exec i s = .next (block (.channel (ctl.toNat % 16)) t)) ∧ (¬busy t → t.copyIn.isSome = true → exec i s = .next (block .copyIn t))
    let leaves := fun (i : Instr) (m : CopyMode) (pa : Nat) (t : State) =>
      let c := newCopy m ctl src dst pa t
      (copyWaits t c = .ok () → OutRoom t → exec i s = .next (retire (pushEffect (.copyOut c) t))) ∧
        (busy t → exec i s = .next (block (.channel (ctl.toNat % 16)) t))
    let x := (s.sreg a).toNat
    let ch := (s.cluster s.here).chan (x % 16)
    let mine := s.hart.kind = .task ∧ ch.cap = some s.hart.cap
    let goes := ¬mine ∨ ch.copy = none ∨ (s.sreg b).toNat ≤ ch.wp.toNat
    (mine → exec (.cpywp d a w) s = .next (retire (writeS d ch.wp s))) ∧
    (¬mine → exec (.cpywp d a w) s = .next (retire (writeS d 0 s))) ∧
    (goes → exec (.cwait a b w v) s = .next (retire s)) ∧
    (¬goes → exec (.cwait a b w v) s = .next (block (.channel (x % 16)) s)) ∧
    (x < 65536 → exec (.own d a w) s = .next (retire (writeS d (oneIf (x / 256 ∈ (s.core s.hart.core).held)) s))) ∧
    (65536 ≤ x → ∃ r : Option Word, exec (.own d a w) s = .next (raise { word := wordOf (.own d a w) } .windowIndex r s)) ∧
    (¬formed → ∀ i ∈ [Instr.cpyMs d a b w v, .cpySm d a b w v, .cpyMr d a b w v, .cpyUr d a b w v, .cpyEs d a b w v, .cpySe d a b w v],
      ∃ r : Option Word, exec i s = .next (raise { word := wordOf i } .copyFormat r s)) ∧
    (formed →
      (∀ pa t, mem src → pad dst → reachTask src n .copySrc s = .ok (pa, t) → starts (.cpyMs d a b w v) .ms pa t) ∧
      (∀ pa t, pad src → mem dst → reachTask dst n .copyDst s = .ok (pa, t) → leaves (.cpySm d a b w v) .sm pa t) ∧
      (∀ pa t, mem src → whole → ringKind ring.defn ≤ 1 → reachTask src n .copySrc s = .ok (pa, t) → starts (.cpyMr d a b w v) .mr pa t) ∧
      (∀ pa t, mem src → whole → ringKind ring.defn = 2 → reachTask src n .unseal s = .ok (pa, t) → starts (.cpyUr d a b w v) .ur pa t) ∧
      (∀ x : Extent, pad dst → s.extents[src.toNat / 2 ^ 56]? = some x → x.kind = 5 → x.base / 2 ^ 60 % 16 = 3 → starts (.cpyEs d a b w v) .es x.base s) ∧
      (∀ x : Extent, pad src → s.extents[dst.toNat / 2 ^ 56]? = some x → x.kind = 5 → x.base / 2 ^ 60 % 16 = 3 → leaves (.cpySe d a b w v) .se x.base s))

/-- R50, R213, R215, R216, R220: system registers, MSTAT, SEALQ and TRAP. A number that names no register of the access is ILLEGAL, whoever
names it, and no word decodes to it; a service register that it names is PRIVILEGED outside firmware. A TRAP below 0x8000 is the fault TRAP
with its code. That the security core is PRIVILEGED too for a service register is the model's (log 116). A TRAP at or above 0x8000 is a service request: PRIVILEGED on a tile core; a migrated task hands it over with its chunk open, and
goes on at the next instruction when the firmware is done. The results in s1 to s6 are free (log 7), when they come is free (log 78), and
firmware that issues one serves itself (log 17). -/
def Obligations.SystemRegisters : Prop :=
  ∀ (d a : SReg) (n c : BitVec 16) (s : State), Room s → Full s [a] →
    let x := s.sreg a
    let cl := s.cluster s.here
    let fw := s.hart.kind = .firmware
    let reads := fun (v : Word) => exec (.sysrd d n) s = .next (retire (writeS d v s))
    let writes := fun (t : State) => exec (.syswr a n) s = .next (retire t)
    let faults := fun (i : Instr) (k : Code) => ∃ r : Option Word, exec i s = .next (raise { word := wordOf i } k r s)
    let mayRead := n.toNat ≤ 8 ∨ n.toNat ∈ [0x8000, 0x8001, 0x8002, 0x8003, 0x8010, 0x8020, 0x8021, 0x8030]
    let mayWrite := n.toNat ∈ [0, 0x8000, 0x8001, 0x8010, 0x8020, 0x8021, 0x8030]
    let refused := fun (i : Instr) => ∀ w k, decodeWord w = .ok k → k ≠ i
    (n = 0 → settledFlg s = .ok () → reads s.hart.r.flg ∧ writes (s.modRegs fun r => { r with flg := x &&& 0xF })) ∧
    (n = 1 → reads s.hart.ranks) ∧
    (n = 2 → reads (word (leaseNow s.clock s.hart).toNat)) ∧
    (n = 3 → reads (word ((leaseNow s.clock s.hart).toNat / 2 ^ 64))) ∧
    (n = 4 → s.hart.partner.bind s.hart? = none → reads s.now) ∧
    (n = 5 → reads (word (s.hart.core % 4096 + s.partition % 16 * 65536))) ∧
    (n = 6 → (∀ k, s.capsule = some k → reads k.nonce) ∧ (s.capsule = none → reads 0)) ∧
    (n = 7 → reads (word s.hart.sdist)) ∧
    (n = 8 → reads (oneIf (preemptPending s = true))) ∧
    (n = 0x8000 → fw → reads cl.fwvec ∧ writes (s.modCluster s.here fun k => { k with fwvec := x })) ∧
    (n = 0x8001 → fw → reads cl.fwcode ∧ writes (s.modCluster s.here fun k => { k with fwcode := x &&& 0xFFFF })) ∧
    (n = 0x8002 → fw → reads cl.fwpc ∧ faults (.syswr a n) .illegal) ∧
    (n = 0x8003 → fw → reads cl.fwdetail ∧ faults (.syswr a n) .illegal) ∧
    (n = 0x8010 → fw → reads cl.mmuctl ∧ writes (s.modCluster s.here fun k => { k with mmuctl := x &&& 1 })) ∧
    (n = 0x8020 → fw → reads cl.diagstat ∧ writes (s.modCluster s.here fun k => { k with diagstat := x })) ∧
    (n = 0x8021 → fw → reads cl.summary ∧ writes (deliverSummary s.here x s)) ∧
    (n = 0x8030 → fw → reads cl.clstat ∧ writes (wakeFootprint s.here (s.modCluster s.here (writeClstat x)))) ∧
    (0x8000 ≤ n.toNat → mayRead → ¬fw → faults (.sysrd d n) .privileged) ∧
    (0x8000 ≤ n.toNat → mayWrite → ¬fw → faults (.syswr a n) .privileged) ∧
    (¬mayWrite → faults (.syswr a n) .illegal ∧ refused (.syswr a n)) ∧
    (¬mayRead → faults (.sysrd d n) .illegal ∧ refused (.sysrd d n)) ∧
    (n = 0 → ∀ h, settledFlg s = .error (.wait .flags h) → exec (.sysrd d n) s = .next (block .flags s) ∧ exec (.syswr a n) s = .next (block .flags s)) ∧
    (n = 4 → ∀ p, s.hart.partner.bind s.hart? = some p →
      exec (.sysrd d n) s = .next (retire (writeS d ((p.times[s.hart.times.length]?).getD s.now)
        (s.mod fun h => { h with times := h.times ++ [(p.times[s.hart.times.length]?).getD s.now] })))) ∧
    (exec (.mstat d) s = .next (retire (writeS d (word ((if s.here % 4 = 0 then 1 else 0) + bitsOf cl.clstat.toNat 1 0 * 2 +
      cl.share % 65536 * 65536 + Nat.min 0xFFFF (mismatchWindow s s.here).length * 2 ^ 32)) s))) ∧
    exec (.sealq d a) s = .next (retire (writeS d (sealState (x.toNat / 2 ^ 56) s) s)) ∧
    (let at_ := x.toNat / 2 ^ 56
     let ring := ∃ i < 16, bitOf (leaseMask s.hart.lease) i = true ∧ (cl.ring i).defn.getLsbD 63 = true ∧ bitsOf (cl.ring i).defn.toNat 62 61 = 2
     let keyed := fun (e : Extent) => e.kind = 3 ∧ ∃ k ∈ cl.keys, k.hart = s.hart.id ∧ k.wrapped = (sealOf s e.base).1.readBytes 0 40
     (s.extents.length ≤ at_ → sealState at_ s = 0) ∧
     ∀ e : Extent, s.extents[at_]? = some e → ∃ k r : Nat, (keyed e → k = 1) ∧ (¬keyed e → k = 0) ∧
       (holdsLease s = true ∧ ring → r = 1) ∧ (¬(holdsLease s = true ∧ ring) → r = 0) ∧
       sealState at_ s = word (k * 4 + r * 2 + if e.kind = 3 then e.length / 65536 * 65536 + 1 else 0)) ∧
    (c.toNat < 0x8000 → exec (.trap c) s = .next (raise { word := wordOf (.trap c) } .trap (some (word c.toNat)) s)) ∧
    (0x8000 ≤ c.toNat → s.hart.kind = .task → s.hart.migrated = false → faults (.trap c) .privileged) ∧
    (let served := fun (t : State) => (∀ r : SReg, r.val = 0 ∨ 6 < r.val → t.sreg r = s.sreg r ∧ t.sfull r = s.sfull r) ∧
       (∀ r : SReg, 1 ≤ r.val → r.val ≤ 6 → t.sfull r = true) ∧ t.mem = s.mem ∧ t.hart.r.t = s.hart.r.t ∧ t.hart.r.pc = s.hart.r.pc ∧
       t.hart.chunk = s.hart.chunk
     (0x8000 ≤ c.toNat → s.hart.kind = .task → s.hart.migrated = true →
       exec (.trap c) s = .next (retire (s.mod fun h => { h with run := .serving }))) ∧
     (0x8000 ≤ c.toNat → s.hart.kind ≠ .task → ∃ t, exec (.trap c) s = .next (retire t) ∧ served t) ∧
     (s.hart.run = .serving → s.down = false → s.phase ≠ .fatal →
       turn s = .next (endService s) ∧
       (Config.freeBool s.fresh = true → served (endService s) ∧ (endService s).hart.run = .ready) ∧
       (Config.freeBool s.fresh = false → endService s = { s with fresh := s.fresh + 1 })))

namespace Sys2Proof.Claims

/-- R220, R221, R222, R314: the diagnostic window of firmware: which addresses are SEC_ADDR, and what DIAGRD reads and DIAGWR writes in each SPACE,
where no error of the part stands in the way. A scratchpad row that ordinary accesses reach holds its data with the word of scratchpad; that
the word has the row which `Config.padRow` gives it is the implementation's (log 10). A cluster of no partition logs in the package log
(log 61), and that a bound core which waits for a continuation alone is no busy one is the model's (log 153). -/
def DiagnosticWindow (d a : SReg) (s : State) : Prop :=
  let x := (s.sreg a).toNat
  let y := s.sreg d
  let here := s.here
  let c := s.cluster here
  let f := fun (hi lo : Nat) => bitsOf x hi lo
  let space := f 63 60
  let k := s.core (coreIn here (f 51 47))
  let row := f 51 47 < 31 ∧ (if f 16 16 = 1 then f 15 0 < 4 else f 15 0 < 512)
  let plain := f 52 52 = 0
  let ok := f 59 53 = 0 ∧ f 42 17 = 0 ∧ ((space ≤ 1 ∧ plain ∧ row) ∨ (space = 2 ∧ plain ∧ f 16 16 = 0 ∧ f 15 0 < 512) ∨ ((space = 4 ∨ space = 5) ∧ row) ∨
    (space = 6 ∧ plain ∧ f 51 47 = 0 ∧ f 16 16 = 0 ∧ f 15 0 < 8192))
  let key := rowKey (if space < 2 then space else f 52 52) (f 51 47) (f 46 43) (f 16 16) (f 15 0)
  let reads := fun (v : Word) (t : State) => exec (.diagrd d a) s = .next (retire (writeS d v t))
  let writes := fun (t : State) => exec (.diagwr d a) s = .next (retire t)
  let faults := fun (i : Instr) (code : Code) => ∃ r : Option Word, exec i s = .next (raise { word := wordOf i } code r s)
  let word8 := fun (m : Memory) (n : Nat) => word (m.readLE (8 * n) 8)
  let injected := fun (v : Word) => match c.inj with
    | some (at_, one, mask) => if at_ = key then (if one then v ||| mask else v &&& ~~~mask) else v
    | none => v
  let place := if space = 0 then padWordOf c.repair (f 51 47) (f 46 43) (f 16 16) (f 15 0) else none
  let busy := coreBusy s (coreIn here (f 51 47)) = true
  let index := f 15 0 * 512 + f 51 47 * 16 + f 46 43
  let held := (∃ h ∈ s.harts, clusterNo h.core = here ∧ leaseHeld h.lease = true) ∨ ∃ i : Fin 16, (c.ring i).scrub ≠ none
  let sealedWord := ∃ i : Fin 16, let r := (c.ring i).defn
    r.getLsbD 63 = true ∧ bitsOf r.toNat 62 61 = 2 ∧ ringBase r ≤ 8 * index ∧ 8 * index < ringBase r + ringCount r * ringSlot r
  (¬ok → faults (.diagrd d a) .secAddr ∧ faults (.diagwr d a) .secAddr) ∧
  (ok → space ≤ 1 →
    (busy → faults (.diagrd d a) .diagBusy ∧ faults (.diagwr d a) .diagBusy) ∧
    (¬busy →
      (∀ n, place = some n → reads (injected (word8 k.pad n)) s ∧ ∃ t, writes t ∧ t.hart = s.hart ∧ t.mem = s.mem ∧
        t.core (coreIn here (f 51 47)) = { k with pad := k.pad.writeLE (8 * n) 8 y.toNat }) ∧
      (place = none → reads (injected (word8 k.rows key)) s ∧ ∃ t, writes t ∧ t.hart = s.hart ∧ t.mem = s.mem ∧
        t.core (coreIn here (f 51 47)) = { k with rows := k.rows.writeLE (8 * key) 8 y.toNat }))) ∧
  (ok → space = 0 → f 16 16 = 0 → (∀ e ∈ c.repair.toList, bitOf e.toNat 31 = true → bitsOf e.toNat 25 25 = 0 → bitsOf e.toNat 30 26 = f 51 47 →
    bitsOf e.toNat 24 21 = f 46 43 → bitsOf e.toNat 18 10 ≠ f 15 0) →
    ∃ n : Fin 8192, place = some n.val ∧ (Config.padRow n).val = 512 * f 46 43 + f 15 0) ∧
  (ok → space = 0 → f 16 16 = 0 → (∃ e ∈ c.repair.toList, bitOf e.toNat 31 = true ∧ bitsOf e.toNat 25 25 = 0 ∧ bitsOf e.toNat 30 26 = f 51 47 ∧
    bitsOf e.toNat 24 21 = f 46 43 ∧ bitsOf e.toNat 18 10 = f 15 0) → place = none) ∧
  (ok → space = 2 →
    (held → faults (.diagwr d a) .diagBusy ∧ (¬sealedWord → faults (.diagrd d a) .diagBusy) ∧ (sealedWord → reads 0 (sealedDebug here s))) ∧
    (¬held → here ∉ s.retained →
      reads (word8 c.opbuf index) (noteUse [here] s) ∧ ∃ t, writes t ∧ t.hart = s.hart ∧ t.mem = s.mem ∧
        t.cluster here = { c with opbuf := c.opbuf.writeLE (8 * index) 8 y.toNat })) ∧
  (ok → space = 6 → reads 0 (sealedDebug here s) ∧ writes (sealedDebug here s)) ∧
  (ok → space = 4 ∨ space = 5 →
    (∀ at_ one mask, c.inj = some (at_, one, mask) → reads (if at_ = key then mask else 0) s) ∧ (c.inj = none → reads 0 s) ∧
    (y = 0 → writes (s.modCluster here fun q => { q with inj := none, diagstat := q.diagstat &&& ~~~2 })) ∧
    (y ≠ 0 → writes (s.modCluster here fun q => { q with inj := some (key, space == 5, y), diagstat := q.diagstat ||| 2 }))) ∧
  (let e : Event := { code := Code.sealedDebug.num, kind := 1, core := serviceCore here }
   let t := s.modCluster here fun q => { q with diagstat := q.diagstat ||| 1 }
   (∀ part, s.clusterPart here = some part → sealedDebug here s = t.logPart part e) ∧ (s.clusterPart here = none → sealedDebug here s = t.logPkg e)) ∧
  (∀ core : Nat, coreBusy s core = true ↔ (s.core core).clearing = true ∨ residents s core ≠ [] ∨ (s.core core).held ≠ [] ∨
    ((s.core core).cap ≠ none ∧ (s.core core).boundRec = []))

end Sys2Proof.Claims

/-- R220 to R224, R314 to R316: FREP, the diagnostic window, REPAIR, HALT, WFE and the MMU. The address of a row in scratchpad and tile
registers is the implementation's (log 10). That the security core is PRIVILEGED too for a P instruction (log 116), and that a WFE which returns
takes the doorbell (log 139), are the model's; `DiagnosticWindow` names its own (logs 10, 61 and 153). -/
def Obligations.ServiceInstructions : Prop :=
  ∀ (d a : SReg) (s : State), Full s [d, a, 0] →
    let x := s.sreg a
    let y := s.sreg d
    let cl := s.cluster s.here
    let mmu := fun (m : Memory) => s.modCluster s.here fun k => { k with mmu := m }
    let at_ := 16 * bitsOf x.toNat 7 0 + 8 * bitsOf x.toNat 8 8
    let faults := fun (i : Instr) (k : Code) => ∃ r : Option Word, exec i s = .next (raise { word := wordOf i } k r s)
    (∀ t, Room s → x.toNat % 64 = 0 → x.toNat + 512 ≤ 65536 → regionHeld x.toNat 512 s = false →
      storePad x.toNat (if bitsOf (s.sreg 0).toNat 58 57 = 0 then List.replicate 512 0 else s.hart.report.readBytes 0 512) s = .ok t →
      exec (.frep a) s = .next (retire t)) ∧
    (Room s → s.hart.kind ≠ .firmware → ∀ i ∈ [Instr.diagrd d a, .diagwr d a, .repair d a, .halt, .wfe, .mmurd d a, .mmuwr d a, .mmuinv a,
      .kwrap d a, .kunwrap d a, .kscrub a], faults i .privileged) ∧
    (s.hart.kind = .firmware →
      (∀ k v t, diagAddr x = some k → diagRead k s = .ok (v, t) → exec (.diagrd d a) s = .next (retire (writeS d v t))) ∧
      (∀ k t, diagAddr x = some k → diagWrite k y s = .ok t → exec (.diagwr d a) s = .next (retire t)) ∧
      (diagAddr x = none → faults (.diagrd d a) .secAddr ∧ faults (.diagwr d a) .secAddr) ∧
      (s.sram = [] → DiagnosticWindow d a s) ∧
      (let e := BitVec.ofNat 32 y.toNat
       x.toNat < 16 → bitsOf e.toNat 30 26 ≠ 31 → bitsOf e.toNat 9 0 = 0 →
       (∀ k < 16, k ≠ x.toNat → (Repair.of e).clash (Repair.of (cl.repair.get (Fin.ofNat 16 k))) = false) →
       exec (.repair d a) s = .next (retire (writeRepair s.here x.toNat e s)) ∧
       (writeRepair s.here x.toNat e s).cluster s.here = { cl with repair := setRepair cl.repair x.toNat e }) ∧
      (let e := BitVec.ofNat 32 y.toNat
       (16 ≤ x.toNat ∨ bitsOf e.toNat 30 26 = 31 ∨ bitsOf e.toNat 9 0 ≠ 0 → faults (.repair d a) .secAddr) ∧
       (x.toNat < 16 → bitsOf e.toNat 30 26 ≠ 31 → bitsOf e.toNat 9 0 = 0 →
        (∃ k < 16, k ≠ x.toNat ∧ (Repair.of e).clash (Repair.of (cl.repair.get (Fin.ofNat 16 k))) = true) → faults (.repair d a) .diagBusy)) ∧
      exec .halt s = .next (retire (s.mod fun h => { h with run := .halted })) ∧
      (wakeEvent s s.here = true → exec .wfe s = .next (retire (s.modCluster s.here fun k => { k with doorbell := false }))) ∧
      (wakeEvent s s.here = false → exec .wfe s = .next (retire (s.mod fun h => { h with run := .wfe }))) ∧
      exec (.mmurd d a) s = .next (retire (writeS d (word (cl.mmu.readLE at_ 8)) s)) ∧
      exec (.mmuwr d a) s = .next (retire (mmu (cl.mmu.writeLE at_ 8
        (y &&& if x.getLsbD 8 then 0x0000FFFFFFE00007 else 0x8000FFFFFFE00000).toNat))) ∧
      (cl.mmu.wf = true → ∃ m : Memory, exec (.mmuinv a) s = .next (retire (mmu m)) ∧ ∀ i < 256,
        m.readLE (16 * i) 8 = (if bitsOf (cl.mmu.readLE (16 * i) 8) 47 21 = bitsOf x.toNat 47 21
          then cl.mmu.readLE (16 * i) 8 % 2 ^ 63 else cl.mmu.readLE (16 * i) 8) ∧
        m.readLE (16 * i + 8) 8 = cl.mmu.readLE (16 * i + 8) 8))

/-- R224, R225: the key instructions of firmware and the crypto instructions of Saffron, whose ranges lie in the private SRAM. Four things are
the model's: that RNG completes in every state (log 45, R225 lets it wait), that its word and the secret number of a signature are free
(logs 7 and 9), and the constants of the algorithms, which the spec names and does not print (log 13). -/
def Obligations.CryptoInstructions : Prop :=
  ∀ (d a : SReg) (s : State), Full s [d, a] →
    let x := (s.sreg a).toNat
    let y := (s.sreg d).toNat
    let gives := fun (i : Instr) (t : State) => exec i s = .next (retire t)
    let faults := fun (i : Instr) (k : Code) (t : State) => ∃ r : Option Word, exec i s = .next (raise { word := wordOf i } k r t)
    let dk := Crypto.keyBytes Config.deviceKey
    let sram := fun (o n : Nat) => s.saffron.sram.readBytes o n
    (s.hart.kind = .firmware →
      (∀ t, physicalAccess s x 40 = .ok x → storeAt x (Crypto.kwWrap dk (Crypto.keyBytes (s.key (y % 64)))) s = .ok t → gives (.kwrap d a) t) ∧
      (∀ bs t, physicalAccess s x 40 = .ok x → loadAt x 40 s = .ok (bs, t) →
        (∀ k, Crypto.kwUnwrap dk bs = some k → gives (.kunwrap d a) (setKey (y % 64) (Crypto.keyOf k) t)) ∧
        (Crypto.kwUnwrap dk bs = none → faults (.kunwrap d a) .keyUnwrap (setKey (y % 64) 0 t))) ∧
      gives (.kscrub a) (setKey (x % 64) 0 s)) ∧
    (Room s → s.hart.kind ≠ .saffron → ∀ i ∈ [Instr.hashi a, .hashu d a, .hashf d a, .ecsign d a, .ecvrfy d a, .aesenc d a, .aesdec d a, .rng d],
      faults i .privileged s) ∧
    (s.hart.kind = .saffron →
      gives (.hashi a) (setHash x [] s) ∧
      (let n := y / 2 ^ 20 % 4
       let len := y % 2 ^ 20
       (x + len ≤ 0x100000 → gives (.hashu d a) (setHash n (s.hashed n ++ sram x len) s)) ∧
       (0x100000 < x + len → faults (.hashu d a) .secAddr s)) ∧
      (0x100000 < x + 48 → faults (.hashf d a) .secAddr s) ∧
      (x + 48 ≤ 0x100000 → gives (.hashf d a) (setHash (y % 4) [] (sramWrite x (Crypto.sha384 (s.hashed (y % 4))) s))) ∧
      (0x100000 < x + 144 → faults (.ecsign d a) .secAddr s) ∧
      (x + 144 ≤ 0x100000 → ∃ sig t, gives (.ecsign d a) (sramWrite (x + 48) sig t) ∧ t.saffron = s.saffron ∧ t.hart = s.hart ∧
        ∃ k, sig = Crypto.pairBytes (Crypto.ecSign (s.key y).toNat k (sram x 48))) ∧
      (0x100000 < x + 240 → faults (.ecvrfy d a) .secAddr s) ∧
      (x + 240 ≤ 0x100000 → gives (.ecvrfy d a) (writeS d (oneIf (Crypto.ecVerify (sram x 48) (Crypto.pairOf (sram (x + 48) 96)) (Crypto.pairOf (sram (x + 144) 96)) = true)) s)) ∧
      (let len := leNat (sram (x + 12) 4)
       let src := leNat (sram (x + 16) 4)
       let dst := leNat (sram (x + 20) 4)
       let key := Crypto.keyBytes (s.key y)
       let text := Crypto.gcmCrypt key (sram x 12) (sram src len)
       (0x100000 < x + 40 ∨ (x + 40 ≤ 0x100000 ∧ (0x100000 < src + len ∨ 0x100000 < dst + len)) →
        faults (.aesenc d a) .secAddr s ∧ faults (.aesdec d a) .secAddr s) ∧
       (x + 40 ≤ 0x100000 → src + len ≤ 0x100000 → dst + len ≤ 0x100000 →
        gives (.aesenc d a) (sramWrite (x + 24) (Crypto.gcmTag key (sram x 12) [] text) (sramWrite dst text s)) ∧
        (Crypto.gcmTag key (sram x 12) [] (sram src len) = sram (x + 24) 16 → gives (.aesdec d a) (writeS d 1 (sramWrite dst text s))) ∧
        (Crypto.gcmTag key (sram x 12) [] (sram src len) ≠ sram (x + 24) 16 → gives (.aesdec d a) (writeS d 0 s)))) ∧
      ∃ r t, gives (.rng d) (writeS d r t) ∧ t.hart = s.hart ∧ t.saffron = s.saffron ∧ t.mem = s.mem)

namespace Sys2Proof.Claims

/-- The step answers this state. -/
def Gives (i : Instr) (s t : State) : Prop := exec i s = .next t

/-- A unit of the cache or a buffer of these is in retention (R259). -/
def Retained (s : State) (units : List Nat) : Prop := ∃ x ∈ units, x ∈ s.retained

/-- The event acts on a context of the given number as the operation does, and the context that issued goes on. -/
def Acts (i : Nat → Instr) (f : State → State) : Prop := ∀ h s, exec (i h) s = .next (onHart h f s)

end Sys2Proof.Claims

/-- R133 to R135, R164, R171, R180, R181, R196, R238, R239, R259, R262: the events of the copy engine and the matrix engine. The clauses that an
event leaves the state as it is where its condition does not hold are the model's (log 50), and so is that the scrubs of several leases
complete one at a time, in an order that is free (log 7); that a copy-out takes the poison of its source with it (log 56); that the bytes a
peer sends are free (log 21); that a batch begins after core 0 before any grant (log 137); that a restarted copy belongs to no open chunk, so that
no squash sets its fault aside (log 147); and the task that the report of a link's refusal names (log 148). -/
def Obligations.EngineEvents : Prop :=
  ∀ (cl n h : Nat) (s : State),
    let k := s.cluster cl
    let ch := k.chan n
    -- COPY_START: an idle channel starts the copy-out that has waited longest for it
    (ch.copy.isSome = true → Gives (.evCopyStart cl n) s s) ∧
    (∀ a c b, ch.copy = none → k.copyWait = a ++ c :: b → (∀ x ∈ a, x.chan ≠ n) → c.chan = n →
      Gives (.evCopyStart cl n) s (startCopy cl { c with stamp := s.clock } (s.modCluster cl fun q => { q with copyWait := a ++ b }))) ∧
    -- COPY_ELEMENT_DELIVERY: the next element, which is counted in WP
    (ch.copy = none → Gives (.evCopyElementDelivery cl n) s s) ∧
    (∀ c, ch.copy = some c →
      let pa := c.phys + c.done * c.esize
      let lines := unitsAt s c.core pa c.esize
      let written := lines ++ ((copyDirty c s).map fun d => homeUnits s d.1 8).flatten
      let src := c.src.toNat + c.done * c.esize
      let part := partOf s c.cap
      let delivers := fun (t : State) => Gives (.evCopyElementDelivery cl n) s (slotFreed c.core (releaseHeld t))
      -- into scratchpad or a ring: a unit in retention makes it wait; poison stops the copy; else the bytes of memory, or the plaintext
      let reads := fun (units : List Nat) (put : State → State) => (Retained s units → delivers (startExit units s)) ∧
        (¬Retained s units →
          let u := readLines part pa c.esize (noteUse units s)
          (∀ k, poisonCause u pa c.esize = some k → delivers (failCopy cl c k u)) ∧ (poisonCause u pa c.esize = none → delivers (put u)))
      (c.mode = .ms → reads lines fun u => countElement cl c (padElement c (u.mem.readBytes pa c.esize) u)) ∧
      (c.mode = .mr → reads (lines ++ [cl]) fun u => ringElement cl c (u.mem.readBytes pa c.esize) u) ∧
      (c.mode = .ur → c.keyed = true ∧ (∀ g ∈ unitsOf 65536 pa c.esize, g ∈ c.verified) →
        reads (lines ++ [cl]) fun u => ringElement cl c (unsealedRange u (slotKey u cl c.hart) pa c.esize) u) ∧
      (c.mode = .ur → ¬(c.keyed = true ∧ ∀ g ∈ unitsOf 65536 pa c.esize, g ∈ c.verified) → ¬Retained s (lines ++ [cl]) →
        delivers (readLines part pa c.esize (noteUse (lines ++ [cl]) s))) ∧
      -- from scratchpad to memory: it waits for tokens, fails on a sealed granule, and else writes its bytes as a unit
      (c.mode = .sm → (Retained s written → delivers (startExit written s)) ∧
        (¬Retained s written →
          let u := meetPad part c.core src c.esize (noteUse written s)
          let held := heldByToken u u.nextId pa c.esize = true ∨ ∃ d ∈ copyDirty c u, heldByToken u u.nextId d.1 8 = true
          (held → delivers u) ∧
          (¬held → sealedRange u pa c.esize = true → delivers (failCopy cl c .sealedCopy u)) ∧
          (¬held → sealedRange u pa c.esize = false → u.mem.wf = true → ∃ v, delivers (countElement cl c v) ∧
            (copyDirty c u = [] → (∀ x, v.mem.read x =
                if pa ≤ x ∧ x < pa + c.esize then (u.core c.core).pad.read (src + (x - pa)) else u.mem.read x) ∧
              ∀ a, pa ≤ a → a < pa + c.esize → (c.core, (src + (a - pa)) / 32) ∈ u.padPoison → ∃ k, (a / 32, k) ∈ v.poison)))) ∧
      -- over a link: a link that is down fails the copy, for the open chunk that issued it, or at once when none did
      (c.mode = .es → (fencedCopy s c = true → delivers s) ∧
        (fencedCopy s c = false → s.links.getLsbD (endLink c.phys) = false →
          (inOpenChunk s c = true → delivers (unitFault c.cap c.hart .msgTarget c.src (cancelCopy cl c s))) ∧
          (inOpenChunk s c = false → delivers (ownerFault c.cap c.hart .msgTarget c.src (cancelCopy cl c s)))) ∧
        (fencedCopy s c = false → s.links.getLsbD (endLink c.phys) = true → ∃ bs f, bs.length = c.esize ∧
          delivers (countElement cl c (padElement c bs { s with fresh := f })))) ∧
      (c.mode = .se →
        let u := meetPad part c.core src c.esize s
        (s.links.getLsbD (endLink c.phys) = false → delivers (ownerFault c.cap c.hart .msgTarget c.dst (endCopy cl c u))) ∧
        (s.links.getLsbD (endLink c.phys) = true → delivers (countElement cl c (u.emit (.peer (endLink c.phys) (endPeer c.phys) (endWin c.phys)
          (word (handleOff c.dst + c.done * c.esize)) (padTainted u c.core src c.esize) ((u.core c.core).pad.readBytes src c.esize)))))) ) ∧
    (∀ c : Copy, inOpenChunk s c = true ↔ c.mode.isIn = true ∧ ∃ x, s.hart? c.hart = some x ∧ x.commits = c.chunk ∧ x.run ≠ .ended) ∧
    (∀ cap id code d, ownerFault cap id code d s = abortCapsule cap code.num (taskReport id code.num d cap s) s) ∧
    -- WEIGHT_KEY_LOAD and SEAL_GROUP_VERIFY: only a .ur copy has a key and groups to verify
    (∀ c, ch.copy = some c → c.mode = .ur → c.keyed = false → ∃ t, Gives (.evWeightKeyLoad cl n) s t ∧
      t.mem = s.mem ∧ t.hart = s.hart ∧ keyInSlot cl c.hart c.phys t = true ∧
      (n < 16 → c.chan = n → ((t.cluster cl).chan n).copy = some { c with keyed := true })) ∧
    ((∀ c, ch.copy = some c → c.mode ≠ .ur) → Gives (.evWeightKeyLoad cl n) s s ∧ Gives (.evSealGroupVerify cl n) s s) ∧
    (∀ c g, ch.copy = some c → c.mode = .ur → c.keyed = true →
      (unitsOf 65536 (c.phys + c.done * c.esize) c.esize).find? (fun x => !c.verified.contains x) = some g →
      let units := unitsAt s c.core (65536 * g) 65536
      let u := readLines (partOf s c.cap) (65536 * g) 65536 (noteUse units s)
      (Retained s units → Gives (.evSealGroupVerify cl n) s (startExit units s)) ∧
      (¬Retained s units → ∀ k, poisonCause u (65536 * g) 65536 = some k → Gives (.evSealGroupVerify cl n) s (failCopy cl c k u)) ∧
      (¬Retained s units → poisonCause u (65536 * g) 65536 = none →
        (groupOk u (slotKey u cl c.hart) g = true →
          Gives (.evSealGroupVerify cl n) s (modChan cl c.chan (fun q => { q with copy := some { c with verified := g :: c.verified } }) u)) ∧
        (groupOk u (slotKey u cl c.hart) g = false →
          (inOpenChunk u c = true → Gives (.evSealGroupVerify cl n) s (unitFault c.cap c.hart .sealTag (groupHandle c g) (cancelCopy cl c u))) ∧
          (inOpenChunk u c = false → Gives (.evSealGroupVerify cl n) s (ownerFault c.cap c.hart .sealTag (groupHandle c g) (cancelCopy cl c u)))))) ∧
    -- GRANT_BATCH: the requests of a batch in ascending TOGGLE, then by core after the one that last took a grant; the grant begins with 64 commands
    (k.grant.isSome = true ∨ (k.batch = [] ∧ k.requests = []) → Gives (.evGrantBatch cl) s s) ∧
    (let batch := if k.batch = [] then k.requests else k.batch
     let key := fun (y : Nat) => batchKey s k.lastCore y
     k.grant = none → batch ≠ [] → ∃ id ∈ batch, (∀ y ∈ batch, (key id).1 < (key y).1 ∨ (key id).1 = (key y).1 ∧ (key id).2 ≤ (key y).2) ∧
      let last := ((s.hart? id).map fun x => bitsOf x.core 4 0).getD k.lastCore
      let left := if k.batch = [] then [] else k.requests
      Gives (.evGrantBatch cl) s ((s.modCluster cl fun q => { q with grant := some id, batch := batch.erase id, requests := left, lastCore := last }).modHart
        id fun y => { y with grantAt := s.clock, lease := leaseSet (leaseSet y.lease 24 18 64) 1 1 1 })) ∧
    (∀ id x, s.hart? id = some x → batchKey s k.lastCore id = (leaseToggle x.lease, (bitsOf x.core 4 0 + 31 - k.lastCore) % 32)) ∧
    -- GRANT_EXPIRY: after 64 commands or 16,384 cycles; it renews when nothing waits
    (k.grant = none → Gives (.evGrantExpiry cl) s s) ∧
    (∀ id x, k.grant = some id → s.hart? id = some x → leaseCmd x.lease ≠ 0 → s.clock - x.grantAt < 16384 → Gives (.evGrantExpiry cl) s s) ∧
    (∀ id x, k.grant = some id → s.hart? id = some x → leaseCmd x.lease = 0 ∨ 16384 ≤ s.clock - x.grantAt → k.requests = [] → k.batch = [] →
      Gives (.evGrantExpiry cl) s ((s.modHart id closeGrant).modHart id (beginGrant s.clock))) ∧
    (∀ id x, k.grant = some id → s.hart? id = some x → leaseCmd x.lease = 0 ∨ 16384 ≤ s.clock - x.grantAt → k.requests ≠ [] ∨ k.batch ≠ [] →
      Gives (.evGrantExpiry cl) s (arbitrate cl (((s.modHart id closeGrant).modHart id fun y =>
        { y with lease := leaseSet (leaseSet y.lease 24 18 0) 1 1 0 }).modCluster cl fun q => { q with grant := none }))) ∧
    -- WEIGHT_LOAD_COMPLETE, RESIDUE_CHECK_COMPLETE
    Gives (.evWeightLoadComplete h) s (s.modHart h fun x => { x with wload := false }) ∧
    (∀ bad, k.products = [] → Gives (.evResidueCheckComplete cl bad) s s) ∧
    (∀ p rest, k.products = p :: rest →
      let u := (s.modCluster cl fun q => { q with products := rest }).modHart p.hart fun x => { x with checked := x.checked + 1 }
      (p.live = false → Gives (.evResidueCheckComplete cl false) s u) ∧
      (p.live = true → Gives (.evResidueCheckComplete cl false) s (onHart p.hart (landProduct p) u)) ∧
      (2 ≤ (mismatchWindow s cl).length →
        let v := u.modCluster cl fun q => { q with mism := mismatchWindow s cl ++ [s.clock] }
        (∀ c, s.cap? p.cap = some c → (∀ n, c.state ≠ .ending n) → Gives (.evResidueCheckComplete cl true) s
          (unitFault p.cap p.hart .matrixCheck (word ((mismatchWindow s cl).length + 1)) (markSuspect cl v))) ∧
        ((∀ c, s.cap? p.cap = some c → ∃ n, c.state = .ending n) → Gives (.evResidueCheckComplete cl true) s (markSuspect cl v))) ∧
      ((mismatchWindow s cl).length < 2 → p.live = false →
        Gives (.evResidueCheckComplete cl true) s (u.modCluster cl fun q => { q with mism := mismatchWindow s cl ++ [s.clock] }))) ∧
    -- LEASE_SCRUB_COMPLETE: the rings of a lease that awaited the scrub are free, and the slots of a valid one are zero; then waiters may bind
    ((∀ i < 16, (k.ring i).scrub = none) → Gives (.evLeaseScrubComplete cl) s s) ∧
    ((∃ i < 16, (k.ring i).scrub ≠ none) → ∃ u id, Gives (.evLeaseScrubComplete cl) s (bindWaiters cl u) ∧ u.mem = s.mem ∧ u.hart = s.hart ∧
      (∃ i < 16, (k.ring i).scrub = some id) ∧ ∀ i < 16,
        ((k.ring i).scrub ≠ some id → (u.cluster cl).ring i = k.ring i) ∧
        ((k.ring i).scrub = some id → (u.cluster cl).ring i = Ring.reset ∧ (ringV (k.ring i).defn = true → ∀ x < ringCount (k.ring i).defn *
          ringSlot (k.ring i).defn, (u.cluster cl).opbuf.read (ringBase (k.ring i).defn + x) = 0)))

namespace Sys2Proof.Claims

/-- The memory `m` is the continuation record of R41 of the context that issues in `s`: of the registers `r`, a lease status, RST, the mask of the
live tiles, a resume PC and the queued messages that travel. -/
def RecordOf (s : State) (r : Regs) (status : BitVec 128) (rst : BitVec 512) (live : Nat) (pc : Word) (ports : List (Nat × Msg)) (m : Memory) : Prop :=
  let h := s.hart
  let lease := (h.rebind.map Rebind.lease).getD status
  let own := fun (i : Fin 16) => 16 - h.ntiles ≤ i.val
  m.readLE 0 4 = 0x400 + 4096 * (maskBits live).length + 4160 * ports.length ∧ m.readLE 4 2 = live ∧ m.readLE 6 1 = h.ntiles ∧
  (bitOf (m.readLE 7 1) 0 = leaseHeld lease ∧ bitOf (m.readLE 7 1) 1 = h.partner.isSome ∧ bitOf (m.readLE 7 1) 2 = (rst != 0) ∧ m.readLE 7 1 < 8) ∧
  m.readLE 8 8 = pc.toNat ∧ m.readLE 0x10 8 = r.flg.toNat ∧ m.readLE 0x18 8 = h.ranks.toNat ∧
  (∀ c, s.capsule = some c → m.readLE 0x20 8 = c.nonce.toNat) ∧ (∀ a, 0x28 ≤ a → a < 0x40 → m.read a = 0) ∧
  m.readLE 0x40 64 = rst.toNat ∧ m.readLE 0x80 16 = lease.toNat ∧ (∀ a, 0x90 ≤ a → a < 0x100 → m.read a = 0) ∧
  (∀ i : Fin 16, leaseHeld lease = true → bitOf (leaseMask lease) i.val = true → h.rebind = none →
    let d := ((s.cluster s.here).ring i).defn
    m.readLE (0x100 + 8 * i.val) 8 = (withTail d (ringHead d)).toNat) ∧
  (∀ i : SReg, m.readLE (0x180 + 8 * i.val) 8 = (r.s.get i).toNat) ∧ (∀ i : Fin 8, m.readLE (0x280 + 16 * i.val) 16 = (r.p.get i).toNat) ∧
  (∀ i : TReg, m.readLE (0x300 + 2 * i.val) 2 = if own i then (r.t.get i).shape.toNat else 0) ∧ m.readLE 0x320 4 = r.sfull.toNat ∧
  (∀ i : TReg, bitOf (m.readLE 0x324 2) i.val = (decide (own i) && (r.t.get i).full)) ∧ m.readLE 0x326 2 = 0 ∧
  (∀ n < 4, m.readLE (0x328 + n) 1 = ports.countP fun p => p.1 == n) ∧ (∀ a, 0x32C ≤ a → a < 0x400 → m.read a = 0)

/-- The registers that a context takes from the record `m` (R41, R42): a tile that is not named live is zero and full. -/
def RestoredFrom (m : Memory) (h : Hart) : Prop :=
  let n := m.readLE 6 1
  let live := m.readLE 4 2
  h.ntiles = n ∧ h.r.pc = word (m.readLE 8 8) ∧ h.r.flg = writeFlg (word (m.readLE 0x10 8)) ∧ h.ranks = word (m.readLE 0x18 8) ∧
  h.r.rst = (if bitOf (m.readLE 7 1) 2 then BitVec.ofNat 512 (m.readLE 0x40 64) else 0) ∧
  (∀ i : SReg, h.r.s.get i = word (m.readLE (0x180 + 8 * i.val) 8)) ∧ h.r.sfull = BitVec.ofNat 32 (m.readLE 0x320 8) ∧
  (∀ i : Fin 8, h.r.p.get i = BitVec.ofNat 128 (m.readLE (0x280 + 16 * i.val) 16)) ∧
  (∀ i : TReg, 16 - n ≤ i.val →
    (h.r.t.get i).shape = BitVec.ofNat 16 (m.readLE (0x300 + 2 * i.val) 2) ∧
    (bitOf live i.val = true → (h.r.t.get i).full = bitOf (m.readLE 0x320 8) (32 + i.val) ∧
      ∀ a < 4096, (h.r.t.get i).data.read a = m.read (0x400 + 4096 * (maskBits (live % 2 ^ i.val)).length + a)) ∧
    (bitOf live i.val = false → (h.r.t.get i).full = true ∧ (h.r.t.get i).data = [])) ∧
  h.ckpt = h.r ∧ h.rebind = (if bitOf (m.readLE 7 1) 0 then
    some { lease := BitVec.ofNat 128 (m.readLE 0x80 16), defs := Vector.ofFn fun i => word (m.readLE (0x100 + 8 * i.val) 8) } else none)

/-- Every tile register that a context has, as a read of them all takes it (R316). -/
def allTiles (h : Hart) : List TReg := (maskBits (liveMask h (BitVec.allOnes 16))).map (Fin.ofNat 16)

/-- Query `i` is the only one of its descriptor that waits for an answer. -/
def OnlyWaiting (s : State) (i : Nat) (q : Query) : Prop :=
  ∀ j x, s.queries[j]? = some x → j ≠ i → x.desc = q.desc → x.answer.isSome = true ∨ x.arrived = none

end Sys2Proof.Claims

/-- R16, R20, R21, R33 to R44, R50, R86 to R94, R98, R201, R203, R223, R224, R241, R242, R249, R280, R284, R285, R295, R296, R343: the events of
a task's life, from its message to its commit, with what a taken safe point writes and what a resumption restores. The model's own choices in it: an
event leaves the state as it is where its condition does not hold (log 50); a CORE_PARITY error's detail (log 7), the physical tile
registers that a task takes (log 10) and which rows a retest finds failing (log 24) are free; a lease whose rings are not free keeps a resumed task waiting
as MLEASE waits (log 68); what a record must hold to load, and that one with more tiles than the core has free waits (log 23); a commit
delivers the producers first (log 43); a data message takes an idle core for its capsule (log 70); a CONT message is not counted among what a core
holds (logs 66 and 69); a task stays the same task over a safe point (log 104); the clock of a wait runs on over consecutive waits (log 113);
the hint of a record names the cluster of the safe point (log 129), and one at a port of a service core is bound there (log 130); a task
that is queued keeps its place of the service core (log 131); a message by rank and one that walks have no order (log 132); a record of a wait
for a place resumes at MIGR (log 77); a launch fills the copies of armed code anew (log 111); the safe-point distance goes back with the
checkpoint (log 39); a copy of which nothing has landed leaves no snapshot (log 107); a wait on an empty word of scratchpad is a safe point
too (log 141); TOGGLE of a lease bound again is 0 (log 146); a redelivered chunk keeps its count of squashes and starts as an ordinary one
(log 149); the formula of R92 stands beside the example of R244 (log 140); a bound core without a task is open to a retest (log 153). -/
def Obligations.TaskEvents : Prop :=
  Acts .evRegisterClearComplete finishRegisters ∧ Acts .evMigrationArrival migrationArrival ∧ Acts .evCoreParityError coreParity ∧
  Acts .evParityRequeueTimeout parityTimeout ∧ Acts .evWaitSafePoint waitSafePoint ∧ Acts .evExclusiveTokenRelease releaseToken ∧
  Acts .evSafeDistance safeDistance ∧ Acts .evSpecWayTimeout specWayTimeout ∧ Acts .evPairCommitTimeout pairTimeout ∧
  Acts .evProducerCompletion completeProducer ∧ Acts .evWaitTimeReached reachTime ∧
  ∀ (i core cl : Nat) (w : BitVec 32) (v : Word) (s : State),
    -- MESSAGE_DELIVERY, DATA_MESSAGE_ARRIVAL, PLACEMENT_WALK and CONTINUATION_RESUME: message i of the networks
    (s.net[i]? = none → Gives (.evMessageDelivery i core) s s ∧ Gives (.evDataMessageArrival i) s s ∧ Gives (.evPlacementWalk i) s s ∧
      Gives (.evContinuationResume i core) s s) ∧
    (∀ m, s.net[i]? = some m →
      (dead s m = true → ∀ e ∈ [Instr.evMessageDelivery i core, .evDataMessageArrival i, .evPlacementWalk i, .evContinuationResume i core],
        Gives e s { s with net := s.net.eraseIdx i }) ∧
      (dead s m = false →
        (m.kind = .data ∨ m.target s ≠ some core ∨ mustWait s i m = true ∨ serves s m core = false → Gives (.evMessageDelivery i core) s s) ∧
        (m.kind ≠ .data → m.target s = some core → mustWait s i m = false → serves s m core = true →
          (canStart s m core = true → Gives (.evMessageDelivery i core) s (admitTo core m { s with net := s.net.eraseIdx i })) ∧
          (canStart s m core = false → inboxRoom (s.core core) m = true → Gives (.evMessageDelivery i core) s
            ({ s with net := s.net.eraseIdx i }.modCore core fun k => { k with inbox := k.inbox ++ [m], cap := some m.cap })) ∧
          (canStart s m core = false → inboxRoom (s.core core) m = false → Gives (.evMessageDelivery i core) s s)) ∧
        (m.kind ≠ .data ∨ mustWait s i m = true → Gives (.evDataMessageArrival i) s s) ∧
        (m.kind = .data → mustWait s i m = false → m.target s = some core → s.twin m.cap core = none →
          let port := (s.core core).ports.get (Fin.ofNat 4 (destPort m.dest - 4))
          (serves s m core = true → port.length < 4 → ∃ t, Gives (.evDataMessageArrival i) s t ∧ t.net = s.net.eraseIdx i ∧
            (t.core core).ports.get (Fin.ofNat 4 (destPort m.dest - 4)) = port ++ [{ msg := m, taken := none }] ∧ (t.core core).cap = some m.cap) ∧
          (4 ≤ port.length → Gives (.evDataMessageArrival i) s s)) ∧
        (m.walks = false ∨ mustWait s i m = true → Gives (.evPlacementWalk i) s s) ∧
        (m.walks = true → mustWait s i m = false →
          (∀ k, taker s m = some k → Gives (.evPlacementWalk i) s (admitTo k m { s with net := s.net.eraseIdx i })) ∧
          (∀ k, taker s m = none → parkPlace s m = some k → (s.cluster k).park.length < 32 → Gives (.evPlacementWalk i) s
            ({ s with net := s.net.eraseIdx i }.modCluster k fun c => { c with park := c.park ++ [m] })) ∧
          (taker s m = none → (∀ k, parkPlace s m = some k → 32 ≤ (s.cluster k).park.length) → Gives (.evPlacementWalk i) s s)) ∧
        (m.kind = .continuation → taker s m = some core →
          Gives (.evContinuationResume i core) s (resumeTask core m { s with net := s.net.eraseIdx i })) ∧
        (m.kind ≠ .continuation ∨ taker s m ≠ some core → Gives (.evContinuationResume i core) s s))) ∧
    -- a message that starts a task: its registers (R33, R34, R84); a launch finds no stale copies in its cluster (R189)
    (∀ m c, s.cap? m.cap = some c → c.twin core = none → m.kind ≠ .continuation → ∃ h : Hart, admitTo core m s =
        addHart h (if m.kind = .launch then refreshCopies (clusterNo core) m.cap s else s) ∧ h.core = core ∧
      h.id = s.nextId ∧ h.cap = m.cap ∧ h.ntiles = m.tiles ∧ h.ranks = (c.ranksOf core).getD 0 ∧ h.run = .clearing ∧ h.ckpt = h.r ∧ h.r.pc = addOff m.entry 4 ∧
      h.r.flg = 0 ∧ (∀ k : Fin 6, h.r.s.get ⟨k.val + 1, by omega⟩ = m.payload.get k) ∧ (∀ r : SReg, 6 < r.val → h.r.s.get r = 0) ∧
      h.r.sfull = BitVec.allOnes 32 ∧ (∀ d sh, m.tile = some (d, sh) → h.r.t.get 15 = { data := d, shape := sh, full := true })) ∧
    -- a new task has physical tile registers that no other task of its core has (R12), and its core is its capsule's (R20)
    (∀ h : Hart, ∃ p, addHart h s = State.modCore h.core (fun k => { k with cap := some h.cap })
        { s with parked := s.parked ++ [{ h with phys := p }], nextId := Nat.max s.nextId (h.id + 1), fresh := s.fresh + 1 } ∧
      p.length ≤ h.ntiles ∧ ∀ x ∈ residents s h.core, x.id ≠ h.id → ∀ y ∈ x.phys, y ∉ p) ∧
    -- REGISTER_CLEAR_COMPLETE
    (s.hart.run = .clearing → s.hart.header = none → s.hart.record = none → finishRegisters s = s.mod fun h => { h with run := .ready }) ∧
    (∀ e word t, s.hart.run = .clearing → s.hart.header = some e → fetchWord e s = .ok (word, t) →
      ((headerTiles word).isSome = true → finishRegisters s = t.mod fun h => { h with header := none, run := .ready }) ∧
      ((headerTiles word).isSome = false → finishRegisters s = raise {} .handlerFormat none t)) ∧
    -- a resumed task reads its record (R40 to R42, R343)
    (∀ m c, s.cap? m.cap = some c → c.twin core = none →
      let was := suspendedAt s c m.entry
      ∃ h : Hart, resumeTask core m s = addHart h
      { s.modCore core (fun k => { k with boundRec := k.boundRec.erase (m.entry, m.cap) }) with suspended := s.suspended.erase was } ∧
      h.task = was.task ∧ h.fenceH = was.fenceH ∧ h.fenceX = was.fenceX ∧ h.core = core ∧ h.id = s.nextId ∧ h.cap = m.cap ∧ h.kind = .task ∧
      h.ntiles = m.tiles ∧ h.ranks = m.ranks ∧ h.record = some m.entry ∧ h.header = none ∧ h.run = .clearing) ∧
    (∀ e c x, s.hart.run = .clearing → s.hart.header = none → s.hart.record = some e → s.capsule = some c → c.exts[handleIdx e]? = some x →
      let m := recordBytes s x e
      let at_ := Extent.base x + handleOff e
      (∀ t, meetLines c.part at_ (recordSize s x e) s = .error (.wait .unit t) → finishRegisters s = t) ∧
      ∀ u, meetLines c.part at_ (recordSize s x e) s = .ok u →
      let bad := poisonCause u at_ (recordSize s x e)
      (∀ code, bad = some code → finishRegisters s = raise {} code none u) ∧
      (bad = none → m.readLE 0x20 8 ≠ c.nonce.toNat ∨ 8 ≤ m.readLE 7 1 ∨ (∃ a, 0x28 ≤ a ∧ a < 0x40 ∧ m.read a ≠ 0) ∨ m.readLE 0x326 2 ≠ 0 ∨
        (∃ a, 0x90 ≤ a ∧ a < 0x100 ∧ m.read a ≠ 0) ∨ (∃ a, 0x32C ≤ a ∧ a < 0x400 ∧ m.read a ≠ 0) → finishRegisters s = raise {} .contFormat none u) ∧
      (bad = none → recordOk c m = true → s.hart.partner = none →
        (recordFits u u.hart (m.readLE 6 1) = false → finishRegisters s = u) ∧
        (recordFits u u.hart (m.readLE 6 1) = true → ∃ p f, finishRegisters s = ((restorePorts u.hart.core (recordPorts c.id m)
          { (countResumed c.id x u).mod (fun h => { loadRecord m h with phys := p }) with fresh := f }).mod fun h => { h with run := .ready })))) ∧
    (∀ m h, h.rdl = 0 → RestoredFrom m (loadRecord m h) ∧ (loadRecord m h).record = none) ∧
    -- a redelivery has its count in s0 (R84, R294)
    (∀ m h, h.rdl ≠ 0 → h.rdl < 4 → let x := loadRecord m h
      bitsOf (x.r.s.get 0).toNat 58 57 = h.rdl ∧ (∀ n : Nat, n ≠ 57 → n ≠ 58 → (x.r.s.get 0).getLsbD n = (word (m.readLE 0x180 8)).getLsbD n) ∧
      x.ckpt = x.r ∧ { x.r with s := (loadRecord m { h with rdl := 0 }).r.s } = (loadRecord m { h with rdl := 0 }).r ∧
      ∀ i : SReg, i.val ≠ 0 → x.r.s.get i = word (m.readLE (0x180 + 8 * i.val) 8)) ∧
    (∀ es (k : Fin 4), ((restorePorts core es s).core core).ports.get k =
      (es.filter fun p => p.1 == k.val).map Prod.snd ++ (s.core core).ports.get k) ∧
    -- what a taken safe point writes (R39 to R41, R343)
    (∀ r status rst live pc ports, live < 65536 → s.hart.ntiles ≤ 16 → (∀ p ∈ ports, p.1 < 4) →
      (∀ k < 4, (ports.countP fun p => p.1 == k) < 256) →
      RecordOf s r status rst live pc ports (recordImage s r status rst live pc ports)) ∧
    (∀ r status rst live pc ports (k : Nat) (hk : k < (maskBits live).length), live < 65536 →
      (∀ i : TReg, (r.t.get i).data.wf = true ∧ ∀ x ∈ (r.t.get i).data, x.1 < 4096) → ∀ a < 4096,
      (recordImage s r status rst live pc ports).read (0x400 + 4096 * k + a) = (r.t.get (Fin.ofNat 16 (maskBits live)[k])).data.read a) ∧
    -- the snapshot of a copy-in in flight, but for one of which nothing has landed (R140, R237)
    (s.copyIn = none → recordRst s = s.hart.r.rst) ∧
    (∀ c, s.copyIn = some c → (c.base + c.done = 0 → recordRst s = s.hart.r.rst) ∧
      (c.base + c.done ≠ 0 → ∀ done, done = (if c.mode.toRing then poppedElements s c else c.done) → done ≤ c.count → c.count < 4096 → c.chan < 16 →
        c.esize < 65536 → c.base + done < 2 ^ 32 → c.dst.toNat + done * c.esize < 2 ^ 32 → c.dst.toNat < 2 ^ 32 →
        let g := rstGet (recordRst s)
        bitOf (g 4 1) 1 = true ∧ g 4 1 / 4 % 8 = c.mode.num ∧ g 5 1 = c.chan ∧ g 6 2 = c.esize ∧ g 8 8 = (addOff c.src (done * c.esize)).toNat ∧
        g 16 8 = 0 ∧ g 0x18 4 = c.count - done ∧ g 0x1C 4 = c.base + done ∧
        g 0x20 4 = if c.mode.toRing then c.dst.toNat % 16 else c.dst.toNat + done * c.esize)) ∧
    (∀ x e off image len bound paired, s.mem.wf = true → sealedRange s (Extent.base e + off) len = false → sealedRange s e.base 16 = false → 16 ≤ off →
      let t := writeRecord x e off image len bound paired s
      (∀ a < len, t.mem.read (e.base + off + a) = image.read a) ∧
      t.mem.readLE e.base 8 = (off + len) % 2 ^ 64 ∧ t.mem.readLE (e.base + 8) 8 = (s.mem.readLE (e.base + 8) 8 + 1) % 2 ^ 64 ∧
      ∃ m : Msg, t.net = s.net ++ [m] ∧ m.kind = .continuation ∧ m.cap = s.hart.cap ∧ m.entry = mkHandle x off ∧ m.ranks = s.hart.ranks ∧
        m.bound = (if bound then some s.hart.core else none) ∧ m.tiles = s.hart.ntiles ∧ m.hint = contHint s.here ∧ m.paired = paired) ∧
    (∀ r status rst live pc wait c x e off, s.capsule = some c → contExtent c = some (x, e) →
      let ports := if takesPorts s r pc then queuedEntries s else []
      let len := recordLength (maskBits live).length ports.length
      recordPlace s e len = some off → ∃ t, finishSafe r status rst live pc wait s = stopContext t ∧ t.mem =
        (writeRecord x e off (recordImage s r status rst live pc ports) len (portInstr r (peek s pc)) s.hart.partner.isSome s).mem ∧
        t.net = (writeRecord x e off (recordImage s r status rst live pc ports) len (portInstr r (peek s pc)) s.hart.partner.isSome s).net) ∧
    (s.hart.run ≠ .clearing → finishRegisters s = s) ∧
    -- CHUNK_COMMIT
    (s.hart? i = none → Gives (.evChunkCommit i) s s) ∧
    (∀ k, s.hart.run = .committing k → s.hart.partner = none →
      let units := commitUnits s s.hart.chunk.effects
      let u := meetCells s.hart.chunk.effects (drain (noteUse units s))
      let passes := overtaken u.hart = true → u.hart.chunk.exclusive = true
      (mayCommit s = false → Gives (.evChunkCommit s.hart.id) s s) ∧
      (mayCommit s = true → Retained s units → Gives (.evChunkCommit s.hart.id) s (focus s.hart.id (startExit units s))) ∧
      (mayCommit s = true → ¬Retained s units →
        (∀ x, roomGone k u = some x → Gives (.evChunkCommit s.hart.id) s (focus s.hart.id x)) ∧
        (roomGone k u = none → ¬passes → Gives (.evChunkCommit s.hart.id) s (focus s.hart.id (refuseCommit k u))) ∧
        (roomGone k u = none → passes →
          (∀ code d x, meetLive k u = .error (.fault code d x) → Gives (.evChunkCommit s.hart.id) s (focus s.hart.id (commitFault code d x))) ∧
          (∀ v, meetLive k u = .ok v →
            (∀ t, commitChunk v = .ok t → Gives (.evChunkCommit s.hart.id) s (focus s.hart.id (finishCommit k t))) ∧
            (∀ code d, commitChunk v = .error (code, d) → Gives (.evChunkCommit s.hart.id) s (focus s.hart.id (commitFault code d v))))))) ∧
    -- what the buffered writes of a chunk do, in their order: stores, no-return atomics, stores to scratchpad (R36, R194, R198)
    (∀ e es t, applyEffect e s = .ok t → applyAll (e :: es) s = applyAll es t) ∧
    (∀ pa bs, s.mem.wf = true → sealedRange s pa bs.length = false → ∃ t, applyEffect (.store pa bs) s = .ok t ∧
      ∀ x, t.mem.read x = if pa ≤ x ∧ x < pa + bs.length then bs.getD (x - pa) 0 else s.mem.read x) ∧
    (∀ (pa : Nat) (op : AmoOp) (wide : Bool) (y : Word), let n := if wide then 8 else 4
      s.mem.wf = true → sealedRange s pa n = false → ∃ t, applyEffect (.amo pa op wide y) s = .ok t ∧
      (∀ x, x < pa ∨ pa + n ≤ x → t.mem.read x = s.mem.read x) ∧
      let a := s.mem.readLE pa n
      let b := y.toNat % 2 ^ (8 * n)
      let int := fun k => (BitVec.ofNat (8 * n) k).toInt
      t.mem.readLE pa n = match op with
        | .add => (a + b) % 2 ^ (8 * n)
        | .and => a &&& b
        | .or => a ||| b
        | .xor => a ^^^ b
        | .min => if int a ≤ int b then a else b
        | .max => if int a ≤ int b then b else a
        | .minu => Nat.min a b
        | .maxu => Nat.max a b
        | .swp => b
        | .fadd => (Machine.Num.roundFp 5 .rne (Machine.Num.add (Machine.Num.ofF32 a) (Machine.Num.ofF32 b))).1 % 2 ^ (8 * n)
        | .fmin => (Machine.Num.minMax 5 false a b).1 % 2 ^ (8 * n)
        | .fmax => (Machine.Num.minMax 5 true a b).1 % 2 ^ (8 * n)
        | .cas => if a = 0 then b else a) ∧
    (∀ k a bs, applyEffect (.padStore k a bs) s = .ok (s.modCore k fun c => { c with pad := c.pad.writeBytes a bs })) ∧
    (let es := s.hart.chunk.effects
     (∀ e ∈ es, (∃ pa bs, e = .store pa bs) ∨ (∃ pa op wide y, e = .amo pa op wide y) ∨ ∃ k a bs, e = .padStore k a bs) →
     writesSealed s es = false → ∃ t u, commitChunk s = .ok t ∧ applyAll es (settleStores es s) = .ok u ∧ (settleStores es s).mem = s.mem ∧
       t.mem = u.mem ∧ ∀ c, (t.core c).pad = (u.core c).pad) ∧
    (let t := closeChunk s
     t.hart.chunk = Chunk.reset ∧ t.hart.ckpt = s.hart.r ∧ t.hart.ckptSdist = s.hart.sdist ∧ t.hart.ckptLease = leaseNow s.clock s.hart ∧
     t.hart.commits = s.hart.commits + 1 ∧ t.hart.rdl = 0 ∧ t.hart.r = s.hart.r ∧ t.mem = s.mem) ∧
    (∀ t b, s.hart.request = some t → s.hart.partner.bind s.hart? = some b → pairTimeout s =
      if 1000000 ≤ s.clock - t ∧ b.request = none then pairMismatch {} s else s) ∧
    -- CUMIN_QUERY and WQRY_ANSWER
    (s.queries[i]? = none → Gives (.evCuminQuery i) s s ∧ Gives (.evWqryAnswer i) s s) ∧
    (∀ q, s.queries[i]? = some q →
      (q.answer.isSome = true → Gives (.evCuminQuery i) s s) ∧
      (q.answer = none → q.arrived = none → (∃ x ∈ s.queries.take i, x.core = q.core ∧ x.desc = q.desc ∧ x.arrived = none) →
        Gives (.evCuminQuery i) s s) ∧
      (q.answer = none → q.arrived.isSome = true → Gives (.evCuminQuery i) s (answerDesc q.desc s)) ∧
      (q.answer = none → q.arrived = none → (∀ x ∈ s.queries.take i, x.core = q.core → x.desc = q.desc → x.arrived.isSome = true) → ∃ n,
        (∀ x ∈ s.queries, x.arrived.getD 0 < n) ∧
        let q' := { q with arrived := some n }
        let u := { s with queries := s.queries.set i q' }
        let units := homeUnits u q.desc 32
        let v := noteUse units u
        Gives (.evCuminQuery i) s (answerDesc q.desc u) ∧
        -- the only query of its descriptor that waits is answered with what Cumin serves, once the descriptor's slice is awake
        (OnlyWaiting s i q →
          (Retained u units → Gives (.evCuminQuery i) s (startExit units u)) ∧
          (∀ a item t, ¬Retained u units → serve i q' v = some (a, item, t) →
            Gives (.evCuminQuery i) s { t with queries := t.queries.set i { q' with answer := some a, item := item } }) ∧
          (¬Retained u units → serve i q' v = none → Gives (.evCuminQuery i) s v))) ∧
      -- none is answered before the query that arrived first
      (∀ n, q.answer = none → q.arrived = some n → (∀ j x, s.queries[j]? = some x → j ≠ i → x.desc = q.desc → x.answer = none →
        ∀ k, x.arrived = some k → n < k) →
        let units := homeUnits s q.desc 32
        (Retained s units → answerDesc q.desc s = startExit units s) ∧
        (¬Retained s units → serve i q (noteUse units s) = none → answerDesc q.desc s = noteUse units s)) ∧
      (let u := readLines (partOf s q.cap) q.desc 32 s
       let d := u.mem.window q.desc 32
       (∀ a, sharedAnswer u i q = some a → serve i q s = some (a, none, u)) ∧
       (sharedAnswer u i q = none →
       ((poisonCause u q.desc 32).isSome = true → serve i q s = some (0xFFFFFFFFFFFFFFFE, none, u)) ∧
       (poisonCause u q.desc 32 = none → gridOk d = false → ∃ t, serve i q s = some (0xFFFFFFFFFFFFFFFE, none, t) ∧ t.mem = u.mem) ∧
       (poisonCause u q.desc 32 = none → gridOk d = true →
         (∀ n, lowestReturn u q.desc = some n → serve i q s = some (gridAnswer d n, some n, { u with returns := u.returns.erase (q.desc, n) })) ∧
         (lowestReturn u q.desc = none → d.readLE 0 4 < d.readLE 4 4 → serve i q s =
           some (gridAnswer d (d.readLE 0 4), some (d.readLE 0 4), putMem (engineUnit u q.cap q.core) q.desc (leBytes 4 (d.readLE 0 4 + 1)) u)) ∧
         (lowestReturn u q.desc = none → d.readLE 4 4 ≤ d.readLE 0 4 →
           serve i q s = if outstanding u q.desc then none else some (0xFFFFFFFFFFFFFFFF, none, u))))) ∧
      (q.answer = none ∨ q.landed = true → Gives (.evWqryAnswer i) s s) ∧
      (∀ a, q.answer = some a → q.landed = false → q.fate = 0 ∨ q.fate = 1 →
        let qs := if q.fate = 0 then s.queries.set i { q with landed := true } else s.queries.eraseIdx i
        let u := settlePad (partOf s q.cap) q.core [(8 * q.word, 8)] (s.modCore q.core fun k =>
          { k with empty := k.empty.filter (· != q.word), pad := k.pad.writeLE (8 * q.word) 8 a.toNat })
        Gives (.evWqryAnswer i) s (releaseCore q.core { u with queries := qs })) ∧
      (∀ a n, q.answer = some a → q.landed = false → q.fate = 2 → q.item = some n → ∃ t, Gives (.evWqryAnswer i) s (releaseCore q.core (answerDesc q.desc t)) ∧
        t.returns = (q.desc, n) :: s.returns ∧ t.queries = s.queries.eraseIdx i ∧ (t.core q.core).pad = (s.core q.core).pad ∧ t.mem = s.mem ∧
        (t.core q.core).empty = if renamed s i q then (s.core q.core).empty else (s.core q.core).empty.filter (· != q.word))) ∧
    -- an item's answer, and which descriptors are well formed (R92)
    (∀ (g : Memory) (k : Nat), let order := g.readLE 0x0C 1
      let u := if order = 2 then g.readLE 4 4 - 1 - k else k
      let x := if order = 1 then u / g.readLE 0x0A 2 else u % g.readLE 8 2
      let y := if order = 1 then u % g.readLE 0x0A 2 else u / g.readLE 8 2
      gridAnswer g k = word (k % 2 ^ 32 * 2 ^ 32 + y % 2 ^ 16 * 2 ^ 16 + x % 2 ^ 16) ∧
      (gridOk g = true ↔ order ≤ 2 ∧ (∀ a, 0x0D ≤ a → a < 0x20 → g.read a = 0) ∧ g.readLE 8 2 ≠ 0 ∧ g.readLE 0x0A 2 ≠ 0 ∧
        g.readLE 4 4 ≤ g.readLE 8 2 * g.readLE 0x0A 2)) ∧
    -- CORE_CLEAR_COMPLETE
    ((s.core core).clearing = false ∨ (s.core core).held ≠ [] → Gives (.evCoreClearComplete core) s (admitWaiting core (finishRetest core s))) ∧
    ((s.core core).clearing = true → (s.core core).held = [] → ∃ u, Gives (.evCoreClearComplete core) s (admitWaiting core (finishRetest core u)) ∧
      (u.core core).rows = clearRows (s.cluster (clusterNo core)).repair (s.core core).rows ∧
      (u.core core).pad = [] ∧ (u.core core).empty = [] ∧ (u.core core).ports = Vector.replicate 4 [] ∧ (u.core core).cap = none ∧
      (u.core core).clearing = false ∧ (∀ p ∈ u.padPoison, p.1 ≠ core) ∧ u.mem = s.mem ∧ u.hart = s.hart) ∧
    ((s.core core).retest = false ∨ coreBusy s core = true → finishRetest core s = s) ∧
    (∀ x u, loseSpare core x u = (u.logPkg { code := Config.errorCode, kind := 9, core := core, detail := Config.errorDetail core }).modCluster
      (clusterNo core) fun c => { c with badSpares := (core % 32, x) :: c.badSpares }) ∧
    ((s.core core).retest = true → coreBusy s core = false →
      let c := s.cluster (clusterNo core)
      let known := (c.badSpares.filter fun x => x.1 == core % 32).map Prod.snd
      -- a row under an injection fails, and beside it those that the part has lost, which are free (log 24)
      let w := marchCore (core % 32) (injectedRow c (core % 32) ++ Config.failingRows s.fresh) known c.repair
      let t := finishRetest core s
      ((s.core core).boundRec = [] → (t.core core).retest = false ∧ (t.cluster (clusterNo core)).repair = w.table ∧
        (t.core core).removed = ((s.core core).removed || !w.passes) ∧
        (∀ x ∈ w.failed, (core % 32, x) ∈ (t.cluster (clusterNo core)).badSpares) ∧
        (∀ arr bank row, (arr, bank) ∈ w.banks → bank < 16 → row < 512 → ∀ b < 8, (t.core core).rows.read (8 * rowKey arr (core % 32) bank 0 row + b) = 0) ∧
        (∀ arr bank n, (arr, bank, n) ∈ w.tested → (arr, bank) ∈ w.banks → bank < 16 → n < 512 → ∀ b < 8,
          (t.core core).rows.read (8 * rowKey arr (core % 32) bank 1 n + b) = 0) ∧
        ∀ k < 8192, (0, (Config.padRow (Fin.ofNat 8192 k)).val / 512) ∈ w.banks → ∀ b < 8, (t.core core).pad.read (8 * k + b) = 0)) ∧
    -- MIGRATION_ARRIVAL, CORE_PARITY_ERROR, PARITY_REQUEUE_TIMEOUT
    (s.hart.run = .migrating none → (residents s (serviceCore s.here)).length < 4 →
      (∀ code d t, meetGroup (allTiles s.hart) s = .error (.fault code d t) → migrationArrival s = raise {} code d t) ∧
      (∀ t, meetGroup (allTiles s.hart) s = .ok t → migrationArrival s = admitWaiting s.hart.core (releaseCore s.hart.core ((leaveRows t).mod fun h =>
        { h with core := serviceCore s.here, phys := [], migrated := true, waitFrom := t.clock, run := .ready })))) ∧
    (∀ b, s.hart.run = .migrating b → 4 ≤ (residents s (serviceCore s.here)).length →
      migrationArrival s = s.mod fun h => { h with run := .blocked (.place b), waitFrom := s.clock }) ∧
    (s.hart.kind ≠ .task ∨ s.hart.run = .ended → coreParity s = s) ∧
    (s.hart.kind = .task → s.hart.run ≠ .ended → s.hart.partner = none →
      (overtaken s.hart = true → s.hart.chunk.exclusive = false → coreParity s = squash s) ∧
      ((overtaken s.hart = true → s.hart.chunk.exclusive = true) → ∃ d t, t = rollback {} .coreParity d (drain { s with fresh := s.fresh + 1 }) ∧
        (t.hart.run = .ended → coreParity s = t) ∧ (t.hart.run ≠ .ended → coreParity s = leaveCore t))) ∧
    (s.hart.core % 32 ≠ 31 → ∃ t, leaveCore s = releaseCore s.hart.core t ∧ (t.core s.hart.core).retest = true ∧ t.hart =
      { s.hart with core := serviceCore s.here, phys := [], migrated := false, run := .requeued (some s.hart.core), waitFrom := s.clock }) ∧
    (∀ k, s.hart.run = .requeued k → arriveTile s = s ∨
      ∃ j p, (arriveTile s).hart = { s.hart with core := j, phys := p, migrated := false, run := .clearing } ∧ k ≠ some j ∧ canStartOn s s.hart.cap j s.hart.ntiles = true) ∧
    (∀ k, s.hart.run = .requeued (some k) → 1000000 ≤ s.clock - s.hart.waitFrom →
      ∃ d, parityTimeout s = capsuleFault {} .coreParity d { s with fresh := s.fresh + 1 }) ∧
    ((∀ k, s.hart.run ≠ .requeued (some k)) ∨ s.clock - s.hart.waitFrom < 1000000 → parityTimeout s = s) ∧
    -- WAIT_SAFE_POINT, EXCLUSIVE_TOKEN_RELEASE, SAFE_DISTANCE, SPEC_WAY_TIMEOUT
    (let waited := 2048 ≤ s.clock - Nat.max s.hart.waitFrom s.hart.preemptAt
     (∀ x, s.hart.run = .blocked x → x.safe = true → waitSafePoint s =
       if waited then trySafe 0xFFFF (if x = .place none then addOff s.hart.r.pc (-4) else s.hart.r.pc) (some x) s else s) ∧
     (∀ b, s.hart.run = .staging b → waitSafePoint s = if waited then trySafe 0xFFFF s.hart.r.pc (some (.stage b)) s else s) ∧
     (∀ x, s.hart.run = .blocked x → x.safe = false → waitSafePoint s = s) ∧
     ∀ r, (Wait.group r).safe = false ∧ Wait.grant.safe = false ∧ (Wait.way r.val).safe = false ∧ Wait.unit.safe = false ∧ Wait.token.safe = false) ∧
    (∀ mask pc wait, (preemptPending s = false ∨ s.hart.exempt = true → trySafe mask pc wait s = s) ∧
      (roomFor s s.hart.r (liveMask s.hart mask) pc = none → trySafe mask pc wait s = s) ∧
      (preemptPending s = true → s.hart.exempt = false →
        (roomFor s s.hart.r (liveMask s.hart mask) pc = some true →
          trySafe mask pc wait s = s.mod fun h =>
            { h with run := .committing (.safe mask pc wait), waitFrom := if wait.isSome then h.waitFrom else s.clock }) ∧
        (roomFor s s.hart.r (liveMask s.hart mask) pc = some false → (trySafe mask pc wait s).hart = { s.hart with exempt := true } ∧
          (trySafe mask pc wait s).mem = s.mem))) ∧
    -- a safe point that finds no room at its commit: the task goes on where it was, exempt (R40)
    (∀ mask pc wait, s.hart.partner = none → roomFor s s.hart.r (liveMask s.hart mask) pc ≠ some true → ∃ t, roomGone (.safe mask pc wait) s = some t ∧
      t.hart.exempt = true ∧ t.mem = s.mem ∧ t.hart.chunk = s.hart.chunk ∧
      (wait = none → t.hart.run = .ready ∧ t.hart.r.pc = pc) ∧ (∀ x, wait = some x → x ≠ .place none → (∀ b, x ≠ .stage b) →
        t.hart.run = .blocked x ∧ t.hart.r.pc = pc)) ∧
    (∀ x, s.hart.run = .blocked x → s.hart.partner = none → x.yields = true → s.tokens.contains (tokenOf s.hart) = true → 2048 < s.clock - s.hart.waitFrom →
      releaseToken s = { s.mod fun h => { h with chunk := { h.chunk with exclusive := false, squashes := 3 } } with
        tokens := s.tokens.filter (· != tokenOf s.hart) }) ∧
    (∀ k, s.hart.run = .committing k → s.hart.partner = none → outboxEmpty s s.hart.task = false → s.tokens.contains (tokenOf s.hart) = true →
      2048 < s.clock - s.hart.waitFrom → releaseToken s = { s.mod fun h => { h with chunk := { h.chunk with exclusive := false, squashes := 3 } } with
        tokens := s.tokens.filter (· != tokenOf s.hart) }) ∧
    (s.clock - s.hart.waitFrom ≤ 2048 → releaseToken s = s) ∧
    (∀ x j t, s.hart.kind = .task → 4096 ≤ s.hart.sdist → s.hart.run = .ready → fetch (startIssue s) = .ok (x, some j, t) →
      ((∀ m, j ≠ .safe m) → (∀ hi, j ≠ .limm hi) → (∀ c r d a b, j ≠ .repf c r d a b) → safeDistance s = raise { word := x } .safeDistance none t) ∧
      (∀ m, j = .safe m → safeDistance s = s) ∧
      (∀ hi, j = .limm hi → safeDistance s = match limmPair hi t with
        | .error (_, .fault .safeDistance _ _) => raise { word := x } .safeDistance none t
        | _ => s) ∧
      (∀ c r d a b, j = .repf c r d a b → safeDistance s = match runRepf c r d a b t with
        | .error (_, .fault .safeDistance _ _) => raise { word := x } .safeDistance none t
        | _ => s)) ∧
    (∀ x t, fetch (startIssue s) = .ok (x, none, t) → safeDistance s = s) ∧
    (s.hart.sdist < 4096 → safeDistance s = s) ∧
    ((∀ l, s.hart.run ≠ .blocked (.way l)) ∨ s.clock - s.hart.waitFrom < 256 → specWayTimeout s = s) ∧
    (∀ l, s.hart.run = .blocked (.way l) → 256 ≤ s.clock - s.hart.waitFrom →
      (s.hart.chunk.exclusive = false → specWayTimeout s = onPair squash s) ∧
      (s.hart.chunk.exclusive = true → specWayTimeout s = squashOthers s.hart.id (waySet s s.hart l) s)) ∧
    -- a word that decodes to nothing
    Gives (.evIllegalInstruction w) s (raise { word := w.toNat } .illegal none s) ∧
    -- PRODUCER_COMPLETION, WAIT_TIME_REACHED
    (s.hart.inflight = [] → completeProducer s = s) ∧
    (∀ p rest, s.hart.inflight = p :: rest → completeProducer s = deliver p (s.mod fun h => { h with inflight := rest })) ∧
    (∀ t b, s.hart.run = .blocked (.wait t b) →
      reachTime s = if t.toNat ≤ s.now.toNat then s.mod fun h => { h with run := .ready } else s) ∧
    -- SUMMARY_WRITE
    ((s.cluster cl).summarised = true → Gives (.evSummaryWrite cl v) s
      (s.logPkg { code := Code.summaryRepeat.num, kind := 1, core := serviceCore cl, detail := v })) ∧
    ((s.cluster cl).summarised = false → (s.cluster cl).diagstat.getLsbD 1 = false → bitsOf v.toNat 31 24 ≠ 3 → Gives (.evSummaryWrite cl v) s
      (bootProgress (s.modCluster cl fun c => { c with summary := word (bitsOf v.toNat 31 8 * 256), summarised := true })))

/-- R224, R259, R285, R290 to R292: Nutmeg's division and credit, power gating, retention, and the firmware that waits. The numbers of the
units that enter retention are the model's (log 84), and so are that a WFE which ends takes the doorbell (log 139) and that an event leaves the state as it is where its condition does not hold (log
50). -/
def Obligations.PowerEvents : Prop :=
  ∀ (cl u : Nat) (s : State),
    let k := s.cluster cl
    -- POWER_DIVISION: a gated cluster receives none, one that is awake its 3 units for the cores at least; demand is counted anew
    (∃ t, Gives .evPowerDivision s t ∧ t.mem = s.mem ∧ t.hart = s.hart ∧ ∀ c < 128, (t.cluster c).demand = 0 ∧
      (gated s c = true → (t.cluster c).share = 0) ∧ (gated s c = false → 3 ≤ (t.cluster c).share)) ∧
    -- POWER_SHARE_AVAILABLE: the products that wait for credit issue once it is back at zero
    (k.credit < 0 → Gives (.evPowerShareAvailable cl) s s) ∧
    (0 ≤ k.credit → ∃ t, Gives (.evPowerShareAvailable cl) s t ∧ { t with hart := s.hart, parked := s.parked } = s ∧
      (∀ te, s.here = cl → s.hart.run = .blocked (.power te) → t.hart = { s.hart with run := .ready }) ∧
      ((∀ te, s.hart.run ≠ .blocked (.power te)) → t.hart = s.hart)) ∧
    -- CLUSTER_POWER_GATE and CLUSTER_WAKE
    (cl < 128 → gated s cl = false → idleCluster s cl = true → 50000 ≤ s.clock - k.idleFrom → ∃ t, Gives (.evClusterPowerGate cl) s t ∧
      t.cluster cl = { k with clstat := k.clstat ||| 4 } ∧ t.retained.contains cl = true ∧ t.mem = s.mem ∧ t.hart = s.hart ∧ t.parked = s.parked) ∧
    (128 ≤ cl ∨ gated s cl = true ∨ idleCluster s cl = false ∨ s.clock - k.idleFrom < 50000 → Gives (.evClusterPowerGate cl) s s) ∧
    (gated s cl = true → idleCluster s cl = false → ∃ t, Gives (.evClusterWake cl) s (admitCluster cl t) ∧
      t.cluster cl = { k with clstat := k.clstat &&& ~~~4, idleFrom := s.clock } ∧ t.retained = s.retained ∧ t.mem = s.mem ∧ t.hart = s.hart ∧ t.parked = s.parked) ∧
    (gated s cl = false ∨ idleCluster s cl = true → Gives (.evClusterWake cl) s s) ∧
    -- RETENTION_ENTRY and RETENTION_EXIT change no byte: an operand buffer of a gated cluster, or, after 50 microseconds without an access, an L2
    -- slice whose cluster is gated or an RDC data group
    (∃ t, Gives (.evRetentionEntry u) s t ∧ { t with retained := s.retained } = s ∧
      let old := 50000 ≤ s.clock - assoc 0 s.used u
      (u < 128 → gated s u = true → t.retained.contains u = true) ∧ (u < 128 → gated s u = false → t = s) ∧
      (128 ≤ u → u < 2176 → gated s ((u - 128) / 16) = true → old → t.retained.contains u = true) ∧
      (128 ≤ u → u < 2176 → gated s ((u - 128) / 16) = false → t = s) ∧ (128 ≤ u → ¬old → t = s) ∧
      (2176 ≤ u → u < 2304 → old → t.retained.contains u = true) ∧ (2304 ≤ u → t = s)) ∧
    -- an access counts from now on
    (∀ us x, x ∈ us → assoc 0 (noteUse us s).used x = s.clock) ∧
    ((∀ x ∈ s.exiting, x.1 = u → s.clock < x.2) → Gives (.evRetentionExit u) s s) ∧
    ((∃ x ∈ s.exiting, x.1 = u ∧ x.2 ≤ s.clock) → ∃ t, Gives (.evRetentionExit u) s (releaseHeld t) ∧
      { t with retained := s.retained, exiting := s.exiting } = s ∧ t.retained.contains u = false) ∧
    (s.heldx = [] → releaseHeld s = s) ∧
    -- a gate's release waits for its slice, and goes when that is awake
    (∀ task fx cap core h v body (base : Word), s.heldx = [(task, fx, .sendx cap core h base v body)] → bitsOf base.toNat 63 60 = 1 →
      fencedOff s task fx = false →
      let units := homeUnits s (bitsOf base.toNat 47 0) 8
      let t := noteUse units { s with heldx := [] }
      (Retained s units → releaseHeld s = startExit units s) ∧
      (¬Retained s units → releaseHeld s = releaseSendx (contextOf t task) cap core h base v body t)) ∧
    -- an access to a unit in retention starts its exit at once, which takes 4,200 cycles
    (∀ us, u ∈ us → u ∈ s.retained → ∃ x ∈ (startExit us s).exiting, x.1 = u ∧ (x ∈ s.exiting ∨ x.2 = s.clock + 4200)) ∧
    -- MANAGEMENT_DOORBELL ends a WFE, MANAGEMENT_WAKE a HALT
    (s.harts.any (inWfe cl) = false → Gives (.evManagementDoorbell cl) s (s.modCluster cl fun c => { c with doorbell := true })) ∧
    (s.hart.kind = .firmware → s.hart.core = serviceCore cl → s.hart.run = .wfe → ∃ t, Gives (.evManagementDoorbell cl) s t ∧
      t.hart = { s.hart with run := .ready } ∧ (t.cluster cl).doorbell = false ∧ t.mem = s.mem) ∧
    (∃ t, Gives (.evManagementWake cl) s t ∧ { t with hart := s.hart, parked := s.parked } = s ∧ t.hart =
      if s.hart.kind = .firmware ∧ s.hart.core = serviceCore cl ∧ s.hart.run = .halted then { s.hart with run := .ready } else s.hart)

/-- R196, R252, R258, R286, R301, R305, R310 to R313, R326, R327, R329, R330: boot, supplies, the time unit, heartbeats, fatal errors, diagnosis
and tier 1. The model's own choices in it: a power-up implies an input within its range (log 88), the slot after an update (log 102), the 50 ms of
a dump (log 126), what counts as answering Saffron (log 85), and that an event leaves the state as it is where its condition does not hold
(log 50). -/
def Obligations.PackageEvents : Prop :=
  ∀ (cl n : Nat) (good : Bool) (image : List Byte) (mv x : Int) (l : List Nat) (s : State),
    let k := s.cluster cl
    -- POWER_UP: slot A, else slot B, else the compute dies stay in reset
    (s.phase = .off → s.saffron.loaded = false → s.resetting = none →
      let u := { s with input := none, out := s.out ++ [Out.supplies true], phase := Phase.booting }
      (kitOk s.saffron.flashA = true → Gives .evPowerUp s (takeKit false s.saffron.flashA u)) ∧
      (kitOk s.saffron.flashA = false → kitOk s.saffron.flashB = true → Gives .evPowerUp s (takeKit true s.saffron.flashB u)) ∧
      (kitOk s.saffron.flashA = false → kitOk s.saffron.flashB = false → Gives .evPowerUp s u)) ∧
    -- the warm reset after an update of slot B boots from it (log 102)
    (s.phase = .booting → s.saffron.loaded = false → s.resetting = some 2 → s.saffron.updated = some true → kitOk s.saffron.flashB = true →
      Gives .evPowerUp s (takeKit true s.saffron.flashB { s with phase := .booting })) ∧
    (coldReset s).saffron.updated = s.saffron.updated ∧
    (s.phase ≠ .off → s.phase ≠ .booting → Gives .evPowerUp s s) ∧
    (s.resetting = some 3 → s.clock - s.resetAt < 500000000 → Gives .evPowerUp s s) ∧
    -- IMAGE_DELIVERY, SUMMARY_TIMEOUT
    (s.phase ≠ .booting ∨ s.saffron.loaded = false ∨ 128 ≤ cl ∨ k.image = true ∨ 2 ≤ k.badImages ∨ fed s cl = false →
      Gives (.evImageDelivery cl image) s s) ∧
    (s.phase = .booting → s.saffron.loaded = true → cl < 128 → k.image = false → k.badImages < 2 → fed s cl = true →
      (imageDigest s.kit cl = some (Crypto.sha384 image) →
        Gives (.evImageDelivery cl image) s (beginTest (startFirmware cl (s.modCluster cl fun c => { c with image := true })))) ∧
      (imageDigest s.kit cl ≠ some (Crypto.sha384 image) → k.badImages = 0 →
        Gives (.evImageDelivery cl image) s (s.modCluster cl fun c => { c with badImages := 1 })) ∧
      (imageDigest s.kit cl ≠ some (Crypto.sha384 image) → k.badImages = 1 → Gives (.evImageDelivery cl image) s
        (bootProgress (beginTest (fenceOther cl (s.modCluster cl fun c => { c with badImages := 2 })))))) ∧
    -- the digest is that of the section that the row of the placement table for the cluster names (R328, R329)
    (∀ m x i y, kitSection m 2 = some x → i < x.len / 4 → x.byte m (4 * i) ≤ cl → cl ≤ x.byte m (4 * i + 1) →
      (∀ j < i, ¬ (x.byte m (4 * j) ≤ cl ∧ cl ≤ x.byte m (4 * j + 1))) → (kitSections m)[x.byte m (4 * i + 2)]? = some y →
      imageDigest m cl = some y.digest) ∧
    (∀ t, s.saffron.testAt = some t →
      (s.phase ≠ .fatal → cl < 128 → k.summarised = false → 500000000 ≤ s.clock - t →
        let u := s.modCluster cl fun c => { c with summary := 0x03000000, summarised := true }
        Gives (.evSummaryTimeout cl) s (bootProgress (if k.fencedOther = true then u else fenceOther cl u))) ∧
      (s.phase = .fatal ∨ k.summarised = true ∨ s.clock - t < 500000000 → Gives (.evSummaryTimeout cl) s s)) ∧
    (s.saffron.testAt = none → Gives (.evSummaryTimeout cl) s s) ∧
    -- WARM_RESET_TIMEOUT, INPUT_OUT_OF_RANGE, INPUT_LOSS
    (s.resetting = some 2 → 2000000000 ≤ s.clock - s.resetAt → Gives .evWarmResetTimeout s (coldReset s)) ∧
    (s.resetting ≠ some 2 ∨ s.clock - s.resetAt < 2000000000 → Gives .evWarmResetTimeout s s) ∧
    (40000 ≤ mv.natAbs → mv.natAbs ≤ 60000 → Gives (.evInputOutOfRange mv) s s) ∧
    (mv.natAbs < 40000 ∨ 60000 < mv.natAbs → s.phase = .off → Gives (.evInputOutOfRange mv) s ({ s with input := some mv }.emit (.supplies false))) ∧
    (mv.natAbs < 40000 ∨ 60000 < mv.natAbs → s.phase ≠ .off →
      Gives (.evInputOutOfRange mv) s ((coldReset { s with input := some mv }).emit (.supplies false))) ∧
    (s.phase = .off → Gives .evInputLoss s s) ∧
    (s.phase ≠ .off → Gives .evInputLoss s (coldReset s)) ∧
    -- HEARTBEAT_ECHO, HEARTBEAT_FAILURE
    (∃ t, Gives (.evHeartbeatEcho l good) s t ∧ t.mem = s.mem ∧ t.hart = s.hart ∧ (good = true → t.saffron.misses = s.saffron.misses + 1) ∧
      (good = false → t.saffron.misses = 0) ∧ (l.contains cl = true → (t.cluster cl).misses = k.misses + 1)) ∧
    (k.misses < 3 → Gives (.evHeartbeatFailure (some cl)) s s) ∧
    (3 ≤ k.misses → Gives (.evHeartbeatFailure (some cl)) s
      (failStaging cl (abortMigrated cl (fenceOther cl (s.modCluster cl fun c => { c with misses := 0, lost := true }))))) ∧
    (k.lost = true → answers s cl = false) ∧ (l.contains cl = false → ∃ t, Gives (.evHeartbeatEcho l good) s t ∧ (t.cluster cl).lost = false ∧
      (t.cluster cl).misses = 0) ∧
    (s.saffron.misses < 3 → Gives (.evHeartbeatFailure none) s s) ∧
    (3 ≤ s.saffron.misses → Gives (.evHeartbeatFailure none) s (packageFatal 2 { s with saffron := { s.saffron with misses := 0 } })) ∧
    -- PACKAGE_FATAL_ERROR
    (s.down = true → Gives (.evPackageFatalError n) s s) ∧
    (s.phase = .fatal → ∃ t, Gives (.evPackageFatalError n) s t ∧ t.phase = .fatal ∧ t.hart = s.hart ∧
      t.saffron.nfatal = Nat.min 65535 (s.saffron.nfatal + 1)) ∧
    (s.down = false → s.phase ≠ .fatal → ∃ t, Gives (.evPackageFatalError n) s t ∧ t.phase = .fatal ∧ t.resetting = none ∧ t.hart = s.hart ∧ t.saffron.trigger = n ∧
      t.saffron.nfatal = 0 ∧ t.saffron.dumpTime = s.now ∧ ∀ a < dumpBase, t.mem.read a = s.mem.read a) ∧
    -- ARRAY_DIAGNOSIS
    (k.clstat.getLsbD 1 = false ∨ k.grant.isSome = true ∨ k.failed = true → Gives (.evArrayDiagnosis cl good) s s) ∧
    (k.clstat.getLsbD 1 = true → k.grant = none → k.failed = false →
      Gives (.evArrayDiagnosis cl true) s (s.modCluster cl fun c => { c with failed := true }) ∧
      Gives (.evArrayDiagnosis cl false) s (logFence (serviceCore cl) (admitCluster cl (s.modCluster cl (writeClstat 0))))) ∧
    -- the third time within 24 hours is not diagnosed again
    (k.clstat.getLsbD 1 = true → markSuspect cl s = s) ∧
    (k.clstat.getLsbD 1 = false → ∃ t, markSuspect cl s = fenceOther cl t ∧ (t.cluster cl).clstat = k.clstat ||| 2 ∧ (t.cluster cl).failed =
      (k.failed || decide (2 ≤ k.suspects.countP fun x => decide (s.clock - x < 86400000000000)))) ∧
    -- PTP_FRAME, PPS_INPUT: OFFSET and SOURCE; a negative offset is slewed once queues have been enabled
    (∀ src : BitVec 3, let i := if src = 1 then Instr.evPtpFrame x else .evPpsInput x (decide (src = 3))
      src = 1 ∨ src = 2 ∨ src = 3 → ∃ m : Sumac, Gives i s (passTimes { s with fresh := s.fresh + 2, sumac := m }) ∧ m.source = src ∧ m.holds = 0 ∧
        m.offset = BitVec.ofInt 32 (max (-2147483648) (min 2147483647 x)) ∧
        (x < 0 → s.sumac.armed = true → m.slew = x.natAbs ∧ m.sec = s.sumac.sec ∧ m.ns = s.sumac.ns)) ∧
    -- PPS_OUTPUT, HOLDOVER
    (s.sumac.pps = s.sumac.sec → Gives .evPpsOutput s s) ∧
    (s.sumac.pps ≠ s.sumac.sec → Gives .evPpsOutput s ({ s with sumac := { s.sumac with pps := s.sumac.sec } }.emit .pps)) ∧
    (s.sumac.source ≠ 0 → Gives .evHoldover s { s with sumac := { s.sumac with state := 3, source := 0, holds := 0, holdNs := 0 } }) ∧
    -- TIER1_WRITEBACK, EPOCH_REENCRYPT
    ((∀ d ∈ s.dirty, d.line ≠ n) → Gives (.evTier1Writeback n) s s) ∧
    ((s.version n).version = 0xFFFFFFFF → Gives (.evTier1Writeback n) s s) ∧
    (∀ a d b, s.dirty = a ++ d :: b → (∀ y ∈ a, y.line ≠ n) → d.line = n → (mayWriteBack s d = false → Gives (.evTier1Writeback n) s s) ∧
      (mayWriteBack s d = true → (s.version n).version ≠ 0xFFFFFFFF →
        Gives (.evTier1Writeback n) s (settleLines [n] (storeLine n ((s.version n).version + 1) s)) ∧
        ((storeLine n ((s.version n).version + 1) s).version n).version = (s.version n).version + 1)) ∧
    (versionFull s n = false → Gives (.evEpochReencrypt n) s s) ∧
    (versionFull s n = true → ∃ u, Gives (.evEpochReencrypt n) s (settleLines (linesOf n) u) ∧ u.mem = s.mem ∧ u.dirty = s.dirty ∧
      gotEpoch (u.granule n) = (gotEpoch (s.granule n) + 1) % 2 ^ 32 ∧ gotOwner (u.granule n) = gotOwner (s.granule n))

namespace Sys2Proof.Claims

/-- Queue `x` is the selection of R283: of the eligible partitions the one with the largest credit after its WADM was added, the lowest on
a tie; of its eligible queues one of the highest priority, the first from the level's pointer on. -/
def Selected (s : State) (p x : Nat) : Prop :=
  let credit := fun (b : Nat) => (s.part b).cr + Int.ofNat (s.part b).wadm
  p ∈ eligibleParts s ∧ (∀ b ∈ eligibleParts s, credit b ≤ credit p ∧ (credit b = credit p → p ≤ b)) ∧
  (s.queue x).partition = some p ∧ eligible s (s.queue x) = true ∧
  (∀ y ∈ s.queues, y.partition = some p → eligible s y = true → y.pri ≤ (s.queue x).pri) ∧
  let v := (s.queue x).pri
  let level := levelQueues s p v
  let at_ := (s.part p).ptr.get (Fin.ofNat 8 v)
  ∃ k < level.length, level[(at_ + k) % level.length]? = some x ∧
    ∀ j < k, ∀ y, level[(at_ + j) % level.length]? = some y → eligible s (s.queue y) = false

/-- The cores of a capsule's footprint that a claim takes: not those that R158 keeps bound to it, or that another claim holds. -/
def Claimable (s : State) (c : Capsule) (k : Nat) : Prop :=
  (∃ x ∈ c.foot ++ c.foot2, x.1 = k) ∧ (s.core k).boundRec = [] ∧ (s.core k).claim = none

/-- No error of the part waits for a read, and no sector of a range is poisoned (R256, R259). -/
def Sound (s : State) (pa n : Nat) : Prop := s.faults = [] ∧ s.sram = [] ∧ poisonCause s pa n = none

/-- The head stays selected while a home slice leaves retention (R259). -/
def awaits (n : Nat) (units : List Nat) (s : State) : State :=
  { startExit units s with selected := n :: s.selected }

end Sys2Proof.Claims

/-- R45, R91, R204, R211, R235, R269 to R289, R298, R299, R303, R304: selection, admission, launches, pre-emption, watchdogs, and the end of a
capsule. Admission waits for a home slice in retention (R259). The model's own choices in it: an event leaves the state as it is where its
condition does not hold (log 50); a reserved value of a level is RECORD_FORMAT (log 64), and so is an XLIST off a multiple of 256 (log 72); the 20
microseconds count from the first hold (log 37); an entry from a GO carries no list (log 73); of the entry, the record and a list in it are looked
at for poison (log 74); a teardown that no watchdog asks for is not logged itself (log 76); a STALL capsule that is idle ends at its STALL time
(log 109); JOIN_STALL checks the open chunks first (log 108); the pointer of a level whose queues have changed is taken modulo their number
(log 152). -/
def Obligations.AdmissionEvents : Prop :=
  ∀ (n : Nat) (s : State),
    let q := s.queue n
    -- QUEUE_SELECT
    (4 ≤ s.selected.length ∨ s.phase ≠ .running → Gives .evQueueSelect s s) ∧
    (s.selected.length < 4 → s.phase = .running → eligibleParts s = [] → Gives .evQueueSelect s s) ∧
    (s.selected.length < 4 → s.phase = .running → ∃ t, Gives .evQueueSelect s t ∧ t.mem = s.mem ∧ t.hart = s.hart ∧ t.caps = s.caps ∧
      (t.selected = s.selected ∨ ∃ x, t.selected = s.selected ++ [x] ∧ (s.queue x).waiting ≠ 0 ∧ (s.queue x).held = false ∧ (s.queue x).en = true)) ∧
    -- with a stage free and a queue eligible, one is selected, and the credits count (R282, R283)
    (s.selected.length < 4 → s.phase = .running → (s.queues.map Queue.no).Nodup → eligibleParts s ≠ [] → ∃ t p x, Gives .evQueueSelect s t ∧
      Selected s p x ∧ t.selected = s.selected ++ [x] ∧
      (t.part p).cr = (s.part p).cr + Int.ofNat (s.part p).wadm - Int.ofNat (((eligibleParts s).map fun b => (s.part b).wadm).foldl (· + ·) 0) ∧
      (∀ b ∈ eligibleParts s, b ≠ p → (t.part b).cr = (s.part b).cr + Int.ofNat (s.part b).wadm) ∧
      ∀ b, b ∉ eligibleParts s → (t.part b).cr = (s.part b).cr) ∧
    (∀ y : Queue, eligible s y = true ↔ ∃ p, y.partition = some p ∧ y.en = true ∧ y.waiting ≠ 0 ∧ y.held = false ∧ y.tearing = false ∧
      (y.serial = true → s.inFlight y.no = []) ∧ (s.inFlight y.no).length < y.space ∧ s.inReset p = false ∧ s.selected.contains y.no = false) ∧
    -- ADMIT_HEAD
    (s.selected.contains n = false → Gives (.evAdmitHead n) s s) ∧
    (∀ e pn, s.selected.contains n = true → q.head? s = some e → q.partition = some pn → q.en = true → q.held = false → q.tearing = false →
      s.inReset pn = false →
      let u := { s with selected := s.selected.filter (· != n) }
      -- the entry is read, with an extent list that it holds; POISON or INTEGRITY there tears the queue down (R256, R275, R299)
      let list := e.record.readLE 0x98 8
      let len := 32 * (bitsOf (e.record.readLE 0x38 8) 23 18 + 1)
      let inside := q.headEntry ≤ list ∧ list + len ≤ q.headEntry + 4096
      let units := homeUnits u q.headEntry 256 ++ if inside then homeUnits u list len else []
      let w := noteUse units u
      let v := if inside then readLines pn list len (readLines pn q.headEntry 256 w) else readLines pn q.headEntry 256 w
      let bad := ∃ x, ((q.headEntry ≤ x ∧ x < q.headEntry + 256) ∨ (inside ∧ list ≤ x ∧ x < list + len)) ∧ ∃ k, (x / 32, k) ∈ v.poison
      (Retained s units → Gives (.evAdmitHead n) s (awaits n units u)) ∧
      (¬Retained s units → bad → Gives (.evAdmitHead n) s (tearDown n none v)) ∧
      (¬Retained s units → ¬bad →
        (timeHolds v (v.part pn) e.record = true → Gives (.evAdmitHead n) s (holdHead n 2 v)) ∧
        (timeHolds v (v.part pn) e.record = false →
          (∀ code t, verify q (v.part pn) e v = (.error (.refused code), t) → Gives (.evAdmitHead n) s (refuseHead n code e t)) ∧
          (∀ t, verify q (v.part pn) e v = (.error .waits, t) → Gives (.evAdmitHead n) s { t with selected := n :: t.selected }) ∧
          (∀ c t, verify q (v.part pn) e v = (.ok c, t) → Gives (.evAdmitHead n) s (placeHead n (v.part pn) c e t))))) ∧
    -- the arming window (R287): with an ARMWIN of 0 a capsule is an ordinary one; a partition holds 64 armed capsules
    (∀ (p : Part) (r : Memory), let t := r.readLE 0xA0 8
      timeHolds s p r = true ↔ s.now.toNat + p.window < t ∨ (t ≠ 0 ∧ p.window ≠ 0 ∧ 64 ≤ s.caps.countP fun c => c.part == p.no && c.state == .armed)) ∧
    (∀ (c : Capsule) (p : Part), (arms p c = true ↔ c.field 0xA0 ≠ 0 ∧ p.window ≠ 0) ∧
      -- what step 7 compares DEADLINE with (R274)
      releaseTime s p c = if c.field 0xA0 ≠ 0 ∧ p.window ≠ 0 then c.field 0xA0 else s.now) ∧
    -- where a list may lie (R275), and that no gate lies in the dump or the protected region (R253, R278, R311)
    (∀ pn owner k xlist, let len := 32 * k
      let list := (List.range k).map fun i => extentAt s.mem (xlist + 32 * i)
      (xlist % 256 ≠ 0 ∨ dumpBase < xlist + len ∨ granuleOf xlist ≠ granuleOf (xlist + len - 1) →
        readList q pn owner k xlist s = (.error (.refused .recordFormat), s)) ∧
      (xlist % 256 = 0 → xlist + len ≤ dumpBase → granuleOf xlist = granuleOf (xlist + len - 1) →
        let g := s.granule (granuleOf xlist)
        let inside := q.headEntry ≤ xlist ∧ xlist + len ≤ q.headEntry + 4096
        let own := gotState g = 1 ∧ gotOwner g = owner
        (inside → readList q pn owner k xlist s = (.ok list, s)) ∧
        (¬inside → ¬own → readList q pn owner k xlist s = (.error (.refused .extentOwner), s)) ∧
        (¬inside → own → Retained s (homeUnits s xlist len) →
          readList q pn owner k xlist s = (.error .waits, startExit (homeUnits s xlist len) s)) ∧
        (¬inside → own → ¬Retained s (homeUnits s xlist len) → Sound s xlist len →
          readList q pn owner k xlist s = (.ok list, noteUse (homeUnits s xlist len) s)))) ∧
    (∀ b, bitsOf b 63 60 = 1 → dumpBase ≤ bitsOf b 47 0 → endpointOk b = false) ∧
    (∀ e pn, s.selected.contains n = true → q.head? s = some e → q.partition = some pn →
      q.en = false ∨ q.held = true ∨ q.tearing = true ∨ s.inReset pn = true →
      Gives (.evAdmitHead n) s { s with selected := s.selected.filter (· != n) }) ∧
    (∀ e, q.head? s = some e ↔ q.waiting ≠ 0 ∧ e = ringEntry s (q.srbase.toNat + 4096 * ((q.placed - q.waiting) % q.ringSize))) ∧
    (∀ e p, reservedOk e.record = false ∨ scopeOk e.record = false → verify q p e s = (.error (.refused .recordFormat), s)) ∧
    (∀ e p, reservedOk e.record = true → scopeOk e.record = true →
      Crypto.kwUnwrap (Crypto.keyBytes Config.deviceKey) (e.record.readBytes 0xC8 40) = none → verify q p e s = (.error (.refused .sealFail), s)) ∧
    -- the gate (R279): its word is read and compared, and a head below it is held
    (∀ (c : Capsule), (bitOf c.ctl 13 = false → gateHolds c s = (.passed, s)) ∧
      (∀ pa, bitOf c.ctl 13 = true → checkExtents c.exts (c.field 0xB0) 8 .read = .ok pa →
        let units := homeUnits s pa 8
        (Retained s units → gateHolds c s = (.waits, startExit units s)) ∧
        (¬Retained s units → Sound s pa 8 →
          gateHolds c s = (if s.mem.readLE pa 8 < (c.field 0xB8).toNat then .below pa else .passed, noteUse units s)))) ∧
    (∀ (c : Capsule) e p u, gateHolds c s = (.waits, u) → placeHead n p c e s = { u with selected := n :: u.selected }) ∧
    (∀ (c : Capsule) e p u, gateHolds c s = (.passed, u) →
      let units := ((headerAt c).toList.map fun pa => homeUnits u pa 4).flatten
      let t := noteUse units u
      (Retained u units → placeHead n p c e s = awaits n units u) ∧
      (¬Retained u units →
        (∀ core f, arms p c = true → p.klass = 1 → bindReserved t p c = some (core, f) →
          placeHead n p c e s = launch c f (some core) (hintOf core) true t) ∧
        ((arms p c = true → p.klass = 1 → bindReserved t p c = none) →
          (∀ f, bindAmong t p c c.hint none (eligibleCore t p n none []) = some f → placeHead n p c e s = launch c f none c.hint (arms p c) t) ∧
          (bindAmong t p c c.hint none (eligibleCore t p n none []) = none →
            placeHead n p c e s = if (bindAmong t p c c.hint none fun _ => true).isSome then holdHead n 3 t else refuseHead n .noFootprint e t)))) ∧
    (∀ (c : Capsule) e p pa u, gateHolds c s = (.below pa, u) → ∃ watched, placeHead n p c e s = (holdHead n 1 u).modQueue n fun x =>
      { x with gatest := word (2 ^ 63 + pa), watched := watched }) ∧

    -- ARMING_WINDOW_ENTRY, GATE_POLL
    (∀ e p, q.head? s = some e → q.partition = some p → Gives (.evArmingWindowEntry n) s
      (if q.held = true ∧ q.why = 2 ∧ timeHolds s (s.part p) e.record = false then s.modQueue n Queue.release else s)) ∧
    (∀ e, q.head? s = some e →
      let polls := q.held = true ∧ q.why = 1 ∧ q.watched = false
      let pa := bitsOf q.gatest.toNat 47 0
      let units := homeUnits s pa 8
      let u := noteUse units s
      (¬polls → Gives (.evGatePoll n) s s) ∧
      (polls → Retained s units → Gives (.evGatePoll n) s (startExit units s)) ∧
      (polls → ¬Retained s units → Sound s pa 8 →
        Gives (.evGatePoll n) s (if e.record.readLE 0xB8 8 ≤ s.mem.readLE pa 8 then u.modQueue n Queue.release else u))) ∧
    (q.waiting = 0 → Gives (.evArmingWindowEntry n) s s ∧ Gives (.evGatePoll n) s s ∧ Gives (.evPreemptionSearch n) s s) ∧
    -- LAUNCH_RELEASE
    (s.cap? n = none → ∀ i ∈ [Instr.evLaunchRelease n, .evCapsuleComplete n, .evJoinStall n, .evDeadline n], Gives i s s) ∧
    (∀ c, s.cap? n = some c →
      (∀ m, c.state = .armed → (c.field 0xA0).toNat ≤ s.now.toNat → c.launch = some m → Gives (.evLaunchRelease n) s
        ({ s with net := s.net ++ [m] }.modCap n fun x => { x with launch := none, tlaunch := s.now, state := .running })) ∧
      (c.state ≠ .armed ∨ s.now.toNat < (c.field 0xA0).toNat → Gives (.evLaunchRelease n) s s) ∧
      -- CAPSULE_COMPLETE
      (effectsVisible s n = false ∨ c.state = .armed → Gives (.evCapsuleComplete n) s s) ∧
      (∀ status, effectsVisible s n = true → c.state = .ending status → Gives (.evCapsuleComplete n) s (endCapsule c status s)) ∧
      (effectsVisible s n = true → c.state = .running →
        (capsuleIdle s n = false → Gives (.evCapsuleComplete n) s s) ∧
        (capsuleIdle s n = true → c.joins = [] → Gives (.evCapsuleComplete n) s (endCapsule c 0 s)) ∧
        (capsuleIdle s n = true → c.stall = 0 → Gives (.evCapsuleComplete n) s (endCapsule c 0 s)) ∧
        (∀ r rs, capsuleIdle s n = true → c.joins = r :: rs → c.stall ≠ 0 →
          ((∃ x ∈ c.joins, 1000 * c.stall ≤ s.clock - x.stamp) →
            Gives (.evCapsuleComplete n) s (abortCapsule n Code.joinStall.num (joinReport s c r) s)) ∧
          ((∀ x ∈ c.joins, s.clock - x.stamp < 1000 * c.stall) → Gives (.evCapsuleComplete n) s s))) ∧
      -- JOIN_STALL, DEADLINE
      (c.stall = 0 → Gives (.evJoinStall n) s s) ∧
      (∀ r rs, c.state = .running → c.joins.filter (fun r => decide (1000 * c.stall ≤ s.clock - r.stamp)) = r :: rs → c.stall ≠ 0 →
        -- the check of R204: the capsule's chunks whose reads were overtaken are squashed instead
        (overtakenTasks s n = [] → Gives (.evJoinStall n) s ((abortCapsule n Code.joinStall.num (joinReport s c r) s).modCap n fun x =>
          { x with nflt := Nat.min 65535 (x.nflt + rs.length) })) ∧
        (overtakenTasks s n ≠ [] → Gives (.evJoinStall n) s (onHarts (overtakenTasks s n) (onPair squash) s))) ∧
      (c.joins.filter (fun r => decide (1000 * c.stall ≤ s.clock - r.stamp)) = [] → Gives (.evJoinStall n) s s) ∧
      (let d := c.field 0xA8
       (d = 0 ∨ s.now.toNat < d.toNat → Gives (.evDeadline n) s s) ∧
       (d ≠ 0 → d.toNat ≤ s.now.toNat → c.state = .running ∨ c.state = .armed →
         Gives (.evDeadline n) s (abortCapsule n Code.deadline.num (bareReport s n Code.deadline.num d) s)))) ∧
    -- PENDING_SLOT_COPY
    (q.pending = [] → Gives (.evPendingSlotCopy n) s (releaseHeld s)) ∧
    (∀ k ks, q.pending = k :: ks → q.full = true → Gives (.evPendingSlotCopy n) s s) ∧
    (∀ k ks, q.pending = k :: ks → q.full = false → Gives (.evPendingSlotCopy n) s
      ((enqueue n (q.slots.readBytes (256 * k) 256) [] (s.modQueue n fun x => { x with pending := ks })).modQueue n
        fun x => { x with free := setBit x.free k true })) ∧
    -- PREEMPTION_SEARCH, CLAIM_EXPIRY
    (q.why ≠ 3 ∨ q.held = false ∨ (∀ t, q.heldAt = some t → s.clock - t < 20000) ∨ (∃ k ∈ s.cores, k.claim = some (n, q.headNo)) ∨
      (∀ pn, q.partition = some pn → (s.part pn).klass ≠ 0) → Gives (.evPreemptionSearch n) s s) ∧
    -- the shortest prefix of the victims whose cores allow the binding: pre-emption is raised and cores are claimed for each
    (∀ e pn at_, q.head? s = some e → q.partition = some pn → q.held = true → q.why = 3 → (s.part pn).klass = 0 →
      (∀ k ∈ s.cores, k.claim ≠ some (n, q.headNo)) → q.heldAt = some at_ → 20000 * (q.looked + 1) ≤ s.clock - at_ →
      let u := s.modQueue n fun x => { x with looked := (s.clock - at_) / 20000 }
      let c := newCapsule u q pn e.record [] []
      let victims := (victimOrder u pn q.pri).map Capsule.id
      let bindable := fun (k : Nat) => (bindAmong u (s.part pn) c c.hint none (eligibleCore u (s.part pn) n none (victims.take k))).isSome
      (∀ k ≤ victims.length, bindable k = true → (∀ j < k, bindable j = false) →
        Gives (.evPreemptionSearch n) s ((victims.take k).foldl (fun t id => claimCores n id (raisePreemption id t)) u)) ∧
      ((∀ k ≤ victims.length, bindable k = false) → Gives (.evPreemptionSearch n) s u)) ∧
    (∀ p v, let l := victimOrder s p v
      (∀ c, c ∈ l ↔ c ∈ s.caps ∧ c.part = p ∧ c.pri < v ∧ c.state = .running) ∧
      l.Pairwise fun a b => a.pri < b.pri ∨ (a.pri = b.pri ∧ b.tlaunch.toNat ≤ a.tlaunch.toNat)) ∧
    (∀ id c, s.cap? id = some c → ∀ k, (Claimable s c k → ((claimCores n id s).core k).claim = some (n, q.headNo)) ∧
      (¬ Claimable s c k → ((claimCores n id s).core k).claim = (s.core k).claim) ∧ (claimCores n id s).mem = s.mem ∧ (claimCores n id s).hart = s.hart) ∧
    (∀ id, let ids := s.hartsOf id
      ∀ c, s.cap? id = some c → ∃ t, raisePreemption id s = t ∧ t.mem = s.mem ∧ ∃ d, t.cap? id = some d ∧ (∀ x, x ∈ d.preempt ↔ x ∈ c.preempt ∨ x ∈ ids) ∧
      -- a wait counts its cycles from the raise (R39)
      (s.hart.id ∈ ids → s.hart.id ∉ c.preempt → t.hart = { s.hart with preemptAt := s.clock }) ∧ (s.hart.id ∉ ids ∨ s.hart.id ∈ c.preempt → t.hart = s.hart)) ∧
    (let k := s.core n
     (k.claim = none ∨ s.clock - k.claimAt < 1000000 → Gives (.evClaimExpiry n) s s) ∧
     (k.claim.isSome = true → 1000000 ≤ s.clock - k.claimAt → Gives (.evClaimExpiry n) s
       (admitWaiting n (wakeFootprint (clusterNo n) (s.modCore n fun k => { k with claim := none }))))) ∧
    -- LEASE_OVERRUN, ENGINE_STALL
    (s.hart? n = none → Gives (.evLeaseOverrun n) s s) ∧
    (∀ h, s.hart? n = some h →
      (h.run ≠ .blocked .lease → Gives (.evLeaseOverrun n) s s) ∧
      -- a waiter that has been bound since waits no more (R243)
      (let queue := (s.cluster (clusterNo h.core)).leaseWait
       ((∀ w ∈ queue, w.1 ≠ n) → Gives (.evLeaseOverrun n) s s) ∧
       (∀ a w b, h.run = .blocked .lease → queue = a ++ w :: b → (∀ x ∈ a, x.1 ≠ n) → w.1 = n → Gives (.evLeaseOverrun n) s
        (if 1000000 ≤ s.clock - w.2.2 then unitFault h.cap n .leaseOverrun (word w.2.1.toNat) s else s)))) ∧
    (∀ cl, let ch := (s.cluster cl).chan n
      (ch.copy = none → Gives (.evEngineStall cl n) s s) ∧
      (∀ c, ch.copy = some c →
        (s.clock - c.stamp < 1000000 ∨ slotWait s cl c = true → Gives (.evEngineStall cl n) s s) ∧
        (1000000 ≤ s.clock - c.stamp → slotWait s cl c = false → Gives (.evEngineStall cl n) s
          (if inOpenChunk s c = true then unitFault c.cap c.hart .engineStall (word n) s else ownerFault c.cap c.hart .engineStall (word n) s)))) ∧
    -- QUEUE_STALL, COMPLETION_WRITE_ERROR
    (s.inFlight n = [] ∨ q.tearing = true ∨ s.clock - q.progress < 10000000 → Gives (.evQueueStall n) s s) ∧
    (s.inFlight n ≠ [] → q.tearing = false → 10000000 ≤ s.clock - q.progress → Gives (.evQueueStall n) s (tearDown n (some .queueStall) s)) ∧
    (q.partition = none → Gives (.evCompletionWriteError n) s s) ∧
    (∀ p, q.partition = some p → s.inFlight n = [] → Gives (.evCompletionWriteError n) s
      (finishTeardown n (s.modQueue n fun x => { x with tearing := true })))

namespace Sys2Proof.Claims

/-- The answer to a host request: its status, and the bytes that it returns. -/
def Answered (i : Instr) (s : State) (status : Nat) (data : List Byte) : Prop :=
  ∃ p, Gives i s (s.emit (.host status p data))

/-- The request is unsupported, and the partition's log has an entry for it, with a CODE and a DETAIL that no rule states (R251; log 7). -/
def Denied (i : Instr) (s : State) (p : Nat) : Prop := ∃ e : Event, e.kind = 8 ∧ Gives i s ((s.emit (.host 1 false [])).logPart p e)

/-- The function exists and the package serves it. -/
def Served (vf : Nat) (s : State) : Prop :=
  1 ≤ vf ∧ vf ≤ 16 ∧ (s.part (vf - 1)).wadm ≠ 0 ∧ s.inReset (vf - 1) = false ∧ s.down = false ∧ s.phase ≠ .fatal

/-- The owner and seal checks on host memory traffic: every granule is held by an owner of the partition, and for a write none has a seal. -/
def HostMay (vf pa n : Nat) (write : Bool) (s : State) : Prop :=
  ∀ g ∈ granulesOf pa n, gotOwner (s.granule g) ≠ 0 ∧ gotOwner (s.granule g) ∈ (s.part (vf - 1)).owners ∧ (write = true → gotSeal (s.granule g) = 0)

/-- A request is served at once: none of its requester waits before it, no home slice of its lines is in retention, and a write meets no line that a
chunk in exclusive mode has read. -/
def AtOnce (i : Request) (pa n : Nat) (write : Bool) (s : State) : Prop :=
  (∀ j ∈ s.pending, requester j ≠ requester i) ∧ (∀ u ∈ homeUnits s pa n, u ∉ s.retained) ∧ (write = true → heldByToken s s.nextId pa n = false)

/-- The event leaves the request waiting at its home. -/
def Waits (e : Instr) (i : Request) (pa n : Nat) (s : State) : Prop := Gives e s { startExit (homeUnits s pa n) s with pending := s.pending ++ [i] }

end Sys2Proof.Claims

/-- R203, R206, R207, R251, R259, R264, R265, R268 to R271, R278, R300, R310, R320 to R325: what the host and the peers do to the package. The
model's own choices in it: a GO on a queue with EN = 0 is taken (log 80), a host atomic that is not aligned is unsupported (log 30), the function's
checks come before the granule's (log 94), the HDM decoder (log 124), the free bytes of poisoned sectors and the CODE and DETAIL of a KIND 8 entry
(log 7), and an event leaves the state as it is where its condition does not hold
(log 50). -/
def Obligations.HostAndPeerEvents : Prop :=
  ∀ (vf n addr len link dev : Nat) (a : HostAddr) (v : Word) (bs : List Byte) (s : State),
    let host := [Instr.evCtailWrite vf (BitVec.ofNat 32 n), .evGoWrite vf n (BitVec.ofNat 8 len), .evQcfgWrite vf n v, .evDoorbellCountRead vf n,
      .evHostRead vf a len, .evHostWrite vf a bs]
    -- refusals: Completer Abort after a fatal error, Unsupported Request for a function that does not exist, in a reset, and without power
    (s.phase = .fatal → ∀ i ∈ host, Answered i s 2 []) ∧
    (s.phase ≠ .fatal → vf = 0 ∨ 16 < vf ∨ (s.part (vf - 1)).wadm = 0 ∨ s.inReset (vf - 1) = true ∨ s.down = true → ∀ i ∈ host, Answered i s 1 []) ∧
    (1 ≤ vf → (s.phase = .fatal → Answered (.evHostRegisterWrite vf addr bs) s 2 []) ∧
      (s.phase ≠ .fatal → 16 < vf ∨ (s.part (vf - 1)).wadm = 0 ∨ s.inReset (vf - 1) = true ∨ s.down = true →
        Answered (.evHostRegisterWrite vf addr bs) s 1 [])) ∧
    (Served vf s →
      let p := vf - 1
      -- CTAIL_WRITE, GO_WRITE, QCFG_WRITE
      Gives (.evCtailWrite vf (BitVec.ofNat 32 n)) s (setCtail (vf - 1) (n % 2 ^ 32) s) ∧
      (n < 32768 → (s.queue n).fn = some vf →
        (∀ k < 8, (s.queue n).torn = false → (s.queue n).pending = [] → (s.queue n).full = false →
          Gives (.evGoWrite vf n (BitVec.ofNat 8 (2 ^ k))) s (copySlot n k s)) ∧
        (∀ k < 8, (s.queue n).torn = false → (s.queue n).pending = [] → (s.queue n).full = true →
          Gives (.evGoWrite vf n (BitVec.ofNat 8 (2 ^ k))) s (s.modQueue n fun q => { q with pending := [k], free := setBit q.free k false })) ∧
        -- several slots go in ascending number; behind one that the ring cannot take, they stay pending in that order
        (∀ mask : BitVec 8, (s.queue n).torn = false → (s.queue n).pending = [] →
          let named := (List.range 8).filter fun k => mask.getLsbD k
          let copied := fun (l : List Nat) => l.foldl (fun t k => copySlot n k t) s
          ∀ j ≤ named.length, (∀ i < j, ((copied (named.take i)).queue n).full = false) →
            (j < named.length → ((copied (named.take j)).queue n).full = true) →
            Gives (.evGoWrite vf n mask) s ((named.drop j).foldl (fun t k => t.modQueue n fun q =>
              { q with pending := q.pending ++ [k], free := setBit q.free k false }) (copied (named.take j)))) ∧
        ((s.queue n).torn = true → Gives (.evGoWrite vf n (BitVec.ofNat 8 len)) s s) ∧
        (∃ t, Gives (.evQcfgWrite vf n v) s t ∧
          ((s.queue n).en = true → (t.queue n).qcfg = ((s.queue n).qcfg &&& ~~~0x80000F) ||| (v &&& 0x80000F)) ∧
          ((s.queue n).en = false → s.phase = .running → bitsOf v.toNat 7 4 ≤ 8 → bitsOf v.toNat 11 8 ≤ 12 → (t.queue n).qcfg = v &&& 0x1FFFFFF) ∧
          ((s.queue n).en = false → 8 < bitsOf v.toNat 7 4 ∨ 12 < bitsOf v.toNat 11 8 → (t.queue n).en = false))) ∧
      ((s.queue n).fn ≠ some vf → Gives (.evGoWrite vf n (BitVec.ofNat 8 len)) s s ∧ Gives (.evQcfgWrite vf n v) s s) ∧
      -- HOST_REGISTER_WRITE: the staging ring's SHEAD, CTAIL, SVEC and SCTL
      (∃ t, Gives (.evHostRegisterWrite vf 0x13004 (leBytes 4 n)) s t ∧ t.mem = s.mem ∧ (stagingIn s p = [] → t.hart = s.hart ∧
        (t.part p).shead = n % 2 ^ 32)) ∧
      (stagingIn s p = [] →
        (∃ u, Gives (.evHostRegisterWrite vf 0x13008 (leBytes 4 n)) s (setCtail p (n % 2 ^ 32) u) ∧ u.mem = s.mem ∧ u.hart = s.hart ∧
          ((s.part p).shead < 2 ^ 32 → (s.part p).svec < 2048 → ∀ k, u.part k = s.part k)) ∧
        (∃ t, Gives (.evHostRegisterWrite vf 0x13010 (leBytes 2 n)) s t ∧ (t.part p).svec = n % 2048 ∧ (t.part p).sie = (s.part p).sie ∧
          (t.part p).stail = (s.part p).stail ∧ (t.part p).ctail = (s.part p).ctail ∧ t.mem = s.mem ∧ t.hart = s.hart) ∧
        (∃ t, Gives (.evHostRegisterWrite vf 0x13012 (leBytes 1 n)) s t ∧ (t.part p).sie = bitOf n 0 ∧
          (t.part p).stail = (s.part p).stail ∧ (t.part p).ctail = (s.part p).ctail ∧ t.mem = s.mem ∧ t.hart = s.hart)) ∧
      -- its completions, and the doorbells' vectors
      (∀ off, off + bs.length ≤ 0x1000 → (s.part p).stagecpl.wf = true → ∃ t, Gives (.evHostRegisterWrite vf (0x12000 + off) bs) s t ∧ t.mem = s.mem ∧
        t.hart = s.hart ∧ ∀ a, (t.part p).stagecpl.read a = if off ≤ a ∧ a < off + bs.length then bs.getD (a - off) 0 else (s.part p).stagecpl.read a) ∧
      (n < 512 → ∃ t, Gives (.evHostRegisterWrite vf (0x3000C + 16 * n) (leBytes 4 len)) s t ∧ t.mem = s.mem ∧
        ((t.part p).doorbell n).ctl = BitVec.ofNat 32 len &&& 0x000107FF ∧ ((t.part p).doorbell n).value = ((s.part p).doorbell n).value) ∧
      -- the queue windows: slots, CHEAD, CRBASE, GO and QCFG of a queue of the function, and nothing of another's
      (n < 32768 → let base := 0x1000000 + 4096 * n
        let q := s.queue n
        (q.fn ≠ some vf → ∀ off < 4096, off + bs.length ≤ 4096 → ∃ t, Gives (.evHostRegisterWrite vf (base + off) bs) s t ∧ t.queue n = q ∧
          t.mem = s.mem) ∧
        (q.fn = some vf →
          (∀ off, off + bs.length ≤ 0x800 → q.slots.wf = true → ∃ t, Gives (.evHostRegisterWrite vf (base + off) bs) s t ∧ t.mem = s.mem ∧
            (∀ a, (t.queue n).slots.read a = if off ≤ a ∧ a < off + bs.length then bs.getD (a - off) 0 else q.slots.read a) ∧
            (t.queue n).chead = q.chead ∧ (t.queue n).qcfg = q.qcfg ∧ (t.queue n).crbase = q.crbase ∧ (t.queue n).waiting = q.waiting) ∧
          (∃ t, Gives (.evHostRegisterWrite vf (base + 0x810) (leBytes 2 len)) s t ∧ (t.queue n).chead = len % 65536 ∧ (t.queue n).slots = q.slots ∧
            (t.queue n).qcfg = q.qcfg ∧ (t.queue n).crbase = q.crbase ∧ t.mem = s.mem) ∧
          (∃ t, Gives (.evHostRegisterWrite vf (base + 0x828) (leBytes 8 v.toNat)) s t ∧ (t.queue n).slots = q.slots ∧ (t.queue n).chead = q.chead ∧
            (t.queue n).qcfg = q.qcfg ∧ (q.en = false → (t.queue n).crbase = v &&& ~~~0xFFF) ∧ (q.en = true → (t.queue n).crbase = q.crbase) ∧
            t.mem = s.mem) ∧
          (∃ u, Gives (.evHostRegisterWrite vf (base + 0x800) (leBytes 1 len)) s (takeGo n (BitVec.ofNat 8 len) u) ∧ u.queue n = q ∧ u.mem = s.mem) ∧
          (∃ u, Gives (.evHostRegisterWrite vf (base + 0x818) (leBytes 8 v.toNat)) s (setQcfg n v u) ∧ u.queue n = q ∧ u.mem = s.mem))) ∧
      -- DOORBELL_COUNT_READ
      (n < 512 → let d := (s.part (vf - 1)).doorbell n
        ∃ t, Gives (.evDoorbellCountRead vf n) s t ∧ t.out = s.out ++ [.host 0 false (leBytes 8 d.value.toNat ++ leBytes 4 d.count ++ leBytes 4 d.ctl.toNat)] ∧
          ((t.part (vf - 1)).doorbell n).count = 0 ∧ ((t.part (vf - 1)).doorbell n).value = d.value) ∧
      -- HOST_REGISTER_WRITE of the HDM decoder (log 124), and the place of an address: an offset in BAR2, or an address that the decoder places
      (∃ t, Gives (.evHostRegisterWrite vf 0x10000000 (leBytes 8 v.toNat)) s t ∧ (t.part p).hdm = some v.toNat ∧ t.mem = s.mem ∧ t.hart = s.hart) ∧
      (a.cxl = false → (a.addr + len ≤ tier0End → hostPlace s vf a len = some a.addr) ∧ (tier0End < a.addr + len → hostPlace s vf a len = none)) ∧
      (a.cxl = true → ((s.part p).hdm = none → hostPlace s vf a len = none) ∧ ∀ b, (s.part p).hdm = some b →
        (b ≤ a.addr → a.addr + len ≤ b + tier0End → hostPlace s vf a len = some (a.addr - b)) ∧
        (a.addr < b ∨ b + tier0End < a.addr + len → hostPlace s vf a len = none)) ∧
      -- HOST_READ, HOST_WRITE, HOST_FETCHADD, HOST_SWAP, HOST_CAS: the checks, and then the home slice
      (hostPlace s vf a len = none → Denied (.evHostRead vf a len) s p) ∧
      (hostPlace s vf a bs.length = none → Denied (.evHostWrite vf a bs) s p) ∧
      (∀ pa, hostPlace s vf a len = some pa →
        (¬ HostMay vf pa len false s → Denied (.evHostRead vf a len) s p) ∧
        (HostMay vf pa len false s →
          let i := Request.read vf a len
          let u := readLines p pa len (noteUse (homeUnits s pa len) s)
          (AtOnce i pa len false s →
            Gives (.evHostRead vf a len) s ((outBytes pa len u).2.emit (.host 0 (poisoned u pa len) (outBytes pa len u).1))) ∧
          (¬ AtOnce i pa len false s → Waits (.evHostRead vf a len) i pa len s))) ∧
      (∀ pa, hostPlace s vf a bs.length = some pa →
        (¬ HostMay vf pa bs.length true s → Denied (.evHostWrite vf a bs) s p) ∧
        (HostMay vf pa bs.length true s →
          let i := Request.write vf a bs
          let u := noteUse (homeUnits s pa bs.length) s
          (AtOnce i pa bs.length true s → Gives (.evHostWrite vf a bs) s (writeUnit (engineUnit u 0 0x1FFF) p pa bs u)) ∧
          (¬ AtOnce i pa bs.length true s → Waits (.evHostWrite vf a bs) i pa bs.length s))) ∧
      (∀ (wide : Bool) (c x : BitVec 128) (pa : Nat), let m := if wide then 8 else 4
        let u := readLines p pa m (noteUse (homeUnits s pa m) s)
        let w := (outBytes pa m u).2
        let old := leNat (outBytes pa m u).1
        let answer := fun (t : State) => t.emit (.host 0 (poisoned u pa m) (outBytes pa m u).1)
        let put := fun (k : Nat) => answer (writeUnit (engineUnit w 0 0x1FFF) p pa (leBytes m k) w)
        hostPlace s vf a m = some pa → HostMay vf pa m true s →
        (pa % m = 0 →
          (AtOnce (.fetchadd vf a wide v) pa m true s → Gives (.evHostFetchadd vf a wide v) s (put (old + v.toNat))) ∧
          (AtOnce (.swap vf a wide v) pa m true s → Gives (.evHostSwap vf a wide v) s (put v.toNat)) ∧
          (AtOnce (.cas vf a m c x) pa m true s →
            (old = c.toNat % 256 ^ m → Gives (.evHostCas vf a m c x) s (put x.toNat)) ∧
            (old ≠ c.toNat % 256 ^ m → Gives (.evHostCas vf a m c x) s (answer w))) ∧
          (¬ AtOnce (.fetchadd vf a wide v) pa m true s → Waits (.evHostFetchadd vf a wide v) (.fetchadd vf a wide v) pa m s) ∧
          (¬ AtOnce (.swap vf a wide v) pa m true s → Waits (.evHostSwap vf a wide v) (.swap vf a wide v) pa m s) ∧
          (¬ AtOnce (.cas vf a m c x) pa m true s → Waits (.evHostCas vf a m c x) (.cas vf a m c x) pa m s)) ∧
        (pa % m ≠ 0 → Answered (.evHostFetchadd vf a wide v) s 1 [] ∧ Answered (.evHostSwap vf a wide v) s 1 [] ∧ Answered (.evHostCas vf a m c x) s 1 [])) ∧
      (∀ (wide : Bool) (c x : BitVec 128), let m := if wide then 8 else 4
        (∀ pa, hostPlace s vf a m = some pa → ¬ HostMay vf pa m true s) →
          Denied (.evHostFetchadd vf a wide v) s p ∧ Denied (.evHostSwap vf a wide v) s p ∧ Denied (.evHostCas vf a m c x) s p) ∧
      -- a CAS of 16 bytes is unsupported, after the same checks
      (∀ c x, (∀ pa, hostPlace s vf a 16 = some pa → ¬ HostMay vf pa 16 true s) → Denied (.evHostCas vf a 16 c x) s p) ∧
      (∀ c x pa, hostPlace s vf a 16 = some pa → HostMay vf pa 16 true s → Answered (.evHostCas vf a 16 c x) s 1 [])) ∧
    -- what leaves the device of a range: memory, but for the bytes of poisoned sectors, which are free (R256; log 7)
    (poisoned s addr len = false → outBytes addr len s = (s.mem.readBytes addr len, s)) ∧
    (∃ out f, outBytes addr len s = (out, { s with fresh := f }) ∧ out.length = len ∧
      ∀ k < len, poisoned s (addr + k) 1 = false → out[k]? = some (s.mem.read (addr + k))) ∧
    -- TIER1_MAP_WRITE: it takes effect while every granule of the slot is free
    (n < 1024 → s.phase ≠ .fatal → s.down = false → (∀ i < 512, gotState (s.granule (196608 + 512 * n + i)) = 0) →
      ∃ t, Gives (.evTier1MapWrite n v) s t ∧ assoc (0 : Word) t.tier1map n = v &&& 0xC00FFFFFC0000000 ∧ t.mem = s.mem) ∧
    (n < 1024 → s.phase ≠ .fatal → s.down = false → (∃ i < 512, gotState (s.granule (196608 + 512 * n + i)) ≠ 0) →
      ∃ e : Event, e.kind = 8 ∧ Gives (.evTier1MapWrite n v) s { s with pkglog := s.pkglog.add s.now e }) ∧
    -- peers: traffic over a link that is up, for this device, through an inbound window of its kind, or a refusal
    (let w := s.inbound n
     let e := engineUnit s 0 0x1FFF
     (s.links.getLsbD link = false ∨ dev ≠ s.saffron.device ∨ 64 ≤ n ∨ s.phase ≠ .running ∨ w.kind = 0 ∨ 16 ≤ w.part →
       ∀ i ∈ [Instr.evPeerMemoryWrite ⟨link, dev, n⟩ addr bs, .evPeerMemoryRead ⟨link, dev, n⟩ addr len, .evPeerGate ⟨link, dev, n⟩ v, .evPeerDoorbell ⟨link, dev, n⟩ v],
       Gives i s (s.emit (.peerRefuse n))) ∧
     (s.links.getLsbD link = true → dev = s.saffron.device → n < 64 → s.phase = .running → w.part < 16 →
       (w.kind ≠ 1 → Gives (.evPeerMemoryWrite ⟨link, dev, n⟩ addr bs) s (s.emit (.peerRefuse n)) ∧
         Gives (.evPeerMemoryRead ⟨link, dev, n⟩ addr len) s (s.emit (.peerRefuse n))) ∧
       (w.kind ≠ 2 → Gives (.evPeerGate ⟨link, dev, n⟩ v) s (s.emit (.peerRefuse n))) ∧
       (w.kind ≠ 3 → Gives (.evPeerDoorbell ⟨link, dev, n⟩ v) s (s.emit (.peerRefuse n))) ∧
       (w.kind = 1 → addr + bs.length ≤ w.len → windowMay s w (w.base + addr) bs.length true = true →
         let i := Request.peerWrite link dev n addr bs
         (AtOnce i (w.base + addr) bs.length true s → Gives (.evPeerMemoryWrite ⟨link, dev, n⟩ addr bs) s
           (writeUnit e w.part (w.base + addr) bs (noteUse (homeUnits s (w.base + addr) bs.length) s))) ∧
         (¬ AtOnce i (w.base + addr) bs.length true s → Waits (.evPeerMemoryWrite ⟨link, dev, n⟩ addr bs) i (w.base + addr) bs.length s)) ∧
       (w.kind = 1 → w.len < addr + bs.length ∨ windowMay s w (w.base + addr) bs.length true = false →
         Gives (.evPeerMemoryWrite ⟨link, dev, n⟩ addr bs) s (s.emit (.peerRefuse n))) ∧
       (w.kind = 1 → w.len < addr + len → Gives (.evPeerMemoryRead ⟨link, dev, n⟩ addr len) s (s.emit (.peerRefuse n))) ∧
       (w.kind = 1 → addr + len ≤ w.len → windowMay s w (w.base + addr) len false = true →
         let i := Request.peerRead link dev n addr len
         let u := readLines w.part (w.base + addr) len (noteUse (homeUnits s (w.base + addr) len) s)
         let out := outBytes (w.base + addr) len u
         (AtOnce i (w.base + addr) len false s →
           Gives (.evPeerMemoryRead ⟨link, dev, n⟩ addr len) s (out.2.emit (.peerData n (poisoned u (w.base + addr) len) out.1))) ∧
         (¬ AtOnce i (w.base + addr) len false s → Waits (.evPeerMemoryRead ⟨link, dev, n⟩ addr len) i (w.base + addr) len s)) ∧
       (w.kind = 1 → windowMay s w (w.base + addr) len false = false → Gives (.evPeerMemoryRead ⟨link, dev, n⟩ addr len) s (s.emit (.peerRefuse n))) ∧
       (w.kind = 2 → w.base % 8 ≠ 0 ∨ windowMay s w w.base 8 true = false → Gives (.evPeerGate ⟨link, dev, n⟩ v) s (s.emit (.peerRefuse n))) ∧
       (w.kind = 2 → w.base % 8 = 0 → windowMay s w w.base 8 true = true →
         (AtOnce (.peerGate link dev n v) w.base 8 true s → ∃ u, Gives (.evPeerGate ⟨link, dev, n⟩ v) s
           (publish u (sigRange w.base 8) [] (applyAmo e w.part w.base .add true v (noteUse (homeUnits s w.base 8) s)))) ∧
         (¬ AtOnce (.peerGate link dev n v) w.base 8 true s → Waits (.evPeerGate ⟨link, dev, n⟩ v) (.peerGate link dev n v) w.base 8 s)) ∧
       (w.kind = 3 → (∀ j ∈ s.pending, requester j ≠ link) → let d := (s.part w.part).doorbell (w.base % 512)
         ∃ t, Gives (.evPeerDoorbell ⟨link, dev, n⟩ v) s t ∧ t.mem = s.mem ∧ ((t.part w.part).doorbell (w.base % 512)).value = v ∧
           ((t.part w.part).doorbell (w.base % 512)).count = min (2 ^ 32 - 1) (d.count + 1)) ∧
       (w.kind = 3 → (∃ j ∈ s.pending, requester j = link) → Waits (.evPeerDoorbell ⟨link, dev, n⟩ v) (.peerDoorbell link dev n v) 0 0 s))) ∧
    -- links and refusals
    (n < 12 → ∃ t u, Gives (.evLinkDown n) s t ∧ Gives (.evLinkUp n) s u ∧ t.links.getLsbD n = false ∧ u.links.getLsbD n = true ∧
      ∀ k < 12, k ≠ n → t.links.getLsbD k = s.links.getLsbD k ∧ u.links.getLsbD k = s.links.getLsbD k) ∧
    Gives (.evPeerRefusal n v) s (abortCapsule n Code.msgTarget.num (bareReport s n Code.msgTarget.num v) s)

namespace Sys2Proof.Claims

/-- The step answers a management command with a code, and with these bytes, in this state. -/
def Replies (i : Instr) (s : State) (code : Nat) (data : List Byte) (t : State) : Prop := Gives i s (t.emit (.mgmt code data))

end Sys2Proof.Claims

/-- R252 to R254, R262, R266, R290, R298 to R302, R307 to R309, R311, R322, R324, R327, R331 to R335, R347: the management commands, the
table operations of Saffron, and SPDM. Codes: 0 success, 1 in progress, 2 not found, 3 not permitted, 4 invalid. The model's own: the
answer of a case that the spec gives none (log 31, 95), the length of a status answer (log 31), that an event whose condition does not hold
leaves the state as it is (log 50), that a configuration is checked at the write and again at LOCK (log 91), the granules of a ring (log 32),
OWNER of a free granule (log 81), which work makes Saffron busy (log 93), and the layout of SPDM's messages (log 33); that a bind to function 0
unbinds (log 156), and that RELEASE of a granule with STATE not 1 is refused (log 150). Which quantity a sensor number names is a free function
(log 11), and so are the device key and the dump key (log 9). -/
def Obligations.ManagementEvents : Prop :=
  ∀ (p n f path : Nat) (v : Word) (o : BitVec 16) (bs : List Byte) (s : State),
    -- what a function may ask for: its own partition, and nothing of package scope
    (∀ i ∈ [Instr.evWarmReset (some f), .evColdReset (some f), .evReadDump (some f) n, .evDumpKey (some f), .evSetBudget (some f) n, .evLock (some f),
      .evReadEvlog (some f) 0xFF n], Replies i s 3 [] s) ∧
    (f ≠ p + 1 → ∀ i ∈ [Instr.evAbortCapsule (some f) p n v, .evTeardownQueue (some f) p n, .evResetPartition (some f) p], Replies i s 3 [] s) ∧
    -- ABORT_CAPSULE, TEARDOWN_QUEUE
    (p < 16 → inProgress s 1 = true ∨ s.inReset p = true → Replies (.evAbortCapsule none p n v) s 1 [] s ∧
      Replies (.evTeardownQueue none p n) s 1 [] s) ∧
    (p < 16 → inProgress s 1 = false → s.inReset p = false → (s.queue n).partition ≠ some p →
      Replies (.evAbortCapsule none p n v) s 2 [] s ∧ Replies (.evTeardownQueue none p n) s 2 [] s) ∧
    (p < 16 → (s.queue n).partition = some p → inProgress s 1 = false → s.inReset p = false →
      ((∀ c ∈ s.inFlight n, c.nonce ≠ v) → Replies (.evAbortCapsule none p n v) s 2 [] s) ∧
      (∀ c, s.inFlight n = [c] → c.nonce = v → c.state = .running ∨ c.state = .armed → Replies (.evAbortCapsule none p n v) s 0 []
        ((if c.state = .armed then completeCapsule c.id else id) (abortCapsule c.id Code.aborted.num (bareReport s c.id Code.aborted.num 0) s))) ∧
      (∀ (c : Capsule) (st : Nat), s.inFlight n = [c] → c.state = .ending st → Replies (.evAbortCapsule none p n v) s 2 [] s) ∧
      Replies (.evTeardownQueue none p n) s 0 [] (tearDown n none s)) ∧
    -- RESET_PARTITION, FUNCTION_LEVEL_RESET, WARM_RESET, COLD_RESET
    (p < 16 → s.resetting = none → s.inReset p = false → Replies (.evResetPartition none p) s 0 [] (beginReset p false s) ∧
      Gives (.evFunctionLevelReset (p + 1)) s (beginReset p true s)) ∧
    (p < 16 → s.resetting = none → s.inReset p = true → Gives (.evFunctionLevelReset (p + 1)) s s ∧
      Replies (.evResetPartition none p) s (if (s.part p).resetHost then 0 else 1) [] s) ∧
    (p < 16 → s.resetting = some 2 ∨ s.resetting = some 3 → Replies (.evResetPartition none p) s 1 [] s ∧ Gives (.evFunctionLevelReset (p + 1)) s s) ∧
    (s.resetting = none → Replies (.evWarmReset none) s 0 [] (warmReset s)) ∧
    (s.resetting = none ∨ s.resetting = some 2 → Replies (.evColdReset none) s 0 [] (coldReset s)) ∧
    (s.resetting = some 3 → Replies (.evWarmReset none) s 1 [] s ∧ Replies (.evColdReset none) s 1 [] s) ∧
    -- READ_EVLOG, READ_DUMP, DUMP_KEY, GET_STATUS
    Replies (.evReadEvlog none 0xFF n) s 0 (s.pkglog.from_ n) s ∧
    (p < 16 → Replies (.evReadEvlog none p n) s 0 ((s.part p).log.from_ n) s ∧ Replies (.evReadEvlog (some (p + 1)) p n) s 0 ((s.part p).log.from_ n) s) ∧
    (n % 1024 = 0 → n + 1024 ≤ 0x10000000 → Replies (.evReadDump none n) s 0 (s.mem.readBytes (dumpBase + n) 1024) s) ∧
    (n % 1024 ≠ 0 ∨ 0x10000000 < n + 1024 → Replies (.evReadDump none n) s 4 [] s) ∧
    (s.saffron.kek = none → Replies (.evDumpKey none) s 3 [] s) ∧
    (∀ kek, s.saffron.kek = some kek → s.mem.readLE dumpBase 4 = 0x504D5544 →
      Replies (.evDumpKey none) s 0 (Crypto.kwWrap (Crypto.keyBytes kek) (Crypto.keyBytes (Config.dumpKey s.saffron.dumpTime))) s) ∧
    (∃ data, Replies (.evGetStatus none) s 0 data s ∧ data.length = 17) ∧
    (p < 16 → Replies (.evGetStatus (some (p + 1))) s 0 [partStatus s p, packageStatus s] s) ∧
    -- FENCE, UNFENCE
    (n < 128 → Replies (.evFence none n) s 0 [] (logFence (serviceCore n) (s.modCluster n fun c => { c with clstat := c.clstat ||| 1, mark := true }))) ∧
    (128 ≤ n → Replies (.evFence none n) s 4 [] s ∧ Replies (.evUnfence none n) s 4 [] s) ∧
    (let c := s.cluster n
     (n < 128 → c.mark = true → c.fencedOther = true → Replies (.evUnfence none n) s 0 [] (s.modCluster n fun c => { c with mark := false })) ∧
     (n < 128 → c.mark = true → c.fencedOther = false → Replies (.evUnfence none n) s 0 []
       (admitCluster n (logFence (serviceCore n) (s.modCluster n fun c => { c with mark := false, clstat := c.clstat &&& ~~~1 })))) ∧
     (n < 128 → c.mark = false → c.clstat.getLsbD 0 = true → Replies (.evUnfence none n) s 3 [] s) ∧
     (n < 128 → c.mark = false → c.clstat.getLsbD 0 = false → Replies (.evUnfence none n) s 0 [] s)) ∧
    -- SET_BUDGET, MANAGEMENT over the configuration, and its lock
    (n ≤ 1600 → Replies (.evSetBudget none n) s 0 [] { s with budget := n }) ∧
    (1600 < n → Replies (.evSetBudget none n) s 4 [] s) ∧
    (s.phase = .off ∨ s.phase = .held ∨ s.phase = .booting ∨ s.phase = .fatal → ∀ i ∈ [Instr.evConfigWrite none p bs, .evQueueBind none n f, .evWindowWrite none n bs, .evLock none],
      Replies i s 3 [] s) ∧
    (s.phase = .configLocked ∨ s.phase = .running → Replies (.evLock none) s 3 [] s ∧ ∀ i ∈ [Instr.evConfigWrite none p bs, .evQueueBind none n f, .evWindowWrite none n bs],
      Replies i s 3 [] (s.logPkg { code := Code.lockedWrite.num, kind := 1 })) ∧
    (s.phase = .configOpen →
      (let m := Memory.ofBytes bs
       let t := s.modPart p fun x => { x with cfg := m }
       (p < 16 → bs.length = 0x300 → configOk p m = true → configsOk t = true → Replies (.evConfigWrite none p bs) s 0 [] t) ∧
       (16 ≤ p ∨ bs.length ≠ 0x300 ∨ configOk p m = false ∨ configsOk t = false → Replies (.evConfigWrite none p bs) s 4 [] s)) ∧
      (n < 32768 → f ≠ 0 → ∃ t, Replies (.evQueueBind none n f) s 0 [] t ∧ (t.queue n).fn = some f ∧ (t.queue n).en = false ∧ (t.queue n).waiting = 0 ∧
        ∀ g ∈ granulesOf (Config.ringBase n).toNat (4096 * 4096), gotState (t.granule g) = 3) ∧
      (n < 32768 → ∃ t, Replies (.evQueueBind none n 0) s 0 [] t ∧ (t.queue n).fn = none) ∧
      (32768 ≤ n → Replies (.evQueueBind none n f) s 4 [] s) ∧
      (64 ≤ n ∨ bs.length ≠ 32 → Replies (.evWindowWrite none n bs) s 4 [] s) ∧
      (n < 64 → bs.length = 32 → s.saffron.windows.wf = true → ∃ t, Replies (.evWindowWrite none n bs) s 0 [] t ∧
        (t.inbound n).kind = (bs.getD 0 0).toNat ∧ (t.inbound n).part = (bs.getD 1 0).toNat ∧ (t.inbound n).owner = leNat ((bs.drop 2).take 2) ∧
        (t.inbound n).base = leNat ((bs.drop 8).take 8) ∧ (t.inbound n).len = leNat ((bs.drop 16).take 8)) ∧
      ((∀ q ∈ s.queues, ∀ g, q.fn = some g → 1 ≤ g ∧ g ≤ 16) → configsOk s = true → (∀ p < 16, (s.part p).wadm = 0 ∨ configOk p (s.part p).cfg = true) →
        Replies (.evLock none) s 0 [] { s with phase := .configLocked }) ∧
      (configsOk s = false ∨ (∃ q ∈ s.queues, ∃ g, q.fn = some g ∧ (g = 0 ∨ 16 < g)) ∨ (∃ p < 16, (s.part p).wadm ≠ 0 ∧ configOk p (s.part p).cfg = false) →
        Replies (.evLock none) s 4 [] s)) ∧
    (s.phase = .configLocked → ∃ t, Gives .evLockComplete s t ∧ t.phase = .running ∧ t.mem = s.mem ∧
      ∀ k : Fin 16, k ≠ 5 → t.saffron.mr.get k = s.saffron.mr.get k) ∧
    (s.phase ≠ .configLocked → Gives .evLockComplete s s) ∧
    -- the table operations: accepted in RUN alone
    (s.phase ≠ .running → ∀ i ∈ [Instr.evKeyset o bs, .evKeydrop o, .evGrant n o, .evShare o n o, .evUnshare o n o, .evSeal n bs, .evRelease n], Replies i s 3 [] s) ∧
    (s.phase = .running →
      let done := fun (i : Instr) (u : State) => ∃ t, Replies i s 0 [] t ∧ t.got = u.got ∧ t.memkeys = u.memkeys ∧ t.mckeys = u.mckeys ∧ t.srls = u.srls ∧ t.seals = u.seals ∧ t.vpages = u.vpages ∧
        t.mem = s.mem ∧ t.hart = s.hart ∧ ∀ k : Fin 16, k ≠ 6 → t.saffron.mr.get k = s.saffron.mr.get k
      let refused := fun (i : Instr) => Gives i s (s.emit .refusedTable)
      let e := s.granule n
      (holdsGranule s o.toNat = true ∨ o = 0 ∨ o = 0xFFFF → refused (.evKeyset o bs)) ∧
      (∀ k, holdsGranule s o.toNat = false → o ≠ 0 → o ≠ 0xFFFF → Crypto.kwUnwrap (Crypto.keyBytes Config.deviceKey) bs = some k →
        ∃ u, done (.evKeyset o bs) u ∧ (memKey u o.toNat).key = Crypto.keyOf k ∧ (memKey u o.toNat).gen = (memKey s o.toNat).gen + 1 ∧
          formKeys o.toNat (Crypto.keyOf k) ∈ u.mckeys) ∧
      (holdsGranule s o.toNat = true ∨ o = 0 ∨ o = 0xFFFF → refused (.evKeydrop o)) ∧
      (holdsGranule s o.toNat = false → o ≠ 0 → o ≠ 0xFFFF → ∃ u, done (.evKeydrop o) u ∧ (memKey u o.toNat).key = 0 ∧ ∀ k ∈ u.mckeys, k.owner ≠ o.toNat) ∧
      (gotState e ≠ 0 ∨ (memKey s o.toNat).key = 0 → refused (.evGrant n o)) ∧
      (n < 196608 → gotState e = 0 → o ≠ 0 → o ≠ 0xFFFF → (memKey s o.toNat).key ≠ 0 → ∃ u, done (.evGrant n o) u ∧
        gotState (u.granule n) = 1 ∧ gotOwner (u.granule n) = o.toNat ∧ gotEpoch (u.granule n) = gotEpoch e ∧ ∀ g, g ≠ n → u.granule g = s.granule g) ∧
      -- a tier-1 granule needs a valid map entry and a free version page
      (∀ k i : Nat, n = 196608 + 512 * k + i → k < 1024 → i < 512 → gotState e = 0 → o ≠ 0 → o ≠ 0xFFFF → (memKey s o.toNat).key ≠ 0 →
        let valid := (assoc (0 : Word) s.tier1map k).getLsbD 63 = true
        (¬valid ∨ (∀ x < Config.versionPages, x ∈ s.vpages) → refused (.evGrant n o)) ∧
        (valid → (∃ x < Config.versionPages, x ∉ s.vpages) → ∃ u x, done (.evGrant n o) u ∧ x < Config.versionPages ∧ x ∉ s.vpages ∧
          u.vpages = x :: s.vpages ∧ gotState (u.granule n) = 1 ∧ gotOwner (u.granule n) = o.toNat ∧ ∀ g, g ≠ n → u.granule g = s.granule g)) ∧
      (∀ w : BitVec 16, let l := sharedWith s n
        (isOwner s o.toNat n = false → refused (.evShare o n w) ∧ refused (.evUnshare o n w)) ∧
        (isOwner s o.toNat n = true → w ∉ l → 30 ≤ l.length → refused (.evShare o n w)) ∧
        (isOwner s o.toNat n = true → n < 16777215 → w ∉ l → l.length < 30 → ∃ u, done (.evShare o n w) u ∧ sharedWith u n = l ++ [w]) ∧
        (isOwner s o.toNat n = true → n < 16777215 → ∃ u, done (.evUnshare o n w) u ∧ sharedWith u n = l.filter (· != w))) ∧
      (gotState e ≠ 1 ∨ gotSeal e ≠ 0 ∨ bs.length ≠ 0x280 ∨ sealReservedOk (Memory.ofBytes bs) = false ∨
        Crypto.kwUnwrap (Crypto.keyBytes Config.deviceKey) ((Memory.ofBytes bs).readBytes 0 40) = none → refused (.evSeal n bs)) ∧
      (∀ i, gotState e = 1 → gotSeal e = 0 → bs.length = 0x280 → sealReservedOk (Memory.ofBytes bs) = true → weightKey (Memory.ofBytes bs) ≠ none → freeSeal s = some i →
        ∃ u, done (.evSeal n bs) u ∧ gotSeal (u.granule n) = i ∧ assoc ([] : Memory) u.seals i = Memory.ofBytes bs) ∧
      (gotState e ≠ 1 → refused (.evRelease n)) ∧
      (gotState e = 1 → namedByCapsule s n = true → Gives (.evRelease n) s { s with releasing := s.releasing ++ [n] }) ∧
      (gotState e = 1 → namedByCapsule s n = false → ∃ u, done (.evRelease n) u ∧ gotState (u.granule n) = 2)) ∧
    (gotState (s.granule n) ≠ 2 → Gives (.evReleaseComplete n) s s) ∧
    (gotState (s.granule n) = 2 → ∃ u, Gives (.evReleaseComplete n) s (releaseHeld u) ∧ gotState (u.granule n) = 0 ∧ gotOwner (u.granule n) = 0 ∧
      gotEpoch (u.granule n) = gotEpoch (s.granule n) ∧ ∀ a, u.mem.read a = if granuleBase n ≤ a ∧ a < granuleBase n + 2097152 then 0 else s.mem.read a) ∧
    -- PLDM: over I3C everything; through a function its own partition's sensors, and no update
    (let k := Config.sensorKind n
     let reads := fun (via : Option Nat) => ∃ data, Replies (.evPldmMonitor ⟨via, n⟩) s 0 data { s with fresh := s.fresh + 1 }
     reads none ∧ (256 ≤ k → Replies (.evPldmMonitor ⟨some f, n⟩) s 3 [] s) ∧
     (k < 256 → s.clusterPart (k % 128) ≠ some p → Replies (.evPldmMonitor ⟨some (p + 1), n⟩) s 3 [] s) ∧
     (k < 256 → s.clusterPart (k % 128) = some p → reads (some (p + 1)))) ∧
    Replies (.evPldmFirmwareUpdate ⟨some f, n⟩ bs) s 3 [] s ∧
    (∃ t, Replies (.evPldmFirmwareUpdate ⟨none, n⟩ bs) s 0 [] t ∧
      (s.saffron.bootedB = false → t.saffron = { s.saffron with flashB := s.saffron.flashB.writeBytes n bs, updated := some true }) ∧
      (s.saffron.bootedB = true → t.saffron = { s.saffron with flashA := s.saffron.flashA.writeBytes n bs, updated := some false })) ∧
    (saffronBusy s = true ↔ (∃ e ∈ s.got, gotState e.2 = 2) ∨ s.clock < s.saffron.dumpEnd) ∧
    -- SPDM: the order of requests, and the errors 0x03 busy, 0x04 unexpected, 0x01 invalid, 0x07 unsupported
    (∃ (t : State) (resp : List Byte), Gives (.evGetVersion path bs) s (t.emit (.spdm path resp)) ∧ (t.spdmAt path).stage = 1 ∧ (t.spdmAt path).transcript = bs ++ resp) ∧
    (∀ x ∈ [(Instr.evGetCapabilities path bs, 1), (.evNegotiateAlgorithms path bs, 2), (.evGetDigests path bs, 3), (.evGetCertificate path bs, 3),
        (.evChallenge path bs, 3), (.evGetMeasurements path bs, 3)],
      let answer := fun (u : State) (code data : Byte) => ∃ t, Gives x.1 s t ∧ t.spdm = u.spdm ∧ t.out = s.out ++ [.spdm path [0x13, 0x7F, code, data]] ∧ t.mem = s.mem ∧ t.hart = s.hart
      (saffronBusy s = true → answer s 3 0) ∧
      (saffronBusy s = false → (s.spdmAt path).stage ≠ x.2 → ∃ u, answer u 4 0 ∧ (u.spdmAt path).stage = 0 ∧ (u.spdmAt path).transcript = []) ∧
      (saffronBusy s = false → (s.spdmAt path).stage = x.2 → bs.headD 0 ≠ 0x13 → answer s 1 0)) ∧
    (saffronBusy s = false → (s.spdmAt path).stage = 1 → bs.headD 0 = 0x13 → bs.length = 20 →
      ∃ (t : State) (resp : List Byte), Gives (.evGetCapabilities path bs) s (t.emit (.spdm path resp)) ∧ (t.spdmAt path).stage = 2 ∧
        (t.spdmAt path).transcript = (s.spdmAt path).transcript ++ bs ++ resp) ∧
    (saffronBusy s = false → (s.spdmAt path).stage = 2 → bs.headD 0 = 0x13 → ∀ resp, negotiate bs = some resp →
      ∃ t : State, Gives (.evNegotiateAlgorithms path bs) s (t.emit (.spdm path resp)) ∧ (t.spdmAt path).stage = 3 ∧
        (t.spdmAt path).transcript = (s.spdmAt path).transcript ++ bs ++ resp) ∧
    (saffronBusy s = false → (s.spdmAt path).stage = 3 → bs.headD 0 = 0x13 →
      ∀ x ∈ [(Instr.evGetDigests path bs, if bs.length = 4 then some ([0x13, 0x01, 1, 1] ++ Crypto.sha384 certChain) else none),
          (.evGetCertificate path bs, certificate bs), (.evChallenge path bs, challenge path bs s), (.evGetMeasurements path bs, getMeasurements path bs s)],
        ∀ resp, x.2 = some resp → ∃ t, Gives x.1 s t ∧ t.out = s.out ++ [.spdm path resp] ∧ (t.spdmAt path).stage = 3 ∧
          (t.spdmAt path).transcript = (s.spdmAt path).transcript ++ bs ++ resp) ∧
    -- a measurement index of 17 to 254 is malformed
    (saffronBusy s = false → (s.spdmAt path).stage = 3 → bs.headD 0 = 0x13 → 17 ≤ (bs.getD 3 0).toNat → (bs.getD 3 0).toNat ≤ 254 →
      ∃ t, Gives (.evGetMeasurements path bs) s t ∧ t.spdm = s.spdm ∧ t.out = s.out ++ [.spdm path [0x13, 0x7F, 0x01, 0]]) ∧
    Gives (.evSpdmUnsupportedRequest path bs) s (s.emit (.spdm path [0x13, 0x7F, 0x07, bs.getD 1 0]))

/-- R12, R16, R18, R39, R49, R51, R61, R84, R176, R226, R227, R230, R233, R294, R298, R310: what is checked at issue, in order, and what taking an
exception does: a capsule fault with its report, a rollback to the checkpoint, the hold of a staging fault, and the firmware fault. The model's own: that
the safe-point distance goes back with the checkpoint (log 39), the order in which missing operands are found (log 41), the address of Saffron's
handler in ROM (log 7), that PRIVILEGED takes in Saffron as well (log 116), the PC of the source word of a replay as FWPC (log 60), and that the reset hold of a double fault of Saffron's lasts (log 123). A handler starts with RST zero, since what
was interrupted is over (R18, R66). -/
def Obligations.TakingExceptions : Prop :=
  -- the checks at issue
  (∀ (i : Instr) (o : Op) (s : State),
    let at_ : Site := { word := wordOf i }
    (s.hart.kind = .task → o.counted = true → 4096 ≤ s.hart.sdist → issue i o s = .next (raise at_ .safeDistance none s)) ∧
    (Room s → (o.priv = .service ∧ s.hart.kind ≠ .firmware ∨ o.priv = .security ∧ s.hart.kind ≠ .saffron) →
      issue i o s = .next (raise at_ .privileged none s)) ∧
    (Room s → o.priv = .open_ → o.rotation = true → s.here % 4 ≠ 0 → issue i o s = .next (raise at_ .noRotation none s)) ∧
    (Room s → o.priv = .open_ → o.rotation = false → ∀ t ∈ o.tiles, t.val < 16 - s.hart.ntiles → issue i o s = .next (raise at_ .tileUnallocated none s)) ∧
    (Room s → o.priv = .open_ → o.rotation = false → Tiles s o.tiles → ∀ a more, s.sfull a = false →
      (o.srcs = .s a true :: more → issue i o s = .next (raise at_ .emptyRead none (s.modRegs fun r => { r with flg := r.flg ||| 8 }))) ∧
      (o.srcs = .s a false :: more → issue i o s = .next (block (.sreg a) s)))) ∧
  -- the fault report
  (∀ (at_ : Site) (k : Code) (d : Word) (s : State),
    let m := faultReport at_ k.num d s
    m.readLE 0x000 2 = k.num ∧ m.readLE 0x004 4 = at_.word % 2 ^ 32 ∧ m.readLE 0x00C 2 = s.hart.core % 65536 ∧ m.readLE 0x010 8 = s.hart.r.pc.toNat ∧
    m.readLE 0x018 8 = d.toNat ∧ m.readLE 0x028 8 = s.hart.r.flg.toNat ∧ m.readLE 0x030 8 = s.hart.ranks.toNat ∧
    ∀ r : SReg, m.readLE (0x100 + 8 * r.val) 8 = (s.sreg r).toNat) ∧
  -- a task
  (∀ (at_ : Site) (k : Code) (d : Word) (s : State), s.hart.kind = .task → s.hart.partner = none →
    (k.cls = .resolved → raise at_ k (some d) s = s.mod fun h => { h with run := .migrating (some d) }) ∧
    (k.cls ≠ .resolved → overtaken s.hart = true → s.hart.chunk.exclusive = false → raise at_ k (some d) s = squash s) ∧
    (overtaken s.hart = false ∨ s.hart.chunk.exclusive = true →
      let u := drain s
      (k.cls = .capsule → raise at_ k (some d) s = abortCapsule u.hart.cap k.num (faultReport at_ k.num d u) u) ∧
      (k.cls = .rollback → 2 ≤ u.hart.rdl → ∃ t, raise at_ k (some d) s = capsuleFault at_ k.third d t ∧ t.hart = u.hart ∧ t.mem = u.mem ∧ t.caps = u.caps) ∧
      (k.cls = .rollback → u.hart.rdl < 2 →
        let t := raise at_ k (some d) s
        t.hart.run = (if u.hart.header.isSome || u.hart.record.isSome then .clearing else .ready) ∧ t.hart.rdl = u.hart.rdl + 1 ∧ t.hart.r = withRdl u.hart.ckpt (u.hart.rdl + 1) ∧ t.hart.sdist = u.hart.ckptSdist ∧
        t.hart.report = faultReport at_ k.num d u ∧ t.hart.chunk.effects = [] ∧ t.hart.inflight = [] ∧ t.mem = s.mem ∧
        bitsOf (t.sreg 0).toNat 58 57 = u.hart.rdl + 1))) ∧
  -- a pair: a fault of a copy gives way where the other copy's fault waits, and the chunk of either was overtaken
  (∀ (at_ : Site) (k : Code) (d : Word) (p : Hart) (s : State), s.hart.kind = .task → s.hart.partner.bind s.hart? = some p → k.cls ≠ .resolved →
    s.hart.chunk.exclusive = false → overtaken s.hart = true ∨ ((∃ c f, p.run = .pairFault c f) ∧ overtaken p = true) →
    raise at_ k (some d) s = onPair squash s) ∧
  -- the abort of a capsule
  (∀ (id code : Nat) (rep : Memory) (c : Capsule) (s : State), s.cap? id = some c →
    (∀ x, c.state = .ending x → abortCapsule id code rep s = s.modCap id fun y => { y with nflt := min 65535 (y.nflt + 1) }) ∧
    (c.state = .running ∨ c.state = .armed →
      let t := abortCapsule id code rep s
      (∃ y, t.cap? id = some y ∧ y.state = .ending code ∧ y.joins = [] ∧ y.launch = none ∧ y.exts = c.exts) ∧
      (∀ m ∈ t.net, m.cap ≠ id) ∧
      (reportExtent c = none → t.mem = s.mem) ∧
      (∀ x e, reportExtent c = some (x, e) → s.mem.wf = true → sealedRange s e.base 512 = false → t.mem.readBytes e.base 512 = rep.readBytes 0 512 ∧
        ∀ a, a < e.base ∨ e.base + 512 ≤ a → t.mem.read a = s.mem.read a))) ∧
  -- firmware and Saffron
  (∀ (at_ : Site) (k : Code) (d : Word) (s : State),
    let c := s.cluster s.here
    (s.hart.kind = .firmware → c.fwcode = 0 → raise at_ k (some d) s =
      (s.modCluster s.here fun q => { q with fwcode := word k.num, fwpc := at_.pc.getD s.hart.r.pc, fwdetail := d }).mod fun h =>
        { h with run := .ready, r := { h.r with pc := c.fwvec, rst := 0 } }) ∧
    (s.hart.kind = .firmware → c.fwcode ≠ 0 → raise at_ k (some d) s =
      { s with hart := { s.hart with run := .halted }, agenda := .fatal 1 :: s.agenda }) ∧
    (s.hart.kind = .saffron → s.saffron.fwcode = 0 → ∃ pc, raise at_ k (some d) s =
      { s with fresh := s.fresh + 1, saffron := { s.saffron with fwcode := word k.num, fwpc := at_.pc.getD s.hart.r.pc, fwdetail := d },
               hart := { s.hart with run := .ready, r := { s.hart.r with pc := pc, rst := 0 } } }) ∧
    (s.hart.kind = .saffron → s.saffron.fwcode ≠ 0 → raise at_ k (some d) s = { s with hart := { s.hart with run := .halted }, phase := .held }))

/-- R47, R50, R52 to R60: words written out from the spec's encodings, one of each family, and what they decode to; words that the spec reserves
decode to nothing. -/
def Obligations.DecodeWords : Prop :=
  -- majors 0x01 to 0x0E: add s3, s1, s2; addi s3, s3, -1; ext s4, s5, 8, 16; ins s17, s16, 26, 5
  decodeWord (0x01 * 2 ^ 26 + 3 * 2 ^ 21 + 1 * 2 ^ 16 + 2 * 2 ^ 11) = .ok (.add 3 1 2 false false) ∧
  decodeWord 0x14637FFF = .ok (.addi 3 3 false 0x7FFF) ∧ decodeWord 0x308503C8 = .ok (.ext 4 5 false 15 8) ∧
  decodeWord 0x3630011A = .ok (.ins 17 16 false 4 26) ∧
  -- control: br.lt s1, s2, 3 words back; jr s31; done; safe 0x8000; limm 0x24_68AC; repf 1, 4, 1, 1, 1
  decodeWord (0x10 * 2 ^ 26 + 1 * 2 ^ 21 + 2 * 2 ^ 16 + 2 * 2 ^ 13 + 0x1FFD) = .ok (.brLt 1 2 0x1FFD) ∧
  decodeWord 0x4C1F0000 = .ok (.jr 31 false) ∧ decodeWord 0x58000000 = .ok .done ∧ decodeWord 0x54008000 = .ok (.safe 0x8000) ∧
  decodeWord 0x5C2468AC = .ok (.limm 0x2468AC) ∧ decodeWord 0xF800C444 = .ok (.repf 0 3 1 1 1) ∧
  -- messages: jnew s6, s1, s2; send s3, s4; spawn s7, s8, s9
  decodeWord 0x50C11005 = .ok (.jnew 6 1 2 false false) ∧ decodeWord 0x50032000 = .ok (.send 3 4 false false) ∧
  decodeWord 0x50E8480B = .ok (.spawn 7 8 9 false false) ∧
  -- memory: ld.d s5, s4, 8; ldc s7, s3, -8; amocas.d s6, s4, s7; amofmax.nr s4, s5; fence.x
  decodeWord (0x18 * 2 ^ 26 + 5 * 2 ^ 21 + 4 * 2 ^ 16 + 3 * 2 ^ 13 + 8) = .ok (.ldD 5 4 false 8) ∧
  decodeWord 0x68E37FF8 = .ok (.ldc 7 3 false 0x7FF8) ∧ decodeWord 0x70C43819 = .ok (.amocas 6 4 7 false false true) ∧
  decodeWord 0x7004282C = .ok (.amofmaxNr 4 5 false false) ∧ decodeWord 0x74000000 = .ok .fenceX ∧
  -- tiles: tld.f32 t14, [p2]+r; vset p2, s4, s5; tadd t2, t1, t0?; tadd.i8.sat t3, t4, t5; tqnt.4.r t13, t14, t15
  decodeWord 0x83934000 = .ok (.tld 14 2 1 5 false) ∧ decodeWord 0x88442809 = .ok (.vset 2 4 5 false false) ∧
  decodeWord (0x24 * 2 ^ 26 + 2 * 2 ^ 22 + 1 * 2 ^ 18 + 0 * 2 ^ 14 + 0x1780) = .ok (.tadd 2 1 0 false true false 0xF) ∧
  decodeWord 0x90D14800 = .ok (.tadd 3 4 5 false false true 0) ∧ decodeWord 0x9B7BC380 = .ok (.tqnt 13 14 15 false false 3 true) ∧
  -- matrix and copy: mma t8, 0, 1, 4; mepi t8, t7, 4, 128; cpy.ms s7, s8, s9
  decodeWord 0xC2005800 = .ok (.mma true 0 1 3) ∧ decodeWord 0xCD07FE18 = .ok (.mepi true 7 127 3) ∧
  decodeWord 0xC8E84800 = .ok (.cpyMs 7 8 9 false false) ∧
  -- system: trap 0x0042; sysrd s5, 0x0001; repair s13, s14; mmurd s3, s4; rng s7
  decodeWord 0xE0000042 = .ok (.trap 0x42) ∧ decodeWord 0xE4A00001 = .ok (.sysrd 5 1) ∧ decodeWord 0xEDAE0004 = .ok (.repair 13 14) ∧
  decodeWord 0xF0640000 = .ok (.mmurd 3 4) ∧ decodeWord 0xF4E00030 = .ok (.rng 7) ∧
  -- majors 0x00 and 0x3F are reserved, and so are a nonzero reserved field of DONE and a func that is not assigned
  (∃ r, decodeWord 0 = .error r) ∧ (∃ r, decodeWord 0xFFFFFFFF = .error r) ∧ (∃ r, decodeWord 0x58200000 = .error r) ∧
  ∃ r, decodeWord 0x040001FF = .error r

/-- R47 to R60: the encoding of every well-formed instruction, with every operand at every value that it admits, decodes to that instruction; and
a word that decodes is the encoding of what it decodes to, so no word has two meanings and no reserved bit is ignored. -/
def Obligations.EncodeDecode : Prop :=
  (∀ (i : Instr) (w : Nat), i.wf = true → encode i = some w → w < 2 ^ 32 ∧ decodeWord w = .ok i) ∧
  ∀ (w : Nat) (i : Instr), w < 2 ^ 32 → decodeWord w = .ok i → i.wf = true ∧ encode i = some w

/-- R24, R50, R189: a step of the context that issues fetches at PC, decodes, and executes what the word decodes to; a word that decodes to
nothing is ILLEGAL. Before it, `pass` lets time pass and tries again what waits at its home (the model's, log 8 and 50): its `tick` changes the clock,
Sumac, credits, idle times, the watchdogs of queues and the times of join cells, and nothing else. A PC that is no multiple of 4 is fetched as it stands
(the model's, log 103). -/
def Obligations.StepRunsDecoded : Prop :=
  ∀ s : State,
    (let v := tick s
     { v with fresh := s.fresh, clock := s.clock, sumac := s.sumac, clusters := s.clusters, queues := s.queues, caps := s.caps } = s) ∧
    (s.pending = [] → s.releasing = [] → pass s = tick s) ∧
    -- the fetch, for every kind of context
    (let u := pass s
     s.agenda = [] → u.down = false → u.phase ≠ .fatal → u.hart.run = .ready → u.hart.chunk.exclusive = false → coreStopped u = false →
      (u.hart.kind = .task → u.hart.rebind = none ∧ bitOf (rstGet u.hart.r.rst 4 1) 1 = false) →
      ∀ w t, fetchWord u.hart.r.pc (startIssue u) = .ok (w, t) →
        let held := t.mod fun h => { h with fetched := (u.hart.r.pc, w) :: h.fetched }
        (∀ i, decodeWord w = .ok i → step s = exec i held) ∧
        ((∃ r, decodeWord w = .error r) → step s = exec (.evIllegalInstruction (BitVec.ofNat 32 w)) held)) ∧
    -- the word of a task: the four bytes at PC, least significant first
    (∀ (e : Extent) (pa : Nat), s.hart.kind = .task → checkAccess s s.hart.r.pc 4 .exec = .ok pa →
      s.extents[(s.hart.r.pc).toNat / 2 ^ 56]? = some e → e.kind = 1 → ownedBy s e.ksel pa 4 = true → s.hart.chunk.exclusive = false → s.poison = [] →
      s.faults = [] → s.sram = [] → s.retained = [] → (∀ c ∈ (s.cluster s.here).ro, c.cap ≠ s.hart.cap) →
      ∃ t, fetchWord s.hart.r.pc s = .ok (s.mem.readLE pa 4, t) ∧ t.hart = s.hart ∧ t.mem = s.mem ∧ t.caps = s.caps ∧ t.cores = s.cores ∧ t.parked = s.parked) ∧
    -- the agenda
    (∀ i rest, s.agenda = .event i :: rest → encode i = none → step s = exec i (pass { s with agenda := rest })) ∧
    (∀ n rest, s.agenda = .fatal n :: rest → step s = exec (.evPackageFatalError n) (pass { s with agenda := rest })) ∧
    (∀ h rest, s.agenda = .issue h :: rest → step s = turn (focus h (pass { s with agenda := rest })))

namespace Sys2Proof.Claims

/-! The canonical form of every memory that State holds (the model's, log 1): addresses rise strictly, and no entry equals what an unlisted
address reads as. -/

def TidyMsg (m : Msg) : Prop := ∀ d v, m.tile = some (d, v) → d.wf = true

def TidyRegs (r : Regs) : Prop := ∀ x : TReg, (r.t.get x).data.wf = true

def TidyEffect (e : Effect) : Prop := (∀ m, e = .message m → TidyMsg m) ∧ ∀ c, e = .spawn c → c.image.wf = true

def TidyHart (h : Hart) : Prop :=
  TidyRegs h.r ∧ TidyRegs h.ckpt ∧ h.report.wf = true ∧ (∀ e ∈ h.chunk.effects, TidyEffect e) ∧ (∀ p ∈ h.inflight, ∀ x d, p.dest = .treg x d → d.wf = true) ∧
  ∀ m, h.run = .committing (.cont m) → TidyMsg m

def TidyCore (k : Core) : Prop := k.pad.wf = true ∧ k.rows.wf = true ∧ (∀ m ∈ k.inbox, TidyMsg m) ∧ ∀ i, ∀ e ∈ k.ports.get i, TidyMsg e.msg

def TidyCluster (c : Cluster) : Prop :=
  c.opbuf.wf = true ∧ c.mmu.wf = true ∧ (∀ m ∈ c.park, TidyMsg m) ∧ ∀ p ∈ c.products, ∀ d ∈ p.data, d.wf = true

/-- Every memory of the machine is in canonical form. -/
def Canonical (s : State) : Prop :=
  s.mem.wf = true ∧ s.host.wf = true ∧ (∀ h ∈ s.harts, TidyHart h) ∧ (∀ k ∈ s.cores, TidyCore k) ∧ (∀ c ∈ s.clusters, TidyCluster c) ∧
  (∀ m ∈ s.net, TidyMsg m) ∧ (∀ x ∈ s.heldx, TidyEffect x.2.2) ∧ (∀ c ∈ s.caps, c.record.wf = true ∧ ∀ m, c.launch = some m → TidyMsg m) ∧ (∀ r ∈ s.reports, r.wf = true) ∧
  (∀ q ∈ s.queues, q.slots.wf = true) ∧ (∀ p ∈ s.parts, p.cfg.wf = true ∧ p.stagecpl.wf = true) ∧
  s.saffron.sram.wf = true ∧ s.saffron.windows.wf = true ∧ s.saffron.flashA.wf = true ∧ s.saffron.flashB.wf = true ∧
  (∀ x ∈ s.seals, x.2.wf = true) ∧ ∀ d ∈ s.dirty, d.old.wf = true

end Sys2Proof.Claims

/-- R14, R16, R17, R22, R216, R222, R252, R266, R269, R286, R290, R331, R332: the machine right after reset, at the values that the spec gives; and the
invariant of its memories. -/
def Obligations.ResetState : Prop :=
  let s := State.reset
  s.phase = .off ∧ s.mem = [] ∧ Canonical s ∧ s.faults = [] ∧ s.sram = [] ∧ s.poison = [] ∧ s.pending = [] ∧ s.retained = [] ∧ s.used = [] ∧ s.suspended = [] ∧ s.releasing = [] ∧ s.mckeys = [] ∧ s.budget = 1600 ∧ s.caps = [] ∧ s.net = [] ∧ s.heldx = [] ∧ s.tokens = [] ∧
  s.hart.r.flg = 0 ∧ s.hart.r.sfull = BitVec.allOnes 32 ∧ (∀ t : TReg, (s.tile t).full = true ∧ (s.tile t).shape = 0x0FFF ∧ (s.tile t).data = []) ∧
  (∀ c < 128, let k := s.cluster c
    k.fwvec = 0 ∧ k.fwcode = 0 ∧ k.fwpc = 0 ∧ k.fwdetail = 0 ∧ k.mmuctl = 0 ∧ k.diagstat = 0 ∧ k.summary = 0 ∧ k.clstat = 0 ∧ k.grant = none ∧
    (∀ i : Fin 16, k.repair.get i = 0) ∧ ∀ i < 16, ringV (k.ring i).defn = false ∧ (k.chan i).copy = none) ∧
  (∀ p < 16, let x := s.part p
    x.klass = 0 ∧ x.wadm = 0 ∧ x.window = 0 ∧ x.pfloor = 0 ∧ x.pcap = 0 ∧ x.cfg.readLE 0x01A 1 = p ∧ x.reserved = [] ∧ x.owners = [] ∧ x.endpoints = []) ∧
  (∀ n < 32768, let q := s.queue n
    q.en = false ∧ q.fn = none ∧ q.waiting = 0 ∧ q.qstat = 0xFF ∧ q.chead = 0 ∧ q.qcfg = 0 ∧ q.crbase = 0 ∧ q.gateStatus = 0) ∧
  (∀ n : Fin 16, s.saffron.mr.get n = 0) ∧ (∀ n < 64, (s.inbound n).kind = 0) ∧
  (∀ g, g < granuleOf dumpBase → gotState (s.granule g) = 0) ∧ (∀ g, granuleOf dumpBase ≤ g → g < 196608 → gotState (s.granule g) = 3) ∧
  (∀ o, (memKey s o).key = 0)

/-- R36, R61, R216, R245, R246: every step keeps all memories in canonical form, so that equal memories are equal data (the model's, log 1). And no
instruction of a task writes a firmware register, the MMU or the state of a cluster, the registers of firmware or of another capsule, or a byte of device
memory other than those of its capsule's fault report (DETAIL of a fault the spec gives no value for is free, log 7): what it stores waits for its commit. -/
def Obligations.StepKeepsMemory : Prop :=
  (∀ s t : State, Canonical s → step s = .next t → Canonical t) ∧
  (∀ (i : Instr) (s t : State), Canonical s → (encode i).isSome = true → s.hart.kind = .task →
    (∀ p g, s.hart.partner = some p → g ∈ s.harts → g.id = p → g.kind = .task ∧ g.cap = s.hart.cap) → exec i s = .next t →
    (∀ n, let a := s.cluster n
      let b := t.cluster n
      b.fwvec = a.fwvec ∧ b.fwcode = a.fwcode ∧ b.fwpc = a.fwpc ∧ b.fwdetail = a.fwdetail ∧ b.mmuctl = a.mmuctl ∧ b.mmu = a.mmu ∧
      b.clstat = a.clstat ∧ b.summary = a.summary ∧ b.repair = a.repair) ∧
    (∀ h ∈ t.harts, (∀ g ∈ s.harts, g.id = h.id → g.kind ≠ .task ∨ g.cap ≠ s.hart.cap) → ∃ g ∈ s.harts, g.id = h.id ∧ g.kind = h.kind ∧ g.r = h.r) ∧
    ∀ a, (∀ c x e, s.cap? s.hart.cap = some c → reportExtent c = some (x, e) → a < e.base ∨ e.base + 512 ≤ a) → t.mem.read a = s.mem.read a)
end

