-- ==== Sys2Proof/Laws/Lookup.lean ====
section
/-! SUPPORT. Keyed lists: a read after an update gives what was written, every other key stays, and an entry bears the key by which it is
found; the same for cores, clusters, partitions and queues, and what acting on one context does. -/

namespace Sys2Proof.Machine

/-- An entry bears its key. -/
theorem lookup_key {α : Type} {key : α → Nat} {dflt : Nat → α} (h : ∀ n, key (dflt n) = n) (l : List α) (k : Nat) :
    key (lookup key dflt l k) = k := by
  induction l with
  | nil => exact h k
  | cons x l ih =>
    simp only [lookup]
    split
    · assumption
    · exact ih

/-- What was written is read. -/
theorem lookup_update_same {α : Type} (key : α → Nat) (dflt : Nat → α) (l : List α) (a : α) :
    lookup key dflt (update key l a) (key a) = a := by
  induction l with
  | nil => simp [update, lookup]
  | cons x l ih =>
    simp only [update]
    split
    · simp [lookup]
    · rename_i n
      simp [lookup, n, ih]

/-- Every other key stays. -/
theorem lookup_update_other {α : Type} (key : α → Nat) (dflt : Nat → α) (l : List α) {a : α} {k : Nat} (h : k ≠ key a) :
    lookup key dflt (update key l a) k = lookup key dflt l k := by
  induction l with
  | nil => simp [update, lookup, Ne.symm h]
  | cons x l ih =>
    simp only [update]
    split
    · rename_i e
      simp [lookup, e, Ne.symm h]
    · simp [lookup, ih]

@[simp] theorem State.core_id (s : State) (n : Nat) : (s.core n).id = n := lookup_key (fun _ => rfl) _ _
@[simp] theorem State.cluster_no (s : State) (n : Nat) : (s.cluster n).no = n := lookup_key (fun _ => rfl) _ _
@[simp] theorem State.part_no (s : State) (n : Nat) : (s.part n).no = n := lookup_key (fun _ => rfl) _ _
@[simp] theorem State.queue_no (s : State) (n : Nat) : (s.queue n).no = n := lookup_key (fun _ => rfl) _ _

/-- A core that was changed, where the change keeps its number. -/
theorem State.core_modCore_same (s : State) (n : Nat) (f : Core → Core) (h : (f (s.core n)).id = n) : (s.modCore n f).core n = f (s.core n) := by
  have := lookup_update_same Core.id Core.reset s.cores (f (s.core n))
  rwa [h] at this

theorem State.core_modCore_other (s : State) {n m : Nat} (f : Core → Core) (h : (f (s.core n)).id = n) (d : m ≠ n) :
    (s.modCore n f).core m = s.core m := lookup_update_other _ _ _ (by rwa [h])

/-- A cluster that was changed. -/
theorem State.cluster_modCluster_same (s : State) (n : Nat) (f : Cluster → Cluster) (h : (f (s.cluster n)).no = n) :
    (s.modCluster n f).cluster n = f (s.cluster n) := by
  have := lookup_update_same Cluster.no Cluster.reset s.clusters (f (s.cluster n))
  rwa [h] at this

theorem State.cluster_modCluster_other (s : State) {n m : Nat} (f : Cluster → Cluster) (h : (f (s.cluster n)).no = n) (d : m ≠ n) :
    (s.modCluster n f).cluster m = s.cluster m := lookup_update_other _ _ _ (by rwa [h])

/-- A partition that was changed. -/
theorem State.part_modPart_same (s : State) (n : Nat) (f : Part → Part) (h : (f (s.part n)).no = n) : (s.modPart n f).part n = f (s.part n) := by
  have := lookup_update_same Part.no Part.reset s.parts (f (s.part n))
  rwa [h] at this

theorem State.part_modPart_other (s : State) {n m : Nat} (f : Part → Part) (h : (f (s.part n)).no = n) (d : m ≠ n) :
    (s.modPart n f).part m = s.part m := lookup_update_other _ _ _ (by rwa [h])

/-- A queue that was changed. -/
theorem State.queue_modQueue_same (s : State) (n : Nat) (f : Queue → Queue) (h : (f (s.queue n)).no = n) :
    (s.modQueue n f).queue n = f (s.queue n) := by
  have := lookup_update_same Queue.no Queue.reset s.queues (f (s.queue n))
  rwa [h] at this

theorem State.queue_modQueue_other (s : State) {n m : Nat} (f : Queue → Queue) (h : (f (s.queue n)).no = n) (d : m ≠ n) :
    (s.modQueue n f).queue m = s.queue m := lookup_update_other _ _ _ (by rwa [h])

/-- The context that issues is in focus. -/
@[simp] theorem focus_self (s : State) : focus s.hart.id s = s := by simp [focus]

/-- Acting on the context that issues is acting. -/
theorem onHart_self (s : State) (f : State → State) (h : (f s).hart.id = s.hart.id) : onHart s.hart.id f s = f s := by
  simp [onHart, focus, h]

end Sys2Proof.Machine
end

