-- ==== Sys2Proof/Laws/Memory.lean ====
section
/-! SUPPORT. Sparse memory: every operation keeps the canonical form, a read after a write gives what was written, and every other
byte stays. -/

namespace Sys2Proof.Machine

/-- The canonical form of a list with a first entry: it is not the default, and every later address is larger. -/
theorem Memory.wf_cons {a : Nat} {b : Byte} {m : Memory} :
    Memory.wf ((a, b) :: m) = true ↔ b ≠ Memory.default ∧ (∀ c ∈ m, a < c.1) ∧ Memory.wf m = true := by
  induction m generalizing a b with
  | nil => simp [Memory.wf]
  | cons c m ih =>
    obtain ⟨a', b'⟩ := c
    have h := ih (a := a') (b := b')
    constructor
    · intro w
      simp only [Memory.wf, Bool.and_eq_true, bne_iff_ne, decide_eq_true_eq] at w
      obtain ⟨⟨hb, ha⟩, hw⟩ := w
      refine ⟨hb, ?_, hw⟩
      intro c hc
      rcases List.mem_cons.mp hc with rfl | hc
      · exact ha
      · exact lt_trans ha ((h.mp hw).2.1 c hc)
    · rintro ⟨hb, ha, hw⟩
      simp [Memory.wf, hb, hw, ha (a', b') (by simp)]

/-- Addresses after a write are those before it, or the one written. -/
theorem Memory.write_addresses {m : Memory} {a : Nat} {b : Byte} {c : Host.Cell} (h : c ∈ m.write a b) : c ∈ m ∨ c.1 = a := by
  induction m with
  | nil =>
    simp only [Memory.write] at h
    split at h <;> simp_all
  | cons x m ih =>
    obtain ⟨k, d⟩ := x
    simp only [Memory.write] at h
    split at h
    · split at h
      · exact .inl h
      · rcases List.mem_cons.mp h with rfl | h
        · exact .inr rfl
        · exact .inl h
    · split at h
      · split at h
        · exact .inl (List.mem_cons_of_mem _ h)
        · rcases List.mem_cons.mp h with rfl | h
          · exact .inr rfl
          · exact .inl (List.mem_cons_of_mem _ h)
      · rcases List.mem_cons.mp h with rfl | h
        · exact .inl List.mem_cons_self
        · exact (ih h).imp_left (List.mem_cons_of_mem _)

/-- A write of one byte keeps the canonical form. -/
theorem Memory.write_wf {m : Memory} (a : Nat) (b : Byte) (h : m.wf = true) : (m.write a b).wf = true := by
  induction m with
  | nil =>
    simp only [Memory.write]
    split
    · rfl
    · rw [Memory.wf_cons]; simp_all [Memory.wf]
  | cons x m ih =>
    obtain ⟨k, d⟩ := x
    obtain ⟨hd, hk, hm⟩ := Memory.wf_cons.mp h
    simp only [Memory.write]
    split
    · next hlt =>
      split
      · exact h
      · next hb =>
        refine Memory.wf_cons.mpr ⟨hb, ?_, h⟩
        intro c hc
        rcases List.mem_cons.mp hc with rfl | hc
        · exact hlt
        · exact lt_trans hlt (hk c hc)
    · next hge =>
      split
      · next heq =>
        split
        · exact hm
        · next hb => exact Memory.wf_cons.mpr ⟨hb, fun c hc => heq ▸ hk c hc, hm⟩
      · next hne =>
        refine Memory.wf_cons.mpr ⟨hd, ?_, ih hm⟩
        intro c hc
        rcases Memory.write_addresses hc with hc | hc
        · exact hk c hc
        · rw [hc]; omega

/-- Nothing reads below the first address. -/
theorem Memory.read_below {m : Memory} {a : Nat} (h : ∀ c ∈ m, a < c.1) : m.read a = Memory.default := by
  induction m with
  | nil => rfl
  | cons x m ih =>
    obtain ⟨k, d⟩ := x
    have hk : a < k := h (k, d) List.mem_cons_self
    simp only [Memory.read, Nat.ne_of_gt hk, if_false]
    exact ih fun c hc => h c (List.mem_cons_of_mem _ hc)

/-- A read of the byte that was written gives it. -/
theorem Memory.read_write_same {m : Memory} (a : Nat) (b : Byte) (h : m.wf = true) : (m.write a b).read a = b := by
  induction m with
  | nil =>
    simp only [Memory.write]
    split <;> simp_all [Memory.read]
  | cons x m ih =>
    obtain ⟨k, d⟩ := x
    obtain ⟨hd, hk, hm⟩ := Memory.wf_cons.mp h
    simp only [Memory.write]
    split
    · next hlt =>
      split
      · next hb =>
        rw [hb]
        refine Memory.read_below fun c hc => ?_
        rcases List.mem_cons.mp hc with rfl | hc
        · exact hlt
        · exact lt_trans hlt (hk c hc)
      · simp [Memory.read]
    · split
      · next heq =>
        split
        · next hb => rw [hb]; exact Memory.read_below fun c hc => heq ▸ hk c hc
        · simp [Memory.read]
      · next hne =>
        have : k ≠ a := fun e => hne e.symm
        simp only [Memory.read, this, if_false]
        exact ih hm

/-- A write leaves every other byte alone. -/
theorem Memory.read_write_other (m : Memory) {a x : Nat} (b : Byte) (h : x ≠ a) : (m.write a b).read x = m.read x := by
  induction m with
  | nil =>
    simp only [Memory.write]
    split
    · rfl
    · simp [Memory.read, h.symm]
  | cons y m ih =>
    obtain ⟨k, d⟩ := y
    simp only [Memory.write]
    split
    · split
      · rfl
      · simp [Memory.read, h.symm]
    · split
      · next heq =>
        split
        · next hb =>
          have : k ≠ x := fun e => h (e.symm.trans heq.symm)
          simp [Memory.read, this]
        · have : k ≠ x := fun e => h (e.symm.trans heq.symm)
          simp [Memory.read, this, h.symm]
      · simp only [Memory.read]
        split
        · rfl
        · exact ih

/-- A write of bytes keeps the canonical form. -/
theorem Memory.writeBytes_wf {m : Memory} (a : Nat) (bs : List Byte) (h : m.wf = true) : (m.writeBytes a bs).wf = true := by
  induction bs generalizing m a with
  | nil => exact h
  | cons b bs ih => exact ih (a + 1) (Memory.write_wf a b h)

/-- A write of bytes leaves every byte outside them alone. -/
theorem Memory.read_writeBytes_other (m : Memory) {a x : Nat} (bs : List Byte) (h : x < a ∨ a + bs.length ≤ x) :
    (m.writeBytes a bs).read x = m.read x := by
  induction bs generalizing m a with
  | nil => rfl
  | cons b bs ih =>
    simp only [List.length_cons] at h
    rw [Memory.writeBytes, ih (m := m.write a b) (a := a + 1) (by omega), Memory.read_write_other m b (by omega)]

/-- A read of the bytes that were written gives them. -/
theorem Memory.read_writeBytes_same {m : Memory} (a i : Nat) (bs : List Byte) (hm : m.wf = true) (h : i < bs.length) :
    (m.writeBytes a bs).read (a + i) = bs[i] := by
  induction bs generalizing m a i with
  | nil => exact absurd h (by simp)
  | cons b bs ih =>
    cases i with
    | zero =>
      rw [Memory.writeBytes, Memory.read_writeBytes_other (m.write a b) bs (by omega)]
      exact Memory.read_write_same a b hm
    | succ i =>
      have e : a + (i + 1) = a + 1 + i := by omega
      rw [Memory.writeBytes, e, ih (m := m.write a b) (a := a + 1) i (Memory.write_wf a b hm) (by simpa using h)]
      simp

/-- The number of bytes of a number is as asked. -/
@[simp] theorem leBytes_length (n v : Nat) : (leBytes n v).length = n := by
  induction n generalizing v with
  | zero => rfl
  | succ n ih => simp [leBytes, ih]

/-- The number of a list of bytes is below 256 to its length. -/
theorem leNat_lt (l : List Byte) : leNat l < 256 ^ l.length := by
  induction l with
  | nil => simp [leNat]
  | cons b l ih =>
    have := b.isLt
    simp only [leNat, List.length_cons, pow_succ]
    omega

/-- The bytes of a number form it again, modulo 256 to their number (R4). -/
theorem leNat_leBytes (n v : Nat) : leNat (leBytes n v) = v % 256 ^ n := by
  induction n generalizing v with
  | zero => simp [leBytes, leNat, Nat.mod_one]
  | succ n ih =>
    have e : 256 ^ (n + 1) = 256 * 256 ^ n := by rw [pow_succ, Nat.mul_comm]
    rw [leBytes, leNat, ih, BitVec.toNat_ofNat, e, Nat.mod_mul]

/-- A write of a number keeps the canonical form. -/
theorem Memory.writeLE_wf {m : Memory} (a n v : Nat) (h : m.wf = true) : (m.writeLE a n v).wf = true := Memory.writeBytes_wf a _ h

/-- A write of a number leaves every byte outside it alone. -/
theorem Memory.read_writeLE_other (m : Memory) {a n x : Nat} (v : Nat) (h : x < a ∨ a + n ≤ x) : (m.writeLE a n v).read x = m.read x :=
  Memory.read_writeBytes_other m _ (by simpa using h)

/-- Dropping entries keeps the canonical form. -/
theorem Memory.filter_wf {m : Memory} (p : Host.Cell → Bool) (h : m.wf = true) : Memory.wf (m.filter p) = true := by
  induction m with
  | nil => rfl
  | cons x m ih =>
    obtain ⟨k, d⟩ := x
    obtain ⟨hd, hk, hm⟩ := Memory.wf_cons.mp h
    simp only [List.filter_cons]
    split
    · exact Memory.wf_cons.mpr ⟨hd, fun c hc => hk c (List.mem_filter.mp hc).1, ih hm⟩
    · exact ih hm

/-- Clearing a range keeps the canonical form. -/
theorem Memory.clear_wf {m : Memory} (a n : Nat) (h : m.wf = true) : (m.clear a n).wf = true := Memory.filter_wf _ h

/-- A cleared byte reads as zero, and every other byte stays. -/
theorem Memory.read_clear (m : Memory) (a n x : Nat) :
    (m.clear a n).read x = if a ≤ x ∧ x < a + n then Memory.default else m.read x := by
  induction m with
  | nil => simp [Memory.clear, Memory.read]
  | cons y m ih =>
    obtain ⟨k, d⟩ := y
    simp only [Memory.clear, List.filter_cons] at ih ⊢
    by_cases hk : k < a ∨ a + n ≤ k
    · have : (decide (k < a) || decide (a + n ≤ k)) = true := by simpa using hk
      simp only [this, if_true, Memory.read]
      by_cases e : k = x
      · subst e
        simp [show ¬(a ≤ k ∧ k < a + n) by omega]
      · simp only [e, if_false]; exact ih
    · have : (decide (k < a) || decide (a + n ≤ k)) = false := by simpa using hk
      simp only [this, Memory.read]
      by_cases e : k = x
      · subst e
        have hin : a ≤ k ∧ k < a + n := by omega
        simpa [hin] using ih
      · simp only [e, if_false]; simpa using ih

/-- What a function gives below a bound, as a sorted list of bytes, is canonical. -/
theorem Memory.filterMap_wf (f : Nat → Byte) (l : List Nat) (h : l.Pairwise (· < ·)) :
    Memory.wf (l.filterMap fun k => if f k = Memory.default then none else some (k, f k)) = true := by
  induction l with
  | nil => rfl
  | cons k l ih =>
    obtain ⟨hk, hl⟩ := List.pairwise_cons.mp h
    simp only [List.filterMap_cons]
    split
    · exact ih hl
    · next c hc =>
      split at hc
      · cases hc
      · next hne =>
        cases hc
        refine Memory.wf_cons.mpr ⟨hne, ?_, ih hl⟩
        intro c hc
        obtain ⟨x, hx, hc⟩ := List.mem_filterMap.mp hc
        split at hc
        · cases hc
        · cases hc; exact hk x hx

/-- A tabulated memory is canonical. -/
theorem Memory.tabulate_wf (n : Nat) (f : Nat → Byte) : (Memory.tabulate n f).wf = true :=
  Memory.filterMap_wf f _ List.pairwise_lt_range

/-- A window of a memory is canonical. -/
theorem Memory.window_wf (m : Memory) (a n : Nat) : (m.window a n).wf = true := Memory.tabulate_wf _ _

/-- Bytes as a memory are canonical. -/
theorem Memory.ofBytes_wf (l : List Byte) : (Memory.ofBytes l).wf = true := Memory.tabulate_wf _ _

/-- Memories in canonical form that read alike are equal data. -/
theorem Memory.ext_of_read {m n : Memory} (hm : m.wf = true) (hn : n.wf = true) (h : ∀ a, m.read a = n.read a) : m = n := by
  induction m generalizing n with
  | nil =>
    cases n with
    | nil => rfl
    | cons x n =>
      obtain ⟨k, d⟩ := x
      have := h k
      simp [Memory.read] at this
      exact absurd this.symm (Memory.wf_cons.mp hn).1
  | cons x m ih =>
    obtain ⟨k, d⟩ := x
    obtain ⟨hd, hk, hm'⟩ := Memory.wf_cons.mp hm
    cases n with
    | nil =>
      have := h k
      simp [Memory.read] at this
      exact absurd this hd
    | cons y n =>
      obtain ⟨l, e⟩ := y
      obtain ⟨he, hl, hn'⟩ := Memory.wf_cons.mp hn
      have hkl : k = l := by
        rcases Nat.lt_trichotomy k l with c | c | c
        · have := h k
          simp only [Memory.read, if_true, Nat.ne_of_gt c, if_false] at this
          rw [Memory.read_below fun x hx => lt_trans c (hl x hx)] at this
          exact absurd this hd
        · exact c
        · have := h l
          simp only [Memory.read, if_true, Nat.ne_of_gt c, if_false] at this
          rw [Memory.read_below fun x hx => lt_trans c (hk x hx)] at this
          exact absurd this.symm he
      subst hkl
      have hde : d = e := by have := h k; simpa [Memory.read] using this
      subst hde
      congr 1
      refine ih hm' hn' fun a => ?_
      have := h a
      simp only [Memory.read] at this
      by_cases c : k = a
      · subst c
        rw [Memory.read_below hk, Memory.read_below hl]
      · simpa [c] using this

end Sys2Proof.Machine
end

