-- ==== Sys2Proof/Laws/State.lean ====
section
/-! SUPPORT. What each update of the state leaves alone: one lemma per field per update, so that no later proof unfolds a record
update. -/

namespace Sys2Proof.Machine

/-! State.mod. -/

@[simp] theorem State.mod_parked (f : Hart → Hart) (s : State) : (s.mod f).parked = s.parked := rfl
@[simp] theorem State.mod_agenda (f : Hart → Hart) (s : State) : (s.mod f).agenda = s.agenda := rfl
@[simp] theorem State.mod_fresh (f : Hart → Hart) (s : State) : (s.mod f).fresh = s.fresh := rfl
@[simp] theorem State.mod_clock (f : Hart → Hart) (s : State) : (s.mod f).clock = s.clock := rfl
@[simp] theorem State.mod_nextId (f : Hart → Hart) (s : State) : (s.mod f).nextId = s.nextId := rfl
@[simp] theorem State.mod_mem (f : Hart → Hart) (s : State) : (s.mod f).mem = s.mem := rfl
@[simp] theorem State.mod_poison (f : Hart → Hart) (s : State) : (s.mod f).poison = s.poison := rfl
@[simp] theorem State.mod_padPoison (f : Hart → Hart) (s : State) : (s.mod f).padPoison = s.padPoison := rfl
@[simp] theorem State.mod_bufPoison (f : Hart → Hart) (s : State) : (s.mod f).bufPoison = s.bufPoison := rfl
@[simp] theorem State.mod_faults (f : Hart → Hart) (s : State) : (s.mod f).faults = s.faults := rfl
@[simp] theorem State.mod_sram (f : Hart → Hart) (s : State) : (s.mod f).sram = s.sram := rfl
@[simp] theorem State.mod_host (f : Hart → Hart) (s : State) : (s.mod f).host = s.host := rfl
@[simp] theorem State.mod_sumac (f : Hart → Hart) (s : State) : (s.mod f).sumac = s.sumac := rfl
@[simp] theorem State.mod_homemap (f : Hart → Hart) (s : State) : (s.mod f).homemap = s.homemap := rfl
@[simp] theorem State.mod_got (f : Hart → Hart) (s : State) : (s.mod f).got = s.got := rfl
@[simp] theorem State.mod_srls (f : Hart → Hart) (s : State) : (s.mod f).srls = s.srls := rfl
@[simp] theorem State.mod_seals (f : Hart → Hart) (s : State) : (s.mod f).seals = s.seals := rfl
@[simp] theorem State.mod_memkeys (f : Hart → Hart) (s : State) : (s.mod f).memkeys = s.memkeys := rfl
@[simp] theorem State.mod_mckeys (f : Hart → Hart) (s : State) : (s.mod f).mckeys = s.mckeys := rfl
@[simp] theorem State.mod_vpages (f : Hart → Hart) (s : State) : (s.mod f).vpages = s.vpages := rfl
@[simp] theorem State.mod_versions (f : Hart → Hart) (s : State) : (s.mod f).versions = s.versions := rfl
@[simp] theorem State.mod_dirty (f : Hart → Hart) (s : State) : (s.mod f).dirty = s.dirty := rfl
@[simp] theorem State.mod_heldx (f : Hart → Hart) (s : State) : (s.mod f).heldx = s.heldx := rfl
@[simp] theorem State.mod_tier1map (f : Hart → Hart) (s : State) : (s.mod f).tier1map = s.tier1map := rfl
@[simp] theorem State.mod_parts (f : Hart → Hart) (s : State) : (s.mod f).parts = s.parts := rfl
@[simp] theorem State.mod_releasing (f : Hart → Hart) (s : State) : (s.mod f).releasing = s.releasing := rfl
@[simp] theorem State.mod_suspended (f : Hart → Hart) (s : State) : (s.mod f).suspended = s.suspended := rfl
@[simp] theorem State.mod_queues (f : Hart → Hart) (s : State) : (s.mod f).queues = s.queues := rfl
@[simp] theorem State.mod_selected (f : Hart → Hart) (s : State) : (s.mod f).selected = s.selected := rfl
@[simp] theorem State.mod_caps (f : Hart → Hart) (s : State) : (s.mod f).caps = s.caps := rfl
@[simp] theorem State.mod_clusters (f : Hart → Hart) (s : State) : (s.mod f).clusters = s.clusters := rfl
@[simp] theorem State.mod_cores (f : Hart → Hart) (s : State) : (s.mod f).cores = s.cores := rfl
@[simp] theorem State.mod_net (f : Hart → Hart) (s : State) : (s.mod f).net = s.net := rfl
@[simp] theorem State.mod_queries (f : Hart → Hart) (s : State) : (s.mod f).queries = s.queries := rfl
@[simp] theorem State.mod_returns (f : Hart → Hart) (s : State) : (s.mod f).returns = s.returns := rfl
@[simp] theorem State.mod_codeCache (f : Hart → Hart) (s : State) : (s.mod f).codeCache = s.codeCache := rfl
@[simp] theorem State.mod_tokens (f : Hart → Hart) (s : State) : (s.mod f).tokens = s.tokens := rfl
@[simp] theorem State.mod_arbiters (f : Hart → Hart) (s : State) : (s.mod f).arbiters = s.arbiters := rfl
@[simp] theorem State.mod_reports (f : Hart → Hart) (s : State) : (s.mod f).reports = s.reports := rfl
@[simp] theorem State.mod_pkglog (f : Hart → Hart) (s : State) : (s.mod f).pkglog = s.pkglog := rfl
@[simp] theorem State.mod_saffron (f : Hart → Hart) (s : State) : (s.mod f).saffron = s.saffron := rfl
@[simp] theorem State.mod_phase (f : Hart → Hart) (s : State) : (s.mod f).phase = s.phase := rfl
@[simp] theorem State.mod_budget (f : Hart → Hart) (s : State) : (s.mod f).budget = s.budget := rfl
@[simp] theorem State.mod_links (f : Hart → Hart) (s : State) : (s.mod f).links = s.links := rfl
@[simp] theorem State.mod_spdm (f : Hart → Hart) (s : State) : (s.mod f).spdm = s.spdm := rfl
@[simp] theorem State.mod_resetting (f : Hart → Hart) (s : State) : (s.mod f).resetting = s.resetting := rfl
@[simp] theorem State.mod_resetAt (f : Hart → Hart) (s : State) : (s.mod f).resetAt = s.resetAt := rfl
@[simp] theorem State.mod_retained (f : Hart → Hart) (s : State) : (s.mod f).retained = s.retained := rfl
@[simp] theorem State.mod_exiting (f : Hart → Hart) (s : State) : (s.mod f).exiting = s.exiting := rfl
@[simp] theorem State.mod_used (f : Hart → Hart) (s : State) : (s.mod f).used = s.used := rfl
@[simp] theorem State.mod_pending (f : Hart → Hart) (s : State) : (s.mod f).pending = s.pending := rfl
@[simp] theorem State.mod_input (f : Hart → Hart) (s : State) : (s.mod f).input = s.input := rfl
@[simp] theorem State.mod_out (f : Hart → Hart) (s : State) : (s.mod f).out = s.out := rfl

/-! State.modRegs. -/

@[simp] theorem State.modRegs_parked (f : Regs → Regs) (s : State) : (s.modRegs f).parked = s.parked := rfl
@[simp] theorem State.modRegs_agenda (f : Regs → Regs) (s : State) : (s.modRegs f).agenda = s.agenda := rfl
@[simp] theorem State.modRegs_fresh (f : Regs → Regs) (s : State) : (s.modRegs f).fresh = s.fresh := rfl
@[simp] theorem State.modRegs_clock (f : Regs → Regs) (s : State) : (s.modRegs f).clock = s.clock := rfl
@[simp] theorem State.modRegs_nextId (f : Regs → Regs) (s : State) : (s.modRegs f).nextId = s.nextId := rfl
@[simp] theorem State.modRegs_mem (f : Regs → Regs) (s : State) : (s.modRegs f).mem = s.mem := rfl
@[simp] theorem State.modRegs_poison (f : Regs → Regs) (s : State) : (s.modRegs f).poison = s.poison := rfl
@[simp] theorem State.modRegs_padPoison (f : Regs → Regs) (s : State) : (s.modRegs f).padPoison = s.padPoison := rfl
@[simp] theorem State.modRegs_bufPoison (f : Regs → Regs) (s : State) : (s.modRegs f).bufPoison = s.bufPoison := rfl
@[simp] theorem State.modRegs_faults (f : Regs → Regs) (s : State) : (s.modRegs f).faults = s.faults := rfl
@[simp] theorem State.modRegs_sram (f : Regs → Regs) (s : State) : (s.modRegs f).sram = s.sram := rfl
@[simp] theorem State.modRegs_host (f : Regs → Regs) (s : State) : (s.modRegs f).host = s.host := rfl
@[simp] theorem State.modRegs_sumac (f : Regs → Regs) (s : State) : (s.modRegs f).sumac = s.sumac := rfl
@[simp] theorem State.modRegs_homemap (f : Regs → Regs) (s : State) : (s.modRegs f).homemap = s.homemap := rfl
@[simp] theorem State.modRegs_got (f : Regs → Regs) (s : State) : (s.modRegs f).got = s.got := rfl
@[simp] theorem State.modRegs_srls (f : Regs → Regs) (s : State) : (s.modRegs f).srls = s.srls := rfl
@[simp] theorem State.modRegs_seals (f : Regs → Regs) (s : State) : (s.modRegs f).seals = s.seals := rfl
@[simp] theorem State.modRegs_memkeys (f : Regs → Regs) (s : State) : (s.modRegs f).memkeys = s.memkeys := rfl
@[simp] theorem State.modRegs_mckeys (f : Regs → Regs) (s : State) : (s.modRegs f).mckeys = s.mckeys := rfl
@[simp] theorem State.modRegs_vpages (f : Regs → Regs) (s : State) : (s.modRegs f).vpages = s.vpages := rfl
@[simp] theorem State.modRegs_versions (f : Regs → Regs) (s : State) : (s.modRegs f).versions = s.versions := rfl
@[simp] theorem State.modRegs_dirty (f : Regs → Regs) (s : State) : (s.modRegs f).dirty = s.dirty := rfl
@[simp] theorem State.modRegs_heldx (f : Regs → Regs) (s : State) : (s.modRegs f).heldx = s.heldx := rfl
@[simp] theorem State.modRegs_tier1map (f : Regs → Regs) (s : State) : (s.modRegs f).tier1map = s.tier1map := rfl
@[simp] theorem State.modRegs_parts (f : Regs → Regs) (s : State) : (s.modRegs f).parts = s.parts := rfl
@[simp] theorem State.modRegs_releasing (f : Regs → Regs) (s : State) : (s.modRegs f).releasing = s.releasing := rfl
@[simp] theorem State.modRegs_suspended (f : Regs → Regs) (s : State) : (s.modRegs f).suspended = s.suspended := rfl
@[simp] theorem State.modRegs_queues (f : Regs → Regs) (s : State) : (s.modRegs f).queues = s.queues := rfl
@[simp] theorem State.modRegs_selected (f : Regs → Regs) (s : State) : (s.modRegs f).selected = s.selected := rfl
@[simp] theorem State.modRegs_caps (f : Regs → Regs) (s : State) : (s.modRegs f).caps = s.caps := rfl
@[simp] theorem State.modRegs_clusters (f : Regs → Regs) (s : State) : (s.modRegs f).clusters = s.clusters := rfl
@[simp] theorem State.modRegs_cores (f : Regs → Regs) (s : State) : (s.modRegs f).cores = s.cores := rfl
@[simp] theorem State.modRegs_net (f : Regs → Regs) (s : State) : (s.modRegs f).net = s.net := rfl
@[simp] theorem State.modRegs_queries (f : Regs → Regs) (s : State) : (s.modRegs f).queries = s.queries := rfl
@[simp] theorem State.modRegs_returns (f : Regs → Regs) (s : State) : (s.modRegs f).returns = s.returns := rfl
@[simp] theorem State.modRegs_codeCache (f : Regs → Regs) (s : State) : (s.modRegs f).codeCache = s.codeCache := rfl
@[simp] theorem State.modRegs_tokens (f : Regs → Regs) (s : State) : (s.modRegs f).tokens = s.tokens := rfl
@[simp] theorem State.modRegs_arbiters (f : Regs → Regs) (s : State) : (s.modRegs f).arbiters = s.arbiters := rfl
@[simp] theorem State.modRegs_reports (f : Regs → Regs) (s : State) : (s.modRegs f).reports = s.reports := rfl
@[simp] theorem State.modRegs_pkglog (f : Regs → Regs) (s : State) : (s.modRegs f).pkglog = s.pkglog := rfl
@[simp] theorem State.modRegs_saffron (f : Regs → Regs) (s : State) : (s.modRegs f).saffron = s.saffron := rfl
@[simp] theorem State.modRegs_phase (f : Regs → Regs) (s : State) : (s.modRegs f).phase = s.phase := rfl
@[simp] theorem State.modRegs_budget (f : Regs → Regs) (s : State) : (s.modRegs f).budget = s.budget := rfl
@[simp] theorem State.modRegs_links (f : Regs → Regs) (s : State) : (s.modRegs f).links = s.links := rfl
@[simp] theorem State.modRegs_spdm (f : Regs → Regs) (s : State) : (s.modRegs f).spdm = s.spdm := rfl
@[simp] theorem State.modRegs_resetting (f : Regs → Regs) (s : State) : (s.modRegs f).resetting = s.resetting := rfl
@[simp] theorem State.modRegs_resetAt (f : Regs → Regs) (s : State) : (s.modRegs f).resetAt = s.resetAt := rfl
@[simp] theorem State.modRegs_retained (f : Regs → Regs) (s : State) : (s.modRegs f).retained = s.retained := rfl
@[simp] theorem State.modRegs_exiting (f : Regs → Regs) (s : State) : (s.modRegs f).exiting = s.exiting := rfl
@[simp] theorem State.modRegs_used (f : Regs → Regs) (s : State) : (s.modRegs f).used = s.used := rfl
@[simp] theorem State.modRegs_pending (f : Regs → Regs) (s : State) : (s.modRegs f).pending = s.pending := rfl
@[simp] theorem State.modRegs_input (f : Regs → Regs) (s : State) : (s.modRegs f).input = s.input := rfl
@[simp] theorem State.modRegs_out (f : Regs → Regs) (s : State) : (s.modRegs f).out = s.out := rfl

/-! State.modCore. -/

@[simp] theorem State.modCore_hart (n : Nat) (f : Core → Core) (s : State) : (s.modCore n f).hart = s.hart := rfl
@[simp] theorem State.modCore_parked (n : Nat) (f : Core → Core) (s : State) : (s.modCore n f).parked = s.parked := rfl
@[simp] theorem State.modCore_agenda (n : Nat) (f : Core → Core) (s : State) : (s.modCore n f).agenda = s.agenda := rfl
@[simp] theorem State.modCore_fresh (n : Nat) (f : Core → Core) (s : State) : (s.modCore n f).fresh = s.fresh := rfl
@[simp] theorem State.modCore_clock (n : Nat) (f : Core → Core) (s : State) : (s.modCore n f).clock = s.clock := rfl
@[simp] theorem State.modCore_nextId (n : Nat) (f : Core → Core) (s : State) : (s.modCore n f).nextId = s.nextId := rfl
@[simp] theorem State.modCore_mem (n : Nat) (f : Core → Core) (s : State) : (s.modCore n f).mem = s.mem := rfl
@[simp] theorem State.modCore_poison (n : Nat) (f : Core → Core) (s : State) : (s.modCore n f).poison = s.poison := rfl
@[simp] theorem State.modCore_padPoison (n : Nat) (f : Core → Core) (s : State) : (s.modCore n f).padPoison = s.padPoison := rfl
@[simp] theorem State.modCore_bufPoison (n : Nat) (f : Core → Core) (s : State) : (s.modCore n f).bufPoison = s.bufPoison := rfl
@[simp] theorem State.modCore_faults (n : Nat) (f : Core → Core) (s : State) : (s.modCore n f).faults = s.faults := rfl
@[simp] theorem State.modCore_sram (n : Nat) (f : Core → Core) (s : State) : (s.modCore n f).sram = s.sram := rfl
@[simp] theorem State.modCore_host (n : Nat) (f : Core → Core) (s : State) : (s.modCore n f).host = s.host := rfl
@[simp] theorem State.modCore_sumac (n : Nat) (f : Core → Core) (s : State) : (s.modCore n f).sumac = s.sumac := rfl
@[simp] theorem State.modCore_homemap (n : Nat) (f : Core → Core) (s : State) : (s.modCore n f).homemap = s.homemap := rfl
@[simp] theorem State.modCore_got (n : Nat) (f : Core → Core) (s : State) : (s.modCore n f).got = s.got := rfl
@[simp] theorem State.modCore_srls (n : Nat) (f : Core → Core) (s : State) : (s.modCore n f).srls = s.srls := rfl
@[simp] theorem State.modCore_seals (n : Nat) (f : Core → Core) (s : State) : (s.modCore n f).seals = s.seals := rfl
@[simp] theorem State.modCore_memkeys (n : Nat) (f : Core → Core) (s : State) : (s.modCore n f).memkeys = s.memkeys := rfl
@[simp] theorem State.modCore_mckeys (n : Nat) (f : Core → Core) (s : State) : (s.modCore n f).mckeys = s.mckeys := rfl
@[simp] theorem State.modCore_vpages (n : Nat) (f : Core → Core) (s : State) : (s.modCore n f).vpages = s.vpages := rfl
@[simp] theorem State.modCore_versions (n : Nat) (f : Core → Core) (s : State) : (s.modCore n f).versions = s.versions := rfl
@[simp] theorem State.modCore_dirty (n : Nat) (f : Core → Core) (s : State) : (s.modCore n f).dirty = s.dirty := rfl
@[simp] theorem State.modCore_heldx (n : Nat) (f : Core → Core) (s : State) : (s.modCore n f).heldx = s.heldx := rfl
@[simp] theorem State.modCore_tier1map (n : Nat) (f : Core → Core) (s : State) : (s.modCore n f).tier1map = s.tier1map := rfl
@[simp] theorem State.modCore_parts (n : Nat) (f : Core → Core) (s : State) : (s.modCore n f).parts = s.parts := rfl
@[simp] theorem State.modCore_releasing (n : Nat) (f : Core → Core) (s : State) : (s.modCore n f).releasing = s.releasing := rfl
@[simp] theorem State.modCore_suspended (n : Nat) (f : Core → Core) (s : State) : (s.modCore n f).suspended = s.suspended := rfl
@[simp] theorem State.modCore_queues (n : Nat) (f : Core → Core) (s : State) : (s.modCore n f).queues = s.queues := rfl
@[simp] theorem State.modCore_selected (n : Nat) (f : Core → Core) (s : State) : (s.modCore n f).selected = s.selected := rfl
@[simp] theorem State.modCore_caps (n : Nat) (f : Core → Core) (s : State) : (s.modCore n f).caps = s.caps := rfl
@[simp] theorem State.modCore_clusters (n : Nat) (f : Core → Core) (s : State) : (s.modCore n f).clusters = s.clusters := rfl
@[simp] theorem State.modCore_net (n : Nat) (f : Core → Core) (s : State) : (s.modCore n f).net = s.net := rfl
@[simp] theorem State.modCore_queries (n : Nat) (f : Core → Core) (s : State) : (s.modCore n f).queries = s.queries := rfl
@[simp] theorem State.modCore_returns (n : Nat) (f : Core → Core) (s : State) : (s.modCore n f).returns = s.returns := rfl
@[simp] theorem State.modCore_codeCache (n : Nat) (f : Core → Core) (s : State) : (s.modCore n f).codeCache = s.codeCache := rfl
@[simp] theorem State.modCore_tokens (n : Nat) (f : Core → Core) (s : State) : (s.modCore n f).tokens = s.tokens := rfl
@[simp] theorem State.modCore_arbiters (n : Nat) (f : Core → Core) (s : State) : (s.modCore n f).arbiters = s.arbiters := rfl
@[simp] theorem State.modCore_reports (n : Nat) (f : Core → Core) (s : State) : (s.modCore n f).reports = s.reports := rfl
@[simp] theorem State.modCore_pkglog (n : Nat) (f : Core → Core) (s : State) : (s.modCore n f).pkglog = s.pkglog := rfl
@[simp] theorem State.modCore_saffron (n : Nat) (f : Core → Core) (s : State) : (s.modCore n f).saffron = s.saffron := rfl
@[simp] theorem State.modCore_phase (n : Nat) (f : Core → Core) (s : State) : (s.modCore n f).phase = s.phase := rfl
@[simp] theorem State.modCore_budget (n : Nat) (f : Core → Core) (s : State) : (s.modCore n f).budget = s.budget := rfl
@[simp] theorem State.modCore_links (n : Nat) (f : Core → Core) (s : State) : (s.modCore n f).links = s.links := rfl
@[simp] theorem State.modCore_spdm (n : Nat) (f : Core → Core) (s : State) : (s.modCore n f).spdm = s.spdm := rfl
@[simp] theorem State.modCore_resetting (n : Nat) (f : Core → Core) (s : State) : (s.modCore n f).resetting = s.resetting := rfl
@[simp] theorem State.modCore_resetAt (n : Nat) (f : Core → Core) (s : State) : (s.modCore n f).resetAt = s.resetAt := rfl
@[simp] theorem State.modCore_retained (n : Nat) (f : Core → Core) (s : State) : (s.modCore n f).retained = s.retained := rfl
@[simp] theorem State.modCore_exiting (n : Nat) (f : Core → Core) (s : State) : (s.modCore n f).exiting = s.exiting := rfl
@[simp] theorem State.modCore_used (n : Nat) (f : Core → Core) (s : State) : (s.modCore n f).used = s.used := rfl
@[simp] theorem State.modCore_pending (n : Nat) (f : Core → Core) (s : State) : (s.modCore n f).pending = s.pending := rfl
@[simp] theorem State.modCore_input (n : Nat) (f : Core → Core) (s : State) : (s.modCore n f).input = s.input := rfl
@[simp] theorem State.modCore_out (n : Nat) (f : Core → Core) (s : State) : (s.modCore n f).out = s.out := rfl

/-! State.modCluster. -/

@[simp] theorem State.modCluster_hart (n : Nat) (f : Cluster → Cluster) (s : State) : (s.modCluster n f).hart = s.hart := rfl
@[simp] theorem State.modCluster_parked (n : Nat) (f : Cluster → Cluster) (s : State) : (s.modCluster n f).parked = s.parked := rfl
@[simp] theorem State.modCluster_agenda (n : Nat) (f : Cluster → Cluster) (s : State) : (s.modCluster n f).agenda = s.agenda := rfl
@[simp] theorem State.modCluster_fresh (n : Nat) (f : Cluster → Cluster) (s : State) : (s.modCluster n f).fresh = s.fresh := rfl
@[simp] theorem State.modCluster_clock (n : Nat) (f : Cluster → Cluster) (s : State) : (s.modCluster n f).clock = s.clock := rfl
@[simp] theorem State.modCluster_nextId (n : Nat) (f : Cluster → Cluster) (s : State) : (s.modCluster n f).nextId = s.nextId := rfl
@[simp] theorem State.modCluster_mem (n : Nat) (f : Cluster → Cluster) (s : State) : (s.modCluster n f).mem = s.mem := rfl
@[simp] theorem State.modCluster_poison (n : Nat) (f : Cluster → Cluster) (s : State) : (s.modCluster n f).poison = s.poison := rfl
@[simp] theorem State.modCluster_padPoison (n : Nat) (f : Cluster → Cluster) (s : State) : (s.modCluster n f).padPoison = s.padPoison := rfl
@[simp] theorem State.modCluster_bufPoison (n : Nat) (f : Cluster → Cluster) (s : State) : (s.modCluster n f).bufPoison = s.bufPoison := rfl
@[simp] theorem State.modCluster_faults (n : Nat) (f : Cluster → Cluster) (s : State) : (s.modCluster n f).faults = s.faults := rfl
@[simp] theorem State.modCluster_sram (n : Nat) (f : Cluster → Cluster) (s : State) : (s.modCluster n f).sram = s.sram := rfl
@[simp] theorem State.modCluster_host (n : Nat) (f : Cluster → Cluster) (s : State) : (s.modCluster n f).host = s.host := rfl
@[simp] theorem State.modCluster_sumac (n : Nat) (f : Cluster → Cluster) (s : State) : (s.modCluster n f).sumac = s.sumac := rfl
@[simp] theorem State.modCluster_homemap (n : Nat) (f : Cluster → Cluster) (s : State) : (s.modCluster n f).homemap = s.homemap := rfl
@[simp] theorem State.modCluster_got (n : Nat) (f : Cluster → Cluster) (s : State) : (s.modCluster n f).got = s.got := rfl
@[simp] theorem State.modCluster_srls (n : Nat) (f : Cluster → Cluster) (s : State) : (s.modCluster n f).srls = s.srls := rfl
@[simp] theorem State.modCluster_seals (n : Nat) (f : Cluster → Cluster) (s : State) : (s.modCluster n f).seals = s.seals := rfl
@[simp] theorem State.modCluster_memkeys (n : Nat) (f : Cluster → Cluster) (s : State) : (s.modCluster n f).memkeys = s.memkeys := rfl
@[simp] theorem State.modCluster_mckeys (n : Nat) (f : Cluster → Cluster) (s : State) : (s.modCluster n f).mckeys = s.mckeys := rfl
@[simp] theorem State.modCluster_vpages (n : Nat) (f : Cluster → Cluster) (s : State) : (s.modCluster n f).vpages = s.vpages := rfl
@[simp] theorem State.modCluster_versions (n : Nat) (f : Cluster → Cluster) (s : State) : (s.modCluster n f).versions = s.versions := rfl
@[simp] theorem State.modCluster_dirty (n : Nat) (f : Cluster → Cluster) (s : State) : (s.modCluster n f).dirty = s.dirty := rfl
@[simp] theorem State.modCluster_heldx (n : Nat) (f : Cluster → Cluster) (s : State) : (s.modCluster n f).heldx = s.heldx := rfl
@[simp] theorem State.modCluster_tier1map (n : Nat) (f : Cluster → Cluster) (s : State) : (s.modCluster n f).tier1map = s.tier1map := rfl
@[simp] theorem State.modCluster_parts (n : Nat) (f : Cluster → Cluster) (s : State) : (s.modCluster n f).parts = s.parts := rfl
@[simp] theorem State.modCluster_releasing (n : Nat) (f : Cluster → Cluster) (s : State) : (s.modCluster n f).releasing = s.releasing := rfl
@[simp] theorem State.modCluster_suspended (n : Nat) (f : Cluster → Cluster) (s : State) : (s.modCluster n f).suspended = s.suspended := rfl
@[simp] theorem State.modCluster_queues (n : Nat) (f : Cluster → Cluster) (s : State) : (s.modCluster n f).queues = s.queues := rfl
@[simp] theorem State.modCluster_selected (n : Nat) (f : Cluster → Cluster) (s : State) : (s.modCluster n f).selected = s.selected := rfl
@[simp] theorem State.modCluster_caps (n : Nat) (f : Cluster → Cluster) (s : State) : (s.modCluster n f).caps = s.caps := rfl
@[simp] theorem State.modCluster_cores (n : Nat) (f : Cluster → Cluster) (s : State) : (s.modCluster n f).cores = s.cores := rfl
@[simp] theorem State.modCluster_net (n : Nat) (f : Cluster → Cluster) (s : State) : (s.modCluster n f).net = s.net := rfl
@[simp] theorem State.modCluster_queries (n : Nat) (f : Cluster → Cluster) (s : State) : (s.modCluster n f).queries = s.queries := rfl
@[simp] theorem State.modCluster_returns (n : Nat) (f : Cluster → Cluster) (s : State) : (s.modCluster n f).returns = s.returns := rfl
@[simp] theorem State.modCluster_codeCache (n : Nat) (f : Cluster → Cluster) (s : State) : (s.modCluster n f).codeCache = s.codeCache := rfl
@[simp] theorem State.modCluster_tokens (n : Nat) (f : Cluster → Cluster) (s : State) : (s.modCluster n f).tokens = s.tokens := rfl
@[simp] theorem State.modCluster_arbiters (n : Nat) (f : Cluster → Cluster) (s : State) : (s.modCluster n f).arbiters = s.arbiters := rfl
@[simp] theorem State.modCluster_reports (n : Nat) (f : Cluster → Cluster) (s : State) : (s.modCluster n f).reports = s.reports := rfl
@[simp] theorem State.modCluster_pkglog (n : Nat) (f : Cluster → Cluster) (s : State) : (s.modCluster n f).pkglog = s.pkglog := rfl
@[simp] theorem State.modCluster_saffron (n : Nat) (f : Cluster → Cluster) (s : State) : (s.modCluster n f).saffron = s.saffron := rfl
@[simp] theorem State.modCluster_phase (n : Nat) (f : Cluster → Cluster) (s : State) : (s.modCluster n f).phase = s.phase := rfl
@[simp] theorem State.modCluster_budget (n : Nat) (f : Cluster → Cluster) (s : State) : (s.modCluster n f).budget = s.budget := rfl
@[simp] theorem State.modCluster_links (n : Nat) (f : Cluster → Cluster) (s : State) : (s.modCluster n f).links = s.links := rfl
@[simp] theorem State.modCluster_spdm (n : Nat) (f : Cluster → Cluster) (s : State) : (s.modCluster n f).spdm = s.spdm := rfl
@[simp] theorem State.modCluster_resetting (n : Nat) (f : Cluster → Cluster) (s : State) : (s.modCluster n f).resetting = s.resetting := rfl
@[simp] theorem State.modCluster_resetAt (n : Nat) (f : Cluster → Cluster) (s : State) : (s.modCluster n f).resetAt = s.resetAt := rfl
@[simp] theorem State.modCluster_retained (n : Nat) (f : Cluster → Cluster) (s : State) : (s.modCluster n f).retained = s.retained := rfl
@[simp] theorem State.modCluster_exiting (n : Nat) (f : Cluster → Cluster) (s : State) : (s.modCluster n f).exiting = s.exiting := rfl
@[simp] theorem State.modCluster_used (n : Nat) (f : Cluster → Cluster) (s : State) : (s.modCluster n f).used = s.used := rfl
@[simp] theorem State.modCluster_pending (n : Nat) (f : Cluster → Cluster) (s : State) : (s.modCluster n f).pending = s.pending := rfl
@[simp] theorem State.modCluster_input (n : Nat) (f : Cluster → Cluster) (s : State) : (s.modCluster n f).input = s.input := rfl
@[simp] theorem State.modCluster_out (n : Nat) (f : Cluster → Cluster) (s : State) : (s.modCluster n f).out = s.out := rfl

/-! State.modPart. -/

@[simp] theorem State.modPart_hart (n : Nat) (f : Part → Part) (s : State) : (s.modPart n f).hart = s.hart := rfl
@[simp] theorem State.modPart_parked (n : Nat) (f : Part → Part) (s : State) : (s.modPart n f).parked = s.parked := rfl
@[simp] theorem State.modPart_agenda (n : Nat) (f : Part → Part) (s : State) : (s.modPart n f).agenda = s.agenda := rfl
@[simp] theorem State.modPart_fresh (n : Nat) (f : Part → Part) (s : State) : (s.modPart n f).fresh = s.fresh := rfl
@[simp] theorem State.modPart_clock (n : Nat) (f : Part → Part) (s : State) : (s.modPart n f).clock = s.clock := rfl
@[simp] theorem State.modPart_nextId (n : Nat) (f : Part → Part) (s : State) : (s.modPart n f).nextId = s.nextId := rfl
@[simp] theorem State.modPart_mem (n : Nat) (f : Part → Part) (s : State) : (s.modPart n f).mem = s.mem := rfl
@[simp] theorem State.modPart_poison (n : Nat) (f : Part → Part) (s : State) : (s.modPart n f).poison = s.poison := rfl
@[simp] theorem State.modPart_padPoison (n : Nat) (f : Part → Part) (s : State) : (s.modPart n f).padPoison = s.padPoison := rfl
@[simp] theorem State.modPart_bufPoison (n : Nat) (f : Part → Part) (s : State) : (s.modPart n f).bufPoison = s.bufPoison := rfl
@[simp] theorem State.modPart_faults (n : Nat) (f : Part → Part) (s : State) : (s.modPart n f).faults = s.faults := rfl
@[simp] theorem State.modPart_sram (n : Nat) (f : Part → Part) (s : State) : (s.modPart n f).sram = s.sram := rfl
@[simp] theorem State.modPart_host (n : Nat) (f : Part → Part) (s : State) : (s.modPart n f).host = s.host := rfl
@[simp] theorem State.modPart_sumac (n : Nat) (f : Part → Part) (s : State) : (s.modPart n f).sumac = s.sumac := rfl
@[simp] theorem State.modPart_homemap (n : Nat) (f : Part → Part) (s : State) : (s.modPart n f).homemap = s.homemap := rfl
@[simp] theorem State.modPart_got (n : Nat) (f : Part → Part) (s : State) : (s.modPart n f).got = s.got := rfl
@[simp] theorem State.modPart_srls (n : Nat) (f : Part → Part) (s : State) : (s.modPart n f).srls = s.srls := rfl
@[simp] theorem State.modPart_seals (n : Nat) (f : Part → Part) (s : State) : (s.modPart n f).seals = s.seals := rfl
@[simp] theorem State.modPart_memkeys (n : Nat) (f : Part → Part) (s : State) : (s.modPart n f).memkeys = s.memkeys := rfl
@[simp] theorem State.modPart_mckeys (n : Nat) (f : Part → Part) (s : State) : (s.modPart n f).mckeys = s.mckeys := rfl
@[simp] theorem State.modPart_vpages (n : Nat) (f : Part → Part) (s : State) : (s.modPart n f).vpages = s.vpages := rfl
@[simp] theorem State.modPart_versions (n : Nat) (f : Part → Part) (s : State) : (s.modPart n f).versions = s.versions := rfl
@[simp] theorem State.modPart_dirty (n : Nat) (f : Part → Part) (s : State) : (s.modPart n f).dirty = s.dirty := rfl
@[simp] theorem State.modPart_heldx (n : Nat) (f : Part → Part) (s : State) : (s.modPart n f).heldx = s.heldx := rfl
@[simp] theorem State.modPart_tier1map (n : Nat) (f : Part → Part) (s : State) : (s.modPart n f).tier1map = s.tier1map := rfl
@[simp] theorem State.modPart_releasing (n : Nat) (f : Part → Part) (s : State) : (s.modPart n f).releasing = s.releasing := rfl
@[simp] theorem State.modPart_suspended (n : Nat) (f : Part → Part) (s : State) : (s.modPart n f).suspended = s.suspended := rfl
@[simp] theorem State.modPart_queues (n : Nat) (f : Part → Part) (s : State) : (s.modPart n f).queues = s.queues := rfl
@[simp] theorem State.modPart_selected (n : Nat) (f : Part → Part) (s : State) : (s.modPart n f).selected = s.selected := rfl
@[simp] theorem State.modPart_caps (n : Nat) (f : Part → Part) (s : State) : (s.modPart n f).caps = s.caps := rfl
@[simp] theorem State.modPart_clusters (n : Nat) (f : Part → Part) (s : State) : (s.modPart n f).clusters = s.clusters := rfl
@[simp] theorem State.modPart_cores (n : Nat) (f : Part → Part) (s : State) : (s.modPart n f).cores = s.cores := rfl
@[simp] theorem State.modPart_net (n : Nat) (f : Part → Part) (s : State) : (s.modPart n f).net = s.net := rfl
@[simp] theorem State.modPart_queries (n : Nat) (f : Part → Part) (s : State) : (s.modPart n f).queries = s.queries := rfl
@[simp] theorem State.modPart_returns (n : Nat) (f : Part → Part) (s : State) : (s.modPart n f).returns = s.returns := rfl
@[simp] theorem State.modPart_codeCache (n : Nat) (f : Part → Part) (s : State) : (s.modPart n f).codeCache = s.codeCache := rfl
@[simp] theorem State.modPart_tokens (n : Nat) (f : Part → Part) (s : State) : (s.modPart n f).tokens = s.tokens := rfl
@[simp] theorem State.modPart_arbiters (n : Nat) (f : Part → Part) (s : State) : (s.modPart n f).arbiters = s.arbiters := rfl
@[simp] theorem State.modPart_reports (n : Nat) (f : Part → Part) (s : State) : (s.modPart n f).reports = s.reports := rfl
@[simp] theorem State.modPart_pkglog (n : Nat) (f : Part → Part) (s : State) : (s.modPart n f).pkglog = s.pkglog := rfl
@[simp] theorem State.modPart_saffron (n : Nat) (f : Part → Part) (s : State) : (s.modPart n f).saffron = s.saffron := rfl
@[simp] theorem State.modPart_phase (n : Nat) (f : Part → Part) (s : State) : (s.modPart n f).phase = s.phase := rfl
@[simp] theorem State.modPart_budget (n : Nat) (f : Part → Part) (s : State) : (s.modPart n f).budget = s.budget := rfl
@[simp] theorem State.modPart_links (n : Nat) (f : Part → Part) (s : State) : (s.modPart n f).links = s.links := rfl
@[simp] theorem State.modPart_spdm (n : Nat) (f : Part → Part) (s : State) : (s.modPart n f).spdm = s.spdm := rfl
@[simp] theorem State.modPart_resetting (n : Nat) (f : Part → Part) (s : State) : (s.modPart n f).resetting = s.resetting := rfl
@[simp] theorem State.modPart_resetAt (n : Nat) (f : Part → Part) (s : State) : (s.modPart n f).resetAt = s.resetAt := rfl
@[simp] theorem State.modPart_retained (n : Nat) (f : Part → Part) (s : State) : (s.modPart n f).retained = s.retained := rfl
@[simp] theorem State.modPart_exiting (n : Nat) (f : Part → Part) (s : State) : (s.modPart n f).exiting = s.exiting := rfl
@[simp] theorem State.modPart_used (n : Nat) (f : Part → Part) (s : State) : (s.modPart n f).used = s.used := rfl
@[simp] theorem State.modPart_pending (n : Nat) (f : Part → Part) (s : State) : (s.modPart n f).pending = s.pending := rfl
@[simp] theorem State.modPart_input (n : Nat) (f : Part → Part) (s : State) : (s.modPart n f).input = s.input := rfl
@[simp] theorem State.modPart_out (n : Nat) (f : Part → Part) (s : State) : (s.modPart n f).out = s.out := rfl

/-! State.modQueue. -/

@[simp] theorem State.modQueue_hart (n : Nat) (f : Queue → Queue) (s : State) : (s.modQueue n f).hart = s.hart := rfl
@[simp] theorem State.modQueue_parked (n : Nat) (f : Queue → Queue) (s : State) : (s.modQueue n f).parked = s.parked := rfl
@[simp] theorem State.modQueue_agenda (n : Nat) (f : Queue → Queue) (s : State) : (s.modQueue n f).agenda = s.agenda := rfl
@[simp] theorem State.modQueue_fresh (n : Nat) (f : Queue → Queue) (s : State) : (s.modQueue n f).fresh = s.fresh := rfl
@[simp] theorem State.modQueue_clock (n : Nat) (f : Queue → Queue) (s : State) : (s.modQueue n f).clock = s.clock := rfl
@[simp] theorem State.modQueue_nextId (n : Nat) (f : Queue → Queue) (s : State) : (s.modQueue n f).nextId = s.nextId := rfl
@[simp] theorem State.modQueue_mem (n : Nat) (f : Queue → Queue) (s : State) : (s.modQueue n f).mem = s.mem := rfl
@[simp] theorem State.modQueue_poison (n : Nat) (f : Queue → Queue) (s : State) : (s.modQueue n f).poison = s.poison := rfl
@[simp] theorem State.modQueue_padPoison (n : Nat) (f : Queue → Queue) (s : State) : (s.modQueue n f).padPoison = s.padPoison := rfl
@[simp] theorem State.modQueue_bufPoison (n : Nat) (f : Queue → Queue) (s : State) : (s.modQueue n f).bufPoison = s.bufPoison := rfl
@[simp] theorem State.modQueue_faults (n : Nat) (f : Queue → Queue) (s : State) : (s.modQueue n f).faults = s.faults := rfl
@[simp] theorem State.modQueue_sram (n : Nat) (f : Queue → Queue) (s : State) : (s.modQueue n f).sram = s.sram := rfl
@[simp] theorem State.modQueue_host (n : Nat) (f : Queue → Queue) (s : State) : (s.modQueue n f).host = s.host := rfl
@[simp] theorem State.modQueue_sumac (n : Nat) (f : Queue → Queue) (s : State) : (s.modQueue n f).sumac = s.sumac := rfl
@[simp] theorem State.modQueue_homemap (n : Nat) (f : Queue → Queue) (s : State) : (s.modQueue n f).homemap = s.homemap := rfl
@[simp] theorem State.modQueue_got (n : Nat) (f : Queue → Queue) (s : State) : (s.modQueue n f).got = s.got := rfl
@[simp] theorem State.modQueue_srls (n : Nat) (f : Queue → Queue) (s : State) : (s.modQueue n f).srls = s.srls := rfl
@[simp] theorem State.modQueue_seals (n : Nat) (f : Queue → Queue) (s : State) : (s.modQueue n f).seals = s.seals := rfl
@[simp] theorem State.modQueue_memkeys (n : Nat) (f : Queue → Queue) (s : State) : (s.modQueue n f).memkeys = s.memkeys := rfl
@[simp] theorem State.modQueue_mckeys (n : Nat) (f : Queue → Queue) (s : State) : (s.modQueue n f).mckeys = s.mckeys := rfl
@[simp] theorem State.modQueue_vpages (n : Nat) (f : Queue → Queue) (s : State) : (s.modQueue n f).vpages = s.vpages := rfl
@[simp] theorem State.modQueue_versions (n : Nat) (f : Queue → Queue) (s : State) : (s.modQueue n f).versions = s.versions := rfl
@[simp] theorem State.modQueue_dirty (n : Nat) (f : Queue → Queue) (s : State) : (s.modQueue n f).dirty = s.dirty := rfl
@[simp] theorem State.modQueue_heldx (n : Nat) (f : Queue → Queue) (s : State) : (s.modQueue n f).heldx = s.heldx := rfl
@[simp] theorem State.modQueue_tier1map (n : Nat) (f : Queue → Queue) (s : State) : (s.modQueue n f).tier1map = s.tier1map := rfl
@[simp] theorem State.modQueue_parts (n : Nat) (f : Queue → Queue) (s : State) : (s.modQueue n f).parts = s.parts := rfl
@[simp] theorem State.modQueue_releasing (n : Nat) (f : Queue → Queue) (s : State) : (s.modQueue n f).releasing = s.releasing := rfl
@[simp] theorem State.modQueue_suspended (n : Nat) (f : Queue → Queue) (s : State) : (s.modQueue n f).suspended = s.suspended := rfl
@[simp] theorem State.modQueue_selected (n : Nat) (f : Queue → Queue) (s : State) : (s.modQueue n f).selected = s.selected := rfl
@[simp] theorem State.modQueue_caps (n : Nat) (f : Queue → Queue) (s : State) : (s.modQueue n f).caps = s.caps := rfl
@[simp] theorem State.modQueue_clusters (n : Nat) (f : Queue → Queue) (s : State) : (s.modQueue n f).clusters = s.clusters := rfl
@[simp] theorem State.modQueue_cores (n : Nat) (f : Queue → Queue) (s : State) : (s.modQueue n f).cores = s.cores := rfl
@[simp] theorem State.modQueue_net (n : Nat) (f : Queue → Queue) (s : State) : (s.modQueue n f).net = s.net := rfl
@[simp] theorem State.modQueue_queries (n : Nat) (f : Queue → Queue) (s : State) : (s.modQueue n f).queries = s.queries := rfl
@[simp] theorem State.modQueue_returns (n : Nat) (f : Queue → Queue) (s : State) : (s.modQueue n f).returns = s.returns := rfl
@[simp] theorem State.modQueue_codeCache (n : Nat) (f : Queue → Queue) (s : State) : (s.modQueue n f).codeCache = s.codeCache := rfl
@[simp] theorem State.modQueue_tokens (n : Nat) (f : Queue → Queue) (s : State) : (s.modQueue n f).tokens = s.tokens := rfl
@[simp] theorem State.modQueue_arbiters (n : Nat) (f : Queue → Queue) (s : State) : (s.modQueue n f).arbiters = s.arbiters := rfl
@[simp] theorem State.modQueue_reports (n : Nat) (f : Queue → Queue) (s : State) : (s.modQueue n f).reports = s.reports := rfl
@[simp] theorem State.modQueue_pkglog (n : Nat) (f : Queue → Queue) (s : State) : (s.modQueue n f).pkglog = s.pkglog := rfl
@[simp] theorem State.modQueue_saffron (n : Nat) (f : Queue → Queue) (s : State) : (s.modQueue n f).saffron = s.saffron := rfl
@[simp] theorem State.modQueue_phase (n : Nat) (f : Queue → Queue) (s : State) : (s.modQueue n f).phase = s.phase := rfl
@[simp] theorem State.modQueue_budget (n : Nat) (f : Queue → Queue) (s : State) : (s.modQueue n f).budget = s.budget := rfl
@[simp] theorem State.modQueue_links (n : Nat) (f : Queue → Queue) (s : State) : (s.modQueue n f).links = s.links := rfl
@[simp] theorem State.modQueue_spdm (n : Nat) (f : Queue → Queue) (s : State) : (s.modQueue n f).spdm = s.spdm := rfl
@[simp] theorem State.modQueue_resetting (n : Nat) (f : Queue → Queue) (s : State) : (s.modQueue n f).resetting = s.resetting := rfl
@[simp] theorem State.modQueue_resetAt (n : Nat) (f : Queue → Queue) (s : State) : (s.modQueue n f).resetAt = s.resetAt := rfl
@[simp] theorem State.modQueue_retained (n : Nat) (f : Queue → Queue) (s : State) : (s.modQueue n f).retained = s.retained := rfl
@[simp] theorem State.modQueue_exiting (n : Nat) (f : Queue → Queue) (s : State) : (s.modQueue n f).exiting = s.exiting := rfl
@[simp] theorem State.modQueue_used (n : Nat) (f : Queue → Queue) (s : State) : (s.modQueue n f).used = s.used := rfl
@[simp] theorem State.modQueue_pending (n : Nat) (f : Queue → Queue) (s : State) : (s.modQueue n f).pending = s.pending := rfl
@[simp] theorem State.modQueue_input (n : Nat) (f : Queue → Queue) (s : State) : (s.modQueue n f).input = s.input := rfl
@[simp] theorem State.modQueue_out (n : Nat) (f : Queue → Queue) (s : State) : (s.modQueue n f).out = s.out := rfl

/-! State.modCap. -/

@[simp] theorem State.modCap_hart (n : Nat) (f : Capsule → Capsule) (s : State) : (s.modCap n f).hart = s.hart := rfl
@[simp] theorem State.modCap_parked (n : Nat) (f : Capsule → Capsule) (s : State) : (s.modCap n f).parked = s.parked := rfl
@[simp] theorem State.modCap_agenda (n : Nat) (f : Capsule → Capsule) (s : State) : (s.modCap n f).agenda = s.agenda := rfl
@[simp] theorem State.modCap_fresh (n : Nat) (f : Capsule → Capsule) (s : State) : (s.modCap n f).fresh = s.fresh := rfl
@[simp] theorem State.modCap_clock (n : Nat) (f : Capsule → Capsule) (s : State) : (s.modCap n f).clock = s.clock := rfl
@[simp] theorem State.modCap_nextId (n : Nat) (f : Capsule → Capsule) (s : State) : (s.modCap n f).nextId = s.nextId := rfl
@[simp] theorem State.modCap_mem (n : Nat) (f : Capsule → Capsule) (s : State) : (s.modCap n f).mem = s.mem := rfl
@[simp] theorem State.modCap_poison (n : Nat) (f : Capsule → Capsule) (s : State) : (s.modCap n f).poison = s.poison := rfl
@[simp] theorem State.modCap_padPoison (n : Nat) (f : Capsule → Capsule) (s : State) : (s.modCap n f).padPoison = s.padPoison := rfl
@[simp] theorem State.modCap_bufPoison (n : Nat) (f : Capsule → Capsule) (s : State) : (s.modCap n f).bufPoison = s.bufPoison := rfl
@[simp] theorem State.modCap_faults (n : Nat) (f : Capsule → Capsule) (s : State) : (s.modCap n f).faults = s.faults := rfl
@[simp] theorem State.modCap_sram (n : Nat) (f : Capsule → Capsule) (s : State) : (s.modCap n f).sram = s.sram := rfl
@[simp] theorem State.modCap_host (n : Nat) (f : Capsule → Capsule) (s : State) : (s.modCap n f).host = s.host := rfl
@[simp] theorem State.modCap_sumac (n : Nat) (f : Capsule → Capsule) (s : State) : (s.modCap n f).sumac = s.sumac := rfl
@[simp] theorem State.modCap_homemap (n : Nat) (f : Capsule → Capsule) (s : State) : (s.modCap n f).homemap = s.homemap := rfl
@[simp] theorem State.modCap_got (n : Nat) (f : Capsule → Capsule) (s : State) : (s.modCap n f).got = s.got := rfl
@[simp] theorem State.modCap_srls (n : Nat) (f : Capsule → Capsule) (s : State) : (s.modCap n f).srls = s.srls := rfl
@[simp] theorem State.modCap_seals (n : Nat) (f : Capsule → Capsule) (s : State) : (s.modCap n f).seals = s.seals := rfl
@[simp] theorem State.modCap_memkeys (n : Nat) (f : Capsule → Capsule) (s : State) : (s.modCap n f).memkeys = s.memkeys := rfl
@[simp] theorem State.modCap_mckeys (n : Nat) (f : Capsule → Capsule) (s : State) : (s.modCap n f).mckeys = s.mckeys := rfl
@[simp] theorem State.modCap_vpages (n : Nat) (f : Capsule → Capsule) (s : State) : (s.modCap n f).vpages = s.vpages := rfl
@[simp] theorem State.modCap_versions (n : Nat) (f : Capsule → Capsule) (s : State) : (s.modCap n f).versions = s.versions := rfl
@[simp] theorem State.modCap_dirty (n : Nat) (f : Capsule → Capsule) (s : State) : (s.modCap n f).dirty = s.dirty := rfl
@[simp] theorem State.modCap_heldx (n : Nat) (f : Capsule → Capsule) (s : State) : (s.modCap n f).heldx = s.heldx := rfl
@[simp] theorem State.modCap_tier1map (n : Nat) (f : Capsule → Capsule) (s : State) : (s.modCap n f).tier1map = s.tier1map := rfl
@[simp] theorem State.modCap_parts (n : Nat) (f : Capsule → Capsule) (s : State) : (s.modCap n f).parts = s.parts := rfl
@[simp] theorem State.modCap_releasing (n : Nat) (f : Capsule → Capsule) (s : State) : (s.modCap n f).releasing = s.releasing := rfl
@[simp] theorem State.modCap_suspended (n : Nat) (f : Capsule → Capsule) (s : State) : (s.modCap n f).suspended = s.suspended := rfl
@[simp] theorem State.modCap_queues (n : Nat) (f : Capsule → Capsule) (s : State) : (s.modCap n f).queues = s.queues := rfl
@[simp] theorem State.modCap_selected (n : Nat) (f : Capsule → Capsule) (s : State) : (s.modCap n f).selected = s.selected := rfl
@[simp] theorem State.modCap_clusters (n : Nat) (f : Capsule → Capsule) (s : State) : (s.modCap n f).clusters = s.clusters := rfl
@[simp] theorem State.modCap_cores (n : Nat) (f : Capsule → Capsule) (s : State) : (s.modCap n f).cores = s.cores := rfl
@[simp] theorem State.modCap_net (n : Nat) (f : Capsule → Capsule) (s : State) : (s.modCap n f).net = s.net := rfl
@[simp] theorem State.modCap_queries (n : Nat) (f : Capsule → Capsule) (s : State) : (s.modCap n f).queries = s.queries := rfl
@[simp] theorem State.modCap_returns (n : Nat) (f : Capsule → Capsule) (s : State) : (s.modCap n f).returns = s.returns := rfl
@[simp] theorem State.modCap_codeCache (n : Nat) (f : Capsule → Capsule) (s : State) : (s.modCap n f).codeCache = s.codeCache := rfl
@[simp] theorem State.modCap_tokens (n : Nat) (f : Capsule → Capsule) (s : State) : (s.modCap n f).tokens = s.tokens := rfl
@[simp] theorem State.modCap_arbiters (n : Nat) (f : Capsule → Capsule) (s : State) : (s.modCap n f).arbiters = s.arbiters := rfl
@[simp] theorem State.modCap_reports (n : Nat) (f : Capsule → Capsule) (s : State) : (s.modCap n f).reports = s.reports := rfl
@[simp] theorem State.modCap_pkglog (n : Nat) (f : Capsule → Capsule) (s : State) : (s.modCap n f).pkglog = s.pkglog := rfl
@[simp] theorem State.modCap_saffron (n : Nat) (f : Capsule → Capsule) (s : State) : (s.modCap n f).saffron = s.saffron := rfl
@[simp] theorem State.modCap_phase (n : Nat) (f : Capsule → Capsule) (s : State) : (s.modCap n f).phase = s.phase := rfl
@[simp] theorem State.modCap_budget (n : Nat) (f : Capsule → Capsule) (s : State) : (s.modCap n f).budget = s.budget := rfl
@[simp] theorem State.modCap_links (n : Nat) (f : Capsule → Capsule) (s : State) : (s.modCap n f).links = s.links := rfl
@[simp] theorem State.modCap_spdm (n : Nat) (f : Capsule → Capsule) (s : State) : (s.modCap n f).spdm = s.spdm := rfl
@[simp] theorem State.modCap_resetting (n : Nat) (f : Capsule → Capsule) (s : State) : (s.modCap n f).resetting = s.resetting := rfl
@[simp] theorem State.modCap_resetAt (n : Nat) (f : Capsule → Capsule) (s : State) : (s.modCap n f).resetAt = s.resetAt := rfl
@[simp] theorem State.modCap_retained (n : Nat) (f : Capsule → Capsule) (s : State) : (s.modCap n f).retained = s.retained := rfl
@[simp] theorem State.modCap_exiting (n : Nat) (f : Capsule → Capsule) (s : State) : (s.modCap n f).exiting = s.exiting := rfl
@[simp] theorem State.modCap_used (n : Nat) (f : Capsule → Capsule) (s : State) : (s.modCap n f).used = s.used := rfl
@[simp] theorem State.modCap_pending (n : Nat) (f : Capsule → Capsule) (s : State) : (s.modCap n f).pending = s.pending := rfl
@[simp] theorem State.modCap_input (n : Nat) (f : Capsule → Capsule) (s : State) : (s.modCap n f).input = s.input := rfl
@[simp] theorem State.modCap_out (n : Nat) (f : Capsule → Capsule) (s : State) : (s.modCap n f).out = s.out := rfl

/-! State.modHart. -/

@[simp] theorem State.modHart_agenda (n : Nat) (f : Hart → Hart) (s : State) : (s.modHart n f).agenda = s.agenda := rfl
@[simp] theorem State.modHart_fresh (n : Nat) (f : Hart → Hart) (s : State) : (s.modHart n f).fresh = s.fresh := rfl
@[simp] theorem State.modHart_clock (n : Nat) (f : Hart → Hart) (s : State) : (s.modHart n f).clock = s.clock := rfl
@[simp] theorem State.modHart_nextId (n : Nat) (f : Hart → Hart) (s : State) : (s.modHart n f).nextId = s.nextId := rfl
@[simp] theorem State.modHart_mem (n : Nat) (f : Hart → Hart) (s : State) : (s.modHart n f).mem = s.mem := rfl
@[simp] theorem State.modHart_poison (n : Nat) (f : Hart → Hart) (s : State) : (s.modHart n f).poison = s.poison := rfl
@[simp] theorem State.modHart_padPoison (n : Nat) (f : Hart → Hart) (s : State) : (s.modHart n f).padPoison = s.padPoison := rfl
@[simp] theorem State.modHart_bufPoison (n : Nat) (f : Hart → Hart) (s : State) : (s.modHart n f).bufPoison = s.bufPoison := rfl
@[simp] theorem State.modHart_faults (n : Nat) (f : Hart → Hart) (s : State) : (s.modHart n f).faults = s.faults := rfl
@[simp] theorem State.modHart_sram (n : Nat) (f : Hart → Hart) (s : State) : (s.modHart n f).sram = s.sram := rfl
@[simp] theorem State.modHart_host (n : Nat) (f : Hart → Hart) (s : State) : (s.modHart n f).host = s.host := rfl
@[simp] theorem State.modHart_sumac (n : Nat) (f : Hart → Hart) (s : State) : (s.modHart n f).sumac = s.sumac := rfl
@[simp] theorem State.modHart_homemap (n : Nat) (f : Hart → Hart) (s : State) : (s.modHart n f).homemap = s.homemap := rfl
@[simp] theorem State.modHart_got (n : Nat) (f : Hart → Hart) (s : State) : (s.modHart n f).got = s.got := rfl
@[simp] theorem State.modHart_srls (n : Nat) (f : Hart → Hart) (s : State) : (s.modHart n f).srls = s.srls := rfl
@[simp] theorem State.modHart_seals (n : Nat) (f : Hart → Hart) (s : State) : (s.modHart n f).seals = s.seals := rfl
@[simp] theorem State.modHart_memkeys (n : Nat) (f : Hart → Hart) (s : State) : (s.modHart n f).memkeys = s.memkeys := rfl
@[simp] theorem State.modHart_mckeys (n : Nat) (f : Hart → Hart) (s : State) : (s.modHart n f).mckeys = s.mckeys := rfl
@[simp] theorem State.modHart_vpages (n : Nat) (f : Hart → Hart) (s : State) : (s.modHart n f).vpages = s.vpages := rfl
@[simp] theorem State.modHart_versions (n : Nat) (f : Hart → Hart) (s : State) : (s.modHart n f).versions = s.versions := rfl
@[simp] theorem State.modHart_dirty (n : Nat) (f : Hart → Hart) (s : State) : (s.modHart n f).dirty = s.dirty := rfl
@[simp] theorem State.modHart_heldx (n : Nat) (f : Hart → Hart) (s : State) : (s.modHart n f).heldx = s.heldx := rfl
@[simp] theorem State.modHart_tier1map (n : Nat) (f : Hart → Hart) (s : State) : (s.modHart n f).tier1map = s.tier1map := rfl
@[simp] theorem State.modHart_parts (n : Nat) (f : Hart → Hart) (s : State) : (s.modHart n f).parts = s.parts := rfl
@[simp] theorem State.modHart_releasing (n : Nat) (f : Hart → Hart) (s : State) : (s.modHart n f).releasing = s.releasing := rfl
@[simp] theorem State.modHart_suspended (n : Nat) (f : Hart → Hart) (s : State) : (s.modHart n f).suspended = s.suspended := rfl
@[simp] theorem State.modHart_queues (n : Nat) (f : Hart → Hart) (s : State) : (s.modHart n f).queues = s.queues := rfl
@[simp] theorem State.modHart_selected (n : Nat) (f : Hart → Hart) (s : State) : (s.modHart n f).selected = s.selected := rfl
@[simp] theorem State.modHart_caps (n : Nat) (f : Hart → Hart) (s : State) : (s.modHart n f).caps = s.caps := rfl
@[simp] theorem State.modHart_clusters (n : Nat) (f : Hart → Hart) (s : State) : (s.modHart n f).clusters = s.clusters := rfl
@[simp] theorem State.modHart_cores (n : Nat) (f : Hart → Hart) (s : State) : (s.modHart n f).cores = s.cores := rfl
@[simp] theorem State.modHart_net (n : Nat) (f : Hart → Hart) (s : State) : (s.modHart n f).net = s.net := rfl
@[simp] theorem State.modHart_queries (n : Nat) (f : Hart → Hart) (s : State) : (s.modHart n f).queries = s.queries := rfl
@[simp] theorem State.modHart_returns (n : Nat) (f : Hart → Hart) (s : State) : (s.modHart n f).returns = s.returns := rfl
@[simp] theorem State.modHart_codeCache (n : Nat) (f : Hart → Hart) (s : State) : (s.modHart n f).codeCache = s.codeCache := rfl
@[simp] theorem State.modHart_tokens (n : Nat) (f : Hart → Hart) (s : State) : (s.modHart n f).tokens = s.tokens := rfl
@[simp] theorem State.modHart_arbiters (n : Nat) (f : Hart → Hart) (s : State) : (s.modHart n f).arbiters = s.arbiters := rfl
@[simp] theorem State.modHart_reports (n : Nat) (f : Hart → Hart) (s : State) : (s.modHart n f).reports = s.reports := rfl
@[simp] theorem State.modHart_pkglog (n : Nat) (f : Hart → Hart) (s : State) : (s.modHart n f).pkglog = s.pkglog := rfl
@[simp] theorem State.modHart_saffron (n : Nat) (f : Hart → Hart) (s : State) : (s.modHart n f).saffron = s.saffron := rfl
@[simp] theorem State.modHart_phase (n : Nat) (f : Hart → Hart) (s : State) : (s.modHart n f).phase = s.phase := rfl
@[simp] theorem State.modHart_budget (n : Nat) (f : Hart → Hart) (s : State) : (s.modHart n f).budget = s.budget := rfl
@[simp] theorem State.modHart_links (n : Nat) (f : Hart → Hart) (s : State) : (s.modHart n f).links = s.links := rfl
@[simp] theorem State.modHart_spdm (n : Nat) (f : Hart → Hart) (s : State) : (s.modHart n f).spdm = s.spdm := rfl
@[simp] theorem State.modHart_resetting (n : Nat) (f : Hart → Hart) (s : State) : (s.modHart n f).resetting = s.resetting := rfl
@[simp] theorem State.modHart_resetAt (n : Nat) (f : Hart → Hart) (s : State) : (s.modHart n f).resetAt = s.resetAt := rfl
@[simp] theorem State.modHart_retained (n : Nat) (f : Hart → Hart) (s : State) : (s.modHart n f).retained = s.retained := rfl
@[simp] theorem State.modHart_exiting (n : Nat) (f : Hart → Hart) (s : State) : (s.modHart n f).exiting = s.exiting := rfl
@[simp] theorem State.modHart_used (n : Nat) (f : Hart → Hart) (s : State) : (s.modHart n f).used = s.used := rfl
@[simp] theorem State.modHart_pending (n : Nat) (f : Hart → Hart) (s : State) : (s.modHart n f).pending = s.pending := rfl
@[simp] theorem State.modHart_input (n : Nat) (f : Hart → Hart) (s : State) : (s.modHart n f).input = s.input := rfl
@[simp] theorem State.modHart_out (n : Nat) (f : Hart → Hart) (s : State) : (s.modHart n f).out = s.out := rfl

/-! writeS. -/

@[simp] theorem writeS_parked (r : SReg) (v : Word) (s : State) : (writeS r v s).parked = s.parked := by rw [writeS, State.mod_parked]
@[simp] theorem writeS_agenda (r : SReg) (v : Word) (s : State) : (writeS r v s).agenda = s.agenda := by rw [writeS, State.mod_agenda]
@[simp] theorem writeS_fresh (r : SReg) (v : Word) (s : State) : (writeS r v s).fresh = s.fresh := by rw [writeS, State.mod_fresh]
@[simp] theorem writeS_clock (r : SReg) (v : Word) (s : State) : (writeS r v s).clock = s.clock := by rw [writeS, State.mod_clock]
@[simp] theorem writeS_nextId (r : SReg) (v : Word) (s : State) : (writeS r v s).nextId = s.nextId := by rw [writeS, State.mod_nextId]
@[simp] theorem writeS_mem (r : SReg) (v : Word) (s : State) : (writeS r v s).mem = s.mem := by rw [writeS, State.mod_mem]
@[simp] theorem writeS_poison (r : SReg) (v : Word) (s : State) : (writeS r v s).poison = s.poison := by rw [writeS, State.mod_poison]
@[simp] theorem writeS_padPoison (r : SReg) (v : Word) (s : State) : (writeS r v s).padPoison = s.padPoison := by rw [writeS, State.mod_padPoison]
@[simp] theorem writeS_bufPoison (r : SReg) (v : Word) (s : State) : (writeS r v s).bufPoison = s.bufPoison := by rw [writeS, State.mod_bufPoison]
@[simp] theorem writeS_faults (r : SReg) (v : Word) (s : State) : (writeS r v s).faults = s.faults := by rw [writeS, State.mod_faults]
@[simp] theorem writeS_sram (r : SReg) (v : Word) (s : State) : (writeS r v s).sram = s.sram := by rw [writeS, State.mod_sram]
@[simp] theorem writeS_host (r : SReg) (v : Word) (s : State) : (writeS r v s).host = s.host := by rw [writeS, State.mod_host]
@[simp] theorem writeS_sumac (r : SReg) (v : Word) (s : State) : (writeS r v s).sumac = s.sumac := by rw [writeS, State.mod_sumac]
@[simp] theorem writeS_homemap (r : SReg) (v : Word) (s : State) : (writeS r v s).homemap = s.homemap := by rw [writeS, State.mod_homemap]
@[simp] theorem writeS_got (r : SReg) (v : Word) (s : State) : (writeS r v s).got = s.got := by rw [writeS, State.mod_got]
@[simp] theorem writeS_srls (r : SReg) (v : Word) (s : State) : (writeS r v s).srls = s.srls := by rw [writeS, State.mod_srls]
@[simp] theorem writeS_seals (r : SReg) (v : Word) (s : State) : (writeS r v s).seals = s.seals := by rw [writeS, State.mod_seals]
@[simp] theorem writeS_memkeys (r : SReg) (v : Word) (s : State) : (writeS r v s).memkeys = s.memkeys := by rw [writeS, State.mod_memkeys]
@[simp] theorem writeS_mckeys (r : SReg) (v : Word) (s : State) : (writeS r v s).mckeys = s.mckeys := by rw [writeS, State.mod_mckeys]
@[simp] theorem writeS_vpages (r : SReg) (v : Word) (s : State) : (writeS r v s).vpages = s.vpages := by rw [writeS, State.mod_vpages]
@[simp] theorem writeS_versions (r : SReg) (v : Word) (s : State) : (writeS r v s).versions = s.versions := by rw [writeS, State.mod_versions]
@[simp] theorem writeS_dirty (r : SReg) (v : Word) (s : State) : (writeS r v s).dirty = s.dirty := by rw [writeS, State.mod_dirty]
@[simp] theorem writeS_heldx (r : SReg) (v : Word) (s : State) : (writeS r v s).heldx = s.heldx := by rw [writeS, State.mod_heldx]
@[simp] theorem writeS_tier1map (r : SReg) (v : Word) (s : State) : (writeS r v s).tier1map = s.tier1map := by rw [writeS, State.mod_tier1map]
@[simp] theorem writeS_parts (r : SReg) (v : Word) (s : State) : (writeS r v s).parts = s.parts := by rw [writeS, State.mod_parts]
@[simp] theorem writeS_releasing (r : SReg) (v : Word) (s : State) : (writeS r v s).releasing = s.releasing := by rw [writeS, State.mod_releasing]
@[simp] theorem writeS_suspended (r : SReg) (v : Word) (s : State) : (writeS r v s).suspended = s.suspended := by rw [writeS, State.mod_suspended]
@[simp] theorem writeS_queues (r : SReg) (v : Word) (s : State) : (writeS r v s).queues = s.queues := by rw [writeS, State.mod_queues]
@[simp] theorem writeS_selected (r : SReg) (v : Word) (s : State) : (writeS r v s).selected = s.selected := by rw [writeS, State.mod_selected]
@[simp] theorem writeS_caps (r : SReg) (v : Word) (s : State) : (writeS r v s).caps = s.caps := by rw [writeS, State.mod_caps]
@[simp] theorem writeS_clusters (r : SReg) (v : Word) (s : State) : (writeS r v s).clusters = s.clusters := by rw [writeS, State.mod_clusters]
@[simp] theorem writeS_cores (r : SReg) (v : Word) (s : State) : (writeS r v s).cores = s.cores := by rw [writeS, State.mod_cores]
@[simp] theorem writeS_net (r : SReg) (v : Word) (s : State) : (writeS r v s).net = s.net := by rw [writeS, State.mod_net]
@[simp] theorem writeS_queries (r : SReg) (v : Word) (s : State) : (writeS r v s).queries = s.queries := by rw [writeS, State.mod_queries]
@[simp] theorem writeS_returns (r : SReg) (v : Word) (s : State) : (writeS r v s).returns = s.returns := by rw [writeS, State.mod_returns]
@[simp] theorem writeS_codeCache (r : SReg) (v : Word) (s : State) : (writeS r v s).codeCache = s.codeCache := by rw [writeS, State.mod_codeCache]
@[simp] theorem writeS_tokens (r : SReg) (v : Word) (s : State) : (writeS r v s).tokens = s.tokens := by rw [writeS, State.mod_tokens]
@[simp] theorem writeS_arbiters (r : SReg) (v : Word) (s : State) : (writeS r v s).arbiters = s.arbiters := by rw [writeS, State.mod_arbiters]
@[simp] theorem writeS_reports (r : SReg) (v : Word) (s : State) : (writeS r v s).reports = s.reports := by rw [writeS, State.mod_reports]
@[simp] theorem writeS_pkglog (r : SReg) (v : Word) (s : State) : (writeS r v s).pkglog = s.pkglog := by rw [writeS, State.mod_pkglog]
@[simp] theorem writeS_saffron (r : SReg) (v : Word) (s : State) : (writeS r v s).saffron = s.saffron := by rw [writeS, State.mod_saffron]
@[simp] theorem writeS_phase (r : SReg) (v : Word) (s : State) : (writeS r v s).phase = s.phase := by rw [writeS, State.mod_phase]
@[simp] theorem writeS_budget (r : SReg) (v : Word) (s : State) : (writeS r v s).budget = s.budget := by rw [writeS, State.mod_budget]
@[simp] theorem writeS_links (r : SReg) (v : Word) (s : State) : (writeS r v s).links = s.links := by rw [writeS, State.mod_links]
@[simp] theorem writeS_spdm (r : SReg) (v : Word) (s : State) : (writeS r v s).spdm = s.spdm := by rw [writeS, State.mod_spdm]
@[simp] theorem writeS_resetting (r : SReg) (v : Word) (s : State) : (writeS r v s).resetting = s.resetting := by rw [writeS, State.mod_resetting]
@[simp] theorem writeS_resetAt (r : SReg) (v : Word) (s : State) : (writeS r v s).resetAt = s.resetAt := by rw [writeS, State.mod_resetAt]
@[simp] theorem writeS_retained (r : SReg) (v : Word) (s : State) : (writeS r v s).retained = s.retained := by rw [writeS, State.mod_retained]
@[simp] theorem writeS_exiting (r : SReg) (v : Word) (s : State) : (writeS r v s).exiting = s.exiting := by rw [writeS, State.mod_exiting]
@[simp] theorem writeS_used (r : SReg) (v : Word) (s : State) : (writeS r v s).used = s.used := by rw [writeS, State.mod_used]
@[simp] theorem writeS_pending (r : SReg) (v : Word) (s : State) : (writeS r v s).pending = s.pending := by rw [writeS, State.mod_pending]
@[simp] theorem writeS_input (r : SReg) (v : Word) (s : State) : (writeS r v s).input = s.input := by rw [writeS, State.mod_input]
@[simp] theorem writeS_out (r : SReg) (v : Word) (s : State) : (writeS r v s).out = s.out := by rw [writeS, State.mod_out]

/-! writeT. -/

@[simp] theorem writeT_parked (t : TReg) (d : Memory) (h : BitVec 16) (s : State) : (writeT t d h s).parked = s.parked := by rw [writeT, State.mod_parked]
@[simp] theorem writeT_agenda (t : TReg) (d : Memory) (h : BitVec 16) (s : State) : (writeT t d h s).agenda = s.agenda := by rw [writeT, State.mod_agenda]
@[simp] theorem writeT_fresh (t : TReg) (d : Memory) (h : BitVec 16) (s : State) : (writeT t d h s).fresh = s.fresh := by rw [writeT, State.mod_fresh]
@[simp] theorem writeT_clock (t : TReg) (d : Memory) (h : BitVec 16) (s : State) : (writeT t d h s).clock = s.clock := by rw [writeT, State.mod_clock]
@[simp] theorem writeT_nextId (t : TReg) (d : Memory) (h : BitVec 16) (s : State) : (writeT t d h s).nextId = s.nextId := by rw [writeT, State.mod_nextId]
@[simp] theorem writeT_mem (t : TReg) (d : Memory) (h : BitVec 16) (s : State) : (writeT t d h s).mem = s.mem := by rw [writeT, State.mod_mem]
@[simp] theorem writeT_poison (t : TReg) (d : Memory) (h : BitVec 16) (s : State) : (writeT t d h s).poison = s.poison := by rw [writeT, State.mod_poison]
@[simp] theorem writeT_padPoison (t : TReg) (d : Memory) (h : BitVec 16) (s : State) : (writeT t d h s).padPoison = s.padPoison := by rw [writeT, State.mod_padPoison]
@[simp] theorem writeT_bufPoison (t : TReg) (d : Memory) (h : BitVec 16) (s : State) : (writeT t d h s).bufPoison = s.bufPoison := by rw [writeT, State.mod_bufPoison]
@[simp] theorem writeT_faults (t : TReg) (d : Memory) (h : BitVec 16) (s : State) : (writeT t d h s).faults = s.faults := by rw [writeT, State.mod_faults]
@[simp] theorem writeT_sram (t : TReg) (d : Memory) (h : BitVec 16) (s : State) : (writeT t d h s).sram = s.sram := by rw [writeT, State.mod_sram]
@[simp] theorem writeT_host (t : TReg) (d : Memory) (h : BitVec 16) (s : State) : (writeT t d h s).host = s.host := by rw [writeT, State.mod_host]
@[simp] theorem writeT_sumac (t : TReg) (d : Memory) (h : BitVec 16) (s : State) : (writeT t d h s).sumac = s.sumac := by rw [writeT, State.mod_sumac]
@[simp] theorem writeT_homemap (t : TReg) (d : Memory) (h : BitVec 16) (s : State) : (writeT t d h s).homemap = s.homemap := by rw [writeT, State.mod_homemap]
@[simp] theorem writeT_got (t : TReg) (d : Memory) (h : BitVec 16) (s : State) : (writeT t d h s).got = s.got := by rw [writeT, State.mod_got]
@[simp] theorem writeT_srls (t : TReg) (d : Memory) (h : BitVec 16) (s : State) : (writeT t d h s).srls = s.srls := by rw [writeT, State.mod_srls]
@[simp] theorem writeT_seals (t : TReg) (d : Memory) (h : BitVec 16) (s : State) : (writeT t d h s).seals = s.seals := by rw [writeT, State.mod_seals]
@[simp] theorem writeT_memkeys (t : TReg) (d : Memory) (h : BitVec 16) (s : State) : (writeT t d h s).memkeys = s.memkeys := by rw [writeT, State.mod_memkeys]
@[simp] theorem writeT_mckeys (t : TReg) (d : Memory) (h : BitVec 16) (s : State) : (writeT t d h s).mckeys = s.mckeys := by rw [writeT, State.mod_mckeys]
@[simp] theorem writeT_vpages (t : TReg) (d : Memory) (h : BitVec 16) (s : State) : (writeT t d h s).vpages = s.vpages := by rw [writeT, State.mod_vpages]
@[simp] theorem writeT_versions (t : TReg) (d : Memory) (h : BitVec 16) (s : State) : (writeT t d h s).versions = s.versions := by rw [writeT, State.mod_versions]
@[simp] theorem writeT_dirty (t : TReg) (d : Memory) (h : BitVec 16) (s : State) : (writeT t d h s).dirty = s.dirty := by rw [writeT, State.mod_dirty]
@[simp] theorem writeT_heldx (t : TReg) (d : Memory) (h : BitVec 16) (s : State) : (writeT t d h s).heldx = s.heldx := by rw [writeT, State.mod_heldx]
@[simp] theorem writeT_tier1map (t : TReg) (d : Memory) (h : BitVec 16) (s : State) : (writeT t d h s).tier1map = s.tier1map := by rw [writeT, State.mod_tier1map]
@[simp] theorem writeT_parts (t : TReg) (d : Memory) (h : BitVec 16) (s : State) : (writeT t d h s).parts = s.parts := by rw [writeT, State.mod_parts]
@[simp] theorem writeT_releasing (t : TReg) (d : Memory) (h : BitVec 16) (s : State) : (writeT t d h s).releasing = s.releasing := by rw [writeT, State.mod_releasing]
@[simp] theorem writeT_suspended (t : TReg) (d : Memory) (h : BitVec 16) (s : State) : (writeT t d h s).suspended = s.suspended := by rw [writeT, State.mod_suspended]
@[simp] theorem writeT_queues (t : TReg) (d : Memory) (h : BitVec 16) (s : State) : (writeT t d h s).queues = s.queues := by rw [writeT, State.mod_queues]
@[simp] theorem writeT_selected (t : TReg) (d : Memory) (h : BitVec 16) (s : State) : (writeT t d h s).selected = s.selected := by rw [writeT, State.mod_selected]
@[simp] theorem writeT_caps (t : TReg) (d : Memory) (h : BitVec 16) (s : State) : (writeT t d h s).caps = s.caps := by rw [writeT, State.mod_caps]
@[simp] theorem writeT_clusters (t : TReg) (d : Memory) (h : BitVec 16) (s : State) : (writeT t d h s).clusters = s.clusters := by rw [writeT, State.mod_clusters]
@[simp] theorem writeT_cores (t : TReg) (d : Memory) (h : BitVec 16) (s : State) : (writeT t d h s).cores = s.cores := by rw [writeT, State.mod_cores]
@[simp] theorem writeT_net (t : TReg) (d : Memory) (h : BitVec 16) (s : State) : (writeT t d h s).net = s.net := by rw [writeT, State.mod_net]
@[simp] theorem writeT_queries (t : TReg) (d : Memory) (h : BitVec 16) (s : State) : (writeT t d h s).queries = s.queries := by rw [writeT, State.mod_queries]
@[simp] theorem writeT_returns (t : TReg) (d : Memory) (h : BitVec 16) (s : State) : (writeT t d h s).returns = s.returns := by rw [writeT, State.mod_returns]
@[simp] theorem writeT_codeCache (t : TReg) (d : Memory) (h : BitVec 16) (s : State) : (writeT t d h s).codeCache = s.codeCache := by rw [writeT, State.mod_codeCache]
@[simp] theorem writeT_tokens (t : TReg) (d : Memory) (h : BitVec 16) (s : State) : (writeT t d h s).tokens = s.tokens := by rw [writeT, State.mod_tokens]
@[simp] theorem writeT_arbiters (t : TReg) (d : Memory) (h : BitVec 16) (s : State) : (writeT t d h s).arbiters = s.arbiters := by rw [writeT, State.mod_arbiters]
@[simp] theorem writeT_reports (t : TReg) (d : Memory) (h : BitVec 16) (s : State) : (writeT t d h s).reports = s.reports := by rw [writeT, State.mod_reports]
@[simp] theorem writeT_pkglog (t : TReg) (d : Memory) (h : BitVec 16) (s : State) : (writeT t d h s).pkglog = s.pkglog := by rw [writeT, State.mod_pkglog]
@[simp] theorem writeT_saffron (t : TReg) (d : Memory) (h : BitVec 16) (s : State) : (writeT t d h s).saffron = s.saffron := by rw [writeT, State.mod_saffron]
@[simp] theorem writeT_phase (t : TReg) (d : Memory) (h : BitVec 16) (s : State) : (writeT t d h s).phase = s.phase := by rw [writeT, State.mod_phase]
@[simp] theorem writeT_budget (t : TReg) (d : Memory) (h : BitVec 16) (s : State) : (writeT t d h s).budget = s.budget := by rw [writeT, State.mod_budget]
@[simp] theorem writeT_links (t : TReg) (d : Memory) (h : BitVec 16) (s : State) : (writeT t d h s).links = s.links := by rw [writeT, State.mod_links]
@[simp] theorem writeT_spdm (t : TReg) (d : Memory) (h : BitVec 16) (s : State) : (writeT t d h s).spdm = s.spdm := by rw [writeT, State.mod_spdm]
@[simp] theorem writeT_resetting (t : TReg) (d : Memory) (h : BitVec 16) (s : State) : (writeT t d h s).resetting = s.resetting := by rw [writeT, State.mod_resetting]
@[simp] theorem writeT_resetAt (t : TReg) (d : Memory) (h : BitVec 16) (s : State) : (writeT t d h s).resetAt = s.resetAt := by rw [writeT, State.mod_resetAt]
@[simp] theorem writeT_retained (t : TReg) (d : Memory) (h : BitVec 16) (s : State) : (writeT t d h s).retained = s.retained := by rw [writeT, State.mod_retained]
@[simp] theorem writeT_exiting (t : TReg) (d : Memory) (h : BitVec 16) (s : State) : (writeT t d h s).exiting = s.exiting := by rw [writeT, State.mod_exiting]
@[simp] theorem writeT_used (t : TReg) (d : Memory) (h : BitVec 16) (s : State) : (writeT t d h s).used = s.used := by rw [writeT, State.mod_used]
@[simp] theorem writeT_pending (t : TReg) (d : Memory) (h : BitVec 16) (s : State) : (writeT t d h s).pending = s.pending := by rw [writeT, State.mod_pending]
@[simp] theorem writeT_input (t : TReg) (d : Memory) (h : BitVec 16) (s : State) : (writeT t d h s).input = s.input := by rw [writeT, State.mod_input]
@[simp] theorem writeT_out (t : TReg) (d : Memory) (h : BitVec 16) (s : State) : (writeT t d h s).out = s.out := by rw [writeT, State.mod_out]

/-! setFlags. -/

@[simp] theorem setFlags_parked (f : Flags) (s : State) : (setFlags f s).parked = s.parked := by rw [setFlags, State.modRegs_parked]
@[simp] theorem setFlags_agenda (f : Flags) (s : State) : (setFlags f s).agenda = s.agenda := by rw [setFlags, State.modRegs_agenda]
@[simp] theorem setFlags_fresh (f : Flags) (s : State) : (setFlags f s).fresh = s.fresh := by rw [setFlags, State.modRegs_fresh]
@[simp] theorem setFlags_clock (f : Flags) (s : State) : (setFlags f s).clock = s.clock := by rw [setFlags, State.modRegs_clock]
@[simp] theorem setFlags_nextId (f : Flags) (s : State) : (setFlags f s).nextId = s.nextId := by rw [setFlags, State.modRegs_nextId]
@[simp] theorem setFlags_mem (f : Flags) (s : State) : (setFlags f s).mem = s.mem := by rw [setFlags, State.modRegs_mem]
@[simp] theorem setFlags_poison (f : Flags) (s : State) : (setFlags f s).poison = s.poison := by rw [setFlags, State.modRegs_poison]
@[simp] theorem setFlags_padPoison (f : Flags) (s : State) : (setFlags f s).padPoison = s.padPoison := by rw [setFlags, State.modRegs_padPoison]
@[simp] theorem setFlags_bufPoison (f : Flags) (s : State) : (setFlags f s).bufPoison = s.bufPoison := by rw [setFlags, State.modRegs_bufPoison]
@[simp] theorem setFlags_faults (f : Flags) (s : State) : (setFlags f s).faults = s.faults := by rw [setFlags, State.modRegs_faults]
@[simp] theorem setFlags_sram (f : Flags) (s : State) : (setFlags f s).sram = s.sram := by rw [setFlags, State.modRegs_sram]
@[simp] theorem setFlags_host (f : Flags) (s : State) : (setFlags f s).host = s.host := by rw [setFlags, State.modRegs_host]
@[simp] theorem setFlags_sumac (f : Flags) (s : State) : (setFlags f s).sumac = s.sumac := by rw [setFlags, State.modRegs_sumac]
@[simp] theorem setFlags_homemap (f : Flags) (s : State) : (setFlags f s).homemap = s.homemap := by rw [setFlags, State.modRegs_homemap]
@[simp] theorem setFlags_got (f : Flags) (s : State) : (setFlags f s).got = s.got := by rw [setFlags, State.modRegs_got]
@[simp] theorem setFlags_srls (f : Flags) (s : State) : (setFlags f s).srls = s.srls := by rw [setFlags, State.modRegs_srls]
@[simp] theorem setFlags_seals (f : Flags) (s : State) : (setFlags f s).seals = s.seals := by rw [setFlags, State.modRegs_seals]
@[simp] theorem setFlags_memkeys (f : Flags) (s : State) : (setFlags f s).memkeys = s.memkeys := by rw [setFlags, State.modRegs_memkeys]
@[simp] theorem setFlags_mckeys (f : Flags) (s : State) : (setFlags f s).mckeys = s.mckeys := by rw [setFlags, State.modRegs_mckeys]
@[simp] theorem setFlags_vpages (f : Flags) (s : State) : (setFlags f s).vpages = s.vpages := by rw [setFlags, State.modRegs_vpages]
@[simp] theorem setFlags_versions (f : Flags) (s : State) : (setFlags f s).versions = s.versions := by rw [setFlags, State.modRegs_versions]
@[simp] theorem setFlags_dirty (f : Flags) (s : State) : (setFlags f s).dirty = s.dirty := by rw [setFlags, State.modRegs_dirty]
@[simp] theorem setFlags_heldx (f : Flags) (s : State) : (setFlags f s).heldx = s.heldx := by rw [setFlags, State.modRegs_heldx]
@[simp] theorem setFlags_tier1map (f : Flags) (s : State) : (setFlags f s).tier1map = s.tier1map := by rw [setFlags, State.modRegs_tier1map]
@[simp] theorem setFlags_parts (f : Flags) (s : State) : (setFlags f s).parts = s.parts := by rw [setFlags, State.modRegs_parts]
@[simp] theorem setFlags_releasing (f : Flags) (s : State) : (setFlags f s).releasing = s.releasing := by rw [setFlags, State.modRegs_releasing]
@[simp] theorem setFlags_suspended (f : Flags) (s : State) : (setFlags f s).suspended = s.suspended := by rw [setFlags, State.modRegs_suspended]
@[simp] theorem setFlags_queues (f : Flags) (s : State) : (setFlags f s).queues = s.queues := by rw [setFlags, State.modRegs_queues]
@[simp] theorem setFlags_selected (f : Flags) (s : State) : (setFlags f s).selected = s.selected := by rw [setFlags, State.modRegs_selected]
@[simp] theorem setFlags_caps (f : Flags) (s : State) : (setFlags f s).caps = s.caps := by rw [setFlags, State.modRegs_caps]
@[simp] theorem setFlags_clusters (f : Flags) (s : State) : (setFlags f s).clusters = s.clusters := by rw [setFlags, State.modRegs_clusters]
@[simp] theorem setFlags_cores (f : Flags) (s : State) : (setFlags f s).cores = s.cores := by rw [setFlags, State.modRegs_cores]
@[simp] theorem setFlags_net (f : Flags) (s : State) : (setFlags f s).net = s.net := by rw [setFlags, State.modRegs_net]
@[simp] theorem setFlags_queries (f : Flags) (s : State) : (setFlags f s).queries = s.queries := by rw [setFlags, State.modRegs_queries]
@[simp] theorem setFlags_returns (f : Flags) (s : State) : (setFlags f s).returns = s.returns := by rw [setFlags, State.modRegs_returns]
@[simp] theorem setFlags_codeCache (f : Flags) (s : State) : (setFlags f s).codeCache = s.codeCache := by rw [setFlags, State.modRegs_codeCache]
@[simp] theorem setFlags_tokens (f : Flags) (s : State) : (setFlags f s).tokens = s.tokens := by rw [setFlags, State.modRegs_tokens]
@[simp] theorem setFlags_arbiters (f : Flags) (s : State) : (setFlags f s).arbiters = s.arbiters := by rw [setFlags, State.modRegs_arbiters]
@[simp] theorem setFlags_reports (f : Flags) (s : State) : (setFlags f s).reports = s.reports := by rw [setFlags, State.modRegs_reports]
@[simp] theorem setFlags_pkglog (f : Flags) (s : State) : (setFlags f s).pkglog = s.pkglog := by rw [setFlags, State.modRegs_pkglog]
@[simp] theorem setFlags_saffron (f : Flags) (s : State) : (setFlags f s).saffron = s.saffron := by rw [setFlags, State.modRegs_saffron]
@[simp] theorem setFlags_phase (f : Flags) (s : State) : (setFlags f s).phase = s.phase := by rw [setFlags, State.modRegs_phase]
@[simp] theorem setFlags_budget (f : Flags) (s : State) : (setFlags f s).budget = s.budget := by rw [setFlags, State.modRegs_budget]
@[simp] theorem setFlags_links (f : Flags) (s : State) : (setFlags f s).links = s.links := by rw [setFlags, State.modRegs_links]
@[simp] theorem setFlags_spdm (f : Flags) (s : State) : (setFlags f s).spdm = s.spdm := by rw [setFlags, State.modRegs_spdm]
@[simp] theorem setFlags_resetting (f : Flags) (s : State) : (setFlags f s).resetting = s.resetting := by rw [setFlags, State.modRegs_resetting]
@[simp] theorem setFlags_resetAt (f : Flags) (s : State) : (setFlags f s).resetAt = s.resetAt := by rw [setFlags, State.modRegs_resetAt]
@[simp] theorem setFlags_retained (f : Flags) (s : State) : (setFlags f s).retained = s.retained := by rw [setFlags, State.modRegs_retained]
@[simp] theorem setFlags_exiting (f : Flags) (s : State) : (setFlags f s).exiting = s.exiting := by rw [setFlags, State.modRegs_exiting]
@[simp] theorem setFlags_used (f : Flags) (s : State) : (setFlags f s).used = s.used := by rw [setFlags, State.modRegs_used]
@[simp] theorem setFlags_pending (f : Flags) (s : State) : (setFlags f s).pending = s.pending := by rw [setFlags, State.modRegs_pending]
@[simp] theorem setFlags_input (f : Flags) (s : State) : (setFlags f s).input = s.input := by rw [setFlags, State.modRegs_input]
@[simp] theorem setFlags_out (f : Flags) (s : State) : (setFlags f s).out = s.out := by rw [setFlags, State.modRegs_out]

/-! produceS. -/

@[simp] theorem produceS_parked (r : SReg) (v : Word) (f : Flags) (s : State) : (produceS r v f s).parked = s.parked := by rw [produceS, State.mod_parked]
@[simp] theorem produceS_agenda (r : SReg) (v : Word) (f : Flags) (s : State) : (produceS r v f s).agenda = s.agenda := by rw [produceS, State.mod_agenda]
@[simp] theorem produceS_fresh (r : SReg) (v : Word) (f : Flags) (s : State) : (produceS r v f s).fresh = s.fresh := by rw [produceS, State.mod_fresh]
@[simp] theorem produceS_clock (r : SReg) (v : Word) (f : Flags) (s : State) : (produceS r v f s).clock = s.clock := by rw [produceS, State.mod_clock]
@[simp] theorem produceS_nextId (r : SReg) (v : Word) (f : Flags) (s : State) : (produceS r v f s).nextId = s.nextId := by rw [produceS, State.mod_nextId]
@[simp] theorem produceS_mem (r : SReg) (v : Word) (f : Flags) (s : State) : (produceS r v f s).mem = s.mem := by rw [produceS, State.mod_mem]
@[simp] theorem produceS_poison (r : SReg) (v : Word) (f : Flags) (s : State) : (produceS r v f s).poison = s.poison := by rw [produceS, State.mod_poison]
@[simp] theorem produceS_padPoison (r : SReg) (v : Word) (f : Flags) (s : State) : (produceS r v f s).padPoison = s.padPoison := by rw [produceS, State.mod_padPoison]
@[simp] theorem produceS_bufPoison (r : SReg) (v : Word) (f : Flags) (s : State) : (produceS r v f s).bufPoison = s.bufPoison := by rw [produceS, State.mod_bufPoison]
@[simp] theorem produceS_faults (r : SReg) (v : Word) (f : Flags) (s : State) : (produceS r v f s).faults = s.faults := by rw [produceS, State.mod_faults]
@[simp] theorem produceS_sram (r : SReg) (v : Word) (f : Flags) (s : State) : (produceS r v f s).sram = s.sram := by rw [produceS, State.mod_sram]
@[simp] theorem produceS_host (r : SReg) (v : Word) (f : Flags) (s : State) : (produceS r v f s).host = s.host := by rw [produceS, State.mod_host]
@[simp] theorem produceS_sumac (r : SReg) (v : Word) (f : Flags) (s : State) : (produceS r v f s).sumac = s.sumac := by rw [produceS, State.mod_sumac]
@[simp] theorem produceS_homemap (r : SReg) (v : Word) (f : Flags) (s : State) : (produceS r v f s).homemap = s.homemap := by rw [produceS, State.mod_homemap]
@[simp] theorem produceS_got (r : SReg) (v : Word) (f : Flags) (s : State) : (produceS r v f s).got = s.got := by rw [produceS, State.mod_got]
@[simp] theorem produceS_srls (r : SReg) (v : Word) (f : Flags) (s : State) : (produceS r v f s).srls = s.srls := by rw [produceS, State.mod_srls]
@[simp] theorem produceS_seals (r : SReg) (v : Word) (f : Flags) (s : State) : (produceS r v f s).seals = s.seals := by rw [produceS, State.mod_seals]
@[simp] theorem produceS_memkeys (r : SReg) (v : Word) (f : Flags) (s : State) : (produceS r v f s).memkeys = s.memkeys := by rw [produceS, State.mod_memkeys]
@[simp] theorem produceS_mckeys (r : SReg) (v : Word) (f : Flags) (s : State) : (produceS r v f s).mckeys = s.mckeys := by rw [produceS, State.mod_mckeys]
@[simp] theorem produceS_vpages (r : SReg) (v : Word) (f : Flags) (s : State) : (produceS r v f s).vpages = s.vpages := by rw [produceS, State.mod_vpages]
@[simp] theorem produceS_versions (r : SReg) (v : Word) (f : Flags) (s : State) : (produceS r v f s).versions = s.versions := by rw [produceS, State.mod_versions]
@[simp] theorem produceS_dirty (r : SReg) (v : Word) (f : Flags) (s : State) : (produceS r v f s).dirty = s.dirty := by rw [produceS, State.mod_dirty]
@[simp] theorem produceS_heldx (r : SReg) (v : Word) (f : Flags) (s : State) : (produceS r v f s).heldx = s.heldx := by rw [produceS, State.mod_heldx]
@[simp] theorem produceS_tier1map (r : SReg) (v : Word) (f : Flags) (s : State) : (produceS r v f s).tier1map = s.tier1map := by rw [produceS, State.mod_tier1map]
@[simp] theorem produceS_parts (r : SReg) (v : Word) (f : Flags) (s : State) : (produceS r v f s).parts = s.parts := by rw [produceS, State.mod_parts]
@[simp] theorem produceS_releasing (r : SReg) (v : Word) (f : Flags) (s : State) : (produceS r v f s).releasing = s.releasing := by rw [produceS, State.mod_releasing]
@[simp] theorem produceS_suspended (r : SReg) (v : Word) (f : Flags) (s : State) : (produceS r v f s).suspended = s.suspended := by rw [produceS, State.mod_suspended]
@[simp] theorem produceS_queues (r : SReg) (v : Word) (f : Flags) (s : State) : (produceS r v f s).queues = s.queues := by rw [produceS, State.mod_queues]
@[simp] theorem produceS_selected (r : SReg) (v : Word) (f : Flags) (s : State) : (produceS r v f s).selected = s.selected := by rw [produceS, State.mod_selected]
@[simp] theorem produceS_caps (r : SReg) (v : Word) (f : Flags) (s : State) : (produceS r v f s).caps = s.caps := by rw [produceS, State.mod_caps]
@[simp] theorem produceS_clusters (r : SReg) (v : Word) (f : Flags) (s : State) : (produceS r v f s).clusters = s.clusters := by rw [produceS, State.mod_clusters]
@[simp] theorem produceS_cores (r : SReg) (v : Word) (f : Flags) (s : State) : (produceS r v f s).cores = s.cores := by rw [produceS, State.mod_cores]
@[simp] theorem produceS_net (r : SReg) (v : Word) (f : Flags) (s : State) : (produceS r v f s).net = s.net := by rw [produceS, State.mod_net]
@[simp] theorem produceS_queries (r : SReg) (v : Word) (f : Flags) (s : State) : (produceS r v f s).queries = s.queries := by rw [produceS, State.mod_queries]
@[simp] theorem produceS_returns (r : SReg) (v : Word) (f : Flags) (s : State) : (produceS r v f s).returns = s.returns := by rw [produceS, State.mod_returns]
@[simp] theorem produceS_codeCache (r : SReg) (v : Word) (f : Flags) (s : State) : (produceS r v f s).codeCache = s.codeCache := by rw [produceS, State.mod_codeCache]
@[simp] theorem produceS_tokens (r : SReg) (v : Word) (f : Flags) (s : State) : (produceS r v f s).tokens = s.tokens := by rw [produceS, State.mod_tokens]
@[simp] theorem produceS_arbiters (r : SReg) (v : Word) (f : Flags) (s : State) : (produceS r v f s).arbiters = s.arbiters := by rw [produceS, State.mod_arbiters]
@[simp] theorem produceS_reports (r : SReg) (v : Word) (f : Flags) (s : State) : (produceS r v f s).reports = s.reports := by rw [produceS, State.mod_reports]
@[simp] theorem produceS_pkglog (r : SReg) (v : Word) (f : Flags) (s : State) : (produceS r v f s).pkglog = s.pkglog := by rw [produceS, State.mod_pkglog]
@[simp] theorem produceS_saffron (r : SReg) (v : Word) (f : Flags) (s : State) : (produceS r v f s).saffron = s.saffron := by rw [produceS, State.mod_saffron]
@[simp] theorem produceS_phase (r : SReg) (v : Word) (f : Flags) (s : State) : (produceS r v f s).phase = s.phase := by rw [produceS, State.mod_phase]
@[simp] theorem produceS_budget (r : SReg) (v : Word) (f : Flags) (s : State) : (produceS r v f s).budget = s.budget := by rw [produceS, State.mod_budget]
@[simp] theorem produceS_links (r : SReg) (v : Word) (f : Flags) (s : State) : (produceS r v f s).links = s.links := by rw [produceS, State.mod_links]
@[simp] theorem produceS_spdm (r : SReg) (v : Word) (f : Flags) (s : State) : (produceS r v f s).spdm = s.spdm := by rw [produceS, State.mod_spdm]
@[simp] theorem produceS_resetting (r : SReg) (v : Word) (f : Flags) (s : State) : (produceS r v f s).resetting = s.resetting := by rw [produceS, State.mod_resetting]
@[simp] theorem produceS_resetAt (r : SReg) (v : Word) (f : Flags) (s : State) : (produceS r v f s).resetAt = s.resetAt := by rw [produceS, State.mod_resetAt]
@[simp] theorem produceS_retained (r : SReg) (v : Word) (f : Flags) (s : State) : (produceS r v f s).retained = s.retained := by rw [produceS, State.mod_retained]
@[simp] theorem produceS_exiting (r : SReg) (v : Word) (f : Flags) (s : State) : (produceS r v f s).exiting = s.exiting := by rw [produceS, State.mod_exiting]
@[simp] theorem produceS_used (r : SReg) (v : Word) (f : Flags) (s : State) : (produceS r v f s).used = s.used := by rw [produceS, State.mod_used]
@[simp] theorem produceS_pending (r : SReg) (v : Word) (f : Flags) (s : State) : (produceS r v f s).pending = s.pending := by rw [produceS, State.mod_pending]
@[simp] theorem produceS_input (r : SReg) (v : Word) (f : Flags) (s : State) : (produceS r v f s).input = s.input := by rw [produceS, State.mod_input]
@[simp] theorem produceS_out (r : SReg) (v : Word) (f : Flags) (s : State) : (produceS r v f s).out = s.out := by rw [produceS, State.mod_out]

/-! produceT. -/

@[simp] theorem produceT_parked (t : TReg) (d : Memory) (h : BitVec 16) (s : State) : (produceT t d h s).parked = s.parked := by rw [produceT, State.mod_parked]
@[simp] theorem produceT_agenda (t : TReg) (d : Memory) (h : BitVec 16) (s : State) : (produceT t d h s).agenda = s.agenda := by rw [produceT, State.mod_agenda]
@[simp] theorem produceT_fresh (t : TReg) (d : Memory) (h : BitVec 16) (s : State) : (produceT t d h s).fresh = s.fresh := by rw [produceT, State.mod_fresh]
@[simp] theorem produceT_clock (t : TReg) (d : Memory) (h : BitVec 16) (s : State) : (produceT t d h s).clock = s.clock := by rw [produceT, State.mod_clock]
@[simp] theorem produceT_nextId (t : TReg) (d : Memory) (h : BitVec 16) (s : State) : (produceT t d h s).nextId = s.nextId := by rw [produceT, State.mod_nextId]
@[simp] theorem produceT_mem (t : TReg) (d : Memory) (h : BitVec 16) (s : State) : (produceT t d h s).mem = s.mem := by rw [produceT, State.mod_mem]
@[simp] theorem produceT_poison (t : TReg) (d : Memory) (h : BitVec 16) (s : State) : (produceT t d h s).poison = s.poison := by rw [produceT, State.mod_poison]
@[simp] theorem produceT_padPoison (t : TReg) (d : Memory) (h : BitVec 16) (s : State) : (produceT t d h s).padPoison = s.padPoison := by rw [produceT, State.mod_padPoison]
@[simp] theorem produceT_bufPoison (t : TReg) (d : Memory) (h : BitVec 16) (s : State) : (produceT t d h s).bufPoison = s.bufPoison := by rw [produceT, State.mod_bufPoison]
@[simp] theorem produceT_faults (t : TReg) (d : Memory) (h : BitVec 16) (s : State) : (produceT t d h s).faults = s.faults := by rw [produceT, State.mod_faults]
@[simp] theorem produceT_sram (t : TReg) (d : Memory) (h : BitVec 16) (s : State) : (produceT t d h s).sram = s.sram := by rw [produceT, State.mod_sram]
@[simp] theorem produceT_host (t : TReg) (d : Memory) (h : BitVec 16) (s : State) : (produceT t d h s).host = s.host := by rw [produceT, State.mod_host]
@[simp] theorem produceT_sumac (t : TReg) (d : Memory) (h : BitVec 16) (s : State) : (produceT t d h s).sumac = s.sumac := by rw [produceT, State.mod_sumac]
@[simp] theorem produceT_homemap (t : TReg) (d : Memory) (h : BitVec 16) (s : State) : (produceT t d h s).homemap = s.homemap := by rw [produceT, State.mod_homemap]
@[simp] theorem produceT_got (t : TReg) (d : Memory) (h : BitVec 16) (s : State) : (produceT t d h s).got = s.got := by rw [produceT, State.mod_got]
@[simp] theorem produceT_srls (t : TReg) (d : Memory) (h : BitVec 16) (s : State) : (produceT t d h s).srls = s.srls := by rw [produceT, State.mod_srls]
@[simp] theorem produceT_seals (t : TReg) (d : Memory) (h : BitVec 16) (s : State) : (produceT t d h s).seals = s.seals := by rw [produceT, State.mod_seals]
@[simp] theorem produceT_memkeys (t : TReg) (d : Memory) (h : BitVec 16) (s : State) : (produceT t d h s).memkeys = s.memkeys := by rw [produceT, State.mod_memkeys]
@[simp] theorem produceT_mckeys (t : TReg) (d : Memory) (h : BitVec 16) (s : State) : (produceT t d h s).mckeys = s.mckeys := by rw [produceT, State.mod_mckeys]
@[simp] theorem produceT_vpages (t : TReg) (d : Memory) (h : BitVec 16) (s : State) : (produceT t d h s).vpages = s.vpages := by rw [produceT, State.mod_vpages]
@[simp] theorem produceT_versions (t : TReg) (d : Memory) (h : BitVec 16) (s : State) : (produceT t d h s).versions = s.versions := by rw [produceT, State.mod_versions]
@[simp] theorem produceT_dirty (t : TReg) (d : Memory) (h : BitVec 16) (s : State) : (produceT t d h s).dirty = s.dirty := by rw [produceT, State.mod_dirty]
@[simp] theorem produceT_heldx (t : TReg) (d : Memory) (h : BitVec 16) (s : State) : (produceT t d h s).heldx = s.heldx := by rw [produceT, State.mod_heldx]
@[simp] theorem produceT_tier1map (t : TReg) (d : Memory) (h : BitVec 16) (s : State) : (produceT t d h s).tier1map = s.tier1map := by rw [produceT, State.mod_tier1map]
@[simp] theorem produceT_parts (t : TReg) (d : Memory) (h : BitVec 16) (s : State) : (produceT t d h s).parts = s.parts := by rw [produceT, State.mod_parts]
@[simp] theorem produceT_releasing (t : TReg) (d : Memory) (h : BitVec 16) (s : State) : (produceT t d h s).releasing = s.releasing := by rw [produceT, State.mod_releasing]
@[simp] theorem produceT_suspended (t : TReg) (d : Memory) (h : BitVec 16) (s : State) : (produceT t d h s).suspended = s.suspended := by rw [produceT, State.mod_suspended]
@[simp] theorem produceT_queues (t : TReg) (d : Memory) (h : BitVec 16) (s : State) : (produceT t d h s).queues = s.queues := by rw [produceT, State.mod_queues]
@[simp] theorem produceT_selected (t : TReg) (d : Memory) (h : BitVec 16) (s : State) : (produceT t d h s).selected = s.selected := by rw [produceT, State.mod_selected]
@[simp] theorem produceT_caps (t : TReg) (d : Memory) (h : BitVec 16) (s : State) : (produceT t d h s).caps = s.caps := by rw [produceT, State.mod_caps]
@[simp] theorem produceT_clusters (t : TReg) (d : Memory) (h : BitVec 16) (s : State) : (produceT t d h s).clusters = s.clusters := by rw [produceT, State.mod_clusters]
@[simp] theorem produceT_cores (t : TReg) (d : Memory) (h : BitVec 16) (s : State) : (produceT t d h s).cores = s.cores := by rw [produceT, State.mod_cores]
@[simp] theorem produceT_net (t : TReg) (d : Memory) (h : BitVec 16) (s : State) : (produceT t d h s).net = s.net := by rw [produceT, State.mod_net]
@[simp] theorem produceT_queries (t : TReg) (d : Memory) (h : BitVec 16) (s : State) : (produceT t d h s).queries = s.queries := by rw [produceT, State.mod_queries]
@[simp] theorem produceT_returns (t : TReg) (d : Memory) (h : BitVec 16) (s : State) : (produceT t d h s).returns = s.returns := by rw [produceT, State.mod_returns]
@[simp] theorem produceT_codeCache (t : TReg) (d : Memory) (h : BitVec 16) (s : State) : (produceT t d h s).codeCache = s.codeCache := by rw [produceT, State.mod_codeCache]
@[simp] theorem produceT_tokens (t : TReg) (d : Memory) (h : BitVec 16) (s : State) : (produceT t d h s).tokens = s.tokens := by rw [produceT, State.mod_tokens]
@[simp] theorem produceT_arbiters (t : TReg) (d : Memory) (h : BitVec 16) (s : State) : (produceT t d h s).arbiters = s.arbiters := by rw [produceT, State.mod_arbiters]
@[simp] theorem produceT_reports (t : TReg) (d : Memory) (h : BitVec 16) (s : State) : (produceT t d h s).reports = s.reports := by rw [produceT, State.mod_reports]
@[simp] theorem produceT_pkglog (t : TReg) (d : Memory) (h : BitVec 16) (s : State) : (produceT t d h s).pkglog = s.pkglog := by rw [produceT, State.mod_pkglog]
@[simp] theorem produceT_saffron (t : TReg) (d : Memory) (h : BitVec 16) (s : State) : (produceT t d h s).saffron = s.saffron := by rw [produceT, State.mod_saffron]
@[simp] theorem produceT_phase (t : TReg) (d : Memory) (h : BitVec 16) (s : State) : (produceT t d h s).phase = s.phase := by rw [produceT, State.mod_phase]
@[simp] theorem produceT_budget (t : TReg) (d : Memory) (h : BitVec 16) (s : State) : (produceT t d h s).budget = s.budget := by rw [produceT, State.mod_budget]
@[simp] theorem produceT_links (t : TReg) (d : Memory) (h : BitVec 16) (s : State) : (produceT t d h s).links = s.links := by rw [produceT, State.mod_links]
@[simp] theorem produceT_spdm (t : TReg) (d : Memory) (h : BitVec 16) (s : State) : (produceT t d h s).spdm = s.spdm := by rw [produceT, State.mod_spdm]
@[simp] theorem produceT_resetting (t : TReg) (d : Memory) (h : BitVec 16) (s : State) : (produceT t d h s).resetting = s.resetting := by rw [produceT, State.mod_resetting]
@[simp] theorem produceT_resetAt (t : TReg) (d : Memory) (h : BitVec 16) (s : State) : (produceT t d h s).resetAt = s.resetAt := by rw [produceT, State.mod_resetAt]
@[simp] theorem produceT_retained (t : TReg) (d : Memory) (h : BitVec 16) (s : State) : (produceT t d h s).retained = s.retained := by rw [produceT, State.mod_retained]
@[simp] theorem produceT_exiting (t : TReg) (d : Memory) (h : BitVec 16) (s : State) : (produceT t d h s).exiting = s.exiting := by rw [produceT, State.mod_exiting]
@[simp] theorem produceT_used (t : TReg) (d : Memory) (h : BitVec 16) (s : State) : (produceT t d h s).used = s.used := by rw [produceT, State.mod_used]
@[simp] theorem produceT_pending (t : TReg) (d : Memory) (h : BitVec 16) (s : State) : (produceT t d h s).pending = s.pending := by rw [produceT, State.mod_pending]
@[simp] theorem produceT_input (t : TReg) (d : Memory) (h : BitVec 16) (s : State) : (produceT t d h s).input = s.input := by rw [produceT, State.mod_input]
@[simp] theorem produceT_out (t : TReg) (d : Memory) (h : BitVec 16) (s : State) : (produceT t d h s).out = s.out := by rw [produceT, State.mod_out]

/-! setIdx. -/

@[simp] theorem setIdx_parked (n : Nat) (s : State) : (setIdx n s).parked = s.parked := by rw [setIdx, State.modRegs_parked]
@[simp] theorem setIdx_agenda (n : Nat) (s : State) : (setIdx n s).agenda = s.agenda := by rw [setIdx, State.modRegs_agenda]
@[simp] theorem setIdx_fresh (n : Nat) (s : State) : (setIdx n s).fresh = s.fresh := by rw [setIdx, State.modRegs_fresh]
@[simp] theorem setIdx_clock (n : Nat) (s : State) : (setIdx n s).clock = s.clock := by rw [setIdx, State.modRegs_clock]
@[simp] theorem setIdx_nextId (n : Nat) (s : State) : (setIdx n s).nextId = s.nextId := by rw [setIdx, State.modRegs_nextId]
@[simp] theorem setIdx_mem (n : Nat) (s : State) : (setIdx n s).mem = s.mem := by rw [setIdx, State.modRegs_mem]
@[simp] theorem setIdx_poison (n : Nat) (s : State) : (setIdx n s).poison = s.poison := by rw [setIdx, State.modRegs_poison]
@[simp] theorem setIdx_padPoison (n : Nat) (s : State) : (setIdx n s).padPoison = s.padPoison := by rw [setIdx, State.modRegs_padPoison]
@[simp] theorem setIdx_bufPoison (n : Nat) (s : State) : (setIdx n s).bufPoison = s.bufPoison := by rw [setIdx, State.modRegs_bufPoison]
@[simp] theorem setIdx_faults (n : Nat) (s : State) : (setIdx n s).faults = s.faults := by rw [setIdx, State.modRegs_faults]
@[simp] theorem setIdx_sram (n : Nat) (s : State) : (setIdx n s).sram = s.sram := by rw [setIdx, State.modRegs_sram]
@[simp] theorem setIdx_host (n : Nat) (s : State) : (setIdx n s).host = s.host := by rw [setIdx, State.modRegs_host]
@[simp] theorem setIdx_sumac (n : Nat) (s : State) : (setIdx n s).sumac = s.sumac := by rw [setIdx, State.modRegs_sumac]
@[simp] theorem setIdx_homemap (n : Nat) (s : State) : (setIdx n s).homemap = s.homemap := by rw [setIdx, State.modRegs_homemap]
@[simp] theorem setIdx_got (n : Nat) (s : State) : (setIdx n s).got = s.got := by rw [setIdx, State.modRegs_got]
@[simp] theorem setIdx_srls (n : Nat) (s : State) : (setIdx n s).srls = s.srls := by rw [setIdx, State.modRegs_srls]
@[simp] theorem setIdx_seals (n : Nat) (s : State) : (setIdx n s).seals = s.seals := by rw [setIdx, State.modRegs_seals]
@[simp] theorem setIdx_memkeys (n : Nat) (s : State) : (setIdx n s).memkeys = s.memkeys := by rw [setIdx, State.modRegs_memkeys]
@[simp] theorem setIdx_mckeys (n : Nat) (s : State) : (setIdx n s).mckeys = s.mckeys := by rw [setIdx, State.modRegs_mckeys]
@[simp] theorem setIdx_vpages (n : Nat) (s : State) : (setIdx n s).vpages = s.vpages := by rw [setIdx, State.modRegs_vpages]
@[simp] theorem setIdx_versions (n : Nat) (s : State) : (setIdx n s).versions = s.versions := by rw [setIdx, State.modRegs_versions]
@[simp] theorem setIdx_dirty (n : Nat) (s : State) : (setIdx n s).dirty = s.dirty := by rw [setIdx, State.modRegs_dirty]
@[simp] theorem setIdx_heldx (n : Nat) (s : State) : (setIdx n s).heldx = s.heldx := by rw [setIdx, State.modRegs_heldx]
@[simp] theorem setIdx_tier1map (n : Nat) (s : State) : (setIdx n s).tier1map = s.tier1map := by rw [setIdx, State.modRegs_tier1map]
@[simp] theorem setIdx_parts (n : Nat) (s : State) : (setIdx n s).parts = s.parts := by rw [setIdx, State.modRegs_parts]
@[simp] theorem setIdx_releasing (n : Nat) (s : State) : (setIdx n s).releasing = s.releasing := by rw [setIdx, State.modRegs_releasing]
@[simp] theorem setIdx_suspended (n : Nat) (s : State) : (setIdx n s).suspended = s.suspended := by rw [setIdx, State.modRegs_suspended]
@[simp] theorem setIdx_queues (n : Nat) (s : State) : (setIdx n s).queues = s.queues := by rw [setIdx, State.modRegs_queues]
@[simp] theorem setIdx_selected (n : Nat) (s : State) : (setIdx n s).selected = s.selected := by rw [setIdx, State.modRegs_selected]
@[simp] theorem setIdx_caps (n : Nat) (s : State) : (setIdx n s).caps = s.caps := by rw [setIdx, State.modRegs_caps]
@[simp] theorem setIdx_clusters (n : Nat) (s : State) : (setIdx n s).clusters = s.clusters := by rw [setIdx, State.modRegs_clusters]
@[simp] theorem setIdx_cores (n : Nat) (s : State) : (setIdx n s).cores = s.cores := by rw [setIdx, State.modRegs_cores]
@[simp] theorem setIdx_net (n : Nat) (s : State) : (setIdx n s).net = s.net := by rw [setIdx, State.modRegs_net]
@[simp] theorem setIdx_queries (n : Nat) (s : State) : (setIdx n s).queries = s.queries := by rw [setIdx, State.modRegs_queries]
@[simp] theorem setIdx_returns (n : Nat) (s : State) : (setIdx n s).returns = s.returns := by rw [setIdx, State.modRegs_returns]
@[simp] theorem setIdx_codeCache (n : Nat) (s : State) : (setIdx n s).codeCache = s.codeCache := by rw [setIdx, State.modRegs_codeCache]
@[simp] theorem setIdx_tokens (n : Nat) (s : State) : (setIdx n s).tokens = s.tokens := by rw [setIdx, State.modRegs_tokens]
@[simp] theorem setIdx_arbiters (n : Nat) (s : State) : (setIdx n s).arbiters = s.arbiters := by rw [setIdx, State.modRegs_arbiters]
@[simp] theorem setIdx_reports (n : Nat) (s : State) : (setIdx n s).reports = s.reports := by rw [setIdx, State.modRegs_reports]
@[simp] theorem setIdx_pkglog (n : Nat) (s : State) : (setIdx n s).pkglog = s.pkglog := by rw [setIdx, State.modRegs_pkglog]
@[simp] theorem setIdx_saffron (n : Nat) (s : State) : (setIdx n s).saffron = s.saffron := by rw [setIdx, State.modRegs_saffron]
@[simp] theorem setIdx_phase (n : Nat) (s : State) : (setIdx n s).phase = s.phase := by rw [setIdx, State.modRegs_phase]
@[simp] theorem setIdx_budget (n : Nat) (s : State) : (setIdx n s).budget = s.budget := by rw [setIdx, State.modRegs_budget]
@[simp] theorem setIdx_links (n : Nat) (s : State) : (setIdx n s).links = s.links := by rw [setIdx, State.modRegs_links]
@[simp] theorem setIdx_spdm (n : Nat) (s : State) : (setIdx n s).spdm = s.spdm := by rw [setIdx, State.modRegs_spdm]
@[simp] theorem setIdx_resetting (n : Nat) (s : State) : (setIdx n s).resetting = s.resetting := by rw [setIdx, State.modRegs_resetting]
@[simp] theorem setIdx_resetAt (n : Nat) (s : State) : (setIdx n s).resetAt = s.resetAt := by rw [setIdx, State.modRegs_resetAt]
@[simp] theorem setIdx_retained (n : Nat) (s : State) : (setIdx n s).retained = s.retained := by rw [setIdx, State.modRegs_retained]
@[simp] theorem setIdx_exiting (n : Nat) (s : State) : (setIdx n s).exiting = s.exiting := by rw [setIdx, State.modRegs_exiting]
@[simp] theorem setIdx_used (n : Nat) (s : State) : (setIdx n s).used = s.used := by rw [setIdx, State.modRegs_used]
@[simp] theorem setIdx_pending (n : Nat) (s : State) : (setIdx n s).pending = s.pending := by rw [setIdx, State.modRegs_pending]
@[simp] theorem setIdx_input (n : Nat) (s : State) : (setIdx n s).input = s.input := by rw [setIdx, State.modRegs_input]
@[simp] theorem setIdx_out (n : Nat) (s : State) : (setIdx n s).out = s.out := by rw [setIdx, State.modRegs_out]

/-! clearRst. -/

@[simp] theorem clearRst_parked (s : State) : (clearRst s).parked = s.parked := by rw [clearRst, State.modRegs_parked]
@[simp] theorem clearRst_agenda (s : State) : (clearRst s).agenda = s.agenda := by rw [clearRst, State.modRegs_agenda]
@[simp] theorem clearRst_fresh (s : State) : (clearRst s).fresh = s.fresh := by rw [clearRst, State.modRegs_fresh]
@[simp] theorem clearRst_clock (s : State) : (clearRst s).clock = s.clock := by rw [clearRst, State.modRegs_clock]
@[simp] theorem clearRst_nextId (s : State) : (clearRst s).nextId = s.nextId := by rw [clearRst, State.modRegs_nextId]
@[simp] theorem clearRst_mem (s : State) : (clearRst s).mem = s.mem := by rw [clearRst, State.modRegs_mem]
@[simp] theorem clearRst_poison (s : State) : (clearRst s).poison = s.poison := by rw [clearRst, State.modRegs_poison]
@[simp] theorem clearRst_padPoison (s : State) : (clearRst s).padPoison = s.padPoison := by rw [clearRst, State.modRegs_padPoison]
@[simp] theorem clearRst_bufPoison (s : State) : (clearRst s).bufPoison = s.bufPoison := by rw [clearRst, State.modRegs_bufPoison]
@[simp] theorem clearRst_faults (s : State) : (clearRst s).faults = s.faults := by rw [clearRst, State.modRegs_faults]
@[simp] theorem clearRst_sram (s : State) : (clearRst s).sram = s.sram := by rw [clearRst, State.modRegs_sram]
@[simp] theorem clearRst_host (s : State) : (clearRst s).host = s.host := by rw [clearRst, State.modRegs_host]
@[simp] theorem clearRst_sumac (s : State) : (clearRst s).sumac = s.sumac := by rw [clearRst, State.modRegs_sumac]
@[simp] theorem clearRst_homemap (s : State) : (clearRst s).homemap = s.homemap := by rw [clearRst, State.modRegs_homemap]
@[simp] theorem clearRst_got (s : State) : (clearRst s).got = s.got := by rw [clearRst, State.modRegs_got]
@[simp] theorem clearRst_srls (s : State) : (clearRst s).srls = s.srls := by rw [clearRst, State.modRegs_srls]
@[simp] theorem clearRst_seals (s : State) : (clearRst s).seals = s.seals := by rw [clearRst, State.modRegs_seals]
@[simp] theorem clearRst_memkeys (s : State) : (clearRst s).memkeys = s.memkeys := by rw [clearRst, State.modRegs_memkeys]
@[simp] theorem clearRst_mckeys (s : State) : (clearRst s).mckeys = s.mckeys := by rw [clearRst, State.modRegs_mckeys]
@[simp] theorem clearRst_vpages (s : State) : (clearRst s).vpages = s.vpages := by rw [clearRst, State.modRegs_vpages]
@[simp] theorem clearRst_versions (s : State) : (clearRst s).versions = s.versions := by rw [clearRst, State.modRegs_versions]
@[simp] theorem clearRst_dirty (s : State) : (clearRst s).dirty = s.dirty := by rw [clearRst, State.modRegs_dirty]
@[simp] theorem clearRst_heldx (s : State) : (clearRst s).heldx = s.heldx := by rw [clearRst, State.modRegs_heldx]
@[simp] theorem clearRst_tier1map (s : State) : (clearRst s).tier1map = s.tier1map := by rw [clearRst, State.modRegs_tier1map]
@[simp] theorem clearRst_parts (s : State) : (clearRst s).parts = s.parts := by rw [clearRst, State.modRegs_parts]
@[simp] theorem clearRst_releasing (s : State) : (clearRst s).releasing = s.releasing := by rw [clearRst, State.modRegs_releasing]
@[simp] theorem clearRst_suspended (s : State) : (clearRst s).suspended = s.suspended := by rw [clearRst, State.modRegs_suspended]
@[simp] theorem clearRst_queues (s : State) : (clearRst s).queues = s.queues := by rw [clearRst, State.modRegs_queues]
@[simp] theorem clearRst_selected (s : State) : (clearRst s).selected = s.selected := by rw [clearRst, State.modRegs_selected]
@[simp] theorem clearRst_caps (s : State) : (clearRst s).caps = s.caps := by rw [clearRst, State.modRegs_caps]
@[simp] theorem clearRst_clusters (s : State) : (clearRst s).clusters = s.clusters := by rw [clearRst, State.modRegs_clusters]
@[simp] theorem clearRst_cores (s : State) : (clearRst s).cores = s.cores := by rw [clearRst, State.modRegs_cores]
@[simp] theorem clearRst_net (s : State) : (clearRst s).net = s.net := by rw [clearRst, State.modRegs_net]
@[simp] theorem clearRst_queries (s : State) : (clearRst s).queries = s.queries := by rw [clearRst, State.modRegs_queries]
@[simp] theorem clearRst_returns (s : State) : (clearRst s).returns = s.returns := by rw [clearRst, State.modRegs_returns]
@[simp] theorem clearRst_codeCache (s : State) : (clearRst s).codeCache = s.codeCache := by rw [clearRst, State.modRegs_codeCache]
@[simp] theorem clearRst_tokens (s : State) : (clearRst s).tokens = s.tokens := by rw [clearRst, State.modRegs_tokens]
@[simp] theorem clearRst_arbiters (s : State) : (clearRst s).arbiters = s.arbiters := by rw [clearRst, State.modRegs_arbiters]
@[simp] theorem clearRst_reports (s : State) : (clearRst s).reports = s.reports := by rw [clearRst, State.modRegs_reports]
@[simp] theorem clearRst_pkglog (s : State) : (clearRst s).pkglog = s.pkglog := by rw [clearRst, State.modRegs_pkglog]
@[simp] theorem clearRst_saffron (s : State) : (clearRst s).saffron = s.saffron := by rw [clearRst, State.modRegs_saffron]
@[simp] theorem clearRst_phase (s : State) : (clearRst s).phase = s.phase := by rw [clearRst, State.modRegs_phase]
@[simp] theorem clearRst_budget (s : State) : (clearRst s).budget = s.budget := by rw [clearRst, State.modRegs_budget]
@[simp] theorem clearRst_links (s : State) : (clearRst s).links = s.links := by rw [clearRst, State.modRegs_links]
@[simp] theorem clearRst_spdm (s : State) : (clearRst s).spdm = s.spdm := by rw [clearRst, State.modRegs_spdm]
@[simp] theorem clearRst_resetting (s : State) : (clearRst s).resetting = s.resetting := by rw [clearRst, State.modRegs_resetting]
@[simp] theorem clearRst_resetAt (s : State) : (clearRst s).resetAt = s.resetAt := by rw [clearRst, State.modRegs_resetAt]
@[simp] theorem clearRst_retained (s : State) : (clearRst s).retained = s.retained := by rw [clearRst, State.modRegs_retained]
@[simp] theorem clearRst_exiting (s : State) : (clearRst s).exiting = s.exiting := by rw [clearRst, State.modRegs_exiting]
@[simp] theorem clearRst_used (s : State) : (clearRst s).used = s.used := by rw [clearRst, State.modRegs_used]
@[simp] theorem clearRst_pending (s : State) : (clearRst s).pending = s.pending := by rw [clearRst, State.modRegs_pending]
@[simp] theorem clearRst_input (s : State) : (clearRst s).input = s.input := by rw [clearRst, State.modRegs_input]
@[simp] theorem clearRst_out (s : State) : (clearRst s).out = s.out := by rw [clearRst, State.modRegs_out]

/-! noteRead. -/

@[simp] theorem noteRead_parked (a n : Nat) (s : State) : (noteRead a n s).parked = s.parked := by rw [noteRead]; split <;> simp only [State.mod_parked]
@[simp] theorem noteRead_agenda (a n : Nat) (s : State) : (noteRead a n s).agenda = s.agenda := by rw [noteRead]; split <;> simp only [State.mod_agenda]
@[simp] theorem noteRead_fresh (a n : Nat) (s : State) : (noteRead a n s).fresh = s.fresh := by rw [noteRead]; split <;> simp only [State.mod_fresh]
@[simp] theorem noteRead_clock (a n : Nat) (s : State) : (noteRead a n s).clock = s.clock := by rw [noteRead]; split <;> simp only [State.mod_clock]
@[simp] theorem noteRead_nextId (a n : Nat) (s : State) : (noteRead a n s).nextId = s.nextId := by rw [noteRead]; split <;> simp only [State.mod_nextId]
@[simp] theorem noteRead_mem (a n : Nat) (s : State) : (noteRead a n s).mem = s.mem := by rw [noteRead]; split <;> simp only [State.mod_mem]
@[simp] theorem noteRead_poison (a n : Nat) (s : State) : (noteRead a n s).poison = s.poison := by rw [noteRead]; split <;> simp only [State.mod_poison]
@[simp] theorem noteRead_padPoison (a n : Nat) (s : State) : (noteRead a n s).padPoison = s.padPoison := by rw [noteRead]; split <;> simp only [State.mod_padPoison]
@[simp] theorem noteRead_bufPoison (a n : Nat) (s : State) : (noteRead a n s).bufPoison = s.bufPoison := by rw [noteRead]; split <;> simp only [State.mod_bufPoison]
@[simp] theorem noteRead_faults (a n : Nat) (s : State) : (noteRead a n s).faults = s.faults := by rw [noteRead]; split <;> simp only [State.mod_faults]
@[simp] theorem noteRead_sram (a n : Nat) (s : State) : (noteRead a n s).sram = s.sram := by rw [noteRead]; split <;> simp only [State.mod_sram]
@[simp] theorem noteRead_host (a n : Nat) (s : State) : (noteRead a n s).host = s.host := by rw [noteRead]; split <;> simp only [State.mod_host]
@[simp] theorem noteRead_sumac (a n : Nat) (s : State) : (noteRead a n s).sumac = s.sumac := by rw [noteRead]; split <;> simp only [State.mod_sumac]
@[simp] theorem noteRead_homemap (a n : Nat) (s : State) : (noteRead a n s).homemap = s.homemap := by rw [noteRead]; split <;> simp only [State.mod_homemap]
@[simp] theorem noteRead_got (a n : Nat) (s : State) : (noteRead a n s).got = s.got := by rw [noteRead]; split <;> simp only [State.mod_got]
@[simp] theorem noteRead_srls (a n : Nat) (s : State) : (noteRead a n s).srls = s.srls := by rw [noteRead]; split <;> simp only [State.mod_srls]
@[simp] theorem noteRead_seals (a n : Nat) (s : State) : (noteRead a n s).seals = s.seals := by rw [noteRead]; split <;> simp only [State.mod_seals]
@[simp] theorem noteRead_memkeys (a n : Nat) (s : State) : (noteRead a n s).memkeys = s.memkeys := by rw [noteRead]; split <;> simp only [State.mod_memkeys]
@[simp] theorem noteRead_mckeys (a n : Nat) (s : State) : (noteRead a n s).mckeys = s.mckeys := by rw [noteRead]; split <;> simp only [State.mod_mckeys]
@[simp] theorem noteRead_vpages (a n : Nat) (s : State) : (noteRead a n s).vpages = s.vpages := by rw [noteRead]; split <;> simp only [State.mod_vpages]
@[simp] theorem noteRead_versions (a n : Nat) (s : State) : (noteRead a n s).versions = s.versions := by rw [noteRead]; split <;> simp only [State.mod_versions]
@[simp] theorem noteRead_dirty (a n : Nat) (s : State) : (noteRead a n s).dirty = s.dirty := by rw [noteRead]; split <;> simp only [State.mod_dirty]
@[simp] theorem noteRead_heldx (a n : Nat) (s : State) : (noteRead a n s).heldx = s.heldx := by rw [noteRead]; split <;> simp only [State.mod_heldx]
@[simp] theorem noteRead_tier1map (a n : Nat) (s : State) : (noteRead a n s).tier1map = s.tier1map := by rw [noteRead]; split <;> simp only [State.mod_tier1map]
@[simp] theorem noteRead_parts (a n : Nat) (s : State) : (noteRead a n s).parts = s.parts := by rw [noteRead]; split <;> simp only [State.mod_parts]
@[simp] theorem noteRead_releasing (a n : Nat) (s : State) : (noteRead a n s).releasing = s.releasing := by rw [noteRead]; split <;> simp only [State.mod_releasing]
@[simp] theorem noteRead_suspended (a n : Nat) (s : State) : (noteRead a n s).suspended = s.suspended := by rw [noteRead]; split <;> simp only [State.mod_suspended]
@[simp] theorem noteRead_queues (a n : Nat) (s : State) : (noteRead a n s).queues = s.queues := by rw [noteRead]; split <;> simp only [State.mod_queues]
@[simp] theorem noteRead_selected (a n : Nat) (s : State) : (noteRead a n s).selected = s.selected := by rw [noteRead]; split <;> simp only [State.mod_selected]
@[simp] theorem noteRead_caps (a n : Nat) (s : State) : (noteRead a n s).caps = s.caps := by rw [noteRead]; split <;> simp only [State.mod_caps]
@[simp] theorem noteRead_clusters (a n : Nat) (s : State) : (noteRead a n s).clusters = s.clusters := by rw [noteRead]; split <;> simp only [State.mod_clusters]
@[simp] theorem noteRead_cores (a n : Nat) (s : State) : (noteRead a n s).cores = s.cores := by rw [noteRead]; split <;> simp only [State.mod_cores]
@[simp] theorem noteRead_net (a n : Nat) (s : State) : (noteRead a n s).net = s.net := by rw [noteRead]; split <;> simp only [State.mod_net]
@[simp] theorem noteRead_queries (a n : Nat) (s : State) : (noteRead a n s).queries = s.queries := by rw [noteRead]; split <;> simp only [State.mod_queries]
@[simp] theorem noteRead_returns (a n : Nat) (s : State) : (noteRead a n s).returns = s.returns := by rw [noteRead]; split <;> simp only [State.mod_returns]
@[simp] theorem noteRead_codeCache (a n : Nat) (s : State) : (noteRead a n s).codeCache = s.codeCache := by rw [noteRead]; split <;> simp only [State.mod_codeCache]
@[simp] theorem noteRead_tokens (a n : Nat) (s : State) : (noteRead a n s).tokens = s.tokens := by rw [noteRead]; split <;> simp only [State.mod_tokens]
@[simp] theorem noteRead_arbiters (a n : Nat) (s : State) : (noteRead a n s).arbiters = s.arbiters := by rw [noteRead]; split <;> simp only [State.mod_arbiters]
@[simp] theorem noteRead_reports (a n : Nat) (s : State) : (noteRead a n s).reports = s.reports := by rw [noteRead]; split <;> simp only [State.mod_reports]
@[simp] theorem noteRead_pkglog (a n : Nat) (s : State) : (noteRead a n s).pkglog = s.pkglog := by rw [noteRead]; split <;> simp only [State.mod_pkglog]
@[simp] theorem noteRead_saffron (a n : Nat) (s : State) : (noteRead a n s).saffron = s.saffron := by rw [noteRead]; split <;> simp only [State.mod_saffron]
@[simp] theorem noteRead_phase (a n : Nat) (s : State) : (noteRead a n s).phase = s.phase := by rw [noteRead]; split <;> simp only [State.mod_phase]
@[simp] theorem noteRead_budget (a n : Nat) (s : State) : (noteRead a n s).budget = s.budget := by rw [noteRead]; split <;> simp only [State.mod_budget]
@[simp] theorem noteRead_links (a n : Nat) (s : State) : (noteRead a n s).links = s.links := by rw [noteRead]; split <;> simp only [State.mod_links]
@[simp] theorem noteRead_spdm (a n : Nat) (s : State) : (noteRead a n s).spdm = s.spdm := by rw [noteRead]; split <;> simp only [State.mod_spdm]
@[simp] theorem noteRead_resetting (a n : Nat) (s : State) : (noteRead a n s).resetting = s.resetting := by rw [noteRead]; split <;> simp only [State.mod_resetting]
@[simp] theorem noteRead_resetAt (a n : Nat) (s : State) : (noteRead a n s).resetAt = s.resetAt := by rw [noteRead]; split <;> simp only [State.mod_resetAt]
@[simp] theorem noteRead_retained (a n : Nat) (s : State) : (noteRead a n s).retained = s.retained := by rw [noteRead]; split <;> simp only [State.mod_retained]
@[simp] theorem noteRead_exiting (a n : Nat) (s : State) : (noteRead a n s).exiting = s.exiting := by rw [noteRead]; split <;> simp only [State.mod_exiting]
@[simp] theorem noteRead_used (a n : Nat) (s : State) : (noteRead a n s).used = s.used := by rw [noteRead]; split <;> simp only [State.mod_used]
@[simp] theorem noteRead_pending (a n : Nat) (s : State) : (noteRead a n s).pending = s.pending := by rw [noteRead]; split <;> simp only [State.mod_pending]
@[simp] theorem noteRead_input (a n : Nat) (s : State) : (noteRead a n s).input = s.input := by rw [noteRead]; split <;> simp only [State.mod_input]
@[simp] theorem noteRead_out (a n : Nat) (s : State) : (noteRead a n s).out = s.out := by rw [noteRead]; split <;> simp only [State.mod_out]

/-! noteWrite. -/

@[simp] theorem noteWrite_parked (a n : Nat) (s : State) : (noteWrite a n s).parked = s.parked := by rw [noteWrite, State.mod_parked]
@[simp] theorem noteWrite_agenda (a n : Nat) (s : State) : (noteWrite a n s).agenda = s.agenda := by rw [noteWrite, State.mod_agenda]
@[simp] theorem noteWrite_fresh (a n : Nat) (s : State) : (noteWrite a n s).fresh = s.fresh := by rw [noteWrite, State.mod_fresh]
@[simp] theorem noteWrite_clock (a n : Nat) (s : State) : (noteWrite a n s).clock = s.clock := by rw [noteWrite, State.mod_clock]
@[simp] theorem noteWrite_nextId (a n : Nat) (s : State) : (noteWrite a n s).nextId = s.nextId := by rw [noteWrite, State.mod_nextId]
@[simp] theorem noteWrite_mem (a n : Nat) (s : State) : (noteWrite a n s).mem = s.mem := by rw [noteWrite, State.mod_mem]
@[simp] theorem noteWrite_poison (a n : Nat) (s : State) : (noteWrite a n s).poison = s.poison := by rw [noteWrite, State.mod_poison]
@[simp] theorem noteWrite_padPoison (a n : Nat) (s : State) : (noteWrite a n s).padPoison = s.padPoison := by rw [noteWrite, State.mod_padPoison]
@[simp] theorem noteWrite_bufPoison (a n : Nat) (s : State) : (noteWrite a n s).bufPoison = s.bufPoison := by rw [noteWrite, State.mod_bufPoison]
@[simp] theorem noteWrite_faults (a n : Nat) (s : State) : (noteWrite a n s).faults = s.faults := by rw [noteWrite, State.mod_faults]
@[simp] theorem noteWrite_sram (a n : Nat) (s : State) : (noteWrite a n s).sram = s.sram := by rw [noteWrite, State.mod_sram]
@[simp] theorem noteWrite_host (a n : Nat) (s : State) : (noteWrite a n s).host = s.host := by rw [noteWrite, State.mod_host]
@[simp] theorem noteWrite_sumac (a n : Nat) (s : State) : (noteWrite a n s).sumac = s.sumac := by rw [noteWrite, State.mod_sumac]
@[simp] theorem noteWrite_homemap (a n : Nat) (s : State) : (noteWrite a n s).homemap = s.homemap := by rw [noteWrite, State.mod_homemap]
@[simp] theorem noteWrite_got (a n : Nat) (s : State) : (noteWrite a n s).got = s.got := by rw [noteWrite, State.mod_got]
@[simp] theorem noteWrite_srls (a n : Nat) (s : State) : (noteWrite a n s).srls = s.srls := by rw [noteWrite, State.mod_srls]
@[simp] theorem noteWrite_seals (a n : Nat) (s : State) : (noteWrite a n s).seals = s.seals := by rw [noteWrite, State.mod_seals]
@[simp] theorem noteWrite_memkeys (a n : Nat) (s : State) : (noteWrite a n s).memkeys = s.memkeys := by rw [noteWrite, State.mod_memkeys]
@[simp] theorem noteWrite_mckeys (a n : Nat) (s : State) : (noteWrite a n s).mckeys = s.mckeys := by rw [noteWrite, State.mod_mckeys]
@[simp] theorem noteWrite_vpages (a n : Nat) (s : State) : (noteWrite a n s).vpages = s.vpages := by rw [noteWrite, State.mod_vpages]
@[simp] theorem noteWrite_versions (a n : Nat) (s : State) : (noteWrite a n s).versions = s.versions := by rw [noteWrite, State.mod_versions]
@[simp] theorem noteWrite_dirty (a n : Nat) (s : State) : (noteWrite a n s).dirty = s.dirty := by rw [noteWrite, State.mod_dirty]
@[simp] theorem noteWrite_heldx (a n : Nat) (s : State) : (noteWrite a n s).heldx = s.heldx := by rw [noteWrite, State.mod_heldx]
@[simp] theorem noteWrite_tier1map (a n : Nat) (s : State) : (noteWrite a n s).tier1map = s.tier1map := by rw [noteWrite, State.mod_tier1map]
@[simp] theorem noteWrite_parts (a n : Nat) (s : State) : (noteWrite a n s).parts = s.parts := by rw [noteWrite, State.mod_parts]
@[simp] theorem noteWrite_releasing (a n : Nat) (s : State) : (noteWrite a n s).releasing = s.releasing := by rw [noteWrite, State.mod_releasing]
@[simp] theorem noteWrite_suspended (a n : Nat) (s : State) : (noteWrite a n s).suspended = s.suspended := by rw [noteWrite, State.mod_suspended]
@[simp] theorem noteWrite_queues (a n : Nat) (s : State) : (noteWrite a n s).queues = s.queues := by rw [noteWrite, State.mod_queues]
@[simp] theorem noteWrite_selected (a n : Nat) (s : State) : (noteWrite a n s).selected = s.selected := by rw [noteWrite, State.mod_selected]
@[simp] theorem noteWrite_caps (a n : Nat) (s : State) : (noteWrite a n s).caps = s.caps := by rw [noteWrite, State.mod_caps]
@[simp] theorem noteWrite_clusters (a n : Nat) (s : State) : (noteWrite a n s).clusters = s.clusters := by rw [noteWrite, State.mod_clusters]
@[simp] theorem noteWrite_cores (a n : Nat) (s : State) : (noteWrite a n s).cores = s.cores := by rw [noteWrite, State.mod_cores]
@[simp] theorem noteWrite_net (a n : Nat) (s : State) : (noteWrite a n s).net = s.net := by rw [noteWrite, State.mod_net]
@[simp] theorem noteWrite_queries (a n : Nat) (s : State) : (noteWrite a n s).queries = s.queries := by rw [noteWrite, State.mod_queries]
@[simp] theorem noteWrite_returns (a n : Nat) (s : State) : (noteWrite a n s).returns = s.returns := by rw [noteWrite, State.mod_returns]
@[simp] theorem noteWrite_codeCache (a n : Nat) (s : State) : (noteWrite a n s).codeCache = s.codeCache := by rw [noteWrite, State.mod_codeCache]
@[simp] theorem noteWrite_tokens (a n : Nat) (s : State) : (noteWrite a n s).tokens = s.tokens := by rw [noteWrite, State.mod_tokens]
@[simp] theorem noteWrite_arbiters (a n : Nat) (s : State) : (noteWrite a n s).arbiters = s.arbiters := by rw [noteWrite, State.mod_arbiters]
@[simp] theorem noteWrite_reports (a n : Nat) (s : State) : (noteWrite a n s).reports = s.reports := by rw [noteWrite, State.mod_reports]
@[simp] theorem noteWrite_pkglog (a n : Nat) (s : State) : (noteWrite a n s).pkglog = s.pkglog := by rw [noteWrite, State.mod_pkglog]
@[simp] theorem noteWrite_saffron (a n : Nat) (s : State) : (noteWrite a n s).saffron = s.saffron := by rw [noteWrite, State.mod_saffron]
@[simp] theorem noteWrite_phase (a n : Nat) (s : State) : (noteWrite a n s).phase = s.phase := by rw [noteWrite, State.mod_phase]
@[simp] theorem noteWrite_budget (a n : Nat) (s : State) : (noteWrite a n s).budget = s.budget := by rw [noteWrite, State.mod_budget]
@[simp] theorem noteWrite_links (a n : Nat) (s : State) : (noteWrite a n s).links = s.links := by rw [noteWrite, State.mod_links]
@[simp] theorem noteWrite_spdm (a n : Nat) (s : State) : (noteWrite a n s).spdm = s.spdm := by rw [noteWrite, State.mod_spdm]
@[simp] theorem noteWrite_resetting (a n : Nat) (s : State) : (noteWrite a n s).resetting = s.resetting := by rw [noteWrite, State.mod_resetting]
@[simp] theorem noteWrite_resetAt (a n : Nat) (s : State) : (noteWrite a n s).resetAt = s.resetAt := by rw [noteWrite, State.mod_resetAt]
@[simp] theorem noteWrite_retained (a n : Nat) (s : State) : (noteWrite a n s).retained = s.retained := by rw [noteWrite, State.mod_retained]
@[simp] theorem noteWrite_exiting (a n : Nat) (s : State) : (noteWrite a n s).exiting = s.exiting := by rw [noteWrite, State.mod_exiting]
@[simp] theorem noteWrite_used (a n : Nat) (s : State) : (noteWrite a n s).used = s.used := by rw [noteWrite, State.mod_used]
@[simp] theorem noteWrite_pending (a n : Nat) (s : State) : (noteWrite a n s).pending = s.pending := by rw [noteWrite, State.mod_pending]
@[simp] theorem noteWrite_input (a n : Nat) (s : State) : (noteWrite a n s).input = s.input := by rw [noteWrite, State.mod_input]
@[simp] theorem noteWrite_out (a n : Nat) (s : State) : (noteWrite a n s).out = s.out := by rw [noteWrite, State.mod_out]

/-! notePadRead. -/

@[simp] theorem notePadRead_parked (a n : Nat) (s : State) : (notePadRead a n s).parked = s.parked := by rw [notePadRead, State.mod_parked]
@[simp] theorem notePadRead_agenda (a n : Nat) (s : State) : (notePadRead a n s).agenda = s.agenda := by rw [notePadRead, State.mod_agenda]
@[simp] theorem notePadRead_fresh (a n : Nat) (s : State) : (notePadRead a n s).fresh = s.fresh := by rw [notePadRead, State.mod_fresh]
@[simp] theorem notePadRead_clock (a n : Nat) (s : State) : (notePadRead a n s).clock = s.clock := by rw [notePadRead, State.mod_clock]
@[simp] theorem notePadRead_nextId (a n : Nat) (s : State) : (notePadRead a n s).nextId = s.nextId := by rw [notePadRead, State.mod_nextId]
@[simp] theorem notePadRead_mem (a n : Nat) (s : State) : (notePadRead a n s).mem = s.mem := by rw [notePadRead, State.mod_mem]
@[simp] theorem notePadRead_poison (a n : Nat) (s : State) : (notePadRead a n s).poison = s.poison := by rw [notePadRead, State.mod_poison]
@[simp] theorem notePadRead_padPoison (a n : Nat) (s : State) : (notePadRead a n s).padPoison = s.padPoison := by rw [notePadRead, State.mod_padPoison]
@[simp] theorem notePadRead_bufPoison (a n : Nat) (s : State) : (notePadRead a n s).bufPoison = s.bufPoison := by rw [notePadRead, State.mod_bufPoison]
@[simp] theorem notePadRead_faults (a n : Nat) (s : State) : (notePadRead a n s).faults = s.faults := by rw [notePadRead, State.mod_faults]
@[simp] theorem notePadRead_sram (a n : Nat) (s : State) : (notePadRead a n s).sram = s.sram := by rw [notePadRead, State.mod_sram]
@[simp] theorem notePadRead_host (a n : Nat) (s : State) : (notePadRead a n s).host = s.host := by rw [notePadRead, State.mod_host]
@[simp] theorem notePadRead_sumac (a n : Nat) (s : State) : (notePadRead a n s).sumac = s.sumac := by rw [notePadRead, State.mod_sumac]
@[simp] theorem notePadRead_homemap (a n : Nat) (s : State) : (notePadRead a n s).homemap = s.homemap := by rw [notePadRead, State.mod_homemap]
@[simp] theorem notePadRead_got (a n : Nat) (s : State) : (notePadRead a n s).got = s.got := by rw [notePadRead, State.mod_got]
@[simp] theorem notePadRead_srls (a n : Nat) (s : State) : (notePadRead a n s).srls = s.srls := by rw [notePadRead, State.mod_srls]
@[simp] theorem notePadRead_seals (a n : Nat) (s : State) : (notePadRead a n s).seals = s.seals := by rw [notePadRead, State.mod_seals]
@[simp] theorem notePadRead_memkeys (a n : Nat) (s : State) : (notePadRead a n s).memkeys = s.memkeys := by rw [notePadRead, State.mod_memkeys]
@[simp] theorem notePadRead_mckeys (a n : Nat) (s : State) : (notePadRead a n s).mckeys = s.mckeys := by rw [notePadRead, State.mod_mckeys]
@[simp] theorem notePadRead_vpages (a n : Nat) (s : State) : (notePadRead a n s).vpages = s.vpages := by rw [notePadRead, State.mod_vpages]
@[simp] theorem notePadRead_versions (a n : Nat) (s : State) : (notePadRead a n s).versions = s.versions := by rw [notePadRead, State.mod_versions]
@[simp] theorem notePadRead_dirty (a n : Nat) (s : State) : (notePadRead a n s).dirty = s.dirty := by rw [notePadRead, State.mod_dirty]
@[simp] theorem notePadRead_heldx (a n : Nat) (s : State) : (notePadRead a n s).heldx = s.heldx := by rw [notePadRead, State.mod_heldx]
@[simp] theorem notePadRead_tier1map (a n : Nat) (s : State) : (notePadRead a n s).tier1map = s.tier1map := by rw [notePadRead, State.mod_tier1map]
@[simp] theorem notePadRead_parts (a n : Nat) (s : State) : (notePadRead a n s).parts = s.parts := by rw [notePadRead, State.mod_parts]
@[simp] theorem notePadRead_releasing (a n : Nat) (s : State) : (notePadRead a n s).releasing = s.releasing := by rw [notePadRead, State.mod_releasing]
@[simp] theorem notePadRead_suspended (a n : Nat) (s : State) : (notePadRead a n s).suspended = s.suspended := by rw [notePadRead, State.mod_suspended]
@[simp] theorem notePadRead_queues (a n : Nat) (s : State) : (notePadRead a n s).queues = s.queues := by rw [notePadRead, State.mod_queues]
@[simp] theorem notePadRead_selected (a n : Nat) (s : State) : (notePadRead a n s).selected = s.selected := by rw [notePadRead, State.mod_selected]
@[simp] theorem notePadRead_caps (a n : Nat) (s : State) : (notePadRead a n s).caps = s.caps := by rw [notePadRead, State.mod_caps]
@[simp] theorem notePadRead_clusters (a n : Nat) (s : State) : (notePadRead a n s).clusters = s.clusters := by rw [notePadRead, State.mod_clusters]
@[simp] theorem notePadRead_cores (a n : Nat) (s : State) : (notePadRead a n s).cores = s.cores := by rw [notePadRead, State.mod_cores]
@[simp] theorem notePadRead_net (a n : Nat) (s : State) : (notePadRead a n s).net = s.net := by rw [notePadRead, State.mod_net]
@[simp] theorem notePadRead_queries (a n : Nat) (s : State) : (notePadRead a n s).queries = s.queries := by rw [notePadRead, State.mod_queries]
@[simp] theorem notePadRead_returns (a n : Nat) (s : State) : (notePadRead a n s).returns = s.returns := by rw [notePadRead, State.mod_returns]
@[simp] theorem notePadRead_codeCache (a n : Nat) (s : State) : (notePadRead a n s).codeCache = s.codeCache := by rw [notePadRead, State.mod_codeCache]
@[simp] theorem notePadRead_tokens (a n : Nat) (s : State) : (notePadRead a n s).tokens = s.tokens := by rw [notePadRead, State.mod_tokens]
@[simp] theorem notePadRead_arbiters (a n : Nat) (s : State) : (notePadRead a n s).arbiters = s.arbiters := by rw [notePadRead, State.mod_arbiters]
@[simp] theorem notePadRead_reports (a n : Nat) (s : State) : (notePadRead a n s).reports = s.reports := by rw [notePadRead, State.mod_reports]
@[simp] theorem notePadRead_pkglog (a n : Nat) (s : State) : (notePadRead a n s).pkglog = s.pkglog := by rw [notePadRead, State.mod_pkglog]
@[simp] theorem notePadRead_saffron (a n : Nat) (s : State) : (notePadRead a n s).saffron = s.saffron := by rw [notePadRead, State.mod_saffron]
@[simp] theorem notePadRead_phase (a n : Nat) (s : State) : (notePadRead a n s).phase = s.phase := by rw [notePadRead, State.mod_phase]
@[simp] theorem notePadRead_budget (a n : Nat) (s : State) : (notePadRead a n s).budget = s.budget := by rw [notePadRead, State.mod_budget]
@[simp] theorem notePadRead_links (a n : Nat) (s : State) : (notePadRead a n s).links = s.links := by rw [notePadRead, State.mod_links]
@[simp] theorem notePadRead_spdm (a n : Nat) (s : State) : (notePadRead a n s).spdm = s.spdm := by rw [notePadRead, State.mod_spdm]
@[simp] theorem notePadRead_resetting (a n : Nat) (s : State) : (notePadRead a n s).resetting = s.resetting := by rw [notePadRead, State.mod_resetting]
@[simp] theorem notePadRead_resetAt (a n : Nat) (s : State) : (notePadRead a n s).resetAt = s.resetAt := by rw [notePadRead, State.mod_resetAt]
@[simp] theorem notePadRead_retained (a n : Nat) (s : State) : (notePadRead a n s).retained = s.retained := by rw [notePadRead, State.mod_retained]
@[simp] theorem notePadRead_exiting (a n : Nat) (s : State) : (notePadRead a n s).exiting = s.exiting := by rw [notePadRead, State.mod_exiting]
@[simp] theorem notePadRead_used (a n : Nat) (s : State) : (notePadRead a n s).used = s.used := by rw [notePadRead, State.mod_used]
@[simp] theorem notePadRead_pending (a n : Nat) (s : State) : (notePadRead a n s).pending = s.pending := by rw [notePadRead, State.mod_pending]
@[simp] theorem notePadRead_input (a n : Nat) (s : State) : (notePadRead a n s).input = s.input := by rw [notePadRead, State.mod_input]
@[simp] theorem notePadRead_out (a n : Nat) (s : State) : (notePadRead a n s).out = s.out := by rw [notePadRead, State.mod_out]

/-! pushEffect. -/

@[simp] theorem pushEffect_parked (e : Effect) (s : State) : (pushEffect e s).parked = s.parked := by rw [pushEffect, State.mod_parked]
@[simp] theorem pushEffect_agenda (e : Effect) (s : State) : (pushEffect e s).agenda = s.agenda := by rw [pushEffect, State.mod_agenda]
@[simp] theorem pushEffect_fresh (e : Effect) (s : State) : (pushEffect e s).fresh = s.fresh := by rw [pushEffect, State.mod_fresh]
@[simp] theorem pushEffect_clock (e : Effect) (s : State) : (pushEffect e s).clock = s.clock := by rw [pushEffect, State.mod_clock]
@[simp] theorem pushEffect_nextId (e : Effect) (s : State) : (pushEffect e s).nextId = s.nextId := by rw [pushEffect, State.mod_nextId]
@[simp] theorem pushEffect_mem (e : Effect) (s : State) : (pushEffect e s).mem = s.mem := by rw [pushEffect, State.mod_mem]
@[simp] theorem pushEffect_poison (e : Effect) (s : State) : (pushEffect e s).poison = s.poison := by rw [pushEffect, State.mod_poison]
@[simp] theorem pushEffect_padPoison (e : Effect) (s : State) : (pushEffect e s).padPoison = s.padPoison := by rw [pushEffect, State.mod_padPoison]
@[simp] theorem pushEffect_bufPoison (e : Effect) (s : State) : (pushEffect e s).bufPoison = s.bufPoison := by rw [pushEffect, State.mod_bufPoison]
@[simp] theorem pushEffect_faults (e : Effect) (s : State) : (pushEffect e s).faults = s.faults := by rw [pushEffect, State.mod_faults]
@[simp] theorem pushEffect_sram (e : Effect) (s : State) : (pushEffect e s).sram = s.sram := by rw [pushEffect, State.mod_sram]
@[simp] theorem pushEffect_host (e : Effect) (s : State) : (pushEffect e s).host = s.host := by rw [pushEffect, State.mod_host]
@[simp] theorem pushEffect_sumac (e : Effect) (s : State) : (pushEffect e s).sumac = s.sumac := by rw [pushEffect, State.mod_sumac]
@[simp] theorem pushEffect_homemap (e : Effect) (s : State) : (pushEffect e s).homemap = s.homemap := by rw [pushEffect, State.mod_homemap]
@[simp] theorem pushEffect_got (e : Effect) (s : State) : (pushEffect e s).got = s.got := by rw [pushEffect, State.mod_got]
@[simp] theorem pushEffect_srls (e : Effect) (s : State) : (pushEffect e s).srls = s.srls := by rw [pushEffect, State.mod_srls]
@[simp] theorem pushEffect_seals (e : Effect) (s : State) : (pushEffect e s).seals = s.seals := by rw [pushEffect, State.mod_seals]
@[simp] theorem pushEffect_memkeys (e : Effect) (s : State) : (pushEffect e s).memkeys = s.memkeys := by rw [pushEffect, State.mod_memkeys]
@[simp] theorem pushEffect_mckeys (e : Effect) (s : State) : (pushEffect e s).mckeys = s.mckeys := by rw [pushEffect, State.mod_mckeys]
@[simp] theorem pushEffect_vpages (e : Effect) (s : State) : (pushEffect e s).vpages = s.vpages := by rw [pushEffect, State.mod_vpages]
@[simp] theorem pushEffect_versions (e : Effect) (s : State) : (pushEffect e s).versions = s.versions := by rw [pushEffect, State.mod_versions]
@[simp] theorem pushEffect_dirty (e : Effect) (s : State) : (pushEffect e s).dirty = s.dirty := by rw [pushEffect, State.mod_dirty]
@[simp] theorem pushEffect_heldx (e : Effect) (s : State) : (pushEffect e s).heldx = s.heldx := by rw [pushEffect, State.mod_heldx]
@[simp] theorem pushEffect_tier1map (e : Effect) (s : State) : (pushEffect e s).tier1map = s.tier1map := by rw [pushEffect, State.mod_tier1map]
@[simp] theorem pushEffect_parts (e : Effect) (s : State) : (pushEffect e s).parts = s.parts := by rw [pushEffect, State.mod_parts]
@[simp] theorem pushEffect_releasing (e : Effect) (s : State) : (pushEffect e s).releasing = s.releasing := by rw [pushEffect, State.mod_releasing]
@[simp] theorem pushEffect_suspended (e : Effect) (s : State) : (pushEffect e s).suspended = s.suspended := by rw [pushEffect, State.mod_suspended]
@[simp] theorem pushEffect_queues (e : Effect) (s : State) : (pushEffect e s).queues = s.queues := by rw [pushEffect, State.mod_queues]
@[simp] theorem pushEffect_selected (e : Effect) (s : State) : (pushEffect e s).selected = s.selected := by rw [pushEffect, State.mod_selected]
@[simp] theorem pushEffect_caps (e : Effect) (s : State) : (pushEffect e s).caps = s.caps := by rw [pushEffect, State.mod_caps]
@[simp] theorem pushEffect_clusters (e : Effect) (s : State) : (pushEffect e s).clusters = s.clusters := by rw [pushEffect, State.mod_clusters]
@[simp] theorem pushEffect_cores (e : Effect) (s : State) : (pushEffect e s).cores = s.cores := by rw [pushEffect, State.mod_cores]
@[simp] theorem pushEffect_net (e : Effect) (s : State) : (pushEffect e s).net = s.net := by rw [pushEffect, State.mod_net]
@[simp] theorem pushEffect_queries (e : Effect) (s : State) : (pushEffect e s).queries = s.queries := by rw [pushEffect, State.mod_queries]
@[simp] theorem pushEffect_returns (e : Effect) (s : State) : (pushEffect e s).returns = s.returns := by rw [pushEffect, State.mod_returns]
@[simp] theorem pushEffect_codeCache (e : Effect) (s : State) : (pushEffect e s).codeCache = s.codeCache := by rw [pushEffect, State.mod_codeCache]
@[simp] theorem pushEffect_tokens (e : Effect) (s : State) : (pushEffect e s).tokens = s.tokens := by rw [pushEffect, State.mod_tokens]
@[simp] theorem pushEffect_arbiters (e : Effect) (s : State) : (pushEffect e s).arbiters = s.arbiters := by rw [pushEffect, State.mod_arbiters]
@[simp] theorem pushEffect_reports (e : Effect) (s : State) : (pushEffect e s).reports = s.reports := by rw [pushEffect, State.mod_reports]
@[simp] theorem pushEffect_pkglog (e : Effect) (s : State) : (pushEffect e s).pkglog = s.pkglog := by rw [pushEffect, State.mod_pkglog]
@[simp] theorem pushEffect_saffron (e : Effect) (s : State) : (pushEffect e s).saffron = s.saffron := by rw [pushEffect, State.mod_saffron]
@[simp] theorem pushEffect_phase (e : Effect) (s : State) : (pushEffect e s).phase = s.phase := by rw [pushEffect, State.mod_phase]
@[simp] theorem pushEffect_budget (e : Effect) (s : State) : (pushEffect e s).budget = s.budget := by rw [pushEffect, State.mod_budget]
@[simp] theorem pushEffect_links (e : Effect) (s : State) : (pushEffect e s).links = s.links := by rw [pushEffect, State.mod_links]
@[simp] theorem pushEffect_spdm (e : Effect) (s : State) : (pushEffect e s).spdm = s.spdm := by rw [pushEffect, State.mod_spdm]
@[simp] theorem pushEffect_resetting (e : Effect) (s : State) : (pushEffect e s).resetting = s.resetting := by rw [pushEffect, State.mod_resetting]
@[simp] theorem pushEffect_resetAt (e : Effect) (s : State) : (pushEffect e s).resetAt = s.resetAt := by rw [pushEffect, State.mod_resetAt]
@[simp] theorem pushEffect_retained (e : Effect) (s : State) : (pushEffect e s).retained = s.retained := by rw [pushEffect, State.mod_retained]
@[simp] theorem pushEffect_exiting (e : Effect) (s : State) : (pushEffect e s).exiting = s.exiting := by rw [pushEffect, State.mod_exiting]
@[simp] theorem pushEffect_used (e : Effect) (s : State) : (pushEffect e s).used = s.used := by rw [pushEffect, State.mod_used]
@[simp] theorem pushEffect_pending (e : Effect) (s : State) : (pushEffect e s).pending = s.pending := by rw [pushEffect, State.mod_pending]
@[simp] theorem pushEffect_input (e : Effect) (s : State) : (pushEffect e s).input = s.input := by rw [pushEffect, State.mod_input]
@[simp] theorem pushEffect_out (e : Effect) (s : State) : (pushEffect e s).out = s.out := by rw [pushEffect, State.mod_out]

/-! advance. -/

@[simp] theorem advance_parked (n : Nat) (s : State) : (advance n s).parked = s.parked := by rw [advance, State.modRegs_parked]
@[simp] theorem advance_agenda (n : Nat) (s : State) : (advance n s).agenda = s.agenda := by rw [advance, State.modRegs_agenda]
@[simp] theorem advance_fresh (n : Nat) (s : State) : (advance n s).fresh = s.fresh := by rw [advance, State.modRegs_fresh]
@[simp] theorem advance_clock (n : Nat) (s : State) : (advance n s).clock = s.clock := by rw [advance, State.modRegs_clock]
@[simp] theorem advance_nextId (n : Nat) (s : State) : (advance n s).nextId = s.nextId := by rw [advance, State.modRegs_nextId]
@[simp] theorem advance_mem (n : Nat) (s : State) : (advance n s).mem = s.mem := by rw [advance, State.modRegs_mem]
@[simp] theorem advance_poison (n : Nat) (s : State) : (advance n s).poison = s.poison := by rw [advance, State.modRegs_poison]
@[simp] theorem advance_padPoison (n : Nat) (s : State) : (advance n s).padPoison = s.padPoison := by rw [advance, State.modRegs_padPoison]
@[simp] theorem advance_bufPoison (n : Nat) (s : State) : (advance n s).bufPoison = s.bufPoison := by rw [advance, State.modRegs_bufPoison]
@[simp] theorem advance_faults (n : Nat) (s : State) : (advance n s).faults = s.faults := by rw [advance, State.modRegs_faults]
@[simp] theorem advance_sram (n : Nat) (s : State) : (advance n s).sram = s.sram := by rw [advance, State.modRegs_sram]
@[simp] theorem advance_host (n : Nat) (s : State) : (advance n s).host = s.host := by rw [advance, State.modRegs_host]
@[simp] theorem advance_sumac (n : Nat) (s : State) : (advance n s).sumac = s.sumac := by rw [advance, State.modRegs_sumac]
@[simp] theorem advance_homemap (n : Nat) (s : State) : (advance n s).homemap = s.homemap := by rw [advance, State.modRegs_homemap]
@[simp] theorem advance_got (n : Nat) (s : State) : (advance n s).got = s.got := by rw [advance, State.modRegs_got]
@[simp] theorem advance_srls (n : Nat) (s : State) : (advance n s).srls = s.srls := by rw [advance, State.modRegs_srls]
@[simp] theorem advance_seals (n : Nat) (s : State) : (advance n s).seals = s.seals := by rw [advance, State.modRegs_seals]
@[simp] theorem advance_memkeys (n : Nat) (s : State) : (advance n s).memkeys = s.memkeys := by rw [advance, State.modRegs_memkeys]
@[simp] theorem advance_mckeys (n : Nat) (s : State) : (advance n s).mckeys = s.mckeys := by rw [advance, State.modRegs_mckeys]
@[simp] theorem advance_vpages (n : Nat) (s : State) : (advance n s).vpages = s.vpages := by rw [advance, State.modRegs_vpages]
@[simp] theorem advance_versions (n : Nat) (s : State) : (advance n s).versions = s.versions := by rw [advance, State.modRegs_versions]
@[simp] theorem advance_dirty (n : Nat) (s : State) : (advance n s).dirty = s.dirty := by rw [advance, State.modRegs_dirty]
@[simp] theorem advance_heldx (n : Nat) (s : State) : (advance n s).heldx = s.heldx := by rw [advance, State.modRegs_heldx]
@[simp] theorem advance_tier1map (n : Nat) (s : State) : (advance n s).tier1map = s.tier1map := by rw [advance, State.modRegs_tier1map]
@[simp] theorem advance_parts (n : Nat) (s : State) : (advance n s).parts = s.parts := by rw [advance, State.modRegs_parts]
@[simp] theorem advance_releasing (n : Nat) (s : State) : (advance n s).releasing = s.releasing := by rw [advance, State.modRegs_releasing]
@[simp] theorem advance_suspended (n : Nat) (s : State) : (advance n s).suspended = s.suspended := by rw [advance, State.modRegs_suspended]
@[simp] theorem advance_queues (n : Nat) (s : State) : (advance n s).queues = s.queues := by rw [advance, State.modRegs_queues]
@[simp] theorem advance_selected (n : Nat) (s : State) : (advance n s).selected = s.selected := by rw [advance, State.modRegs_selected]
@[simp] theorem advance_caps (n : Nat) (s : State) : (advance n s).caps = s.caps := by rw [advance, State.modRegs_caps]
@[simp] theorem advance_clusters (n : Nat) (s : State) : (advance n s).clusters = s.clusters := by rw [advance, State.modRegs_clusters]
@[simp] theorem advance_cores (n : Nat) (s : State) : (advance n s).cores = s.cores := by rw [advance, State.modRegs_cores]
@[simp] theorem advance_net (n : Nat) (s : State) : (advance n s).net = s.net := by rw [advance, State.modRegs_net]
@[simp] theorem advance_queries (n : Nat) (s : State) : (advance n s).queries = s.queries := by rw [advance, State.modRegs_queries]
@[simp] theorem advance_returns (n : Nat) (s : State) : (advance n s).returns = s.returns := by rw [advance, State.modRegs_returns]
@[simp] theorem advance_codeCache (n : Nat) (s : State) : (advance n s).codeCache = s.codeCache := by rw [advance, State.modRegs_codeCache]
@[simp] theorem advance_tokens (n : Nat) (s : State) : (advance n s).tokens = s.tokens := by rw [advance, State.modRegs_tokens]
@[simp] theorem advance_arbiters (n : Nat) (s : State) : (advance n s).arbiters = s.arbiters := by rw [advance, State.modRegs_arbiters]
@[simp] theorem advance_reports (n : Nat) (s : State) : (advance n s).reports = s.reports := by rw [advance, State.modRegs_reports]
@[simp] theorem advance_pkglog (n : Nat) (s : State) : (advance n s).pkglog = s.pkglog := by rw [advance, State.modRegs_pkglog]
@[simp] theorem advance_saffron (n : Nat) (s : State) : (advance n s).saffron = s.saffron := by rw [advance, State.modRegs_saffron]
@[simp] theorem advance_phase (n : Nat) (s : State) : (advance n s).phase = s.phase := by rw [advance, State.modRegs_phase]
@[simp] theorem advance_budget (n : Nat) (s : State) : (advance n s).budget = s.budget := by rw [advance, State.modRegs_budget]
@[simp] theorem advance_links (n : Nat) (s : State) : (advance n s).links = s.links := by rw [advance, State.modRegs_links]
@[simp] theorem advance_spdm (n : Nat) (s : State) : (advance n s).spdm = s.spdm := by rw [advance, State.modRegs_spdm]
@[simp] theorem advance_resetting (n : Nat) (s : State) : (advance n s).resetting = s.resetting := by rw [advance, State.modRegs_resetting]
@[simp] theorem advance_resetAt (n : Nat) (s : State) : (advance n s).resetAt = s.resetAt := by rw [advance, State.modRegs_resetAt]
@[simp] theorem advance_retained (n : Nat) (s : State) : (advance n s).retained = s.retained := by rw [advance, State.modRegs_retained]
@[simp] theorem advance_exiting (n : Nat) (s : State) : (advance n s).exiting = s.exiting := by rw [advance, State.modRegs_exiting]
@[simp] theorem advance_used (n : Nat) (s : State) : (advance n s).used = s.used := by rw [advance, State.modRegs_used]
@[simp] theorem advance_pending (n : Nat) (s : State) : (advance n s).pending = s.pending := by rw [advance, State.modRegs_pending]
@[simp] theorem advance_input (n : Nat) (s : State) : (advance n s).input = s.input := by rw [advance, State.modRegs_input]
@[simp] theorem advance_out (n : Nat) (s : State) : (advance n s).out = s.out := by rw [advance, State.modRegs_out]

/-! countIssue. -/

@[simp] theorem countIssue_parked (s : State) : (countIssue s).parked = s.parked := by rw [countIssue]; split <;> simp only [State.mod_parked]
@[simp] theorem countIssue_agenda (s : State) : (countIssue s).agenda = s.agenda := by rw [countIssue]; split <;> simp only [State.mod_agenda]
@[simp] theorem countIssue_fresh (s : State) : (countIssue s).fresh = s.fresh := by rw [countIssue]; split <;> simp only [State.mod_fresh]
@[simp] theorem countIssue_clock (s : State) : (countIssue s).clock = s.clock := by rw [countIssue]; split <;> simp only [State.mod_clock]
@[simp] theorem countIssue_nextId (s : State) : (countIssue s).nextId = s.nextId := by rw [countIssue]; split <;> simp only [State.mod_nextId]
@[simp] theorem countIssue_mem (s : State) : (countIssue s).mem = s.mem := by rw [countIssue]; split <;> simp only [State.mod_mem]
@[simp] theorem countIssue_poison (s : State) : (countIssue s).poison = s.poison := by rw [countIssue]; split <;> simp only [State.mod_poison]
@[simp] theorem countIssue_padPoison (s : State) : (countIssue s).padPoison = s.padPoison := by rw [countIssue]; split <;> simp only [State.mod_padPoison]
@[simp] theorem countIssue_bufPoison (s : State) : (countIssue s).bufPoison = s.bufPoison := by rw [countIssue]; split <;> simp only [State.mod_bufPoison]
@[simp] theorem countIssue_faults (s : State) : (countIssue s).faults = s.faults := by rw [countIssue]; split <;> simp only [State.mod_faults]
@[simp] theorem countIssue_sram (s : State) : (countIssue s).sram = s.sram := by rw [countIssue]; split <;> simp only [State.mod_sram]
@[simp] theorem countIssue_host (s : State) : (countIssue s).host = s.host := by rw [countIssue]; split <;> simp only [State.mod_host]
@[simp] theorem countIssue_sumac (s : State) : (countIssue s).sumac = s.sumac := by rw [countIssue]; split <;> simp only [State.mod_sumac]
@[simp] theorem countIssue_homemap (s : State) : (countIssue s).homemap = s.homemap := by rw [countIssue]; split <;> simp only [State.mod_homemap]
@[simp] theorem countIssue_got (s : State) : (countIssue s).got = s.got := by rw [countIssue]; split <;> simp only [State.mod_got]
@[simp] theorem countIssue_srls (s : State) : (countIssue s).srls = s.srls := by rw [countIssue]; split <;> simp only [State.mod_srls]
@[simp] theorem countIssue_seals (s : State) : (countIssue s).seals = s.seals := by rw [countIssue]; split <;> simp only [State.mod_seals]
@[simp] theorem countIssue_memkeys (s : State) : (countIssue s).memkeys = s.memkeys := by rw [countIssue]; split <;> simp only [State.mod_memkeys]
@[simp] theorem countIssue_mckeys (s : State) : (countIssue s).mckeys = s.mckeys := by rw [countIssue]; split <;> simp only [State.mod_mckeys]
@[simp] theorem countIssue_vpages (s : State) : (countIssue s).vpages = s.vpages := by rw [countIssue]; split <;> simp only [State.mod_vpages]
@[simp] theorem countIssue_versions (s : State) : (countIssue s).versions = s.versions := by rw [countIssue]; split <;> simp only [State.mod_versions]
@[simp] theorem countIssue_dirty (s : State) : (countIssue s).dirty = s.dirty := by rw [countIssue]; split <;> simp only [State.mod_dirty]
@[simp] theorem countIssue_heldx (s : State) : (countIssue s).heldx = s.heldx := by rw [countIssue]; split <;> simp only [State.mod_heldx]
@[simp] theorem countIssue_tier1map (s : State) : (countIssue s).tier1map = s.tier1map := by rw [countIssue]; split <;> simp only [State.mod_tier1map]
@[simp] theorem countIssue_parts (s : State) : (countIssue s).parts = s.parts := by rw [countIssue]; split <;> simp only [State.mod_parts]
@[simp] theorem countIssue_releasing (s : State) : (countIssue s).releasing = s.releasing := by rw [countIssue]; split <;> simp only [State.mod_releasing]
@[simp] theorem countIssue_suspended (s : State) : (countIssue s).suspended = s.suspended := by rw [countIssue]; split <;> simp only [State.mod_suspended]
@[simp] theorem countIssue_queues (s : State) : (countIssue s).queues = s.queues := by rw [countIssue]; split <;> simp only [State.mod_queues]
@[simp] theorem countIssue_selected (s : State) : (countIssue s).selected = s.selected := by rw [countIssue]; split <;> simp only [State.mod_selected]
@[simp] theorem countIssue_caps (s : State) : (countIssue s).caps = s.caps := by rw [countIssue]; split <;> simp only [State.mod_caps]
@[simp] theorem countIssue_clusters (s : State) : (countIssue s).clusters = s.clusters := by rw [countIssue]; split <;> simp only [State.mod_clusters]
@[simp] theorem countIssue_cores (s : State) : (countIssue s).cores = s.cores := by rw [countIssue]; split <;> simp only [State.mod_cores]
@[simp] theorem countIssue_net (s : State) : (countIssue s).net = s.net := by rw [countIssue]; split <;> simp only [State.mod_net]
@[simp] theorem countIssue_queries (s : State) : (countIssue s).queries = s.queries := by rw [countIssue]; split <;> simp only [State.mod_queries]
@[simp] theorem countIssue_returns (s : State) : (countIssue s).returns = s.returns := by rw [countIssue]; split <;> simp only [State.mod_returns]
@[simp] theorem countIssue_codeCache (s : State) : (countIssue s).codeCache = s.codeCache := by rw [countIssue]; split <;> simp only [State.mod_codeCache]
@[simp] theorem countIssue_tokens (s : State) : (countIssue s).tokens = s.tokens := by rw [countIssue]; split <;> simp only [State.mod_tokens]
@[simp] theorem countIssue_arbiters (s : State) : (countIssue s).arbiters = s.arbiters := by rw [countIssue]; split <;> simp only [State.mod_arbiters]
@[simp] theorem countIssue_reports (s : State) : (countIssue s).reports = s.reports := by rw [countIssue]; split <;> simp only [State.mod_reports]
@[simp] theorem countIssue_pkglog (s : State) : (countIssue s).pkglog = s.pkglog := by rw [countIssue]; split <;> simp only [State.mod_pkglog]
@[simp] theorem countIssue_saffron (s : State) : (countIssue s).saffron = s.saffron := by rw [countIssue]; split <;> simp only [State.mod_saffron]
@[simp] theorem countIssue_phase (s : State) : (countIssue s).phase = s.phase := by rw [countIssue]; split <;> simp only [State.mod_phase]
@[simp] theorem countIssue_budget (s : State) : (countIssue s).budget = s.budget := by rw [countIssue]; split <;> simp only [State.mod_budget]
@[simp] theorem countIssue_links (s : State) : (countIssue s).links = s.links := by rw [countIssue]; split <;> simp only [State.mod_links]
@[simp] theorem countIssue_spdm (s : State) : (countIssue s).spdm = s.spdm := by rw [countIssue]; split <;> simp only [State.mod_spdm]
@[simp] theorem countIssue_resetting (s : State) : (countIssue s).resetting = s.resetting := by rw [countIssue]; split <;> simp only [State.mod_resetting]
@[simp] theorem countIssue_resetAt (s : State) : (countIssue s).resetAt = s.resetAt := by rw [countIssue]; split <;> simp only [State.mod_resetAt]
@[simp] theorem countIssue_retained (s : State) : (countIssue s).retained = s.retained := by rw [countIssue]; split <;> simp only [State.mod_retained]
@[simp] theorem countIssue_exiting (s : State) : (countIssue s).exiting = s.exiting := by rw [countIssue]; split <;> simp only [State.mod_exiting]
@[simp] theorem countIssue_used (s : State) : (countIssue s).used = s.used := by rw [countIssue]; split <;> simp only [State.mod_used]
@[simp] theorem countIssue_pending (s : State) : (countIssue s).pending = s.pending := by rw [countIssue]; split <;> simp only [State.mod_pending]
@[simp] theorem countIssue_input (s : State) : (countIssue s).input = s.input := by rw [countIssue]; split <;> simp only [State.mod_input]
@[simp] theorem countIssue_out (s : State) : (countIssue s).out = s.out := by rw [countIssue]; split <;> simp only [State.mod_out]

/-! wake. -/

@[simp] theorem wake_parked (s : State) : (wake s).parked = s.parked := by rw [wake]; split <;> simp only [State.mod_parked]
@[simp] theorem wake_agenda (s : State) : (wake s).agenda = s.agenda := by rw [wake]; split <;> simp only [State.mod_agenda]
@[simp] theorem wake_fresh (s : State) : (wake s).fresh = s.fresh := by rw [wake]; split <;> simp only [State.mod_fresh]
@[simp] theorem wake_clock (s : State) : (wake s).clock = s.clock := by rw [wake]; split <;> simp only [State.mod_clock]
@[simp] theorem wake_nextId (s : State) : (wake s).nextId = s.nextId := by rw [wake]; split <;> simp only [State.mod_nextId]
@[simp] theorem wake_mem (s : State) : (wake s).mem = s.mem := by rw [wake]; split <;> simp only [State.mod_mem]
@[simp] theorem wake_poison (s : State) : (wake s).poison = s.poison := by rw [wake]; split <;> simp only [State.mod_poison]
@[simp] theorem wake_padPoison (s : State) : (wake s).padPoison = s.padPoison := by rw [wake]; split <;> simp only [State.mod_padPoison]
@[simp] theorem wake_bufPoison (s : State) : (wake s).bufPoison = s.bufPoison := by rw [wake]; split <;> simp only [State.mod_bufPoison]
@[simp] theorem wake_faults (s : State) : (wake s).faults = s.faults := by rw [wake]; split <;> simp only [State.mod_faults]
@[simp] theorem wake_sram (s : State) : (wake s).sram = s.sram := by rw [wake]; split <;> simp only [State.mod_sram]
@[simp] theorem wake_host (s : State) : (wake s).host = s.host := by rw [wake]; split <;> simp only [State.mod_host]
@[simp] theorem wake_sumac (s : State) : (wake s).sumac = s.sumac := by rw [wake]; split <;> simp only [State.mod_sumac]
@[simp] theorem wake_homemap (s : State) : (wake s).homemap = s.homemap := by rw [wake]; split <;> simp only [State.mod_homemap]
@[simp] theorem wake_got (s : State) : (wake s).got = s.got := by rw [wake]; split <;> simp only [State.mod_got]
@[simp] theorem wake_srls (s : State) : (wake s).srls = s.srls := by rw [wake]; split <;> simp only [State.mod_srls]
@[simp] theorem wake_seals (s : State) : (wake s).seals = s.seals := by rw [wake]; split <;> simp only [State.mod_seals]
@[simp] theorem wake_memkeys (s : State) : (wake s).memkeys = s.memkeys := by rw [wake]; split <;> simp only [State.mod_memkeys]
@[simp] theorem wake_mckeys (s : State) : (wake s).mckeys = s.mckeys := by rw [wake]; split <;> simp only [State.mod_mckeys]
@[simp] theorem wake_vpages (s : State) : (wake s).vpages = s.vpages := by rw [wake]; split <;> simp only [State.mod_vpages]
@[simp] theorem wake_versions (s : State) : (wake s).versions = s.versions := by rw [wake]; split <;> simp only [State.mod_versions]
@[simp] theorem wake_dirty (s : State) : (wake s).dirty = s.dirty := by rw [wake]; split <;> simp only [State.mod_dirty]
@[simp] theorem wake_heldx (s : State) : (wake s).heldx = s.heldx := by rw [wake]; split <;> simp only [State.mod_heldx]
@[simp] theorem wake_tier1map (s : State) : (wake s).tier1map = s.tier1map := by rw [wake]; split <;> simp only [State.mod_tier1map]
@[simp] theorem wake_parts (s : State) : (wake s).parts = s.parts := by rw [wake]; split <;> simp only [State.mod_parts]
@[simp] theorem wake_releasing (s : State) : (wake s).releasing = s.releasing := by rw [wake]; split <;> simp only [State.mod_releasing]
@[simp] theorem wake_suspended (s : State) : (wake s).suspended = s.suspended := by rw [wake]; split <;> simp only [State.mod_suspended]
@[simp] theorem wake_queues (s : State) : (wake s).queues = s.queues := by rw [wake]; split <;> simp only [State.mod_queues]
@[simp] theorem wake_selected (s : State) : (wake s).selected = s.selected := by rw [wake]; split <;> simp only [State.mod_selected]
@[simp] theorem wake_caps (s : State) : (wake s).caps = s.caps := by rw [wake]; split <;> simp only [State.mod_caps]
@[simp] theorem wake_clusters (s : State) : (wake s).clusters = s.clusters := by rw [wake]; split <;> simp only [State.mod_clusters]
@[simp] theorem wake_cores (s : State) : (wake s).cores = s.cores := by rw [wake]; split <;> simp only [State.mod_cores]
@[simp] theorem wake_net (s : State) : (wake s).net = s.net := by rw [wake]; split <;> simp only [State.mod_net]
@[simp] theorem wake_queries (s : State) : (wake s).queries = s.queries := by rw [wake]; split <;> simp only [State.mod_queries]
@[simp] theorem wake_returns (s : State) : (wake s).returns = s.returns := by rw [wake]; split <;> simp only [State.mod_returns]
@[simp] theorem wake_codeCache (s : State) : (wake s).codeCache = s.codeCache := by rw [wake]; split <;> simp only [State.mod_codeCache]
@[simp] theorem wake_tokens (s : State) : (wake s).tokens = s.tokens := by rw [wake]; split <;> simp only [State.mod_tokens]
@[simp] theorem wake_arbiters (s : State) : (wake s).arbiters = s.arbiters := by rw [wake]; split <;> simp only [State.mod_arbiters]
@[simp] theorem wake_reports (s : State) : (wake s).reports = s.reports := by rw [wake]; split <;> simp only [State.mod_reports]
@[simp] theorem wake_pkglog (s : State) : (wake s).pkglog = s.pkglog := by rw [wake]; split <;> simp only [State.mod_pkglog]
@[simp] theorem wake_saffron (s : State) : (wake s).saffron = s.saffron := by rw [wake]; split <;> simp only [State.mod_saffron]
@[simp] theorem wake_phase (s : State) : (wake s).phase = s.phase := by rw [wake]; split <;> simp only [State.mod_phase]
@[simp] theorem wake_budget (s : State) : (wake s).budget = s.budget := by rw [wake]; split <;> simp only [State.mod_budget]
@[simp] theorem wake_links (s : State) : (wake s).links = s.links := by rw [wake]; split <;> simp only [State.mod_links]
@[simp] theorem wake_spdm (s : State) : (wake s).spdm = s.spdm := by rw [wake]; split <;> simp only [State.mod_spdm]
@[simp] theorem wake_resetting (s : State) : (wake s).resetting = s.resetting := by rw [wake]; split <;> simp only [State.mod_resetting]
@[simp] theorem wake_resetAt (s : State) : (wake s).resetAt = s.resetAt := by rw [wake]; split <;> simp only [State.mod_resetAt]
@[simp] theorem wake_retained (s : State) : (wake s).retained = s.retained := by rw [wake]; split <;> simp only [State.mod_retained]
@[simp] theorem wake_exiting (s : State) : (wake s).exiting = s.exiting := by rw [wake]; split <;> simp only [State.mod_exiting]
@[simp] theorem wake_used (s : State) : (wake s).used = s.used := by rw [wake]; split <;> simp only [State.mod_used]
@[simp] theorem wake_pending (s : State) : (wake s).pending = s.pending := by rw [wake]; split <;> simp only [State.mod_pending]
@[simp] theorem wake_input (s : State) : (wake s).input = s.input := by rw [wake]; split <;> simp only [State.mod_input]
@[simp] theorem wake_out (s : State) : (wake s).out = s.out := by rw [wake]; split <;> simp only [State.mod_out]

/-! block. -/

@[simp] theorem block_parked (w : Wait) (s : State) : (block w s).parked = s.parked := by rw [block, State.mod_parked]
@[simp] theorem block_agenda (w : Wait) (s : State) : (block w s).agenda = s.agenda := by rw [block, State.mod_agenda]
@[simp] theorem block_fresh (w : Wait) (s : State) : (block w s).fresh = s.fresh := by rw [block, State.mod_fresh]
@[simp] theorem block_clock (w : Wait) (s : State) : (block w s).clock = s.clock := by rw [block, State.mod_clock]
@[simp] theorem block_nextId (w : Wait) (s : State) : (block w s).nextId = s.nextId := by rw [block, State.mod_nextId]
@[simp] theorem block_mem (w : Wait) (s : State) : (block w s).mem = s.mem := by rw [block, State.mod_mem]
@[simp] theorem block_poison (w : Wait) (s : State) : (block w s).poison = s.poison := by rw [block, State.mod_poison]
@[simp] theorem block_padPoison (w : Wait) (s : State) : (block w s).padPoison = s.padPoison := by rw [block, State.mod_padPoison]
@[simp] theorem block_bufPoison (w : Wait) (s : State) : (block w s).bufPoison = s.bufPoison := by rw [block, State.mod_bufPoison]
@[simp] theorem block_faults (w : Wait) (s : State) : (block w s).faults = s.faults := by rw [block, State.mod_faults]
@[simp] theorem block_sram (w : Wait) (s : State) : (block w s).sram = s.sram := by rw [block, State.mod_sram]
@[simp] theorem block_host (w : Wait) (s : State) : (block w s).host = s.host := by rw [block, State.mod_host]
@[simp] theorem block_sumac (w : Wait) (s : State) : (block w s).sumac = s.sumac := by rw [block, State.mod_sumac]
@[simp] theorem block_homemap (w : Wait) (s : State) : (block w s).homemap = s.homemap := by rw [block, State.mod_homemap]
@[simp] theorem block_got (w : Wait) (s : State) : (block w s).got = s.got := by rw [block, State.mod_got]
@[simp] theorem block_srls (w : Wait) (s : State) : (block w s).srls = s.srls := by rw [block, State.mod_srls]
@[simp] theorem block_seals (w : Wait) (s : State) : (block w s).seals = s.seals := by rw [block, State.mod_seals]
@[simp] theorem block_memkeys (w : Wait) (s : State) : (block w s).memkeys = s.memkeys := by rw [block, State.mod_memkeys]
@[simp] theorem block_mckeys (w : Wait) (s : State) : (block w s).mckeys = s.mckeys := by rw [block, State.mod_mckeys]
@[simp] theorem block_vpages (w : Wait) (s : State) : (block w s).vpages = s.vpages := by rw [block, State.mod_vpages]
@[simp] theorem block_versions (w : Wait) (s : State) : (block w s).versions = s.versions := by rw [block, State.mod_versions]
@[simp] theorem block_dirty (w : Wait) (s : State) : (block w s).dirty = s.dirty := by rw [block, State.mod_dirty]
@[simp] theorem block_heldx (w : Wait) (s : State) : (block w s).heldx = s.heldx := by rw [block, State.mod_heldx]
@[simp] theorem block_tier1map (w : Wait) (s : State) : (block w s).tier1map = s.tier1map := by rw [block, State.mod_tier1map]
@[simp] theorem block_parts (w : Wait) (s : State) : (block w s).parts = s.parts := by rw [block, State.mod_parts]
@[simp] theorem block_releasing (w : Wait) (s : State) : (block w s).releasing = s.releasing := by rw [block, State.mod_releasing]
@[simp] theorem block_suspended (w : Wait) (s : State) : (block w s).suspended = s.suspended := by rw [block, State.mod_suspended]
@[simp] theorem block_queues (w : Wait) (s : State) : (block w s).queues = s.queues := by rw [block, State.mod_queues]
@[simp] theorem block_selected (w : Wait) (s : State) : (block w s).selected = s.selected := by rw [block, State.mod_selected]
@[simp] theorem block_caps (w : Wait) (s : State) : (block w s).caps = s.caps := by rw [block, State.mod_caps]
@[simp] theorem block_clusters (w : Wait) (s : State) : (block w s).clusters = s.clusters := by rw [block, State.mod_clusters]
@[simp] theorem block_cores (w : Wait) (s : State) : (block w s).cores = s.cores := by rw [block, State.mod_cores]
@[simp] theorem block_net (w : Wait) (s : State) : (block w s).net = s.net := by rw [block, State.mod_net]
@[simp] theorem block_queries (w : Wait) (s : State) : (block w s).queries = s.queries := by rw [block, State.mod_queries]
@[simp] theorem block_returns (w : Wait) (s : State) : (block w s).returns = s.returns := by rw [block, State.mod_returns]
@[simp] theorem block_codeCache (w : Wait) (s : State) : (block w s).codeCache = s.codeCache := by rw [block, State.mod_codeCache]
@[simp] theorem block_tokens (w : Wait) (s : State) : (block w s).tokens = s.tokens := by rw [block, State.mod_tokens]
@[simp] theorem block_arbiters (w : Wait) (s : State) : (block w s).arbiters = s.arbiters := by rw [block, State.mod_arbiters]
@[simp] theorem block_reports (w : Wait) (s : State) : (block w s).reports = s.reports := by rw [block, State.mod_reports]
@[simp] theorem block_pkglog (w : Wait) (s : State) : (block w s).pkglog = s.pkglog := by rw [block, State.mod_pkglog]
@[simp] theorem block_saffron (w : Wait) (s : State) : (block w s).saffron = s.saffron := by rw [block, State.mod_saffron]
@[simp] theorem block_phase (w : Wait) (s : State) : (block w s).phase = s.phase := by rw [block, State.mod_phase]
@[simp] theorem block_budget (w : Wait) (s : State) : (block w s).budget = s.budget := by rw [block, State.mod_budget]
@[simp] theorem block_links (w : Wait) (s : State) : (block w s).links = s.links := by rw [block, State.mod_links]
@[simp] theorem block_spdm (w : Wait) (s : State) : (block w s).spdm = s.spdm := by rw [block, State.mod_spdm]
@[simp] theorem block_resetting (w : Wait) (s : State) : (block w s).resetting = s.resetting := by rw [block, State.mod_resetting]
@[simp] theorem block_resetAt (w : Wait) (s : State) : (block w s).resetAt = s.resetAt := by rw [block, State.mod_resetAt]
@[simp] theorem block_retained (w : Wait) (s : State) : (block w s).retained = s.retained := by rw [block, State.mod_retained]
@[simp] theorem block_exiting (w : Wait) (s : State) : (block w s).exiting = s.exiting := by rw [block, State.mod_exiting]
@[simp] theorem block_used (w : Wait) (s : State) : (block w s).used = s.used := by rw [block, State.mod_used]
@[simp] theorem block_pending (w : Wait) (s : State) : (block w s).pending = s.pending := by rw [block, State.mod_pending]
@[simp] theorem block_input (w : Wait) (s : State) : (block w s).input = s.input := by rw [block, State.mod_input]
@[simp] theorem block_out (w : Wait) (s : State) : (block w s).out = s.out := by rw [block, State.mod_out]

/-! setPc. -/

@[simp] theorem setPc_parked (p : Word) (s : State) : (setPc p s).parked = s.parked := by rw [setPc, State.modRegs_parked]
@[simp] theorem setPc_agenda (p : Word) (s : State) : (setPc p s).agenda = s.agenda := by rw [setPc, State.modRegs_agenda]
@[simp] theorem setPc_fresh (p : Word) (s : State) : (setPc p s).fresh = s.fresh := by rw [setPc, State.modRegs_fresh]
@[simp] theorem setPc_clock (p : Word) (s : State) : (setPc p s).clock = s.clock := by rw [setPc, State.modRegs_clock]
@[simp] theorem setPc_nextId (p : Word) (s : State) : (setPc p s).nextId = s.nextId := by rw [setPc, State.modRegs_nextId]
@[simp] theorem setPc_mem (p : Word) (s : State) : (setPc p s).mem = s.mem := by rw [setPc, State.modRegs_mem]
@[simp] theorem setPc_poison (p : Word) (s : State) : (setPc p s).poison = s.poison := by rw [setPc, State.modRegs_poison]
@[simp] theorem setPc_padPoison (p : Word) (s : State) : (setPc p s).padPoison = s.padPoison := by rw [setPc, State.modRegs_padPoison]
@[simp] theorem setPc_bufPoison (p : Word) (s : State) : (setPc p s).bufPoison = s.bufPoison := by rw [setPc, State.modRegs_bufPoison]
@[simp] theorem setPc_faults (p : Word) (s : State) : (setPc p s).faults = s.faults := by rw [setPc, State.modRegs_faults]
@[simp] theorem setPc_sram (p : Word) (s : State) : (setPc p s).sram = s.sram := by rw [setPc, State.modRegs_sram]
@[simp] theorem setPc_host (p : Word) (s : State) : (setPc p s).host = s.host := by rw [setPc, State.modRegs_host]
@[simp] theorem setPc_sumac (p : Word) (s : State) : (setPc p s).sumac = s.sumac := by rw [setPc, State.modRegs_sumac]
@[simp] theorem setPc_homemap (p : Word) (s : State) : (setPc p s).homemap = s.homemap := by rw [setPc, State.modRegs_homemap]
@[simp] theorem setPc_got (p : Word) (s : State) : (setPc p s).got = s.got := by rw [setPc, State.modRegs_got]
@[simp] theorem setPc_srls (p : Word) (s : State) : (setPc p s).srls = s.srls := by rw [setPc, State.modRegs_srls]
@[simp] theorem setPc_seals (p : Word) (s : State) : (setPc p s).seals = s.seals := by rw [setPc, State.modRegs_seals]
@[simp] theorem setPc_memkeys (p : Word) (s : State) : (setPc p s).memkeys = s.memkeys := by rw [setPc, State.modRegs_memkeys]
@[simp] theorem setPc_mckeys (p : Word) (s : State) : (setPc p s).mckeys = s.mckeys := by rw [setPc, State.modRegs_mckeys]
@[simp] theorem setPc_vpages (p : Word) (s : State) : (setPc p s).vpages = s.vpages := by rw [setPc, State.modRegs_vpages]
@[simp] theorem setPc_versions (p : Word) (s : State) : (setPc p s).versions = s.versions := by rw [setPc, State.modRegs_versions]
@[simp] theorem setPc_dirty (p : Word) (s : State) : (setPc p s).dirty = s.dirty := by rw [setPc, State.modRegs_dirty]
@[simp] theorem setPc_heldx (p : Word) (s : State) : (setPc p s).heldx = s.heldx := by rw [setPc, State.modRegs_heldx]
@[simp] theorem setPc_tier1map (p : Word) (s : State) : (setPc p s).tier1map = s.tier1map := by rw [setPc, State.modRegs_tier1map]
@[simp] theorem setPc_parts (p : Word) (s : State) : (setPc p s).parts = s.parts := by rw [setPc, State.modRegs_parts]
@[simp] theorem setPc_releasing (p : Word) (s : State) : (setPc p s).releasing = s.releasing := by rw [setPc, State.modRegs_releasing]
@[simp] theorem setPc_suspended (p : Word) (s : State) : (setPc p s).suspended = s.suspended := by rw [setPc, State.modRegs_suspended]
@[simp] theorem setPc_queues (p : Word) (s : State) : (setPc p s).queues = s.queues := by rw [setPc, State.modRegs_queues]
@[simp] theorem setPc_selected (p : Word) (s : State) : (setPc p s).selected = s.selected := by rw [setPc, State.modRegs_selected]
@[simp] theorem setPc_caps (p : Word) (s : State) : (setPc p s).caps = s.caps := by rw [setPc, State.modRegs_caps]
@[simp] theorem setPc_clusters (p : Word) (s : State) : (setPc p s).clusters = s.clusters := by rw [setPc, State.modRegs_clusters]
@[simp] theorem setPc_cores (p : Word) (s : State) : (setPc p s).cores = s.cores := by rw [setPc, State.modRegs_cores]
@[simp] theorem setPc_net (p : Word) (s : State) : (setPc p s).net = s.net := by rw [setPc, State.modRegs_net]
@[simp] theorem setPc_queries (p : Word) (s : State) : (setPc p s).queries = s.queries := by rw [setPc, State.modRegs_queries]
@[simp] theorem setPc_returns (p : Word) (s : State) : (setPc p s).returns = s.returns := by rw [setPc, State.modRegs_returns]
@[simp] theorem setPc_codeCache (p : Word) (s : State) : (setPc p s).codeCache = s.codeCache := by rw [setPc, State.modRegs_codeCache]
@[simp] theorem setPc_tokens (p : Word) (s : State) : (setPc p s).tokens = s.tokens := by rw [setPc, State.modRegs_tokens]
@[simp] theorem setPc_arbiters (p : Word) (s : State) : (setPc p s).arbiters = s.arbiters := by rw [setPc, State.modRegs_arbiters]
@[simp] theorem setPc_reports (p : Word) (s : State) : (setPc p s).reports = s.reports := by rw [setPc, State.modRegs_reports]
@[simp] theorem setPc_pkglog (p : Word) (s : State) : (setPc p s).pkglog = s.pkglog := by rw [setPc, State.modRegs_pkglog]
@[simp] theorem setPc_saffron (p : Word) (s : State) : (setPc p s).saffron = s.saffron := by rw [setPc, State.modRegs_saffron]
@[simp] theorem setPc_phase (p : Word) (s : State) : (setPc p s).phase = s.phase := by rw [setPc, State.modRegs_phase]
@[simp] theorem setPc_budget (p : Word) (s : State) : (setPc p s).budget = s.budget := by rw [setPc, State.modRegs_budget]
@[simp] theorem setPc_links (p : Word) (s : State) : (setPc p s).links = s.links := by rw [setPc, State.modRegs_links]
@[simp] theorem setPc_spdm (p : Word) (s : State) : (setPc p s).spdm = s.spdm := by rw [setPc, State.modRegs_spdm]
@[simp] theorem setPc_resetting (p : Word) (s : State) : (setPc p s).resetting = s.resetting := by rw [setPc, State.modRegs_resetting]
@[simp] theorem setPc_resetAt (p : Word) (s : State) : (setPc p s).resetAt = s.resetAt := by rw [setPc, State.modRegs_resetAt]
@[simp] theorem setPc_retained (p : Word) (s : State) : (setPc p s).retained = s.retained := by rw [setPc, State.modRegs_retained]
@[simp] theorem setPc_exiting (p : Word) (s : State) : (setPc p s).exiting = s.exiting := by rw [setPc, State.modRegs_exiting]
@[simp] theorem setPc_used (p : Word) (s : State) : (setPc p s).used = s.used := by rw [setPc, State.modRegs_used]
@[simp] theorem setPc_pending (p : Word) (s : State) : (setPc p s).pending = s.pending := by rw [setPc, State.modRegs_pending]
@[simp] theorem setPc_input (p : Word) (s : State) : (setPc p s).input = s.input := by rw [setPc, State.modRegs_input]
@[simp] theorem setPc_out (p : Word) (s : State) : (setPc p s).out = s.out := by rw [setPc, State.modRegs_out]

/-! State.free. -/

@[simp] theorem State.free_hart (s : State) : (s.free.2).hart = s.hart := rfl
@[simp] theorem State.free_parked (s : State) : (s.free.2).parked = s.parked := rfl
@[simp] theorem State.free_agenda (s : State) : (s.free.2).agenda = s.agenda := rfl
@[simp] theorem State.free_clock (s : State) : (s.free.2).clock = s.clock := rfl
@[simp] theorem State.free_nextId (s : State) : (s.free.2).nextId = s.nextId := rfl
@[simp] theorem State.free_mem (s : State) : (s.free.2).mem = s.mem := rfl
@[simp] theorem State.free_poison (s : State) : (s.free.2).poison = s.poison := rfl
@[simp] theorem State.free_padPoison (s : State) : (s.free.2).padPoison = s.padPoison := rfl
@[simp] theorem State.free_bufPoison (s : State) : (s.free.2).bufPoison = s.bufPoison := rfl
@[simp] theorem State.free_faults (s : State) : (s.free.2).faults = s.faults := rfl
@[simp] theorem State.free_sram (s : State) : (s.free.2).sram = s.sram := rfl
@[simp] theorem State.free_host (s : State) : (s.free.2).host = s.host := rfl
@[simp] theorem State.free_sumac (s : State) : (s.free.2).sumac = s.sumac := rfl
@[simp] theorem State.free_homemap (s : State) : (s.free.2).homemap = s.homemap := rfl
@[simp] theorem State.free_got (s : State) : (s.free.2).got = s.got := rfl
@[simp] theorem State.free_srls (s : State) : (s.free.2).srls = s.srls := rfl
@[simp] theorem State.free_seals (s : State) : (s.free.2).seals = s.seals := rfl
@[simp] theorem State.free_memkeys (s : State) : (s.free.2).memkeys = s.memkeys := rfl
@[simp] theorem State.free_mckeys (s : State) : (s.free.2).mckeys = s.mckeys := rfl
@[simp] theorem State.free_vpages (s : State) : (s.free.2).vpages = s.vpages := rfl
@[simp] theorem State.free_versions (s : State) : (s.free.2).versions = s.versions := rfl
@[simp] theorem State.free_dirty (s : State) : (s.free.2).dirty = s.dirty := rfl
@[simp] theorem State.free_heldx (s : State) : (s.free.2).heldx = s.heldx := rfl
@[simp] theorem State.free_tier1map (s : State) : (s.free.2).tier1map = s.tier1map := rfl
@[simp] theorem State.free_parts (s : State) : (s.free.2).parts = s.parts := rfl
@[simp] theorem State.free_releasing (s : State) : (s.free.2).releasing = s.releasing := rfl
@[simp] theorem State.free_suspended (s : State) : (s.free.2).suspended = s.suspended := rfl
@[simp] theorem State.free_queues (s : State) : (s.free.2).queues = s.queues := rfl
@[simp] theorem State.free_selected (s : State) : (s.free.2).selected = s.selected := rfl
@[simp] theorem State.free_caps (s : State) : (s.free.2).caps = s.caps := rfl
@[simp] theorem State.free_clusters (s : State) : (s.free.2).clusters = s.clusters := rfl
@[simp] theorem State.free_cores (s : State) : (s.free.2).cores = s.cores := rfl
@[simp] theorem State.free_net (s : State) : (s.free.2).net = s.net := rfl
@[simp] theorem State.free_queries (s : State) : (s.free.2).queries = s.queries := rfl
@[simp] theorem State.free_returns (s : State) : (s.free.2).returns = s.returns := rfl
@[simp] theorem State.free_codeCache (s : State) : (s.free.2).codeCache = s.codeCache := rfl
@[simp] theorem State.free_tokens (s : State) : (s.free.2).tokens = s.tokens := rfl
@[simp] theorem State.free_arbiters (s : State) : (s.free.2).arbiters = s.arbiters := rfl
@[simp] theorem State.free_reports (s : State) : (s.free.2).reports = s.reports := rfl
@[simp] theorem State.free_pkglog (s : State) : (s.free.2).pkglog = s.pkglog := rfl
@[simp] theorem State.free_saffron (s : State) : (s.free.2).saffron = s.saffron := rfl
@[simp] theorem State.free_phase (s : State) : (s.free.2).phase = s.phase := rfl
@[simp] theorem State.free_budget (s : State) : (s.free.2).budget = s.budget := rfl
@[simp] theorem State.free_links (s : State) : (s.free.2).links = s.links := rfl
@[simp] theorem State.free_spdm (s : State) : (s.free.2).spdm = s.spdm := rfl
@[simp] theorem State.free_resetting (s : State) : (s.free.2).resetting = s.resetting := rfl
@[simp] theorem State.free_resetAt (s : State) : (s.free.2).resetAt = s.resetAt := rfl
@[simp] theorem State.free_retained (s : State) : (s.free.2).retained = s.retained := rfl
@[simp] theorem State.free_exiting (s : State) : (s.free.2).exiting = s.exiting := rfl
@[simp] theorem State.free_used (s : State) : (s.free.2).used = s.used := rfl
@[simp] theorem State.free_pending (s : State) : (s.free.2).pending = s.pending := rfl
@[simp] theorem State.free_input (s : State) : (s.free.2).input = s.input := rfl
@[simp] theorem State.free_out (s : State) : (s.free.2).out = s.out := rfl

/-! State.emit. -/

@[simp] theorem State.emit_hart (o : Out) (s : State) : (s.emit o).hart = s.hart := rfl
@[simp] theorem State.emit_parked (o : Out) (s : State) : (s.emit o).parked = s.parked := rfl
@[simp] theorem State.emit_agenda (o : Out) (s : State) : (s.emit o).agenda = s.agenda := rfl
@[simp] theorem State.emit_fresh (o : Out) (s : State) : (s.emit o).fresh = s.fresh := rfl
@[simp] theorem State.emit_clock (o : Out) (s : State) : (s.emit o).clock = s.clock := rfl
@[simp] theorem State.emit_nextId (o : Out) (s : State) : (s.emit o).nextId = s.nextId := rfl
@[simp] theorem State.emit_mem (o : Out) (s : State) : (s.emit o).mem = s.mem := rfl
@[simp] theorem State.emit_poison (o : Out) (s : State) : (s.emit o).poison = s.poison := rfl
@[simp] theorem State.emit_padPoison (o : Out) (s : State) : (s.emit o).padPoison = s.padPoison := rfl
@[simp] theorem State.emit_bufPoison (o : Out) (s : State) : (s.emit o).bufPoison = s.bufPoison := rfl
@[simp] theorem State.emit_faults (o : Out) (s : State) : (s.emit o).faults = s.faults := rfl
@[simp] theorem State.emit_sram (o : Out) (s : State) : (s.emit o).sram = s.sram := rfl
@[simp] theorem State.emit_host (o : Out) (s : State) : (s.emit o).host = s.host := rfl
@[simp] theorem State.emit_sumac (o : Out) (s : State) : (s.emit o).sumac = s.sumac := rfl
@[simp] theorem State.emit_homemap (o : Out) (s : State) : (s.emit o).homemap = s.homemap := rfl
@[simp] theorem State.emit_got (o : Out) (s : State) : (s.emit o).got = s.got := rfl
@[simp] theorem State.emit_srls (o : Out) (s : State) : (s.emit o).srls = s.srls := rfl
@[simp] theorem State.emit_seals (o : Out) (s : State) : (s.emit o).seals = s.seals := rfl
@[simp] theorem State.emit_memkeys (o : Out) (s : State) : (s.emit o).memkeys = s.memkeys := rfl
@[simp] theorem State.emit_mckeys (o : Out) (s : State) : (s.emit o).mckeys = s.mckeys := rfl
@[simp] theorem State.emit_vpages (o : Out) (s : State) : (s.emit o).vpages = s.vpages := rfl
@[simp] theorem State.emit_versions (o : Out) (s : State) : (s.emit o).versions = s.versions := rfl
@[simp] theorem State.emit_dirty (o : Out) (s : State) : (s.emit o).dirty = s.dirty := rfl
@[simp] theorem State.emit_heldx (o : Out) (s : State) : (s.emit o).heldx = s.heldx := rfl
@[simp] theorem State.emit_tier1map (o : Out) (s : State) : (s.emit o).tier1map = s.tier1map := rfl
@[simp] theorem State.emit_parts (o : Out) (s : State) : (s.emit o).parts = s.parts := rfl
@[simp] theorem State.emit_releasing (o : Out) (s : State) : (s.emit o).releasing = s.releasing := rfl
@[simp] theorem State.emit_suspended (o : Out) (s : State) : (s.emit o).suspended = s.suspended := rfl
@[simp] theorem State.emit_queues (o : Out) (s : State) : (s.emit o).queues = s.queues := rfl
@[simp] theorem State.emit_selected (o : Out) (s : State) : (s.emit o).selected = s.selected := rfl
@[simp] theorem State.emit_caps (o : Out) (s : State) : (s.emit o).caps = s.caps := rfl
@[simp] theorem State.emit_clusters (o : Out) (s : State) : (s.emit o).clusters = s.clusters := rfl
@[simp] theorem State.emit_cores (o : Out) (s : State) : (s.emit o).cores = s.cores := rfl
@[simp] theorem State.emit_net (o : Out) (s : State) : (s.emit o).net = s.net := rfl
@[simp] theorem State.emit_queries (o : Out) (s : State) : (s.emit o).queries = s.queries := rfl
@[simp] theorem State.emit_returns (o : Out) (s : State) : (s.emit o).returns = s.returns := rfl
@[simp] theorem State.emit_codeCache (o : Out) (s : State) : (s.emit o).codeCache = s.codeCache := rfl
@[simp] theorem State.emit_tokens (o : Out) (s : State) : (s.emit o).tokens = s.tokens := rfl
@[simp] theorem State.emit_arbiters (o : Out) (s : State) : (s.emit o).arbiters = s.arbiters := rfl
@[simp] theorem State.emit_reports (o : Out) (s : State) : (s.emit o).reports = s.reports := rfl
@[simp] theorem State.emit_pkglog (o : Out) (s : State) : (s.emit o).pkglog = s.pkglog := rfl
@[simp] theorem State.emit_saffron (o : Out) (s : State) : (s.emit o).saffron = s.saffron := rfl
@[simp] theorem State.emit_phase (o : Out) (s : State) : (s.emit o).phase = s.phase := rfl
@[simp] theorem State.emit_budget (o : Out) (s : State) : (s.emit o).budget = s.budget := rfl
@[simp] theorem State.emit_links (o : Out) (s : State) : (s.emit o).links = s.links := rfl
@[simp] theorem State.emit_spdm (o : Out) (s : State) : (s.emit o).spdm = s.spdm := rfl
@[simp] theorem State.emit_resetting (o : Out) (s : State) : (s.emit o).resetting = s.resetting := rfl
@[simp] theorem State.emit_resetAt (o : Out) (s : State) : (s.emit o).resetAt = s.resetAt := rfl
@[simp] theorem State.emit_retained (o : Out) (s : State) : (s.emit o).retained = s.retained := rfl
@[simp] theorem State.emit_exiting (o : Out) (s : State) : (s.emit o).exiting = s.exiting := rfl
@[simp] theorem State.emit_used (o : Out) (s : State) : (s.emit o).used = s.used := rfl
@[simp] theorem State.emit_pending (o : Out) (s : State) : (s.emit o).pending = s.pending := rfl
@[simp] theorem State.emit_input (o : Out) (s : State) : (s.emit o).input = s.input := rfl

/-! State.logPart. -/

@[simp] theorem State.logPart_hart (p : Nat) (e : Event) (s : State) : (s.logPart p e).hart = s.hart := rfl
@[simp] theorem State.logPart_parked (p : Nat) (e : Event) (s : State) : (s.logPart p e).parked = s.parked := rfl
@[simp] theorem State.logPart_agenda (p : Nat) (e : Event) (s : State) : (s.logPart p e).agenda = s.agenda := rfl
@[simp] theorem State.logPart_fresh (p : Nat) (e : Event) (s : State) : (s.logPart p e).fresh = s.fresh := rfl
@[simp] theorem State.logPart_clock (p : Nat) (e : Event) (s : State) : (s.logPart p e).clock = s.clock := rfl
@[simp] theorem State.logPart_nextId (p : Nat) (e : Event) (s : State) : (s.logPart p e).nextId = s.nextId := rfl
@[simp] theorem State.logPart_mem (p : Nat) (e : Event) (s : State) : (s.logPart p e).mem = s.mem := rfl
@[simp] theorem State.logPart_poison (p : Nat) (e : Event) (s : State) : (s.logPart p e).poison = s.poison := rfl
@[simp] theorem State.logPart_padPoison (p : Nat) (e : Event) (s : State) : (s.logPart p e).padPoison = s.padPoison := rfl
@[simp] theorem State.logPart_bufPoison (p : Nat) (e : Event) (s : State) : (s.logPart p e).bufPoison = s.bufPoison := rfl
@[simp] theorem State.logPart_faults (p : Nat) (e : Event) (s : State) : (s.logPart p e).faults = s.faults := rfl
@[simp] theorem State.logPart_sram (p : Nat) (e : Event) (s : State) : (s.logPart p e).sram = s.sram := rfl
@[simp] theorem State.logPart_host (p : Nat) (e : Event) (s : State) : (s.logPart p e).host = s.host := rfl
@[simp] theorem State.logPart_sumac (p : Nat) (e : Event) (s : State) : (s.logPart p e).sumac = s.sumac := rfl
@[simp] theorem State.logPart_homemap (p : Nat) (e : Event) (s : State) : (s.logPart p e).homemap = s.homemap := rfl
@[simp] theorem State.logPart_got (p : Nat) (e : Event) (s : State) : (s.logPart p e).got = s.got := rfl
@[simp] theorem State.logPart_srls (p : Nat) (e : Event) (s : State) : (s.logPart p e).srls = s.srls := rfl
@[simp] theorem State.logPart_seals (p : Nat) (e : Event) (s : State) : (s.logPart p e).seals = s.seals := rfl
@[simp] theorem State.logPart_memkeys (p : Nat) (e : Event) (s : State) : (s.logPart p e).memkeys = s.memkeys := rfl
@[simp] theorem State.logPart_mckeys (p : Nat) (e : Event) (s : State) : (s.logPart p e).mckeys = s.mckeys := rfl
@[simp] theorem State.logPart_vpages (p : Nat) (e : Event) (s : State) : (s.logPart p e).vpages = s.vpages := rfl
@[simp] theorem State.logPart_versions (p : Nat) (e : Event) (s : State) : (s.logPart p e).versions = s.versions := rfl
@[simp] theorem State.logPart_dirty (p : Nat) (e : Event) (s : State) : (s.logPart p e).dirty = s.dirty := rfl
@[simp] theorem State.logPart_heldx (p : Nat) (e : Event) (s : State) : (s.logPart p e).heldx = s.heldx := rfl
@[simp] theorem State.logPart_tier1map (p : Nat) (e : Event) (s : State) : (s.logPart p e).tier1map = s.tier1map := rfl
@[simp] theorem State.logPart_releasing (p : Nat) (e : Event) (s : State) : (s.logPart p e).releasing = s.releasing := rfl
@[simp] theorem State.logPart_suspended (p : Nat) (e : Event) (s : State) : (s.logPart p e).suspended = s.suspended := rfl
@[simp] theorem State.logPart_queues (p : Nat) (e : Event) (s : State) : (s.logPart p e).queues = s.queues := rfl
@[simp] theorem State.logPart_selected (p : Nat) (e : Event) (s : State) : (s.logPart p e).selected = s.selected := rfl
@[simp] theorem State.logPart_caps (p : Nat) (e : Event) (s : State) : (s.logPart p e).caps = s.caps := rfl
@[simp] theorem State.logPart_clusters (p : Nat) (e : Event) (s : State) : (s.logPart p e).clusters = s.clusters := rfl
@[simp] theorem State.logPart_cores (p : Nat) (e : Event) (s : State) : (s.logPart p e).cores = s.cores := rfl
@[simp] theorem State.logPart_net (p : Nat) (e : Event) (s : State) : (s.logPart p e).net = s.net := rfl
@[simp] theorem State.logPart_queries (p : Nat) (e : Event) (s : State) : (s.logPart p e).queries = s.queries := rfl
@[simp] theorem State.logPart_returns (p : Nat) (e : Event) (s : State) : (s.logPart p e).returns = s.returns := rfl
@[simp] theorem State.logPart_codeCache (p : Nat) (e : Event) (s : State) : (s.logPart p e).codeCache = s.codeCache := rfl
@[simp] theorem State.logPart_tokens (p : Nat) (e : Event) (s : State) : (s.logPart p e).tokens = s.tokens := rfl
@[simp] theorem State.logPart_arbiters (p : Nat) (e : Event) (s : State) : (s.logPart p e).arbiters = s.arbiters := rfl
@[simp] theorem State.logPart_reports (p : Nat) (e : Event) (s : State) : (s.logPart p e).reports = s.reports := rfl
@[simp] theorem State.logPart_pkglog (p : Nat) (e : Event) (s : State) : (s.logPart p e).pkglog = s.pkglog := rfl
@[simp] theorem State.logPart_saffron (p : Nat) (e : Event) (s : State) : (s.logPart p e).saffron = s.saffron := rfl
@[simp] theorem State.logPart_phase (p : Nat) (e : Event) (s : State) : (s.logPart p e).phase = s.phase := rfl
@[simp] theorem State.logPart_budget (p : Nat) (e : Event) (s : State) : (s.logPart p e).budget = s.budget := rfl
@[simp] theorem State.logPart_links (p : Nat) (e : Event) (s : State) : (s.logPart p e).links = s.links := rfl
@[simp] theorem State.logPart_spdm (p : Nat) (e : Event) (s : State) : (s.logPart p e).spdm = s.spdm := rfl
@[simp] theorem State.logPart_resetting (p : Nat) (e : Event) (s : State) : (s.logPart p e).resetting = s.resetting := rfl
@[simp] theorem State.logPart_resetAt (p : Nat) (e : Event) (s : State) : (s.logPart p e).resetAt = s.resetAt := rfl
@[simp] theorem State.logPart_retained (p : Nat) (e : Event) (s : State) : (s.logPart p e).retained = s.retained := rfl
@[simp] theorem State.logPart_exiting (p : Nat) (e : Event) (s : State) : (s.logPart p e).exiting = s.exiting := rfl
@[simp] theorem State.logPart_used (p : Nat) (e : Event) (s : State) : (s.logPart p e).used = s.used := rfl
@[simp] theorem State.logPart_pending (p : Nat) (e : Event) (s : State) : (s.logPart p e).pending = s.pending := rfl
@[simp] theorem State.logPart_input (p : Nat) (e : Event) (s : State) : (s.logPart p e).input = s.input := rfl
@[simp] theorem State.logPart_out (p : Nat) (e : Event) (s : State) : (s.logPart p e).out = s.out := rfl

/-! State.logPkg. -/

@[simp] theorem State.logPkg_hart (e : Event) (s : State) : (s.logPkg e).hart = s.hart := rfl
@[simp] theorem State.logPkg_parked (e : Event) (s : State) : (s.logPkg e).parked = s.parked := rfl
@[simp] theorem State.logPkg_agenda (e : Event) (s : State) : (s.logPkg e).agenda = s.agenda := rfl
@[simp] theorem State.logPkg_fresh (e : Event) (s : State) : (s.logPkg e).fresh = s.fresh := rfl
@[simp] theorem State.logPkg_clock (e : Event) (s : State) : (s.logPkg e).clock = s.clock := rfl
@[simp] theorem State.logPkg_nextId (e : Event) (s : State) : (s.logPkg e).nextId = s.nextId := rfl
@[simp] theorem State.logPkg_mem (e : Event) (s : State) : (s.logPkg e).mem = s.mem := rfl
@[simp] theorem State.logPkg_poison (e : Event) (s : State) : (s.logPkg e).poison = s.poison := rfl
@[simp] theorem State.logPkg_padPoison (e : Event) (s : State) : (s.logPkg e).padPoison = s.padPoison := rfl
@[simp] theorem State.logPkg_bufPoison (e : Event) (s : State) : (s.logPkg e).bufPoison = s.bufPoison := rfl
@[simp] theorem State.logPkg_faults (e : Event) (s : State) : (s.logPkg e).faults = s.faults := rfl
@[simp] theorem State.logPkg_sram (e : Event) (s : State) : (s.logPkg e).sram = s.sram := rfl
@[simp] theorem State.logPkg_host (e : Event) (s : State) : (s.logPkg e).host = s.host := rfl
@[simp] theorem State.logPkg_sumac (e : Event) (s : State) : (s.logPkg e).sumac = s.sumac := rfl
@[simp] theorem State.logPkg_homemap (e : Event) (s : State) : (s.logPkg e).homemap = s.homemap := rfl
@[simp] theorem State.logPkg_got (e : Event) (s : State) : (s.logPkg e).got = s.got := rfl
@[simp] theorem State.logPkg_srls (e : Event) (s : State) : (s.logPkg e).srls = s.srls := rfl
@[simp] theorem State.logPkg_seals (e : Event) (s : State) : (s.logPkg e).seals = s.seals := rfl
@[simp] theorem State.logPkg_memkeys (e : Event) (s : State) : (s.logPkg e).memkeys = s.memkeys := rfl
@[simp] theorem State.logPkg_mckeys (e : Event) (s : State) : (s.logPkg e).mckeys = s.mckeys := rfl
@[simp] theorem State.logPkg_vpages (e : Event) (s : State) : (s.logPkg e).vpages = s.vpages := rfl
@[simp] theorem State.logPkg_versions (e : Event) (s : State) : (s.logPkg e).versions = s.versions := rfl
@[simp] theorem State.logPkg_dirty (e : Event) (s : State) : (s.logPkg e).dirty = s.dirty := rfl
@[simp] theorem State.logPkg_heldx (e : Event) (s : State) : (s.logPkg e).heldx = s.heldx := rfl
@[simp] theorem State.logPkg_tier1map (e : Event) (s : State) : (s.logPkg e).tier1map = s.tier1map := rfl
@[simp] theorem State.logPkg_parts (e : Event) (s : State) : (s.logPkg e).parts = s.parts := rfl
@[simp] theorem State.logPkg_releasing (e : Event) (s : State) : (s.logPkg e).releasing = s.releasing := rfl
@[simp] theorem State.logPkg_suspended (e : Event) (s : State) : (s.logPkg e).suspended = s.suspended := rfl
@[simp] theorem State.logPkg_queues (e : Event) (s : State) : (s.logPkg e).queues = s.queues := rfl
@[simp] theorem State.logPkg_selected (e : Event) (s : State) : (s.logPkg e).selected = s.selected := rfl
@[simp] theorem State.logPkg_caps (e : Event) (s : State) : (s.logPkg e).caps = s.caps := rfl
@[simp] theorem State.logPkg_clusters (e : Event) (s : State) : (s.logPkg e).clusters = s.clusters := rfl
@[simp] theorem State.logPkg_cores (e : Event) (s : State) : (s.logPkg e).cores = s.cores := rfl
@[simp] theorem State.logPkg_net (e : Event) (s : State) : (s.logPkg e).net = s.net := rfl
@[simp] theorem State.logPkg_queries (e : Event) (s : State) : (s.logPkg e).queries = s.queries := rfl
@[simp] theorem State.logPkg_returns (e : Event) (s : State) : (s.logPkg e).returns = s.returns := rfl
@[simp] theorem State.logPkg_codeCache (e : Event) (s : State) : (s.logPkg e).codeCache = s.codeCache := rfl
@[simp] theorem State.logPkg_tokens (e : Event) (s : State) : (s.logPkg e).tokens = s.tokens := rfl
@[simp] theorem State.logPkg_arbiters (e : Event) (s : State) : (s.logPkg e).arbiters = s.arbiters := rfl
@[simp] theorem State.logPkg_reports (e : Event) (s : State) : (s.logPkg e).reports = s.reports := rfl
@[simp] theorem State.logPkg_saffron (e : Event) (s : State) : (s.logPkg e).saffron = s.saffron := rfl
@[simp] theorem State.logPkg_phase (e : Event) (s : State) : (s.logPkg e).phase = s.phase := rfl
@[simp] theorem State.logPkg_budget (e : Event) (s : State) : (s.logPkg e).budget = s.budget := rfl
@[simp] theorem State.logPkg_links (e : Event) (s : State) : (s.logPkg e).links = s.links := rfl
@[simp] theorem State.logPkg_spdm (e : Event) (s : State) : (s.logPkg e).spdm = s.spdm := rfl
@[simp] theorem State.logPkg_resetting (e : Event) (s : State) : (s.logPkg e).resetting = s.resetting := rfl
@[simp] theorem State.logPkg_resetAt (e : Event) (s : State) : (s.logPkg e).resetAt = s.resetAt := rfl
@[simp] theorem State.logPkg_retained (e : Event) (s : State) : (s.logPkg e).retained = s.retained := rfl
@[simp] theorem State.logPkg_exiting (e : Event) (s : State) : (s.logPkg e).exiting = s.exiting := rfl
@[simp] theorem State.logPkg_used (e : Event) (s : State) : (s.logPkg e).used = s.used := rfl
@[simp] theorem State.logPkg_pending (e : Event) (s : State) : (s.logPkg e).pending = s.pending := rfl
@[simp] theorem State.logPkg_input (e : Event) (s : State) : (s.logPkg e).input = s.input := rfl
@[simp] theorem State.logPkg_out (e : Event) (s : State) : (s.logPkg e).out = s.out := rfl

/-! What they change. -/

@[simp] theorem State.mod_hart (f : Hart → Hart) (s : State) : (s.mod f).hart = f s.hart := rfl
@[simp] theorem State.modRegs_hart (f : Regs → Regs) (s : State) : (s.modRegs f).hart = { s.hart with r := f s.hart.r } := rfl
@[simp] theorem State.modCore_cores (n : Nat) (f : Core → Core) (s : State) :
    (s.modCore n f).cores = update Core.id s.cores (f (s.core n)) := rfl
@[simp] theorem State.modCluster_clusters (n : Nat) (f : Cluster → Cluster) (s : State) :
    (s.modCluster n f).clusters = update Cluster.no s.clusters (f (s.cluster n)) := rfl
@[simp] theorem State.modPart_parts (n : Nat) (f : Part → Part) (s : State) :
    (s.modPart n f).parts = update Part.no s.parts (f (s.part n)) := rfl
@[simp] theorem State.modQueue_queues (n : Nat) (f : Queue → Queue) (s : State) :
    (s.modQueue n f).queues = update Queue.no s.queues (f (s.queue n)) := rfl
@[simp] theorem State.free_value (s : State) : s.free.1 = Config.freeWord s.fresh := rfl
@[simp] theorem State.free_fresh (s : State) : s.free.2.fresh = s.fresh + 1 := rfl
@[simp] theorem State.emit_out (o : Out) (s : State) : (s.emit o).out = s.out ++ [o] := rfl
@[simp] theorem pushEffect_effects (e : Effect) (s : State) :
    (pushEffect e s).hart.chunk.effects = s.hart.chunk.effects ++ [e] := rfl
@[simp] theorem setPc_pc (p : Word) (s : State) : (setPc p s).hart.r.pc = p := rfl
@[simp] theorem advance_pc (n : Nat) (s : State) : (advance n s).hart.r.pc = addOff s.hart.r.pc n := rfl
@[simp] theorem clearRst_rst (s : State) : (clearRst s).hart.r.rst = 0 := rfl

/-- A read of the element that was set gives it. -/
@[simp] theorem get_set_same {α : Type} {n : Nat} (v : Vector α n) (i : Fin n) (x : α) : (v.set i.val x i.isLt).get i = x := by
  simp [Vector.get_eq_getElem]

/-- Every other element stays. -/
theorem get_set_other {α : Type} {n : Nat} (v : Vector α n) {i j : Fin n} (h : j ≠ i) (x : α) :
    (v.set i.val x i.isLt).get j = v.get j := by
  have : i.val ≠ j.val := fun e => h (Fin.ext e.symm)
  simp [Vector.get_eq_getElem, this]

/-- A read of the register that was written gives the value. -/
@[simp] theorem writeS_sreg_same (r : SReg) (v : Word) (s : State) : (writeS r v s).sreg r = v := get_set_same _ r v

/-- Every other scalar register stays. -/
theorem writeS_sreg_other {r q : SReg} (h : q ≠ r) (v : Word) (s : State) : (writeS r v s).sreg q = s.sreg q := get_set_other _ h v

/-- A tile register that was written holds what was written, full. -/
@[simp] theorem writeT_tile_same (t : TReg) (d : Memory) (h : BitVec 16) (s : State) :
    (writeT t d h s).tile t = { data := d, shape := h, full := true } := get_set_same _ t _

/-- Every other tile register stays. -/
theorem writeT_tile_other {t u : TReg} (n : u ≠ t) (d : Memory) (h : BitVec 16) (s : State) : (writeT t d h s).tile u = s.tile u :=
  get_set_other _ n _

end Sys2Proof.Machine
end

