-- ==== Sys2Proof/Laws/Ops.lean ====
section
/-! SUPPORT. What the shared operations of issue do: the checks of R51, presence, and the answers of an attempt. -/

namespace Sys2Proof.Machine

/-- The words of a tile register are met as they are where no injection is active (R316). -/
theorem meetTileWords_quiet {t : TReg} {l : List Nat} {s : State} (h : (s.cluster s.here).inj = none) : meetTileWords t l s = .ok s := by
  simp [meetTileWords, strikesTile, h]

/-- So is a register that is read in its shape, or whole. -/
theorem meetTile_quiet {t : TReg} {s : State} (h : (s.cluster s.here).inj = none) : meetTile t s = .ok s := meetTileWords_quiet h
theorem meetWhole_quiet {t : TReg} {s : State} (h : (s.cluster s.here).inj = none) : meetWhole t s = .ok s := meetTileWords_quiet h

/-- A source that is there: a full scalar, or a full tile, where an injection would strike in a cluster without one. -/
def Src.There (m : State) (x : Src) : Prop :=
  match x with
  | .s r _ => m.sfull r = true
  | .t y _ | .whole y _ | .group y => (m.tile y).full = true ∧ (m.cluster m.here).inj = none
  | .part y _ => (m.tile y).full = true

/-- A source that is there lets the instruction go on, and changes nothing (R16). -/
theorem present_there {x : Src} {s : State} (h : x.There s) : present x s = .ok s := by
  cases x with
  | s r w => simp only [Src.There] at h; simp [present, h]
  | t t w => simp only [Src.There] at h; simp [present, h.1, meetTile_quiet h.2]
  | whole t w | group t => simp only [Src.There] at h; simp [present, h.1, meetWhole_quiet h.2]
  | part t w => simp only [Src.There] at h; simp [present, h]

/-- So do all sources together. -/
theorem presentAll_there {l : List Src} {s : State} (h : ∀ x ∈ l, x.There s) : presentAll l s = .ok s := by
  induction l with
  | nil => rfl
  | cons x l ih =>
    rw [presentAll, present_there (h x List.mem_cons_self)]
    exact ih fun y hy => h y (List.mem_cons_of_mem _ hy)

/-- What completes does so whole, and so does what waits (R233): firmware waits in the state from before, with what the memory found. -/
theorem stopWhole_ok (s t : State) : stopWhole s (.ok t) = .ok t := rfl
theorem stopWhole_wait (s t : State) (w : Wait) :
    stopWhole s (.error (.wait w t)) = .error (.wait w (if s.hart.kind = .task then t else withFinds s t)) := rfl

/-- A task's instruction ends as its effect says. -/
theorem stopWhole_task {s : State} (k : s.hart.kind = .task) (r : Run State) : stopWhole s r = r := by
  match r with
  | .ok _ | .error (.stop _) => rfl
  | .error (.wait _ _) | .error (.fault _ _ _) => simp [stopWhole, k]

/-- An operation that passes the checks of R51 comes to its own effect. -/
theorem perform_body {o : Op} {s t : State} (room : s.hart.kind = .task → o.counted = true → s.hart.sdist < 4096)
    (may : permitted s.hart o.priv = true) (rot : o.rotation = true → rotation s.here = true)
    (tiles : ∀ t ∈ o.tiles, allocated s.hart t = true) (srcs : presentAll o.srcs s = .ok t) : perform o s = stopWhole s (o.body t) := by
  have h1 : ¬(s.hart.kind = .task ∧ o.counted = true ∧ 4096 ≤ s.hart.sdist) := fun ⟨a, b, c⟩ => absurd (room a b) (by omega)
  have h2 : (o.rotation && !rotation s.here) = false := by
    cases hr : o.rotation with
    | false => rfl
    | true => simp [rot hr]
  have h3 : (o.tiles.all fun t => allocated s.hart t) = true := List.all_eq_true.mpr tiles
  unfold perform
  simp only [h1, if_false, may, h2, h3, srcs]
  rfl

/-- An instruction whose effect is there completes: it is counted and PC advances (R39, R62). -/
theorem issue_next {i : Instr} {o : Op} {s t : State} (h : perform o s = .ok t) (c : o.counted = true) (f : o.flow = false) :
    issue i o s = .next (advance 4 (countIssue (wake t))) := by
  simp [issue, attempt, h, c, f, settle, bind, Except.bind]

/-- One that sets PC itself completes without the advance. -/
theorem issue_flow {i : Instr} {o : Op} {s t : State} (h : perform o s = .ok t) (c : o.counted = true) (f : o.flow = true) :
    issue i o s = .next (countIssue (wake t)) := by
  simp [issue, attempt, h, c, f, settle, bind, Except.bind]

/-- An instruction that faults takes the exception (R227, R233). -/
theorem issue_fault {i : Instr} {o : Op} {s t : State} {c : Code} {d : Option Word} (h : perform o s = .error (.fault c d t)) :
    issue i o s = .next (raise { word := wordOf i } c d t) := by
  simp [issue, attempt, h, settle, bind, Except.bind]

/-- An instruction that waits leaves the context blocked on its wait. -/
theorem issue_wait {i : Instr} {o : Op} {s t : State} {w : Wait} (h : perform o s = .error (.wait w t)) :
    issue i o s = .next (block w t) := by
  simp [issue, attempt, h, settle, bind, Except.bind]

/-- An instruction that would be the 4,097th counted raises SAFE_DISTANCE (R39). -/
theorem perform_safeDistance {o : Op} {s : State} (k : s.hart.kind = .task) (c : o.counted = true) (d : 4096 ≤ s.hart.sdist) :
    perform o s = .error (.fault .safeDistance none s) := by
  simp [perform, k, c, d, stopWhole]

end Sys2Proof.Machine
end

