-- ==== Sys2Proof/Laws/PerInstr.lean ====
section
/-! SUPPORT. What holds of every instruction as syntax, one lemma per constructor. -/

namespace Sys2Proof.Laws.Fits

/-- The encoding of an instruction is a 32-bit word (R47). -/
def Statement (i : Instr) : Prop := ∀ w, encode i = some w → w < 2 ^ 32

theorem add (d : SReg) (a : SReg) (b : SReg) (w : Bool) (v : Bool) : Statement (.add d a b w v) := by
  intro bits h
  have := d.isLt
  have := a.isLt
  have := b.isLt
  have := Bool.toNat_lt w
  have := Bool.toNat_lt v
  obtain rfl := Option.some.inj h
  omega

theorem sub (d : SReg) (a : SReg) (b : SReg) (w : Bool) (v : Bool) : Statement (.sub d a b w v) := by
  intro bits h
  have := d.isLt
  have := a.isLt
  have := b.isLt
  have := Bool.toNat_lt w
  have := Bool.toNat_lt v
  obtain rfl := Option.some.inj h
  omega

theorem and (d : SReg) (a : SReg) (b : SReg) (w : Bool) (v : Bool) : Statement (.and d a b w v) := by
  intro bits h
  have := d.isLt
  have := a.isLt
  have := b.isLt
  have := Bool.toNat_lt w
  have := Bool.toNat_lt v
  obtain rfl := Option.some.inj h
  omega

theorem or (d : SReg) (a : SReg) (b : SReg) (w : Bool) (v : Bool) : Statement (.or d a b w v) := by
  intro bits h
  have := d.isLt
  have := a.isLt
  have := b.isLt
  have := Bool.toNat_lt w
  have := Bool.toNat_lt v
  obtain rfl := Option.some.inj h
  omega

theorem xor (d : SReg) (a : SReg) (b : SReg) (w : Bool) (v : Bool) : Statement (.xor d a b w v) := by
  intro bits h
  have := d.isLt
  have := a.isLt
  have := b.isLt
  have := Bool.toNat_lt w
  have := Bool.toNat_lt v
  obtain rfl := Option.some.inj h
  omega

theorem shl (d : SReg) (a : SReg) (b : SReg) (w : Bool) (v : Bool) : Statement (.shl d a b w v) := by
  intro bits h
  have := d.isLt
  have := a.isLt
  have := b.isLt
  have := Bool.toNat_lt w
  have := Bool.toNat_lt v
  obtain rfl := Option.some.inj h
  omega

theorem shr (d : SReg) (a : SReg) (b : SReg) (w : Bool) (v : Bool) : Statement (.shr d a b w v) := by
  intro bits h
  have := d.isLt
  have := a.isLt
  have := b.isLt
  have := Bool.toNat_lt w
  have := Bool.toNat_lt v
  obtain rfl := Option.some.inj h
  omega

theorem sra (d : SReg) (a : SReg) (b : SReg) (w : Bool) (v : Bool) : Statement (.sra d a b w v) := by
  intro bits h
  have := d.isLt
  have := a.isLt
  have := b.isLt
  have := Bool.toNat_lt w
  have := Bool.toNat_lt v
  obtain rfl := Option.some.inj h
  omega

theorem rol (d : SReg) (a : SReg) (b : SReg) (w : Bool) (v : Bool) : Statement (.rol d a b w v) := by
  intro bits h
  have := d.isLt
  have := a.isLt
  have := b.isLt
  have := Bool.toNat_lt w
  have := Bool.toNat_lt v
  obtain rfl := Option.some.inj h
  omega

theorem min (d : SReg) (a : SReg) (b : SReg) (w : Bool) (v : Bool) : Statement (.min d a b w v) := by
  intro bits h
  have := d.isLt
  have := a.isLt
  have := b.isLt
  have := Bool.toNat_lt w
  have := Bool.toNat_lt v
  obtain rfl := Option.some.inj h
  omega

theorem max (d : SReg) (a : SReg) (b : SReg) (w : Bool) (v : Bool) : Statement (.max d a b w v) := by
  intro bits h
  have := d.isLt
  have := a.isLt
  have := b.isLt
  have := Bool.toNat_lt w
  have := Bool.toNat_lt v
  obtain rfl := Option.some.inj h
  omega

theorem minu (d : SReg) (a : SReg) (b : SReg) (w : Bool) (v : Bool) : Statement (.minu d a b w v) := by
  intro bits h
  have := d.isLt
  have := a.isLt
  have := b.isLt
  have := Bool.toNat_lt w
  have := Bool.toNat_lt v
  obtain rfl := Option.some.inj h
  omega

theorem maxu (d : SReg) (a : SReg) (b : SReg) (w : Bool) (v : Bool) : Statement (.maxu d a b w v) := by
  intro bits h
  have := d.isLt
  have := a.isLt
  have := b.isLt
  have := Bool.toNat_lt w
  have := Bool.toNat_lt v
  obtain rfl := Option.some.inj h
  omega

theorem slt (d : SReg) (a : SReg) (b : SReg) (w : Bool) (v : Bool) : Statement (.slt d a b w v) := by
  intro bits h
  have := d.isLt
  have := a.isLt
  have := b.isLt
  have := Bool.toNat_lt w
  have := Bool.toNat_lt v
  obtain rfl := Option.some.inj h
  omega

theorem sltu (d : SReg) (a : SReg) (b : SReg) (w : Bool) (v : Bool) : Statement (.sltu d a b w v) := by
  intro bits h
  have := d.isLt
  have := a.isLt
  have := b.isLt
  have := Bool.toNat_lt w
  have := Bool.toNat_lt v
  obtain rfl := Option.some.inj h
  omega

theorem seq (d : SReg) (a : SReg) (b : SReg) (w : Bool) (v : Bool) : Statement (.seq d a b w v) := by
  intro bits h
  have := d.isLt
  have := a.isLt
  have := b.isLt
  have := Bool.toNat_lt w
  have := Bool.toNat_lt v
  obtain rfl := Option.some.inj h
  omega

theorem sel (d : SReg) (a : SReg) (b : SReg) (w : Bool) (v : Bool) : Statement (.sel d a b w v) := by
  intro bits h
  have := d.isLt
  have := a.isLt
  have := b.isLt
  have := Bool.toNat_lt w
  have := Bool.toNat_lt v
  obtain rfl := Option.some.inj h
  omega

theorem mul (d : SReg) (a : SReg) (b : SReg) (w : Bool) (v : Bool) : Statement (.mul d a b w v) := by
  intro bits h
  have := d.isLt
  have := a.isLt
  have := b.isLt
  have := Bool.toNat_lt w
  have := Bool.toNat_lt v
  obtain rfl := Option.some.inj h
  omega

theorem mulh (d : SReg) (a : SReg) (b : SReg) (w : Bool) (v : Bool) : Statement (.mulh d a b w v) := by
  intro bits h
  have := d.isLt
  have := a.isLt
  have := b.isLt
  have := Bool.toNat_lt w
  have := Bool.toNat_lt v
  obtain rfl := Option.some.inj h
  omega

theorem mulhu (d : SReg) (a : SReg) (b : SReg) (w : Bool) (v : Bool) : Statement (.mulhu d a b w v) := by
  intro bits h
  have := d.isLt
  have := a.isLt
  have := b.isLt
  have := Bool.toNat_lt w
  have := Bool.toNat_lt v
  obtain rfl := Option.some.inj h
  omega

theorem div (d : SReg) (a : SReg) (b : SReg) (w : Bool) (v : Bool) : Statement (.div d a b w v) := by
  intro bits h
  have := d.isLt
  have := a.isLt
  have := b.isLt
  have := Bool.toNat_lt w
  have := Bool.toNat_lt v
  obtain rfl := Option.some.inj h
  omega

theorem divu (d : SReg) (a : SReg) (b : SReg) (w : Bool) (v : Bool) : Statement (.divu d a b w v) := by
  intro bits h
  have := d.isLt
  have := a.isLt
  have := b.isLt
  have := Bool.toNat_lt w
  have := Bool.toNat_lt v
  obtain rfl := Option.some.inj h
  omega

theorem rem (d : SReg) (a : SReg) (b : SReg) (w : Bool) (v : Bool) : Statement (.rem d a b w v) := by
  intro bits h
  have := d.isLt
  have := a.isLt
  have := b.isLt
  have := Bool.toNat_lt w
  have := Bool.toNat_lt v
  obtain rfl := Option.some.inj h
  omega

theorem remu (d : SReg) (a : SReg) (b : SReg) (w : Bool) (v : Bool) : Statement (.remu d a b w v) := by
  intro bits h
  have := d.isLt
  have := a.isLt
  have := b.isLt
  have := Bool.toNat_lt w
  have := Bool.toNat_lt v
  obtain rfl := Option.some.inj h
  omega

theorem mov (d : SReg) (a : SReg) (w : Bool) : Statement (.mov d a w) := by
  intro bits h
  have := d.isLt
  have := a.isLt
  have := Bool.toNat_lt w
  obtain rfl := Option.some.inj h
  omega

theorem clz (d : SReg) (a : SReg) (w : Bool) : Statement (.clz d a w) := by
  intro bits h
  have := d.isLt
  have := a.isLt
  have := Bool.toNat_lt w
  obtain rfl := Option.some.inj h
  omega

theorem ctz (d : SReg) (a : SReg) (w : Bool) : Statement (.ctz d a w) := by
  intro bits h
  have := d.isLt
  have := a.isLt
  have := Bool.toNat_lt w
  obtain rfl := Option.some.inj h
  omega

theorem popc (d : SReg) (a : SReg) (w : Bool) : Statement (.popc d a w) := by
  intro bits h
  have := d.isLt
  have := a.isLt
  have := Bool.toNat_lt w
  obtain rfl := Option.some.inj h
  omega

theorem bswap (d : SReg) (a : SReg) (w : Bool) : Statement (.bswap d a w) := by
  intro bits h
  have := d.isLt
  have := a.isLt
  have := Bool.toNat_lt w
  obtain rfl := Option.some.inj h
  omega

theorem hmk (d : SReg) (a : SReg) (b : SReg) (w : Bool) (v : Bool) : Statement (.hmk d a b w v) := by
  intro bits h
  have := d.isLt
  have := a.isLt
  have := b.isLt
  have := Bool.toNat_lt w
  have := Bool.toNat_lt v
  obtain rfl := Option.some.inj h
  omega

theorem hoff (d : SReg) (a : SReg) (w : Bool) : Statement (.hoff d a w) := by
  intro bits h
  have := d.isLt
  have := a.isLt
  have := Bool.toNat_lt w
  obtain rfl := Option.some.inj h
  omega

theorem hlen (d : SReg) (a : SReg) (w : Bool) : Statement (.hlen d a w) := by
  intro bits h
  have := d.isLt
  have := a.isLt
  have := Bool.toNat_lt w
  obtain rfl := Option.some.inj h
  omega

theorem hrgt (d : SReg) (a : SReg) (w : Bool) : Statement (.hrgt d a w) := by
  intro bits h
  have := d.isLt
  have := a.isLt
  have := Bool.toNat_lt w
  obtain rfl := Option.some.inj h
  omega

theorem time (d : SReg) : Statement (.time d) := by
  intro bits h
  have := d.isLt
  obtain rfl := Option.some.inj h
  omega

theorem addi (d : SReg) (a : SReg) (w : Bool) (i : BitVec 15) : Statement (.addi d a w i) := by
  intro bits h
  have := d.isLt
  have := a.isLt
  have := Bool.toNat_lt w
  have := i.isLt
  obtain rfl := Option.some.inj h
  omega

theorem andi (d : SReg) (a : SReg) (w : Bool) (i : BitVec 15) : Statement (.andi d a w i) := by
  intro bits h
  have := d.isLt
  have := a.isLt
  have := Bool.toNat_lt w
  have := i.isLt
  obtain rfl := Option.some.inj h
  omega

theorem ori (d : SReg) (a : SReg) (w : Bool) (i : BitVec 15) : Statement (.ori d a w i) := by
  intro bits h
  have := d.isLt
  have := a.isLt
  have := Bool.toNat_lt w
  have := i.isLt
  obtain rfl := Option.some.inj h
  omega

theorem xori (d : SReg) (a : SReg) (w : Bool) (i : BitVec 15) : Statement (.xori d a w i) := by
  intro bits h
  have := d.isLt
  have := a.isLt
  have := Bool.toNat_lt w
  have := i.isLt
  obtain rfl := Option.some.inj h
  omega

theorem shli (d : SReg) (a : SReg) (w : Bool) (c : BitVec 6) : Statement (.shli d a w c) := by
  intro bits h
  have := d.isLt
  have := a.isLt
  have := Bool.toNat_lt w
  have := c.isLt
  obtain rfl := Option.some.inj h
  omega

theorem shri (d : SReg) (a : SReg) (w : Bool) (c : BitVec 6) : Statement (.shri d a w c) := by
  intro bits h
  have := d.isLt
  have := a.isLt
  have := Bool.toNat_lt w
  have := c.isLt
  obtain rfl := Option.some.inj h
  omega

theorem srai (d : SReg) (a : SReg) (w : Bool) (c : BitVec 6) : Statement (.srai d a w c) := by
  intro bits h
  have := d.isLt
  have := a.isLt
  have := Bool.toNat_lt w
  have := c.isLt
  obtain rfl := Option.some.inj h
  omega

theorem ext (d : SReg) (a : SReg) (w : Bool) (l : BitVec 6) (p : BitVec 6) : Statement (.ext d a w l p) := by
  intro bits h
  have := d.isLt
  have := a.isLt
  have := Bool.toNat_lt w
  have := l.isLt
  have := p.isLt
  obtain rfl := Option.some.inj h
  omega

theorem ins (d : SReg) (a : SReg) (w : Bool) (l : BitVec 6) (p : BitVec 6) : Statement (.ins d a w l p) := by
  intro bits h
  have := d.isLt
  have := a.isLt
  have := Bool.toNat_lt w
  have := l.isLt
  have := p.isLt
  obtain rfl := Option.some.inj h
  omega

theorem movi (d : SReg) (i : BitVec 15) : Statement (.movi d i) := by
  intro bits h
  have := d.isLt
  have := i.isLt
  obtain rfl := Option.some.inj h
  omega

theorem brEq (a : SReg) (b : SReg) (j : BitVec 13) : Statement (.brEq a b j) := by
  intro bits h
  have := a.isLt
  have := b.isLt
  have := j.isLt
  obtain rfl := Option.some.inj h
  omega

theorem brNe (a : SReg) (b : SReg) (j : BitVec 13) : Statement (.brNe a b j) := by
  intro bits h
  have := a.isLt
  have := b.isLt
  have := j.isLt
  obtain rfl := Option.some.inj h
  omega

theorem brLt (a : SReg) (b : SReg) (j : BitVec 13) : Statement (.brLt a b j) := by
  intro bits h
  have := a.isLt
  have := b.isLt
  have := j.isLt
  obtain rfl := Option.some.inj h
  omega

theorem brGe (a : SReg) (b : SReg) (j : BitVec 13) : Statement (.brGe a b j) := by
  intro bits h
  have := a.isLt
  have := b.isLt
  have := j.isLt
  obtain rfl := Option.some.inj h
  omega

theorem brLtu (a : SReg) (b : SReg) (j : BitVec 13) : Statement (.brLtu a b j) := by
  intro bits h
  have := a.isLt
  have := b.isLt
  have := j.isLt
  obtain rfl := Option.some.inj h
  omega

theorem brGeu (a : SReg) (b : SReg) (j : BitVec 13) : Statement (.brGeu a b j) := by
  intro bits h
  have := a.isLt
  have := b.isLt
  have := j.isLt
  obtain rfl := Option.some.inj h
  omega

theorem j (j : BitVec 26) : Statement (.j j) := by
  intro bits h
  have := j.isLt
  obtain rfl := Option.some.inj h
  omega

theorem jl (j : BitVec 26) : Statement (.jl j) := by
  intro bits h
  have := j.isLt
  obtain rfl := Option.some.inj h
  omega

theorem jr (a : SReg) (w : Bool) : Statement (.jr a w) := by
  intro bits h
  have := a.isLt
  have := Bool.toNat_lt w
  obtain rfl := Option.some.inj h
  omega

theorem send (a : SReg) (b : SReg) (w : Bool) (v : Bool) : Statement (.send a b w v) := by
  intro bits h
  have := a.isLt
  have := b.isLt
  have := Bool.toNat_lt w
  have := Bool.toNat_lt v
  obtain rfl := Option.some.inj h
  omega

theorem sendt (t : TReg) (a : SReg) (b : SReg) (w : Bool) (v : Bool) : Statement (.sendt t a b w v) := by
  intro bits h
  have := t.isLt
  have := a.isLt
  have := b.isLt
  have := Bool.toNat_lt w
  have := Bool.toNat_lt v
  obtain rfl := Option.some.inj h
  omega

theorem sendx (a : SReg) (b : SReg) (w : Bool) (v : Bool) : Statement (.sendx a b w v) := by
  intro bits h
  have := a.isLt
  have := b.isLt
  have := Bool.toNat_lt w
  have := Bool.toNat_lt v
  obtain rfl := Option.some.inj h
  omega

theorem recv (d : SReg) (n : BitVec 2) : Statement (.recv d n) := by
  intro bits h
  have := d.isLt
  have := n.isLt
  obtain rfl := Option.some.inj h
  omega

theorem trecv (t : TReg) (n : BitVec 2) : Statement (.trecv t n) := by
  intro bits h
  have := t.isLt
  have := n.isLt
  obtain rfl := Option.some.inj h
  omega

theorem jnew (d : SReg) (a : SReg) (b : SReg) (w : Bool) (v : Bool) : Statement (.jnew d a b w v) := by
  intro bits h
  have := d.isLt
  have := a.isLt
  have := b.isLt
  have := Bool.toNat_lt w
  have := Bool.toNat_lt v
  obtain rfl := Option.some.inj h
  omega

theorem arrive (a : SReg) (w : Bool) : Statement (.arrive a w) := by
  intro bits h
  have := a.isLt
  have := Bool.toNat_lt w
  obtain rfl := Option.some.inj h
  omega

theorem wqry (a : SReg) (b : SReg) (w : Bool) (v : Bool) : Statement (.wqry a b w v) := by
  intro bits h
  have := a.isLt
  have := b.isLt
  have := Bool.toNat_lt w
  have := Bool.toNat_lt v
  obtain rfl := Option.some.inj h
  omega

theorem wait (a : SReg) (b : SReg) (w : Bool) (v : Bool) : Statement (.wait a b w v) := by
  intro bits h
  have := a.isLt
  have := b.isLt
  have := Bool.toNat_lt w
  have := Bool.toNat_lt v
  obtain rfl := Option.some.inj h
  omega

theorem migr : Statement (.migr) := by
  intro bits h
  obtain rfl := Option.some.inj h
  omega

theorem mret : Statement (.mret) := by
  intro bits h
  obtain rfl := Option.some.inj h
  omega

theorem spawn (d : SReg) (a : SReg) (b : SReg) (w : Bool) (v : Bool) : Statement (.spawn d a b w v) := by
  intro bits h
  have := d.isLt
  have := a.isLt
  have := b.isLt
  have := Bool.toNat_lt w
  have := Bool.toNat_lt v
  obtain rfl := Option.some.inj h
  omega

theorem safe (m : BitVec 16) : Statement (.safe m) := by
  intro bits h
  have := m.isLt
  obtain rfl := Option.some.inj h
  omega

theorem done : Statement (.done) := by
  intro bits h
  obtain rfl := Option.some.inj h
  omega

theorem cont (a : SReg) (b : SReg) (w : Bool) (v : Bool) : Statement (.cont a b w v) := by
  intro bits h
  have := a.isLt
  have := b.isLt
  have := Bool.toNat_lt w
  have := Bool.toNat_lt v
  obtain rfl := Option.some.inj h
  omega

theorem nop : Statement (.nop) := by
  intro bits h
  obtain rfl := Option.some.inj h
  omega

theorem limm (i : BitVec 26) : Statement (.limm i) := by
  intro bits h
  have := i.isLt
  obtain rfl := Option.some.inj h
  omega

theorem ldB (d : SReg) (a : SReg) (w : Bool) (o : BitVec 13) : Statement (.ldB d a w o) := by
  intro bits h
  have := d.isLt
  have := a.isLt
  have := Bool.toNat_lt w
  have := o.isLt
  obtain rfl := Option.some.inj h
  omega

theorem ldH (d : SReg) (a : SReg) (w : Bool) (o : BitVec 13) : Statement (.ldH d a w o) := by
  intro bits h
  have := d.isLt
  have := a.isLt
  have := Bool.toNat_lt w
  have := o.isLt
  obtain rfl := Option.some.inj h
  omega

theorem ldW (d : SReg) (a : SReg) (w : Bool) (o : BitVec 13) : Statement (.ldW d a w o) := by
  intro bits h
  have := d.isLt
  have := a.isLt
  have := Bool.toNat_lt w
  have := o.isLt
  obtain rfl := Option.some.inj h
  omega

theorem ldD (d : SReg) (a : SReg) (w : Bool) (o : BitVec 13) : Statement (.ldD d a w o) := by
  intro bits h
  have := d.isLt
  have := a.isLt
  have := Bool.toNat_lt w
  have := o.isLt
  obtain rfl := Option.some.inj h
  omega

theorem stB (d : SReg) (a : SReg) (w : Bool) (o : BitVec 13) : Statement (.stB d a w o) := by
  intro bits h
  have := d.isLt
  have := a.isLt
  have := Bool.toNat_lt w
  have := o.isLt
  obtain rfl := Option.some.inj h
  omega

theorem stH (d : SReg) (a : SReg) (w : Bool) (o : BitVec 13) : Statement (.stH d a w o) := by
  intro bits h
  have := d.isLt
  have := a.isLt
  have := Bool.toNat_lt w
  have := o.isLt
  obtain rfl := Option.some.inj h
  omega

theorem stW (d : SReg) (a : SReg) (w : Bool) (o : BitVec 13) : Statement (.stW d a w o) := by
  intro bits h
  have := d.isLt
  have := a.isLt
  have := Bool.toNat_lt w
  have := o.isLt
  obtain rfl := Option.some.inj h
  omega

theorem stD (d : SReg) (a : SReg) (w : Bool) (o : BitVec 13) : Statement (.stD d a w o) := by
  intro bits h
  have := d.isLt
  have := a.isLt
  have := Bool.toNat_lt w
  have := o.isLt
  obtain rfl := Option.some.inj h
  omega

theorem ldc (d : SReg) (a : SReg) (w : Bool) (i : BitVec 15) : Statement (.ldc d a w i) := by
  intro bits h
  have := d.isLt
  have := a.isLt
  have := Bool.toNat_lt w
  have := i.isLt
  obtain rfl := Option.some.inj h
  omega

theorem lds (d : SReg) (a : SReg) (w : Bool) : Statement (.lds d a w) := by
  intro bits h
  have := d.isLt
  have := a.isLt
  have := Bool.toNat_lt w
  obtain rfl := Option.some.inj h
  omega

theorem sts (a : SReg) (b : SReg) (w : Bool) (v : Bool) : Statement (.sts a b w v) := by
  intro bits h
  have := a.isLt
  have := b.isLt
  have := Bool.toNat_lt w
  have := Bool.toNat_lt v
  obtain rfl := Option.some.inj h
  omega

theorem amoadd (d : SReg) (a : SReg) (b : SReg) (w : Bool) (v : Bool) (x : Bool) : Statement (.amoadd d a b w v x) := by
  intro bits h
  have := d.isLt
  have := a.isLt
  have := b.isLt
  have := Bool.toNat_lt w
  have := Bool.toNat_lt v
  have := Bool.toNat_lt x
  obtain rfl := Option.some.inj h
  omega

theorem amoand (d : SReg) (a : SReg) (b : SReg) (w : Bool) (v : Bool) (x : Bool) : Statement (.amoand d a b w v x) := by
  intro bits h
  have := d.isLt
  have := a.isLt
  have := b.isLt
  have := Bool.toNat_lt w
  have := Bool.toNat_lt v
  have := Bool.toNat_lt x
  obtain rfl := Option.some.inj h
  omega

theorem amoor (d : SReg) (a : SReg) (b : SReg) (w : Bool) (v : Bool) (x : Bool) : Statement (.amoor d a b w v x) := by
  intro bits h
  have := d.isLt
  have := a.isLt
  have := b.isLt
  have := Bool.toNat_lt w
  have := Bool.toNat_lt v
  have := Bool.toNat_lt x
  obtain rfl := Option.some.inj h
  omega

theorem amoxor (d : SReg) (a : SReg) (b : SReg) (w : Bool) (v : Bool) (x : Bool) : Statement (.amoxor d a b w v x) := by
  intro bits h
  have := d.isLt
  have := a.isLt
  have := b.isLt
  have := Bool.toNat_lt w
  have := Bool.toNat_lt v
  have := Bool.toNat_lt x
  obtain rfl := Option.some.inj h
  omega

theorem amomin (d : SReg) (a : SReg) (b : SReg) (w : Bool) (v : Bool) (x : Bool) : Statement (.amomin d a b w v x) := by
  intro bits h
  have := d.isLt
  have := a.isLt
  have := b.isLt
  have := Bool.toNat_lt w
  have := Bool.toNat_lt v
  have := Bool.toNat_lt x
  obtain rfl := Option.some.inj h
  omega

theorem amomax (d : SReg) (a : SReg) (b : SReg) (w : Bool) (v : Bool) (x : Bool) : Statement (.amomax d a b w v x) := by
  intro bits h
  have := d.isLt
  have := a.isLt
  have := b.isLt
  have := Bool.toNat_lt w
  have := Bool.toNat_lt v
  have := Bool.toNat_lt x
  obtain rfl := Option.some.inj h
  omega

theorem amominu (d : SReg) (a : SReg) (b : SReg) (w : Bool) (v : Bool) (x : Bool) : Statement (.amominu d a b w v x) := by
  intro bits h
  have := d.isLt
  have := a.isLt
  have := b.isLt
  have := Bool.toNat_lt w
  have := Bool.toNat_lt v
  have := Bool.toNat_lt x
  obtain rfl := Option.some.inj h
  omega

theorem amomaxu (d : SReg) (a : SReg) (b : SReg) (w : Bool) (v : Bool) (x : Bool) : Statement (.amomaxu d a b w v x) := by
  intro bits h
  have := d.isLt
  have := a.isLt
  have := b.isLt
  have := Bool.toNat_lt w
  have := Bool.toNat_lt v
  have := Bool.toNat_lt x
  obtain rfl := Option.some.inj h
  omega

theorem amoswp (d : SReg) (a : SReg) (b : SReg) (w : Bool) (v : Bool) (x : Bool) : Statement (.amoswp d a b w v x) := by
  intro bits h
  have := d.isLt
  have := a.isLt
  have := b.isLt
  have := Bool.toNat_lt w
  have := Bool.toNat_lt v
  have := Bool.toNat_lt x
  obtain rfl := Option.some.inj h
  omega

theorem amocas (d : SReg) (a : SReg) (b : SReg) (w : Bool) (v : Bool) (x : Bool) : Statement (.amocas d a b w v x) := by
  intro bits h
  have := d.isLt
  have := a.isLt
  have := b.isLt
  have := Bool.toNat_lt w
  have := Bool.toNat_lt v
  have := Bool.toNat_lt x
  obtain rfl := Option.some.inj h
  omega

theorem amofadd (d : SReg) (a : SReg) (b : SReg) (w : Bool) (v : Bool) : Statement (.amofadd d a b w v) := by
  intro bits h
  have := d.isLt
  have := a.isLt
  have := b.isLt
  have := Bool.toNat_lt w
  have := Bool.toNat_lt v
  obtain rfl := Option.some.inj h
  omega

theorem amofmin (d : SReg) (a : SReg) (b : SReg) (w : Bool) (v : Bool) : Statement (.amofmin d a b w v) := by
  intro bits h
  have := d.isLt
  have := a.isLt
  have := b.isLt
  have := Bool.toNat_lt w
  have := Bool.toNat_lt v
  obtain rfl := Option.some.inj h
  omega

theorem amofmax (d : SReg) (a : SReg) (b : SReg) (w : Bool) (v : Bool) : Statement (.amofmax d a b w v) := by
  intro bits h
  have := d.isLt
  have := a.isLt
  have := b.isLt
  have := Bool.toNat_lt w
  have := Bool.toNat_lt v
  obtain rfl := Option.some.inj h
  omega

theorem amoaddNr (a : SReg) (b : SReg) (w : Bool) (v : Bool) (x : Bool) : Statement (.amoaddNr a b w v x) := by
  intro bits h
  have := a.isLt
  have := b.isLt
  have := Bool.toNat_lt w
  have := Bool.toNat_lt v
  have := Bool.toNat_lt x
  obtain rfl := Option.some.inj h
  omega

theorem amoandNr (a : SReg) (b : SReg) (w : Bool) (v : Bool) (x : Bool) : Statement (.amoandNr a b w v x) := by
  intro bits h
  have := a.isLt
  have := b.isLt
  have := Bool.toNat_lt w
  have := Bool.toNat_lt v
  have := Bool.toNat_lt x
  obtain rfl := Option.some.inj h
  omega

theorem amoorNr (a : SReg) (b : SReg) (w : Bool) (v : Bool) (x : Bool) : Statement (.amoorNr a b w v x) := by
  intro bits h
  have := a.isLt
  have := b.isLt
  have := Bool.toNat_lt w
  have := Bool.toNat_lt v
  have := Bool.toNat_lt x
  obtain rfl := Option.some.inj h
  omega

theorem amoxorNr (a : SReg) (b : SReg) (w : Bool) (v : Bool) (x : Bool) : Statement (.amoxorNr a b w v x) := by
  intro bits h
  have := a.isLt
  have := b.isLt
  have := Bool.toNat_lt w
  have := Bool.toNat_lt v
  have := Bool.toNat_lt x
  obtain rfl := Option.some.inj h
  omega

theorem amominNr (a : SReg) (b : SReg) (w : Bool) (v : Bool) (x : Bool) : Statement (.amominNr a b w v x) := by
  intro bits h
  have := a.isLt
  have := b.isLt
  have := Bool.toNat_lt w
  have := Bool.toNat_lt v
  have := Bool.toNat_lt x
  obtain rfl := Option.some.inj h
  omega

theorem amomaxNr (a : SReg) (b : SReg) (w : Bool) (v : Bool) (x : Bool) : Statement (.amomaxNr a b w v x) := by
  intro bits h
  have := a.isLt
  have := b.isLt
  have := Bool.toNat_lt w
  have := Bool.toNat_lt v
  have := Bool.toNat_lt x
  obtain rfl := Option.some.inj h
  omega

theorem amominuNr (a : SReg) (b : SReg) (w : Bool) (v : Bool) (x : Bool) : Statement (.amominuNr a b w v x) := by
  intro bits h
  have := a.isLt
  have := b.isLt
  have := Bool.toNat_lt w
  have := Bool.toNat_lt v
  have := Bool.toNat_lt x
  obtain rfl := Option.some.inj h
  omega

theorem amomaxuNr (a : SReg) (b : SReg) (w : Bool) (v : Bool) (x : Bool) : Statement (.amomaxuNr a b w v x) := by
  intro bits h
  have := a.isLt
  have := b.isLt
  have := Bool.toNat_lt w
  have := Bool.toNat_lt v
  have := Bool.toNat_lt x
  obtain rfl := Option.some.inj h
  omega

theorem amofaddNr (a : SReg) (b : SReg) (w : Bool) (v : Bool) : Statement (.amofaddNr a b w v) := by
  intro bits h
  have := a.isLt
  have := b.isLt
  have := Bool.toNat_lt w
  have := Bool.toNat_lt v
  obtain rfl := Option.some.inj h
  omega

theorem amofminNr (a : SReg) (b : SReg) (w : Bool) (v : Bool) : Statement (.amofminNr a b w v) := by
  intro bits h
  have := a.isLt
  have := b.isLt
  have := Bool.toNat_lt w
  have := Bool.toNat_lt v
  obtain rfl := Option.some.inj h
  omega

theorem amofmaxNr (a : SReg) (b : SReg) (w : Bool) (v : Bool) : Statement (.amofmaxNr a b w v) := by
  intro bits h
  have := a.isLt
  have := b.isLt
  have := Bool.toNat_lt w
  have := Bool.toNat_lt v
  obtain rfl := Option.some.inj h
  omega

theorem fenceX : Statement (.fenceX) := by
  intro bits h
  obtain rfl := Option.some.inj h
  omega

theorem fenceH : Statement (.fenceH) := by
  intro bits h
  obtain rfl := Option.some.inj h
  omega

theorem gate (a : SReg) (b : SReg) (w : Bool) (v : Bool) : Statement (.gate a b w v) := by
  intro bits h
  have := a.isLt
  have := b.isLt
  have := Bool.toNat_lt w
  have := Bool.toNat_lt v
  obtain rfl := Option.some.inj h
  omega

theorem cinv (a : SReg) (b : SReg) (w : Bool) (v : Bool) : Statement (.cinv a b w v) := by
  intro bits h
  have := a.isLt
  have := b.isLt
  have := Bool.toNat_lt w
  have := Bool.toNat_lt v
  obtain rfl := Option.some.inj h
  omega

theorem tld (t : TReg) (p : PReg) (q : BitVec 2) (f : BitVec 3) (k : Bool) : Statement (.tld t p q f k) := by
  intro bits h
  have := t.isLt
  have := p.isLt
  have := q.isLt
  have := f.isLt
  have := Bool.toNat_lt k
  obtain rfl := Option.some.inj h
  omega

theorem tldc (t : TReg) (p : PReg) (q : BitVec 2) (f : BitVec 3) (k : Bool) : Statement (.tldc t p q f k) := by
  intro bits h
  have := t.isLt
  have := p.isLt
  have := q.isLt
  have := f.isLt
  have := Bool.toNat_lt k
  obtain rfl := Option.some.inj h
  omega

theorem tst (t : TReg) (p : PReg) (q : BitVec 2) (f : BitVec 3) (w : Bool) : Statement (.tst t p q f w) := by
  intro bits h
  have := t.isLt
  have := p.isLt
  have := q.isLt
  have := f.isLt
  have := Bool.toNat_lt w
  obtain rfl := Option.some.inj h
  omega

theorem tlds (t : TReg) (p : PReg) (q : BitVec 2) (n : BitVec 3) (k : Bool) : Statement (.tlds t p q n k) := by
  intro bits h
  have := t.isLt
  have := p.isLt
  have := q.isLt
  have := n.isLt
  have := Bool.toNat_lt k
  obtain rfl := Option.some.inj h
  omega

theorem tsts (t : TReg) (p : PReg) (q : BitVec 2) (n : BitVec 3) (w : Bool) : Statement (.tsts t p q n w) := by
  intro bits h
  have := t.isLt
  have := p.isLt
  have := q.isLt
  have := n.isLt
  have := Bool.toNat_lt w
  obtain rfl := Option.some.inj h
  omega

theorem tshape (t : TReg) (a : SReg) (w : Bool) : Statement (.tshape t a w) := by
  intro bits h
  have := t.isLt
  have := a.isLt
  have := Bool.toNat_lt w
  obtain rfl := Option.some.inj h
  omega

theorem tshapeq (d : SReg) (t : TReg) : Statement (.tshapeq d t) := by
  intro bits h
  have := d.isLt
  have := t.isLt
  obtain rfl := Option.some.inj h
  omega

theorem tclr (t : TReg) : Statement (.tclr t) := by
  intro bits h
  have := t.isLt
  obtain rfl := Option.some.inj h
  omega

theorem tmov (x : TReg) (y : TReg) (w : Bool) : Statement (.tmov x y w) := by
  intro bits h
  have := x.isLt
  have := y.isLt
  have := Bool.toNat_lt w
  obtain rfl := Option.some.inj h
  omega

theorem ttr (x : TReg) (y : TReg) (w : Bool) : Statement (.ttr x y w) := by
  intro bits h
  have := x.isLt
  have := y.isLt
  have := Bool.toNat_lt w
  obtain rfl := Option.some.inj h
  omega

theorem tbcr (x : TReg) (y : TReg) (b : SReg) (w : Bool) (v : Bool) : Statement (.tbcr x y b w v) := by
  intro bits h
  have := x.isLt
  have := y.isLt
  have := b.isLt
  have := Bool.toNat_lt w
  have := Bool.toNat_lt v
  obtain rfl := Option.some.inj h
  omega

theorem tbcc (x : TReg) (y : TReg) (b : SReg) (w : Bool) (v : Bool) : Statement (.tbcc x y b w v) := by
  intro bits h
  have := x.isLt
  have := y.isLt
  have := b.isLt
  have := Bool.toNat_lt w
  have := Bool.toNat_lt v
  obtain rfl := Option.some.inj h
  omega

theorem textr (d : SReg) (t : TReg) (b : SReg) (w : Bool) (v : Bool) : Statement (.textr d t b w v) := by
  intro bits h
  have := d.isLt
  have := t.isLt
  have := b.isLt
  have := Bool.toNat_lt w
  have := Bool.toNat_lt v
  obtain rfl := Option.some.inj h
  omega

theorem tins (t : TReg) (a : SReg) (b : SReg) (w : Bool) (v : Bool) : Statement (.tins t a b w v) := by
  intro bits h
  have := t.isLt
  have := a.isLt
  have := b.isLt
  have := Bool.toNat_lt w
  have := Bool.toNat_lt v
  obtain rfl := Option.some.inj h
  omega

theorem vset (p : PReg) (a : SReg) (b : SReg) (w : Bool) (v : Bool) : Statement (.vset p a b w v) := by
  intro bits h
  have := p.isLt
  have := a.isLt
  have := b.isLt
  have := Bool.toNat_lt w
  have := Bool.toNat_lt v
  obtain rfl := Option.some.inj h
  omega

theorem vadv (p : PReg) (a : SReg) (b : SReg) (w : Bool) (v : Bool) : Statement (.vadv p a b w v) := by
  intro bits h
  have := p.isLt
  have := a.isLt
  have := b.isLt
  have := Bool.toNat_lt w
  have := Bool.toNat_lt v
  obtain rfl := Option.some.inj h
  omega

theorem vget (d : SReg) (p : PReg) (n : BitVec 1) : Statement (.vget d p n) := by
  intro bits h
  have := d.isLt
  have := p.isLt
  have := n.isLt
  obtain rfl := Option.some.inj h
  omega

theorem tadd (x : TReg) (y : TReg) (z : TReg) (w : Bool) (v : Bool) (s : Bool) (f : BitVec 4) : Statement (.tadd x y z w v s f) := by
  intro bits h
  have := x.isLt
  have := y.isLt
  have := z.isLt
  have := Bool.toNat_lt w
  have := Bool.toNat_lt v
  have := Bool.toNat_lt s
  have := f.isLt
  obtain rfl := Option.some.inj h
  omega

theorem tsub (x : TReg) (y : TReg) (z : TReg) (w : Bool) (v : Bool) (s : Bool) (f : BitVec 4) : Statement (.tsub x y z w v s f) := by
  intro bits h
  have := x.isLt
  have := y.isLt
  have := z.isLt
  have := Bool.toNat_lt w
  have := Bool.toNat_lt v
  have := Bool.toNat_lt s
  have := f.isLt
  obtain rfl := Option.some.inj h
  omega

theorem tmul (x : TReg) (y : TReg) (z : TReg) (w : Bool) (v : Bool) (s : Bool) (f : BitVec 4) : Statement (.tmul x y z w v s f) := by
  intro bits h
  have := x.isLt
  have := y.isLt
  have := z.isLt
  have := Bool.toNat_lt w
  have := Bool.toNat_lt v
  have := Bool.toNat_lt s
  have := f.isLt
  obtain rfl := Option.some.inj h
  omega

theorem tfma (x : TReg) (y : TReg) (z : TReg) (w : Bool) (v : Bool) (f : BitVec 4) : Statement (.tfma x y z w v f) := by
  intro bits h
  have := x.isLt
  have := y.isLt
  have := z.isLt
  have := Bool.toNat_lt w
  have := Bool.toNat_lt v
  have := f.isLt
  obtain rfl := Option.some.inj h
  omega

theorem tmin (x : TReg) (y : TReg) (z : TReg) (w : Bool) (v : Bool) (f : BitVec 4) : Statement (.tmin x y z w v f) := by
  intro bits h
  have := x.isLt
  have := y.isLt
  have := z.isLt
  have := Bool.toNat_lt w
  have := Bool.toNat_lt v
  have := f.isLt
  obtain rfl := Option.some.inj h
  omega

theorem tmax (x : TReg) (y : TReg) (z : TReg) (w : Bool) (v : Bool) (f : BitVec 4) : Statement (.tmax x y z w v f) := by
  intro bits h
  have := x.isLt
  have := y.isLt
  have := z.isLt
  have := Bool.toNat_lt w
  have := Bool.toNat_lt v
  have := f.isLt
  obtain rfl := Option.some.inj h
  omega

theorem tabs (x : TReg) (y : TReg) (w : Bool) (s : Bool) (f : BitVec 4) : Statement (.tabs x y w s f) := by
  intro bits h
  have := x.isLt
  have := y.isLt
  have := Bool.toNat_lt w
  have := Bool.toNat_lt s
  have := f.isLt
  obtain rfl := Option.some.inj h
  omega

theorem tneg (x : TReg) (y : TReg) (w : Bool) (s : Bool) (f : BitVec 4) : Statement (.tneg x y w s f) := by
  intro bits h
  have := x.isLt
  have := y.isLt
  have := Bool.toNat_lt w
  have := Bool.toNat_lt s
  have := f.isLt
  obtain rfl := Option.some.inj h
  omega

theorem tand (x : TReg) (y : TReg) (z : TReg) (w : Bool) (v : Bool) (f : BitVec 4) : Statement (.tand x y z w v f) := by
  intro bits h
  have := x.isLt
  have := y.isLt
  have := z.isLt
  have := Bool.toNat_lt w
  have := Bool.toNat_lt v
  have := f.isLt
  obtain rfl := Option.some.inj h
  omega

theorem tor (x : TReg) (y : TReg) (z : TReg) (w : Bool) (v : Bool) (f : BitVec 4) : Statement (.tor x y z w v f) := by
  intro bits h
  have := x.isLt
  have := y.isLt
  have := z.isLt
  have := Bool.toNat_lt w
  have := Bool.toNat_lt v
  have := f.isLt
  obtain rfl := Option.some.inj h
  omega

theorem txor (x : TReg) (y : TReg) (z : TReg) (w : Bool) (v : Bool) (f : BitVec 4) : Statement (.txor x y z w v f) := by
  intro bits h
  have := x.isLt
  have := y.isLt
  have := z.isLt
  have := Bool.toNat_lt w
  have := Bool.toNat_lt v
  have := f.isLt
  obtain rfl := Option.some.inj h
  omega

theorem tshl (x : TReg) (y : TReg) (z : TReg) (w : Bool) (v : Bool) (s : Bool) (f : BitVec 4) : Statement (.tshl x y z w v s f) := by
  intro bits h
  have := x.isLt
  have := y.isLt
  have := z.isLt
  have := Bool.toNat_lt w
  have := Bool.toNat_lt v
  have := Bool.toNat_lt s
  have := f.isLt
  obtain rfl := Option.some.inj h
  omega

theorem tshr (x : TReg) (y : TReg) (z : TReg) (w : Bool) (v : Bool) (f : BitVec 4) : Statement (.tshr x y z w v f) := by
  intro bits h
  have := x.isLt
  have := y.isLt
  have := z.isLt
  have := Bool.toNat_lt w
  have := Bool.toNat_lt v
  have := f.isLt
  obtain rfl := Option.some.inj h
  omega

theorem tsra (x : TReg) (y : TReg) (z : TReg) (w : Bool) (v : Bool) (f : BitVec 4) : Statement (.tsra x y z w v f) := by
  intro bits h
  have := x.isLt
  have := y.isLt
  have := z.isLt
  have := Bool.toNat_lt w
  have := Bool.toNat_lt v
  have := f.isLt
  obtain rfl := Option.some.inj h
  omega

theorem tscale (x : TReg) (y : TReg) (z : TReg) (w : Bool) (v : Bool) (f : BitVec 4) : Statement (.tscale x y z w v f) := by
  intro bits h
  have := x.isLt
  have := y.isLt
  have := z.isLt
  have := Bool.toNat_lt w
  have := Bool.toNat_lt v
  have := f.isLt
  obtain rfl := Option.some.inj h
  omega

theorem tsel (x : TReg) (y : TReg) (z : TReg) (w : Bool) (v : Bool) (f : BitVec 4) : Statement (.tsel x y z w v f) := by
  intro bits h
  have := x.isLt
  have := y.isLt
  have := z.isLt
  have := Bool.toNat_lt w
  have := Bool.toNat_lt v
  have := f.isLt
  obtain rfl := Option.some.inj h
  omega

theorem tcmpEq (x : TReg) (y : TReg) (z : TReg) (w : Bool) (v : Bool) (f : BitVec 4) : Statement (.tcmpEq x y z w v f) := by
  intro bits h
  have := x.isLt
  have := y.isLt
  have := z.isLt
  have := Bool.toNat_lt w
  have := Bool.toNat_lt v
  have := f.isLt
  obtain rfl := Option.some.inj h
  omega

theorem tcmpNe (x : TReg) (y : TReg) (z : TReg) (w : Bool) (v : Bool) (f : BitVec 4) : Statement (.tcmpNe x y z w v f) := by
  intro bits h
  have := x.isLt
  have := y.isLt
  have := z.isLt
  have := Bool.toNat_lt w
  have := Bool.toNat_lt v
  have := f.isLt
  obtain rfl := Option.some.inj h
  omega

theorem tcmpLt (x : TReg) (y : TReg) (z : TReg) (w : Bool) (v : Bool) (f : BitVec 4) : Statement (.tcmpLt x y z w v f) := by
  intro bits h
  have := x.isLt
  have := y.isLt
  have := z.isLt
  have := Bool.toNat_lt w
  have := Bool.toNat_lt v
  have := f.isLt
  obtain rfl := Option.some.inj h
  omega

theorem tcmpLe (x : TReg) (y : TReg) (z : TReg) (w : Bool) (v : Bool) (f : BitVec 4) : Statement (.tcmpLe x y z w v f) := by
  intro bits h
  have := x.isLt
  have := y.isLt
  have := z.isLt
  have := Bool.toNat_lt w
  have := Bool.toNat_lt v
  have := f.isLt
  obtain rfl := Option.some.inj h
  omega

theorem texp (x : TReg) (y : TReg) (w : Bool) (f : BitVec 4) : Statement (.texp x y w f) := by
  intro bits h
  have := x.isLt
  have := y.isLt
  have := Bool.toNat_lt w
  have := f.isLt
  obtain rfl := Option.some.inj h
  omega

theorem tlog (x : TReg) (y : TReg) (w : Bool) (f : BitVec 4) : Statement (.tlog x y w f) := by
  intro bits h
  have := x.isLt
  have := y.isLt
  have := Bool.toNat_lt w
  have := f.isLt
  obtain rfl := Option.some.inj h
  omega

theorem trcp (x : TReg) (y : TReg) (w : Bool) (f : BitVec 4) : Statement (.trcp x y w f) := by
  intro bits h
  have := x.isLt
  have := y.isLt
  have := Bool.toNat_lt w
  have := f.isLt
  obtain rfl := Option.some.inj h
  omega

theorem trsq (x : TReg) (y : TReg) (w : Bool) (f : BitVec 4) : Statement (.trsq x y w f) := by
  intro bits h
  have := x.isLt
  have := y.isLt
  have := Bool.toNat_lt w
  have := f.isLt
  obtain rfl := Option.some.inj h
  omega

theorem tredrAdd (x : TReg) (y : TReg) (w : Bool) (f : BitVec 4) : Statement (.tredrAdd x y w f) := by
  intro bits h
  have := x.isLt
  have := y.isLt
  have := Bool.toNat_lt w
  have := f.isLt
  obtain rfl := Option.some.inj h
  omega

theorem tredrMax (x : TReg) (y : TReg) (w : Bool) (f : BitVec 4) : Statement (.tredrMax x y w f) := by
  intro bits h
  have := x.isLt
  have := y.isLt
  have := Bool.toNat_lt w
  have := f.isLt
  obtain rfl := Option.some.inj h
  omega

theorem tredrMin (x : TReg) (y : TReg) (w : Bool) (f : BitVec 4) : Statement (.tredrMin x y w f) := by
  intro bits h
  have := x.isLt
  have := y.isLt
  have := Bool.toNat_lt w
  have := f.isLt
  obtain rfl := Option.some.inj h
  omega

theorem tredcAdd (x : TReg) (y : TReg) (w : Bool) (f : BitVec 4) : Statement (.tredcAdd x y w f) := by
  intro bits h
  have := x.isLt
  have := y.isLt
  have := Bool.toNat_lt w
  have := f.isLt
  obtain rfl := Option.some.inj h
  omega

theorem tredcMax (x : TReg) (y : TReg) (w : Bool) (f : BitVec 4) : Statement (.tredcMax x y w f) := by
  intro bits h
  have := x.isLt
  have := y.isLt
  have := Bool.toNat_lt w
  have := f.isLt
  obtain rfl := Option.some.inj h
  omega

theorem tredcMin (x : TReg) (y : TReg) (w : Bool) (f : BitVec 4) : Statement (.tredcMin x y w f) := by
  intro bits h
  have := x.isLt
  have := y.isLt
  have := Bool.toNat_lt w
  have := f.isLt
  obtain rfl := Option.some.inj h
  omega

theorem tdotr (x : TReg) (y : TReg) (z : TReg) (w : Bool) (v : Bool) (f : BitVec 4) : Statement (.tdotr x y z w v f) := by
  intro bits h
  have := x.isLt
  have := y.isLt
  have := z.isLt
  have := Bool.toNat_lt w
  have := Bool.toNat_lt v
  have := f.isLt
  obtain rfl := Option.some.inj h
  omega

theorem tcvt (x : TReg) (y : TReg) (w : Bool) (f : BitVec 4) (r : BitVec 3) : Statement (.tcvt x y w f r) := by
  intro bits h
  have := x.isLt
  have := y.isLt
  have := Bool.toNat_lt w
  have := f.isLt
  have := r.isLt
  obtain rfl := Option.some.inj h
  omega

theorem tqnt (x : TReg) (y : TReg) (z : TReg) (w : Bool) (v : Bool) (c : BitVec 3) (r : Bool) : Statement (.tqnt x y z w v c r) := by
  intro bits h
  have := x.isLt
  have := y.isLt
  have := z.isLt
  have := Bool.toNat_lt w
  have := Bool.toNat_lt v
  have := c.isLt
  have := Bool.toNat_lt r
  obtain rfl := Option.some.inj h
  omega

theorem tdq (x : TReg) (y : TReg) (z : TReg) (w : Bool) (v : Bool) (c : BitVec 3) (r : Bool) : Statement (.tdq x y z w v c r) := by
  intro bits h
  have := x.isLt
  have := y.isLt
  have := z.isLt
  have := Bool.toNat_lt w
  have := Bool.toNat_lt v
  have := c.isLt
  have := Bool.toNat_lt r
  obtain rfl := Option.some.inj h
  omega

theorem tredx (x : TReg) (y : TReg) (w : Bool) (l : BitVec 3) : Statement (.tredx x y w l) := by
  intro bits h
  have := x.isLt
  have := y.isLt
  have := Bool.toNat_lt w
  have := l.isLt
  obtain rfl := Option.some.inj h
  omega

theorem mma (t : Bool) (a : BitVec 4) (b : BitVec 4) (k : BitVec 3) : Statement (.mma t a b k) := by
  intro bits h
  have := Bool.toNat_lt t
  have := a.isLt
  have := b.isLt
  have := k.isLt
  obtain rfl := Option.some.inj h
  omega

theorem mmal (t : Bool) (a : BitVec 4) (b : BitVec 4) (k : BitVec 3) : Statement (.mmal t a b k) := by
  intro bits h
  have := Bool.toNat_lt t
  have := a.isLt
  have := b.isLt
  have := k.isLt
  obtain rfl := Option.some.inj h
  omega

theorem mmah16 (t : Bool) (a : BitVec 4) (b : BitVec 4) (k : BitVec 3) : Statement (.mmah16 t a b k) := by
  intro bits h
  have := Bool.toNat_lt t
  have := a.isLt
  have := b.isLt
  have := k.isLt
  obtain rfl := Option.some.inj h
  omega

theorem mmah32 (t : Bool) (a : BitVec 4) (b : BitVec 4) (k : BitVec 3) : Statement (.mmah32 t a b k) := by
  intro bits h
  have := Bool.toNat_lt t
  have := a.isLt
  have := b.isLt
  have := k.isLt
  obtain rfl := Option.some.inj h
  omega

theorem mmah64 (t : Bool) (a : BitVec 4) (b : BitVec 4) (k : BitVec 3) : Statement (.mmah64 t a b k) := by
  intro bits h
  have := Bool.toNat_lt t
  have := a.isLt
  have := b.isLt
  have := k.isLt
  obtain rfl := Option.some.inj h
  omega

theorem mmae (t : Bool) (a : BitVec 4) (b : BitVec 4) (k : BitVec 3) : Statement (.mmae t a b k) := by
  intro bits h
  have := Bool.toNat_lt t
  have := a.isLt
  have := b.isLt
  have := k.isLt
  obtain rfl := Option.some.inj h
  omega

theorem mmaeL (t : Bool) (a : BitVec 4) (b : BitVec 4) (k : BitVec 3) : Statement (.mmaeL t a b k) := by
  intro bits h
  have := Bool.toNat_lt t
  have := a.isLt
  have := b.isLt
  have := k.isLt
  obtain rfl := Option.some.inj h
  omega

theorem mmaeH16 (t : Bool) (a : BitVec 4) (b : BitVec 4) (k : BitVec 3) : Statement (.mmaeH16 t a b k) := by
  intro bits h
  have := Bool.toNat_lt t
  have := a.isLt
  have := b.isLt
  have := k.isLt
  obtain rfl := Option.some.inj h
  omega

theorem mmaeH32 (t : Bool) (a : BitVec 4) (b : BitVec 4) (k : BitVec 3) : Statement (.mmaeH32 t a b k) := by
  intro bits h
  have := Bool.toNat_lt t
  have := a.isLt
  have := b.isLt
  have := k.isLt
  obtain rfl := Option.some.inj h
  omega

theorem mmaeH64 (t : Bool) (a : BitVec 4) (b : BitVec 4) (k : BitVec 3) : Statement (.mmaeH64 t a b k) := by
  intro bits h
  have := Bool.toNat_lt t
  have := a.isLt
  have := b.isLt
  have := k.isLt
  obtain rfl := Option.some.inj h
  omega

theorem mldw (b : BitVec 4) (k : BitVec 3) : Statement (.mldw b k) := by
  intro bits h
  have := b.isLt
  have := k.isLt
  obtain rfl := Option.some.inj h
  omega

theorem mlease (a : SReg) (w : Bool) : Statement (.mlease a w) := by
  intro bits h
  have := a.isLt
  have := Bool.toNat_lt w
  obtain rfl := Option.some.inj h
  omega

theorem mrel : Statement (.mrel) := by
  intro bits h
  obtain rfl := Option.some.inj h
  omega

theorem mrdef (a : SReg) (b : SReg) (w : Bool) (v : Bool) : Statement (.mrdef a b w v) := by
  intro bits h
  have := a.isLt
  have := b.isLt
  have := Bool.toNat_lt w
  have := Bool.toNat_lt v
  obtain rfl := Option.some.inj h
  omega

theorem mrq (d : SReg) (a : SReg) (w : Bool) : Statement (.mrq d a w) := by
  intro bits h
  have := d.isLt
  have := a.isLt
  have := Bool.toNat_lt w
  obtain rfl := Option.some.inj h
  omega

theorem mchk (d : SReg) : Statement (.mchk d) := by
  intro bits h
  have := d.isLt
  obtain rfl := Option.some.inj h
  omega

theorem mdrain : Statement (.mdrain) := by
  intro bits h
  obtain rfl := Option.some.inj h
  omega

theorem cpyMs (d : SReg) (a : SReg) (b : SReg) (w : Bool) (v : Bool) : Statement (.cpyMs d a b w v) := by
  intro bits h
  have := d.isLt
  have := a.isLt
  have := b.isLt
  have := Bool.toNat_lt w
  have := Bool.toNat_lt v
  obtain rfl := Option.some.inj h
  omega

theorem cpySm (d : SReg) (a : SReg) (b : SReg) (w : Bool) (v : Bool) : Statement (.cpySm d a b w v) := by
  intro bits h
  have := d.isLt
  have := a.isLt
  have := b.isLt
  have := Bool.toNat_lt w
  have := Bool.toNat_lt v
  obtain rfl := Option.some.inj h
  omega

theorem cpyMr (d : SReg) (a : SReg) (b : SReg) (w : Bool) (v : Bool) : Statement (.cpyMr d a b w v) := by
  intro bits h
  have := d.isLt
  have := a.isLt
  have := b.isLt
  have := Bool.toNat_lt w
  have := Bool.toNat_lt v
  obtain rfl := Option.some.inj h
  omega

theorem cpyUr (d : SReg) (a : SReg) (b : SReg) (w : Bool) (v : Bool) : Statement (.cpyUr d a b w v) := by
  intro bits h
  have := d.isLt
  have := a.isLt
  have := b.isLt
  have := Bool.toNat_lt w
  have := Bool.toNat_lt v
  obtain rfl := Option.some.inj h
  omega

theorem cpyEs (d : SReg) (a : SReg) (b : SReg) (w : Bool) (v : Bool) : Statement (.cpyEs d a b w v) := by
  intro bits h
  have := d.isLt
  have := a.isLt
  have := b.isLt
  have := Bool.toNat_lt w
  have := Bool.toNat_lt v
  obtain rfl := Option.some.inj h
  omega

theorem cpySe (d : SReg) (a : SReg) (b : SReg) (w : Bool) (v : Bool) : Statement (.cpySe d a b w v) := by
  intro bits h
  have := d.isLt
  have := a.isLt
  have := b.isLt
  have := Bool.toNat_lt w
  have := Bool.toNat_lt v
  obtain rfl := Option.some.inj h
  omega

theorem cpywp (d : SReg) (a : SReg) (w : Bool) : Statement (.cpywp d a w) := by
  intro bits h
  have := d.isLt
  have := a.isLt
  have := Bool.toNat_lt w
  obtain rfl := Option.some.inj h
  omega

theorem cwait (a : SReg) (b : SReg) (w : Bool) (v : Bool) : Statement (.cwait a b w v) := by
  intro bits h
  have := a.isLt
  have := b.isLt
  have := Bool.toNat_lt w
  have := Bool.toNat_lt v
  obtain rfl := Option.some.inj h
  omega

theorem own (d : SReg) (a : SReg) (w : Bool) : Statement (.own d a w) := by
  intro bits h
  have := d.isLt
  have := a.isLt
  have := Bool.toNat_lt w
  obtain rfl := Option.some.inj h
  omega

theorem mepi (t : Bool) (y : TReg) (c : BitVec 7) (r : BitVec 6) : Statement (.mepi t y c r) := by
  intro bits h
  have := Bool.toNat_lt t
  have := y.isLt
  have := c.isLt
  have := r.isLt
  obtain rfl := Option.some.inj h
  omega

theorem trap (c : BitVec 16) : Statement (.trap c) := by
  intro bits h
  have := c.isLt
  obtain rfl := Option.some.inj h
  omega

theorem sysrd (d : SReg) (n : BitVec 16) : Statement (.sysrd d n) := by
  intro bits h
  have := d.isLt
  have := n.isLt
  obtain rfl := Option.some.inj h
  omega

theorem syswr (a : SReg) (n : BitVec 16) : Statement (.syswr a n) := by
  intro bits h
  have := a.isLt
  have := n.isLt
  obtain rfl := Option.some.inj h
  omega

theorem sealq (d : SReg) (a : SReg) : Statement (.sealq d a) := by
  intro bits h
  have := d.isLt
  have := a.isLt
  obtain rfl := Option.some.inj h
  omega

theorem frep (a : SReg) : Statement (.frep a) := by
  intro bits h
  have := a.isLt
  obtain rfl := Option.some.inj h
  omega

theorem diagrd (d : SReg) (a : SReg) : Statement (.diagrd d a) := by
  intro bits h
  have := d.isLt
  have := a.isLt
  obtain rfl := Option.some.inj h
  omega

theorem diagwr (d : SReg) (a : SReg) : Statement (.diagwr d a) := by
  intro bits h
  have := d.isLt
  have := a.isLt
  obtain rfl := Option.some.inj h
  omega

theorem repair (d : SReg) (a : SReg) : Statement (.repair d a) := by
  intro bits h
  have := d.isLt
  have := a.isLt
  obtain rfl := Option.some.inj h
  omega

theorem mstat (d : SReg) : Statement (.mstat d) := by
  intro bits h
  have := d.isLt
  obtain rfl := Option.some.inj h
  omega

theorem halt : Statement (.halt) := by
  intro bits h
  obtain rfl := Option.some.inj h
  omega

theorem wfe : Statement (.wfe) := by
  intro bits h
  obtain rfl := Option.some.inj h
  omega

theorem mmurd (d : SReg) (a : SReg) : Statement (.mmurd d a) := by
  intro bits h
  have := d.isLt
  have := a.isLt
  obtain rfl := Option.some.inj h
  omega

theorem mmuwr (d : SReg) (a : SReg) : Statement (.mmuwr d a) := by
  intro bits h
  have := d.isLt
  have := a.isLt
  obtain rfl := Option.some.inj h
  omega

theorem mmuinv (a : SReg) : Statement (.mmuinv a) := by
  intro bits h
  have := a.isLt
  obtain rfl := Option.some.inj h
  omega

theorem kwrap (d : SReg) (a : SReg) : Statement (.kwrap d a) := by
  intro bits h
  have := d.isLt
  have := a.isLt
  obtain rfl := Option.some.inj h
  omega

theorem kunwrap (d : SReg) (a : SReg) : Statement (.kunwrap d a) := by
  intro bits h
  have := d.isLt
  have := a.isLt
  obtain rfl := Option.some.inj h
  omega

theorem kscrub (a : SReg) : Statement (.kscrub a) := by
  intro bits h
  have := a.isLt
  obtain rfl := Option.some.inj h
  omega

theorem hashi (a : SReg) : Statement (.hashi a) := by
  intro bits h
  have := a.isLt
  obtain rfl := Option.some.inj h
  omega

theorem hashu (d : SReg) (a : SReg) : Statement (.hashu d a) := by
  intro bits h
  have := d.isLt
  have := a.isLt
  obtain rfl := Option.some.inj h
  omega

theorem hashf (d : SReg) (a : SReg) : Statement (.hashf d a) := by
  intro bits h
  have := d.isLt
  have := a.isLt
  obtain rfl := Option.some.inj h
  omega

theorem ecsign (d : SReg) (a : SReg) : Statement (.ecsign d a) := by
  intro bits h
  have := d.isLt
  have := a.isLt
  obtain rfl := Option.some.inj h
  omega

theorem ecvrfy (d : SReg) (a : SReg) : Statement (.ecvrfy d a) := by
  intro bits h
  have := d.isLt
  have := a.isLt
  obtain rfl := Option.some.inj h
  omega

theorem aesenc (d : SReg) (a : SReg) : Statement (.aesenc d a) := by
  intro bits h
  have := d.isLt
  have := a.isLt
  obtain rfl := Option.some.inj h
  omega

theorem aesdec (d : SReg) (a : SReg) : Statement (.aesdec d a) := by
  intro bits h
  have := d.isLt
  have := a.isLt
  obtain rfl := Option.some.inj h
  omega

theorem rng (d : SReg) : Statement (.rng d) := by
  intro bits h
  have := d.isLt
  obtain rfl := Option.some.inj h
  omega

theorem repf (c : BitVec 4) (r : BitVec 8) (d : BitVec 4) (a : BitVec 4) (b : BitVec 4) : Statement (.repf c r d a b) := by
  intro bits h
  have := c.isLt
  have := r.isLt
  have := d.isLt
  have := a.isLt
  have := b.isLt
  obtain rfl := Option.some.inj h
  omega

theorem evSummaryWrite (cluster : Nat) (value : Word) : Statement (.evSummaryWrite cluster value) := by
  intro bits h
  cases h

theorem evSafeDistance (h : Nat) : Statement (.evSafeDistance h) := by
  intro bits h
  cases h

theorem evWaitSafePoint (h : Nat) : Statement (.evWaitSafePoint h) := by
  intro bits h
  cases h

theorem evChunkCommit (h : Nat) : Statement (.evChunkCommit h) := by
  intro bits h
  cases h

theorem evCoreClearComplete (core : Nat) : Statement (.evCoreClearComplete core) := by
  intro bits h
  cases h

theorem evMessageDelivery (m core : Nat) : Statement (.evMessageDelivery m core) := by
  intro bits h
  cases h

theorem evPlacementWalk (m : Nat) : Statement (.evPlacementWalk m) := by
  intro bits h
  cases h

theorem evDataMessageArrival (m : Nat) : Statement (.evDataMessageArrival m) := by
  intro bits h
  cases h

theorem evContinuationResume (m core : Nat) : Statement (.evContinuationResume m core) := by
  intro bits h
  cases h

theorem evRegisterClearComplete (h : Nat) : Statement (.evRegisterClearComplete h) := by
  intro bits h
  cases h

theorem evMigrationArrival (h : Nat) : Statement (.evMigrationArrival h) := by
  intro bits h
  cases h

theorem evCuminQuery (q : Nat) : Statement (.evCuminQuery q) := by
  intro bits h
  cases h

theorem evWqryAnswer (q : Nat) : Statement (.evWqryAnswer q) := by
  intro bits h
  cases h

theorem evCopyStart (cluster chan : Nat) : Statement (.evCopyStart cluster chan) := by
  intro bits h
  cases h

theorem evCopyElementDelivery (cluster chan : Nat) : Statement (.evCopyElementDelivery cluster chan) := by
  intro bits h
  cases h

theorem evWeightKeyLoad (cluster chan : Nat) : Statement (.evWeightKeyLoad cluster chan) := by
  intro bits h
  cases h

theorem evSealGroupVerify (cluster chan : Nat) : Statement (.evSealGroupVerify cluster chan) := by
  intro bits h
  cases h

theorem evGrantBatch (cluster : Nat) : Statement (.evGrantBatch cluster) := by
  intro bits h
  cases h

theorem evGrantExpiry (cluster : Nat) : Statement (.evGrantExpiry cluster) := by
  intro bits h
  cases h

theorem evWeightLoadComplete (h : Nat) : Statement (.evWeightLoadComplete h) := by
  intro bits h
  cases h

theorem evResidueCheckComplete (cluster : Nat) (mismatch : Bool) : Statement (.evResidueCheckComplete cluster mismatch) := by
  intro bits h
  cases h

theorem evLeaseScrubComplete (cluster : Nat) : Statement (.evLeaseScrubComplete cluster) := by
  intro bits h
  cases h

theorem evCoreParityError (h : Nat) : Statement (.evCoreParityError h) := by
  intro bits h
  cases h

theorem evParityRequeueTimeout (h : Nat) : Statement (.evParityRequeueTimeout h) := by
  intro bits h
  cases h

theorem evPairCommitTimeout (h : Nat) : Statement (.evPairCommitTimeout h) := by
  intro bits h
  cases h

theorem evSpecWayTimeout (h : Nat) : Statement (.evSpecWayTimeout h) := by
  intro bits h
  cases h

theorem evExclusiveTokenRelease (h : Nat) : Statement (.evExclusiveTokenRelease h) := by
  intro bits h
  cases h

theorem evCapsuleComplete (cap : Nat) : Statement (.evCapsuleComplete cap) := by
  intro bits h
  cases h

theorem evJoinStall (cap : Nat) : Statement (.evJoinStall cap) := by
  intro bits h
  cases h

theorem evDeadline (cap : Nat) : Statement (.evDeadline cap) := by
  intro bits h
  cases h

theorem evLeaseOverrun (h : Nat) : Statement (.evLeaseOverrun h) := by
  intro bits h
  cases h

theorem evEngineStall (cluster chan : Nat) : Statement (.evEngineStall cluster chan) := by
  intro bits h
  cases h

theorem evQueueStall (queue : Nat) : Statement (.evQueueStall queue) := by
  intro bits h
  cases h

theorem evHeartbeatEcho (missed : List Nat) (saffronMissed : Bool) : Statement (.evHeartbeatEcho missed saffronMissed) := by
  intro bits h
  cases h

theorem evHeartbeatFailure (who : Option Nat) : Statement (.evHeartbeatFailure who) := by
  intro bits h
  cases h

theorem evQueueSelect : Statement (.evQueueSelect) := by
  intro bits h
  cases h

theorem evAdmitHead (queue : Nat) : Statement (.evAdmitHead queue) := by
  intro bits h
  cases h

theorem evPendingSlotCopy (queue : Nat) : Statement (.evPendingSlotCopy queue) := by
  intro bits h
  cases h

theorem evArmingWindowEntry (queue : Nat) : Statement (.evArmingWindowEntry queue) := by
  intro bits h
  cases h

theorem evLaunchRelease (cap : Nat) : Statement (.evLaunchRelease cap) := by
  intro bits h
  cases h

theorem evGatePoll (queue : Nat) : Statement (.evGatePoll queue) := by
  intro bits h
  cases h

theorem evPreemptionSearch (queue : Nat) : Statement (.evPreemptionSearch queue) := by
  intro bits h
  cases h

theorem evClaimExpiry (core : Nat) : Statement (.evClaimExpiry core) := by
  intro bits h
  cases h

theorem evPowerDivision : Statement (.evPowerDivision) := by
  intro bits h
  cases h

theorem evClusterPowerGate (cluster : Nat) : Statement (.evClusterPowerGate cluster) := by
  intro bits h
  cases h

theorem evClusterWake (cluster : Nat) : Statement (.evClusterWake cluster) := by
  intro bits h
  cases h

theorem evRetentionEntry (unit : Nat) : Statement (.evRetentionEntry unit) := by
  intro bits h
  cases h

theorem evRetentionExit (unit : Nat) : Statement (.evRetentionExit unit) := by
  intro bits h
  cases h

theorem evTier1Writeback (line : Nat) : Statement (.evTier1Writeback line) := by
  intro bits h
  cases h

theorem evEpochReencrypt (granule : Nat) : Statement (.evEpochReencrypt granule) := by
  intro bits h
  cases h

theorem evArrayDiagnosis (cluster : Nat) (mismatch : Bool) : Statement (.evArrayDiagnosis cluster mismatch) := by
  intro bits h
  cases h

theorem evSummaryTimeout (cluster : Nat) : Statement (.evSummaryTimeout cluster) := by
  intro bits h
  cases h

theorem evPackageFatalError (trigger : Nat) : Statement (.evPackageFatalError trigger) := by
  intro bits h
  cases h

theorem evWarmResetTimeout : Statement (.evWarmResetTimeout) := by
  intro bits h
  cases h

theorem evPowerUp : Statement (.evPowerUp) := by
  intro bits h
  cases h

theorem evImageDelivery (cluster : Nat) (bytes : List Byte) : Statement (.evImageDelivery cluster bytes) := by
  intro bits h
  cases h

theorem evInputOutOfRange (millivolts : Int) : Statement (.evInputOutOfRange millivolts) := by
  intro bits h
  cases h

theorem evInputLoss : Statement (.evInputLoss) := by
  intro bits h
  cases h

theorem evPtpFrame (offset : Int) : Statement (.evPtpFrame offset) := by
  intro bits h
  cases h

theorem evPpsInput (offset : Int) (ref10 : Bool) : Statement (.evPpsInput offset ref10) := by
  intro bits h
  cases h

theorem evPpsOutput : Statement (.evPpsOutput) := by
  intro bits h
  cases h

theorem evPeerMemoryWrite (win : PeerPort) (off : Nat) (bytes : List Byte) : Statement (.evPeerMemoryWrite win off bytes) := by
  intro bits h
  cases h

theorem evPeerMemoryRead (win : PeerPort) (off len : Nat) : Statement (.evPeerMemoryRead win off len) := by
  intro bits h
  cases h

theorem evPeerGate (win : PeerPort) (value : Word) : Statement (.evPeerGate win value) := by
  intro bits h
  cases h

theorem evPeerDoorbell (win : PeerPort) (value : Word) : Statement (.evPeerDoorbell win value) := by
  intro bits h
  cases h

theorem evLinkDown (link : Nat) : Statement (.evLinkDown link) := by
  intro bits h
  cases h

theorem evGoWrite (vf queue : Nat) (mask : BitVec 8) : Statement (.evGoWrite vf queue mask) := by
  intro bits h
  cases h

theorem evQcfgWrite (vf queue : Nat) (value : Word) : Statement (.evQcfgWrite vf queue value) := by
  intro bits h
  cases h

theorem evHostRegisterWrite (vf off : Nat) (bytes : List Byte) : Statement (.evHostRegisterWrite vf off bytes) := by
  intro bits h
  cases h

theorem evDoorbellCountRead (vf n : Nat) : Statement (.evDoorbellCountRead vf n) := by
  intro bits h
  cases h

theorem evCtailWrite (vf : Nat) (value : BitVec 32) : Statement (.evCtailWrite vf value) := by
  intro bits h
  cases h

theorem evHostRead (vf : Nat) (addr : HostAddr) (len : Nat) : Statement (.evHostRead vf addr len) := by
  intro bits h
  cases h

theorem evHostWrite (vf : Nat) (addr : HostAddr) (bytes : List Byte) : Statement (.evHostWrite vf addr bytes) := by
  intro bits h
  cases h

theorem evHostFetchadd (vf : Nat) (addr : HostAddr) (wide : Bool) (operand : Word) : Statement (.evHostFetchadd vf addr wide operand) := by
  intro bits h
  cases h

theorem evHostSwap (vf : Nat) (addr : HostAddr) (wide : Bool) (operand : Word) : Statement (.evHostSwap vf addr wide operand) := by
  intro bits h
  cases h

theorem evHostCas (vf : Nat) (addr : HostAddr) (width : Nat) (compare swap : BitVec 128) : Statement (.evHostCas vf addr width compare swap) := by
  intro bits h
  cases h

theorem evTier1MapWrite (slot : Nat) (value : Word) : Statement (.evTier1MapWrite slot value) := by
  intro bits h
  cases h

theorem evFunctionLevelReset (vf : Nat) : Statement (.evFunctionLevelReset vf) := by
  intro bits h
  cases h

theorem evAbortCapsule (via : Option Nat) (part : Nat) (queue : Nat) (ctag : Word) : Statement (.evAbortCapsule via part queue ctag) := by
  intro bits h
  cases h

theorem evTeardownQueue (via : Option Nat) (part : Nat) (queue : Nat) : Statement (.evTeardownQueue via part queue) := by
  intro bits h
  cases h

theorem evResetPartition (via : Option Nat) (part : Nat) : Statement (.evResetPartition via part) := by
  intro bits h
  cases h

theorem evWarmReset (via : Option Nat) : Statement (.evWarmReset via) := by
  intro bits h
  cases h

theorem evColdReset (via : Option Nat) : Statement (.evColdReset via) := by
  intro bits h
  cases h

theorem evReadEvlog (via : Option Nat) (part seq : Nat) : Statement (.evReadEvlog via part seq) := by
  intro bits h
  cases h

theorem evReadDump (via : Option Nat) (off : Nat) : Statement (.evReadDump via off) := by
  intro bits h
  cases h

theorem evDumpKey (via : Option Nat) : Statement (.evDumpKey via) := by
  intro bits h
  cases h

theorem evFence (via : Option Nat) (cluster : Nat) : Statement (.evFence via cluster) := by
  intro bits h
  cases h

theorem evUnfence (via : Option Nat) (cluster : Nat) : Statement (.evUnfence via cluster) := by
  intro bits h
  cases h

theorem evSetBudget (via : Option Nat) (units : Nat) : Statement (.evSetBudget via units) := by
  intro bits h
  cases h

theorem evGetStatus (via : Option Nat) : Statement (.evGetStatus via) := by
  intro bits h
  cases h

theorem evManagementWake (cluster : Nat) : Statement (.evManagementWake cluster) := by
  intro bits h
  cases h

theorem evConfigWrite (via : Option Nat) (part : Nat) (bytes : List Byte) : Statement (.evConfigWrite via part bytes) := by
  intro bits h
  cases h

theorem evQueueBind (via : Option Nat) (queue fn : Nat) : Statement (.evQueueBind via queue fn) := by
  intro bits h
  cases h

theorem evWindowWrite (via : Option Nat) (win : Nat) (bytes : List Byte) : Statement (.evWindowWrite via win bytes) := by
  intro bits h
  cases h

theorem evLock (via : Option Nat) : Statement (.evLock via) := by
  intro bits h
  cases h

theorem evLockComplete : Statement (.evLockComplete) := by
  intro bits h
  cases h

theorem evKeyset (owner : BitVec 16) (wrapped : List Byte) : Statement (.evKeyset owner wrapped) := by
  intro bits h
  cases h

theorem evKeydrop (owner : BitVec 16) : Statement (.evKeydrop owner) := by
  intro bits h
  cases h

theorem evGrant (granule : Nat) (owner : BitVec 16) : Statement (.evGrant granule owner) := by
  intro bits h
  cases h

theorem evShare (caller : BitVec 16) (granule : Nat) (grantee : BitVec 16) : Statement (.evShare caller granule grantee) := by
  intro bits h
  cases h

theorem evUnshare (caller : BitVec 16) (granule : Nat) (grantee : BitVec 16) : Statement (.evUnshare caller granule grantee) := by
  intro bits h
  cases h

theorem evSeal (granule : Nat) (record : List Byte) : Statement (.evSeal granule record) := by
  intro bits h
  cases h

theorem evRelease (granule : Nat) : Statement (.evRelease granule) := by
  intro bits h
  cases h

theorem evReleaseComplete (granule : Nat) : Statement (.evReleaseComplete granule) := by
  intro bits h
  cases h

theorem evPldmMonitor (sensor : PldmPoint) : Statement (.evPldmMonitor sensor) := by
  intro bits h
  cases h

theorem evPldmFirmwareUpdate (off : PldmPoint) (bytes : List Byte) : Statement (.evPldmFirmwareUpdate off bytes) := by
  intro bits h
  cases h

theorem evGetVersion (path : Nat) (request : List Byte) : Statement (.evGetVersion path request) := by
  intro bits h
  cases h

theorem evGetCapabilities (path : Nat) (request : List Byte) : Statement (.evGetCapabilities path request) := by
  intro bits h
  cases h

theorem evNegotiateAlgorithms (path : Nat) (request : List Byte) : Statement (.evNegotiateAlgorithms path request) := by
  intro bits h
  cases h

theorem evGetDigests (path : Nat) (request : List Byte) : Statement (.evGetDigests path request) := by
  intro bits h
  cases h

theorem evGetCertificate (path : Nat) (request : List Byte) : Statement (.evGetCertificate path request) := by
  intro bits h
  cases h

theorem evChallenge (path : Nat) (request : List Byte) : Statement (.evChallenge path request) := by
  intro bits h
  cases h

theorem evGetMeasurements (path : Nat) (request : List Byte) : Statement (.evGetMeasurements path request) := by
  intro bits h
  cases h

theorem evSpdmUnsupportedRequest (path : Nat) (request : List Byte) : Statement (.evSpdmUnsupportedRequest path request) := by
  intro bits h
  cases h

theorem evIllegalInstruction (w : BitVec 32) : Statement (.evIllegalInstruction w) := by
  intro bits h
  cases h

theorem evProducerCompletion (h : Nat) : Statement (.evProducerCompletion h) := by
  intro bits h
  cases h

theorem evWaitTimeReached (h : Nat) : Statement (.evWaitTimeReached h) := by
  intro bits h
  cases h

theorem evPowerShareAvailable (cluster : Nat) : Statement (.evPowerShareAvailable cluster) := by
  intro bits h
  cases h

theorem evHoldover : Statement (.evHoldover) := by
  intro bits h
  cases h

theorem evLinkUp (link : Nat) : Statement (.evLinkUp link) := by
  intro bits h
  cases h

theorem evPeerRefusal (cap : Nat) (handle : Word) : Statement (.evPeerRefusal cap handle) := by
  intro bits h
  cases h

theorem evManagementDoorbell (cluster : Nat) : Statement (.evManagementDoorbell cluster) := by
  intro bits h
  cases h

theorem evCompletionWriteError (queue : Nat) : Statement (.evCompletionWriteError queue) := by
  intro bits h
  cases h

end Sys2Proof.Laws.Fits
end

