-- ==== Sys2Proof/Tests/Slice0.lean ====
section
/-! SUPPORT. Tests of the model's author: terms that are not well formed, words written out from the encodings, steps whose results the
spec states, and a witness for each statement that has hypotheses. -/

namespace Sys2Proof.Tests

open Sys2Proof.Machine Sys2Proof.Claims

/-- A task with all sixteen tiles, on core 0, of capsule 1. -/
def aTask : Hart := { Hart.reset 5 .task 0 with run := .ready, cap := 1 }

/-- Extent 0: code and data at 0x10000, 0x2000 bytes, R, W, X. Extent 1: an endpoint. Extent 2: a report extent. -/
def someExtents : List Extent :=
  [#v[0x10000, 0x2000, 0x107, 0], #v[0x1234, 0x1000, 0x503, 0], #v[0x20000, 0x200, 0x603, 0]]

/-- A capsule of partition 0 on cluster 0, with the extents above. -/
def aCapsule : Capsule :=
  { id := 1, part := 0, queue := 0, pri := 0, record := [], exts := someExtents, foot := [(0, 0)], foot2 := [], key := 0,
    state := .running, preempt := [], joins := [], commits := 0, tasks := 1, nflt := 0, tlaunch := 0, report := false, launch := none }

/-- A running package in which that task issues next. -/
def aState : State := { State.reset with hart := aTask, parked := [State.reset.hart], caps := [aCapsule], phase := .running, nextId := 6 }

/-- The same with values in scalar registers. -/
def withRegs (l : List (SReg × Word)) (s : State) : State := l.foldl (fun t p => writeS p.1 p.2 t) s

/-- Firmware of cluster 0, and Saffron, as the context that issues. -/
def aFirmware : State := { State.reset with hart := { Hart.reset 9 .firmware (serviceCore 0) with run := .ready }, phase := .running, nextId := 10 }
def aSaffron : State := { State.reset with hart := { State.reset.hart with run := .ready }, phase := .running }

/-- Does the answer go on, in a state of which this holds? -/
def goesOn (a : Answer) (f : State → Bool) : Bool :=
  match a with
  | .next s => f s
  | _ => false

/-- Does the operation succeed, with a result of which this holds? -/
def meets {α : Type} (r : Run α) (f : α → Bool) : Bool :=
  match r with
  | .ok a => f a
  | .error _ => false

/-- R47 to R60: a word of each instruction of major 0x01, every field at a value of its own. -/
theorem test_words_scalar :
    decodeWord 0x057F2C00 = .ok (.add 11 31 5 true false) ∧
    decodeWord 0x047B9201 = .ok (.sub 3 27 18 false true) ∧
    decodeWord 0x0662F002 = .ok (.and 19 2 30 false false) ∧
    decodeWord 0x046E7003 = .ok (.or 3 14 14 false false) ∧
    decodeWord 0x04727004 = .ok (.xor 3 18 14 false false) ∧
    decodeWord 0x07E8AA05 = .ok (.shl 31 8 21 false true) ∧
    decodeWord 0x04481206 = .ok (.shr 2 8 2 false true) ∧
    decodeWord 0x05C59207 = .ok (.sra 14 5 18 false true) ∧
    decodeWord 0x065BB008 = .ok (.rol 18 27 22 false false) ∧
    decodeWord 0x0673AA09 = .ok (.min 19 19 21 false true) ∧
    decodeWord 0x0492B80A = .ok (.max 4 18 23 false false) ∧
    decodeWord 0x0687860B = .ok (.minu 20 7 16 true true) ∧
    decodeWord 0x05F3F60C = .ok (.maxu 15 19 30 true true) ∧
    decodeWord 0x0548D00D = .ok (.slt 10 8 26 false false) ∧
    decodeWord 0x0473560E = .ok (.sltu 3 19 10 true true) ∧
    decodeWord 0x070F500F = .ok (.seq 24 15 10 false false) ∧
    decodeWord 0x062E3410 = .ok (.sel 17 14 6 true false) := by
  refine ⟨?_, ?_, ?_, ?_, ?_, ?_, ?_, ?_, ?_, ?_, ?_, ?_, ?_, ?_, ?_, ?_, ?_⟩ <;> rfl

/-- R47 to R60: a word of each instruction of majors 0x02 to 0x04, every field at a value of its own. -/
theorem test_words_scalar_other :
    decodeWord 0x0BD07000 = .ok (.mul 30 16 14 false false) ∧
    decodeWord 0x0B329E01 = .ok (.mulh 25 18 19 true true) ∧
    decodeWord 0x0AECA602 = .ok (.mulhu 23 12 20 true true) ∧
    decodeWord 0x087B1E03 = .ok (.div 3 27 3 true true) ∧
    decodeWord 0x0AF61A04 = .ok (.divu 23 22 3 false true) ∧
    decodeWord 0x0AB3B605 = .ok (.rem 21 19 22 true true) ∧
    decodeWord 0x0AEDEC06 = .ok (.remu 23 13 29 true false) ∧
    decodeWord 0x0FEF0400 = .ok (.mov 31 15 true) ∧
    decodeWord 0x0CD40001 = .ok (.clz 6 20 false) ∧
    decodeWord 0x0E020002 = .ok (.ctz 16 2 false) ∧
    decodeWord 0x0F2A0003 = .ok (.popc 25 10 false) ∧
    decodeWord 0x0F080404 = .ok (.bswap 24 8 true) ∧
    decodeWord 0x11BEE400 = .ok (.hmk 13 30 28 true false) ∧
    decodeWord 0x10CF0401 = .ok (.hoff 6 15 true) ∧
    decodeWord 0x12490002 = .ok (.hlen 18 9 false) ∧
    decodeWord 0x136E0403 = .ok (.hrgt 27 14 true) ∧
    decodeWord 0x12E00004 = .ok (.time 23) := by
  refine ⟨?_, ?_, ?_, ?_, ?_, ?_, ?_, ?_, ?_, ?_, ?_, ?_, ?_, ?_, ?_, ?_, ?_⟩ <;> rfl

/-- R47 to R60: a word of each instruction of majors 0x05 to 0x0E, every field at a value of its own. -/
theorem test_words_immediate :
    decodeWord 0x15CCFA97 = .ok (.addi 14 12 true 0x7a97) ∧
    decodeWord 0x1905168F = .ok (.andi 8 5 false 0x168f) ∧
    decodeWord 0x1CA8018C = .ok (.ori 5 8 false 0x18c) ∧
    decodeWord 0x221B21A2 = .ok (.xori 16 27 false 0x21a2) ∧
    decodeWord 0x2541001B = .ok (.shli 10 1 false 27) ∧
    decodeWord 0x2A4C803D = .ok (.shri 18 12 true 61) ∧
    decodeWord 0x2CB7001E = .ok (.srai 5 23 false 30) ∧
    decodeWord 0x33BC8261 = .ok (.ext 29 28 true 9 33) ∧
    decodeWord 0x35A48261 = .ok (.ins 13 4 true 9 33) ∧
    decodeWord 0x38401866 = .ok (.movi 2 0x1866) := by
  refine ⟨?_, ?_, ?_, ?_, ?_, ?_, ?_, ?_, ?_, ?_⟩ <;> rfl

/-- R47 to R60: a word of each instruction of majors 0x10 to 0x17 but 0x14, and REPF, every field at a value of its own. -/
theorem test_words_control :
    decodeWord 0x40670E1A = .ok (.brEq 3 7 0xe1a) ∧
    decodeWord 0x40C42AE2 = .ok (.brNe 6 4 0xae2) ∧
    decodeWord 0x42824347 = .ok (.brLt 20 2 0x347) ∧
    decodeWord 0x403364D8 = .ok (.brGe 1 19 0x4d8) ∧
    decodeWord 0x42449E5E = .ok (.brLtu 18 4 0x1e5e) ∧
    decodeWord 0x4194A0D1 = .ok (.brGeu 12 20 0xd1) ∧
    decodeWord 0x444800CF = .ok (.j 0x4800cf) ∧
    decodeWord 0x4B7F50FD = .ok (.jl 0x37f50fd) ∧
    decodeWord 0x4C070400 = .ok (.jr 7 true) ∧
    decodeWord 0x5400E884 = .ok (.safe 0xe884) ∧
    decodeWord 0x58000000 = .ok (.done) ∧
    decodeWord 0x58066201 = .ok (.cont 6 12 false true) ∧
    decodeWord 0x58000002 = .ok (.nop) ∧
    decodeWord 0x5E8BB76F = .ok (.limm 0x28bb76f) ∧
    decodeWord 0xF9F8C774 = .ok (.repf 7 0xe3 1 13 13) := by
  refine ⟨?_, ?_, ?_, ?_, ?_, ?_, ?_, ?_, ?_, ?_, ?_, ?_, ?_, ?_, ?_⟩ <;> rfl

/-- R47 to R60: a word of each instruction of major 0x14, every field at a value of its own. -/
theorem test_words_message :
    decodeWord 0x5005AE00 = .ok (.send 5 21 true true) ∧
    decodeWord 0x514C8001 = .ok (.sendt 10 12 16 false false) ∧
    decodeWord 0x501C8602 = .ok (.sendx 28 16 true true) ∧
    decodeWord 0x52001003 = .ok (.recv 16 2) ∧
    decodeWord 0x50400804 = .ok (.trecv 2 1) ∧
    decodeWord 0x50985E05 = .ok (.jnew 4 24 11 true true) ∧
    decodeWord 0x501B0006 = .ok (.arrive 27 false) ∧
    decodeWord 0x50110A07 = .ok (.wqry 17 1 false true) ∧
    decodeWord 0x5005BA08 = .ok (.wait 5 23 false true) ∧
    decodeWord 0x50000009 = .ok (.migr) ∧
    decodeWord 0x5000000A = .ok (.mret) ∧
    decodeWord 0x52BC1E0B = .ok (.spawn 21 28 3 true true) := by
  refine ⟨?_, ?_, ?_, ?_, ?_, ?_, ?_, ?_, ?_, ?_, ?_, ?_⟩ <;> rfl

/-- R47 to R60: a word of each instruction of majors 0x18 to 0x1D but 0x1C, every field at a value of its own. -/
theorem test_words_memory :
    decodeWord 0x611419CC = .ok (.ldB 8 20 false 0x19cc) ∧
    decodeWord 0x611BB7AE = .ok (.ldH 8 27 true 0x17ae) ∧
    decodeWord 0x63485091 = .ok (.ldW 26 8 false 0x1091) ∧
    decodeWord 0x620C7FAB = .ok (.ldD 16 12 false 0x1fab) ∧
    decodeWord 0x643A8F1D = .ok (.stB 1 26 true 0xf1d) ∧
    decodeWord 0x6527AE50 = .ok (.stH 9 7 true 0xe50) ∧
    decodeWord 0x675EDE90 = .ok (.stW 26 30 true 0x1e90) ∧
    decodeWord 0x65836345 = .ok (.stD 12 3 false 0x345) ∧
    decodeWord 0x69102B3B = .ok (.ldc 8 16 false 0x2b3b) ∧
    decodeWord 0x6CF00000 = .ok (.lds 7 16 false) ∧
    decodeWord 0x6C10F401 = .ok (.sts 16 30 true false) ∧
    decodeWord 0x74000000 = .ok (.fenceX) ∧
    decodeWord 0x74000001 = .ok (.fenceH) ∧
    decodeWord 0x7408C202 = .ok (.gate 8 24 false true) ∧
    decodeWord 0x741D8003 = .ok (.cinv 29 16 false false) := by
  refine ⟨?_, ?_, ?_, ?_, ?_, ?_, ?_, ?_, ?_, ?_, ?_, ?_, ?_, ?_, ?_⟩ <;> rfl

/-- R47 to R60: a word of each instruction of major 0x1C, every field at a value of its own. -/
theorem test_words_atomic :
    decodeWord 0x73762410 = .ok (.amoadd 27 22 4 true false true) ∧
    decodeWord 0x73A67411 = .ok (.amoand 29 6 14 true false true) ∧
    decodeWord 0x71EDC002 = .ok (.amoor 15 13 24 false false false) ∧
    decodeWord 0x70A12C13 = .ok (.amoxor 5 1 5 true false true) ∧
    decodeWord 0x72DE6004 = .ok (.amomin 22 30 12 false false false) ∧
    decodeWord 0x703AC015 = .ok (.amomax 1 26 24 false false true) ∧
    decodeWord 0x7387D816 = .ok (.amominu 28 7 27 false false true) ∧
    decodeWord 0x70EA8A17 = .ok (.amomaxu 7 10 17 false true true) ∧
    decodeWord 0x724ED818 = .ok (.amoswp 18 14 27 false false true) ∧
    decodeWord 0x73AFB409 = .ok (.amocas 29 15 22 true false false) ∧
    decodeWord 0x72310C0A = .ok (.amofadd 17 17 1 true false) ∧
    decodeWord 0x7281C80B = .ok (.amofmin 20 1 25 false false) ∧
    decodeWord 0x70B0A00C = .ok (.amofmax 5 16 20 false false) ∧
    decodeWord 0x700BB420 = .ok (.amoaddNr 11 22 true false false) ∧
    decodeWord 0x70083C21 = .ok (.amoandNr 8 7 true false false) ∧
    decodeWord 0x70117832 = .ok (.amoorNr 17 15 false false true) ∧
    decodeWord 0x700BA233 = .ok (.amoxorNr 11 20 false true true) ∧
    decodeWord 0x70119434 = .ok (.amominNr 17 18 true false true) ∧
    decodeWord 0x701E9225 = .ok (.amomaxNr 30 18 false true false) ∧
    decodeWord 0x700E2636 = .ok (.amominuNr 14 4 true true true) ∧
    decodeWord 0x7003B227 = .ok (.amomaxuNr 3 22 false true false) ∧
    decodeWord 0x7007B42A = .ok (.amofaddNr 7 22 true false) ∧
    decodeWord 0x701DCA2B = .ok (.amofminNr 29 25 false true) ∧
    decodeWord 0x70054A2C = .ok (.amofmaxNr 5 9 false true) := by
  refine ⟨?_, ?_, ?_, ?_, ?_, ?_, ?_, ?_, ?_, ?_, ?_, ?_, ?_, ?_, ?_, ?_, ?_, ?_, ?_, ?_, ?_, ?_, ?_, ?_⟩ <;> rfl

/-- R47 to R60: a word of each instruction of majors 0x20 to 0x22, every field at a value of its own. -/
theorem test_words_tile_data :
    decodeWord 0x80F55000 = .ok (.tld 3 6 2 5 true) ∧
    decodeWord 0x81A2D001 = .ok (.tldc 6 4 1 3 true) ∧
    decodeWord 0x80B46002 = .ok (.tst 2 6 2 1 true) ∧
    decodeWord 0x86658000 = .ok (.tlds 9 4 2 6 false) ∧
    decodeWord 0x85DF6001 = .ok (.tsts 7 3 3 5 true) ∧
    decodeWord 0x893F0000 = .ok (.tshape 9 31 false) ∧
    decodeWord 0x888F0001 = .ok (.tshapeq 4 15) ∧
    decodeWord 0x89A00002 = .ok (.tclr 13) ∧
    decodeWord 0x888F0003 = .ok (.tmov 4 15 false) ∧
    decodeWord 0x88450404 = .ok (.ttr 2 5 true) ∧
    decodeWord 0x882FCA05 = .ok (.tbcr 1 15 25 false true) ∧
    decodeWord 0x89A3DE06 = .ok (.tbcc 13 3 27 true true) ∧
    decodeWord 0x89A39607 = .ok (.textr 13 3 18 true true) ∧
    decodeWord 0x88491208 = .ok (.tins 2 9 2 false true) ∧
    decodeWord 0x8829F809 = .ok (.vset 1 9 31 false false) ∧
    decodeWord 0x88E9180A = .ok (.vadv 7 9 3 false false) ∧
    decodeWord 0x8927000B = .ok (.vget 9 7 0) := by
  refine ⟨?_, ?_, ?_, ?_, ?_, ?_, ?_, ?_, ?_, ?_, ?_, ?_, ?_, ?_, ?_, ?_, ?_⟩ <;> rfl

/-- R47 to R60: a word of each instruction of major 0x24, every field at a value of its own. -/
theorem test_words_tile_arith :
    decodeWord 0x9205B780 = .ok (.tadd 8 1 6 true true false 15) ∧
    decodeWord 0x92710F81 = .ok (.tsub 9 12 4 false false true 15) ∧
    decodeWord 0x90D3F782 = .ok (.tmul 3 4 15 true true false 15) ∧
    decodeWord 0x9226D783 = .ok (.tfma 8 9 11 false true 15) ∧
    decodeWord 0x93454784 = .ok (.tmin 13 1 5 false false 15) ∧
    decodeWord 0x93265785 = .ok (.tmax 12 9 9 false true 15) ∧
    decodeWord 0x93E00F86 = .ok (.tabs 15 8 false true 15) ∧
    decodeWord 0x92242F87 = .ok (.tneg 8 9 true true 15) ∧
    decodeWord 0x91118788 = .ok (.tand 4 4 6 false false 15) ∧
    decodeWord 0x91878789 = .ok (.tor 6 1 14 false false 15) ∧
    decodeWord 0x92F3F78A = .ok (.txor 11 12 15 true true 15) ∧
    decodeWord 0x904AF78B = .ok (.tshl 1 2 11 true true false 15) ∧
    decodeWord 0x9146078C = .ok (.tshr 5 1 8 false false 15) ∧
    decodeWord 0x9205778D = .ok (.tsra 8 1 5 true true 15) ∧
    decodeWord 0x9190678E = .ok (.tscale 6 4 1 true false 15) ∧
    decodeWord 0x90C5A78F = .ok (.tsel 3 1 6 true false 15) ∧
    decodeWord 0x9166C790 = .ok (.tcmpEq 5 9 11 false false 15) ∧
    decodeWord 0x9344A791 = .ok (.tcmpNe 13 1 2 true false 15) ∧
    decodeWord 0x91E86792 = .ok (.tcmpLt 7 10 1 true false 15) ∧
    decodeWord 0x916D0793 = .ok (.tcmpLe 5 11 4 false false 15) ∧
    decodeWord 0x93F02798 = .ok (.texp 15 12 true 15) ∧
    decodeWord 0x91B02799 = .ok (.tlog 6 12 true 15) ∧
    decodeWord 0x9170079A = .ok (.trcp 5 12 false 15) ∧
    decodeWord 0x93B8279B = .ok (.trsq 14 14 true 15) ∧
    decodeWord 0x933407A0 = .ok (.tredrAdd 12 13 false 15) ∧
    decodeWord 0x927407A1 = .ok (.tredrMax 9 13 false 15) ∧
    decodeWord 0x92E807A2 = .ok (.tredrMin 11 10 false 15) ∧
    decodeWord 0x904407A4 = .ok (.tredcAdd 1 1 false 15) ∧
    decodeWord 0x918827A5 = .ok (.tredcMax 6 2 true 15) ∧
    decodeWord 0x922407A6 = .ok (.tredcMin 8 9 false 15) ∧
    decodeWord 0x906E57A8 = .ok (.tdotr 1 11 9 false true 15) := by
  refine ⟨?_, ?_, ?_, ?_, ?_, ?_, ?_, ?_, ?_, ?_, ?_, ?_, ?_, ?_, ?_, ?_, ?_, ?_, ?_, ?_, ?_, ?_, ?_, ?_, ?_, ?_, ?_, ?_, ?_, ?_, ?_⟩ <;> rfl

/-- R47 to R60: a word of each instruction of majors 0x25 to 0x27, every field at a value of its own. -/
theorem test_words_tile_convert :
    decodeWord 0x94600340 = .ok (.tcvt 1 8 false 6 4) ∧
    decodeWord 0x9BE49300 = .ok (.tqnt 15 9 2 false true 3 false) ∧
    decodeWord 0x9B950681 = .ok (.tdq 14 5 4 false false 6 true) ∧
    decodeWord 0x9E382100 = .ok (.tredx 8 14 true 1) := by
  refine ⟨?_, ?_, ?_, ?_⟩ <;> rfl

/-- R47 to R60: a word of each instruction of majors 0x30, 0x31, 0x33, every field at a value of its own. -/
theorem test_words_matrix :
    decodeWord 0xC23ED800 = .ok (.mma true 15 11 3) ∧
    decodeWord 0xC02AF200 = .ok (.mmal false 10 11 6) ∧
    decodeWord 0xC00A9400 = .ok (.mmah16 false 2 10 2) ∧
    decodeWord 0xC216F401 = .ok (.mmah32 true 5 11 6) ∧
    decodeWord 0xC22A9402 = .ok (.mmah64 true 10 10 2) ∧
    decodeWord 0xC0206100 = .ok (.mmae false 8 1 4) ∧
    decodeWord 0xC22CB300 = .ok (.mmaeL true 11 2 6) ∧
    decodeWord 0xC02E1D00 = .ok (.mmaeH16 false 11 8 3) ∧
    decodeWord 0xC2222501 = .ok (.mmaeH32 true 8 8 4) ∧
    decodeWord 0xC03E5502 = .ok (.mmaeH64 false 15 9 2) ∧
    decodeWord 0xC0014810 = .ok (.mldw 5 1) ∧
    decodeWord 0xC41E0400 = .ok (.mlease 30 true) ∧
    decodeWord 0xC4000001 = .ok (.mrel) ∧
    decodeWord 0xC4015402 = .ok (.mrdef 1 10 true false) ∧
    decodeWord 0xC7710403 = .ok (.mrq 27 17 true) ∧
    decodeWord 0xC5200004 = .ok (.mchk 9) ∧
    decodeWord 0xC4000005 = .ok (.mdrain) ∧
    decodeWord 0xCD02F3E0 = .ok (.mepi true 2 0x79 60) := by
  refine ⟨?_, ?_, ?_, ?_, ?_, ?_, ?_, ?_, ?_, ?_, ?_, ?_, ?_, ?_, ?_, ?_, ?_, ?_⟩ <;> rfl

/-- R47 to R60: a word of each instruction of major 0x32, every field at a value of its own. -/
theorem test_words_copy :
    decodeWord 0xC9A7F000 = .ok (.cpyMs 13 7 30 false false) ∧
    decodeWord 0xCA632E01 = .ok (.cpySm 19 3 5 true true) ∧
    decodeWord 0xC8B4DC02 = .ok (.cpyMr 5 20 27 true false) ∧
    decodeWord 0xCAEC4603 = .ok (.cpyUr 23 12 8 true true) ∧
    decodeWord 0xC9A13204 = .ok (.cpyEs 13 1 6 false true) ∧
    decodeWord 0xCACF6C05 = .ok (.cpySe 22 15 13 true false) ∧
    decodeWord 0xC9CC0410 = .ok (.cpywp 14 12 true) ∧
    decodeWord 0xC80B2420 = .ok (.cwait 11 4 true false) ∧
    decodeWord 0xC9790430 = .ok (.own 11 25 true) := by
  refine ⟨?_, ?_, ?_, ?_, ?_, ?_, ?_, ?_, ?_⟩ <;> rfl

/-- R47 to R60: a word of each instruction of majors 0x38 to 0x3B, every field at a value of its own. -/
theorem test_words_system :
    decodeWord 0xE000321D = .ok (.trap 0x321d) ∧
    decodeWord 0xE6E08010 = .ok (.sysrd 23 0x8010) ∧
    decodeWord 0xE81D8010 = .ok (.syswr 29 0x8010) ∧
    decodeWord 0xED490000 = .ok (.sealq 10 9) ∧
    decodeWord 0xEC0C0001 = .ok (.frep 12) ∧
    decodeWord 0xEC6D0002 = .ok (.diagrd 3 13) ∧
    decodeWord 0xEDBC0003 = .ok (.diagwr 13 28) ∧
    decodeWord 0xEE630004 = .ok (.repair 19 3) ∧
    decodeWord 0xED800005 = .ok (.mstat 12) ∧
    decodeWord 0xEC000006 = .ok (.halt) ∧
    decodeWord 0xEC000007 = .ok (.wfe) := by
  refine ⟨?_, ?_, ?_, ?_, ?_, ?_, ?_, ?_, ?_, ?_, ?_⟩ <;> rfl

/-- R47 to R60: a word of each instruction of majors 0x3C, 0x3D, every field at a value of its own. -/
theorem test_words_security :
    decodeWord 0xF3CE0000 = .ok (.mmurd 30 14) ∧
    decodeWord 0xF3290001 = .ok (.mmuwr 25 9) ∧
    decodeWord 0xF01C0002 = .ok (.mmuinv 28) ∧
    decodeWord 0xF0490010 = .ok (.kwrap 2 9) ∧
    decodeWord 0xF0820011 = .ok (.kunwrap 4 2) ∧
    decodeWord 0xF01B0012 = .ok (.kscrub 27) ∧
    decodeWord 0xF4160000 = .ok (.hashi 22) ∧
    decodeWord 0xF5550001 = .ok (.hashu 10 21) ∧
    decodeWord 0xF7C50002 = .ok (.hashf 30 5) ∧
    decodeWord 0xF5090010 = .ok (.ecsign 8 9) ∧
    decodeWord 0xF5D10011 = .ok (.ecvrfy 14 17) ∧
    decodeWord 0xF5670020 = .ok (.aesenc 11 7) ∧
    decodeWord 0xF72C0021 = .ok (.aesdec 25 12) ∧
    decodeWord 0xF7400030 = .ok (.rng 26) := by
  refine ⟨?_, ?_, ?_, ?_, ?_, ?_, ?_, ?_, ?_, ?_, ?_, ?_, ?_, ?_⟩ <;> rfl

/-! Terms that are not well formed: one for each check, and the decoder's refusals (R50, R53 to R60). -/

theorem test_ill_formed_fields :
    Instr.wf (.ext 4 5 false 15 48) = true ∧ Instr.wf (.ext 4 5 false 15 49) = false ∧ Instr.wf (.ins 4 5 false 63 1) = false ∧
    Instr.wf (.tadd 0 1 2 false false false 6) = false ∧ Instr.wf (.tsub 0 1 2 false false false 14) = false ∧
    Instr.wf (.tmul 0 1 2 false false false 7) = false ∧ Instr.wf (.tfma 0 1 2 false false 3) = false ∧
    Instr.wf (.tmin 0 1 2 false false 6) = false ∧ Instr.wf (.tmax 0 1 2 false false 6) = false ∧ Instr.wf (.tabs 0 1 false false 6) = false ∧
    Instr.wf (.tneg 0 1 false false 6) = false ∧ Instr.wf (.tand 0 1 2 false false 4) = false ∧ Instr.wf (.tor 0 1 2 false false 4) = false ∧
    Instr.wf (.txor 0 1 2 false false 5) = false ∧ Instr.wf (.tshl 0 1 2 false false false 4) = false ∧ Instr.wf (.tshr 0 1 2 false false 4) = false ∧
    Instr.wf (.tsra 0 1 2 false false 4) = false ∧ Instr.wf (.tscale 0 1 2 false false 3) = false ∧ Instr.wf (.tsel 0 1 2 false false 8) = false ∧
    Instr.wf (.tcmpEq 0 1 2 false false 6) = false ∧ Instr.wf (.tcmpNe 0 1 2 false false 6) = false ∧ Instr.wf (.tcmpLt 0 1 2 false false 6) = false ∧
    Instr.wf (.tcmpLe 0 1 2 false false 6) = false ∧ Instr.wf (.texp 0 1 false 3) = false ∧ Instr.wf (.tlog 0 1 false 6) = false ∧
    Instr.wf (.trcp 0 1 false 0) = false ∧ Instr.wf (.trsq 0 1 false 2) = false ∧ Instr.wf (.tredrAdd 0 1 false 1) = false ∧
    Instr.wf (.tredrMax 0 1 false 6) = false ∧ Instr.wf (.tredrMin 0 1 false 0) = false ∧ Instr.wf (.tredcAdd 0 1 false 1) = false ∧
    Instr.wf (.tredcMax 0 1 false 6) = false ∧ Instr.wf (.tredcMin 0 1 false 0) = false ∧ Instr.wf (.tdotr 0 1 2 false false 2) = false ∧
    Instr.wf (.tcvt 0 1 false 8 0) = false ∧ Instr.wf (.tcvt 0 1 false 7 5) = false ∧ Instr.wf (.tqnt 0 1 2 false false 0 true) = false ∧
    Instr.wf (.tdq 0 1 2 false false 0 true) = false := by decide

theorem test_ill_formed_matrix_and_system :
    Instr.wf (.mma true 0 1 0) = false ∧ Instr.wf (.mmal true 0 1 0) = false ∧ Instr.wf (.mmah16 true 0 1 0) = false ∧
    Instr.wf (.mmah32 true 0 1 0) = false ∧ Instr.wf (.mmah64 true 0 1 0) = false ∧ Instr.wf (.mmae true 0 1 0) = false ∧
    Instr.wf (.mmaeL true 0 1 0) = false ∧ Instr.wf (.mmaeH16 true 0 1 0) = false ∧ Instr.wf (.mmaeH32 true 0 1 0) = false ∧
    Instr.wf (.mmaeH64 true 0 1 0) = false ∧ Instr.wf (.mldw 1 0) = false ∧ Instr.wf (.sysrd 5 9) = false ∧ Instr.wf (.syswr 5 1) = false ∧
    Instr.wf (.syswr 5 0x8002) = false := by decide

theorem test_ill_formed_events :
    Instr.wf (.evSummaryWrite 128 0) = false ∧ Instr.wf (.evCoreClearComplete 4096) = false ∧ Instr.wf (.evMessageDelivery 0 4096) = false ∧
    Instr.wf (.evCopyStart 0 16) = false ∧ Instr.wf (.evCopyElementDelivery 128 0) = false ∧ Instr.wf (.evGrantBatch 128) = false ∧
    Instr.wf (.evQueueStall 32768) = false ∧ Instr.wf (.evEpochReencrypt 720896) = false ∧ Instr.wf (.evPeerGate ⟨12, 0, 0⟩ 0) = false ∧
    Instr.wf (.evLinkDown 12) = false ∧ Instr.wf (.evGoWrite 17 0 1) = false ∧ Instr.wf (.evDoorbellCountRead 1 512) = false ∧
    Instr.wf (.evHostCas 1 ⟨0, false⟩ 2 0 0) = false ∧ Instr.wf (.evGrant 720896 1) = false := by decide

/-- R50, R52, R53, R57: words that the decoder refuses, by the reason it names. -/
theorem test_refused_words :
    decodeWord 0x00000000 = .error .reservedMajor ∧ decodeWord 0xFFFFFFFF = .error .reservedMajor ∧
    decodeWord 0x3C000000 = .error .reservedMajor ∧ decodeWord 0x04000011 = .error .reservedSelector ∧
    decodeWord 0x58200000 = .error .reservedField ∧ decodeWord 0x30850FFF = .error .fieldLimit ∧
    decodeWord 0x90000300 = .error .fieldLimit ∧ decodeWord 0xC2005E00 = .error .reservedSelector ∧
    decodeWord 0xC2004000 = .error .fieldLimit ∧ decodeWord 0xE4A00009 = .error .fieldLimit := by
  refine ⟨?_, ?_, ?_, ?_, ?_, ?_, ?_, ?_, ?_, ?_⟩ <;> rfl

/-! Steps whose results the spec states. -/

/-- R72: a sum is modulo 2^64. -/
theorem test_add_wraps :
    goesOn (exec (.add 3 1 2 false false) (withRegs [(1, 0xFFFFFFFFFFFFFFFF), (2, 2)] aState)) (fun t => t.sreg 3 == 1 && t.hart.r.pc == 4) = true := by decide

/-- R72: a shift count is b[5:0]. -/
theorem test_shl_count :
    goesOn (exec (.shl 3 1 2 false false) (withRegs [(1, 3), (2, 65)] aState)) (fun t => t.sreg 3 == 6) = true := by decide

/-- R73: a zero divisor gives all ones, and -2^63 by -1 leaves remainder 0. -/
theorem test_div_corners :
    goesOn (exec (.div 3 1 2 false false) (withRegs [(1, 7), (2, 0)] aState)) (fun t => t.sreg 3 == 0xFFFFFFFFFFFFFFFF) = true ∧
    goesOn (exec (.rem 3 1 2 false false) (withRegs [(1, 0x8000000000000000), (2, 0xFFFFFFFFFFFFFFFF)] aState)) (fun t => t.sreg 3 == 0) = true := by
  decide

/-- R74: 64 for a zero operand, and the bytes reversed. -/
theorem test_clz_bswap :
    goesOn (exec (.clz 3 1 false) aState) (fun t => t.sreg 3 == 64) = true ∧
    goesOn (exec (.bswap 3 1 false) (withRegs [(1, 0x0102030405060708)] aState)) (fun t => t.sreg 3 == 0x0807060504030201) = true := by decide

/-- R75: the worked example `ext s4, s5, 8, 16`. -/
theorem test_ext_example :
    goesOn (exec (.ext 4 5 false 15 8) (withRegs [(5, 0x123456789ABCDEF0)] aState)) (fun t => t.sreg 4 == 0xBCDE) = true := by decide

/-- R76: HLEN and HRGT of extent 0, and zero past ECNT. -/
theorem test_handle_fields :
    goesOn (exec (.hlen 3 1 false) aState) (fun t => t.sreg 3 == 0x2000) = true ∧
    goesOn (exec (.hlen 3 1 false) (withRegs [(1, 0x0300000000000000)] aState)) (fun t => t.sreg 3 == 0) = true := by decide

/-- R54, R78: a branch 3 words back, and the link of JL. -/
theorem test_branch_and_link :
    goesOn (exec (.brLt 1 2 0x1FFD) ((withRegs [(1, 0xFFFFFFFFFFFFFFFF)] aState).modRegs fun r => { r with pc := 0x40 }))
      (fun t => t.hart.r.pc == 0x34) = true ∧
    goesOn (exec (.jl 0x3F) (aState.modRegs fun r => { r with pc := 0x100 })) (fun t => t.hart.r.pc == 0x1FC && t.sreg 31 == 0x104) = true := by decide

/-- R95: DONE leaves PC and asks for the commit. R39: SAFE sets the distance to zero. -/
theorem test_done_safe :
    goesOn (exec .done aState) (fun t => t.hart.r.pc == 0 && t.hart.run == .committing .done) = true ∧
    goesOn (exec (.safe 0x8000) (aState.mod fun h => { h with sdist := 77 })) (fun t => t.hart.sdist == 0 && t.hart.r.pc == 4) = true := by decide

set_option maxRecDepth 20000 in
/-- R39: the 4,097th instruction is SAFE_DISTANCE, which ends the capsule. -/
theorem test_safe_distance :
    goesOn (exec .nop (aState.mod fun h => { h with sdist := 4095 })) (fun t => t.hart.sdist == 4096 && t.hart.r.pc == 4) = true ∧
    goesOn (exec .nop (aState.mod fun h => { h with sdist := 4096 })) (fun t => t.hart.r.pc == 0) = true := by decide

/-- R24: the last byte of an extent, and the first past it. -/
theorem test_extent_bounds :
    (checkAccess aState 0x1FF8 8 .read).toOption = some 0x11FF8 ∧ (checkAccess aState 0x1FF9 8 .read).toOption = none ∧
    (checkAccess aState 0x0300000000000000 1 .read).toOption = none := by decide

/-- R187: a byte is sign-extended; R188: a task reads its own store, which memory does not show. -/
theorem test_load_store :
    (let s := { withRegs [(4, 0x20)] aState with mem := [(0x10021, 0x80)], got := [(0, 0x4)] }
     goesOn (exec (.ldB 5 4 false 1) s) (fun t => t.sreg 5 == 0xFFFFFFFFFFFFFF80) = true) ∧
    (let s := { withRegs [(4, 0x20), (6, 0x11223344)] aState with got := [(0, 0x4)] }
     goesOn (exec (.stW 6 4 false 0) s) (fun t => viewByte t 0x10023 == 0x11 && t.mem == []) = true) := by decide

set_option maxRecDepth 20000 in
/-- R191: the window index of PC, and one that names nothing (a fault leaves PC and the destination). -/
theorem test_window :
    goesOn (exec (.lds 9 10 false) (withRegs [(10, 0x41)] (aState.modRegs fun r => { r with pc := 0x80 }))) (fun t => t.sreg 9 == 0x80) = true ∧
    goesOn (exec (.lds 9 10 false) (withRegs [(10, 0x42)] aState)) (fun t => t.sreg 9 == 0 && t.hart.r.pc == 0) = true := by decide

/-- R194: an atomic brings back the old value and stores the sum. -/
theorem test_amoadd :
    (let s := { withRegs [(4, 0x20), (5, 3)] aState with mem := [(0x10020, 5)], got := [(0, 0x4)] }
     goesOn (exec (.amoadd 6 4 5 false false true) s) (fun t => viewByte t 0x10020 == 8 && t.sfull 6 == false &&
       t.hart.inflight.map Producer.dest == [.sreg 6 5]) = true) := by decide

/-- R15, R126: the limits of a view stop at zero. -/
theorem test_vadv :
    goesOn (exec (.vadv 2 4 5 false false) (withRegs [(4, 8), (5, 0x00010005)] (setView 2 0x00030002000001000000000000000100 aState)))
      (fun t => t.hart.r.p.get 2 == 0x00000001000001000000000000000108) = true := by decide

set_option maxRecDepth 20000 in
/-- R14: the shape of a tile after TSHAPE; a reserved format is ILLEGAL and leaves it. -/
theorem test_tshape :
    goesOn (exec (.tshape 14 6 false) (withRegs [(6, 0x5FC3)] aState)) (fun t => (t.tile 14).shape == 0x5FC3) = true ∧
    goesOn (exec (.tshape 14 6 false) (withRegs [(6, 0x9FC3)] aState)) (fun t => (t.tile 14).shape == 0x0FFF) = true := by decide

set_option maxRecDepth 20000 in
/-- R162: a zero ring mask is MATRIX_STATE; R163: free rings bind at once. -/
theorem test_mlease :
    goesOn (exec (.mlease 3 false) aState) (fun t => t.hart.r.pc == 0) = true ∧
    goesOn (exec (.mlease 3 false) (withRegs [(3, 5)] aState)) (fun t => t.hart.lease == 5 * 2 ^ 112 + 1 && t.hart.r.pc == 4) = true := by decide

set_option maxRecDepth 20000 in
/-- R220: TRAP 0x42 is a capsule fault; R226: its report goes to the report extent. -/
theorem test_trap :
    goesOn (exec (.trap 0x42) aState) (fun t => (t.caps.map Capsule.state) == [.ending Code.trap.num] && t.mem.readLE 0x20018 8 == 0x42) = true := by decide

set_option maxRecDepth 20000 in
/-- R224: PRIVILEGED outside firmware, the effect inside; R233: a firmware fault saves PC and goes to FWVEC. -/
theorem test_privilege :
    goesOn (exec (.syswr 3 0x8010) (withRegs [(3, 1)] aState)) (fun t => (t.cluster 0).mmuctl == 0) = true ∧
    goesOn (exec (.syswr 3 0x8010) (withRegs [(3, 1)] aFirmware)) (fun t => (t.cluster 0).mmuctl == 1) = true ∧
    goesOn (exec (.rng 3) ((aFirmware.modRegs fun r => { r with pc := 0x40 }).modCluster 0 fun c => { c with fwvec := 0x2000 }))
      (fun t => t.hart.r.pc == 0x2000 && (t.cluster 0).fwpc == 0x40 && (t.cluster 0).fwcode == word Code.privileged.num) = true := by decide

set_option maxRecDepth 20000 in
/-- R347: FENCE marks the cluster, and UNFENCE takes the mark away. -/
theorem test_fence :
    goesOn (exec (.evFence none 3) aState) (fun t => (t.cluster 3).clstat == 1 && (t.cluster 3).mark) = true ∧
    goesOn (exec (.evUnfence none 3) (aState.modCluster 3 fun c => { c with clstat := 1, mark := true }))
      (fun t => (t.cluster 3).clstat == 0 && !(t.cluster 3).mark) = true := by decide

/-- R252: a granted granule is OWNED by the owner that asked. -/
theorem test_grant :
    goesOn (exec (.evGrant 7 5) { aState with memkeys := [{ owner := 5, key := 1, gen := 1 }] })
      (fun t => gotState (t.granule 7) == 1 && gotOwner (t.granule 7) == 5) = true := by decide

set_option maxRecDepth 20000 in
/-- Log 2: right after reset, a word placed where the machine fetches runs as the first instruction. -/
theorem test_first_step :
    goesOn (step (State.reset.withFetchWord 32 0x14637FFF)) (fun t => t.sreg 3 == 0xFFFFFFFFFFFFFFFF && t.hart.sdist == 1) = true := by decide

/-! Witnesses: for each statement, states and operands that meet the hypotheses of its clauses. -/

/-- Room at the last count that has it, and full sources. -/
theorem witness_room :
    Room (aState.mod fun h => { h with sdist := 4095 }) ∧ Room aState ∧ Room aFirmware ∧ Room aSaffron ∧
    Full aState [0, 1, 2, 24, 25, 26, 27, 28, 29, 31] ∧ Full aFirmware [0, 3, 31] ∧ Full aSaffron [0, 3, 31] := by
  unfold Room Full; decide

/-- IntegerResults, MultiplyDivideResults, OneSourceResults, LongImmediates, ScalarFrame, ControlTransfers: room, full sources, and d full. -/
theorem witness_IntegerResults : Room aState ∧ Full aState [1, 2] ∧ aState.sfull 3 = true := by unfold Room Full; decide

theorem witness_MultiplyDivideResults :
    (let s := withRegs [(1, 0x8000000000000000), (2, 0xFFFFFFFFFFFFFFFF)] aState; Room s ∧ Full s [1, 2] ∧ s.sreg 1 = 0x8000000000000000) ∧
    Room aState ∧ Full aState [1, 2] ∧ aState.sreg 2 = 0 := by unfold Room Full; decide

theorem witness_OneSourceResults : Room aState ∧ Full aState [1] ∧ aState.sreg 1 = 0 ∧
    0x0C000800 < 2 ^ 32 ∧ 0x0C000800 / 2 ^ 26 = 3 ∧ bitsOf 0x0C000800 15 11 ≠ 0 ∧ 0x0C000200 / 2 ^ 26 = 3 ∧ bitsOf 0x0C000200 9 9 ≠ 0 := by
  unfold Room Full; decide

/-- The longest field, and the highest bit. -/
theorem witness_ImmediateResults : Room aState ∧ Full aState [1] ∧ (0 : BitVec 6).toNat + (63 : BitVec 6).toNat + 1 ≤ 64 ∧
    (63 : BitVec 6).toNat + (0 : BitVec 6).toNat + 1 ≤ 64 := by unfold Room Full; decide

/-- An extent, an index past ECNT, a context without and one with another copy. -/
theorem witness_HandleAndTimeResults : Room aState ∧ Full aState [1, 2] ∧
    (∃ e : Extent, aState.extents[(aState.sreg 1).toNat / 2 ^ 56]? = some e ∧ e.kind ≠ 0) ∧
    (withRegs [(1, 0x0300000000000000)] aState).extents[((withRegs [(1, 0x0300000000000000)] aState).sreg 1).toNat / 2 ^ 56]? = none ∧
    aState.hart.partner.bind aState.hart? = none ∧
    (∃ p, ({ aState with parked := [{ aTask with id := 7 }] }.mod fun h => { h with partner := some 7 }).hart.partner.bind
      ({ aState with parked := [{ aTask with id := 7 }] }.mod fun h => { h with partner := some 7 }).hart? = some p) := by
  unfold Room Full
  exact ⟨by decide, by decide, ⟨_, rfl, by decide⟩, by decide, by decide, ⟨_, rfl⟩⟩

theorem witness_ControlTransfers : Room aState ∧ Full aState [1, 2] := by unfold Room Full; decide

/-- A header of one tile that the task may execute, and a context that is no task. -/
theorem witness_EndOfTask : Room aState ∧ aState.hart.kind = .task ∧ aFirmware.hart.kind ≠ .task ∧
    Full aState [1, 2, 24, 25, 26, 27, 28, 29] ∧ checkAccess aState (aState.sreg 1) 4 .exec = .ok 0x10000 := by
  unfold Room Full
  exact ⟨by decide, by decide, by decide, by decide, rfl⟩

/-- With pre-emption pending for the task, its capsule has a continuation extent (KIND 4) with a free slot. -/
def aPreempted : State :=
  { aState with caps := [{ aCapsule with exts := someExtents ++ [#v[0x40000, 0x10000, 0x403, 0]], preempt := [5] }], got := [(0, 0x4)] }

set_option maxRecDepth 20000 in
theorem witness_SafePoints : preemptPending aState = false ∧
    (let z := aPreempted.mod fun h => { h with sdist := 0 }
     preemptPending z = true ∧ aPreempted.hart.exempt = false ∧
       roomFor z aPreempted.hart.r (liveMask aPreempted.hart 0x8000) (addOff aPreempted.hart.r.pc 4) = some true) := by decide

/-- A port with an entry: TIME has not come, the port is selected or not. -/
def aMessage : Msg :=
  { kind := .data, cap := 1, entry := 0, dest := 0x400000000, payload := Vector.replicate 6 0x77, tile := some ([], 0x0FFF), src := 0, ranks := 0,
    sender := none, bound := none, tiles := 1, hint := 0, paired := false }

def withPort (l : List PortEntry) (s : State) : State :=
  s.modCore 0 fun k => { k with cap := some 1, ports := k.ports.set 0 l }

theorem witness_WaitRule : Room aState ∧ Full (withRegs [(1, 0xFFFF), (2, 1)] aState) [1, 2] ∧
    (aState.sreg 1).toNat ≤ aState.now.toNat ∧
    (let s := withPort [⟨aMessage, none⟩] (withRegs [(1, 0xFFFF), (2, 1)] aState)
     (s.sreg 2).getLsbD 0 = true ∧ ∃ e ∈ (s.core s.hart.core).ports.get (Fin.ofNat 4 0), e.taken = none) ∧
    (let s := withRegs [(1, 0xFFFF), (2, 1)] aState
     ¬((s.sreg 1).toNat ≤ s.now.toNat ∨ ∃ n < 4, (s.sreg 2).getLsbD n = true ∧ ∃ e ∈ (s.core s.hart.core).ports.get (Fin.ofNat 4 n), e.taken = none)) := by
  unfold Room Full; decide

theorem witness_Migration : Room aState ∧ aState.hart.kind = .task ∧ aState.hart.migrated = false ∧
    (aState.mod fun h => { h with migrated := true }).hart.migrated = true := by unfold Room; decide

/-- A LIMM at 0 with an ADDI after it. -/
def aPair : State := { aState with mem := Memory.writeLE [] 0x10004 4 0x14637FFF, got := [(0, 0x4)] }

theorem witness_LongImmediates : ∃ n t, issueWord (addOff aPair.hart.r.pc 4) aPair = .ok (n, t) ∧ Room aPair ∧ Full t [3] ∧ Room t ∧
    decodeWord n = .ok (.addi 3 3 false 0x7FFF) := by
  unfold Room Full
  exact ⟨_, _, rfl, by decide, by decide, by decide, rfl⟩

/-- `repf 1, 4, 1, 1, 1` with the ADD after it: it is captured, and its four replays complete. -/
def aRepeat : State := { aState with mem := Memory.writeLE [] 0x10004 4 0x04611000, got := [(0, 0x4)] }

set_option maxRecDepth 20000 in
theorem witness_RepeatReplays : ∃ words t, capture { word := wordOf (.repf 0 3 1 1 1) } 1 (addOff aRepeat.hart.r.pc 4) aRepeat = .ok (words, t) ∧
    words[0]? = some (.add 3 1 2 false false) ∧ Room aRepeat ∧
    goesOn (exec (.repf 0 3 1 1 1) aRepeat) (fun u => u.hart.r.pc == 8 && u.hart.r.rst == 0 && u.hart.sdist == 5) = true := by
  refine ⟨_, _, rfl, rfl, ?_, ?_⟩
  · unfold Room; decide
  · decide

theorem witness_ReplayStrides : ([Instr.add 3 1 2 false false, .shli 5 5 false 35, .tor 3 4 5 false false 0] : List Instr)[2]? =
    some (.tor 3 4 5 false false 0) ∧ Room aState ∧ Full aState [(Fin.ofNat 32 (31 + 2 * 1) : SReg), 2] ∧
    ∃ t, perform (opTor 3 4 5 false false 0) aState = .ok t := by
  unfold Room Full
  exact ⟨by decide, by decide, by decide, ⟨_, rfl⟩⟩

/-- A capsule of one level with two members; its destination words by rank 1, by the fabric and for a data port. -/
def aPairCapsule : Capsule := { aCapsule with record := Memory.writeLE [] 0x80 2 0x0001 }
def aSender : State := { aState with caps := [aPairCapsule] }

/-- RANK 1 at level 0 starts a handler; RANK 255 is past the members; an all-destinations word; a data port. -/
theorem witness_SendBuffers : Room aSender ∧ Full aSender [1, 2, 24, 25, 26, 27, 28, 29] ∧ aSender.capsule = some aPairCapsule ∧
    SendTarget aPairCapsule 0x0000000800000000 ∧ SendTarget aPairCapsule 0x0000000C00000000 ∧ OutRoom aSender ∧
    checkAccess aSender (aSender.sreg 1) 4 .exec = .ok 0x10000 ∧ Tiles aSender [0] ∧ FullTiles aSender [0] ∧ Quiet aSender := by
  unfold Room Full SendTarget OutRoom Tiles FullTiles Quiet
  exact ⟨by decide, by decide, rfl, by decide, by decide, by decide, rfl, by decide, by decide, by decide⟩

theorem witness_EndpointSends : ¬SendTarget aPairCapsule 0x000007F800000000 ∧ ¬SendTarget aPairCapsule 0x0000000100000000 ∧
    ¬SendTarget aPairCapsule 0x0000000000020000 ∧
    (∃ e : Extent, aState.extents[((withRegs [(1, 0x0100000000000000)] aState).sreg 1).toNat / 2 ^ 56]? = some e ∧ e.kind = 5) ∧
    (∃ e : Extent, aState.extents[(aState.sreg 1).toNat / 2 ^ 56]? = some e ∧ e.kind ≠ 5) := by
  unfold SendTarget
  exact ⟨by decide, by decide, by decide, ⟨_, rfl, by decide⟩, ⟨_, rfl, by decide⟩⟩

/-- An entry behind a consumed one; a port of four consumed by the task itself; one consumed by another task. -/
theorem witness_PortReceives :
    (let s := withPort [⟨aMessage, some 5⟩, ⟨aMessage, none⟩] aState
     Room s ∧ (s.core s.hart.core).ports.get (Fin.ofNat 4 0) = [⟨aMessage, some 5⟩] ++ ⟨aMessage, none⟩ :: [] ∧ Tiles s [0] ∧
       aMessage.tile = some ([], 0x0FFF)) ∧
    (let l := ((withPort (List.replicate 4 ⟨aMessage, some 5⟩) aState).core 0).ports.get (Fin.ofNat 4 0)
     4 ≤ l.length ∧ ∀ x ∈ l, x.taken = some 5) ∧
    (let l := ((withPort (List.replicate 4 ⟨aMessage, some 6⟩) aState).core 0).ports.get (Fin.ofNat 4 0)
     (∀ x ∈ l, x.taken.isSome = true) ∧ ∃ x ∈ l, x.taken ≠ some 5) ∧ (aState.core 0).ports.get (Fin.ofNat 4 0) = [] := by
  unfold Room Tiles; decide

/-- A cell in memory and one in the scratchpad, with a target and a message header that the task may read. -/
theorem witness_JoinCells :
    (let s := withRegs [(6, 2), (1, 0x40), (2, 0x100)] aState
     Room s ∧ Full s [6, 1, 2] ∧ handleIdx (s.sreg 1) ≠ 0xFF ∧ handleOff (s.sreg 1) % 16 = 0 ∧
     meets (reachTask (s.sreg 1) 16 .write s) (fun p => meets (reachTask (s.sreg 2) 64 .read p.2) fun q =>
       meets (bufferStore p.1 (leBytes 16 0) q.2) fun _ => true) = true ∧
     meets (reachTask (s.sreg 1) 16 .atomic s) (fun p => p.2.hart.kind == .task) = true) ∧
    (let s := withRegs [(6, 1), (1, 0xFF0000000000FFF0), (2, 0x100)] aState
     handleIdx (s.sreg 1) = 0xFF ∧ bitsOf (s.sreg 1).toNat 55 16 = 0 ∧ handleOff (s.sreg 1) % 16 = 0 ∧
     regionHeld (handleOff (s.sreg 1)) 16 s = false ∧ meets (bufferPad (handleOff (s.sreg 1)) (leBytes 16 0) s) (fun _ => true) = true) := by
  unfold Room Full; decide

set_option maxRecDepth 20000 in
/-- The last answer word and a descriptor; a record of zeros and one attenuation of extent 0. -/
theorem witness_QueryAndSpawn :
    (let s := withRegs [(1, 0xFFF8), (2, 0x40)] aState
     Room s ∧ Full s [3, 1, 2] ∧ (s.sreg 1).toNat < 65536 ∧ (s.sreg 1).toNat % 8 = 0 ∧ handleOff (s.sreg 2) % 32 = 0 ∧
     meets (reachTask (s.sreg 2) 32 .atomic s) (fun p => !regionHeld 0xFFF8 8 p.2 && decide (p.2.hart.chunk.claims < 4)) = true) ∧
    (let s := withRegs [(3, 0x40), (1, 0x100), (2, 0x300)] { aState with mem := Memory.writeLE [] 0x10308 4 1 }
     OutRoom s ∧ spawnControlOk s (s.sreg 3).toNat = true ∧
     meets (reachTask (s.sreg 1) 256 .read s) (fun p => meets (loadAt p.1 256 p.2) fun q => reservedOk (Memory.ofBytes q.1)) = true ∧
     meets (reachTask (s.sreg 2) 16 .read s) (fun p => meets (loadAt p.1 16 p.2) fun q =>
       (attenuateAll p.2.extents false false 0 ((List.range 1).map fun i => attenuationAt (Memory.ofBytes q.1) i)).isOk) = true) := by
  unfold Room Full OutRoom; decide

/-- R24: every branch of CheckAccess, at the last byte and the one past it, and for a sealed extent. -/
def aSealed : State := { aState with caps := [{ aCapsule with exts := [#v[0x10000, 0x200000, 0x30B, 0]] }] }

/-- The first entry of a table passes against extent 0; one that asks for eight bits of rights fails; the control word holds or has a reserved bit. -/
def anAttenuation (rgt : Nat) : Memory := (Memory.writeLE [] 8 4 1).writeLE 12 1 rgt

theorem witness_QueryAndSpawn_rights : SpawnControl aState 0x40 [] ∧ ¬SpawnControl aState 0x80 [] ∧ EntryPasses someExtents (anAttenuation 3) 0 ∧
    ¬EntryPasses someExtents (anAttenuation 16) 0 ∧ aState.hart.kind = .task ∧ OutRoom aState := by
  refine ⟨by unfold SpawnControl; decide, by unfold SpawnControl; decide, ⟨⟨_, rfl, ?_⟩, by decide⟩, ?_, by decide, by unfold OutRoom; decide⟩
  · unfold MayAttenuate; decide
  · rintro ⟨⟨p, _, h⟩, _⟩
    exact absurd h.2.1 (by decide)

theorem witness_AccessChecks :
    (∃ e : Extent, aState.extents[0]? = some e ∧ e.kind ≠ 0 ∧ e.length < 0x1FF9 + 8 ∧ 0x1FF8 + 8 ≤ e.length ∧ e.co = false ∧ Grants e .read) ∧
    (∃ e : Extent, aState.extents[1]? = some e ∧ e.kind ≠ 0 ∧ ¬Grants e .exec ∧ ¬Grants e .unseal) ∧
    (∃ e : Extent, aSealed.extents[0]? = some e ∧ e.kind ≠ 0 ∧ e.co = true ∧ Grants e .unseal) ∧ aState.extents.length ≤ 3 := by
  exact ⟨⟨_, rfl, by decide, by decide, by decide, by decide, by simp only [Grants]; decide⟩,
    ⟨_, rfl, by decide, by simp only [Grants]; decide, by simp only [Grants]; decide⟩,
    ⟨_, rfl, by decide, by decide, by simp only [Grants]; decide⟩, by decide⟩

/-- A task, firmware without and with its MMU, and Saffron at the end of its SRAM. -/
def aMapped : State := aFirmware.modCluster 0 fun k =>
  { k with mmuctl := 1, mmu := (Memory.writeLE [] 0 8 0x8000000000200000).writeLE 8 8 0x400003 }

theorem witness_AccessPaths :
    (∃ e : Extent, aState.hart.kind = .task ∧ aState.extents[0]? = some e ∧ MayReach e 0x1FF8 8 .read aState) ∧
    (let s := { aState with got := [(0, 0x104)] }
     (checkAccess s 0x1FF8 8 .write).toOption = some 0x11FF8 ∧ sealedRange s 0x11FF8 8 = true) ∧
    (aFirmware.hart.kind = .firmware ∧ (aFirmware.cluster aFirmware.here).mmuctl.getLsbD 0 = false ∧ ownedBy aFirmware 0 0x5FAFFFFFF8 8 = true) ∧
    (let w0 := (aMapped.cluster aMapped.here).mmu.readLE 0 8
     let w1 := (aMapped.cluster aMapped.here).mmu.readLE 8 8
     aMapped.hart.kind = .firmware ∧ (aMapped.cluster aMapped.here).mmuctl.getLsbD 0 = true ∧ bitOf w0 63 = true ∧
     bitsOf w0 47 21 = bitsOf 0x200010 47 21 ∧ bitOf w1 0 = true ∧ bitOf w1 1 = true ∧ ownedBy aMapped 0 0x400010 8 = true) ∧
    aSaffron.hart.kind = .saffron ∧ 0xFFFF8 + 8 ≤ 0x100000 := by
  refine ⟨⟨_, by decide, rfl, ?_⟩, by decide, by decide, by decide, by decide⟩
  unfold MayReach
  simp only [Grants, Changes]
  decide

/-- A chunk that holds so many scratchpad sectors. -/
def aFullChunk (n : Nat) : State := aState.mod fun h => { h with chunk := { h.chunk with padSectors := List.replicate n 0 } }

theorem aFullChunk_count (n : Nat) : (aFullChunk n).hart.chunk.sectors.length + (aFullChunk n).hart.chunk.padSectors.length +
    (newSectors (aFullChunk n).hart.chunk.sectors 0x100000 1).length = n + 1 := by
  have h : (newSectors (aFullChunk n).hart.chunk.sectors 0x100000 1).length = 1 := rfl
  have k : (aFullChunk n).hart.chunk.padSectors.length = n := List.length_replicate
  have l : (aFullChunk n).hart.chunk.sectors.length = 0 := rfl
  omega

theorem witness_StoredBytes : aState.mem.wf = true ∧ aState.saffron.sram.wf = true ∧
    (aState.hart.chunk.sectors.length + aState.hart.chunk.padSectors.length + (newSectors aState.hart.chunk.sectors 0x1001F 2).length = 2) ∧
    4096 < (aFullChunk 4096).hart.chunk.sectors.length + (aFullChunk 4096).hart.chunk.padSectors.length +
      (newSectors (aFullChunk 4096).hart.chunk.sectors 0x100000 1).length ∧
    aFirmware.hart.kind = .firmware ∧ heldByToken aFirmware aFirmware.hart.id 0x10000 8 = false ∧ aFirmware.hart.chunk.effects = [] ∧
    sealedRange aFirmware 0x10000 8 = false ∧ wayWanted 0x10000 8 aState = none ∧ (∀ u ∈ unitsAt aState aState.hart.core 0x10000 8, u ∉ aState.retained) ∧
    (∃ u ∈ unitsAt aState 0 0x10000 8, u ∈ ({ aState with retained := unitsAt aState 0 0x10000 8 } : State).retained) := by
  refine ⟨by decide, by decide, by decide, ?_, by decide, by decide, by decide, by decide, by decide, by decide, by decide⟩
  have := aFullChunk_count 4096
  omega

/-- The last place of an extent of each size, and an odd one. -/
theorem witness_LoadResults :
    (let s := withRegs [(4, 0x1FF8)] aState
     Room s ∧ Full s [4] ∧ (s.sreg 4).toNat % 2 ^ 56 % 8 = 0 ∧ meets (reach (s.sreg 4) 8 .read s) (fun p => meets (meetLines p.2.partition p.1 8 p.2) fun t =>
       meets (consume p.1 8 t) (fun _ => true) && t.poison.isEmpty && (t.cluster t.here).ro.isEmpty && decide (p.1 % 8 = 0)) = true ∧
     meets (loadRo (s.sreg 4) 8 .read s) (fun _ => true) = true) ∧
    (addOff ((withRegs [(4, 0x1FF8)] aState).sreg 4) 1).toNat % 2 ^ 56 % 8 ≠ 0 := by unfold Room Full; decide

theorem witness_StoreResults :
    (let s := withRegs [(4, 0x1FF8), (6, 7)] aState
     Room s ∧ Full s [6, 4] ∧ meets (reach (s.sreg 4) 8 .write s) (fun p => meets (storeAt p.1 (leBytes 8 (s.sreg 6).toNat) p.2) fun _ => true) = true) := by
  unfold Room Full; decide

theorem witness_AccessFrame : meets (reach 0x1FF8 8 .read aState) (fun _ => true) = true ∧ meets (loadAt 0x11FF8 8 aState) (fun _ => true) = true ∧
    meets (meetLines 0 0x11FF8 8 aState) (fun _ => true) = true ∧ aState.faults = [] ∧ aState.sram = [] ∧
    ∀ u ∈ unitsAt aState aState.hart.core 0x11FF8 8, u ∉ aState.retained := by decide

/-- Every range of the index map at its ends, with four tiles allocated. -/
theorem witness_WindowReads :
    (let s := aState.mod fun h => { h with ntiles := 4 }
     Room s ∧ Full s [10] ∧ s.sfull 31 = true ∧ (s.tile 15).full = true ∧ meets (settledFlg s) (fun _ => true) = true ∧
     Tiles s [(Fin.ofNat 16 ((0x3FFF - 0x2000) / 512) : TReg)] ∧ Tiles s [(Fin.ofNat 16 ((0x3800 - 0x2000) / 512) : TReg)] ∧
     ¬Tiles s [(Fin.ofNat 16 ((0x37FF - 0x2000) / 512) : TReg)] ∧ FullTiles s [15, 12] ∧ Quiet s) := by
  unfold Room Full Tiles FullTiles Quiet; decide

theorem witness_WindowWrites : Room aState ∧ Full aState [1, 2] ∧ shapeOk 0x0FFF = true ∧ shapeOk 0x9FC3 = false ∧
    meets (settledFlg aState) (fun _ => true) = true ∧ Tiles aState [0, 15] ∧ FullTiles aState [0, 15] ∧
    ¬Tiles (aState.mod fun h => { h with ntiles := 1 }) [14] := by unfold Room Full Tiles FullTiles; decide

/-- Both widths, at the end of the extent; CAS where the values agree and where they differ. -/
theorem witness_ReturningAtomics :
    (let s := withRegs [(4, 0x1FF8), (5, 1), (6, 0)] aState
     Room s ∧ Full s [4, 5] ∧ s.sfull 6 = true ∧ (s.sreg 4).toNat % 8 = 0 ∧
     meets (reach (s.sreg 4) 8 .atomic s) (fun p => meets (meetLines p.2.partition p.1 8 p.2) (fun t => t.hart.kind == .task) && p.2.hart.kind == .task && meets (consume p.1 8 p.2) (fun _ => true) &&
       meets (storeAt p.1 (leBytes 8 1) (noteRead p.1 8 p.2)) (fun _ => true) && seen p.2 p.1 8 == (s.sreg 6).toNat &&
       seen p.2 p.1 8 != (s.sreg 5).toNat) = true) := by unfold Room Full; decide

theorem witness_NoReturnAtomics :
    (let s := withRegs [(4, 0x1FFC)] aState
     Room s ∧ Full s [4, 5] ∧ meets (reach (s.sreg 4) 4 .atomic s) (fun p => p.2.hart.kind == .task) = true) ∧
    (let s := withRegs [(4, 0x10000)] aFirmware
     Room s ∧ Full s [4, 5] ∧ meets (reach (s.sreg 4) 8 .atomic s) (fun p => p.2.hart.kind == .firmware && !heldByToken p.2 p.2.hart.id p.1 8) = true) ∧
    (let s := withRegs [(4, 0xFFFF8)] aSaffron
     meets (reach (s.sreg 4) 8 .atomic s) (fun p => p.2.hart.kind == .saffron) = true) := by unfold Room Full; decide

theorem witness_GatesFencesInvalidates :
    (let s := withRegs [(4, 0x1FF8), (5, 1)] aState
     Room s ∧ Full s [4, 5, 6] ∧ meets (reach (s.sreg 4) 8 .read s) (fun p => meets (meetLines p.2.partition p.1 8 p.2) (fun _ => true) && meets (consume p.1 8 p.2) (fun _ => true) &&
       decide ((s.sreg 6).toNat ≤ seen p.2 p.1 8) && decide (seen p.2 p.1 8 < (s.sreg 5).toNat)) = true ∧ (s.sreg 6).toNat = 0 ∧
     meets (cinvRange (s.sreg 4) (s.sreg 5).toNat s) (fun _ => true) = true) := by unfold Room Full; decide

theorem witness_TileWrites : (gridOf 0x5FFF 64 16 fun i j => (i + j, {})).rows ≤ 64 ∧ shapeSize 0x5FFF * 16 ≤ 64 ∧
    ((gridOf 0x5FFF 64 16 fun i j => (i + j, {})).value 63 15).1 < 2 ^ (8 * shapeSize 0x5FFF) := by decide

/-- A tile of one row of four INT8 elements in t14, and a 64 by 64 one in t15; an index at the last row and one past it. -/
def aTiled : State := writeT 14 (Memory.ofBytes [1, 2, 3, 4]) (mkShape 0 4 1) aState

theorem witness_TileRegisterResults : Room aTiled ∧ Full aTiled [1, 2] ∧ Tiles aTiled [13, 14] ∧ FullTiles aTiled [14, 15] ∧ Quiet aTiled ∧
    shapeOk 0x5FC3 = true ∧ shapeOk 0x9FC3 = false ∧ (shapeCols (aTiled.tile 14).shape ≤ 64 ∧ shapeSize (aTiled.tile 14).shape * shapeRows (aTiled.tile 14).shape ≤ 64) ∧
    ¬(2 * shapeRows (mkShape 4 2 64) ≤ 64) ∧ 0 < shapeRows (aTiled.tile 14).shape ∧ shapeRows (aTiled.tile 14).shape ≤ 1 ∧
    3 < shapeCols (aTiled.tile 14).shape ∧ shapeCols (aTiled.tile 14).shape ≤ 4 := by unfold Room Full Tiles FullTiles Quiet; decide

theorem witness_ViewResults : Room aState ∧ Full aState [1, 2] := by unfold Room Full; decide

/-- One row of four bytes at the end of extent 0, and in the scratchpad. -/
def aView (h : Nat) (s : State) : State := setView 2 (mkView h 4 1 4) s

set_option maxRecDepth 20000 in
theorem witness_TileTransfers :
    (let s := aView 0x1FFC aTiled
     Room s ∧ Tiles s [14] ∧ (s.tile 14).full = true ∧ Quiet s ∧ shapeRb (s.tile 14).shape % 1 = 0 ∧
     meets (rowsFrom (fun i u => awaitRow (blockingForm s (s.view 2)) i u >>= loadRow false 14 (mkShape 0 4 1) false (s.view 2) 1 4 i) (restRows s 1)
       (openTile 14 (mkShape 0 4 1) s)) (fun _ => true) = true ∧
     meets (rowsFrom (fun i u => awaitRow (blockingForm s (s.view 2)) i u >>= loadRow true 14 (mkShape 0 4 1) true (s.view 2) 1 4 i) (restRows s 1) (openTile 14 (mkShape 0 4 1) s)) (fun _ => true) = true ∧
     shapeSize (s.tile 14).shape = 1 ∧ shapeSize (s.tile 14).shape ≠ 2 ∧
     meets (rowsFrom (fun i u => awaitRow (blockingForm s (s.view 2)) i u >>= storeRow 14 (s.view 2) 1 4 i) (restRows s 1) s) (fun _ => true) = true) ∧
    (let s := aView 0xFFFC aTiled
     viewHandle (s.view 2) < 65536 ∧
     meets (rowsFrom (fun i => windowLoadRow 14 (mkShape 0 4 1) false 0 (s.view 2) 1 4 s i) (restRows s 1) (openTile 14 (mkShape 0 4 1) s)) (fun _ => true) = true ∧
     (∀ i ∈ restRows s 1, regionHeld (windowLoc 0 (s.view 2) 1 i 0) (1 * unmasked (s.view 2) 4 i) s = false) ∧
     meets (rowsFrom (fun i => windowStoreRow 14 (s.view 2) 1 4 i) (restRows s 1) s) (fun _ => true) = true) := by
  unfold Room Tiles Quiet; decide

set_option maxRecDepth 20000 in
theorem witness_TileLoadElements :
    (let s := aView 0x1FFC aTiled
     ∃ e : Extent, Room s ∧ Tiles s [14] ∧ (s.tile 14).full = true ∧ Quiet s ∧ (s.tile 14).data.wf = true ∧ s.hart.kind = .task ∧ s.rstIdx = 0 ∧
       s.hart.chunk.exclusive = false ∧ s.faults = [] ∧ s.sram = [] ∧ blockingForm s (s.view 2) = false ∧
       s.extents[(rowHandle (s.view 2) 1 0).toNat / 2 ^ 56]? = some e ∧
       MayReach e ((rowHandle (s.view 2) 1 0).toNat % 2 ^ 56) (1 * unmasked (s.view 2) 4 0) .read s ∧
       Clean s (e.base + (rowHandle (s.view 2) 1 0).toNat % 2 ^ 56) (1 * unmasked (s.view 2) 4 0) ∧
       ∀ u ∈ unitsAt s s.hart.core (e.base + (rowHandle (s.view 2) 1 0).toNat % 2 ^ 56) (1 * unmasked (s.view 2) 4 0), u ∉ s.retained) := by
  unfold Room Tiles Quiet MayReach Clean
  refine ⟨_, by decide, by decide, by decide, by decide, by decide, by decide, by decide, by decide, by decide, by decide, by decide, rfl, ?_, rfl, by decide⟩
  simp only [Grants, Changes]
  decide

/-- Tiles of one row in each format, with a second one that matches and one that does not. -/
def aPairOfTiles (fmt rb : Nat) (s : State) : State :=
  writeT 12 [] (mkShape fmt rb 1) (writeT 13 [] (mkShape fmt rb 1) (writeT 14 [] (mkShape fmt rb 1) s))

theorem witness_ElementResults : (∀ f ∈ [0, 1, 2, 3, 4, 5, 6, 7],
    let s := aPairOfTiles f 8 aState
    Room s ∧ TilesReady s [12, 13, 14] [13, 14] ∧ shapeSize (s.tile 13).shape = Machine.Num.size f ∧
    Matches (Machine.Num.size f) (s.tile 13) (s.tile 14) ∧ Matches (Machine.Num.size f) (s.tile 13) (s.tile 12) ∧ (s.tile 12).full = true) ∧
    (let s := writeT 14 [] (mkShape 7 4 1) (aPairOfTiles 4 8 aState)
     shapeRb (s.tile 14).shape = shapeRb (s.tile 13).shape / 2 ∧ shapeFmt (s.tile 14).shape = 7) := by
  unfold Room TilesReady Tiles FullTiles Quiet Matches; decide

theorem witness_ComparisonResults : (∀ f ∈ [3, 4],
    let s := aPairOfTiles f 8 aState
    Room s ∧ TilesReady s [12, 13, 14] [13, 14] ∧ shapeSize (s.tile 13).shape = Machine.Num.size f ∧ Matches (Machine.Num.size f) (s.tile 13) (s.tile 14)) ∧
    (let s := writeT 14 [] (mkShape 3 16 1) (aPairOfTiles 3 8 aState); ¬Matches 8 (s.tile 13) (s.tile 14)) := by
  unfold Room TilesReady Tiles FullTiles Quiet Matches; decide

/-- Tiles of plane format, which no element-wise operation takes, and one whose element size is another than that of the format named. -/
theorem witness_tile_formats : (let s := aPairOfTiles 8 8 aState
    Room s ∧ TilesReady s [12, 13, 14] [13, 14] ∧ shapeFmt (s.tile 13).shape = 8 ∧ (s.tile 12).full = true ∧ ¬(shapeFmt (s.tile 13).shape ≤ 7)) ∧
    (let s := aPairOfTiles 4 8 aState
     TilesReady s [12, 13, 14] [13, 14] ∧ shapeSize (s.tile 13).shape ≠ Machine.Num.size 5 ∧ shapeFmt (s.tile 14).shape ≠ 0 ∧ shapeFmt (s.tile 14).shape ≠ 7) := by
  unfold Room TilesReady Tiles FullTiles Quiet; decide

theorem witness_ReductionResults : ∀ f ∈ [2, 3, 4, 5],
    let s := aPairOfTiles f 8 aState
    Room s ∧ TilesReady s [12, 13, 14] [13, 14] ∧ shapeSize (s.tile 13).shape = Machine.Num.size f ∧ Matches (Machine.Num.size f) (s.tile 13) (s.tile 14) := by
  unfold Room TilesReady Tiles FullTiles Quiet Matches; decide

/-- BF16 with scales, a plane form with its scales, and the chain at rank 0 of two members and at rank 1. -/
def aChained (r : Word) : State := (aPairOfTiles 5 4 aSender).mod fun h => { h with ranks := r }

theorem witness_ConversionResults :
    (let s := writeT 14 [] (mkShape 7 32 1) (writeT 13 [] (mkShape 4 64 1) aState)
     Room s ∧ TilesReady s [12, 13, 14] [13, 14] ∧ shapeFmt (s.tile 13).shape = 4 ∧ shapeCols (s.tile 13).shape = 32 ∧ 32 * Machine.Num.size 6 ≤ 64 ∧
     shapeFmt (s.tile 14).shape = 7 ∧ shapeRows (s.tile 14).shape = 1 ∧ shapeCols (s.tile 14).shape = 32) ∧
    (let s := writeT 14 [] (mkShape 7 32 1) (writeT 13 [] (mkShape 8 8 1) aState)
     shapeFmt (s.tile 13).shape = 8 ∧ shapeRb (s.tile 13).shape = 4 * 2 ∧ shapeCols (s.tile 14).shape ≤ 32) ∧
    (0 ≤ aPairCapsule.lvls ∧ aPairCapsule.domain 0 ≠ 7 ∧ shapeFmt ((aChained 0).tile 13).shape = 5 ∧ rankAt (aChained 0).hart.ranks 0 = 0 ∧
     ¬aPairCapsule.members 0 ≤ 0 + 1 ∧ outgoing (aChained 0).hart.chunk.effects < 32 ∧ rankAt (aChained 1).hart.ranks 0 = 1 ∧ aPairCapsule.members 0 ≤ 1 + 1) ∧
    (let e : PortEntry := ⟨{ aMessage with tile := some ([], mkShape 5 4 1), dest := 0xFF00000700000000 }, none⟩
     let s := (aChained 1).modCore 0 fun k => { k with ports := k.ports.set 3 [e] }
     portHead s 3 = some e ∧ chainFits 0 (s.tile 13).shape e.msg = some [] ∧ chainFits 1 (s.tile 13).shape e.msg = none) ∧
    (portHead (aChained 1) 3 = none ∧ ((aChained 1).core (aChained 1).hart.core).ports.get 3 = [] ∧ ((aPairCapsule.foot ++ aPairCapsule.foot2).find? fun p => p.1 == 0).isSome = true) ∧
    (let c : Capsule := { aPairCapsule with record := Memory.writeLE [] 0x80 2 0x0002, foot := [(0, 1)] }
     ¬c.members 0 ≤ 1 + 1 ∧ rankAt 1 0 ≠ 0 ∧ c.domain 0 ≠ 7 ∧ ¬(1 ≤ c.lvls)) := by
  unfold Room TilesReady Tiles FullTiles Quiet; decide

theorem witness_RoundingKeepsNumbers : (Machine.Num.ofF32 0x7F7FFFFF).isNan = false ∧ (Machine.Num.ofF32 0xFF800000).isNan = false ∧
    (Machine.Num.ofF32 0x7F800001).isNan = true ∧ (Machine.Num.value 4 0x7F7F).isNan = false ∧ (Machine.Num.value 4 0x7F81).isNan = true ∧
    (Machine.Num.ofE4 0x7E).isNan = false ∧ 2 ^ 1 ≤ 3 ∧ 3 < 2 ^ (1 + 1) ∧
    unitsAtMost (-9) 0 448 = unitsAtMost 0 (-9) (magnitudeOf 4 0x7E) ∧
    (unitsAtMost 0 (-9) (magnitudeOf 4 0x7D) < unitsAtMost (-9) 0 430 ∧ unitsAtMost (-9) 0 430 < unitsAtMost 0 (-9) (magnitudeOf 4 0x7E)) ∧
    (unitsAtMost (-1) 0 2 < unitsAtMost 0 (-1) 5 ∧ unitsAtMost (-1) (-1) 5 = 5) := by decide

/-- A lease of rings 0 (activations) and 1 (two planes of weights), a current grant, one slot filled in each. -/
def aLease : BitVec 128 := BitVec.ofNat 128 (3 * 2 ^ 112 + 64 * 2 ^ 18 + 3)

def aMatrix : State :=
  let s := aState.mod fun h => { h with lease := aLease, r := { h.r with wpend := some { ring := 1, slot := 0, planes := 2, restore := false } } }
  let r0 : Ring := { Ring.reset with defn := 0x8000000000400000, owner := some 5, filled := 1 }
  let r1 : Ring := { Ring.reset with defn := 0xA00000000FC00002, owner := some 5, filled := 1 }
  s.modCluster 0 fun k => { k with rings := (k.rings.set 0 r0).set 1 r1, grant := some 5 }

theorem witness_MatrixCommands :
    (let s := withRegs [(1, 1), (2, 0)] aState
     Room s ∧ Full s [1, 2] ∧ leaseHeld s.hart.lease = false ∧ ringsFree (s.cluster s.here) 1 = true) ∧
    (leaseHeld aMatrix.hart.lease = true ∧ holdsLease aMatrix = true ∧ leaseMask aMatrix.hart.lease = 3 ∧ aMatrix.hart.kind = .task ∧
     ringsFree (aMatrix.cluster aMatrix.here) 1 = false ∧ bitOf (leaseMask aMatrix.hart.lease) 0 = true ∧ ringBusy (modRing 0 0 (fun r => { r with filled := 0 }) aMatrix) 0 = false ∧
     RingFields 0x8000000000400000 false ∧ ¬RingFields 0xE000000000400000 false ∧ ¬RangeTaken (aMatrix.cluster aMatrix.here) 0 0x8000000000400000 ∧
     RangeTaken (aMatrix.cluster aMatrix.here) 0 0x8000000000400002) ∧
    (MatrixReady aMatrix ∧ ringBound aMatrix 1 = true ∧ ringKind ((aMatrix.cluster aMatrix.here).ring 1).defn ≠ 0 ∧
     2 ≤ ringSlot ((aMatrix.cluster aMatrix.here).ring 1).defn / 8192 ∧ ((aMatrix.cluster aMatrix.here).ring 1).ready ≠ 0) ∧
    suspect (aMatrix.modCluster 0 fun k => { k with clstat := 2 }) = true ∧
    (GroupReady aMatrix true ∧ TilesReady aMatrix [7] [7] ∧ (7 : TReg) ∉ groupRegs true ∧
     meets (epilogueCheck (aMatrix.tile 7).data 1 1 aMatrix) (fun _ => true) = true ∧ meets (runningFull (aMatrix.tile 7).data 1 1 aMatrix) (fun _ => true) = true ∧
     meets (runEpilogue (aMatrix.tile 7).data ((groupRegs true).map fun r => (aMatrix.tile r).data) 1 1 (countCommand aMatrix)) (fun _ => true) = true) ∧
    uncheckedProducts aMatrix = false ∧ aMatrix.hart.wload = false ∧
    uncheckedProducts (aMatrix.modCluster 0 fun k => { k with products := [{ hart := 5, cap := 1, no := 1, group := 8, live := true, data := [] }] }) = true := by
  unfold Room Full MatrixReady GroupReady TilesReady Tiles FullTiles Quiet RingFields RangeTaken
  refine ⟨by decide, by decide, by decide, by decide, ?_, by decide, by decide, by decide⟩
  refine ⟨by decide, by decide, by decide, by decide, by decide, by decide⟩

theorem witness_MatrixProducts : Room aMatrix ∧ (∀ f ∈ [Form.plain, .table, .hadamard 16, .hadamard 32, .hadamard 64],
    ProductReady aMatrix f true 0 1 2 { ring := 1, slot := 0, planes := 2, restore := false }) ∧ TilesReady aMatrix [paramTile true] [paramTile true] ∧
    meets (epilogueCheck (aMatrix.tile (paramTile true)).data 1 128 aMatrix) (fun _ => true) = true ∧
    meets (runningFull (aMatrix.tile (paramTile true)).data 1 128 aMatrix) (fun _ => true) = true := by
  refine ⟨by unfold Room; decide, ?_, by unfold TilesReady Tiles FullTiles Quiet; decide, by decide, by decide⟩
  intro f hf
  simp only [List.mem_cons, List.not_mem_nil, or_false] at hf
  unfold ProductReady MatrixReady GroupReady Tiles FullTiles Quiet
  have hr : rotation aMatrix.here = true := by decide
  have clean : ∀ a n, SlotClean aMatrix a n := fun _ _ => ⟨by decide, rfl, fun _ _ => List.not_mem_nil⟩
  exact ⟨by decide, by decide, by decide, rfl, by decide, by decide, by decide, by decide, by decide, fun _ => by decide, fun _ _ => hr,
    by decide, by decide, by decide, clean _ _, clean _ _⟩

/-- The products and the loads that stop: an array that is suspect, no lease, a grant that is another's or no one's, a slot that is being filled. -/
theorem witness_MatrixStops :
    (let s := aMatrix.modCluster 0 fun k => { k with grant := some 9 }
     GrantElsewhere s ∧ GroupReady s true ∧ TilesReady s [7] [7] ∧ ProductRings s 0 1 ∧ ((s.cluster s.here).ring 0).ready ≠ 0) ∧
    (let s := aMatrix.modCluster 0 fun k => { k with grant := none }
     suspect s = false ∧ holdsLease s = true ∧ (s.cluster s.here).grant = none ∧ (s.cluster s.here).batch = [] ∧ (s.cluster s.here).requests = [] ∧
     ∀ h ∈ s.parked, h.id ≠ s.hart.id) ∧
    holdsLease aState = false ∧ ¬ProductRings aMatrix 1 0 ∧ (∃ x, productWeights aMatrix = some x ∧ x.ring ≠ 0) ∧ Machine.rotation 1 = false ∧
    (let s := modRing 0 0 (fun r => { r with filled := 0 }) aMatrix
     ProductRings s 0 1 ∧ ((s.cluster s.here).ring 0).ready = 0) ∧
    (let s := writeT 9 [] 0 aMatrix |>.modRegs fun r => { r with t := r.t.set 9 { r.t.get 9 with full := false } }
     groupRegs true = [8] ++ 9 :: [10, 11, 12, 13, 14, 15] ∧ FullTiles s [8] ∧ (s.tile 9).full = false) := by
  unfold GrantElsewhere GroupReady TilesReady Tiles FullTiles Quiet ProductRings
  exact ⟨⟨⟨by decide, by decide, 9, by decide, by decide⟩, by decide, by decide, by decide, by decide⟩, by decide, by decide, by decide,
    ⟨_, rfl, by decide⟩, by decide, by decide, by decide⟩

theorem witness_ProductElements : ((List.replicate 8 ([] : Memory)).length = 8) ∧ (∀ x ∈ List.replicate 8 ([] : Memory), Memory.wf x = true) ∧ 64 ≤ 64 := by decide

/-- A control word of 4 elements of 256 bytes on channel 3; one of no elements; an endpoint; a region that is held. -/
theorem witness_CopyResults :
    (let s := withRegs [(7, 0x4803), (8, 0x100), (9, 0xFC00)] aState
     let ctl := s.sreg 7
     Room s ∧ Full s [7, 8, 9] ∧ bitsOf ctl.toNat 63 44 = 0 ∧ bitsOf ctl.toNat 7 4 = 0 ∧ bitsOf ctl.toNat 43 12 ≠ 0 ∧ bitsOf ctl.toNat 11 8 ≤ 13 ∧
     (s.sreg 9).toNat + 1024 ≤ 65536 ∧ (s.sreg 8).toNat % 2 ^ 56 % 256 = 0 ∧
     meets (reachTask (s.sreg 8) 1024 .copySrc s) (fun p => let c := newCopy .ms ctl (s.sreg 8) (s.sreg 9) p.1 p.2
       !awaitsAnswer p.2 c && meets (copyWaits p.2 c) fun _ => true) = true ∧
     meets (reachTask (s.sreg 8) 1024 .copyDst s) (fun p => decide (outgoing p.2.hart.chunk.effects < 32)) = true) ∧
    (let s := withRegs [(9, 0)] aMatrix
     (s.sreg 9).toNat < 16 ∧ ringBound s 0 = true ∧ 1024 % ringSlot ((s.cluster 0).ring 0).defn = 0 ∧ ringKind ((s.cluster 0).ring 0).defn ≤ 1) ∧
    (let s := aMatrix.modCluster 0 fun k => { k with rings := k.rings.set 2 { Ring.reset with defn := 0xC00000000FC00100, owner := some 5 } }
     let t := { s with caps := aSealed.caps }.mod fun h => { h with lease := BitVec.ofNat 128 (7 * 2 ^ 112 + 1) }
     ringBound t 2 = true ∧ ringKind ((t.cluster 0).ring 2).defn = 2 ∧ 65536 % ringSlot ((t.cluster 0).ring 2).defn = 0 ∧
     meets (reachTask 0 65536 .unseal t) (fun _ => true) = true) ∧
    (let s := { aState with caps := [{ aCapsule with exts := [#v[0x3000000000001234, 0x10000, 0x503, 0]] }] }
     ∃ x : Extent, s.extents[(0x100 : Nat) / 2 ^ 56]? = some x ∧ x.kind = 5 ∧ x.base / 2 ^ 60 % 16 = 3) ∧
    (let s := aState.modCluster 0 fun k => { k with chans := k.chans.set 3 { copy := none, wp := 9, cap := some 1 } }
     s.hart.kind = .task ∧ ((s.cluster s.here).chan (3 % 16)).cap = some s.hart.cap ∧ ((aState.cluster 0).chan 3).cap = none) := by
  refine ⟨by unfold Room Full; decide, by decide, by decide, ⟨_, rfl, by decide⟩, by decide⟩

theorem witness_SystemRegisters : Room aState ∧ Full aState [3] ∧ meets (settledFlg aState) (fun _ => true) = true ∧
    aState.hart.partner.bind aState.hart? = none ∧ aState.capsule = some aCapsule ∧ aFirmware.capsule = none ∧ aFirmware.hart.kind = .firmware ∧
    aState.hart.kind ≠ .firmware ∧ aState.hart.migrated = false ∧ (0x7FFF : BitVec 16).toNat < 0x8000 ∧ 0x8000 ≤ (0x8000 : BitVec 16).toNat ∧
    (9 : BitVec 16).toNat ∉ [0x8000, 0x8001] ∧ (let s := aState.mod fun h => { h with inflight := [⟨.sreg 3 7, 1⟩] }
     meets (settledFlg s) (fun _ => true) = false) ∧
    (let s := aState.mod fun h => { h with run := .serving, migrated := true }
     s.hart.run = .serving ∧ s.down = false ∧ s.phase ≠ .fatal ∧ s.hart.migrated = true) ∧
    aState.extents.length ≤ 3 ∧ (∃ e : Extent, aSealed.extents[0]? = some e ∧ e.kind = 3) ∧ ¬(holdsLease aState = true) ∧ holdsLease aMatrix = true ∧
    (let s := aMatrix.modCluster 0 fun k => { k with keys := [{ hart := 5, wrapped := [], key := 0 }] }
     ∃ k ∈ (s.cluster 0).keys, k.hart = s.hart.id ∧ k.wrapped = []) := by
  unfold Room Full
  exact ⟨by decide, by decide, by decide, by decide, rfl, by decide, by decide, by decide, by decide, by decide, by decide, by decide, by decide, by decide,
    by decide, ⟨_, rfl, by decide⟩, by decide, by decide, by decide⟩

set_option maxRecDepth 20000 in
/-- Firmware at the first and at a refused address of the window, an entry of the repair table, with and without an event to wake it. -/
theorem witness_ServiceInstructions : Full aFirmware [3, 4, 0] ∧ Room aFirmware ∧ aState.hart.kind ≠ .firmware ∧
    (let s := withRegs [(4, 0xFE00)] aState
     (s.sreg 4).toNat % 64 = 0 ∧ (s.sreg 4).toNat + 512 ≤ 65536 ∧ regionHeld (s.sreg 4).toNat 512 s = false ∧
     meets (storePad (s.sreg 4).toNat (List.replicate 512 0) s) (fun _ => true) = true) ∧
    (∃ k, diagAddr (aFirmware.sreg 4) = some k ∧ meets (diagRead k aFirmware) (fun _ => true) = true ∧ meets (diagWrite k 1 aFirmware) (fun _ => true) = true) ∧
    diagAddr 0x7000000000000000 = none ∧
    ((15 : Word).toNat < 16 ∧ bitsOf (0x84000000 : BitVec 32).toNat 30 26 ≠ 31 ∧ bitsOf (0x84000000 : BitVec 32).toNat 9 0 = 0 ∧
     ∀ k < 16, k ≠ 15 → (Repair.of 0x84000000).clash (Repair.of ((aFirmware.cluster aFirmware.here).repair.get (Fin.ofNat 16 k))) = false) ∧
    wakeEvent (aFirmware.modCluster 0 fun k => { k with doorbell := true }) 0 = true ∧ wakeEvent aFirmware 0 = false ∧
    (aFirmware.cluster aFirmware.here).mmu.wf = true := by
  unfold Full Room
  exact ⟨by decide, by decide, by decide, by decide, ⟨_, rfl, by decide, by decide⟩, by decide, by decide, by decide, by decide, by decide⟩

theorem witness_CryptoInstructions : Full aFirmware [3, 4] ∧ Full aSaffron [3, 4] ∧ Room aSaffron ∧ aFirmware.hart.kind = .firmware ∧
    aSaffron.hart.kind = .saffron ∧ aState.hart.kind ≠ .saffron ∧ meets (physicalAccess aFirmware 0x10000 40) (· == 0x10000) = true ∧
    meets (loadAt 0x10000 40 aFirmware) (fun _ => true) = true ∧ meets (storeAt 0x10000 (List.replicate 40 7) aFirmware) (fun _ => true) = true ∧
    0xFFFD0 + 48 ≤ 0x100000 ∧ 0x100000 < 0xFFFD0 + 49 := by
  unfold Full Room; decide

/-- An idle channel with a copy-out that waits, and a copy-in under way with sound and with poisoned data. -/
def aCopy (m : CopyMode) : Copy :=
  { mode := m, chan := 3, control := 0, src := 0, dst := 0, phys := 0x10000, esize := 256, count := 2, done := 1, base := 0, part := 0, hart := 5, cap := 1,
    core := 0, chunk := 0, tail0 := 0, filled0 := 0, words := [], keyed := false, verified := [], stamp := 0, fx := 0, task := 5 }

def copying (c : Copy) (s : State) : State := s.modCluster 0 fun k => { k with chans := k.chans.set 3 { copy := some c, wp := 0, cap := some 1 } }

theorem witness_RingFilling : RingFilling (copying { aCopy .mr with dst := 1 } aMatrix) 1 := by
  refine ⟨{ aCopy .mr with dst := 1 }, by decide, by decide, Or.inl rfl, by decide⟩

theorem witness_EngineEvents :
    (let s := aState.modCluster 0 fun k => { k with copyWait := [aCopy .sm] }
     ((s.cluster 0).chan 3).copy = none ∧ (s.cluster 0).copyWait = [] ++ aCopy .sm :: [] ∧ (aCopy .sm).chan = 3) ∧
    (let s := copying (aCopy .ms) aState
     ((s.cluster 0).chan 3).copy = some (aCopy .ms) ∧ poisonCause s (0x10000 + 1 * 256) 256 = none ∧
     poisonCause { s with poison := [(0x100FF / 32 + 1, true)] } (0x10000 + 1 * 256) 256 = some .integrity) ∧
    (({ aState with links := 0 } : State).links.getLsbD (endLink 0x1234) = false) ∧
    (let c : Copy := { aCopy .ur with keyed := true, done := 0, esize := 8192 }
     ((copying c aState).cluster 0).chan 3 = { copy := some c, wp := 0, cap := some 1 } ∧
     (unitsOf 65536 (c.phys + c.done * c.esize) c.esize).find? (fun x => !c.verified.contains x) = some 1 ∧
     groupOk aState [] 1 = false) ∧
    (let s := aState.modCluster 0 fun k => { k with requests := [5] }
     (s.cluster 0).grant = none ∧ (s.cluster 0).batch = [] ∧ (s.cluster 0).requests ≠ []) ∧
    (let s := aState.modCluster 0 fun k => { k with batch := [5] }
     (s.cluster 0).batch = 5 :: [] ∧ (s.hart? 5).isSome = true) ∧
    ((aMatrix.cluster 0).grant = some 5 ∧ leaseCmd aMatrix.hart.lease ≠ 0 ∧ aMatrix.clock - aMatrix.hart.grantAt < 16384 ∧
     (aMatrix.cluster 0).requests = [] ∧ (aMatrix.cluster 0).batch = [] ∧ 16384 ≤ ({ aMatrix with clock := 16384 } : State).clock - aMatrix.hart.grantAt) ∧
    (let s := aState.modCluster 0 fun k => { k with products := [{ hart := 5, cap := 1, no := 1, group := 8, live := true, data := [] }], mism := [0, 0] }
     (s.cluster 0).products ≠ [] ∧ 2 ≤ (mismatchWindow s 0).length ∧ (mismatchWindow aState 0).length < 2∧ aState.cap? 1 = some aCapsule ∧
     aCapsule.state = .running ∧ { aState with caps := [{ aCapsule with state := .ending 0 }] }.cap? 1 = some { aCapsule with state := .ending 0 }) ∧
    (let s := modRing 0 2 (fun r => { r with scrub := some 5 }) aState
     ((s.cluster 0).ring 2).scrub = some 5 ∧ ((s.cluster 0).ring 3).scrub = none) ∧
    (let s := { aState with retained := unitsAt aState 0 (0x10000 + 1 * 256) 256 }
     (∃ x ∈ unitsAt s 0 (0x10000 + 1 * 256) 256, x ∈ s.retained) ∧ ∀ x ∈ unitsAt aState 0 (0x10000 + 1 * 256) 256, x ∉ aState.retained) ∧
    (fencedCopy aState (aCopy .es) = false ∧ fencedCopy { aState with net := [] } { aCopy .es with hart := 5, cap := 1 } = false) := by decide

/-- A launch message for core 1, which is free; a walking one; a data message; a query of a grid of two items. -/
def aLaunch : Msg := { aMessage with kind := .launch, dest := 0, tile := none, bound := some 1 }
def twoCores : State := { aState with caps := [{ aPairCapsule with foot := [(0, 0), (1, 1)] }] }

def aQuery : Query :=
  { hart := 5, core := 0, cap := 1, word := 7, desc := 0x10000, arrived := none, item := none, answer := none, fate := 0, landed := false }

def aGrid : Memory := ((Memory.writeLE [] 0x10004 4 2).writeLE 0x10008 2 2).writeLE 0x1000A 2 1

theorem witness_TaskEvents_messages :
    (let s := { twoCores with net := [aLaunch] }
     dead s aLaunch = false ∧ aLaunch.kind ≠ .data ∧ aLaunch.target s = some 1 ∧ mustWait s 0 aLaunch = false ∧ serves s aLaunch 1 = true ∧
     canStart s aLaunch 1 = true ∧ (s.cap? 1).isSome = true ∧ aPairCapsule.twin 1 = none) ∧
    (let s := { twoCores with net := [aLaunch] }.modCore 1 fun k => { k with retest := true }
     canStart s aLaunch 1 = false ∧ serves s aLaunch 1 = true ∧ inboxRoom (s.core 1) aLaunch = true ∧
     inboxRoom ((s.modCore 1 fun k => { k with inbox := List.replicate 30 aLaunch }).core 1) aLaunch = false) ∧
    dead { twoCores with caps := [] } aLaunch = true ∧
    (let m := { aMessage with dest := 0x0000000C00000000, bound := some 1 }
     let s := { twoCores with net := [m] }
     m.kind = .data ∧ mustWait s 0 m = false ∧ m.target s = some 1 ∧ s.twin m.cap 1 = none ∧ serves s m 1 = true ∧
     ((s.core 1).ports.get (Fin.ofNat 4 (destPort m.dest - 4))).length < 4) ∧
    (let m := { aLaunch with kind := .continuation, bound := none, hint := 0x1F180 }
     let s := { twoCores with net := [m] }
     m.walks = true ∧ mustWait s 0 m = false ∧ (taker s m).isSome = true ∧
     (let t := (s.modCore 0 fun k => { k with retest := true }).modCore 1 fun k => { k with retest := true }
      taker t m = none ∧ parkPlace t m = some 0 ∧ (t.cluster 0).park.length < 32)) := by decide

set_option maxRecDepth 20000 in
theorem witness_TaskEvents_task :
    (aState.mod fun h => { h with run := .clearing }).hart.header = none ∧
    (let s := { aState with mem := Memory.writeLE [] 0x10000 4 0 }.mod fun h => { h with run := .clearing, header := some 0 }
     meets (fetchWord 0 s) (fun p => (headerTiles p.1).isSome) = true) ∧
    (let s := aState.mod fun h => { h with run := .committing .done }
     s.hart.partner = none ∧ mayCommit s = true ∧ roomGone .done (drain s) = none ∧ overtaken (drain s).hart = false ∧
     (match meetLive .done (meetCells s.hart.chunk.effects (drain s)) with
      | .ok v => (match commitChunk v with | .ok _ => true | .error _ => false)
      | .error _ => false) = true) ∧
    (let c := closeChunk aState; c.hart.request = none ∧ aState.hart.run ≠ .clearing) ∧
    (let s := { aState with clock := 1000000, parked := [{ aTask with id := 7 }] }.mod fun h => { h with partner := some 7, request := some 0 }
     s.hart.request = some 0 ∧ s.hart.partner.bind s.hart? = some { aTask with id := 7 } ∧ 1000000 ≤ s.clock - 0 ∧ aTask.request = none) ∧
    (let s := (aState.mod fun h => { h with run := .committing .done }).mod fun h => { h with chunk := { h.chunk with reads := true, readSig := 1, since := 1 } }
     overtaken (drain s).hart = true ∧ (drain s).hart.chunk.exclusive = false) ∧
    (let s := aState.mod fun h => { h with run := .migrating none }
     (residents s (serviceCore s.here)).length < 4) ∧
    aState.hart.kind = .task ∧ aState.hart.run ≠ .ended ∧
    (let s := { aState with clock := 1000000 }.mod fun h => { h with run := .requeued (some 3) }
     1000000 ≤ s.clock - s.hart.waitFrom) ∧
    (Wait.safe (.sreg 3) = true ∧ Wait.safe (.group 8) = false ∧ Wait.yields (.sreg 3) = true ∧ (aState.core 5).retest = false ∧ aTask.core % 32 ≠ 31) ∧
    (let s := { aState with clock := 2049, tokens := [5] }.mod fun h => { h with run := .blocked (.sreg 3), chunk := { h.chunk with exclusive := true } }
     s.tokens.contains (tokenOf s.hart) = true ∧ 2048 < s.clock - s.hart.waitFrom) ∧
    (let s := aState.mod fun h => { h with sdist := 4096 }
     meets (fetch (startIssue s)) (fun p => p.2.1.isNone) = true) ∧
    (let s := { aState with mem := Memory.writeLE [] 0x10000 4 0x04611000 }.mod fun h => { h with sdist := 4096 }
     meets (fetch (startIssue s)) (fun p => p.2.1.isSome) = true ∧ s.hart.run = .ready) ∧
    (let s := { aState with clock := 256 }.mod fun h => { h with run := .blocked (.way 0) }
     s.hart.run = .blocked (.way 0) ∧ 256 ≤ s.clock - s.hart.waitFrom ∧ s.hart.chunk.exclusive = false) ∧
    (aState.mod fun h => { h with inflight := [⟨.sreg 3 7, 0⟩] }).hart.inflight = ⟨.sreg 3 7, 0⟩ :: [] ∧
    ((0 : Word).toNat ≤ aState.now.toNat ∧ ¬(1 : Word).toNat ≤ aState.now.toNat) ∧
    ((aState.cluster 4).summarised = false ∧ (aState.cluster 4).diagstat.getLsbD 1 = false ∧ bitsOf 0x02000000 31 24 ≠ 3) := by decide

/-- A record of a task with no live tile, in a continuation extent of its capsule: what a safe point writes, and what a resumption reads. -/
def anExtents4 : List Extent := someExtents ++ [#v[0x40000, 0x10000, 0x403, 0]]

set_option maxRecDepth 20000 in
theorem witness_TaskEvents_records :
    (let s := { aState with caps := [{ aCapsule with exts := anExtents4 }] }
     ∃ c x e, s.capsule = some c ∧ contExtent c = some (x, e) ∧ recordPlace s e (recordLength (maskBits 0).length 0) = some 0 ∧
       sealedRange s (Extent.base e + 256) 0x400 = false ∧ sealedRange s e.base 16 = false ∧ s.mem.wf = true) ∧
    (aState.hart.ntiles ≤ 16 ∧ (maskBits 0x8000).length = 1 ∧ ∀ i : TReg, (aState.hart.r.t.get i).data = []) ∧
    (let rec_ := (Memory.writeLE [] 0x40100 4 0x400).writeLE 0x40106 1 1
     let s := { aState with mem := rec_, caps := [{ aCapsule with exts := anExtents4 }] }.mod fun h => { h with run := .clearing, record := some 0x0300000000000100 }
     ∃ (c : Capsule) (x : Extent), s.capsule = some c ∧ c.exts[3]? = some x ∧ poisonCause s (x.base + 0x100) 0x400 = none ∧
       recordOk c (s.mem.window (x.base + 0x100) 0x400) = true ∧ handleIdx 0x0300000000000100 = 3 ∧
       poisonCause { s with poison := [(0x40100 / 32, false)] } (x.base + 0x100) 0x400 = some .poison) := by
  refine ⟨⟨_, _, _, rfl, rfl, by decide, by decide, by decide, by decide⟩, by decide, ⟨_, _, rfl, rfl, by decide, by decide, by decide, by decide⟩⟩

theorem witness_TaskEvents_queries :
    (let s := { aState with queries := [aQuery], mem := aGrid }
     s.queries[0]? = some aQuery ∧ sharedAnswer s 0 aQuery = none ∧ poisonCause s aQuery.desc 32 = none ∧
     gridOk (s.mem.window aQuery.desc 32) = true ∧ lowestReturn s aQuery.desc = none ∧
     (s.mem.window aQuery.desc 32).readLE 0 4 < (s.mem.window aQuery.desc 32).readLE 4 4 ∧ gridOk (aState.mem.window aQuery.desc 32) = false) ∧
    (let s := { aState with queries := [aQuery], mem := Memory.writeLE aGrid 0x10000 4 2, returns := [(0x10000, 1), (0x10000, 0)] }
     (s.mem.window aQuery.desc 32).readLE 4 4 ≤ (s.mem.window aQuery.desc 32).readLE 0 4 ∧ lowestReturn s aQuery.desc = some 0 ∧
     (poisonCause { s with poison := [(0x10000 / 32, false)] } aQuery.desc 32).isSome = true) ∧
    (let q : Query := { aQuery with answer := some 9, item := some 1, arrived := some 0 }
     let s := { aState with queries := [q] }
     s.queries[0]? = some q ∧ q.landed = false ∧ q.fate = 0 ∧ renamed s 0 q = false ∧ { q with fate := 2 }.item = some 1) ∧
    (let s := aState.modCore 2 fun k => { k with clearing := true }
     (s.core 2).clearing = true ∧ (s.core 2).held = [] ∧ (aState.core 2).clearing = false ∧ (aState.core 2).retest = false ∧
     ((aState.modCore 2 fun k => { k with retest := true }).core 2).boundRec = []) ∧
    ({ aState with queries := [aQuery, aQuery] } : State).queries.take 1 = [aQuery] := by decide

/-- One query alone, and two of one core and descriptor of which the second waits for the first to arrive. -/
theorem witness_TaskEvents_arrival : OnlyWaiting { aState with queries := [aQuery] } 0 aQuery ∧
    (∃ x ∈ ({ aState with queries := [aQuery, aQuery] } : State).queries.take 1, x.core = aQuery.core ∧ x.desc = aQuery.desc ∧ x.arrived = none) := by
  refine ⟨?_, aQuery, by decide, rfl, rfl, rfl⟩
  intro j x h n _
  match j, n with
  | j + 1, _ => exact absurd h (by simp)

theorem witness_PowerEvents :
    (let s := { aState with clock := 50000 }
     gated s 9 = false ∧ idleCluster s 9 = true ∧ 50000 ≤ s.clock - (s.cluster 9).idleFrom ∧ idleCluster s 0 = false ∧ gated s 0 = false) ∧
    (let s := aState.modCluster 0 fun k => { k with clstat := 4 }
     gated s 0 = true ∧ idleCluster s 0 = false) ∧
    0 ≤ (aState.cluster 0).credit ∧ ((aState.modCluster 0 fun k => { k with credit := -1 }).cluster 0).credit < 0 ∧
    (aState.mod fun h => { h with run := .blocked (.power 3) }).hart.run = .blocked (.power 3) ∧
    (let s := aFirmware.mod fun h => { h with run := .wfe }
     s.hart.kind = .firmware ∧ s.hart.core = serviceCore 0 ∧ s.hart.run = .wfe) ∧ aState.harts.any (inWfe 0) = false := by decide

/-- A partition 0 with cluster 0, weight 1, owner 5, and a bound, enabled queue 0 with an entry in its ring. -/
def aPartition : Part := { Part.reset 0 with cfg := ((Memory.writeLE [] 0 1 1).writeLE 0x11 1 1).writeLE 0x30 2 5 }
def anEntry : RingEntry := { record := [] }
def aQueue : Queue := { Queue.reset 0 with fn := some 1, qcfg := 1, waiting := 1, placed := 1, srbase := 0x30000000 }
def aPackage : State := { aState with parts := [aPartition], queues := [aQueue] }

/-- Owner 5 holds granule 0. -/
def anOwned : State := { aPackage with got := [(0, BitVec.ofNat 128 (5 * 2 ^ 48 + 4))] }

/-- Kits whose checks fail, an image to deliver, both ends of the time limits, and a dirty line. The accepted kit depends on the fused
signer, which the model does not fix, so no witness of it can be written out. -/
theorem witness_PackageEvents : kitOk State.reset.saffron.flashA = false ∧ State.reset.phase = .off ∧ State.reset.saffron.loaded = false ∧
    State.reset.resetting = none ∧
    (let s := { State.reset with phase := Phase.booting, saffron := { Saffron.reset with loaded := true, testAt := some 0, flashA := (((Memory.writeLE [] 6 2 1).writeLE 0x100 2 3).writeLE 0x108 4 0x200).writeLE 0x203 1 0xFF } }
     fed s 3 = true ∧ s.phase = .booting ∧ (s.cluster 3).image = false ∧ (s.cluster 3).badImages < 2 ∧ 500000000 ≤ ({ s with clock := 500000000 } : State).clock - 0 ∧
     (s.cluster 3).summarised = false) ∧
    2000000000 ≤ ({ aState with clock := 2000000000, resetting := some 2 } : State).clock - 0 ∧
    (40000 ≤ (40000 : Int).natAbs ∧ (60000 : Int).natAbs ≤ 60000 ∧ (39999 : Int).natAbs < 40000 ∧ 60000 < (60001 : Int).natAbs) ∧ aState.phase ≠ .off ∧
    (aState.cluster 0).misses < 3 ∧ aState.phase ≠ .fatal ∧
    (let s := aState.modCluster 0 fun k => { k with clstat := 3 }
     (s.cluster 0).clstat.getLsbD 1 = true ∧ (s.cluster 0).grant = none ∧ (s.cluster 0).failed = false ∧
     (s.cluster 0).suspects.countP (fun t => decide (s.clock - t < 86400000000000)) < 3) ∧
    (({ Sumac.reset with sec := 1 } : Sumac).pps ≠ 1 ∧ ({ Sumac.reset with source := 1 } : Sumac).source ≠ 0) ∧
    (let d : Dirty := { line := 0x100000000, old := [], hart := 5, cap := 1, fh := 0, fx := 0 }
     let s := { aState with dirty := [d] }
     mayWriteBack s d = true ∧ (s.version 0x100000000).version ≠ 0xFFFFFFFF ∧ versionFull s 0 = false ∧
     versionFull { s with versions := [{ line := 0x100000000, version := 0xFFFFFFFF, tag := 0 }] } (granuleOf (256 * 0x100000000)) = true) := by decide

/-- A kit whose placement table names the empty image for every cluster, and whose boot tree has cluster 3 under the root. -/
def aKit : Memory :=
  let m := ((((Memory.writeLE [] 6 2 3).writeLE 0x100 2 3).writeLE 0x108 4 0x200).writeLE 0x203 1 0xFF).writeLE 0x140 2 2
  let m := (((m.writeLE 0x148 4 0x300).writeLE 0x14C 4 4).writeLE 0x301 1 127).writeLE 0x302 1 2
  ((m.writeLE 0x180 2 1).writeLE 0x182 2 2).writeBytes 0x190 (Crypto.sha384 [])

theorem witness_PackageEvents_image :
    (let s := { State.reset with phase := Phase.booting, saffron := { Saffron.reset with loaded := true, flashA := aKit } }
     s.phase = .booting ∧ s.saffron.loaded = true ∧ (s.cluster 3).image = false ∧ (s.cluster 3).badImages < 2 ∧ fed s 3 = true ∧
     imageDigest s.kit 3 = some (Crypto.sha384 []) ∧ imageDigest s.kit 3 ≠ some (Crypto.sha384 [1])) ∧
    (let s := { State.reset with phase := Phase.booting, resetting := some 2, saffron := { Saffron.reset with updated := some true } }
     s.phase = .booting ∧ s.saffron.loaded = false ∧ s.resetting = some 2 ∧ s.saffron.updated = some true ∧ s.saffron.bootedB = false) := by decide +kernel

set_option maxRecDepth 20000 in
theorem witness_AdmissionEvents_queues :
    (aPackage.selected.length < 4 ∧ aPackage.phase = .running ∧ eligibleParts aPackage = [0] ∧ eligibleParts aState = []) ∧
    (let s := { aPackage with selected := [0] }
     s.selected.contains 0 = true ∧ (s.queue 0).head? s = some anEntry ∧ entryPoisoned (s.queue 0) anEntry s = false ∧ (s.queue 0).partition = some 0 ∧ (s.queue 0).en = true ∧
     (s.queue 0).held = false ∧ (s.queue 0).tearing = false ∧ s.inReset 0 = false ∧ timeHolds s (s.part 0) anEntry.record = false ∧
     timeHolds s (s.part 0) (Memory.writeLE [] 0xA0 8 1) = true ∧ reservedOk anEntry.record = true ∧ scopeOk anEntry.record = true ∧
     reservedOk (Memory.writeLE [] 0x91 8 0xFFFFFFFFFFFFFFFF) = false ∧ scopeOk (Memory.writeLE [] 0x80 2 0x1400) = false) ∧
    (let q : Queue := { aQueue with held := true, why := 1 }
     q.held = true ∧ q.why = 1 ∧ q.watched = false ∧ anEntry.record.readLE 0xB8 8 ≤ aPackage.mem.readLE 0 8) ∧
    (let q : Queue := { aQueue with pending := [7] }
     q.pending = 7 :: [] ∧ q.full = false ∧ { q with waiting := 16 }.full = true) ∧
    (let k := ({ aState with clock := 1000000 }.modCore 3 fun k => { k with claim := some (0, 0) }).core 3
     k.claim.isSome = true ∧ 1000000 ≤ 1000000 - k.claimAt) ∧
    (aQueue.held = false ∧ ∀ t, some 1 = some t → 20000 - t < 20000) := by decide

theorem witness_AdmissionEvents_capsules :
    (aCapsule.state ≠ .armed ∧ effectsVisible aState 1 = true ∧ capsuleIdle aState 1 = false ∧ aState.cap? 1 = some aCapsule) ∧
    (let s := { aState with parked := [], hart := State.reset.hart }
     capsuleIdle s 1 = true ∧ aCapsule.joins = []) ∧
    (let c : Capsule := { aCapsule with state := .armed, launch := some aLaunch }
     (c.field 0xA0).toNat ≤ aState.now.toNat ∧ c.launch = some aLaunch) ∧
    (let c : Capsule := { aCapsule with record := Memory.writeLE [] 0xA8 8 1 }
     c.field 0xA8 ≠ 0 ∧ aState.now.toNat < (c.field 0xA8).toNat ∧
     (c.field 0xA8).toNat ≤ ({ aState with sumac := { Sumac.reset with ns := 1 } } : State).now.toNat) ∧
    ((gateHolds aCapsule aState).1 = .passed ∧ arms aPartition aCapsule = false) ∧
    (aState.hart? 99 = none ∧ (aState.hart? 5).isSome = true ∧ aTask.run ≠ .blocked .lease) ∧
    (let c : Copy := { aCopy .ms with stamp := 0 }
     1000000 ≤ ({ aState with clock := 1000000 } : State).clock - c.stamp ∧ slotWait aState 0 c = false) ∧
    (aState.inFlight 0 ≠ [] ∧ aState.inFlight 9 = [] ∧ 10000000 ≤ ({ aState with clock := 10000000 } : State).clock - aQueue.progress ∧ aQueue.tearing = false) := by
  decide

theorem witness_HostAndPeerEvents : Served 1 aPackage ∧ (aPackage.part 5).wadm = 0 ∧
    ((aPackage.queue 0).fn = some 1 ∧ (aPackage.queue 0).torn = false ∧ (aPackage.queue 0).pending = [] ∧ (aPackage.queue 0).full = false ∧
     (aPackage.queue 0).en = true ∧ (aPackage.queue 7).fn ≠ some 1) ∧ stagingIn aPackage 0 = [] ∧
    (dumpBase < dumpBase - 7 + 8 ∧ HostMay 1 0x1FFFF8 8 false anOwned ∧ HostMay 1 0x1FFFF8 8 true anOwned ∧
     heldByToken anOwned anOwned.nextId 0x1FFFF8 8 = false ∧ anOwned.mem.readLE 0x1FFFF8 8 = 0) ∧
    (let w := (Memory.writeLE [] 0 1 1).writeLE 2 2 5 |>.writeLE 16 8 0x1000
     let s := { anOwned with saffron := { Saffron.reset with windows := w } }
     (s.inbound 0).kind = 1 ∧ (s.inbound 0).part < 16 ∧ 0xFF8 + 8 ≤ (s.inbound 0).len ∧ (s.inbound 0).len < 0xFF9 + 8 ∧
     windowMay s (s.inbound 0) ((s.inbound 0).base + 0xFF8) 8 true = true ∧ (s.inbound 1).kind = 0) ∧
    (let s := { anOwned with saffron := { Saffron.reset with windows := (Memory.writeLE [] 32 1 2).writeLE 34 2 5 |>.writeLE 64 1 3 } }
     (s.inbound 1).kind = 2 ∧ (s.inbound 1).base % 8 = 0 ∧ windowMay s (s.inbound 1) (s.inbound 1).base 8 true = true ∧ (s.inbound 2).kind = 3) := by
  unfold Served HostMay; decide

/-- The tier-1 map entry of slot 0: every granule of it is free, or one is owned. -/
theorem witness_HostAndPeerEvents_tier1 : (∀ i < 512, gotState (aState.granule (196608 + 512 * 0 + i)) = 0) ∧
    ∃ i < 512, gotState (({ aState with got := [(196609, 4)] } : State).granule (196608 + 512 * 0 + i)) ≠ 0 := by
  refine ⟨?_, 1, by decide, by decide⟩
  intro i _
  show gotState (if granuleOf dumpBase ≤ 196608 + 512 * 0 + i ∧ 196608 + 512 * 0 + i < 196608 then 0xC else 0) = 0
  rw [if_neg (by omega)]
  decide

theorem witness_ManagementEvents :
    ((aPackage.queue 0).partition = some 0 ∧ (aPackage.queue 1).partition ≠ some 0 ∧ aPackage.inFlight 0 = [aCapsule] ∧ aCapsule.nonce = 0 ∧
     aPackage.resetting = none ∧ aPackage.inReset 0 = false ∧ (aPackage.modPart 0 fun x => { x with resetEnd := aPackage.clock + 1 }).inReset 0 = true) ∧
    aPackage.saffron.kek = none ∧ (aPackage.cluster 3).mark = false ∧ (aPackage.cluster 3).clstat.getLsbD 0 = false ∧
    (let s := { aPackage with phase := .configOpen }
     configOk 0 aPartition.cfg = true ∧ configsOk (s.modPart 0 fun x => { x with cfg := aPartition.cfg }) = true ∧
     configOk 1 aPartition.cfg = false ∧ s.saffron.windows.wf = true ∧ (∀ q ∈ s.queues, ∀ g, q.fn = some g → 1 ≤ g ∧ g ≤ 16) ∧
     ∀ p < 16, (s.part p).wadm = 0 ∨ configOk p (s.part p).cfg = true) ∧
    (holdsGranule anOwned 5 = true ∧ holdsGranule anOwned 6 = false ∧ (memKey { anOwned with memkeys := [{ owner := 6, key := 1, gen := 1 }] } 6).key ≠ 0 ∧
     gotState (anOwned.granule 7) = 0 ∧ isOwner anOwned 5 0 = true ∧ isOwner anOwned 6 0 = false ∧ sharedWith anOwned 0 = [] ∧ gotSeal (anOwned.granule 0) = 0 ∧
     freeSeal anOwned = some 1 ∧ namedByCapsule anOwned 0 = true ∧ namedByCapsule { anOwned with caps := [] } 0 = false) ∧
    (saffronBusy anOwned = false ∧ saffronBusy { anOwned with got := [(0, 8)] } = true ∧ (anOwned.spdmAt 1).stage = 0) := by
  refine ⟨by decide, by decide, by decide, by decide, ⟨by decide, by decide, by decide, by decide, ?_, by decide⟩, by decide, by decide⟩
  intro q hq g hg
  simp only [aPackage, List.mem_singleton] at hq
  subst hq
  simp only [aQueue, Option.some.injEq] at hg
  omega

/-- Each check at issue, each class of fault, a running capsule with and without a report extent, and firmware with and without a fault
that is pending. -/
theorem witness_TakingExceptions :
    (let s := aState.mod fun h => { h with sdist := 4096 }
     s.hart.kind = .task ∧ (opNop).counted = true ∧ 4096 ≤ s.hart.sdist) ∧ Room aState ∧
    ((opHalt).priv = .service ∧ (opTor 3 4 5 false false 0).priv = .open_ ∧ (opTor 3 4 5 false false 0).rotation = false) ∧
    (let s := aState.mod fun h => { h with ntiles := 1 }
     (14 : TReg) ∈ (opTor 14 15 15 false false 0).tiles ∧ (14 : TReg).val < 16 - s.hart.ntiles ∧ Tiles s (opTor 15 15 15 false false 0).tiles) ∧
    (let s := aState.modRegs fun r => { r with sfull := 0 }
     s.sfull 3 = false) ∧
    aState.hart.partner = none ∧ overtaken aState.hart = false ∧ Code.staging.cls = .resolved ∧ Code.poison.cls = .rollback ∧ Code.illegal.cls = .capsule ∧
    (drain aState).hart.rdl < 2 ∧ 2 ≤ (drain (aState.mod fun h => { h with rdl := 2 })).hart.rdl ∧
    aState.cap? 1 = some aCapsule ∧ aCapsule.state = .running ∧ reportExtent { aCapsule with exts := [] } = none ∧ aState.mem.wf = true ∧
    (reportExtent aCapsule).isSome = true ∧ (aFirmware.cluster aFirmware.here).fwcode = 0 ∧
    ((aFirmware.modCluster 0 fun k => { k with fwcode := 4 }).cluster 0).fwcode ≠ 0 ∧ aSaffron.saffron.fwcode = 0 := by
  unfold Room Tiles; decide

/-- Memory with the word of ADD at the first instruction of the task. -/
def aWritten : State := { aState with mem := Memory.writeLE [] 0x10000 4 0x04611000 }

set_option maxRecDepth 20000 in
/-- A task whose word is ADD, whose word decodes to nothing, and an agenda of each kind; the PC may lie off a multiple of 4. -/
theorem witness_StepRunsDecoded :
    (let u := pass aWritten
     aWritten.pending = [] ∧ aWritten.agenda = [] ∧ u.down = false ∧ u.phase ≠ .fatal ∧ u.hart.run = .ready ∧ u.hart.chunk.exclusive = false ∧
     coreStopped u = false ∧ u.hart.rebind = none ∧ bitOf (rstGet u.hart.r.rst 4 1) 1 = false ∧
     meets (fetchWord u.hart.r.pc (startIssue u)) (fun p => decodeWord p.1 == .ok (.add 3 1 2 false false)) = true ∧
     meets (fetchWord aState.hart.r.pc (startIssue (pass aState))) (fun p => !(decodeWord p.1).isOk) = true) ∧
    ((checkAccess aWritten aWritten.hart.r.pc 4 .exec).toOption = some 0x10000 ∧ (checkAccess aWritten 2 4 .exec).toOption = some 0x10002 ∧
     (∃ e : Extent, aWritten.extents[0]? = some e ∧ e.kind = 1 ∧ ownedBy aWritten e.ksel 0x10000 4 = true) ∧ aWritten.poison = [] ∧ aWritten.faults = [] ∧
     aWritten.sram = [] ∧ aWritten.retained = [] ∧ (aWritten.cluster aWritten.here).ro = []) ∧
    encode (.evFence none 3) = none ∧ ({ aState with agenda := [.event (.evFence none 3), .fatal 1, .issue 5] }).agenda ≠ [] := by
  refine ⟨by decide, ⟨by decide, by decide, ⟨_, rfl, by decide, by decide⟩, by decide, by decide, by decide, by decide, by decide⟩, by decide, by decide⟩

theorem witness_EncodeDecode : Instr.wf (.ext 31 31 true 63 0) = true ∧ encode (.ext 31 31 true 63 0) = some 0x33FF8FC0 ∧
    decodeWord 0x33FF8FC0 = .ok (.ext 31 31 true 63 0) := ⟨by decide, rfl, rfl⟩

/-- A context whose tiles hold no data, with nothing staged, in flight or about to commit, is tidy. -/
theorem tidyHart_of (h : Hart) (ht : ∀ x : TReg, (h.r.t.get x).data = []) (hc : ∀ x : TReg, (h.ckpt.t.get x).data = [])
    (hr : h.report = []) (he : h.chunk.effects = []) (hi : h.inflight = []) (hk : ∀ m, h.run ≠ .committing (.cont m)) : TidyHart h := by
  refine ⟨fun x => by rw [ht x]; rfl, fun x => by rw [hc x]; rfl, by rw [hr]; rfl, ?_, ?_, fun m hm => absurd hm (hk m)⟩
  · simp [he]
  · simp [hi]

/-- Capsules that are not armed hold no launch message. -/
theorem tidyCaps_of (l : List Capsule) (h : ∀ c ∈ l, c.record.wf = true ∧ c.launch = none) :
    ∀ c ∈ l, c.record.wf = true ∧ ∀ m, c.launch = some m → TidyMsg m := by
  intro c hc
  refine ⟨(h c hc).1, fun m hm => ?_⟩
  rw [(h c hc).2] at hm
  cases hm

set_option maxRecDepth 20000 in
/-- States that meet the invariant, right after reset and with memory written, and a step from the second; a task that executes an instruction. -/
theorem witness_StepKeepsMemory : Canonical State.reset ∧ Canonical aWritten ∧ goesOn (step aWritten) (fun t => t.hart.r.pc == 4) = true ∧
    (encode .nop).isSome = true ∧ aWritten.hart.kind = .task ∧ aWritten.hart.partner = none ∧ goesOn (exec .nop aWritten) (fun _ => true) = true := by
  refine ⟨?_, ?_, by decide, by decide, by decide, by decide, by decide⟩
  · refine ⟨by decide, by decide, ?_, ?_, ?_, ?_, ?_, ?_, ?_, ?_, ?_, by decide, by decide, by decide, by decide, ?_, ?_⟩
    · simp only [State.harts, State.reset, List.mem_singleton, forall_eq]
      exact tidyHart_of _ (by decide) (by decide) rfl rfl rfl nofun
    all_goals simp [State.reset]
  · refine ⟨by decide, by decide, ?_, ?_, ?_, ?_, ?_, tidyCaps_of _ (by decide), ?_, ?_, ?_, by decide, by decide, by decide, by decide, ?_, ?_⟩
    · simp only [State.harts, aWritten, aState, List.mem_cons, List.not_mem_nil, or_false, forall_eq_or_imp, forall_eq]
      exact ⟨tidyHart_of _ (by decide) (by decide) rfl rfl rfl nofun, tidyHart_of _ (by decide) (by decide) rfl rfl rfl nofun⟩
    all_goals simp [aWritten, aState, State.reset]

set_option maxRecDepth 20000 in
/-- A report extent no granule of which is sealed, and Saffron with a fault pending. -/
theorem witness_TakingExceptions_abort : sealedRange aState 0x20000 512 = false ∧
    (let s := { aSaffron with saffron := { aSaffron.saffron with fwcode := 4 } }
     s.hart.kind = .saffron ∧ s.saffron.fwcode ≠ 0) ∧
    aTask.partner = none ∧ Code.staging.cls = .resolved ∧
    (let s := aState.mod fun h => { h with chunk := { h.chunk with reads := true, readSig := 1, since := 1 } }
     overtaken s.hart = true ∧ s.hart.chunk.exclusive = false ∧ (s.mod fun h => { h with chunk := { h.chunk with exclusive := true } }).hart.chunk.exclusive = true) := by
  decide

set_option maxRecDepth 20000 in
/-- A record that the tables take and one whose reserved byte is not zero; requests during a reset; sensors of a partition; a reset hold. -/
theorem witness_ManagementEvents_more :
    (sealReservedOk (Memory.ofBytes (List.replicate 0x280 0)) = true ∧ sealReservedOk (Memory.ofBytes (List.replicate 0x280 1)) = false) ∧
    (inProgress { aPackage with resetting := some 2 } 1 = true ∧ inProgress aPackage 1 = false) ∧
    (aPackage.clusterPart 0 = some 0 ∧ aPackage.clusterPart 9 = none) ∧
    (let s := { aPackage with phase := Phase.held }
     s.phase = .held) ∧
    (saffronBusy { anOwned with saffron := { Saffron.reset with dumpEnd := 1 } } = true) ∧
    (let s := { anOwned with spdm := [{ path := 1, stage := 1, transcript := [] }] }
     saffronBusy s = false ∧ (s.spdmAt 1).stage = 1) := by decide

/-- Two partitions with a queue each: the second has the larger credit, and is selected; a claim of the first queue's head on the cores of a
capsule of lower priority. -/
def twoPartitions : State :=
  { aPackage with
    parts := [aPartition, { Part.reset 1 with cr := 5, cfg := (((Memory.writeLE [] 0 1 2).writeLE 0x11 1 1).writeLE 0x1A 1 1).writeLE 0x30 2 6 }]
    queues := [aQueue, { Queue.reset 1 with fn := some 2, qcfg := 1, waiting := 1, placed := 1, srbase := 0x30000000 }] }

set_option maxRecDepth 20000 in
theorem witness_AdmissionEvents_selection :
    (twoPartitions.queues.map Queue.no).Nodup ∧ eligibleParts twoPartitions = [0, 1] ∧ twoPartitions.selected.length < 4 ∧
    (let credit := fun (b : Nat) => (twoPartitions.part b).cr + Int.ofNat (twoPartitions.part b).wadm
     (∀ b ∈ eligibleParts twoPartitions, credit b ≤ credit 1 ∧ (credit b = credit 1 → 1 ≤ b)) ∧ (twoPartitions.queue 1).partition = some 1 ∧
     eligible twoPartitions (twoPartitions.queue 1) = true ∧ (levelQueues twoPartitions 1 0)[0]? = some 1) := by decide

set_option maxRecDepth 20000 in
theorem witness_AdmissionEvents_search :
    (let s := { aPackage with clock := 20000, queues := [{ aQueue with qcfg := 0x31, held := true, why := 3, heldAt := some 0 }] }
     let q := s.queue 0
     (q.head? s).isSome = true ∧ q.partition = some 0 ∧ q.held = true ∧ q.why = 3 ∧ (s.part 0).klass = 0 ∧
     (∀ k ∈ s.cores, k.claim.map Prod.fst ≠ some 0) ∧ q.heldAt = some 0 ∧ 20000 * (q.looked + 1) ≤ s.clock - 0 ∧
     (victimOrder s 0 q.pri).length ≤ 1) ∧
    Claimable aState aCapsule 0 ∧ ¬ Claimable aState aCapsule 7 ∧
    (overtakenTasks aState 1 = [] ∧ overtakenTasks (aState.mod fun h => { h with chunk := { h.chunk with reads := true, readSig := 1, since := 1 } }) 1 ≠ []) ∧
    (let c : Capsule := { aCapsule with record := Memory.writeLE [] 0x3C 2 100, joins := [{ loc := 0, core := 0, pa := none, ranks := 0, stamp := 0, seen := 0 }] }
     c.stall ≠ 0) := by
  refine ⟨by decide, ⟨⟨(0, 0), by decide, rfl⟩, by decide⟩, ?_, by decide, by decide⟩
  rintro ⟨⟨x, hx, hk⟩, -⟩
  simp only [aCapsule, List.append_nil, List.mem_singleton] at hx
  subst hx
  cases hk

set_option maxRecDepth 20000 in
/-- The place of a host address under and without an HDM decoder, a request that waits at its home and one that does not, and a peer's traffic. -/
theorem witness_HostAndPeerEvents_place :
    (hostPlace anOwned 1 ⟨0x1FFFF8, false⟩ 8 = some 0x1FFFF8 ∧ hostPlace anOwned 1 ⟨0x1FFFF8, true⟩ 8 = none ∧
     hostPlace anOwned 1 ⟨tier0End - 4, false⟩ 8 = none ∧
     (let s := anOwned.modPart 0 fun x => { x with hdm := some (2 ^ 40) }
      hostPlace s 1 ⟨2 ^ 40 + 8, true⟩ 8 = some 8 ∧ hostPlace s 1 ⟨2 ^ 40 - 8, true⟩ 8 = none ∧ (s.part 0).hdm = some (2 ^ 40))) ∧
    AtOnce (.read 1 ⟨0x1FFFF8, false⟩ 8) 0x1FFFF8 8 false anOwned ∧ AtOnce (.write 1 ⟨0x1FFFF8, false⟩ [1]) 0x1FFFF8 1 true anOwned ∧
    ¬ AtOnce (.read 1 ⟨0x1FFFF8, false⟩ 8) 0x1FFFF8 8 false { anOwned with pending := [.read 1 ⟨0, false⟩ 8] } ∧
    (anOwned.links.getLsbD 3 = true ∧ ({ anOwned with links := 0 } : State).links.getLsbD 3 = false ∧ anOwned.phase = .running ∧
     5 ≠ ({ anOwned with saffron := { Saffron.reset with device := 6 } } : State).saffron.device) ∧
    HostMay 1 0x1FFFF8 8 false anOwned ∧ ¬ HostMay 1 0x600000 8 false anOwned := by
  unfold AtOnce HostMay
  decide

set_option maxRecDepth 20000 in
/-- A unit whose exit from retention has ended, and one whose exit has not. -/
theorem witness_PowerEvents_exit :
    (let s := { aState with clock := 4200, retained := [5], exiting := [(5, 4200)] }
     (∃ x ∈ s.exiting, x.1 = 5 ∧ x.2 ≤ s.clock) ∧ 5 ∈ [5] ∧ 5 ∈ s.retained ∧ ∀ x ∈ ({ s with clock := 4199 } : State).exiting, x.1 = 5 → 4199 < x.2) ∧
    (128 ≤ 128 + 16 * 9 ∧ 128 + 16 * 9 < 2176 ∧ gated aState 9 = false ∧ gated (aState.modCluster 9 fun k => { k with clstat := 4 }) 9 = true) ∧
    (aState.mod fun h => { h with kind := .firmware, core := serviceCore 0, run := .halted }).hart.run = .halted := by decide

/-- Clusters that miss echoes, a third suspicion within a day, the package after a fatal error, and a version that has no successor. -/
theorem witness_PackageEvents_marks :
    (let s := aState.modCluster 3 fun k => { k with misses := 3 }
     3 ≤ (s.cluster 3).misses ∧ (s.cluster 2).misses < 3) ∧
    (3 ≤ ({ aState with saffron := { Saffron.reset with misses := 3 } } : State).saffron.misses ∧ aState.saffron.misses < 3) ∧
    ((aState.modCluster 3 fun k => { k with lost := true }).cluster 3).lost = true ∧
    (let s := aState.modCluster 3 fun k => { k with suspects := [0, 1] }
     2 ≤ (s.cluster 3).suspects.countP fun x => decide (s.clock - x < 86400000000000)) ∧
    aState.down = false ∧ ({ aState with phase := Phase.fatal } : State).phase = .fatal ∧ State.reset.down = true ∧
    State.reset.phase = .off ∧ ((-1 : Int) < 0 ∧ ({ Sumac.reset with armed := true } : Sumac).armed = true) := by decide


/-! Witnesses of the clauses about what stands in the way: full buffers, units in retention, tokens, records and tables that do not fit. -/

set_option maxRecDepth 20000 in
/-- A continuation extent whose free space is used up, and a task that is exempt. -/
theorem witness_SafePoints_room :
    (let z := { aPreempted with mem := Memory.writeLE [] 0x40000 8 0x10000 }.mod fun h => { h with sdist := 0 }
     preemptPending z = true ∧ z.hart.exempt = false ∧ roomFor z z.hart.r (liveMask z.hart 0x8000) (addOff z.hart.r.pc 4) = some false) ∧
    (aPreempted.mod fun h => { h with exempt := true }).hart.exempt = true ∧
    (∀ e : Extent, e ∈ aCapsule.exts → e.kind ≠ 4) := by
  refine ⟨by decide +kernel, by decide, ?_⟩
  intro e h
  simp only [aCapsule, someExtents, List.mem_cons, List.not_mem_nil, or_false] at h
  rcases h with rfl | rfl | rfl <;> decide

/-- A chunk of 32 messages, and an entry of a port without a tile. -/
theorem witness_SendBuffers_full :
    (let s := aSender.mod fun h => { h with chunk := { h.chunk with effects := List.replicate 32 (.message aMessage) } }
     Room s ∧ Full s [1, 2, 24, 25, 26, 27, 28, 29] ∧ SendTarget aPairCapsule 0x0000000800000000 ∧ ¬OutRoom s) ∧
    (let m := { aMessage with tile := none }
     let s := withPort [⟨m, none⟩] aState
     Room s ∧ Tiles s [0] ∧ (s.core s.hart.core).ports.get (Fin.ofNat 4 0) = [] ++ ⟨m, none⟩ :: [] ∧ m.tile = none) := by
  unfold Room Full SendTarget OutRoom Tiles; decide

/-- Locators that are refused; a registered cell at the count before its target, with a message image of rank 0. -/
def aCell : JoinReg := { loc := 0x40, core := 0, pa := some 0x10040, ranks := 0, stamp := 0, seen := 0 }
def aJoin (count target : Nat) : State :=
  let m := ((Memory.writeLE [] 0x10040 4 count).writeLE 0x10044 4 target).writeLE 0x10048 8 0x100
  { aState with caps := [{ aPairCapsule with joins := [aCell] }], mem := m.writeLE 0x10108 8 0x200 }

set_option maxRecDepth 20000 in
theorem witness_JoinCells_commit :
    (let s := withRegs [(1, 0xFF00000000010000)] aState
     handleIdx (s.sreg 1) = 0xFF ∧ bitsOf (s.sreg 1).toNat 55 16 ≠ 0) ∧
    (let s := withRegs [(1, 0x48)] aState
     handleIdx (s.sreg 1) ≠ 0xFF ∧ handleOff (s.sreg 1) % 16 ≠ 0 ∧ meets (reachTask (s.sreg 1) 16 .write s) (fun _ => true) = true ∧
     meets (reachTask (s.sreg 1) 16 .atomic s) (fun _ => true) = true) ∧
    (let s := aJoin 1 2
     ∃ c, s.capsule = some c ∧ poisonCause s 0x10040 16 = none ∧ c.joins.find? (sameCell 0 0x40 (some 0x10040)) = some aCell ∧
       s.mem.readLE 0x10044 4 = 2 ∧ s.mem.readLE 0x10040 4 = 1 ∧
       checkExtents c.exts (word (s.mem.readLE 0x10048 8)) 64 .read = .ok 0x10100 ∧ poisonCause s 0x10100 64 = none ∧
       SendTarget c (word (s.mem.readLE 0x10110 8)) ∧ checkExtents c.exts (word (s.mem.readLE 0x10108 8)) 4 .exec = .ok 0x10200) ∧
    ((aJoin 2 2).mem.readLE 0x10040 4 = 2 ∧ (aJoin 0 0).mem.readLE 0x10044 4 = 0 ∧ (aJoin 0 2).mem.readLE 0x10040 4 = 0) ∧
    ¬SendTarget aPairCapsule 0x0000000100000000 ∧
    (∃ f, checkExtents aPairCapsule.exts 0x0900000000000000 64 .read = .error f) := by
  unfold SendTarget
  refine ⟨by decide, by decide, ⟨_, rfl, by decide, by decide, by decide, by decide, rfl, by decide, by decide, rfl⟩, by decide, by decide, ⟨_, rfl⟩⟩

set_option maxRecDepth 20000 in
/-- Firmware with a fault pending; addresses at the end of open memory and of a page. -/
theorem witness_AccessPaths_ends :
    (let s := aFirmware.modCluster 0 fun k => { k with fwcode := 7, mmuctl := 1 }
     s.hart.kind = .firmware ∧ (s.cluster s.here).fwcode ≠ 0 ∧ (s.cluster s.here).mmuctl.getLsbD 0 = true) ∧
    ownedBy aFirmware 0 (dumpBase - 2) 2 = true ∧ dumpBase - 2 + 2 ≤ 0x5FB0000000 ∧ (0x5FB0000000 < dumpBase - 2 + 3 ∧ dumpBase - 2 < 0x6000000000) ∧
    0x1FFFFE % 2097152 + 2 ≤ 2097152 ∧ ¬0x1FFFFE % 2097152 + 3 ≤ 2097152 := by decide

set_option maxRecDepth 20000 in
/-- Firmware's store meets a chunk in exclusive mode that has read its line, and a home slice in retention. -/
theorem witness_StoredBytes_waits :
    (let h := { aTask with chunk := { aTask.chunk with exclusive := true, readSig := sigRange 0x10000 8 } }
     let s := { aFirmware with parked := [h], tokens := [5] }
     heldByToken s s.hart.id 0x10000 8 = true ∧ heldByToken { s with tokens := [] } s.hart.id 0x10000 8 = false) ∧
    (let s := { aFirmware with retained := unitsAt aFirmware aFirmware.hart.core 0x10000 8 }
     ∃ u ∈ unitsAt s s.hart.core 0x10000 8, u ∈ s.retained) := by decide

/-- MEPI of a group with an empty register. -/
theorem witness_MatrixCommands_group :
    (let s := aMatrix.modRegs fun r => { r with t := r.t.set 9 { r.t.get 9 with full := false } }
     Tiles s (7 :: groupRegs true) ∧ TilesReady s [7] [7] ∧ groupRegs true = [8] ++ 9 :: [10, 11, 12, 13, 14, 15] ∧ FullTiles s [8] ∧
     (s.tile 9).full = false) := by
  unfold TilesReady Tiles FullTiles Quiet; decide

set_option maxRecDepth 20000 in
/-- Elements that are held back, refused and delivered, for each way of a copy. -/
theorem witness_EngineEvents_elements :
    (let c : Copy := { aCopy .ur with keyed := true, verified := [1] }
     c.keyed = true ∧ (∀ g ∈ unitsOf 65536 (c.phys + c.done * c.esize) c.esize, g ∈ c.verified) ∧
     (∀ x ∈ unitsAt aMatrix 0 (c.phys + c.done * c.esize) c.esize ++ [0], x ∉ aMatrix.retained)) ∧
    (let s := { aState with retained := [0] }
     ∃ x ∈ unitsAt s 0 0x10100 256 ++ [0], x ∈ s.retained) ∧
    (let h := { aTask with id := 7, chunk := { aTask.chunk with exclusive := true, readSig := sigRange 0x10100 256 } }
     let s := { aState with parked := [h], tokens := [7] }
     heldByToken s s.nextId 0x10100 256 = true ∧ heldByToken aState aState.nextId 0x10100 256 = false) ∧
    (let s := { aState with got := [(0, BitVec.ofNat 128 0x104)] }
     sealedRange s 0x10100 256 = true ∧ sealedRange aState 0x10100 256 = false ∧ aState.mem.wf = true) ∧
    (copyDirty (aCopy .sm) aState = [] ∧ fencedCopy aState (aCopy .es) = false ∧ aState.links.getLsbD (endLink (aCopy .es).phys) = true) := by decide

set_option maxRecDepth 20000 in
/-- A commit whose store's home is in retention; a record that fits and one that does not; waits that become safe points, or find no room. -/
theorem witness_TaskEvents_waits :
    (let s := aState.mod fun h => { h with run := .committing .done, chunk := { h.chunk with effects := [.store 0x10000 [1]] } }
     let t := { s with retained := commitUnits s s.hart.chunk.effects }
     mayCommit t = true ∧ ∃ x ∈ commitUnits t t.hart.chunk.effects, x ∈ t.retained) ∧
    (recordFits aState aState.hart 16 = true ∧ recordFits { aState with parked := [{ aTask with id := 7, ntiles := 1 }] } aState.hart 16 = false) ∧
    8 ≤ (Memory.writeLE [] 7 1 8).readLE 7 1 ∧
    (let s := { aState with clock := 2048 }.mod fun h => { h with run := .blocked (.sreg 3) }
     2048 ≤ s.clock - Nat.max s.hart.waitFrom s.hart.preemptAt ∧ Wait.safe (.sreg 3) = true ∧
     ¬2048 ≤ s.clock - Nat.max s.hart.waitFrom ({ s.hart with preemptAt := 1 } : Hart).preemptAt) ∧
    (aState.mod fun h => { h with run := .staging 0x100 }).hart.run = .staging 0x100 ∧
    (roomFor aPreempted aPreempted.hart.r 0 0 = some true ∧ preemptPending aPreempted = true ∧ roomFor aState aState.hart.r 0 0 = none ∧
     roomFor { aPreempted with mem := Memory.writeLE [] 0x40000 8 0x10000 } aPreempted.hart.r 0 0 = some false) ∧
    (let s := aState.mod fun h => { h with run := .migrating none }
     meets (meetGroup (allTiles s.hart) s) (fun _ => true) = true) ∧
    (let h := fun (n : Nat) => ({ aTask with id := n, core := serviceCore 0 } : Hart)
     let s := { aState with parked := [h 7, h 8, h 9, h 10] }
     4 ≤ (residents s (serviceCore s.here)).length) ∧
    (let s := { aState with net := [{ aMessage with sender := some 5 }], clock := 2049, tokens := [5] }.mod fun h => { h with run := .committing .done }
     outboxEmpty s s.hart.task = false ∧ s.tokens.contains (tokenOf s.hart) = true ∧ 2048 < s.clock - s.hart.waitFrom) := by decide

set_option maxRecDepth 20000 in
/-- A core that is tested again with no task on it, and a query whose answer comes to a core. -/
theorem witness_TaskEvents_retest :
    (let s := aState.modCore 2 fun k => { k with retest := true }
     (s.core 2).retest = true ∧ coreBusy s 2 = false ∧ (s.core 2).boundRec = []) ∧
    (let q : Query := { aQuery with answer := some 9, item := some 1, arrived := some 0, fate := 1 }
     q.answer = some 9 ∧ q.landed = false ∧ q.fate = 1) ∧
    (let s := aState.mod fun h => { h with run := .committing .done, chunk := { h.chunk with reads := true, readSig := 1, since := 1 } }
     overtaken s.hart = true ∧ s.hart.chunk.exclusive = false) := by decide

/-- A slice that was accessed 50 microseconds ago, and one just before. -/
theorem witness_PowerEvents_idle :
    (let s := { aState with clock := 50000, used := [(272, 0), (273, 1)] }.modCluster 9 fun k => { k with clstat := 4 }
     gated s ((272 - 128) / 16) = true ∧ 50000 ≤ s.clock - assoc 0 s.used 272 ∧ ¬50000 ≤ s.clock - assoc 0 s.used 273) ∧ 2176 ≤ 2303 := by decide

/-- A self-test that ran out of time, a fatal error during a cold reset, and a slot that an update has written. -/
theorem witness_PackageEvents_times :
    (let s := { aState with clock := 500000000, saffron := { Saffron.reset with testAt := some 0 } }
     s.saffron.testAt = some 0 ∧ s.phase ≠ .fatal ∧ (s.cluster 3).summarised = false ∧ 500000000 ≤ s.clock - 0 ∧
     ((s.modCluster 3 fun k => { k with fencedOther := true }).cluster 3).fencedOther = true) ∧
    ({ aState with resetting := some 3 } : State).down = false ∧
    ((aState.modCluster 3 fun k => { k with clstat := 2 }).cluster 3).clstat.getLsbD 1 = true ∧ (aState.cluster 3).clstat.getLsbD 1 = false := by decide

set_option maxRecDepth 20000 in
/-- An entry with a poisoned sector; a lease queue with and without a context; a pre-emption of the task that issues; a window that arms. -/
theorem witness_AdmissionEvents_reads :
    (let s := { aPackage with selected := [0], poison := [(0x30000020 / 32, false)] }
     let v := readLines 0 0x30000000 256 { s with selected := [] }
     (s.queue 0).headEntry = 0x30000000 ∧ (0x30000020 / 32, false) ∈ v.poison) ∧
    (let s := { aState with clock := 1000000 }.modCluster 0 fun k => { k with leaseWait := [(9, 1, 0), (5, 3, 0)] }
     (s.cluster (clusterNo aTask.core)).leaseWait = [(9, 1, 0)] ++ (5, 3, 0) :: [] ∧ 1000000 ≤ s.clock - 0) ∧
    (∀ w ∈ (aState.cluster 0).leaseWait, w.1 ≠ 5) ∧
    (5 ∈ aState.hartsOf 1 ∧ 5 ∉ aCapsule.preempt ∧ 9 ∉ aState.hartsOf 1) ∧
    (let p : Part := { aPartition with cfg := aPartition.cfg.writeLE 0x13 1 1 }
     let c : Capsule := { aCapsule with record := Memory.writeLE [] 0xA0 8 5 }
     c.field 0xA0 ≠ 0 ∧ p.window = 1000 ∧ arms p c = true) ∧
    (bitsOf (0x100000000000 + 2 ^ 60) 63 60 = 1 ∧ dumpBase ≤ bitsOf (0x100000000000 + 2 ^ 60) 47 0) := by decide

set_option maxRecDepth 20000 in
/-- A capsule that ends, an owner's number that no key has, and a granule that a capsule names. -/
theorem witness_ManagementEvents_names :
    (let c : Capsule := { aCapsule with state := .ending 3 }
     let s := { aPackage with caps := [c] }
     s.inFlight 0 = [c] ∧ c.state = .ending 3 ∧ (s.queue 0).partition = some 0) ∧
    (let s := { anOwned with got := [(0, BitVec.ofNat 128 (5 * 2 ^ 48 + 4))] }
     gotState (s.granule 0) = 1 ∧ namedByCapsule s 0 = true ∧ namedByCapsule { s with caps := [] } 0 = false) ∧
    (holdsGranule anOwned 7 = false ∧ holdsGranule anOwned 5 = true ∧ (7 : BitVec 16) ≠ 0 ∧ (7 : BitVec 16) ≠ 0xFFFF) ∧
    (State.reset.pending = [] ∧ State.reset.releasing = [] ∧ pass State.reset = tick State.reset) := by
  refine ⟨by decide, by decide, by decide, rfl, rfl, rfl⟩


/-! Witnesses of the clauses on batches, open chunks, waits for slices in retention, the diagnostic window and the rows of tile accesses. -/

/-- Four claims are held, and 32 messages, when a query and a child come; a table whose first entry passes. -/
theorem witness_QueryAndSpawn_full :
    (let s := (withRegs [(1, 0xFFF8), (2, 0x40)] aState).mod fun h => { h with chunk := { h.chunk with claims := 4 } }
     s.hart.kind = .task ∧ (s.sreg 1).toNat < 65536 ∧ meets (reachTask (s.sreg 2) 32 .atomic s) (fun p => decide (4 ≤ p.2.hart.chunk.claims)) = true ∧
     regionHeld 0xFFF8 8 s = false) ∧
    (let s := aState.mod fun h => { h with chunk := { h.chunk with effects := List.replicate 32 (.message aMessage) } }
     ¬OutRoom s) := by
  unfold OutRoom; decide

set_option maxRecDepth 20000 in
/-- CINV of a task at the end of its extent, and of firmware at the end of a page of its MMU. -/
theorem witness_GatesFencesInvalidates_ranges :
    (checkAccess aState 0x1FF8 8 .read).toOption = some 0x11FF8 ∧
    meets (physicalParts aMapped (pageParts aMapped 0x3FFFF8 8)) (fun l => l == [(0x5FFFF8, 8)]) = true := by decide

/-- A channel that is busy for the copy, and a second copy-in of the task. -/
theorem witness_CopyResults_waits :
    (let s := copying (aCopy .ms) aState
     ((s.cluster s.here).chan (0x4803 % 16)).copy.isSome = true ∧ s.copyIn.isSome = true ∧ ¬((s.cluster s.here).chan 4).copy.isSome = true) := by decide

/-- MRQ of a ring of the task's lease, and of one outside it. -/
theorem witness_MatrixCommands_query :
    (leaseHeld aMatrix.hart.lease = true ∧ bitOf (leaseMask aMatrix.hart.lease) 0 = true ∧ ((aMatrix.cluster 0).ring 0).defn.getLsbD 63 = true ∧
     ((aMatrix.cluster 0).ring 0).ready ≤ 64 ∧ ((aMatrix.cluster 0).ring 0).next < 64) ∧ bitOf (leaseMask aMatrix.hart.lease) 9 = false := by decide

/-- A copy-in whose chunk is open, a restarted one, a copy-out; a slice in retention that holds a dirty word; a batch of two cores with equal TOGGLE of
which the later one is next, and one of a lower TOGGLE. -/
theorem witness_EngineEvents_chunks :
    (inOpenChunk aState (aCopy .es) = true ∧ inOpenChunk aState { aCopy .es with chunk := 2 ^ 64 } = false ∧ inOpenChunk aState (aCopy .se) = false) ∧
    (let c : Copy := { aCopy .ur with keyed := true, done := 0, esize := 8192, chunk := 2 ^ 64 }
     inOpenChunk aState c = false) ∧
    (let h := fun (n core : Nat) => ({ aTask with id := n, core := core } : Hart)
     let s := { aState with parked := [h 7 12, { h 8 3 with lease := leaseSet 0 95 64 1 }] }.modCluster 0 fun k => { k with batch := [8, 5, 7], lastCore := 10 }
     (s.cluster 0).grant = none ∧ (s.cluster 0).batch ≠ [] ∧ batchKey s 10 7 = (0, 1) ∧ batchKey s 10 5 = (0, 21) ∧ batchKey s 10 8 = (1, 24) ∧
     nextOfBatch s 10 [8, 5, 7] = some 7) ∧
    (let s := { aState with retained := homeUnits aState 0x10040 8 }
     ∃ x ∈ homeUnits s 0x10040 8, x ∈ s.retained) := by decide

set_option maxRecDepth 20000 in
/-- A record whose lines are in retention and awake; a redelivered task; a copy of which nothing, and something, has landed. -/
theorem witness_TaskEvents_reads :
    (meets (meetLines 0 0x40100 0x400 aState) (fun _ => true) = true ∧
     meets (meetLines 0 0x40100 256 { aState with retained := unitsAt aState 0 0x40100 256 }) (fun _ => true) = false) ∧
    (({ aTask with rdl := 2 } : Hart).rdl ≠ 0 ∧ ({ aTask with rdl := 2 } : Hart).rdl < 4 ∧ aTask.rdl = 0) ∧
    (let c : Copy := { aCopy .ms with done := 0 }
     let s := copying c aState
     s.copyIn = some c ∧ c.base + c.done = 0 ∧ aState.copyIn = none) ∧
    (let c := aCopy .ms
     let s := copying c aState
     s.copyIn = some c ∧ c.base + c.done ≠ 0 ∧ c.mode.toRing = false ∧ c.done ≤ c.count ∧ c.count < 4096 ∧ c.chan < 16 ∧ c.esize < 65536 ∧
     c.dst.toNat + c.done * c.esize < 2 ^ 32) ∧
    (let es : List Effect := [.store 0x10000 [1, 2], .amo 0x10008 .add true 5, .padStore 0 0x40 [3]]
     let s := aState.mod fun h => { h with chunk := { h.chunk with effects := es } }
     (∀ e ∈ es, (∃ pa bs, e = .store pa bs) ∨ (∃ pa op wide y, e = .amo pa op wide y) ∨ ∃ k a bs, e = .padStore k a bs) ∧
     writesSealed s es = false ∧ sealedRange s 0x10008 8 = false ∧ s.mem.wf = true) := by
  refine ⟨by decide, by decide, by decide, by decide, ?_, by decide, by decide, by decide⟩
  intro e h
  simp only [List.mem_cons, List.not_mem_nil, or_false] at h
  rcases h with rfl | rfl | rfl
  · exact .inl ⟨_, _, rfl⟩
  · exact .inr (.inl ⟨_, _, _, _, rfl⟩)
  · exact .inr (.inr ⟨_, _, _, rfl⟩)

set_option maxRecDepth 20000 in
/-- A descriptor's slice in retention and awake; the orders of R92; a core that a capsule keeps, and one bound for a continuation alone. -/
theorem witness_TaskEvents_cumin :
    (let s := { aState with queries := [{ aQuery with arrived := some 0 }], mem := aGrid, retained := homeUnits aState 0x10000 32 }
     (∃ x ∈ homeUnits s 0x10000 32, x ∈ s.retained) ∧ ∀ x ∈ homeUnits s 0x10000 32, x ∉ aState.retained) ∧
    (let q : Query := { aQuery with arrived := some 0 }
     let s := { aState with queries := [q], mem := Memory.writeLE aGrid 0x10000 4 2, returns := [] }
     q.answer = none ∧ s.queries[0]? = some q ∧ (∀ j x, s.queries[j]? = some x → j ≠ 0 → x.desc = q.desc → x.answer = none → ∀ k, x.arrived = some k → 0 < k)) ∧
    coreBusy aState 0 = true ∧ coreBusy (aState.modCore 2 fun k => { k with cap := some 1 }) 2 = true ∧
    coreBusy (aState.modCore 2 fun k => { k with cap := some 1, boundRec := [(0, 1)] }) 2 = false := by
  refine ⟨by decide, ⟨rfl, rfl, ?_⟩, by decide, by decide, by decide⟩
  intro j x h n
  match j, n with
  | j + 1, _ => exact absurd h (by simp)

set_option maxRecDepth 20000 in
/-- A gate's release whose slice is in retention. -/
theorem witness_PowerEvents_gate :
    (let s := { aState with heldx := [(5, 0, .sendx 1 0 0 0x1000000000010000 7 (Vector.replicate 6 0))], retained := homeUnits aState 0x10000 8 }
     bitsOf (0x1000000000010000 : Word).toNat 63 60 = 1 ∧ fencedOff s 5 0 = false ∧
     ∃ x ∈ homeUnits s (bitsOf (0x1000000000010000 : Word).toNat 47 0) 8, x ∈ s.retained) := by decide

set_option maxRecDepth 20000 in
/-- Admission waits for the entry's slice, for the gate's and for a list's; a gate below its threshold. -/
theorem witness_AdmissionEvents_slices :
    (let s := { aPackage with selected := [0], retained := homeUnits aPackage 0x30000000 256 }
     (∃ x ∈ homeUnits s 0x30000000 256, x ∈ s.retained) ∧ (s.queue 0).head? s = some anEntry ∧ (s.queue 0).headEntry = 0x30000000) ∧
    (let c : Capsule := { aCapsule with record := (Memory.writeLE [] 0x39 1 0x20).writeLE 0xB8 8 5 }
     bitOf c.ctl 13 = true ∧ (checkExtents c.exts (c.field 0xB0) 8 .read).toOption = some 0x10000 ∧
     (gateHolds c aState).1 = .below 0x10000 ∧ (gateHolds c { aState with retained := homeUnits aState 0x10000 8 }).1 = .waits) ∧
    (aState.faults = [] ∧ aState.sram = [] ∧ poisonCause aState 0x10000 8 = none) ∧
    (let s := { anOwned with got := [(0, BitVec.ofNat 128 (5 * 2 ^ 48 + 4))] }
     0x10000 % 256 = 0 ∧ 0x10000 + 32 ≤ dumpBase ∧ granuleOf 0x10000 = granuleOf (0x10000 + 31) ∧
     gotState (s.granule 0) = 1 ∧ gotOwner (s.granule 0) = 5 ∧ ¬(0x30000000 ≤ 0x10000)) := by decide

set_option maxRecDepth 20000 in
/-- A GO that names two slots of a ring with room for one; a slot of the tier-1 map with a granule in use. -/
theorem witness_HostAndPeerEvents_slots :
    (let s := { aPackage with queues := [{ aQueue with waiting := 15 }] }
     (s.queue 0).torn = false ∧ (s.queue 0).pending = [] ∧ ((List.range 8).filter fun k => (0x12 : BitVec 8).getLsbD k) = [1, 4] ∧
     (s.queue 0).full = false ∧ ((copySlot 0 1 s).queue 0).full = true) ∧
    (let s := { aPackage with got := [(196609, 0x4)] }
     ∃ i < 512, gotState (s.granule (196608 + 512 * 0 + i)) ≠ 0) := by
  refine ⟨by decide, ⟨1, by decide, by decide⟩⟩

set_option maxRecDepth 20000 in
/-- A queue bound to a function that does not exist; a tier-1 granule without a map entry, and with one; a measurement index of 17. -/
theorem witness_ManagementEvents_refusals :
    (let s := { State.reset with phase := .configOpen, queues := [{ Queue.reset 0 with fn := some 17 }] }
     ∃ q ∈ s.queues, ∃ g, q.fn = some g ∧ (g = 0 ∨ 16 < g)) ∧
    ((assoc (0 : Word) aState.tier1map 3).getLsbD 63 = false ∧
     (assoc (0 : Word) ({ aState with tier1map := [(3, 2 ^ 63)] } : State).tier1map 3).getLsbD 63 = true ∧ gotState (aState.granule (196608 + 512 * 3 + 7)) = 0) ∧
    (let bs : List Byte := [0x13, 0xE0, 0, 17]
     bs.headD 0 = 0x13 ∧ 17 ≤ (bs.getD 3 0).toNat ∧ (bs.getD 3 0).toNat ≤ 254) := by
  refine ⟨⟨_, List.mem_singleton.mpr rfl, 17, rfl, by decide⟩, by decide, by decide⟩

set_option maxRecDepth 20000 in
/-- A copy that waits with a fault, whose chunk was overtaken, while the other copy's was not. -/
theorem witness_TakingExceptions_pair :
    (let p : Hart := { aTask with id := 7, run := .pairFault 3 0, chunk := { aTask.chunk with reads := true, readSig := 1, since := 1 } }
     let s := { aState with parked := [p] }.mod fun h => { h with partner := some 7 }
     s.hart.partner.bind s.hart? = some p ∧ s.hart.chunk.exclusive = false ∧ overtaken s.hart = false ∧ overtaken p = true) := by decide

set_option maxRecDepth 20000 in
/-- An address of each SPACE of the diagnostic window, and one that is refused on each ground. -/
theorem witness_ServiceInstructions_window :
    (diagAddr 0x5).isSome = true ∧ (diagAddr 0x10003).isSome = true ∧ (diagAddr 0x10000000000001FF).isSome = true ∧ (diagAddr 0x20000000000001FF).isSome = true ∧
    (diagAddr 0x40100000000001FF).isSome = true ∧ (diagAddr 0x50000000000001FF).isSome = true ∧ (diagAddr 0x6000000000001FFF).isSome = true ∧
    (diagAddr 0x200).isSome = false ∧ (diagAddr 0x10004).isSome = false ∧ (diagAddr 0x0010000000000005).isSome = false ∧
    (diagAddr 0x000F800000000000).isSome = false ∧ (diagAddr 0x3000000000000005).isSome = false := by decide

set_option maxRecDepth 20000 in
/-- A busy core, a held lease and an injection. -/
theorem witness_ServiceInstructions_busy :
    (aFirmware.sram = [] ∧ aFirmware.hart.kind = .firmware ∧ aFirmware.here = 0 ∧ coreBusy aFirmware (coreIn 0 0) = false ∧ 0 ∉ aFirmware.retained) ∧
    coreBusy (aFirmware.modCore 0 fun k => { k with clearing := true }) (coreIn 0 0) = true ∧
    (((modRing 0 2 (fun r => { r with scrub := some 5 }) aFirmware).cluster 0).ring 2).scrub = some 5 ∧
    ((aFirmware.modCluster 0 fun k => { k with inj := some (5, true, 8) }).cluster 0).inj = some (5, true, 8) ∧ (aFirmware.cluster 0).inj = none := by decide

set_option maxRecDepth 20000 in
/-- The rows of a store, of a scratchpad store and of a window load complete. -/
theorem witness_TileTransfers_bytes :
    (let s := aView 0x100 aTiled
     let v := s.view 2
     let t : TReg := 14
     s.hart.kind = .task ∧ s.rstIdx = 0 ∧ (s.tile t).full = true ∧ Quiet s ∧ bitsOf v 63 16 = 0 ∧ shapeSize (s.tile t).shape = 1 ∧
     meets (rowsFrom (fun i u => holdRow i (awaitRow (blockingForm s v) i u >>= storeRow t v 1 4 i)) (restRows s 1) s) (fun _ => true) = true ∧
     meets (rowsFrom (fun i => windowStoreRow t v 1 4 i) (restRows s 1) s) (fun _ => true) = true ∧
     meets (rowsFrom (fun i => windowLoadRow t (mkShape 0 4 1) true 4 v 1 4 s i) (restRows s 1) (openTile t (mkShape 0 4 1) s)) (fun _ => true) = true ∧
     (s.tile t).data.wf = true ∧ s.padPoison = [] ∧ s.sram = [] ∧
     ∃ e : Extent, s.extents[0x100 / 2 ^ 56]? = some e ∧ MayReach e (0x100 % 2 ^ 56) 4 .write s) := by
  unfold Quiet MayReach
  refine ⟨by decide, by decide, by decide, by decide, by decide, by decide, by decide, by decide, by decide, by decide, by decide, by decide, _, rfl, ?_⟩
  simp only [Grants, Changes]; decide

end Sys2Proof.Tests
end

