-- ==== Sys2Proof/Proofs/Issue.lean ====
section
/-! PROOFS. The issue of one instruction whose checks of R51 all pass: it comes to its own effect. -/

namespace Sys2Proof.Proofs

open Sys2Proof Sys2Proof.Machine Sys2Proof.Claims

/-- Every check of R51 before the instruction's own passes, and every source is there. -/
structure Clear (o : Op) (s : State) : Prop where
  room : s.hart.kind = .task → o.counted = true → s.hart.sdist < 4096
  may : permitted s.hart o.priv = true
  rot : o.rotation = true → rotation s.here = true
  tiles : ∀ t ∈ o.tiles, allocated s.hart t = true
  srcs : ∀ x ∈ o.srcs, x.There s

/-- An operation that every context may issue, with its tiles allocated and its sources there. -/
theorem Clear.of_open {o : Op} {s : State} (room : Room s) (tiles : Tiles s o.tiles) (srcs : ∀ x ∈ o.srcs, x.There s)
    (p : o.priv = .open_ := by rfl) (r : o.rotation = false := by rfl) : Clear o s where
  room k _ := room k
  may := by rw [p]; rfl
  rot h := by rw [r] at h; cases h
  tiles t ht := decide_eq_true (tiles t ht)
  srcs := srcs

/-- What is there: a scalar that is full, a tile that is full where no fault is injected. -/
@[simp] theorem there_s {s : State} {r : SReg} {w : Bool} : (Src.s r w).There s ↔ s.sfull r = true := Iff.rfl
@[simp] theorem there_t {s : State} {t : TReg} {w : Bool} : (Src.t t w).There s ↔ (s.tile t).full = true ∧ Quiet s := Iff.rfl
@[simp] theorem there_whole {s : State} {t : TReg} {w : Bool} : (Src.whole t w).There s ↔ (s.tile t).full = true ∧ Quiet s := Iff.rfl
@[simp] theorem there_part {s : State} {t : TReg} {w : Bool} : (Src.part t w).There s ↔ (s.tile t).full = true := Iff.rfl

theorem full_nil {s : State} : Full s [] := fun _ h => nomatch h
@[simp] theorem full_cons {s : State} {r : SReg} {l : List SReg} : Full s (r :: l) ↔ s.sfull r = true ∧ Full s l := List.forall_mem_cons
@[simp] theorem full_nil_iff {s : State} : Full s [] ↔ True := iff_true_intro full_nil
@[simp] theorem tiles_cons {s : State} {t : TReg} {l : List TReg} : Tiles s (t :: l) ↔ 16 - s.hart.ntiles ≤ t.val ∧ Tiles s l := List.forall_mem_cons
@[simp] theorem tiles_nil {s : State} : Tiles s [] ↔ True := iff_true_intro fun _ h => nomatch h
@[simp] theorem fullTiles_cons {s : State} {t : TReg} {l : List TReg} : FullTiles s (t :: l) ↔ (s.tile t).full = true ∧ FullTiles s l :=
  List.forall_mem_cons
@[simp] theorem fullTiles_nil {s : State} : FullTiles s [] ↔ True := iff_true_intro fun _ h => nomatch h

/-- An operation without tiles, and one without sources. -/
theorem no_tiles {s : State} : Tiles s [] := fun _ h => nomatch h
theorem no_srcs {s : State} : ∀ x ∈ ([] : List Src), x.There s := fun _ h => nomatch h

/-- A clear operation comes to its own effect. -/
theorem Clear.perform {o : Op} {s : State} (h : Clear o s) : perform o s = stopWhole s (o.body s) :=
  perform_body h.room h.may h.rot h.tiles (presentAll_there h.srcs)

variable {i : Instr} {o : Op} {s t : State}

/-- A clear operation whose effect is there completes. -/
theorem Clear.next (h : Clear o s) (b : o.body s = .ok t) (c : o.counted = true := by rfl) (f : o.flow = false := by rfl) :
    issue i o s = .next (retire t) :=
  issue_next (by rw [h.perform, b]; rfl) c f

/-- A fault of a clear operation that has changed nothing is taken in the state before it. -/
theorem Clear.fault {c : Code} {d : Option Word} (h : Clear o s) (b : o.body s = .error (.fault c d s)) :
    issue i o s = .next (raise { word := wordOf i } c d s) := by
  refine issue_fault ?_
  rw [h.perform, b]
  by_cases k : s.hart.kind = .task
  · exact stopWhole_task k _
  · rw [stopWhole, if_neg k]; rfl

/-- A task's fault is taken in the state that its effect has come to. -/
theorem Clear.fault_task {c : Code} {d : Option Word} (h : Clear o s) (k : s.hart.kind = .task) (b : o.body s = .error (.fault c d t)) :
    issue i o s = .next (raise { word := wordOf i } c d t) :=
  issue_fault (by rw [h.perform, b, stopWhole_task k])

/-- A wait of a clear operation that has changed nothing. -/
theorem Clear.wait {w : Wait} (h : Clear o s) (b : o.body s = .error (.wait w s)) : issue i o s = .next (block w s) := by
  refine issue_wait ?_
  rw [h.perform, b, stopWhole_wait]
  split <;> rfl

/-- A check that holds lets the operation go on; one that fails is its fault. -/
@[simp] theorem ensure_true {c : Code} : ensure true c s = .ok () := rfl
@[simp] theorem ensure_false {c : Code} : ensure false c s = .error (.fault c none s) := rfl
@[simp] theorem ensureAt_true {c : Code} {d : Word} : ensureAt true c d s = .ok () := rfl
@[simp] theorem ensureAt_false {c : Code} {d : Word} : ensureAt false c d s = .error (.fault c (some d) s) := rfl
@[simp] theorem ok_bind {α β : Type} (x : α) (f : α → Run β) : ((Except.ok x : Run α) >>= f) = f x := rfl
@[simp] theorem error_bind {α β : Type} (e : Halt) (f : α → Run β) : ((Except.error e : Run α) >>= f) = .error e := rfl

end Sys2Proof.Proofs
end

