-- ==== Sys2Proof/Proofs/Context.lean ====
section
/-! PROOFS. The registers, safe points, migration and views of a context (O6, O9, O11, O33). -/

namespace Sys2Proof.Proofs

open Sys2Proof Sys2Proof.Machine Sys2Proof.Claims

/-- The bit that is set, and every other bit as it was. -/
theorem getLsbD_setBit_true {n : Nat} (v : BitVec n) {i : Nat} (h : i < n) (k : Nat) :
    (setBit v i true).getLsbD k = (v.getLsbD k || decide (k = i)) := by
  simp only [setBit, if_true, BitVec.getLsbD_or, BitVec.getLsbD_shiftLeft, BitVec.getLsbD_one]
  by_cases e : k = i
  · subst e; simp [h]; omega
  · have : ¬(i ≤ k ∧ k - i = 0) := by omega
    grind

@[simp] theorem writeS_sfull_same (d : SReg) (r : Word) (s : State) : (writeS d r s).sfull d = true := by
  refine (getLsbD_setBit_true s.hart.r.sfull d.isLt d.val).trans ?_
  simp

theorem writeS_sfull_other {d q : SReg} (h : q ≠ d) (r : Word) (s : State) : (writeS d r s).sfull q = s.sfull q := by
  refine (getLsbD_setBit_true s.hart.r.sfull d.isLt q.val).trans ?_
  simp [State.sfull, Fin.val_ne_of_ne h]

/-- Everything outside the context stays in a change of the context, and in a chain of them. -/
theorem outside_mod (f : Hart → Hart) (s : State) : Outside s (s.mod f) := rfl
theorem outside_refl (s : State) : Outside s s := rfl
theorem outside_trans {s t u : State} (h : Outside s t) (k : Outside t u) : Outside s u := by
  unfold Outside at *
  rw [← h, ← k]

theorem outside_mem {s t : State} (h : Outside s t) : t.mem = s.mem := by
  unfold Outside at h
  rw [← h]

/-- A context with another run state, distance and PC. -/
def retired (run : RunState) (sdist : Nat) (pc : Word) (h : Hart) : Hart := { h with run := run, sdist := sdist, r := { h.r with pc := pc } }

section
variable (run : RunState) (sdist : Nat) (pc : Word) (h : Hart)

theorem retired_r : (retired run sdist pc h).r = { h.r with pc := pc } := rfl
theorem retired_sdist : (retired run sdist pc h).sdist = sdist := rfl
theorem retired_lease : (retired run sdist pc h).lease = h.lease := rfl
theorem retired_chunk : (retired run sdist pc h).chunk = h.chunk := rfl
theorem retired_ckpt : (retired run sdist pc h).ckpt = h.ckpt := rfl
theorem retired_ranks : (retired run sdist pc h).ranks = h.ranks := rfl
theorem retired_inflight : (retired run sdist pc h).inflight = h.inflight := rfl

end

/-- Waking changes the run state alone. -/
theorem wake_eq (s : State) : wake s = s.mod fun h => { h with run := (wake s).hart.run } := by
  unfold wake
  split <;> rfl

/-- The safe-point distance after one more issue. -/
def nextDistance (s : State) : Nat := s.hart.sdist + (if s.hart.kind = .task then 1 else 0)

/-- Counting adds one to a task's safe-point distance. -/
theorem countIssue_eq (s : State) : countIssue s = s.mod fun h => { h with sdist := nextDistance s } := by
  unfold countIssue nextDistance
  split <;> rfl

theorem mod_congr {f g : Hart → Hart} {s : State} (h : f s.hart = g s.hart) : s.mod f = s.mod g := by rw [State.mod, State.mod, h]
theorem mod_mod (f g : Hart → Hart) (s : State) : (s.mod f).mod g = s.mod (g ∘ f) := rfl
theorem advance_eq (n : Nat) (s : State) : advance n s = s.mod fun h => { h with r := { h.r with pc := addOff h.r.pc n } } := rfl

/-- Retiring changes the run state, the count and PC. -/
theorem retire_eq (s : State) : retire s = s.mod (retired (wake s).hart.run (nextDistance s) (addOff s.hart.r.pc 4)) := by
  have same : nextDistance (wake s) = nextDistance s := by rw [wake_eq]; rfl
  rw [retire, countIssue_eq, same]
  have woken := wake_eq s
  generalize (wake s).hart.run = run at woken
  generalize nextDistance s = n
  rw [woken, advance_eq, mod_mod, mod_mod]
  exact mod_congr rfl

theorem retire_hart (s : State) : (retire s).hart = retired (wake s).hart.run (nextDistance s) (addOff s.hart.r.pc 4) s.hart := by
  rw [retire_eq, State.mod_hart]

theorem retire_outside (s : State) : Outside s (retire s) := by rw [retire_eq]; exact outside_mod _ _
@[simp] theorem retire_mem (s : State) : (retire s).mem = s.mem := by rw [retire_eq, State.mod_mem]

section
variable (s : State)

@[simp] theorem retire_r : (retire s).hart.r = { s.hart.r with pc := addOff s.hart.r.pc 4 } := by rw [retire_hart, retired_r]
@[simp] theorem retire_sdist : (retire s).hart.sdist = nextDistance s := by rw [retire_hart, retired_sdist]
@[simp] theorem retire_lease : (retire s).hart.lease = s.hart.lease := by rw [retire_hart]; exact retired_lease _ _ _ _
@[simp] theorem retire_chunk : (retire s).hart.chunk = s.hart.chunk := by rw [retire_hart]; exact retired_chunk _ _ _ _
@[simp] theorem retire_ckpt : (retire s).hart.ckpt = s.hart.ckpt := by rw [retire_hart]; exact retired_ckpt _ _ _ _
@[simp] theorem retire_ranks : (retire s).hart.ranks = s.hart.ranks := by rw [retire_hart]; exact retired_ranks _ _ _ _
@[simp] theorem retire_inflight : (retire s).hart.inflight = s.hart.inflight := by rw [retire_hart]; exact retired_inflight _ _ _ _

end

@[simp] theorem retire_sreg (s : State) (q : SReg) : (retire s).sreg q = s.sreg q := by simp [State.sreg]
@[simp] theorem retire_sfull (s : State) (q : SReg) : (retire s).sfull q = s.sfull q := by simp [State.sfull]
@[simp] theorem retire_tile (s : State) (t : TReg) : (retire s).tile t = s.tile t := by simp [State.tile]
@[simp] theorem retire_view (s : State) (p : PReg) : (retire s).view p = s.view p := by simp [State.view]

/-- Settles O6, from what a scalar write and retiring change. -/
theorem scalarFrame : Obligations.ScalarFrame := by
  intro d r s
  dsimp only
  simp only [retire_r, retire_mem, retire_sdist, retire_lease, retire_chunk, retire_ckpt, retire_ranks, retire_sreg, retire_sfull]
  refine ⟨outside_trans (outside_mod _ s) (retire_outside (writeS d r s)), writeS_sreg_same d r s, writeS_sfull_same d r s,
    fun q hq => ⟨writeS_sreg_other hq r s, writeS_sfull_other hq r s⟩, ?_⟩
  exact ⟨rfl, rfl, rfl, rfl, rfl, rfl, rfl, rfl, rfl, rfl, fun _ => rfl, rfl, rfl⟩

/-- The effects of MIGR and MRET: one leaves a tile core, the other the service core. -/
theorem opMigr_body {s : State} (k : s.hart.kind = .task) : opMigr.body s =
    if s.hart.migrated then faultOf .migrState s else .ok (s.mod fun h => { h with run := .migrating none }) := by
  cases m : s.hart.migrated <;> simp [opMigr, State.isTask, k, m]

theorem opMret_body {s : State} (k : s.hart.kind = .task) : opMret.body s =
    if s.hart.migrated then .ok (s.mod fun h => { h with run := .requeued none }) else faultOf .migrState s := by
  cases m : s.hart.migrated <;> simp [opMret, State.isTask, k, m]

/-- Settles O11, from the effects of MIGR and MRET on each kind of core. -/
theorem migration : Obligations.Migration := by
  intro s room k
  have migr : Clear opMigr s := .of_open room no_tiles no_srcs
  have mret : Clear opMret s := .of_open room no_tiles no_srcs
  constructor <;> intro m
  · exact ⟨migr.next (by rw [opMigr_body k, m]; rfl), mret.fault (by rw [opMret_body k, m]; rfl)⟩
  · exact ⟨mret.next (by rw [opMret_body k, m]; rfl), migr.fault (by rw [opMigr_body k, m]; rfl)⟩

/-- The fields of a view side by side are the view. -/
theorem mkView_eq (handle pitch rlim clim : Nat) (hp : pitch < 2 ^ 32) (hr : rlim < 2 ^ 16) (hc : clim < 2 ^ 16) :
    mkView handle pitch rlim clim =
      BitVec.ofNat 16 clim ++ BitVec.ofNat 16 rlim ++ BitVec.ofNat 32 pitch ++ BitVec.ofNat 64 handle := by
  apply BitVec.eq_of_toNat_eq
  have hh := Nat.mod_lt handle (show 0 < 2 ^ 64 by norm_num)
  simp only [BitVec.toNat_append, BitVec.toNat_ofNat, mkView, Nat.mod_eq_of_lt hp, Nat.mod_eq_of_lt hr, Nat.mod_eq_of_lt hc]
  rw [← Nat.shiftLeft_add_eq_or_of_lt hr, ← Nat.shiftLeft_add_eq_or_of_lt hp, ← Nat.shiftLeft_add_eq_or_of_lt hh]
  simp only [Nat.shiftLeft_eq]
  omega

theorem bitsOf_lt (n hi lo : Nat) : bitsOf n hi lo < 2 ^ (hi + 1 - lo) := Nat.mod_lt _ (by positivity)

/-- Settles O33, from the parts of a view. -/
theorem viewResults : Obligations.ViewResults := by
  intro p d a b w v n s room full x y
  simp only [full_cons] at full
  have srcs : ∀ q ∈ srcAB a b w v, q.There s := by simp [srcAB, full]
  refine ⟨Clear.next (.of_open room no_tiles srcs) rfl, ?_, Clear.next (.of_open room no_tiles no_srcs) rfl⟩
  refine (Clear.next (.of_open room no_tiles srcs) rfl).trans ?_
  congr 3
  have rl := bitsOf_lt x.toNat 111 96
  have cl := bitsOf_lt x.toNat 127 112
  have key := mkView_eq (x.toNat + (s.sreg a).toNat) (bitsOf x.toNat 95 64) (bitsOf x.toNat 111 96 - bitsOf y 31 16)
    (bitsOf x.toNat 127 112 - y % 65536) (bitsOf_lt _ _ _) (by omega) (by omega)
  refine Eq.trans ?_ (key.trans ?_)
  · have hl : (viewHandle x.toNat + (s.sreg a).toNat) % 2 ^ 64 = (x.toNat + (s.sreg a).toNat) % 2 ^ 64 := by
      simp [viewHandle, bitsOf]
    have lo : bitsOf y 15 0 = y % 65536 := by simp [bitsOf]
    show mkView (viewHandle x.toNat + (s.sreg a).toNat) _ _ (_ - bitsOf y 15 0) = _
    unfold mkView
    rw [hl, lo]
    rfl
  · congr 1
    apply BitVec.eq_of_toNat_eq
    simp

/-- SAFE passes its checks in every state: it is not counted, has no sources and is no instruction of service cores. -/
theorem safe_clear (m : BitVec 16) (s : State) : Clear (opSafe m) s where
  room _ h := absurd h Bool.false_ne_true
  may := rfl
  rot h := absurd h Bool.false_ne_true
  tiles _ h := absurd h List.not_mem_nil
  srcs _ h := absurd h (List.not_mem_nil)

/-- SAFE comes to its own effect: it is neither counted nor advanced. -/
theorem exec_safe {m : BitVec 16} {s t : State} (b : (opSafe m).body s = .ok t) : exec (.safe m) s = .next (wake t) := by
  have : perform (opSafe m) s = .ok t := by rw [(safe_clear m s).perform, b]; rfl
  show settle _ (attempt (opSafe m) s) = _
  rw [attempt, this]
  rfl

/-- The context that issues, with a safe-point distance of zero. -/
def zeroDistance (s : State) : State := s.mod fun h => { h with sdist := 0 }

/-- Where its safe point is not taken, SAFE goes on at the next word; where it is, the task asks for its commit. -/
theorem exec_safe_onward {m : BitVec 16} {s : State} (h : safeRoom m (addOff s.hart.r.pc 4) (zeroDistance s) ≠ some true) :
    exec (.safe m) s = .next (wake (setPc (addOff s.hart.r.pc 4) (trySafe m (addOff s.hart.r.pc 4) none (zeroDistance s)))) :=
  exec_safe (congrArg Except.ok (if_neg h))

theorem exec_safe_taken {m : BitVec 16} {s : State} (h : safeRoom m (addOff s.hart.r.pc 4) (zeroDistance s) = some true) :
    exec (.safe m) s = .next (wake (trySafe m (addOff s.hart.r.pc 4) none (zeroDistance s))) :=
  exec_safe (congrArg Except.ok (if_pos h))

/-- Without a KIND 4 extent there is no room to speak of. -/
theorem roomFor_none {s : State} (h : ∀ c : Capsule, s.capsule = some c → ∀ e : Extent, e ∈ c.exts → e.kind ≠ 4) (r : Regs) (live : Nat)
    (pc : Word) : roomFor s r live pc = none := by
  have : s.capsule.bind contExtent = none := by
    cases hc : s.capsule with
    | none => rfl
    | some c =>
      refine List.find?_eq_none.mpr fun p hp => ?_
      simpa using h c hc p.2 (List.of_mem_zip hp).2
  rw [roomFor, this]

/-- A safe point of a task that pre-emption waits for looks for room. -/
theorem safeRoom_pending {m : BitVec 16} {pc : Word} {s : State} (p : preemptPending s = true) (x : s.hart.exempt = false) :
    safeRoom m pc s = roomFor s s.hart.r (liveMask s.hart m) pc := by
  simp [safeRoom, p, x]

/-- Settles O9, by the three answers of the search for room. -/
theorem safePoints : Obligations.SafePoints := by
  intro m s
  dsimp only
  rw [← zeroDistance]
  refine ⟨fun h => ?_, fun p x room => ?_, fun p x room => ?_⟩
  · have none : safeRoom m (addOff s.hart.r.pc 4) (zeroDistance s) = none := by
      rcases h with h | h | h
      · exact if_pos (by rw [show preemptPending (zeroDistance s) = preemptPending s from rfl, h]; rfl)
      · exact if_pos (by rw [show (zeroDistance s).hart.exempt = s.hart.exempt from rfl, h, Bool.or_true])
      · rw [safeRoom, roomFor_none (s := zeroDistance s) h, ite_self]
    rw [exec_safe_onward (by rw [none]; nofun), trySafe, none]
  · have room' : safeRoom m (addOff s.hart.r.pc 4) (zeroDistance s) = some false := by rw [safeRoom_pending p x]; exact room
    rw [exec_safe_onward (by rw [room']; nofun), trySafe, room']
    refine ⟨_, rfl, rfl, rfl, rfl, ?_⟩
    exact congrArg Part.log (State.part_modPart_same (zeroDistance s) s.partition
      (fun q => { q with log := q.log.add s.now { code := Code.contSpace.num, kind := 1, core := s.hart.core, queue := s.queueNo, ctag := s.ctag } })
      (State.part_no (zeroDistance s) s.partition))
  · have room' : safeRoom m (addOff s.hart.r.pc 4) (zeroDistance s) = some true := by rw [safeRoom_pending p x]; exact room
    rw [exec_safe_taken room', trySafe, room']
    rfl

end Sys2Proof.Proofs
end

