-- ==== Sys2Proof/Proofs/Window.lean ====
section
/-! PROOFS. CheckAccess and the local register window (O20, O26, O27). -/

namespace Sys2Proof.Proofs

open Sys2Proof Sys2Proof.Machine Sys2Proof.Claims

/-- The parts of a handle (R23). -/
theorem handleIdx_eq (h : Word) : handleIdx h = h.toNat / 2 ^ 56 := by
  have := h.isLt
  rw [handleIdx, bitsOf]
  exact Nat.mod_eq_of_lt (by omega)

theorem handleOff_eq (h : Word) : handleOff h = h.toNat % 2 ^ 56 := by simp [handleOff, bitsOf]

/-- The rights of a use are those of R24's table. -/
theorem permits_iff (e : Extent) (use : Use) : permits e use = true ↔ Grants e use := by
  cases use <;> simp [permits, Grants, Extent.r, Extent.w, Extent.x, Extent.attr, Extent.kind]

section
variable {h : Word} {n : Nat} {use : Use} {s : State}

/-- CheckAccess on a handle whose index names no descriptor. -/
theorem checkAccess_outside (he : s.extents.length ≤ h.toNat / 2 ^ 56) : checkAccess s h n use = .error (.fault .extentIndex (some h) s) := by
  rw [checkAccess, checkExtents, handleIdx_eq, List.getElem?_eq_none he]

/-- What CheckAccess answers on a descriptor: its checks in their order (R24). -/
def accessAnswer (e : Extent) (h : Word) (n : Nat) (use : Use) (s : State) : Run Nat :=
  if e.kind = 0 then .error (.fault .extentIndex (some h) s)
  else if e.length < h.toNat % 2 ^ 56 + n then .error (.fault .extentBounds (some h) s)
  else match (if e.co then coFault use else none) with
    | some c => .error (.fault c (some h) s)
    | none => if permits e use then .ok (e.base + h.toNat % 2 ^ 56) else .error (.fault .extentRights (some h) s)

theorem checkAccess_extent {e : Extent} (he : s.extents[h.toNat / 2 ^ 56]? = some e) : checkAccess s h n use = accessAnswer e h n use s := by
  simp only [checkAccess, checkExtents, accessAnswer, handleIdx_eq, handleOff_eq, he]
  by_cases kind : e.kind = 0
  · simp only [if_pos kind]
  by_cases bounds : e.length < h.toNat % 2 ^ 56 + n
  · simp only [if_neg kind, if_pos bounds]
  simp only [if_neg kind, if_neg bounds]
  cases (if e.co then coFault use else none) with
  | some c => rfl
  | none => cases permits e use <;> rfl

/-- On a compute-only extent a use that R24 names faults with its code. -/
theorem checkAccess_co {e : Extent} {c : Code} (he : s.extents[h.toNat / 2 ^ 56]? = some e) (kind : e.kind ≠ 0)
    (bounds : h.toNat % 2 ^ 56 + n ≤ e.length) (co : e.co = true) (hc : coFault use = some c) :
    checkAccess s h n use = .error (.fault c (some h) s) := by
  rw [checkAccess_extent he, accessAnswer, if_neg kind, if_neg (by omega), co, if_pos rfl, hc]

/-- Everywhere else the rights decide. -/
theorem checkAccess_rights {e : Extent} (he : s.extents[h.toNat / 2 ^ 56]? = some e) (kind : e.kind ≠ 0)
    (bounds : h.toNat % 2 ^ 56 + n ≤ e.length) (co : e.co = false ∨ use = .unseal) :
    checkAccess s h n use = if permits e use then .ok (e.base + h.toNat % 2 ^ 56) else .error (.fault .extentRights (some h) s) := by
  have none : (if e.co then coFault use else none) = none := by
    rcases co with co | rfl
    · simp [co]
    · simp [coFault]
  rw [checkAccess_extent he, accessAnswer, if_neg kind, if_neg (by omega), none]

end

/-- Settles O20, check by check. -/
theorem accessChecks : Obligations.AccessChecks := by
  intro h n use s
  dsimp only
  refine ⟨fun he => ⟨_, checkAccess_outside he, rfl⟩, fun e he => ⟨fun kind => ?_, fun kind short => ?_, fun kind bounds => ?_⟩⟩
  · exact ⟨_, by rw [checkAccess_extent he, accessAnswer, if_pos kind], rfl⟩
  · exact ⟨_, by rw [checkAccess_extent he, accessAnswer, if_neg kind, if_pos short], rfl⟩
  · have sealed : ∀ c, e.co = true → coFault use = some c → ∃ d, checkAccess s h n use = .error (.fault c d s) ∧ d = some h :=
      fun c co hc => ⟨_, checkAccess_co he kind bounds co hc, rfl⟩
    refine ⟨fun co u => sealed _ co (by rw [u]; rfl), fun co u => sealed _ co (by rcases u with rfl | rfl <;> rfl),
      fun co u => sealed _ co (by rcases u with rfl | rfl <;> rfl), fun co u => sealed _ co (by rw [u]; rfl), fun co => ⟨fun g => ?_, fun g => ?_⟩⟩
    · exact ⟨_, by rw [checkAccess_rights he kind bounds co, if_neg (by rwa [permits_iff])], rfl⟩
    · rw [checkAccess_rights he kind bounds co, if_pos ((permits_iff e use).mpr g)]

/-! The window (R19, R191). -/

section
variable {i : Nat} {s : State} {x : Word}

theorem ofNat_scalar (h : i < 0x20) : Fin.ofNat 32 i = (⟨i, h⟩ : SReg) := Fin.ext (Nat.mod_eq_of_lt h)
theorem ofNat_shape (h : 0x30 ≤ i) : Fin.ofNat 16 i = Fin.ofNat 16 (i - 0x30) := Fin.ext (by simp only [Fin.val_ofNat]; omega)

theorem settledS_full {r : SReg} (h : s.sfull r = true) : settledS r s = .ok () := if_pos h
theorem settledT_full {t : TReg} (h : (s.tile t).full = true) : settledT t s = .ok () := if_pos h

/-- A change of the registers is what it makes of those that stand. -/
theorem modRegs_congr {f g : Regs → Regs} (h : f s.hart.r = g s.hart.r) : s.modRegs f = s.modRegs g :=
  mod_congr (congrArg (fun r => { s.hart with r := r }) h)

/-- The tile register of a window index is allocated. -/
theorem allocated_iff {t : TReg} : allocated s.hart t = true ↔ Tiles s [t] := by simp [allocated]

theorem windowRead_scalar (h : i < 0x20) (full : s.sfull ⟨i, h⟩ = true) : windowRead i s = .ok (s.sreg ⟨i, h⟩) := by
  rw [windowRead, if_pos h, ofNat_scalar h, settledS_full full]; rfl

theorem windowRead_view (lo : 0x20 ≤ i) (hi : i < 0x30) :
    windowRead i s = .ok (word ((s.hart.r.p.get (Fin.ofNat 8 ((i - 0x20) / 2))).toNat / 2 ^ (64 * (i % 2)))) := by
  rw [windowRead, if_neg (by omega), if_pos hi]
  rcases Nat.mod_two_eq_zero_or_one i with e | e <;> simp [e]

theorem windowRead_shape (lo : 0x30 ≤ i) (hi : i < 0x40) (full : (s.tile (Fin.ofNat 16 (i - 0x30))).full = true) :
    windowRead i s = .ok (word (s.tile (Fin.ofNat 16 (i - 0x30))).shape.toNat) := by
  rw [windowRead, if_neg (by omega), if_neg (by omega), if_pos hi, ofNat_shape lo, settledT_full full]; rfl

theorem windowRead_flg (h : settledFlg s = .ok ()) : windowRead 0x40 s = .ok s.hart.r.flg := by
  rw [windowRead, if_neg (by omega), if_neg (by omega), if_neg (by omega), if_pos rfl, h]; rfl

theorem windowRead_pc : windowRead 0x41 s = .ok s.hart.r.pc := by
  rw [windowRead, if_neg (by omega), if_neg (by omega), if_neg (by omega), if_neg (by omega), if_pos rfl]

theorem windowRead_tile (lo : 0x2000 ≤ i) (own : Tiles s [Fin.ofNat 16 ((i - 0x2000) / 512)])
    (full : (s.tile (Fin.ofNat 16 ((i - 0x2000) / 512))).full = true) (quiet : Quiet s) :
    windowRead i s = .ok (word ((s.tile (Fin.ofNat 16 ((i - 0x2000) / 512))).data.readLE ((i - 0x2000) % 512 * 8) 8)) := by
  rw [windowRead, if_neg (by omega), if_neg (by omega), if_neg (by omega), if_neg (by omega), if_neg (by omega),
    if_pos ⟨lo, allocated_iff.mpr own⟩, tileWord]
  simp only [settledT_full full, meetTileWords_quiet quiet, ok_bind]

/-- Neither a read nor a write finds anything at an index that names nothing. -/
theorem windowRead_nothing (lo : 0x41 < i) (no : i < 0x2000 ∨ ¬Tiles s [Fin.ofNat 16 ((i - 0x2000) / 512)]) :
    windowRead i s = .error (.fault .windowIndex none s) := by
  rw [windowRead, if_neg (by omega), if_neg (by omega), if_neg (by omega), if_neg (by omega), if_neg (by omega), if_neg, faultOf]
  rintro ⟨ge, own⟩
  exact no.elim (by omega) fun n => n (allocated_iff.mp own)

theorem windowWrite_nothing (lo : 0x41 < i) (no : i < 0x2000 ∨ ¬Tiles s [Fin.ofNat 16 ((i - 0x2000) / 512)]) :
    windowWrite i x s = .error (.fault .windowIndex none s) := by
  rw [windowWrite, if_neg (by omega), if_neg (by omega), if_neg (by omega), if_neg (by omega), if_neg (by omega), if_neg, faultOf]
  rintro ⟨ge, own⟩
  exact no.elim (by omega) fun n => n (allocated_iff.mp own)

theorem windowWrite_scalar (h : i < 0x20) (full : s.sfull ⟨i, h⟩ = true) :
    windowWrite i x s = .ok (s.modRegs fun r => { r with s := r.s.set i x h }) := by
  rw [windowWrite, if_pos h]
  simp only [ofNat_scalar h, settledS_full full, ok_bind]

theorem windowWrite_view (lo : 0x20 ≤ i) (hi : i < 0x30) :
    windowWrite i x s = .ok (s.modRegs fun r => { r with p := r.p.set (Fin.ofNat 8 ((i - 0x20) / 2)).val (BitVec.ofNat 128
      (if i % 2 = 0 then (r.p.get (Fin.ofNat 8 ((i - 0x20) / 2))).toNat / 2 ^ 64 * 2 ^ 64 + x.toNat
        else x.toNat * 2 ^ 64 + (r.p.get (Fin.ofNat 8 ((i - 0x20) / 2))).toNat % 2 ^ 64)) (Fin.ofNat 8 ((i - 0x20) / 2)).isLt }) := by
  rw [windowWrite, if_neg (by omega), if_pos hi]
  exact congrArg Except.ok (modRegs_congr rfl)

theorem windowWrite_shape (lo : 0x30 ≤ i) (hi : i < 0x40) (full : (s.tile (Fin.ofNat 16 (i - 0x30))).full = true) :
    windowWrite i x s = if shapeOk (x.toNat % 65536) = true then .ok (s.modRegs fun r => { r with
        t := r.t.set (Fin.ofNat 16 (i - 0x30)).val { r.t.get (Fin.ofNat 16 (i - 0x30)) with shape := BitVec.ofNat 16 x.toNat }
          (Fin.ofNat 16 (i - 0x30)).isLt })
      else .error (.fault .illegal none s) := by
  rw [windowWrite, if_neg (by omega), if_neg (by omega), if_pos hi]
  simp only [ofNat_shape lo, settledT_full full, ok_bind]
  cases shapeOk (x.toNat % 65536) <;> rfl

theorem windowWrite_flg (h : settledFlg s = .ok ()) : windowWrite 0x40 x s = .ok (s.modRegs fun r => { r with flg := writeFlg x }) := by
  rw [windowWrite, if_neg (by omega), if_neg (by omega), if_neg (by omega), if_pos rfl, h]; rfl

theorem windowWrite_pc : windowWrite 0x41 x s = .ok s := by
  rw [windowWrite, if_neg (by omega), if_neg (by omega), if_neg (by omega), if_neg (by omega), if_pos rfl]

theorem windowWrite_tile (lo : 0x2000 ≤ i) (own : Tiles s [Fin.ofNat 16 ((i - 0x2000) / 512)])
    (full : (s.tile (Fin.ofNat 16 ((i - 0x2000) / 512))).full = true) :
    windowWrite i x s = .ok (s.modRegs fun r => { r with
      t := r.t.set (Fin.ofNat 16 ((i - 0x2000) / 512)).val { r.t.get (Fin.ofNat 16 ((i - 0x2000) / 512)) with
        data := (r.t.get (Fin.ofNat 16 ((i - 0x2000) / 512))).data.writeLE ((i - 0x2000) % 512 * 8) 8 x.toNat }
        (Fin.ofNat 16 ((i - 0x2000) / 512)).isLt }) := by
  rw [windowWrite, if_neg (by omega), if_neg (by omega), if_neg (by omega), if_neg (by omega), if_neg (by omega),
    if_pos ⟨lo, allocated_iff.mpr own⟩]
  simp only [tileWord, settledT_full full, ok_bind]

end

/-- LDS of a word that the window gives writes it; of an index that names nothing it faults. -/
theorem exec_lds {d a : SReg} {w : Bool} {s : State} (c : Clear (opLds d a w) s) {v : Word}
    (h : windowRead ((s.sreg a).toNat % 16384) s = .ok v) : exec (.lds d a w) s = .next (retire (writeS d v s)) :=
  c.next (by simp only [opLds, h, ok_bind])

theorem exec_lds_fault {d a : SReg} {w : Bool} {s : State} (c : Clear (opLds d a w) s) {k : Code} {v : Option Word}
    (h : windowRead ((s.sreg a).toNat % 16384) s = .error (.fault k v s)) :
    exec (.lds d a w) s = .next (raise { word := wordOf (.lds d a w) } k v s) :=
  c.fault (by simp only [opLds, h, error_bind])

/-- Settles O26, by the ranges of the index map. -/
theorem windowReads : Obligations.WindowReads := by
  intro d a w s room full
  have c : Clear (opLds d a w) s := .of_open room no_tiles (by simpa [opLds] using full)
  dsimp only
  refine ⟨fun h f => exec_lds c (windowRead_scalar h f), fun lo hi => exec_lds c (windowRead_view lo hi),
    fun lo hi f => exec_lds c (windowRead_shape lo hi f), fun e f => ?_, fun e => ?_, fun lo own f q => ?_, fun lo no => ?_⟩
  · exact exec_lds c (by rw [e]; exact windowRead_flg f)
  · exact exec_lds c (by rw [e]; exact windowRead_pc)
  · exact exec_lds c (windowRead_tile lo own (by simpa using f) q)
  · exact ⟨_, exec_lds_fault c (windowRead_nothing lo no)⟩

/-- Settles O27, by the ranges of the index map. -/
theorem windowWrites : Obligations.WindowWrites := by
  intro a b w v s room full
  have c : Clear (opSts a b w v) s := .of_open room no_tiles (by simpa [opSts, srcAB] using full)
  dsimp only
  refine ⟨fun h f => c.next (windowWrite_scalar h f), fun lo hi => c.next (windowWrite_view lo hi),
    fun lo hi f => ⟨fun ok => c.next ((windowWrite_shape lo hi f).trans (if_pos ok)),
      fun bad => ⟨_, c.fault ((windowWrite_shape lo hi f).trans (if_neg (by simp [bad])))⟩⟩, fun e f => ?_, fun e => ?_,
    fun lo own f => c.next (windowWrite_tile lo own (by simpa using f)), fun lo no => ⟨_, c.fault (windowWrite_nothing lo no)⟩⟩
  · exact c.next (by simp only [opSts, e]; exact windowWrite_flg f)
  · exact c.next (by simp only [opSts, e]; exact windowWrite_pc)

end Sys2Proof.Proofs
end

