-- ==== Sys2Proof/Proofs/Reads.lean ====
section
/-! PROOFS. What finding an address and reading leave alone: everything but the chunk of the context, poison, the logs, the errors of the part
and the last accesses of units (R200, R256, R259). -/

namespace Sys2Proof.Proofs

open Sys2Proof Sys2Proof.Machine Sys2Proof.Claims

/-- What each step of a fold keeps, the fold keeps. -/
theorem foldl_keeps {α β : Type} {P : β → Prop} {f : β → α → β} (h : ∀ b a, P b → P (f b a)) (l : List α) {b : β} (hb : P b) : P (l.foldl f b) := by
  induction l generalizing b with
  | nil => exact hb
  | cons a l ih => exact ih (h b a hb)

/-- What an operation that may wait or fault comes to, when it completes. -/
theorem of_bind {α β : Type} {x : Run α} {f : α → Run β} {b : β} (h : (x >>= f) = .ok b) : ∃ a, x = .ok a ∧ f a = .ok b := by
  cases x with
  | ok a => exact ⟨a, rfl, h⟩
  | error e => cases h

/-- What memory has found: the second state differs from the first in poison, the logs, the errors of the part and the last accesses alone. -/
def Found (s t : State) : Prop :=
  { t with parts := s.parts, poison := s.poison, padPoison := s.padPoison, bufPoison := s.bufPoison, faults := s.faults, sram := s.sram,
           used := s.used } = s

/-- A context as it was before reads entered its chunk. -/
def unread (c : Chunk) (h : Hart) : Hart :=
  { h with chunk := { h.chunk with readSig := c.readSig, padRead := c.padRead, reads := c.reads, dies := c.dies } }

/-- The same, and what reads enter into the chunk of the context. -/
def ReadOnly (s t : State) : Prop :=
  { t with hart := unread s.hart.chunk t.hart, parts := s.parts, poison := s.poison, padPoison := s.padPoison, bufPoison := s.bufPoison,
           faults := s.faults, sram := s.sram, used := s.used } = s

namespace Found

theorem refl (s : State) : Found s s := rfl

theorem trans {s t u : State} (h : Found s t) (k : Found t u) : Found s u := by
  unfold Found at *
  rw [← h, ← k]

section
variable {s t : State} (h : Found s t)
include h

theorem hart : t.hart = s.hart := by unfold Found at h; rw [← h]
theorem mem : t.mem = s.mem := by unfold Found at h; rw [← h]
theorem got : t.got = s.got := by unfold Found at h; rw [← h]
theorem saffron : t.saffron = s.saffron := by unfold Found at h; rw [← h]
theorem readOnly : ReadOnly s t := by unfold Found at h; unfold ReadOnly; rw [← h]; rfl

end

theorem logPart (s : State) (p : Nat) (e : Event) : Found s (s.logPart p e) := rfl
theorem set_poison (s : State) (l : List (Nat × Bool)) : Found s { s with poison := l } := rfl
theorem set_padPoison (s : State) (l : List (Nat × Nat)) : Found s { s with padPoison := l } := rfl
theorem set_bufPoison (s : State) (l : List (Nat × Nat)) : Found s { s with bufPoison := l } := rfl
theorem set_faults (s : State) (l : List LineFault) : Found s { s with faults := l } := rfl
theorem set_sram (s : State) (l : List SramFault) : Found s { s with sram := l } := rfl
theorem noteUse (s : State) (us : List Nat) : Found s (noteUse us s) := rfl

/-- A step that finds no more finds no more over a list. -/
theorem foldl {α : Type} {f : State → α → State} (h : ∀ t x, Found t (f t x)) (l : List α) (s : State) : Found s (l.foldl f s) :=
  foldl_keeps (P := Found s) (fun t x ht => ht.trans (h t x)) l (refl s)

theorem logLine (s : State) (p k l : Nat) : Found s (logLine p k l s) := logPart s p _
theorem logCorrected (s : State) (p l : Nat) : Found s (logCorrected p l s) := logPart s p _
theorem poisonLine (s : State) (l : Nat) (i : Bool) : Found s (poisonLine l i s) := set_poison s _

theorem logMismatch (s : State) (c : CodeRead) (p l : Nat) : Found s (logMismatch c p l s) := by
  unfold Machine.logMismatch
  split
  · exact logCorrected s p l
  · exact logLine s p 4 l

/-- A line that cannot be delivered is poisoned and logged. -/
theorem lostLine (s : State) (p l k : Nat) (i : Bool) : Found s (Machine.logLine p k l (Machine.poisonLine l i s)) :=
  (poisonLine s l i).trans (logLine _ p k l)

theorem readFault (s : State) (p : Nat) (f : LineFault) : Found s (readFault p f s) := by
  unfold Machine.readFault
  refine (set_faults s (s.faults.erase f)).trans ?_
  dsimp only
  split
  · exact lostLine _ _ _ _ _
  · exact refl _
  · exact logLine _ _ _ _
  · have first := logMismatch { s with faults := s.faults.erase f } f.code p f.line
    split
    · exact first.trans (lostLine _ _ _ _ _)
    · exact first
    · exact first.trans (logLine _ _ _ _)
    · exact first.trans ((poisonLine _ f.line true).trans (logMismatch _ _ _ _))

theorem readSram (s : State) (p : Nat) (f : SramFault) : Found s (readSram p f s) := by
  unfold Machine.readSram
  refine (set_sram s (s.sram.erase f)).trans ?_
  dsimp only
  split
  · split
    · exact (set_poison _ _).trans (logLine _ _ _ _)
    · exact logLine _ _ _ _
  · split
    · exact (logPart _ p _).trans (set_padPoison _ _)
    · exact logPart _ p _
  · split
    · exact (logPart _ p _).trans (set_bufPoison _ _)
    · exact logPart _ p _
  · exact refl _

theorem meetSram (s : State) (p : Nat) (at_ : SramPlace → Bool) : Found s (meetSram p at_ s) :=
  foldl (fun t f => readSram t p f) _ s

theorem readLines (s : State) (p pa n : Nat) : Found s (readLines p pa n s) :=
  (foldl (fun t f => readFault t p f) _ s).trans (meetSram _ _ _)

theorem accessUnits_eq {us : List Nat} {s t : State} (h : accessUnits us s = .ok t) : t = Machine.noteUse us s := by
  rw [Machine.accessUnits] at h
  split at h
  · cases h
  · exact (Except.ok.inj h).symm

theorem awaitUnits {pa n : Nat} {s t : State} (h : awaitUnits pa n s = .ok t) : Found s t := by
  rw [Machine.awaitUnits] at h
  split at h
  · cases h; exact refl _
  · rw [accessUnits_eq h]; exact noteUse s _

theorem meetLines {p pa n : Nat} {s t : State} (h : meetLines p pa n s = .ok t) : Found s t := by
  obtain ⟨u, hu, h⟩ := of_bind h
  refine (awaitUnits hu).trans ?_
  cases h
  split
  · exact refl _
  · exact readLines _ p pa n

end Found

namespace ReadOnly

theorem refl (s : State) : ReadOnly s s := rfl

theorem trans {s t u : State} (h : ReadOnly s t) (k : ReadOnly t u) : ReadOnly s u := by
  unfold ReadOnly at *
  rw [← h, ← k]
  rfl

section
variable {s t : State} (h : ReadOnly s t)
include h

theorem mem : t.mem = s.mem := by unfold ReadOnly at h; rw [← h]
theorem got : t.got = s.got := by unfold ReadOnly at h; rw [← h]
theorem retained : t.retained = s.retained := by unfold ReadOnly at h; rw [← h]
theorem caps : t.caps = s.caps := by unfold ReadOnly at h; rw [← h]
theorem regs : t.hart.r = s.hart.r := by unfold ReadOnly at h; rw [← h]; rfl
theorem kind : t.hart.kind = s.hart.kind := by unfold ReadOnly at h; rw [← h]; rfl
theorem effects : t.hart.chunk.effects = s.hart.chunk.effects := by unfold ReadOnly at h; rw [← h]; rfl
theorem sreg (r : SReg) : t.sreg r = s.sreg r := by rw [State.sreg, h.regs, State.sreg]

end

theorem noteRead (s : State) (pa n : Nat) : ReadOnly s (noteRead pa n s) := by
  unfold Machine.noteRead
  split
  · rfl
  · rfl

theorem notePadRead (s : State) (a n : Nat) : ReadOnly s (notePadRead a n s) := rfl

theorem loadAt {pa n : Nat} {s t : State} {bs : List Byte} (h : loadAt pa n s = .ok (bs, t)) : ReadOnly s t := by
  obtain ⟨u, hu, h⟩ := of_bind h
  obtain ⟨-, -, h⟩ := of_bind h
  cases h
  exact (Found.meetLines hu).readOnly.trans (noteRead u pa n)

theorem checkBlocks {x : Nat} {e : Extent} {ns : List Nat} {s t : State} (h : checkBlocks x e ns s = .ok t) : ReadOnly s t := by
  induction ns generalizing s with
  | nil => cases h; exact refl _
  | cons n ns ih =>
    rw [Machine.checkBlocks] at h
    dsimp only at h
    split at h
    · obtain ⟨⟨bs, u⟩, hu, h⟩ := of_bind h
      dsimp only at h
      split at h
      · exact (loadAt hu).trans (ih h)
      · cases h
    · cases h

theorem reach {h : Word} {n : Nat} {use : Use} {s t : State} {pa : Nat} (k : reach h n use s = .ok (pa, t)) : ReadOnly s t := by
  rw [Machine.reach] at k
  split at k
  · split at k
    · cases k; exact refl _
    · cases k
  · obtain ⟨a, -, k⟩ := of_bind k
    cases k; exact refl _
  · obtain ⟨a, -, k⟩ := of_bind k
    split at k
    · cases k
    · next e he =>
      split at k
      · cases k
      · split at k
        · split at k
          · dsimp only at k
            split at k
            · obtain ⟨u, hu, k⟩ := of_bind k
              cases k
              exact checkBlocks hu
            · cases k
              exact refl s
          · cases k
        · cases k

theorem reachTask {h : Word} {n : Nat} {use : Use} {s t : State} {pa : Nat} (k : reachTask h n use s = .ok (pa, t)) : ReadOnly s t := by
  obtain ⟨-, -, k⟩ := of_bind k
  exact reach k

end ReadOnly

end Sys2Proof.Proofs
end

