-- ==== Sys2Proof/Proofs/Messages.lean ====
section
/-! PROOFS. Messages, ports, queries and children (O15, O16, O17, O19). -/

namespace Sys2Proof.Proofs

open Sys2Proof Sys2Proof.Machine Sys2Proof.Claims

/-- A bit of a number is the bit of the vector. -/
theorem bitOf_toNat {n : Nat} (v : BitVec n) (i : Nat) : bitOf v.toNat i = v.getLsbD i := by
  rw [bitOf, BitVec.getLsbD, Nat.testBit_eq_decide_div_mod_eq]
  rfl

/-- The checks of a destination word are those of R85. -/
theorem destOk_iff (c : Capsule) (d : Word) : destOk (some c) d = true ↔ SendTarget c d := by
  rw [destOk, SendTarget, destByHint, bitOf_toNat, destAny, bitOf_toNat, destPort, destLvl, destRank]
  generalize bitsOf d.toNat 31 17 = low
  generalize bitsOf d.toNat 34 32 = port
  generalize bitsOf d.toNat 47 45 = level
  generalize bitsOf d.toNat 43 35 = wide
  generalize bitsOf d.toNat 42 35 = rank
  cases d.getLsbD 44 <;> grind

/-- The 33rd outgoing effect of a chunk is CHUNK_FULL; every one before it is buffered (R36). -/
theorem bufferOut_room {e : Effect} {s : State} (h : OutRoom s) : bufferOut e s = .ok (pushEffect e s) :=
  if_neg (Nat.not_le.mpr h)

theorem bufferOut_full {e : Effect} {s : State} (h : ¬OutRoom s) : bufferOut e s = .error (.fault .chunkFull none s) :=
  if_pos (Nat.not_lt.mp h)

theorem get_ofFn {α : Type} {n : Nat} (f : Fin n → α) (i : Fin n) : (Vector.ofFn f).get i = f i := Vector.getElem_ofFn i.isLt

/-- The payload words are s24 to s29. -/
theorem payload_get (s : State) (k : Fin 6) : (payload s).get k = s.sreg (Fin.ofNat 32 (24 + k.val)) := get_ofFn _ k

/-- What SEND and SENDT come to, once the destination word passes and the header may be executed (R85). -/
theorem sendBody_target {k : MsgKind} {entry dest : Word} {tile : Option (Memory × BitVec 16)} {c : Capsule} {s : State}
    (hc : s.capsule = some c) (target : SendTarget c dest)
    (header : bitsOf dest.toNat 34 32 = 0 → ∃ pa, checkAccess s entry 4 .exec = .ok pa) :
    ∃ tiles, sendBody k entry dest tile s = bufferOut (.message (buildMessage k entry dest tile tiles s)) s := by
  rw [sendBody, hc, (destOk_iff c dest).mpr target]
  by_cases port : destPort dest = 0
  · obtain ⟨pa, h⟩ := header port
    exact ⟨_, by rw [if_pos port, h]; rfl⟩
  · exact ⟨_, by rw [if_neg port]; rfl⟩

theorem sendKind_data {k : MsgKind} {dest : Word} (h : k ≠ .data) : sendKind dest k = .data ↔ bitsOf dest.toNat 34 32 ≠ 0 := by
  rw [sendKind, destPort]
  split <;> simp_all

/-- Settles O15: both instructions come to `sendBody`. -/
theorem sendBuffers : Obligations.SendBuffers := by
  intro a b y w v c s room full hc target header i tile hi
  have both : ∃ o k, exec i s = issue i o s ∧ Clear o s ∧ k ≠ MsgKind.data ∧ o.counted = true ∧ o.flow = false ∧
      o.body s = sendBody k (s.sreg a) (s.sreg b) tile s := by
    rcases hi with ⟨rfl, rfl⟩ | ⟨rfl, rfl, own, there, quiet⟩
    · exact ⟨opSend a b w v, .send, rfl, .of_open room no_tiles (by simpa [opSend, srcAB, srcPayload] using full), nofun, rfl, rfl, rfl⟩
    · exact ⟨opSendt y a b w v, .sendt, rfl,
        .of_open room own (by simp only [fullTiles_cons] at there; simpa [opSendt, srcAB, srcPayload, there, quiet] using full), nofun, rfl, rfl, rfl⟩
  obtain ⟨o, k, run, clear, kind, counted, flow, body⟩ := both
  obtain ⟨tiles, sent⟩ := sendBody_target (k := k) (tile := tile) hc target header
  rw [run]
  refine ⟨fun room => ⟨buildMessage k (s.sreg a) (s.sreg b) tile tiles s, ?_, rfl, rfl, rfl, rfl, ?_, rfl, sendKind_data kind, fun q => ?_⟩,
    fun none => ?_⟩
  · exact clear.next (by rw [body, sent, bufferOut_room room]) counted flow
  · exact BitVec.toNat_ofNat _ _
  · exact payload_get s q
  · exact clear.fault (by rw [body, sent, bufferOut_full none])

/-- The extents that SENDX takes and those that it refuses. -/
theorem extent?_some {s : State} {x : Nat} {e : Extent} (h : s.extents[x]? = some e) (k : e.kind ≠ 0) : s.extent? x = some e := by
  rw [State.extent?, h]
  exact if_neg k

theorem extent?_eq {s : State} {x : Nat} {e : Extent} (h : s.extent? x = some e) : s.extents[x]? = some e ∧ e.kind ≠ 0 := by
  rw [State.extent?] at h
  split at h
  · next d hd =>
    split at h
    · cases h
    · next k => cases h; exact ⟨hd, k⟩
  · cases h

/-- SENDX to a KIND 5 extent comes to the buffer; to every other it is MSG_TARGET. -/
theorem opSendx_endpoint {a b : SReg} {w v : Bool} {s : State} {e : Extent} (h : s.extents[(s.sreg a).toNat / 2 ^ 56]? = some e)
    (k : e.kind = 5) : (opSendx a b w v).body s = bufferOut (.sendx s.hart.cap s.hart.core (s.sreg a) e[0] (s.sreg b) (payload s)) s := by
  rw [← handleIdx_eq] at h
  simp only [opSendx, extent?_some h (by omega), if_pos k]

theorem opSendx_other {a b : SReg} {w v : Bool} {s : State}
    (h : ∀ e : Extent, s.extents[(s.sreg a).toNat / 2 ^ 56]? = some e → e.kind ≠ 5) :
    (opSendx a b w v).body s = .error (.fault .msgTarget (some (s.sreg a)) s) := by
  rw [← handleIdx_eq] at h
  simp only [opSendx]
  cases he : s.extent? (handleIdx (s.sreg a)) with
  | none => rfl
  | some e => exact if_neg (h e (extent?_eq he).1)

/-- Settles O16, by the extent that SENDX names and by the check that SEND fails. -/
theorem endpointSends : Obligations.EndpointSends := by
  intro a b w v s room full
  have send : Clear (opSend a b w v) s := .of_open room no_tiles (by simpa [opSend, srcAB, srcPayload] using full)
  have sendx : Clear (opSendx a b w v) s := .of_open room no_tiles (by simpa [opSendx, srcAB, srcPayload] using full)
  refine ⟨fun c hc bad => send.fault ?_, fun e he k out => ⟨payload s, sendx.next ?_, fun q => ?_⟩, fun e he k out => sendx.fault ?_,
    fun other => sendx.fault (opSendx_other other)⟩
  · have fails : destOk (some c) (s.sreg b) = false := by
      rw [← Bool.not_eq_true, destOk_iff]; exact bad
    simp only [opSend, sendBody, hc, fails, ensureAt_false, error_bind]
  · rw [opSendx_endpoint he k, bufferOut_room out]
  · exact payload_get s q
  · rw [opSendx_endpoint he k, bufferOut_full out]

/-! Ports (R87). -/

theorem modCore_congr {n : Nat} {f g : Core → Core} {s : State} (h : f (s.core n) = g (s.core n)) : s.modCore n f = s.modCore n g := by
  rw [State.modCore, State.modCore, h]

/-- The first entry that no open chunk has consumed is found, and marked. -/
theorem find?_free {es : List PortEntry} {e : PortEntry} {fs : List PortEntry} (h : ∀ x ∈ es, x.taken.isSome = true) (free : e.taken = none) :
    (es ++ e :: fs).find? (fun x => x.taken.isNone) = some e := by
  rw [List.find?_append, List.find?_eq_none.mpr fun x hx => by simp [Option.isNone_eq_false_iff.mpr (h x hx)]]
  simp [free]

theorem takeFirst_free {id : Nat} {es : List PortEntry} {e : PortEntry} {fs : List PortEntry} (h : ∀ x ∈ es, x.taken.isSome = true)
    (free : e.taken = none) : takeFirst id (es ++ e :: fs) = es ++ { e with taken := some id } :: fs := by
  induction es with
  | nil => simp [takeFirst, free]
  | cons x es ih =>
    obtain ⟨hx, hs⟩ := List.forall_mem_cons.mp h
    rw [List.cons_append, takeFirst, ih hs, if_neg (by simp [Option.isNone_eq_false_iff.mpr hx])]
    rfl

theorem portHead_none {n : Nat} {s : State} (h : ∀ x ∈ (s.core s.hart.core).ports.get (Fin.ofNat 4 n), x.taken.isSome = true) :
    portHead s n = none :=
  List.find?_eq_none.mpr fun x hx => by simp [Option.isNone_eq_false_iff.mpr (h x hx)]

/-- Without a free entry the context waits, or its chunk is full. -/
theorem noEntry_eq {α : Type} (n : Nat) (s : State) : (noEntry n s : Run α) =
    if 4 ≤ ((s.core s.hart.core).ports.get (Fin.ofNat 4 n)).length ∧
      ∀ x ∈ (s.core s.hart.core).ports.get (Fin.ofNat 4 n), x.taken = some s.hart.id
    then .error (.fault .chunkFull none s) else .error (.wait (.port n) s) := by
  simp only [noEntry, faultOf, List.all_eq_true, beq_iff_eq]

/-- Settles O17, by the oldest free entry of the port. -/
theorem portReceives : Obligations.PortReceives := by
  intro d y n s room
  have recv : Clear (opRecv d n) s := .of_open room no_tiles no_srcs
  have trecv : Tiles s [y] → Clear (opTrecv y n) s := fun own => .of_open room own no_srcs
  dsimp only
  refine ⟨fun es e fs hp taken free => ?_, fun taken i hi => ?_⟩
  · have head : portHead s n.toNat = some e := by rw [portHead, hp, find?_free taken free]
    have entry : takeEntry n.toNat s = pushEffect (.popPort s.hart.core n.toNat) (s.modCore s.hart.core fun k =>
        { k with ports := k.ports.set (Fin.ofNat 4 n.toNat).val (es ++ [{ e with taken := some s.hart.id }] ++ fs) (Fin.ofNat 4 n.toNat).isLt }) := by
      rw [takeEntry]
      refine congrArg (pushEffect _) (modCore_congr ?_)
      rw [hp, takeFirst_free taken free, List.append_assoc, List.singleton_append]
    rw [← entry]
    refine ⟨recv.next ?_, fun own => ⟨fun data shape tile => (trecv own).next ?_, fun tile => (trecv own).fault ?_⟩⟩
    · simp only [opRecv, head]
    · simp only [opTrecv, head, tile]
    · simp only [opTrecv, head, tile, faultOf]
  · have head := portHead_none taken
    have both : ∃ o, exec i s = issue i o s ∧ Clear o s ∧ o.body s = noEntry n.toNat s := by
      rcases hi with rfl | ⟨rfl, own⟩
      · exact ⟨opRecv d n, rfl, recv, by simp only [opRecv, head]⟩
      · exact ⟨opTrecv y n, rfl, trecv own, by simp only [opTrecv, head]⟩
    obtain ⟨o, run, clear, body⟩ := both
    rw [run]
    rw [noEntry_eq] at body
    refine ⟨fun other => clear.wait (body.trans (if_neg ?_)), fun full own => clear.fault (body.trans (if_pos ⟨full, own⟩))⟩
    rintro ⟨full, own⟩
    rcases other with short | ⟨x, hx, differs⟩
    · omega
    · exact differs (own x hx)

/-! Attenuation (R217 to R219). -/

theorem readLE_lt (m : Memory) (a n : Nat) : m.readLE a n < 256 ^ n := by
  simpa [Memory.readLE, Memory.readBytes] using leNat_lt (m.readBytes a n)

section
variable {m : Memory} {k : Nat} {p : Extent}

theorem toNat_srch (m : Memory) (k : Nat) : (attenuationAt m k).srch.toNat = attSrc m k := by
  have := readLE_lt m (16 * k) 8
  simp only [attenuationAt, attSrc, word, BitVec.toNat_ofNat]
  exact Nat.mod_eq_of_lt (by omega)

/-- The checks on an entry are those of R218. -/
theorem attenuationOk_iff : attenuationOk p (attenuationAt m k) = true ↔ MayAttenuate p m k := by
  have off : handleOff (attenuationAt m k).srch = attSrc m k % 2 ^ 56 := by rw [handleOff_eq, toNat_srch]
  simp only [attenuationOk, MayAttenuate, off, show (attenuationAt m k).len = attLen m k from rfl,
    show (attenuationAt m k).rgt = attRgt m k from rfl, show (attenuationAt m k).nkind = attKind m k from rfl,
    show (attenuationAt m k).rest = m.readLE (16 * k + 14) 2 from rfl]
  generalize attSrc m k % 2 ^ 56 = o
  generalize attLen m k = len
  have rgt : attRgt m k / 16 = 0 ↔ attRgt m k < 16 := by omega
  generalize attRgt m k = r at rgt
  generalize attKind m k = kind
  generalize m.readLE (16 * k + 14) 2 = rest
  generalize p.kind = parent
  cases bitOf r 0 <;> cases bitOf r 1 <;> cases bitOf r 2 <;> grind

end

/-- The child's descriptor for an entry without reserved bits in its rights (R219). -/
theorem attenuate_entry {m : Memory} {k : Nat} {p : Extent} (small : attRgt m k < 16) : attenuate p (attenuationAt m k) =
    #v[word (p.base + attSrc m k % 2 ^ 56), word (256 * attLen m k),
      word (p.ksel * 2 ^ 32 + (if attKind m k = 0 then p.kind else attKind m k) * 256 + attRgt m k), p.aux] := by
  have rgt : (attenuationAt m k).rgt % 16 = attRgt m k := Nat.mod_eq_of_lt small
  have off : handleOff (attenuationAt m k).srch = attSrc m k % 2 ^ 56 := by rw [handleOff_eq, toNat_srch]
  simp only [attenuate, off, rgt]
  rfl

/-- What `n` entries from `i` on come to: the descriptors where all pass, else the first that fails. -/
def AttenuationOutcome (exts : List Extent) (m : Memory) (i n : Nat) : Except Nat (List Extent) → Prop
  | .ok es => (∀ k, i ≤ k → k < i + n → EntryPasses exts m k) ∧ es.length = n ∧
      ∀ k < n, ∀ p, exts[attSrc m (i + k) / 2 ^ 56]? = some p → es[k]? = some (attenuate p (attenuationAt m (i + k)))
  | .error x => i ≤ x ∧ x < i + n ∧ ¬EntryPasses exts m x ∧ ∀ j, i ≤ j → j < x → EntryPasses exts m j

theorem attenuateAll_outcome (exts : List Extent) (m : Memory) (n i : Nat) (seen4 seen6 : Bool) (h4 : seen4 = true ↔ ∃ j < i, attKind m j = 4)
    (h6 : seen6 = true ↔ ∃ j < i, attKind m j = 6) :
    AttenuationOutcome exts m i n (attenuateAll exts seen4 seen6 i ((List.range' i n).map (attenuationAt m))) := by
  induction n generalizing i seen4 seen6 with
  | zero => exact ⟨fun k lo hi => absurd hi (by omega), rfl, fun k hk => absurd hk (by omega)⟩
  | succ n ih =>
    rw [List.range'_succ, List.map_cons, attenuateAll, handleIdx_eq, toNat_srch]
    cases hp : exts[attSrc m i / 2 ^ 56]? with
    | none =>
      refine ⟨le_refl i, by omega, ?_, fun j lo hi => absurd hi (by omega)⟩
      rintro ⟨⟨p, some, -⟩, -⟩
      rw [hp] at some; cases some
    | some p =>
      have fresh : (!((attenuationAt m i).nkind == 4 && seen4) && !((attenuationAt m i).nkind == 6 && seen6)) = true ↔
          (attKind m i = 4 → ∀ j < i, attKind m j ≠ 4) ∧ (attKind m i = 6 → ∀ j < i, attKind m j ≠ 6) := by
        simp only [Bool.and_eq_true, Bool.not_eq_true', beq_iff_eq, ← Bool.not_eq_true, h4, h6,
          show (attenuationAt m i).nkind = attKind m i from rfl, not_exists, not_and]
      have passes : (attenuationOk p (attenuationAt m i) && !((attenuationAt m i).nkind == 4 && seen4) &&
          !((attenuationAt m i).nkind == 6 && seen6)) = true ↔ EntryPasses exts m i := by
        rw [Bool.and_assoc, Bool.and_eq_true, fresh, attenuationOk_iff]
        constructor
        · rintro ⟨may, f4, f6⟩
          refine ⟨⟨p, hp, may⟩, fun ne j hj => ?_⟩
          obtain ⟨-, -, -, kind, -⟩ := may
          simp only [List.mem_cons, List.not_mem_nil, or_false] at kind
          rcases kind with e | e | e
          · exact absurd e ne
          · rw [e]; exact f4 e j hj
          · rw [e]; exact f6 e j hj
        · rintro ⟨⟨q, hq, may⟩, once⟩
          obtain rfl : p = q := Option.some.inj (hp.symm.trans hq)
          exact ⟨may, fun e j hj => e ▸ once (by omega) j hj, fun e j hj => e ▸ once (by omega) j hj⟩
      have next : ∀ c b, (b = true ↔ ∃ j < i, attKind m j = c) → ((b || (attenuationAt m i).nkind == c) = true ↔ ∃ j < i + 1, attKind m j = c) := by
        intro c b hb
        rw [Bool.or_eq_true, hb, beq_iff_eq]
        constructor
        · rintro (⟨j, hj, e⟩ | e)
          · exact ⟨j, by omega, e⟩
          · exact ⟨i, by omega, e⟩
        · rintro ⟨j, hj, e⟩
          rcases Nat.lt_succ_iff_lt_or_eq.mp hj with lt | rfl
          · exact .inl ⟨j, lt, e⟩
          · exact .inr e
      have rest := ih (i + 1) _ _ (next 4 seen4 h4) (next 6 seen6 h6)
      dsimp only
      by_cases pass : EntryPasses exts m i
      · rw [if_pos (passes.mpr pass)]
        cases h : attenuateAll exts (seen4 || (attenuationAt m i).nkind == 4) (seen6 || (attenuationAt m i).nkind == 6) (i + 1)
          ((List.range' (i + 1) n).map (attenuationAt m)) with
        | ok es =>
          rw [h] at rest
          obtain ⟨all, len, each⟩ := rest
          refine ⟨fun k lo hi => ?_, by rw [List.length_cons, len], fun k hk q hq => ?_⟩
          · rcases Nat.eq_or_lt_of_le lo with rfl | lt
            · exact pass
            · exact all k lt (by omega)
          · cases k with
            | zero =>
              obtain rfl : p = q := Option.some.inj (hp.symm.trans hq)
              rfl
            | succ k =>
              have e : i + (k + 1) = i + 1 + k := by omega
              rw [e] at hq ⊢
              exact each k (by omega) q hq
        | error x =>
          rw [h] at rest
          obtain ⟨lo, hi, fails, before⟩ := rest
          refine ⟨by omega, by omega, fails, fun j jlo jhi => ?_⟩
          rcases Nat.eq_or_lt_of_le jlo with rfl | lt
          · exact pass
          · exact before j lt jhi
      · rw [if_neg (fun h => pass (passes.mp h))]
        exact ⟨le_refl i, by omega, pass, fun j lo hi => absurd hi (by omega)⟩

/-- The whole list: the descriptors where all entries pass, else the first that fails. -/
theorem attenuateAll_ok {exts : List Extent} {m : Memory} {n : Nat} (h : ∀ k < n, EntryPasses exts m k) :
    ∃ es, attenuateAll exts false false 0 ((List.range n).map fun i => attenuationAt m i) = .ok es ∧ es.length = n ∧
      ∀ k < n, ∀ p, exts[attSrc m k / 2 ^ 56]? = some p → es[k]? = some (attenuate p (attenuationAt m k)) := by
  have outcome := attenuateAll_outcome exts m n 0 false false (by simp) (by simp)
  rw [List.range_eq_range']
  cases hr : attenuateAll exts false false 0 ((List.range' 0 n).map fun i => attenuationAt m i) with
  | ok es =>
    rw [hr] at outcome
    simp only [AttenuationOutcome, Nat.zero_add] at outcome
    exact ⟨es, rfl, outcome.2⟩
  | error x =>
    rw [hr] at outcome
    obtain ⟨-, lt, fails, -⟩ := outcome
    exact absurd (h x (by omega)) fails

theorem attenuateAll_error {exts : List Extent} {m : Memory} {n k : Nat} (hk : k < n) (before : ∀ j < k, EntryPasses exts m j)
    (fails : ¬EntryPasses exts m k) :
    attenuateAll exts false false 0 ((List.range n).map fun i => attenuationAt m i) = .error k := by
  have outcome := attenuateAll_outcome exts m n 0 false false (by simp) (by simp)
  rw [List.range_eq_range']
  cases hr : attenuateAll exts false false 0 ((List.range' 0 n).map fun i => attenuationAt m i) with
  | ok es =>
    rw [hr] at outcome
    exact absurd (outcome.1 k (by omega) (by omega)) fails
  | error x =>
    rw [hr] at outcome
    obtain ⟨-, -, here, first⟩ := outcome
    rcases Nat.lt_trichotomy x k with lt | rfl | gt
    · exact absurd (before x lt) here
    · rfl
    · exact absurd (first k (by omega) gt) fails

/-- The checks on the control word and the image are those of R218. -/
theorem spawnControl_iff {s : State} {ctl : Nat} {image : Memory} :
    (spawnControlOk s ctl && reservedOk image) = true ↔ SpawnControl s ctl image := by
  simp only [spawnControlOk, SpawnControl, Bool.and_eq_true, beq_iff_eq, Bool.not_eq_true', Bool.or_eq_true, and_assoc]
  cases bitOf ctl 6 <;> simp

/-- The child that SPAWN buffers. -/
def newChild (s : State) (ctl : Nat) (image : Memory) (exts : List Extent) : Spawn :=
  { cap := s.hart.cap, queue := if bitOf ctl 6 then none else some (bitsOf ctl 22 8), image := image, exts := exts }

/-- The four reads of SPAWN, and what it does once they are there. -/
theorem opSpawn_body {d a b : SReg} {w v : Bool} {s s1 s2 s3 s4 : State} {pa pb : Nat} {image entries : List Byte}
    (r1 : reachTask (s.sreg a) 256 .read s = .ok (pa, s1)) (l1 : loadAt pa 256 s1 = .ok (image, s2))
    (r2 : reachTask (s.sreg b) (16 * ((s.sreg d).toNat % 64 + 1)) .read s2 = .ok (pb, s3))
    (l2 : loadAt pb (16 * ((s.sreg d).toNat % 64 + 1)) s3 = .ok (entries, s4)) :
    (opSpawn d a b w v).body s = (do
      ensureAt (spawnControlOk s4 (s.sreg d).toNat && reservedOk (Memory.ofBytes image)) .spawnRights 0xFF s4
      match attenuateAll s4.extents false false 0
          ((List.range ((s.sreg d).toNat % 64 + 1)).map fun i => attenuationAt (Memory.ofBytes entries) i) with
      | .error i => faultAt .spawnRights (word i) s4
      | .ok exts => bufferOut (.spawn (newChild s4 (s.sreg d).toNat (Memory.ofBytes image) exts)) s4) := by
  simp only [opSpawn, r1, l1, r2, l2, ok_bind]
  rfl

/-- The query that WQRY hands over, and the state with it: its word is empty and its claim counted. -/
def newQuery (s : State) (w desc : Nat) : Query :=
  { hart := s.hart.id, core := s.hart.core, cap := s.hart.cap, word := w, desc := desc, arrived := none, item := none, answer := none, fate := 0,
    landed := false }

def queried (q : Query) (s : State) : State :=
  (emptyWord s.hart.core q.word { s with queries := s.queries ++ [q] }).mod fun h =>
    { h with chunk := { h.chunk with claims := h.chunk.claims + 1 } }

/-- WQRY up to its claims: the answer word, the descriptor and the region pass. -/
theorem opWqry_body {a b : SReg} {w v : Bool} {s s1 : State} {pa : Nat} (lt : (s.sreg a).toNat < 65536) (al : (s.sreg a).toNat % 8 = 0)
    (r : reachTask (s.sreg b) 32 .atomic s = .ok (pa, s1)) (off : handleOff (s.sreg b) % 32 = 0)
    (free : regionHeld (s.sreg a).toNat 8 s1 = false) : (opWqry a b w v).body s = (do
      ensure (decide (s1.hart.chunk.claims < 4)) .chunkFull s1
      .ok (queried (newQuery s1 ((s.sreg a).toNat / 8) pa) s1)) := by
  have regs : s1.sreg b = s.sreg b := (ReadOnly.reachTask r).sreg b
  simp only [opWqry, lt, al, r, aligned, regs, off, free, decide_true, beq_self_eq_true, Bool.and_self, Bool.not_false, ensure_true, ok_bind]
  rfl

/-- The word is marked empty. -/
theorem emptyWord_contains (core w : Nat) (s : State) : ((emptyWord core w s).core core).empty.contains w = true := by
  rw [emptyWord, State.core_modCore_same s core _ (State.core_id s core)]
  dsimp only
  split
  · assumption
  · simp

/-- Settles O19: WQRY by its claims, SPAWN by its reads, its control word and its entries. -/
theorem queryAndSpawn : Obligations.QueryAndSpawn := by
  intro d a b w v s room full
  have wqry : Clear (opWqry a b w v) s := .of_open room no_tiles (by simp only [full_cons] at full; simp [opWqry, srcAB, full])
  have spawn : Clear (opSpawn d a b w v) s := .of_open room no_tiles (by simpa [opSpawn, srcDAB] using full)
  refine ⟨fun pa s1 lt al r off free claims => ?_, fun pa s1 task lt al r off free claims => wqry.fault_task task ?_,
    fun pa s1 image s2 pb s3 entries s4 exts => ?_, fun pa s1 image s2 pb s3 entries s4 => ?_⟩
  · refine ⟨newQuery s1 ((s.sreg a).toNat / 8) pa, queried (newQuery s1 ((s.sreg a).toNat / 8) pa) s1, wqry.next ?_, rfl, rfl, rfl, rfl, rfl, rfl, ?_⟩
    · rw [opWqry_body lt al r off free, decide_eq_true claims]; rfl
    · exact emptyWord_contains s1.hart.core ((s.sreg a).toNat / 8) _
  · rw [opWqry_body lt al r off free, decide_eq_false (by omega)]; rfl
  · intro ctl n r1 l1 r2 l2 control reserved all out child
    refine spawn.next ((opSpawn_body r1 l1 r2 l2).trans ?_)
    rw [control, reserved, all]
    exact bufferOut_room out
  · intro ctl n m rights task r1 l1 r2 l2
    have body := opSpawn_body (w := w) (v := v) r1 l1 r2 l2
    refine ⟨fun bad => spawn.fault_task task (body.trans ?_), fun good => ?_⟩
    · rw [Bool.eq_false_iff.mpr fun h => bad (spawnControl_iff.mp h)]; rfl
    rw [spawnControl_iff.mpr good, ensureAt_true, ok_bind] at body
    refine ⟨fun k hk before fails => spawn.fault_task task (body.trans ?_), fun all out => spawn.fault_task task (body.trans ?_), fun all out => ?_⟩
    · rw [attenuateAll_error hk before fails]; rfl
    · obtain ⟨es, hes, -⟩ := attenuateAll_ok all
      rw [hes]; exact bufferOut_full out
    · obtain ⟨es, hes, len, each⟩ := attenuateAll_ok all
      refine ⟨newChild s4 ctl (Memory.ofBytes image) es, spawn.next (body.trans ?_), rfl, rfl, rfl, len, fun k hk p hp => ?_⟩
      · rw [hes]; exact bufferOut_room out
      · obtain ⟨⟨q, hq, -, small, -⟩, -⟩ := all k hk
        exact (each k hk p hp).trans (congrArg some (attenuate_entry small))

end Sys2Proof.Proofs
end

