-- ==== Sys2Proof/Proofs/Accesses.lean ====
section
/-! PROOFS. Where an access goes, and what a store does (O21, O22). -/

namespace Sys2Proof.Proofs

open Sys2Proof Sys2Proof.Machine Sys2Proof.Claims

section
variable {h : Word} {n : Nat} {use : Use} {s : State}

/-- A pass of CheckAccess names a descriptor of the capsule whose KIND is not 0. -/
theorem checkAccess_ok {pa : Nat} (k : checkAccess s h n use = .ok pa) :
    ∃ e : Extent, s.extents[h.toNat / 2 ^ 56]? = some e ∧ e.kind ≠ 0 := by
  cases he : s.extents[h.toNat / 2 ^ 56]? with
  | none => rw [checkAccess_outside (List.getElem?_eq_none_iff.mp he)] at k; cases k
  | some e =>
    refine ⟨e, rfl, fun zero => ?_⟩
    rw [checkAccess_extent he, accessAnswer, if_pos zero] at k; cases k

/-- It gives BASE plus the offset. -/
theorem checkAccess_base {pa : Nat} (k : checkAccess s h n use = .ok pa) :
    ∃ e : Extent, s.extents[h.toNat / 2 ^ 56]? = some e ∧ pa = e.base + h.toNat % 2 ^ 56 := by
  obtain ⟨e, he, kind⟩ := checkAccess_ok k
  refine ⟨e, he, ?_⟩
  rw [checkAccess_extent he, accessAnswer, if_neg kind] at k
  split at k
  · cases k
  · split at k
    · cases k
    · split at k
      · exact (Except.ok.inj k).symm
      · cases k

/-- Where a task's access goes: BASE plus the offset, whatever stands in the way of others. -/
theorem reach_extent {t : State} {pa : Nat} (task : s.hart.kind = .task) (k : reach h n use s = .ok (pa, t)) :
    ∃ e : Extent, s.extents[h.toNat / 2 ^ 56]? = some e ∧ pa = e.base + h.toNat % 2 ^ 56 := by
  simp only [reach, task] at k
  obtain ⟨a, ha, k⟩ := of_bind k
  have same : a = pa := by
    split at k
    · cases k
    · split at k
      · cases k
      · split at k
        · split at k
          · split at k
            · obtain ⟨u, -, k⟩ := of_bind k
              exact (Prod.mk.inj (Except.ok.inj k)).1
            · exact (Prod.mk.inj (Except.ok.inj k)).1
          · cases k
        · cases k
  exact checkAccess_base (same ▸ ha)

/-- A task's access within its reach goes to BASE plus the offset. -/
theorem reach_task {e : Extent} (task : s.hart.kind = .task) (he : s.extents[h.toNat / 2 ^ 56]? = some e)
    (may : MayReach e (h.toNat % 2 ^ 56) n use s) : reach h n use s = .ok (e.base + h.toNat % 2 ^ 56, s) := by
  obtain ⟨kind, plain, bounds, co, grants, unsealed, owned, token⟩ := may
  have co' : e.co = false ∨ use = .unseal := by
    cases hc : e.co with
    | false => exact .inl rfl
    | true => exact .inr (co hc)
  have free : sealFault s (e.base + h.toNat % 2 ^ 56) n use = none := by
    rw [sealFault, if_neg]
    intro both
    simp only [Bool.and_eq_true, Bool.or_eq_true, beq_iff_eq, or_assoc] at both
    exact Bool.false_ne_true ((unsealed both.1).symm.trans both.2)
  simp only [reach, task, checkAccess_rights he kind bounds co', if_pos ((permits_iff e use).mpr grants), ok_bind, handleIdx_eq,
    extent?_some he kind, free, if_pos owned, if_pos token, if_neg plain]

/-- No write of a task reaches a granule with a seal record. -/
theorem reach_sealed {pa : Nat} (task : s.hart.kind = .task) (writes : use = .write ∨ use = .atomic) (access : checkAccess s h n use = .ok pa)
    (sealed : sealedRange s pa n = true) : reach h n use s = .error (.fault .sealedWrite (some h) s) := by
  obtain ⟨e, he, kind⟩ := checkAccess_ok access
  have fault : sealFault s pa n use = some .sealedWrite := by
    rw [sealFault, sealed]
    rcases writes with rfl | rfl <;> rfl
  simp only [reach, task, access, ok_bind, handleIdx_eq, extent?_some he kind, fault]

/-- What an access of firmware to a physical address comes to below the dump, and in the dump and the protected region. -/
theorem physicalAccess_low {pa : Nat} (low : pa + n ≤ 0x5FB0000000) (owned : ownedBy s 0 pa n = true) : physicalAccess s pa n = .ok pa := by
  rw [physicalAccess, if_neg (by rw [dumpBase]; omega), if_pos (.inl (by rw [tier0End]; omega)), if_pos owned]

theorem physicalAccess_dump {pa : Nat} (past : 0x5FB0000000 < pa + n) (below : pa < 0x6000000000) :
    physicalAccess s pa n = .error (.fault .mmuRights none s) := if_pos ⟨past, below⟩

/-- Firmware's address while its MMU is off, or for a fetch while its fault is pending (R216, R224). -/
theorem firmwareAddress_physical {a : Nat}
    (off : (s.cluster s.here).mmuctl.getLsbD 0 = false ∨ use = .exec ∧ (s.cluster s.here).fwcode ≠ 0) : firmwareAddress s a use = .ok a := by
  unfold firmwareAddress
  refine if_neg ?_
  rw [bitOf_toNat]
  rcases off with off | ⟨rfl, pending⟩
  · rw [off, Bool.false_and]; exact Bool.false_ne_true
  · simpa using fun _ => pending

/-- Through the first valid entry of the MMU that names the page (R224). -/
theorem firmwareAddress_mmu {a i : Nat} (lt : i < 256) (on : (s.cluster s.here).mmuctl.getLsbD 0 = true)
    (names : bitOf ((s.cluster s.here).mmu.readLE (16 * i) 8) 63 = true ∧
      bitsOf ((s.cluster s.here).mmu.readLE (16 * i) 8) 47 21 = bitsOf a 47 21)
    (first : ∀ k < i, ¬(bitOf ((s.cluster s.here).mmu.readLE (16 * k) 8) 63 = true ∧
      bitsOf ((s.cluster s.here).mmu.readLE (16 * k) 8) 47 21 = bitsOf a 47 21))
    (r : use = .read → bitOf ((s.cluster s.here).mmu.readLE (16 * i + 8) 8) 0 = true)
    (w : use = .write → bitOf ((s.cluster s.here).mmu.readLE (16 * i + 8) 8) 1 = true)
    (rw_ : use = .atomic → bitOf ((s.cluster s.here).mmu.readLE (16 * i + 8) 8) 0 = true ∧ bitOf ((s.cluster s.here).mmu.readLE (16 * i + 8) 8) 1 = true)
    (data : use = .read ∨ use = .write ∨ use = .atomic) : firmwareAddress s a use =
      .ok (bitsOf ((s.cluster s.here).mmu.readLE (16 * i + 8) 8) 47 21 * 2097152 + a % 2097152) := by
  have found : ((List.range 256).find? fun k => bitOf ((s.cluster s.here).mmu.readLE (16 * k) 8) 63 &&
      bitsOf ((s.cluster s.here).mmu.readLE (16 * k) 8) 47 21 == bitsOf a 47 21) = some i := by
    rw [List.find?_range_eq_some]
    refine ⟨by simp [names], List.mem_range.mpr lt, fun k hk => ?_⟩
    rw [Bool.not_eq_true', ← Bool.not_eq_true, Bool.and_eq_true, beq_iff_eq]
    exact first k hk
  unfold firmwareAddress
  rcases data with rfl | rfl | rfl
  · simp only [bitOf_toNat, on, found, r rfl, Bool.true_and]; rfl
  · simp only [bitOf_toNat, on, found, w rfl, Bool.true_and]; rfl
  · simp only [bitOf_toNat, on, found, rw_ rfl, Bool.true_and]; rfl

/-- Firmware's access is its physical access at the address found. -/
theorem reach_firmware {pa : Nat} (fw : s.hart.kind = .firmware) (at_ : firmwareAddress s h.toNat use = .ok pa) :
    reach h n use s = (physicalAccess s pa n).map fun q => (q, s) := by
  simp only [reach, fw, firmwareAccess, at_, ok_bind]
  cases physicalAccess s pa n <;> rfl

theorem reach_firmware_low {pa : Nat} (fw : s.hart.kind = .firmware) (at_ : firmwareAddress s h.toNat use = .ok pa)
    (low : pa + n ≤ 0x5FB0000000) (owned : ownedBy s 0 pa n = true) : reach h n use s = .ok (pa, s) := by
  rw [reach_firmware fw at_, physicalAccess_low low owned]; rfl

theorem reach_firmware_dump {pa : Nat} (fw : s.hart.kind = .firmware) (at_ : firmwareAddress s h.toNat use = .ok pa)
    (past : 0x5FB0000000 < pa + n) (below : pa < 0x6000000000) : reach h n use s = .error (.fault .mmuRights none s) := by
  rw [reach_firmware fw at_, physicalAccess_dump past below]; rfl

end

/-- Settles O21, by the kind of context. -/
theorem accessPaths : Obligations.AccessPaths := by
  intro h n use s
  dsimp only
  refine ⟨fun e task he may => reach_task task he may, fun pa task writes access sealed => reach_sealed task writes access sealed,
    fun fw off => ?_, fun i lt fw on names first r w rw_ data page => ?_, fun saffron fits => ?_, fun saffron past => ⟨none, ?_⟩⟩
  · have at_ : firmwareAddress s h.toNat use = .ok h.toNat := firmwareAddress_physical off
    exact ⟨reach_firmware_low fw at_, fun past below => ⟨none, reach_firmware_dump fw at_ past below⟩⟩
  · have at_ := firmwareAddress_mmu lt on names first r w rw_ data
    exact ⟨reach_firmware_low fw at_, fun past below => ⟨none, reach_firmware_dump fw at_ past below⟩⟩
  · simp only [reach, saffron, if_pos fits]
  · simp only [reach, saffron, if_neg (Nat.not_le.mpr past)]

/-! Stores (R36, R187). -/

section
variable {pa : Nat} {bs : List Byte} {s : State}

/-- Units in retention hold an access up; units that are awake are noted (R259). -/
theorem accessUnits_asleep {us : List Nat} (h : ∃ u ∈ us, u ∈ s.retained) : accessUnits us s = .error (.wait .unit (startExit us s)) := by
  rw [accessUnits, asleep, if_pos (by simpa using h)]

theorem accessUnits_awake {us : List Nat} (h : ∀ u ∈ us, u ∉ s.retained) : accessUnits us s = .ok (noteUse us s) := by
  rw [accessUnits, asleep, if_neg (by simpa using h)]

theorem awaitUnits_asleep {n : Nat} (k : s.hart.kind ≠ .saffron) (h : ∃ u ∈ unitsAt s s.hart.core pa n, u ∈ s.retained) :
    awaitUnits pa n s = .error (.wait .unit (startExit (unitsAt s s.hart.core pa n) s)) := by
  rw [awaitUnits, if_neg k, accessUnits_asleep h]

theorem awaitUnits_awake {n : Nat} (k : s.hart.kind ≠ .saffron) (h : ∀ u ∈ unitsAt s s.hart.core pa n, u ∉ s.retained) :
    awaitUnits pa n s = .ok (noteUse (unitsAt s s.hart.core pa n) s) := by
  rw [awaitUnits, if_neg k, accessUnits_awake h]

/-- The state with a store in the chunk of its context (R36, R200). -/
def buffered (pa : Nat) (bs : List Byte) (s : State) : State :=
  noteWrite pa bs.length (pushEffect (.store pa bs) (s.mod fun h =>
    { h with chunk := { h.chunk with sectors := h.chunk.sectors ++ newSectors s.hart.chunk.sectors pa bs.length } }))

/-- Where a store would be the one too many for the chunk's sectors (R36). -/
def tooMany (s : State) (pa n : Nat) : Prop :=
  4096 < s.hart.chunk.sectors.length + s.hart.chunk.padSectors.length + (newSectors s.hart.chunk.sectors pa n).length

theorem tooMany_found {t : State} (h : Found s t) (pa n : Nat) : tooMany t pa n ↔ tooMany s pa n := by
  rw [tooMany, tooMany, h.hart]

theorem wayWanted_noteUse (us : List Nat) (n : Nat) : wayWanted pa n (noteUse us s) = wayWanted pa n s := rfl

/-- Buffering changes the context alone. -/
theorem buffered_outside (pa : Nat) (bs : List Byte) (s : State) : Outside s (buffered pa bs s) :=
  outside_trans (outside_mod _ s) (outside_trans (outside_mod _ _) (outside_mod _ _))

theorem buffered_quiet (us : List Nat) : QuietOutside s (buffered pa bs (noteUse us s)) := by
  have h := buffered_outside pa bs (noteUse us s)
  generalize buffered pa bs (noteUse us s) = t at h ⊢
  unfold Outside at h
  calc
    ({ t with hart := s.hart, used := s.used } : State) = { ({ t with hart := (noteUse us s).hart } : State) with used := s.used } := rfl
    _ = { noteUse us s with used := s.used } := by rw [h]
    _ = s := rfl

/-- A store of a context that has its units awake. -/
theorem bufferStore_awake {t : State} (h : awaitUnits pa bs.length s = .ok t) :
    (tooMany t pa bs.length → bufferStore pa bs s = .error (.fault .chunkFull none t)) ∧
    (¬tooMany t pa bs.length → ∀ l, wayWanted pa bs.length t = some l → bufferStore pa bs s = .error (.wait (.way l) t)) ∧
    (¬tooMany t pa bs.length → wayWanted pa bs.length t = none → bufferStore pa bs s = .ok (buffered pa bs t)) := by
  unfold bufferStore
  rw [h, ok_bind]
  refine ⟨fun many => if_pos many, fun room l way => (if_neg room).trans ?_, fun room way => (if_neg room).trans ?_⟩ <;> rw [way]
  rfl

/-- A buffered store came about with its units awake. -/
theorem bufferStore_ok {u : State} (h : bufferStore pa bs s = .ok u) :
    ∃ t, awaitUnits pa bs.length s = .ok t ∧ ¬tooMany t pa bs.length ∧ wayWanted pa bs.length t = none ∧ u = buffered pa bs t := by
  obtain ⟨t, ht, -⟩ := of_bind h
  obtain ⟨full, ways, done⟩ := bufferStore_awake ht
  by_cases many : tooMany t pa bs.length
  · rw [full many] at h; cases h
  cases way : wayWanted pa bs.length t with
  | some l => rw [ways many l way] at h; cases h
  | none =>
    rw [done many way] at h
    exact ⟨t, ht, many, way, (Except.ok.inj h).symm⟩

/-- The chunk's latest store to an address decides its byte (R188). -/
theorem chunkByte_append (es : List Effect) (pa x : Nat) (bs : List Byte) :
    chunkByte (es ++ [.store pa bs]) x = if pa ≤ x ∧ x < pa + bs.length then bs[x - pa]? else chunkByte es x := by
  simp [chunkByte, List.foldl_append]

theorem getD_of_some (bs : List Byte) (i : Nat) (d : Byte) (h : i < bs.length) : (bs[i]?).getD d = bs.getD i 0 := by
  simp [h]

/-- A task sees the bytes that it has buffered. -/
theorem viewByte_buffered (k : s.hart.kind = .task) (x : Nat) : viewByte (buffered pa bs s) x =
    if pa ≤ x ∧ x < pa + bs.length then bs.getD (x - pa) 0 else viewByte s x := by
  have kind : (buffered pa bs s).hart.kind = .task := k
  have effects : (buffered pa bs s).hart.chunk.effects = s.hart.chunk.effects ++ [.store pa bs] := rfl
  have mem : (buffered pa bs s).mem = s.mem := rfl
  simp only [viewByte, kind, effects, mem, chunkByte_append, k]
  split
  · next h => exact getD_of_some bs _ _ (by omega)
  · rfl

/-- What other contexts learn of a write leaves the writer and the memory alone. -/
theorem publish_hart {me : Nat} {sig : BitVec 1024} {masks : List (Nat × BitVec 256)} (h : s.hart.id = me) : (publish me sig masks s).hart = s.hart :=
  if_neg fun c => c.1 h

theorem settlePoison_found (part : Nat) (ws : List (Nat × Nat)) : Found s (settlePoison part ws s) := by
  refine (Found.set_poison s _).trans (Found.foldl (fun t p => Found.logPart t part _) _ _)

theorem markDirty_mem (h : Hart) (n : Nat) : (markDirty h pa n s).mem = s.mem ∧ (markDirty h pa n s).hart = s.hart := by
  unfold markDirty
  split
  · exact ⟨rfl, rfl⟩
  · dsimp only
    refine foldl_keeps (P := fun t : State => t.mem = s.mem ∧ t.hart = s.hart) ?_ _ ⟨rfl, rfl⟩
    exact fun t l ht => ht

theorem sealedRange_found {t : State} (h : Found s t) (pa n : Nat) : sealedRange t pa n = sealedRange s pa n := by
  simp only [sealedRange, State.granule, h.got]

/-- A write of its own: the bytes stand in memory, but in a granule with a seal record (R198, R262). -/
theorem writeUnit_mem (h : Hart) (part : Nat) : (writeUnit h part pa bs s).mem = if sealedRange s pa bs.length then s.mem else s.mem.writeBytes pa bs := by
  have lines := Found.readLines s part pa bs.length
  unfold writeUnit
  split
  · rfl
  · next unsealed =>
    refine (settlePoison_found part _).mem.trans ?_
    rw [putMem, if_neg (by rwa [sealedRange_found lines]), ← lines.mem]

/-- The writer's own context stays. -/
theorem writeUnit_hart (part : Nat) : (writeUnit s.hart part pa bs s).hart = s.hart := by
  have lines := Found.readLines s part pa bs.length
  unfold writeUnit
  split
  · rfl
  · next unsealed =>
    have put : (putMem s.hart pa bs (readLines part pa bs.length s)).hart = s.hart := by
      rw [putMem, if_neg (by rwa [sealedRange_found lines])]
      exact (markDirty_mem s.hart bs.length).2.trans lines.hart
    have settled := (settlePoison_found (s := putMem s.hart pa bs (readLines part pa bs.length s)) part [(pa, bs.length)]).hart
    rw [publish_hart (by rw [settled, put]), settled, put]

/-- A firmware store whose units are awake and whose lines no exclusive chunk has read. -/
theorem storeAt_firmware (fw : s.hart.kind = .firmware) (free : heldByToken s s.hart.id pa bs.length = false) :
    storeAt pa bs s = (awaitUnits pa bs.length s).map fun t => writeUnit t.hart t.partition pa bs t := by
  simp only [storeAt, fw, free]
  cases awaitUnits pa bs.length s <;> rfl

theorem read_writeBytes (m : Memory) (hm : m.wf = true) (x : Nat) : (m.writeBytes pa bs).read x =
    if pa ≤ x ∧ x < pa + bs.length then bs.getD (x - pa) 0 else m.read x := by
  split
  · next h =>
    have e : x = pa + (x - pa) := by omega
    have lt : x - pa < bs.length := by omega
    rw [e, Memory.read_writeBytes_same pa (x - pa) bs hm lt, ← e]
    simp [lt]
  · exact Memory.read_writeBytes_other m bs (by omega)

/-- A firmware store in memory. -/
theorem writeUnit_read (hm : s.mem.wf = true) (h : Hart) (part x : Nat) : (writeUnit h part pa bs s).mem.read x =
    if sealedRange s pa bs.length = false ∧ pa ≤ x ∧ x < pa + bs.length then bs.getD (x - pa) 0 else s.mem.read x := by
  rw [writeUnit_mem]
  cases sealedRange s pa bs.length with
  | true => simp
  | false => simpa using read_writeBytes s.mem hm x


/-- What a task's store is: a buffered one; Saffron's goes to its SRAM. -/
theorem storeAt_task (task : s.hart.kind = .task) : storeAt pa bs s = bufferStore pa bs s := by rw [storeAt, task]

theorem storeAt_saffron (k : s.hart.kind = .saffron) :
    storeAt pa bs s = .ok { s with saffron := { s.saffron with sram := s.saffron.sram.writeBytes pa bs } } := by rw [storeAt, k]

/-- A chunk in exclusive mode that has read a line holds firmware's store up (R203). -/
theorem storeAt_held (fw : s.hart.kind = .firmware) (held : heldByToken s s.hart.id pa bs.length = true) :
    storeAt pa bs s = .error (.wait .token s) := by rw [storeAt, fw]; exact if_pos held

/-- So do units in retention, but for Saffron's. -/
theorem storeAt_asleep (k : s.hart.kind ≠ .saffron) (free : s.hart.kind = .firmware → heldByToken s s.hart.id pa bs.length = false)
    (asleep : ∃ u ∈ unitsAt s s.hart.core pa bs.length, u ∈ s.retained) :
    storeAt pa bs s = .error (.wait .unit (startExit (unitsAt s s.hart.core pa bs.length) s)) := by
  cases kind : s.hart.kind with
  | saffron => exact absurd kind k
  | task => rw [storeAt_task kind, bufferStore, awaitUnits_asleep k asleep]; rfl
  | firmware => rw [storeAt_firmware kind (free kind), awaitUnits_asleep k asleep]; rfl

/-- A task's store with its units awake. -/
theorem storeAt_awake (task : s.hart.kind = .task) (awake : ∀ u ∈ unitsAt s s.hart.core pa bs.length, u ∉ s.retained) :
    let t := noteUse (unitsAt s s.hart.core pa bs.length) s
    (tooMany s pa bs.length → storeAt pa bs s = .error (.fault .chunkFull none t)) ∧
    (¬tooMany s pa bs.length → ∀ l, wayWanted pa bs.length s = some l → storeAt pa bs s = .error (.wait (.way l) t)) ∧
    (¬tooMany s pa bs.length → wayWanted pa bs.length s = none → storeAt pa bs s = .ok (buffered pa bs t)) := by
  have spec := bufferStore_awake (awaitUnits_awake (by rw [task]; nofun) awake)
  rw [tooMany_found (Found.noteUse s _), wayWanted_noteUse] at spec
  rw [storeAt_task task]
  exact spec

/-- What a store that completes leaves of the registers, the lease and the checkpoint, and the bytes that its context then sees. -/
def Stored (pa : Nat) (bs : List Byte) (s t : State) : Prop :=
  t.hart.r = s.hart.r ∧ t.hart.lease = s.hart.lease ∧ t.hart.ckpt = s.hart.ckpt ∧
    ∀ x, viewByte t x = if pa ≤ x ∧ x < pa + bs.length then bs.getD (x - pa) 0 else viewByte s x

theorem stored_task {t : State} (task : s.hart.kind = .task) (ht : storeAt pa bs s = .ok t) : Stored pa bs s t := by
  rw [storeAt_task task] at ht
  obtain ⟨u, hu, -, -, rfl⟩ := bufferStore_ok ht
  have found := Found.awaitUnits hu
  refine ⟨(congrArg Hart.r found.hart :), (congrArg Hart.lease found.hart :), (congrArg Hart.ckpt found.hart :), fun x => ?_⟩
  rw [viewByte_buffered (by rw [found.hart, task])]
  simp only [viewByte, found.hart, found.mem, task]

theorem stored_firmware {t : State} (hm : s.mem.wf = true) (fw : s.hart.kind = .firmware) (effects : s.hart.chunk.effects = [])
    (unsealed : sealedRange s pa bs.length = false) (ht : storeAt pa bs s = .ok t) : Stored pa bs s t := by
  cases held : heldByToken s s.hart.id pa bs.length with
  | true => rw [storeAt_held fw held] at ht; cases ht
  | false =>
    rw [storeAt_firmware fw held] at ht
    cases hu : awaitUnits pa bs.length s with
    | error e => rw [hu] at ht; cases ht
    | ok u =>
      rw [hu] at ht
      obtain rfl := Except.ok.inj ht
      have found := Found.awaitUnits hu
      have hart : (writeUnit u.hart u.partition pa bs u).hart = s.hart := (writeUnit_hart u.partition).trans found.hart
      refine ⟨by rw [hart], by rw [hart], by rw [hart], fun x => ?_⟩
      simp only [viewByte, hart, fw, effects, chunkByte, List.foldl_nil, Option.getD_none,
        writeUnit_read (s := u) (by rw [found.mem]; exact hm), sealedRange_found found, unsealed, found.mem, true_and]

theorem stored_saffron {t : State} (hs : s.saffron.sram.wf = true) (k : s.hart.kind = .saffron) (ht : storeAt pa bs s = .ok t) :
    Stored pa bs s t := by
  rw [storeAt_saffron k] at ht
  obtain rfl := Except.ok.inj ht
  refine ⟨rfl, rfl, rfl, fun x => ?_⟩
  simp only [viewByte, k]
  exact read_writeBytes s.saffron.sram hs x

end

/-- Settles O22, by the kind of context. -/
theorem storedBytes : Obligations.StoredBytes := by
  intro pa bs s hm hs
  refine ⟨storeAt_held, storeAt_asleep, fun task awake => ?_, fun fw free awake => ?_,
    fun saffron => ⟨_, storeAt_saffron saffron, rfl⟩, fun t ht fw => ?_⟩
  · obtain ⟨full, ways, done⟩ := storeAt_awake task awake
    exact ⟨fun many => ⟨none, full many⟩,
      fun room => ⟨ways (Nat.not_lt.mpr room), fun way => ⟨_, done (Nat.not_lt.mpr room) way, buffered_quiet _⟩⟩⟩
  · rw [storeAt_firmware fw free, awaitUnits_awake (by rw [fw]; nofun) awake]
    exact ⟨_, rfl, fun x => writeUnit_read (s := noteUse _ s) hm _ _ x⟩
  · cases kind : s.hart.kind with
    | task => exact stored_task kind ht
    | firmware => exact stored_firmware hm kind (fw kind).1 (fw kind).2 ht
    | saffron => exact stored_saffron hs kind ht

end Sys2Proof.Proofs
end

