-- ==== Sys2Proof/Proofs/Tiles.lean ====
section
/-! PROOFS. The bytes and elements of a tile register, and the register-file instructions (O31, O32). -/

namespace Sys2Proof.Proofs

open Sys2Proof Sys2Proof.Machine Sys2Proof.Claims

/-! Memories that are given byte by byte. -/

theorem read_filterMap (f : Nat → Byte) (l : List Nat) (a : Nat) :
    Memory.read (l.filterMap fun k => if f k = Memory.default then none else some (k, f k)) a = if a ∈ l then f a else Memory.default := by
  induction l with
  | nil => simp [Memory.read]
  | cons k l ih =>
    rw [List.filterMap_cons]
    by_cases zero : f k = Memory.default
    · simp only [zero, if_true, ih, List.mem_cons]
      by_cases e : a = k
      · subst e; simp [zero]
      · simp [e]
    · simp only [zero, if_false, Memory.read, ih, List.mem_cons]
      by_cases e : a = k
      · subst e; simp
      · simp [e, Ne.symm e]

/-- A tabulated byte. -/
theorem read_tabulate (n : Nat) (f : Nat → Byte) (a : Nat) : (Memory.tabulate n f).read a = if a < n then f a else Memory.default := by
  rw [Memory.tabulate, read_filterMap]
  simp

/-- A memory of which the entries at some addresses stay. -/
theorem read_filter (m : Memory) (q : Nat → Bool) (a : Nat) :
    Memory.read (m.filter fun c => q c.1) a = if q a then m.read a else Memory.default := by
  induction m with
  | nil => simp [Memory.read]
  | cons c m ih =>
    obtain ⟨k, b⟩ := c
    by_cases e : k = a
    · subst e
      cases hq : q k with
      | true => simp [hq, Memory.read]
      | false => rw [List.filter_cons_of_neg (by simp [hq]), ih]; simp [hq]
    · cases hq : q k with
      | true => rw [List.filter_cons_of_pos (by simp [hq])]; simp [Memory.read, e, ih]
      | false => rw [List.filter_cons_of_neg (by simp [hq]), ih]; simp [Memory.read, e]

/-- A byte of a trimmed register: it stays in the rows and columns that the elements fill (R124). -/
theorem read_trim (m : Memory) (rows rb a : Nat) :
    (trim rows rb m).read a = if a / 64 < rows ∧ a % 64 < rb then m.read a else Memory.default := by
  rw [trim, read_filter m (fun k => decide (k / 64 < rows) && decide (k % 64 < rb))]
  simp

/-- The bytes of a number, one by one (R4). -/
theorem leBytes_eq_map (n v : Nat) : leBytes n v = (List.range n).map fun q => BitVec.ofNat 8 (v / 256 ^ q) := by
  induction n generalizing v with
  | zero => rfl
  | succ n ih =>
    rw [leBytes, ih, List.range_succ_eq_map, List.map_cons, List.map_map, pow_zero, Nat.div_one]
    refine congrArg (_ :: ·) (List.map_congr_left fun q _ => ?_)
    rw [Function.comp_apply, Nat.succ_eq_add_one, pow_succ', Nat.div_div_eq_div_mul]

/-- An element whose bytes are those of a number that fits is that number. -/
theorem elem_of_bytes {m : Memory} {e i j v : Nat} (h : ∀ q < e, m.read (64 * i + e * j + q) = BitVec.ofNat 8 (v / 256 ^ q))
    (fits : v < 256 ^ e) : elem m e i j = v := by
  have bytes : m.readBytes (64 * i + e * j) e = leBytes e v := by
    rw [leBytes_eq_map]
    exact List.map_congr_left fun q hq => h q (List.mem_range.mp hq)
  rw [elem, Memory.readLE, bytes, leNat_leBytes, Nat.mod_eq_of_lt fits]

theorem size_pos (f : Nat) : 1 ≤ Machine.Num.size f := by
  unfold Machine.Num.size
  split <;> decide

theorem shapeSize_pos (v : BitVec 16) : 1 ≤ shapeSize v := size_pos _

section
variable {e rows cols i j : Nat}

/-- Where byte q of element (i, j) stands (R14, R124). -/
theorem element_place {q : Nat} (hj : j < cols) (hq : q < e) (fits : e * cols ≤ 64) :
    (64 * i + e * j + q) / 64 = i ∧ (64 * i + e * j + q) % 64 = e * j + q ∧ (e * j + q) / e = j ∧ (e * j + q) % e = q := by
  have lt : e * j + q < 64 := calc
    e * j + q < e * j + e := Nat.add_lt_add_left hq _
    _ = e * (j + 1) := (Nat.mul_succ e j).symm
    _ ≤ e * cols := Nat.mul_le_mul_left e hj
    _ ≤ 64 := fits
  refine ⟨by omega, by omega, ?_, ?_⟩
  · rw [Nat.mul_add_div (by omega), Nat.div_eq_of_lt hq, Nat.add_zero]
  · rw [Nat.mul_add_mod, Nat.mod_eq_of_lt hq]

/-- An element of a built register. -/
theorem elem_buildTile (f : Nat → Nat → Nat) (hi : i < rows) (hj : j < cols) (fits : e * cols ≤ 64) (small : f i j < 256 ^ e) :
    elem (buildTile e rows cols f) e i j = f i j := by
  refine elem_of_bytes (fun q hq => ?_) small
  obtain ⟨row, at_, col, byte⟩ := element_place (i := i) hj hq fits
  have inside : 64 * i + e * j + q < 64 * rows := by omega
  rw [buildTile, read_tabulate, if_pos inside]
  simp only [row, at_, col, byte, if_pos hj]

/-- Its padding is zero (R124). -/
theorem read_buildTile_padding (f : Nat → Nat → Nat) (he : 1 ≤ e) {k : Nat} (hk : k < 64) (out : rows ≤ i ∨ e * cols ≤ k) :
    (buildTile e rows cols f).read (64 * i + k) = 0 := by
  have row : (64 * i + k) / 64 = i := by omega
  have at_ : (64 * i + k) % 64 = k := by omega
  rw [buildTile, read_tabulate]
  rcases out with below | right
  · exact if_neg (by omega)
  · have beyond : ¬k / e < cols := by
      rw [Nat.div_lt_iff_lt_mul (by omega), Nat.mul_comm]; omega
    simp only [at_, if_neg beyond]
    exact ite_self _

end

/-! Flags (R17). -/

/-- Joining flags joins their bits. -/
theorem join_bits (f g : Flags) : (f.join g).bits = f.bits ||| g.bits := by
  obtain ⟨a, b, c, d⟩ := f
  obtain ⟨a', b', c', d'⟩ := g
  revert a b c d a' b' c' d'
  decide

theorem foldl_join_bits (l : List Flags) (f : Flags) (n : Nat) :
    (l.foldl Flags.join f).bits.getLsbD n = true ↔ f.bits.getLsbD n = true ∨ ∃ g ∈ l, g.bits.getLsbD n = true := by
  induction l generalizing f with
  | nil => simp
  | cons g l ih => rw [List.foldl_cons, ih, join_bits]; simp [or_assoc]

theorem orFlags_zero (f : Flags) : orFlags 0 f = f.bits := BitVec.zero_or

/-! Writing a result (R143, R144). -/

/-- The elements of a result and their flags, row by row. -/
def Grid.table (g : Grid) : List (List (Nat × Flags)) := (List.range g.rows).map fun i => (List.range g.cols).map fun j => g.value i j

theorem table_value (g : Grid) {i j : Nat} (hi : i < g.rows) (hj : j < g.cols) : ((Grid.table g).getD i []).getD j (0, {}) = g.value i j := by
  simp [Grid.table, hi, hj]

/-- The flags that a result sets, and its data. -/
def Grid.flags (g : Grid) : Flags := ((Grid.table g).flatten.map Prod.snd).foldl Flags.join {}
def Grid.data (g : Grid) : Memory := buildTile (shapeSize g.shape) g.rows g.cols fun i j => (((Grid.table g).getD i []).getD j (0, {})).1

theorem writeGrid_eq (x : TReg) (g : Grid) (s : State) : writeGrid x g s = setFlags (Grid.flags g) (writeT x (Grid.data g) g.shape s) := rfl

theorem Grid.data_padding (g : Grid) {i k : Nat} (hk : k < 64) (out : g.rows ≤ i ∨ shapeSize g.shape * g.cols ≤ k) :
    (Grid.data g).read (64 * i + k) = 0 := read_buildTile_padding _ (shapeSize_pos _) hk out

theorem flags_bits (g : Grid) (n : Nat) : (Grid.flags g).bits.getLsbD n = true ↔
    ∃ i j, i < g.rows ∧ j < g.cols ∧ (orFlags 0 (g.value i j).2).getLsbD n = true := by
  have none : ({} : Flags).bits.getLsbD n = false := by rw [show ({} : Flags).bits = 0 from rfl]; simp
  simp only [Grid.flags, foldl_join_bits, none, Bool.false_eq_true, false_or, orFlags_zero, Grid.table, List.mem_map, List.mem_flatten, List.mem_range]
  constructor
  · rintro ⟨f, ⟨p, ⟨l, ⟨i, hi, rfl⟩, hp⟩, rfl⟩, h⟩
    obtain ⟨j, hj, rfl⟩ := List.mem_map.mp hp
    exact ⟨i, j, hi, List.mem_range.mp hj, h⟩
  · rintro ⟨i, j, hi, hj, h⟩
    exact ⟨_, ⟨_, ⟨_, ⟨i, hi, rfl⟩, List.mem_map.mpr ⟨j, List.mem_range.mpr hj, rfl⟩⟩, rfl⟩, h⟩

theorem pow_bytes (e : Nat) : 2 ^ (8 * e) = 256 ^ e := by rw [pow_mul]; norm_num

/-- Setting flags leaves the other registers of the context. -/
@[simp] theorem setFlags_tile (f : Flags) (s : State) (t : TReg) : (setFlags f s).tile t = s.tile t := rfl
@[simp] theorem setFlags_sreg (f : Flags) (s : State) (r : SReg) : (setFlags f s).sreg r = s.sreg r := rfl
@[simp] theorem setFlags_sfull (f : Flags) (s : State) (r : SReg) : (setFlags f s).sfull r = s.sfull r := rfl
theorem setFlags_flg (f : Flags) (s : State) : (setFlags f s).hart.r.flg = s.hart.r.flg ||| f.bits := rfl

/-- Settles O31, from the elements, the padding and the flags of a built register. -/
theorem tileWrites : Obligations.TileWrites := by
  intro x g s rows cols
  dsimp only
  rw [writeGrid_eq]
  refine ⟨outside_trans (outside_mod _ s) (outside_mod _ _), ?_, ?_, ?_, fun i j hi hj small => ?_, fun i k hk out => ?_, fun n => ?_, fun y hy => ?_,
    fun r => ⟨rfl, rfl⟩, rfl, rfl, rfl, rfl, rfl⟩
  · rw [setFlags_tile, writeT_tile_same]
  · rw [setFlags_tile, writeT_tile_same]
  · rw [setFlags_tile, writeT_tile_same]; exact Memory.tabulate_wf _ _
  · rw [pow_bytes] at small
    rw [setFlags_tile, writeT_tile_same]
    refine (elem_buildTile (fun i j => (((Grid.table g).getD i []).getD j (0, {})).1) hi hj cols ?_).trans ?_ <;> rw [table_value g hi hj]
    exact small
  · rw [setFlags_tile, writeT_tile_same]; exact Grid.data_padding g hk out
  · rw [setFlags_flg, BitVec.getLsbD_or, Bool.or_eq_true, flags_bits]
    exact Iff.rfl
  · rw [setFlags_tile, writeT_tile_other hy]

/-! The register-file instructions (R125). -/

/-- Settles O32, instruction by instruction. -/
theorem tileRegisterResults : Obligations.TileRegisterResults := by
  intro d a b x y w v s room full own there quiet
  simp only [full_cons, tiles_cons, fullTiles_cons] at full own there
  obtain ⟨ha, hb, -⟩ := full
  obtain ⟨hx, hy, -⟩ := own
  obtain ⟨hf, -⟩ := there
  have tx : Tiles s [x] := by simp [hx]
  have ty : Tiles s [y] := by simp [hy]
  have txy : Tiles s [x, y] := by simp [hx, hy]
  have tshape : Clear (opTshape x a w) s := .of_open room tx (by simp [opTshape, ha])
  have tmov : Clear (opTmov x y w) s := .of_open room txy (by simp [opTmov, hf, quiet])
  have ttr : Clear (opTtr x y w) s := .of_open room txy (by simp [opTtr, hf, quiet])
  have tbc : ∀ byRow, Clear (opTbc byRow x y b w v) s := fun _ => .of_open room txy (by simp [opTbc, hf, hb, quiet])
  have textr : Clear (opTextr d y b w v) s := .of_open room ty (by simp [opTextr, hf, hb])
  have tins : Clear (opTins y a b w v) s := .of_open room ty (by simp [opTins, hf, ha, hb])
  dsimp only
  refine ⟨fun ok => tshape.next ?_, fun bad => ⟨_, tshape.fault (d := none) ?_⟩, Clear.next (.of_open room tx no_srcs) rfl,
    Clear.next (.of_open room tx no_srcs) rfl, ⟨_, tmov.next rfl, fun r k hk => ?_⟩, fun fits => ttr.next ?_, fun no => ⟨none, ttr.fault ?_⟩,
    fun lt => (tbc true).next ?_, fun ge => ⟨none, (tbc true).fault ?_⟩, fun lt => (tbc false).next ?_, fun ge => ⟨none, (tbc false).fault ?_⟩,
    fun inside => textr.next ?_, fun out => ⟨none, textr.fault ?_⟩, fun inside => tins.next ?_, fun out => ⟨none, tins.fault ?_⟩⟩
  · simp only [opTshape, ok, ensure_true, ok_bind]
  · simp only [opTshape, bad, ensure_false, error_bind]
  · rw [read_trim]
    have row : (64 * r + k) / 64 = r := by omega
    have at_ : (64 * r + k) % 64 = k := by omega
    rw [row, at_]; rfl
  · simp only [opTtr, decide_eq_true fits.1, decide_eq_true fits.2, Bool.and_self, ensure_true, ok_bind]
  · rw [opTtr]; dsimp only
    rw [← Bool.decide_and, decide_eq_false no]; rfl
  · simp only [opTbc, if_true, decide_eq_true lt, ensure_true, ok_bind]
  · simp only [opTbc, if_true, decide_eq_false (Nat.not_lt.mpr ge), ensure_false, error_bind]
  · simp only [opTbc, Bool.false_eq_true, if_false, decide_eq_true lt, ensure_true, ok_bind]
  · simp only [opTbc, Bool.false_eq_true, if_false, decide_eq_false (Nat.not_lt.mpr ge), ensure_false, error_bind]
  · have ok : indexOk (s.tile y).shape (indexOf (s.sreg b)) = true := by simp [indexOk, indexOf, inside]
    simp only [opTextr, ok, ensure_true, ok_bind, meetTileWords_quiet quiet, Machine.Num.isInt, decide_eq_true_eq]
    rfl
  · have no : indexOk (s.tile y).shape (indexOf (s.sreg b)) = false := by
      rw [indexOk, ← Bool.decide_and]; exact decide_eq_false out
    simp only [opTextr, no, ensure_false, error_bind]
  · have ok : indexOk (s.tile y).shape (indexOf (s.sreg b)) = true := by simp [indexOk, indexOf, inside]
    simp only [opTins, ok, ensure_true, ok_bind, meetTileWords_quiet quiet]
    rfl
  · have no : indexOk (s.tile y).shape (indexOf (s.sreg b)) = false := by
      rw [indexOk, ← Bool.decide_and]; exact decide_eq_false out
    simp only [opTins, no, ensure_false, error_bind]

end Sys2Proof.Proofs
end

