-- ==== Sys2Proof/Proofs/Rows.lean ====
section
/-! PROOFS. Tile accesses row by row (O34, O35). -/

namespace Sys2Proof.Proofs

open Sys2Proof Sys2Proof.Machine Sys2Proof.Claims

/-! Rows in order (R46, R127). -/

theorem atRow_ok {α : Type} {i : Nat} {r : Run α} {a : α} : atRow i r = .ok a ↔ r = .ok a := by
  rcases r with (_ | _ | _) | _ <;> simp [atRow]

theorem holdRow_ok {α : Type} {i : Nat} {r : Run α} {a : α} : holdRow i r = .ok a ↔ r = .ok a := by
  rcases r with (_ | _ | _) | _ <;> simp [holdRow]

/-- Where all rows complete, what each row keeps holds after the last; then RST is zero. -/
theorem rowsFrom_keeps {f : Nat → State → Run State} {P : Nat → State → Prop} {n i : Nat} {s t : State}
    (h : rowsFrom f (List.range' i n) s = .ok t) (first : P i s)
    (step : ∀ k u v, i ≤ k → k < i + n → P k u → f k u = .ok v → P (k + 1) v) : ∃ u, P (i + n) u ∧ t = clearRst u := by
  induction n generalizing i s with
  | zero => exact ⟨s, first, (Except.ok.inj h).symm⟩
  | succ n ih =>
    rw [List.range'_succ, rowsFrom] at h
    obtain ⟨u, hu, h⟩ := of_bind h
    obtain ⟨v, hv, e⟩ := ih h (step i s u (le_refl i) (by omega) first (atRow_ok.mp hu)) fun k u v lo hi => step k u v (by omega) (by omega)
    exact ⟨v, by rwa [show i + (n + 1) = i + 1 + n by omega], e⟩

/-- Where each row completes and keeps it, all do. -/
theorem rowsFrom_completes {f : Nat → State → Run State} {P : Nat → State → Prop} {n i : Nat} {s : State} (first : P i s)
    (step : ∀ k u, i ≤ k → k < i + n → P k u → ∃ v, f k u = .ok v ∧ P (k + 1) v) :
    ∃ u, rowsFrom f (List.range' i n) s = .ok (clearRst u) ∧ P (i + n) u := by
  induction n generalizing i s with
  | zero => exact ⟨s, rfl, first⟩
  | succ n ih =>
    obtain ⟨u, hu, pu⟩ := step i s (le_refl i) (by omega) first
    obtain ⟨v, hv, pv⟩ := ih pu fun k u lo hi => step k u (by omega) (by omega)
    refine ⟨v, ?_, by rwa [show i + (n + 1) = i + 1 + n by omega]⟩
    rw [List.range'_succ, rowsFrom, atRow_ok.mpr hu]
    exact hv

theorem restRows_zero {s : State} (h : s.rstIdx = 0) (rows : Nat) : restRows s rows = List.range' 0 rows := by
  rw [restRows, h, List.range_eq_range']
  exact List.filter_eq_self.mpr fun i _ => by simp

/-! The instructions, where their rows complete (R127 to R131). -/

section
variable {t : TReg} {p : PReg} {q n : Nat} {k w : Bool} {s s1 : State}

theorem opTileLoad_clear {ro : Bool} {f : Nat} (room : Room s) (own : Tiles s [t]) (old : k = true → (s.tile t).full = true ∧ Quiet s) :
    Clear (opTileLoad ro t p q f k) s := by
  refine .of_open room own fun x hx => ?_
  cases k with
  | false => exact absurd hx List.not_mem_nil
  | true =>
    obtain rfl := List.mem_singleton.mp hx
    exact there_t.mpr (old rfl)

theorem opTlds_clear (room : Room s) (own : Tiles s [t]) (old : k = true → (s.tile t).full = true ∧ Quiet s) : Clear (opTlds t p q n k) s := by
  refine .of_open room own fun x hx => ?_
  cases k with
  | false => exact absurd hx List.not_mem_nil
  | true =>
    obtain rfl := List.mem_singleton.mp hx
    exact there_t.mpr (old rfl)

theorem opTst_clear {f : Nat} (room : Room s) (own : Tiles s [t]) (ready : (s.tile t).full = true ∧ Quiet s) : Clear (opTst t p q f w) s :=
  .of_open room own (by simpa [opTst] using ready)

theorem opTsts_clear (room : Room s) (own : Tiles s [t]) (ready : (s.tile t).full = true ∧ Quiet s) : Clear (opTsts t p q n w) s :=
  .of_open room own (by simpa [opTsts] using ready)

/-- A tile register on its way has its shape, and is empty. -/
theorem produceT_tile_same (t : TReg) (d : Memory) (shape : BitVec 16) (s : State) :
    (produceT t d shape s).tile t = { s.tile t with shape := shape, full := false } := get_set_same _ t _

/-- What a tile load leaves when its rows are done: the tile is there, or on its way. -/
def landed (s : State) (t : TReg) (p : PReg) (q f : Nat) (x : State) : State :=
  let y := setView p (postView (s.view p) q (Machine.Num.size f) (shapeRows (s.tile t).shape) (shapeRb (s.tile t).shape / Machine.Num.size f)) x
  if blockingForm s (s.view p) then y
  else produceT t (y.tile t).data (mkShape f (shapeRb (s.tile t).shape) (shapeRows (s.tile t).shape)) y

/-- A row of a tile load: its wait, then its access. -/
def loadStep (ro : Bool) (s : State) (t : TReg) (p : PReg) (f : Nat) (k : Bool) (i : Nat) (u : State) : Run State :=
  holdRow i (awaitRow (blockingForm s (s.view p)) i u >>=
    loadRow ro t (mkShape f (shapeRb (s.tile t).shape) (shapeRows (s.tile t).shape)) k (s.view p) (Machine.Num.size f)
      (shapeRb (s.tile t).shape / Machine.Num.size f) i)

/-- Of the other registers it sets the view alone; the tile is full, or its data is in flight. -/
theorem landed_view {f : Nat} (x : State) : (landed s t p q f x).view p =
    (postView (s.view p) q (Machine.Num.size f) (shapeRows (s.tile t).shape) (shapeRb (s.tile t).shape / Machine.Num.size f)).toNat := by
  unfold landed
  dsimp only
  split <;> exact congrArg BitVec.toNat (get_set_same _ _ _)

theorem landed_rst {f : Nat} (x : State) : (landed s t p q f x).hart.r.rst = x.hart.r.rst := by
  unfold landed
  dsimp only
  split <;> rfl

theorem landed_tile {f : Nat} {x : State} (shape : (x.tile t).shape = mkShape f (shapeRb (s.tile t).shape) (shapeRows (s.tile t).shape))
    (full : (x.tile t).full = true) :
    (landed s t p q f x).tile t = ⟨(x.tile t).data, mkShape f (shapeRb (s.tile t).shape) (shapeRows (s.tile t).shape), true⟩ ∨
      ((landed s t p q f x).tile t).full = false ∧
        ((landed s t p q f x).tile t).shape = mkShape f (shapeRb (s.tile t).shape) (shapeRows (s.tile t).shape) ∧
        ⟨.treg t (x.tile t).data, 0⟩ ∈ (landed s t p q f x).hart.inflight := by
  unfold landed
  dsimp only
  split
  · left
    rw [← shape, ← full]
    rfl
  · right
    rw [produceT_tile_same]
    exact ⟨rfl, rfl, List.mem_append_right _ List.mem_cons_self⟩

theorem opTileLoad_body {ro : Bool} {f : Nat} (fits : shapeRb (s.tile t).shape % Machine.Num.size f = 0)
    (rows : rowsFrom (loadStep ro s t p f k) (restRows s (shapeRows (s.tile t).shape))
      (openTile t (mkShape f (shapeRb (s.tile t).shape) (shapeRows (s.tile t).shape)) s) = .ok s1) :
    (opTileLoad ro t p q f k).body s = .ok (landed s t p q f s1) := by
  unfold loadStep at rows
  simp only [opTileLoad, fits, beq_self_eq_true, ensure_true, ok_bind, rows]
  rfl

/-- A row of a tile store. -/
def storeStep (s : State) (t : TReg) (p : PReg) (e i : Nat) (u : State) : Run State :=
  holdRow i (awaitRow (blockingForm s (s.view p)) i u >>= storeRow t (s.view p) e (shapeCols (s.tile t).shape) i)

theorem opTst_body {f : Nat} (size : shapeSize (s.tile t).shape = Machine.Num.size f)
    (rows : rowsFrom (storeStep s t p (Machine.Num.size f)) (restRows s (shapeRows (s.tile t).shape)) s = .ok s1) :
    (opTst t p q f w).body s = .ok (setView p (postView (s.view p) q (Machine.Num.size f) (shapeRows (s.tile t).shape)
      (shapeCols (s.tile t).shape)) s1) := by
  unfold storeStep at rows
  simp only [opTst, size, beq_self_eq_true, ensureAt_true, ok_bind, rows]

theorem opTst_format {f : Nat} (size : shapeSize (s.tile t).shape ≠ Machine.Num.size f) :
    (opTst t p q f w).body s = .error (.fault .tileFormat (some (word t.val)) s) := by
  simp only [opTst, beq_false_of_ne size, ensureAt_false, error_bind]

theorem opTlds_body (fits : shapeRb (s.tile t).shape % Machine.Num.size (windowFmt n (shapeFmt (s.tile t).shape)) = 0)
    (handle : viewHandle (s.view p) < 65536)
    (rows : rowsFrom (windowLoadRow t (mkShape (windowFmt n (shapeFmt (s.tile t).shape)) (shapeRb (s.tile t).shape) (shapeRows (s.tile t).shape)) k n
      (s.view p) (Machine.Num.size (windowFmt n (shapeFmt (s.tile t).shape)))
      (shapeRb (s.tile t).shape / Machine.Num.size (windowFmt n (shapeFmt (s.tile t).shape))) s) (restRows s (shapeRows (s.tile t).shape))
      (openTile t (mkShape (windowFmt n (shapeFmt (s.tile t).shape)) (shapeRb (s.tile t).shape) (shapeRows (s.tile t).shape)) s) = .ok s1) :
    (opTlds t p q n k).body s = .ok (setView p (postView (s.view p) q
      (if n = 0 then Machine.Num.size (windowFmt n (shapeFmt (s.tile t).shape)) else 1) (shapeRows (s.tile t).shape)
      (shapeRb (s.tile t).shape / Machine.Num.size (windowFmt n (shapeFmt (s.tile t).shape)))) s1) := by
  simp only [opTlds, fits, Nat.div_eq_of_lt handle, beq_self_eq_true, ensure_true, ok_bind, rows]

theorem opTsts_body (handle : viewHandle (s.view p) < 65536)
    (free : ∀ i ∈ restRows s (shapeRows (s.tile t).shape), regionHeld (windowLoc 0 (s.view p) (shapeSize (s.tile t).shape) i 0)
      (shapeSize (s.tile t).shape * unmasked (s.view p) (shapeCols (s.tile t).shape) i) s = false)
    (rows : rowsFrom (windowStoreRow t (s.view p) (shapeSize (s.tile t).shape) (shapeCols (s.tile t).shape))
      (restRows s (shapeRows (s.tile t).shape)) s = .ok s1) :
    (opTsts t p q 0 w).body s = .ok (setView p (postView (s.view p) q (shapeSize (s.tile t).shape) (shapeRows (s.tile t).shape)
      (shapeCols (s.tile t).shape)) s1) := by
  have idle : ((restRows s (shapeRows (s.tile t).shape)).any fun i => regionHeld (windowLoc 0 (s.view p) (shapeSize (s.tile t).shape) i 0)
      (shapeSize (s.tile t).shape * unmasked (s.view p) (shapeCols (s.tile t).shape) i) s) = false := by
    rw [List.any_eq_false]; exact fun i hi => by rw [free i hi]; exact Bool.false_ne_true
  simp only [opTsts, Nat.div_eq_of_lt handle, idle, beq_self_eq_true, Bool.not_false, ensure_true, ok_bind, rows]

theorem opTsts_window (other : n ≠ 0) : (opTsts t p q n w).body s = .error (.fault .windowStore none s) := by
  simp only [opTsts, beq_false_of_ne other, ensure_false, error_bind]

end

/-! Which bytes a row stores (R127, R131). -/

/-- What a row of a store leaves of its task: its capsule and extents, its core, and its tile registers. -/
structure SameTask (s u : State) : Prop where
  kind : u.hart.kind = s.hart.kind
  cap : u.hart.cap = s.hart.cap
  core : u.hart.core = s.hart.core
  tiles : u.hart.r.t = s.hart.r.t
  caps : u.caps = s.caps

namespace SameTask

theorem refl (s : State) : SameTask s s := ⟨rfl, rfl, rfl, rfl, rfl⟩

theorem trans {s t u : State} (h : SameTask s t) (k : SameTask t u) : SameTask s u :=
  ⟨k.kind.trans h.kind, k.cap.trans h.cap, k.core.trans h.core, k.tiles.trans h.tiles, k.caps.trans h.caps⟩

theorem extents {s t : State} (h : SameTask s t) : t.extents = s.extents := by
  simp only [State.extents, State.capsule, State.cap?, h.kind, h.cap, h.caps]

theorem tile {s t : State} (h : SameTask s t) (x : TReg) : t.tile x = s.tile x := by rw [State.tile, h.tiles, State.tile]

theorem of_readOnly {s t : State} (h : ReadOnly s t) : SameTask s t := by
  unfold ReadOnly at h
  constructor <;> rw [← h] <;> rfl

theorem of_found {s t : State} (h : Found s t) : SameTask s t := of_readOnly h.readOnly

theorem mod_chunk (s : State) (f : Hart → Chunk) : SameTask s (s.mod fun h => { h with chunk := f h }) := ⟨rfl, rfl, rfl, rfl, rfl⟩
theorem pushEffect (s : State) (e : Effect) : SameTask s (pushEffect e s) := mod_chunk s _
theorem buffered (pa : Nat) (bs : List Byte) (s : State) : SameTask s (buffered pa bs s) := ⟨rfl, rfl, rfl, rfl, rfl⟩

end SameTask

/-- Marking blocks as written adds no store, and leaves the task. -/
theorem markWritten_keeps (h : Word) (n : Nat) (s : State) : SameTask s (markWritten h n s) ∧ storesOf (markWritten h n s) = storesOf s := by
  unfold markWritten
  refine foldl_keeps (P := fun u => SameTask s u ∧ storesOf u = storesOf s) (fun u d hu => ?_) _ ⟨.refl s, rfl⟩
  split
  · exact hu
  · refine ⟨hu.1.trans (.pushEffect u _), Eq.trans ?_ hu.2⟩
    simp [storesOf, pushEffect]

/-- What a store of a task that completes has done. -/
theorem store_task {h : Word} {bs : List Byte} {use : Use} {s t : State} (task : s.hart.kind = .task) (k : store h bs use s = .ok t) :
    ∃ e : Extent, s.extents[h.toNat / 2 ^ 56]? = some e ∧ SameTask s t ∧ storesOf t = storesOf s ++ [(e.base + h.toNat % 2 ^ 56, bs)] := by
  have pages : pagesOf s h bs.length = [(h, bs.length)] := if_neg (by simp [task])
  rw [store, pages, storeParts] at k
  obtain ⟨⟨pa, u⟩, hu, k⟩ := of_bind k
  obtain ⟨v, hv, k⟩ := of_bind k
  obtain rfl := Except.ok.inj k
  have read := ReadOnly.reach hu
  have same := SameTask.of_readOnly read
  rw [List.take_length, storeAt_task (same.kind.trans task)] at hv
  obtain ⟨x, hx, -, -, rfl⟩ := bufferStore_ok hv
  have found := Found.awaitUnits hx
  obtain ⟨marked, stores⟩ := markWritten_keeps h bs.length (buffered pa bs x)
  obtain ⟨e, he, rfl⟩ := reach_extent task hu
  refine ⟨e, he, ((same.trans (.of_found found)).trans (.buffered _ bs x)).trans marked, stores.trans ?_⟩
  have effects : x.hart.chunk.effects = s.hart.chunk.effects := by rw [found.hart, read.effects]
  simp [storesOf, buffered, pushEffect, noteWrite, effects]

/-- A row that is to wait no more leaves the context as it is. -/
theorem awaitRow_hart {b : Bool} {i : Nat} {s u : State} (h : awaitRow b i s = .ok u) : u.hart = s.hart ∧ SameTask s u := by
  unfold awaitRow at h
  dsimp only at h
  split at h
  · split at h
    · cases h
    · cases h; exact ⟨rfl, rfl, rfl, rfl, rfl, rfl⟩
  · cases h; exact ⟨rfl, .refl s⟩

section
variable (t : TReg) (v z c : Nat) (s : State)

/-- The stores that the first `n` rows of a TST bring (R127), and the first `n` of a TSTS (R131). -/
def rowStores (e : Nat → Extent) (n : Nat) : List (Nat × List Byte) :=
  (List.range n).filterMap fun i => if unmasked v c i = 0 then none
    else some ((e i).base + (rowHandle v z i).toNat % 2 ^ 56, (s.tile t).data.readBytes (64 * i) (z * unmasked v c i))

def rowPadStores (n : Nat) : List (Nat × Nat × List Byte) :=
  (List.range n).filterMap fun i => if unmasked v c i = 0 then none
    else some (s.hart.core, windowLoc 0 v z i 0, (s.tile t).data.readBytes (64 * i) (z * unmasked v c i))

end

section
variable {t : TReg} {v z c n : Nat} {s s1 : State} (task : s.hart.kind = .task)
include task

/-- One more row of a TST. -/
theorem storeRow_stores {b : Bool} {u w : State} {e : Nat → Extent}
    (at_ : unmasked v c n ≠ 0 → s.extents[(rowHandle v z n).toNat / 2 ^ 56]? = some (e n))
    (before : SameTask s u ∧ storesOf u = storesOf s ++ rowStores t v z c s e n)
    (h : holdRow n (awaitRow b n u >>= storeRow t v z c n) = .ok w) : SameTask s w ∧ storesOf w = storesOf s ++ rowStores t v z c s e (n + 1) := by
  obtain ⟨same, stores⟩ := before
  obtain ⟨x, hx, h⟩ := of_bind (holdRow_ok.mp h)
  obtain ⟨hart, woken⟩ := awaitRow_hart hx
  have same := same.trans woken
  have awake : storesOf x = storesOf u := by rw [storesOf, hart, storesOf]
  rw [rowStores, List.range_succ, List.filterMap_append, ← rowStores, ← List.append_assoc, ← stores, ← awake]
  unfold storeRow at h
  dsimp only at h
  split at h
  · next zero =>
    cases h
    exact ⟨same, by simp [zero]⟩
  · next some =>
    obtain ⟨d, hd, kept, more⟩ := store_task (same.kind.trans task) h
    rw [same.extents, at_ some] at hd
    obtain rfl := Option.some.inj hd
    exact ⟨same.trans kept, by rw [more, same.tile]; simp [some]⟩

theorem storeRows_stores {b : Bool} {e : Nat → Extent}
    (at_ : ∀ i < n, unmasked v c i ≠ 0 → s.extents[(rowHandle v z i).toNat / 2 ^ 56]? = some (e i))
    (rows : rowsFrom (fun i u => holdRow i (awaitRow b i u >>= storeRow t v z c i)) (List.range' 0 n) s = .ok s1) :
    storesOf s1 = storesOf s ++ rowStores t v z c s e n := by
  obtain ⟨u, ⟨-, stores⟩, rfl⟩ := rowsFrom_keeps (P := fun k u => SameTask s u ∧ storesOf u = storesOf s ++ rowStores t v z c s e k) rows
    ⟨.refl s, (List.append_nil _).symm⟩ fun k u w _ hk before h => storeRow_stores task (at_ k (by omega)) before h
  rw [Nat.zero_add] at stores
  exact stores

/-- One more row of a TSTS. -/
theorem windowStoreRow_stores {u w : State} (before : SameTask s u ∧ padStoresOf u = padStoresOf s ++ rowPadStores t v z c s n)
    (h : windowStoreRow t v z c n u = .ok w) : (unmasked v c n ≠ 0 → windowLoc 0 v z n 0 + z * unmasked v c n ≤ 65536) ∧
    SameTask s w ∧ padStoresOf w = padStoresOf s ++ rowPadStores t v z c s (n + 1) := by
  obtain ⟨same, stores⟩ := before
  rw [rowPadStores, List.range_succ, List.filterMap_append, ← rowPadStores, ← List.append_assoc, ← stores]
  unfold windowStoreRow at h
  dsimp only at h
  split at h
  · next zero =>
    cases h
    exact ⟨fun ne => absurd zero ne, same, by simp [zero]⟩
  · next some =>
    obtain ⟨_, fits, h⟩ := of_bind h
    have inside : windowLoc 0 v z n 0 + z * unmasked v c n ≤ 65536 := by
      by_contra no
      rw [decide_eq_false no] at fits
      exact nomatch fits
    rw [storePad, if_pos (same.kind.trans task), bufferPad] at h
    dsimp only at h
    split at h
    · cases h
    · cases h
      exact ⟨fun _ => inside, same.trans ⟨rfl, rfl, rfl, rfl, rfl⟩, by simp [padStoresOf, pushEffect, some, same.core, same.tile]⟩

theorem windowStoreRows_stores (rows : rowsFrom (windowStoreRow t v z c) (List.range' 0 n) s = .ok s1) :
    (∀ i < n, unmasked v c i ≠ 0 → windowLoc 0 v z i 0 + z * unmasked v c i ≤ 65536) ∧
    padStoresOf s1 = padStoresOf s ++ rowPadStores t v z c s n := by
  obtain ⟨u, ⟨inside, -, stores⟩, rfl⟩ := rowsFrom_keeps
    (P := fun k u => (∀ i < k, unmasked v c i ≠ 0 → windowLoc 0 v z i 0 + z * unmasked v c i ≤ 65536) ∧
      SameTask s u ∧ padStoresOf u = padStoresOf s ++ rowPadStores t v z c s k) rows
    ⟨fun i hi => absurd hi (Nat.not_lt_zero i), .refl s, (List.append_nil _).symm⟩ fun k u w _ _ before h => by
      have next := windowStoreRow_stores task before.2 h
      refine ⟨fun i hi ne => ?_, next.2⟩
      rcases Nat.lt_succ_iff_lt_or_eq.mp hi with lt | rfl
      · exact before.1 i lt ne
      · exact next.1 ne
  rw [Nat.zero_add] at inside stores
  exact ⟨inside, stores⟩

end

/-! What tile loads leave in their tile (R127, R130). -/

/-- Elements that have the same bytes are the same. -/
theorem elem_congr {m m' : Memory} {e i j : Nat} (h : ∀ q < e, m.read (64 * i + e * j + q) = m'.read (64 * i + e * j + q)) :
    elem m e i j = elem m' e i j :=
  congrArg leNat (List.map_congr_left fun q hq => h q (List.mem_range.mp hq))

theorem leNat_zeros {l : List Byte} (h : ∀ b ∈ l, b = 0) : leNat l = 0 := by
  induction l with
  | nil => rfl
  | cons b l ih =>
    rw [leNat, h b List.mem_cons_self, ih fun c hc => h c (List.mem_cons_of_mem _ hc)]
    rfl

/-- A load of a tile: its register and shape, what stood there, how many columns of each row are unmasked, and what each of these is to hold. -/
structure TileLoad where
  t : TReg
  shape : BitVec 16
  keep : Bool
  old : Memory
  z : Nat
  rows : Nat
  cols : Nat
  live : Nat → Nat
  val : Nat → Nat → Nat

/-- What the load leaves in an element. -/
def TileLoad.value (l : TileLoad) (i j : Nat) : Nat := if j < l.live i then l.val i j else if l.keep then elem l.old l.z i j else 0

/-- The first `n` rows have landed, and the others are as they were. -/
structure TileLoad.Landed (l : TileLoad) (n : Nat) (x : Tile) : Prop where
  shape : x.shape = l.shape
  full : x.full = true
  wf : x.data.wf = true
  done : ∀ i j, i < n → i < l.rows → j < l.cols → elem x.data l.z i j = l.value i j
  rest : ∀ i j, n ≤ i → i < l.rows → j < l.cols → elem x.data l.z i j = elem l.old l.z i j

theorem shapeRows_mkShape {f rb rows : Nat} (hr : 1 ≤ rows ∧ rows ≤ 64) : shapeRows (mkShape f rb rows) = rows := by
  simp only [shapeRows, mkShape, bitsOf, BitVec.toNat_ofNat]
  omega

theorem shapeRb_mkShape {f rb rows : Nat} (hb : 1 ≤ rb ∧ rb ≤ 64) (hr : 1 ≤ rows ∧ rows ≤ 64) : shapeRb (mkShape f rb rows) = rb := by
  simp only [shapeRb, mkShape, bitsOf, BitVec.toNat_ofNat]
  omega

theorem shapeRb_bounds (v : BitVec 16) : 1 ≤ shapeRb v ∧ shapeRb v ≤ 64 := by
  simp only [shapeRb, bitsOf]
  omega

theorem shapeRows_bounds (v : BitVec 16) : 1 ≤ shapeRows v ∧ shapeRows v ≤ 64 := by
  simp only [shapeRows, bitsOf]
  omega

section
variable {l : TileLoad} {n : Nat} {s : State}

/-- Before its first row, a load leaves the elements as they were. -/
theorem landed_openTile (fits : l.z * l.cols ≤ shapeRb l.shape) (rows : shapeRows l.shape = l.rows) (old : (s.tile l.t).data = l.old)
    (wf : l.old.wf = true) : l.Landed 0 ((openTile l.t l.shape s).tile l.t) := by
  have small : l.z * l.cols ≤ 64 := fits.trans (shapeRb_bounds _).2
  rw [openTile, writeT_tile_same]
  refine ⟨rfl, rfl, ?_, fun i j hi => absurd hi (Nat.not_lt_zero i), fun i j _ hi hj => elem_congr fun q hq => ?_⟩
  · rw [old]; exact Memory.filter_wf _ wf
  · obtain ⟨row, at_, col, -⟩ := element_place (i := i) hj hq small
    have inside : l.z * j + q < l.z * l.cols := calc
      l.z * j + q < l.z * (j + 1) := by rw [Nat.mul_succ]; omega
      _ ≤ l.z * l.cols := Nat.mul_le_mul_left _ hj
    rw [read_trim, if_pos ⟨by rw [row, rows]; exact hi, by rw [at_]; omega⟩, old]

/-- The tile as a row finds it: with that row cleared, but for `.k`. -/
def TileLoad.found (l : TileLoad) (n : Nat) (m : Memory) : Memory := if l.keep then m else m.clear (64 * n) 64

theorem found_wf {m : Memory} (h : m.wf = true) : (l.found n m).wf = true := by
  unfold TileLoad.found
  split
  · exact h
  · exact Memory.clear_wf _ _ h

theorem found_other {m : Memory} {a : Nat} (h : a / 64 ≠ n) : (l.found n m).read a = m.read a := by
  unfold TileLoad.found
  split
  · rfl
  · rw [Memory.read_clear, if_neg (by omega)]

/-- An element of a masked column: what stood there with `.k`, else zero. -/
theorem elem_found {m : Memory} {j : Nat} (small : l.z * l.cols ≤ 64) (hj : j < l.cols) :
    elem (l.found n m) l.z n j = if l.keep then elem m l.z n j else 0 := by
  unfold TileLoad.found
  split
  · rfl
  · refine leNat_zeros fun b hb => ?_
    obtain ⟨q, hq, rfl⟩ := List.mem_map.mp hb
    obtain ⟨row, -⟩ := element_place (i := n) hj (List.mem_range.mp hq) small
    rw [Memory.read_clear, if_pos (by omega)]
    rfl

/-- An element of bytes that were written: the chunk of them in its place. -/
theorem elem_writeBytes {m : Memory} {bs : List Byte} {z j : Nat} (wf : m.wf = true) (top : z * j + z ≤ bs.length) :
    elem (m.writeBytes (64 * n) bs) z n j = leNat ((bs.drop (z * j)).take z) := by
  refine congrArg leNat (List.ext_getElem ?_ fun q h1 h2 => ?_)
  · simp [Memory.readBytes]; omega
  · have hq : q < z := by simpa [Memory.readBytes] using h1
    simp only [Memory.readBytes, List.getElem_map, List.getElem_range, List.getElem_take, List.getElem_drop]
    rw [Nat.add_assoc, Memory.read_writeBytes_same _ _ _ wf (by omega)]

/-- A row that lands. -/
theorem landed_landRow {bs : List Byte} (h : l.Landed n (s.tile l.t)) (small : l.z * l.cols ≤ 64) (live : l.live n ≤ l.cols)
    (length : bs.length = l.z * l.live n) (val : ∀ j < l.live n, leNat ((bs.drop (l.z * j)).take l.z) = l.val n j) :
    l.Landed (n + 1) ((landRow l.t l.shape l.keep n bs s).tile l.t) := by
  obtain ⟨-, -, wf, done, rest⟩ := h
  rw [landRow, writeT_tile_same, ← TileLoad.found]
  generalize (s.tile l.t).data = m at *
  have short : l.z * l.live n ≤ l.z * l.cols := Nat.mul_le_mul_left _ live
  have others : ∀ i j, i ≠ n → j < l.cols → elem ((l.found n m).writeBytes (64 * n) bs) l.z i j = elem m l.z i j := by
    refine fun i j hi hj => elem_congr fun q hq => ?_
    obtain ⟨row, -⟩ := element_place (i := i) hj hq small
    rw [Memory.read_writeBytes_other _ _ (by omega), found_other (by rwa [row])]
  refine ⟨rfl, rfl, Memory.writeBytes_wf _ _ (found_wf wf), fun i j hi hr hj => ?_, fun i j hi hr hj => ?_⟩
  · rcases Nat.lt_succ_iff_lt_or_eq.mp hi with lt | rfl
    · exact (others i j (by omega) hj).trans (done i j lt hr hj)
    · by_cases lt : j < l.live i
      · have top : l.z * j + l.z ≤ bs.length := by
          rw [length, ← Nat.mul_succ]; exact Nat.mul_le_mul_left _ lt
        rw [TileLoad.value, if_pos lt, ← val j lt]
        exact elem_writeBytes (found_wf wf) top
      · have right := Nat.mul_le_mul_left l.z (Nat.not_lt.mp lt)
        rw [TileLoad.value, if_neg lt, ← rest i j (le_refl i) hr hj, ← elem_found small hj]
        exact elem_congr fun q hq => Memory.read_writeBytes_other _ _ (by omega)
  · exact (others i j (by omega) hj).trans (rest i j (by omega) hr hj)

end

/-! What a window gives (R116, R117, R130). -/

/-- Chunks of one length, one by one. -/
theorem flatten_chunk {α : Type} {f : Nat → List α} {z : Nat} (len : ∀ j, (f j).length = z) (n : Nat) :
    (((List.range n).map f).flatten).length = z * n ∧ ∀ j < n, (((List.range n).map f).flatten.drop (z * j)).take z = f j := by
  induction n with
  | zero => simp
  | succ n ih =>
    obtain ⟨total, chunk⟩ := ih
    rw [List.range_succ, List.map_append, List.flatten_append]
    refine ⟨by simp [total, len, Nat.mul_succ], fun j hj => ?_⟩
    rcases Nat.lt_succ_iff_lt_or_eq.mp hj with lt | rfl
    · have room : z * j + z ≤ z * n := by rw [← Nat.mul_succ]; exact Nat.mul_le_mul_left z lt
      rw [List.drop_append_of_le_length (by omega), List.take_append_of_le_length (by rw [List.length_drop]; omega), chunk j lt]
    · rw [← total, List.drop_left]
      simp [← len j]

/-- The sum of the planes that a window reads, and its value as R116 has it. -/
def planes (c : Nat) (b : Nat → Bool) : Nat := (List.range c).foldl (fun acc q => acc + if b q then 2 ^ (7 - q) else 0) 0

def planesValue (c : Nat) (restore : Bool) (b : Nat → Bool) : Nat :=
  ((-128 * (if b 0 then (1 : Int) else 0) + ((List.range' 1 (c - 1)).map fun q => 2 ^ (7 - q) * (if b q then (1 : Int) else 0)).sum +
    (if restore = true ∧ c < 8 then 2 ^ (7 - c) else 0)) % 256).toNat

theorem planes_eight (b : Nat → Bool) : Machine.Num.ofSigned 8 (Machine.Num.npValue (planes 8 b) 8 false) = planesValue 8 false b := by
  simp only [planes, planesValue, List.range, List.range.loop, List.range', List.foldl, List.map, List.sum_cons, List.sum_nil]
  generalize b 0 = b0; generalize b 1 = b1; generalize b 2 = b2; generalize b 3 = b3
  generalize b 4 = b4; generalize b 5 = b5; generalize b 6 = b6; generalize b 7 = b7
  revert b0 b1 b2 b3 b4 b5 b6 b7
  decide

theorem planes_four (restore : Bool) (b : Nat → Bool) : Machine.Num.ofSigned 8 (Machine.Num.npValue (planes 4 b) 4 restore) = planesValue 4 restore b := by
  simp only [planes, planesValue, List.range, List.range.loop, List.range', List.foldl, List.map, List.sum_cons, List.sum_nil]
  generalize b 0 = b0; generalize b 1 = b1; generalize b 2 = b2; generalize b 3 = b3
  revert restore b0 b1 b2 b3
  decide

theorem planes_two (b : Nat → Bool) : Machine.Num.ofSigned 8 (Machine.Num.npValue (planes 2 b) 2 false) = planesValue 2 false b := by
  simp only [planes, planesValue, List.range, List.range.loop, List.range', List.foldl, List.map, List.sum_cons, List.sum_nil]
  generalize b 0 = b0; generalize b 1 = b1
  revert b0 b1
  decide

/-- A rounded FP32 pattern has 32 bits. -/
theorem roundFp_single_lt (x : Machine.Num.Val) : (Machine.Num.roundFp 5 .rne x).1 < 2 ^ 32 := by
  cases x with
  | nan sig => exact show (0x7FC00000 : Nat) < 2 ^ 32 by norm_num
  | inf neg => cases neg <;> simp [Machine.Num.roundFp, Machine.Num.fpOf]
  | fin neg m e =>
    simp only [Machine.Num.roundFp]
    have sign : (if neg = true then (Machine.Num.fpOf 5).sign else 0) ≤ 0x80000000 := by
      cases neg
      · exact Nat.zero_le _
      · exact le_refl _
    have inf : (Machine.Num.fpOf 5).inf = 0x7F800000 := rfl
    split
    · have top : Machine.Num.overflow (Machine.Num.fpOf 5) .rne neg = 0x7F800000 := rfl
      simp only [top]
      omega
    · next small =>
      rw [inf] at small
      dsimp only
      omega

theorem toSigned_ofSigned_byte (v : Nat) (h : v < 256) :
    Machine.Num.ofSigned 32 (Machine.Num.toSigned 8 v) = if v < 128 then v else v + (2 ^ 32 - 256) := by
  simp only [Machine.Num.ofSigned, Machine.Num.toSigned]
  norm_num
  rw [Nat.mod_eq_of_lt h]
  split
  · omega
  · omega

/-- The bits of the planes of a location. -/
def planeBit (s : State) (m q : Nat) : Bool := (viewPad s (8192 * q + m / 8)).getLsbD (m % 8)

theorem planes_bytes (s : State) (m c : Nat) :
    (List.range (((List.range c).map fun q => 8192 * q + m / 8).map (viewPad s)).length).foldl (fun acc q => acc +
      (if bitOf ((((List.range c).map fun q => 8192 * q + m / 8).map (viewPad s)).getD q 0).toNat (m % 8) then 2 ^ (7 - q) else 0)) 0 =
    planes c (planeBit s m) := by
  rw [planes, List.length_map, List.length_map, List.length_range]
  refine List.foldl_ext _ _ _ fun acc q hq => ?_
  have lt : q < c := List.mem_range.mp hq
  rw [bitOf_toNat]
  simp only [planeBit, List.getD_eq_getElem?_getD, List.getElem?_map, List.getElem?_range lt, Option.map_some, Option.getD_some]
  rfl

/-- A window gives the element that R116, R117 and R130 name. -/
theorem windowValue_eq {n : Nat} (hn : n < 8) (s : State) (e m : Nat) :
    windowValue n m ((windowBytes n e m).map (viewPad s)) = windowElement s n e m := by
  have weights : ∀ c, (List.range (((List.range c).map fun q => 8192 * q + m / 8).map (viewPad s)).length).foldl (fun acc q => acc +
      (if bitOf ((((List.range c).map fun q => 8192 * q + m / 8).map (viewPad s)).getD q 0).toNat (m % 8) then 2 ^ (7 - q) else 0)) 0 =
    planes c (planeBit s m) := planes_bytes s m
  match n, hn with
  | 0, _ => simp only [windowValue, windowBytes, windowElement, List.range'_eq_map_range, List.map_map]; rfl
  | 1, _ => exact (congrArg (fun x => Machine.Num.ofSigned 8 (Machine.Num.npValue x 8 false)) (weights 8)).trans (planes_eight _)
  | 2, _ => exact (congrArg (fun x => Machine.Num.ofSigned 8 (Machine.Num.npValue x 4 false)) (weights 4)).trans (planes_four false _)
  | 3, _ => exact (congrArg (fun x => Machine.Num.ofSigned 8 (Machine.Num.npValue x 2 false)) (weights 2)).trans (planes_two _)
  | 4, _ => exact (congrArg (fun x => Machine.Num.ofSigned 8 (Machine.Num.npValue x 4 true)) (weights 4)).trans (planes_four true _)
  | 5, _ => simp [windowValue, windowBytes, windowElement, leNat]
  | 6, _ => simp [windowValue, windowBytes, windowElement, leNat]
  | 7, _ =>
    simp only [windowValue, windowBytes, windowElement, List.map_cons, List.map_nil, leNat, Nat.mul_zero, Nat.add_zero]
    exact toSigned_ofSigned_byte _ (BitVec.isLt _)

/-- It fits the format that TLDS writes. -/
theorem windowElement_lt {n : Nat} (hn : n < 8) (s : State) (f m : Nat) :
    windowElement s n (Machine.Num.size (windowFmt n f)) m < 256 ^ Machine.Num.size (windowFmt n f) := by
  match n, hn with
  | 0, _ => exact (leNat_lt _).trans_eq (by simp)
  | 1, _ | 2, _ | 3, _ | 4, _ =>
    simp only [windowElement, windowFmt, Machine.Num.size, pow_one]
    omega
  | 5, _ | 6, _ => exact (roundFp_single_lt _).trans_eq (by norm_num [windowFmt, Machine.Num.size])
  | 7, _ =>
    have := (viewPad s m).isLt
    simp only [windowElement, windowFmt, Machine.Num.size]
    split <;> omega

theorem windowBytes_length (n e m : Nat) : (windowBytes n e m).length = (windowBytes n e 0).length := by
  unfold windowBytes
  split <;> simp

/-- What reads of scratchpads need to be alike in two states. -/
structure SamePads (s u : State) : Prop where
  effects : u.hart.chunk.effects = s.hart.chunk.effects
  core : u.hart.core = s.hart.core
  cores : u.cores = s.cores
  clusters : u.clusters = s.clusters
  sram : u.sram = s.sram
  poison : u.padPoison = s.padPoison

namespace SamePads

theorem refl (s : State) : SamePads s s := ⟨rfl, rfl, rfl, rfl, rfl, rfl⟩

theorem trans {s t u : State} (h : SamePads s t) (k : SamePads t u) : SamePads s u :=
  ⟨k.effects.trans h.effects, k.core.trans h.core, k.cores.trans h.cores, k.clusters.trans h.clusters, k.sram.trans h.sram,
    k.poison.trans h.poison⟩

theorem viewPad {s u : State} (h : SamePads s u) (a : Nat) : viewPad u a = viewPad s a := by
  simp only [Machine.viewPad, State.core, h.effects, h.core, h.cores]

theorem quiet {s u : State} (h : SamePads s u) (q : Quiet s) : Quiet u := by
  simpa only [Quiet, State.cluster, State.here, h.core, h.clusters] using q

end SamePads

/-- Where nothing is wrong with the scratchpads, a read of bytes of one gives them, and changes the chunk alone. -/
theorem loadPad_bytes {s : State} (q : Quiet s) (clean : s.padPoison = []) (sound : s.sram = []) (a n : Nat) :
    loadPad a n s = .ok ((List.range n).map fun i => viewPad s (a + i), notePadRead a n s) := by
  have met : meetPad s.partition s.hart.core a n s = s := by
    rw [meetPad, meetSram, sound]
    exact if_pos (Option.isNone_iff_eq_none.mpr q)
  simp [loadPad, met, clean]

theorem loadPads_bytes {s u : State} (q : Quiet s) (clean : s.padPoison = []) (sound : s.sram = []) (same : SamePads s u) (l : List Nat) :
    ∃ w, loadPads l u = .ok (l.map (viewPad s), w) ∧ SamePads s w ∧ w.hart.r = u.hart.r := by
  induction l generalizing u with
  | nil => exact ⟨u, rfl, same, rfl⟩
  | cons a l ih =>
    have noted : SamePads s (notePadRead a 1 u) := same.trans ⟨rfl, rfl, rfl, rfl, rfl, rfl⟩
    obtain ⟨w, hw, sw, rw'⟩ := ih noted
    refine ⟨w, ?_, sw, rw'⟩
    rw [loadPads, loadPad_bytes (same.quiet q) (same.poison.trans clean) (same.sram.trans sound), ok_bind]
    dsimp only
    rw [hw, ok_bind]
    simp [List.range_one, same.viewPad]

section
variable {t : TReg} {k : Bool} {n v e c i : Nat} {shape : BitVec 16} {s : State}

/-- What a TLDS is to bring: the elements that its window gives (R130). -/
def windowLoad (s : State) (t : TReg) (shape : BitVec 16) (k : Bool) (n v e c : Nat) : TileLoad :=
  { t := t, shape := shape, keep := k, old := (s.tile t).data, z := e, rows := shapeRows shape, cols := c, live := unmasked v c,
    val := fun i j => windowElement s n e (windowLoc n v e i j) }

theorem unmasked_le (v c i : Nat) : unmasked v c i ≤ c := by
  unfold unmasked
  split
  · exact Nat.min_le_left _ _
  · exact Nat.zero_le _

/-- A row of a TLDS that completes brings its elements. -/
theorem windowLoadRow_landed {s0 u w : State} (hn : n < 8) (q : Quiet s) (clean : s.padPoison = []) (sound : s.sram = [])
    (small : e * c ≤ 64) (fits : ∀ m, windowElement s n e m < 256 ^ e) (same : SamePads s u)
    (before : (windowLoad s t shape k n v e c).Landed i (u.tile t)) (h : windowLoadRow t shape k n v e c s0 i u = .ok w) :
    SamePads s w ∧ (windowLoad s t shape k n v e c).Landed (i + 1) (w.tile t) := by
  rw [windowLoadRow] at h
  obtain ⟨-, -, h⟩ := of_bind h
  split at h
  · cases h
  · obtain ⟨x, hx, sx, rx⟩ := loadPads_bytes q clean sound same (windowRow n v e c i)
    rw [hx, ok_bind] at h
    cases h
    have chunk : ∀ j < unmasked v c i, (((windowRow n v e c i).map (viewPad s)).drop ((windowBytes n e 0).length * j)).take (windowBytes n e 0).length =
        (windowBytes n e (windowLoc n v e i j)).map (viewPad s) := by
      intro j hj
      rw [← List.map_drop, ← List.map_take, windowRow,
        (flatten_chunk (f := fun j => windowBytes n e (windowLoc n v e i j)) (fun j => windowBytes_length n e _) _).2 j hj]
    obtain ⟨total, each⟩ := flatten_chunk (f := fun j => leBytes e (windowValue n (windowLoc n v e i j)
      ((((windowRow n v e c i).map (viewPad s)).drop ((windowBytes n e 0).length * j)).take (windowBytes n e 0).length)))
      (fun j => leBytes_length _ _) (unmasked v c i)
    have tile : x.tile t = u.tile t := by rw [State.tile, rx, State.tile]
    refine ⟨sx.trans ⟨rfl, rfl, rfl, rfl, rfl, rfl⟩, landed_landRow (l := windowLoad s t shape k n v e c) ?_ small (unmasked_le v c i) total
      fun j hj => ?_⟩
    · show (windowLoad s t shape k n v e c).Landed i (x.tile t)
      rw [tile]; exact before
    · refine (congrArg leNat (each j hj)).trans ?_
      rw [leNat_leBytes, chunk j hj, windowValue_eq hn, Nat.mod_eq_of_lt (fits _)]
      rfl

/-- All rows of a TLDS. -/
theorem windowLoadRows_landed {s1 : State} {r : Nat} (hn : n < 8) (q : Quiet s) (clean : s.padPoison = []) (sound : s.sram = [])
    (inside : e * c ≤ shapeRb shape) (fits : ∀ m, windowElement s n e m < 256 ^ e) (wf : (s.tile t).data.wf = true)
    (rows : rowsFrom (windowLoadRow t shape k n v e c s) (List.range' 0 r) (openTile t shape s) = .ok s1) :
    (windowLoad s t shape k n v e c).Landed r (s1.tile t) := by
  have small := inside.trans (shapeRb_bounds shape).2
  obtain ⟨u, ⟨-, landed⟩, rfl⟩ := rowsFrom_keeps (P := fun i u => SamePads s u ∧ (windowLoad s t shape k n v e c).Landed i (u.tile t)) rows
    ⟨⟨rfl, rfl, rfl, rfl, rfl, rfl⟩, landed_openTile (l := windowLoad s t shape k n v e c) inside rfl rfl wf⟩
    fun i u w _ _ before h => windowLoadRow_landed hn q clean sound small fits before.1 before.2 h
  rw [Nat.zero_add] at landed
  exact landed

end

theorem windowFmt_eq (n : BitVec 3) (f : Nat) : windowFmt n.toNat f = if n = 0 then f else if n = 5 ∨ n = 6 then 5 else if n = 7 then 2 else 0 := by
  obtain ⟨⟨n, hn⟩⟩ := n
  interval_cases n <;> rfl

theorem windowFmt_lt (n : Nat) (v : BitVec 16) : windowFmt n (shapeFmt v) < 16 := by
  have := bitsOf_lt v.toNat 15 12
  unfold windowFmt shapeFmt
  split <;> omega

theorem toNat_eq_zero_iff {w : Nat} (n : BitVec w) : n.toNat = 0 ↔ n = 0 := by
  rw [← BitVec.toNat_inj]
  simp

/-- A view whose handle has no bits above the scratchpad addresses. -/
theorem handle_small {v : Nat} (h : bitsOf v 63 16 = 0) : viewHandle v < 65536 := by
  simp only [viewHandle, bitsOf] at h ⊢
  omega

theorem handle_low (v : Nat) : viewHandle v % 65536 = bitsOf v 15 0 := by
  simp only [viewHandle, bitsOf]
  omega

/-- Columns of the size e within rb bytes. -/
theorem columns_fit (e rb : Nat) : e * (rb / e) ≤ rb := Nat.mul_div_le rb e

/-- TLDS, where its rows complete. -/
theorem exec_tlds {t : TReg} {p : PReg} {q : BitVec 2} {n : BitVec 3} {k : Bool} {s s1 : State} (room : Room s) (own : Tiles s [t])
    (old : k = true → (s.tile t).full = true ∧ Quiet s)
    (fits : shapeRb (s.tile t).shape % Machine.Num.size (windowFmt n.toNat (shapeFmt (s.tile t).shape)) = 0) (handle : viewHandle (s.view p) < 65536)
    (rows : rowsFrom (windowLoadRow t (mkShape (windowFmt n.toNat (shapeFmt (s.tile t).shape)) (shapeRb (s.tile t).shape) (shapeRows (s.tile t).shape))
      k n.toNat (s.view p) (Machine.Num.size (windowFmt n.toNat (shapeFmt (s.tile t).shape)))
      (shapeRb (s.tile t).shape / Machine.Num.size (windowFmt n.toNat (shapeFmt (s.tile t).shape))) s) (restRows s (shapeRows (s.tile t).shape))
      (openTile t (mkShape (windowFmt n.toNat (shapeFmt (s.tile t).shape)) (shapeRb (s.tile t).shape) (shapeRows (s.tile t).shape)) s) = .ok s1) :
    exec (.tlds t p q n k) s = .next (retire (setView p (postView (s.view p) q.toNat
      (if n = 0 then Machine.Num.size (windowFmt n.toNat (shapeFmt (s.tile t).shape)) else 1) (shapeRows (s.tile t).shape)
      (shapeRb (s.tile t).shape / Machine.Num.size (windowFmt n.toNat (shapeFmt (s.tile t).shape)))) s1)) := by
  have done := (opTlds_clear (p := p) (q := q.toNat) room own old).next (i := .tlds t p q n k) (opTlds_body fits handle rows)
  simp only [toNat_eq_zero_iff] at done
  exact done

/-- Settles the bytes of O34, row by row. -/
theorem rowBytes (t : TReg) (p : PReg) (q : BitVec 2) (f n : BitVec 3) (k w : Bool) (s s1 : State) (room : Room s) (own : Tiles s [t])
    (task : s.hart.kind = .task) (zero : s.rstIdx = 0) : RowBytes t p q f n k w s s1 := by
  have rest := restRows_zero zero
  refine ⟨fun ready size e at_ rows => ⟨?_, ?_⟩, fun ready win handle free rows => ⟨?_, ?_⟩, fun old quiet fits handle wf clean sound rows => ?_⟩
  · have cols : shapeRb (s.tile t).shape / Machine.Num.size f.toNat = shapeCols (s.tile t).shape := by rw [shapeCols, size]
    rw [cols] at rows ⊢
    exact (opTst_clear room own ready).next (opTst_body size rows)
  · rw [rest] at rows
    exact storeRows_stores task (fun i hi ne => (at_ i hi ne).1) rows
  · subst win
    refine (opTsts_clear room own ready).next (opTsts_body (handle_small handle) (fun i hi => ?_) rows)
    rw [rest] at hi
    have := free i (by simpa using hi)
    rw [← handle_low] at this
    exact this
  · rw [rest] at rows
    have stores := windowStoreRows_stores task rows
    simp only [rowPadStores, windowLoc, handle_low, Nat.add_zero, if_true] at stores
    exact stores
  · rw [← windowFmt_eq] at fits rows ⊢
    have done := exec_tlds (q := q) room own old fits (handle_small handle) rows
    rw [rest] at rows
    have small := windowElement_lt n.isLt s (shapeFmt (s.tile t).shape)
    have rowsEq := shapeRows_mkShape (f := windowFmt n.toNat (shapeFmt (s.tile t).shape)) (rb := shapeRb (s.tile t).shape)
      (shapeRows_bounds (s.tile t).shape)
    have rbEq := shapeRb_mkShape (f := windowFmt n.toNat (shapeFmt (s.tile t).shape)) (shapeRb_bounds (s.tile t).shape)
      (shapeRows_bounds (s.tile t).shape)
    have inside := columns_fit (Machine.Num.size (windowFmt n.toNat (shapeFmt (s.tile t).shape))) (shapeRb (s.tile t).shape)
    generalize mkShape (windowFmt n.toNat (shapeFmt (s.tile t).shape)) (shapeRb (s.tile t).shape) (shapeRows (s.tile t).shape) = shape at *
    have landed := windowLoadRows_landed n.isLt quiet clean sound (by rw [rbEq]; exact inside) small wf rows
    refine ⟨done, landed.shape, landed.full, fun i j hi hj => (landed.done i j hi (hi.trans_eq rowsEq.symm) hj).trans ?_⟩
    simp only [TileLoad.value, windowLoad, windowLoc, handle_low, toNat_eq_zero_iff]
    rfl

/-- Settles O34, instruction by instruction. -/
theorem tileTransfers : Obligations.TileTransfers := by
  intro t p q f n k w s s1 room own
  refine ⟨fun old fits rows => (opTileLoad_clear room own old).next (opTileLoad_body fits rows),
    fun old fits rows => (opTileLoad_clear room own old).next (opTileLoad_body fits rows),
    fun ready size rows => (opTst_clear room own ready).next (opTst_body size rows),
    fun ready size => (opTst_clear room own ready).fault (opTst_format size), fun old fits handle rows => exec_tlds room own old fits handle rows,
    fun ready win handle free rows => ?_, fun ready other => ⟨none, (opTsts_clear room own ready).fault (opTsts_window ?_)⟩,
    fun task zero => rowBytes t p q f n k w s s1 room own task zero⟩
  · subst win
    exact (opTsts_clear room own ready).next (opTsts_body handle free rows)
  · exact fun e => other ((toNat_eq_zero_iff n).mp e)

/-! The elements of a TLD (R127). -/

/-- What a row of a load may change of the state: its context, the last accesses of units, and how many free values were drawn. Of the context,
what it reads as stays. -/
def Loading (s : State) (n : Nat) (u : State) : Prop :=
  ∃ (h : Hart) (used : List (Nat × Nat)) (m : Nat), u = { s with hart := h, used := used, fresh := s.fresh + m } ∧ m ≤ n ∧
    h.kind = s.hart.kind ∧ h.cap = s.hart.cap ∧ h.core = s.hart.core ∧ h.chunk.effects = s.hart.chunk.effects ∧
    h.chunk.exclusive = s.hart.chunk.exclusive

section
variable {s u : State} {n : Nat}

theorem loading_writeT (h : Loading s n u) (t : TReg) (d : Memory) (shape : BitVec 16) : Loading s n (writeT t d shape u) := by
  obtain ⟨x, used, m, rfl, le, kind, cap, core, effects, exclusive⟩ := h
  exact ⟨_, used, m, rfl, le, kind, cap, core, effects, exclusive⟩

/-- A row that has not to wait: its free value says so (log 122). -/
theorem awaitRow_free (h : Loading s n u) {b : Bool} (free : b = true → ∀ m ≤ n, Config.freeBool (s.fresh + m) = false) (i : Nat) :
    ∃ w, awaitRow b i u = .ok w ∧ Loading s (n + 1) w ∧ w.hart = u.hart := by
  obtain ⟨x, used, m, rfl, le, facts⟩ := h
  unfold awaitRow
  dsimp only
  split
  · next blocks =>
    rw [free (Bool.and_eq_true_iff.mp blocks).1 m le]
    exact ⟨_, rfl, ⟨x, used, m + 1, rfl, by omega, facts⟩, rfl⟩
  · exact ⟨_, rfl, ⟨x, used, m, rfl, by omega, facts⟩, rfl⟩

/-- Where the part has no error, reading lines finds none. -/
theorem readLines_sound (sound : s.faults = []) (whole : s.sram = []) (p pa k : Nat) : readLines p pa k s = s := by
  rw [readLines, sound, List.filter_nil, List.foldl_nil, meetSram, whole]
  rfl

/-- A range is clean for every context of the same kind that sees the same poison. -/
theorem clean_congr {t : State} {pa k : Nat} (kind : t.hart.kind = s.hart.kind) (poison : ∀ a, poisonAt t a = poisonAt s a)
    (clean : Clean s pa k) : Clean t pa k := by
  unfold Clean consume at *
  rw [kind, funext fun i => poison (pa + i)]
  split at clean
  · next saffron => exact if_pos saffron
  · next other =>
    rw [if_neg other]
    split at clean
    · cases clean
    · cases clean
    · rfl

theorem loadAt_sound {pa k : Nat} (task : s.hart.kind = .task) (sound : s.faults = []) (whole : s.sram = []) (clean : Clean s pa k)
    (awake : ∀ x ∈ unitsAt s s.hart.core pa k, x ∉ s.retained) :
    loadAt pa k s = .ok ((List.range k).map fun q => viewByte s (pa + q), noteRead pa k (noteUse (unitsAt s s.hart.core pa k) s)) := by
  have met : meetLines s.partition pa k s = .ok (noteUse (unitsAt s s.hart.core pa k) s) := by
    rw [meetLines, awaitUnits_awake (by rw [task]; nofun) awake, ok_bind]
    refine congrArg Except.ok ((if_neg ?_).trans (readLines_sound (s := noteUse _ s) sound whole _ _ _))
    show s.hart.kind ≠ .saffron
    rw [task]; nofun
  have clean : consume pa k (noteUse (unitsAt s s.hart.core pa k) s) = .ok () := clean_congr (s := s) rfl (fun _ => rfl) clean
  rw [loadAt, met, ok_bind, clean, ok_bind]
  rfl

/-- A read of a task within its reach, where no unit is in retention and the part has no error, gives the bytes that the task sees. -/
theorem load_bytes (h : Loading s n u) {a : Word} {k : Nat} {e : Extent} (task : s.hart.kind = .task) (solo : s.hart.chunk.exclusive = false)
    (sound : s.faults = []) (whole : s.sram = []) (he : s.extents[a.toNat / 2 ^ 56]? = some e) (may : MayReach e (a.toNat % 2 ^ 56) k .read s)
    (clean : Clean s (e.base + a.toNat % 2 ^ 56) k) (awake : ∀ x ∈ unitsAt s s.hart.core (e.base + a.toNat % 2 ^ 56) k, x ∉ s.retained) :
    ∃ w, load a k .read u = .ok ((List.range k).map fun q => viewByte s (e.base + a.toNat % 2 ^ 56 + q), w) ∧ Loading s n w ∧
      w.hart.r = u.hart.r := by
  obtain ⟨x, used, m, rfl, le, kind, cap, core, effects, exclusive⟩ := h
  generalize hu : ({ s with hart := x, used := used, fresh := s.fresh + m } : State) = u
  have task' : u.hart.kind = .task := by rw [← hu]; exact kind.trans task
  have exts : u.extents = s.extents := by
    subst hu
    simp only [State.extents, State.capsule, State.cap?, kind, cap]
  have reach : reach a k .read u = .ok (e.base + a.toNat % 2 ^ 56, u) := by
    refine reach_task task' (by rw [exts]; exact he) ?_
    obtain ⟨k0, k2, bounds, co, grants, unsealed, owned, -⟩ := may
    refine ⟨k0, k2, bounds, co, grants, fun c => ?_, ?_, ?_⟩
    · subst hu; exact unsealed c
    · subst hu; exact owned
    · have : u.hart.chunk.exclusive = false := by subst hu; exact exclusive.trans solo
      rw [tokenFree, this]; rfl
  have units : unitsAt u u.hart.core (e.base + a.toNat % 2 ^ 56) k = unitsAt s s.hart.core (e.base + a.toNat % 2 ^ 56) k := by
    subst hu; rw [← core]; rfl
  have same : ∀ b, chunkByte u.hart.chunk.effects b = chunkByte s.hart.chunk.effects b := by subst hu; exact fun b => by rw [effects]
  have clean' : Clean u (e.base + a.toNat % 2 ^ 56) k := by
    refine clean_congr (task'.trans task.symm) (fun b => ?_) clean
    rw [poisonAt, same, poisonAt]
    subst hu; rfl
  have bytes : ∀ b, viewByte u b = viewByte s b := by
    simp only [viewByte, same, task', task]
    subst hu
    exact fun b => rfl
  have pages : pagesOf u a k = [(a, k)] := if_neg (by simp [task'])
  have read := loadAt_sound (pa := e.base + a.toNat % 2 ^ 56) (k := k) task' (by subst hu; exact sound) (by subst hu; exact whole) clean'
    (by rw [units]; subst hu; exact awake)
  refine ⟨noteRead (e.base + a.toNat % 2 ^ 56) k (noteUse (unitsAt u u.hart.core (e.base + a.toNat % 2 ^ 56) k) u), ?_, ?_, ?_⟩
  · rw [load, pages, loadParts, reach, ok_bind]
    dsimp only
    rw [read, ok_bind]
    simp only [loadParts, ok_bind, List.append_nil, bytes]
  · have entered : (noteUse (unitsAt u u.hart.core (e.base + a.toNat % 2 ^ 56) k) u).hart.kind = .task := task'
    rw [noteRead, if_pos entered]
    subst hu
    exact ⟨_, _, m, rfl, le, kind, cap, core, effects, exclusive⟩
  · rw [noteRead]
    split <;> rfl

end

/-- A row without unmasked columns, and one whose bytes a load gives. -/
theorem loadRow_masked {ro : Bool} {t : TReg} {shape : BitVec 16} {k : Bool} {v e c i : Nat} {s : State} (h : unmasked v c i = 0) :
    loadRow ro t shape k v e c i s = .ok (landRow t shape k i [] s) := if_pos h

theorem loadRow_loaded {t : TReg} {shape : BitVec 16} {k : Bool} {v e c i : Nat} {s w : State} {bs : List Byte} (h : unmasked v c i ≠ 0)
    (l : load (rowHandle v e i) (e * unmasked v c i) .read s = .ok (bs, w)) : loadRow false t shape k v e c i s = .ok (landRow t shape k i bs w) := by
  simp only [loadRow, h, Bool.false_eq_true, if_false, l, ok_bind]

/-- The bytes of an element within those of its row. -/
theorem seen_chunk (s : State) (pa z : Nat) {j n : Nat} (hj : j < n) :
    leNat ((((List.range (z * n)).map fun q => viewByte s (pa + q)).drop (z * j)).take z) = seen s (pa + z * j) z := by
  have room : z * j + z ≤ z * n := by rw [← Nat.mul_succ]; exact Nat.mul_le_mul_left z hj
  refine congrArg leNat (List.ext_getElem (by simp; omega) fun q h1 h2 => ?_)
  simp [Nat.add_assoc]

section
variable {t : TReg} {p : PReg} {f : Nat} {k : Bool} {e : Extent} {s : State}

/-- What a TLD is to bring from an extent: the bytes that the task sees there (R127). -/
def extentLoad (s : State) (t : TReg) (v f : Nat) (k : Bool) (e : Extent) : TileLoad :=
  { t := t, shape := mkShape f (shapeRb (s.tile t).shape) (shapeRows (s.tile t).shape), keep := k, old := (s.tile t).data, z := Machine.Num.size f,
    rows := shapeRows (s.tile t).shape, cols := shapeRb (s.tile t).shape / Machine.Num.size f,
    live := unmasked v (shapeRb (s.tile t).shape / Machine.Num.size f),
    val := fun i j => seen s (e.base + (rowHandle v (Machine.Num.size f) i).toNat % 2 ^ 56 + Machine.Num.size f * j) (Machine.Num.size f) }

theorem extentLoad_fits (s : State) (t : TReg) (v f : Nat) (k : Bool) (e : Extent) :
    (extentLoad s t v f k e).z * (extentLoad s t v f k e).cols ≤ shapeRb (extentLoad s t v f k e).shape := by
  simp only [extentLoad, shapeRb_mkShape (shapeRb_bounds _) (shapeRows_bounds _)]
  exact columns_fit _ _

/-- The conditions on row i: its bytes lie within the reach of the task in the extent, clean and in units that are awake. -/
def RowReached (s : State) (t : TReg) (v f : Nat) (e : Extent) (i : Nat) : Prop :=
  let z := Machine.Num.size f
  let n := z * unmasked v (shapeRb (s.tile t).shape / z) i
  let h := (rowHandle v z i).toNat
  n ≠ 0 → s.extents[h / 2 ^ 56]? = some e ∧ MayReach e (h % 2 ^ 56) n .read s ∧ Clean s (e.base + h % 2 ^ 56) n ∧
    ∀ u ∈ unitsAt s s.hart.core (e.base + h % 2 ^ 56) n, u ∉ s.retained

variable (task : s.hart.kind = .task) (solo : s.hart.chunk.exclusive = false) (sound : s.faults = []) (whole : s.sram = [])
include task solo sound whole

/-- A row of a TLD completes, and its elements are there. -/
theorem loadStep_landed {i : Nat} {u : State}
    (free : blockingForm s (s.view p) = true → ∀ m ≤ i, Config.freeBool (s.fresh + m) = false) (reached : RowReached s t (s.view p) f e i)
    (before : Loading s i u ∧ (extentLoad s t (s.view p) f k e).Landed i (u.tile t)) :
    ∃ w, loadStep false s t p f k i u = .ok w ∧ Loading s (i + 1) w ∧ (extentLoad s t (s.view p) f k e).Landed (i + 1) (w.tile t) := by
  obtain ⟨loading, landed⟩ := before
  obtain ⟨x, hx, loading, hart⟩ := awaitRow_free loading free i
  have tile : x.tile t = u.tile t := by rw [State.tile, hart, State.tile]
  have small := (extentLoad_fits s t (s.view p) f k e).trans (shapeRb_bounds _).2
  have live := unmasked_le (s.view p) (shapeRb (s.tile t).shape / Machine.Num.size f) i
  rw [← tile] at landed
  simp only [loadStep, hx, ok_bind]
  by_cases none : unmasked (s.view p) (shapeRb (s.tile t).shape / Machine.Num.size f) i = 0
  · refine ⟨_, holdRow_ok.mpr (loadRow_masked none), loading_writeT loading _ _ _,
      landed_landRow (l := extentLoad s t (s.view p) f k e) landed small live ?_ fun j hj => absurd hj ?_⟩
    · simp only [extentLoad, none, Nat.mul_zero, List.length_nil]
    · simp only [extentLoad, none, Nat.not_lt_zero, not_false_eq_true]
  · have some : Machine.Num.size f * unmasked (s.view p) (shapeRb (s.tile t).shape / Machine.Num.size f) i ≠ 0 :=
      Nat.mul_ne_zero (Nat.one_le_iff_ne_zero.mp (size_pos f)) none
    obtain ⟨he, may, clean, awake⟩ := reached some
    obtain ⟨w, hw, loading, regs⟩ := load_bytes loading task solo sound whole he may clean awake
    have tile : w.tile t = x.tile t := by rw [State.tile, regs, State.tile]
    rw [← tile] at landed
    refine ⟨_, holdRow_ok.mpr (loadRow_loaded none hw), loading_writeT loading _ _ _,
      landed_landRow (l := extentLoad s t (s.view p) f k e) landed small live ?_ fun j hj => ?_⟩
    · simp only [List.length_map, List.length_range]
      rfl
    · exact seen_chunk s _ _ hj

/-- All rows of a TLD. -/
theorem loadRows_landed (zero : s.rstIdx = 0) (wf : (s.tile t).data.wf = true)
    (free : blockingForm s (s.view p) = true → ∀ m ≤ shapeRows (s.tile t).shape, Config.freeBool (s.fresh + m) = false)
    (reached : ∀ i < shapeRows (s.tile t).shape, RowReached s t (s.view p) f e i) :
    ∃ u, rowsFrom (loadStep false s t p f k) (restRows s (shapeRows (s.tile t).shape))
        (openTile t (mkShape f (shapeRb (s.tile t).shape) (shapeRows (s.tile t).shape)) s) = .ok (clearRst u) ∧
      (extentLoad s t (s.view p) f k e).Landed (shapeRows (s.tile t).shape) (u.tile t) := by
  have first : Loading s 0 (openTile t (mkShape f (shapeRb (s.tile t).shape) (shapeRows (s.tile t).shape)) s) :=
    loading_writeT ⟨s.hart, s.used, 0, rfl, le_refl 0, rfl, rfl, rfl, rfl, rfl⟩ _ _ _
  have opened := landed_openTile (l := extentLoad s t (s.view p) f k e) (extentLoad_fits _ _ _ _ _ _) (shapeRows_mkShape (shapeRows_bounds _)) rfl wf
  rw [restRows_zero zero]
  obtain ⟨u, hu, -, landed⟩ := rowsFrom_completes (f := loadStep false s t p f k) (i := 0) (n := shapeRows (s.tile t).shape)
    (P := fun i u => Loading s i u ∧ (extentLoad s t (s.view p) f k e).Landed i (u.tile t)) ⟨first, opened⟩
    fun i u _ hi before => loadStep_landed task solo sound whole (fun b m hm => free b m (by omega)) (reached i (by omega)) before
  rw [Nat.zero_add] at landed
  exact ⟨u, hu, landed⟩

end

/-- Settles O35, from its rows. -/
theorem tileLoadElements : Obligations.TileLoadElements := by
  intro t p q f k e s room own old wf task zero solo sound whole z v rb rows len h fits free reached
  obtain ⟨u, hu, landed⟩ := loadRows_landed (k := k) (f := f.toNat) (e := e) task solo sound whole zero wf free reached
  refine ⟨_, (opTileLoad_clear room own old).next (opTileLoad_body fits hu), ?_, ?_, (u.tile t).data, ?_, fun i j hi hj => landed.done i j hi hi hj⟩
  · rw [retire_view, landed_view]
  · rw [retire_r, landed_rst]; rfl
  · rw [retire_tile, retire_inflight]
    exact landed_tile landed.shape landed.full

end Sys2Proof.Proofs
end

