-- ==== Sys2Proof/Proofs/Steps.lean ====
section
/-! PROOFS. A step: the time that passes, the fetch, and what runs (O58). -/

namespace Sys2Proof.Proofs

open Sys2Proof Sys2Proof.Machine Sys2Proof.Claims

/-- Nothing waits at its home, and no RELEASE waits: nothing is tried again. -/
theorem retryAll_nil {s : State} (h : s.pending = []) : retryAll s = s := by
  unfold retryAll
  rw [h, List.foldl_nil, ← h]

theorem retryReleases_nil {s : State} (h : s.releasing = []) : retryReleases s = s := by
  unfold retryReleases
  rw [h, List.foldl_nil, ← h]

theorem tick_frame (s : State) :
    { tick s with fresh := s.fresh, clock := s.clock, sumac := s.sumac, clusters := s.clusters, queues := s.queues, caps := s.caps } = s := rfl

theorem pass_eq_tick {s : State} (p : s.pending = []) (r : s.releasing = []) : pass s = tick s := by
  have waits : (tick s).pending = [] := p
  have idle : (tick s).releasing = [] := r
  show retryReleases (retryAll (tick s)) = tick s
  rw [retryAll_nil waits, retryReleases_nil idle]

section
variable {s : State}

/-- A context that is ready, with a lease that stands and no copy to restart, issues at once. -/
theorem turn_ready (up : s.down = false) (live : s.phase ≠ .fatal) (ready : s.hart.run = .ready) (solo : s.hart.chunk.exclusive = false)
    (running : coreStopped s = false)
    (fit : s.hart.kind = .task → s.hart.rebind = none ∧ bitOf (rstGet s.hart.r.rst 4 1) 1 = false) : turn s = runNext s := by
  have token : takeToken s = .ok s := if_neg (by simp [solo])
  have prepared : prepare s = .ok s := by
    unfold prepare
    split
    · next task =>
      obtain ⟨bound, fresh⟩ := fit task
      simp [rebindLease, bound, fresh]
    · rfl
  have alone : awaitsProducer s.hart = false := by simp [awaitsProducer, ready]
  have going : ¬(s.down = true ∨ s.phase = .fatal) := by simp [up, live]
  simp only [turn, if_neg going, alone, Bool.false_eq_true, if_false, ready, running, issueNext, token, prepared]

/-- It fetches afresh. -/
theorem fetch_ready {w : Nat} {t : State} (ready : s.hart.run = .ready) (h : fetchWord s.hart.r.pc (startIssue s) = .ok (w, t)) :
    fetch (startIssue s) = .ok (w, (decodeWord w).toOption, t.mod fun x => { x with fetched := (s.hart.r.pc, w) :: x.fetched }) := by
  have start : startIssue s = s.mod fun h => { h with fetched := [] } := by simp only [startIssue, ready]
  have empty : (startIssue s).hart.fetched = [] := by rw [start]; rfl
  have pc : (startIssue s).hart.r.pc = s.hart.r.pc := by rw [start]; rfl
  simp only [fetch, issueWord, empty, List.find?_nil, pc, h, ok_bind]

theorem runNext_decoded {w : Nat} {t : State} (ready : s.hart.run = .ready) (h : fetchWord s.hart.r.pc (startIssue s) = .ok (w, t)) :
    (∀ i, decodeWord w = .ok i → runNext s = exec i (t.mod fun x => { x with fetched := (s.hart.r.pc, w) :: x.fetched })) ∧
    ((∃ r, decodeWord w = .error r) →
      runNext s = exec (.evIllegalInstruction (BitVec.ofNat 32 w)) (t.mod fun x => { x with fetched := (s.hart.r.pc, w) :: x.fetched })) := by
  have fetched := fetch_ready ready h
  refine ⟨fun i decoded => ?_, fun ⟨r, undecoded⟩ => ?_⟩
  · rw [decoded] at fetched
    simp only [runNext, fetched, Except.toOption]
  · rw [undecoded] at fetched
    simp only [runNext, fetched, Except.toOption]
    rfl

theorem step_turn (h : s.agenda = []) : step s = turn (pass s) := by
  rw [step, take, h]

end

/-! The word of a task (R24, R189). -/

/-- Every read-only copy of a capsule in the cluster of the context holds the committed bytes of its line. -/
def FreshCopies (s : State) : Prop := ∀ c ∈ (s.cluster s.here).ro, c.cap = s.hart.cap → c.data = lineBytes s c.line

/-- What a fill leaves: the context, memory, capsules and cores. -/
structure Filled (s t : State) : Prop where
  hart : t.hart = s.hart
  mem : t.mem = s.mem
  caps : t.caps = s.caps
  cores : t.cores = s.cores
  parked : t.parked = s.parked

theorem Filled.trans {s t u : State} (h : Filled s t) (k : Filled t u) : Filled s u :=
  ⟨k.hart.trans h.hart, k.mem.trans h.mem, k.caps.trans h.caps, k.cores.trans h.cores, k.parked.trans h.parked⟩

theorem filled_modCluster (s : State) (n : Nat) (f : Cluster → Cluster) : Filled s (s.modCluster n f) := ⟨rfl, rfl, rfl, rfl, rfl⟩
theorem filled_fresh (s : State) (n : Nat) : Filled s { s with fresh := n } := ⟨rfl, rfl, rfl, rfl, rfl⟩

/-- A cluster whose copies change, and the copies it then has. -/
theorem ro_modCluster (s : State) (f : List RoCopy → List RoCopy) :
    ((s.modCluster s.here fun c => { c with ro := f c.ro }).cluster s.here).ro = f (s.cluster s.here).ro := by
  rw [State.cluster_modCluster_same s s.here (fun c => { c with ro := f c.ro }) (State.cluster_no s s.here)]

theorem freshCopies_modCluster {s : State} (f : List RoCopy → List RoCopy)
    (h : ∀ c ∈ f (s.cluster s.here).ro, c.cap = s.hart.cap → c.data = lineBytes s c.line) :
    FreshCopies (s.modCluster s.here fun c => { c with ro := f c.ro }) := by
  intro c hc
  rw [show (s.modCluster s.here fun c => { c with ro := f c.ro }).here = s.here from rfl, ro_modCluster] at hc
  exact h c hc

theorem fillLine_keeps (line : Nat) {s : State} (h : FreshCopies s) : Filled s (fillLine line s) ∧ FreshCopies (fillLine line s) := by
  unfold fillLine
  dsimp only
  split
  · refine ⟨filled_modCluster s _ _, freshCopies_modCluster (fun l => _ :: l) fun c hc => ?_⟩
    rcases List.mem_cons.mp hc with rfl | hc
    · exact fun _ => rfl
    · exact h c hc
  · split
    · exact ⟨filled_fresh s _, h⟩
    · refine ⟨(filled_fresh s _).trans (filled_modCluster _ _ _),
        freshCopies_modCluster (s := { s with fresh := s.fresh + 1 }) (fun l => _ :: l.filter fun x => !ownCopy s line x) fun c hc => ?_⟩
      rcases List.mem_cons.mp hc with rfl | hc
      · exact fun _ => rfl
      · exact h c (List.mem_of_mem_filter hc)

/-- A byte of fresh copies is the committed one. -/
theorem roByte_fresh {s : State} (h : FreshCopies s) (pa : Nat) : roByte s pa = s.mem.read pa := by
  unfold roByte
  split
  · next c hc =>
    have own := List.find?_some hc
    rw [ownCopy, Bool.and_eq_true, beq_iff_eq, beq_iff_eq] at own
    have lt : pa % 256 < 256 := Nat.mod_lt _ (by norm_num)
    have at_ : 256 * (pa / 256) + pa % 256 = pa := by omega
    rw [h c (List.mem_of_find?_eq_some hc) own.2, own.1, lineBytes, Memory.readBytes]
    simp [lt, at_]
  · rfl

/-- A read on the read-only path, where nothing is wrong with the part and no copy is older than memory. -/
theorem readOnly_fresh {s : State} {pa n : Nat} (task : s.hart.kind = .task) (clean : s.poison = []) (sound : s.faults = []) (whole : s.sram = [])
    (awake : s.retained = []) (copies : FreshCopies s) :
    ∃ t, readOnly pa n s = .ok (s.mem.readBytes pa n, t) ∧ Filled s t := by
  have met : meetLines s.partition pa n s = .ok (noteUse (unitsAt s s.hart.core pa n) s) := by
    rw [meetLines, awaitUnits_awake (by rw [task]; nofun) (by rw [awake]; exact fun _ _ => List.not_mem_nil), ok_bind]
    refine congrArg Except.ok ((if_neg ?_).trans (readLines_sound (s := noteUse _ s) sound whole _ _ _))
    show s.hart.kind ≠ .saffron
    rw [task]; nofun
  obtain ⟨filled, fresh⟩ := foldl_keeps (P := fun t => Filled (noteUse (unitsAt s s.hart.core pa n) s) t ∧ FreshCopies t)
    (f := fun t l => fillLine l t) (fun t l ht => ⟨ht.1.trans (fillLine_keeps l ht.2).1, (fillLine_keeps l ht.2).2⟩) (unitsOf 256 pa n)
    (b := noteUse (unitsAt s s.hart.core pa n) s) ⟨⟨rfl, rfl, rfl, rfl, rfl⟩, copies⟩
  have unpoisoned : (noteUse (unitsAt s s.hart.core pa n) s).poison = [] := clean
  refine ⟨(unitsOf 256 pa n).foldl (fun t l => fillLine l t) (noteUse (unitsAt s s.hart.core pa n) s), ?_, ⟨filled.hart, filled.mem, filled.caps, filled.cores, filled.parked⟩⟩
  simp only [readOnly, met, ok_bind, unpoisoned, List.find?_nil, Option.map_none, List.findSome?_eq_none_iff.mpr fun _ _ => rfl]
  simp only [roByte_fresh fresh, filled.mem]
  rfl

/-- Settles O58, clause by clause. -/
theorem stepRunsDecoded : Obligations.StepRunsDecoded := by
  intro s
  refine ⟨tick_frame s, pass_eq_tick, fun idle up live ready solo running fit w t h => ?_,
    fun e pa task access he kind owned solo clean sound whole awake copies => ?_, fun i rest h none => ?_, fun n rest h => ?_, fun h rest ha => ?_⟩
  · rw [step_turn idle, turn_ready up live ready solo running fit]
    exact runNext_decoded ready h
  · have reached : reach s.hart.r.pc 4 .exec s = .ok (pa, s) := by
      have found : s.extent? (handleIdx s.hart.r.pc) = some e := by
        rw [State.extent?, handleIdx_eq, he]
        exact if_neg (by rw [kind]; nofun)
      have free : tokenFree pa 4 s = true := by simp [tokenFree, solo]
      have notBacked : e.kind ≠ 2 := by rw [kind]; nofun
      simp [reach, task, access, found, sealFault, owned, free, notBacked]
    obtain ⟨t, read, filled⟩ := readOnly_fresh (pa := pa) (n := 4) task clean sound whole awake fun c hc own => absurd own (copies c hc)
    refine ⟨t, ?_, filled.hart, filled.mem, filled.caps, filled.cores, filled.parked⟩
    simp only [fetchWord, task, reduceCtorEq, if_false, loadRo, reached, ok_bind, read]
    rfl
  · rw [step, take, h]
    exact if_neg (by rw [none]; nofun)
  · rw [step, take, h]
    rfl
  · rw [step, take, ha]

end Sys2Proof.Proofs
end

