-- ==== Sys2Proof/Proofs/AfterReset.lean ====
section
/-! PROOFS. The machine right after reset (O59). -/

namespace Sys2Proof.Proofs

open Sys2Proof Sys2Proof.Machine Sys2Proof.Claims

theorem get_replicate {α : Type} {n : Nat} (a : α) (i : Fin n) : (Vector.replicate n a).get i = a := by simp [Vector.get_eq_getElem]

theorem reset_tile (t : TReg) : State.reset.tile t = Tile.reset := get_replicate _ t

/-- Nothing that reset leaves holds a memory with a byte in it. -/
theorem reset_canonical : Canonical State.reset := by
  have regs : TidyRegs Regs.reset := fun x => by rw [show Regs.reset.t.get x = Tile.reset from get_replicate _ x]; rfl
  refine ⟨rfl, rfl, fun h hh => ?_, List.forall_mem_nil _, List.forall_mem_nil _, List.forall_mem_nil _, List.forall_mem_nil _, List.forall_mem_nil _, List.forall_mem_nil _, List.forall_mem_nil _, List.forall_mem_nil _, rfl, rfl, rfl, rfl, List.forall_mem_nil _, List.forall_mem_nil _⟩
  obtain rfl := List.mem_singleton.mp hh
  exact ⟨regs, regs, rfl, List.forall_mem_nil _, List.forall_mem_nil _, nofun⟩

/-- What stands in the configuration of a partition after reset: its number (R266). -/
theorem reset_pnum {p : Nat} (h : p < 16) : (Part.reset p).cfg.readLE 0x01A 1 = p := by
  interval_cases p <;> rfl

/-- All else of it is zero. -/
theorem reset_cfg_zero (p : Nat) {a n : Nat} (h : a + n ≤ 0x01A ∨ 0x01A < a) : (Part.reset p).cfg.readLE a n = 0 := by
  refine leNat_zeros fun b hb => ?_
  obtain ⟨i, hi, rfl⟩ := List.mem_map.mp hb
  have lt := List.mem_range.mp hi
  unfold Part.reset
  dsimp only
  split
  · rfl
  · exact if_neg (by omega)

theorem reset_lists (p : Nat) : (Part.reset p).reserved = [] ∧ (Part.reset p).owners = [] ∧ (Part.reset p).endpoints = [] := by
  refine ⟨List.filterMap_eq_nil_iff.mpr fun v hv => ?_, List.filter_eq_nil_iff.mpr fun v hv => ?_, List.filter_eq_nil_iff.mpr fun v hv => ?_⟩
  all_goals
    obtain ⟨i, -, rfl⟩ := List.mem_map.mp hv
    rw [reset_cfg_zero p (by omega)]
    decide

/-- A queue after reset is off, with every slot free (R269). -/
theorem reset_queue (n : Nat) : (Queue.reset n).en = false ∧ (Queue.reset n).qstat = 0xFF := by
  refine ⟨?_, ?_⟩
  · show bitOf (0 : Word).toNat 0 = false
    decide
  · show word ((0xFF : BitVec 8).toNat + 0 % 8192 * 2 ^ 8 + 0 + 0 % 65536 * 2 ^ 24) = 0xFF
    decide

/-- No granule has an entry after reset, so its STATE is 3 in the regions that nothing owns, else 0 (R252). -/
theorem reset_granule (g : Nat) : State.reset.granule g = if granuleOf dumpBase ≤ g ∧ g < 196608 then 0xC else 0 := rfl

theorem reset_ring (c i : Nat) : ringV ((Cluster.reset c).ring i).defn = false := by
  rw [show (Cluster.reset c).ring i = Ring.reset from get_replicate _ _]
  decide

theorem reset_chan (c i : Nat) : ((Cluster.reset c).chan i).copy = none := by
  rw [show (Cluster.reset c).chan i = Chan.reset from get_replicate _ _]
  rfl

/-- No window names anything (R322). -/
theorem reset_inbound (n : Nat) : (State.reset.inbound n).kind = 0 := leNat_zeros (l := Memory.readBytes [] (32 * n) 1) fun b hb => by
  obtain ⟨i, -, rfl⟩ := List.mem_map.mp hb
  rfl

/-- Settles O59, from the reset values. -/
theorem resetState : Obligations.ResetState := by
  refine ⟨rfl, rfl, reset_canonical, rfl, rfl, rfl, rfl, rfl, rfl, rfl, rfl, rfl, rfl, rfl, rfl, rfl, rfl, rfl, rfl, fun t => ?_, fun c _ => ?_, fun p hp => ?_,
    fun n _ => ⟨(reset_queue n).1, rfl, rfl, (reset_queue n).2, rfl, rfl, rfl, rfl⟩, fun n => get_replicate _ n, fun n _ => reset_inbound n, fun g hg => ?_, fun g lo hi => ?_, fun o => rfl⟩
  · rw [reset_tile]
    exact ⟨rfl, rfl, rfl⟩
  · exact ⟨rfl, rfl, rfl, rfl, rfl, rfl, rfl, rfl, rfl, fun i => get_replicate _ i, fun i _ => ⟨reset_ring c i, reset_chan c i⟩⟩
  · have zero : ∀ a n, a + n ≤ 0x01A → (Part.reset p).cfg.readLE a n = 0 := fun a n h => reset_cfg_zero p (.inl h)
    refine ⟨zero _ _ (by omega), zero _ _ (by omega), ?_, zero _ _ (by omega), zero _ _ (by omega), reset_pnum hp, reset_lists p⟩
    show (Part.reset p).window = 0
    rw [Part.window, zero _ _ (by omega)]
    rfl
  · rw [reset_granule, if_neg (by omega)]
    decide
  · rw [reset_granule, if_pos ⟨lo, hi⟩]
    decide

end Sys2Proof.Proofs
end

