-- ==== Sys2Proof/Proofs/Exceptions.lean ====
section
/-! PROOFS. The checks at issue, the fault report, and what taking an exception does (O55). -/

namespace Sys2Proof.Proofs

open Sys2Proof Sys2Proof.Machine Sys2Proof.Claims

/-! The checks at issue (R39, R61, R12, R49). -/

section
variable {i : Instr} {o : Op} {s : State}

/-- A fault or a wait in the state from before the instruction is taken there. -/
theorem stopWhole_fault_self (c : Code) (d : Option Word) : stopWhole s (.error (.fault c d s)) = .error (.fault c d s) := by
  rw [stopWhole]
  split <;> rfl

theorem stopWhole_wait_self (w : Wait) : stopWhole s (.error (.wait w s)) = .error (.wait w s) := by
  rw [stopWhole_wait]
  split <;> rfl

/-- So is a fault that has set a flag alone (R17). -/
theorem stopWhole_fault_flags (c : Code) (d : Option Word) (f : Flags) :
    stopWhole s (.error (.fault c d (setFlags f s))) = .error (.fault c d (setFlags f s)) := by
  rw [stopWhole]
  split <;> rfl

theorem issue_privileged (room : Room s) (p : permitted s.hart o.priv = false) : issue i o s = .next (raise { word := wordOf i } .privileged none s) := by
  refine issue_fault ?_
  have near : ¬(s.hart.kind = .task ∧ o.counted = true ∧ 4096 ≤ s.hart.sdist) := fun ⟨k, _, far⟩ => absurd (room k) (by omega)
  rw [perform, if_neg near, p]
  exact stopWhole_fault_self _ _

/-- An operation for every context has no more to fear from its privilege. -/
theorem perform_open (room : Room s) (p : o.priv = .open_) : perform o s = stopWhole s (
    if o.rotation && !rotation s.here then .error (.fault .noRotation none s)
    else if !(o.tiles.all fun t => allocated s.hart t) then .error (.fault .tileUnallocated none s)
    else presentAll o.srcs s >>= o.body) := by
  have near : ¬(s.hart.kind = .task ∧ o.counted = true ∧ 4096 ≤ s.hart.sdist) := fun ⟨k, _, far⟩ => absurd (room k) (by omega)
  have may : permitted s.hart o.priv = true := by rw [p]; rfl
  rw [perform, if_neg near, may]
  rfl

theorem issue_noRotation (room : Room s) (p : o.priv = .open_) (r : o.rotation = true) (h : s.here % 4 ≠ 0) :
    issue i o s = .next (raise { word := wordOf i } .noRotation none s) := by
  refine issue_fault ?_
  rw [perform_open room p, if_pos (by rw [r, Machine.rotation, beq_false_of_ne h]; rfl), stopWhole_fault_self]

theorem issue_tileUnallocated (room : Room s) (p : o.priv = .open_) (r : o.rotation = false) {t : TReg} (ht : t ∈ o.tiles)
    (h : t.val < 16 - s.hart.ntiles) : issue i o s = .next (raise { word := wordOf i } .tileUnallocated none s) := by
  refine issue_fault ?_
  have none : (o.tiles.all fun t => allocated s.hart t) = false :=
    List.all_eq_false.mpr ⟨t, ht, by rw [allocated, decide_eq_false (by omega)]; exact Bool.false_ne_true⟩
  rw [perform_open room p, r, none, Bool.false_and, if_neg Bool.false_ne_true]
  exact stopWhole_fault_self _ _

/-- With its tiles allocated, an operation comes to its sources. -/
theorem perform_sources (room : Room s) (p : o.priv = .open_) (r : o.rotation = false) (tiles : Tiles s o.tiles) :
    perform o s = stopWhole s (presentAll o.srcs s >>= o.body) := by
  have all : (o.tiles.all fun t => allocated s.hart t) = true := List.all_eq_true.mpr fun t ht => decide_eq_true (tiles t ht)
  rw [perform_open room p, r, all, Bool.false_and, if_neg Bool.false_ne_true]
  rfl

theorem issue_emptyRead (room : Room s) (p : o.priv = .open_) (r : o.rotation = false) (tiles : Tiles s o.tiles) {a : SReg} {more : List Src}
    (e : s.sfull a = false) (src : o.srcs = .s a true :: more) :
    issue i o s = .next (raise { word := wordOf i } .emptyRead none (s.modRegs fun r => { r with flg := r.flg ||| 8 })) := by
  have empty : present (.s a true) s = .error (.fault .emptyRead none (setFlags { emt := true } s)) := by simp [present, e]
  refine issue_fault ?_
  rw [perform_sources room p r tiles, src, presentAll, empty, error_bind, error_bind, stopWhole_fault_flags]
  rfl

theorem issue_emptyWait (room : Room s) (p : o.priv = .open_) (r : o.rotation = false) (tiles : Tiles s o.tiles) {a : SReg} {more : List Src}
    (e : s.sfull a = false) (src : o.srcs = .s a false :: more) : issue i o s = .next (block (.sreg a) s) := by
  have empty : present (.s a false) s = .error (.wait (.sreg a) s) := by simp [present, e]
  refine issue_wait ?_
  rw [perform_sources room p r tiles, src, presentAll, empty, error_bind, error_bind, stopWhole_wait_self]

end

/-! The fault report (R226). -/

section
variable {m : Memory} {a b n k v : Nat}

theorem readBytes_length (m : Memory) (a n : Nat) : (m.readBytes a n).length = n := by simp [Memory.readBytes]

/-- Bytes that were written are read. -/
theorem readBytes_writeBytes {bs : List Byte} (h : m.wf = true) (len : bs.length = n) : (m.writeBytes a bs).readBytes a n = bs := by
  refine List.ext_getElem (by rw [readBytes_length, len]) fun i h1 h2 => ?_
  simp only [Memory.readBytes, List.getElem_map, List.getElem_range]
  exact Memory.read_writeBytes_same a i _ h h2

/-- A number that was written is read, and every number beside it stays. -/
theorem readLE_writeLE_same (h : m.wf = true) : (m.writeLE a n v).readLE a n = v % 256 ^ n := by
  rw [Memory.readLE, Memory.writeLE, readBytes_writeBytes h (leBytes_length n v), leNat_leBytes]

theorem readLE_writeLE_other (apart : b + k ≤ a ∨ a + n ≤ b) : (m.writeLE a n v).readLE b k = m.readLE b k := by
  refine congrArg leNat (List.map_congr_left fun i hi => Memory.read_writeLE_other m v ?_)
  have := List.mem_range.mp hi
  omega

/-- The registers of a report stand in their places, and nothing before them changes. -/
theorem foldl_writeLE_wf (f : Nat → Nat) (l : List Nat) (h : m.wf = true) :
    (l.foldl (fun m i => m.writeLE (0x100 + 8 * i) 8 (f i)) m).wf = true :=
  foldl_keeps (P := fun m : Memory => m.wf = true) (fun _ _ hm => Memory.writeLE_wf _ _ _ hm) l h

theorem foldl_writeLE_before (f : Nat → Nat) (l : List Nat) (h : b + k ≤ 0x100) :
    (l.foldl (fun m i => m.writeLE (0x100 + 8 * i) 8 (f i)) m).readLE b k = m.readLE b k :=
  foldl_keeps (P := fun x : Memory => x.readLE b k = m.readLE b k) (fun x i hx => (readLE_writeLE_other (by omega)).trans hx) l rfl

theorem foldl_writeLE_register (f : Nat → Nat) (n : Nat) (h : m.wf = true) {i : Nat} (hi : i < n) (small : f i < 256 ^ 8) :
    ((List.range n).foldl (fun m i => m.writeLE (0x100 + 8 * i) 8 (f i)) m).readLE (0x100 + 8 * i) 8 = f i := by
  induction n with
  | zero => exact absurd hi (Nat.not_lt_zero i)
  | succ n ih =>
    rw [List.range_succ, List.foldl_append, List.foldl_cons, List.foldl_nil]
    rcases Nat.lt_succ_iff_lt_or_eq.mp hi with lt | rfl
    · rw [readLE_writeLE_other (by omega), ih lt]
    · rw [readLE_writeLE_same (foldl_writeLE_wf f _ h), Nat.mod_eq_of_lt small]

end

/-- The fields that a report has before those of its task are in canonical form. -/
theorem commonFields_wf (s : State) (cap code : Nat) (d : Word) : (commonFields s cap code d).wf = true := by
  unfold commonFields
  exact Memory.writeLE_wf _ _ _ (Memory.writeLE_wf _ _ _ (Memory.writeLE_wf _ _ _ (Memory.writeLE_wf _ _ _ rfl)))

theorem commonFields_code (s : State) (cap code : Nat) (d : Word) : (commonFields s cap code d).readLE 0 2 = code % 256 ^ 2 := by
  unfold commonFields
  rw [readLE_writeLE_other (by omega), readLE_writeLE_other (by omega), readLE_writeLE_other (by omega), readLE_writeLE_same rfl]

theorem commonFields_detail (s : State) (cap code : Nat) (d : Word) : (commonFields s cap code d).readLE 0x18 8 = d.toNat := by
  unfold commonFields
  rw [readLE_writeLE_other (by omega), readLE_writeLE_other (by omega), readLE_writeLE_same (Memory.writeLE_wf _ _ _ rfl)]
  exact Nat.mod_eq_of_lt (by have := d.isLt; omega)

theorem word_mod (d : Word) : d.toNat % 256 ^ 8 = d.toNat := Nat.mod_eq_of_lt (by have := d.isLt; omega)

theorem code_lt (k : Code) : k.num < 256 ^ 2 := by
  cases k <;> decide

/-- The fields of a report (R226). -/
theorem faultReport_fields (at_ : Site) (k : Code) (d : Word) (s : State) :
    let m := faultReport at_ k.num d s
    m.readLE 0x000 2 = k.num ∧ m.readLE 0x004 4 = at_.word % 2 ^ 32 ∧ m.readLE 0x00C 2 = s.hart.core % 65536 ∧ m.readLE 0x010 8 = s.hart.r.pc.toNat ∧
    m.readLE 0x018 8 = d.toNat ∧ m.readLE 0x028 8 = s.hart.r.flg.toNat ∧ m.readLE 0x030 8 = s.hart.ranks.toNat ∧
    ∀ r : SReg, m.readLE (0x100 + 8 * r.val) 8 = (s.sreg r).toNat := by
  have wf := commonFields_wf s s.hart.cap k.num d
  have code := commonFields_code s s.hart.cap k.num d
  have detail := commonFields_detail s s.hart.cap k.num d
  rw [Nat.mod_eq_of_lt (code_lt k)] at code
  dsimp only [faultReport, taskFields]
  generalize commonFields s s.hart.cap k.num d = m at wf code detail ⊢
  refine ⟨?_, ?_, ?_, ?_, ?_, ?_, ?_, fun r => ?_⟩
  case refine_8 =>
    have lt : (s.hart.r.s.get (Fin.ofNat 32 r.val)).toNat < 256 ^ 8 := BitVec.isLt _
    refine (foldl_writeLE_register (fun i => (s.hart.r.s.get (Fin.ofNat 32 i)).toNat) 32 ?_ r.isLt lt).trans ?_
    · repeat' apply Memory.writeLE_wf
      exact wf
    · rw [Fin.ofNat_val_eq_self]; rfl
  all_goals rw [foldl_writeLE_before _ _ (by omega)]
  · iterate 12 rw [readLE_writeLE_other (by omega)]
    exact code
  · iterate 10 rw [readLE_writeLE_other (by omega)]
    rw [readLE_writeLE_same (Memory.writeLE_wf _ _ _ wf)]
    norm_num
  · iterate 8 rw [readLE_writeLE_other (by omega)]
    rw [readLE_writeLE_same (by repeat' apply Memory.writeLE_wf
                                exact wf)]
    norm_num
  · iterate 5 rw [readLE_writeLE_other (by omega)]
    rw [readLE_writeLE_same (by repeat' apply Memory.writeLE_wf
                                exact wf), word_mod]
  · iterate 12 rw [readLE_writeLE_other (by omega)]
    exact detail
  · iterate 4 rw [readLE_writeLE_other (by omega)]
    rw [readLE_writeLE_same (by repeat' apply Memory.writeLE_wf
                                exact wf), word_mod]
  · iterate 3 rw [readLE_writeLE_other (by omega)]
    rw [readLE_writeLE_same (by repeat' apply Memory.writeLE_wf
                                exact wf), word_mod]

/-! What undoing leaves alone: memory, the granule table, the messages on their way, and of capsules everything but which contexts pre-emption
waits for. -/

/-- A capsule as it is for all that pre-emption has to do with it. -/
def calm (c : Capsule) : Capsule := { c with preempt := [] }

structure Undone (s t : State) : Prop where
  mem : t.mem = s.mem
  got : t.got = s.got
  net : t.net = s.net
  caps : t.caps.map calm = s.caps.map calm

/-- The same, with the context that issues as it was. -/
structure Spared (s t : State) : Prop extends Undone s t where
  hart : t.hart = s.hart

namespace Undone

theorem refl (s : State) : Undone s s := ⟨rfl, rfl, rfl, rfl⟩
theorem trans {s t u : State} (h : Undone s t) (k : Undone t u) : Undone s u :=
  ⟨k.mem.trans h.mem, k.got.trans h.got, k.net.trans h.net, k.caps.trans h.caps⟩

theorem mod (s : State) (f : Hart → Hart) : Undone s (s.mod f) := ⟨rfl, rfl, rfl, rfl⟩
theorem modHart (s : State) (n : Nat) (f : Hart → Hart) : Undone s (s.modHart n f) := ⟨rfl, rfl, rfl, rfl⟩

end Undone

namespace Spared

theorem refl (s : State) : Spared s s := ⟨.refl s, rfl⟩
theorem trans {s t u : State} (h : Spared s t) (k : Spared t u) : Spared s u := ⟨h.toUndone.trans k.toUndone, k.hart.trans h.hart⟩

theorem modCluster (s : State) (n : Nat) (f : Cluster → Cluster) : Spared s (s.modCluster n f) := ⟨⟨rfl, rfl, rfl, rfl⟩, rfl⟩
theorem modCore (s : State) (n : Nat) (f : Core → Core) : Spared s (s.modCore n f) := ⟨⟨rfl, rfl, rfl, rfl⟩, rfl⟩

theorem set_cores (s : State) (l : List Core) : Spared s { s with cores := l } := ⟨⟨rfl, rfl, rfl, rfl⟩, rfl⟩

theorem foldl {α : Type} {f : State → α → State} (h : ∀ t x, Spared t (f t x)) (l : List α) (s : State) : Spared s (l.foldl f s) :=
  foldl_keeps (P := Spared s) (fun t x ht => ht.trans (h t x)) l (refl s)

theorem modRing (s : State) (cl n : Nat) (f : Ring → Ring) : Spared s (modRing cl n f s) := modCluster s _ _
theorem freeChan (s : State) (cl : Nat) (c : Copy) : Spared s (freeChan cl c s) := ⟨⟨rfl, rfl, rfl, rfl⟩, rfl⟩
theorem releaseRegions (s : State) (c : Copy) : Spared s (releaseRegions c s) := modCore s _ _
theorem cleanBuffer (s : State) (cl : Nat) (ws : List (Nat × Nat)) : Spared s (cleanBuffer cl ws s) := ⟨⟨rfl, rfl, rfl, rfl⟩, rfl⟩
theorem scrubBuffer (s : State) (cl a n : Nat) : Spared s (scrubBuffer cl a n s) := (modCluster s _ _).trans (cleanBuffer _ _ _)

/-- A change that is made or not. -/
theorem ite {c : Prop} [Decidable c] {s t u : State} (h : Spared s t) (k : Spared s u) : Spared s (if c then t else u) := by
  split
  · exact h
  · exact k

theorem cancelCopy (s : State) (cl : Nat) (c : Copy) : Spared s (cancelCopy cl c s) := by
  have scrubbed := ite (c := c.mode = .ur ∧ (c.done * c.esize + c.part) % ringSlot ((s.cluster cl).ring (c.dst.toNat % 16)).defn ≠ 0)
    (scrubBuffer s cl (fillingSlot ((s.cluster cl).ring (c.dst.toNat % 16))).1 (fillingSlot ((s.cluster cl).ring (c.dst.toNat % 16))).2) (refl s)
  have back := ite (c := c.mode.toRing) (scrubbed.trans (modRing _ cl (c.dst.toNat % 16)
    fun r => { r with defn := withTail r.defn c.tail0, filled := c.filled0 })) scrubbed
  exact back.trans ((releaseRegions _ c).trans (freeChan _ cl c))

theorem cancelCopies (s : State) (cl : Nat) (l : List Copy) : Spared s (l.foldl (fun t c => Machine.cancelCopy cl c t) s) :=
  foldl (fun t c => cancelCopy t cl c) l s

theorem cancelCopyIns (s : State) (p : Copy → Bool) : Spared s (cancelCopyIns p s) :=
  foldl (fun t cl => cancelCopies t cl _) _ s

end Spared

/-! Discarding a chunk, and ending a context (R20, R38, R163). -/

theorem settleQueries_spared (s : State) (id fate : Nat) : Spared s (settleQueries id fate s) := ⟨⟨rfl, rfl, rfl, rfl⟩, rfl⟩

/-- A context whose open chunk is discarded. -/
def discarded (h : Hart) : Hart :=
  { h with inflight := [], owed := Vector.replicate 16 0, wload := false, request := none, times := [],
           chunk := { Chunk.reset with squashes := h.chunk.squashes, exclusive := h.chunk.exclusive } }

/-- The discard changes the context in its chunk alone. -/
theorem discardChunk_spared (s : State) : ∃ t, Spared s t ∧ discardChunk s = t.mod discarded := by
  refine ⟨_, ?_, rfl⟩
  have cancelled := Spared.cancelCopies s s.here
    ((s.cluster s.here).copies.filter fun c => c.hart == s.hart.id && c.mode.isIn && c.chunk == s.hart.commits)
  refine .trans ?_ (settleQueries_spared _ _ _)
  refine .trans ?_ (Spared.set_cores _ _)
  exact cancelled.trans (Spared.modCluster _ s.here _)

theorem discardChunk_hart (s : State) : (discardChunk s).hart = discarded s.hart := by
  obtain ⟨t, spared, e⟩ := discardChunk_spared s
  rw [e, State.mod_hart, spared.hart]

theorem discardChunk_undone (s : State) : Undone s (discardChunk s) := by
  obtain ⟨t, spared, e⟩ := discardChunk_spared s
  rw [e]
  exact spared.toUndone.trans (.mod t _)

theorem bindRings_undone (s : State) (cl id mask : Nat) : Undone s (bindRings cl id mask s) :=
  ⟨rfl, rfl, rfl, rfl⟩

theorem bindLease_undone (s : State) (cl id mask : Nat) : Undone s (bindLease cl id mask s) := by
  unfold bindLease
  split
  · exact bindRings_undone s cl id mask
  · exact ((bindRings_undone s cl id mask).trans (Spared.modCluster _ cl _).toUndone).trans (.modHart _ id _)

theorem bindWaiters_undone (s : State) (cl : Nat) : Undone s (bindWaiters cl s) := by
  unfold bindWaiters
  refine foldl_keeps (P := Undone s) (fun t w ht => ?_) _ (.refl s)
  split
  · exact (ht.trans (bindLease_undone t cl w.1 w.2.1.toNat)).trans (Spared.modCluster _ cl _).toUndone
  · exact ht

theorem endLease_undone (s : State) : Undone s (endLease s) := by
  unfold endLease
  split
  · refine .trans ?_ (bindWaiters_undone _ _)
    refine .trans ?_ (.mod _ _)
    refine .trans ?_ (Spared.modCluster _ s.here _).toUndone
    refine .trans ?_ (Spared.foldl (fun t i => ?_) _ _).toUndone
    · exact (Spared.cancelCopies s s.here _).toUndone
    · exact Spared.ite (Spared.scrubBuffer t s.here _ _) (Spared.refl t)
  · exact .refl s

theorem leaveRows_undone (s : State) : Undone s (leaveRows s) := by
  unfold leaveRows
  dsimp only
  split
  · exact .refl s
  · exact (Spared.modCore s _ _).toUndone

theorem wakeFootprint_spared (s : State) (cl : Nat) : Spared s (wakeFootprint cl s) := by
  unfold wakeFootprint
  split
  · exact .refl s
  · exact ⟨⟨rfl, rfl, rfl, rfl⟩, rfl⟩

theorem releaseOne_spared (s : State) (k : Nat) : Spared s (releaseOne k s) := by
  unfold releaseOne
  split
  · exact .refl s
  · split
    · exact (Spared.modCore s k _).trans (wakeFootprint_spared _ _)
    · exact .refl s

theorem releaseCore_spared (s : State) (k : Nat) : Spared s (releaseCore k s) := by
  unfold releaseCore
  split
  · exact (releaseOne_spared s k).trans (releaseOne_spared _ _)
  · exact releaseOne_spared s k

/-- Who pre-emption waits for is all that a calm capsule leaves open. -/
theorem modCap_calm (s : State) (id : Nat) (f : Capsule → Capsule) (h : ∀ c, calm (f c) = calm c) : Undone s (s.modCap id f) := by
  refine ⟨rfl, rfl, rfl, ?_⟩
  rw [State.modCap, List.map_map]
  refine List.map_congr_left fun c _ => ?_
  rw [Function.comp_apply]
  split
  · exact h c
  · rfl

theorem endContext_undone (s : State) : Undone s (endContext s) := by
  unfold endContext
  refine .trans ?_ (releaseCore_spared _ _).toUndone
  refine .trans ?_ (modCap_calm _ _ _ fun c => rfl)
  refine .trans (((discardChunk_undone s).trans (endLease_undone _)).trans (leaveRows_undone _)) ?_
  exact ⟨rfl, rfl, rfl, rfl⟩

theorem focus_undone (s : State) (id : Nat) : Undone s (focus id s) := by
  unfold focus
  split
  · exact .refl s
  · split
    · exact .refl s
    · exact ⟨rfl, rfl, rfl, rfl⟩

theorem onHart_undone {f : State → State} (h : ∀ s, Undone s (f s)) (s : State) (id : Nat) : Undone s (onHart id f s) := by
  unfold onHart
  dsimp only
  split
  · exact ((focus_undone s id).trans (h _)).trans (focus_undone _ _)
  · exact .refl s

theorem onHarts_undone {f : State → State} (h : ∀ s, Undone s (f s)) (s : State) (l : List Nat) : Undone s (onHarts l f s) :=
  foldl_keeps (P := Undone s) (fun _ id ht => ht.trans (onHart_undone h _ id)) l (.refl s)

/-! The write of a report (R226, R206). -/

/-- A write of its own leaves the messages and the capsules. -/
theorem writeUnit_spares (h : Hart) (part pa : Nat) (bs : List Byte) (s : State) :
    (writeUnit h part pa bs s).net = s.net ∧ (writeUnit h part pa bs s).caps = s.caps := by
  have found : ∀ {t u : State}, Found t u → u.net = t.net ∧ u.caps = t.caps := by
    intro t u k
    unfold Found at k
    rw [← k]
    exact ⟨rfl, rfl⟩
  have lines := found (Found.readLines s part pa bs.length)
  have put : ∀ t : State, (putMem h pa bs t).net = t.net ∧ (putMem h pa bs t).caps = t.caps := by
    intro t
    have dirty : (markDirty h pa bs.length t).net = t.net ∧ (markDirty h pa bs.length t).caps = t.caps := by
      unfold markDirty
      split
      · exact ⟨rfl, rfl⟩
      · dsimp only
        refine foldl_keeps (P := fun u : State => u.net = t.net ∧ u.caps = t.caps) ?_ _ ⟨rfl, rfl⟩
        exact fun u l hu => hu
    unfold putMem
    split
    · exact ⟨rfl, rfl⟩
    · exact dirty
  unfold writeUnit
  split
  · exact ⟨rfl, rfl⟩
  · have settled := found (settlePoison_found (s := putMem h pa bs (readLines part pa bs.length s)) part [(pa, bs.length)])
    have written := put (readLines part pa bs.length s)
    exact ⟨settled.1.trans (written.1.trans lines.1), settled.2.trans (written.2.trans lines.2)⟩

theorem deviceWrite_spares (cap pa : Nat) (bs : List Byte) (s : State) :
    (deviceWrite cap pa bs s).net = s.net ∧ (deviceWrite cap pa bs s).caps = s.caps := writeUnit_spares _ _ _ _ _

theorem deviceWrite_mem (cap pa : Nat) (bs : List Byte) (s : State) :
    (deviceWrite cap pa bs s).mem = if sealedRange s pa bs.length then s.mem else s.mem.writeBytes pa bs := writeUnit_mem _ _

/-! The abort of a capsule (R227, R298). -/

theorem cap?_modCap {s : State} {id : Nat} {f : Capsule → Capsule} {c : Capsule} (h : s.cap? id = some c) (same : ∀ c, (f c).id = c.id) :
    (s.modCap id f).cap? id = some (f c) := by
  have mine : c.id = id := beq_iff_eq.mp (List.find?_some (p := fun c : Capsule => c.id == id) h)
  have keyed : ((fun c : Capsule => c.id == id) ∘ fun c => if c.id = id then f c else c) = fun c => c.id == id := by
    funext c
    rw [Function.comp_apply]
    split
    · rw [same]
    · rfl
  show (s.caps.map fun c => if c.id = id then f c else c).find? (fun c => c.id == id) = some (f c)
  rw [List.find?_map, keyed, show s.caps.find? (fun c => c.id == id) = some c from h, Option.map_some, if_pos mine]

theorem cap?_calm {s t : State} (h : t.caps.map calm = s.caps.map calm) {id : Nat} {c : Capsule} (hc : s.cap? id = some c) :
    ∃ y, t.cap? id = some y ∧ calm y = calm c := by
  have find : ∀ l : List Capsule, (l.map calm).find? (fun c => c.id == id) = (l.find? fun c => c.id == id).map calm := fun l => List.find?_map ..
  have e := find t.caps
  rw [h, find s.caps, show s.caps.find? (fun c => c.id == id) = some c from hc, Option.map_some] at e
  obtain ⟨y, hy, same⟩ := Option.map_eq_some_iff.mp e.symm
  exact ⟨y, hy, same⟩

/-- The tasks, copies, messages and queries of a capsule go. -/
def capsuleStopped (id : Nat) (s : State) : State :=
  let t := cancelCopyIns (fun c => c.cap == id) (dropMessages id s)
  onHarts (t.hartsOf id) endContext t

theorem capsuleStopped_undone (id : Nat) (s : State) : Undone (dropMessages id s) (capsuleStopped id s) :=
  (Spared.cancelCopyIns _ _).toUndone.trans (onHarts_undone endContext_undone _ _)

/-- A capsule after its abort. -/
def ended (code : Nat) (c : Capsule) : Capsule :=
  { c with state := .ending code, joins := [], preempt := [], launch := none, report := (reportExtent c).isSome }

section
variable {id code : Nat} {rep : Memory} {c : Capsule} {s : State} (h : s.cap? id = some c)
include h

theorem abortCapsule_ending {n : Nat} (gone : c.state = .ending n) :
    abortCapsule id code rep s = s.modCap id fun y => { y with nflt := min 65535 (y.nflt + 1) } := by
  simp only [abortCapsule, h, gone]

/-- What the stopped capsule is. -/
theorem capsuleStopped_cap : ∃ y, ((capsuleStopped id s).modCap id (ended code)).cap? id = some y ∧ y.state = .ending code ∧ y.joins = [] ∧
    y.launch = none ∧ y.exts = c.exts := by
  obtain ⟨y, hy, same⟩ := cap?_calm (capsuleStopped_undone id s).caps (s := dropMessages id s) h
  have exts : y.exts = c.exts := show (calm y).exts = (calm c).exts by rw [same]
  exact ⟨ended code y, cap?_modCap hy fun c => rfl, rfl, rfl, rfl, exts⟩

variable (live : c.state = .running ∨ c.state = .armed)
include live

/-- A capsule that runs or is armed is stopped, and its report is written where it has an extent for it. -/
theorem abortCapsule_unreported (none : reportExtent c = none) : abortCapsule id code rep s = (capsuleStopped id s).modCap id (ended code) := by
  rcases live with r | r <;> simp only [abortCapsule, h, r, none] <;> rfl

theorem abortCapsule_reported {x : Nat} {e : Extent} (some : reportExtent c = some (x, e)) : abortCapsule id code rep s =
    deviceWrite id e.base (rep.readBytes 0 512)
      { (capsuleStopped id s).modCap id (ended code) with reports := (rep :: ((capsuleStopped id s).modCap id (ended code)).reports).take 256 } := by
  rcases live with r | r <;> simp only [abortCapsule, h, r, some] <;> rfl

end

theorem capsuleStopped_net (id code : Nat) (s : State) : ∀ m ∈ ((capsuleStopped id s).modCap id (ended code)).net, m.cap ≠ id := by
  intro m hm
  have hm : m ∈ (capsuleStopped id s).net := hm
  rw [(capsuleStopped_undone id s).net] at hm
  simpa using (List.mem_filter.mp hm).2

/-- What an abort leaves (R227, R298). -/
theorem abortCapsule_spec {id code : Nat} {rep : Memory} {c : Capsule} {s : State} (h : s.cap? id = some c) (live : c.state = .running ∨ c.state = .armed) :
    let t := abortCapsule id code rep s
    (∃ y, t.cap? id = some y ∧ y.state = .ending code ∧ y.joins = [] ∧ y.launch = none ∧ y.exts = c.exts) ∧
    (∀ m ∈ t.net, m.cap ≠ id) ∧
    (reportExtent c = none → t.mem = s.mem) ∧
    (∀ x e, reportExtent c = some (x, e) → s.mem.wf = true → sealedRange s e.base 512 = false → t.mem.readBytes e.base 512 = rep.readBytes 0 512 ∧
      ∀ a, a < e.base ∨ e.base + 512 ≤ a → t.mem.read a = s.mem.read a) := by
  have undone := capsuleStopped_undone id s
  have cap := capsuleStopped_cap (code := code) h
  have net := capsuleStopped_net id code s
  have mem : (capsuleStopped id s).mem = s.mem := undone.mem
  have got : (capsuleStopped id s).got = s.got := undone.got
  dsimp only
  cases r : reportExtent c with
  | none =>
    rw [abortCapsule_unreported h live r]
    exact ⟨cap, net, fun _ => mem, nofun⟩
  | some p =>
    obtain ⟨x, e⟩ := p
    rw [abortCapsule_reported h live r]
    obtain ⟨nets, capss⟩ := deviceWrite_spares id e.base (rep.readBytes 0 512)
      { (capsuleStopped id s).modCap id (ended code) with reports := (rep :: ((capsuleStopped id s).modCap id (ended code)).reports).take 256 }
    refine ⟨?_, ?_, nofun, ?_⟩
    · rw [State.cap?, capss]; exact cap
    · rw [nets]; exact net
    · rintro x' e' same wf unsealed
      obtain ⟨rfl, rfl⟩ := Prod.mk.inj (Option.some.inj same)
      have len : (rep.readBytes 0 512).length = 512 := readBytes_length _ _ _
      generalize rep.readBytes 0 512 = bs at *
      have free : sealedRange { (capsuleStopped id s).modCap id (ended code) with
          reports := (rep :: ((capsuleStopped id s).modCap id (ended code)).reports).take 256 } e.base 512 = false := by
        simpa only [sealedRange, State.granule, State.modCap, got] using unsealed
      have written : (deviceWrite id e.base bs { (capsuleStopped id s).modCap id (ended code) with
          reports := (rep :: ((capsuleStopped id s).modCap id (ended code)).reports).take 256 }).mem = s.mem.writeBytes e.base bs := by
        rw [deviceWrite_mem, len, free]
        exact congrArg (·.writeBytes e.base bs) mem
      rw [written]
      exact ⟨readBytes_writeBytes wf len, fun a ha => Memory.read_writeBytes_other _ _ (by rwa [len])⟩

/-! A fault of a task (R204, R227, R230). -/

section
variable {at_ : Site} {k : Code} {d : Word} {s : State} (task : s.hart.kind = .task)
include task

theorem raise_task : raise at_ k (some d) s = taskFault at_ k d s := by simp only [raise, task]

theorem raise_resolved (res : k.cls = .resolved) : raise at_ k (some d) s = s.mod fun h => { h with run := .migrating (some d) } := by
  rw [raise_task task, taskFault, if_pos res, takeFault, res]

/-- Every other fault of a chunk that was overtaken is a squash. -/
theorem raise_squash (other : k.cls ≠ .resolved) (gives : faultGivesWay s = true) : raise at_ k (some d) s = onPair squash s := by
  rw [raise_task task, taskFault, if_neg other, chunkFault, if_pos gives]

/-- Else it is taken, in a task without a partner, once its producers are done. -/
theorem raise_taken (other : k.cls ≠ .resolved) (alone : s.hart.partner = none) (stays : overtaken s.hart = false ∨ s.hart.chunk.exclusive = true)
    (drained : (drain s).hart.partner = s.hart.partner) : raise at_ k (some d) s = takeFault at_ k d (drain s) := by
  have gives : faultGivesWay s = false := by
    rcases stays with h | h <;> simp [faultGivesWay, State.otherCopy, alone, h]
  rw [raise_task task, taskFault, if_neg other, chunkFault, gives, if_neg Bool.false_ne_true]
  dsimp only
  rw [drained, alone]
  rfl

end

theorem raise_firmware {at_ : Site} {k : Code} {d : Word} {s : State} (h : s.hart.kind = .firmware) :
    raise at_ k (some d) s = firmwareFault at_ k d s := by simp only [raise, h]

theorem raise_saffron {at_ : Site} {k : Code} {d : Word} {s : State} (h : s.hart.kind = .saffron) :
    raise at_ k (some d) s = saffronFault at_ k d s := by simp only [raise, h]

/-- A context whose producers are done: its registers have changed, nothing is in flight. -/
def drainedTo (r : Regs) (owed : Vector Nat 16) (h : Hart) : Hart := { h with r := r, inflight := [], owed := owed }

theorem drain_eq (s : State) : ∃ r owed, drain s = s.mod (drainedTo r owed) := by
  refine foldl_keeps (P := fun t : State => ∃ r owed, t = s.mod (drainedTo r owed)) ?_ _ ⟨s.hart.r, s.hart.owed, rfl⟩
  rintro t p ⟨r, owed, rfl⟩
  unfold deliver
  split
  · exact ⟨_, _, rfl⟩
  · exact ⟨_, _, rfl⟩
  · exact ⟨_, _, rfl⟩

theorem drain_partner (s : State) : (drain s).hart.partner = s.hart.partner := by
  obtain ⟨r, owed, e⟩ := drain_eq s
  rw [e]; rfl

theorem drain_mem (s : State) : (drain s).mem = s.mem := by
  obtain ⟨r, owed, e⟩ := drain_eq s
  rw [e]; rfl

/-- The redelivery count in s0 (R84, R294). -/
theorem withRdl_bits (r : Regs) {n : Nat} (h : n < 4) : bitsOf ((withRdl r n).s.get 0).toNat 58 57 = n := by
  have get : (withRdl r n).s.get 0 = word ((r.s.get 0).toNat - bitsOf (r.s.get 0).toNat 58 57 * 2 ^ 57 + n % 4 * 2 ^ 57) := get_set_same r.s 0 _
  have lt := (r.s.get 0).isLt
  rw [get]
  simp only [word, bitsOf, BitVec.toNat_ofNat]
  omega

section
variable (at_ : Site) (k : Code) (d : Word) (s : State)

/-- A context that has gone back to its checkpoint after an error (R38, R294). -/
def rolledBack (rep : Memory) (h : Hart) : Hart :=
  { discarded h with rdl := h.rdl + 1, report := rep, ckpt := withRdl h.ckpt (h.rdl + 1), r := withRdl h.ckpt (h.rdl + 1), sdist := h.ckptSdist,
                     run := if h.header.isSome || h.record.isSome then .clearing else .ready,
                     chunk := { Chunk.reset with squashes := h.chunk.squashes, exclusive := false } }

theorem rolledBack_fields (rep : Memory) (h : Hart) :
    (rolledBack rep h).run = (if h.header.isSome || h.record.isSome then .clearing else .ready) ∧ (rolledBack rep h).rdl = h.rdl + 1 ∧
    (rolledBack rep h).r = withRdl h.ckpt (h.rdl + 1) ∧ (rolledBack rep h).sdist = h.ckptSdist ∧ (rolledBack rep h).report = rep ∧
    (rolledBack rep h).chunk.effects = [] ∧ (rolledBack rep h).inflight = [] := ⟨rfl, rfl, rfl, rfl, rfl, rfl, rfl⟩

/-- The state with the error in its log (R307). -/
def errorLogged : State :=
  s.logPart s.partition { code := k.num, kind := 0, core := s.hart.core, queue := s.queueNo, detail := d, ctag := s.ctag }

theorem rollback_third (h : 2 ≤ s.hart.rdl) : rollback at_ k d s = capsuleFault at_ k.third d (errorLogged k d s) := if_pos h

theorem rollback_restarts (h : s.hart.rdl < 2) :
    (rollback at_ k d s).hart = rolledBack (faultReport at_ k.num d s) s.hart ∧ (rollback at_ k d s).mem = s.mem := by
  have undone := discardChunk_undone (errorLogged k d s)
  have hart := discardChunk_hart (errorLogged k d s)
  have unfolded : rollback at_ k d s = restoreCheckpoint (({ discardChunk (errorLogged k d s) with
      tokens := (discardChunk (errorLogged k d s)).tokens.filter (· != tokenOf (discardChunk (errorLogged k d s)).hart) } : State).mod fun x =>
        { x with rdl := x.rdl + 1, report := faultReport at_ k.num d s, ckpt := withRdl x.ckpt (x.rdl + 1), chunk := { x.chunk with exclusive := false } }) :=
    if_neg (by show ¬2 ≤ s.hart.rdl; omega)
  rw [unfolded]
  generalize discardChunk (errorLogged k d s) = t at undone hart
  refine ⟨?_, undone.mem⟩
  have e : t.hart = discarded s.hart := hart
  simp only [restoreCheckpoint, State.mod_hart, e]
  rfl

end

/-- Settles O55, clause by clause. -/
theorem takingExceptions : Obligations.TakingExceptions := by
  refine ⟨fun i o s => ?_, faultReport_fields, fun at_ k d s task alone => ?_, fun at_ k d p s task pair other ordinary late => ?_,
    fun id code rep c s h => ⟨fun x gone => abortCapsule_ending h gone, abortCapsule_spec h⟩, fun at_ k d s => ?_⟩
  · refine ⟨fun k c far => issue_fault (perform_safeDistance k c far), fun room p => issue_privileged room ?_, fun room p r h => issue_noRotation room p r h,
      fun room p r t ht h => issue_tileUnallocated room p r ht h,
      fun room p r tiles a more e => ⟨issue_emptyRead room p r tiles e, issue_emptyWait room p r tiles e⟩⟩
    rcases p with ⟨p, h⟩ | ⟨p, h⟩ <;> rw [p] <;> exact beq_false_of_ne h
  · have drained := drain_partner s
    refine ⟨raise_resolved task, fun other late ordinary => ?_, fun stays => ⟨fun c => ?_, fun c third => ?_, fun c more => ?_⟩⟩
    · rw [raise_squash task other (by simp [faultGivesWay, late, ordinary]), onPair, alone]
    · rw [raise_taken task (by rw [c]; nofun) alone stays drained, takeFault, c]
      rfl
    · refine ⟨errorLogged k d (drain s), ?_, rfl, rfl, rfl⟩
      rw [raise_taken task (by rw [c]; nofun) alone stays drained, takeFault, c]
      exact (if_pos third).trans (rollback_third _ _ _ _ third)
    · have taken : raise at_ k (some d) s = rollback at_ k d (drain s) := by
        rw [raise_taken task (by rw [c]; nofun) alone stays drained, takeFault, c]
        refine (if_neg (by omega)).trans ?_
        rw [onPair, drained, alone]
      obtain ⟨hart, mem⟩ := rollback_restarts at_ k d (drain s) more
      dsimp only
      rw [taken]
      have word0 := withRdl_bits (drain s).hart.ckpt (n := (drain s).hart.rdl + 1) (by omega)
      have fields := rolledBack_fields (faultReport at_ k.num d (drain s)) (drain s).hart
      rw [← hart] at fields
      obtain ⟨run, rdl, regs, dist, report, effects, inflight⟩ := fields
      refine ⟨run, rdl, regs, dist, report, effects, inflight, mem.trans (drain_mem s), ?_⟩
      rw [State.sreg, regs]
      exact word0
  · refine raise_squash task other ?_
    have copy : s.otherCopy = some p := pair
    rcases late with h | ⟨⟨c, f, h⟩, o⟩
    · simp [faultGivesWay, ordinary, h]
    · simp [faultGivesWay, ordinary, copy, awaitsFault, h, o]
  · refine ⟨fun k free => ?_, fun k busy => ?_, fun k free => ⟨Config.freeWord s.fresh, ?_⟩, fun k busy => ?_⟩
    · exact (raise_firmware k).trans (if_neg (not_not.mpr free))
    · exact (raise_firmware k).trans (if_pos busy)
    · exact (raise_saffron k).trans (if_neg (not_not.mpr free))
    · exact (raise_saffron k).trans (if_pos busy)

end Sys2Proof.Proofs
end

