-- ==== Sys2Proof/Proofs/Admission.lean ====
section
/-! PROOFS. Selection, admission, launches, pre-emption, watchdogs and the end of a capsule (O52). -/

namespace Sys2Proof.Proofs

open Sys2Proof Sys2Proof.Machine Sys2Proof.Claims

/-! What a unit of the device reads (R256, R259). -/

section
variable {s : State} {us : List Nat}

theorem asleep_iff : asleep s us = true ↔ Retained s us := by simp [asleep, Retained]

theorem asleep_of (h : Retained s us) : asleep s us = true := asleep_iff.2 h

theorem awake_of (h : ¬Retained s us) : ¬asleep s us = true := fun a => h (asleep_iff.1 a)

theorem deviceRead_asleep {p pa n : Nat} (h : Retained s (homeUnits s pa n)) : deviceRead p pa n s = (none, startExit (homeUnits s pa n) s) :=
  if_pos (asleep_of h)

/-- In a part without errors a read of awake units gives the bytes of memory. -/
theorem deviceRead_sound {p pa n : Nat} (awake : ¬Retained s (homeUnits s pa n)) (sound : Sound s pa n) :
    deviceRead p pa n s = (some (s.mem.readBytes pa n), noteUse (homeUnits s pa n) s) := by
  obtain ⟨faults, sram, clean⟩ := sound
  have clean : poisoned (noteUse (homeUnits s pa n) s) pa n = false := by
    show (poisonCause s pa n).isSome = false
    rw [clean]; rfl
  have out : outBytes pa n (noteUse (homeUnits s pa n) s) = (s.mem.readBytes pa n, noteUse (homeUnits s pa n) s) := by
    rw [outBytes, clean]; rfl
  have met : readLines p pa n (noteUse (homeUnits s pa n) s) = noteUse (homeUnits s pa n) s :=
    readLines_sound (s := noteUse _ s) faults sram _ _ _
  simp only [deviceRead, awake_of awake, met, out]
  rfl

/-! The extent list of a record (R275). -/

theorem readBytes_part (m : Memory) (a n i k : Nat) (h : i + k ≤ n) : ((m.readBytes a n).drop i).take k = m.readBytes (a + i) k := by
  refine List.ext_getElem (by simp [Memory.readBytes]; omega) fun j _ _ => ?_
  simp [Memory.readBytes, Nat.add_assoc]

/-- The descriptors that the bytes of a list give are the ones that stand there. -/
theorem listOf_readBytes (m : Memory) (a k : Nat) :
    listOf k (m.readBytes a (32 * k)) = (List.range k).map fun i => extentAt m (a + 32 * i) := by
  refine List.map_congr_left fun i hi => ?_
  have hi := List.mem_range.1 hi
  refine Vector.ext fun j hj => ?_
  rw [extentAt, Vector.getElem_ofFn, Vector.getElem_ofFn, readBytes_part _ _ _ _ _ (by omega), Memory.readLE, Nat.add_assoc]

theorem listInEntry_iff (q : Queue) (x n : Nat) : listInEntry q x n = true ↔ q.headEntry ≤ x ∧ x + n ≤ q.headEntry + 4096 := by
  simp [listInEntry]

section
variable {q : Queue} {pn owner k x : Nat}

theorem readList_refused (h : x % 256 ≠ 0 ∨ dumpBase < x + 32 * k ∨ granuleOf x ≠ granuleOf (x + 32 * k - 1)) :
    readList q pn owner k x s = (.error (.refused .recordFormat), s) := if_pos h

/-- Where a list may lie. -/
def Placed (x k : Nat) : Prop := x % 256 = 0 ∧ x + 32 * k ≤ dumpBase ∧ granuleOf x = granuleOf (x + 32 * k - 1)

theorem Placed.not (h : Placed x k) : ¬(x % 256 ≠ 0 ∨ dumpBase < x + 32 * k ∨ granuleOf x ≠ granuleOf (x + 32 * k - 1)) := by
  obtain ⟨aligned, below, granule⟩ := h
  exact fun bad => bad.elim (· aligned) fun bad => bad.elim (by omega) (· granule)

theorem readList_inside (h : Placed x k) (inside : q.headEntry ≤ x ∧ x + 32 * k ≤ q.headEntry + 4096) :
    readList q pn owner k x s = (.ok ((List.range k).map fun i => extentAt s.mem (x + 32 * i)), s) := by
  refine (if_neg h.not).trans ((if_pos ((listInEntry_iff ..).2 inside)).trans ?_)
  rw [listOf_readBytes]

variable (h : Placed x k) (outside : ¬(q.headEntry ≤ x ∧ x + 32 * k ≤ q.headEntry + 4096))
include h outside

theorem readList_foreign (other : ¬(gotState (s.granule (granuleOf x)) = 1 ∧ gotOwner (s.granule (granuleOf x)) = owner)) :
    readList q pn owner k x s = (.error (.refused .extentOwner), s) :=
  (if_neg h.not).trans ((if_neg fun a => outside ((listInEntry_iff ..).1 a)).trans (if_neg other))

variable (own : gotState (s.granule (granuleOf x)) = 1 ∧ gotOwner (s.granule (granuleOf x)) = owner)
include own

theorem readList_waits (asleep : Retained s (homeUnits s x (32 * k))) :
    readList q pn owner k x s = (.error .waits, startExit (homeUnits s x (32 * k)) s) := by
  refine (if_neg h.not).trans ((if_neg fun a => outside ((listInEntry_iff ..).1 a)).trans ((if_pos own).trans ?_))
  rw [deviceRead_asleep asleep]

theorem readList_read (awake : ¬Retained s (homeUnits s x (32 * k))) (sound : Sound s x (32 * k)) :
    readList q pn owner k x s = (.ok ((List.range k).map fun i => extentAt s.mem (x + 32 * i)), noteUse (homeUnits s x (32 * k)) s) := by
  refine (if_neg h.not).trans ((if_neg fun a => outside ((listInEntry_iff ..).1 a)).trans ((if_pos own).trans ?_))
  rw [deviceRead_sound awake sound]
  simp only [listOf_readBytes]

end
end

/-! The gate (R279). -/

section
variable {c : Capsule} {s : State} {pa : Nat}

theorem gateHolds_none (h : bitOf c.ctl 13 = false) : gateHolds c s = (.passed, s) := if_neg (by simp [h])

variable (gated : bitOf c.ctl 13 = true) (at_ : checkExtents c.exts (c.field 0xB0) 8 .read = .ok pa)
include gated at_

theorem gateHolds_waits (asleep : Retained s (homeUnits s pa 8)) : gateHolds c s = (.waits, startExit (homeUnits s pa 8) s) := by
  rw [gateHolds, if_pos gated]
  simp only [at_, deviceRead_asleep asleep]

theorem gateHolds_read (awake : ¬Retained s (homeUnits s pa 8)) (sound : Sound s pa 8) :
    gateHolds c s = (if s.mem.readLE pa 8 < (c.field 0xB8).toNat then .below pa else .passed, noteUse (homeUnits s pa 8) s) := by
  rw [gateHolds, if_pos gated]
  simp only [at_, deviceRead_sound awake sound, Memory.readLE]
  rfl

end

/-! The head of a queue (R274 to R281). -/

section
variable {n : Nat} {p : Part} {c : Capsule} {e : RingEntry} {s u : State}

theorem placeHead_waits (h : gateHolds c s = (.waits, u)) : placeHead n p c e s = { u with selected := n :: u.selected } := by
  simp only [placeHead, h, keepSelected]

theorem placeHead_below {pa : Nat} (h : gateHolds c s = (.below pa, u)) :
    placeHead n p c e s = (holdHead n 1 u).modQueue n fun x =>
      { x with gatest := word (2 ^ 63 + pa), watched := decide (watchesOn u (homeDie u pa) < 4096) } := by
  simp only [placeHead, h]

/-- The slices of the handler header (R259). -/
def headerUnits (c : Capsule) (u : State) : List Nat := ((headerAt c).toList.map fun pa => homeUnits u pa 4).flatten

variable (h : gateHolds c s = (.passed, u))
include h

theorem placeHead_asleep (asleep : Retained u (headerUnits c u)) : placeHead n p c e s = awaits n (headerUnits c u) u := by
  simp only [placeHead, h]
  exact if_pos (asleep_of asleep)

variable (awake : ¬Retained u (headerUnits c u))
include awake

/-- A capsule that is armed in an inference partition takes a reserved core where one allows its binding (R288). -/
theorem placeHead_reserved {core : Nat} {f : List (Nat × Word) × List (Nat × Word)} (armed : arms p c = true) (klass : p.klass = 1)
    (bound : bindReserved (noteUse (headerUnits c u) u) p c = some (core, f)) :
    placeHead n p c e s = launch c f (some core) (hintOf core) true (noteUse (headerUnits c u) u) := by
  simp only [placeHead, h]
  refine (if_neg (awake_of awake)).trans ?_
  simp only [headerUnits] at bound
  simp only [armed, klass, bound, beq_self_eq_true, Bool.and_self, if_true, headerUnits]

variable (plain : arms p c = true → p.klass = 1 → bindReserved (noteUse (headerUnits c u) u) p c = none)
include plain

omit h awake in
theorem placeHead_choice : (if arms p c && p.klass == 1 then bindReserved (noteUse (headerUnits c u) u) p c else none) = none := by
  split
  · next both =>
    obtain ⟨armed, klass⟩ := Bool.and_eq_true_iff.1 both
    exact plain armed (beq_iff_eq.1 klass)
  · rfl

theorem placeHead_bound {f : List (Nat × Word) × List (Nat × Word)}
    (bound : bindAmong (noteUse (headerUnits c u) u) p c c.hint none (eligibleCore (noteUse (headerUnits c u) u) p n none []) = some f) :
    placeHead n p c e s = launch c f none c.hint (arms p c) (noteUse (headerUnits c u) u) := by
  have choice := placeHead_choice plain
  simp only [placeHead, h]
  refine (if_neg (awake_of awake)).trans ?_
  simp only [headerUnits] at choice bound
  simp only [choice, bound, headerUnits]

theorem placeHead_unbound
    (unbound : bindAmong (noteUse (headerUnits c u) u) p c c.hint none (eligibleCore (noteUse (headerUnits c u) u) p n none []) = none) :
    placeHead n p c e s = if (bindAmong (noteUse (headerUnits c u) u) p c c.hint none fun _ => true).isSome
      then holdHead n 3 (noteUse (headerUnits c u) u) else refuseHead n .noFootprint e (noteUse (headerUnits c u) u) := by
  have choice := placeHead_choice plain
  simp only [placeHead, h]
  refine (if_neg (awake_of awake)).trans ?_
  simp only [headerUnits] at choice unbound
  simp only [choice, unbound, headerUnits]
  split <;> simp_all

end

theorem timeHolds_iff (s : State) (p : Part) (r : Memory) :
    timeHolds s p r = true ↔ s.now.toNat + p.window < r.readLE 0xA0 8 ∨
      (r.readLE 0xA0 8 ≠ 0 ∧ p.window ≠ 0 ∧ 64 ≤ s.caps.countP fun c => c.part == p.no && c.state == .armed) := by
  simp [timeHolds, and_assoc]

theorem arms_iff (p : Part) (c : Capsule) : arms p c = true ↔ c.field 0xA0 ≠ 0 ∧ p.window ≠ 0 := by simp [arms]

theorem releaseTime_eq (s : State) (p : Part) (c : Capsule) :
    releaseTime s p c = if c.field 0xA0 ≠ 0 ∧ p.window ≠ 0 then c.field 0xA0 else s.now := by
  simp only [releaseTime, arms_iff]

theorem eligible_iff (s : State) (y : Queue) :
    eligible s y = true ↔ ∃ p, y.partition = some p ∧ y.en = true ∧ y.waiting ≠ 0 ∧ y.held = false ∧ y.tearing = false ∧
      (y.serial = true → s.inFlight y.no = []) ∧ (s.inFlight y.no).length < y.space ∧ s.inReset p = false ∧ s.selected.contains y.no = false := by
  unfold eligible
  cases y.partition with
  | none => simp
  | some p =>
    cases y.serial <;> simp [and_assoc]

theorem endpoint_gate {b : Nat} (h : bitsOf b 63 60 = 1) (high : dumpBase ≤ bitsOf b 47 0) : endpointOk b = false := by
  simp only [endpointOk, h, Bool.and_eq_false_iff]
  exact .inr (decide_eq_false (by omega))

theorem head?_iff (q : Queue) (s : State) (e : RingEntry) :
    q.head? s = some e ↔ q.waiting ≠ 0 ∧ e = ringEntry s (q.srbase.toNat + 4096 * ((q.placed - q.waiting) % q.ringSize)) := by
  unfold Queue.head?
  split
  · next none_ => simp [none_]
  · next some_ => simp [some_, Queue.entryAt, Queue.headNo, eq_comm]

theorem head?_none {q : Queue} {s : State} (h : q.waiting = 0) : q.head? s = none := if_pos h

section
variable {q : Queue} {p : Part} {e : RingEntry} {s : State}

theorem verify_malformed (h : reservedOk e.record = false ∨ scopeOk e.record = false) :
    verify q p e s = (.error (.refused .recordFormat), s) := by
  refine if_pos ?_
  obtain h | h := h <;> simp [h]

theorem verify_sealed (reserved : reservedOk e.record = true) (scope : scopeOk e.record = true)
    (h : Crypto.kwUnwrap (Crypto.keyBytes Config.deviceKey) (e.record.readBytes 0xC8 40) = none) :
    verify q p e s = (.error (.refused .sealFail), s) := by
  refine (if_neg (by simp [reserved, scope])).trans ?_
  rw [h]

end

end Sys2Proof.Proofs
end

