-- ==== Sys2Proof/Proofs/Selection.lean ====
section
/-! PROOFS. The selection of a queue: credits, and the loop over a level (R282, R283). -/

namespace Sys2Proof.Proofs

open Sys2Proof Sys2Proof.Machine Sys2Proof.Claims

/-! What a selection leaves as it is. -/

/-- The state but for the deficits of queues and the pointers of levels. -/
structure Alike (s t : State) : Prop where
  mem : t.mem = s.mem
  hart : t.hart = s.hart
  caps : t.caps = s.caps
  selected : t.selected = s.selected
  clock : t.clock = s.clock
  queue : ∀ n, ∃ d, t.queue n = { s.queue n with deficit := d }
  reset : ∀ b, (t.part b).resetEnd = (s.part b).resetEnd
  credit : ∀ b, (t.part b).cr = (s.part b).cr

namespace Alike
variable {s t u : State} {p v n : Nat}

theorem refl (s : State) : Alike s s := ⟨rfl, rfl, rfl, rfl, rfl, fun _ => ⟨_, rfl⟩, fun _ => rfl, fun _ => rfl⟩

theorem trans (a : Alike s t) (b : Alike t u) : Alike s u where
  mem := b.mem.trans a.mem
  hart := b.hart.trans a.hart
  caps := b.caps.trans a.caps
  selected := b.selected.trans a.selected
  clock := b.clock.trans a.clock
  queue n := by
    obtain ⟨d, hd⟩ := a.queue n
    obtain ⟨e, he⟩ := b.queue n
    exact ⟨e, by rw [he, hd]⟩
  reset n := (b.reset n).trans (a.reset n)
  credit n := (b.credit n).trans (a.credit n)

theorem inReset (a : Alike s t) (b : Nat) : t.inReset b = s.inReset b := by
  rw [State.inReset, State.inReset, a.clock, a.reset]

theorem inFlight (a : Alike s t) (n : Nat) : t.inFlight n = s.inFlight n := by
  rw [State.inFlight, State.inFlight, a.caps]

/-- The eligibility of a queue does not depend on deficits and pointers. -/
theorem eligible (a : Alike s t) (n : Nat) : Machine.eligible t (t.queue n) = Machine.eligible s (s.queue n) := by
  obtain ⟨d, hd⟩ := a.queue n
  rw [hd]
  unfold Machine.eligible
  rw [a.selected]
  simp only [a.inReset, a.inFlight]
  rfl

theorem setDeficit (s : State) (n : Nat) (f : Queue → Nat) : Alike s (s.modQueue n fun y => { y with deficit := f y }) where
  mem := rfl
  hart := rfl
  caps := rfl
  selected := rfl
  clock := rfl
  queue m := by
    by_cases h : m = n
    · subst h
      exact ⟨_, State.queue_modQueue_same _ _ _ (State.queue_no _ _)⟩
    · exact ⟨_, State.queue_modQueue_other _ _ (State.queue_no _ _) h⟩
  reset _ := rfl
  credit _ := rfl

theorem setPart (s : State) (p : Nat) (f : Part → Part) (no : (f (s.part p)).no = p) (reset : (f (s.part p)).resetEnd = (s.part p).resetEnd)
    (credit : (f (s.part p)).cr = (s.part p).cr) : Alike s (s.modPart p f) where
  mem := rfl
  hart := rfl
  caps := rfl
  selected := rfl
  clock := rfl
  queue _ := ⟨_, rfl⟩
  reset b := by
    by_cases h : b = p
    · rw [h, State.part_modPart_same _ _ _ no, reset]
    · rw [State.part_modPart_other _ _ no h]
  credit b := by
    by_cases h : b = p
    · rw [h, State.part_modPart_same _ _ _ no, credit]
    · rw [State.part_modPart_other _ _ no h]

theorem moveOn (s : State) : Alike s (Machine.moveOn p v n s) := setPart s p _ (State.part_no _ _) rfl rfl

theorem arriveAt (s : State) : Alike s (Machine.arriveAt p v s) := setPart s p _ (State.part_no _ _) rfl rfl

end Alike

/-! The loop over the queues of a level (R283). -/

/-- The pointer of a level. -/
def pointer (p v : Nat) (s : State) : Nat := (s.part p).ptr.get (Fin.ofNat 8 v)

/-- The pointer stands at a queue: on its arrival the queue's deficit grows. -/
def arrived (p v q : Nat) (s : State) : State :=
  if (s.part p).arrived.get (Fin.ofNat 8 v) then s
  else arriveAt p v (s.modQueue q fun y => { y with deficit := Nat.min 4 (y.deficit + 1) })

/-- The state after a turn that takes a queue. -/
def taken (p v n q : Nat) (s : State) : State :=
  let t := s.modQueue q fun y => { y with deficit := y.deficit - 1 }
  if (s.queue q).deficit - 1 = 0 then moveOn p v n t else t

/-- The state after a turn that passes a queue. -/
def passed (p v n q : Nat) (s : State) : State :=
  moveOn p v n (if (s.queue q).waiting = 0 then s.modQueue q fun y => { y with deficit := 0 } else s)

section
variable {p v n q k : Nat} {qs : List Nat} {s : State}

theorem arrived_alike : Alike s (arrived p v q s) := by
  unfold arrived
  split
  · exact .refl s
  · exact (Alike.setDeficit s q _).trans (.arriveAt _)

theorem taken_alike : Alike s (taken p v n q s) := by
  unfold taken
  split
  · exact (Alike.setDeficit s q _).trans (.moveOn _)
  · exact Alike.setDeficit s q _

theorem passed_alike : Alike s (passed p v n q s) := by
  unfold passed
  refine .trans ?_ (.moveOn _)
  split
  · exact Alike.setDeficit s q _
  · exact .refl s

theorem selectQueue_end (h : qs[pointer p v s % qs.length]? = none) : selectQueue p v qs (k + 1) s = (none, s) := by
  unfold pointer at h
  rw [selectQueue]
  simp only [h]

variable (h : qs[pointer p v s % qs.length]? = some q)
include h

theorem selectQueue_takes (e : eligible s (s.queue q) = true) :
    selectQueue p v qs (k + 1) s = (some q, taken p v qs.length q (arrived p v q s)) := by
  have e : eligible (arrived p v q s) ((arrived p v q s).queue q) = true := (arrived_alike.eligible q).trans e
  unfold pointer at h
  unfold arrived at e
  rw [selectQueue]
  simp only [h, e, if_true]
  rfl

theorem selectQueue_passes (e : eligible s (s.queue q) = false) :
    selectQueue p v qs (k + 1) s = selectQueue p v qs k (passed p v qs.length q (arrived p v q s)) := by
  have e : eligible (arrived p v q s) ((arrived p v q s).queue q) = false := (arrived_alike.eligible q).trans e
  unfold pointer at h
  unfold arrived at e
  rw [selectQueue]
  simp only [h, e]
  rfl

end

/-- What the loop takes is eligible, and beside deficits and pointers it changes nothing. -/
theorem selectQueue_alike (p v : Nat) (qs : List Nat) (k : Nat) (s : State) :
    Alike s (selectQueue p v qs k s).2 ∧ ∀ q, (selectQueue p v qs k s).1 = some q → eligible s (s.queue q) = true := by
  induction k generalizing s with
  | zero => exact ⟨.refl s, nofun⟩
  | succ k ih =>
    cases h : qs[pointer p v s % qs.length]? with
    | none => rw [selectQueue_end h]; exact ⟨.refl s, nofun⟩
    | some q =>
      cases e : eligible s (s.queue q) with
      | true =>
        rw [selectQueue_takes h e]
        exact ⟨arrived_alike.trans taken_alike, fun x hx => Option.some.inj hx ▸ e⟩
      | false =>
        rw [selectQueue_passes h e]
        have a : Alike s (passed p v qs.length q (arrived p v q s)) := arrived_alike.trans passed_alike
        obtain ⟨b, f⟩ := ih (passed p v qs.length q (arrived p v q s))
        exact ⟨a.trans b, fun x hx => (a.eligible x).symm.trans (f x hx)⟩

theorem pointer_moveOn {p v n : Nat} (small : v < 8) (s : State) : pointer p v (moveOn p v n s) = (pointer p v s + 1) % n := by
  unfold pointer moveOn
  rw [State.part_modPart_same _ _ _ (State.part_no _ _), get_ofFn]
  exact if_pos (Nat.mod_eq_of_lt small)

theorem pointer_arrived (p v q : Nat) (s : State) : pointer p v (arrived p v q s) = pointer p v s := by
  unfold arrived
  split
  · rfl
  · unfold pointer arriveAt
    rw [State.part_modPart_same _ _ _ (State.part_no _ _)]
    rfl

theorem pointer_passed {p v n q : Nat} (small : v < 8) (s : State) : pointer p v (passed p v n q s) = (pointer p v s + 1) % n := by
  unfold passed
  rw [pointer_moveOn small]
  split <;> rfl

/-- The loop takes the first eligible queue from the pointer on. -/
theorem selectQueue_first {p v : Nat} {qs : List Nat} (small : v < 8) {m k x : Nat} {s : State} (enough : m < k)
    (at_ : qs[(pointer p v s + m) % qs.length]? = some x) (e : eligible s (s.queue x) = true)
    (before : ∀ j < m, ∀ y, qs[(pointer p v s + j) % qs.length]? = some y → eligible s (s.queue y) = false) :
    (selectQueue p v qs k s).1 = some x := by
  induction m generalizing k s with
  | zero =>
    obtain ⟨k, rfl⟩ := Nat.exists_eq_succ_of_ne_zero (by omega : k ≠ 0)
    rw [selectQueue_takes at_ e]
  | succ m ih =>
    obtain ⟨k, rfl⟩ := Nat.exists_eq_succ_of_ne_zero (by omega : k ≠ 0)
    have room : 0 < qs.length := by
      cases qs with
      | nil => simp at at_
      | cons => simp
    obtain ⟨q, here⟩ : ∃ q, qs[pointer p v s % qs.length]? = some q := ⟨_, List.getElem?_eq_getElem (Nat.mod_lt _ room)⟩
    have pass := before 0 (by omega) q here
    have a : Alike s (passed p v qs.length q (arrived p v q s)) := arrived_alike.trans passed_alike
    have next (j : Nat) : (pointer p v (passed p v qs.length q (arrived p v q s)) + j) % qs.length = (pointer p v s + (j + 1)) % qs.length := by
      rw [pointer_passed small, pointer_arrived, Nat.mod_add_mod, Nat.add_assoc, Nat.add_comm 1]
    rw [selectQueue_passes here pass]
    refine ih (by omega) (by rw [next]; exact at_) ((a.eligible x).trans e) fun j hj y hy => ?_
    rw [next] at hy
    exact (a.eligible y).trans (before (j + 1) (by omega) y hy)

/-! The queues of a level. -/

/-- A number takes its place in an ascending list. -/
def placedIn (acc : List Nat) (n : Nat) : List Nat := acc.filter (· < n) ++ n :: acc.filter (n < ·)

theorem mem_placedIn {acc : List Nat} {n x : Nat} : x ∈ placedIn acc n ↔ x ∈ acc ∨ x = n := by
  simp only [placedIn, List.mem_append, List.mem_filter, List.mem_cons, decide_eq_true_eq]
  obtain h | h | h := lt_trichotomy x n
  · simp [h, h.not_gt, h.ne]
  · simp [h]
  · simp [h, h.not_gt, h.ne']

theorem mem_foldl_placedIn {l acc : List Nat} {x : Nat} : x ∈ l.foldl placedIn acc ↔ x ∈ acc ∨ x ∈ l := by
  induction l generalizing acc with
  | nil => simp
  | cons n l ih => rw [List.foldl_cons, ih, mem_placedIn, List.mem_cons, or_assoc]

theorem mem_levelQueues {s : State} {p v x : Nat} :
    x ∈ levelQueues s p v ↔ ∃ q ∈ s.queues, q.partition = some p ∧ q.en = true ∧ q.pri = v ∧ q.no = x := by
  refine (mem_foldl_placedIn (acc := [])).trans ?_
  simp [and_assoc]

/-- With every queue listed once, a listed queue is the one of its number. -/
theorem queue_of_mem {s : State} {q : Queue} (once : (s.queues.map Queue.no).Nodup) (h : q ∈ s.queues) : s.queue q.no = q := by
  unfold State.queue
  generalize s.queues = l at once h
  induction l with
  | nil => cases h
  | cons x l ih =>
    rw [List.map_cons, List.nodup_cons] at once
    obtain ⟨fresh, once⟩ := once
    rw [lookup]
    obtain rfl | h := List.mem_cons.1 h
    · exact if_pos rfl
    · rw [if_neg fun same : x.no = q.no => fresh (same ▸ List.mem_map_of_mem h), ih once h]

/-! The credits of the partitions (R283). -/

theorem mem_eligibleParts {s : State} {p : Nat} :
    p ∈ eligibleParts s ↔ p < 16 ∧ ∃ q ∈ s.queues, q.partition = some p ∧ eligible s q = true := by
  simp [eligibleParts]

theorem eligibleParts_sorted (s : State) : (eligibleParts s).Pairwise (· < ·) := List.pairwise_lt_range.filter _

/-- A step of the search for the largest credit. -/
def better (s : State) (best : Option Nat) (p : Nat) : Option Nat :=
  match best with
  | none => some p
  | some b => if (s.part b).cr < (s.part p).cr then some p else some b

theorem largestCredit_eq (s : State) (ps : List Nat) : largestCredit s ps = ps.foldl (better s) none := rfl

theorem better_largest {s : State} {ps : List Nat} {b p : Nat} (sorted : (b :: ps).Pairwise (· < ·)) (h : ps.foldl (better s) (some b) = some p) :
    p ∈ b :: ps ∧ ∀ x ∈ b :: ps, (s.part x).cr ≤ (s.part p).cr ∧ ((s.part x).cr = (s.part p).cr → p ≤ x) := by
  induction ps generalizing b with
  | nil =>
    cases h
    exact ⟨List.mem_singleton_self _, fun x hx => by rw [List.mem_singleton.1 hx]; exact ⟨le_rfl, fun _ => le_rfl⟩⟩
  | cons y ps ih =>
    obtain ⟨low, sorted'⟩ := List.pairwise_cons.1 sorted
    have first := low y (List.mem_cons_self ..)
    rw [List.foldl_cons, better] at h
    split at h
    · next more =>
      obtain ⟨at_, all⟩ := ih sorted' h
      refine ⟨List.mem_cons_of_mem _ at_, fun x hx => ?_⟩
      obtain rfl | hx := List.mem_cons.1 hx
      · obtain ⟨up, _⟩ := all y (List.mem_cons_self ..)
        exact ⟨by omega, fun same => by omega⟩
      · exact all x hx
    · next less =>
      have skip : (b :: ps).Pairwise (· < ·) :=
        List.pairwise_cons.2 ⟨fun x hx => low x (List.mem_cons_of_mem _ hx), (List.pairwise_cons.1 sorted').2⟩
      obtain ⟨at_, all⟩ := ih skip h
      refine ⟨?_, fun x hx => ?_⟩
      · obtain rfl | at_ := List.mem_cons.1 at_
        · exact List.mem_cons_self ..
        · exact List.mem_cons_of_mem _ (List.mem_cons_of_mem _ at_)
      · obtain ⟨up, tie⟩ := all b (List.mem_cons_self ..)
        obtain rfl | hx := List.mem_cons.1 hx
        · exact ⟨up, tie⟩
        obtain rfl | hx := List.mem_cons.1 hx
        · exact ⟨by omega, fun same => by have := tie (by omega); omega⟩
        · exact all x (List.mem_cons_of_mem _ hx)

theorem better_some (s : State) (ps : List Nat) (b : Nat) : ∃ p, ps.foldl (better s) (some b) = some p := by
  induction ps generalizing b with
  | nil => exact ⟨b, rfl⟩
  | cons y ps ih =>
    rw [List.foldl_cons, better]
    split
    · exact ih y
    · exact ih b

/-- The partition with the largest credit, the lowest of those that have it. -/
theorem largestCredit_spec {s : State} {ps : List Nat} (sorted : ps.Pairwise (· < ·)) (some_ : ps ≠ []) :
    ∃ p ∈ ps, largestCredit s ps = some p ∧ ∀ x ∈ ps, (s.part x).cr ≤ (s.part p).cr ∧ ((s.part x).cr = (s.part p).cr → p ≤ x) := by
  cases ps with
  | nil => exact absurd rfl some_
  | cons b ps =>
    obtain ⟨p, hp⟩ := better_some s ps b
    obtain ⟨at_, all⟩ := better_largest sorted hp
    exact ⟨p, at_, hp, all⟩

/-- A partition's credit grows. -/
def credit (t : State) (p : Nat) : State := t.modPart p fun x => { x with cr := x.cr + Int.ofNat x.wadm }

/-- Credits alone are changed in the partitions. -/
structure Credits (s t : State) : Prop where
  only : ∃ l, t = { s with parts := l }
  same : ∀ b, t.part b = { s.part b with cr := (t.part b).cr }

theorem Credits.refl (s : State) : Credits s s := ⟨⟨_, rfl⟩, fun _ => rfl⟩

theorem Credits.setCredit {s t : State} (h : Credits s t) (p : Nat) (f : Part → Int) : Credits s (t.modPart p fun x => { x with cr := f x }) where
  only := by
    obtain ⟨l, rfl⟩ := h.only
    exact ⟨_, rfl⟩
  same b := by
    by_cases here : b = p
    · subst here
      rw [State.part_modPart_same _ _ _ (State.part_no _ _), h.same]
    · rw [State.part_modPart_other _ _ (State.part_no _ _) here]
      exact h.same b

theorem Credits.wadm {s t : State} (h : Credits s t) (b : Nat) : (t.part b).wadm = (s.part b).wadm := by
  rw [h.same]; rfl

theorem Credits.eligible {s t : State} (h : Credits s t) (q : Queue) : Machine.eligible t q = Machine.eligible s q := by
  have reset (b : Nat) : t.inReset b = s.inReset b := by
    obtain ⟨l, only⟩ := h.only
    rw [State.inReset, State.inReset, h.same, only]
  obtain ⟨l, rfl⟩ := h.only
  unfold Machine.eligible
  simp only [reset]
  rfl

theorem foldl_credit {s t : State} (h : Credits s t) {ps : List Nat} (once : ps.Nodup) :
    Credits s (ps.foldl credit t) ∧ (∀ b ∈ ps, ((ps.foldl credit t).part b).cr = (t.part b).cr + Int.ofNat (s.part b).wadm) ∧
      ∀ b, b ∉ ps → ((ps.foldl credit t).part b).cr = (t.part b).cr := by
  induction ps generalizing t with
  | nil => exact ⟨h, nofun, fun _ _ => rfl⟩
  | cons p ps ih =>
    obtain ⟨fresh, once⟩ := List.nodup_cons.1 once
    have here : ((credit t p).part p).cr = (t.part p).cr + Int.ofNat (s.part p).wadm := by
      rw [credit, State.part_modPart_same _ _ _ (State.part_no _ _), ← h.wadm]
    have there {b : Nat} (d : b ≠ p) : (credit t p).part b = t.part b := State.part_modPart_other _ _ (State.part_no _ _) d
    obtain ⟨c, inside, outside⟩ := ih (t := credit t p) (h.setCredit p _) once
    refine ⟨c, fun b hb => ?_, fun b hb => ?_⟩
    · obtain rfl | hb := List.mem_cons.1 hb
      · exact (outside b fresh).trans here
      · refine (inside b hb).trans ?_
        rw [there fun same => fresh (same ▸ hb)]
    · obtain ⟨other, hb⟩ := not_or.1 (mt List.mem_cons.2 hb)
      exact (outside b hb).trans (by rw [there other])

/-! One selection (R283). -/

theorem foldl_max_le (l : List Queue) (m : Nat) : m ≤ l.foldl (fun m q => Nat.max m q.pri) m ∧ ∀ q ∈ l, q.pri ≤ l.foldl (fun m q => Nat.max m q.pri) m := by
  induction l generalizing m with
  | nil => exact ⟨le_rfl, nofun⟩
  | cons x l ih =>
    obtain ⟨low, all⟩ := ih (Nat.max m x.pri)
    refine ⟨(Nat.le_max_left m x.pri).trans low, fun q hq => ?_⟩
    obtain rfl | hq := List.mem_cons.1 hq
    · exact (Nat.le_max_right m _).trans low
    · exact all q hq

theorem foldl_max_mem (l : List Queue) (m : Nat) :
    l.foldl (fun m q => Nat.max m q.pri) m = m ∨ ∃ q ∈ l, q.pri = l.foldl (fun m q => Nat.max m q.pri) m := by
  induction l generalizing m with
  | nil => exact .inl rfl
  | cons x l ih =>
    rw [List.foldl_cons]
    obtain same | ⟨q, hq, same⟩ := ih (Nat.max m x.pri)
    · rw [same]
      obtain more | less := Nat.le_total m x.pri
      · exact .inr ⟨x, List.mem_cons_self .., (Nat.max_eq_right more).symm⟩
      · exact .inl (Nat.max_eq_left less)
    · exact .inr ⟨q, List.mem_cons_of_mem _ hq, same⟩

theorem pri_lt (q : Queue) : q.pri < 8 := by
  unfold Queue.pri bitsOf
  exact Nat.mod_lt _ (by decide)

/-- The eligible queues of a partition. -/
def candidates (s : State) (p : Nat) : List Queue := s.queues.filter fun q => q.partition == some p && eligible s q

/-- The highest priority among them. -/
def topLevel (s : State) (p : Nat) : Nat := (candidates s p).foldl (fun m q => Nat.max m q.pri) 0

theorem mem_candidates {s : State} {p : Nat} {q : Queue} :
    q ∈ candidates s p ↔ q ∈ s.queues ∧ q.partition = some p ∧ eligible s q = true := by simp [candidates]

/-- A partition with an eligible queue has one at its top level, and none above. -/
theorem topLevel_spec {s : State} {p : Nat} (h : p ∈ eligibleParts s) :
    (∃ q ∈ candidates s p, q.pri = topLevel s p) ∧ ∀ q ∈ candidates s p, q.pri ≤ topLevel s p := by
  obtain ⟨_, q, listed, part, able⟩ := mem_eligibleParts.1 h
  have here : q ∈ candidates s p := mem_candidates.2 ⟨listed, part, able⟩
  obtain ⟨_, all⟩ := foldl_max_le (candidates s p) 0
  refine ⟨?_, all⟩
  obtain zero | top := foldl_max_mem (candidates s p) 0
  · have := all q here
    exact ⟨q, here, by unfold topLevel; omega⟩
  · exact top

/-- The credits after the partitions with an eligible queue have gained theirs, and after the chosen one has paid. -/
def credited (s : State) : State := (eligibleParts s).foldl credit s
def paid (s : State) (p : Nat) : State :=
  (credited s).modPart p fun x => { x with cr := x.cr - Int.ofNat (((eligibleParts s).map fun b => (s.part b).wadm).foldl (· + ·) 0) }

theorem credited_spec (s : State) : Credits s (credited s) ∧
    (∀ b ∈ eligibleParts s, ((credited s).part b).cr = (s.part b).cr + Int.ofNat (s.part b).wadm) ∧
    ∀ b, b ∉ eligibleParts s → ((credited s).part b).cr = (s.part b).cr :=
  foldl_credit (.refl s) ((eligibleParts_sorted s).imp Nat.ne_of_lt)

theorem paid_credits (s : State) (p : Nat) : Credits s (paid s p) := (credited_spec s).1.setCredit p _

/-- The queue that the loop takes at the top level of a partition, and the state after it. -/
def chosen (p : Nat) (s : State) : Option Nat × State :=
  selectQueue p (topLevel s p) (levelQueues s p (topLevel s p)) (2 * (levelQueues s p (topLevel s p)).length) s

/-- The queue taken enters the pipeline (R274). -/
def entered : Option Nat × State → State
  | (some q, t) => { t with selected := t.selected ++ [q] }
  | (none, t) => t

theorem select_none {s : State} (h : eligibleParts s = []) : select s = s := by
  unfold select
  rw [h]
  rfl

theorem select_eq {s : State} {p : Nat} (h : largestCredit (credited s) (eligibleParts s) = some p) : select s = entered (chosen p (paid s p)) := by
  unfold select
  show (match largestCredit (credited s) (eligibleParts s) with | none => _ | some p => _) = _
  rw [h]
  rfl

section
variable {s t : State} (c : Credits s t) (p : Nat)
include c

theorem Credits.candidates : candidates t p = candidates s p := by
  unfold Proofs.candidates
  obtain ⟨l, only⟩ := c.only
  simp only [c.eligible]
  rw [only]

theorem Credits.topLevel : topLevel t p = topLevel s p := by
  rw [Proofs.topLevel, c.candidates]; rfl

theorem Credits.levelQueues (v : Nat) : levelQueues t p v = levelQueues s p v := by
  obtain ⟨l, only⟩ := c.only
  rw [only]; rfl

theorem Credits.queue (n : Nat) : t.queue n = s.queue n := by
  obtain ⟨l, only⟩ := c.only
  rw [only]; rfl

theorem Credits.pointer (v : Nat) : pointer p v t = pointer p v s := by
  unfold Proofs.pointer
  rw [c.same]

end

/-- From any pointer on, each entry of a list is reached within one round. -/
theorem reached {l : List Nat} {i x : Nat} (at_ : l[i]? = some x) (from_ : Nat) : ∃ k < l.length, l[(from_ + k) % l.length]? = some x := by
  obtain ⟨room, _⟩ := List.getElem?_eq_some_iff.1 at_
  have positive : 0 < l.length := by omega
  have low := Nat.mod_lt from_ positive
  refine ⟨(i + (l.length - from_ % l.length)) % l.length, Nat.mod_lt _ positive, ?_⟩
  have : (from_ + (i + (l.length - from_ % l.length)) % l.length) % l.length = i := by
    rw [Nat.add_mod_mod, ← Nat.mod_add_mod, show from_ % l.length + (i + (l.length - from_ % l.length)) = i + l.length by omega, Nat.add_mod_right,
      Nat.mod_eq_of_lt room]
  rw [this, at_]

/-- The queue `x` is the first eligible one of a level from its pointer on, after `k` others. -/
def FirstFrom (s : State) (p v x k : Nat) : Prop :=
  k < (levelQueues s p v).length ∧ (levelQueues s p v)[(pointer p v s + k) % (levelQueues s p v).length]? = some x ∧
    ∀ j < k, ∀ y, (levelQueues s p v)[(pointer p v s + j) % (levelQueues s p v).length]? = some y → eligible s (s.queue y) = false

/-- A level with an eligible queue has a first one. -/
theorem exists_firstFrom {s : State} {p v q : Nat} (h : q ∈ levelQueues s p v) (able : eligible s (s.queue q) = true) :
    ∃ x k, FirstFrom s p v x k ∧ eligible s (s.queue x) = true := by
  obtain ⟨i, at_⟩ := List.getElem?_of_mem h
  obtain ⟨m, round, at_⟩ := reached at_ (pointer p v s)
  have some_ : ∃ k x, (levelQueues s p v)[(pointer p v s + k) % (levelQueues s p v).length]? = some x ∧ eligible s (s.queue x) = true := ⟨m, q, at_, able⟩
  classical
  obtain ⟨x, here, first⟩ := Nat.find_spec some_
  refine ⟨x, Nat.find some_, ⟨(Nat.find_min' some_ ⟨q, at_, able⟩).trans_lt round, here, fun j hj y hy => ?_⟩, first⟩
  exact Bool.eq_false_iff.2 fun e => Nat.find_min some_ hj ⟨y, hy, e⟩

/-- At the top level of a partition with an eligible queue, the loop takes the first eligible queue from the pointer on. -/
theorem chosen_selected {s t : State} {p : Nat} (c : Credits s t) (once : (s.queues.map Queue.no).Nodup) (h : p ∈ eligibleParts s) :
    ∃ x k, (chosen p t).1 = some x ∧ FirstFrom s p (topLevel s p) x k ∧ eligible s (s.queue x) = true ∧
      (s.queue x).partition = some p ∧ (s.queue x).pri = topLevel s p := by
  obtain ⟨⟨q, hq, top⟩, _⟩ := topLevel_spec h
  obtain ⟨listed, part, able⟩ := mem_candidates.1 hq
  have on : q.en = true := by
    obtain ⟨_, _, on, _⟩ := (eligible_iff s q).1 able
    exact on
  have small : topLevel s p < 8 := top ▸ pri_lt q
  obtain ⟨x, k, first, able⟩ := exists_firstFrom (mem_levelQueues.2 ⟨q, listed, part, on, top, rfl⟩) (by rw [queue_of_mem once listed]; exact able)
  obtain ⟨round, here, before⟩ := first
  obtain ⟨y, listed, part, _, top, rfl⟩ := mem_levelQueues.1 (List.mem_of_getElem? here)
  refine ⟨y.no, k, ?_, ⟨round, here, before⟩, able, by rw [queue_of_mem once listed]; exact part, by rw [queue_of_mem once listed]; exact top⟩
  unfold chosen
  rw [c.topLevel, c.levelQueues]
  refine selectQueue_first (m := k) small (by omega) (by rw [c.pointer]; exact here) (by rw [c.queue, c.eligible]; exact able) fun j hj z hz => ?_
  rw [c.pointer] at hz
  rw [c.queue, c.eligible]
  exact before j hj z hz

/-- QUEUE_SELECT acts with a stage free, on a running part. -/
theorem evQueueSelect_acts {s : State} (room : s.selected.length < 4) (running : s.phase = .running) : Gives .evQueueSelect s (select s) :=
  congrArg Host.Outcome.next (if_pos ⟨room, running⟩)

theorem evQueueSelect_idle {s : State} (h : 4 ≤ s.selected.length ∨ s.phase ≠ .running) : Gives .evQueueSelect s s :=
  congrArg Host.Outcome.next (if_neg fun ⟨room, running⟩ => h.elim (fun full => by omega) (· running))

/-- The partition whose queue a selection takes. -/
theorem select_spec {s : State} (some_ : eligibleParts s ≠ []) :
    ∃ p ∈ eligibleParts s, select s = entered (chosen p (paid s p)) ∧
      ∀ b ∈ eligibleParts s, (s.part b).cr + Int.ofNat (s.part b).wadm ≤ (s.part p).cr + Int.ofNat (s.part p).wadm ∧
        ((s.part b).cr + Int.ofNat (s.part b).wadm = (s.part p).cr + Int.ofNat (s.part p).wadm → p ≤ b) := by
  obtain ⟨p, at_, largest, all⟩ := largestCredit_spec (s := credited s) (eligibleParts_sorted s) some_
  obtain ⟨_, inside, _⟩ := credited_spec s
  refine ⟨p, at_, select_eq largest, fun b hb => ?_⟩
  rw [← inside b hb, ← inside p at_]
  exact all b hb

/-- A selection takes one eligible queue into the pipeline at most. -/
theorem select_frame (s : State) : (select s).mem = s.mem ∧ (select s).hart = s.hart ∧ (select s).caps = s.caps ∧
    ((select s).selected = s.selected ∨ ∃ x, (select s).selected = s.selected ++ [x] ∧ eligible s (s.queue x) = true) := by
  by_cases some_ : eligibleParts s = []
  · rw [select_none some_]
    exact ⟨rfl, rfl, rfl, .inl rfl⟩
  obtain ⟨p, _, eq, _⟩ := select_spec some_
  have c := paid_credits s p
  obtain ⟨alike, able⟩ : Alike (paid s p) (chosen p (paid s p)).2 ∧
    ∀ q, (chosen p (paid s p)).1 = some q → eligible (paid s p) ((paid s p).queue q) = true := selectQueue_alike _ _ _ _ _
  rw [eq]
  obtain ⟨l, only⟩ := c.only
  have mem : (paid s p).mem = s.mem := by rw [only]
  have hart : (paid s p).hart = s.hart := by rw [only]
  have caps : (paid s p).caps = s.caps := by rw [only]
  have selected : (paid s p).selected = s.selected := by rw [only]
  generalize chosen p (paid s p) = r at alike able
  obtain ⟨x, t⟩ := r
  cases x with
  | none => exact ⟨alike.mem.trans mem, alike.hart.trans hart, alike.caps.trans caps, .inl (alike.selected.trans selected)⟩
  | some q =>
    refine ⟨alike.mem.trans mem, alike.hart.trans hart, alike.caps.trans caps, .inr ⟨q, ?_, ?_⟩⟩
    · show t.selected ++ [q] = _
      rw [alike.selected, selected]
    · rw [← c.queue, ← c.eligible]
      exact able q rfl

/-- With an eligible queue one is selected, and the credits count (R282, R283). -/
theorem select_counts {s : State} (once : (s.queues.map Queue.no).Nodup) (some_ : eligibleParts s ≠ []) :
    ∃ p x, Selected s p x ∧ (select s).selected = s.selected ++ [x] ∧
      ((select s).part p).cr = (s.part p).cr + Int.ofNat (s.part p).wadm -
        Int.ofNat (((eligibleParts s).map fun b => (s.part b).wadm).foldl (· + ·) 0) ∧
      (∀ b ∈ eligibleParts s, b ≠ p → ((select s).part b).cr = (s.part b).cr + Int.ofNat (s.part b).wadm) ∧
      ∀ b, b ∉ eligibleParts s → ((select s).part b).cr = (s.part b).cr := by
  obtain ⟨p, at_, eq, largest⟩ := select_spec some_
  have c := paid_credits s p
  obtain ⟨x, k, first, ⟨round, here, before⟩, able, part, top⟩ := chosen_selected c once at_
  obtain ⟨_, all⟩ := topLevel_spec at_
  obtain ⟨alike, _⟩ : Alike (paid s p) (chosen p (paid s p)).2 ∧ _ := selectQueue_alike _ _ _ _ _
  obtain ⟨_, inside, outside⟩ := credited_spec s
  have selected : (paid s p).selected = s.selected := by
    obtain ⟨l, only⟩ := c.only
    rw [only]
  have mine : ((paid s p).part p).cr = ((credited s).part p).cr - Int.ofNat (((eligibleParts s).map fun b => (s.part b).wadm).foldl (· + ·) 0) := by
    rw [paid, State.part_modPart_same _ _ _ (State.part_no _ _)]
  have other {b : Nat} (d : b ≠ p) : ((paid s p).part b).cr = ((credited s).part b).cr := by
    rw [paid, State.part_modPart_other _ _ (State.part_no _ _) d]
  generalize chosen p (paid s p) = r at eq first alike
  obtain ⟨y, t⟩ := r
  cases first
  rw [eq]
  refine ⟨p, x, ⟨at_, largest, part, able, fun y listed hp he => ?_, ?_⟩, ?_, ?_, fun b hb d => ?_, fun b hb => ?_⟩
  · rw [top]
    exact all y (mem_candidates.2 ⟨listed, hp, he⟩)
  · rw [top]
    exact ⟨k, round, here, before⟩
  · show t.selected ++ [x] = _
    rw [alike.selected, selected]
  · exact (alike.credit p).trans (mine.trans (by rw [inside p at_]))
  · exact (alike.credit b).trans ((other d).trans (inside b hb))
  · exact (alike.credit b).trans ((other fun same : b = p => hb (same ▸ at_)).trans (outside b hb))

end Sys2Proof.Proofs
end

