-- ==== Sys2Proof/Proofs/Heads.lean ====
section
/-! PROOFS. The head of a queue, pre-emption, watchdogs, and the end of a capsule (O52). -/

namespace Sys2Proof.Proofs

open Sys2Proof Sys2Proof.Machine Sys2Proof.Claims

/-- An event of the model answers what its function gives. -/
theorem gives_event {i : Instr} {s t : State} {f : State → State} (h : exec i s = event f s) (eq : f s = t) : Gives i s t := by
  rw [Gives, h, event, eq]

/-! ADMIT_HEAD (R274, R299). -/

theorem mem_unitsOf {u a n k : Nat} (positive : 0 < u) : k ∈ unitsOf u a n ↔ ∃ x, a ≤ x ∧ x < a + n ∧ x / u = k := by
  unfold unitsOf
  split
  · next none_ => simp only [none_, List.not_mem_nil, false_iff]; omega
  · next some_ =>
    have mono : a / u ≤ (a + n - 1) / u := Nat.div_le_div_right (by omega)
    rw [List.mem_range'_1]
    constructor
    · rintro ⟨low, high⟩
      have below : k * u ≤ a + n - 1 := (Nat.le_div_iff_mul_le positive).1 (by omega)
      have above : a < (k + 1) * u := (Nat.div_lt_iff_lt_mul positive).1 (by omega)
      refine ⟨max a (k * u), by omega, by omega, ?_⟩
      rw [Nat.add_mul] at above
      exact Nat.div_eq_of_lt_le (by omega) (by rw [Nat.add_mul]; omega)
    · rintro ⟨x, low, high, rfl⟩
      have := Nat.div_le_div_right (c := u) low
      have := Nat.div_le_div_right (c := u) (show x ≤ a + n - 1 by omega)
      omega

section
variable (q : Queue) (e : RingEntry) (s : State)

/-- The list of an entry's record, its length, and whether the entry holds it (R275). -/
def listPlace : Nat := e.record.readLE 0x98 8
def listLength : Nat := 32 * (bitsOf (e.record.readLE 0x38 8) 23 18 + 1)
def listInside : Bool := listInEntry q (listPlace e) (listLength e)

theorem listInside_iff : listInside q e = true ↔ q.headEntry ≤ listPlace e ∧ listPlace e + listLength e ≤ q.headEntry + 4096 := listInEntry_iff ..

theorem entryUnits_eq :
    entryUnits q e s = homeUnits s q.headEntry 256 ++
      if q.headEntry ≤ listPlace e ∧ listPlace e + listLength e ≤ q.headEntry + 4096 then homeUnits s (listPlace e) (listLength e) else [] := by
  show (((q.headEntry, 0x100) :: if listInside q e then [(listPlace e, listLength e)] else []).map fun x => homeUnits s x.1 x.2).flatten = _
  simp only [listInside_iff]
  split <;> simp

theorem meetEntry_eq (pn : Nat) :
    meetEntry q pn e s = if q.headEntry ≤ listPlace e ∧ listPlace e + listLength e ≤ q.headEntry + 4096
      then readLines pn (listPlace e) (listLength e) (readLines pn q.headEntry 256 s) else readLines pn q.headEntry 256 s := by
  show ((q.headEntry, 0x100) :: if listInside q e then [(listPlace e, listLength e)] else []).foldl (fun t x => readLines pn x.1 x.2 t) s = _
  simp only [listInside_iff]
  split <;> rfl

theorem entryPoisoned_iff :
    entryPoisoned q e s = true ↔ ∃ x, ((q.headEntry ≤ x ∧ x < q.headEntry + 256) ∨
      ((q.headEntry ≤ listPlace e ∧ listPlace e + listLength e ≤ q.headEntry + 4096) ∧ listPlace e ≤ x ∧ x < listPlace e + listLength e)) ∧
        ∃ k, (x / 32, k) ∈ s.poison := by
  have sector (a n : Nat) : ((unitsOf 32 a n).any fun k => s.poison.any fun p => p.1 == k) = true ↔
      ∃ x, (a ≤ x ∧ x < a + n) ∧ ∃ k, (x / 32, k) ∈ s.poison := by
    simp only [List.any_eq_true, mem_unitsOf (show 0 < 32 by decide), beq_iff_eq]
    constructor
    · rintro ⟨_, ⟨x, low, high, rfl⟩, ⟨_, k⟩, listed, rfl⟩
      exact ⟨x, ⟨low, high⟩, k, listed⟩
    · rintro ⟨x, ⟨low, high⟩, k, listed⟩
      exact ⟨_, ⟨x, low, high, rfl⟩, _, listed, rfl⟩
  show (((q.headEntry, 0x100) :: if listInside q e then [(listPlace e, listLength e)] else []).any
    fun x => (unitsOf 32 x.1 x.2).any fun k => s.poison.any fun p => p.1 == k) = true ↔ _
  rw [List.any_cons, Bool.or_eq_true, sector]
  simp only [← listInside_iff]
  split
  · next inside =>
    rw [List.any_cons, List.any_nil, Bool.or_false, sector]
    simp only [inside, or_and_right, exists_or, true_and]
  · next outside => simp [outside]

end

/-- What becomes of a head that steps 1 to 7 have looked at (R274). -/
def judged (n : Nat) (p : Part) (e : RingEntry) : Except AdmitHalt Capsule × State → State
  | (.error .waits, t) => keepSelected n t
  | (.error (.refused code), t) => refuseHead n code e t
  | (.ok c, u) => placeHead n p c e u

/-- The state without a queue among those selected. -/
def unselected (n : Nat) (s : State) : State := { s with selected := s.selected.filter (· != n) }

section
variable {n pn : Nat} {s : State} {e : RingEntry}

theorem admitHead_other (h : s.selected.contains n = false) : admitHead n s = s := if_pos (by rw [h]; rfl)

variable (chosen : s.selected.contains n = true) (head : (s.queue n).head? s = some e) (part : (s.queue n).partition = some pn)
include chosen head part

theorem admitHead_stopped
    (h : (s.queue n).en = false ∨ (s.queue n).held = true ∨ (s.queue n).tearing = true ∨ s.inReset pn = true) :
    admitHead n s = unselected n s := by
  have head : ((unselected n s).queue n).head? (unselected n s) = some e := head
  have part : ((unselected n s).queue n).partition = some pn := part
  refine (if_neg (by rw [chosen]; simp)).trans ?_
  simp only [unselected] at head part
  simp only [head, part]
  refine if_pos ?_
  show (!(s.queue n).en || (s.queue n).held || s.inReset pn || (s.queue n).tearing) = true
  obtain h | h | h | h := h <;> simp [h]

variable (on : (s.queue n).en = true) (free : (s.queue n).held = false) (whole : (s.queue n).tearing = false) (up : s.inReset pn = false)
include on free whole up

/-- What ADMIT_HEAD does with a head that it examines. -/
theorem admitHead_examines :
    admitHead n s = if asleep (unselected n s) (entryUnits (s.queue n) e (unselected n s))
      then keepSelected n (startExit (entryUnits (s.queue n) e (unselected n s)) (unselected n s))
      else
        let t := meetEntry (s.queue n) pn e (noteUse (entryUnits (s.queue n) e (unselected n s)) (unselected n s))
        if entryPoisoned (s.queue n) e t then tearDown n none t
        else if timeHolds t (t.part pn) e.record then holdHead n 2 t
        else judged n (t.part pn) e (verify (s.queue n) (t.part pn) e t) := by
  have head : ((unselected n s).queue n).head? (unselected n s) = some e := head
  have part : ((unselected n s).queue n).partition = some pn := part
  refine (if_neg (by rw [chosen]; simp)).trans ?_
  simp only [unselected] at head part
  simp only [head, part]
  refine if_neg ?_
  show ¬(!(s.queue n).en || (s.queue n).held || s.inReset pn || (s.queue n).tearing) = true
  simp [on, free, whole, up]

/-- The slices that hold what is read of the entry. -/
def headUnits (n : Nat) (e : RingEntry) (s : State) : List Nat := entryUnits (s.queue n) e (unselected n s)

/-- The state after the entry was read. -/
def headRead (n pn : Nat) (e : RingEntry) (s : State) : State := meetEntry (s.queue n) pn e (noteUse (headUnits n e s) (unselected n s))

theorem admitHead_asleep (asleep : Retained s (headUnits n e s)) : admitHead n s = awaits n (headUnits n e s) (unselected n s) :=
  (admitHead_examines chosen head part on free whole up).trans (if_pos (asleep_of (s := unselected n s) asleep))

variable (awake : ¬Retained s (headUnits n e s))
include awake

theorem admitHead_poisoned (bad : entryPoisoned (s.queue n) e (headRead n pn e s) = true) : admitHead n s = tearDown n none (headRead n pn e s) :=
  (admitHead_examines chosen head part on free whole up).trans ((if_neg (awake_of (s := unselected n s) awake)).trans (if_pos bad))

variable (good : ¬entryPoisoned (s.queue n) e (headRead n pn e s) = true)
include good

theorem admitHead_early (h : timeHolds (headRead n pn e s) ((headRead n pn e s).part pn) e.record = true) :
    admitHead n s = holdHead n 2 (headRead n pn e s) :=
  (admitHead_examines chosen head part on free whole up).trans
    ((if_neg (awake_of (s := unselected n s) awake)).trans ((if_neg good).trans (if_pos h)))

theorem admitHead_judged (h : timeHolds (headRead n pn e s) ((headRead n pn e s).part pn) e.record = false) :
    admitHead n s = judged n ((headRead n pn e s).part pn) e (verify (s.queue n) ((headRead n pn e s).part pn) e (headRead n pn e s)) :=
  (admitHead_examines chosen head part on free whole up).trans
    ((if_neg (awake_of (s := unselected n s) awake)).trans ((if_neg good).trans (if_neg (ne_true_of_eq_false h))))

end
end Sys2Proof.Proofs
end

