-- ==== Sys2Proof/Proofs/Watchdogs.lean ====
section
/-! PROOFS. Launches, the end of a capsule, pre-emption and watchdogs (O52). -/

namespace Sys2Proof.Proofs

open Sys2Proof Sys2Proof.Machine Sys2Proof.Claims

/-! Heads that are held (R279, R287). -/

section
variable {n : Nat} {s : State} {e : RingEntry}

theorem enterWindow_none (h : (s.queue n).waiting = 0) : enterWindow n s = s := by
  simp only [enterWindow, head?_none h]

theorem enterWindow_eq {p : Nat} (head : (s.queue n).head? s = some e) (part : (s.queue n).partition = some p) :
    enterWindow n s = if (s.queue n).held = true ∧ (s.queue n).why = 2 ∧ timeHolds s (s.part p) e.record = false
      then s.modQueue n Queue.release else s := by
  simp only [enterWindow, head, part]

theorem pollGate_none (h : (s.queue n).waiting = 0) : pollGate n s = s := by
  simp only [pollGate, head?_none h]

/-- The address of the gate that a queue waits for. -/
def gateAt (n : Nat) (s : State) : Nat := bitsOf (s.queue n).gatest.toNat 47 0

variable (head : (s.queue n).head? s = some e)
include head

theorem pollGate_idle (h : ¬((s.queue n).held = true ∧ (s.queue n).why = 1 ∧ (s.queue n).watched = false)) : pollGate n s = s := by
  simp only [pollGate, head]
  exact if_neg h

variable (polls : (s.queue n).held = true ∧ (s.queue n).why = 1 ∧ (s.queue n).watched = false)
include polls

theorem pollGate_asleep (asleep : Retained s (homeUnits s (gateAt n s) 8)) : pollGate n s = startExit (homeUnits s (gateAt n s) 8) s := by
  have read := deviceRead_asleep (p := (s.queue n).partition.getD 0) asleep
  unfold gateAt at read
  simp only [pollGate, head]
  refine (if_pos polls).trans ?_
  rw [read]
  rfl

theorem pollGate_read (awake : ¬Retained s (homeUnits s (gateAt n s) 8)) (sound : Sound s (gateAt n s) 8) :
    pollGate n s = if e.record.readLE 0xB8 8 ≤ s.mem.readLE (gateAt n s) 8
      then (noteUse (homeUnits s (gateAt n s) 8) s).modQueue n Queue.release else noteUse (homeUnits s (gateAt n s) 8) s := by
  have read := deviceRead_sound (p := (s.queue n).partition.getD 0) awake sound
  unfold gateAt at read
  simp only [pollGate, head]
  refine (if_pos polls).trans ?_
  rw [read]
  rfl

end

/-! A capsule of the device (R45, R91, R287, R303). -/

section
variable {id : Nat} {s : State}

theorem capsule_absent (h : s.cap? id = none) : launchDue id s = s ∧ completeCapsule id s = s ∧ joinStall id s = s ∧ deadline id s = s := by
  refine ⟨?_, ?_, ?_, ?_⟩
  · simp only [launchDue, h]
  · simp only [completeCapsule, h]
  · simp only [joinStall, h]
  · simp only [deadline, h]

variable {c : Capsule} (at_ : s.cap? id = some c)
include at_

theorem launchDue_releases {m : Msg} (armed : c.state = .armed) (due : (c.field 0xA0).toNat ≤ s.now.toNat) (launch : c.launch = some m) :
    launchDue id s = { s with net := s.net ++ [m] }.modCap id fun x => { x with launch := none, tlaunch := s.now, state := .running } := by
  simp only [launchDue, at_]
  refine (if_pos ⟨armed, by rw [BitVec.ule, decide_eq_true_eq]; exact due⟩).trans ?_
  simp only [releaseLaunch, at_, launch]

theorem launchDue_waits (h : c.state ≠ .armed ∨ s.now.toNat < (c.field 0xA0).toNat) : launchDue id s = s := by
  simp only [launchDue, at_]
  refine if_neg fun ⟨armed, due⟩ => ?_
  rw [BitVec.ule, decide_eq_true_eq] at due
  obtain h | h := h
  · exact h armed
  · omega

theorem completeCapsule_waits (h : effectsVisible s id = false ∨ c.state = .armed) : completeCapsule id s = s := by
  simp only [completeCapsule, at_]
  cases v : effectsVisible s id with
  | false => rfl
  | true =>
    obtain h | armed := h
    · exact Bool.noConfusion (v.symm.trans h)
    · rw [armed]; rfl

variable (visible : effectsVisible s id = true)

theorem completeCapsule_ends {status : Nat} (visible : effectsVisible s id = true) (h : c.state = .ending status) :
    completeCapsule id s = endCapsule c status s := by
  simp only [completeCapsule, at_, visible, h]
  rfl

/-- The cell whose stall keeps an idle capsule. -/
def heldBy (c : Capsule) : Option JoinReg := if c.stall = 0 then none else c.joins.head?

include visible
variable (running : c.state = .running)
include running

theorem completeCapsule_busy (busy : capsuleIdle s id = false) : completeCapsule id s = s := by
  simp only [completeCapsule, at_, visible, running, busy]
  rfl

variable (idle : capsuleIdle s id = true)
include idle

theorem completeCapsule_done (h : heldBy c = none) : completeCapsule id s = endCapsule c 0 s := by
  unfold heldBy at h
  simp only [completeCapsule, at_, visible, running, idle, h]
  rfl

theorem completeCapsule_held {r : JoinReg} (h : heldBy c = some r) :
    completeCapsule id s = if c.joins.any (stalled s c) then abortCapsule id Code.joinStall.num (joinReport s c r) s else s := by
  unfold heldBy at h
  simp only [completeCapsule, at_, visible, running, idle, h]
  rfl

end

theorem stalled_iff {s : State} {c : Capsule} (h : c.stall ≠ 0) (r : JoinReg) : stalled s c r = true ↔ 1000 * c.stall ≤ s.clock - r.stamp := by
  simp [stalled, h]

theorem stalled_eq {s : State} {c : Capsule} (h : c.stall ≠ 0) : stalled s c = fun r => decide (1000 * c.stall ≤ s.clock - r.stamp) := by
  funext r
  simp [stalled, h]

section
variable {id : Nat} {s : State} {c : Capsule} (at_ : s.cap? id = some c)
include at_

theorem joinStall_none (h : c.joins.filter (stalled s c) = []) : joinStall id s = s := by
  simp only [joinStall, at_, h]
  cases c.state <;> rfl

theorem joinStall_squashes {r : JoinReg} {rs : List JoinReg} (running : c.state = .running) (h : c.joins.filter (stalled s c) = r :: rs)
    (late : overtakenTasks s id ≠ []) : joinStall id s = onHarts (overtakenTasks s id) (onPair squash) s := by
  simp only [joinStall, at_, running, h]
  exact if_pos late

theorem joinStall_aborts {r : JoinReg} {rs : List JoinReg} (running : c.state = .running) (h : c.joins.filter (stalled s c) = r :: rs)
    (late : overtakenTasks s id = []) : joinStall id s = (abortCapsule id Code.joinStall.num (joinReport s c r) s).modCap id fun x =>
      { x with nflt := Nat.min 65535 (x.nflt + rs.length) } := by
  simp only [joinStall, at_, running, h]
  exact if_neg (by rw [late]; exact fun n => n rfl)

theorem deadline_waits (h : c.field 0xA8 = 0 ∨ s.now.toNat < (c.field 0xA8).toNat) : deadline id s = s := by
  have none_ : ¬(c.field 0xA8 ≠ 0 ∧ (c.field 0xA8).ule s.now = true) := fun ⟨some_, due⟩ => by
    rw [BitVec.ule, decide_eq_true_eq] at due
    obtain h | h := h
    · exact some_ h
    · omega
  simp only [deadline, at_, if_neg none_]
  split <;> rfl

theorem deadline_aborts (some_ : c.field 0xA8 ≠ 0) (due : (c.field 0xA8).toNat ≤ s.now.toNat) (live : c.state = .running ∨ c.state = .armed) :
    deadline id s = abortCapsule id Code.deadline.num (bareReport s id Code.deadline.num (c.field 0xA8)) s := by
  have due : c.field 0xA8 ≠ 0 ∧ (c.field 0xA8).ule s.now = true := ⟨some_, by rw [BitVec.ule, decide_eq_true_eq]; exact due⟩
  simp only [deadline, at_, if_pos due]
  obtain live | live := live <;> rw [live]

end

/-! PENDING_SLOT_COPY (R271). -/

section
variable {n k : Nat} {ks : List Nat} {s : State}

theorem copyPending_none (h : (s.queue n).pending = []) : copyPending n s = releaseHeld s := by
  simp only [copyPending, h]

theorem copyPending_full (h : (s.queue n).pending = k :: ks) (full : (s.queue n).full = true) : copyPending n s = s := by
  simp only [copyPending, h, full, if_true]

theorem copyPending_copies (h : (s.queue n).pending = k :: ks) (room : (s.queue n).full = false) :
    copyPending n s = (enqueue n ((s.queue n).slots.readBytes (256 * k) 256) [] (s.modQueue n fun x => { x with pending := ks })).modQueue n
      fun x => { x with free := setBit x.free k true } := by
  simp only [copyPending, h, room]
  refine (if_neg Bool.false_ne_true).trans ?_
  rw [copySlot, State.queue_modQueue_same _ _ _ (State.queue_no _ _)]

end

/-! Pre-emption (R235, R289). -/

/-- A search gives the fewest of the victims, from the first on, whose cores allow the binding. -/
theorem chooseVictims_some {bindable : List Nat → Bool} {taken vs : List Nat} {k : Nat} (inside : k ≤ vs.length)
    (able : bindable (taken ++ vs.take k) = true) (before : ∀ j < k, bindable (taken ++ vs.take j) = false) :
    chooseVictims bindable taken vs = some (taken ++ vs.take k) := by
  induction vs generalizing taken k with
  | nil =>
    obtain rfl : k = 0 := by simpa using inside
    rw [List.take_nil, List.append_nil] at able ⊢
    exact if_pos able
  | cons v vs ih =>
    cases k with
    | zero =>
      rw [List.take_zero, List.append_nil] at able ⊢
      exact if_pos able
    | succ k =>
      have first := before 0 (by omega)
      rw [List.take_zero, List.append_nil] at first
      have step := ih (taken := taken ++ [v]) (k := k) (by simpa using inside) (by simpa using able) fun j hj => by
        simpa using before (j + 1) (by omega)
      exact (if_neg (ne_true_of_eq_false first)).trans (by simpa using step)

theorem chooseVictims_none {bindable : List Nat → Bool} {taken vs : List Nat} (h : ∀ k ≤ vs.length, bindable (taken ++ vs.take k) = false) :
    chooseVictims bindable taken vs = none := by
  induction vs generalizing taken with
  | nil =>
    have last := h 0 le_rfl
    rw [List.take_nil, List.append_nil] at last
    exact if_neg (ne_true_of_eq_false last)
  | cons v vs ih =>
    have first := h 0 (by omega)
    rw [List.take_zero, List.append_nil] at first
    refine (if_neg (ne_true_of_eq_false first)).trans (ih fun k hk => ?_)
    simpa using h (k + 1) (by simpa using hk)

/-- A capsule takes its place among victims. -/
def ahead (a b : Capsule) : Bool := decide (a.pri < b.pri) || (a.pri == b.pri && b.tlaunch.ult a.tlaunch)
def victimIn (acc : List Capsule) (c : Capsule) : List Capsule := acc.filter (fun x => !ahead c x) ++ c :: acc.filter (ahead c)

theorem mem_victimIn {acc : List Capsule} {c x : Capsule} : x ∈ victimIn acc c ↔ x ∈ acc ∨ x = c := by
  simp only [victimIn, List.mem_append, List.mem_filter, List.mem_cons]
  cases ahead c x
  · simp
  · simp [or_comm]

theorem mem_foldl_victimIn {l acc : List Capsule} {x : Capsule} : x ∈ l.foldl victimIn acc ↔ x ∈ acc ∨ x ∈ l := by
  induction l generalizing acc with
  | nil => simp
  | cons c l ih => rw [List.foldl_cons, ih, mem_victimIn, List.mem_cons, or_assoc]

/-- No later launch of the same priority, and no lower priority, comes after. -/
def Ordered (a b : Capsule) : Prop := a.pri < b.pri ∨ (a.pri = b.pri ∧ b.tlaunch.toNat ≤ a.tlaunch.toNat)

theorem ahead_iff (a b : Capsule) : ahead a b = true ↔ a.pri < b.pri ∨ (a.pri = b.pri ∧ b.tlaunch.toNat < a.tlaunch.toNat) := by
  simp [ahead, BitVec.ult]

theorem ordered_of_not_ahead {c x : Capsule} (h : ¬ahead c x = true) : Ordered x c := by
  rw [ahead_iff] at h
  unfold Ordered
  omega

theorem ordered_of_ahead {c x : Capsule} (h : ahead c x = true) : Ordered c x := by
  rw [ahead_iff] at h
  unfold Ordered
  omega

theorem Ordered.trans {a b c : Capsule} (h : Ordered a b) (k : Ordered b c) : Ordered a c := by
  unfold Ordered at *
  omega

theorem victimIn_ordered {acc : List Capsule} {c : Capsule} (h : acc.Pairwise Ordered) : (victimIn acc c).Pairwise Ordered := by
  refine List.pairwise_append.2 ⟨h.filter _, List.pairwise_cons.2 ⟨fun x hx => ordered_of_ahead (List.mem_filter.1 hx).2, h.filter _⟩, fun x hx y hy => ?_⟩
  have low : Ordered x c := ordered_of_not_ahead (by simpa using (List.mem_filter.1 hx).2)
  obtain rfl | hy := List.mem_cons.1 hy
  · exact low
  · exact low.trans (ordered_of_ahead (List.mem_filter.1 hy).2)

theorem foldl_victimIn_ordered (l : List Capsule) {acc : List Capsule} (h : acc.Pairwise Ordered) : (l.foldl victimIn acc).Pairwise Ordered := by
  induction l generalizing acc with
  | nil => exact h
  | cons c l ih => exact ih (victimIn_ordered h)

theorem mem_victimOrder {s : State} {p v : Nat} {c : Capsule} :
    c ∈ victimOrder s p v ↔ c ∈ s.caps ∧ c.part = p ∧ c.pri < v ∧ c.state = .running := by
  refine (mem_foldl_victimIn (acc := [])).trans ?_
  simp [and_assoc]

theorem victimOrder_ordered (s : State) (p v : Nat) : (victimOrder s p v).Pairwise Ordered := foldl_victimIn_ordered _ .nil

section
variable {n pn : Nat} {s : State} {e : RingEntry}

/-- When no search for victims is due (R289). -/
def NoSearch (n : Nat) (s : State) : Prop :=
  (s.queue n).why ≠ 3 ∨ (s.queue n).held = false ∨ (∀ t, (s.queue n).heldAt = some t → s.clock - t < 20000) ∨
    (∃ k ∈ s.cores, k.claim = some (n, (s.queue n).headNo)) ∨ ∀ pn, (s.queue n).partition = some pn → (s.part pn).klass ≠ 0

theorem searchDue_false (h : NoSearch n s) (part : (s.queue n).partition = some pn) : searchDue s (s.queue n) (s.part pn) = false := by
  refine Bool.eq_false_iff.2 fun due => ?_
  simp only [searchDue, Bool.and_eq_true, beq_iff_eq, List.all_eq_true, bne_iff_ne, State.queue_no] at due
  obtain ⟨⟨⟨⟨held, why⟩, klass⟩, cores⟩, time⟩ := due
  obtain h | h | h | ⟨k, listed, mine⟩ | h := h
  · exact h why
  · exact Bool.noConfusion (held.symm.trans h)
  · split at time
    · next t at_ =>
      have := h t at_
      have := of_decide_eq_true time
      have : 20000 ≤ 20000 * ((s.queue n).looked + 1) := Nat.le_mul_of_pos_right _ (by omega)
      omega
    · exact Bool.noConfusion time
  · exact cores k listed mine
  · exact h pn part klass

theorem searchVictims_none (h : (s.queue n).head? s = none ∨ NoSearch n s) : searchVictims n s = s := by
  unfold searchVictims
  dsimp only
  split
  · next e pn head part =>
    obtain h | h := h
    · exact nomatch head.symm.trans h
    · exact if_neg (ne_true_of_eq_false (searchDue_false h part))
  · rfl

/-- The state in which victims are looked for at `at_`, the capsule of the head, and the victims. -/
def searching (n at_ : Nat) (s : State) : State := s.modQueue n fun x => { x with looked := (s.clock - at_) / 20000 }
def seeker (n pn at_ : Nat) (e : RingEntry) (s : State) : Capsule := newCapsule (searching n at_ s) (s.queue n) pn e.record [] []
def victims (n pn at_ : Nat) (s : State) : List Nat := (victimOrder (searching n at_ s) pn (s.queue n).pri).map Capsule.id

/-- Do these victims' cores, with the free ones, allow the binding of the head? -/
def Bindable (n pn at_ : Nat) (e : RingEntry) (s : State) (vs : List Nat) : Bool :=
  (bindAmong (searching n at_ s) (s.part pn) (seeker n pn at_ e s) (seeker n pn at_ e s).hint none
    (eligibleCore (searching n at_ s) (s.part pn) n none vs)).isSome

variable {at_ : Nat} (head : (s.queue n).head? s = some e) (part : (s.queue n).partition = some pn) (held : (s.queue n).held = true)
  (why : (s.queue n).why = 3) (klass : (s.part pn).klass = 0) (free : ∀ k ∈ s.cores, k.claim ≠ some (n, (s.queue n).headNo))
  (since : (s.queue n).heldAt = some at_) (due : 20000 * ((s.queue n).looked + 1) ≤ s.clock - at_)
include head part held why klass free since due

theorem searchVictims_due :
    searchVictims n s = ((chooseVictims (Bindable n pn at_ e s) [] (victims n pn at_ s)).elim (searching n at_ s)
      fun vs => vs.foldl (fun t id => claimCores n id (raisePreemption id t)) (searching n at_ s)) := by
  have go : searchDue s (s.queue n) (s.part pn) = true := by
    simp only [searchDue, Bool.and_eq_true, beq_iff_eq, List.all_eq_true, bne_iff_ne, State.queue_no, since]
    exact ⟨⟨⟨⟨held, why⟩, klass⟩, free⟩, decide_eq_true due⟩
  unfold searchVictims
  simp only [head, part]
  refine (if_pos go).trans ?_
  have look : (s.modQueue n fun q => { q with looked := (s.clock - q.heldAt.getD 0) / 20000 }) = searching n at_ s := by
    simp only [searching, State.modQueue, since, Option.getD_some]
  rw [look]
  show _ = Option.elim (chooseVictims _ [] _) _ _
  unfold Bindable seeker victims searching
  split
  · next none_ => rw [none_]; rfl
  · next some_ => rw [some_]; rfl

theorem searchVictims_claims {k : Nat} (inside : k ≤ (victims n pn at_ s).length) (able : Bindable n pn at_ e s ((victims n pn at_ s).take k) = true)
    (before : ∀ j < k, Bindable n pn at_ e s ((victims n pn at_ s).take j) = false) :
    searchVictims n s = ((victims n pn at_ s).take k).foldl (fun t id => claimCores n id (raisePreemption id t)) (searching n at_ s) := by
  rw [searchVictims_due head part held why klass free since due, chooseVictims_some inside (by simpa using able) (by simpa using before)]
  rfl

theorem searchVictims_fails (h : ∀ k ≤ (victims n pn at_ s).length, Bindable n pn at_ e s ((victims n pn at_ s).take k) = false) :
    searchVictims n s = searching n at_ s := by
  rw [searchVictims_due head part held why klass free since due, chooseVictims_none (by simpa using h)]
  rfl

end

/-! The cores that a search claims, and the tasks for which pre-emption is raised. -/

/-- A change of cores one after another, each keeping its number: what becomes of a core. -/
theorem foldl_modCore {f : Core → Core} (id : ∀ x, (f x).id = x.id) (once : ∀ x, f (f x) = f x) (l : List Nat) (s : State) (k : Nat) :
    (l.foldl (fun t k => t.modCore k f) s).core k = if k ∈ l then f (s.core k) else s.core k := by
  induction l generalizing s with
  | nil => rfl
  | cons m l ih =>
    rw [List.foldl_cons, ih]
    by_cases same : k = m
    · subst same
      rw [State.core_modCore_same _ _ _ ((id _).trans (State.core_id _ _)), if_pos (List.mem_cons_self ..), once, ite_self]
    · rw [State.core_modCore_other _ _ ((id _).trans (State.core_id _ _)) same]
      simp only [List.mem_cons, same, false_or]

theorem foldl_modCore_frame (f : Core → Core) (l : List Nat) (s : State) :
    (l.foldl (fun t k => t.modCore k f) s).mem = s.mem ∧ (l.foldl (fun t k => t.modCore k f) s).hart = s.hart := by
  induction l generalizing s with
  | nil => exact ⟨rfl, rfl⟩
  | cons m l ih => exact ih _

section
variable {n id : Nat} {s : State} {c : Capsule} (at_ : s.cap? id = some c)
include at_

/-- The cores that a claim takes. -/
def claimed (c : Capsule) (s : State) : List Nat :=
  ((c.foot ++ c.foot2).map Prod.fst).filter fun k => (s.core k).boundRec.isEmpty && (s.core k).claim.isNone

theorem claimCores_eq : claimCores n id s =
    (claimed c s).foldl (fun t k => t.modCore k fun x => { x with claim := some (n, (s.queue n).headNo), claimAt := s.clock }) s := by
  simp only [claimCores, at_]
  rfl

omit at_ in
theorem mem_claimed {k : Nat} : k ∈ claimed c s ↔ Claimable s c k := by
  simp only [claimed, Claimable, List.mem_filter, List.mem_map, Bool.and_eq_true, List.isEmpty_iff, Option.isNone_iff_eq_none]

theorem claimCores_core (k : Nat) :
    (Claimable s c k → ((claimCores n id s).core k).claim = some (n, (s.queue n).headNo)) ∧
      (¬Claimable s c k → ((claimCores n id s).core k).claim = (s.core k).claim) := by
  rw [claimCores_eq at_, foldl_modCore (f := fun x => { x with claim := some (n, (s.queue n).headNo), claimAt := s.clock }) (fun _ => rfl) fun _ => rfl]
  refine ⟨fun h => ?_, fun h => ?_⟩
  · rw [if_pos (mem_claimed.2 h)]
  · rw [if_neg fun m => h (mem_claimed.1 m)]

theorem claimCores_frame : (claimCores n id s).mem = s.mem ∧ (claimCores n id s).hart = s.hart := by
  rw [claimCores_eq at_]
  exact foldl_modCore_frame _ _ _

end

/-- A change of one context after another, the same for each: the context that issues changes when it is among them. -/
theorem foldl_modHart {f : Hart → Hart} (once : ∀ x, f (f x) = f x) (l : List Nat) (s : State) :
    (l.foldl (fun t h => t.modHart h f) s).hart = (if s.hart.id ∈ l then f s.hart else s.hart) ∧
      (l.foldl (fun t h => t.modHart h f) s).mem = s.mem ∧ (l.foldl (fun t h => t.modHart h f) s).caps = s.caps := by
  induction l generalizing s with
  | nil => exact ⟨rfl, rfl, rfl⟩
  | cons m l ih =>
    obtain ⟨hart, mem, caps⟩ := ih (s.modHart m f)
    refine ⟨hart.trans ?_, mem, caps⟩
    show (if (if s.hart.id = m then f s.hart else s.hart).id ∈ l then f (if s.hart.id = m then f s.hart else s.hart)
      else if s.hart.id = m then f s.hart else s.hart) = _
    by_cases same : s.hart.id = m
    · simp only [once, ite_self, List.mem_cons, same, true_or, if_true]
    · simp only [List.mem_cons, same, if_false, false_or]

/-- Pre-emption raised for a capsule (R39, R235). -/
theorem raisePreemption_spec {s : State} {id : Nat} {c : Capsule} (at_ : s.cap? id = some c) :
    (raisePreemption id s).mem = s.mem ∧
      (∃ d, (raisePreemption id s).cap? id = some d ∧ ∀ x, x ∈ d.preempt ↔ x ∈ c.preempt ∨ x ∈ s.hartsOf id) ∧
      (s.hart.id ∈ s.hartsOf id → s.hart.id ∉ c.preempt → (raisePreemption id s).hart = { s.hart with preemptAt := s.clock }) ∧
      (s.hart.id ∉ s.hartsOf id ∨ s.hart.id ∈ c.preempt → (raisePreemption id s).hart = s.hart) := by
  have eq : raisePreemption id s = ((s.hartsOf id).filter fun h => !c.preempt.contains h).foldl
      (fun t h => t.modHart h fun x => { x with preemptAt := s.clock })
      (s.modCap id fun c => { c with preempt := (c.preempt ++ s.hartsOf id).eraseDups }) := by
    simp only [raisePreemption, at_]
    rfl
  obtain ⟨hart, mem, caps⟩ := foldl_modHart (f := fun x => { x with preemptAt := s.clock }) (fun _ => rfl)
    ((s.hartsOf id).filter fun h => !c.preempt.contains h) (s.modCap id fun c => { c with preempt := (c.preempt ++ s.hartsOf id).eraseDups })
  rw [← eq] at hart mem caps
  have among : s.hart.id ∈ (s.hartsOf id).filter (fun h => !c.preempt.contains h) ↔ s.hart.id ∈ s.hartsOf id ∧ s.hart.id ∉ c.preempt := by simp
  refine ⟨mem, ⟨{ c with preempt := (c.preempt ++ s.hartsOf id).eraseDups }, ?_, fun x => by simp [List.mem_eraseDups]⟩, fun mine fresh => ?_, fun h => ?_⟩
  · rw [State.cap?, caps]
    exact cap?_modCap at_ fun _ => rfl
  · exact hart.trans (if_pos (among.2 ⟨mine, fresh⟩))
  · exact hart.trans (if_neg fun m => h.elim (· (among.1 m).1) (among.1 m).2)

/-! Watchdogs (R303, R304). -/

section
variable {n id cl : Nat} {s : State}

theorem leaseOverrun_absent (h : s.hart? id = none) : leaseOverrun id s = s := by
  simp only [leaseOverrun, h]

variable {h : Hart} (at_ : s.hart? id = some h)
include at_

theorem leaseOverrun_other (run : h.run ≠ .blocked .lease) : leaseOverrun id s = s := by
  simp only [leaseOverrun, at_]
  split
  · next same _ => exact absurd same run
  · rfl

theorem leaseOverrun_bound (out : ∀ w ∈ (s.cluster (clusterNo h.core)).leaseWait, w.1 ≠ id) : leaseOverrun id s = s := by
  have mine : h.id = id := by simpa using List.find?_some at_
  have none_ : leaseWaitOf s h = none := by
    rw [leaseWaitOf, List.find?_eq_none.2 fun w hw => by rw [mine]; simpa using out w hw]
    rfl
  simp only [leaseOverrun, at_, none_]
  split
  · next some_ => exact nomatch some_
  · rfl

theorem leaseOverrun_waits {a b : List (Nat × BitVec 16 × Nat)} {w : Nat × BitVec 16 × Nat} (run : h.run = .blocked .lease)
    (queue : (s.cluster (clusterNo h.core)).leaseWait = a ++ w :: b) (before : ∀ x ∈ a, x.1 ≠ id) (here : w.1 = id) :
    leaseOverrun id s = if 1000000 ≤ s.clock - w.2.2 then unitFault h.cap id .leaseOverrun (word w.2.1.toNat) s else s := by
  have mine : h.id = id := by simpa using List.find?_some at_
  have some_ : leaseWaitOf s h = some (w.2.1.toNat, w.2.2) := by
    rw [leaseWaitOf, queue, List.find?_append, List.find?_eq_none.2 fun x hx => by rw [mine]; simpa using before x hx,
      List.find?_cons_of_pos (by rw [mine, here]; exact beq_self_eq_true _)]
    rfl
  simp only [leaseOverrun, at_, run, some_]

end

section
variable {n cl : Nat} {s : State}

theorem engineStall_idle (h : ((s.cluster cl).chan n).copy = none) : engineStall cl n s = s := by
  simp only [engineStall, h]

variable {c : Copy} (busy : ((s.cluster cl).chan n).copy = some c)
include busy

theorem engineStall_waits (h : s.clock - c.stamp < 1000000 ∨ slotWait s cl c = true) : engineStall cl n s = s := by
  simp only [engineStall, busy]
  exact if_neg fun ⟨late, none_⟩ => h.elim (fun early => by omega) fun slot => Bool.noConfusion (slot.symm.trans none_)

theorem engineStall_faults (late : 1000000 ≤ s.clock - c.stamp) (none_ : slotWait s cl c = false) :
    engineStall cl n s = if inOpenChunk s c = true then unitFault c.cap c.hart .engineStall (word n) s
      else ownerFault c.cap c.hart .engineStall (word n) s := by
  simp only [engineStall, busy]
  exact if_pos ⟨late, none_⟩

end

section
variable {n : Nat} {s : State}

theorem queueStall_waits (h : s.inFlight n = [] ∨ (s.queue n).tearing = true ∨ s.clock - (s.queue n).progress < 10000000) :
    queueStall n s = s :=
  if_neg fun ⟨some_, whole, late⟩ => h.elim (fun empty => by rw [empty] at some_; exact Bool.noConfusion some_) fun h =>
    h.elim (fun tearing => Bool.noConfusion (tearing.symm.trans whole)) fun early => by omega

theorem queueStall_tears (some_ : s.inFlight n ≠ []) (whole : (s.queue n).tearing = false) (late : 10000000 ≤ s.clock - (s.queue n).progress) :
    queueStall n s = tearDown n (some .queueStall) s :=
  if_pos ⟨by simpa using some_, whole, late⟩

theorem tearDown_unbound {named : Option Code} (h : (s.queue n).partition = none) : tearDown n named s = s := by
  simp only [tearDown, h]

theorem tearDown_idle {p : Nat} (part : (s.queue n).partition = some p) (idle : s.inFlight n = []) :
    tearDown n none s = finishTeardown n (s.modQueue n fun x => { x with tearing := true }) := by
  have idle : (s.modQueue n fun x => { x with tearing := true }).inFlight n = [] := idle
  simp only [tearDown, part, idle]

theorem expireClaim_waits (h : (s.core n).claim = none ∨ s.clock - (s.core n).claimAt < 1000000) : expireClaim n s = s :=
  if_neg fun ⟨some_, late⟩ => h.elim (fun none_ => by rw [none_] at some_; exact Bool.noConfusion some_) fun early => by omega

theorem expireClaim_ends (some_ : (s.core n).claim.isSome = true) (late : 1000000 ≤ s.clock - (s.core n).claimAt) :
    expireClaim n s = admitWaiting n (wakeFootprint (clusterNo n) (s.modCore n fun k => { k with claim := none })) :=
  if_pos ⟨some_, late⟩

end

end Sys2Proof.Proofs
end

