-- ==== Sys2Proof/Proofs/AdmissionEvents.lean ====
section
/-! PROOFS. The events of admission, put together (O52). -/

namespace Sys2Proof.Proofs

open Sys2Proof Sys2Proof.Machine Sys2Proof.Claims

/-- An event answers what its function gives. -/
theorem acts {f : State → State} {s t : State} (eq : f s = t) : event f s = .next t := congrArg Host.Outcome.next eq

/-- The clauses of a capsule's events. -/
theorem capsule_events {n : Nat} {s : State} {c : Capsule} (at_ : s.cap? n = some c) :
    (∀ r rs, effectsVisible s n = true → c.state = .running → capsuleIdle s n = true → c.joins = r :: rs → c.stall ≠ 0 →
      ((∃ x ∈ c.joins, 1000 * c.stall ≤ s.clock - x.stamp) →
        completeCapsule n s = abortCapsule n Code.joinStall.num (joinReport s c r) s) ∧
      ((∀ x ∈ c.joins, s.clock - x.stamp < 1000 * c.stall) → completeCapsule n s = s)) ∧
    (effectsVisible s n = true → c.state = .running → capsuleIdle s n = true → c.joins = [] ∨ c.stall = 0 → completeCapsule n s = endCapsule c 0 s) := by
  refine ⟨fun r rs visible running idle joins stall => ?_, fun visible running idle h => ?_⟩
  · have held : heldBy c = some r := by rw [heldBy, if_neg stall, joins]; rfl
    rw [completeCapsule_held at_ visible running idle held]
    refine ⟨fun ⟨x, listed, late⟩ => if_pos ?_, fun early => if_neg fun late => ?_⟩
    · exact List.any_eq_true.2 ⟨x, listed, (stalled_iff stall x).2 late⟩
    · obtain ⟨x, listed, late⟩ := List.any_eq_true.1 late
      have := (stalled_iff stall x).1 late
      have := early x listed
      omega
  · refine completeCapsule_done at_ visible running idle ?_
    rw [heldBy]
    split
    · rfl
    · next stall => rw [h.resolve_right stall]; rfl

/-- Settles O52, clause by clause from the rules of selection, admission, pre-emption and the watchdogs. -/
theorem admissionEvents : Obligations.AdmissionEvents := by
  intro n s q
  refine ⟨evQueueSelect_idle, fun room up none_ => (evQueueSelect_acts room up).trans (congrArg _ (select_none none_)),
    fun room up => ?_, fun room up once some_ => ?_, eligible_iff s, fun other => acts (admitHead_other other),
    ?_, timeHolds_iff s, fun c p => ⟨arms_iff p c, releaseTime_eq s p c⟩, fun pn owner k x => ⟨readList_refused, fun aligned below granule => ?_⟩,
    fun b => endpoint_gate, fun e pn chosen head part stopped => acts (admitHead_stopped chosen head part stopped),
    head?_iff q s, fun e p => verify_malformed, fun e p => verify_sealed, fun c => ⟨gateHolds_none, fun pa gated at_ => ⟨gateHolds_waits gated at_, gateHolds_read gated at_⟩⟩,
    fun c e p u => placeHead_waits, fun c e p u passed => ⟨placeHead_asleep passed, fun awake => ⟨fun core f => placeHead_reserved passed awake, fun plain =>
      ⟨fun f => placeHead_bound passed awake plain, placeHead_unbound passed awake plain⟩⟩⟩,
    fun c e p pa u below => ⟨_, placeHead_below below⟩,
    fun e p head part => acts (enterWindow_eq head part),
    fun e head => ⟨fun idle => acts (pollGate_idle head idle),
      fun polls asleep => acts (pollGate_asleep head polls asleep),
      fun polls awake sound => acts (pollGate_read head polls awake sound)⟩,
    fun none_ => ⟨acts (enterWindow_none none_), acts (pollGate_none none_),
      acts (searchVictims_none (.inl (head?_none none_)))⟩,
    fun absent => ?_, fun c at_ => ?_,
    fun none_ => acts (copyPending_none none_),
    fun k ks pending full => acts (copyPending_full pending full),
    fun k ks pending room => acts (copyPending_copies pending room),
    fun h => acts (searchVictims_none (.inr h)),
    fun e pn at_ head part held why klass free since due => ⟨fun k inside able before => ?_, fun fails => ?_⟩,
    fun p v => ⟨fun c => mem_victimOrder, victimOrder_ordered s p v⟩,
    fun id c at_ k => ?_, fun id => ?_, ⟨fun h => acts (expireClaim_waits h),
      fun some_ late => acts (expireClaim_ends some_ late)⟩,
    fun absent => acts (leaseOverrun_absent absent), fun h at_ => ⟨fun run => acts (leaseOverrun_other at_ run),
      fun bound => acts (leaseOverrun_bound at_ bound), fun a w b run queue before here =>
        acts (leaseOverrun_waits at_ run queue before here)⟩,
    fun cl => ⟨fun idle => acts (engineStall_idle idle), fun c busy => ⟨fun h => acts (engineStall_waits busy h),
      fun late slot => acts (engineStall_faults busy late slot)⟩⟩,
    fun h => acts (queueStall_waits h), fun some_ whole late => acts (queueStall_tears some_ whole late),
    fun none_ => acts (tearDown_unbound none_), fun p part idle => acts (tearDown_idle part idle)⟩
  · obtain ⟨mem, hart, caps, selected⟩ := select_frame s
    refine ⟨_, evQueueSelect_acts room up, mem, hart, caps, selected.imp_right fun ⟨x, at_, able⟩ => ?_⟩
    obtain ⟨p, _, on, waiting, held, _⟩ := (eligible_iff ..).1 able
    exact ⟨x, at_, waiting, held, on⟩
  · obtain ⟨p, x, chosen, at_, counts⟩ := select_counts once some_
    exact ⟨_, p, x, evQueueSelect_acts room up, chosen, at_, counts⟩
  · intro e pn chosen head part on free whole up u list len inside units w v bad
    have slices : headUnits n e s = units := entryUnits_eq (s.queue n) e (unselected n s)
    have read : headRead n pn e s = v := (congrArg (fun us => meetEntry (s.queue n) pn e (noteUse us (unselected n s))) slices).trans (meetEntry_eq ..)
    have poison : entryPoisoned (s.queue n) e v = true ↔ bad := entryPoisoned_iff ..
    rw [← slices, ← read] at *
    refine ⟨fun asleep => acts (admitHead_asleep chosen head part on free whole up asleep),
      fun awake dirty => acts (admitHead_poisoned chosen head part on free whole up awake (poison.2 dirty)), fun awake clean => ?_⟩
    have clean : ¬entryPoisoned (s.queue n) e (headRead n pn e s) = true := fun dirty => clean (poison.1 dirty)
    refine ⟨fun early => acts (admitHead_early chosen head part on free whole up awake clean early), fun due => ?_⟩
    have next := admitHead_judged chosen head part on free whole up awake clean due
    exact ⟨fun code t fails => acts (next.trans (by rw [fails]; rfl)), fun t waits => acts (next.trans (by rw [waits]; rfl)),
      fun c t passes => acts (next.trans (by rw [passes]; rfl))⟩
  · have placed : Placed x k := ⟨aligned, below, granule⟩
    exact ⟨readList_inside placed, readList_foreign placed, fun outside own => readList_waits placed outside own,
      fun outside own => readList_read placed outside own⟩
  · obtain ⟨launch, complete, stall, late⟩ := capsule_absent absent
    simp only [List.forall_mem_cons]
    exact ⟨acts launch, acts complete, acts stall, acts late, List.forall_mem_nil _⟩
  · obtain ⟨held, done⟩ := capsule_events at_
    refine ⟨fun m armed due launch => acts (launchDue_releases at_ armed due launch), fun h => acts (launchDue_waits at_ h),
      fun h => acts (completeCapsule_waits at_ h), fun status visible h => acts (completeCapsule_ends at_ visible h),
      fun visible running => ⟨fun busy => acts (completeCapsule_busy at_ visible running busy),
        fun idle none_ => acts (done visible running idle (.inl none_)), fun idle none_ => acts (done visible running idle (.inr none_)),
        fun r rs idle joins stall => ⟨fun late => acts ((held r rs visible running idle joins stall).1 late),
          fun early => acts ((held r rs visible running idle joins stall).2 early)⟩⟩,
      fun none_ => ?_, fun r rs running late some_ => ?_, fun none_ => ?_,
      fun h => acts (deadline_waits at_ h), fun some_ due live => acts (deadline_aborts at_ some_ due live)⟩
    · refine acts (joinStall_none at_ (List.filter_eq_nil_iff.2 fun r _ => ?_))
      simp [stalled, none_]
    · rw [← stalled_eq some_] at late
      exact ⟨fun few => acts (joinStall_aborts at_ running late few), fun many => acts (joinStall_squashes at_ running late many)⟩
    · refine acts (joinStall_none at_ (List.filter_eq_nil_iff.2 fun r listed => ?_))
      have early := List.filter_eq_nil_iff.1 none_ r listed
      simp only [stalled, Bool.and_eq_true, not_and]
      exact fun _ => early
  · exact acts (searchVictims_claims head part held why klass free since due inside able before)
  · exact acts (searchVictims_fails head part held why klass free since due fails)
  · obtain ⟨mine, other⟩ := claimCores_core (n := n) at_ k
    exact ⟨mine, other, claimCores_frame at_⟩
  · intro ids c at_
    obtain ⟨mem, found, hart⟩ := raisePreemption_spec at_
    obtain ⟨d, at_', all⟩ := found
    exact ⟨_, rfl, mem, d, at_', all, hart⟩

end Sys2Proof.Proofs
end

