-- ==== Sys2Proof/Proofs/Records.lean ====
section
/-! PROOFS. Continuation records: what a taken safe point writes, and what a resumption restores (O49). -/

namespace Sys2Proof.Proofs

open Sys2Proof Sys2Proof.Machine Sys2Proof.Claims

/-! Fields written one after another. -/

section
variable {m : Memory} {b k : Nat}

/-- A number depends on its own bytes alone. -/
theorem readLE_congr {m m' : Memory} {b k : Nat} (h : ∀ x, b ≤ x → x < b + k → m'.read x = m.read x) : m'.readLE b k = m.readLE b k := by
  refine congrArg leNat (List.map_congr_left fun i hi => h _ (by omega) ?_)
  have := List.mem_range.mp hi
  omega

/-- Each step of a fold writes in its own slot only. -/
structure Slots (base stride : Nat) (g : Memory → Nat → Memory) : Prop where
  wf : ∀ m i, m.wf = true → (g m i).wf = true
  out : ∀ m i x, x < base + stride * i ∨ base + stride * i + stride ≤ x → (g m i).read x = m.read x

namespace Slots
variable {base stride : Nat} {g : Memory → Nat → Memory} (h : Slots base stride g)
include h

theorem foldl_wf (l : List Nat) (wf : m.wf = true) : (l.foldl g m).wf = true :=
  foldl_keeps (P := fun m : Memory => m.wf = true) (fun m i => h.wf m i) l wf

/-- What lies in no slot stays. -/
theorem foldl_out (n : Nat) {x : Nat} (apart : x < base ∨ base + stride * n ≤ x) : ((List.range n).foldl g m).read x = m.read x := by
  induction n with
  | zero => rfl
  | succ n ih =>
    have stride_ : stride * (n + 1) = stride * n + stride := rfl
    rw [List.range_succ, List.foldl_append, List.foldl_cons, List.foldl_nil, h.out _ _ _ (by omega), ih (by omega)]

/-- A slot holds what its own step has written. -/
theorem foldl_in (n : Nat) {i x : Nat} (inside : i < n) (high : x < base + stride * i + stride) :
    ((List.range n).foldl g m).read x = (g ((List.range i).foldl g m) i).read x := by
  induction n with
  | zero => exact absurd inside (Nat.not_lt_zero i)
  | succ n ih =>
    rw [List.range_succ, List.foldl_append, List.foldl_cons, List.foldl_nil]
    obtain lt | rfl := Nat.lt_succ_iff_lt_or_eq.mp inside
    · have below : stride * (i + 1) ≤ stride * n := Nat.mul_le_mul_left _ lt
      have stride_ : stride * (i + 1) = stride * i + stride := rfl
      rw [h.out _ _ _ (by omega), ih lt]
    · rfl

/-- Before its own step a slot is as it was. -/
theorem foldl_before {i x : Nat} (low : base + stride * i ≤ x) : ((List.range i).foldl g m).read x = m.read x := h.foldl_out i (.inr low)

end Slots

section
variable {base stride n : Nat} (fits : n ≤ stride) (f : Nat → Nat) (p : Nat → Bool)
include fits

theorem slots_writeLE : Slots base stride fun m i => m.writeLE (base + stride * i) n (f i) where
  wf _ _ := Memory.writeLE_wf _ _ _
  out _ _ _ apart := Memory.read_writeLE_other _ _ (by omega)

theorem slots_writeLE_if : Slots base stride fun m i => if p i then m.writeLE (base + stride * i) n (f i) else m where
  wf m i wf := by
    split
    · exact Memory.writeLE_wf _ _ _ wf
    · exact wf
  out m i x apart := by
    split
    · exact Memory.read_writeLE_other _ _ (by omega)
    · rfl

/-- The numbers that a fold has written. -/
theorem foldl_writeLE_at (wf : m.wf = true) (count : Nat) {i : Nat} (inside : i < count) :
    ((List.range count).foldl (fun m i => m.writeLE (base + stride * i) n (f i)) m).readLE (base + stride * i) n = f i % 256 ^ n := by
  have slots : Slots base stride fun m i => m.writeLE (base + stride * i) n (f i) := slots_writeLE fits f
  refine (readLE_congr fun x _ high => slots.foldl_in count inside (by omega)).trans ?_
  exact readLE_writeLE_same (slots.foldl_wf _ wf)

theorem foldl_writeLE_if_at (wf : m.wf = true) (count : Nat) {i : Nat} (inside : i < count) :
    ((List.range count).foldl (fun m i => if p i then m.writeLE (base + stride * i) n (f i) else m) m).readLE (base + stride * i) n =
      if p i then f i % 256 ^ n else m.readLE (base + stride * i) n := by
  have slots : Slots base stride fun m i => if p i then m.writeLE (base + stride * i) n (f i) else m := slots_writeLE_if fits f p
  refine (readLE_congr fun x _ high => slots.foldl_in count inside (by omega)).trans ?_
  split
  · exact readLE_writeLE_same (slots.foldl_wf _ wf)
  · exact readLE_congr fun x low _ => slots.foldl_before low

end

/-! Bits gathered one after another. -/

theorem foldl_bits (p : Nat → Bool) (n : Nat) :
    (List.range n).foldl (fun acc i => if p i then acc + 2 ^ i else acc) 0 < 2 ^ n ∧
      ∀ i, ((List.range n).foldl (fun acc i => if p i then acc + 2 ^ i else acc) 0).testBit i = (decide (i < n) && p i) := by
  induction n with
  | zero => simp
  | succ n ih =>
    obtain ⟨small, bits⟩ := ih
    rw [List.range_succ, List.foldl_append, List.foldl_cons, List.foldl_nil]
    generalize (List.range n).foldl (fun acc i => if p i then acc + 2 ^ i else acc) 0 = acc at small bits
    cases here : p n with
    | false =>
      refine ⟨small.trans (Nat.pow_lt_pow_right (by decide) (Nat.lt_succ_self n)), fun i => (bits i).trans ?_⟩
      by_cases same : i = n
      · simp [same, here]
      · have : i < n ↔ i < n + 1 := by omega
        simp [this]
    | true =>
      refine ⟨?_, fun i => ?_⟩
      · simp only [if_true]; omega
      · rw [if_pos rfl, Nat.add_comm]
        obtain low | rfl | high := lt_trichotomy i n
        · rw [Nat.testBit_two_pow_add_gt low, bits]
          simp [low, low.trans (Nat.lt_succ_self n)]
        · rw [Nat.testBit_two_pow_add_eq, bits]
          simp [here]
        · have big : 2 ^ (n + 1) ≤ 2 ^ i := Nat.pow_le_pow_right (by decide) high
          rw [Nat.testBit_lt_two_pow (by omega)]
          simp [show ¬i < n + 1 by omega]

theorem bitOf_eq_testBit (n i : Nat) : bitOf n i = n.testBit i := by
  rw [bitOf, Nat.testBit_eq_decide_div_mod_eq]
  rfl

/-! The image of a record (R40, R41, R343). -/

/-- Pasted bytes stand at their place, and what lies before it stays. -/
theorem paste_wf (m : Memory) (a : Nat) (d : Memory) (h : m.wf = true) : (m.paste a d).wf = true :=
  foldl_keeps (P := fun m : Memory => m.wf = true) (fun _ _ => Memory.write_wf _ _) d h

theorem read_paste_out (m : Memory) (a : Nat) (d : Memory) {x : Nat} (out : ∀ c ∈ d, x ≠ a + c.1) : (m.paste a d).read x = m.read x := by
  unfold Memory.paste
  induction d generalizing m with
  | nil => rfl
  | cons c d ih =>
    rw [List.foldl_cons, ih _ fun c hc => out c (List.mem_cons_of_mem _ hc), Memory.read_write_other _ _ (out c (List.mem_cons_self ..))]

theorem read_paste_before (m : Memory) (a : Nat) (d : Memory) {x : Nat} (before : x < a) : (m.paste a d).read x = m.read x :=
  read_paste_out m a d fun c _ => by omega

theorem read_paste_at (m : Memory) (a : Nat) (d : Memory) {x : Nat} (wf : m.wf = true) (dwf : d.wf = true) (zero : m.read (a + x) = 0) :
    (m.paste a d).read (a + x) = d.read x := by
  induction d generalizing m with
  | nil => exact zero
  | cons c d ih =>
    obtain ⟨k, b⟩ := c
    obtain ⟨_, later, tail⟩ := Memory.wf_cons.1 dwf
    show ((m.write (a + k) b).paste a d).read (a + x) = if k = x then b else Memory.read d x
    split
    · next here =>
      subst here
      rw [read_paste_out _ _ _ fun c hc => by have := later c hc; omega, Memory.read_write_same _ _ wf]
    · next other =>
      exact ih _ (Memory.write_wf _ _ wf) tail ((Memory.read_write_other _ _ (by omega)).trans zero)

section
variable (s : State) (r : Regs) (status : BitVec 128) (rst : BitVec 512) (live : Nat) (pc : Word) (ports : List (Nat × Msg))

/-- The fixed part of the record that a safe point writes. -/
def headOf : Memory := recordHead s r status rst live (recordLength (maskBits live).length ports.length) pc ports

/-- The fixed part stands before the tiles and the messages. -/
theorem recordImage_head {x : Nat} (low : x < 0x400) : (recordImage s r status rst live pc ports).read x = (headOf s r status rst live pc ports).read x := by
  unfold recordImage
  refine foldl_keeps (P := fun m : Memory => m.read x = (headOf s r status rst live pc ports).read x) (fun m i hm => ?_) _
    (foldl_keeps (P := fun m : Memory => m.read x = (headOf s r status rst live pc ports).read x) (fun m i hm => ?_) _ rfl)
  · split
    · exact (read_paste_before _ _ _ (by omega)).trans hm
    · exact hm
  · exact (read_paste_before _ _ _ (by omega)).trans hm

end

/-! The numbers of the fixed part. -/

section
variable {m : Memory} {b k base stride n count : Nat} {f : Nat → Nat} {p : Nat → Bool}

theorem foldl_writeLE_out (fits : n ≤ stride) (apart : b + k ≤ base ∨ base + stride * count ≤ b) :
    ((List.range count).foldl (fun m i => m.writeLE (base + stride * i) n (f i)) m).readLE b k = m.readLE b k :=
  readLE_congr fun _ _ _ => (slots_writeLE fits f).foldl_out count (by omega)

theorem foldl_writeLE_if_out (fits : n ≤ stride) (apart : b + k ≤ base ∨ base + stride * count ≤ b) :
    ((List.range count).foldl (fun m i => if p i then m.writeLE (base + stride * i) n (f i) else m) m).readLE b k = m.readLE b k :=
  readLE_congr fun _ _ _ => (slots_writeLE_if fits f p).foldl_out count (by omega)

theorem foldl_bytes_out (apart : b + k ≤ base ∨ base + count ≤ b) :
    ((List.range count).foldl (fun m i => m.writeLE (base + i) 1 (f i)) m).readLE b k = m.readLE b k := by
  have out := foldl_writeLE_out (m := m) (n := 1) (stride := 1) (count := count) (base := base) (f := f) (b := b) (k := k) le_rfl (by omega)
  simpa only [Nat.one_mul] using out

theorem foldl_bytes_at (wf : m.wf = true) {i : Nat} (inside : i < count) :
    ((List.range count).foldl (fun m i => m.writeLE (base + i) 1 (f i)) m).readLE (base + i) 1 = f i % 256 := by
  have at_ := foldl_writeLE_at (base := base) (stride := 1) le_rfl f wf count inside
  simpa only [Nat.one_mul, Nat.pow_one] using at_

theorem writeLE_fold_wf (fits : n ≤ stride) (wf : m.wf = true) :
    ((List.range count).foldl (fun m i => m.writeLE (base + stride * i) n (f i)) m).wf = true := (slots_writeLE fits f).foldl_wf _ wf

theorem writeLE_if_fold_wf (fits : n ≤ stride) (wf : m.wf = true) :
    ((List.range count).foldl (fun m i => if p i then m.writeLE (base + stride * i) n (f i) else m) m).wf = true :=
  (slots_writeLE_if fits f p).foldl_wf _ wf

end

section
variable (s : State) (r : Regs) (status : BitVec 128) (rst : BitVec 512) (live : Nat) (pc : Word) (ports : List (Nat × Msg))

/-- The lease that a record holds, the descriptors of its rings, and which presence bits of tiles it has. -/
def recordLease : BitVec 128 := (s.hart.rebind.map Rebind.lease).getD status
def recordRing (i : Nat) : Word := (s.hart.rebind.map fun b => b.defs.get (Fin.ofNat 16 i)).getD ((s.cluster s.here).ring i).defn
def ownTile (i : Nat) : Bool := decide (16 - s.hart.ntiles ≤ i)

/-- The fields before the rings (R41). -/
def headFields : Memory :=
  let m := (((Memory.writeLE [] 0 4 (recordLength (maskBits live).length ports.length)).writeLE 4 2 live).writeLE 6 1 s.hart.ntiles).writeLE 7 1
    ((if leaseHeld (recordLease s status) then 1 else 0) + (if s.hart.partner.isSome then 2 else 0) + (if rst = 0 then 0 else 4))
  let m := (((m.writeLE 8 8 pc.toNat).writeLE 0x10 8 r.flg.toNat).writeLE 0x18 8 s.hart.ranks.toNat).writeLE 0x20 8
    ((s.capsule.map Capsule.nonce).getD 0).toNat
  (m.writeLE 0x40 64 rst.toNat).writeLE 0x80 16 (recordLease s status).toNat

/-- The rings, and the registers. -/
def headRings : Memory := (List.range 16).foldl (fun m i =>
  if leaseHeld (recordLease s status) && bitOf (leaseMask (recordLease s status)) i
  then m.writeLE (0x100 + 8 * i) 8 (withTail (recordRing s i) (ringHead (recordRing s i))).toNat else m) (headFields s r status rst live pc ports)
def headScalars : Memory := (List.range 32).foldl (fun m i => m.writeLE (0x180 + 8 * i) 8 (r.s.get (Fin.ofNat 32 i)).toNat)
  (headRings s r status rst live pc ports)
def headViews : Memory := (List.range 8).foldl (fun m i => m.writeLE (0x280 + 16 * i) 16 (r.p.get (Fin.ofNat 8 i)).toNat)
  (headScalars s r status rst live pc ports)
def headShapes : Memory := (List.range 16).foldl (fun m i =>
  if ownTile s i then m.writeLE (0x300 + 2 * i) 2 (r.t.get (Fin.ofNat 16 i)).shape.toNat else m) (headViews s r status rst live pc ports)
def headPresence : Memory := ((headShapes s r status rst live pc ports).writeLE 0x320 4 r.sfull.toNat).writeLE 0x324 2
  ((List.range 16).foldl (fun acc i => if ownTile s i && (r.t.get (Fin.ofNat 16 i)).full then acc + 2 ^ i else acc) 0)

theorem headOf_eq : headOf s r status rst live pc ports = (List.range 4).foldl (fun m n => m.writeLE (0x328 + n) 1 (ports.countP fun p => p.1 == n))
    (headPresence s r status rst live pc ports) := by
  unfold headOf recordHead headPresence headShapes headViews headScalars headRings headFields recordLease recordRing
  dsimp only
  cases s.hart.rebind <;> cases s.capsule <;> rfl

end

section
variable (s : State) (r : Regs) (status : BitVec 128) (rst : BitVec 512) (live : Nat) (pc : Word) (ports : List (Nat × Msg))

theorem headFields_wf : (headFields s r status rst live pc ports).wf = true := by
  unfold headFields
  repeat' apply Memory.writeLE_wf
  rfl

theorem headRings_wf : (headRings s r status rst live pc ports).wf = true := writeLE_if_fold_wf (by decide) (headFields_wf ..)
theorem headScalars_wf : (headScalars s r status rst live pc ports).wf = true := writeLE_fold_wf (by decide) (headRings_wf ..)
theorem headViews_wf : (headViews s r status rst live pc ports).wf = true := writeLE_fold_wf (by decide) (headScalars_wf ..)
theorem headShapes_wf : (headShapes s r status rst live pc ports).wf = true := writeLE_if_fold_wf (by decide) (headViews_wf ..)
theorem headPresence_wf : (headPresence s r status rst live pc ports).wf = true := Memory.writeLE_wf _ _ _ (Memory.writeLE_wf _ _ _ (headShapes_wf ..))

variable {b k : Nat}

/-- What lies before the rings is what the first fields hold; and so on for each part. -/
theorem headRings_out (apart : b + k ≤ 0x100 ∨ 0x180 ≤ b) :
    (headRings s r status rst live pc ports).readLE b k = (headFields s r status rst live pc ports).readLE b k := foldl_writeLE_if_out (by decide) (by omega)
theorem headScalars_out (apart : b + k ≤ 0x180 ∨ 0x280 ≤ b) :
    (headScalars s r status rst live pc ports).readLE b k = (headRings s r status rst live pc ports).readLE b k := foldl_writeLE_out (by decide) (by omega)
theorem headViews_out (apart : b + k ≤ 0x280 ∨ 0x300 ≤ b) :
    (headViews s r status rst live pc ports).readLE b k = (headScalars s r status rst live pc ports).readLE b k := foldl_writeLE_out (by decide) (by omega)
theorem headShapes_out (apart : b + k ≤ 0x300 ∨ 0x320 ≤ b) :
    (headShapes s r status rst live pc ports).readLE b k = (headViews s r status rst live pc ports).readLE b k := foldl_writeLE_if_out (by decide) (by omega)
theorem headPresence_out (apart : b + k ≤ 0x320 ∨ 0x326 ≤ b) :
    (headPresence s r status rst live pc ports).readLE b k = (headShapes s r status rst live pc ports).readLE b k :=
  (readLE_writeLE_other (by omega)).trans (readLE_writeLE_other (by omega))
theorem headOf_out (apart : b + k ≤ 0x328 ∨ 0x32C ≤ b) :
    (headOf s r status rst live pc ports).readLE b k = (headPresence s r status rst live pc ports).readLE b k := by
  rw [headOf_eq]; exact foldl_bytes_out (by omega)

theorem headOf_fields (low : b + k ≤ 0x100) : (headOf s r status rst live pc ports).readLE b k = (headFields s r status rst live pc ports).readLE b k := by
  rw [headOf_out _ _ _ _ _ _ _ (by omega), headPresence_out _ _ _ _ _ _ _ (by omega), headShapes_out _ _ _ _ _ _ _ (by omega),
    headViews_out _ _ _ _ _ _ _ (by omega), headScalars_out _ _ _ _ _ _ _ (by omega), headRings_out _ _ _ _ _ _ _ (by omega)]

/-- The first fields of a record. -/
theorem headFields_spec (small : live < 65536) (few : s.hart.ntiles ≤ 16) (short : recordLength (maskBits live).length ports.length < 2 ^ 32) :
    let m := headFields s r status rst live pc ports
    m.readLE 0 4 = recordLength (maskBits live).length ports.length ∧ m.readLE 4 2 = live ∧ m.readLE 6 1 = s.hart.ntiles ∧
      m.readLE 7 1 = (if leaseHeld (recordLease s status) then 1 else 0) + (if s.hart.partner.isSome then 2 else 0) + (if rst = 0 then 0 else 4) ∧
      m.readLE 8 8 = pc.toNat ∧ m.readLE 0x10 8 = r.flg.toNat ∧ m.readLE 0x18 8 = s.hart.ranks.toNat ∧
      m.readLE 0x20 8 = ((s.capsule.map Capsule.nonce).getD 0).toNat ∧ m.readLE 0x40 64 = rst.toNat ∧ m.readLE 0x80 16 = (recordLease s status).toNat := by
  have wf : Memory.wf [] = true := rfl
  have fits {n : Nat} (v : BitVec (8 * n)) : v.toNat % 256 ^ n = v.toNat := Nat.mod_eq_of_lt (by rw [show 256 = 2 ^ 8 from rfl, ← Nat.pow_mul]; exact v.isLt)
  refine ⟨?_, ?_, ?_, ?_, ?_, ?_, ?_, ?_, ?_, ?_⟩
  all_goals
    unfold headFields
    simp (disch := omega) only [readLE_writeLE_other]
    rw [readLE_writeLE_same (by repeat' apply Memory.writeLE_wf
                                exact wf)]
  · exact Nat.mod_eq_of_lt short
  · exact Nat.mod_eq_of_lt small
  · exact Nat.mod_eq_of_lt (by omega)
  · exact Nat.mod_eq_of_lt (by split <;> split <;> split <;> decide)
  · exact fits (n := 8) pc
  · exact fits (n := 8) r.flg
  · exact fits (n := 8) s.hart.ranks
  · exact fits (n := 8) _
  · exact fits (n := 64) rst
  · exact fits (n := 16) _

theorem read_of_readLE {m : Memory} {x : Nat} (h : m.readLE x 1 = 0) : m.read x = 0 := by
  have : (m.read x).toNat = 0 := by simpa [Memory.readLE, Memory.readBytes, leNat] using h
  exact BitVec.eq_of_toNat_eq this

/-- Between and behind the fields there is zero. -/
theorem headFields_zero (gap : (0x28 ≤ b ∧ b + k ≤ 0x40) ∨ 0x90 ≤ b) : (headFields s r status rst live pc ports).readLE b k = 0 := by
  unfold headFields
  simp (disch := omega) only [readLE_writeLE_other]
  exact leNat_zeros fun x hx => by
    obtain ⟨_, _, rfl⟩ := List.mem_map.1 hx
    rfl

theorem headOf_zero (gap : (0x28 ≤ b ∧ b + k ≤ 0x40) ∨ (0x90 ≤ b ∧ b + k ≤ 0x100) ∨ (0x326 ≤ b ∧ b + k ≤ 0x328) ∨ 0x32C ≤ b) :
    (headOf s r status rst live pc ports).readLE b k = 0 := by
  rw [headOf_out _ _ _ _ _ _ _ (by omega), headPresence_out _ _ _ _ _ _ _ (by omega), headShapes_out _ _ _ _ _ _ _ (by omega),
    headViews_out _ _ _ _ _ _ _ (by omega), headScalars_out _ _ _ _ _ _ _ (by omega), headRings_out _ _ _ _ _ _ _ (by omega)]
  exact headFields_zero _ _ _ _ _ _ _ (by omega)

theorem headOf_ring {i : Nat} (inside : i < 16) (held : leaseHeld (recordLease s status) = true) (mine : bitOf (leaseMask (recordLease s status)) i = true) :
    (headOf s r status rst live pc ports).readLE (0x100 + 8 * i) 8 = (withTail (recordRing s i) (ringHead (recordRing s i))).toNat := by
  rw [headOf_out _ _ _ _ _ _ _ (by omega), headPresence_out _ _ _ _ _ _ _ (by omega), headShapes_out _ _ _ _ _ _ _ (by omega),
    headViews_out _ _ _ _ _ _ _ (by omega), headScalars_out _ _ _ _ _ _ _ (by omega)]
  unfold headRings
  rw [foldl_writeLE_if_at (by decide) _ _ (headFields_wf ..) 16 inside, held, mine, Bool.and_self, if_pos rfl]
  exact Nat.mod_eq_of_lt (BitVec.isLt _)

theorem headOf_scalar (i : SReg) : (headOf s r status rst live pc ports).readLE (0x180 + 8 * i.val) 8 = (r.s.get i).toNat := by
  rw [headOf_out _ _ _ _ _ _ _ (by omega), headPresence_out _ _ _ _ _ _ _ (by omega), headShapes_out _ _ _ _ _ _ _ (by omega),
    headViews_out _ _ _ _ _ _ _ (by omega)]
  unfold headScalars
  rw [foldl_writeLE_at (by decide) _ (headRings_wf ..) 32 i.isLt, show Fin.ofNat 32 i.val = i from Fin.ext (Nat.mod_eq_of_lt i.isLt)]
  exact Nat.mod_eq_of_lt (BitVec.isLt _)

theorem headOf_view (i : Fin 8) : (headOf s r status rst live pc ports).readLE (0x280 + 16 * i.val) 16 = (r.p.get i).toNat := by
  rw [headOf_out _ _ _ _ _ _ _ (by omega), headPresence_out _ _ _ _ _ _ _ (by omega), headShapes_out _ _ _ _ _ _ _ (by omega)]
  unfold headViews
  rw [foldl_writeLE_at (by decide) _ (headScalars_wf ..) 8 i.isLt, show Fin.ofNat 8 i.val = i from Fin.ext (Nat.mod_eq_of_lt i.isLt)]
  exact Nat.mod_eq_of_lt (BitVec.isLt _)

theorem headOf_shape (i : TReg) : (headOf s r status rst live pc ports).readLE (0x300 + 2 * i.val) 2 =
    if 16 - s.hart.ntiles ≤ i.val then (r.t.get i).shape.toNat else 0 := by
  rw [headOf_out _ _ _ _ _ _ _ (by omega), headPresence_out _ _ _ _ _ _ _ (by omega)]
  unfold headShapes
  rw [foldl_writeLE_if_at (by decide) _ _ (headViews_wf ..) 16 i.isLt, show Fin.ofNat 16 i.val = i from Fin.ext (Nat.mod_eq_of_lt i.isLt)]
  simp only [ownTile, decide_eq_true_eq]
  split
  · exact Nat.mod_eq_of_lt (BitVec.isLt _)
  · rw [headViews_out _ _ _ _ _ _ _ (by omega), headScalars_out _ _ _ _ _ _ _ (by omega), headRings_out _ _ _ _ _ _ _ (by omega)]
    exact headFields_zero _ _ _ _ _ _ _ (by omega)

theorem headOf_presence : (headOf s r status rst live pc ports).readLE 0x320 4 = r.sfull.toNat ∧
    ∀ i : TReg, bitOf ((headOf s r status rst live pc ports).readLE 0x324 2) i.val = (decide (16 - s.hart.ntiles ≤ i.val) && (r.t.get i).full) := by
  refine ⟨?_, fun i => ?_⟩
  · rw [headOf_out _ _ _ _ _ _ _ (by omega)]
    unfold headPresence
    rw [readLE_writeLE_other (by omega), readLE_writeLE_same (headShapes_wf ..)]
    exact Nat.mod_eq_of_lt r.sfull.isLt
  · rw [headOf_out _ _ _ _ _ _ _ (by omega)]
    unfold headPresence
    obtain ⟨low, bits⟩ := foldl_bits (fun i => ownTile s i && (r.t.get (Fin.ofNat 16 i)).full) 16
    rw [readLE_writeLE_same (Memory.writeLE_wf _ _ _ (headShapes_wf ..)), Nat.mod_eq_of_lt (show _ < 256 ^ 2 from low), bitOf_eq_testBit, bits,
      show Fin.ofNat 16 i.val = i from Fin.ext (Nat.mod_eq_of_lt i.isLt)]
    simp [ownTile]

theorem headOf_queued {i : Nat} (inside : i < 4) (few : (ports.countP fun p => p.1 == i) < 256) :
    (headOf s r status rst live pc ports).readLE (0x328 + i) 1 = ports.countP fun p => p.1 == i := by
  rw [headOf_eq, foldl_bytes_at (headPresence_wf ..) inside]
  exact Nat.mod_eq_of_lt few

theorem ports_length {ports : List (Nat × Msg)} (numbers : ∀ p ∈ ports, p.1 < 4) : ports.length =
    (ports.countP fun p => p.1 == 0) + (ports.countP fun p => p.1 == 1) + (ports.countP fun p => p.1 == 2) + ports.countP fun p => p.1 == 3 := by
  induction ports with
  | nil => rfl
  | cons p ports ih =>
    have small := numbers p (List.mem_cons_self ..)
    have rest := ih fun q hq => numbers q (List.mem_cons_of_mem _ hq)
    simp only [List.length_cons, List.countP_cons, beq_iff_eq, rest]
    obtain h | h | h | h : p.1 = 0 ∨ p.1 = 1 ∨ p.1 = 2 ∨ p.1 = 3 := by omega
    all_goals simp [h]; omega

theorem maskBits_length (live : Nat) : (maskBits live).length ≤ 16 := (List.length_filter_le _ _).trans (by simp)

/-- The lease, the rebinding and the flags of a record's byte 7. -/
theorem record_flags (a b c : Bool) :
    let n := (if a then 1 else 0) + (if b then 2 else 0) + if c then 0 else 4
    bitOf n 0 = a ∧ bitOf n 1 = b ∧ bitOf n 2 = !c ∧ n < 8 := by
  cases a <;> cases b <;> cases c <;> decide

/-- What a taken safe point writes is the record of R41. -/
theorem recordImage_recordOf (small : live < 65536) (few : s.hart.ntiles ≤ 16) (numbers : ∀ p ∈ ports, p.1 < 4)
    (queued : ∀ k < 4, (ports.countP fun p => p.1 == k) < 256) : RecordOf s r status rst live pc ports (recordImage s r status rst live pc ports) := by
  have head {b k : Nat} (low : b + k ≤ 0x400) : (recordImage s r status rst live pc ports).readLE b k = (headOf s r status rst live pc ports).readLE b k :=
    readLE_congr fun x _ _ => recordImage_head _ _ _ _ _ _ _ (by omega)
  have byte {x : Nat} (low : x < 0x400) (zero : (headOf s r status rst live pc ports).readLE x 1 = 0) : (recordImage s r status rst live pc ports).read x = 0 :=
    read_of_readLE ((head (by omega)).trans zero)
  have tiles := maskBits_length live
  have messages : ports.length < 1024 := by
    have := ports_length numbers
    have := queued 0 (by decide)
    have := queued 1 (by decide)
    have := queued 2 (by decide)
    have := queued 3 (by decide)
    omega
  obtain ⟨len, mask, count, flags, at_, flg, ranks, tag, rst_, lease⟩ :=
    headFields_spec s r status rst live pc ports small few (by unfold recordLength; omega)
  obtain ⟨full, tileFull⟩ := headOf_presence s r status rst live pc ports
  obtain ⟨held, pair, copies, bits⟩ := record_flags (leaseHeld (recordLease s status)) s.hart.partner.isSome (rst == 0)
  have flags : (recordImage s r status rst live pc ports).readLE 7 1 = _ := (head (by omega)).trans ((headOf_fields _ _ _ _ _ _ _ (by omega)).trans flags)
  simp only [beq_iff_eq] at held pair copies bits
  refine ⟨?_, ?_, ?_, ⟨?_, ?_, ?_, ?_⟩, ?_, ?_, ?_, fun c hc => ?_, fun a _ _ => ?_, ?_, ?_, fun a _ _ => ?_, fun i lease mine whole => ?_, fun i => ?_, fun i => ?_,
    fun i => ?_, ?_, fun i => ?_, ?_, fun n hn => ?_, fun a _ _ => ?_⟩
  · exact (head (by omega)).trans ((headOf_fields _ _ _ _ _ _ _ (by omega)).trans len)
  · exact (head (by omega)).trans ((headOf_fields _ _ _ _ _ _ _ (by omega)).trans mask)
  · exact (head (by omega)).trans ((headOf_fields _ _ _ _ _ _ _ (by omega)).trans count)
  · rw [flags]; exact held
  · rw [flags]; exact pair
  · rw [flags]; exact copies
  · rw [flags]; exact bits
  · exact (head (by omega)).trans ((headOf_fields _ _ _ _ _ _ _ (by omega)).trans at_)
  · exact (head (by omega)).trans ((headOf_fields _ _ _ _ _ _ _ (by omega)).trans flg)
  · exact (head (by omega)).trans ((headOf_fields _ _ _ _ _ _ _ (by omega)).trans ranks)
  · refine (head (by omega)).trans ((headOf_fields _ _ _ _ _ _ _ (by omega)).trans (tag.trans ?_))
    rw [hc]; rfl
  · exact byte (by omega) (headOf_zero _ _ _ _ _ _ _ (by omega))
  · exact (head (by omega)).trans ((headOf_fields _ _ _ _ _ _ _ (by omega)).trans rst_)
  · exact (head (by omega)).trans ((headOf_fields _ _ _ _ _ _ _ (by omega)).trans lease)
  · exact byte (by omega) (headOf_zero _ _ _ _ _ _ _ (by omega))
  · refine (head (by omega)).trans ((headOf_ring _ _ _ _ _ _ _ i.isLt lease mine).trans ?_)
    rw [recordRing, whole]; rfl
  · exact (head (by omega)).trans (headOf_scalar ..)
  · exact (head (by omega)).trans (headOf_view ..)
  · exact (head (by omega)).trans (headOf_shape ..)
  · exact (head (by omega)).trans full
  · rw [head (by omega)]; exact tileFull i
  · exact (head (by omega)).trans (headOf_zero _ _ _ _ _ _ _ (by omega))
  · exact (head (by omega)).trans (headOf_queued _ _ _ _ _ _ _ hn (queued n hn))
  · exact byte (by omega) (headOf_zero _ _ _ _ _ _ _ (by omega))

theorem headOf_wf : (headOf s r status rst live pc ports).wf = true := by
  rw [headOf_eq]
  have wf := writeLE_fold_wf (base := 0x328) (stride := 1) (count := 4) (f := fun i => ports.countP fun p => p.1 == i) le_rfl
    (headPresence_wf s r status rst live pc ports)
  simpa only [Nat.one_mul] using wf

/-- The live tiles stand behind the fixed part, in ascending order, 4 KiB each. -/
theorem recordImage_tile {k : Nat} (inside : k < (maskBits live).length)
    (tiles : ∀ i : TReg, (r.t.get i).data.wf = true ∧ ∀ x ∈ (r.t.get i).data, x.1 < 4096) {a : Nat} (low : a < 4096) :
    (recordImage s r status rst live pc ports).read (0x400 + 4096 * k + a) = (r.t.get (Fin.ofNat 16 (maskBits live)[k])).data.read a := by
  have slots : Slots 0x400 4096 fun m i => m.paste (0x400 + 4096 * i) (r.t.get (Fin.ofNat 16 ((maskBits live).getD i 0))).data :=
    ⟨fun m i => paste_wf m _ _, fun m i x apart => read_paste_out _ _ _ fun c hc => by
      obtain ⟨_, small⟩ := tiles (Fin.ofNat 16 ((maskBits live).getD i 0))
      have := small c hc
      omega⟩
  have head (x : Nat) (high : 0x400 ≤ x) : (headOf s r status rst live pc ports).read x = 0 := read_of_readLE (headOf_zero _ _ _ _ _ _ _ (by omega))
  unfold recordImage
  refine (foldl_keeps (P := fun m : Memory => m.read (0x400 + 4096 * k + a) = (List.foldl (fun m i =>
    m.paste (0x400 + 4096 * i) (r.t.get (Fin.ofNat 16 ((maskBits live).getD i 0))).data) (headOf s r status rst live pc ports)
      (List.range (maskBits live).length)).read (0x400 + 4096 * k + a)) (fun m i hm => ?_) _ rfl).trans ?_
  · split
    · refine (read_paste_before _ _ _ ?_).trans hm
      have : 4096 * (k + 1) ≤ 4096 * (maskBits live).length := Nat.mul_le_mul_left _ inside
      omega
    · exact hm
  · rw [slots.foldl_in _ inside (by omega), List.getD_eq_getElem _ _ inside]
    obtain ⟨wf, _⟩ := tiles (Fin.ofNat 16 (maskBits live)[k])
    refine read_paste_at _ _ _ (slots.foldl_wf _ (headOf_wf ..)) wf ?_
    rw [slots.foldl_before (by omega)]
    exact head _ (by omega)

end

end
end Sys2Proof.Proofs
end

