-- ==== Sys2Proof/Proofs/Resumption.lean ====
section
/-! PROOFS. The snapshot of a copy, the record that a safe point writes, and the task that resumes from one (O49). -/

namespace Sys2Proof.Proofs

open Sys2Proof Sys2Proof.Machine Sys2Proof.Claims

/-! The fields of RST (R18, R140). -/

section
variable {r : BitVec 512} {off n a k v : Nat}

theorem rstGet_eq (positive : 0 < n) : rstGet r off n = r.toNat / 2 ^ (8 * off) % 2 ^ (8 * n) := by
  rw [rstGet, bitsOf, show 8 * (off + n) - 1 + 1 - 8 * off = 8 * n by omega]

/-- A field taken out of a number and another put in its place. -/
theorem replace_field (x v b n : Nat) : x - x / 2 ^ b % 2 ^ n * 2 ^ b + v % 2 ^ n * 2 ^ b = 2 ^ b * (2 ^ n * (x / 2 ^ b / 2 ^ n) + v % 2 ^ n) + x % 2 ^ b := by
  have whole := Nat.div_add_mod x (2 ^ b)
  have upper := congrArg (2 ^ b * ·) (Nat.div_add_mod (x / 2 ^ b) (2 ^ n))
  simp only [Nat.mul_add] at upper
  rw [Nat.mul_comm _ (2 ^ b), Nat.mul_comm _ (2 ^ b), Nat.mul_add]
  omega

/-- The bits of RST after a field was written. -/
theorem rstPut_testBit (positive : 0 < n) (inside : off + n ≤ 64) (i : Nat) :
    (rstPut r off n v).toNat.testBit i = if 8 * off ≤ i ∧ i < 8 * (off + n) then v.testBit (i - 8 * off) else r.toNat.testBit i := by
  have low := Nat.mod_lt r.toNat (Nat.two_pow_pos (8 * off))
  have field := Nat.mod_lt v (Nat.two_pow_pos (8 * n))
  rw [rstPut, rstGet_eq positive, replace_field, BitVec.testBit_toNat, BitVec.getLsbD_ofNat,
    Nat.testBit_two_pow_mul_add _ low]
  by_cases below : i < 8 * off
  · rw [if_pos below, if_neg (by omega), Nat.testBit_mod_two_pow]
    simp [below, show i < 512 by omega]
  rw [if_neg below, Nat.testBit_two_pow_mul_add _ field]
  by_cases within : i - 8 * off < 8 * n
  · rw [if_pos within, if_pos (by omega), Nat.testBit_mod_two_pow]
    simp [within, show i < 512 by omega]
  rw [if_neg within, if_neg (by omega), Nat.testBit_div_two_pow, Nat.testBit_div_two_pow, show i - 8 * off - 8 * n + 8 * n + 8 * off = i by omega]
  by_cases room : i < 512
  · simp [room]
  · rw [BitVec.testBit_toNat r, BitVec.getLsbD_of_ge _ _ (Nat.not_lt.1 room)]
    exact Bool.and_false _

/-- A field that was written is read, and every other field stays. -/
theorem rstGet_rstPut_same (positive : 0 < n) (inside : off + n ≤ 64) : rstGet (rstPut r off n v) off n = v % 2 ^ (8 * n) := by
  refine Nat.eq_of_testBit_eq fun i => ?_
  rw [rstGet_eq positive, Nat.testBit_mod_two_pow, Nat.testBit_div_two_pow, rstPut_testBit positive inside, Nat.testBit_mod_two_pow]
  by_cases low : i < 8 * n
  · rw [if_pos (by omega), show i + 8 * off - 8 * off = i by omega]
  · simp [low]

theorem rstGet_rstPut_other (positive : 0 < n) (inside : off + n ≤ 64) (some_ : 0 < k) (apart : a + k ≤ off ∨ off + n ≤ a) :
    rstGet (rstPut r off n v) a k = rstGet r a k := by
  refine Nat.eq_of_testBit_eq fun i => ?_
  rw [rstGet_eq some_, rstGet_eq some_, Nat.testBit_mod_two_pow, Nat.testBit_mod_two_pow, Nat.testBit_div_two_pow, Nat.testBit_div_two_pow,
    rstPut_testBit positive inside]
  by_cases low : i < 8 * k
  · rw [if_neg (by omega)]
  · simp [low]

end

/-! The snapshot of a copy in flight (R140, R237). -/

section
variable {s : State}

theorem recordRst_none (h : s.copyIn = none) : recordRst s = s.hart.r.rst := by
  rw [recordRst, h]; rfl

theorem recordRst_untouched {c : Copy} (h : s.copyIn = some c) (nothing : c.base + c.done = 0) : recordRst s = s.hart.r.rst := by
  rw [recordRst, h]
  exact if_neg (by simp [nothing])

/-- How many elements of a copy the snapshot counts as done. -/
def copied (s : State) (c : Copy) : Nat := if c.mode.toRing then poppedElements s c else c.done

theorem recordRst_copy {c : Copy} (h : s.copyIn = some c) (some_ : c.base + c.done ≠ 0) (count : c.count < 4096)
    (chan : c.chan < 16) (size : c.esize < 65536) (base : c.base + copied s c < 2 ^ 32) (dst : c.dst.toNat + copied s c * c.esize < 2 ^ 32) :
    let g := rstGet (recordRst s)
    bitOf (g 4 1) 1 = true ∧ g 4 1 / 4 % 8 = c.mode.num ∧ g 5 1 = c.chan ∧ g 6 2 = c.esize ∧ g 8 8 = (addOff c.src (copied s c * c.esize)).toNat ∧
      g 16 8 = 0 ∧ g 0x18 4 = c.count - copied s c ∧ g 0x1C 4 = c.base + copied s c ∧
      g 0x20 4 = if c.mode.toRing then c.dst.toNat % 16 else c.dst.toNat + copied s c * c.esize := by
  have eq : recordRst s = snapshotRst s := by
    rw [recordRst, h]
    exact if_pos (by simpa using some_)
  have mode : c.mode.num < 8 := by cases c.mode <;> decide
  have first : rstGet (recordRst s) 4 1 = (rstGet s.hart.r.rst 4 1 % 2 + 2 + 4 * c.mode.num) % 2 ^ 8 := by
    rw [eq, snapshotRst, h]
    simp (disch := omega) only [rstGet_rstPut_other, rstGet_rstPut_same]
  dsimp only
  refine ⟨?_, ?_, ?_, ?_, ?_, ?_, ?_, ?_, ?_⟩
  · rw [first, bitOf]; simp only [beq_iff_eq]; omega
  · rw [first]; omega
  all_goals
    rw [eq, snapshotRst, h]
    simp (disch := omega) only [rstGet_rstPut_other, rstGet_rstPut_same]
  · exact Nat.mod_eq_of_lt (by omega)
  · exact Nat.mod_eq_of_lt size
  · exact Nat.mod_eq_of_lt (BitVec.isLt _)
  · exact Nat.zero_mod _
  · exact Nat.mod_eq_of_lt (lt_of_le_of_lt (Nat.sub_le _ _) (count.trans (by decide)))
  · exact Nat.mod_eq_of_lt base
  · refine Nat.mod_eq_of_lt ?_
    split
    · omega
    · next plain =>
      rw [copied, if_neg plain] at dst
      exact dst

end

/-! What a unit's own write leaves (R198, R201). -/

/-- What the context that issues has read may be overtaken; beside that it stays, with the granules, the messages and the capsules. -/
structure SelfWritten (s t : State) : Prop where
  hart : ∃ since pads, t.hart = { s.hart with chunk := { s.hart.chunk with since := since, padSince := pads } }
  got : t.got = s.got
  net : t.net = s.net
  caps : t.caps = s.caps
  suspended : t.suspended = s.suspended

namespace SelfWritten
variable {s t u : State}

theorem refl (s : State) : SelfWritten s s := ⟨⟨_, _, rfl⟩, rfl, rfl, rfl, rfl⟩

theorem trans (h : SelfWritten s t) (k : SelfWritten t u) : SelfWritten s u := by
  obtain ⟨a, b, first⟩ := h.hart
  obtain ⟨c, d, second⟩ := k.hart
  exact ⟨⟨c, d, by rw [second, first]⟩, k.got.trans h.got, k.net.trans h.net, k.caps.trans h.caps, k.suspended.trans h.suspended⟩

theorem of_found (h : Found s t) : SelfWritten s t := by
  unfold Found at h
  rw [← h]
  exact ⟨⟨_, _, rfl⟩, rfl, rfl, rfl, rfl⟩

theorem publish (me : Nat) (sig : BitVec 1024) (masks : List (Nat × BitVec 256)) (s : State) : SelfWritten s (publish me sig masks s) := by
  refine ⟨?_, rfl, rfl, rfl, rfl⟩
  unfold Machine.publish
  dsimp only
  split
  · exact ⟨_, _, rfl⟩
  · exact ⟨_, _, rfl⟩

theorem markDirty (h : Hart) (pa n : Nat) (s : State) : SelfWritten s (markDirty h pa n s) := by
  unfold Machine.markDirty
  split
  · exact .refl s
  · dsimp only
    refine foldl_keeps (P := fun t : State => SelfWritten s t) ?_ _ (.refl s)
    exact fun t l ht => ht.trans ⟨⟨_, _, rfl⟩, rfl, rfl, rfl, rfl⟩

theorem putMem (h : Hart) (pa : Nat) (bs : List Byte) (s : State) : SelfWritten s (putMem h pa bs s) := by
  unfold Machine.putMem
  split
  · exact .refl s
  · have dirty := markDirty h pa bs.length s
    exact ⟨dirty.hart, dirty.got, dirty.net, dirty.caps, dirty.suspended⟩

theorem writeUnit (h : Hart) (part pa : Nat) (bs : List Byte) (s : State) : SelfWritten s (writeUnit h part pa bs s) := by
  unfold Machine.writeUnit
  split
  · exact .refl s
  · exact (of_found (Found.readLines s part pa bs.length)).trans ((putMem _ _ _ _).trans ((of_found (settlePoison_found part _)).trans (publish ..)))

theorem deviceWrite (cap pa : Nat) (bs : List Byte) (s : State) : SelfWritten s (deviceWrite cap pa bs s) := by
  have used (us : List Nat) : SelfWritten s (startExit us (noteUse us s)) := ⟨⟨_, _, rfl⟩, rfl, rfl, rfl, rfl⟩
  exact (used _).trans (writeUnit _ _ _ _ _)

theorem sealedRange (h : SelfWritten s t) (pa n : Nat) : sealedRange t pa n = sealedRange s pa n := by
  simp only [Machine.sealedRange, State.granule, h.got]

theorem core (h : SelfWritten s t) : t.hart.core = s.hart.core := by
  obtain ⟨_, _, eq⟩ := h.hart
  rw [eq]

theorem partner (h : SelfWritten s t) : t.hart.partner = s.hart.partner := by
  obtain ⟨_, _, eq⟩ := h.hart
  rw [eq]

end SelfWritten

/-! The record of a safe point (R39 to R42). -/

section
variable {s : State} {x off len : Nat} {e : Extent} {image : Memory} {bound paired : Bool}

/-- The state with the record and its header written. -/
def recordStored (e : Extent) (off : Nat) (image : Memory) (len : Nat) (s : State) : State :=
  deviceWrite s.hart.cap e.base (leBytes 8 (off + len) ++ leBytes 8 (s.mem.readLE (e.base + 8) 8 + 1))
    (deviceWrite s.hart.cap (e.base + off) (image.readBytes 0 len) s)

theorem recordStored_stored : SelfWritten s (recordStored e off image len s) := (SelfWritten.deviceWrite ..).trans (.deviceWrite ..)

/-- The continuation message of a record (R42). -/
def recordMessage (x off : Nat) (bound paired : Bool) (cap : Nat) (t : State) : Msg :=
  { kind := .continuation, cap := cap, entry := mkHandle x off, dest := 0, payload := Vector.replicate 6 0, tile := none, src := 0,
    ranks := t.hart.ranks, sender := none, bound := if bound then some t.hart.core else none, tiles := t.hart.ntiles, hint := contHint t.here,
    paired := paired }

theorem writeRecord_fields : let t := recordStored e off image len s
    (writeRecord x e off image len bound paired s).mem = t.mem ∧
      (writeRecord x e off image len bound paired s).net = t.net ++ [recordMessage x off bound paired s.hart.cap t] := by
  unfold writeRecord
  dsimp only
  cases bound
  · exact ⟨rfl, rfl⟩
  · exact ⟨rfl, rfl⟩

theorem writeRecord_message : ∃ m : Msg, (writeRecord x e off image len bound paired s).net = s.net ++ [m] ∧ m.kind = .continuation ∧
    m.cap = s.hart.cap ∧ m.entry = mkHandle x off ∧ m.ranks = s.hart.ranks ∧ m.bound = (if bound then some s.hart.core else none) ∧
    m.tiles = s.hart.ntiles ∧ m.hint = contHint s.here ∧ m.paired = paired := by
  obtain ⟨_, net⟩ := writeRecord_fields (x := x) (s := s) (off := off) (len := len) (e := e) (image := image) (bound := bound) (paired := paired)
  have stored : SelfWritten s (recordStored e off image len s) := recordStored_stored
  obtain ⟨since, pads, hart⟩ := stored.hart
  refine ⟨_, net.trans (congrArg (· ++ _) stored.net), ?_⟩
  unfold recordMessage State.here
  rw [hart]
  exact ⟨rfl, rfl, rfl, rfl, rfl, rfl, rfl, rfl⟩

/-- Two numbers that were written together are read. -/
theorem readLE_pair {m : Memory} (wf : m.wf = true) (a x y : Nat) :
    (m.writeBytes a (leBytes 8 x ++ leBytes 8 y)).readLE a 8 = x % 2 ^ 64 ∧ (m.writeBytes a (leBytes 8 x ++ leBytes 8 y)).readLE (a + 8) 8 = y % 2 ^ 64 := by
  have all : (m.writeBytes a (leBytes 8 x ++ leBytes 8 y)).readBytes a 16 = leBytes 8 x ++ leBytes 8 y := readBytes_writeBytes wf (by simp)
  have first := readBytes_part (m.writeBytes a (leBytes 8 x ++ leBytes 8 y)) a 16 0 8 (by decide)
  have second := readBytes_part (m.writeBytes a (leBytes 8 x ++ leBytes 8 y)) a 16 8 8 (by decide)
  rw [all, List.drop_zero, List.take_left' (leBytes_length ..), Nat.add_zero] at first
  rw [all, List.drop_left' (leBytes_length ..), List.take_of_length_le (leBytes_length ..).le] at second
  refine ⟨?_, ?_⟩
  · rw [Memory.readLE, ← first, leNat_leBytes]; rfl
  · rw [Memory.readLE, ← second, leNat_leBytes]; rfl

/-- Where the granules of a record and of its header are not sealed, both stand in memory. -/
theorem recordStored_mem (wf : s.mem.wf = true) (free : sealedRange s (e.base + off) len = false) (header : sealedRange s e.base 16 = false)
    (behind : 16 ≤ off) :
    (∀ a < len, (recordStored e off image len s).mem.read (e.base + off + a) = image.read a) ∧
      (recordStored e off image len s).mem.readLE e.base 8 = (off + len) % 2 ^ 64 ∧
      (recordStored e off image len s).mem.readLE (e.base + 8) 8 = (s.mem.readLE (e.base + 8) 8 + 1) % 2 ^ 64 := by
  have first : (deviceWrite s.hart.cap (e.base + off) (image.readBytes 0 len) s).mem = s.mem.writeBytes (e.base + off) (image.readBytes 0 len) := by
    rw [deviceWrite_mem, if_neg (by rw [readBytes_length, free]; exact Bool.false_ne_true)]
  have second : (recordStored e off image len s).mem = (s.mem.writeBytes (e.base + off) (image.readBytes 0 len)).writeBytes e.base
      (leBytes 8 (off + len) ++ leBytes 8 (s.mem.readLE (e.base + 8) 8 + 1)) := by
    rw [recordStored, deviceWrite_mem, if_neg, first]
    rw [(SelfWritten.deviceWrite ..).sealedRange, List.length_append, leBytes_length, leBytes_length, header]
    exact Bool.false_ne_true
  have wf' : (s.mem.writeBytes (e.base + off) (image.readBytes 0 len)).wf = true := Memory.writeBytes_wf _ _ wf
  rw [second]
  generalize s.mem.readLE (e.base + 8) 8 + 1 = count
  refine ⟨fun a ha => ?_, ?_, ?_⟩
  · rw [Memory.read_writeBytes_other _ _ (by simp; omega), Memory.read_writeBytes_same _ _ _ wf (by rw [readBytes_length]; exact ha)]
    simp [Memory.readBytes]
  · exact (readLE_pair wf' ..).1
  · exact (readLE_pair wf' ..).2

/-- The messages that travel with a record, and its length. -/
def travelling (s : State) (r : Regs) (pc : Word) : List (Nat × Msg) := if takesPorts s r pc then queuedEntries s else []
def lengthOf (live : Nat) (ports : List (Nat × Msg)) : Nat := recordLength (maskBits live).length ports.length

/-- A safe point with room writes its record and sends its continuation message, and the task ends. -/
theorem finishSafe_writes {r : Regs} {status : BitVec 128} {rst : BitVec 512} {live : Nat} {pc : Word} {wait : Option Wait} {c : Capsule}
    (mine : s.capsule = some c) (extent : contExtent c = some (x, e)) (place : recordPlace s e (lengthOf live (travelling s r pc)) = some off) :
    let u := writeRecord x e off (recordImage s r status rst live pc (travelling s r pc)) (lengthOf live (travelling s r pc)) (portInstr r (peek s pc))
      s.hart.partner.isSome s
    ∃ t, finishSafe r status rst live pc wait s = stopContext t ∧ t.mem = u.mem ∧ t.net = u.net := by
  have bound : s.capsule.bind contExtent = some (x, e) := by rw [mine]; exact extent
  unfold travelling lengthOf at place
  simp only [finishSafe, bound, place, travelling, lengthOf]
  refine ⟨_, rfl, ?_, ?_⟩
  · split <;> split <;> rfl
  · split <;> split <;> rfl

end

end Sys2Proof.Proofs
end

