-- ==== Sys2Proof/Proofs/Starts.lean ====
section
/-! PROOFS. The start of a task, its messages on the way, and the record that a resumed task reads (O49). -/

namespace Sys2Proof.Proofs

open Sys2Proof Sys2Proof.Machine Sys2Proof.Claims

/-! The registers of a record (R41, R42). -/

theorem read_window (m : Memory) (b n : Nat) {a : Nat} (h : a < n) : (m.window b n).read a = m.read (b + a) := by
  rw [Memory.window, read_tabulate, if_pos h]

theorem recordRegs_tile (m : Memory) (i : TReg) (own : 16 - m.readLE 6 1 ≤ i.val) :
    ((recordRegs m).t.get i).shape = BitVec.ofNat 16 (m.readLE (0x300 + 2 * i.val) 2) ∧
      (bitOf (m.readLE 4 2) i.val = true → ((recordRegs m).t.get i).full = bitOf (m.readLE 0x320 8) (32 + i.val) ∧
        ∀ a < 4096, ((recordRegs m).t.get i).data.read a = m.read (0x400 + 4096 * (maskBits (m.readLE 4 2 % 2 ^ i.val)).length + a)) ∧
      (bitOf (m.readLE 4 2) i.val = false → ((recordRegs m).t.get i).full = true ∧ ((recordRegs m).t.get i).data = []) := by
  have bytes (b : Nat) : ∀ a < 4096, (m.window b 4096).read a = m.read (b + a) := fun a ha => read_window m b 4096 ha
  unfold recordRegs
  dsimp only
  rw [get_ofFn, if_pos own]
  cases live : bitOf (m.readLE 4 2) i.val with
  | true =>
    rw [if_pos rfl]
    dsimp only
    exact ⟨rfl, fun _ => ⟨rfl, bytes (0x400 + 4096 * (maskBits (m.readLE 4 2 % 2 ^ i.val)).length)⟩, nofun⟩
  | false => exact ⟨rfl, nofun, fun _ => ⟨rfl, rfl⟩⟩

theorem recordRegs_scalar (m : Memory) (i : SReg) : (recordRegs m).s.get i = word (m.readLE (0x180 + 8 * i.val) 8) := get_ofFn _ i

theorem withRdl_zero (r : Regs) (n : Nat) :
    (withRdl r n).s.get 0 = word ((r.s.get 0).toNat - bitsOf (r.s.get 0).toNat 58 57 * 2 ^ 57 + n % 4 * 2 ^ 57) := get_set_same r.s 0 _

theorem withRdl_other (r : Regs) (n : Nat) {i : SReg} (h : i ≠ 0) : (withRdl r n).s.get i = r.s.get i := get_set_other r.s h _

theorem loadRecord_restored {m : Memory} {h : Hart} (first : h.rdl = 0) : RestoredFrom m (loadRecord m h) ∧ (loadRecord m h).record = none := by
  have regs : (loadRecord m h).r = recordRegs m := by
    show (if h.rdl = 0 then recordRegs m else withRdl (recordRegs m) h.rdl) = _
    exact if_pos first
  refine ⟨?_, rfl⟩
  unfold RestoredFrom
  rw [regs]
  refine ⟨rfl, rfl, rfl, rfl, rfl, fun i => get_ofFn _ i, rfl, fun i => get_ofFn _ i, fun i own => recordRegs_tile m i own, ?_, rfl⟩
  exact regs

/-- Beside the two bits of the redelivery count a word stays. -/
theorem withRdl_bit (w : Word) (n : Nat) {i : Nat} (a : i ≠ 57) (b : i ≠ 58) :
    (word (w.toNat - bitsOf w.toNat 58 57 * 2 ^ 57 + n % 4 * 2 ^ 57)).getLsbD i = w.getLsbD i := by
  have low := Nat.mod_lt w.toNat (Nat.two_pow_pos 57)
  have field := Nat.mod_lt n (Nat.two_pow_pos 2)
  have eq : w.toNat - bitsOf w.toNat 58 57 * 2 ^ 57 + n % 4 * 2 ^ 57 = _ := replace_field w.toNat n 57 2
  rw [eq, word, BitVec.getLsbD_ofNat, Nat.testBit_two_pow_mul_add _ low, ← BitVec.testBit_toNat]
  by_cases below : i < 57
  · rw [if_pos below, Nat.testBit_mod_two_pow]
    simp [below, show i < 64 by omega]
  rw [if_neg below, Nat.testBit_two_pow_mul_add _ field, if_neg (by omega), Nat.testBit_div_two_pow, Nat.testBit_div_two_pow,
    show i - 57 - 2 + 2 + 57 = i by omega]
  by_cases room : i < 64
  · simp [room]
  · rw [BitVec.testBit_toNat, BitVec.getLsbD_of_ge _ _ (Nat.not_lt.1 room)]
    exact Bool.and_false _

theorem loadRecord_again {m : Memory} {h : Hart} (again : h.rdl ≠ 0) (few : h.rdl < 4) : let x := loadRecord m h
    bitsOf (x.r.s.get 0).toNat 58 57 = h.rdl ∧ (∀ n : Nat, n ≠ 57 → n ≠ 58 → (x.r.s.get 0).getLsbD n = (word (m.readLE 0x180 8)).getLsbD n) ∧
      x.ckpt = x.r ∧ { x.r with s := (loadRecord m { h with rdl := 0 }).r.s } = (loadRecord m { h with rdl := 0 }).r ∧
      ∀ i : SReg, i.val ≠ 0 → x.r.s.get i = word (m.readLE (0x180 + 8 * i.val) 8) := by
  have regs : (loadRecord m h).r = withRdl (recordRegs m) h.rdl := if_neg again
  dsimp only
  rw [show (loadRecord m h).ckpt = (loadRecord m h).r from rfl, regs]
  refine ⟨withRdl_bits _ few, fun n a b => ?_, rfl, rfl, fun i other => ?_⟩
  · rw [withRdl_zero, recordRegs_scalar]
    exact withRdl_bit _ _ a b
  · rw [withRdl_other _ _ fun zero => other (congrArg Fin.val zero), recordRegs_scalar]

theorem restorePorts_get (core : Nat) (es : List (Nat × PortEntry)) (s : State) (k : Fin 4) :
    ((restorePorts core es s).core core).ports.get k = (es.filter fun p => p.1 == k.val).map Prod.snd ++ (s.core core).ports.get k := by
  rw [restorePorts, State.core_modCore_same _ _ _ (State.core_id _ _), get_ofFn]

/-! What a task reads before it is ready (R33, R34, R42). -/

section
variable {s t : State}

theorem finishRegisters_other (h : s.hart.run ≠ .clearing) : finishRegisters s = s := by
  unfold finishRegisters
  split
  · next same => exact absurd same h
  · rfl

variable (clearing : s.hart.run = .clearing)
include clearing

theorem finishRegisters_ready (read : readStart s = .ok t) : finishRegisters s = t.mod fun h => { h with run := .ready } := by
  simp only [finishRegisters, clearing, read]

theorem finishRegisters_fault {c : Code} {d : Option Word} (read : readStart s = .error (.fault c d t)) : finishRegisters s = raise {} c d t := by
  simp only [finishRegisters, clearing, read]

theorem finishRegisters_wait {w : Wait} (read : readStart s = .error (.wait w t)) : finishRegisters s = t := by
  simp only [finishRegisters, clearing, read]

theorem finishRegisters_plain (header : s.hart.header = none) (record : s.hart.record = none) :
    finishRegisters s = s.mod fun h => { h with run := .ready } :=
  finishRegisters_ready clearing (by simp only [readStart, header, record])

section
variable {e : Word} {w : Nat} (header : s.hart.header = some e) (fetched : fetchWord e s = .ok (w, t))
include header fetched

theorem finishRegisters_header (good : (headerTiles w).isSome = true) : finishRegisters s = t.mod fun h => { h with header := none, run := .ready } := by
  have read : readStart s = .ok (t.mod fun h => { h with header := none }) := by
    simp only [readStart, header, checkHeader, fetched, ok_bind, good, ensure_true]
  exact finishRegisters_ready clearing read

theorem finishRegisters_malformed (bad : (headerTiles w).isSome = false) : finishRegisters s = raise {} .handlerFormat none t := by
  have read : readStart s = .error (.fault .handlerFormat none t) := by
    simp only [readStart, header, checkHeader, fetched, ok_bind, bad]
    rfl
  exact finishRegisters_fault clearing read

end

section
variable {e : Word} {c : Capsule} {x : Extent} (header : s.hart.header = none) (record : s.hart.record = some e) (mine : s.capsule = some c)
  (at_ : c.exts[handleIdx e]? = some x)

/-- Where the record of a continuation lies. -/
def recordAt (x : Extent) (e : Word) : Nat := Extent.base x + handleOff e

include header record mine at_

theorem finishRegisters_waits (met : meetLines c.part (recordAt x e) (recordSize s x e) s = .error (.wait .unit t)) : finishRegisters s = t := by
  have read : readStart s = .error (.wait .unit t) := by
    unfold recordAt at met
    simp only [readStart, header, record, readRecord, mine, at_, met]
  exact finishRegisters_wait clearing read

variable {u : State} (met : meetLines c.part (recordAt x e) (recordSize s x e) s = .ok u)
include met

omit clearing header record mine at_ in
theorem recordSize_met : recordSize u x e = recordSize s x e := by
  rw [recordSize, recordSize, (Found.meetLines met).mem]

theorem finishRegisters_poisoned {code : Code} (bad : poisonCause u (recordAt x e) (recordSize s x e) = some code) :
    finishRegisters s = raise {} code none u := by
  have read : readStart s = .error (.fault code none u) := by
    have size := recordSize_met met
    unfold recordAt at met bad
    simp only [readStart, header, record, readRecord, mine, at_, met, size, bad]
  exact finishRegisters_fault clearing read

variable (clean : poisonCause u (recordAt x e) (recordSize s x e) = none)
include clean

theorem finishRegisters_refused (bad : recordOk c (recordBytes s x e) = false) : finishRegisters s = raise {} .contFormat none u := by
  have read : readStart s = .error (.fault .contFormat none u) := by
    have size := recordSize_met met
    unfold recordAt at met clean
    simp only [readStart, header, record, readRecord, mine, at_, met, size, clean, bad]
    rfl
  exact finishRegisters_fault clearing read

variable (good : recordOk c (recordBytes s x e) = true) (alone : s.hart.partner = none)
include good alone

omit clearing header record mine at_ clean good in
theorem otherCopy_none : u.otherCopy = none := by
  rw [State.otherCopy, (Found.meetLines met).hart, alone]
  rfl

theorem finishRegisters_full (full : recordFits u u.hart ((recordBytes s x e).readLE 6 1) = false) : finishRegisters s = u := by
  have other := otherCopy_none met alone
  have read : readStart s = .error (.wait (.place none) u) := by
    have size := recordSize_met met
    unfold recordAt at met clean
    simp only [readStart, header, record, readRecord, mine, at_, met, size, clean, good, full, other, if_true]
    rfl
  exact finishRegisters_wait clearing read

/-- A record that passes its checks is loaded, and counts as resumed (R40, R42). -/
theorem finishRegisters_loads (room : recordFits u u.hart ((recordBytes s x e).readLE 6 1) = true) :
    ∃ p f, finishRegisters s = (restorePorts u.hart.core (recordPorts c.id (recordBytes s x e))
      { (countResumed c.id x u).mod (fun h => { loadRecord (recordBytes s x e) h with phys := p }) with fresh := f }).mod fun h => { h with run := .ready } := by
  have other := otherCopy_none met alone
  have written : SelfWritten u (countResumed c.id x u) := by
    unfold countResumed
    dsimp only
    split
    · exact (SelfWritten.deviceWrite ..).trans (.deviceWrite ..)
    · exact .deviceWrite ..
  have partner : (countResumed c.id x u).hart.partner = none := by
    rw [written.partner, (Found.meetLines met).hart, alone]
  have read : readStart s = .ok (takeRecord c.id (recordBytes s x e) (countResumed c.id x u)) := by
    have size := recordSize_met met
    unfold recordAt at met clean
    simp only [readStart, header, record, readRecord, mine, at_, met, size, clean, good, room, other, if_true]
    rw [onPair, partner]
    rfl
  have core := written.core
  rw [finishRegisters_ready clearing read, takeRecord, core]
  exact ⟨_, _, rfl⟩

end
end

end Sys2Proof.Proofs
end

