-- ==== Sys2Proof/Proofs/Delivery.lean ====
section
/-! PROOFS. Messages on the networks, and the tasks that they start (O49). -/

namespace Sys2Proof.Proofs

open Sys2Proof Sys2Proof.Machine Sys2Proof.Claims

/-! Tasks that messages start and resume (R12, R20, R33, R34, R42, R84). -/

section
variable {s : State} {m : Msg} {c : Capsule} {core : Nat}

theorem payload_start (k : Fin 6) (id : Nat) (ranks : Word) (partner : Option Nat) :
    (startHart id core ranks partner m).r.s.get ⟨k.val + 1, by omega⟩ = m.payload.get k := by
  show (Vector.ofFn _).get _ = _
  rw [get_ofFn, if_neg (by simp), dif_pos (by simp)]
  rfl

theorem rest_start {r : SReg} (h : 6 < r.val) (id : Nat) (ranks : Word) (partner : Option Nat) :
    (startHart id core ranks partner m).r.s.get r = 0 := by
  show (Vector.ofFn _).get _ = _
  rw [get_ofFn, if_neg (by omega), dif_neg (by omega)]

theorem tile_start {d : Memory} {sh : BitVec 16} (h : m.tile = some (d, sh)) (id : Nat) (ranks : Word) (partner : Option Nat) :
    (startHart id core ranks partner m).r.t.get 15 = { data := d, shape := sh, full := true } := by
  show (startRegs m ranks).t.get 15 = _
  unfold startRegs
  simp only [h]
  exact get_set_same Regs.reset.t 15 _

theorem admitTo_starts (mine : s.cap? m.cap = some c) (single : c.twin core = none) (first : m.kind ≠ .continuation) :
    admitTo core m s = addHart (startHart s.nextId core ((c.ranksOf core).getD 0) none m)
      (if m.kind = .launch then refreshCopies (clusterNo core) m.cap s else s) := by
  have fresh : freshCopies m.cap m.kind (core :: none.toList) s = if m.kind = .launch then refreshCopies (clusterNo core) m.cap s else s := rfl
  have id : (if m.kind = .launch then refreshCopies (clusterNo core) m.cap s else s).nextId = s.nextId := by
    split <;> rfl
  rw [admitTo, if_neg first, startTask, mine]
  simp only [single, fresh, id]

theorem resumeTask_single (mine : s.cap? m.cap = some c) (single : c.twin core = none) :
    resumeTask core m s = addHart (resumeHart s.nextId core none (suspendedAt s c m.entry) m)
      { s.modCore core (fun k => { k with boundRec := k.boundRec.erase (m.entry, m.cap) }) with
        suspended := s.suspended.erase (suspendedAt s c m.entry) } := by
  rw [resumeTask, mine]
  simp only [single, ite_self]
  rfl

/-- A new task has tile registers that no other task of its core has (R12). -/
theorem addHart_spec (h : Hart) (s : State) : ∃ p, addHart h s = State.modCore h.core (fun k => { k with cap := some h.cap })
      { s with parked := s.parked ++ [{ h with phys := p }], nextId := Nat.max s.nextId (h.id + 1), fresh := s.fresh + 1 } ∧
    p.length ≤ h.ntiles ∧ ∀ x ∈ residents s h.core, x.id ≠ h.id → ∀ y ∈ x.phys, y ∉ p := by
  refine ⟨freeTiles s h.core h.id h.ntiles, rfl, List.length_take_le _ _, fun x here other y taken at_ => ?_⟩
  have free := List.mem_filter.1 (List.mem_of_mem_take at_)
  refine absurd free.2 ?_
  rw [Bool.not_eq_true', Bool.not_eq_false]
  rw [List.contains_iff_mem]
  exact List.mem_flatMap.2 ⟨x, List.mem_filter.2 ⟨here, by simpa using other⟩, taken⟩

end

/-! Messages on their way (R21, R86, R87, R284, R285). -/

section
variable {s : State} {i core : Nat}

theorem network_absent (h : s.net[i]? = none) : deliverMessage i core s = s ∧ arriveData i s = s ∧ walk i s = s ∧ resumeAt i core s = s := by
  refine ⟨?_, ?_, ?_, ?_⟩
  · simp only [deliverMessage, h]
  · simp only [arriveData, h]
  · simp only [walk, h]
  · simp only [resumeAt, h]

variable {m : Msg} (at_ : s.net[i]? = some m)
include at_

theorem network_dead (gone : dead s m = true) :
    deliverMessage i core s = takeNet i s ∧ arriveData i s = takeNet i s ∧ walk i s = takeNet i s ∧ resumeAt i core s = takeNet i s := by
  refine ⟨?_, ?_, ?_, ?_⟩
  · simp only [deliverMessage, at_, gone, if_true]
  · simp only [arriveData, at_, gone, if_true]
  · simp only [walk, at_, gone, if_true]
  · simp only [resumeAt, at_, gone, if_true]

variable (live : dead s m = false)
include live

theorem deliverMessage_stays (h : m.kind = .data ∨ m.target s ≠ some core ∨ mustWait s i m = true ∨ serves s m core = false) :
    deliverMessage i core s = s := by
  simp only [deliverMessage, at_, live, Bool.false_eq_true, if_false]
  split
  · rfl
  · next other =>
    have shut : serves s m core = false := by tauto
    simp only [deliverTo, shut, Bool.not_false, if_true]

section
variable (handler : m.kind ≠ .data) (here : m.target s = some core) (turn : mustWait s i m = false) (open_ : serves s m core = true)
include handler here turn open_

omit open_ in
theorem deliverMessage_goes : deliverMessage i core s = deliverTo i core m s := by
  simp only [deliverMessage, at_, live, Bool.false_eq_true, if_false]
  exact if_neg fun bad => bad.elim handler fun bad => bad.elim (· here) fun wait => Bool.noConfusion (wait.symm.trans turn)

theorem deliverMessage_starts (room : canStart s m core = true) : deliverMessage i core s = admitTo core m (takeNet i s) := by
  rw [deliverMessage_goes at_ live handler here turn, deliverTo, open_, room]
  rfl

theorem deliverMessage_queues (full : canStart s m core = false) (room : inboxRoom (s.core core) m = true) :
    deliverMessage i core s = (takeNet i s).modCore core fun k => { k with inbox := k.inbox ++ [m], cap := some m.cap } := by
  rw [deliverMessage_goes at_ live handler here turn, deliverTo, open_, full, room]
  rfl

theorem deliverMessage_refused (full : canStart s m core = false) (none_ : inboxRoom (s.core core) m = false) : deliverMessage i core s = s := by
  rw [deliverMessage_goes at_ live handler here turn, deliverTo, open_, full, none_]
  rfl

end

theorem arriveData_other (h : m.kind ≠ .data ∨ mustWait s i m = true) : arriveData i s = s := by
  simp only [arriveData, at_, live, Bool.false_eq_true, if_false]
  exact if_pos h

section
variable (data : m.kind = .data) (turn : mustWait s i m = false) (here : m.target s = some core) (single : s.twin m.cap core = none)
include data turn here single

theorem arriveData_eq : arriveData i s = if portRoom s m core then enterPort m core (takeNet i s) else s := by
  simp only [arriveData, at_, live, Bool.false_eq_true, if_false, here, single]
  exact if_neg fun bad => bad.elim (· data) fun wait => Bool.noConfusion (wait.symm.trans turn)

/-- The port of a data message (R87). -/
def portOf (m : Msg) : Fin 4 := Fin.ofNat 4 (destPort m.dest - 4)

theorem arriveData_enters (open_ : serves s m core = true) (room : ((s.core core).ports.get (portOf m)).length < 4) :
    ∃ t, arriveData i s = t ∧ t.net = s.net.eraseIdx i ∧
      (t.core core).ports.get (portOf m) = (s.core core).ports.get (portOf m) ++ [{ msg := m, taken := none }] ∧ (t.core core).cap = some m.cap := by
  have enters : portRoom s m core = true := Bool.and_eq_true_iff.2 ⟨open_, decide_eq_true room⟩
  have same : (takeNet i s).core core = s.core core := rfl
  refine ⟨_, (arriveData_eq at_ live data turn here single).trans (if_pos enters), rfl, ?_, ?_⟩
  · rw [enterPort, State.core_modCore_same _ _ _ (State.core_id _ _), same]
    exact get_set_same _ (portOf m) _
  · rw [enterPort, State.core_modCore_same _ _ _ (State.core_id _ _)]

theorem arriveData_full (full : 4 ≤ ((s.core core).ports.get (portOf m)).length) : arriveData i s = s := by
  refine (arriveData_eq at_ live data turn here single).trans (if_neg fun room => ?_)
  obtain ⟨_, room⟩ := Bool.and_eq_true_iff.1 room
  have := of_decide_eq_true room
  unfold portOf at full
  omega

end

theorem walk_other (h : m.walks = false ∨ mustWait s i m = true) : walk i s = s := by
  simp only [walk, at_, live, Bool.false_eq_true, if_false]
  refine if_pos ?_
  obtain h | h := h <;> simp [h]

section
variable (walks : m.walks = true) (turn : mustWait s i m = false)
include walks turn

theorem walk_taken {k : Nat} (taken : taker s m = some k) : walk i s = admitTo k m (takeNet i s) := by
  simp only [walk, at_, live, Bool.false_eq_true, if_false, walks, turn, taken]
  rfl

theorem walk_untaken (none_ : taker s m = none) : walk i s = parkMessage i m s := by
  simp only [walk, at_, live, Bool.false_eq_true, if_false, walks, turn, none_]
  rfl

theorem walk_parks {k : Nat} (none_ : taker s m = none) (place : parkPlace s m = some k) (room : (s.cluster k).park.length < 32) :
    walk i s = (takeNet i s).modCluster k fun c => { c with park := c.park ++ [m] } := by
  rw [walk_untaken at_ live walks turn none_, parkMessage, place]
  exact if_pos room

theorem walk_refused (none_ : taker s m = none) (full : ∀ k, parkPlace s m = some k → 32 ≤ (s.cluster k).park.length) : walk i s = s := by
  rw [walk_untaken at_ live walks turn none_, parkMessage]
  split
  · rfl
  · next k place =>
    have := full k place
    exact if_neg (by omega)

end

theorem resumeAt_resumes (record : m.kind = .continuation) (taken : taker s m = some core) : resumeAt i core s = resumeTask core m (takeNet i s) := by
  simp only [resumeAt, at_, live, Bool.false_eq_true, if_false]
  exact if_pos ⟨record, taken⟩

theorem resumeAt_other (h : m.kind ≠ .continuation ∨ taker s m ≠ some core) : resumeAt i core s = s := by
  simp only [resumeAt, at_, live, Bool.false_eq_true, if_false]
  exact if_neg fun ⟨record, taken⟩ => h.elim (· record) (· taken)

end

end Sys2Proof.Proofs
end

