-- ==== Sys2Proof/Proofs/Commits.lean ====
section
/-! PROOFS. The commit of a chunk: when it is checked, and what its buffered writes do to memory (O49). -/

namespace Sys2Proof.Proofs

open Sys2Proof Sys2Proof.Machine Sys2Proof.Claims

/-! CHUNK_COMMIT of a task without a pair (R36, R37, R39, R201 to R204, R259). -/

section
variable {s : State} {k : CommitKind}

theorem hart?_self (s : State) : (s.hart? s.hart.id).isSome = true := by
  simp [State.hart?, State.harts]

theorem evChunkCommit_absent {i : Nat} (h : s.hart? i = none) : Gives (.evChunkCommit i) s s :=
  congrArg Host.Outcome.next (if_neg (by rw [h]; exact Bool.false_ne_true))

theorem evChunkCommit_alone (asks : s.hart.run = .committing k) (alone : s.hart.partner = none) :
    Gives (.evChunkCommit s.hart.id) s (focus s.hart.id (commitAlone k s)) := by
  have acts : arbiter s = commitAlone k s := by simp only [arbiter, asks, alone]
  refine congrArg Host.Outcome.next ((if_pos (hart?_self s)).trans ?_)
  rw [focus_self, acts]

/-- The state that the commit is checked in: the cells are met, and the producers delivered. -/
def checked (s : State) : State := meetCells s.hart.chunk.effects (drain (noteUse (commitUnits s s.hart.chunk.effects) s))

theorem commitAlone_early (h : mayCommit s = false) : commitAlone k s = s := if_pos (by rw [h]; rfl)

variable (may : mayCommit s = true)
include may

theorem commitAlone_asleep (asleep : Retained s (commitUnits s s.hart.chunk.effects)) :
    commitAlone k s = startExit (commitUnits s s.hart.chunk.effects) s :=
  (if_neg (by rw [may]; exact Bool.false_ne_true)).trans (if_pos (asleep_of asleep))

variable (awake : ¬Retained s (commitUnits s s.hart.chunk.effects))
include awake

theorem commitAlone_roomGone {t : State} (gone : roomGone k (checked s) = some t) : commitAlone k s = t := by
  unfold checked at gone
  refine (if_neg (by rw [may]; exact Bool.false_ne_true)).trans ((if_neg (awake_of awake)).trans ?_)
  simp only [gone]

variable (room : roomGone k (checked s) = none)
include room

theorem commitAlone_overtaken (late : ¬(overtaken (checked s).hart = true → (checked s).hart.chunk.exclusive = true)) :
    commitAlone k s = refuseCommit k (checked s) := by
  unfold checked at room
  refine (if_neg (by rw [may]; exact Bool.false_ne_true)).trans ((if_neg (awake_of awake)).trans ?_)
  simp only [room]
  exact if_pos (Classical.not_imp.1 late)

variable (passes : overtaken (checked s).hart = true → (checked s).hart.chunk.exclusive = true)
include passes

theorem commitAlone_fault {code : Code} {d : Option Word} {x : State} (live : meetLive k (checked s) = .error (.fault code d x)) :
    commitAlone k s = commitFault code d x := by
  unfold checked at room live passes
  refine (if_neg (by rw [may]; exact Bool.false_ne_true)).trans ((if_neg (awake_of awake)).trans ?_)
  simp only [room, live]
  exact if_neg fun ⟨late, ordinary⟩ => ordinary (passes late)

theorem commitAlone_done {v t : State} (live : meetLive k (checked s) = .ok v) (done : commitChunk v = .ok t) : commitAlone k s = finishCommit k t := by
  unfold checked at room live passes
  refine (if_neg (by rw [may]; exact Bool.false_ne_true)).trans ((if_neg (awake_of awake)).trans ?_)
  simp only [room, live, done]
  exact if_neg fun ⟨late, ordinary⟩ => ordinary (passes late)

theorem commitAlone_refused {v : State} {code : Code} {d : Option Word} (live : meetLive k (checked s) = .ok v) (fails : commitChunk v = .error (code, d)) :
    commitAlone k s = commitFault code d v := by
  unfold checked at room live passes
  refine (if_neg (by rw [may]; exact Bool.false_ne_true)).trans ((if_neg (awake_of awake)).trans ?_)
  simp only [room, live, fails]
  exact if_neg fun ⟨late, ordinary⟩ => ordinary (passes late)

end

theorem pairTimeout_eq {s : State} {t : Nat} {b : Hart} (asked : s.hart.request = some t) (other : s.hart.partner.bind s.hart? = some b) :
    pairTimeout s = if 1000000 ≤ s.clock - t ∧ b.request = none then pairMismatch {} s else s := by
  simp only [pairTimeout, asked, other, Option.isNone_iff_eq_none]

/-! What the buffered writes of a chunk do (R36, R194, R198). -/

section
variable {s : State}

theorem applyAll_cons {e : Effect} {t : State} (h : applyEffect e s = .ok t) (es : List Effect) : applyAll (e :: es) s = applyAll es t := by
  rw [applyAll, h]
  rfl

theorem putMem_mem {h : Hart} {pa : Nat} {bs : List Byte} (free : sealedRange s pa bs.length = false) :
    (putMem h pa bs s).mem = s.mem.writeBytes pa bs := by
  rw [putMem, if_neg (by rw [free]; exact Bool.false_ne_true)]

theorem apply_store (wf : s.mem.wf = true) {pa : Nat} {bs : List Byte} (free : sealedRange s pa bs.length = false) (x : Nat) :
    (putMem s.hart pa bs s).mem.read x = if pa ≤ x ∧ x < pa + bs.length then bs.getD (x - pa) 0 else s.mem.read x := by
  rw [putMem_mem free]
  exact read_writeBytes s.mem wf x

/-- What an atomic leaves in memory; a compare that fails leaves the old number. -/
theorem apply_amo (wf : s.mem.wf = true) {pa : Nat} {op : AmoOp} {wide : Bool} {y : Word} (free : sealedRange s pa (amoWidth wide) = false) :
    (∀ x, x < pa ∨ pa + amoWidth wide ≤ x → (applyAmo s.hart s.partition pa op wide y s).mem.read x = s.mem.read x) ∧
      (applyAmo s.hart s.partition pa op wide y s).mem.readLE pa (amoWidth wide) =
        ((amoNew op (amoWidth wide) (s.mem.readLE pa (amoWidth wide)) y.toNat 0).1.map (· % 256 ^ amoWidth wide)).getD (s.mem.readLE pa (amoWidth wide)) := by
  have lines := Found.readLines s s.partition pa (amoWidth wide)
  unfold applyAmo
  simp only [lines.mem]
  cases new : (amoNew op (amoWidth wide) (s.mem.readLE pa (amoWidth wide)) y.toNat 0).1 with
  | none => exact ⟨fun x _ => by rw [lines.mem], by rw [lines.mem]; rfl⟩
  | some v =>
    have mem : (settlePoison s.partition [(pa, amoWidth wide)] (putMem s.hart pa (leBytes (amoWidth wide) v)
        (readLines s.partition pa (amoWidth wide) s))).mem = s.mem.writeLE pa (amoWidth wide) v := by
      rw [(settlePoison_found _ _).mem, putMem_mem (by rw [sealedRange_found lines, leBytes_length]; exact free), lines.mem]
      rfl
    simp only [mem]
    exact ⟨fun x out => Memory.read_writeLE_other _ _ out, readLE_writeLE_same wf⟩

/-! The number that an atomic leaves (R194). -/

/-- What stands in memory after an atomic on `a` with the operand `b`, both of `n` bytes. -/
def amoValue (n a b : Nat) : AmoOp → Nat
  | .add => (a + b) % 2 ^ (8 * n)
  | .and => a &&& b
  | .or => a ||| b
  | .xor => a ^^^ b
  | .min => if (BitVec.ofNat (8 * n) a).toInt ≤ (BitVec.ofNat (8 * n) b).toInt then a else b
  | .max => if (BitVec.ofNat (8 * n) a).toInt ≤ (BitVec.ofNat (8 * n) b).toInt then b else a
  | .minu => Nat.min a b
  | .maxu => Nat.max a b
  | .swp => b
  | .fadd => (Machine.Num.roundFp 5 .rne (Machine.Num.add (Machine.Num.ofF32 a) (Machine.Num.ofF32 b))).1 % 2 ^ (8 * n)
  | .fmin => (Machine.Num.minMax 5 false a b).1 % 2 ^ (8 * n)
  | .fmax => (Machine.Num.minMax 5 true a b).1 % 2 ^ (8 * n)
  | .cas => if a = 0 then b else a

theorem toSigned_eq {w : Nat} (positive : 0 < w) (v : Nat) : Num.toSigned w v = (BitVec.ofNat w v).toInt := by
  have half : 2 ^ w = 2 * 2 ^ (w - 1) := by rw [← Nat.pow_succ', Nat.succ_eq_add_one, Nat.sub_add_cancel positive]
  unfold Num.toSigned
  rw [BitVec.toInt, BitVec.toNat_ofNat]
  by_cases low : v % 2 ^ w < 2 ^ (w - 1)
  · rw [if_pos low, if_pos (by omega)]
    rfl
  · rw [if_neg low, if_neg (by omega)]
    rfl

theorem amoNew_value (op : AmoOp) {n a : Nat} (positive : 0 < n) (low : a < 2 ^ (8 * n)) (y : Nat) :
    ((amoNew op n a y 0).1.map (· % 2 ^ (8 * n))).getD a = amoValue n a (y % 2 ^ (8 * n)) op := by
  have whole : a % 2 ^ (8 * n) = a := Nat.mod_eq_of_lt low
  have operand : y % 2 ^ (8 * n) < 2 ^ (8 * n) := Nat.mod_lt _ (by positivity)
  have signed := toSigned_eq (w := 8 * n) (by omega)
  unfold amoNew amoValue
  simp only [whole, signed]
  generalize y % 2 ^ (8 * n) = b at operand
  cases op with
  | add => exact Nat.mod_mod _ _
  | and => exact Nat.mod_eq_of_lt (Nat.and_lt_two_pow _ operand)
  | or => exact Nat.mod_eq_of_lt (Nat.or_lt_two_pow low operand)
  | xor => exact Nat.mod_eq_of_lt (Nat.xor_lt_two_pow low operand)
  | min => exact Nat.mod_eq_of_lt (by split <;> assumption)
  | max => exact Nat.mod_eq_of_lt (by split <;> assumption)
  | minu => exact Nat.mod_eq_of_lt (by split <;> assumption)
  | maxu => exact Nat.mod_eq_of_lt (by split <;> assumption)
  | swp => exact Nat.mod_eq_of_lt operand
  | fadd => rfl
  | fmin => rfl
  | fmax => rfl
  | cas =>
    rw [Nat.zero_mod]
    dsimp only
    split
    · exact Nat.mod_eq_of_lt operand
    · rfl

theorem readLE_lt_two_pow (m : Memory) (a n : Nat) : m.readLE a n < 2 ^ (8 * n) := by
  have := readLE_lt m a n
  rwa [show 256 = 2 ^ 8 from rfl, ← Nat.pow_mul] at this

theorem amoWidth_pos (wide : Bool) : 0 < amoWidth wide := by cases wide <;> decide

theorem apply_amo_value {s : State} (wf : s.mem.wf = true) {pa : Nat} {op : AmoOp} {wide : Bool} {y : Word} (free : sealedRange s pa (amoWidth wide) = false) :
    (applyAmo s.hart s.partition pa op wide y s).mem.readLE pa (amoWidth wide) =
      amoValue (amoWidth wide) (s.mem.readLE pa (amoWidth wide)) (y.toNat % 2 ^ (8 * amoWidth wide)) op := by
  rw [(apply_amo wf free).2, ← amoNew_value op (amoWidth_pos wide) (readLE_lt_two_pow ..), show 256 = 2 ^ 8 from rfl, ← Nat.pow_mul]

/-! A whole chunk of such writes (R36, R37, R198). -/

theorem settleWords_found (part : Nat) (at_ : (Nat → Bool) → SramPlace → Bool) (ws : List (Nat × Nat)) (s : State) :
    Found s (settleWords part at_ ws s) := (Found.meetSram s part _).trans (Found.set_sram _ _)

theorem settlePad_found (part core : Nat) (ws : List (Nat × Nat)) (s : State) : Found s (settlePad part core ws s) := by
  unfold settlePad
  exact (settleWords_found part _ ws s).trans ((Found.set_padPoison _ _).trans (Found.foldl (fun t _ => Found.logPart t part _) _ _))

theorem settleStores_found (es : List Effect) (s : State) : Found s (settleStores es s) := by
  have pads (t : State) : Found t (settlePads es t) := Found.foldl (fun u core => settlePad_found u.partition core _ u) _ t
  have reads : Found s ((storeRanges es).foldl (fun t x => readLines t.partition x.1 x.2 t) s) :=
    Found.foldl (fun t (x : Nat × Nat) => Found.readLines t t.partition x.1 x.2) _ s
  exact reads.trans ((settlePoison_found _ _).trans (pads _))

/-- A store to memory or scratchpad, or an atomic without a result. -/
def Plain (e : Effect) : Prop := (∃ pa bs, e = .store pa bs) ∨ (∃ pa op wide y, e = .amo pa op wide y) ∨ ∃ k a bs, e = .padStore k a bs

theorem applyAll_plain {es : List Effect} (plain : ∀ e ∈ es, Plain e) (s : State) : ∃ u, applyAll es s = .ok u := by
  induction es generalizing s with
  | nil => exact ⟨s, rfl⟩
  | cons e es ih =>
    have done : ∃ t, applyEffect e s = .ok t := by
      obtain ⟨pa, bs, rfl⟩ | ⟨pa, op, wide, y, rfl⟩ | ⟨k, a, bs, rfl⟩ := plain e (List.mem_cons_self ..)
      · exact ⟨_, rfl⟩
      · exact ⟨_, rfl⟩
      · exact ⟨_, rfl⟩
    obtain ⟨t, ht⟩ := done
    rw [applyAll_cons ht]
    exact ih (fun e he => plain e (List.mem_cons_of_mem _ he)) t

/-- Nothing of such a chunk leaves with its messages. -/
theorem sendAll_plain {es : List Effect} (plain : ∀ e ∈ es, Plain e) (task fx : Nat) (s : State) : sendAll task fx es s = s := by
  induction es generalizing s with
  | nil => rfl
  | cons e es ih =>
    have rest := fun s => ih (fun e he => plain e (List.mem_cons_of_mem _ he)) s
    obtain ⟨pa, bs, rfl⟩ | ⟨pa, op, wide, y, rfl⟩ | ⟨k, a, bs, rfl⟩ := plain e (List.mem_cons_self ..)
    · exact rest s
    · exact rest s
    · exact rest s

/-- Memory and the cores stay, and the context that issues. -/
structure Quiet (s t : State) : Prop where
  mem : t.mem = s.mem
  cores : t.cores = s.cores
  hart : t.hart = s.hart

namespace Quiet
variable {s t u : State}

theorem refl (s : State) : Quiet s s := ⟨rfl, rfl, rfl⟩

theorem trans (h : Quiet s t) (k : Quiet t u) : Quiet s u := ⟨k.mem.trans h.mem, k.cores.trans h.cores, k.hart.trans h.hart⟩

theorem foldl {α : Type} {f : State → α → State} (h : ∀ t x, Quiet t (f t x)) (l : List α) (s : State) : Quiet s (l.foldl f s) :=
  foldl_keeps (P := Quiet s) (fun t x ht => ht.trans (h t x)) l (refl s)

theorem scrubRing (cl n : Nat) (s : State) : Quiet s (scrubRing cl n s) := by
  unfold Machine.scrubRing
  dsimp only
  split
  · refine foldl (fun t i => ?_) _ s
    split
    · exact refl t
    · exact ⟨rfl, rfl, rfl⟩
  · exact refl s

theorem scrubIdle (s : State) : Quiet s (scrubIdle s) := by
  unfold Machine.scrubIdle
  split
  · exact foldl (fun t n => scrubRing _ n t) _ s
  · exact refl s

theorem noteProgress (cap : Nat) (s : State) : Quiet s (noteProgress cap s) := by
  unfold Machine.noteProgress
  split
  · exact ⟨rfl, rfl, rfl⟩
  · exact refl s

end Quiet

/-- A context whose chunk has committed (R37). -/
def closed (clock : Nat) (h : Hart) : Hart :=
  { h with chunk := Chunk.reset, commits := h.commits + 1, rdl := 0, mismatches := 0, request := none, times := [],
           ckpt := h.r, ckptSdist := h.sdist, ckptLease := leaseNow clock h }

theorem closeChunk_spec (s : State) : (closeChunk s).hart = closed s.clock s.hart ∧ (closeChunk s).mem = s.mem ∧ (closeChunk s).cores = s.cores := by
  have quiet := Quiet.scrubIdle ({ settleQueries s.hart.id 1 s with tokens := s.tokens.filter (· != tokenOf s.hart) }.mod (closed s.clock))
  exact ⟨quiet.hart, quiet.mem, quiet.cores⟩

/-- A chunk of such writes commits with what they do, and with nothing else in memory and scratchpads. -/
theorem commitChunk_plain {s : State} (plain : ∀ e ∈ s.hart.chunk.effects, Plain e) (free : writesSealed s s.hart.chunk.effects = false) :
    ∃ t u, commitChunk s = .ok t ∧ applyAll s.hart.chunk.effects (settleStores s.hart.chunk.effects s) = .ok u ∧
      (settleStores s.hart.chunk.effects s).mem = s.mem ∧ t.mem = u.mem ∧ ∀ c, (t.core c).pad = (u.core c).pad := by
  obtain ⟨u, applied⟩ := applyAll_plain plain (settleStores s.hart.chunk.effects s)
  have progress := Quiet.noteProgress s.hart.cap (countCommit (publish s.hart.id s.hart.chunk.writeSig s.hart.chunk.padWrite u))
  obtain ⟨_, mem, cores⟩ := closeChunk_spec ((noteProgress s.hart.cap (countCommit (publish s.hart.id s.hart.chunk.writeSig s.hart.chunk.padWrite u))).modCap
    s.hart.cap fun c => { c with commits := c.commits + 1 })
  refine ⟨_, u, ?_, applied, (settleStores_found _ s).mem, mem.trans progress.mem, fun c => ?_⟩
  · unfold commitChunk
    dsimp only
    rw [if_neg (by rw [free]; exact Bool.false_ne_true), applied]
    exact congrArg Except.ok (sendAll_plain plain _ _ _)
  · unfold State.core
    rw [cores]
    exact congrArg (fun l => (lookup Core.id Core.reset l c).pad) progress.cores

end

end Sys2Proof.Proofs
end

