-- ==== Sys2Proof/Proofs/Distributor.lean ====
section
/-! PROOFS. Cumin: which query it answers, what it answers, and where the answer lands (O49). -/

namespace Sys2Proof.Proofs

open Sys2Proof Sys2Proof.Machine Sys2Proof.Claims

/-! The waiting query that arrived first (R241). -/

section
variable {desc : Nat}

/-- Does a query wait for an answer of a descriptor? -/
def Waits (desc : Nat) (q : Query) : Prop := q.desc = desc ∧ q.answer = none ∧ q.arrived.isSome = true

/-- A step of the search for the first. -/
def earlier (desc : Nat) (acc : Option (Nat × Query)) (x : Nat × Query) : Option (Nat × Query) :=
  if x.2.desc = desc ∧ x.2.answer = none ∧ x.2.arrived.isSome = true then
    match acc with
    | none => some x
    | some y => if x.2.arrived.getD 0 < y.2.arrived.getD 0 then some x else acc
  else acc

theorem firstWaiting_eq (s : State) (desc : Nat) : firstWaiting s desc = ((List.range s.queries.length).zip s.queries).foldl (earlier desc) none := rfl

theorem earlier_skips {acc : Option (Nat × Query)} {x : Nat × Query} (h : ¬Waits desc x.2) : earlier desc acc x = acc := if_neg h

theorem foldl_earlier_none {l : List (Nat × Query)} (h : ∀ x ∈ l, ¬Waits desc x.2) : l.foldl (earlier desc) none = none := by
  induction l with
  | nil => rfl
  | cons x l ih =>
    rw [List.foldl_cons, earlier_skips (h x (List.mem_cons_self ..))]
    exact ih fun y hy => h y (List.mem_cons_of_mem _ hy)

/-- The one that is ahead of every other that waits is found. -/
theorem foldl_earlier_first {l : List (Nat × Query)} {b : Nat × Query} {acc : Option (Nat × Query)} (waits : Waits desc b.2)
    (ahead : ∀ x ∈ l, Waits desc x.2 → x = b ∨ b.2.arrived.getD 0 < x.2.arrived.getD 0)
    (h : acc = some b ∨ (b ∈ l ∧ ∀ y, acc = some y → b.2.arrived.getD 0 < y.2.arrived.getD 0)) : l.foldl (earlier desc) acc = some b := by
  induction l generalizing acc with
  | nil => exact h.resolve_right fun ⟨none_, _⟩ => List.not_mem_nil none_
  | cons x l ih =>
    have rest := fun y hy => ahead y (List.mem_cons_of_mem _ hy)
    have here := ahead x (List.mem_cons_self ..)
    rw [List.foldl_cons]
    refine ih rest ?_
    by_cases w : Waits desc x.2
    · have takes (y : Nat × Query) (later : x.2.arrived.getD 0 < y.2.arrived.getD 0) : earlier desc (some y) x = some x := (if_pos w).trans (if_pos later)
      have keeps (y : Nat × Query) (not_later : ¬x.2.arrived.getD 0 < y.2.arrived.getD 0) : earlier desc (some y) x = some y :=
        (if_pos w).trans (if_neg not_later)
      have first : earlier desc none x = some x := if_pos w
      obtain rfl | ⟨at_, behind⟩ := h
      · obtain rfl | later := here w
        · exact .inl (keeps _ (Nat.lt_irrefl _))
        · exact .inl (keeps _ (by omega))
      · by_cases same : x = b
        · subst same
          left
          cases acc with
          | none => exact first
          | some y => exact takes y (behind y rfl)
        · have at_ := (List.mem_cons.1 at_).resolve_left (Ne.symm same)
          have later := (here w).resolve_left same
          refine .inr ⟨at_, ?_⟩
          cases acc with
          | none =>
            rw [first]
            exact fun y hy => Option.some.inj hy ▸ later
          | some z =>
            by_cases swaps : x.2.arrived.getD 0 < z.2.arrived.getD 0
            · rw [takes z swaps]
              exact fun y hy => Option.some.inj hy ▸ later
            · rw [keeps z swaps]
              exact fun y hy => behind y hy
    · rw [earlier_skips w]
      refine h.imp_right fun ⟨at_, behind⟩ => ⟨?_, behind⟩
      obtain rfl | at_ := List.mem_cons.1 at_
      · exact absurd waits w
      · exact at_

theorem mem_numbered {l : List Query} {p : Nat × Query} : p ∈ (List.range l.length).zip l ↔ l[p.1]? = some p.2 := by
  rw [List.mem_iff_getElem?]
  constructor
  · rintro ⟨n, h⟩
    rw [List.getElem?_zip_eq_some] at h
    obtain ⟨number, entry⟩ := h
    obtain ⟨_, eq⟩ := List.getElem?_eq_some_iff.1 number
    rw [List.getElem_range] at eq
    rwa [← eq]
  · intro h
    obtain ⟨room, _⟩ := List.getElem?_eq_some_iff.1 h
    exact ⟨p.1, List.getElem?_zip_eq_some.2 ⟨by simp [room], h⟩⟩

theorem firstWaiting_none {s : State} (h : ∀ (j : Nat) x, s.queries[j]? = some x → ¬Waits desc x) : firstWaiting s desc = none :=
  foldl_earlier_none fun x hx => h x.1 x.2 (mem_numbered.1 hx)

theorem firstWaiting_first {s : State} {i : Nat} {q : Query} (at_ : s.queries[i]? = some q) (waits : Waits desc q)
    (ahead : ∀ (j : Nat) x, s.queries[j]? = some x → j ≠ i → Waits desc x → q.arrived.getD 0 < x.arrived.getD 0) : firstWaiting s desc = some (i, q) := by
  refine foldl_earlier_first waits (fun x hx w => ?_) (.inr ⟨mem_numbered.2 at_, nofun⟩)
  have hx := mem_numbered.1 hx
  by_cases same : x.1 = i
  · rw [same, at_] at hx
    exact .inl (Prod.ext same (Option.some.inj hx).symm)
  · exact .inr (ahead x.1 x.2 hx same w)

end

/-! What Cumin serves (R92, R94, R260). -/

section
variable {i : Nat} {q : Query} {s : State}

/-- The state after the descriptor was read, and its bytes. -/
def descRead (q : Query) (s : State) : State := readLines (partOf s q.cap) q.desc 32 s
def descBytes (q : Query) (s : State) : Memory := (descRead q s).mem.window q.desc 32

theorem serve_shared {a : Word} (h : sharedAnswer (descRead q s) i q = some a) : serve i q s = some (a, none, descRead q s) := by
  unfold descRead at *
  simp only [serve, h]

variable (own : sharedAnswer (descRead q s) i q = none)
include own

theorem serve_poisoned (h : (poisonCause (descRead q s) q.desc 32).isSome = true) : serve i q s = some (errorAnswer, none, descRead q s) := by
  unfold descRead at *
  simp only [serve, own, h, if_true]

variable (clean : poisonCause (descRead q s) q.desc 32 = none)
include clean

theorem serve_malformed (h : gridOk (descBytes q s) = false) : ∃ t, serve i q s = some (errorAnswer, none, t) ∧ t.mem = (descRead q s).mem := by
  unfold descBytes descRead at *
  simp only [serve, own, clean, h, Option.isSome_none, Bool.false_eq_true, if_false, Bool.not_false, if_true]
  exact ⟨_, rfl, rfl⟩

variable (good : gridOk (descBytes q s) = true)
include good

theorem serve_returned {n : Nat} (h : lowestReturn (descRead q s) q.desc = some n) :
    serve i q s = some (gridAnswer (descBytes q s) n, some n, { descRead q s with returns := (descRead q s).returns.erase (q.desc, n) }) := by
  unfold descBytes descRead at *
  simp only [serve, own, clean, good, Option.isSome_none, Bool.false_eq_true, if_false, Bool.not_true, h]

variable (none_ : lowestReturn (descRead q s) q.desc = none)
include none_

theorem serve_next (h : gridNext (descBytes q s) < gridLimit (descBytes q s)) :
    serve i q s = some (gridAnswer (descBytes q s) (gridNext (descBytes q s)), some (gridNext (descBytes q s)),
      putMem (engineUnit (descRead q s) q.cap q.core) q.desc (leBytes 4 (gridNext (descBytes q s) + 1)) (descRead q s)) := by
  unfold descBytes descRead at *
  simp only [serve, own, clean, good, Option.isSome_none, Bool.false_eq_true, if_false, Bool.not_true, none_, h, if_true]

theorem serve_end (h : gridLimit (descBytes q s) ≤ gridNext (descBytes q s)) :
    serve i q s = if outstanding (descRead q s) q.desc then none else some (endToken, none, descRead q s) := by
  unfold descBytes descRead at *
  simp only [serve, own, clean, good, Option.isSome_none, Bool.false_eq_true, if_false, Bool.not_true, none_, Nat.not_lt.2 h]

end

theorem Found.queries {s t : State} (h : Found s t) : t.queries = s.queries := by
  unfold Found at h
  rw [← h]

theorem putMem_queries (h : Hart) (pa : Nat) (bs : List Byte) (s : State) : (putMem h pa bs s).queries = s.queries := by
  have dirty : (markDirty h pa bs.length s).queries = s.queries := by
    unfold markDirty
    split
    · rfl
    · dsimp only
      refine foldl_keeps (P := fun t : State => t.queries = s.queries) ?_ _ rfl
      exact fun t l ht => ht
  unfold putMem
  split
  · rfl
  · exact dirty

/-- To serve a query does not change the queries. -/
theorem serve_queries {i : Nat} {q : Query} {s t : State} {a : Word} {item : Option Nat} (h : serve i q s = some (a, item, t)) : t.queries = s.queries := by
  have read : (descRead q s).queries = s.queries := (Found.readLines s _ _ _).queries
  unfold serve at h
  dsimp only at h
  split at h
  · cases h; exact read
  split at h
  · cases h; exact read
  split at h
  · cases h; exact read
  split at h
  · cases h; exact read
  split at h
  · cases h
    exact (putMem_queries ..).trans read
  split at h
  · cases h
  · cases h; exact read

/-! The queries of a descriptor in their order (R241, R259). -/

section
variable {desc i : Nat} {q : Query} {s : State}

theorem answerWaiting_none (n : Nat) (h : firstWaiting s desc = none) : answerWaiting desc n s = s := by
  cases n with
  | zero => rfl
  | succ n => simp only [answerWaiting, h]

variable (first : firstWaiting s desc = some (i, q))
include first

theorem answerDesc_asleep (asleep : Retained s (homeUnits s desc 32)) : answerDesc desc s = startExit (homeUnits s desc 32) s := by
  refine (if_neg (by rw [first]; exact Bool.false_ne_true)).trans (if_pos (asleep_of asleep))

variable (room : s.queries ≠ []) (awake : ¬Retained s (homeUnits s desc 32))
include room awake

theorem answerDesc_awake : answerDesc desc s = answerWaiting desc (s.queries.length - 1 + 1) (noteUse (homeUnits s desc 32) s) := by
  have length : s.queries.length - 1 + 1 = s.queries.length := Nat.sub_add_cancel (List.length_pos_iff.2 room)
  rw [length]
  exact (if_neg (by rw [first]; exact Bool.false_ne_true)).trans (if_neg (awake_of awake))

theorem answerDesc_stuck (none_ : serve i q (noteUse (homeUnits s desc 32) s) = none) : answerDesc desc s = noteUse (homeUnits s desc 32) s := by
  have again : firstWaiting (noteUse (homeUnits s desc 32) s) desc = some (i, q) := first
  rw [answerDesc_awake first room awake, answerWaiting]
  simp only [again, none_]

/-- The queries after the first was served. -/
def answered (i : Nat) (q : Query) (a : Word) (item : Option Nat) (t : State) : State :=
  { t with queries := t.queries.set i { q with answer := some a, item := item } }

theorem answerDesc_serves {a : Word} {item : Option Nat} {t : State} (served : serve i q (noteUse (homeUnits s desc 32) s) = some (a, item, t))
    (last : firstWaiting (answered i q a item t) desc = none) : answerDesc desc s = answered i q a item t := by
  have again : firstWaiting (noteUse (homeUnits s desc 32) s) desc = some (i, q) := first
  rw [answerDesc_awake first room awake, answerWaiting]
  simp only [again, served]
  exact answerWaiting_none _ last

end

/-! CUMIN_QUERY (R92, R94, R241). -/

section
variable {i : Nat} {s : State}

theorem cumin_absent (h : s.queries[i]? = none) : cuminQuery i s = s ∧ landAnswer i s = s := by
  refine ⟨?_, ?_⟩
  · simp only [cuminQuery, h]
  · simp only [landAnswer, h]

variable {q : Query} (at_ : s.queries[i]? = some q)
include at_

theorem cuminQuery_answered (h : q.answer.isSome = true) : cuminQuery i s = s := by
  simp only [cuminQuery, at_, h, if_true]

variable (open_ : q.answer = none)
include open_

theorem cuminQuery_again (there : q.arrived.isSome = true) : cuminQuery i s = answerDesc q.desc s := by
  simp only [cuminQuery, at_, open_, there, Option.isSome_none, Bool.false_eq_true, if_false, if_true]

variable (away : q.arrived = none)
include away

theorem cuminQuery_behind (h : ∃ x ∈ s.queries.take i, x.core = q.core ∧ x.desc = q.desc ∧ x.arrived = none) : cuminQuery i s = s := by
  obtain ⟨x, before, core, desc, slow⟩ := h
  have behind : ((s.queries.take i).any fun x => x.core == q.core && x.desc == q.desc && x.arrived.isNone) = true :=
    List.any_eq_true.2 ⟨x, before, by simp [core, desc, slow]⟩
  simp only [cuminQuery, at_, open_, away, Option.isSome_none, Bool.false_eq_true, if_false, behind, if_true]

/-- The place of a query that reaches the home slice now, and the queries with it. -/
def place (s : State) : Nat := s.queries.foldl (fun m x => Nat.max m (x.arrived.getD 0)) 0 + 1
def reached_ (i : Nat) (q : Query) (s : State) : State := { s with queries := s.queries.set i { q with arrived := some (place s) } }

theorem cuminQuery_arrives (h : ∀ x ∈ s.queries.take i, x.core = q.core → x.desc = q.desc → x.arrived.isSome = true) :
    cuminQuery i s = answerDesc q.desc (reached_ i q s) := by
  have ahead : ((s.queries.take i).any fun x => x.core == q.core && x.desc == q.desc && x.arrived.isNone) = false := by
    refine List.any_eq_false.2 fun x before slow => ?_
    simp only [Bool.and_eq_true, beq_iff_eq, Option.isNone_iff_eq_none] at slow
    obtain ⟨⟨core, desc⟩, slow⟩ := slow
    have := h x before core desc
    rw [slow] at this
    exact Bool.false_ne_true this
  have unanswered : q.answer.isSome = false := by rw [open_]; rfl
  have flying : q.arrived.isSome = false := by rw [away]; rfl
  simp only [cuminQuery, at_, unanswered, flying, Bool.false_eq_true, if_false, ahead]
  rfl

end

theorem place_above (s : State) : ∀ x ∈ s.queries, x.arrived.getD 0 < place s := by
  have le (l : List Query) (m : Nat) : m ≤ l.foldl (fun m x => Nat.max m (x.arrived.getD 0)) m ∧
      ∀ x ∈ l, x.arrived.getD 0 ≤ l.foldl (fun m x => Nat.max m (x.arrived.getD 0)) m := by
    induction l generalizing m with
    | nil => exact ⟨le_rfl, nofun⟩
    | cons y l ih =>
      obtain ⟨low, all⟩ := ih (Nat.max m (y.arrived.getD 0))
      refine ⟨(Nat.le_max_left ..).trans low, fun x hx => ?_⟩
      obtain rfl | hx := List.mem_cons.1 hx
      · exact (Nat.le_max_right ..).trans low
      · exact all x hx
  exact fun x hx => Nat.lt_succ_of_le ((le s.queries 0).2 x hx)

section
variable {i : Nat} {s : State} {q : Query} (at_ : s.queries[i]? = some q) (open_ : q.answer = none) (only : OnlyWaiting s i q)
include at_

theorem set_queries_same (x : Query) : (s.queries.set i x)[i]? = some x := by
  obtain ⟨room, _⟩ := List.getElem?_eq_some_iff.1 at_
  rw [List.getElem?_set_self room]

include open_ only

theorem reached_first : firstWaiting (reached_ i q s) q.desc = some (i, { q with arrived := some (place s) }) := by
  refine firstWaiting_first (set_queries_same at_ _) ⟨rfl, open_, rfl⟩ fun j x hx other w => ?_
  obtain ⟨desc, unanswered, there⟩ := w
  rw [show (reached_ i q s).queries = s.queries.set i _ from rfl, List.getElem?_set_ne (Ne.symm other)] at hx
  obtain answered | away := only j x hx other desc
  · rw [unanswered] at answered
    exact absurd answered Bool.false_ne_true
  · rw [away] at there
    exact absurd there Bool.false_ne_true

omit open_ in
theorem reached_last {a : Word} {item : Option Nat} {t : State} (same : t.queries = (reached_ i q s).queries) :
    firstWaiting (answered i { q with arrived := some (place s) } a item t) q.desc = none := by
  refine firstWaiting_none fun j x hx w => ?_
  obtain ⟨desc, unanswered, there⟩ := w
  have hx : (t.queries.set i { q with arrived := some (place s), answer := some a, item := item })[j]? = some x := hx
  rw [same, show (reached_ i q s).queries = s.queries.set i _ from rfl, List.set_set] at hx
  by_cases here : j = i
  · subst here
    rw [set_queries_same at_] at hx
    rw [← Option.some.inj hx] at unanswered
    exact nomatch unanswered
  · rw [List.getElem?_set_ne (Ne.symm here)] at hx
    obtain answered | away := only j x hx here desc
    · rw [unanswered] at answered
      exact absurd answered Bool.false_ne_true
    · rw [away] at there
      exact absurd there Bool.false_ne_true

end

/-! WQRY_ANSWER (R93, R94, R242). -/

section
variable {i : Nat} {s : State} {q : Query} (at_ : s.queries[i]? = some q)
include at_

theorem landAnswer_waits (h : q.answer = none ∨ q.landed = true) : landAnswer i s = s := by
  cases open_ : q.answer with
  | none => simp only [landAnswer, at_, open_]
  | some a =>
    have landed : q.landed = true := h.resolve_left (by rw [open_]; nofun)
    simp only [landAnswer, at_, open_, landed, if_true]

variable {a : Word} (given : q.answer = some a) (flies : q.landed = false)
include given flies

/-- An answer at its core: its word, the poison that the write of the word meets, the item that returns, and the queries. -/
def inWord (i : Nat) (q : Query) (a : Word) (s : State) : State := s.modCore q.core fun k =>
  { k with empty := if q.fate = 2 ∧ renamed s i q = true then k.empty else k.empty.filter (· != q.word),
           pad := if q.fate = 2 then k.pad else k.pad.writeLE (8 * q.word) 8 a.toNat }
def wordSettled (q : Query) (t : State) : State := if q.fate = 2 then t else settlePad (partOf t q.cap) q.core [(8 * q.word, 8)] t
def itemBack (q : Query) (t : State) : State :=
  if q.fate = 2 ∧ q.item.isSome = true then { t with returns := (q.desc, q.item.getD 0) :: t.returns } else t
def queryLanded (i : Nat) (q : Query) (t : State) : State :=
  { t with queries := if q.fate = 0 then t.queries.set i { q with landed := true } else t.queries.eraseIdx i }
def answerLanded (i : Nat) (q : Query) (a : Word) (s : State) : State := queryLanded i q (itemBack q (wordSettled q (inWord i q a s)))

theorem landAnswer_eq : landAnswer i s = releaseCore q.core (if q.fate = 2 ∧ q.item.isSome = true then answerDesc q.desc (answerLanded i q a s)
    else answerLanded i q a s) := by
  cases q
  subst given flies
  unfold landAnswer
  rw [at_]
  rfl

/-- The core with the answer in its word. -/
def filled (q : Query) (a : Word) (s : State) : State :=
  settlePad (partOf s q.cap) q.core [(8 * q.word, 8)] (s.modCore q.core fun k =>
    { k with empty := k.empty.filter (· != q.word), pad := k.pad.writeLE (8 * q.word) 8 a.toNat })

theorem landAnswer_fills (fate : q.fate = 0 ∨ q.fate = 1) : landAnswer i s = releaseCore q.core { filled q a s with
    queries := if q.fate = 0 then s.queries.set i { q with landed := true } else s.queries.eraseIdx i } := by
  have kept : q.fate ≠ 2 := by omega
  have word : inWord i q a s = s.modCore q.core fun k =>
      { k with empty := k.empty.filter (· != q.word), pad := k.pad.writeLE (8 * q.word) 8 a.toNat } := by
    simp only [inWord, kept, false_and, if_false]
  have settled : itemBack q (wordSettled q (inWord i q a s)) = filled q a s := by
    rw [itemBack, if_neg fun ⟨gone, _⟩ => kept gone, wordSettled, if_neg kept, word]
    rfl
  have queries : (filled q a s).queries = s.queries := (settlePad_found _ _ _ _).queries
  rw [landAnswer_eq at_ given flies, if_neg fun ⟨gone, _⟩ => kept gone, answerLanded, settled, queryLanded, queries]

theorem landAnswer_returns {n : Nat} (gone : q.fate = 2) (item : q.item = some n) :
    ∃ t, landAnswer i s = releaseCore q.core (answerDesc q.desc t) ∧ t.returns = (q.desc, n) :: s.returns ∧ t.queries = s.queries.eraseIdx i ∧
      (t.core q.core).pad = (s.core q.core).pad ∧ t.mem = s.mem ∧
      (t.core q.core).empty = if renamed s i q then (s.core q.core).empty else (s.core q.core).empty.filter (· != q.word) := by
  have back : q.fate = 2 ∧ q.item.isSome = true := ⟨gone, by rw [item]; rfl⟩
  have word : inWord i q a s = s.modCore q.core fun k =>
      { k with empty := if renamed s i q = true then k.empty else k.empty.filter (· != q.word) } := by
    simp only [inWord, gone, true_and, if_true]
  have landed : answerLanded i q a s = { s.modCore q.core fun k =>
      { k with empty := if renamed s i q = true then k.empty else k.empty.filter (· != q.word) } with
        returns := (q.desc, n) :: s.returns, queries := s.queries.eraseIdx i } := by
    rw [answerLanded, itemBack, if_pos back, wordSettled, if_pos gone, word, queryLanded, if_neg (by omega), item]
    rfl
  have core := State.core_modCore_same s q.core (fun k => { k with empty := if renamed s i q = true then k.empty else k.empty.filter (· != q.word) })
    (State.core_id s q.core)
  refine ⟨answerLanded i q a s, (landAnswer_eq at_ given flies).trans (by rw [if_pos back]), ?_⟩
  rw [landed]
  refine ⟨rfl, rfl, ?_, rfl, ?_⟩
  · exact (congrArg Core.pad core :)
  · exact (congrArg Core.empty core :)

end

/-! Items and descriptors (R92). -/

theorem gridAnswer_eq (g : Memory) (k : Nat) :
    let order := g.readLE 0x0C 1
    let u := if order = 2 then g.readLE 4 4 - 1 - k else k
    let x := if order = 1 then u / g.readLE 0x0A 2 else u % g.readLE 8 2
    let y := if order = 1 then u % g.readLE 0x0A 2 else u / g.readLE 8 2
    gridAnswer g k = word (k % 2 ^ 32 * 2 ^ 32 + y % 2 ^ 16 * 2 ^ 16 + x % 2 ^ 16) := by
  dsimp only
  unfold gridAnswer gridOrder gridLimit gridX gridY
  by_cases rows : g.readLE 0x0C 1 = 1
  · simp only [rows, if_true]
    rfl
  · simp only [rows, if_false]
    rfl

theorem gridOk_iff (g : Memory) :
    gridOk g = true ↔ g.readLE 0x0C 1 ≤ 2 ∧ (∀ a, 0x0D ≤ a → a < 0x20 → g.read a = 0) ∧ g.readLE 8 2 ≠ 0 ∧ g.readLE 0x0A 2 ≠ 0 ∧
      g.readLE 4 4 ≤ g.readLE 8 2 * g.readLE 0x0A 2 := by
  have zeros : (g.readBytes 13 19).all (· == 0) = true ↔ ∀ a, 0x0D ≤ a → a < 0x20 → g.read a = 0 := by
    simp only [Memory.readBytes, List.all_map, List.all_eq_true, List.mem_range, Function.comp, beq_iff_eq]
    refine ⟨fun h a low high => ?_, fun h i hi => h _ (by omega) (by omega)⟩
    have := h (a - 13) (by omega)
    rwa [show 13 + (a - 13) = a by omega] at this
  have limit : decide (gridLimit g ≤ gridX g * gridY g) = true ↔ g.readLE 4 4 ≤ g.readLE 8 2 * g.readLE 0x0A 2 := decide_eq_true_iff
  rw [gridOk, Bool.and_eq_true, limit]
  simp only [gridOrder, gridX, gridY, Bool.and_eq_true, decide_eq_true_eq, zeros, bne_iff_ne, and_assoc, Nat.lt_succ_iff]

end Sys2Proof.Proofs
end

