-- ==== Sys2Proof/Proofs/Cores.lean ====
section
/-! PROOFS. Cores and their contexts: clearing, retests, migration, parity errors, waits and safe points, producers, the self-test summary (O49). -/

namespace Sys2Proof.Proofs

open Sys2Proof Sys2Proof.Machine Sys2Proof.Claims

/-! The clearing of a core (R20) and its retest (R49, R295). -/

/-- A core after its clearing, in a cluster with this repair table. -/
def cleared (table : Vector (BitVec 32) 16) (k : Core) : Core :=
  { k with pad := [], empty := [], ports := Vector.replicate 4 [], rows := clearRows table k.rows, cap := none, clearing := false }

/-- The state after the clearing of a core, before the wake of its partition's queues. -/
def clearedState (core : Nat) (s : State) : State :=
  { s with padPoison := s.padPoison.filter fun p => p.1 != core, sram := s.sram.filter fun f => !f.place.onPad core fun _ => true }.modCore core
    (cleared (s.cluster (clusterNo core)).repair)

theorem finishClear_eq (core : Nat) (s : State) : finishClear core s = admitWaiting core (finishRetest core
    (if (s.core core).clearing = true ∧ (s.core core).held.isEmpty = true then wakeFootprint (clusterNo core) (clearedState core s) else s)) := rfl

theorem finishClear_idle {core : Nat} {s : State} (h : (s.core core).clearing = false ∨ (s.core core).held ≠ []) :
    finishClear core s = admitWaiting core (finishRetest core s) := by
  have waits : ¬((s.core core).clearing = true ∧ (s.core core).held.isEmpty = true) := by
    rintro ⟨clearing, held⟩
    exact h.elim (by rw [clearing]; nofun) fun k => k (List.isEmpty_iff.mp held)
  rw [finishClear_eq, if_neg waits]

theorem finishClear_clears {core : Nat} {s : State} (clearing : (s.core core).clearing = true) (held : (s.core core).held = []) :
    finishClear core s = admitWaiting core (finishRetest core (wakeFootprint (clusterNo core) (clearedState core s))) := by
  have done : (s.core core).clearing = true ∧ (s.core core).held.isEmpty = true := ⟨clearing, List.isEmpty_iff.mpr held⟩
  rw [finishClear_eq, if_pos done]

theorem wakeFootprint_frame (cl : Nat) (s : State) : (wakeFootprint cl s).cores = s.cores ∧ (wakeFootprint cl s).padPoison = s.padPoison ∧
    (wakeFootprint cl s).mem = s.mem ∧ (wakeFootprint cl s).hart = s.hart := by
  unfold wakeFootprint
  cases s.clusterPart cl <;> exact ⟨rfl, rfl, rfl, rfl⟩

theorem core_of_cores {s t : State} (h : t.cores = s.cores) (n : Nat) : t.core n = s.core n := by rw [State.core, h]; rfl

theorem clearedState_core (core : Nat) (s : State) :
    (clearedState core s).core core = cleared (s.cluster (clusterNo core)).repair (s.core core) :=
  State.core_modCore_same _ _ _ (State.core_id s core)

theorem finishRetest_idle {core : Nat} {s : State} (h : (s.core core).retest = false ∨ coreBusy s core = true) : finishRetest core s = s := if_pos h

/-- The march over the banks of a core. -/
def march (core : Nat) (s : State) : March :=
  let c := s.cluster (clusterNo core)
  marchCore (core % 32) (injectedRow c (core % 32) ++ Config.failingRows s.fresh) ((c.badSpares.filter fun x => x.1 == core % 32).map Prod.snd) c.repair

/-- The rows of tested banks, as their numbers name them. -/
def marched (w : March) (key : Nat) : Bool :=
  w.banks.contains (key / 2 ^ 19, key / 1024 % 16) && (key / 512 % 2 == 0 || w.tested.contains (key / 2 ^ 19, key / 1024 % 16, key % 512))
def marchedWord (w : March) (x : Nat) : Bool := w.banks.contains (0, (Config.padRow (Fin.ofNat 8192 x)).val / 512)

/-- The state after the march, with its repair table and the spares that it lost. -/
def spared (core : Nat) (s : State) : State :=
  (march core s).failed.foldl (fun t x => loseSpare core x t) ((zeroTested core (march core s) { s with fresh := s.fresh + 1 }).modCluster (clusterNo core)
    fun c => { c with repair := (march core s).table })

/-- The core after its retest. -/
def retested (core : Nat) (s : State) : State :=
  (spared core s).modCore core fun k => { k with retest := false, removed := k.removed || !(march core s).passes }

theorem finishRetest_marches {core : Nat} {s : State} (due : (s.core core).retest = true) (idle : coreBusy s core = false)
    (bound : (s.core core).boundRec = []) :
    finishRetest core s = if (march core s).passes then retested core s else logFence core (retested core s) := by
  have go : ¬((s.core core).retest = false ∨ coreBusy s core = true) := by rw [due, idle]; nofun
  unfold finishRetest
  rw [if_neg go]
  dsimp only
  rw [bound]
  rfl

theorem losses_cores (core : Nat) (l : List (Nat × Nat × Nat)) (s : State) : (l.foldl (fun t x => loseSpare core x t) s).cores = s.cores := by
  induction l generalizing s with
  | nil => rfl
  | cons x xs ih => exact (ih _).trans rfl

theorem loseSpare_cluster (core : Nat) (x : Nat × Nat × Nat) (s : State) : (loseSpare core x s).cluster (clusterNo core) =
    { s.cluster (clusterNo core) with badSpares := (core % 32, x) :: (s.cluster (clusterNo core)).badSpares } :=
  State.cluster_modCluster_same _ _ _ (State.cluster_no s _)

theorem losses_repair (core : Nat) (l : List (Nat × Nat × Nat)) (s : State) :
    ((l.foldl (fun t x => loseSpare core x t) s).cluster (clusterNo core)).repair = (s.cluster (clusterNo core)).repair := by
  induction l generalizing s with
  | nil => rfl
  | cons x xs ih => exact (ih _).trans (by rw [loseSpare_cluster])

theorem losses_badSpares (core : Nat) (l : List (Nat × Nat × Nat)) (s : State) (y : Nat × Nat × Nat × Nat)
    (h : y ∈ (s.cluster (clusterNo core)).badSpares ∨ y ∈ l.map (core % 32, ·)) :
    y ∈ ((l.foldl (fun t x => loseSpare core x t) s).cluster (clusterNo core)).badSpares := by
  induction l generalizing s with
  | nil => exact h.resolve_right nofun
  | cons x xs ih =>
    refine ih _ ?_
    rw [loseSpare_cluster]
    rw [List.map_cons, List.mem_cons] at h
    obtain old | rfl | later := h
    · exact .inl (List.mem_cons_of_mem _ old)
    · exact .inl List.mem_cons_self
    · exact .inr later

theorem zeroTested_core (core : Nat) (w : March) (s : State) : (zeroTested core w s).core core = { s.core core with
    pad := (s.core core).pad.filter fun c => !marchedWord w (c.1 / 8), rows := (s.core core).rows.filter fun c => !marched w (c.1 / 8) } :=
  State.core_modCore_same _ core (fun k => { k with
    pad := k.pad.filter fun c => !marchedWord w (c.1 / 8), rows := k.rows.filter fun c => !marched w (c.1 / 8) }) (State.core_id s core)

theorem spared_core (core : Nat) (s : State) : (spared core s).core core = { s.core core with
    pad := (s.core core).pad.filter fun c => !marchedWord (march core s) (c.1 / 8),
    rows := (s.core core).rows.filter fun c => !marched (march core s) (c.1 / 8) } :=
  (core_of_cores (losses_cores core _ _) core).trans (zeroTested_core core (march core s) { s with fresh := s.fresh + 1 })

theorem retested_core (core : Nat) (s : State) : (retested core s).core core =
    { (spared core s).core core with retest := false, removed := ((spared core s).core core).removed || !(march core s).passes } :=
  State.core_modCore_same _ _ _ (State.core_id _ core)

theorem retested_repair (core : Nat) (s : State) : ((retested core s).cluster (clusterNo core)).repair = (march core s).table := by
  refine (losses_repair core _ _).trans ?_
  rw [State.cluster_modCluster_same _ _ _ (State.cluster_no _ _)]

theorem retested_badSpares {core : Nat} {s : State} {x : Nat × Nat × Nat} (h : x ∈ (march core s).failed) :
    (core % 32, x) ∈ ((retested core s).cluster (clusterNo core)).badSpares :=
  losses_badSpares core _ _ _ (.inr (List.mem_map_of_mem h))

theorem logFence_core (core n : Nat) (t : State) : (logFence core t).core n = t.core n := rfl
theorem logFence_cluster (core n : Nat) (t : State) : (logFence core t).cluster n = t.cluster n := rfl

section
variable {core : Nat} {s : State} (due : (s.core core).retest = true) (idle : coreBusy s core = false) (bound : (s.core core).boundRec = [])
include due idle bound

theorem finishRetest_core : (finishRetest core s).core core = { s.core core with
    pad := (s.core core).pad.filter fun c => !marchedWord (march core s) (c.1 / 8),
    rows := (s.core core).rows.filter fun c => !marched (march core s) (c.1 / 8),
    retest := false, removed := (s.core core).removed || !(march core s).passes } := by
  have last : (finishRetest core s).core core = (retested core s).core core := by
    rw [finishRetest_marches due idle bound]
    cases (march core s).passes
    · exact logFence_core core core (retested core s)
    · rfl
  rw [last, retested_core, spared_core]

theorem finishRetest_cluster : (finishRetest core s).cluster (clusterNo core) = (retested core s).cluster (clusterNo core) := by
  rw [finishRetest_marches due idle bound]
  cases (march core s).passes
  · exact logFence_cluster core _ (retested core s)
  · rfl

end

/-- What a march tests reads as zero. -/
theorem read_tested {m : Memory} {q : Nat → Bool} {k b : Nat} (low : b < 8) (tested : q k = true) :
    Memory.read (m.filter fun c => !q (c.1 / 8)) (8 * k + b) = 0 := by
  have := read_filter m (fun a => !q (a / 8)) (8 * k + b)
  rw [this, show (8 * k + b) / 8 = k by omega, tested]
  rfl

theorem marched_row {w : March} {arr core bank row : Nat} (h : (arr, bank) ∈ w.banks) (small : bank < 16) (fits : row < 512) :
    marched w (rowKey arr (core % 32) bank 0 row) = true := by
  have array : rowKey arr (core % 32) bank 0 row / 2 ^ 19 = arr := by unfold rowKey; omega
  have at_ : rowKey arr (core % 32) bank 0 row / 1024 % 16 = bank := by unfold rowKey; omega
  have regular : rowKey arr (core % 32) bank 0 row / 512 % 2 = 0 := by unfold rowKey; omega
  rw [marched, array, at_, regular, List.contains_iff_mem.mpr h]
  rfl

theorem marched_spare {w : March} {arr core bank n : Nat} (h : (arr, bank, n) ∈ w.tested) (inside : (arr, bank) ∈ w.banks) (small : bank < 16)
    (fits : n < 512) : marched w (rowKey arr (core % 32) bank 1 n) = true := by
  have array : rowKey arr (core % 32) bank 1 n / 2 ^ 19 = arr := by unfold rowKey; omega
  have at_ : rowKey arr (core % 32) bank 1 n / 1024 % 16 = bank := by unfold rowKey; omega
  have number : rowKey arr (core % 32) bank 1 n % 512 = n := by unfold rowKey; omega
  rw [marched, array, at_, number, List.contains_iff_mem.mpr inside, List.contains_iff_mem.mpr h, Bool.or_true]
  rfl

/-! Migration and parity errors (R44, R49). -/

section
variable {s : State}

theorem leaveRows_frame (t : State) : (leaveRows t).hart = t.hart ∧ (leaveRows t).clock = t.clock := by
  by_cases service : t.hart.core % 32 = 31
  · rw [show leaveRows t = t from if_pos service]
    exact ⟨rfl, rfl⟩
  · unfold leaveRows
    dsimp only
    rw [if_neg service]
    exact ⟨rfl, rfl⟩

theorem arriveService_full {b : Option Word} (moves : s.hart.run = .migrating b) (full : 4 ≤ (residents s (serviceCore s.here)).length) :
    migrationArrival s = s.mod fun h => { h with run := .blocked (.place b), waitFrom := s.clock } := by
  unfold migrationArrival
  rw [moves]
  dsimp only
  unfold arriveService
  rw [if_pos full, moves]

section
variable (moves : s.hart.run = .migrating none) (room : (residents s (serviceCore s.here)).length < 4)
include moves room

theorem migrationArrival_fault {code : Code} {d : Option Word} {t : State} (h : meetGroup (allTiles s.hart) s = .error (.fault code d t)) :
    migrationArrival s = raise {} code d t := by
  unfold migrationArrival
  rw [moves]
  dsimp only
  unfold arriveService
  unfold allTiles at h
  rw [if_neg (by omega), h]

theorem migrationArrival_enters {t : State} (h : meetGroup (allTiles s.hart) s = .ok t) :
    migrationArrival s = admitWaiting s.hart.core (releaseCore s.hart.core ((leaveRows t).mod fun h =>
      { h with core := serviceCore s.here, phys := [], migrated := true, waitFrom := t.clock, run := .ready })) := by
  unfold migrationArrival
  rw [moves]
  dsimp only
  unfold arriveService
  unfold allTiles at h
  rw [if_neg (by omega), h]
  dsimp only
  rw [(leaveRows_frame t).2]

end

theorem coreParity_other (h : s.hart.kind ≠ .task ∨ s.hart.run = .ended) : coreParity s = s := if_pos h

section
variable (task : s.hart.kind = .task) (runs : s.hart.run ≠ .ended) (single : s.hart.partner = none)
include task runs single

theorem coreParity_squash (past : overtaken s.hart = true) (shared : s.hart.chunk.exclusive = false) : coreParity s = squash s := by
  have go : ¬(s.hart.kind ≠ .task ∨ s.hart.run = .ended) := not_or.mpr ⟨not_not.mpr task, runs⟩
  have lost : overtaken s.hart = true ∧ ¬s.hart.chunk.exclusive = true := ⟨past, by rw [shared]; nofun⟩
  unfold coreParity
  rw [if_neg go, if_pos lost, onPair, single]

theorem coreParity_rolls (passes : overtaken s.hart = true → s.hart.chunk.exclusive = true) : coreParity s =
    let t := rollback {} .coreParity s.free.1 (drain { s with fresh := s.fresh + 1 })
    if t.hart.run = .ended then t else leaveCore t := by
  have go : ¬(s.hart.kind ≠ .task ∨ s.hart.run = .ended) := not_or.mpr ⟨not_not.mpr task, runs⟩
  have kept : ¬(overtaken s.hart = true ∧ ¬s.hart.chunk.exclusive = true) := fun ⟨past, alone⟩ => alone (passes past)
  have alone : ¬s.free.2.hart.partner.isSome = true := by rw [show s.free.2.hart = s.hart from rfl, single]; nofun
  unfold coreParity
  rw [if_neg go, if_neg kept]
  dsimp only
  rw [if_neg alone]
  rfl

end

/-- A context that leaves its core for the service core, with its core up for a retest. -/
def leavesCore (s : State) : State :=
  ((leaveRows s).mod fun h =>
    { h with core := serviceCore s.here, phys := [], migrated := false, run := .requeued (some s.hart.core), waitFrom := s.clock }).modCore
    s.hart.core fun k => { k with retest := true }

theorem leaveCore_eq (tile : s.hart.core % 32 ≠ 31) : leaveCore s = releaseCore s.hart.core (leavesCore s) := by
  unfold leaveCore
  dsimp only
  rw [if_neg tile]
  rfl

theorem leavesCore_retest : ((leavesCore s).core s.hart.core).retest = true := by
  rw [leavesCore, State.core_modCore_same _ _ _ (State.core_id _ _)]

theorem leavesCore_hart : (leavesCore s).hart =
    { s.hart with core := serviceCore s.here, phys := [], migrated := false, run := .requeued (some s.hart.core), waitFrom := s.clock } := by
  have moved : (leavesCore s).hart = { (leaveRows s).hart with
      core := serviceCore s.here, phys := [], migrated := false, run := .requeued (some s.hart.core), waitFrom := s.clock } := rfl
  rw [moved, (leaveRows_frame s).1]

theorem capsule_id {c : Capsule} (mine : s.capsule = some c) : c.id = s.hart.cap := by
  unfold State.capsule at mine
  split at mine
  · exact eq_of_beq (List.find?_some (p := fun x : Capsule => x.id == s.hart.cap) mine)
  · exact nomatch mine

theorem arriveTile_arrives (k : Option Nat) (queued : s.hart.run = .requeued k) : arriveTile s = s ∨
    ∃ j p, (arriveTile s).hart = { s.hart with core := j, phys := p, migrated := false, run := .clearing } ∧ k ≠ some j ∧
      canStartOn s s.hart.cap j s.hart.ntiles = true := by
  unfold arriveTile
  dsimp only
  cases mine : s.capsule with
  | none => exact .inl rfl
  | some c =>
    have id := capsule_id mine
    dsimp only
    generalize cores : (List.map (coreIn s.here) (List.range 31)).find? _ = found
    cases found with
    | none => exact .inl rfl
    | some j =>
      have fits := List.find?_some cores
      simp only [Bool.and_eq_true, bne_iff_ne, queued, id] at fits
      obtain ⟨⟨⟨⟨-, elsewhere⟩, -⟩, -⟩, starts⟩ := fits
      exact .inr ⟨j, _, rfl, fun same => elsewhere (by rw [same]), starts⟩

theorem parityTimeout_ends {k : Nat} (queued : s.hart.run = .requeued (some k)) (late : 1000000 ≤ s.clock - s.hart.waitFrom) :
    parityTimeout s = capsuleFault {} .coreParity s.free.1 { s with fresh := s.fresh + 1 } := by
  have due : parityQueued s.hart.run = true ∧ 1000000 ≤ s.clock - s.hart.waitFrom := ⟨by rw [queued]; rfl, late⟩
  unfold parityTimeout
  rw [if_pos due]
  rfl

theorem parityTimeout_waits (h : (∀ k, s.hart.run ≠ .requeued (some k)) ∨ s.clock - s.hart.waitFrom < 1000000) : parityTimeout s = s := by
  refine if_neg fun ⟨queued, late⟩ => ?_
  obtain other | early := h
  · unfold parityQueued at queued
    split at queued
    · next k at_ => exact other k at_
    · exact Bool.false_ne_true queued
  · omega

/-! Waits, and the safe points that they may become (R39, R40). -/

theorem waitSafePoint_eq {pc : Word} (at_ : waitPc s = some pc) : waitSafePoint s =
    if 2048 ≤ s.clock - Nat.max s.hart.waitFrom s.hart.preemptAt then trySafe 0xFFFF pc (waitOf s.hart.run) s else s := by
  unfold waitSafePoint
  rw [at_]
  rfl

theorem waitPc_blocked {x : Wait} (waits : s.hart.run = .blocked x) (safe : x.safe = true) :
    waitPc s = some (if x = .place none then addOff s.hart.r.pc (-4) else s.hart.r.pc) := by
  unfold waitPc
  rw [waits]
  by_cases place : x = .place none
  · rw [place, if_pos rfl]
  · rw [if_neg place]
    cases x <;> simp_all

theorem waitSafePoint_stays {x : Wait} (waits : s.hart.run = .blocked x) (here : x.safe = false) : waitSafePoint s = s := by
  have none_ : waitPc s = none := by
    unfold waitPc
    rw [waits]
    cases x <;> simp_all [Wait.safe]
  unfold waitSafePoint
  rw [none_]

section
variable {mask : BitVec 16} {pc : Word} {wait : Option Wait}

theorem trySafe_none (h : safeRoom mask pc s = none) : trySafe mask pc wait s = s := by
  unfold trySafe
  rw [h]

theorem safeRoom_idle (h : preemptPending s = false ∨ s.hart.exempt = true) : safeRoom mask pc s = none := by
  refine if_pos ?_
  obtain idle | exempt := h
  · rw [idle]; rfl
  · rw [exempt, Bool.or_true]

theorem safeRoom_noExtent (h : roomFor s s.hart.r (liveMask s.hart mask) pc = none) : safeRoom mask pc s = none := by
  unfold safeRoom
  rw [h, ite_self]

theorem trySafe_commits (h : safeRoom mask pc s = some true) : trySafe mask pc wait s = s.mod fun h =>
    { h with run := .committing (.safe mask pc wait), waitFrom := if wait.isSome then h.waitFrom else s.clock } := by
  unfold trySafe
  rw [h]

theorem trySafe_full (h : safeRoom mask pc s = some false) : trySafe mask pc wait s = noRoom s := by
  unfold trySafe
  rw [h]

/-- The context that goes on where a safe point found no room. -/
def goesOn (wait : Option Wait) (pc : Word) (s : State) : State :=
  noRoom (s.mod fun h => { h with run := afterSafe wait, r := { h.r with pc := afterPc wait pc }, request := none })

theorem roomGone_goesOn (single : s.hart.partner = none) (full : roomFor s s.hart.r (liveMask s.hart mask) pc ≠ some true) :
    roomGone (.safe mask pc wait) s = some (goesOn wait pc s) := by
  unfold roomGone
  dsimp only
  rw [if_neg full, onPair, single]
  rfl

theorem afterSafe_other {x : Wait} (h : ∀ b, x ≠ .stage b) : afterSafe (some x) = .blocked x := by
  cases x
  case stage b => exact absurd rfl (h b)
  all_goals rfl

theorem afterPc_other {x : Wait} (h : x ≠ .place none) : afterPc (some x) pc = pc := by
  unfold afterPc
  split
  · next same => exact absurd (Option.some.inj same) h
  · rfl

end

/-! Tokens, distances and ways (R39, R203, R249). -/

/-- The release of a token: the task is no longer exclusive, and its next squash ends it. -/
def released (s : State) : State :=
  { s.mod fun h => { h with chunk := { h.chunk with exclusive := false, squashes := 3 } } with tokens := s.tokens.filter (· != tokenOf s.hart) }

theorem releaseToken_early (h : s.clock - s.hart.waitFrom ≤ 2048) : releaseToken s = s := if_neg fun ⟨_, _, late⟩ => by omega

theorem releaseToken_releases (single : s.hart.partner = none) (yields : yielding s = true) (held : s.tokens.contains (tokenOf s.hart) = true)
    (late : 2048 < s.clock - s.hart.waitFrom) : releaseToken s = released s := by
  unfold releaseToken
  rw [if_pos ⟨yields, held, late⟩, onPair, single]
  rfl

theorem yielding_blocked {x : Wait} (waits : s.hart.run = .blocked x) (yields : x.yields = true) : yielding s = true := by
  unfold yielding
  rw [waits]
  exact yields

theorem yielding_committing {k : CommitKind} (commits : s.hart.run = .committing k) (flies : outboxEmpty s s.hart.task = false) : yielding s = true := by
  unfold yielding
  rw [commits]
  dsimp only
  rw [flies]
  rfl

theorem safeDistance_near (h : s.hart.sdist < 4096) : safeDistance s = s := if_neg fun ⟨_, far, _⟩ => by omega

theorem safeDistance_undecoded {x : Nat} {t : State} (h : fetch (startIssue s) = .ok (x, none, t)) : safeDistance s = s := by
  unfold safeDistance
  rw [h]
  exact ite_self s

theorem safeDistance_eq {x : Nat} {j : Instr} {t : State} (task : s.hart.kind = .task) (far : 4096 ≤ s.hart.sdist) (ready : s.hart.run = .ready)
    (h : fetch (startIssue s) = .ok (x, some j, t)) : safeDistance s = if exceeds j t then raise { word := x } .safeDistance none t else s := by
  unfold safeDistance
  rw [if_pos ⟨task, far, ready⟩, h]

theorem specWayTimeout_waits (h : (∀ l, s.hart.run ≠ .blocked (.way l)) ∨ s.clock - s.hart.waitFrom < 256) : specWayTimeout s = s := by
  unfold specWayTimeout
  split
  · next l at_ => exact if_pos (h.resolve_left fun other => other l at_)
  · rfl

theorem specWayTimeout_ends {l : Nat} (waits : s.hart.run = .blocked (.way l)) (late : 256 ≤ s.clock - s.hart.waitFrom) : specWayTimeout s =
    if s.hart.chunk.exclusive then squashOthers s.hart.id (waySet s s.hart l) s else onPair squash s := by
  unfold specWayTimeout
  rw [waits]
  exact if_neg (by omega)

/-! Producers, times and the self-test summary. -/

theorem completeProducer_none (h : s.hart.inflight = []) : completeProducer s = s := by
  unfold completeProducer
  rw [h]

theorem completeProducer_delivers {p : Producer} {rest : List Producer} (h : s.hart.inflight = p :: rest) :
    completeProducer s = deliver p (s.mod fun h => { h with inflight := rest }) := by
  unfold completeProducer
  rw [h]

theorem reachTime_eq {t : Word} {b : Nat} (waits : s.hart.run = .blocked (.wait t b)) :
    reachTime s = if t.toNat ≤ s.now.toNat then s.mod fun h => { h with run := .ready } else s := by
  unfold reachTime
  rw [waits]
  simp only [BitVec.ule, decide_eq_true_eq]

theorem deliverSummary_again {cl : Nat} {v : Word} (known : (s.cluster cl).summarised = true) :
    deliverSummary cl v s = s.logPkg { code := Code.summaryRepeat.num, kind := 1, core := serviceCore cl, detail := v } := if_pos known

theorem deliverSummary_first {cl : Nat} {v : Word} (new : (s.cluster cl).summarised = false) (plain : (s.cluster cl).diagstat.getLsbD 1 = false)
    (alone : bitsOf v.toNat 31 24 ≠ 3) : deliverSummary cl v s =
      bootProgress (s.modCluster cl fun c => { c with summary := word (bitsOf v.toNat 31 8 * 256), summarised := true }) := by
  have injected : bitOf (s.cluster cl).diagstat.toNat 1 = false := (bitOf_toNat _ _).trans plain
  have kind : bitsOf (word (bitsOf v.toNat 31 8 * 256)).toNat 31 24 = bitsOf v.toNat 31 24 := by
    have : bitsOf v.toNat 31 8 < 2 ^ 24 := bitsOf_lt _ _ _
    rw [word, BitVec.toNat_ofNat, Nat.mod_eq_of_lt (by omega)]
    unfold bitsOf
    omega
  unfold deliverSummary
  dsimp only
  rw [if_neg (by rw [new]; nofun)]
  simp only [injected, Bool.false_eq_true, if_false, false_or, kind, if_neg alone]

end

end Sys2Proof.Proofs
end

