-- ==== Sys2Proof/Proofs/TaskEvents.lean ====
section
/-! PROOFS. The events of a task's life, put together (O49). -/

namespace Sys2Proof.Proofs

open Sys2Proof Sys2Proof.Machine Sys2Proof.Claims

section
variable {s : State}

theorem readBytes_all_zero {m : Memory} {a n : Nat} : (m.readBytes a n).all (· == 0) = true ↔ ∀ x, a ≤ x → x < a + n → m.read x = 0 := by
  simp only [Memory.readBytes, List.all_map, List.all_eq_true, List.mem_range, Function.comp, beq_iff_eq]
  refine ⟨fun h x low high => ?_, fun h i hi => h _ (by omega) (by omega)⟩
  have := h (x - a) (by omega)
  rwa [show a + (x - a) = x by omega] at this

/-- A record with another capsule's nonce, a reserved flag or a reserved byte does not load (R41). -/
theorem recordOk_refuses {c : Capsule} {m : Memory} (bad : m.readLE 0x20 8 ≠ c.nonce.toNat ∨ 8 ≤ m.readLE 7 1 ∨
    (∃ a, 0x28 ≤ a ∧ a < 0x40 ∧ m.read a ≠ 0) ∨ m.readLE 0x326 2 ≠ 0 ∨ (∃ a, 0x90 ≤ a ∧ a < 0x100 ∧ m.read a ≠ 0) ∨
    ∃ a, 0x32C ≤ a ∧ a < 0x400 ∧ m.read a ≠ 0) : recordOk c m = false := by
  refine Bool.eq_false_iff.mpr fun good => ?_
  simp only [recordOk, Bool.and_eq_true, beq_iff_eq, readBytes_all_zero] at good
  obtain ⟨⟨⟨⟨⟨⟨⟨⟨nonce, flags⟩, gap⟩, lease⟩, spare⟩, last⟩, -⟩, -⟩, -⟩ := good
  obtain other | flag | ⟨a, low, high, set⟩ | other | ⟨a, low, high, set⟩ | ⟨a, low, high, set⟩ := bad
  · exact other nonce
  · omega
  · exact set (gap a low high)
  · exact other spare
  · exact set (lease a low high)
  · exact set (last a low high)

/-- The messages of the networks: their delivery, placement and return (R86, R87, R91, R42). -/
theorem network_clauses {i core : Nat} {m : Msg} (at_ : s.net[i]? = some m) (gone : dead s m = true) :
    ∀ e ∈ [Instr.evMessageDelivery i core, .evDataMessageArrival i, .evPlacementWalk i, .evContinuationResume i core],
      Gives e s { s with net := s.net.eraseIdx i } := by
  obtain ⟨delivered, arrived, walked, resumed⟩ := network_dead (core := core) at_ gone
  simp only [List.forall_mem_cons]
  exact ⟨acts delivered, acts arrived, acts walked, acts resumed, List.forall_mem_nil _⟩

/-- A commit answers what its checks give. -/
theorem committed {k : CommitKind} {t : State} (asks : s.hart.run = .committing k) (alone : s.hart.partner = none) (eq : commitAlone k s = t) :
    Gives (.evChunkCommit s.hart.id) s (focus s.hart.id t) := by
  rw [← eq]
  exact evChunkCommit_alone asks alone

/-! The pairs and bursts that SAFE_DISTANCE stops (R39). -/

theorem exceeds_limm (hi : BitVec 26) (t : State) :
    exceeds (.limm hi) t = true ↔ ∃ w d u, limmPair hi t = .error (w, .fault .safeDistance d u) := by
  refine ⟨fun h => ?_, fun ⟨w, d, u, fault⟩ => by simp only [exceeds, fault]⟩
  unfold exceeds at h
  dsimp only at h
  split at h
  · next fault => exact ⟨_, _, _, fault⟩
  · exact nomatch h

theorem exceeds_repf (c : BitVec 4) (r : BitVec 8) (d a b : BitVec 4) (t : State) :
    exceeds (.repf c r d a b) t = true ↔ ∃ w x u, runRepf c r d a b t = .error (w, .fault .safeDistance x u) := by
  refine ⟨fun h => ?_, fun ⟨w, x, u, fault⟩ => by simp only [exceeds, fault]⟩
  unfold exceeds at h
  dsimp only at h
  split at h
  · next fault => exact ⟨_, _, _, fault⟩
  · exact nomatch h

theorem exceeds_other {j : Instr} (safe : ∀ m, j ≠ .safe m) (pair : ∀ hi, j ≠ .limm hi) (burst : ∀ c r d a b, j ≠ .repf c r d a b) (t : State) :
    exceeds j t = true := by
  unfold exceeds
  split
  · next m => exact absurd rfl (safe m)
  · next hi => exact absurd rfl (pair hi)
  · next c r d a b => exact absurd rfl (burst c r d a b)
  · rfl

/-- A query arrives at Cumin (R241). -/
theorem arrival_clauses {i : Nat} {q : Query} (at_ : s.queries[i]? = some q) (open_ : q.answer = none) (only : OnlyWaiting s i q) :
    let q' := { q with arrived := some (place s) }
    let u := reached_ i q s
    let units := homeUnits u q.desc 32
    (Retained u units → answerDesc q.desc u = startExit units u) ∧
    (∀ a item t, ¬Retained u units → serve i q' (noteUse units u) = some (a, item, t) →
      answerDesc q.desc u = { t with queries := t.queries.set i { q' with answer := some a, item := item } }) ∧
    (¬Retained u units → serve i q' (noteUse units u) = none → answerDesc q.desc u = noteUse units u) := by
  have first := reached_first at_ open_ only
  have some_ : (reached_ i q s).queries ≠ [] := by
    intro nil
    have := set_queries_same at_ { q with arrived := some (place s) }
    rw [show s.queries.set i _ = [] from nil] at this
    exact nomatch this
  refine ⟨answerDesc_asleep first, fun a item t awake served => ?_, answerDesc_stuck first some_⟩
  refine answerDesc_serves first some_ awake served (reached_last at_ only ?_)
  have used : (noteUse (homeUnits (reached_ i q s) q.desc 32) (reached_ i q s)).queries = (reached_ i q s).queries := rfl
  rw [← used]
  exact serve_queries served

/-- A query that waits is the first, and is answered with what Cumin serves (R241). -/
theorem first_clauses {i n : Nat} {q : Query} (at_ : s.queries[i]? = some q) (open_ : q.answer = none) (there : q.arrived = some n)
    (ahead : ∀ j x, s.queries[j]? = some x → j ≠ i → x.desc = q.desc → x.answer = none → ∀ k, x.arrived = some k → n < k) :
    firstWaiting s q.desc = some (i, q) := by
  refine firstWaiting_first at_ ⟨rfl, open_, by rw [there]; rfl⟩ fun j x hx other ⟨desc, unanswered, waits⟩ => ?_
  obtain ⟨k, at_k⟩ := Option.isSome_iff_exists.mp waits
  rw [there, at_k]
  exact ahead j x hx other desc unanswered k at_k

end

/-- Settles O49, clause by clause from the rules of records, delivery, commits, Cumin and cores. -/
theorem taskEvents : Obligations.TaskEvents := by
  refine ⟨fun _ _ => rfl, fun _ _ => rfl, fun _ _ => rfl, fun _ _ => rfl, fun _ _ => rfl, fun _ _ => rfl, fun _ _ => rfl, fun _ _ => rfl,
    fun _ _ => rfl, fun _ _ => rfl, fun _ _ => rfl, fun i core cl w v s => ⟨fun none_ => ?_,
    fun m at_ => ⟨network_clauses at_, fun live =>
      ⟨fun h => acts (deliverMessage_stays at_ live h),
      fun handler here turn open_ => ⟨fun room => acts (deliverMessage_starts at_ live handler here turn open_ room),
        fun full room => acts (deliverMessage_queues at_ live handler here turn open_ full room),
        fun full none_ => acts (deliverMessage_refused at_ live handler here turn open_ full none_)⟩,
      fun h => acts (arriveData_other at_ live h),
      fun data turn here single => ⟨fun open_ room => ?_, fun full => acts (arriveData_full at_ live data turn here single full)⟩,
      fun h => acts (walk_other at_ live h),
      fun walks turn => ⟨fun k taken => acts (walk_taken at_ live walks turn taken),
        fun k none_ place room => acts (walk_parks at_ live walks turn none_ place room), fun none_ full => acts (walk_refused at_ live walks turn none_ full)⟩,
      fun record taken => acts (resumeAt_resumes at_ live record taken), fun h => acts (resumeAt_other at_ live h)⟩⟩,
    fun m c mine single first => ⟨_, admitTo_starts mine single first, rfl, rfl, rfl, rfl, rfl, rfl, rfl, rfl, rfl,
      fun k => payload_start k _ _ _, fun r above => rest_start above _ _ _, rfl, fun d sh tile => tile_start tile _ _ _⟩,
    fun h => addHart_spec h s, finishRegisters_plain,
    fun e word t clearing header fetched => ⟨finishRegisters_header clearing header fetched, finishRegisters_malformed clearing header fetched⟩,
    fun m c mine single => ⟨_, resumeTask_single mine single, rfl, rfl, rfl, rfl, rfl, rfl, rfl, rfl, rfl, rfl, rfl, rfl⟩,
    fun e c x clearing header record mine at_ => ⟨fun t met => finishRegisters_waits clearing header record mine at_ met, fun u met =>
      ⟨fun code bad => finishRegisters_poisoned clearing header record mine at_ met bad,
        fun clean bad => finishRegisters_refused clearing header record mine at_ met clean (recordOk_refuses bad),
        fun clean good alone => ⟨finishRegisters_full clearing header record mine at_ met clean good alone,
          finishRegisters_loads clearing header record mine at_ met clean good alone⟩⟩⟩,
    fun m h first => loadRecord_restored first, fun m h again few => loadRecord_again again few,
    fun es k => restorePorts_get core es s k,
    fun r status rst live pc ports small few numbers queued => recordImage_recordOf s r status rst live pc ports small few numbers queued,
    fun r status rst live pc ports k inside small tiles a low => recordImage_tile s r status rst live pc ports inside tiles low,
    recordRst_none, fun c busy => ⟨recordRst_untouched busy, fun some_ done is _ count chan size base dst _ => ?_⟩,
    fun x e off image len bound paired wf free header behind => ?_,
    fun r status rst live pc wait c x e off mine extent place => ?_,
    finishRegisters_other, evChunkCommit_absent, fun k asks alone => ?_, fun e es t h => applyAll_cons h es,
    fun pa bs wf free => ⟨_, rfl, apply_store wf free⟩, fun pa op wide y wf free => ?_, fun k a bs => rfl,
    fun plain free => commitChunk_plain plain free, ?_, fun t b asked other => pairTimeout_eq asked other,
    fun none_ => ⟨acts (cumin_absent none_).1, acts (cumin_absent none_).2⟩, fun q at_ => ?_, fun g k => ⟨gridAnswer_eq g k, gridOk_iff g⟩,
    fun h => acts (finishClear_idle h), fun clearing held => ?_, finishRetest_idle, fun x u => rfl, fun due idle bound => ?_,
    fun moves room => ⟨fun code d t h => migrationArrival_fault moves room h, fun t h => migrationArrival_enters moves room h⟩,
    fun b moves full => arriveService_full moves full, coreParity_other, fun task runs single => ⟨coreParity_squash task runs single, fun passes => ?_⟩,
    fun tile => ⟨_, leaveCore_eq tile, leavesCore_retest, leavesCore_hart⟩, arriveTile_arrives, fun k queued late => ⟨_, parityTimeout_ends queued late⟩,
    parityTimeout_waits, ⟨fun x waits safe => ?_, fun b waits => ?_, fun x waits here => waitSafePoint_stays waits here,
      fun r => ⟨rfl, rfl, rfl, rfl, rfl⟩⟩,
    fun mask pc wait => ⟨fun h => trySafe_none (safeRoom_idle h), fun h => trySafe_none (safeRoom_noExtent h), fun pending bound => ?_⟩,
    fun mask pc wait single full => ⟨_, roomGone_goesOn single full, rfl, rfl, rfl, fun none_ => ?_, fun x is place stage => ?_⟩,
    fun x waits single yields held late => releaseToken_releases single (yielding_blocked waits yields) held late,
    fun k commits single flies held late => releaseToken_releases single (yielding_committing commits flies) held late, releaseToken_early,
    fun x j t task far ready fetched => ?_, fun x t fetched => safeDistance_undecoded fetched, safeDistance_near, specWayTimeout_waits,
    fun l waits late => ?_, rfl, completeProducer_none, fun p rest h => completeProducer_delivers h, fun t b waits => reachTime_eq waits,
    fun known => acts (deliverSummary_again known), fun new plain alone => acts (deliverSummary_first new plain alone)⟩⟩
  · obtain ⟨delivered, arrived, walked, resumed⟩ := network_absent (core := core) none_
    exact ⟨acts delivered, acts arrived, acts walked, acts resumed⟩
  · obtain ⟨t, eq, net, entry, cap⟩ := arriveData_enters at_ live data turn here single open_ room
    exact ⟨t, acts eq, net, entry, cap⟩
  · subst is
    exact recordRst_copy busy some_ count chan size base dst
  · have fields := writeRecord_fields (s := s) (x := x) (off := off) (len := len) (e := e) (image := image) (bound := bound) (paired := paired)
    dsimp only
    rw [fields.1]
    obtain ⟨bytes, count, number⟩ := recordStored_mem (image := image) wf free header behind
    exact ⟨bytes, count, number, writeRecord_message⟩
  · obtain ⟨t, eq, mem, net⟩ := finishSafe_writes (wait := wait) (status := status) (rst := rst) mine extent place
    exact ⟨t, eq, mem, net⟩
  · refine ⟨fun early => ?_, fun may asleep => ?_, fun may awake => ⟨fun x gone => ?_, fun room late => ?_, fun room passes =>
      ⟨fun code d x live => ?_, fun u live => ⟨fun t done => ?_, fun code d fails => ?_⟩⟩⟩⟩
    · exact (committed asks alone (commitAlone_early early)).trans (congrArg Host.Outcome.next (focus_self s))
    · exact committed asks alone (commitAlone_asleep may asleep)
    · exact committed asks alone (commitAlone_roomGone may awake gone)
    · exact committed asks alone (commitAlone_overtaken may awake room late)
    · exact committed asks alone (commitAlone_fault may awake room passes live)
    · exact committed asks alone (commitAlone_done may awake room passes live done)
    · exact committed asks alone (commitAlone_refused may awake room passes live fails)
  · refine ⟨_, rfl, (apply_amo wf free).1, ?_⟩
    refine (apply_amo_value wf free).trans ?_
    cases op <;> rfl
  · obtain ⟨hart, mem, -⟩ := closeChunk_spec s
    dsimp only
    rw [hart, mem]
    exact ⟨rfl, rfl, rfl, rfl, rfl, rfl, rfl, rfl⟩
  · refine ⟨fun answered => acts (cuminQuery_answered at_ answered), fun open_ away behind => acts (cuminQuery_behind at_ open_ away behind),
      fun open_ there => acts (cuminQuery_again at_ open_ there), fun open_ away ahead =>
        ⟨place s, place_above s, acts (cuminQuery_arrives at_ open_ away ahead), fun only => ?_⟩,
      fun n open_ there ahead => ?_, ⟨fun a shared => serve_shared shared, fun own => ⟨serve_poisoned own,
        fun clean bad => serve_malformed own clean bad, fun clean good => ⟨fun n again => serve_returned own clean good again, serve_next own clean good, serve_end own clean good⟩⟩⟩,
      fun h => acts (landAnswer_waits at_ h), fun a given flies fate => acts (landAnswer_fills at_ given flies fate), fun a n given flies gone item => ?_⟩
    · obtain ⟨asleep, served, stuck⟩ := arrival_clauses at_ open_ only
      have arrives := cuminQuery_arrives at_ open_ away ahead
      exact ⟨fun sleeps => acts (arrives.trans (asleep sleeps)), fun a item t awake serves => acts (arrives.trans (served a item t awake serves)),
        fun awake none_ => acts (arrives.trans (stuck awake none_))⟩
    · have first := first_clauses at_ open_ there ahead
      have some_ : s.queries ≠ [] := fun nil => by rw [nil] at at_; exact nomatch at_
      exact ⟨answerDesc_asleep first, answerDesc_stuck first some_⟩
    · obtain ⟨t, eq, rest⟩ := landAnswer_returns at_ given flies gone item
      exact ⟨t, acts eq, rest⟩
  · obtain ⟨cores, poison, mem, hart⟩ := wakeFootprint_frame (clusterNo core) (clearedState core s)
    refine ⟨_, acts (finishClear_clears clearing held), ?_⟩
    rw [core_of_cores cores, clearedState_core, poison, mem, hart]
    exact ⟨rfl, rfl, rfl, rfl, rfl, rfl, fun p listed => bne_iff_ne.mp (List.mem_filter.mp listed).2, rfl, rfl⟩
  · rw [finishRetest_core due idle bound, finishRetest_cluster due idle bound]
    exact ⟨rfl, retested_repair core s, rfl, fun x lost => retested_badSpares lost,
      fun arr bank row tested small fits b low => read_tested low (marched_row tested small fits),
      fun arr bank n spare tested small fits b low => read_tested low (marched_spare spare tested small fits),
      fun k inside tested b low => read_tested low (List.contains_iff_mem.mpr tested)⟩
  · refine ⟨s.free.1, _, rfl, fun ended => ?_, fun goes => ?_⟩
    · exact (coreParity_rolls task runs single passes).trans (if_pos ended)
    · exact (coreParity_rolls task runs single passes).trans (if_neg goes)
  · rw [waitSafePoint_eq (waitPc_blocked waits safe), waits]
    rfl
  · have at_ : waitPc s = some s.hart.r.pc := by
      unfold waitPc
      rw [waits]
    rw [waitSafePoint_eq at_, waits]
    rfl
  · rw [← safeRoom_pending pending bound]
    exact ⟨trySafe_commits, fun full => by rw [trySafe_full full]; exact ⟨rfl, rfl⟩⟩
  · subst none_
    exact ⟨rfl, rfl⟩
  · subst is
    exact ⟨afterSafe_other stage, afterPc_other place⟩
  · have eq := safeDistance_eq task far ready fetched
    refine ⟨fun safe pair burst => eq.trans (if_pos (exceeds_other safe pair burst t)), fun m is => ?_, fun hi is => ?_, fun c r d a b is => ?_⟩
    · subst is
      exact eq.trans (if_neg Bool.false_ne_true)
    · subst is
      rw [eq]
      split
      · next far_ =>
        obtain ⟨_, _, _, fault⟩ := (exceeds_limm ..).mp far_
        rw [fault]
      · next under =>
        split
        · next fault => exact absurd ((exceeds_limm ..).mpr ⟨_, _, _, fault⟩) under
        · rfl
    · subst is
      rw [eq]
      split
      · next far_ =>
        obtain ⟨_, _, _, fault⟩ := (exceeds_repf ..).mp far_
        rw [fault]
      · next under =>
        split
        · next fault => exact absurd ((exceeds_repf ..).mpr ⟨_, _, _, fault⟩) under
        · rfl
  · rw [specWayTimeout_ends waits late]
    exact ⟨fun shared => by rw [if_neg (by rw [shared]; nofun)], fun exclusive => if_pos exclusive⟩

end Sys2Proof.Proofs
end

