-- ==== Sys2Proof/Proofs/Kept.lean ====
section
/-! PROOFS. What every step keeps (O60): the canonical form of every memory, and, for an instruction of a task, what is not its own. The rules for the
parts of the state, for runs and for acting on several contexts. -/

namespace Sys2Proof.Proofs

open Sys2Proof Sys2Proof.Machine Sys2Proof.Claims

/-- What a proof follows: of an event the canonical form alone; of an instruction of a task that started in a state also what is not its own. The level
says what is known of the context that acts: 0, its number is one of the task's capsule; 1, it is a task of the capsule; 2, and so is its partner. -/
inductive Bound where
  | event
  | task (start : State) (level : Nat)

/-- Is this the number of a task of the capsule? -/
def Mine (s : State) (id : Nat) : Prop := ∃ g ∈ s.harts, g.id = id ∧ g.kind = .task ∧ g.cap = s.hart.cap

/-- Are all contexts with this number tasks of the capsule? -/
def Owns (s : State) (id : Nat) : Prop := ∀ g ∈ s.harts, g.id = id → g.kind = .task ∧ g.cap = s.hart.cap

/-- What names a context, and what of a cluster only firmware and events write. -/
def who (h : Hart) : Nat × HartKind × Nat × Option Nat := (h.id, h.kind, h.cap, h.partner)
def side (c : Cluster) : Nat × (Word × Word × Word × Word) × (Word × Memory) × (Word × Word) × Vector (BitVec 32) 16 :=
  (c.no, (c.fwvec, c.fwcode, c.fwpc, c.fwdetail), (c.mmuctl, c.mmu), (c.clstat, c.summary), c.repair)

namespace Bound

/-- Where a context comes from, and whether its registers are as they were. -/
def Seen : Bound → Hart → Prop
  | .event, _ => True
  | .task st _, x => ∃ g ∈ st.harts, g.id = x.id ∧ g.kind = x.kind ∧ g.cap = x.cap ∧ (Mine st x.id ∨ g.r = x.r)

/-- What is known of the context that acts. -/
def Acting : Bound → Hart → Prop
  | .event, _ => True
  | .task st n, h => Mine st h.id ∧ (1 ≤ n → h.kind = .task ∧ h.cap = st.hart.cap) ∧ (2 ≤ n → ∀ p, h.partner = some p → Owns st p)

def Sides : Bound → List Cluster → Prop
  | .event, _ => True
  | .task st _, cs => ∀ n, side (lookup Cluster.no Cluster.reset cs n) = side (st.cluster n)

def Bytes : Bound → Memory → Prop
  | .event, _ => True
  | .task st _, m => ∀ a, (∀ c x e, st.cap? st.hart.cap = some c → reportExtent c = some (x, e) → a < e.base ∨ e.base + 512 ≤ a) →
    m.read a = st.mem.read a

def Caps : Bound → List Capsule → Prop
  | .event, _ => True
  | .task st _, cs => cs.map (fun c => (c.id, c.exts)) = st.caps.map fun c => (c.id, c.exts)

/-- The same at another level, and with nothing known of the context that acts but its number. -/
def at_ : Bound → Nat → Bound
  | .event, _ => .event
  | .task st _, n => .task st n
def low (b : Bound) : Bound := b.at_ 0

/-- May a context with this number act? Is every one with it a task of the capsule? Is this the capsule? -/
def May : Bound → Nat → Prop
  | .event, _ => True
  | .task st _, id => Mine st id
def Owned : Bound → Nat → Prop
  | .event, _ => True
  | .task st _, id => Owns st id
def Own : Bound → Nat → Prop
  | .event, _ => True
  | .task st _, cap => cap = st.hart.cap

end Bound

def TidyCap (c : Capsule) : Prop := c.record.wf = true ∧ ∀ m, c.launch = some m → TidyMsg m
def TidyPart (p : Part) : Prop := p.cfg.wf = true ∧ p.stagecpl.wf = true
def TidySaffron (x : Saffron) : Prop := x.sram.wf = true ∧ x.windows.wf = true ∧ x.flashA.wf = true ∧ x.flashB.wf = true

/-! What commits or sends no message holds none. -/

def noMessage : RunState → Bool
  | .committing (.cont _) => false
  | _ => true
def silent : Effect → Bool
  | .message _ | .spawn _ => false
  | _ => true

theorem none_tidy {α : Type} {P : α → Prop} : ∀ a, (none : Option α) = some a → P a := fun _ at_ => nomatch at_

theorem ne_cont {r : RunState} (quiet : noMessage r = true) : ∀ m, r = .committing (.cont m) → TidyMsg m := by
  rintro m rfl
  exact absurd quiet Bool.false_ne_true

theorem tidy_silent {e : Effect} (quiet : silent e = true) : TidyEffect e := by
  constructor
  all_goals
    rintro x rfl
    exact absurd quiet Bool.false_ne_true

/-- A context that goes to another run state. -/
theorem tidy_ran {x y : Hart} (same : (y.r, y.ckpt, y.report, y.chunk.effects, y.inflight) = (x.r, x.ckpt, x.report, x.chunk.effects, x.inflight))
    (quiet : noMessage y.run = true) (h : TidyHart x) : TidyHart y := by
  simp only [Prod.mk.injEq] at same
  obtain ⟨r, ckpt, report, effects, inflight⟩ := same
  obtain ⟨regs, saved, wf, sent, flight, -⟩ := h
  exact ⟨r ▸ regs, ckpt ▸ saved, report ▸ wf, effects ▸ sent, inflight ▸ flight, ne_cont quiet⟩

structure HartsKept (b : Bound) (h : Hart) (hs : List Hart) : Prop where
  tidy : TidyHart h
  seen : b.Seen h
  acting : b.Acting h
  rest : ∀ x ∈ hs, TidyHart x ∧ b.Seen x

/-- What holds of a state on the way of a step. -/
structure Kept (b : Bound) (s : State) : Prop where
  harts : HartsKept b s.hart s.parked
  mem : s.mem.wf = true ∧ b.Bytes s.mem
  host : s.host.wf = true
  cores : ∀ k ∈ s.cores, TidyCore k
  clusters : (∀ c ∈ s.clusters, TidyCluster c) ∧ b.Sides s.clusters
  net : ∀ m ∈ s.net, TidyMsg m
  heldx : ∀ x ∈ s.heldx, TidyEffect x.2.2
  caps : (∀ c ∈ s.caps, TidyCap c) ∧ b.Caps s.caps
  reports : ∀ r ∈ s.reports, Memory.wf r = true
  queues : ∀ q ∈ s.queues, q.slots.wf = true
  parts : ∀ p ∈ s.parts, TidyPart p
  saffron : TidySaffron s.saffron
  seals : ∀ x ∈ s.seals, Memory.wf x.2 = true
  dirty : ∀ d ∈ s.dirty, d.old.wf = true

theorem kept_event {s : State} : Kept .event s ↔ Canonical s := by
  constructor
  · intro h
    obtain ⟨sram, windows, flashA, flashB⟩ := h.saffron
    refine ⟨h.mem.1, h.host, fun x hx => ?_, h.cores, h.clusters.1, h.net, h.heldx, h.caps.1, h.reports, h.queues, h.parts, sram, windows, flashA, flashB,
      h.seals, h.dirty⟩
    obtain rfl | hx := List.mem_cons.mp hx
    · exact h.harts.tidy
    · exact (h.harts.rest x hx).1
  · rintro ⟨mem, host, harts, cores, clusters, net, heldx, caps, reports, queues, parts, sram, windows, flashA, flashB, seals, dirty⟩
    exact ⟨⟨harts _ List.mem_cons_self, trivial, trivial, fun x hx => ⟨harts x (List.mem_cons_of_mem _ hx), trivial⟩⟩, ⟨mem, trivial⟩, host, cores,
      ⟨clusters, trivial⟩, net, heldx, ⟨caps, trivial⟩, reports, queues, parts, ⟨sram, windows, flashA, flashB⟩, seals, dirty⟩

/-! Keyed lists. -/

theorem mem_update {α : Type} {key : α → Nat} {l : List α} {a x : α} (h : x ∈ update key l a) : x = a ∨ x ∈ l := by
  induction l with
  | nil => exact .inl (List.mem_singleton.mp h)
  | cons y l ih =>
    rw [update] at h
    split at h
    · exact (List.mem_cons.mp h).imp_right (List.mem_cons_of_mem y)
    · obtain rfl | h := List.mem_cons.mp h
      · exact .inr List.mem_cons_self
      · exact (ih h).imp_right (List.mem_cons_of_mem y)

theorem lookup_of {α : Type} {P : α → Prop} {key : α → Nat} {dflt : Nat → α} {l : List α} (h : ∀ x ∈ l, P x) (k : Nat) (zero : P (dflt k)) :
    P (lookup key dflt l k) := by
  induction l with
  | nil => exact zero
  | cons y l ih =>
    rw [lookup]
    split
    · exact h y List.mem_cons_self
    · exact ih fun x hx => h x (List.mem_cons_of_mem y hx)

theorem mem_of_update {α : Type} {P : α → Prop} {key : α → Nat} {l : List α} {a : α} (h : ∀ x ∈ l, P x) (ha : P a) : ∀ x ∈ update key l a, P x :=
  fun x hx => (mem_update hx).elim (fun e => e ▸ ha) (h x)

theorem lookup_map {α β : Type} {key : α → Nat} {dflt : Nat → α} {f : α → α} {g : α → β} (same : ∀ x, key (f x) = key x) (keep : ∀ x, g (f x) = g x)
    (l : List α) (k : Nat) : g (lookup key dflt (l.map f) k) = g (lookup key dflt l k) := by
  induction l with
  | nil => rfl
  | cons y l ih =>
    rw [List.map_cons, lookup, lookup, same]
    split
    · exact keep y
    · exact ih

theorem tidy_push {α : Type} {P : α → Prop} {l : List α} {a : α} (old : ∀ x ∈ l, P x) (tidy : P a) : ∀ x ∈ l ++ [a], P x :=
  fun x hx => (List.mem_append.mp hx).elim (old x) fun last => List.mem_singleton.mp last ▸ tidy

theorem tidy_map {α : Type} {P : α → Prop} {l : List α} {f : α → α} (old : ∀ x ∈ l, P x) (keep : ∀ x, P x → P (f x)) : ∀ x ∈ l.map f, P x :=
  List.forall_mem_map.mpr fun x hx => keep x (old x hx)

/-! What stands after a reset is canonical. -/

theorem tidy_regsReset : TidyRegs Regs.reset := fun x => by rw [show Regs.reset.t.get x = Tile.reset from get_replicate _ x]; rfl

theorem tidy_hartReset (id : Nat) (kind : HartKind) (core : Nat) : TidyHart (Hart.reset id kind core) :=
  ⟨tidy_regsReset, tidy_regsReset, rfl, List.forall_mem_nil _, List.forall_mem_nil _, ne_cont rfl⟩

theorem tidy_coreReset (n : Nat) : TidyCore (Core.reset n) :=
  ⟨rfl, rfl, List.forall_mem_nil _, fun i => by rw [show (Core.reset n).ports.get i = [] from get_replicate _ i]; exact List.forall_mem_nil _⟩

theorem tidy_clusterReset (n : Nat) : TidyCluster (Cluster.reset n) := ⟨rfl, rfl, List.forall_mem_nil _, List.forall_mem_nil _⟩

theorem tidy_partReset (n : Nat) : TidyPart (Part.reset n) := by
  refine ⟨?_, rfl⟩
  unfold Part.reset
  dsimp only
  split
  · rfl
  · next h =>
    refine bne_iff_ne.mpr fun zero => h ?_
    exact (BitVec.toNat_ofNat ..).symm.trans (congrArg BitVec.toNat zero)

namespace Kept

variable {b : Bound} {s t : State}

/-- Less is known at a lower level. -/
theorem low (h : Kept b s) : Kept b.low s := by
  cases b with
  | event => exact h
  | task st n =>
    obtain ⟨tidy, seen, acting, rest⟩ := h.harts
    exact ⟨⟨tidy, seen, ⟨acting.1, nofun, nofun⟩, rest⟩, h.mem, h.host, h.cores, h.clusters, h.net, h.heldx, h.caps, h.reports, h.queues, h.parts,
      h.saffron, h.seals, h.dirty⟩

/-! Reading the parts. -/

section
variable (h : Kept b s)
include h

theorem hart : TidyHart s.hart := h.harts.tidy
theorem core (n : Nat) : TidyCore (s.core n) := lookup_of h.cores n (tidy_coreReset n)
theorem cluster (n : Nat) : TidyCluster (s.cluster n) := lookup_of h.clusters.1 n (tidy_clusterReset n)
theorem part (n : Nat) : TidyPart (s.part n) := lookup_of h.parts n (tidy_partReset n)
theorem queue (n : Nat) : (s.queue n).slots.wf = true := lookup_of h.queues n rfl
theorem tile (t : TReg) : (s.tile t).data.wf = true := h.hart.1 t
theorem cap {id : Nat} {c : Capsule} (at_ : s.cap? id = some c) : TidyCap c := h.caps.1 c (List.mem_of_find?_eq_some at_)
theorem capsule {c : Capsule} (at_ : s.capsule = some c) : TidyCap c := by
  unfold State.capsule at at_
  split at at_
  · exact h.cap at_
  · exact nomatch at_

end

/-! Changing the parts. -/

theorem harts_mod {f : Hart → Hart} (tidy : TidyHart s.hart → TidyHart (f s.hart)) (same : who (f s.hart) = who s.hart)
    (h : HartsKept b s.hart s.parked) : HartsKept b (f s.hart) s.parked := by
  simp only [who, Prod.mk.injEq] at same
  obtain ⟨id, kind, cap, partner⟩ := same
  refine ⟨tidy h.tidy, ?_, ?_, h.rest⟩
  · cases b with
    | event => trivial
    | task st n =>
      obtain ⟨g, there, gid, gkind, gcap, -⟩ := h.seen
      exact ⟨g, there, gid.trans id.symm, gkind.trans kind.symm, gcap.trans cap.symm, .inl (id ▸ h.acting.1)⟩
  · cases b with
    | event => trivial
    | task st n =>
      obtain ⟨mine, task, owns⟩ := h.acting
      exact ⟨id ▸ mine, fun one => by rw [kind, cap]; exact task one, fun two => by rw [partner]; exact owns two⟩

/-- The context that acts. -/
theorem mod {f : Hart → Hart} (h : Kept b s) (same : who (f s.hart) = who s.hart) (tidy : TidyHart s.hart → TidyHart (f s.hart)) : Kept b (s.mod f) :=
  { h with harts := harts_mod tidy same h.harts }

theorem modRegs {f : Regs → Regs} (h : Kept b s) (tidy : TidyRegs s.hart.r → TidyRegs (f s.hart.r)) : Kept b (s.modRegs f) :=
  h.mod rfl fun ⟨r, rest⟩ => ⟨tidy r, rest⟩

/-- Contexts that do not act keep their names and registers. -/
theorem rest_map {f : Hart → Hart} {hs : List Hart} (tidy : ∀ x, TidyHart x → TidyHart (f x)) (same : ∀ x, who (f x) = who x) (regs : ∀ x, (f x).r = x.r)
    (h : ∀ x ∈ hs, TidyHart x ∧ b.Seen x) : ∀ x ∈ hs.map f, TidyHart x ∧ b.Seen x := by
  intro x hx
  obtain ⟨y, hy, rfl⟩ := List.mem_map.mp hx
  obtain ⟨clean, seen⟩ := h y hy
  refine ⟨tidy y clean, ?_⟩
  have same := same y
  simp only [who, Prod.mk.injEq] at same
  obtain ⟨id, kind, cap, -⟩ := same
  cases b with
  | event => trivial
  | task st n =>
    obtain ⟨g, there, gid, gkind, gcap, own⟩ := seen
    exact ⟨g, there, gid.trans id.symm, gkind.trans kind.symm, gcap.trans cap.symm, own.imp (id ▸ ·) (·.trans (regs y).symm)⟩

theorem harts_map {f : Hart → Hart} (tidy : ∀ x, TidyHart x → TidyHart (f x)) (same : ∀ x, who (f x) = who x) (regs : ∀ x, (f x).r = x.r)
    (h : HartsKept b s.hart s.parked) : HartsKept b (f s.hart) (s.parked.map f) :=
  have first := harts_mod (s := s) (fun _ => tidy _ h.tidy) (same _) h
  ⟨first.tidy, first.seen, first.acting, rest_map tidy same regs h.rest⟩

/-- Every context. -/
theorem mapHarts {f : Hart → Hart} (h : Kept b s) (tidy : ∀ x, TidyHart x → TidyHart (f x)) (same : ∀ x, who (f x) = who x) (regs : ∀ x, (f x).r = x.r) :
    Kept b { s with hart := f s.hart, parked := s.parked.map f } := { h with harts := harts_map tidy same regs h.harts }

/-- The others. -/
theorem mapParked {f : Hart → Hart} (h : Kept b s) (tidy : ∀ x, TidyHart x → TidyHart (f x)) (same : ∀ x, who (f x) = who x) (regs : ∀ x, (f x).r = x.r) :
    Kept b { s with parked := s.parked.map f } := { h with harts := { h.harts with rest := rest_map tidy same regs h.harts.rest } }

theorem modCore {n : Nat} {f : Core → Core} (h : Kept b s) (tidy : TidyCore (s.core n) → TidyCore (f (s.core n))) : Kept b (s.modCore n f) :=
  { h with cores := mem_of_update h.cores (tidy (h.core n)) }

theorem mapCores {f : Core → Core} (h : Kept b s) (tidy : ∀ k, TidyCore k → TidyCore (f k)) : Kept b { s with cores := s.cores.map f } :=
  { h with cores := List.forall_mem_map.mpr fun k hk => tidy k (h.cores k hk) }

theorem sides_update {n : Nat} {c : Cluster} {cs : List Cluster} (h : b.Sides cs) (same : side c = side (lookup Cluster.no Cluster.reset cs n)) :
    b.Sides (Machine.update Cluster.no cs c) := by
  cases b with
  | event => trivial
  | task st l =>
    have number : c.no = n := (congrArg Prod.fst same).trans (lookup_key (key := Cluster.no) (dflt := Cluster.reset) (fun _ => rfl) cs n)
    intro k
    by_cases here : k = c.no
    · rw [here, lookup_update_same Cluster.no Cluster.reset cs c, same, number]
      exact h n
    · rw [lookup_update_other Cluster.no Cluster.reset cs here]
      exact h k

theorem modCluster {n : Nat} {f : Cluster → Cluster} (h : Kept b s) (same : side (f (s.cluster n)) = side (s.cluster n))
    (tidy : TidyCluster (s.cluster n) → TidyCluster (f (s.cluster n))) : Kept b (s.modCluster n f) :=
  { h with clusters := ⟨mem_of_update h.clusters.1 (tidy (h.cluster n)), sides_update h.clusters.2 same⟩ }

/-- Rings and channels are no memories. -/
theorem setRings {n : Nat} (h : Kept b s) (g : Cluster → Vector Ring 16) : Kept b (s.modCluster n fun c => { c with rings := g c }) :=
  h.modCluster rfl fun x => x
theorem setChans {n : Nat} (h : Kept b s) (g : Cluster → Vector Chan 16) : Kept b (s.modCluster n fun c => { c with chans := g c }) :=
  h.modCluster rfl fun x => x

/-- An event may change everything of a cluster. -/
theorem changeCluster {n : Nat} {f : Cluster → Cluster} (h : Kept .event s) (tidy : TidyCluster (s.cluster n) → TidyCluster (f (s.cluster n))) :
    Kept .event (s.modCluster n f) := { h with clusters := ⟨mem_of_update h.clusters.1 (tidy (h.cluster n)), trivial⟩ }

theorem clusters_map {f : Cluster → Cluster} {cs : List Cluster} (tidy : ∀ c, TidyCluster c → TidyCluster (f c)) (same : ∀ c, side (f c) = side c)
    (old : (∀ c ∈ cs, TidyCluster c) ∧ b.Sides cs) : (∀ c ∈ cs.map f, TidyCluster c) ∧ b.Sides (cs.map f) := by
  refine ⟨List.forall_mem_map.mpr fun c hc => tidy c (old.1 c hc), ?_⟩
  cases b with
  | event => trivial
  | task st n => exact fun k => (lookup_map (key := Cluster.no) (fun c => congrArg Prod.fst (same c)) same cs k).trans (old.2 k)

theorem mapClusters {f : Cluster → Cluster} (h : Kept b s) (same : ∀ c, side (f c) = side c) (tidy : ∀ c, TidyCluster c → TidyCluster (f c)) :
    Kept b { s with clusters := s.clusters.map f } := { h with clusters := clusters_map tidy same h.clusters }

theorem caps_map {f : Capsule → Capsule} {cs : List Capsule} (tidy : ∀ c, TidyCap c → TidyCap (f c)) (same : ∀ c, ((f c).id, (f c).exts) = (c.id, c.exts))
    (old : (∀ c ∈ cs, TidyCap c) ∧ b.Caps cs) : (∀ c ∈ cs.map f, TidyCap c) ∧ b.Caps (cs.map f) := by
  refine ⟨List.forall_mem_map.mpr fun c hc => tidy c (old.1 c hc), ?_⟩
  cases b with
  | event => trivial
  | task st n => exact (List.map_map.trans (List.map_congr_left fun c _ => same c)).trans old.2

theorem modCap {id : Nat} {f : Capsule → Capsule} (h : Kept b s) (same : ∀ c, ((f c).id, (f c).exts) = (c.id, c.exts)) (tidy : ∀ c, TidyCap c → TidyCap (f c)) :
    Kept b (s.modCap id f) :=
  { h with caps := caps_map (fun c hc => by split; exacts [tidy c hc, hc]) (fun c => by split; exacts [same c, rfl]) h.caps }

theorem modPart {n : Nat} {f : Part → Part} (h : Kept b s) (tidy : TidyPart (s.part n) → TidyPart (f (s.part n))) : Kept b (s.modPart n f) :=
  { h with parts := mem_of_update h.parts (tidy (h.part n)) }

theorem modQueue {n : Nat} {f : Queue → Queue} (h : Kept b s) (tidy : (s.queue n).slots.wf = true → (f (s.queue n)).slots.wf = true) : Kept b (s.modQueue n f) :=
  { h with queues := mem_of_update h.queues (tidy (h.queue n)) }

theorem mapQueues {f : Queue → Queue} (h : Kept b s) (tidy : ∀ q, q.slots.wf = true → (f q).slots.wf = true) :
    Kept b { s with queues := s.queues.map f } := { h with queues := List.forall_mem_map.mpr fun q hq => tidy q (h.queues q hq) }

/-! Single parts, and logs. -/

theorem setFresh (h : Kept b s) (n : Nat) : Kept b { s with fresh := n } := { h with }
theorem setSram (h : Kept b s) (l : List SramFault) : Kept b { s with sram := l } := { h with }
theorem setPoison (h : Kept b s) (l : List (Nat × Bool)) : Kept b { s with poison := l } := { h with }
theorem addNet (h : Kept b s) {m : Msg} (tidy : TidyMsg m) : Kept b { s with net := s.net ++ [m] } := { h with net := tidy_push h.net tidy }
theorem addHeld (h : Kept b s) {x : Nat × Nat × Effect} (tidy : TidyEffect x.2.2) : Kept b { s with heldx := s.heldx ++ [x] } :=
  { h with heldx := tidy_push h.heldx tidy }
theorem addReport (h : Kept b s) {r : Memory} (wf : r.wf = true) (n : Nat) : Kept b { s with reports := (r :: s.reports).take n } :=
  { h with reports := fun x hx => (List.mem_cons.mp (List.mem_of_mem_take hx)).elim (fun same => same ▸ wf) (h.reports x) }


theorem logPart (h : Kept b s) (p : Nat) (e : Event) : Kept b (s.logPart p e) := h.modPart fun x => x
theorem logPkg (h : Kept b s) (e : Event) : Kept b (s.logPkg e) := { h with }
theorem logFence (h : Kept b s) (core : Nat) : Kept b (logFence core s) := h.logPkg _
theorem emit (h : Kept b s) (o : Out) : Kept b (s.emit o) := { h with }
theorem free (h : Kept b s) : Kept b s.free.2 := { h with }
theorem fenceOther (h : Kept .event s) (cl : Nat) : Kept .event (fenceOther cl s) := (h.changeCluster fun x => x).logFence _

theorem wakeFootprint (h : Kept b s) (cl : Nat) : Kept b (wakeFootprint cl s) := by
  unfold Machine.wakeFootprint
  cases s.clusterPart cl with
  | none => exact h
  | some p => exact h.mapQueues fun q hq => by split <;> exact hq

/-! Cases and lists. -/

theorem ite {c : Prop} [Decidable c] (yes : c → Kept b s) (no : ¬c → Kept b t) : Kept b (if c then s else t) := by
  split
  · next hc => exact yes hc
  · next hc => exact no hc

theorem foldl {α : Type} {f : State → α → State} (l : List α) (h : Kept b s) (step : ∀ t, ∀ x ∈ l, Kept b t → Kept b (f t x)) : Kept b (l.foldl f s) := by
  induction l generalizing s with
  | nil => exact h
  | cons x l ih => exact ih (step s x List.mem_cons_self h) fun t y hy => step t y (List.mem_cons_of_mem x hy)

end Kept

/-! Runs: what stands when an operation completes, waits or faults. -/

def Stays (b : Bound) : Halt → Prop
  | .fault _ _ s => Kept b s
  | .wait _ s => Kept b s
  | .stop _ => True

def Safe {α : Type} (b : Bound) (P : α → Prop) : Run α → Prop
  | .ok a => P a
  | .error e => Stays b e

namespace Safe

variable {b : Bound} {α β : Type} {P : α → Prop} {Q : β → Prop}

theorem bind {r : Run α} {f : α → Run β} (h : Safe b P r) (k : ∀ a, P a → Safe b Q (f a)) : Safe b Q (r >>= f) := by
  cases r with
  | ok a => exact k a h
  | error e => exact h

theorem imp {P' : α → Prop} {r : Run α} (h : Safe b P r) (k : ∀ a, P a → P' a) : Safe b P' r := by
  cases r with
  | ok a => exact k a h
  | error e => exact h

theorem ite {c : Prop} [Decidable c] {r r' : Run α} (yes : c → Safe b P r) (no : ¬c → Safe b P r') : Safe b P (if c then r else r') := by
  split
  · next hc => exact yes hc
  · next hc => exact no hc

end Safe

/-! Acting on several contexts. -/

namespace Kept

variable {b : Bound} {s : State}

theorem may (h : Kept b s) : b.May s.hart.id := by
  cases b with
  | event => trivial
  | task st n => exact h.harts.acting.1

/-- A context that is known by its number comes to act. -/
theorem switch {x : Hart} {hs : List Hart} (h : Kept b s) (tidy : TidyHart x) (seen : b.Seen x) (acting : b.Acting x)
    (rest : ∀ y ∈ hs, TidyHart y ∧ b.Seen y) : Kept b { s with hart := x, parked := hs } := { h with harts := ⟨tidy, seen, acting, rest⟩ }

theorem rest_filter {p : Hart → Bool} {hs : List Hart} (h : ∀ x ∈ hs, TidyHart x ∧ b.Seen x) : ∀ x ∈ hs.filter p, TidyHart x ∧ b.Seen x :=
  fun x hx => h x (List.mem_of_mem_filter hx)

/-- A context comes to act, where what is to be known of it follows from its name. -/
theorem focus_at {n id : Nat} (h : Kept (b.at_ n) s) (known : ∀ x, (b.at_ n).Seen x → x.id = id → (b.at_ n).Acting x) : Kept (b.at_ n) (focus id s) := by
  unfold Machine.focus
  split
  · exact h
  · split
    · exact h
    · next x at_ =>
      obtain ⟨tidy, seen, acting, rest⟩ := h.harts
      obtain ⟨clean, from_⟩ := rest x (List.mem_of_find?_eq_some at_)
      refine h.switch clean from_ (known x from_ (eq_of_beq (List.find?_some (p := fun y : Hart => y.id == id) at_))) ?_
      split
      · exact rest_filter rest
      · exact List.forall_mem_cons.mpr ⟨⟨tidy, seen⟩, rest_filter rest⟩

theorem focus {id : Nat} (h : Kept b s) (may : b.May id) : Kept b.low (focus id s) := by
  refine focus_at (b := b) (n := 0) h.low fun x _ same => ?_
  cases b with
  | event => trivial
  | task st n => exact ⟨same ▸ may, nofun, nofun⟩

theorem low_low : b.low.low = b.low := by cases b <;> rfl

/-- Acting on one context. -/
theorem onHart {id : Nat} {f : State → State} (h : Kept b s) (may : b.May id) (act : ∀ t, Kept b.low t → Kept b.low (f t)) :
    Kept b.low (onHart id f s) := by
  unfold Machine.onHart
  refine ite (fun _ => ?_) fun _ => h.low
  have back : b.low.May s.hart.id := h.low.may
  exact low_low (b := b) ▸ (act _ (h.focus may)).focus back

theorem onHarts {ids : List Nat} {f : State → State} (h : Kept b s) (may : ∀ id ∈ ids, b.May id) (act : ∀ t, Kept b.low t → Kept b.low (f t)) :
    Kept b.low (onHarts ids f s) := by
  refine foldl ids h.low fun t id listed kept => ?_
  have there : b.low.May id := by cases b <;> exact may id listed
  exact low_low (b := b) ▸ kept.onHart there fun u hu => (low_low (b := b)).symm ▸ act u (low_low (b := b) ▸ hu)

/-- The tasks of the capsule may act. -/
theorem may_hartsOf (h : Kept b s) {cap : Nat} (own : b.Own cap) : ∀ id ∈ s.hartsOf cap, b.May id := by
  intro id listed
  obtain ⟨x, hx, rfl⟩ := List.mem_map.mp listed
  obtain ⟨there, task⟩ := List.mem_filter.mp hx
  simp only [Bool.and_eq_true, beq_iff_eq] at task
  cases b with
  | event => trivial
  | task st n =>
    have seen : (Bound.task st n).Seen x := by
      obtain rfl | parked := List.mem_cons.mp there
      · exact h.harts.seen
      · exact (h.harts.rest x parked).2
    obtain ⟨g, from_, id, kind, cap, -⟩ := seen
    exact ⟨g, from_, id, kind.trans task.1.1, cap.trans (task.1.2.trans own)⟩

/-- Acting on a context whose number is known to be the capsule's own. -/
theorem onOwned {id : Nat} {f : State → State} (h : Kept b s) (owned : b.Owned id) (act : ∀ t, Kept (b.at_ 1) t → Kept b.low (f t)) :
    Kept b.low (Machine.onHart id f s) := by
  unfold Machine.onHart
  refine ite (fun found => ?_) fun _ => h.low
  · have back : b.low.May s.hart.id := h.low.may
    refine low_low (b := b) ▸ (act _ ?_).focus back
    cases b with
    | event => exact h.focus trivial
    | task st n =>
      have kept : Kept (.task st 0) (Machine.focus id s) := by
        refine focus_at (b := .task st 0) (n := 0) h.low fun x seen same => ?_
        obtain ⟨g, there, gid, kind, cap, -⟩ := seen
        exact ⟨⟨g, there, gid, owned g there (gid.trans same)⟩, nofun, nofun⟩
      obtain ⟨tidy, seen, ⟨mine, -⟩, rest⟩ := kept.harts
      have named := seen
      obtain ⟨g, there, gid, kind, cap, -⟩ := named
      obtain ⟨task, own⟩ := owned g there (gid.trans found)
      refine ⟨⟨tidy, seen, ⟨mine, fun _ => ⟨kind ▸ task, cap ▸ own⟩, fun two => absurd two (by decide)⟩, rest⟩, kept.mem, kept.host, kept.cores,
        kept.clusters, kept.net, kept.heldx, kept.caps, kept.reports, kept.queues, kept.parts, kept.saffron, kept.seals, kept.dirty⟩

/-- Acting on a context and on its partner. -/
theorem onPair {f : State → State} (h : Kept (b.at_ 2) s) (act : ∀ t, Kept (b.at_ 1) t → Kept b.low (f t)) : Kept b.low (onPair f s) := by
  have one : Kept (b.at_ 1) s := by
    cases b with
    | event => exact h
    | task st n =>
      obtain ⟨tidy, seen, ⟨mine, task, -⟩, rest⟩ := h.harts
      exact ⟨⟨tidy, seen, ⟨mine, fun _ => task (by decide), fun two => absurd two (by decide)⟩, rest⟩, h.mem, h.host, h.cores, h.clusters, h.net,
        h.heldx, h.caps, h.reports, h.queues, h.parts, h.saffron, h.seals, h.dirty⟩
  unfold Machine.onPair
  split
  · next p partner =>
    have owned : b.low.Owned p := by
      cases b with
      | event => trivial
      | task st n => exact h.harts.acting.2.2 (by decide) p partner
    exact low_low (b := b) ▸ (act s one).onOwned owned fun t ht => (low_low (b := b)).symm ▸ act t (by cases b <;> exact ht)
  · exact act s one

end Kept

end Sys2Proof.Proofs
end

