-- ==== Sys2Proof/Proofs/KeptChunk.lean ====
section
/-! PROOFS. Registers, reads and the buffers of a chunk keep what a step keeps (O60). -/

namespace Sys2Proof.Proofs

open Sys2Proof Sys2Proof.Machine Sys2Proof.Claims

/-- A run that ends in a state, or in a value beside a state. -/
abbrev Goes (b : Bound) (r : Run State) : Prop := Safe b (Kept b) r
abbrev Reads (b : Bound) {α : Type} (r : Run (α × State)) : Prop := Safe b (fun p => Kept b p.2) r

theorem tidyRegs_set {r : Regs} (h : TidyRegs r) {t : TReg} {x : Tile} (hx : x.data.wf = true) : TidyRegs { r with t := r.t.set t.val x t.isLt } := by
  intro y
  by_cases same : y = t
  · rw [same]
    dsimp only
    rw [get_set_same]
    exact hx
  · dsimp only
    rw [get_set_other r.t same x]
    exact h y

theorem tidy_supersede {hit : Dest → Bool} {l : List Producer} (h : ∀ p ∈ l, ∀ x d, p.dest = .treg x d → d.wf = true) :
    ∀ p ∈ supersede hit l, ∀ x d, p.dest = .treg x d → d.wf = true := by
  refine List.forall_mem_map.mpr fun p hp x d => ?_
  split
  · exact fun at_ => nomatch at_
  · exact h p hp x d

theorem tidy_append {P : Producer} {l : List Producer} (h : ∀ p ∈ l, ∀ x d, p.dest = .treg x d → d.wf = true)
    (last : ∀ x d, P.dest = .treg x d → d.wf = true) : ∀ p ∈ l ++ [P], ∀ x d, p.dest = .treg x d → d.wf = true := by
  intro p hp
  obtain hp | hp := List.mem_append.mp hp
  · exact h p hp
  · exact List.mem_singleton.mp hp ▸ last

namespace Kept

variable {b : Bound} {s : State}

/-! Registers and producers. -/

theorem writeS (h : Kept b s) (r : SReg) (v : Word) : Kept b (writeS r v s) :=
  h.mod rfl fun ⟨regs, ckpt, report, effects, inflight, run⟩ => ⟨regs, ckpt, report, effects, tidy_supersede (hit := (·.isS r)) inflight, run⟩

theorem writeT (h : Kept b s) {t : TReg} {data : Memory} {shape : BitVec 16} (wf : data.wf = true) : Kept b (writeT t data shape s) :=
  h.mod rfl fun ⟨regs, ckpt, report, effects, inflight, run⟩ => ⟨tidyRegs_set regs wf, ckpt, report, effects, tidy_supersede (hit := (·.isT t)) inflight, run⟩

theorem setFlags (h : Kept b s) (f : Flags) : Kept b (setFlags f s) := h.modRegs fun old x => old x
theorem setIdx (h : Kept b s) (n : Nat) : Kept b (setIdx n s) := h.modRegs fun old x => old x
theorem clearRst (h : Kept b s) : Kept b (clearRst s) := h.modRegs fun old x => old x

theorem produceS (h : Kept b s) (r : SReg) (v : Word) (f : Flags) : Kept b (produceS r v f s) :=
  h.mod rfl fun ⟨regs, ckpt, report, effects, inflight, run⟩ => ⟨regs, ckpt, report, effects, tidy_append (tidy_supersede inflight) (by rintro _ _ ⟨⟩), run⟩

theorem produceT (h : Kept b s) {t : TReg} {data : Memory} {shape : BitVec 16} (wf : data.wf = true) : Kept b (produceT t data shape s) :=
  h.mod rfl fun ⟨regs, ckpt, report, effects, inflight, run⟩ =>
    ⟨tidyRegs_set regs (regs t), ckpt, report, effects, tidy_append (tidy_supersede inflight) fun x d same => by cases same; exact wf, run⟩

theorem deliver (h : Kept b s) {p : Producer} (wf : ∀ x d, p.dest = .treg x d → d.wf = true) : Kept b (deliver p s) := by
  unfold Machine.deliver
  refine Kept.modRegs ?_ fun old x => old x
  split
  · exact h.writeS _ _
  · next t d same => exact h.writeT (wf t d same)
  · exact h

theorem drain (h : Kept b s) : Kept b (drain s) := by
  have first : Kept b (s.mod fun x => { x with inflight := [] }) :=
    h.mod rfl fun ⟨regs, ckpt, report, effects, _, run⟩ => ⟨regs, ckpt, report, effects, List.forall_mem_nil _, run⟩
  exact first.foldl s.hart.inflight fun t p hp kept => kept.deliver (h.hart.2.2.2.2.1 p hp)

/-! What reads enter and find. -/

theorem noteRead (h : Kept b s) (pa n : Nat) : Kept b (noteRead pa n s) := ite (fun _ => h.mod rfl fun x => x) fun _ => h
theorem noteWrite (h : Kept b s) (pa n : Nat) : Kept b (noteWrite pa n s) := h.mod rfl fun x => x
theorem notePadRead (h : Kept b s) (a n : Nat) : Kept b (notePadRead a n s) := h.mod rfl fun x => x
theorem logLine (h : Kept b s) (p k l : Nat) : Kept b (logLine p k l s) := h.logPart _ _
theorem poisonLine (h : Kept b s) (l : Nat) (i : Bool) : Kept b (poisonLine l i s) := { h with }
theorem logCorrected (h : Kept b s) (p l : Nat) : Kept b (logCorrected p l s) := h.logPart _ _
theorem logMismatch (h : Kept b s) (c : CodeRead) (p l : Nat) : Kept b (logMismatch c p l s) := ite (fun _ => h.logCorrected _ _) fun _ => h.logLine _ _ _
theorem logMemory (h : Kept b s) (p core k : Nat) : Kept b (logMemory p core k s) := h.logPart _ _

theorem readFault (h : Kept b s) (p : Nat) (f : LineFault) : Kept b (readFault p f s) := by
  have found : Kept b { s with faults := s.faults.erase f } := { h with }
  unfold Machine.readFault
  dsimp only
  split
  · exact (found.poisonLine _ _).logLine _ _ _
  · exact found
  · exact found.logLine _ _ _
  · have twice := found.logMismatch f.code p f.line
    split
    · exact (twice.poisonLine _ _).logLine _ _ _
    · exact twice
    · exact twice.logLine _ _ _
    · exact (twice.poisonLine _ _).logMismatch _ _ _

theorem readSram (h : Kept b s) (p : Nat) (f : SramFault) : Kept b (readSram p f s) := by
  have found : Kept b { s with sram := s.sram.erase f } := { h with }
  unfold Machine.readSram
  dsimp only
  split
  · exact ite (fun _ => (found.setPoison _).logLine _ _ _) fun _ => found.logLine _ _ _
  · exact ite (fun _ => { found.logPart p _ with }) fun _ => found.logPart _ _
  · exact ite (fun _ => { found.logPart p _ with }) fun _ => found.logPart _ _
  · exact found

theorem meetSram (h : Kept b s) (p : Nat) (at_ : SramPlace → Bool) : Kept b (meetSram p at_ s) := h.foldl _ fun _ f _ kept => kept.readSram p f

theorem readLines (h : Kept b s) (p pa n : Nat) : Kept b (readLines p pa n s) :=
  Kept.meetSram (h.foldl _ fun _ f _ kept => kept.readFault p f) _ _

theorem startExit (h : Kept b s) (us : List Nat) : Kept b (startExit us s) := { h with }
theorem noteUse (h : Kept b s) (us : List Nat) : Kept b (noteUse us s) := { h with }

theorem accessUnits (h : Kept b s) (us : List Nat) : Goes b (accessUnits us s) := Safe.ite (fun _ => h.startExit us) fun _ => h.noteUse us
theorem awaitUnits (h : Kept b s) (pa n : Nat) : Goes b (awaitUnits pa n s) := Safe.ite (fun _ => h) fun _ => h.accessUnits _

theorem meetLines (h : Kept b s) (p pa n : Nat) : Goes b (meetLines p pa n s) :=
  Safe.bind (h.awaitUnits pa n) fun _ kept => ite (fun _ => kept) fun _ => kept.readLines p pa n

theorem consume (h : Kept b s) (pa n : Nat) : Safe b (fun _ => True) (consume pa n s) := by
  unfold Machine.consume
  split
  · trivial
  · split
    · exact h
    · exact h
    · trivial

theorem loadAt (h : Kept b s) (pa n : Nat) : Reads b (loadAt pa n s) :=
  Safe.bind (h.meetLines _ pa n) fun _ met => Safe.bind (met.consume pa n) fun _ _ => met.noteRead pa n

theorem meetPad (h : Kept b s) (p core a n : Nat) : Kept b (meetPad p core a n s) := by
  have met := h.meetSram p (·.onPad core (unitsOf 8 a n).contains)
  refine ite (fun _ => met) fun _ => met.foldl _ fun t w _ kept => ?_
  dsimp only
  split
  · exact kept
  · exact kept.logMemory _ _ _
  · exact { kept.logMemory p core 3 with }

theorem loadPad (h : Kept b s) (a n : Nat) : Reads b (loadPad a n s) :=
  have met := h.meetPad s.partition s.hart.core a n
  Safe.ite (fun _ => met) fun _ => met.notePadRead a n

theorem meetTileWords (h : Kept b s) (t : TReg) (ws : List Nat) : Goes b (meetTileWords t ws s) :=
  Safe.ite (fun _ => h) fun _ => Safe.ite (fun _ => h.logMemory _ _ _) fun _ => Safe.ite (fun _ => h.logMemory _ _ _) fun _ => h

theorem meetWhole (h : Kept b s) (t : TReg) : Goes b (meetWhole t s) := h.meetTileWords _ _
theorem meetTile (h : Kept b s) (t : TReg) : Goes b (meetTile t s) := h.meetTileWords _ _

/-! Addresses. -/

theorem checkAccess (h : Kept b s) (a : Word) (n : Nat) (use : Use) : Safe b (fun _ => True) (checkAccess s a n use) := by
  unfold Machine.checkAccess
  split
  · trivial
  · exact h

theorem checkBlocks (h : Kept b s) (x : Nat) (e : Extent) (ns : List Nat) : Goes b (checkBlocks x e ns s) := by
  induction ns generalizing s with
  | nil => exact h
  | cons n ns ih =>
    exact Safe.ite (fun _ => Safe.bind (h.loadAt _ 8) fun p kept => Safe.ite (fun _ => ih kept) fun _ => kept) fun _ => h

theorem firmwareAddress (h : Kept b s) (a : Nat) (use : Use) : Safe b (fun _ => True) (firmwareAddress s a use) := by
  unfold Machine.firmwareAddress
  refine Safe.ite (fun _ => ?_) fun _ => trivial
  split
  · exact h
  · exact Safe.ite (fun _ => trivial) fun _ => h

theorem physicalAccess (h : Kept b s) (pa n : Nat) : Safe b (fun _ => True) (physicalAccess s pa n) :=
  Safe.ite (fun _ => h) fun _ => Safe.ite (fun _ => Safe.ite (fun _ => trivial) fun _ => h) fun _ => trivial

theorem firmwareAccess (h : Kept b s) (a n : Nat) (use : Use) : Safe b (fun _ => True) (firmwareAccess s a n use) :=
  Safe.bind (h.firmwareAddress a use) fun pa _ => h.physicalAccess pa n

theorem reach (h : Kept b s) (a : Word) (n : Nat) (use : Use) : Reads b (reach a n use s) := by
  unfold Machine.reach
  split
  · exact Safe.ite (fun _ => h) fun _ => h
  · exact Safe.bind (h.firmwareAccess _ n use) fun _ _ => h
  · refine Safe.bind (h.checkAccess a n use) fun pa _ => ?_
    split
    · exact h
    · next e _ =>
      split
      · exact h
      · refine Safe.ite (fun _ => Safe.ite (fun _ => ?_) fun _ => h) fun _ => h
        exact Safe.ite (fun _ => Safe.bind (h.checkBlocks _ e _) fun _ kept => kept) fun _ => h

theorem loadParts (h : Kept b s) (use : Use) (ps : List (Word × Nat)) : Reads b (loadParts use ps s) := by
  induction ps generalizing s with
  | nil => exact h
  | cons p ps ih =>
    exact Safe.bind (h.reach p.1 p.2 use) fun x at_ => Safe.bind (at_.loadAt x.1 p.2) fun y read => Safe.bind (ih read) fun _ kept => kept

theorem load (h : Kept b s) (a : Word) (n : Nat) (use : Use) : Reads b (load a n use s) := h.loadParts use _

/-! Effects. -/

theorem pushEffect (h : Kept b s) {e : Effect} (tidy : TidyEffect e) : Kept b (pushEffect e s) :=
  h.mod rfl fun ⟨regs, ckpt, report, effects, inflight, run⟩ => ⟨regs, ckpt, report, fun x hx =>
    (List.mem_append.mp hx).elim (effects x) fun last => List.mem_singleton.mp last ▸ tidy, inflight, run⟩

theorem markWritten (h : Kept b s) (a : Word) (n : Nat) : Kept b (markWritten a n s) :=
  h.foldl _ fun _ _ _ kept => ite (fun _ => kept) fun _ => kept.pushEffect (tidy_silent rfl)

theorem bufferOut (h : Kept b s) {e : Effect} (tidy : TidyEffect e) : Goes b (bufferOut e s) :=
  Safe.ite (fun _ => h) fun _ => h.pushEffect tidy

theorem bufferStore (h : Kept b s) (pa : Nat) (bs : List Byte) : Goes b (bufferStore pa bs s) := by
  refine Safe.bind (h.awaitUnits pa bs.length) fun t kept => Safe.ite (fun _ => kept) fun _ => ?_
  split
  · exact kept
  · exact ((kept.mod rfl fun x => x).pushEffect (tidy_silent rfl)).noteWrite _ _

theorem bufferPad (h : Kept b s) (a : Nat) (bs : List Byte) : Goes b (bufferPad a bs s) :=
  Safe.ite (fun _ => h) fun _ => Kept.pushEffect (h.mod rfl fun x => x) (tidy_silent rfl)

end Kept

end Sys2Proof.Proofs
end

