-- ==== Sys2Proof/Proofs/KeptEngine.lean ====
section
/-! PROOFS. Stores, units that commit, copies, leases and rings keep what a step keeps (O60). -/

namespace Sys2Proof.Proofs

open Sys2Proof Sys2Proof.Machine Sys2Proof.Claims

namespace Bound

/-- What is known of the context that acts, and which bytes a step may write: all but for a task, which writes its fault report. -/
def Knows : Bound → Nat → Prop
  | .event, _ => True
  | .task _ n, k => k ≤ n
def Writes : Bound → Nat → Nat → Prop
  | .event, _, _ => True
  | .task st _, pa, n => ∃ c x e, st.cap? st.hart.cap = some c ∧ reportExtent c = some (x, e) ∧ pa = e.base ∧ n ≤ 512

end Bound

namespace Kept

variable {b : Bound} {s : State}

/-- A task's instruction runs in a task. -/
theorem task {st : State} {n : Nat} (h : Kept (.task st n) s) (one : 1 ≤ n) : s.hart.kind = .task ∧ s.hart.cap = st.hart.cap :=
  h.harts.acting.2.1 one

theorem modHart {id : Nat} {f : Hart → Hart} (h : Kept b s) (tidy : ∀ x, TidyHart x → TidyHart (f x)) (same : ∀ x, who (f x) = who x)
    (regs : ∀ x, (f x).r = x.r) : Kept b (s.modHart id f) :=
  { h with
    harts := harts_map (f := fun x => if x.id = id then f x else x) (fun x hx => by split; exacts [tidy x hx, hx])
      (fun x => by split; exacts [same x, rfl]) (fun x => by split; exacts [regs x, rfl]) h.harts }

/-! Units that commit (R198, R201, R261). -/

/-- A context that sees what another unit committed. -/
def seeing (me : Nat) (sig : BitVec 1024) (masks : List (Nat × BitVec 256)) (x : Hart) : Hart :=
  if x.id ≠ me ∧ x.chunk.reads then
    { x with chunk := { x.chunk with since := x.chunk.since ||| sig, padSince := masks.foldl (fun l p => addMask p.1 p.2 l) x.chunk.padSince } }
  else x

theorem publish (h : Kept b s) (me : Nat) (sig : BitVec 1024) (masks : List (Nat × BitVec 256)) : Kept b (publish me sig masks s) := by
  refine { h with harts := harts_map (f := seeing me sig masks) (fun x hx => ?_) (fun x => ?_) (fun x => ?_) h.harts }
  · unfold seeing
    split
    · obtain ⟨r, c, o, e, i, w⟩ := hx
      exact ⟨r, c, o, e, i, w⟩
    · exact hx
  · unfold seeing
    split <;> rfl
  · unfold seeing
    split <;> rfl

theorem settlePoison (h : Kept b s) (part : Nat) (ws : List (Nat × Nat)) : Kept b (settlePoison part ws s) :=
  Kept.foldl _ { h with } fun _ _ _ kept => kept.logPart _ _

theorem settleWords (h : Kept b s) (part : Nat) (at_ : (Nat → Bool) → SramPlace → Bool) (ws : List (Nat × Nat)) : Kept b (settleWords part at_ ws s) :=
  { h.meetSram part _ with }

theorem settlePad (h : Kept b s) (part core : Nat) (ws : List (Nat × Nat)) : Kept b (settlePad part core ws s) :=
  Kept.foldl _ { h.settleWords part _ ws with } fun _ _ _ kept => kept.logPart _ _

theorem cleanBuffer (h : Kept b s) (cl : Nat) (ws : List (Nat × Nat)) : Kept b (cleanBuffer cl ws s) := { h with }

theorem settleBuffer (h : Kept b s) (part cl : Nat) (ws : List (Nat × Nat)) : Kept b (settleBuffer part cl ws s) :=
  Kept.foldl _ ((h.settleWords part _ ws).cleanBuffer cl ws) fun _ _ _ kept => kept.logPart _ _

theorem markDirty (h : Kept b s) (x : Hart) (pa n : Nat) : Kept b (markDirty x pa n s) := by
  refine ite (fun _ => h) fun _ => h.foldl _ fun t l _ kept => { kept with dirty := fun d hd => ?_ }
  obtain hd | hd := List.mem_append.mp hd
  · exact kept.dirty d hd
  · rw [List.mem_singleton.mp hd]
    dsimp only
    split
    · exact Memory.window_wf _ _ _
    · rfl

theorem bytes_write {m : Memory} {pa : Nat} {bs : List Byte} (may : b.Writes pa bs.length) (old : m.wf = true ∧ b.Bytes m) :
    (m.writeBytes pa bs).wf = true ∧ b.Bytes (m.writeBytes pa bs) := by
  refine ⟨Memory.writeBytes_wf _ _ old.1, ?_⟩
  cases b with
  | event => trivial
  | task st n =>
    obtain ⟨c, x, e, at_, report, rfl, short⟩ := may
    intro a apart
    rw [Memory.read_writeBytes_other _ _ (by have := apart c x e at_ report; omega)]
    exact old.2 a apart

theorem triggered {pa n : Nat} {q : Queue} (h : q.slots.wf = true) : (triggerWatch pa n q).slots.wf = true := by
  unfold triggerWatch
  dsimp only
  split <;> exact h

theorem putMem (h : Kept b s) {x : Hart} {pa : Nat} {bs : List Byte} (may : b.Writes pa bs.length) : Kept b (putMem x pa bs s) := by
  refine ite (fun _ => h) fun _ => ?_
  refine { h.markDirty x pa bs.length with mem := bytes_write may h.mem, queues := List.forall_mem_map.mpr fun q hq => triggered (h.queues q hq) }

theorem writeUnit (h : Kept b s) {x : Hart} {part pa : Nat} {bs : List Byte} (may : b.Writes pa bs.length) : Kept b (writeUnit x part pa bs s) :=
  ite (fun _ => h) fun _ => (((h.readLines part pa _).putMem may).settlePoison _ _).publish _ _ _

/-! Stores. -/

theorem storeAt (h : Kept b s) (one : b.Knows 1) (pa : Nat) (bs : List Byte) : Goes b (storeAt pa bs s) := by
  unfold Machine.storeAt
  split
  · exact h.bufferStore pa bs
  · next firmware =>
    cases b with
    | event => exact Safe.ite (fun _ => h) fun _ => Safe.bind (h.awaitUnits pa _) fun t kept => kept.writeUnit trivial
    | task st n => exact absurd firmware (by rw [(h.task one).1]; nofun)
  · exact { h with saffron := ⟨Memory.writeBytes_wf _ _ h.saffron.1, h.saffron.2⟩ }

theorem storePad (h : Kept b s) (a : Nat) (bs : List Byte) : Goes b (storePad a bs s) :=
  Safe.ite (fun _ => h.bufferPad a bs) fun _ => (h.settlePad _ _ _).modCore fun ⟨pad, rest⟩ => ⟨Memory.writeBytes_wf _ _ pad, rest⟩

theorem reachTask (h : Kept b s) (a : Word) (n : Nat) (use : Use) : Reads b (reachTask a n use s) :=
  Safe.bind (h.checkAccess a n use) fun _ _ => h.reach a n use

theorem storeParts (h : Kept b s) (one : b.Knows 1) (use : Use) (ps : List (Word × Nat)) (bs : List Byte) : Goes b (storeParts use ps bs s) := by
  induction ps generalizing s bs with
  | nil => exact h
  | cons p ps ih =>
    exact Safe.bind (h.reach p.1 p.2 use) fun x at_ => Safe.bind (at_.storeAt one x.1 _) fun t kept => ih (kept.markWritten p.1 p.2) _

theorem store (h : Kept b s) (one : b.Knows 1) (a : Word) (bs : List Byte) (use : Use) : Goes b (store a bs use s) := h.storeParts one use _ bs

/-! Rings, channels and copies. -/

theorem modRing (h : Kept b s) (cl n : Nat) (f : Ring → Ring) : Kept b (modRing cl n f s) := h.setRings _
theorem modChan (h : Kept b s) (cl n : Nat) (f : Chan → Chan) : Kept b (modChan cl n f s) := h.setChans _
theorem releaseRegions (h : Kept b s) (c : Copy) : Kept b (releaseRegions c s) := h.modCore fun x => x
theorem freeChan (h : Kept b s) (cl : Nat) (c : Copy) : Kept b (freeChan cl c s) := h.modChan _ _ _

theorem scrubBuffer (h : Kept b s) (cl a n : Nat) : Kept b (scrubBuffer cl a n s) :=
  Kept.cleanBuffer (h.modCluster rfl fun ⟨buffer, rest⟩ => ⟨Memory.clear_wf _ _ buffer, rest⟩) _ _

theorem cancelCopy (h : Kept b s) (cl : Nat) (c : Copy) : Kept b (cancelCopy cl c s) := by
  have scrubbed : ∀ {p : Prop} [Decidable p] (a n : Nat), Kept b (if p then Machine.scrubBuffer cl a n s else s) :=
    fun a n => ite (fun _ => h.scrubBuffer cl a n) fun _ => h
  exact Kept.freeChan (Kept.releaseRegions (ite (fun _ => (scrubbed _ _).modRing _ _ _) fun _ => scrubbed _ _) c) cl c

theorem cancelCopyIns (h : Kept b s) (p : Copy → Bool) : Kept b (cancelCopyIns p s) :=
  h.foldl _ fun _ cl _ kept => kept.foldl _ fun _ c _ kept => kept.cancelCopy cl c

/-! Leases. -/

/-- A context with another lease. -/
def leased (lease : Hart → BitVec 128) (rebind : Hart → Option Rebind) (x : Hart) : Hart := { x with lease := lease x, rebind := rebind x }

theorem modLeased (h : Kept b s) (id : Nat) (lease : Hart → BitVec 128) (rebind : Hart → Option Rebind) :
    Kept b (s.modHart id (leased lease rebind)) := h.modHart (fun _ x => x) (fun _ => rfl) fun _ => rfl

theorem bindRings (h : Kept b s) (cl id mask : Nat) : Kept b (bindRings cl id mask s) := by
  unfold Machine.bindRings
  exact Kept.modLeased (h.setRings _) id (fun _ => BitVec.ofNat 128 (mask * 2 ^ 112 + 1)) Hart.rebind

theorem bindLease (h : Kept b s) (cl id mask : Nat) : Kept b (bindLease cl id mask s) := by
  have bound := h.bindRings cl id mask
  unfold Machine.bindLease
  split
  · exact bound
  · next r _ => exact Kept.modLeased (bound.setRings _) id (fun x => leaseSet x.lease 111 96 (leaseRstr r.lease)) fun _ => none

theorem bindWaiters (h : Kept b s) (cl : Nat) : Kept b (bindWaiters cl s) :=
  h.foldl _ fun _ _ _ kept => ite (fun _ => (kept.bindLease cl _ _).modCluster rfl fun x => x) fun _ => kept

/-- What a cluster holds of a lease goes. -/
theorem dropLease (h : Kept b s) (cl : Nat) (rings : Cluster → Vector Ring 16) (keys : Cluster → List KeySlot) (grant : Cluster → Option Nat)
    (requests batch : Cluster → List Nat) : Kept b (s.modCluster cl fun c =>
      { c with rings := rings c, keys := keys c, grant := grant c, requests := requests c, batch := batch c }) := h.modCluster rfl fun x => x

theorem endLease (h : Kept b s) : Kept b (endLease s) := by
  refine ite (fun _ => ?_) fun _ => h
  refine Kept.bindWaiters (Kept.mod (Kept.dropLease (Kept.foldl _ (h.foldl _ fun _ c _ kept => kept.cancelCopy _ c) fun t i _ kept => ?_) _ _ _ _ _ _) rfl fun x => x) _
  exact ite (fun _ => kept.scrubBuffer _ _ _) fun _ => kept

/-! What a discard and the end of a context undo. -/

theorem releaseOne (h : Kept b s) (core : Nat) : Kept b (releaseOne core s) := by
  unfold Machine.releaseOne
  split
  · exact h
  · exact ite (fun _ => Kept.wakeFootprint (h.modCore fun x => x) _) fun _ => h

theorem releaseCore (h : Kept b s) (core : Nat) : Kept b (releaseCore core s) := by
  unfold Machine.releaseCore
  split
  · exact (h.releaseOne core).releaseOne _
  · exact h.releaseOne core

theorem settleQueries (h : Kept b s) (id fate : Nat) : Kept b (settleQueries id fate s) := { h with }

theorem ports_map {k : Core} {f : PortEntry → PortEntry} (same : ∀ e, (f e).msg = e.msg) (h : TidyCore k) :
    TidyCore { k with ports := k.ports.map fun q => q.map f } := by
  obtain ⟨pad, rows, inbox, ports⟩ := h
  refine ⟨pad, rows, inbox, fun i => ?_⟩
  rw [show (k.ports.map fun q => q.map f).get i = (k.ports.get i).map f from by simp [Vector.get_eq_getElem]]
  exact List.forall_mem_map.mpr fun e he => same e ▸ ports i e he

/-- A context without its open chunk. -/
def discarded (x : Hart) : Hart :=
  { x with inflight := [], owed := Vector.replicate 16 0, wload := false, request := none, times := [],
           chunk := { Chunk.reset with squashes := x.chunk.squashes, exclusive := x.chunk.exclusive } }

theorem tidy_discarded {x : Hart} : TidyHart x → TidyHart (discarded x) := fun ⟨regs, ckpt, report, _, _, run⟩ =>
  ⟨regs, ckpt, report, List.forall_mem_nil _, List.forall_mem_nil _, run⟩

/-- What a cluster holds of a chunk goes. -/
theorem dropChunk (h : Kept b s) (cl : Nat) (rings : Cluster → Vector Ring 16) {live : Product → Product} (same : ∀ p, (live p).data = p.data)
    (requests : Cluster → List Nat) (waits : Cluster → List (Nat × BitVec 16 × Nat)) : Kept b (s.modCluster cl fun c =>
      { c with rings := rings c, products := c.products.map live, requests := requests c, leaseWait := waits c }) :=
  h.modCluster rfl fun ⟨buffer, mmu, park, products⟩ => ⟨buffer, mmu, park, List.forall_mem_map.mpr fun p hp => by
    rw [same]
    exact products p hp⟩

theorem discardChunk (h : Kept b s) : Kept b (discardChunk s) := by
  have cancelled := h.foldl ((s.cluster s.here).copies.filter fun c => c.hart == s.hart.id && c.mode.isIn && c.chunk == s.hart.commits)
    fun _ c _ kept => kept.cancelCopy s.here c
  have dead := cancelled.dropChunk s.here (fun c => Vector.ofFn fun i => let r := c.rings.get i; if r.owner = some s.hart.id then { r with taken := 0 } else r)
    (live := fun p => if p.hart = s.hart.id then { p with live := false } else p) (fun p => by split <;> rfl) (fun c => c.requests.filter (· != s.hart.id))
    fun c => c.leaseWait.filter fun w => w.1 != s.hart.id
  have given := dead.mapCores (f := fun k => { k with
    ports := k.ports.map fun q => q.map fun e => if e.taken = some s.hart.id then { e with taken := none } else e }) fun k hk =>
      ports_map (fun e => by split <;> rfl) hk
  exact (given.settleQueries s.hart.id 2).mod (f := discarded) rfl tidy_discarded

theorem restoreCheckpoint (h : Kept b s) : Kept b (restoreCheckpoint s) :=
  h.mod rfl fun ⟨_, ckpt, report, effects, inflight, _⟩ => ⟨ckpt, ckpt, report, effects, inflight, ne_cont (by
    dsimp only
    split <;> rfl)⟩

theorem squash (h : Kept b s) : Kept b (squash s) := by
  have counted := h.discardChunk.restoreCheckpoint.mod (f := fun x => { x with chunk := { x.chunk with
    squashes := (Machine.restoreCheckpoint (Machine.discardChunk s)).hart.chunk.squashes + 1
    exclusive := decide (3 ≤ (Machine.restoreCheckpoint (Machine.discardChunk s)).hart.chunk.squashes + 1) } }) rfl fun x => x
  exact { counted with }

end Kept

end Sys2Proof.Proofs
end

