-- ==== Sys2Proof/Proofs/KeptOps.lean ====
section
/-! PROOFS. Faults, aborts and the issue of an instruction keep what a step keeps (O60). -/

namespace Sys2Proof.Proofs

open Sys2Proof Sys2Proof.Machine Sys2Proof.Claims

/-! Reports and the rows of a core. -/

theorem foldl_wf {α : Type} {f : Memory → α → Memory} (step : ∀ m x, m.wf = true → (f m x).wf = true) (l : List α) {m : Memory} (h : m.wf = true) :
    (l.foldl f m).wf = true := foldl_keeps (P := fun m : Memory => m.wf = true) (fun m x => step m x) l h

theorem taskFields_wf {site : Site} {s : State} {rst : BitVec 512} {m : Memory} (h : m.wf = true) : (taskFields site s rst m).wf = true := by
  refine foldl_wf (fun m i hm => Memory.writeLE_wf _ _ _ hm) _ ?_
  repeat' apply Memory.writeLE_wf
  exact h

theorem faultReport_wf (site : Site) (code : Nat) (detail : Word) (s : State) : (faultReport site code detail s).wf = true :=
  taskFields_wf (commonFields_wf ..)

theorem bareReport_wf (s : State) (cap code : Nat) (detail : Word) : (bareReport s cap code detail).wf = true :=
  Memory.writeLE_wf _ _ _ (commonFields_wf ..)

theorem putTile_wf {table : Vector (BitVec 32) 16} {core p : Nat} {data rows : Memory} (h : rows.wf = true) : (putTile table core p data rows).wf = true :=
  foldl_wf (fun _ _ hm => Memory.write_wf _ _ hm) data (Memory.filter_wf _ h)

/-! Levels. -/

theorem at_low (b : Bound) (n : Nat) : (b.at_ n).low = b.low := by cases b <;> rfl

/-- The capsules of a task's step keep their extents. -/
theorem caps_find {cs ds : List Capsule} {id : Nat} {c : Capsule} (same : cs.map (fun c => (c.id, c.exts)) = ds.map fun c => (c.id, c.exts))
    (h : cs.find? (fun c => c.id == id) = some c) : ∃ d, ds.find? (fun c => c.id == id) = some d ∧ d.exts = c.exts := by
  induction cs generalizing ds with
  | nil => exact nomatch h
  | cons x xs ih =>
    cases ds with
    | nil => exact nomatch same
    | cons y ys =>
      simp only [List.map_cons, List.cons.injEq, Prod.mk.injEq] at same
      obtain ⟨⟨ids, exts⟩, rest⟩ := same
      rw [List.find?_cons] at h ⊢
      rw [← ids]
      cases here : x.id == id with
      | true => rw [here] at h; exact ⟨y, rfl, exts ▸ Option.some.inj h ▸ rfl⟩
      | false => rw [here] at h; exact ih rest h

namespace Kept

variable {b : Bound} {s : State}

theorem down (h : Kept (b.at_ 2) s) : Kept (b.at_ 1) s := by
  cases b with
  | event => exact h
  | task st n =>
    obtain ⟨tidy, seen, ⟨mine, task, -⟩, rest⟩ := h.harts
    exact ⟨⟨tidy, seen, ⟨mine, fun _ => task (by decide), fun two => absurd two (by decide)⟩, rest⟩, h.mem, h.host, h.cores, h.clusters, h.net,
      h.heldx, h.caps, h.reports, h.queues, h.parts, h.saffron, h.seals, h.dirty⟩

/-- A capsule's fault report is what a task's step may write. -/
theorem writes_report (h : Kept b s) {id x : Nat} {c : Capsule} {e : Extent} (own : b.Own id) (at_ : s.cap? id = some c)
    (report : reportExtent c = some (x, e)) {n : Nat} (short : n ≤ 512) : b.Writes e.base n := by
  cases b with
  | event => trivial
  | task st l =>
    obtain ⟨d, there, exts⟩ := caps_find h.caps.2 at_
    refine ⟨d, x, e, (own : id = st.hart.cap) ▸ there, ?_, rfl, short⟩
    unfold reportExtent at report ⊢
    rw [exts]
    exact report

/-! The end of a context and of a capsule. -/

theorem deviceStore (h : Kept b s) {cap part pa : Nat} {bs : List Byte} (may : b.Writes pa bs.length) : Kept b (deviceStore cap part pa bs s) :=
  Kept.writeUnit ((h.noteUse _).startExit _) may

theorem deviceWrite (h : Kept b s) {cap pa : Nat} {bs : List Byte} (may : b.Writes pa bs.length) : Kept b (deviceWrite cap pa bs s) := h.deviceStore may

theorem leaveRows (h : Kept b s) : Kept b (leaveRows s) :=
  ite (fun _ => h) fun _ => h.modCore fun ⟨pad, rows, rest⟩ => ⟨pad, foldl_wf (fun _ _ hm => putTile_wf hm) _ rows, rest⟩

theorem endContext (h : Kept b s) : Kept b (endContext s) := by
  have left := h.discardChunk.endLease.leaveRows
  have ended : Kept b { Machine.leaveRows (Machine.endLease (Machine.discardChunk s)) with
      hart := { (Machine.leaveRows (Machine.endLease (Machine.discardChunk s))).hart with run := .ended },
      tokens := (Machine.leaveRows (Machine.endLease (Machine.discardChunk s))).tokens.filter
        (· != tokenOf { (Machine.leaveRows (Machine.endLease (Machine.discardChunk s))).hart with run := .ended }) } :=
    { left with harts := harts_mod (f := fun x => { x with run := .ended }) (tidy_ran rfl rfl) rfl left.harts }
  refine Kept.releaseCore ?_ _
  exact ended.modCap (fun _ => rfl) fun _ x => x

theorem stopContext (h : Kept b s) : Kept b (stopContext s) := (h.cancelCopyIns _).endContext

theorem tidy_filter {α : Type} {P : α → Prop} {l : List α} {p : α → Bool} (h : ∀ x ∈ l, P x) : ∀ x ∈ l.filter p, P x :=
  fun x hx => h x (List.mem_of_mem_filter hx)

theorem dropMessages (h : Kept b s) (cap : Nat) : Kept b (dropMessages cap s) := by
  refine { h with
    net := tidy_filter h.net
    clusters := clusters_map (f := fun k => { k with park := k.park.filter fun m => m.cap != cap }) (fun _ ⟨o, m, park, d⟩ => ⟨o, m, tidy_filter park, d⟩)
      (fun _ => rfl) h.clusters
    cores := List.forall_mem_map.mpr fun k hk => ?_ }
  split
  · obtain ⟨pad, rows, inbox, ports⟩ := h.cores k hk
    exact ⟨pad, rows, tidy_filter inbox, ports⟩
  · exact h.cores k hk

theorem abortCapsule (h : Kept b s) {cap code : Nat} {rep : Memory} (own : b.Own cap) (wf : rep.wf = true) : Kept b.low (abortCapsule cap code rep s) := by
  unfold Machine.abortCapsule
  split
  · exact h.low
  · next c at_ =>
    split
    · exact h.low.modCap (fun _ => rfl) fun _ x => x
    · have quiet := (h.dropMessages cap).cancelCopyIns fun c => c.cap == cap
      have ended := quiet.onHarts (quiet.may_hartsOf own) fun t kept => kept.endContext
      have closed := ended.modCap (id := cap) (f := fun c =>
        { c with state := .ending code, joins := [], preempt := [], launch := none, report := (reportExtent c).isSome }) (fun _ => rfl) fun _ hc => ⟨hc.1, none_tidy⟩
      split
      · next x e report =>
        have may := h.writes_report own at_ report (n := (rep.readBytes 0 512).length) (by rw [readBytes_length])
        exact Kept.deviceWrite (closed.addReport wf _) (by cases b <;> exact may)
      · exact closed

theorem own_cap (h : Kept (b.at_ 1) s) : (b.at_ 1).Own s.hart.cap := by
  cases b with
  | event => trivial
  | task st n => exact (h.task (Nat.le_refl 1)).2

theorem capsuleFault (h : Kept (b.at_ 1) s) (site : Site) (code : Code) (detail : Word) : Kept b.low (capsuleFault site code detail s) :=
  at_low b 1 ▸ h.abortCapsule h.own_cap (faultReport_wf ..)

/-! Faults of a task. -/

theorem low_at (b : Bound) : b.low = b.at_ 0 := rfl

/-- A context that restarts with its redelivery counted. -/
def redelivered (rep : Memory) (x : Hart) : Hart :=
  { x with rdl := x.rdl + 1, report := rep, ckpt := withRdl x.ckpt (x.rdl + 1), chunk := { x.chunk with exclusive := false } }

theorem tidy_redelivered {rep : Memory} {x : Hart} (wf : rep.wf = true) : TidyHart x → TidyHart (redelivered rep x) :=
  fun ⟨regs, ckpt, _, effects, inflight, run⟩ => ⟨regs, ckpt, wf, effects, inflight, run⟩

theorem dropToken (h : Kept b s) : Kept b { s with tokens := s.tokens.filter (· != tokenOf s.hart) } := { h with }

theorem rollback (h : Kept (b.at_ 1) s) (site : Site) (code : Code) (detail : Word) : Kept b.low (rollback site code detail s) := by
  have logged := h.logPart s.partition { code := code.num, kind := 0, core := s.hart.core, queue := s.queueNo, detail := detail, ctag := s.ctag }
  have again := logged.discardChunk.dropToken.mod (f := redelivered (faultReport site code.num detail s)) rfl (tidy_redelivered (faultReport_wf ..))
  exact ite (fun _ => logged.capsuleFault _ _ _) fun _ => at_low b 1 ▸ again.restoreCheckpoint.low

theorem squashPair (h : Kept (b.at_ 2) s) : Kept b.low (Machine.onPair Machine.squash s) :=
  h.onPair fun _ kept => at_low b 1 ▸ kept.squash.low

theorem pairMismatch (h : Kept (b.at_ 2) s) (site : Site) : Kept b.low (pairMismatch site s) :=
  ite (fun _ => ite (fun _ => h.squashPair) fun _ => h.down.free.capsuleFault _ _ _) fun _ =>
    h.onPair fun _ kept => at_low b 1 ▸ Kept.low (Kept.restoreCheckpoint (Kept.mod kept.discardChunk rfl fun x => x))

theorem rollbackAll (h : Kept (b.at_ 2) s) (site : Site) (code : Code) (detail : Word) : Kept b.low (rollbackAll site code detail s) :=
  ite (fun _ => h.down.rollback _ _ _) fun _ => h.onPair fun _ kept => kept.rollback _ _ _

theorem takeFault (h : Kept (b.at_ 2) s) (site : Site) (code : Code) (detail : Word) : Kept b.low (takeFault site code detail s) := by
  unfold Machine.takeFault
  split
  · exact at_low b 2 ▸ Kept.low (h.mod rfl (tidy_ran rfl rfl))
  · exact h.rollbackAll _ _ _
  · exact h.down.capsuleFault _ _ _

theorem pairedFault (h : Kept (b.at_ 2) s) (site : Site) (code : Code) (detail : Word) {taken : State → State} (p : Hart)
    (take : Kept b.low (taken s)) : Kept b.low (pairedFault site code detail taken p s) := by
  have waits : Kept b.low (s.mod fun h => { h with run := .pairFault code.num detail, request := some s.clock }) :=
    at_low b 2 ▸ Kept.low (h.mod rfl (tidy_ran rfl rfl))
  unfold Machine.pairedFault
  split
  · exact ite (fun _ => take) fun _ => h.pairMismatch _
  · exact ite (fun _ => h.pairMismatch _) fun _ => waits
  · exact waits

theorem chunkFault (h : Kept (b.at_ 2) s) (site : Site) (code : Code) (detail : Word) {taken : State → State}
    (take : ∀ t, Kept (b.at_ 2) t → Kept b.low (taken t)) : Kept b.low (chunkFault site code detail taken s) := by
  refine ite (fun _ => h.squashPair) fun _ => ?_
  dsimp only
  split
  · exact h.drain.pairedFault _ _ _ _ (take _ h.drain)
  · exact take _ h.drain

theorem taskFault (h : Kept (b.at_ 2) s) (site : Site) (code : Code) (detail : Word) : Kept b.low (taskFault site code detail s) :=
  ite (fun _ => h.takeFault _ _ _) fun _ => h.chunkFault _ _ _ fun _ kept => kept.takeFault _ _ _

/-! Faults of firmware and of Saffron, and taking an exception. -/

theorem firmwareFault (h : Kept .event s) (site : Site) (code : Code) (detail : Word) : Kept .event (firmwareFault site code detail s) := by
  refine ite (fun _ => ?_) fun _ => ?_
  · have halted := h.mod (f := fun x => { x with run := .halted }) rfl (tidy_ran rfl rfl)
    exact { halted with }
  · exact Kept.mod (h.changeCluster fun x => x) rfl fun ⟨r, c, o, e, i, _⟩ => ⟨r, c, o, e, i, ne_cont rfl⟩

theorem saffronFault (h : Kept .event s) (site : Site) (code : Code) (detail : Word) : Kept .event (saffronFault site code detail s) := by
  refine ite (fun _ => ?_) fun _ => ?_
  · have halted := h.mod (f := fun x => { x with run := .halted }) rfl (tidy_ran rfl rfl)
    exact { halted with }
  · have faulted : Kept .event { s.free.2 with saffron := { s.free.2.saffron with fwcode := word code.num, fwpc := site.pc.getD s.hart.r.pc, fwdetail := detail } } :=
      { h.free with }
    exact faulted.mod rfl fun ⟨r, c, o, e, i, _⟩ => ⟨r, c, o, e, i, ne_cont rfl⟩

theorem raise (h : Kept (b.at_ 2) s) (site : Site) (code : Code) (detail : Option Word) : Kept b.low (raise site code detail s) := by
  have known : ∀ {d : Word} {t : State}, Kept (b.at_ 2) t → Kept b.low (match t.hart.kind with
      | .task => Machine.taskFault site code d t
      | .firmware => Machine.firmwareFault site code d t
      | .saffron => Machine.saffronFault site code d t) := by
    intro d t kept
    cases b with
    | event =>
      split
      · exact kept.taskFault (b := .event) _ _ _
      · exact kept.firmwareFault _ _ _
      · exact kept.saffronFault _ _ _
    | task st n =>
      rw [(kept.task (by decide)).1]
      exact kept.taskFault (b := .task st n) _ _ _
  unfold Machine.raise
  cases detail with
  | some d => exact known h
  | none => exact known h.free

end Kept

/-! Issue. -/

/-- An answer after which the state is kept. -/
def Ends (b : Bound) (a : Answer) : Prop := ∀ t, a = .next t → Kept b t

theorem Ends.event {f : State → State} {s : State} {b : Bound} (h : Kept b (f s)) : Ends b (event f s) := fun _ e => Host.Outcome.next.inj e ▸ h

namespace Kept

variable {b : Bound} {s : State}

theorem present (h : Kept b s) (x : Src) : Goes b (present x s) := by
  have empty : ∀ (wait : Bool) (w : Wait), Goes b (if wait then Except.error (.fault .emptyRead none (Machine.setFlags { emt := true } s)) else .error (.wait w s) : Run State) :=
    fun wait w => Safe.ite (fun _ => h.setFlags _) fun _ => h
  unfold Machine.present
  split
  · exact Safe.ite (fun _ => h) fun _ => empty _ _
  · exact Safe.ite (fun _ => h.meetTile _) fun _ => empty _ _
  · exact Safe.ite (fun _ => h.meetWhole _) fun _ => empty _ _
  · exact Safe.ite (fun _ => h) fun _ => empty _ _
  · exact Safe.ite (fun _ => h.meetWhole _) fun _ => h

theorem presentAll (h : Kept b s) (xs : List Src) : Goes b (presentAll xs s) := by
  induction xs generalizing s with
  | nil => exact h
  | cons x xs ih => exact Safe.bind (h.present x) fun t kept => ih kept

theorem withFinds {t : State} (h : Kept b s) (k : Kept b t) : Kept b (withFinds s t) := { h with parts := k.parts }

theorem stopWhole (h : Kept b s) {r : Run State} (k : Goes b r) : Goes b (stopWhole s r) := by
  unfold Machine.stopWhole
  split
  · next c d t =>
    refine Safe.ite (fun _ => k) fun _ => ?_
    have flagged := (h.withFinds k).modRegs (f := fun r => { r with flg := t.hart.r.flg }) fun old x => old x
    exact { flagged with saffron := h.saffron }
  · next w t => exact ite (fun _ => k) fun _ => h.withFinds k
  · exact k

theorem perform (h : Kept b s) {o : Op} (body : ∀ t, Kept b t → Goes b (o.body t)) : Goes b (perform o s) :=
  h.stopWhole (Safe.ite (fun _ => h) fun _ => Safe.ite (fun _ => h) fun _ => Safe.ite (fun _ => h) fun _ => Safe.ite (fun _ => h) fun _ =>
    Safe.bind (h.presentAll o.srcs) body)

theorem advance (h : Kept b s) (n : Nat) : Kept b (advance n s) := h.modRegs fun old x => old x
theorem countIssue (h : Kept b s) : Kept b (countIssue s) := ite (fun _ => h.mod rfl fun x => x) fun _ => h

theorem block (h : Kept b s) (w : Wait) : Kept b (block w s) := h.mod rfl (tidy_ran rfl rfl)

theorem wake (h : Kept b s) : Kept b (wake s) := by
  unfold Machine.wake
  split
  · exact h.mod rfl (tidy_ran rfl rfl)
  · exact h

/-- What an attempt does beyond the instruction's own checks and effect. -/
theorem attempted {o : Op} (performs : Goes b (Machine.perform o s)) : Goes b (attempt o s) :=
  Safe.bind performs fun _ kept => ite (fun _ => ite (fun _ => kept.wake.countIssue) fun _ => kept.wake) fun _ =>
    (ite (fun _ => kept.wake.countIssue) fun _ => kept.wake).advance 4

theorem attempt (h : Kept b s) {o : Op} (body : ∀ t, Kept b t → Goes b (o.body t)) : Goes b (Machine.attempt o s) := attempted (h.perform body)

theorem settle {r : Run State} (k : Goes (b.at_ 2) r) (site : Site) : Ends b.low (settle site r) := by
  intro _ e
  cases r with
  | ok u => cases e; exact at_low b 2 ▸ Kept.low k
  | error x =>
    cases x with
    | fault c d u => cases e; exact Kept.raise k _ _ _
    | wait w u => cases e; exact at_low b 2 ▸ Kept.low (Kept.block k w)
    | stop f => exact nomatch e

theorem issue (h : Kept (b.at_ 2) s) {i : Instr} {o : Op} (body : ∀ t, Kept (b.at_ 2) t → Goes (b.at_ 2) (o.body t)) : Ends b.low (issue i o s) :=
  settle (h.attempt body) _

theorem serviceResults (h : Kept b s) : Kept b (serviceResults s) := h.foldl _ fun _ _ _ kept => kept.free.writeS _ _

end Kept

end Sys2Proof.Proofs
end

