-- ==== Sys2Proof/Proofs/KeptControl.lean ====
section
/-! PROOFS. Fetches, safe points and control keep what a step keeps (O60). -/

namespace Sys2Proof.Proofs

open Sys2Proof Sys2Proof.Machine Sys2Proof.Claims

/-- The body of an instruction keeps what is kept. -/
def Keeps (b : Bound) (o : Op) : Prop := ∀ t, Kept b t → Goes b (o.body t)

namespace Kept

variable {b : Bound} {s : State}

/-! Runs that check. -/

theorem faultAt (h : Kept b s) {α : Type} {P : α → Prop} (c : Code) (d : Word) : Safe b P (faultAt c d s : Run α) := h
theorem faultOf (h : Kept b s) {α : Type} {P : α → Prop} (c : Code) : Safe b P (faultOf c s : Run α) := h
theorem ensure (h : Kept b s) (p : Bool) (c : Code) : Safe b (fun _ => True) (ensure p c s) := Safe.ite (fun _ => trivial) fun _ => h
theorem ensureAt (h : Kept b s) (p : Bool) (c : Code) (d : Word) : Safe b (fun _ => True) (ensureAt p c d s) := Safe.ite (fun _ => trivial) fun _ => h
theorem setPc (h : Kept b s) (pc : Word) : Kept b (setPc pc s) := h.modRegs fun old x => old x

/-! The read-only path. -/

theorem fillLine (h : Kept b s) (line : Nat) : Kept b (fillLine line s) := by
  unfold Machine.fillLine
  dsimp only
  split
  · exact h.modCluster rfl fun x => x
  · exact ite (fun _ => h.free) fun _ => Kept.modCluster h.free rfl fun x => x

theorem readOnly (h : Kept b s) (pa n : Nat) : Reads b (readOnly pa n s) := by
  refine Safe.bind (h.meetLines _ pa n) fun t met => ?_
  split
  · exact met
  · exact met
  · exact met.foldl _ fun _ l _ kept => kept.fillLine l

theorem loadRo (h : Kept b s) (a : Word) (n : Nat) (use : Use) : Reads b (loadRo a n use s) := by
  unfold Machine.loadRo
  split
  · exact Safe.bind (h.reach a n use) fun p kept => kept.readOnly p.1 n
  · exact h.load a n use

theorem refreshCopies (h : Kept b s) (cl cap : Nat) : Kept b (refreshCopies cl cap s) := h.modCluster rfl fun x => x

theorem dropLines (h : Kept b s) (pa n : Nat) : Kept b (dropLines pa n s) := by
  refine Kept.mapParked (Kept.modCluster h rfl fun x => x) (fun x hx => ?_) (fun x => ?_) fun x => ?_
  all_goals unfold dropFetched
  · split
    · obtain ⟨r, c, o, e, i, w⟩ := hx
      exact ⟨r, c, o, e, i, w⟩
    · exact hx
  · split <;> rfl
  · split <;> rfl

theorem fetchWord (h : Kept b s) (pc : Word) : Reads b (fetchWord pc s) := Safe.bind (h.loadRo _ 4 .exec) fun _ kept => kept

theorem issueWord (h : Kept b s) (pc : Word) : Reads b (issueWord pc s) := by
  unfold Machine.issueWord
  split
  · exact h
  · exact Safe.bind (h.fetchWord pc) fun ⟨w, _⟩ kept => Kept.mod (f := fun h => { h with fetched := (pc, w) :: h.fetched }) kept rfl fun x => x

theorem startIssue (h : Kept b s) : Kept b (startIssue s) := by
  unfold Machine.startIssue
  split
  · exact h
  · exact h.mod rfl fun x => x

theorem fetch (h : Kept b s) : Safe b (fun p => Kept b p.2.2) (fetch s) := Safe.bind (h.issueWord _) fun _ kept => kept

/-! Safe points. -/

/-- A context in another state of its run, which is no commit of a message. -/
theorem tidy_run {x y : Hart} (regs : TidyRegs x.r → TidyRegs y.r) (same : y.ckpt = x.ckpt ∧ y.report = x.report ∧ y.chunk.effects = x.chunk.effects ∧
    y.inflight = x.inflight) (run : ∀ m, y.run ≠ .committing (.cont m)) : TidyHart x → TidyHart y := by
  obtain ⟨ckpt, report, effects, inflight⟩ := same
  rintro ⟨r, c, o, e, i, -⟩
  exact ⟨regs r, ckpt ▸ c, report ▸ o, effects ▸ e, inflight ▸ i, fun m eq => absurd eq (run m)⟩

theorem noRoom (h : Kept b s) : Kept b (noRoom s) := by
  unfold Machine.noRoom
  exact Kept.mod (h.logPart _ _) rfl fun x => x

theorem trySafe (h : Kept b s) (mask : BitVec 16) (pc : Word) (wait : Option Wait) : Kept b (trySafe mask pc wait s) := by
  unfold Machine.trySafe
  split
  · exact h
  · exact h.noRoom
  · exact h.mod rfl (tidy_ran rfl rfl)

theorem afterSafe_runs (wait : Option Wait) (m : Msg) : afterSafe wait ≠ .committing (.cont m) := by
  unfold afterSafe
  split <;> nofun

theorem tidyMsg_plain {m : Msg} (h : m.tile = none) : TidyMsg m := fun d v eq => by rw [h] at eq; exact nomatch eq

theorem tidy_sent {l : List Msg} {m : Msg} (old : ∀ x ∈ l, TidyMsg x) (plain : m.tile = none) : ∀ x ∈ l ++ [m], TidyMsg x :=
  tidy_push old (tidyMsg_plain plain)

theorem deviceWrite_event (h : Kept .event s) (cap pa : Nat) (bs : List Byte) : Kept .event (Machine.deviceWrite cap pa bs s) := h.deviceWrite trivial

theorem suspend (h : Kept b s) {m : Msg} (plain : m.tile = none) (l : List Suspended) : Kept b { s with net := s.net ++ [m], suspended := l } :=
  { h with net := tidy_sent h.net plain }

theorem writeRecord (h : Kept .event s) (x : Nat) (e : Extent) (off : Nat) (image : Memory) (len : Nat) (bound paired : Bool) :
    Kept .event (writeRecord x e off image len bound paired s) := by
  have stored := (h.deviceWrite_event s.hart.cap (e.base + off) (image.readBytes 0 len)).deviceWrite_event s.hart.cap e.base
    (leBytes 8 (off + len) ++ leBytes 8 (s.mem.readLE (e.base + 8) 8 + 1))
  exact ite (fun _ => Kept.modCore (stored.suspend rfl _) fun x => x) fun _ => stored.suspend rfl _

/-- A core without queued entries. -/
theorem tidy_emptied {k : Core} : TidyCore k → TidyCore { k with ports := Vector.replicate 4 [] } := fun ⟨pad, rows, inbox, _⟩ =>
  ⟨pad, rows, inbox, fun i => by
    dsimp only
    rw [get_replicate]
    exact List.forall_mem_nil _⟩

theorem finishSafe (h : Kept .event s) (r : Regs) (status : BitVec 128) (rst : BitVec 512) (live : Nat) (pc : Word) (wait : Option Wait) :
    Kept .event (finishSafe r status rst live pc wait s) := by
  unfold Machine.finishSafe
  split
  · exact h
  · dsimp only
    split
    · have goes := h.mod (f := fun x => { x with run := afterSafe wait, r := { x.r with pc := afterPc wait pc } }) rfl
        (tidy_run (fun old x => old x) ⟨rfl, rfl, rfl, rfl⟩ (afterSafe_runs wait))
      exact goes.noRoom
    · refine Kept.stopContext (ite (fun _ => Kept.modCore ?_ fun x => x) fun _ => ?_)
      all_goals exact ite (fun _ => Kept.modCore (h.writeRecord _ _ _ _ _ _ _) tidy_emptied) fun _ => h.writeRecord _ _ _ _ _ _ _

/-! Branches, jumps, the end of a task, WAIT and migration. -/

theorem opScalar (d : SReg) (srcs : List Src) (f : State → Word) : Keeps b (opScalar d srcs f) := fun _ h => h.writeS d _
theorem opBranch (x y : SReg) (j : BitVec 13) (cond : Word → Word → Bool) : Keeps b (opBranch x y j cond) := fun _ h => h.setPc _
theorem opJ (j : BitVec 26) : Keeps b (opJ j) := fun _ h => h.setPc _
theorem opJl (j : BitVec 26) : Keeps b (opJl j) := fun _ h => (h.writeS _ _).setPc _
theorem opJr (a : SReg) (w : Bool) : Keeps b (opJr a w) := fun _ h => h.setPc _
theorem opNop : Keeps b opNop := fun _ h => h

theorem opDone : Keeps b opDone := fun _ h => ite (fun _ => h.mod rfl (tidy_ran rfl rfl)) fun _ => h.advance 4

theorem opCont (x y : SReg) (w v : Bool) : Keeps b (opCont x y w v) := fun _ h =>
  Safe.bind (h.checkAccess _ 4 .exec) fun _ _ => ite (fun _ => h.mod rfl fun ⟨r, c, o, e, i, _⟩ =>
    ⟨r, c, o, e, i, fun m eq => by cases eq; exact tidyMsg_plain rfl⟩) fun _ => h.advance 4

theorem opSafe (m : BitVec 16) : Keeps b (opSafe m) := fun _ h =>
  have zero := h.mod (f := fun x => { x with sdist := 0 }) rfl fun x => x
  ite (fun _ => zero.trySafe _ _ _) fun _ => (zero.trySafe _ _ _).setPc _

theorem opWait (x y : SReg) (w v : Bool) : Keeps b (opWait x y w v) := fun _ h => Safe.ite (fun _ => h) fun _ => h
theorem opMigr : Keeps b opMigr := fun _ h => Safe.ite (fun _ => h.mod rfl (tidy_ran rfl rfl)) fun _ => h
theorem opMret : Keeps b opMret := fun _ h => Safe.ite (fun _ => h.mod rfl (tidy_ran rfl rfl)) fun _ => h

end Kept

end Sys2Proof.Proofs
end

