-- ==== Sys2Proof/Proofs/KeptAccess.lean ====
section
/-! PROOFS. Scalar instructions, memory accesses, the register window and atomics keep what a step keeps (O60). -/

namespace Sys2Proof.Proofs

open Sys2Proof Sys2Proof.Machine Sys2Proof.Claims

namespace Kept

variable {b : Bound} {s : State}

theorem readTime (h : Kept b s) : Kept b (readTime s).2 := by
  unfold Machine.readTime
  split
  · exact h
  · dsimp only
    exact h.mod rfl fun x => x

theorem opTime (d : SReg) : Keeps b (opTime d) := fun _ h => h.readTime.writeS d _

theorem opLoad (n : Nat) (d a : SReg) (w : Bool) (o : BitVec 13) : Keeps b (opLoad n d a w o) := fun _ h =>
  Safe.bind (h.ensure _ _) fun _ _ => Safe.bind (h.load _ n .read) fun _ kept => kept.writeS d _

theorem opStore (one : b.Knows 1) (n : Nat) (d a : SReg) (w : Bool) (o : BitVec 13) : Keeps b (opStore n d a w o) := fun _ h =>
  Safe.bind (h.ensure _ _) fun _ _ => h.store one _ _ _

theorem opLdc (d a : SReg) (w : Bool) (i : Int) : Keeps b (opLdc d a w i) := fun _ h =>
  Safe.bind (h.ensure _ _) fun _ _ => Safe.bind (h.loadRo _ 8 .read) fun _ kept => kept.writeS d _

theorem physicalParts (h : Kept b s) (ps : List (Nat × Nat)) : Safe b (fun _ => True) (physicalParts s ps) := by
  induction ps with
  | nil => trivial
  | cons p ps ih => exact Safe.bind (h.firmwareAccess p.1 p.2 .read) fun _ _ => Safe.bind ih fun _ _ => trivial

theorem cinvRange (h : Kept b s) (x : Word) (n : Nat) : Safe b (fun _ => True) (cinvRange x n s) := by
  unfold Machine.cinvRange
  split
  · exact Safe.bind (h.checkAccess x n .read) fun _ _ => trivial
  · exact h.physicalParts _
  · trivial

theorem opCinv (x y : SReg) (w v : Bool) : Keeps b (opCinv x y w v) := fun _ h =>
  Safe.ite (fun _ => h) fun _ => Safe.bind (h.cinvRange _ _) fun parts _ => h.foldl parts fun _ p _ kept => kept.dropLines p.1 p.2

/-! The register window. -/

theorem settledS (h : Kept b s) (r : SReg) : Safe b (fun _ => True) (settledS r s) := Safe.ite (fun _ => trivial) fun _ => h
theorem settledT (h : Kept b s) (t : TReg) : Safe b (fun _ => True) (settledT t s) := Safe.ite (fun _ => trivial) fun _ => h
theorem settledFlg (h : Kept b s) : Safe b (fun _ => True) (settledFlg s) := Safe.ite (fun _ => h) fun _ => trivial

theorem windowRead (h : Kept b s) (i : Nat) : Safe b (fun _ => True) (windowRead i s) :=
  Safe.ite (fun _ => Safe.bind (h.settledS _) fun _ _ => trivial) fun _ => Safe.ite (fun _ => trivial) fun _ =>
  Safe.ite (fun _ => Safe.bind (h.settledT _) fun _ _ => trivial) fun _ => Safe.ite (fun _ => Safe.bind h.settledFlg fun _ _ => trivial) fun _ =>
  Safe.ite (fun _ => trivial) fun _ =>
  Safe.ite (fun _ => Safe.bind (h.settledT _) fun _ _ => Safe.bind (h.meetTileWords _ _) fun _ _ => trivial) fun _ => h

theorem windowWrite (h : Kept b s) (i : Nat) (v : Word) : Goes b (windowWrite i v s) :=
  Safe.ite (fun _ => Safe.bind (h.settledS _) fun _ _ => h.modRegs fun old x => old x) fun _ => Safe.ite (fun _ => h.modRegs fun old x => old x) fun _ =>
  Safe.ite (fun _ => Safe.bind (h.settledT _) fun _ _ => Safe.bind (h.ensure _ _) fun _ _ => h.modRegs fun old => tidyRegs_set old (old _)) fun _ =>
  Safe.ite (fun _ => Safe.bind h.settledFlg fun _ _ => h.modRegs fun old x => old x) fun _ => Safe.ite (fun _ => h) fun _ =>
  Safe.ite (fun _ => Safe.bind (h.settledT _) fun _ _ => h.modRegs fun old => tidyRegs_set old (Memory.writeLE_wf _ _ _ (old _))) fun _ => h

theorem opLds (d a : SReg) (w : Bool) : Keeps b (opLds d a w) := fun _ h => Safe.bind (h.windowRead _) fun _ _ => h.writeS d _
theorem opSts (x y : SReg) (w v : Bool) : Keeps b (opSts x y w v) := fun _ h => h.windowWrite _ _

/-! Atomics. -/

theorem amoLogged (h : Kept b s) {pa func : Nat} {x y : Word} {done : Bool} :
    Kept b (if s.isTask then Machine.pushEffect (.atomic pa func x y done) s else s) := ite (fun _ => h.pushEffect (tidy_silent rfl)) fun _ => h

theorem opAmo (one : b.Knows 1) (op : AmoOp) (d x y : SReg) (w v wide : Bool) : Keeps b (opAmo op d x y w v wide) := fun _ h =>
  Safe.bind (h.ensure _ _) fun _ _ => Safe.bind (h.reach _ _ .atomic) fun p at_ => Safe.bind (at_.loadAt p.1 _) fun q read => by
    dsimp only
    split
    · exact Safe.bind (read.storeAt one _ _) fun t kept => Kept.produceS (ite (fun _ => Kept.markWritten kept.amoLogged _ _) fun _ => kept.amoLogged) d _ _
    · exact Kept.produceS (ite (fun _ => Kept.markWritten read.amoLogged _ _) fun _ => read.amoLogged) d _ _

theorem applyAmo (h : Kept b s) {x : Hart} {part pa : Nat} {op : AmoOp} {wide : Bool} {opnd : Word}
    (may : ∀ n, b.Writes pa (leBytes (amoWidth wide) n).length) : Kept b (applyAmo x part pa op wide opnd s) := by
  unfold Machine.applyAmo
  dsimp only
  split
  · exact ((h.readLines part pa _).putMem (may _)).settlePoison _ _
  · exact h.readLines _ _ _

theorem opAmoNr (one : b.Knows 1) (op : AmoOp) (x y : SReg) (w v wide : Bool) : Keeps b (opAmoNr op x y w v wide) := fun _ h =>
  Safe.bind (h.ensure _ _) fun _ _ => Safe.bind (h.reach _ _ .atomic) fun p at_ => by
    obtain ⟨pa, t⟩ := p
    dsimp only at at_ ⊢
    split
    · exact ((at_.pushEffect (tidy_silent rfl)).noteWrite _ _).markWritten _ _
    · next firmware =>
      cases b with
      | event => exact Safe.ite (fun _ => at_) fun _ => Safe.bind (at_.awaitUnits pa _) fun u kept => (kept.applyAmo fun _ => trivial).publish _ _ _
      | task st n => exact absurd firmware (by rw [(at_.task one).1]; nofun)
    · exact at_.storeAt one _ _

theorem opFence (e : Effect) (f : Hart → Hart) (plain : TidyEffect e) (same : ∀ x, TidyHart x → TidyHart (f x)) (name : ∀ x, who (f x) = who x) :
    Keeps b (opFence e f) := fun _ h => ite (fun _ => h.pushEffect plain) fun _ => h.mod (name _) (same _)

theorem opGate (x y : SReg) (w v : Bool) : Keeps b (opGate x y w v) := fun _ h =>
  Safe.bind (h.ensure _ _) fun _ _ => Safe.bind (h.reach _ 8 .read) fun p at_ => Safe.bind (at_.loadAt p.1 8) fun _ read =>
    Safe.ite (fun _ => read) fun _ => at_

end Kept

end Sys2Proof.Proofs
end

