-- ==== Sys2Proof/Proofs/KeptMessage.lean ====
section
/-! PROOFS. Messages, ports, join cells, queries and the issue of copies keep what a step keeps (O60). -/

namespace Sys2Proof.Proofs

open Sys2Proof Sys2Proof.Machine Sys2Proof.Claims

theorem trim_wf {m : Memory} (rows rb : Nat) (h : m.wf = true) : (trim rows rb m).wf = true := Memory.filter_wf _ h

theorem tidy_buildMessage {k : MsgKind} {entry dest : Word} {tile : Option (Memory × BitVec 16)} {n : Nat} {s : State}
    (wf : ∀ d v, tile = some (d, v) → d.wf = true) : TidyEffect (.message (buildMessage k entry dest tile n s)) :=
  ⟨fun _ eq => by cases eq; exact wf, fun _ eq => nomatch eq⟩

/-- An entry of a port that is marked as consumed. -/
theorem tidy_takeFirst {id : Nat} {l : List PortEntry} (h : ∀ e ∈ l, TidyMsg e.msg) : ∀ e ∈ takeFirst id l, TidyMsg e.msg := by
  induction l with
  | nil => exact h
  | cons x l ih =>
    rw [List.forall_mem_cons] at h
    unfold takeFirst
    split
    · exact List.forall_mem_cons.mpr h
    · exact List.forall_mem_cons.mpr ⟨h.1, ih h.2⟩

/-- A core one of whose ports changed. -/
theorem tidy_port {k : Core} {i : Fin 4} {l : List PortEntry} (h : TidyCore k) (wf : ∀ e ∈ l, TidyMsg e.msg) :
    TidyCore { k with ports := k.ports.set i.val l i.isLt } := by
  obtain ⟨pad, rows, inbox, ports⟩ := h
  refine ⟨pad, rows, inbox, fun j => ?_⟩
  dsimp only
  rw [Vector.get_eq_getElem, Vector.getElem_set]
  split
  · exact wf
  · exact ports j

namespace Kept

variable {b : Bound} {s : State}

/-! Messages. -/

theorem sendBody (h : Kept b s) {k : MsgKind} {entry dest : Word} {tile : Option (Memory × BitVec 16)} (wf : ∀ d v, tile = some (d, v) → d.wf = true) :
    Goes b (sendBody k entry dest tile s) :=
  Safe.bind (h.ensureAt _ _ _) fun _ _ => Safe.ite (fun _ => Safe.bind (h.checkAccess _ 4 .exec) fun _ _ =>
    h.bufferOut (tidy_buildMessage wf)) fun _ => h.bufferOut (tidy_buildMessage wf)

theorem opSend (x y : SReg) (w v : Bool) : Keeps b (opSend x y w v) := fun _ h => h.sendBody fun _ _ eq => nomatch eq
theorem opSendt (t : TReg) (x y : SReg) (w v : Bool) : Keeps b (opSendt t x y w v) := fun _ h => h.sendBody fun _ _ eq => by cases eq; exact h.tile t

theorem opSendx (x y : SReg) (w v : Bool) : Keeps b (opSendx x y w v) := by
  intro t h
  unfold Machine.opSendx
  dsimp only
  split
  · exact h
  · exact Safe.ite (fun _ => h.bufferOut (tidy_silent rfl)) fun _ => h

/-! Ports. -/

theorem takeEntry (h : Kept b s) (n : Nat) : Kept b (takeEntry n s) :=
  Kept.pushEffect (h.modCore fun tidy => tidy_port tidy (tidy_takeFirst (tidy.2.2.2 _))) (tidy_silent rfl)

theorem noEntry (h : Kept b s) {α : Type} {P : α → Prop} (n : Nat) : Safe b P (noEntry n s : Run α) := Safe.ite (fun _ => h) fun _ => h

theorem portHead_tidy (h : Kept b s) {n : Nat} {e : PortEntry} (at_ : portHead s n = some e) : TidyMsg e.msg :=
  (h.core _).2.2.2 _ e (List.mem_of_find?_eq_some at_)

theorem opRecv (d : SReg) (n : BitVec 2) : Keeps b (opRecv d n) := by
  intro t h
  unfold Machine.opRecv
  dsimp only
  split
  · exact h.noEntry _
  · exact (h.takeEntry _).produceS _ _ _

theorem opTrecv (t : TReg) (n : BitVec 2) : Keeps b (opTrecv t n) := by
  intro u h
  unfold Machine.opTrecv
  dsimp only
  split
  · exact h.noEntry _
  · next e at_ =>
    split
    · exact h
    · next tile => exact (h.takeEntry _).produceT (trim_wf _ _ (h.portHead_tidy at_ _ _ tile))

/-! Join cells and queries. -/

theorem findCell (h : Kept b s) (loc : Word) (use : Use) : Reads b (findCell loc use s) :=
  Safe.ite (fun _ => Safe.bind (h.ensure _ _) fun _ _ => Safe.bind (h.ensure _ _) fun _ _ => h) fun _ =>
    Safe.bind (h.reachTask loc 16 use) fun _ at_ => Safe.bind (at_.ensure _ _) fun _ _ => at_

theorem opJnew (d x y : SReg) (w v : Bool) : Keeps b (opJnew d x y w v) := fun _ h =>
  Safe.bind (h.findCell _ .write) fun p found => Safe.bind (found.ensure _ _) fun _ _ => Safe.bind (found.reachTask _ 64 .read) fun q at_ => by
    obtain ⟨cell, t⟩ := p
    cases cell with
    | pad a => exact Safe.bind (at_.bufferPad a _) fun _ kept => kept.pushEffect (tidy_silent rfl)
    | memory pa => exact Safe.bind (at_.bufferStore pa _) fun _ kept => (kept.markWritten _ 16).pushEffect (tidy_silent rfl)

theorem opArrive (x : SReg) (w : Bool) : Keeps b (opArrive x w) := fun _ h =>
  Safe.bind (h.findCell _ .atomic) fun p found => Safe.bind (found.ensure _ _) fun _ _ => by
    obtain ⟨cell, t⟩ := p
    cases cell with
    | pad a => exact Kept.pushEffect (Kept.mod found rfl fun x => x) (tidy_silent rfl)
    | memory pa => exact ((found.noteWrite pa 16).markWritten _ 16).pushEffect (tidy_silent rfl)

theorem emptyWord (h : Kept b s) (core w : Nat) : Kept b (emptyWord core w s) := h.modCore fun x => x

theorem opWqry (x y : SReg) (w v : Bool) : Keeps b (opWqry x y w v) := fun t h =>
  Safe.bind (h.ensure _ _) fun _ _ => Safe.bind (h.reachTask _ 32 .atomic) fun p at_ => Safe.bind (at_.ensure _ _) fun _ _ =>
    Safe.bind (at_.ensure _ _) fun _ _ => Safe.bind (at_.ensure _ _) fun _ _ => by
      have asked : Kept b { p.2 with queries := p.2.queries ++ [
          { hart := p.2.hart.id, core := p.2.hart.core, cap := p.2.hart.cap, word := (t.sreg x).toNat / 8, desc := p.1, arrived := none, item := none,
            answer := none, fate := 0, landed := false }] } := { at_ with }
      exact (asked.emptyWord _ _).mod (f := fun h => { h with chunk := { h.chunk with claims := h.chunk.claims + 1 } }) rfl fun x => x

/-! The issue of copies. -/

theorem ringCheck (h : Kept b s) (sealed : Bool) (n bytes : Nat) : Safe b (fun _ => True) (ringCheck sealed n bytes s) :=
  Safe.ite (fun _ => Safe.bind (h.ensure _ _) fun _ _ => Safe.bind (h.ensure _ _) fun _ _ => h.ensure _ _) fun _ => h.ensure _ _

theorem holdRegions (h : Kept b s) (c : Copy) : Kept b (holdRegions c s) := h.modCore fun x => x

theorem startCopy (h : Kept b s) (cl : Nat) (c : Copy) : Kept b (startCopy cl c s) :=
  have started := h.modChan cl c.chan fun _ => { copy := some c, wp := word c.base, cap := some c.cap }
  ite (fun _ => (started.holdRegions c).foldl _ fun _ _ _ kept => kept.emptyWord _ _) fun _ => started

theorem copyWaits (h : Kept b s) (c : Copy) : Safe b (fun _ => True) (copyWaits s c) := Safe.ite (fun _ => h) fun _ => Safe.ite (fun _ => h) fun _ => trivial

theorem issueIn (h : Kept b s) (c : Copy) : Goes b (issueIn c s) := Safe.bind (h.ensure _ _) fun _ _ => Safe.bind (h.copyWaits c) fun _ _ => h.startCopy _ c
theorem issueOut (h : Kept b s) (c : Copy) : Goes b (issueOut c s) := Safe.bind (h.copyWaits c) fun _ _ => h.bufferOut (tidy_silent rfl)

theorem endpoint (h : Kept b s) (x : Word) : Safe b (fun _ => True) (endpoint x s) := by
  unfold Machine.endpoint
  split
  · exact Safe.ite (fun _ => trivial) fun _ => h
  · exact h

theorem copyBody (h : Kept b s) (mode : CopyMode) (ctl src dst : Word) : Goes b (copyBody mode ctl src dst s) :=
  Safe.bind (h.ensure _ _) fun _ _ => by
    cases mode with
    | ms => exact Safe.bind (h.ensure _ _) fun _ _ => Safe.bind (h.ensure _ _) fun _ _ => Safe.bind (h.reachTask src _ .copySrc) fun _ at_ => at_.issueIn _
    | sm => exact Safe.bind (h.ensure _ _) fun _ _ => Safe.bind (h.ensure _ _) fun _ _ => Safe.bind (h.reachTask dst _ .copyDst) fun _ at_ => at_.issueOut _
    | mr => exact Safe.bind (h.ensure _ _) fun _ _ => Safe.bind (h.ensure _ _) fun _ _ => Safe.bind (h.ringCheck false _ _) fun _ _ =>
        Safe.bind (h.reachTask src _ .copySrc) fun _ at_ => at_.issueIn _
    | ur => exact Safe.bind (h.ensure _ _) fun _ _ => Safe.bind (h.ensure _ _) fun _ _ => Safe.bind (h.ringCheck true _ _) fun _ _ =>
        Safe.bind (h.reachTask src _ .unseal) fun _ at_ => at_.issueIn _
    | es => exact Safe.bind (h.ensure _ _) fun _ _ => Safe.bind (h.endpoint src) fun _ _ => h.issueIn _
    | se => exact Safe.bind (h.ensure _ _) fun _ _ => Safe.bind (h.endpoint dst) fun _ _ => h.issueOut _

theorem opCpy (mode : CopyMode) (d x y : SReg) (w v : Bool) : Keeps b (opCpy mode d x y w v) := fun _ h => h.copyBody mode _ _ _
theorem opCwait (x y : SReg) (w v : Bool) : Keeps b (opCwait x y w v) := fun _ h => Safe.ite (fun _ => h) fun _ => h
theorem opOwn (d x : SReg) (w : Bool) : Keeps b (opOwn d x w) := fun _ h => Safe.bind (h.ensure _ _) fun _ _ => h.writeS _ _

/-- A context whose copy has restarted. -/
def restarted (rst : BitVec 512) (h : Hart) : Hart := { h with r := { h.r with rst := rst }, ckpt := { h.ckpt with rst := rst } }

theorem modRestarted (h : Kept b s) (rst : BitVec 512) : Kept b (s.mod (restarted rst)) := h.mod rfl fun x => x

theorem restarts (h : Kept b s) (c : Copy) (r : BitVec 512) :
    Goes b (do Machine.copyWaits s c; .ok ((Machine.startCopy s.here c s).mod (restarted r))) :=
  Safe.bind (h.copyWaits c) fun _ _ => (h.startCopy _ c).modRestarted r

theorem restartCopy (h : Kept b s) : Goes b (restartCopy s) := by
  unfold Machine.restartCopy
  dsimp only
  refine Safe.ite (fun _ => h.modRestarted _) fun _ => Safe.ite (fun _ => Safe.bind (h.ringCheck _ _ _) fun _ _ => ?_) fun _ => ?_
  all_goals exact Safe.ite (fun _ => Safe.bind (h.endpoint _) fun _ _ => h.restarts _ _) fun _ => Safe.bind (h.reachTask _ _ _) fun _ at_ => at_.restarts _ _

end Kept

end Sys2Proof.Proofs
end

