-- ==== Sys2Proof/Proofs/KeptCopy.lean ====
section
/-! PROOFS. The copy engine and the releases of a commit keep every memory canonical (O60). -/

namespace Sys2Proof.Proofs

open Sys2Proof Sys2Proof.Machine Sys2Proof.Claims

namespace Kept

variable {s : State}

/-! Records and children. -/

theorem enqueue (h : Kept .event s) (n : Nat) (record elist : List Byte) : Kept .event (enqueue n record elist s) := by
  unfold Machine.enqueue
  exact Kept.modQueue (h.deviceStore trivial) fun x => x

theorem freshKey {b : Bound} (h : Kept b s) : Kept b (freshKey s).2 := { h with }

theorem nextNonce {b : Bound} (h : Kept b s) : Kept b { s with saffron := { s.saffron with nonce := s.saffron.nonce + 1 } } := { h with }

theorem placeChild (h : Kept .event s) (c : Spawn) : Kept .event (placeChild c s) := by
  unfold Machine.placeChild
  split
  · exact h
  · dsimp only
    exact h.freshKey.nextNonce.enqueue _ _ _

/-! Elements. -/

theorem placeRing {b : Bound} (h : Kept b s) (cl k : Nat) (c : Copy) (bs : List Byte) : Kept b (placeRing cl k c bs s).2 := by
  induction k generalizing c s with
  | zero => exact h
  | succ k ih =>
    unfold Machine.placeRing
    dsimp only
    split
    · exact h
    · refine ih ?_ _
      have put : ∀ a bs, Kept b (s.modCluster cl fun q => { q with opbuf := q.opbuf.writeBytes a bs }) := fun a bs =>
        h.modCluster rfl fun ⟨o, rest⟩ => ⟨Memory.writeBytes_wf _ _ o, rest⟩
      exact ite (fun _ => ((put _ _).settleBuffer _ _ _).modRing _ _ _) fun _ => (put _ _).settleBuffer _ _ _

/-! Failures and the end of a copy. -/

theorem taskReport_wf (id code : Nat) (detail : Word) (cap : Nat) (s : State) : (taskReport id code detail cap s).wf = true := by
  unfold taskReport
  split
  · exact bareReport_wf ..
  · exact taskFields_wf (commonFields_wf ..)

theorem ownerFault (h : Kept .event s) (cap id : Nat) (code : Code) (detail : Word) : Kept .event (ownerFault cap id code detail s) :=
  h.abortCapsule trivial (taskReport_wf ..)

theorem unitFault (h : Kept .event s) (cap id : Nat) (code : Code) (detail : Word) : Kept .event (unitFault cap id code detail s) := by
  unfold Machine.unitFault
  split
  · refine ite (fun _ => ?_) fun _ => h.ownerFault _ _ _ _
    exact h.onHart (b := .event) trivial fun t kept => kept.chunkFault (b := .event) _ _ _ fun u there => there.ownerFault _ _ _ _
  · exact h.ownerFault _ _ _ _

theorem engineFault (h : Kept .event s) (c : Copy) (code : Code) (detail : Word) : Kept .event (engineFault c code detail s) :=
  ite (fun _ => h.unitFault _ _ _ _) fun _ => h.ownerFault _ _ _ _

theorem copyFault (h : Kept .event s) (cap : Nat) (code : Code) : Kept .event (copyFault cap code s) :=
  h.free.abortCapsule trivial (bareReport_wf ..)

theorem failCopy (h : Kept .event s) (cl : Nat) (c : Copy) (code : Code) : Kept .event (failCopy cl c code s) :=
  ite (fun _ => (h.cancelCopy cl c).onHart (b := .event) trivial fun _ kept => kept.raise (b := .event) _ _ _) fun _ => (h.cancelCopy cl c).copyFault _ _

theorem noteProgress {b : Bound} (h : Kept b s) (cap : Nat) : Kept b (noteProgress cap s) := by
  unfold Machine.noteProgress
  split
  · exact h.modQueue fun x => x
  · exact h

theorem endCopy {b : Bound} (h : Kept b s) (cl : Nat) (c : Copy) : Kept b (endCopy cl c s) := ((h.releaseRegions c).freeChan cl c).releaseCore _

theorem countElement {b : Bound} (h : Kept b s) (cl : Nat) (c : Copy) : Kept b (countElement cl c s) :=
  have counted := (h.noteProgress c.cap).modChan cl c.chan fun ch => { ch with copy := some { c with done := c.done + 1, part := 0, stamp := s.clock }, wp := ch.wp + 1 }
  ite (fun _ => counted.endCopy _ _) fun _ => counted

theorem fillWords {b : Bound} (h : Kept b s) (c : Copy) : Kept b (fillWords c s) := by
  unfold Machine.fillWords
  exact h.modCore fun x => x

theorem outBytes {b : Bound} (h : Kept b s) (pa n : Nat) : Kept b (outBytes pa n s).2 := by
  unfold Machine.outBytes
  split
  · exact { h with }
  · exact h

theorem deviceRead {b : Bound} (h : Kept b s) (part pa n : Nat) : Kept b (deviceRead part pa n s).2 := by
  unfold Machine.deviceRead
  dsimp only
  split
  · exact h.startExit _
  · exact ((h.noteUse _).readLines _ _ _).outBytes _ _

theorem padElement {b : Bound} (h : Kept b s) (c : Copy) (bs : List Byte) : Kept b (padElement c bs s) := by
  have put := h.modCore (n := c.core) (f := fun k => { k with pad := k.pad.writeBytes (c.dst.toNat + c.done * c.esize) bs })
    fun ⟨pad, rest⟩ => ⟨Memory.writeBytes_wf _ _ pad, rest⟩
  exact (put.fillWords c).settlePad _ _ _

theorem setDirtyBit (h : Kept .event s) (x : Hart) (part : Nat) (d : Nat × Nat) : Kept .event (setDirtyBit x part d s) :=
  (h.applyAmo fun _ => trivial).publish _ _ _

theorem carryPoison {b : Bound} (h : Kept b s) (core src pa n : Nat) : Kept b (carryPoison core src pa n s) := { h with }

theorem ringElement {b : Bound} (h : Kept b s) (cl : Nat) (c : Copy) (bs : List Byte) : Kept b (ringElement cl c bs s) :=
  ite (fun _ => (h.placeRing cl 64 c bs).countElement _ _) fun _ => (h.placeRing cl 64 c bs).modChan _ _ _

theorem peerBytes {b : Bound} (h : Kept b s) (n : Nat) : Kept b (peerBytes n s).2 := { h with }

theorem deliverElement (h : Kept .event s) (cl : Nat) (c : Copy) : Kept .event (deliverElement cl c s) := by
  unfold Machine.deliverElement
  extract_lets pa off units used read met bits x part src bs written
  have used_ : Kept .event used := h.noteUse _
  have read_ : Kept .event read := ite (fun _ => used_.readLines _ _ _) fun _ => used_
  have met_ : Kept .event met := read_.meetPad _ _ _ _
  have written_ : Kept .event written := (met_.writeUnit trivial).carryPoison _ _ _ _
  refine ite (fun _ => h.startExit _) fun _ => ?_
  split
  · split
    · exact read_.failCopy _ _ _
    · exact (read_.padElement _ _).countElement _ _
  · split
    · exact read_.failCopy _ _ _
    · exact read_.ringElement _ _ _
  · refine ite (fun _ => ?_) fun _ => read_
    split
    · exact read_.failCopy _ _ _
    · exact read_.ringElement _ _ _
  · exact ite (fun _ => met_) fun _ => ite (fun _ => met_.failCopy _ _ _) fun _ =>
      Kept.countElement (written_.foldl bits fun _ _ _ kept => kept.setDirtyBit _ _ _) _ _
  · exact ite (fun _ => read_) fun _ => ite (fun _ => ((read_.peerBytes _).padElement _ _).countElement _ _) fun _ => (read_.cancelCopy _ _).engineFault _ _ _
  · exact ite (fun _ => (met_.emit _).countElement _ _) fun _ => (met_.endCopy _ _).engineFault _ _ _

theorem startWaiting {b : Bound} (h : Kept b s) (cl chan : Nat) : Kept b (startWaiting cl chan s) := by
  unfold Machine.startWaiting
  refine ite (fun _ => h) fun _ => ?_
  split
  · exact h
  · exact Kept.startCopy (h.modCluster rfl fun x => x) _ _

theorem releaseCopy {b : Bound} (h : Kept b s) (c : Copy) : Kept b (releaseCopy c s) := Kept.startWaiting (h.modCluster rfl fun x => x) _ _

/-! Releases. -/

theorem ringDoorbell {b : Bound} (h : Kept b s) (part n : Nat) (v : Word) : Kept b (ringDoorbell part n v s) := by
  unfold Machine.ringDoorbell
  dsimp only
  exact ite (fun _ => Kept.emit (h.modPart fun x => x) _) fun _ => h.modPart fun x => x

theorem ringGate (h : Kept .event s) (x : Hart) (part pa : Nat) (v : Word) : Kept .event (ringGate x part pa v s) := (h.applyAmo fun _ => trivial).publish _ _ _

theorem releaseSendx (h : Kept .event s) (id cap core : Nat) (handle base v : Word) (body : Vector Word 6) :
    Kept .event (releaseSendx id cap core handle base v body s) := by
  unfold Machine.releaseSendx
  dsimp only
  split
  · exact ite (fun _ => h.ownerFault _ _ _ _) fun _ => h.ringGate _ _ _ _
  · exact h.ringDoorbell _ _ _
  · exact ite (fun _ => h.emit _) fun _ => h.ownerFault _ _ _ _

theorem releaseNow (h : Kept .event s) (task : Nat) (e : Effect) : Kept .event (releaseNow task e s) := by
  unfold Machine.releaseNow
  split
  · exact h.releaseSendx _ _ _ _ _ _ _
  · exact h.releaseCopy _
  · exact h.placeChild _
  · exact h

theorem releaseHeld (h : Kept .event s) : Kept .event (releaseHeld s) := by
  refine h.foldl _ fun t x _ kept => ite (fun _ => ite (fun _ => kept.startExit _) fun _ => ?_) fun _ => kept
  have left : Kept .event { t with heldx := t.heldx.erase x } := { kept with heldx := fun y hy => kept.heldx y (List.mem_of_mem_erase hy) }
  exact (left.noteUse _).releaseNow _ _

theorem holdRelease (h : Kept .event s) (task fx : Nat) {e : Effect} (tidy : TidyEffect e) : Kept .event (holdRelease task fx e s) := by
  exact Kept.releaseHeld (h.addHeld tidy)

/-! Weight keys and seals. -/

theorem loadWeightKey {b : Bound} (h : Kept b s) (cl : Nat) (c : Copy) : Kept b (loadWeightKey cl c s) := by
  unfold Machine.loadWeightKey
  extract_lets key loaded
  have kept : Kept b loaded := h.modCluster rfl fun x => x
  exact kept.modChan _ _ _

theorem verifyGroup (h : Kept .event s) (cl : Nat) (c : Copy) : Kept .event (verifyGroup cl c s) := by
  unfold Machine.verifyGroup
  split
  · exact h
  · extract_lets units used read
    have kept : Kept .event read := (h.noteUse _).readLines _ _ _
    refine ite (fun _ => h.startExit _) fun _ => ?_
    split
    · exact kept.failCopy _ _ _
    · exact ite (fun _ => kept.modChan _ _ _) fun _ => (kept.cancelCopy _ _).engineFault _ _ _

end Kept

end Sys2Proof.Proofs
end

