-- ==== Sys2Proof/Proofs/KeptTile.lean ====
section
/-! PROOFS. Tile loads and stores, scratchpad windows, register-file instructions and tile arithmetic keep what a step keeps (O60). -/

namespace Sys2Proof.Proofs

open Sys2Proof Sys2Proof.Machine Sys2Proof.Claims

theorem buildTile_wf (e rows cols : Nat) (f : Nat → Nat → Nat) : (buildTile e rows cols f).wf = true := Memory.tabulate_wf _ _

namespace Kept

variable {b : Bound} {s : State}

theorem setView (h : Kept b s) (p : PReg) (v : BitVec 128) : Kept b (setView p v s) := h.modRegs fun old x => old x

/-! Rows. -/

theorem atRow {α : Type} {P : α → Prop} {r : Run α} (h : Safe b P r) (i : Nat) : Safe b P (atRow i r) := by
  cases r with
  | ok a => exact h
  | error e =>
    cases e with
    | fault c d t => exact Kept.setIdx h i
    | wait w t => exact h
    | stop x => exact h

theorem holdRow {α : Type} {P : α → Prop} {r : Run α} (h : Safe b P r) (i : Nat) : Safe b P (holdRow i r) := by
  cases r with
  | ok a => exact h
  | error e =>
    cases e with
    | fault c d t => exact h
    | wait w t => exact Kept.setIdx h i
    | stop x => exact h

theorem rowsFrom (h : Kept b s) {f : Nat → State → Run State} (row : ∀ i t, Kept b t → Goes b (f i t)) (is : List Nat) : Goes b (rowsFrom f is s) := by
  induction is generalizing s with
  | nil => exact h.clearRst
  | cons i is ih => exact Safe.bind (atRow (row i s h) i) fun _ kept => ih kept

theorem openTile (h : Kept b s) (t : TReg) (shape : BitVec 16) : Kept b (openTile t shape s) := h.writeT (trim_wf _ _ (h.tile t))

theorem landRow (h : Kept b s) (t : TReg) (shape : BitVec 16) (k : Bool) (i : Nat) (bs : List Byte) : Kept b (landRow t shape k i bs s) := by
  refine h.writeT (Memory.writeBytes_wf _ _ ?_)
  split
  · exact h.tile t
  · exact Memory.clear_wf _ _ (h.tile t)

theorem awaitRow (h : Kept b s) (blocks : Bool) (i : Nat) : Goes b (awaitRow blocks i s) := by
  have drawn : Kept b { s with fresh := s.fresh + 1 } := { h with }
  exact Safe.ite (fun _ => Safe.ite (fun _ => drawn.setIdx i) fun _ => drawn) fun _ => h

theorem loadRow (h : Kept b s) (ro : Bool) (t : TReg) (shape : BitVec 16) (k : Bool) (v e cols i : Nat) : Goes b (loadRow ro t shape k v e cols i s) :=
  Safe.ite (fun _ => h.landRow _ _ _ _ _) fun _ =>
    Safe.ite (fun _ => Safe.bind (h.loadRo _ _ .read) fun _ kept => kept.landRow _ _ _ _ _) fun _ => Safe.bind (h.load _ _ .read) fun _ kept => kept.landRow _ _ _ _ _

theorem opTileLoad (ro : Bool) (t : TReg) (p : PReg) (q f : Nat) (k : Bool) : Keeps b (opTileLoad ro t p q f k) := fun _ h =>
  Safe.bind (h.ensure _ _) fun _ _ => Safe.bind ((h.openTile t _).rowsFrom (fun i _ kept => holdRow (Safe.bind (kept.awaitRow _ i) fun _ there =>
    there.loadRow _ _ _ _ _ _ _ _) i) _) fun _ kept => ite (fun _ => kept.setView _ _) fun _ => (kept.setView _ _).produceT ((kept.setView _ _).tile t)

theorem storeRow (h : Kept b s) (one : b.Knows 1) (t : TReg) (v e cols i : Nat) : Goes b (storeRow t v e cols i s) :=
  Safe.ite (fun _ => h) fun _ => h.store one _ _ _

theorem opTst (one : b.Knows 1) (t : TReg) (p : PReg) (q f : Nat) (w : Bool) : Keeps b (opTst t p q f w) := fun _ h =>
  Safe.bind (h.ensureAt _ _ _) fun _ _ => Safe.bind (h.rowsFrom (fun i _ kept => holdRow (Safe.bind (kept.awaitRow _ i) fun _ there =>
    there.storeRow one _ _ _ _ _) i) _) fun _ kept => kept.setView _ _

/-! Scratchpad windows. -/

theorem loadPads (h : Kept b s) (as : List Nat) : Reads b (loadPads as s) := by
  induction as generalizing s with
  | nil => exact h
  | cons a as ih => exact Safe.bind (h.loadPad a 1) fun _ read => Safe.bind (ih read) fun _ kept => kept

theorem windowLoadRow {s0 : State} (h0 : Kept b s0) (h : Kept b s) (t : TReg) (shape : BitVec 16) (k : Bool) (n v e cols i : Nat) :
    Goes b (windowLoadRow t shape k n v e cols s0 i s) :=
  Safe.bind (h.ensure _ _) fun _ _ => Safe.ite (fun _ => h0) fun _ => Safe.bind (h.loadPads _) fun _ kept => kept.landRow _ _ _ _ _

theorem opTlds (t : TReg) (p : PReg) (q n : Nat) (k : Bool) : Keeps b (opTlds t p q n k) := fun _ h =>
  Safe.bind (h.ensure _ _) fun _ _ => Safe.bind (h.ensure _ _) fun _ _ => Safe.bind ((h.openTile t _).rowsFrom (fun i _ kept =>
    windowLoadRow h kept _ _ _ _ _ _ _ i) _) fun _ kept => kept.setView _ _

theorem windowStoreRow (h : Kept b s) (t : TReg) (v e cols i : Nat) : Goes b (windowStoreRow t v e cols i s) :=
  Safe.ite (fun _ => h) fun _ => Safe.bind (h.ensure _ _) fun _ _ => h.storePad _ _

theorem opTsts (t : TReg) (p : PReg) (q n : Nat) (w : Bool) : Keeps b (opTsts t p q n w) := fun _ h =>
  Safe.bind (h.ensure _ _) fun _ _ => Safe.bind (h.ensure _ _) fun _ _ => Safe.bind (h.ensure _ _) fun _ _ =>
    Safe.bind (h.rowsFrom (fun i _ kept => kept.windowStoreRow _ _ _ _ i) _) fun _ kept => kept.setView _ _

/-! The register file. -/

theorem opTshape (t : TReg) (x : SReg) (w : Bool) : Keeps b (opTshape t x w) := fun _ h =>
  Safe.bind (h.ensure _ _) fun _ _ => h.modRegs fun old => tidyRegs_set old (old _)
theorem opTshapeq (d : SReg) (t : TReg) : Keeps b (opTshapeq d t) := fun _ h => h.writeS d _
theorem opTclr (t : TReg) : Keeps b (opTclr t) := fun _ h => h.writeT rfl
theorem opTmov (x y : TReg) (w : Bool) : Keeps b (opTmov x y w) := fun _ h => h.writeT (trim_wf _ _ (h.tile y))
theorem opTtr (x y : TReg) (w : Bool) : Keeps b (opTtr x y w) := fun _ h => Safe.bind (h.ensure _ _) fun _ _ => h.writeT (buildTile_wf ..)
theorem opTbc (byRow : Bool) (x y : TReg) (z : SReg) (w v : Bool) : Keeps b (opTbc byRow x y z w v) := fun _ h =>
  Safe.bind (h.ensure _ _) fun _ _ => h.writeT (buildTile_wf ..)
theorem opTextr (d : SReg) (t : TReg) (x : SReg) (w v : Bool) : Keeps b (opTextr d t x w v) := fun _ h =>
  Safe.bind (h.ensure _ _) fun _ _ => Safe.bind (h.meetTileWords _ _) fun _ kept => kept.writeS d _
theorem opTins (t : TReg) (x y : SReg) (w v : Bool) : Keeps b (opTins t x y w v) := fun _ h =>
  Safe.bind (h.ensure _ _) fun _ _ => Safe.bind (h.meetTileWords _ _) fun _ kept => kept.writeT (Memory.writeLE_wf _ _ _ (h.tile t))
theorem opVset (p : PReg) (x y : SReg) (w v : Bool) : Keeps b (opVset p x y w v) := fun _ h => h.setView p _
theorem opVadv (p : PReg) (x y : SReg) (w v : Bool) : Keeps b (opVadv p x y w v) := fun _ h => h.setView p _

/-! Tile arithmetic. -/

theorem writeGrid (h : Kept b s) (x : TReg) (g : Grid) : Kept b (writeGrid x g s) := (h.writeT (buildTile_wf ..)).setFlags _

theorem opAlu (x y : TReg) (w : Bool) (other : Option (TReg × Bool)) (old : Bool) (f : BitVec 4) (allowed : Nat → Bool)
    (free : Option (Operands → Bool)) (g : Operands → Grid) : Keeps b (opAlu x y w other old f allowed free g) := fun _ h =>
  Safe.bind (h.ensure _ _) fun _ _ => Safe.bind (h.ensure _ _) fun _ _ => Safe.bind (h.ensure _ _) fun _ _ => Safe.bind (h.ensure _ _) fun _ _ =>
    h.writeGrid x _

theorem opTwo (x y z : TReg) (w v : Bool) (f : BitVec 4) (allowed : Nat → Bool) (g : Operands → Grid) : Keeps b (opTwo x y z w v f allowed g) :=
  opAlu _ _ _ _ _ _ _ _ _
theorem opOne (x y : TReg) (w : Bool) (f : BitVec 4) (allowed : Nat → Bool) (g : Operands → Grid) : Keeps b (opOne x y w f allowed g) :=
  opAlu _ _ _ _ _ _ _ _ _

theorem opTcvt (x y : TReg) (w : Bool) (f r : Nat) : Keeps b (opTcvt x y w f r) := fun _ h => Safe.bind (h.ensure _ _) fun _ _ => h.writeGrid x _
theorem opTqnt (x y z : TReg) (w v : Bool) (c : Nat) (r : Bool) : Keeps b (opTqnt x y z w v c r) := fun _ h =>
  Safe.bind (h.ensure _ _) fun _ _ => (h.writeT (buildTile_wf ..)).setFlags _
theorem opTdq (x y z : TReg) (w v : Bool) (c : Nat) (r : Bool) : Keeps b (opTdq x y z w v c r) := fun _ h => Safe.bind (h.ensure _ _) fun _ _ => h.writeGrid x _

theorem chainEnd (h : Kept b s) (x : TReg) (l r members : Nat) (g : Grid) : Goes b (chainEnd x l r members g s) := by
  have tidy : TidyEffect (.message (chainMessage l r ((Machine.writeGrid x g s).tile x).data g.shape (Machine.writeGrid x g s))) :=
    ⟨fun _ eq d v at_ => by cases eq; cases at_; exact (h.writeGrid x g).tile x, fun _ eq => nomatch eq⟩
  exact Safe.ite (fun _ => Safe.bind (h.bufferOut tidy) fun _ _ => (h.writeGrid x g).pushEffect tidy) fun _ => h.writeGrid x g

theorem opTredx (x y : TReg) (w : Bool) (l : Nat) : Keeps b (opTredx x y w l) := by
  intro t h
  unfold Machine.opTredx
  dsimp only
  split
  · exact h
  · refine Safe.bind (h.ensure _ _) fun _ _ => Safe.bind (h.ensure _ _) fun _ _ => Safe.bind (h.ensure _ _) fun _ _ => Safe.ite (fun _ => h.chainEnd _ _ _ _ _) fun _ => ?_
    split
    · exact h.noEntry 3
    · split
      · exact h
      · exact (h.takeEntry 3).chainEnd _ _ _ _ _

end Kept

end Sys2Proof.Proofs
end

