-- ==== Sys2Proof/Proofs/KeptMatrix.lean ====
section
/-! PROOFS. Leases, rings, grants, weights, products and the epilogue keep what a step keeps (O60). -/

namespace Sys2Proof.Proofs

open Sys2Proof Sys2Proof.Machine Sys2Proof.Claims

theorem groupWrite_wf {old : Memory} (rows : Nat) (f : Nat → Nat → Nat) (h : old.wf = true) : (groupWrite old rows f).wf = true :=
  foldl_wf (fun _ _ hm => foldl_wf (fun _ _ hm => Memory.writeLE_wf _ _ _ hm) _ hm) _ h

theorem productData_wf (m : Memory) (p : ProductPlan) {old : List Memory} (h : ∀ d ∈ old, d.wf = true) : ∀ d ∈ (productData m p old).1, d.wf = true := by
  refine List.forall_mem_map.mpr fun g _ => groupWrite_wf _ _ ?_
  rw [List.getD_eq_getElem?_getD]
  cases at_ : old[g]? with
  | none => rfl
  | some d => exact h d (List.mem_of_getElem? at_)

namespace Kept

variable {b : Bound} {s : State}

/-! Leases and rings. -/

theorem awaitLease (h : Kept b s) (mask : BitVec 16) : Kept b (awaitLease mask s) := ite (fun _ => h) fun _ => h.modCluster rfl fun x => x

theorem opMlease (x : SReg) (w : Bool) : Keeps b (opMlease x w) := fun _ h =>
  Safe.bind (h.ensure _ _) fun _ _ => Safe.ite (fun _ => Safe.ite (fun _ => h) fun _ => h) fun _ => Safe.ite (fun _ => h.bindRings _ _ _) fun _ => h.awaitLease _

theorem opMrel : Keeps b opMrel := fun _ h => ite (fun _ => ite (fun _ => h.pushEffect (tidy_silent rfl)) fun _ => h.endLease) fun _ => h

/-- The lease word of the context that acts. -/
theorem modLease (h : Kept b s) {lease : Hart → BitVec 128} : Kept b (s.mod fun x => { x with lease := lease x }) := h.mod rfl fun x => x

theorem setRstr (h : Kept b s) (n : Nat) (v : Bool) : Kept b (setRstr n v s) := h.modLease

theorem opMrdef (x y : SReg) (w v : Bool) : Keeps b (opMrdef x y w v) := fun _ h =>
  Safe.bind (h.ensure _ _) fun _ _ => Safe.bind (h.ensure _ _) fun _ _ =>
    Safe.ite (fun _ => Safe.bind (h.ensure _ _) fun _ _ => (h.modRing _ _ _).setRstr _ _) fun _ =>
      Safe.bind (h.ensure _ _) fun _ _ => (h.modRing _ _ _).setRstr _ _

/-! Grants. -/

/-- What a grant changes in a context. -/
theorem modGrant (h : Kept b s) (id : Nat) {f : Hart → Hart} (shape : ∀ x, ∃ a t l, f x = { x with grantAt := a, toggles := t, lease := l }) :
    Kept b (s.modHart id f) := by
  refine h.modHart (fun x hx => ?_) (fun x => ?_) fun x => ?_
  all_goals obtain ⟨a, t, l, eq⟩ := shape x; rw [eq]
  · obtain ⟨r, c, o, e, i, w⟩ := hx
    exact ⟨r, c, o, e, i, w⟩
  · rfl

theorem closeGrant_shape (x : Hart) : ∃ a t l, closeGrant x = { x with grantAt := a, toggles := t, lease := l } := by
  unfold closeGrant
  split <;> exact ⟨_, _, _, rfl⟩

theorem arbitrate (h : Kept b s) (cl : Nat) : Kept b (arbitrate cl s) := by
  unfold Machine.arbitrate
  dsimp only
  refine ite (fun _ => h) fun _ => ?_
  split
  · exact h
  · exact Kept.modGrant (h.modCluster rfl fun x => x) _ fun _ => ⟨_, _, _, rfl⟩

theorem expireGrant (h : Kept b s) (cl : Nat) : Kept b (expireGrant cl s) := by
  unfold Machine.expireGrant
  split
  · exact h
  · next id _ =>
    split
    · exact Kept.arbitrate (h.modCluster rfl fun x => x) _
    · refine ite (fun _ => ?_) fun _ => h
      have closed := h.modGrant (f := closeGrant) id closeGrant_shape
      refine ite (fun _ => closed.modGrant _ fun _ => ⟨_, _, _, rfl⟩) fun _ => ?_
      have off := closed.modGrant (f := fun h => { h with lease := leaseSet (leaseSet h.lease 24 18 0) 1 1 0 }) id fun _ => ⟨_, _, _, rfl⟩
      exact Kept.arbitrate (off.modCluster (n := cl) (f := fun c => { c with grant := none }) rfl fun x => x) _

theorem needGrant (h : Kept b s) : Goes b (needGrant s) := by
  unfold Machine.needGrant
  extract_lets cl id now c asked served
  have now_ : Kept b now := ite (fun _ => h.expireGrant _) fun _ => h
  have asked_ : Kept b asked := ite (fun _ => now_) fun _ => now_.modCluster rfl fun x => x
  exact Safe.ite (fun _ => now_) fun _ => Safe.ite (fun _ => asked_.arbitrate _) fun _ => asked_.arbitrate _

theorem countCommand (h : Kept b s) : Kept b (countCommand s) := h.modLease

theorem matrixCommand (h : Kept b s) : Safe b (fun _ => True) (matrixCommand s) := Safe.bind (h.ensure _ _) fun _ _ => h.ensure _ _

/-! Weights. -/

theorem consumeSlot (h : Kept b s) (n : Nat) : Kept b (consumeSlot n s) := (h.modRing _ _ _).pushEffect (tidy_silent rfl)

/-- Weights on their way. -/
theorem modPending (h : Kept b s) (w : Weights) : Kept b (s.mod fun h => { h with wload := true, r := { h.r with wpend := some w } }) := h.mod rfl fun x => x

theorem opMldw (n k : Nat) : Keeps b (opMldw n k) := fun _ h =>
  Safe.bind h.matrixCommand fun _ _ => Safe.bind (h.ensure _ _) fun _ _ => Safe.bind (h.ensure _ _) fun _ _ => Safe.bind (h.ensure _ _) fun _ _ =>
    Safe.bind h.needGrant fun _ granted => Safe.ite (fun _ => granted) fun _ => Safe.bind (granted.accessUnits _) fun _ awake =>
      (awake.countCommand.consumeSlot n).modPending _

/-! The epilogue. -/

theorem epilogueCheck (h : Kept b s) (p : Memory) (rows cols : Nat) : Safe b (fun _ => True) (epilogueCheck p rows cols s) :=
  Safe.bind (h.ensure _ _) fun _ _ => Safe.bind (h.ensure _ _) fun _ _ => Safe.bind (h.ensure _ _) fun _ _ => h.ensure _ _

theorem runningFull (h : Kept b s) (p : Memory) (rows cols : Nat) : Safe b (fun _ => True) (runningFull p rows cols s) :=
  Safe.ite (fun _ => h) fun _ => trivial

theorem epilogueStep (h : Kept b s) (p : Memory) (data : List Memory) (ij : Nat × Nat) : Goes b (epilogueStep p data ij s) := by
  have tail : ∀ t, Kept b t → ∀ ra y o out size f, Goes b (do
      let t ← Machine.storePad ra y t
      let t ← if epcFinal (p.readLE 0x380 8) then Machine.storePad out (leBytes size o) t else .ok t
      .ok (Machine.setFlags f t)) := fun t kept ra y o out size f =>
    Safe.bind (kept.storePad _ _) fun u stored => Safe.ite (fun _ => Safe.bind (stored.storePad _ _) fun _ done => done.setFlags _) fun _ => stored.setFlags _
  exact Safe.ite (fun _ => tail _ h _ _ _ _ _ _) fun _ => Safe.bind (h.loadPad _ 4) fun p read => tail _ read _ _ _ _ _ _

theorem epilogueSteps (h : Kept b s) (p : Memory) (data : List Memory) (xs : List (Nat × Nat)) : Goes b (epilogueSteps p data xs s) := by
  induction xs generalizing s with
  | nil => exact h
  | cons x xs ih => exact Safe.bind (h.epilogueStep p data x) fun _ kept => ih kept

theorem runEpilogue (h : Kept b s) (p : Memory) (data : List Memory) (rows cols : Nat) : Goes b (runEpilogue p data rows cols s) := h.epilogueSteps _ _ _

theorem wholeEpilogue (h : Kept b s) {r : Run State} (k : Goes b r) : Goes b (wholeEpilogue s r) := by
  cases r with
  | ok t => exact k
  | error e =>
    cases e with
    | fault c d t => exact { (k : Kept b t) with harts := { h.harts with rest := k.harts.rest } }
    | wait w t => exact k
    | stop f => exact k

theorem clearGroup (h : Kept b s) (l : List TReg) : Kept b (l.foldl (fun s r => Machine.writeT r [] (s.tile r).shape s) s) :=
  h.foldl l fun _ _ _ kept => kept.writeT rfl

theorem opMepi (t : Bool) (y : TReg) (cols rows : Nat) : Keeps b (opMepi t y cols rows) := fun _ h =>
  Safe.bind h.matrixCommand fun _ _ => Safe.bind (h.ensure _ _) fun _ _ => Safe.bind (h.epilogueCheck _ _ _) fun _ _ => Safe.bind h.needGrant fun _ granted =>
    Safe.bind (granted.runningFull _ _ _) fun _ _ => Safe.bind (granted.wholeEpilogue (granted.countCommand.runEpilogue _ _ _ _)) fun _ done =>
      ite (fun _ => done.clearGroup _) fun _ => done

/-! Products. -/

theorem emptyGroup (h : Kept b s) (t : Bool) (no : Nat) : Kept b (emptyGroup t no s) :=
  h.foldl _ fun _ _ _ kept => kept.mod rfl fun ⟨r, c, o, e, i, x⟩ => ⟨tidyRegs_set r (r _), c, o, e, i, x⟩

theorem productWaits (h : Kept b s) (t : Bool) (a te : Nat) : Goes b (productWaits t a te s) := by
  have tail : ∀ u, Kept b u → Goes b (do
      let u ← Machine.needGrant u
      if u.hart.wload && u.hart.r.wpend.isSome then .error (.wait .weights u)
      else if ((u.cluster u.here).ring a).ready = 0 then .error (.wait .slot u)
      else if (u.cluster u.here).credit < 0 then .error (.wait (.power te) u)
      else .ok u) := fun u kept =>
    Safe.bind kept.needGrant fun _ granted => Safe.ite (fun _ => granted) fun _ => Safe.ite (fun _ => granted) fun _ => Safe.ite (fun _ => granted) fun _ => granted
  unfold Machine.productWaits
  cases (groupRegs t).find? fun r => !(s.tile r).full with
  | none => exact tail s h
  | some r => exact h

theorem meetGroup (h : Kept b s) (rs : List TReg) : Goes b (meetGroup rs s) := by
  induction rs generalizing s with
  | nil => exact h
  | cons r rs ih => exact Safe.bind (h.meetWhole r) fun _ kept => ih kept

theorem meetSlot (h : Kept b s) (a n : Nat) : Goes b (meetSlot a n s) :=
  Safe.bind (h.accessUnits _) fun _ kept => Safe.ite (fun _ => kept.meetSram _ _) fun _ => kept.meetSram _ _

theorem addProduct (h : Kept b s) {p : Product} (te : Nat) (wf : ∀ d ∈ p.data, d.wf = true) :
    Kept b (s.modCluster s.here fun c => { c with products := c.products ++ [p], credit := c.credit - Int.ofNat te, demand := c.demand + te }) :=
  h.modCluster rfl fun ⟨o, m, park, products⟩ => ⟨o, m, park, fun q hq =>
    (List.mem_append.mp hq).elim (products q) fun last => List.mem_singleton.mp last ▸ wf⟩

/-- A product under way. -/
theorem modProduct (h : Kept b s) (w : Weights) (te : Nat) : Kept b (s.mod fun h =>
    { h with issued := h.issued + 1, toggles := te :: h.toggles, wload := false, r := { h.r with wact := some w, wpend := none } }) := h.mod rfl fun x => x

theorem opProduct (form : Form) (t : Bool) (x y k : Nat) (epi : Option TReg) : Keeps b (opProduct form t x y k epi) := by
  intro s h
  unfold Machine.opProduct
  refine Safe.bind h.matrixCommand fun _ _ => Safe.bind (h.ensure _ _) fun _ _ => Safe.bind (h.ensure _ _) fun _ _ => ?_
  extract_lets -underBinder weights
  suffices known : ∀ w, Goes b (weights w) by
    split
    · exact Safe.ite (fun _ => known _) fun _ => h
    · exact h
  intro w
  unfold weights
  extract_lets -underBinder checked
  suffices known : ∀ u, Goes b (checked u) by
    cases epi with
    | none => exact known ()
    | some z => exact Safe.bind (h.epilogueCheck _ _ _) fun _ _ => known ()
  intro _
  unfold checked
  refine Safe.bind (h.ensure _ _) fun _ _ => ?_
  extract_lets -underBinder plan te
  refine Safe.bind (h.productWaits _ _ _) fun u waited => ?_
  extract_lets -underBinder full
  suffices known : ∀ u, Goes b (full u) by
    cases epi with
    | none => exact known ()
    | some z => exact Safe.bind (waited.runningFull _ _ _) fun _ _ => known ()
  intro _
  unfold full
  refine Safe.bind (waited.meetGroup _) fun _ met => Safe.bind (met.meetSlot _ _) fun _ met => Safe.bind (met.meetSlot _ _) fun v ready => ?_
  extract_lets -underBinder before old
  have made := productData_wf (s.cluster s.here).opbuf plan (old := old) (List.forall_mem_map.mpr fun r _ => ready.tile r)
  split
  next data clamped eq =>
  have wf : ∀ d ∈ data, d.wf = true := by rwa [eq] at made
  extract_lets -underBinder emptied issued land
  have under : Kept b issued := ((((ready.countCommand.consumeSlot x).setFlags _).emptyGroup t _).modProduct w te)
  have lands : ∀ clear : Bool, ∀ d ∈ (if clear then List.replicate 8 [] else data), Memory.wf d = true := by
    intro clear d hd
    cases clear with
    | true => exact List.eq_of_mem_replicate hd ▸ rfl
    | false => exact wf d hd
  have landed : ∀ v, Kept b v → Goes b (land v) := by
    intro v kept
    exact kept.addProduct te (lands _)
  cases epi with
  | none => exact landed _ under
  | some z => exact Safe.bind (ready.wholeEpilogue (under.runEpilogue _ _ _ _)) landed

/-! The residue check. -/

theorem landProduct (h : Kept b s) {p : Product} (wf : ∀ d ∈ p.data, d.wf = true) : Kept b (landProduct p s) :=
  h.foldl _ fun _ _ hx kept => ite (fun _ => kept.writeT (wf _ (List.of_mem_zip hx).2)) fun _ => kept

theorem markSuspect (h : Kept .event s) (cl : Nat) : Kept .event (markSuspect cl s) := ite (fun _ => h) fun _ => Kept.fenceOther (h.changeCluster fun x => x) _

theorem residueMismatch (h : Kept .event s) (cl : Nat) (p : Product) : Kept .event (residueMismatch cl p s) := by
  unfold Machine.residueMismatch
  extract_lets win seen
  have kept : Kept .event seen := h.modCluster rfl fun x => x
  exact ite (fun _ => ite (fun _ => (kept.markSuspect _).unitFault _ _ _ _) fun _ => kept.markSuspect _) fun _ =>
    ite (fun _ => kept.onHart (b := .event) trivial fun _ there => there.raise (b := .event) _ _ _) fun _ => kept

theorem checkProduct (h : Kept .event s) (cl : Nat) (mismatch : Bool) : Kept .event (checkProduct cl mismatch s) := by
  unfold Machine.checkProduct
  split
  · exact h
  · next p rest at_ =>
    have there : ∀ q ∈ p :: rest, ∀ d ∈ q.data, d.wf = true := at_ ▸ (h.cluster cl).2.2.2
    extract_lets less checked
    have less_ : Kept .event less := h.modCluster rfl fun ⟨o, m, park, _⟩ => ⟨o, m, park, fun q hq => there q (List.mem_cons_of_mem _ hq)⟩
    have kept : Kept .event checked := less_.modHart (fun _ x => x) (fun _ => rfl) fun _ => rfl
    exact ite (fun _ => kept.residueMismatch _ _) fun _ =>
      ite (fun _ => kept.onHart (b := .event) trivial fun _ now => now.landProduct (there p List.mem_cons_self)) fun _ => kept

theorem opMchk (d : SReg) : Keeps b (opMchk d) := fun _ h => Safe.ite (fun _ => h) fun _ => h.writeS d _
theorem opMdrain : Keeps b opMdrain := fun _ h => Safe.ite (fun _ => h) fun _ => h

theorem modRings (h : Kept b s) (cl : Nat) (f : Ring → Ring) : Kept b (s.modCluster cl fun c => { c with rings := c.rings.map f }) := h.modCluster rfl fun x => x

theorem scrubComplete (h : Kept b s) (cl : Nat) : Kept b (scrubComplete cl s) := by
  unfold Machine.scrubComplete
  split
  · exact h
  · next id _ =>
    extract_lets drawn scrubbed
    have drawn_ : Kept b drawn := { h with }
    have kept : Kept b scrubbed := drawn_.foldl _ fun _ _ _ kept => ite (fun _ => kept.scrubBuffer _ _ _) fun _ => kept
    exact (kept.modRings cl _).bindWaiters _

end Kept

end Sys2Proof.Proofs
end

