-- ==== Sys2Proof/Proofs/KeptSequencer.lean ====
section
/-! PROOFS. LIMM pairs and REPF keep what a step keeps (O60). -/

namespace Sys2Proof.Proofs

open Sys2Proof Sys2Proof.Machine Sys2Proof.Claims

/-- A run that knows where its fault stands, as `Safe`. -/
def SafeAt {α : Type} (b : Bound) (P : α → Prop) : SitedRun α → Prop
  | .ok a => P a
  | .error e => Stays b e.2

theorem SafeAt.bind {b : Bound} {α β : Type} {P : α → Prop} {Q : β → Prop} {r : SitedRun α} {f : α → SitedRun β} (h : SafeAt b P r)
    (k : ∀ a, P a → SafeAt b Q (f a)) : SafeAt b Q (r >>= f) := by
  cases r with
  | ok a => exact k a h
  | error e => exact h

theorem Safe.at_ {b : Bound} {α : Type} {P : α → Prop} {r : Run α} (h : Safe b P r) (site : Site) : SafeAt b P (atSite site r) := by
  cases r <;> exact h

namespace Kept

variable {b : Bound} {s : State}

theorem settleAt {r : SitedRun State} (k : SafeAt (b.at_ 2) (Kept (b.at_ 2)) r) : Ends b.low (settleAt r) := by
  cases r with
  | ok t => exact fun u e => Host.Outcome.next.inj e ▸ at_low b 2 ▸ Kept.low k
  | error e =>
    obtain ⟨site, e⟩ := e
    exact Kept.settle (r := .error e) k site

/-! LIMM. -/

theorem limmOp_keeps {hi : BitVec 26} {i : Instr} {o : Op} (at_ : limmOp hi i = some o) : Keeps b o := by
  unfold limmOp at at_
  split at at_
  all_goals cases at_
  iterate 5 exact opScalar _ _ _
  exact opLdc _ _ _ _

theorem fetchSuccessor (h : Kept b s) : Reads b (fetchSuccessor s) := by
  have word := h.issueWord (addOff s.hart.r.pc 4)
  unfold Machine.fetchSuccessor
  split
  · next c d t at_ => exact Safe.ite (fun _ => h) fun _ => by rw [at_] at word; exact word
  · exact word

theorem limitFirst {α : Type} {P : α → Prop} {r : Run α} (k : Safe b P r) : Safe b P (limitFirst s r) := by
  unfold Machine.limitFirst
  split
  · exact Safe.ite (fun _ => k) fun _ => k
  · exact k

theorem limmPair (h : Kept b s) (i : BitVec 26) : SafeAt b (Kept b) (limmPair i s) := by
  refine SafeAt.bind ((limitFirst h.fetchSuccessor).at_ _) fun p fetched => ?_
  dsimp only
  split
  · exact fetched
  · next o at_ =>
    obtain ⟨j, -, op⟩ := Option.bind_eq_some_iff.mp at_
    exact SafeAt.bind ((fetched.perform (limmOp_keeps op)).at_ _) fun t done => done.wake.countIssue.advance 8

/-! REPF. -/

theorem replay_keeps {u : Advance} {i j : Instr} {o : Op} (at_ : replay u i = some (j, o)) : Keeps b o := by
  unfold replay at at_
  split at at_
  all_goals cases at_
  iterate 43 exact opScalar _ _ _
  iterate 3 exact opTwo _ _ _ _ _ _ _ _
  · exact opAlu _ _ _ _ _ _ _ _ _
  iterate 2 exact opTwo _ _ _ _ _ _ _ _
  iterate 2 exact opOne _ _ _ _ _ _
  iterate 6 exact opTwo _ _ _ _ _ _ _ _
  iterate 2 exact opAlu _ _ _ _ _ _ _ _ _
  iterate 4 exact opTwo _ _ _ _ _ _ _ _
  iterate 10 exact opOne _ _ _ _ _ _
  · exact opTwo _ _ _ _ _ _ _ _
  · exact opTcvt _ _ _ _ _
  · exact opTqnt _ _ _ _ _ _ _
  · exact opTdq _ _ _ _ _ _ _

theorem secondWord (h : Kept b s) (pc : Word) (i : Option Instr) : Reads b (secondWord pc s i) := by
  unfold Machine.secondWord
  split
  · have word := h.issueWord (addOff pc 4)
    split
    · next at_ => rw [at_] at word; exact word
    · exact word
  · exact h

theorem notEligible (h : Kept b s) {α : Type} {P : α → Prop} (site : Site) (w : Nat) (i : Option Instr) (pc : Word) :
    SafeAt b P (notEligible site w i pc s : SitedRun α) := SafeAt.bind ((h.secondWord pc i).at_ _) fun _ kept => kept.setPc pc

theorem captureWord (h : Kept b s) (site : Site) (pc : Word) : SafeAt b (fun p => Kept b p.2) (captureWord site pc s) := by
  refine SafeAt.bind ((limitFirst (h.issueWord pc)).at_ _) fun p kept => ?_
  dsimp only
  split
  · split
    · exact kept
    · exact kept.notEligible _ _ _ _
  · exact kept.notEligible _ _ _ _

theorem capture (h : Kept b s) (site : Site) (n : Nat) (pc : Word) : SafeAt b (fun p => Kept b p.2) (capture site n pc s) := by
  induction n generalizing s pc with
  | zero => exact h
  | succ n ih => exact SafeAt.bind (h.captureWord site pc) fun _ kept => SafeAt.bind (ih kept _) fun _ done => done

theorem replayOne (h : Kept b s) (site : Site) (words : List Instr) (stride : Advance) (pi : Nat × Nat) :
    SafeAt b (Kept b) (replayOne site words stride pi s) := by
  unfold Machine.replayOne
  split
  · exact h
  · next i o at_ =>
    obtain ⟨j, -, op⟩ := Option.bind_eq_some_iff.mp at_
    have done := h.perform (replay_keeps op)
    split
    · next at_ => rw [at_] at done; exact Kept.countIssue (Kept.wake done)
    · next at_ => rw [at_] at done; exact Kept.setIdx done _
    · next at_ => rw [at_] at done; exact done

theorem replayAll (h : Kept b s) (site : Site) (words : List Instr) (stride : Advance) (xs : List (Nat × Nat)) :
    SafeAt b (Kept b) (replayAll site words stride xs s) := by
  induction xs generalizing s with
  | nil => exact h
  | cons x xs ih => exact SafeAt.bind (h.replayOne site words stride x) fun _ kept => ih kept

theorem runRepf (h : Kept b s) (c : BitVec 4) (r : BitVec 8) (d x y : BitVec 4) : SafeAt b (Kept b) (runRepf c r d x y s) := by
  refine SafeAt.bind (h.capture _ _ _) fun p captured => ?_
  obtain ⟨words, t⟩ := p
  have tail : ∀ u site stride xs n, Kept b u → SafeAt b (Kept b) (do
      let u ← Machine.replayAll site words stride xs (if midReplay u then u else Machine.countIssue u)
      .ok (Machine.advance n (Machine.clearRst (Machine.wake u)))) := fun u site stride xs n kept =>
    SafeAt.bind (Kept.replayAll (ite (fun _ => kept) fun _ => kept.countIssue) _ _ _ _) fun _ done => done.wake.clearRst.advance _
  dsimp only
  split
  · exact tail _ _ _ _ _ captured
  · exact SafeAt.bind ((captured.perform (o := { body := fun s => .ok s }) fun _ kept => kept).at_ _) fun _ performed => tail _ _ _ _ _ performed

end Kept

end Sys2Proof.Proofs
end

