-- ==== Sys2Proof/Proofs/KeptPlacement.lean ====
section
/-! PROOFS. Deliveries, the start and the resumption of tasks, retests and migration keep every memory canonical (O60). -/

namespace Sys2Proof.Proofs

open Sys2Proof Sys2Proof.Machine Sys2Proof.Claims

/-! New contexts. -/

theorem tidy_startRegs {m : Msg} (ranks : Word) (h : TidyMsg m) : TidyRegs (startRegs m ranks) := by
  intro x
  unfold startRegs
  dsimp only
  split
  · next d shape tile =>
    by_cases here : x = (15 : TReg)
    · rw [here]
      exact (congrArg (fun y => y.data.wf) (get_set_same Regs.reset.t (15 : TReg) { data := d, shape := shape, full := true })).trans (h d shape tile)
    · exact (congrArg (fun y => y.data.wf) (get_set_other Regs.reset.t here { data := d, shape := shape, full := true })).trans (tidy_regsReset x)
  · exact tidy_regsReset x

theorem tidy_startHart {m : Msg} (id core : Nat) (ranks : Word) (partner : Option Nat) (h : TidyMsg m) : TidyHart (startHart id core ranks partner m) :=
  ⟨tidy_startRegs ranks h, tidy_startRegs ranks h, rfl, List.forall_mem_nil _, List.forall_mem_nil _, ne_cont rfl⟩

theorem tidy_resumeHart (id core : Nat) (partner : Option Nat) (was : Suspended) (m : Msg) : TidyHart (resumeHart id core partner was m) :=
  ⟨tidy_regsReset, tidy_regsReset, rfl, List.forall_mem_nil _, List.forall_mem_nil _, ne_cont rfl⟩

theorem tidy_recordRegs (m : Memory) : TidyRegs (recordRegs m) := by
  intro x
  unfold recordRegs
  dsimp only
  rw [get_ofFn]
  by_cases own : 16 - m.readLE 6 1 ≤ x.val
  · rw [if_pos own]
    by_cases live : bitOf (m.readLE 4 2) x.val = true
    · rw [if_pos live]
      dsimp only
      exact Memory.window_wf _ _ _
    · rw [if_neg live]; rfl
  · rw [if_neg own]; rfl

theorem tidy_loadRecord (m : Memory) {x : Hart} : TidyHart x → TidyHart (loadRecord m x) := by
  rintro ⟨-, -, report, effects, inflight, run⟩
  have regs : TidyRegs (if x.rdl = 0 then recordRegs m else withRdl (recordRegs m) x.rdl) := by
    split <;> exact fun t => tidy_recordRegs m t
  exact ⟨regs, regs, report, effects, inflight, run⟩

theorem tidy_recordPorts (cap : Nat) (m : Memory) : ∀ p ∈ recordPorts cap m, TidyMsg p.2.msg := by
  unfold recordPorts
  refine List.forall_mem_map.mpr fun i _ d v tile => ?_
  obtain ⟨-, same⟩ := (Option.ite_none_right_eq_some (α := Memory × BitVec 16)).mp tile
  have data := congrArg Prod.fst (Option.some.inj same)
  dsimp only at data
  exact data ▸ Memory.window_wf _ _ _

namespace Kept

variable {s : State}

theorem addParked (h : Kept .event s) {x : Hart} {n f : Nat} (tidy : TidyHart x) :
    Kept .event { s with parked := s.parked ++ [x], nextId := n, fresh := f } :=
  { h with harts := { h.harts with rest := tidy_push h.harts.rest ⟨tidy, trivial⟩ } }

theorem addHart (h : Kept .event s) {x : Hart} (tidy : TidyHart x) : Kept .event (addHart x s) := by
  unfold Machine.addHart
  extract_lets y t
  have added : Kept .event t := h.addParked tidy
  exact added.modCore fun x => x

theorem freshCopies {b : Bound} (h : Kept b s) (cap : Nat) (k : MsgKind) (cores : List Nat) : Kept b (freshCopies cap k cores s) :=
  ite (fun _ => h.foldl _ fun _ _ _ kept => kept.refreshCopies _ _) fun _ => h

theorem startTask (h : Kept .event s) (core : Nat) {m : Msg} (tidy : TidyMsg m) : Kept .event (startTask core m s) := by
  unfold Machine.startTask
  split
  · exact h
  · extract_lets t ranks id
    have fresh : Kept .event t := h.freshCopies _ _ _
    split
    · exact fresh.addHart (tidy_startHart _ _ _ _ tidy)
    · exact (fresh.addHart (tidy_startHart _ _ _ _ tidy)).addHart (tidy_startHart _ _ _ _ tidy)

theorem restorePorts {b : Bound} (h : Kept b s) (core : Nat) {es : List (Nat × PortEntry)} (tidy : ∀ p ∈ es, TidyMsg p.2.msg) :
    Kept b (restorePorts core es s) := by
  refine h.modCore fun ⟨pad, rows, inbox, ports⟩ => ⟨pad, rows, inbox, fun i e he => ?_⟩
  dsimp only at he
  rw [get_ofFn] at he
  obtain he | he := List.mem_append.mp he
  · obtain ⟨p, hp, rfl⟩ := List.mem_map.mp he
    exact tidy p (List.mem_of_mem_filter hp)
  · exact ports i e he

theorem countResumed (h : Kept .event s) (cap : Nat) (e : Extent) : Kept .event (countResumed cap e s) := by
  unfold Machine.countResumed
  exact ite (fun _ => (h.deviceWrite_event _ _ _).deviceWrite_event _ _ _) fun _ => h.deviceWrite_event _ _ _

theorem resumeTask (h : Kept .event s) (core : Nat) (m : Msg) : Kept .event (resumeTask core m s) := by
  unfold Machine.resumeTask
  split
  · exact h
  · extract_lets free unbound id was left
    have unbound_ : Kept .event unbound := h.foldl _ fun _ _ _ kept => kept.modCore fun x => x
    have left_ : Kept .event left := { unbound_ with }
    split
    · exact left_.addHart (tidy_resumeHart ..)
    · exact (left_.addHart (tidy_resumeHart ..)).addHart (tidy_resumeHart ..)

theorem takeRecord (h : Kept .event s) (cap : Nat) (m : Memory) : Kept .event (takeRecord cap m s) := by
  unfold Machine.takeRecord
  extract_lets tiles
  have loaded := h.mod (f := fun x => { loadRecord m x with phys := tiles }) rfl fun tidy =>
    have ⟨r, c, o, e, i, x⟩ := tidy_loadRecord m tidy
    ⟨r, c, o, e, i, x⟩
  have drawn : Kept .event { s.mod (fun x => { loadRecord m x with phys := tiles }) with fresh := s.fresh + 1 } := { loaded with }
  exact drawn.restorePorts _ (tidy_recordPorts cap m)

/-- What follows the checks of a record: it is taken, it waits for its place, or it is no record. -/
theorem taken {t : State} (met : Kept .event t) (ok fits : Bool) (cap : Nat) (e : Extent) (m : Memory) (w : Wait) :
    Goes .event (if ok then if fits then .ok (Machine.onPair (Machine.takeRecord cap m) (Machine.countResumed cap e t)) else .error (.wait w t)
      else Machine.faultOf .contFormat t) :=
  Safe.ite (fun _ => Safe.ite (fun _ => (met.countResumed cap e).onPair (b := .event) fun _ kept => kept.takeRecord cap m) fun _ => met) fun _ => met

theorem readRecord (h : Kept .event s) (entry : Word) : Goes .event (readRecord entry s) := by
  unfold Machine.readRecord
  split
  · exact h
  · next c _ =>
    split
    · exact h
    · next e _ =>
      extract_lets m at_
      have met := h.meetLines c.part at_ (recordSize s e entry)
      clear_value m at_
      split
      · next eq => rw [eq] at met; exact met
      · next eq =>
        rw [eq] at met
        split
        · exact met
        · exact taken met _ _ c.id e m _

theorem admitTo (h : Kept .event s) (core : Nat) {m : Msg} (tidy : TidyMsg m) : Kept .event (admitTo core m s) :=
  ite (fun _ => h.resumeTask _ _) fun _ => h.startTask _ tidy

theorem rebindLease {b : Bound} (h : Kept b s) : Goes b (rebindLease s) := by
  unfold Machine.rebindLease
  split
  · exact h
  · exact Safe.ite (fun _ => h.bindLease _ _ _) fun _ => h.awaitLease _

/-! Deliveries. -/

theorem takeNet {b : Bound} (h : Kept b s) (i : Nat) : Kept b (takeNet i s) := { h with net := fun m hm => h.net m (List.mem_of_mem_eraseIdx hm) }

theorem net_tidy {b : Bound} (h : Kept b s) {i : Nat} {m : Msg} (at_ : s.net[i]? = some m) : TidyMsg m := h.net m (List.mem_of_getElem? at_)

theorem deliverTo (h : Kept .event s) (i core : Nat) {m : Msg} (tidy : TidyMsg m) : Kept .event (deliverTo i core m s) :=
  ite (fun _ => h) fun _ => ite (fun _ => (h.takeNet i).admitTo core tidy) fun _ => ite (fun _ => (h.takeNet i).modCore fun ⟨pad, rows, inbox, ports⟩ =>
    ⟨pad, rows, tidy_push inbox tidy, ports⟩) fun _ => h

theorem deliverMessage (h : Kept .event s) (i core : Nat) : Kept .event (deliverMessage i core s) := by
  unfold Machine.deliverMessage
  split
  · exact h
  · next m at_ => exact ite (fun _ => h.takeNet i) fun _ => ite (fun _ => h) fun _ => h.deliverTo _ _ (h.net_tidy at_)

theorem enterPort {b : Bound} (h : Kept b s) {m : Msg} (tidy : TidyMsg m) (core : Nat) : Kept b (enterPort m core s) := by
  unfold Machine.enterPort
  exact h.modCore fun old =>
    have ⟨pad, rows, inbox, ports⟩ := tidy_port (i := Fin.ofNat 4 (destPort m.dest - 4)) old fun e he =>
      (List.mem_append.mp he).elim (old.2.2.2 _ e) fun last => List.mem_singleton.mp last ▸ tidy
    ⟨pad, rows, inbox, ports⟩

theorem arriveData (h : Kept .event s) (i : Nat) : Kept .event (arriveData i s) := by
  unfold Machine.arriveData
  split
  · exact h
  · next m at_ =>
    refine ite (fun _ => h.takeNet i) fun _ => ite (fun _ => h) fun _ => ?_
    split
    · exact h
    · split
      · exact ite (fun _ => (h.takeNet i).enterPort (h.net_tidy at_) _) fun _ => h
      · exact ite (fun _ => ((h.takeNet i).enterPort (h.net_tidy at_) _).enterPort (h.net_tidy at_) _) fun _ => h

/-! The mesh. -/

theorem parkMessage (h : Kept .event s) (i : Nat) {m : Msg} (tidy : TidyMsg m) : Kept .event (parkMessage i m s) := by
  unfold Machine.parkMessage
  split
  · exact h
  · exact ite (fun _ => (h.takeNet i).modCluster rfl fun ⟨o, u, park, products⟩ => ⟨o, u, tidy_push park tidy, products⟩) fun _ => h

theorem walk (h : Kept .event s) (i : Nat) : Kept .event (walk i s) := by
  unfold Machine.walk
  split
  · exact h
  · next m at_ =>
    refine ite (fun _ => h.takeNet i) fun _ => ite (fun _ => h) fun _ => ?_
    split
    · exact (h.takeNet i).admitTo _ (h.net_tidy at_)
    · exact h.parkMessage i (h.net_tidy at_)

theorem resumeAt (h : Kept .event s) (i core : Nat) : Kept .event (resumeAt i core s) := by
  unfold Machine.resumeAt
  split
  · exact h
  · exact ite (fun _ => h.takeNet i) fun _ => ite (fun _ => (h.takeNet i).resumeTask _ _) fun _ => h

theorem offerAll (h : Kept .event s) {core : Nat} {drop : Msg → State → State} {may : State → Msg → Bool} (drops : ∀ m t, Kept .event t → Kept .event (drop m t))
    {ms : List Msg} (tidy : ∀ m ∈ ms, TidyMsg m) : Kept .event (offerAll core drop may ms s) := by
  induction ms generalizing s with
  | nil => exact h
  | cons m ms ih =>
    rw [List.forall_mem_cons] at tidy
    exact ih (ite (fun _ => (drops m s h).admitTo _ tidy.1) fun _ => h) tidy.2

theorem admitWaiting (h : Kept .event s) (core : Nat) : Kept .event (admitWaiting core s) := by
  unfold Machine.admitWaiting
  extract_lets cl t
  have first : Kept .event t := h.offerAll (fun m t kept => kept.modCore fun ⟨pad, rows, inbox, ports⟩ =>
    ⟨pad, rows, fun x hx => inbox x (List.mem_of_mem_erase hx), ports⟩) (h.core core).2.2.1
  exact first.offerAll (fun m t kept => kept.modCluster rfl fun ⟨o, u, park, products⟩ => ⟨o, u, fun x hx => park x (List.mem_of_mem_erase hx), products⟩)
    (first.cluster cl).2.2.1

theorem slotFreed (h : Kept .event s) (core : Nat) : Kept .event (slotFreed core s) :=
  ite (fun _ => h) fun _ => Kept.admitWaiting (h.modCore fun x => x) _

/-! Retests and clears. -/

theorem zeroTested {b : Bound} (h : Kept b s) (core : Nat) (w : March) : Kept b (zeroTested core w s) := by
  unfold Machine.zeroTested
  extract_lets inBank hit
  have settled : Kept b { s with padPoison := s.padPoison.filter fun p => !(p.1 == core && (List.range 4).all fun i => inBank (4 * p.2 + i)),
                                 sram := s.sram.filter fun f => !f.place.onPad core inBank && !f.place.onRow core hit } := { h with }
  exact settled.modCore fun ⟨pad, rows, inbox, ports⟩ => ⟨Memory.filter_wf _ pad, Memory.filter_wf _ rows, inbox, ports⟩

theorem loseSpare {b : Bound} (h : Kept b s) (core : Nat) (x : Nat × Nat × Nat) : Kept b (loseSpare core x s) := by
  unfold Machine.loseSpare
  exact Kept.modCluster (h.logPkg _) rfl fun x => x

theorem finishRetest (h : Kept .event s) (core : Nat) : Kept .event (finishRetest core s) := by
  unfold Machine.finishRetest
  extract_lets k c known w tested repaired done
  clear_value w known
  have drawn : Kept .event { s with fresh := s.fresh + 1 } := { h with }
  have tested_ : Kept .event tested := drawn.zeroTested _ _
  have written : Kept .event (tested.modCluster (clusterNo core) fun c => { c with repair := w.table }) := tested_.changeCluster fun x => x
  have repaired_ : Kept .event repaired := written.foldl _ fun _ x _ kept => kept.loseSpare core x
  have done_ : Kept .event done := repaired_.modCore fun x => x
  exact ite (fun _ => h) fun _ => ite (fun _ => done_) fun _ =>
    Kept.foldl _ (done_.logFence core) fun _ _ _ kept => kept.abortCapsule trivial (bareReport_wf ..)

theorem finishClear (h : Kept .event s) (core : Nat) : Kept .event (finishClear core s) := by
  unfold Machine.finishClear
  extract_lets k t
  have clear : Kept .event { s with padPoison := s.padPoison.filter fun p => p.1 != core, sram := s.sram.filter fun f => !f.place.onPad core fun _ => true } := { h with }
  have cleared : Kept .event t := ite (fun _ => Kept.wakeFootprint (clear.modCore fun tidy =>
    have ⟨_, rows, inbox, ports⟩ := tidy_emptied tidy
    ⟨rfl, Memory.filter_wf _ rows, inbox, ports⟩) _) fun _ => h
  exact (cleared.finishRetest _).admitWaiting _

theorem checkHeader (h : Kept .event s) (entry : Word) : Goes .event (checkHeader entry s) :=
  Safe.bind (h.fetchWord _) fun ⟨_, _⟩ kept => Safe.bind (Kept.ensure kept _ _) fun _ _ => Kept.mod (f := fun h => { h with header := none }) kept rfl fun x => x

theorem readStart (h : Kept .event s) : Goes .event (readStart s) := by
  unfold Machine.readStart
  split
  · exact h.checkHeader _
  · exact h.readRecord _
  · exact h

theorem finishRegisters (h : Kept .event s) : Kept .event (finishRegisters s) := by
  have start := h.readStart
  unfold Machine.finishRegisters
  split
  · split
    · next at_ => rw [at_] at start; exact Kept.mod start rfl (tidy_ran rfl rfl)
    · next at_ => rw [at_] at start; exact Kept.raise (b := .event) start _ _ _
    · next at_ => rw [at_] at start; exact start
    · exact h
  · exact h

/-! Migration. -/

theorem postStage {b : Bound} (h : Kept b s) (block : Word) : Kept b (postStage block s) := by
  unfold Machine.postStage
  split
  · extract_lets p n pa r t
    have posted : Kept b t := h.modPart fun x => x
    exact ite (fun _ => h) fun _ => ite (fun _ => posted.emit _) fun _ => posted
  · exact h

theorem arriveService (h : Kept .event s) (block : Option Word) : Kept .event (arriveService block s) := by
  unfold Machine.arriveService
  extract_lets core service
  refine ite (fun _ => ?_) fun _ => ?_
  · split
    · exact h
    · exact h.mod rfl (tidy_ran rfl rfl)
  · have met := h.meetGroup ((maskBits (liveMask s.hart (BitVec.allOnes 16))).map (Fin.ofNat 16))
    split
    · next at_ => rw [at_] at met; exact Kept.raise (b := .event) met _ _ _
    · exact h
    · next t at_ =>
      rw [at_] at met
      extract_lets left moved posted
      have moved_ : Kept .event moved := (Kept.leaveRows met).mod rfl (tidy_run (fun old x => old x) ⟨rfl, rfl, rfl, rfl⟩ fun m => by dsimp only; split <;> nofun)
      have posted_ : Kept .event posted := by
        unfold posted
        split
        · exact moved_.postStage _
        · exact moved_
      exact (posted_.releaseCore _).admitWaiting _

theorem arriveTile (h : Kept .event s) : Kept .event (arriveTile s) := by
  unfold Machine.arriveTile
  extract_lets cl
  split
  · exact h
  · extract_lets mine
    split
    · exact h
    · next core _ =>
      extract_lets tiles
      have moved := h.mod (f := fun h => { h with core := core, phys := tiles, migrated := false, run := .clearing }) rfl (tidy_ran rfl rfl)
      exact Kept.modCore { moved with } fun x => x

theorem migrationArrival (h : Kept .event s) : Kept .event (migrationArrival s) := by
  unfold Machine.migrationArrival
  split
  · exact h.arriveService _
  · exact h.arriveService _
  · exact h.arriveTile
  · exact h

theorem leaveCore (h : Kept .event s) : Kept .event (leaveCore s) := by
  unfold Machine.leaveCore
  extract_lets core t
  have left : Kept .event t := h.leaveRows.mod rfl (tidy_ran rfl rfl)
  exact ite (fun _ => left) fun _ => Kept.releaseCore (left.modCore fun x => x) _

theorem coreParity (h : Kept .event s) : Kept .event (coreParity s) := by
  unfold Machine.coreParity
  refine ite (fun _ => h) fun _ => ite (fun _ => h.onPair (b := .event) fun _ kept => kept.squash) fun _ => ?_
  have back : Kept .event (if s.free.2.hart.partner.isSome then Machine.pairMismatch {} (Machine.drain s.free.2) else
      Machine.rollback {} .coreParity s.free.1 (Machine.drain s.free.2)) :=
    ite (fun _ => Kept.pairMismatch (b := .event) h.free.drain _) fun _ => Kept.rollback (b := .event) h.free.drain _ _ _
  exact ite (fun _ => back) fun _ => back.leaveCore

theorem parityTimeout (h : Kept .event s) : Kept .event (parityTimeout s) := ite (fun _ => Kept.capsuleFault (b := .event) h.free _ _ _) fun _ => h

/-! Long waits. -/

theorem waitSafePoint {b : Bound} (h : Kept b s) : Kept b (waitSafePoint s) := by
  unfold Machine.waitSafePoint
  split
  · exact h
  · exact ite (fun _ => h.trySafe _ _ _) fun _ => h

theorem releaseToken (h : Kept .event s) : Kept .event (releaseToken s) := by
  refine ite (fun _ => ?_) fun _ => h
  have plain := h.onPair (b := .event) (f := fun t => t.mod fun h => { h with chunk := { h.chunk with exclusive := false, squashes := 3 } }) fun _ kept => kept.mod rfl fun x => x
  exact { plain with }

theorem safeDistance (h : Kept .event s) : Kept .event (safeDistance s) := by
  unfold Machine.safeDistance
  refine ite (fun _ => ?_) fun _ => h
  have word := h.startIssue.fetch
  split
  · next at_ => rw [at_] at word; exact ite (fun _ => Kept.raise (b := .event) word _ _ _) fun _ => h
  · exact h

theorem squashOthers (h : Kept .event s) (me : Nat) (set : Nat × Nat) : Kept .event (squashOthers me set s) :=
  h.foldl _ fun _ _ _ kept => kept.onHart (b := .event) trivial fun _ there => there.onPair (b := .event) fun _ now => now.squash

theorem specWayTimeout (h : Kept .event s) : Kept .event (specWayTimeout s) := by
  unfold Machine.specWayTimeout
  split
  · exact ite (fun _ => h) fun _ => ite (fun _ => h.squashOthers _ _) fun _ => h.onPair (b := .event) fun _ kept => kept.squash
  · exact h

end Kept

end Sys2Proof.Proofs
end

