-- ==== Sys2Proof/Proofs/KeptCommit.lean ====
section
/-! PROOFS. The commit of a chunk, alone and in a pair, keeps every memory canonical (O60). -/

namespace Sys2Proof.Proofs

open Sys2Proof Sys2Proof.Machine Sys2Proof.Claims

/-- What an effect makes is canonical. -/
def Makes : Apply → Prop
  | .ok t => Kept .event t
  | .error _ => True

theorem Makes.ite {c : Prop} [Decidable c] {r r' : Apply} (yes : Makes r) (no : Makes r') : Makes (if c then r else r') := by
  split
  · exact yes
  · exact no

theorem Makes.ok {r : Apply} {t : State} (h : Makes r) (at_ : r = .ok t) : Kept .event t := by rw [at_] at h; exact h

theorem Makes.bind {r : Apply} {f : State → Apply} (h : Makes r) (k : ∀ t, Kept .event t → Makes (f t)) : Makes (r >>= f) := by
  cases r with
  | ok t => exact k t h
  | error e => trivial

theorem tidy_fireMessage {c : Capsule} {loc msg ranks : Word} {s : State} {m : Msg} (fires : fireMessage c loc msg ranks s = .ok m) : TidyMsg m := by
  unfold fireMessage at fires
  split at fires
  · exact nomatch fires
  · split at fires
    · exact nomatch fires
    · dsimp only at fires
      split at fires
      · split at fires
        · split at fires
          · cases fires; exact Kept.tidyMsg_plain rfl
          · exact nomatch fires
        · cases fires; exact Kept.tidyMsg_plain rfl
      · exact nomatch fires

namespace Kept

variable {s : State}

/-! Effects. -/

theorem putCount (h : Kept .event s) (core : Nat) (loc : Word) (pa : Option Nat) (n : Nat) : Kept .event (putCount core loc pa n s) := by
  unfold Machine.putCount
  cases pa with
  | none => exact h.modCore fun ⟨pad, rest⟩ => ⟨Memory.writeLE_wf _ _ _ pad, rest⟩
  | some a => exact h.putMem trivial

theorem applyArrive (h : Kept .event s) (core : Nat) (loc : Word) (pa : Option Nat) : Makes (applyArrive core loc pa s) := by
  unfold Machine.applyArrive
  split
  · trivial
  · next c _ =>
    split
    · trivial
    · trivial
    · extract_lets m count target one put
      have put_ : Kept .event put := h.putCount _ _ _ _
      clear_value put
      refine Makes.ite trivial (Makes.ite trivial (Makes.ite ?_ put_))
      cases fires : fireMessage c loc (word (m.readLE 8 8)) _ put with
      | error e => trivial
      | ok msg =>
        have fewer := put_.modCap (id := c.id) (f := fun c => { c with joins := c.joins.filter fun x => !sameCell core loc pa x }) (fun _ => rfl) fun _ x => x
        exact fewer.addNet (tidy_fireMessage fires)

theorem applyJnew (h : Kept .event s) (core : Nat) (loc : Word) (pa : Option Nat) : Makes (applyJnew core loc pa s) := by
  unfold Machine.applyJnew
  split
  · trivial
  · exact Makes.ite trivial (h.modCap (fun _ => rfl) fun _ x => x)

theorem popRing {b : Bound} (h : Kept b s) (n : Nat) : Kept b (popRing n s) := h.modRing _ _ _

theorem popPort {b : Bound} (h : Kept b s) (core n : Nat) : Kept b (popPort core n s) := by
  unfold Machine.popPort
  exact h.modCore fun tidy => tidy_port tidy fun e he => tidy.2.2.2 _ e (List.mem_of_mem_eraseP he)

theorem scrubRing {b : Bound} (h : Kept b s) (cl n : Nat) : Kept b (scrubRing cl n s) := by
  unfold Machine.scrubRing
  exact ite (fun _ => h.foldl _ fun _ _ _ kept => ite (fun _ => kept) fun _ => kept.scrubBuffer _ _ _) fun _ => h

theorem scrubIdle {b : Bound} (h : Kept b s) : Kept b (scrubIdle s) := ite (fun _ => h.foldl _ fun _ _ _ kept => kept.scrubRing _ _) fun _ => h

theorem applyEffect (h : Kept .event s) (e : Effect) : Makes (applyEffect e s) := by
  cases e with
  | store pa bs => exact h.putMem trivial
  | padStore core a bs => exact h.modCore fun ⟨pad, rest⟩ => ⟨Memory.writeBytes_wf _ _ pad, rest⟩
  | amo pa op wide v => exact h.applyAmo fun _ => trivial
  | dirty word bit => exact h.setDirtyBit _ _ _
  | popRing n => exact h.popRing n
  | popPort core n => exact h.popPort core n
  | arrive core loc pa => exact h.applyArrive core loc pa
  | jnew core loc pa target msg => exact h.applyJnew core loc pa
  | fenceX => exact h.mod rfl fun x => x
  | fenceH => exact h.mod rfl fun x => x
  | mrel => exact h.endLease
  | atomic => exact h
  | message m => exact h
  | sendx => exact h
  | spawn c => exact h
  | copyOut c => exact h

theorem applyAll (h : Kept .event s) (es : List Effect) : Makes (applyAll es s) := by
  induction es generalizing s with
  | nil => exact h
  | cons e es ih => exact Makes.bind (h.applyEffect e) fun t kept => ih kept

theorem settlePads {b : Bound} (h : Kept b s) (es : List Effect) : Kept b (settlePads es s) := h.foldl _ fun _ _ _ kept => kept.settlePad _ _ _

theorem settleStores {b : Bound} (h : Kept b s) (es : List Effect) : Kept b (settleStores es s) := by
  have read := h.foldl (storeRanges es) (f := fun t x => Machine.readLines t.partition x.1 x.2 t) fun _ _ _ kept => kept.readLines _ _ _
  exact (read.settlePoison _ _).settlePads _

theorem meetImage {b : Bound} (h : Kept b s) (core : Nat) (loc : Word) (pa : Option Nat) : Kept b (meetImage core loc pa s) := by
  unfold Machine.meetImage
  split
  · exact h.readLines _ _ _
  · exact h

theorem meetCells {b : Bound} (h : Kept b s) (es : List Effect) : Kept b (meetCells es s) := by
  refine h.foldl es fun t e _ kept => ?_
  split
  · exact (kept.meetPad _ _ _ _).meetImage _ _ _
  · exact (kept.readLines _ _ _).meetImage _ _ _
  · exact kept

theorem sendAll (h : Kept .event s) (task fx : Nat) {es : List Effect} (tidy : ∀ e ∈ es, TidyEffect e) : Kept .event (sendAll task fx es s) := by
  induction es generalizing s fx with
  | nil => exact h
  | cons e es ih =>
    obtain ⟨first, rest⟩ := List.forall_mem_cons.mp tidy
    unfold Machine.sendAll
    split
    · exact ih h _ rest
    · exact ih (h.addNet (first.1 _ rfl)) _ rest
    · exact ih (ite (fun _ => (h.holdRegions _).holdRelease _ _ first) fun _ => (h.holdRegions _).releaseCopy _) _ rest
    · exact ih (h.holdRelease _ _ first) _ rest
    · exact ih (h.holdRelease _ _ first) _ rest
    · exact ih h _ rest

/-! Commits. -/

theorem countCommit {b : Bound} (h : Kept b s) : Kept b (countCommit s) := by
  unfold Machine.countCommit
  exact { h with }

/-- A context whose chunk has committed. -/
def closed (clock : Nat) (x : Hart) : Hart :=
  { x with chunk := Chunk.reset, commits := x.commits + 1, rdl := 0, mismatches := 0, request := none, times := [],
           ckpt := x.r, ckptSdist := x.sdist, ckptLease := leaseNow clock x }

theorem tidy_closed (clock : Nat) {x : Hart} : TidyHart x → TidyHart (closed clock x) := fun ⟨r, _, o, _, i, w⟩ => ⟨r, r, o, List.forall_mem_nil _, i, w⟩

theorem closeChunk {b : Bound} (h : Kept b s) : Kept b (closeChunk s) := by
  unfold Machine.closeChunk
  extract_lets id settled t
  have settled_ : Kept b settled := h.settleQueries _ _
  have free : Kept b t := { settled_ with }
  exact Kept.scrubIdle (free.mod (f := closed t.clock) rfl (tidy_closed _))

theorem commitChunk (h : Kept .event s) : Makes (commitChunk s) := by
  unfold Machine.commitChunk
  refine Makes.ite trivial (Makes.bind ((h.settleStores _).applyAll _) fun t kept => ?_)
  have counted := ((kept.publish s.hart.id s.hart.chunk.writeSig s.hart.chunk.padWrite).countCommit.noteProgress s.hart.cap).modCap (id := s.hart.cap)
    (f := fun c => { c with commits := c.commits + 1 }) (fun _ => rfl) fun _ x => x
  exact counted.closeChunk.sendAll _ _ h.hart.2.2.2.1

theorem applyLocal (h : Kept .event s) (e : Effect) : Kept .event (applyLocal e s) := by
  unfold Machine.applyLocal
  split
  · exact h.modCore fun ⟨pad, rest⟩ => ⟨Memory.writeBytes_wf _ _ pad, rest⟩
  · exact h.popRing _
  · exact h.popPort _ _
  · exact h.putCount _ _ _ _
  · exact h.mod rfl fun x => x
  · exact h.mod rfl fun x => x
  · exact h.endLease
  · exact h

theorem commitLocal (h : Kept .event s) : Kept .event (commitLocal s) :=
  Kept.closeChunk (Kept.publish ((h.settlePads _).foldl _ fun _ _ _ kept => kept.applyLocal _) _ _ _)

theorem commitFault (h : Kept .event s) (code : Code) (detail : Option Word) : Kept .event (commitFault code detail s) := by
  have known : ∀ t, Kept .event t → ∀ d, Kept .event (match code.cls with
      | .rollback => Machine.rollbackAll { word := committingWord t } code d t
      | _ => Machine.abortCapsule t.hart.cap code.num (taskFields { word := committingWord t } t 0 (commonFields t t.hart.cap code.num d)) t) := by
    intro t kept d
    split
    · exact kept.rollbackAll (b := .event) _ _ _
    · exact kept.abortCapsule (b := .event) trivial (taskFields_wf (commonFields_wf ..))
  unfold Machine.commitFault
  cases detail with
  | some d => exact known s h d
  | none => exact known _ h.free _

/-! How a commit ends. -/

theorem endTask (h : Kept .event s) : Kept .event (endTask s) := by
  unfold Machine.endTask
  extract_lets core other ended waiting
  have ended_ : Kept .event ended := h.onPair (b := .event) fun _ kept => kept.endContext
  have waiting_ : Kept .event waiting := ended_.admitWaiting _
  clear_value other
  split
  · exact waiting_.admitWaiting _
  · exact waiting_

theorem tidy_moved {k : Core} {moved : Bool} {l : List (Word × Nat)} : TidyCore k →
    TidyCore { k with ports := if moved then Vector.replicate 4 [] else k.ports, boundRec := l } := by
  intro tidy
  cases moved with
  | true => obtain ⟨pad, rows, inbox, ports⟩ := tidy_emptied tidy; exact ⟨pad, rows, inbox, ports⟩
  | false => obtain ⟨pad, rows, inbox, ports⟩ := tidy; exact ⟨pad, rows, inbox, ports⟩

theorem endSafe (h : Kept .event s) (r : Regs) (status : BitVec 128) (rst : BitVec 512) (live : Nat) (pc : Word) (wait : Option Wait) :
    Kept .event (endSafe r status rst live pc wait s) := by
  unfold Machine.endSafe
  extract_lets core moved written both waiting
  have written_ : Kept .event written := h.finishSafe _ _ _ _ _ _
  have both_ : Kept .event both := by
    unfold both
    split
    · exact written_
    · exact written_.onHart (b := .event) trivial fun u kept => Kept.stopContext (kept.modCore tidy_moved)
  have waiting_ : Kept .event waiting := both_.admitWaiting _
  refine ite (fun _ => ?_) fun _ => written_
  split
  · exact waiting_.admitWaiting _
  · exact waiting_

theorem squashed (h : Kept .event s) : Kept .event (Machine.onPair Machine.squash s) := h.onPair (b := .event) fun _ kept => kept.squash

theorem refuseCommit (h : Kept .event s) (k : CommitKind) : Kept .event (refuseCommit k s) := by
  unfold Machine.refuseCommit
  split
  · exact ite (fun _ => h.squashed.endSafe _ _ _ _ _ _) fun _ => h.squashed.noRoom
  · exact h.squashed

/-- A context that stands at its safe point. -/
def atPoint (pc : Word) (run : RunState) (x : Hart) : Hart := { x with r := { x.r with pc := pc }, ckpt := { x.r with pc := pc }, run := run }

theorem tidy_atPoint (pc : Word) {run : RunState} (plain : ∀ m, run ≠ .committing (.cont m)) {x : Hart} : TidyHart x → TidyHart (atPoint pc run x) :=
  fun ⟨r, _, o, e, i, _⟩ => ⟨r, r, o, e, i, fun m eq => absurd eq (plain m)⟩

theorem finishCommit (h : Kept .event s) {k : CommitKind} (tidy : ∀ m, k = .cont m → TidyMsg m) : Kept .event (finishCommit k s) := by
  cases k with
  | done => exact Kept.endTask (h.modCap (fun _ => rfl) fun _ x => x)
  | cont m => exact Kept.endTask (h.addNet (tidy m rfl))
  | safe mask pc wait =>
    have there : Kept .event (Machine.onPair (fun t => t.mod (atPoint pc (afterSafe wait))) s) :=
      h.onPair (b := .event) fun _ kept => kept.mod rfl (tidy_atPoint pc (afterSafe_runs wait))
    exact there.endSafe _ _ _ _ _ _

theorem roomGone (h : Kept .event s) {k : CommitKind} {t : State} (gone : roomGone k s = some t) : Kept .event t := by
  cases k with
  | done => exact nomatch gone
  | cont m => exact nomatch gone
  | safe mask pc wait =>
    unfold Machine.roomGone at gone
    dsimp only at gone
    split at gone
    · exact nomatch gone
    · obtain rfl := Option.some.inj gone
      exact h.onPair (b := .event) fun _ kept => Kept.noRoom (kept.mod rfl (tidy_run (fun old x => old x) ⟨rfl, rfl, rfl, rfl⟩ (afterSafe_runs wait)))

theorem meetLive {b : Bound} (h : Kept b s) (k : CommitKind) : Goes b (meetLive k s) := by
  unfold Machine.meetLive
  split
  · exact h.meetGroup _
  · exact h

theorem commitAlone (h : Kept .event s) {k : CommitKind} (tidy : ∀ m, k = .cont m → TidyMsg m) : Kept .event (commitAlone k s) := by
  unfold Machine.commitAlone
  extract_lets units met
  have met_ : Kept .event met := (h.noteUse _).drain.meetCells _
  clear_value met
  refine ite (fun _ => h) fun _ => ite (fun _ => h.startExit _) fun _ => ?_
  split
  · next gone => exact met_.roomGone gone
  · refine ite (fun _ => met_.refuseCommit _) fun _ => ?_
    have live := met_.meetLive k
    split
    · next at_ => rw [at_] at live; exact Kept.commitFault live _ _
    · exact met_
    · next at_ =>
      rw [at_] at live
      have made := Kept.commitChunk live
      split
      · next at_ => exact (made.ok at_).finishCommit tidy
      · exact Kept.commitFault live _ _

theorem ownFault {b : Bound} (h : Kept b s) (k : CommitKind) : Kept b (ownFault k s).2 := by
  have live := h.meetLive k
  unfold Machine.ownFault
  split
  · next at_ => rw [at_] at live; exact live
  · exact h
  · next at_ => rw [at_] at live; exact live

theorem focused {id : Nat} (h : Kept .event s) : Kept .event (Machine.focus id s) := h.focus (b := .event) trivial

theorem commitPair (h : Kept .event s) {ka : CommitKind} (kb : CommitKind) (x : Hart) (tidy : ∀ m, ka = .cont m → TidyMsg m) :
    Kept .event (commitPair ka kb x s) := by
  unfold Machine.commitPair
  extract_lets a units met
  have met_ : Kept .event met := (h.noteUse _).onPair (b := .event) fun _ kept => kept.drain.meetCells _
  clear_value met
  refine ite (fun _ => h) fun _ => ite (fun _ => h.startExit _) fun _ => ?_
  split
  · next gone => exact met_.roomGone gone
  · refine ite (fun _ => met_.refuseCommit _) fun _ => ?_
    have both : Kept .event (Machine.focus a.id (Machine.ownFault kb (Machine.focus x.id (Machine.ownFault ka met).2)).2) := Kept.focused ((met_.ownFault ka).focused.ownFault kb)
    refine ite (fun _ => both.pairMismatch (b := .event) _) fun _ => ?_
    split
    · exact both.commitFault _ _
    · have made := both.commitChunk
      split
      · next at_ => exact Kept.finishCommit ((made.ok at_).onHart (b := .event) trivial fun _ kept => kept.commitLocal) tidy
      · exact both.commitFault _ _

theorem requestCommit (h : Kept .event s) (p : Nat) : Kept .event (requestCommit p s) := by
  unfold Machine.requestCommit
  extract_lets asked first
  have asked_ : Kept .event asked := ite (fun _ => h) fun _ => h.mod rfl fun x => x
  have first_ : Kept .event first := ite (fun _ => asked_) fun _ => asked_.focused
  clear_value first
  split
  · exact first_
  · split
    · next run _ => exact ite (fun _ => first_.commitPair _ _ fun m eq => first_.hart.2.2.2.2.2 m (eq ▸ run)) fun _ => first_
    · exact first_.pairMismatch (b := .event) _
    · exact first_.pairMismatch (b := .event) _
    · exact first_

theorem arbiter (h : Kept .event s) : Kept .event (arbiter s) := by
  unfold Machine.arbiter
  split
  · next run _ => exact h.commitAlone fun m eq => h.hart.2.2.2.2.2 m (eq ▸ run)
  · exact h.requestCommit _
  · exact h

theorem pairTimeout (h : Kept .event s) : Kept .event (pairTimeout s) := by
  unfold Machine.pairTimeout
  split
  · exact ite (fun _ => h.pairMismatch (b := .event) _) fun _ => h
  · exact h

end Kept

end Sys2Proof.Proofs
end

