-- ==== Sys2Proof/Proofs/KeptAdmission.lean ====
section
/-! PROOFS. Selection, admission, launches, pre-emption and the end of capsules and queues keep every memory canonical (O60). -/

namespace Sys2Proof.Proofs

open Sys2Proof Sys2Proof.Machine Sys2Proof.Claims

/-- What admission builds of a record. -/
def Fresh (c : Capsule) : Prop := c.record.wf = true ∧ c.launch = none

namespace Kept

variable {s : State}

/-! Selection. -/

theorem moveOn {b : Bound} (h : Kept b s) (p v n : Nat) : Kept b (moveOn p v n s) := h.modPart fun x => x
theorem arriveAt {b : Bound} (h : Kept b s) (p v : Nat) : Kept b (arriveAt p v s) := h.modPart fun x => x

theorem selectQueue {b : Bound} (h : Kept b s) (p v : Nat) (qs : List Nat) (k : Nat) : Kept b (selectQueue p v qs k s).2 := by
  induction k generalizing s with
  | zero => exact h
  | succ k ih =>
    unfold Machine.selectQueue
    extract_lets i x
    split
    · exact h
    · extract_lets t y taken emptied
      have t_ : Kept b t := ite (fun _ => h) fun _ => Kept.arriveAt (h.modQueue fun x => x) _ _
      have taken_ : Kept b taken := t_.modQueue fun x => x
      have emptied_ : Kept b emptied := ite (fun _ => t_.modQueue fun x => x) fun _ => t_
      split
      · exact ite (fun _ => taken_.moveOn _ _ _) fun _ => taken_
      · exact ih (emptied_.moveOn _ _ _)

theorem select {b : Bound} (h : Kept b s) : Kept b (select s) := by
  unfold Machine.select
  extract_lets ps sum t
  have t_ : Kept b t := h.foldl _ fun _ _ _ kept => kept.modPart fun x => x
  split
  · exact t_
  · next p _ =>
    extract_lets u v qs
    have u_ : Kept b u := t_.modPart fun x => x
    have found := u_.selectQueue p v qs (2 * qs.length)
    split
    · next at_ => rw [at_] at found; exact { found with }
    · next at_ => rw [at_] at found; exact found

/-! Completions and teardowns. -/

theorem dropRecord {b : Bound} (h : Kept b s) (n : Nat) (c : Completion) : Kept b (dropRecord n c s) := by
  unfold Machine.dropRecord
  split
  · exact h
  · exact h.logPart _ _

theorem writeHost {b : Bound} (h : Kept b s) (a : Nat) (bs : List Byte) : Kept b { s with host := s.host.writeBytes a bs } :=
  { h with host := Memory.writeBytes_wf _ _ h.host }

theorem writeCompletion {b : Bound} (h : Kept b s) (n : Nat) (c : Completion) : Kept b (writeCompletion n c s) := by
  unfold Machine.writeCompletion
  extract_lets q written counted
  have written_ : Kept b written := h.writeHost _ _
  have counted_ : Kept b counted := written_.modQueue fun x => x
  refine ite (fun _ => h.dropRecord _ _) fun _ => ?_
  split
  · exact ite (fun _ => counted_.emit _) fun _ => counted_
  · exact counted_

theorem flushRecord {b : Bound} (h : Kept b s) (n : Nat) (r : Memory) : Kept b (flushRecord n r s) := h.writeCompletion _ _

theorem modSlots {b : Bound} (h : Kept b s) {n : Nat} {f : Queue → Queue} (same : ∀ q, (f q).slots = q.slots) : Kept b (s.modQueue n f) :=
  h.modQueue fun wf => (same _).symm ▸ wf

theorem finishTeardown {b : Bound} (h : Kept b s) (n : Nat) : Kept b (finishTeardown n s) := by
  unfold Machine.finishTeardown
  extract_lets q ring slots
  have ring_ : Kept b ring := h.foldl _ fun _ _ _ kept => kept.flushRecord _ _
  have slots_ : Kept b slots := ring_.foldl _ fun _ _ _ kept => kept.flushRecord _ _
  have left : Kept b { slots with selected := slots.selected.filter (· != n) } := { slots_ with }
  split
  · exact left.modSlots fun _ => rfl
  · exact h

theorem tearDown (h : Kept .event s) (n : Nat) (named : Option Code) : Kept .event (tearDown n named s) := by
  unfold Machine.tearDown
  split
  · exact h
  · extract_lets logged torn abort
    have logged_ : Kept .event logged := by
      cases named with
      | none => exact h
      | some code => exact h.logPart _ _
    have torn_ : Kept .event torn := logged_.modQueue fun x => x
    have aborts : ∀ code t c, Kept .event t → Kept .event (abort code t c) := fun code t c kept => kept.abortCapsule (b := .event) trivial (bareReport_wf ..)
    split
    · exact torn_.finishTeardown _
    · exact Kept.finishTeardown ((aborts _ _ _ torn_).foldl _ fun t c _ kept => aborts _ t c kept) _

/-! The end of a capsule. -/

theorem scrubCapsule (h : Kept .event s) (cap : Nat) : Kept .event (scrubCapsule cap s) := by
  unfold Machine.scrubCapsule
  extract_lets idle clean held free
  have clean_ : Kept .event clean := h.mapClusters (fun _ => rfl) fun _ x => x
  have free_ : Kept .event free := clean_.mapCores fun _ x => x
  exact free_.foldl _ fun _ _ _ kept => kept.finishClear _

theorem filterCaps (h : Kept .event s) (p : Capsule → Bool) : Kept .event { s with caps := s.caps.filter p } :=
  { h with caps := ⟨fun x hx => h.caps.1 x (List.mem_of_mem_filter hx), trivial⟩ }

theorem endCapsule (h : Kept .event s) (c : Capsule) (status : Nat) : Kept .event (endCapsule c status s) := by
  unfold Machine.endCapsule
  extract_lets report told done recorded clusters progressed forgotten
  clear_value report
  have told_ : Kept .event told := by
    unfold told
    split
    · exact h.deviceWrite_event _ _ _
    · exact h
  clear_value told done
  have recorded_ : Kept .event recorded := (told_.scrubCapsule _).writeCompletion _ _
  have progressed_ : Kept .event progressed := recorded_.noteProgress _
  have forgotten_ : Kept .event forgotten := progressed_.filterCaps _
  exact Kept.finishTeardown (forgotten_.foldl _ fun _ _ _ kept => kept.wakeFootprint _) _

theorem joinReport_wf (s : State) (c : Capsule) (r : JoinReg) : (joinReport s c r).wf = true :=
  Memory.writeLE_wf _ _ _ (Memory.writeLE_wf _ _ _ (bareReport_wf ..))

theorem completeCapsule (h : Kept .event s) (id : Nat) : Kept .event (completeCapsule id s) := by
  unfold Machine.completeCapsule
  split
  · exact h
  · refine ite (fun _ => h) fun _ => ?_
    split
    · exact h.endCapsule _ _
    · exact h
    · refine ite (fun _ => h) fun _ => ?_
      split
      · exact ite (fun _ => h.abortCapsule (b := .event) trivial (joinReport_wf ..)) fun _ => h
      · exact h.endCapsule _ _

/-! The checks of a record. -/

theorem codeDigest {b : Bound} (h : Kept b s) (part : Nat) (e : Extent) : Kept b (codeDigest part e s).2 := by
  unfold Machine.codeDigest
  extract_lets have_
  clear_value have_
  split
  · exact h
  · have read := h.deviceRead part e.base e.length
    split
    · next at_ => rw [at_] at read; exact read
    · next at_ => rw [at_] at read; exact { (read : Kept b _) with }

theorem readList {b : Bound} (h : Kept b s) (q : Queue) (part owner n xlist : Nat) : Kept b (readList q part owner n xlist s).2 := by
  unfold Machine.readList
  extract_lets len g
  split
  · exact h
  · split
    · exact h
    · split
      · have read := h.deviceRead part xlist len
        split
        · next at_ => rw [at_] at read; exact read
        · next at_ => rw [at_] at read; exact read
      · exact h

theorem verify {b : Bound} (h : Kept b s) (q : Queue) (p : Part) (e : RingEntry) : Kept b (verify q p e s).2 := by
  unfold Machine.verify
  extract_lets r owner
  split
  · exact h
  · split
    · exact h
    · have list := h.readList q p.no owner (bitsOf (recCtl r) 23 18 + 1) (r.readLE 0x98 8)
      split
      · next at_ => rw [at_] at list; exact list
      · next at_ =>
        rw [at_] at list
        extract_lets c
        split
        · exact list
        · split
          · exact list
          · split
            · exact list
            · split
              · exact list
              · next x _ =>
                have digest := Kept.codeDigest list p.no x
                split
                · next at_ => rw [at_] at digest; exact digest
                · next at_ =>
                  rw [at_] at digest
                  split
                  · exact digest
                  · split <;> exact digest

theorem verify_fresh {q : Queue} {p : Part} {e : RingEntry} {c : Capsule} {t : State} (wf : e.record.wf = true) (at_ : Machine.verify q p e s = (.ok c, t)) : Fresh c := by
  unfold Machine.verify at at_
  extract_lets r owner at at_
  split at at_
  · exact nomatch at_
  · split at at_
    · exact nomatch at_
    · split at at_
      · exact nomatch at_
      · extract_lets d at at_
        split at at_
        · exact nomatch at_
        · split at at_
          · exact nomatch at_
          · split at at_
            · exact nomatch at_
            · split at at_
              · exact nomatch at_
              · split at at_
                · exact nomatch at_
                · split at at_
                  · exact nomatch at_
                  · split at at_
                    · exact nomatch at_
                    · exact Except.ok.inj (congrArg Prod.fst at_) ▸ ⟨wf, rfl⟩

/-! Launches. -/

theorem moveRotation {b : Bound} (h : Kept b s) (hint : Nat) (foot : List (Nat × Word)) : Kept b (moveRotation s hint foot) := by
  refine h.foldl _ fun t cl _ kept => ?_
  split
  · exact kept
  · exact kept.modCluster rfl fun x => x

theorem headerCount {b : Bound} (h : Kept b s) (c : Capsule) : Kept b (headerCount c s).2 := by
  unfold Machine.headerCount
  split
  · next pa _ => exact (h.readLines c.part pa 4).outBytes pa 1
  · exact h

theorem releaseLaunch (h : Kept .event s) (id : Nat) : Kept .event (releaseLaunch id s) := by
  unfold Machine.releaseLaunch
  split
  · exact h
  · next at_ =>
    split
    · exact h
    · next m launch =>
      have sent : Kept .event { s with net := s.net ++ [m] } := h.addNet ((h.cap at_).2 m launch)
      exact sent.modCap (fun _ => rfl) fun _ ⟨r, _⟩ => ⟨r, none_tidy⟩

theorem warmCode {b : Bound} (h : Kept b s) (c : Capsule) (core : Nat) : Kept b (warmCode c core s) := by
  unfold Machine.warmCode
  split
  · exact h
  · exact h.foldl _ fun _ _ _ kept => kept.modCluster (by split <;> rfl) fun ⟨o, m, park, d⟩ => by split <;> exact ⟨o, m, park, d⟩

theorem endClaims (h : Kept .event s) (queue head : Nat) : Kept .event (endClaims queue head s) := by
  unfold Machine.endClaims
  extract_lets mine free
  have free_ : Kept .event free := h.mapCores fun k ⟨p, r, i, q⟩ => by split <;> exact ⟨p, r, i, q⟩
  exact free_.foldl _ fun _ _ _ kept => (kept.wakeFootprint _).admitWaiting _

theorem addCapsule (h : Kept .event s) {c : Capsule} {n : Nat} (tidy : TidyCap c) : Kept .event { s with caps := s.caps ++ [c], nextId := n } :=
  { h with caps := ⟨fun x hx => (List.mem_append.mp hx).elim (h.caps.1 x) fun last => List.mem_singleton.mp last ▸ tidy, trivial⟩ }

theorem launch (h : Kept .event s) {c : Capsule} (fresh : Fresh c) (foot : List (Nat × Word) × List (Nat × Word)) (reserved : Option Nat) (hint : Nat) (armed : Bool) :
    Kept .event (launch c foot reserved hint armed s) := by
  unfold Machine.launch
  extract_lets head placed clusters
  have counted := h.headerCount placed
  split
  next tiles t at_ =>
  rw [at_] at counted
  extract_lets c rotated loaded added warm popped released
  have rotated_ : Kept .event rotated := Kept.moveRotation counted _ _
  have loaded_ : Kept .event loaded := rotated_.foldl _ fun _ _ _ kept => kept.modCluster rfl fun x => x
  have added_ : Kept .event added := loaded_.addCapsule ⟨fresh.1, fun m eq => by cases eq; exact tidyMsg_plain rfl⟩
  have warm_ : Kept .event warm := by
    cases reserved with
    | none => exact added_
    | some core => exact Kept.warmCode (added_.modCore fun x => x) _ _
  have popped_ : Kept .event popped := warm_.modQueue fun x => x
  have released_ : Kept .event released := ite (fun _ => popped_) fun _ => popped_.releaseLaunch _
  exact released_.endClaims _ _

/-! Heads. -/

theorem holdHead {b : Bound} (h : Kept b s) (n why : Nat) : Kept b (holdHead n why s) := h.modQueue fun x => x

theorem refuseHead {b : Bound} (h : Kept b s) (n : Nat) (code : Code) (e : RingEntry) : Kept b (refuseHead n code e s) := (h.writeCompletion _ _).modQueue fun x => x

theorem gateHolds {b : Bound} (h : Kept b s) (c : Capsule) : Kept b (gateHolds c s).2 := by
  unfold Machine.gateHolds
  split
  · split
    · exact h
    · next pa _ =>
      have read := h.deviceRead c.part pa 8
      split
      · next at_ => rw [at_] at read; exact read
      · next at_ => rw [at_] at read; exact read
  · exact h

theorem keepSelected {b : Bound} (h : Kept b s) (n : Nat) : Kept b (keepSelected n s) := { h with }

theorem placeHead (h : Kept .event s) (n : Nat) (p : Part) {c : Capsule} (fresh : Fresh c) (e : RingEntry) : Kept .event (placeHead n p c e s) := by
  unfold Machine.placeHead
  have gate := h.gateHolds c
  split
  · next at_ => rw [at_] at gate; exact Kept.keepSelected gate n
  · next at_ => rw [at_] at gate; exact Kept.modQueue (Kept.holdHead gate n 1) fun x => x
  · next at_ =>
    rw [at_] at gate
    extract_lets units used armed
    have used_ : Kept .event used := Kept.noteUse gate _
    refine ite (fun _ => Kept.keepSelected (Kept.startExit gate _) _) fun _ => ?_
    split
    · exact used_.launch fresh _ _ _ _
    · split
      · exact used_.launch fresh _ _ _ _
      · split
        · exact used_.holdHead _ _
        · exact used_.refuseHead _ _ _

theorem meetEntry {b : Bound} (h : Kept b s) (q : Queue) (pn : Nat) (e : RingEntry) : Kept b (meetEntry q pn e s) := h.foldl _ fun _ _ _ kept => kept.readLines _ _ _

theorem head_wf {q : Queue} {e : RingEntry} (at_ : q.head? s = some e) : e.record.wf = true := by
  unfold Queue.head? at at_
  split at at_
  · exact nomatch at_
  · cases at_; exact Memory.window_wf _ _ _

theorem admitHead (h : Kept .event s) (n : Nat) : Kept .event (admitHead n s) := by
  unfold Machine.admitHead
  extract_lets taken q
  have taken_ : Kept .event taken := { h with }
  refine ite (fun _ => h) fun _ => ?_
  split
  · next e pn at_ _ =>
    extract_lets met p
    have met_ : Kept .event met := (taken_.noteUse _).meetEntry _ _ _
    refine ite (fun _ => taken_) fun _ => ite (fun _ => (taken_.startExit _).keepSelected _) fun _ => ite (fun _ => met_.tearDown _ _) fun _ =>
      ite (fun _ => met_.holdHead _ _) fun _ => ?_
    have checked := met_.verify q p e
    split
    · next at_ => rw [at_] at checked; exact Kept.keepSelected checked _
    · next at_ => rw [at_] at checked; exact Kept.refuseHead checked _ _ _
    · next c t ok => rw [ok] at checked; exact Kept.placeHead checked n p (verify_fresh (head_wf at_) ok) e
  · exact taken_

theorem enterWindow {b : Bound} (h : Kept b s) (n : Nat) : Kept b (enterWindow n s) := by
  unfold Machine.enterWindow
  extract_lets q
  split
  · exact ite (fun _ => h.modQueue fun x => x) fun _ => h
  · exact h

theorem launchDue (h : Kept .event s) (id : Nat) : Kept .event (launchDue id s) := by
  unfold Machine.launchDue
  split
  · exact h
  · exact ite (fun _ => h.releaseLaunch _) fun _ => h

theorem pollGate {b : Bound} (h : Kept b s) (n : Nat) : Kept b (pollGate n s) := by
  unfold Machine.pollGate
  extract_lets q
  split
  · refine ite (fun _ => ?_) fun _ => h
    have read := h.deviceRead (q.partition.getD 0) (bitsOf q.gatest.toNat 47 0) 8
    split
    · next at_ => rw [at_] at read; exact ite (fun _ => Kept.modQueue read fun x => x) fun _ => read
    · next at_ => rw [at_] at read; exact read
  · exact h

theorem copySlot (h : Kept .event s) (n k : Nat) : Kept .event (copySlot n k s) := by
  unfold Machine.copySlot
  exact Kept.modQueue (h.enqueue _ _ _) fun x => x

theorem copyPending (h : Kept .event s) (n : Nat) : Kept .event (copyPending n s) := by
  unfold Machine.copyPending
  extract_lets q
  split
  · exact ite (fun _ => h) fun _ => Kept.copySlot (h.modQueue fun x => x) _ _
  · exact h.releaseHeld

/-! Pre-emption and watchdogs. -/

theorem raisePreemption {b : Bound} (h : Kept b s) (id : Nat) : Kept b (raisePreemption id s) := by
  unfold Machine.raisePreemption
  extract_lets ids old raised
  have raised_ : Kept b raised := h.modCap (fun _ => rfl) fun _ x => x
  exact raised_.foldl _ fun _ _ _ kept => kept.modHart (fun _ x => x) (fun _ => rfl) fun _ => rfl

theorem claimCores {b : Bound} (h : Kept b s) (queue id : Nat) : Kept b (claimCores queue id s) := by
  unfold Machine.claimCores
  split
  · exact h
  · exact h.foldl _ fun _ _ _ kept => kept.modCore fun x => x

theorem searchVictims {b : Bound} (h : Kept b s) (n : Nat) : Kept b (searchVictims n s) := by
  unfold Machine.searchVictims
  extract_lets q looked
  split
  · extract_lets p c bindable
    have looked_ : Kept b looked := h.modQueue fun x => x
    refine ite (fun _ => ?_) fun _ => h
    split
    · exact looked_
    · exact looked_.foldl _ fun _ _ _ kept => (kept.raisePreemption _).claimCores _ _
  · exact h

theorem expireClaim (h : Kept .event s) (core : Nat) : Kept .event (expireClaim core s) := by
  unfold Machine.expireClaim
  extract_lets k
  exact ite (fun _ => Kept.admitWaiting (Kept.wakeFootprint (h.modCore fun x => x) _) _) fun _ => h

theorem joinStall (h : Kept .event s) (id : Nat) : Kept .event (joinStall id s) := by
  unfold Machine.joinStall
  split
  · exact h
  · split
    · extract_lets late
      exact ite (fun _ => h.onHarts (b := .event) (fun _ _ => trivial) fun _ kept => kept.onPair (b := .event) fun _ there => there.squash) fun _ =>
        Kept.modCap (h.abortCapsule (b := .event) trivial (joinReport_wf ..)) (fun _ => rfl) fun _ x => x
    · exact h

theorem deadline (h : Kept .event s) (id : Nat) : Kept .event (deadline id s) := by
  unfold Machine.deadline
  split
  · exact h
  · extract_lets d
    split
    · exact h
    · exact ite (fun _ => h.abortCapsule (b := .event) trivial (bareReport_wf ..)) fun _ => h

theorem leaseOverrun (h : Kept .event s) (id : Nat) : Kept .event (leaseOverrun id s) := by
  unfold Machine.leaseOverrun
  split
  · exact h
  · split
    · exact ite (fun _ => h.unitFault _ _ _ _) fun _ => h
    · exact h

theorem engineStall (h : Kept .event s) (cl n : Nat) : Kept .event (engineStall cl n s) := by
  unfold Machine.engineStall
  split
  · exact h
  · exact ite (fun _ => h.engineFault _ _ _) fun _ => h

theorem queueStall (h : Kept .event s) (n : Nat) : Kept .event (queueStall n s) := by
  unfold Machine.queueStall
  extract_lets q
  exact ite (fun _ => h.tearDown _ _) fun _ => h

end Kept

end Sys2Proof.Proofs
end

