-- ==== Sys2Proof/Proofs/KeptSystem.lean ====
section
/-! PROOFS. Traps, system registers, SPAWN, the diagnostic window, the MMU, the keys and the crypto instructions keep what a step keeps (O60). -/

namespace Sys2Proof.Proofs

open Sys2Proof Sys2Proof.Machine Sys2Proof.Claims

namespace Kept

variable {b : Bound} {s : State}

/-- A task does not come to the effect of an instruction of firmware or of Saffron (R61). -/
theorem issuePrivileged (h : Kept (b.at_ 2) s) {i : Instr} {o : Op} (closed : o.priv ≠ .open_) (body : Keeps .event o) : Ends b.low (Machine.issue i o s) := by
  cases b with
  | event => exact Kept.issue (b := .event) h body
  | task st n =>
    have refused : permitted s.hart o.priv = false := by
      have task := (h.task (by decide)).1
      unfold permitted
      split
      · next open_ => exact absurd open_ closed
      · rw [task]; rfl
      · rw [task]; rfl
    have stopped : Goes ((Bound.task st n).at_ 2) (Machine.perform o s) := h.stopWhole (Safe.ite (fun _ => h) fun _ => by
      rw [refused]
      exact h)
    exact settle (attempted stopped) _

/-! Traps and system registers. -/

theorem opTrap (c : BitVec 16) : Keeps b (opTrap c) := fun _ h =>
  Safe.ite (fun _ => h) fun _ => Safe.ite (fun _ => h) fun _ => Safe.ite (fun _ => h.mod rfl (tidy_ran rfl rfl)) fun _ =>
    h.serviceResults

theorem sysRead (h : Kept b s) (n : Nat) : Reads b (sysRead n s) := by
  unfold Machine.sysRead
  dsimp only
  split
  · exact Safe.bind h.settledFlg fun _ _ => h
  case h_5 => exact h.readTime
  all_goals exact h

theorem opSysrd (d : SReg) (n : BitVec 16) : Keeps b (opSysrd d n) := fun _ h => Safe.bind (h.sysRead _) fun _ kept => kept.writeS d _

theorem bootProgress (h : Kept .event s) : Kept .event (bootProgress s) :=
  ite (fun _ => { h with mem := ⟨Memory.clear_wf _ _ h.mem.1, trivial⟩ }) fun _ => h

theorem deliverSummary (h : Kept .event s) (cl : Nat) (v : Word) : Kept .event (deliverSummary cl v s) :=
  ite (fun _ => h.logPkg _) fun _ => Kept.bootProgress (ite (fun _ => Kept.fenceOther (h.changeCluster fun x => x) _) fun _ => h.changeCluster fun x => x)

theorem sysWrite (h : Kept .event s) (n : Nat) (v : Word) : Goes .event (sysWrite n v s) := by
  unfold Machine.sysWrite
  dsimp only
  split
  · exact Safe.bind h.settledFlg fun _ _ => h.modRegs fun old x => old x
  · exact h.changeCluster fun x => x
  · exact h.changeCluster fun x => x
  · exact h.changeCluster fun x => x
  · exact h.changeCluster fun x => x
  · exact h.deliverSummary _ _
  · exact Kept.wakeFootprint (h.changeCluster fun x => x) _
  · exact h

theorem sysWrite_open (h : Kept b s) {n : Nat} (v : Word) (open_ : sysPrivilege writableSysreg n = .open_) : Goes b (Machine.sysWrite n v s) := by
  unfold Machine.sysWrite
  dsimp only
  split
  · exact Safe.bind h.settledFlg fun _ _ => h.modRegs fun old x => old x
  case h_8 => exact h
  all_goals exact absurd open_ (by decide)

/-! SPAWN and the queries. -/

theorem opSpawn (d x y : SReg) (w v : Bool) : Keeps b (opSpawn d x y w v) := by
  intro t h
  refine Safe.bind (h.reachTask _ 256 .read) fun p at_ => Safe.bind (at_.loadAt p.1 256) fun q image =>
    Safe.bind (image.reachTask _ _ .read) fun p' there => Safe.bind (there.loadAt p'.1 _) fun q' read => Safe.bind (read.ensureAt _ _ _) fun _ _ => ?_
  split
  · exact read
  · exact read.bufferOut ⟨fun _ eq => (nomatch eq), fun c eq => by cases eq; exact Memory.ofBytes_wf _⟩

theorem opFrep (x : SReg) : Keeps b (opFrep x) := fun _ h => Safe.bind (h.ensure _ _) fun _ _ => Safe.bind (h.ensure _ _) fun _ _ => h.storePad _ _

/-! The diagnostic window. -/

theorem sealedDebug (h : Kept b s) (cl : Nat) : Kept b (sealedDebug cl s) := by
  unfold Machine.sealedDebug
  dsimp only
  split
  · exact Kept.logPart (h.modCluster rfl fun x => x) _ _
  · exact Kept.logPkg (h.modCluster rfl fun x => x) _

theorem uncorrected (h : Kept b s) (at_ : SramPlace → Bool) (v : Word) : Kept b (uncorrected at_ v s).2 := by
  unfold Machine.uncorrected
  split
  · exact h.free
  · exact h

theorem readRow (h : Kept b s) (cl : Nat) (d : DiagAddr) : Kept b (readRow cl d s).2 := by
  unfold Machine.readRow
  dsimp only
  split
  · exact h.uncorrected _ _
  · exact h.uncorrected _ _

theorem writePad (h : Kept b s) {n : Nat} {g : Core → Memory} (wf : ∀ k : Core, k.pad.wf = true → (g k).wf = true) :
    Kept b (s.modCore n fun k => { k with pad := g k }) := h.modCore fun ⟨pad, rest⟩ => ⟨wf _ pad, rest⟩

theorem writeRows (h : Kept b s) {n : Nat} {g : Core → Memory} (wf : ∀ k : Core, k.rows.wf = true → (g k).wf = true) :
    Kept b (s.modCore n fun k => { k with rows := g k }) := h.modCore fun ⟨pad, rows, rest⟩ => ⟨pad, wf _ rows, rest⟩

theorem writeBuffer (h : Kept b s) {n : Nat} {g : Cluster → Memory} (wf : ∀ c : Cluster, c.opbuf.wf = true → (g c).wf = true) :
    Kept b (s.modCluster n fun c => { c with opbuf := g c }) := h.modCluster rfl fun ⟨buffer, rest⟩ => ⟨wf _ buffer, rest⟩

theorem writeRow (h : Kept b s) (cl : Nat) (d : DiagAddr) (v : Word) : Kept b (writeRow cl d v s) := by
  unfold Machine.writeRow
  dsimp only
  split
  · exact (h.settlePad _ _ _).writePad fun _ => Memory.writeLE_wf _ _ _
  · exact (h.setSram _).writeRows fun _ => Memory.writeLE_wf _ _ _

theorem diagRead (h : Kept b s) (d : DiagAddr) : Reads b (diagRead d s) := by
  unfold Machine.diagRead
  dsimp only
  split
  · exact Safe.ite (fun _ => h) fun _ => h.readRow _ _
  · exact Safe.ite (fun _ => h) fun _ => h.readRow _ _
  · exact Safe.ite (fun _ => Safe.ite (fun _ => h.sealedDebug _) fun _ => h) fun _ => Safe.bind (h.accessUnits _) fun _ kept => kept.uncorrected _ _
  · exact h.sealedDebug _
  · exact h

theorem diagWrite (h : Kept b s) (d : DiagAddr) (v : Word) : Goes b (diagWrite d v s) := by
  unfold Machine.diagWrite
  dsimp only
  split
  · exact Safe.ite (fun _ => h) fun _ => h.writeRow _ _ _
  · exact Safe.ite (fun _ => h) fun _ => h.writeRow _ _ _
  · exact Safe.ite (fun _ => h) fun _ => Safe.bind (h.accessUnits _) fun _ kept =>
      (kept.settleBuffer _ _ _).writeBuffer fun _ => Memory.writeLE_wf _ _ _
  · exact h.sealedDebug _
  · exact h.modCluster rfl fun x => x

theorem diagOf (h : Kept b s) (a : Word) : Safe b (fun _ => True) (diagOf a s) := by
  unfold Machine.diagOf
  split
  · trivial
  · exact h

theorem opDiagrd (d x : SReg) : Keeps b (opDiagrd d x) := fun _ h =>
  Safe.bind (h.diagOf _) fun a _ => Safe.bind (h.diagRead a) fun _ kept => kept.writeS d _
theorem opDiagwr (d x : SReg) : Keeps b (opDiagwr d x) := fun _ h => Safe.bind (h.diagOf _) fun a _ => h.diagWrite a _

/-! Repair. -/

theorem switchPad (h : Kept b s) (core w old new : Nat) : Kept b (switchPad core w old new s) :=
  (h.setSram _).modCore fun ⟨pad, rows, rest⟩ => ⟨Memory.writeLE_wf _ _ _ pad, Memory.writeLE_wf _ _ _ (Memory.clear_wf _ _ rows), rest⟩

theorem switchTile (h : Kept b s) (core : Nat) (t : TReg) (w old new : Nat) : Kept b (switchTile core t w old new s) := by
  unfold Machine.switchTile
  dsimp only
  exact Kept.modCore (h.modRegs fun regs => tidyRegs_set regs (Memory.writeLE_wf _ _ _ (regs t)))
    fun ⟨pad, rows, rest⟩ => ⟨pad, Memory.writeLE_wf _ _ _ (Memory.clear_wf _ _ rows), rest⟩

theorem switchRow (h : Kept .event s) (cl : Nat) (e : Repair) (table : Vector (BitVec 32) 16) : Kept .event (switchRow cl e table s) := by
  unfold Machine.switchRow
  extract_lets old new core at_ w t
  have switched : Kept .event t := by
    refine ite (fun _ => h) fun _ => ite (fun _ => h.switchPad _ _ _ _) fun _ => ?_
    split
    · exact Kept.onHart (b := .event) h trivial fun _ kept => kept.switchTile _ _ _ _ _
    · exact h
  exact switched.changeCluster fun x => x

theorem opRepair (d x : SReg) : Keeps .event (opRepair d x) := fun _ h =>
  Safe.bind (h.ensure _ _) fun _ _ => Safe.bind (h.ensure _ _) fun _ _ => (h.switchRow _ _ _).switchRow _ _ _

/-! Service cores, the MMU and keys. -/

theorem opHalt : Keeps b opHalt := fun _ h => h.mod rfl (tidy_ran rfl rfl)
theorem opWfe : Keeps b opWfe := fun _ h => Safe.ite (fun _ => h.modCluster rfl fun x => x) fun _ => h.mod rfl (tidy_ran rfl rfl)
theorem opMmurd (d x : SReg) : Keeps b (opMmurd d x) := fun _ h => h.writeS d _
theorem opMmuwr (d x : SReg) : Keeps .event (opMmuwr d x) := fun _ h =>
  h.changeCluster fun ⟨buffer, mmu, rest⟩ => ⟨buffer, Memory.writeLE_wf _ _ _ mmu, rest⟩

theorem setMmu (h : Kept .event s) {cl : Nat} {g : Memory → Memory} (wf : ∀ m, m.wf = true → (g m).wf = true) :
    Kept .event (s.modCluster cl fun c => { c with mmu := g c.mmu }) :=
  h.changeCluster fun ⟨buffer, mmu, rest⟩ => ⟨buffer, wf _ mmu, rest⟩

theorem opMmuinv (x : SReg) : Keeps .event (opMmuinv x) := by
  intro t h
  unfold Machine.opMmuinv
  dsimp only
  refine Kept.setMmu h fun m hm => foldl_wf (fun m i hm => ?_) _ hm
  split
  · exact Memory.writeLE_wf _ _ _ hm
  · exact hm

theorem modSaffron (h : Kept b s) {x : Saffron} (tidy : TidySaffron x) : Kept b { s with saffron := x } := { h with saffron := tidy }

/-- Keys and hash contexts are no memories. -/
theorem modSecrets (h : Kept b s) (keys : Vector (BitVec 256) 64) (hash : Vector (List Byte) 4) :
    Kept b { s with saffron := { s.saffron with keys := keys, hash := hash } } := h.modSaffron h.saffron

theorem setKey (h : Kept b s) (n : Nat) (k : BitVec 256) : Kept b (setKey n k s) := h.modSecrets _ _

theorem opKwrap (d x : SReg) : Keeps .event (opKwrap d x) := fun _ h => Safe.bind (h.physicalAccess _ _) fun _ _ => h.storeAt trivial _ _

/-- The unwrapping is not evaluated: its result is any. -/
theorem opKunwrap (d x : SReg) : Keeps b (opKunwrap d x) := by
  intro u h
  obtain ⟨unwrap, any⟩ : ∃ f, f = Crypto.kwUnwrap := ⟨_, rfl⟩
  unfold Machine.opKunwrap
  rw [← any]
  refine Safe.bind (h.physicalAccess _ _) fun _ _ => Safe.bind (h.loadAt _ _) fun p read => ?_
  obtain ⟨bs, t⟩ := p
  dsimp only at read ⊢
  split
  · exact read.setKey _ _
  · exact read.setKey _ _

theorem opKscrub (x : SReg) : Keeps b (opKscrub x) := fun _ h => h.setKey _ _

/-! Saffron. -/

theorem sramRead (h : Kept b s) (off n : Nat) : Safe b (fun _ => True) (sramRead off n s) := Safe.ite (fun _ => trivial) fun _ => h
theorem sramWrite (h : Kept b s) (off : Nat) (bs : List Byte) : Kept b (sramWrite off bs s) :=
  { h with saffron := ⟨Memory.writeBytes_wf _ _ h.saffron.1, h.saffron.2⟩ }
theorem setHash (h : Kept b s) (n : Nat) (m : List Byte) : Kept b (setHash n m s) := h.modSecrets _ _

theorem opHashi (x : SReg) : Keeps b (opHashi x) := fun _ h => h.setHash _ _
theorem opHashu (d x : SReg) : Keeps b (opHashu d x) := fun _ h => Safe.bind (h.sramRead _ _) fun _ _ => h.setHash _ _
theorem opHashf (d x : SReg) : Keeps b (opHashf d x) := fun _ h => Safe.bind (h.sramRead _ _) fun _ _ => (h.sramWrite _ _).setHash _ _
theorem opEcsign (d x : SReg) : Keeps b (opEcsign d x) := fun _ h => Safe.bind (h.sramRead _ _) fun _ _ => (h.setFresh _).sramWrite _ _
theorem opEcvrfy (d x : SReg) : Keeps b (opEcvrfy d x) := fun _ h => Safe.bind (h.sramRead _ _) fun _ _ => h.writeS d _

theorem aesBlock (h : Kept b s) (off : Nat) : Safe b (fun _ => True) (aesBlock off s) :=
  Safe.bind (h.sramRead _ _) fun _ _ => Safe.bind (h.sramRead _ _) fun _ _ => Safe.bind (h.sramRead _ _) fun _ _ => trivial

theorem opAesenc (d x : SReg) : Keeps b (opAesenc d x) := fun _ h => Safe.bind (h.aesBlock _) fun _ _ => (h.sramWrite _ _).sramWrite _ _
theorem opAesdec (d x : SReg) : Keeps b (opAesdec d x) := by
  intro u h
  unfold Machine.opAesdec
  generalize Crypto.gcmTag = tagged, Crypto.gcmCrypt = crypt
  dsimp only
  refine Safe.bind (h.aesBlock _) fun p _ => ?_
  obtain ⟨iv, src, dst, tag⟩ := p
  dsimp only
  exact Safe.ite (fun _ => (h.sramWrite _ _).writeS d _) fun _ => h.writeS d _
theorem opRng (d : SReg) : Keeps b (opRng d) := fun _ h => h.free.writeS d _

end Kept

end Sys2Proof.Proofs
end

