-- ==== Sys2Proof/Proofs/KeptPower.lean ====
section
/-! PROOFS. Power, Sumac, the ends of waits and tier 1 keep the memories in canonical form (O60). -/

namespace Sys2Proof.Proofs

open Sys2Proof Sys2Proof.Machine Sys2Proof.Claims

namespace Kept

variable {s : State}

/-! Power and retention. -/

theorem setShare {b : Bound} (h : Kept b s) (cl n : Nat) : Kept b (s.modCluster cl fun c => { c with share := n, demand := 0 }) := h.modCluster rfl fun x => x

theorem dividePower (h : Kept .event s) : Kept .event (dividePower s) := by
  unfold Machine.dividePower
  extract_lets l
  clear_value l
  have counted : Kept .event { s with fresh := s.fresh + 1 } := { h with }
  exact counted.foldl _ fun _ _ _ kept => kept.setShare _ _

/-- Contexts that go on. -/
theorem mapReady {b : Bound} (h : Kept b s) {go : Hart → Hart} (goes : ∀ x, go x = x ∨ go x = { x with run := .ready }) :
    Kept b { s with hart := go s.hart, parked := s.parked.map go } := by
  refine h.mapHarts (fun x hx => ?_) (fun x => ?_) fun x => ?_
  all_goals obtain same | ready := goes x
  · rwa [same]
  · rw [ready]
    exact tidy_ran (x := x) rfl rfl hx
  · rw [same]
  · rw [ready]; rfl
  · rw [same]
  · rw [ready]

theorem shareAvailable (h : Kept .event s) (cl : Nat) : Kept .event (shareAvailable cl s) := by
  unfold Machine.shareAvailable
  extract_lets go
  refine ite (fun _ => h.mapReady fun x => ?_) fun _ => h
  unfold go
  split
  · split
    · exact .inr rfl
    · exact .inl rfl
  · exact .inl rfl

theorem gateCluster (h : Kept .event s) (cl : Nat) : Kept .event (gateCluster cl s) :=
  ite (fun _ => Kept.changeCluster { h with } fun x => x) fun _ => h

theorem admitCluster (h : Kept .event s) (cl : Nat) : Kept .event (admitCluster cl s) :=
  (h.wakeFootprint cl).foldl _ fun _ core _ kept => kept.admitWaiting core

theorem wakeCluster (h : Kept .event s) (cl : Nat) : Kept .event (wakeCluster cl s) := ite (fun _ => Kept.admitCluster (h.changeCluster fun x => x) cl) fun _ => h

theorem leaveRetention (h : Kept .event s) (u : Nat) : Kept .event (leaveRetention u s) := ite (fun _ => Kept.releaseHeld { h with }) fun _ => h

/-! The ends of waits. -/

theorem completeProducer (h : Kept .event s) : Kept .event (completeProducer s) := by
  unfold Machine.completeProducer
  split
  · exact h
  · next p rest flight =>
    have inflight := h.hart.2.2.2.2.1
    rw [flight, List.forall_mem_cons] at inflight
    exact Kept.deliver (h.mod rfl fun ⟨r, c, o, e, _, w⟩ => ⟨r, c, o, e, inflight.2, w⟩) inflight.1

theorem reachTime (h : Kept .event s) : Kept .event (reachTime s) := by
  unfold Machine.reachTime
  split
  · exact ite (fun _ => h.mod rfl (tidy_ran rfl rfl)) fun _ => h
  · exact h

theorem endWfe (h : Kept .event s) (cl : Nat) : Kept .event (endWfe cl s) := by
  unfold Machine.endWfe
  extract_lets go
  refine ite (fun _ => Kept.modCluster (h.mapReady fun x => ?_) rfl fun x => x) fun _ => h
  unfold go
  split
  · exact .inr rfl
  · exact .inl rfl

theorem wakeHalted (h : Kept .event s) (cl : Nat) : Kept .event (wakeHalted cl s) := by
  unfold Machine.wakeHalted
  extract_lets go
  refine h.mapReady fun x => ?_
  unfold go
  split
  · exact .inr rfl
  · exact .inl rfl

/-! Sumac. -/

theorem passTimes (h : Kept .event s) : Kept .event (passTimes s) :=
  (h.foldl _ fun _ id _ kept => kept.launchDue id).foldl _ fun _ id _ kept => kept.deadline id

theorem setSumac {b : Bound} (h : Kept b s) (n : Nat) (m : Sumac) : Kept b { s with fresh := n, sumac := m } := { h with }

theorem measure (h : Kept .event s) (source : BitVec 3) (offset : Int) : Kept .event (measure source offset s) := Kept.passTimes (h.setSumac _ _)

theorem ppsOut (h : Kept .event s) : Kept .event (ppsOut s) := ite (fun _ => Kept.emit (h.setSumac s.fresh _) _) fun _ => h

theorem holdover (h : Kept .event s) : Kept .event (holdover s) := ite (fun _ => h) fun _ => h.setSumac s.fresh _

/-! Tier 1. -/

theorem loadKeys (h : Kept .event s) (owner : Nat) (k : BitVec 256) : Kept .event (loadKeys owner k s) := { h with }
theorem loadAllKeys (h : Kept .event s) : Kept .event (loadAllKeys s) := (h.loadKeys _ _).foldl _ fun _ _ _ kept => kept.loadKeys _ _

theorem storeLine (h : Kept .event s) (line : Nat) (version : BitVec 32) : Kept .event (storeLine line version s) := by
  unfold Machine.storeLine
  generalize tier1Line s line version = stored
  obtain ⟨c, tag⟩ := stored
  have noted : Kept .event { s with versions := Machine.update Version.line s.versions { line := line, version := version, tag := tag } } := { h with }
  dsimp only
  split
  · exact noted.writeHost _ _
  · exact noted

theorem leftOf_wf {lines : List Nat} {l : List Dirty} (old : ∀ d ∈ l, d.old.wf = true) : ∀ d ∈ leftOf s lines l, d.old.wf = true := by
  induction l generalizing lines with
  | nil => exact old
  | cons x l ih =>
    rw [List.forall_mem_cons] at old
    unfold leftOf
    split
    · split
      · exact ih old.2
      · exact List.forall_mem_cons.mpr ⟨old.1, ih old.2⟩
    · exact List.forall_mem_cons.mpr ⟨old.1, ih old.2⟩

theorem settleLines (h : Kept .event s) (lines : List Nat) : Kept .event (settleLines lines s) := 
  Kept.releaseHeld { h with dirty := leftOf_wf h.dirty }

theorem writeBack (h : Kept .event s) (line : Nat) : Kept .event (writeBack line s) := ite (fun _ => (h.storeLine _ _).settleLines _) fun _ => h

theorem setGranule (h : Kept .event s) (g : Nat) (e : BitVec 128) : Kept .event (setGranule g e s) := { h with }

theorem reencrypt (h : Kept .event s) (g : Nat) : Kept .event (reencrypt g s) := by
  unfold Machine.reencrypt
  exact ite (fun _ => Kept.settleLines (Kept.foldl _ (h.setGranule _ _) fun _ _ _ kept => kept.storeLine _ _) _) fun _ => h

end Kept

end Sys2Proof.Proofs
end

