-- ==== Sys2Proof/Proofs/KeptHost.lean ====
section
/-! PROOFS. What the host asks keeps the memories in canonical form (O60). -/

namespace Sys2Proof.Proofs

open Sys2Proof Sys2Proof.Machine Sys2Proof.Claims

theorem poke_wf {m : Memory} (lo n off : Nat) (bs : List Byte) (h : m.wf = true) : (poke m lo n off bs).wf = true :=
  foldl_wf (fun m x hm => by
    split
    · exact Memory.write_wf _ _ hm
    · exact hm) _ h

namespace Kept

variable {s : State}

/-! Who may ask. -/

theorem serveVf (h : Kept .event s) (vf : Nat) {f : State → State} (serve : ∀ t, Kept .event t → Kept .event (f t)) : Kept .event (serveVf vf f s) := by
  unfold Machine.serveVf
  split
  · exact h.emit _
  · exact serve s h

theorem servePf (h : Kept .event s) {f : State → State} (serve : ∀ t, Kept .event t → Kept .event (f t)) : Kept .event (servePf f s) :=
  ite (fun _ => h.emit _) fun _ => ite (fun _ => h.emit _) fun _ => serve s h

/-! Staging. -/

theorem onAny (h : Kept .event s) (id : Nat) {f : State → State} (act : ∀ t, Kept .event t → Kept .event (f t)) : Kept .event (Machine.onHart id f s) :=
  Kept.onHart (b := .event) h trivial act

theorem repost (h : Kept .event s) (p : Nat) : Kept .event (repost p s) := h.foldl _ fun _ x _ kept => kept.onAny x.1 fun _ act => act.postStage x.2

theorem answerStage (h : Kept .event s) (p status : Nat) (r : StageReq) : Kept .event (answerStage p status r s) := by
  unfold Machine.answerStage
  extract_lets ws t there
  have closed : Kept .event t := h.modPart fun x => x
  clear_value t
  refine ite (fun _ => closed.foldl _ fun _ x _ kept => kept.onAny x.1 fun _ act => ?_) fun _ => closed.foldl _ fun _ x _ kept => ?_
  · exact ite (fun _ => act.mod rfl (tidy_ran rfl rfl)) fun _ => act.postStage x.2
  · split
    · exact ite (fun _ => kept) fun _ => kept.unitFault _ _ _ _
    · exact kept

theorem consumeStage (h : Kept .event s) (p n : Nat) : Kept .event (consumeStage p n s) := by
  induction n generalizing s with
  | zero => exact h
  | succ n ih =>
    unfold Machine.consumeStage
    extract_lets x m t u
    have counted : Kept .event t := h.modPart fun x => x
    clear_value t
    refine ih ?_
    unfold u
    split
    · exact counted.answerStage _ _ _
    · exact counted.logPart _ _

theorem setCtail (h : Kept .event s) (p v : Nat) : Kept .event (setCtail p v s) := Kept.consumeStage (h.modPart fun x => x) _ _

/-! Queue windows. -/

theorem takeGo (h : Kept .event s) (n : Nat) (mask : BitVec 8) : Kept .event (takeGo n mask s) :=
  ite (fun _ => h) fun _ => h.foldl _ fun _ _ _ kept => ite (fun _ => kept) fun _ => ite (fun _ => kept.modQueue fun x => x) fun _ => kept.copySlot _ _

theorem setQcfg (h : Kept .event s) (n : Nat) (v : Word) : Kept .event (setQcfg n v s) := by
  unfold Machine.setQcfg
  extract_lets c on t
  have set : Kept .event t := h.modSlots fun _ => rfl
  clear_value c on t
  exact ite (fun _ => set.setSumac t.fresh _) fun _ => set

theorem writeWindow (h : Kept .event s) (n off : Nat) (bs : List Byte) : Kept .event (writeWindow n off bs s) := by
  unfold Machine.writeWindow
  extract_lets t u
  have poked : Kept .event t := h.modQueue fun wf => poke_wf _ _ _ _ wf
  have taken : Kept .event u := ite (fun _ => poked.takeGo _ _) fun _ => poked
  exact ite (fun _ => taken.setQcfg _ _) fun _ => taken

/-! Registers of a function. -/

theorem writeDoorbell (h : Kept .event s) (p n off : Nat) (bs : List Byte) : Kept .event (writeDoorbell p n off bs s) := by
  unfold Machine.writeDoorbell
  extract_lets d c
  clear_value d c
  exact h.modPart fun x => x

theorem writeStagectl (h : Kept .event s) (p off : Nat) (bs : List Byte) : Kept .event (writeStagectl p off bs s) := by
  unfold Machine.writeStagectl
  extract_lets t u
  have set : Kept .event t := h.modPart fun x => x
  have posted : Kept .event u := set.repost p
  exact ite (fun _ => posted.setCtail _ _) fun _ => posted

theorem writeMap (h : Kept .event s) (slot : Nat) (v : Word) : Kept .event (writeMap slot v s) :=
  ite (fun _ => h) fun _ => ite (fun _ => { h with }) fun _ => h.logPkg _

theorem writePf (h : Kept .event s) (off : Nat) (bs : List Byte) : Kept .event (writePf off bs s) :=
  h.foldl _ fun _ _ _ kept => ite (fun _ => kept.writeMap _ _) fun _ => kept

theorem writeVf (h : Kept .event s) (vf off : Nat) (bs : List Byte) : Kept .event (writeVf vf off bs s) := by
  unfold Machine.writeVf
  extract_lets p t u v
  have set : Kept .event t := h.modPart fun ⟨cfg, staged⟩ => ⟨cfg, poke_wf _ _ _ _ staged⟩
  have control : Kept .event u := ite (fun _ => set.writeStagectl _ _ _) fun _ => set
  have rung : Kept .event v := control.foldl _ fun _ _ _ kept => ite (fun _ => kept.writeDoorbell _ _ _ _) fun _ => kept
  exact rung.foldl _ fun _ _ _ kept => ite (fun _ => kept.writeWindow _ _ _) fun _ => kept

theorem readDoorbell (h : Kept .event s) (p n : Nat) : Kept .event (readDoorbell p n s) := ite (fun _ => h) fun _ => Kept.modPart (h.emit _) fun x => x

/-! Memory requests. -/

theorem hostAccess (h : Kept .event s) (vf : Nat) (a : HostAddr) (n : Nat) (write : Bool) {f : Nat → State → State}
    (serve : ∀ pa t, Kept .event t → Kept .event (f pa t)) : Kept .event (hostAccess vf a n write f s) :=
  h.serveVf vf fun t kept => by
    split
    · exact serve _ t kept
    · exact Kept.logPart (kept.emit _) _ _

theorem addPending (h : Kept .event s) (i : Request) : Kept .event { s with pending := s.pending ++ [i] } := { h with }

theorem atHome (h : Kept .event s) (i : Request) (pa n : Nat) (write : Bool) {f : State → State} (serve : ∀ t, Kept .event t → Kept .event (f t)) :
    Kept .event (atHome i pa n write f s) := 
  ite (fun _ => (h.startExit _).addPending _) fun _ => serve _ (h.noteUse _)

theorem hostRead (h : Kept .event s) (vf : Nat) (addr : HostAddr) (len : Nat) : Kept .event (hostRead vf addr len s) :=
  h.hostAccess _ _ _ _ fun _ _ kept => kept.atHome _ _ _ _ fun _ home => Kept.emit ((home.readLines _ _ _).outBytes _ _) _

theorem hostStore (h : Kept .event s) (vf pa : Nat) (bs : List Byte) : Kept .event (hostStore vf pa bs s) := h.writeUnit trivial

theorem hostWrite (h : Kept .event s) (vf : Nat) (addr : HostAddr) (bytes : List Byte) : Kept .event (hostWrite vf addr bytes s) :=
  h.hostAccess _ _ _ _ fun _ _ kept => kept.atHome _ _ _ _ fun _ home => home.hostStore _ _ _

theorem hostAtomic (h : Kept .event s) (i : Request) (vf : Nat) (addr : HostAddr) (n : Nat) (new : Nat → Option Nat) :
    Kept .event (hostAtomic i vf addr n new s) :=
  h.hostAccess _ _ _ _ fun pa _ kept => ite (fun _ => kept.emit _) fun _ => kept.atHome _ _ _ _ fun t home => by
    have read := (home.readLines (vf - 1) pa n).outBytes pa n
    dsimp only
    refine Kept.emit ?_ _
    split
    · exact read.hostStore _ _ _
    · exact read

theorem hostFetchadd (h : Kept .event s) (vf : Nat) (addr : HostAddr) (wide : Bool) (v : Word) : Kept .event (hostFetchadd vf addr wide v s) := h.hostAtomic ..
theorem hostSwap (h : Kept .event s) (vf : Nat) (addr : HostAddr) (wide : Bool) (v : Word) : Kept .event (hostSwap vf addr wide v s) := h.hostAtomic ..

theorem hostCas (h : Kept .event s) (vf : Nat) (addr : HostAddr) (width : Nat) (x y : BitVec 128) : Kept .event (hostCas vf addr width x y s) :=
  ite (fun _ => h.hostAtomic ..) fun _ => h.hostAccess _ _ _ _ fun _ _ kept => kept.emit _

end Kept

end Sys2Proof.Proofs
end

