-- ==== Sys2Proof/Proofs/KeptReset.lean ====
section
/-! PROOFS. Resets, the crash dump and the boot keep the memories in canonical form (O60). -/

namespace Sys2Proof.Proofs

open Sys2Proof Sys2Proof.Machine Sys2Proof.Claims

namespace Kept

variable {s : State}

/-! Partition reset. -/

theorem resetCore (h : Kept .event s) (core : Nat) : Kept .event (resetCore core s) :=
  Kept.finishClear (h.modCore fun ⟨pad, rows, _, _⟩ => ⟨pad, rows, List.forall_mem_nil _, fun i => by
    dsimp only
    rw [get_replicate]
    exact List.forall_mem_nil _⟩) core

theorem resetCapsule (h : Kept .event s) (id : Nat) :
    Kept .event (Machine.onHarts (s.hartsOf id) Machine.endContext (Machine.cancelCopyIns (fun c => c.cap == id) (Machine.dropMessages id s))) :=
  ((h.dropMessages id).cancelCopyIns _).onHarts (b := .event) (fun _ _ => trivial) fun _ kept => kept.endContext

/-- What is of a partition goes. -/
theorem clearPartition (h : Kept .event s) {p : Capsule → Bool} {keep : Nat × Nat × Effect → Bool} {sel : List Nat} {f : Queue → Queue} {g : Cluster → Cluster}
    (queue : ∀ q, q.slots.wf = true → (f q).slots.wf = true) (cluster : ∀ c, TidyCluster c → TidyCluster (g c)) :
    Kept .event { s with caps := s.caps.filter p, heldx := s.heldx.filter keep, selected := sel, queues := s.queues.map f, clusters := s.clusters.map g } :=
  { h with
    caps := ⟨tidy_filter h.caps.1, trivial⟩
    heldx := tidy_filter h.heldx
    queues := tidy_map h.queues queue
    clusters := ⟨tidy_map h.clusters.1 cluster, trivial⟩ }

theorem resetPartition (h : Kept .event s) (p : Nat) : Kept .event (resetPartition p s) := by
  unfold Machine.resetPartition
  extract_lets caps t u v
  have ended : Kept .event t := h.foldl _ fun _ id _ kept => kept.resetCapsule id
  clear_value t
  have cleared : Kept .event u := by
    refine ended.clearPartition (fun q wf => ?_) fun k tidy => ?_
    · split
      · rfl
      · exact wf
    · split
      · obtain ⟨buffer, mmu, _, data⟩ := tidy
        exact ⟨buffer, mmu, List.forall_mem_nil _, data⟩
      · exact tidy
  clear_value u
  have cores : Kept .event v := cleared.foldl _ fun _ core _ kept => kept.resetCore core
  exact Kept.logPart (cores.modPart fun x => x) _ _

theorem endReset (h : Kept .event s) (p n : Nat) (host : Bool) : Kept .event (s.modPart p fun x => { x with resetEnd := n, resetHost := host }) := h.modPart fun x => x

theorem beginReset (h : Kept .event s) (p : Nat) (host : Bool) : Kept .event (beginReset p host s) := by
  unfold Machine.beginReset
  exact (h.free.resetPartition p).endReset _ _ _

/-! Warm and cold reset. -/

theorem tidy_warmCluster {c : Cluster} : TidyCluster c → TidyCluster c.warm := fun ⟨buffer, _⟩ => ⟨buffer, rfl, List.forall_mem_nil _, List.forall_mem_nil _⟩

theorem tidy_warmCore {k : Core} : TidyCore k → TidyCore k.warm := fun ⟨pad, _⟩ => ⟨pad, (tidy_coreReset k.id).2⟩

theorem tidy_warmSaffron {x : Saffron} : TidySaffron x → TidySaffron x.warm := fun ⟨_, _, flash⟩ => ⟨rfl, rfl, flash⟩

theorem warmReset (h : Kept .event s) : Kept .event (warmReset s) := by
  unfold Machine.warmReset
  extract_lets t u
  have parts : Kept .event t := h.foldl _ fun _ p _ kept => kept.resetPartition p
  clear_value t
  have warm : Kept .event u := { parts with
    harts := ⟨tidy_hartReset _ _ _, trivial, trivial, List.forall_mem_nil _⟩
    parts := List.forall_mem_nil _
    queues := List.forall_mem_nil _
    caps := ⟨List.forall_mem_nil _, trivial⟩
    clusters := ⟨tidy_map parts.clusters.1 fun _ => tidy_warmCluster, trivial⟩
    cores := tidy_map parts.cores fun _ => tidy_warmCore
    net := List.forall_mem_nil _
    reports := List.forall_mem_nil _
    saffron := tidy_warmSaffron parts.saffron }
  exact warm.logPkg _

theorem resetState : Kept .event State.reset := kept_event.mpr reset_canonical

theorem coldReset (h : Kept .event s) : Kept .event (coldReset s) := by
  unfold Machine.coldReset
  extract_lets n m x t
  have fresh : Kept .event n := resetState
  have cold : Kept .event t := { fresh with host := h.host, saffron := ⟨fresh.saffron.1, fresh.saffron.2.1, h.saffron.2.2⟩ }
  exact cold.logPkg _

theorem inputOut (h : Kept .event s) (mv : Int) : Kept .event (inputOut mv s) := by
  unfold Machine.inputOut
  extract_lets t
  have noted : Kept .event t := { h with }
  exact ite (fun _ => h) fun _ => ite (fun _ => noted.emit _) fun _ => noted.coldReset.emit _

/-! The crash dump. -/

/-- Device memory and what Saffron notes about it. -/
theorem setMemory (h : Kept .event s) {m : Memory} {n : Nat} {x : Saffron} (wf : m.wf = true) (tidy : TidySaffron x) :
    Kept .event { s with mem := m, fresh := n, saffron := x } := { h with mem := ⟨wf, trivial⟩, saffron := tidy }

theorem writeDump (h : Kept .event s) (trigger : Nat) : Kept .event (writeDump trigger s) := by
  unfold Machine.writeDump
  extract_lets time key iv head plain c table bytes
  clear_value bytes
  exact h.setMemory (Memory.writeBytes_wf _ _ (Memory.clear_wf _ _ h.mem.1)) h.saffron

theorem setPhase {b : Bound} (h : Kept b s) (x : Phase) (r : Option Nat) : Kept b { s with phase := x, resetting := r } := { h with }

theorem packageFatal (h : Kept .event s) (trigger : Nat) : Kept .event (packageFatal trigger s) := by
  unfold Machine.packageFatal
  extract_lets n
  clear_value n
  exact ite (fun _ => h) fun _ => ite (fun _ => h.setMemory (n := s.fresh) (Memory.writeLE_wf _ _ _ h.mem.1) h.saffron) fun _ => (h.writeDump _).setPhase _ _

/-! Heartbeats and diagnosis. -/

theorem echo (h : Kept .event s) (missed : List Nat) (saffronMissed : Bool) : Kept .event (echo missed saffronMissed s) := by
  unfold Machine.echo
  extract_lets x t
  have answered : Kept .event t := by
    refine { h with clusters := ⟨tidy_map h.clusters.1 fun c hc => ?_, trivial⟩ }
    split
    · exact hc
    · obtain ⟨buffer, mmu, park, data⟩ := hc
      exact ⟨buffer, mmu, park, data⟩
  exact answered.foldl _ fun _ _ _ kept => kept.modCluster rfl fun x => x

theorem abortMigrated (h : Kept .event s) (cl : Nat) : Kept .event (abortMigrated cl s) :=
  h.foldl _ fun _ _ _ kept => kept.abortCapsule (b := .event) trivial (bareReport_wf ..)

theorem failStaging (h : Kept .event s) (cl : Nat) : Kept .event (failStaging cl s) :=
  h.foldl _ fun _ p _ kept => kept.foldl _ fun _ r _ act => act.free.answerStage p _ r

theorem heartbeatFailure (h : Kept .event s) (who : Option Nat) : Kept .event (heartbeatFailure who s) := by
  unfold Machine.heartbeatFailure
  split
  · next cl => exact ite (fun _ => Kept.failStaging (Kept.abortMigrated (Kept.fenceOther (h.modCluster rfl fun x => x) cl) cl) cl) fun _ => h
  · have missed : Kept .event { s with saffron := { s.saffron with misses := 0 } } := h.modSaffron h.saffron
    exact ite (fun _ => missed.packageFatal _) fun _ => h

theorem diagnose (h : Kept .event s) (cl : Nat) (mismatch : Bool) : Kept .event (diagnose cl mismatch s) := by
  unfold Machine.diagnose
  exact ite (fun _ => h) fun _ => ite (fun _ => h.modCluster rfl fun x => x) fun _ => Kept.logFence (Kept.admitCluster (h.changeCluster fun x => x) cl) _

/-! The boot. -/

theorem modMeasured (h : Kept .event s) (mr : Vector (BitVec 384) 16) : Kept .event { s with saffron := { s.saffron with mr := mr } } := h.modSaffron h.saffron

theorem extend (h : Kept .event s) (n : Nat) (x : List Byte) : Kept .event (extend n x s) := h.modMeasured _

theorem setKit (h : Kept .event s) {home : List Nat} {x : Saffron} (tidy : TidySaffron x) : Kept .event { s with homemap := home, saffron := x } :=
  { h with saffron := tidy }

theorem takeKit (h : Kept .event s) (b : Bool) (m : Memory) : Kept .event (takeKit b m s) := by
  unfold Machine.takeKit
  extract_lets t home x
  have measured : Kept .event t := Kept.loadAllKeys (h.foldl _ fun _ x _ kept => kept.extend x.1 x.2)
  clear_value t home
  split
  · exact measured.setKit measured.saffron
  · exact measured.setKit measured.saffron

theorem setInput (h : Kept .event s) (x : Option Int) : Kept .event { s with input := x } := { h with }

theorem powerUp (h : Kept .event s) : Kept .event (powerUp s) := by
  unfold Machine.powerUp
  extract_lets ready t u
  have supplied : Kept .event t := ite (fun _ => Kept.emit (h.setInput none) _) fun _ => h
  clear_value t
  have booting : Kept .event u := { supplied with }
  clear_value u
  exact ite (fun _ => ite (fun _ => booting.takeKit _ _) fun _ => ite (fun _ => booting.takeKit _ _) fun _ => ite (fun _ => booting.takeKit _ _) fun _ => booting) fun _ => h

theorem beginTest (h : Kept .event s) : Kept .event (beginTest s) := ite (fun _ => h.modSaffron h.saffron) fun _ => h

theorem startFirmware (h : Kept .event s) (cl : Nat) : Kept .event (startFirmware cl s) := by
  have parked := h.free.harts.rest
  exact { h.free with harts := ⟨h.free.harts.tidy, trivial, trivial, fun x hx => (List.mem_append.mp hx).elim (parked x) fun last => by
    obtain rfl := List.mem_singleton.mp last
    obtain ⟨r, c, o, e, i, _⟩ := tidy_hartReset s.free.2.nextId .firmware (serviceCore cl)
    exact ⟨⟨r, c, o, e, i, ne_cont rfl⟩, trivial⟩⟩ }

theorem deliverImage (h : Kept .event s) (cl : Nat) (bytes : List Byte) : Kept .event (deliverImage cl bytes s) := by
  unfold Machine.deliverImage
  extract_lets c good t
  have failed : Kept .event t := h.modCluster rfl fun x => x
  clear_value good
  exact ite (fun _ => h) fun _ => ite (fun _ => Kept.beginTest (Kept.startFirmware (h.modCluster rfl fun x => x) cl)) fun _ => ite (fun _ => failed) fun _ =>
    Kept.bootProgress (Kept.beginTest (failed.fenceOther cl))

theorem summaryTimeout (h : Kept .event s) (cl : Nat) : Kept .event (summaryTimeout cl s) := by
  unfold Machine.summaryTimeout
  split
  · exact h
  · refine ite (fun _ => ?_) fun _ => h
    have late : Kept .event (s.modCluster cl fun c => { c with summary := 0x03000000, summarised := true }) := h.changeCluster fun x => x
    exact Kept.bootProgress (ite (fun _ => late) fun _ => late.fenceOther cl)

end Kept

end Sys2Proof.Proofs
end

