-- ==== Sys2Proof/Proofs/KeptManagement.lean ====
section
/-! PROOFS. Cumin, the management interface, peers and the SPDM responder keep the memories in canonical form (O60). -/

namespace Sys2Proof.Proofs

open Sys2Proof Sys2Proof.Machine Sys2Proof.Claims

namespace Kept

variable {s : State}

/-! Cumin. -/

theorem serve (h : Kept .event s) {i : Nat} {q : Query} {a : Word} {item : Option Nat} {t : State} (at_ : Machine.serve i q s = some (a, item, t)) :
    Kept .event t := by
  have read := h.readLines (partOf s q.cap) q.desc 32
  unfold Machine.serve at at_
  extract_lets u d at at_
  have met : Kept .event u := read
  clear_value u d
  split at at_
  · cases at_; exact met
  · split at at_
    · cases at_; exact met
    · split at at_
      · cases at_; exact met.logPart _ _
      · split at at_
        · cases at_; exact { met with }
        · split at at_
          · cases at_; exact met.putMem trivial
          · split at at_
            · exact nomatch at_
            · cases at_; exact met

theorem setQueries (h : Kept .event s) (qs : List Query) : Kept .event { s with queries := qs } := { h with }

theorem answerWaiting (h : Kept .event s) (desc n : Nat) : Kept .event (answerWaiting desc n s) := by
  induction n generalizing s with
  | zero => exact h
  | succ n ih =>
    unfold Machine.answerWaiting
    split
    · exact h
    · split
      · exact h
      · next at_ => exact ih ((h.serve at_).setQueries _)

theorem answerDesc (h : Kept .event s) (desc : Nat) : Kept .event (answerDesc desc s) :=
  ite (fun _ => h) fun _ => ite (fun _ => h.startExit _) fun _ => (h.noteUse _).answerWaiting _ _

theorem cuminQuery (h : Kept .event s) (i : Nat) : Kept .event (cuminQuery i s) := by
  unfold Machine.cuminQuery
  split
  · exact h
  · exact ite (fun _ => h) fun _ => ite (fun _ => h.answerDesc _) fun _ => ite (fun _ => h) fun _ => (h.setQueries _).answerDesc _

theorem fillWord (h : Kept .event s) {core : Nat} {full : Core → List Nat} {pad : Core → Memory} (wf : ∀ k : Core, k.pad.wf = true → (pad k).wf = true) :
    Kept .event (s.modCore core fun k => { k with empty := full k, pad := pad k }) := h.modCore fun ⟨old, rest⟩ => ⟨wf _ old, rest⟩

theorem landAnswer (h : Kept .event s) (i : Nat) : Kept .event (landAnswer i s) := by
  unfold Machine.landAnswer
  split
  · exact h
  · split
    · exact h
    · refine ite (fun _ => h) fun _ => ?_
      extract_lets keep full t u back v w
      have filled : Kept .event t := h.fillWord fun k wf => by
        split
        · exact wf
        · exact Memory.writeLE_wf _ _ _ wf
      clear_value t
      have met : Kept .event u := ite (fun _ => filled) fun _ => filled.settlePad _ _ _
      clear_value u
      have returned : Kept .event v := ite (fun _ => { met with }) fun _ => met
      clear_value v
      have queries : Kept .event w := returned.setQueries _
      clear_value w
      exact Kept.releaseCore (ite (fun _ => queries.answerDesc _) fun _ => queries) _

/-! Who may ask. -/

theorem reply (h : Kept .event s) (code : Nat) : Kept .event (reply code s) := h.emit _

section

variable {f : State → State} (act : ∀ t, Kept .event t → Kept .event (f t))
include act

theorem wide (h : Kept .event s) (via : Option Nat) : Kept .event (wide via f s) := ite (fun _ => act s h) fun _ => h.reply _
theorem onPart (h : Kept .event s) (via part : Option Nat) : Kept .event (onPart via part f s) := ite (fun _ => act s h) fun _ => h.reply _
theorem narrower (h : Kept .event s) (part : Nat) : Kept .event (narrower part f s) := ite (fun _ => h.reply _) fun _ => act s h

theorem onQueue (h : Kept .event s) (via : Option Nat) (part n : Nat) : Kept .event (onQueue via part n f s) :=
  onPart (fun _ kept => ite (fun _ => kept.reply _) fun _ => narrower (fun t there => ite (fun _ => act t there) fun _ => there.reply _) kept _) h _ _

theorem onCluster (h : Kept .event s) (via : Option Nat) (cl : Nat) : Kept .event (onCluster via cl f s) :=
  ite (fun _ => h.reply _) fun _ => ite (fun _ => act s h) fun _ => onPart act h _ _

theorem configure (h : Kept .event s) : Kept .event (configure f s) := by
  unfold Machine.configure
  split
  · exact act s h
  · exact (h.logPkg _).reply _
  · exact (h.logPkg _).reply _
  · exact h.reply _

end

/-! Commands. -/

theorem abortCommand (h : Kept .event s) (n : Nat) (ctag : Word) : Kept .event (abortCommand n ctag s) := by
  unfold Machine.abortCommand
  dsimp only
  split
  · exact h.reply _
  · next c _ =>
    have ended := h.abortCapsule (b := .event) (cap := c.id) (code := Code.aborted.num) trivial (bareReport_wf s c.id Code.aborted.num 0)
    exact Kept.reply (ite (fun _ => ended.completeCapsule _) fun _ => ended) _

theorem unfence (h : Kept .event s) (cl : Nat) : Kept .event (unfence cl s) := by
  unfold Machine.unfence
  extract_lets c t
  have cleared : Kept .event t := h.changeCluster fun x => x
  exact ite (fun _ => Kept.reply (ite (fun _ => cleared) fun _ => (cleared.logFence _).admitCluster cl) _) fun _ =>
    ite (fun _ => h.reply _) fun _ => h.reply _

theorem writeConfig (h : Kept .event s) (part : Nat) (bs : List Byte) : Kept .event (writeConfig part bs s) := by
  unfold Machine.writeConfig
  extract_lets m t
  have set : Kept .event t := h.modPart fun ⟨_, staged⟩ => ⟨Memory.ofBytes_wf bs, staged⟩
  exact ite (fun _ => h.reply _) fun _ => set.reply _

theorem reserveRing (h : Kept .event s) (base : Nat) : Kept .event (reserveRing base s) := h.foldl _ fun _ _ _ kept => kept.setGranule _ _

theorem resetQueue (h : Kept .event s) (n : Nat) (fn : Option Nat) (base : Word) :
    Kept .event (s.modQueue n fun _ => { Queue.reset n with fn := fn, srbase := base }) := h.modQueue fun _ => rfl

theorem bindQueue (h : Kept .event s) (n fn : Nat) : Kept .event (bindQueue n fn s) :=
  ite (fun _ => h.reply _) fun _ => Kept.reply (Kept.resetQueue (ite (fun _ => h) fun _ => h.reserveRing _) _ _ _) _

theorem setWindows (h : Kept .event s) (a : Nat) (bs : List Byte) :
    Kept .event { s with saffron := { s.saffron with windows := s.saffron.windows.writeBytes a bs } } :=
  h.modSaffron ⟨h.saffron.1, Memory.writeBytes_wf _ _ h.saffron.2.1, h.saffron.2.2⟩

theorem writeInbound (h : Kept .event s) (win : Nat) (bs : List Byte) : Kept .event (writeInbound win bs s) :=
  ite (fun _ => h.reply _) fun _ => (h.setWindows _ _).reply _

theorem lockConfig (h : Kept .event s) : Kept .event (lockConfig s) := by
  unfold Machine.lockConfig
  extract_lets known good
  clear_value known good
  exact ite (fun _ => h.reply _) fun _ => ite (fun _ => (h.setPhase .configLocked s.resetting).reply _) fun _ => h.reply _

theorem completeLock (h : Kept .event s) : Kept .event (completeLock s) := ite (fun _ => (h.extend _ _).setPhase _ _) fun _ => h

/-! The table operations. -/

/-- A table operation that is performed keeps what is kept. -/
def Performs (f : State → Option State) : Prop := ∀ t u, Kept .event t → f t = some u → Kept .event u

theorem tableOp (h : Kept .event s) (op : Nat) (args : List Byte) {f : State → Option State} (performs : Performs f) : Kept .event (tableOp op args f s) := by
  unfold Machine.tableOp
  refine ite (fun _ => h.reply _) fun _ => ?_
  split
  · next at_ => exact Kept.reply (Kept.extend (performs s _ h at_) _ _) _
  · exact h.emit _

theorem setKeys (h : Kept .event s) (memkeys : List MemKey) (mckeys : List ControllerKeys) : Kept .event { s with memkeys := memkeys, mckeys := mckeys } := { h with }

/-- The unwrapping is not evaluated: its result is any. -/
theorem setMemKey (owner : Nat) (wrapped : List Byte) : Performs (setMemKey owner wrapped) := by
  intro t u h at_
  obtain ⟨unwrap, any⟩ : ∃ f, f = Crypto.kwUnwrap := ⟨_, rfl⟩
  unfold Machine.setMemKey at at_
  rw [← any] at at_
  split at at_
  · exact nomatch at_
  · split at at_
    · exact nomatch at_
    · cases at_
      exact Kept.loadKeys (h.setKeys _ t.mckeys) _ _

theorem dropMemKey (owner : Nat) : Performs (dropMemKey owner) := by
  intro t u h at_
  unfold Machine.dropMemKey at at_
  split at at_
  · exact nomatch at_
  · cases at_
    exact h.setKeys _ _

theorem takePage (h : Kept .event s) (pages : List Nat) (n : Nat) : Kept .event { s with vpages := pages, fresh := n } := { h with }

theorem grant (g owner : Nat) : Performs (grant g owner) := by
  intro t u h at_
  unfold Machine.grant at at_
  split at at_
  · exact nomatch at_
  · extract_lets e at at_
    clear_value e
    split at at_
    · cases at_
      exact h.setGranule _ _
    · split at at_
      · exact nomatch at_
      · cases at_
        exact Kept.setGranule (h.takePage _ _) _ _

theorem setSrls (h : Kept .event s) (l : List (Nat × List (BitVec 16))) : Kept .event { s with srls := l } := { h with }
theorem setSharers (h : Kept .event s) (g : Nat) (l : List (BitVec 16)) : Kept .event (setSharers g l s) := (h.setSrls _).setGranule _ _

theorem share (caller g : Nat) (grantee : BitVec 16) : Performs (share caller g grantee) := by
  intro t u h at_
  unfold Machine.share at at_
  extract_lets l at at_
  split at at_
  · exact nomatch at_
  · split at at_
    · cases at_; exact h
    · split at at_
      · exact nomatch at_
      · cases at_; exact h.setSharers _ _

theorem unshare (caller g : Nat) (grantee : BitVec 16) : Performs (unshare caller g grantee) := by
  intro t u h at_
  unfold Machine.unshare at at_
  split at at_
  · cases at_
    exact ite (fun _ => h) fun _ => h.setSharers _ _
  · exact nomatch at_

theorem addSeal (h : Kept .event s) (i : Nat) {m : Memory} (wf : m.wf = true) : Kept .event { s with seals := (i, m) :: s.seals } :=
  { h with seals := List.forall_mem_cons.mpr ⟨wf, h.seals⟩ }

theorem installSeal (g : Nat) (record : List Byte) : Performs (installSeal g record) := by
  intro t u h at_
  obtain ⟨key, any⟩ : ∃ f, f = weightKey := ⟨_, rfl⟩
  unfold Machine.installSeal at at_
  rw [← any] at at_
  extract_lets m at at_
  have wf : m.wf = true := Memory.ofBytes_wf record
  clear_value m
  split at at_
  · exact nomatch at_
  · split at at_
    · exact nomatch at_
    · cases at_
      exact Kept.setGranule (h.addSeal _ wf) _ _

theorem release (h : Kept .event s) (g : Nat) : Kept .event (release g s) :=
  ite (fun _ => { h with }) fun _ => h.tableOp _ _ fun t u kept at_ => by
    split at at_
    · cases at_
      exact kept.setGranule _ _
    · exact nomatch at_

theorem zeroGranule (h : Kept .event s) (g : Nat) : Kept .event (zeroGranule g s) := by
  unfold Machine.zeroGranule
  extract_lets a inside
  clear_value inside
  exact { h with mem := ⟨Memory.clear_wf _ _ h.mem.1, trivial⟩, dirty := tidy_filter h.dirty, queues := tidy_map h.queues fun _ => triggered }

theorem dropSeals (h : Kept .event s) {srls : List (Nat × List (BitVec 16))} {p : Nat × Memory → Bool} {pages : List Nat} :
    Kept .event { s with srls := srls, seals := s.seals.filter p, vpages := pages } := { h with seals := tidy_filter h.seals }

theorem completeRelease (h : Kept .event s) (g : Nat) : Kept .event (completeRelease g s) := by
  unfold Machine.completeRelease
  extract_lets e t u
  have zero : Kept .event t := h.zeroGranule g
  clear_value t
  exact ite (fun _ => h) fun _ => Kept.releaseHeld (Kept.setGranule zero.dropSeals _ _)

/-! The answers to management. -/

theorem execAbortCapsule (h : Kept .event s) (via : Option Nat) (part queue : Nat) (ctag : Word) : Ends .event (execAbortCapsule via part queue ctag s) :=
  Ends.event (onQueue (fun _ kept => kept.abortCommand _ _) h _ _ _)

theorem execTeardownQueue (h : Kept .event s) (via : Option Nat) (part queue : Nat) : Ends .event (execTeardownQueue via part queue s) :=
  Ends.event (onQueue (fun _ kept => (kept.tearDown _ _).reply _) h _ _ _)

theorem execResetPartition (h : Kept .event s) (via : Option Nat) (part : Nat) : Ends .event (execResetPartition via part s) :=
  Ends.event (onPart (fun _ kept => ite (fun _ => kept.reply _) fun _ => ite (fun _ => kept.reply _) fun _ => ite (fun _ => kept.reply _) fun _ =>
    (kept.beginReset _ _).reply _) h _ _)

theorem execWarmReset (h : Kept .event s) (via : Option Nat) : Ends .event (execWarmReset via s) :=
  Ends.event (wide (fun _ kept => ite (fun _ => kept.reply _) fun _ => kept.warmReset.reply _) h _)

theorem execColdReset (h : Kept .event s) (via : Option Nat) : Ends .event (execColdReset via s) :=
  Ends.event (wide (fun _ kept => ite (fun _ => kept.reply _) fun _ => kept.coldReset.reply _) h _)

theorem execReadEvlog (h : Kept .event s) (via : Option Nat) (part seq : Nat) : Ends .event (execReadEvlog via part seq s) :=
  Ends.event (ite (fun _ => wide (fun _ kept => kept.emit _) h _) fun _ => onPart (fun _ kept => ite (fun _ => kept.reply _) fun _ => kept.emit _) h _ _)

theorem execReadDump (h : Kept .event s) (via : Option Nat) (off : Nat) : Ends .event (execReadDump via off s) :=
  Ends.event (wide (fun _ kept => ite (fun _ => kept.reply _) fun _ => kept.emit _) h _)

theorem execDumpKey (h : Kept .event s) (via : Option Nat) : Ends .event (execDumpKey via s) :=
  Ends.event (wide (fun _ kept => by
    split
    · exact kept.reply _
    · exact ite (fun _ => kept.emit _) fun _ => kept.reply _) h _)

theorem execGetStatus (h : Kept .event s) (via : Option Nat) : Ends .event (execGetStatus via s) :=
  Ends.event (by
    split
    · exact h.emit _
    · exact ite (fun _ => h.reply _) fun _ => h.emit _)

theorem markCluster (h : Kept .event s) (cl : Nat) : Kept .event (s.modCluster cl fun c => { c with clstat := c.clstat ||| 1, mark := true }) := h.changeCluster fun x => x

theorem execFence (h : Kept .event s) (via : Option Nat) (cluster : Nat) : Ends .event (execFence via cluster s) :=
  Ends.event (onCluster (fun _ kept => ((kept.markCluster _).logFence _).reply _) h _ _)

theorem execUnfence (h : Kept .event s) (via : Option Nat) (cluster : Nat) : Ends .event (execUnfence via cluster s) :=
  Ends.event (onCluster (fun _ kept => kept.unfence _) h _ _)

theorem setBudget (h : Kept .event s) (n : Nat) : Kept .event { s with budget := n } := { h with }

theorem execSetBudget (h : Kept .event s) (via : Option Nat) (units : Nat) : Ends .event (execSetBudget via units s) :=
  Ends.event (wide (fun _ kept => ite (fun _ => kept.reply _) fun _ => (kept.setBudget _).reply _) h _)

theorem execConfigWrite (h : Kept .event s) (via : Option Nat) (part : Nat) (bytes : List Byte) : Ends .event (execConfigWrite via part bytes s) :=
  Ends.event (configure (fun _ kept => onPart (fun _ there => there.writeConfig _ _) kept _ _) h)

theorem execQueueBind (h : Kept .event s) (via : Option Nat) (queue fn : Nat) : Ends .event (execQueueBind via queue fn s) :=
  Ends.event (configure (fun _ kept => onPart (fun _ there => there.bindQueue _ _) kept _ _) h)

theorem execWindowWrite (h : Kept .event s) (via : Option Nat) (win : Nat) (bytes : List Byte) : Ends .event (execWindowWrite via win bytes s) :=
  Ends.event (configure (fun _ kept => onPart (fun _ there => there.writeInbound _ _) kept _ _) h)

theorem execLock (h : Kept .event s) (via : Option Nat) : Ends .event (execLock via s) := Ends.event (wide (fun _ kept => kept.lockConfig) h _)


theorem execPldmMonitor (h : Kept .event s) (sensor : PldmPoint) : Ends .event (execPldmMonitor sensor s) :=
  Ends.event (ite (fun _ => (h.setFresh _).emit _) fun _ => h.reply _)

theorem setFlash (h : Kept .event s) (off : Nat) (bytes : List Byte) : Kept .event { s with saffron :=
    if s.saffron.bootedB then { s.saffron with flashA := s.saffron.flashA.writeBytes off bytes, updated := some false }
    else { s.saffron with flashB := s.saffron.flashB.writeBytes off bytes, updated := some true } } := by
  refine h.modSaffron ?_
  obtain ⟨sram, windows, flashA, flashB⟩ := h.saffron
  split
  · exact ⟨sram, windows, Memory.writeBytes_wf _ _ flashA, flashB⟩
  · exact ⟨sram, windows, flashA, Memory.writeBytes_wf _ _ flashB⟩

theorem execPldmFirmwareUpdate (h : Kept .event s) (off : PldmPoint) (bytes : List Byte) : Ends .event (execPldmFirmwareUpdate off bytes s) :=
  Ends.event (wide (fun _ kept => (kept.setFlash _ _).reply _) h _)

/-! Peers. -/

theorem throughWindow (h : Kept .event s) {link dev win kind : Nat} {f : Window → State → State} (act : ∀ w t, Kept .event t → Kept .event (f w t)) :
    Kept .event (throughWindow link dev win kind f s) := by
  unfold Machine.throughWindow
  exact ite (fun _ => act _ _ h) fun _ => h.emit _

theorem peerWrite (h : Kept .event s) (link dev win off : Nat) (bytes : List Byte) : Kept .event (peerWrite link dev win off bytes s) :=
  h.throughWindow fun _ _ kept => ite (fun _ => kept.atHome _ _ _ _ fun _ home => home.writeUnit trivial) fun _ => kept.emit _

theorem peerRead (h : Kept .event s) (link dev win off len : Nat) : Kept .event (peerRead link dev win off len s) :=
  h.throughWindow fun _ _ kept => ite (fun _ => kept.atHome _ _ _ _ fun _ home => Kept.emit ((home.readLines _ _ _).outBytes _ _) _) fun _ => kept.emit _

theorem peerGate (h : Kept .event s) (link dev win : Nat) (value : Word) : Kept .event (peerGate link dev win value s) :=
  h.throughWindow fun _ _ kept => ite (fun _ => kept.atHome _ _ _ _ fun _ home => home.ringGate _ _ _ _) fun _ => kept.emit _

theorem peerDoorbell (h : Kept .event s) (link dev win : Nat) (value : Word) : Kept .event (peerDoorbell link dev win value s) :=
  h.throughWindow fun _ _ kept => kept.atHome _ _ _ _ fun _ home => home.ringDoorbell _ _ _

theorem setLinks (h : Kept .event s) (links : BitVec 12) : Kept .event { s with links := links } := { h with }

theorem execLinkDown (h : Kept .event s) (link : Nat) : Ends .event (execLinkDown link s) := Ends.event (ite (fun _ => h.setLinks _) fun _ => h)
theorem execLinkUp (h : Kept .event s) (link : Nat) : Ends .event (execLinkUp link s) := Ends.event (ite (fun _ => h.setLinks _) fun _ => h)

theorem execPeerRefusal (h : Kept .event s) (cap : Nat) (handle : Word) : Ends .event (execPeerRefusal cap handle s) :=
  Ends.event (h.abortCapsule (b := .event) trivial (bareReport_wf ..))

/-! SPDM. -/

theorem setSpdm (h : Kept .event s) (x : Spdm) : Kept .event (setSpdm x s) := { h with }
theorem spdmError (h : Kept .event s) (path code data : Nat) : Kept .event (spdmError path code data s) := h.emit _
theorem answerSpdm (h : Kept .event s) (path stage : Nat) (req resp : List Byte) : Kept .event (answerSpdm path stage req resp s) := (h.setSpdm _).emit _

theorem spdmRequest (h : Kept .event s) (path need after : Nat) (req : List Byte) (make : State → Option (List Byte)) :
    Kept .event (spdmRequest path need after req make s) := by
  unfold Machine.spdmRequest
  refine ite (fun _ => h.spdmError _ _ _) fun _ => ite (fun _ => (h.setSpdm _).spdmError _ _ _) fun _ => ?_
  split
  · exact h.spdmError _ _ _
  · exact h.answerSpdm _ _ _ _

theorem execGetVersion (h : Kept .event s) (path : Nat) (request : List Byte) : Ends .event (execGetVersion path request s) :=
  Ends.event ((h.setSpdm _).answerSpdm _ _ _ _)

theorem execChallenge (h : Kept .event s) (path : Nat) (request : List Byte) : Ends .event (execChallenge path request s) :=
  Ends.event ((h.spdmRequest _ _ _ _ _).setFresh _)

theorem execGetMeasurements (h : Kept .event s) (path : Nat) (request : List Byte) : Ends .event (execGetMeasurements path request s) :=
  Ends.event ((h.spdmRequest _ _ _ _ _).setFresh _)

end Kept

end Sys2Proof.Proofs
end

