-- ==== Sys2Proof/Proofs/KeptDispatch.lean ====
section
/-! PROOFS. Every instruction and every event keeps what a step keeps (O60). -/

namespace Sys2Proof.Proofs

open Sys2Proof Sys2Proof.Machine Sys2Proof.Claims

namespace Kept

variable {b : Bound} {s : State}

/-! Instructions. -/

theorem knows (b : Bound) : (b.at_ 2).Knows 1 := by
  cases b with
  | event => trivial
  | task st n => exact Nat.le_succ 1

/-- A task names a register of firmware in vain: the effect of its SYSWR is that on FLG or a fault. -/
theorem issueSyswr (h : Kept (b.at_ 2) s) (a : SReg) (n : BitVec 16) : Ends b.low (Machine.issue (.syswr a n) (opSyswr a n) s) := by
  by_cases open_ : sysPrivilege writableSysreg n.toNat = .open_
  · exact h.issue fun _ kept => kept.sysWrite_open _ open_
  · exact h.issuePrivileged open_ fun _ kept => kept.sysWrite _ _

/-- What has an encoding keeps what is kept, in an event's bound and in a task's. -/
theorem encoded_ends {i : Instr} (h : Kept (b.at_ 2) s) (coded : (encode i).isSome = true) : Ends b.low (exec i s) := by
  cases i with
  | add | sub | and | or | xor | shl | shr | sra | rol | min | max | minu | maxu | slt | sltu | seq | sel | mul | mulh | mulhu | div | divu | rem
  | remu | mov | clz | ctz | popc | bswap | hmk | hoff | hlen | hrgt =>
    exact h.issue (opScalar _ _ _)
  | time => exact h.issue (opTime _)
  | addi | andi | ori | xori | shli | shri | srai | ext | ins | movi => exact h.issue (opScalar _ _ _)
  | brEq | brNe | brLt | brGe | brLtu | brGeu => exact h.issue (opBranch _ _ _ _)
  | j => exact h.issue (opJ _)
  | jl => exact h.issue (opJl _)
  | jr => exact h.issue (opJr _ _)
  | send => exact h.issue (opSend _ _ _ _)
  | sendt => exact h.issue (opSendt _ _ _ _ _)
  | sendx => exact h.issue (opSendx _ _ _ _)
  | recv => exact h.issue (opRecv _ _)
  | trecv => exact h.issue (opTrecv _ _)
  | jnew => exact h.issue (opJnew _ _ _ _ _)
  | arrive => exact h.issue (opArrive _ _)
  | wqry => exact h.issue (opWqry _ _ _ _)
  | wait => exact h.issue (opWait _ _ _ _)
  | migr => exact h.issue opMigr
  | mret => exact h.issue opMret
  | spawn => exact h.issue (opSpawn _ _ _ _ _)
  | safe => exact h.issue (opSafe _)
  | done => exact h.issue opDone
  | cont => exact h.issue (opCont _ _ _ _)
  | nop => exact h.issue opNop
  | limm => exact settleAt (h.limmPair _)
  | ldB | ldH | ldW | ldD => exact h.issue (opLoad _ _ _ _ _)
  | stB | stH | stW | stD => exact h.issue (opStore (knows b) _ _ _ _ _)
  | ldc => exact h.issue (opLdc _ _ _ _)
  | lds => exact h.issue (opLds _ _ _)
  | sts => exact h.issue (opSts _ _ _ _)
  | amoadd | amoand | amoor | amoxor | amomin | amomax | amominu | amomaxu | amoswp | amocas | amofadd | amofmin | amofmax =>
    exact h.issue (opAmo (knows b) _ _ _ _ _ _ _)
  | amoaddNr | amoandNr | amoorNr | amoxorNr | amominNr | amomaxNr | amominuNr | amomaxuNr | amofaddNr | amofminNr | amofmaxNr =>
    exact h.issue (opAmoNr (knows b) _ _ _ _ _ _)
  | fenceX | fenceH => exact h.issue (opFence _ _ (tidy_silent rfl) (fun _ x => x) fun _ => rfl)
  | gate => exact h.issue (opGate _ _ _ _)
  | cinv => exact h.issue (opCinv _ _ _ _)
  | tld | tldc => exact h.issue (opTileLoad _ _ _ _ _ _)
  | tst => exact h.issue (opTst (knows b) _ _ _ _ _)
  | tlds => exact h.issue (opTlds _ _ _ _ _)
  | tsts => exact h.issue (opTsts _ _ _ _ _)
  | tshape => exact h.issue (opTshape _ _ _)
  | tshapeq => exact h.issue (opTshapeq _ _)
  | tclr => exact h.issue (opTclr _)
  | tmov => exact h.issue (opTmov _ _ _)
  | ttr => exact h.issue (opTtr _ _ _)
  | tbcr | tbcc => exact h.issue (opTbc _ _ _ _ _ _)
  | textr => exact h.issue (opTextr _ _ _ _ _)
  | tins => exact h.issue (opTins _ _ _ _ _)
  | vset => exact h.issue (opVset _ _ _ _ _)
  | vadv => exact h.issue (opVadv _ _ _ _ _)
  | vget => exact h.issue (opScalar _ _ _)
  | tadd | tsub | tmul => exact h.issue (opTwo _ _ _ _ _ _ _ _)
  | tfma => exact h.issue (opAlu _ _ _ _ _ _ _ _ _)
  | tmin | tmax => exact h.issue (opTwo _ _ _ _ _ _ _ _)
  | tabs | tneg => exact h.issue (opOne _ _ _ _ _ _)
  | tand | tor | txor | tshl | tshr | tsra => exact h.issue (opTwo _ _ _ _ _ _ _ _)
  | tscale | tsel => exact h.issue (opAlu _ _ _ _ _ _ _ _ _)
  | tcmpEq | tcmpNe | tcmpLt | tcmpLe => exact h.issue (opTwo _ _ _ _ _ _ _ _)
  | texp | tlog | trcp | trsq | tredrAdd | tredrMax | tredrMin | tredcAdd | tredcMax | tredcMin => exact h.issue (opOne _ _ _ _ _ _)
  | tdotr => exact h.issue (opTwo _ _ _ _ _ _ _ _)
  | tcvt => exact h.issue (opTcvt _ _ _ _ _)
  | tqnt => exact h.issue (opTqnt _ _ _ _ _ _ _)
  | tdq => exact h.issue (opTdq _ _ _ _ _ _ _)
  | tredx => exact h.issue (opTredx _ _ _ _)
  | mma | mmal | mmah16 | mmah32 | mmah64 | mmae | mmaeL | mmaeH16 | mmaeH32 | mmaeH64 => exact h.issue (opProduct _ _ _ _ _ _)
  | mldw => exact h.issue (opMldw _ _)
  | mlease => exact h.issue (opMlease _ _)
  | mrel => exact h.issue opMrel
  | mrdef => exact h.issue (opMrdef _ _ _ _)
  | mrq => exact h.issue (opScalar _ _ _)
  | mchk => exact h.issue (opMchk _)
  | mdrain => exact h.issue opMdrain
  | cpyMs | cpySm | cpyMr | cpyUr | cpyEs | cpySe => exact h.issue (opCpy _ _ _ _ _ _)
  | cpywp => exact h.issue (opScalar _ _ _)
  | cwait => exact h.issue (opCwait _ _ _ _)
  | own => exact h.issue (opOwn _ _ _)
  | mepi => exact h.issue (opMepi _ _ _ _)
  | trap => exact h.issue (opTrap _)
  | sysrd => exact h.issue (opSysrd _ _)
  | syswr => exact h.issueSyswr _ _
  | sealq => exact h.issue (opScalar _ _ _)
  | frep => exact h.issue (opFrep _)
  | diagrd => exact h.issuePrivileged (by nofun) (opDiagrd _ _)
  | diagwr => exact h.issuePrivileged (by nofun) (opDiagwr _ _)
  | repair => exact h.issuePrivileged (by nofun) (opRepair _ _)
  | mstat => exact h.issue (opScalar _ _ _)
  | halt => exact h.issuePrivileged (by nofun) opHalt
  | wfe => exact h.issuePrivileged (by nofun) opWfe
  | mmurd => exact h.issuePrivileged (by nofun) (opMmurd _ _)
  | mmuwr => exact h.issuePrivileged (by nofun) (opMmuwr _ _)
  | mmuinv => exact h.issuePrivileged (by nofun) (opMmuinv _)
  | kwrap => exact h.issuePrivileged (by nofun) (opKwrap _ _)
  | kunwrap => exact h.issuePrivileged (by nofun) (opKunwrap _ _)
  | kscrub => exact h.issuePrivileged (by nofun) (opKscrub _)
  | hashi => exact h.issuePrivileged (by nofun) (opHashi _)
  | hashu => exact h.issuePrivileged (by nofun) (opHashu _ _)
  | hashf => exact h.issuePrivileged (by nofun) (opHashf _ _)
  | ecsign => exact h.issuePrivileged (by nofun) (opEcsign _ _)
  | ecvrfy => exact h.issuePrivileged (by nofun) (opEcvrfy _ _)
  | aesenc => exact h.issuePrivileged (by nofun) (opAesenc _ _)
  | aesdec => exact h.issuePrivileged (by nofun) (opAesdec _ _)
  | rng => exact h.issuePrivileged (by nofun) (opRng _)
  | repf => exact settleAt (h.runRepf _ _ _ _ _)
  | _ => exact nomatch coded

/-! Events. -/

theorem execChunkCommit (h : Kept .event s) (id : Nat) : Ends .event (execChunkCommit id s) :=
  Ends.event (ite (fun _ => Kept.focused h.focused.arbiter) fun _ => h)

theorem execCopyElementDelivery (h : Kept .event s) (cluster chan : Nat) : Ends .event (execCopyElementDelivery cluster chan s) :=
  Ends.event (by
    split
    · exact Kept.slotFreed (Kept.releaseHeld (h.deliverElement _ _)) _
    · exact h)

theorem execWeightKeyLoad (h : Kept .event s) (cluster chan : Nat) : Ends .event (execWeightKeyLoad cluster chan s) :=
  Ends.event (by
    split
    · exact ite (fun _ => h.loadWeightKey _ _) fun _ => h
    · exact h)

theorem execSealGroupVerify (h : Kept .event s) (cluster chan : Nat) : Ends .event (execSealGroupVerify cluster chan s) :=
  Ends.event (by
    split
    · exact ite (fun _ => h.verifyGroup _ _) fun _ => h
    · exact h)

theorem setRetained (h : Kept .event s) (us : List Nat) : Kept .event { s with retained := us } := { h with }

theorem illegal (h : Kept .event s) (w : BitVec 32) : Ends .event (execIllegalInstruction w s) := settle (b := .event) (h.faultOf _) _

theorem ringCluster (h : Kept .event s) {cl : Nat} : Kept .event (s.modCluster cl fun c => { c with doorbell := true }) := h.modCluster rfl fun x => x

/-- What has none is an event. -/
theorem event_ends {i : Instr} (h : Kept .event s) (bare : encode i = none) : Ends .event (exec i s) := by
  cases i with
  | evSummaryWrite => exact Ends.event (h.deliverSummary _ _)
  | evSafeDistance => exact Ends.event (h.onAny _ fun _ kept => kept.safeDistance)
  | evWaitSafePoint => exact Ends.event (h.onAny _ fun _ kept => kept.waitSafePoint)
  | evChunkCommit => exact h.execChunkCommit _
  | evCoreClearComplete => exact Ends.event (h.finishClear _)
  | evMessageDelivery => exact Ends.event (h.deliverMessage _ _)
  | evPlacementWalk => exact Ends.event (h.walk _)
  | evDataMessageArrival => exact Ends.event (h.arriveData _)
  | evContinuationResume => exact Ends.event (h.resumeAt _ _)
  | evRegisterClearComplete => exact Ends.event (h.onAny _ fun _ kept => kept.finishRegisters)
  | evMigrationArrival => exact Ends.event (h.onAny _ fun _ kept => kept.migrationArrival)
  | evCuminQuery => exact Ends.event (h.cuminQuery _)
  | evWqryAnswer => exact Ends.event (h.landAnswer _)
  | evCopyStart => exact Ends.event (h.startWaiting _ _)
  | evCopyElementDelivery => exact h.execCopyElementDelivery _ _
  | evWeightKeyLoad => exact h.execWeightKeyLoad _ _
  | evSealGroupVerify => exact h.execSealGroupVerify _ _
  | evGrantBatch => exact Ends.event (h.arbitrate _)
  | evGrantExpiry => exact Ends.event (h.expireGrant _)
  | evWeightLoadComplete => exact Ends.event (h.modHart (fun _ x => x) (fun _ => rfl) fun _ => rfl)
  | evResidueCheckComplete => exact Ends.event (h.checkProduct _ _)
  | evLeaseScrubComplete => exact Ends.event (h.scrubComplete _)
  | evCoreParityError => exact Ends.event (h.onAny _ fun _ kept => kept.coreParity)
  | evParityRequeueTimeout => exact Ends.event (h.onAny _ fun _ kept => kept.parityTimeout)
  | evPairCommitTimeout => exact Ends.event (h.onAny _ fun _ kept => kept.pairTimeout)
  | evSpecWayTimeout => exact Ends.event (h.onAny _ fun _ kept => kept.specWayTimeout)
  | evExclusiveTokenRelease => exact Ends.event (h.onAny _ fun _ kept => kept.releaseToken)
  | evCapsuleComplete => exact Ends.event (h.completeCapsule _)
  | evJoinStall => exact Ends.event (h.joinStall _)
  | evDeadline => exact Ends.event (h.deadline _)
  | evLeaseOverrun => exact Ends.event (h.leaseOverrun _)
  | evEngineStall => exact Ends.event (h.engineStall _ _)
  | evQueueStall => exact Ends.event (h.queueStall _)
  | evHeartbeatEcho => exact Ends.event (h.echo _ _)
  | evHeartbeatFailure => exact Ends.event (h.heartbeatFailure _)
  | evQueueSelect => exact Ends.event (ite (fun _ => h.select) fun _ => h)
  | evAdmitHead => exact Ends.event (h.admitHead _)
  | evPendingSlotCopy => exact Ends.event (h.copyPending _)
  | evArmingWindowEntry => exact Ends.event (h.enterWindow _)
  | evLaunchRelease => exact Ends.event (h.launchDue _)
  | evGatePoll => exact Ends.event (h.pollGate _)
  | evPreemptionSearch => exact Ends.event (h.searchVictims _)
  | evClaimExpiry => exact Ends.event (h.expireClaim _)
  | evPowerDivision => exact Ends.event h.dividePower
  | evClusterPowerGate => exact Ends.event (h.gateCluster _)
  | evClusterWake => exact Ends.event (h.wakeCluster _)
  | evRetentionEntry => exact Ends.event (ite (fun _ => h.setRetained _) fun _ => h)
  | evRetentionExit => exact Ends.event (h.leaveRetention _)
  | evTier1Writeback => exact Ends.event (h.writeBack _)
  | evEpochReencrypt => exact Ends.event (h.reencrypt _)
  | evArrayDiagnosis => exact Ends.event (h.diagnose _ _)
  | evSummaryTimeout => exact Ends.event (h.summaryTimeout _)
  | evPackageFatalError => exact Ends.event (h.packageFatal _)
  | evWarmResetTimeout => exact Ends.event (ite (fun _ => h.coldReset) fun _ => h)
  | evPowerUp => exact Ends.event h.powerUp
  | evImageDelivery => exact Ends.event (h.deliverImage _ _)
  | evInputOutOfRange => exact Ends.event (h.inputOut _)
  | evInputLoss => exact Ends.event (ite (fun _ => h) fun _ => h.coldReset)
  | evPtpFrame | evPpsInput => exact Ends.event (h.measure _ _)
  | evPpsOutput => exact Ends.event h.ppsOut
  | evPeerMemoryWrite => exact Ends.event (h.peerWrite _ _ _ _ _)
  | evPeerMemoryRead => exact Ends.event (h.peerRead _ _ _ _ _)
  | evPeerGate => exact Ends.event (h.peerGate _ _ _ _)
  | evPeerDoorbell => exact Ends.event (h.peerDoorbell _ _ _ _)
  | evLinkDown => exact h.execLinkDown _
  | evGoWrite => exact Ends.event (h.serveVf _ fun _ kept => ite (fun _ => kept.takeGo _ _) fun _ => kept)
  | evQcfgWrite => exact Ends.event (h.serveVf _ fun _ kept => ite (fun _ => kept.setQcfg _ _) fun _ => kept)
  | evHostRegisterWrite =>
    exact Ends.event (ite (fun _ => h.servePf fun _ kept => kept.writePf _ _) fun _ => h.serveVf _ fun _ kept => kept.writeVf _ _ _)
  | evDoorbellCountRead => exact Ends.event (h.serveVf _ fun _ kept => kept.readDoorbell _ _)
  | evCtailWrite => exact Ends.event (h.serveVf _ fun _ kept => kept.setCtail _ _)
  | evHostRead => exact Ends.event (h.hostRead _ _ _)
  | evHostWrite => exact Ends.event (h.hostWrite _ _ _)
  | evHostFetchadd => exact Ends.event (h.hostFetchadd _ _ _ _)
  | evHostSwap => exact Ends.event (h.hostSwap _ _ _ _)
  | evHostCas => exact Ends.event (h.hostCas _ _ _ _ _)
  | evTier1MapWrite => exact Ends.event (h.servePf fun _ kept => kept.writeMap _ _)
  | evFunctionLevelReset => exact Ends.event (ite (fun _ => h) fun _ => h.beginReset _ _)
  | evAbortCapsule => exact h.execAbortCapsule _ _ _ _
  | evTeardownQueue => exact h.execTeardownQueue _ _ _
  | evResetPartition => exact h.execResetPartition _ _
  | evWarmReset => exact h.execWarmReset _
  | evColdReset => exact h.execColdReset _
  | evReadEvlog => exact h.execReadEvlog _ _ _
  | evReadDump => exact h.execReadDump _ _
  | evDumpKey => exact h.execDumpKey _
  | evFence => exact h.execFence _ _
  | evUnfence => exact h.execUnfence _ _
  | evSetBudget => exact h.execSetBudget _ _
  | evGetStatus => exact h.execGetStatus _
  | evManagementWake => exact Ends.event (h.wakeHalted _)
  | evConfigWrite => exact h.execConfigWrite _ _ _
  | evQueueBind => exact h.execQueueBind _ _ _
  | evWindowWrite => exact h.execWindowWrite _ _ _
  | evLock => exact h.execLock _
  | evLockComplete => exact Ends.event h.completeLock
  | evKeyset => exact Ends.event (h.tableOp _ _ (setMemKey _ _))
  | evKeydrop => exact Ends.event (h.tableOp _ _ (dropMemKey _))
  | evGrant => exact Ends.event (h.tableOp _ _ (grant _ _))
  | evShare => exact Ends.event (h.tableOp _ _ (share _ _ _))
  | evUnshare => exact Ends.event (h.tableOp _ _ (unshare _ _ _))
  | evSeal => exact Ends.event (h.tableOp _ _ (installSeal _ _))
  | evRelease => exact Ends.event (h.release _)
  | evReleaseComplete => exact Ends.event (h.completeRelease _)
  | evPldmMonitor => exact h.execPldmMonitor _
  | evPldmFirmwareUpdate => exact h.execPldmFirmwareUpdate _ _
  | evGetVersion => exact h.execGetVersion _ _
  | evGetCapabilities | evNegotiateAlgorithms | evGetDigests | evGetCertificate => exact Ends.event (h.spdmRequest _ _ _ _ _)
  | evChallenge => exact h.execChallenge _ _
  | evGetMeasurements => exact h.execGetMeasurements _ _
  | evSpdmUnsupportedRequest => exact Ends.event (h.spdmError _ _ _)
  | evIllegalInstruction => exact h.illegal _
  | evProducerCompletion => exact Ends.event (h.onAny _ fun _ kept => kept.completeProducer)
  | evWaitTimeReached => exact Ends.event (h.onAny _ fun _ kept => kept.reachTime)
  | evPowerShareAvailable => exact Ends.event (h.shareAvailable _)
  | evHoldover => exact Ends.event h.holdover
  | evLinkUp => exact h.execLinkUp _
  | evPeerRefusal => exact h.execPeerRefusal _ _
  | evManagementDoorbell => exact Ends.event (Kept.endWfe h.ringCluster _)
  | evCompletionWriteError => exact Ends.event (h.tearDown _ _)
  | _ => exact nomatch bare

theorem exec_ends (h : Kept .event s) (i : Instr) : Ends .event (exec i s) := by
  cases coded : encode i with
  | none => exact h.event_ends coded
  | some w => exact h.encoded_ends (b := .event) (by rw [coded]; rfl)

end Kept

end Sys2Proof.Proofs
end

