-- ==== Sys2Proof/Proofs/KeptStep.lean ====
section
/-! PROOFS. The time of a step, whose turn it is and the whole step keep the memories in canonical form; and O60. -/

namespace Sys2Proof.Proofs

open Sys2Proof Sys2Proof.Machine Sys2Proof.Claims

namespace Kept

variable {s : State}

/-! Time. -/

theorem watchJoins (h : Kept .event s) : Kept .event (watchJoins s) :=
  { h with caps := caps_map (b := .event) (fun _ ⟨record, launch⟩ => ⟨record, launch⟩) (fun _ => rfl) h.caps }

/-- Clocks, clusters and queues whose times run. -/
theorem passTime (h : Kept .event s) {fresh : Nat} {clock : Nat} {sumac : Sumac} {f : Cluster → Cluster} {g : Queue → Queue}
    (cluster : ∀ c, TidyCluster c → TidyCluster (f c)) (queue : ∀ q, q.slots.wf = true → (g q).slots.wf = true) :
    Kept .event { s with fresh := fresh, clock := clock, sumac := sumac, clusters := s.clusters.map f, queues := s.queues.map g } :=
  { h with clusters := ⟨tidy_map h.clusters.1 cluster, trivial⟩, queues := tidy_map h.queues queue }

theorem tick (h : Kept .event s) : Kept .event (tick s) := by
  unfold Machine.tick
  extract_lets t n
  have watched : Kept .event t := h.watchJoins
  clear_value t n
  refine watched.passTime (fun c ⟨buffer, mmu, park, data⟩ => ⟨buffer, mmu, park, data⟩) fun q wf => ?_
  split
  · exact wf
  · exact wf

theorem retry (h : Kept .event s) (i : Request) : Kept .event (retry i s) := by
  cases i with
  | read => exact h.hostRead _ _ _
  | write => exact h.hostWrite _ _ _
  | fetchadd => exact h.hostFetchadd _ _ _ _
  | swap => exact h.hostSwap _ _ _ _
  | cas => exact h.hostCas _ _ _ _ _
  | peerWrite => exact h.peerWrite _ _ _ _ _
  | peerRead => exact h.peerRead _ _ _ _ _
  | peerGate => exact h.peerGate _ _ _ _
  | peerDoorbell => exact h.peerDoorbell _ _ _ _

theorem setPending (h : Kept .event s) (l : List Request) : Kept .event { s with pending := l } := { h with }
theorem setReleasing (h : Kept .event s) (l : List Nat) : Kept .event { s with releasing := l } := { h with }
theorem setAgenda (h : Kept .event s) (l : List Turn) : Kept .event { s with agenda := l } := { h with }

theorem pass (h : Kept .event s) : Kept .event (pass s) :=
  have retried : Kept .event (retryAll (Machine.tick s)) := (h.tick.setPending []).foldl _ fun _ i _ kept => kept.retry i
  (retried.setReleasing []).foldl _ fun _ g _ kept => kept.release g

/-! Turns. -/

theorem stopped {x : Halt} (h : Stays .event x) : Ends .event (Machine.settle {} (.error x)) := settle (b := .event) (r := .error x) h _

theorem runNext (h : Kept .event s) : Ends .event (runNext s) := by
  have fetched := h.startIssue.fetch
  unfold Machine.runNext
  split
  · next at_ => rw [at_] at fetched; exact exec_ends fetched _
  · next at_ => rw [at_] at fetched; exact illegal fetched _
  · next at_ => rw [at_] at fetched; exact stopped fetched

theorem prepare (h : Kept .event s) : Goes .event (prepare s) :=
  Safe.ite (fun _ => Safe.bind h.rebindLease fun _ kept => Safe.ite (fun _ => kept.restartCopy) fun _ => kept) fun _ => h

theorem takeToken (h : Kept .event s) : Goes .event (takeToken s) :=
  Safe.ite (fun _ => Safe.ite (fun _ => { h with }) fun _ => h) fun _ => h

theorem issueNext (h : Kept .event s) : Ends .event (issueNext s) := by
  have token := h.takeToken
  unfold Machine.issueNext
  split
  · next at_ => rw [at_] at token; exact stopped token
  · next t at_ =>
    rw [at_] at token
    have ready := Kept.prepare token
    split
    · next at_ => rw [at_] at ready; exact stopped ready
    · next at_ => rw [at_] at ready; exact Kept.runNext ready

theorem endService (h : Kept .event s) : Kept .event (endService s) := by
  unfold Machine.endService
  extract_lets t
  have later : Kept .event t := h.setFresh _
  exact ite (fun _ => Kept.mod later.serviceResults rfl (tidy_ran rfl rfl)) fun _ => later

theorem stays (h : Kept .event s) : Ends .event (.next s) := fun _ e => Host.Outcome.next.inj e ▸ h

theorem turn (h : Kept .event s) : Ends .event (turn s) := by
  have issues : Ends .event (if coreStopped s then .next s else Machine.issueNext s) := by
    split
    · exact h.stays
    · exact h.issueNext
  unfold Machine.turn
  split
  · exact h.stays
  · split
    · exact h.completeProducer.stays
    · split
      · exact issues
      · exact h.migrationArrival.stays
      · exact h.migrationArrival.stays
      · exact h.migrationArrival.stays
      · exact issues
      · exact h.finishRegisters.stays
      · exact h.execChunkCommit _
      · exact (h.endWfe _).stays
      · exact h.endService.stays
      · exact h.stays
      · exact h.stays
      · exact h.stays
      · exact h.stays

theorem turnEvent (h : Kept .event s) (i : Instr) : Ends .event (turnEvent i s) := by
  unfold Machine.turnEvent
  split
  · exact h.stays
  · exact h.exec_ends i

theorem step (h : Kept .event s) : Ends .event (step s) := by
  show Ends .event (take s)
  unfold take
  split
  · exact (h.setAgenda _).pass.turnEvent _
  · exact ((h.setAgenda _).pass.focused).turn
  · exact Ends.event ((h.setAgenda _).pass.packageFatal _)
  · exact h.pass.turn

/-! An instruction of a task. -/

/-- Where an instruction of a task starts. -/
theorem ofTask (h : Canonical s) (task : s.hart.kind = .task)
    (pair : ∀ p g, s.hart.partner = some p → g ∈ s.harts → g.id = p → g.kind = .task ∧ g.cap = s.hart.cap) : Kept (.task s 2) s := by
  have old := kept_event.mpr h
  have mine : Mine s s.hart.id := ⟨s.hart, List.mem_cons_self, rfl, task, rfl⟩
  refine ⟨⟨old.harts.tidy, ⟨s.hart, List.mem_cons_self, rfl, rfl, rfl, .inr rfl⟩, ⟨mine, fun _ => ⟨task, rfl⟩, fun _ p partner g there => pair p g partner there⟩,
    fun x hx => ⟨(old.harts.rest x hx).1, ⟨x, List.mem_cons_of_mem _ hx, rfl, rfl, rfl, .inr rfl⟩⟩⟩, ⟨old.mem.1, fun _ _ => rfl⟩, old.host, old.cores,
    ⟨old.clusters.1, fun _ => rfl⟩, old.net, old.heldx, ⟨old.caps.1, rfl⟩, old.reports, old.queues, old.parts, old.saffron, old.seals, old.dirty⟩

variable {t : State} {n : Nat}

/-- What of a cluster is not a task's to write. -/
theorem sides (h : Kept (.task s n) t) (cl : Nat) : let a := s.cluster cl
    let b := t.cluster cl
    b.fwvec = a.fwvec ∧ b.fwcode = a.fwcode ∧ b.fwpc = a.fwpc ∧ b.fwdetail = a.fwdetail ∧ b.mmuctl = a.mmuctl ∧ b.mmu = a.mmu ∧
    b.clstat = a.clstat ∧ b.summary = a.summary ∧ b.repair = a.repair := by
  have same : side (t.cluster cl) = side (s.cluster cl) := h.clusters.2 cl
  simp only [side, Prod.mk.injEq] at same
  obtain ⟨-, ⟨fwvec, fwcode, fwpc, fwdetail⟩, ⟨mmuctl, mmu⟩, ⟨clstat, summary⟩, repair⟩ := same
  exact ⟨fwvec, fwcode, fwpc, fwdetail, mmuctl, mmu, clstat, summary, repair⟩

theorem seen_of (h : Kept (.task s n) t) {x : Hart} (there : x ∈ t.harts) : (Bound.task s n).Seen x := by
  obtain rfl | parked := List.mem_cons.mp there
  · exact h.harts.seen
  · exact (h.harts.rest x parked).2

/-- A context that is none of the capsule's keeps its registers. -/
theorem others (h : Kept (.task s n) t) {x : Hart} (there : x ∈ t.harts) (other : ∀ g ∈ s.harts, g.id = x.id → g.kind ≠ .task ∨ g.cap ≠ s.hart.cap) :
    ∃ g ∈ s.harts, g.id = x.id ∧ g.kind = x.kind ∧ g.r = x.r := by
  obtain ⟨g, from_, id, kind, -, own⟩ := h.seen_of there
  refine ⟨g, from_, id, kind, own.resolve_left ?_⟩
  rintro ⟨m, listed, named, task, cap⟩
  exact (other m listed named).elim (absurd task) (absurd cap)

end Kept

/-- Settles O60: each operation of the model keeps what `Kept` says; the step is made of them, and an instruction of a task starts with its own known. -/
theorem stepKeepsMemory : Obligations.StepKeepsMemory := by
  unfold Obligations.StepKeepsMemory
  refine ⟨fun s t canonical next_ => kept_event.mp ((kept_event.mpr canonical).step t next_), fun i s t canonical coded task pair next_ => ?_⟩
  have kept : Kept (.task s 0) t := Kept.encoded_ends (b := .task s 0) (Kept.ofTask canonical task pair) coded t next_
  exact ⟨kept.sides, fun x there other => kept.others there other, kept.mem.2⟩

end Sys2Proof.Proofs
end
